-- ==== Sys2Proof/Word.lean ====
section
/-! DEFINITION. The word types of the part and the sparse tables that hold registers, lanes and memory.
A table is a list of keys and values in one canonical form (keys strictly rising, no entry at the default), so that
equal contents are equal data. -/

namespace Sys2Proof

/-- A scalar register and a 64-bit lane mask (spec/04 R74, R80). -/
abbrev Word := BitVec 64

/-- A 32-bit lane register (spec/03 R40). -/
abbrev Lane32 := BitVec 32

/-- One byte of memory (spec/00 R5). -/
abbrev Byte := BitVec 8

/-- A sparse table: key and value, keys strictly rising. -/
abbrev Tab (α : Type) := List (Nat × α)

namespace Tab

/-- The value at a key, if one is listed. -/
def find? {α : Type} : Tab α → Nat → Option α
  | [], _ => none
  | (k, v) :: t, a => if k = a then some v else find? t a

/-- The value at a key, or the default of an unlisted key. -/
def getD {α : Type} (t : Tab α) (a : Nat) (d : α) : α := (t.find? a).getD d

/-- List a value at a key, in place in the rising order. -/
def insert {α : Type} : Tab α → Nat → α → Tab α
  | [], a, x => [(a, x)]
  | (k, v) :: t, a, x =>
    if a < k then (a, x) :: (k, v) :: t
    else if a = k then (a, x) :: t
    else (k, v) :: insert t a x

/-- Unlist a key. -/
def erase {α : Type} : Tab α → Nat → Tab α
  | [], _ => []
  | (k, v) :: t, a => if k = a then erase t a else (k, v) :: erase t a

/-- Write a value where `d` is what an unlisted key reads as: writing `d` unlists the key. -/
def set {α : Type} [DecidableEq α] (t : Tab α) (a : Nat) (x d : α) : Tab α :=
  if x = d then t.erase a else t.insert a x

/-- Change the value at a listed key; an unlisted key stays unlisted. -/
def modify {α : Type} (t : Tab α) (a : Nat) (f : α → α) : Tab α :=
  t.map fun e => if e.1 = a then (e.1, f e.2) else e

/-- Keys strictly rising, all above `lo` where a bound is given. -/
def risingFrom {α : Type} : Option Nat → Tab α → Bool
  | _, [] => true
  | lo, (k, _) :: t =>
    (match lo with
      | none => true
      | some l => decide (l < k)) && risingFrom (some k) t

/-- The canonical form: keys strictly rising and no entry at the default. -/
def canonical {α : Type} [DecidableEq α] (t : Tab α) (d : α) : Bool :=
  risingFrom none t && t.all fun e => decide (e.2 ≠ d)

end Tab

/-- Bit `i` of a bit vector, as a Bool. -/
abbrev bit {w : Nat} (x : BitVec w) (i : Nat) : Bool := x.getLsbD i

/-- `x` with bit `i` set or cleared. -/
def setBit {w : Nat} (x : BitVec w) (i : Nat) (b : Bool) : BitVec w :=
  if b then x ||| BitVec.ofNat w (2 ^ i) else x &&& ~~~ (BitVec.ofNat w (2 ^ i))

/-- The value 1 or 0 of a condition. -/
abbrev boolWord (b : Bool) : Word := if b then 1 else 0

/-- The mask of the lanes below `w`. -/
def maskBelow (w : Nat) : Word := BitVec.ofNat 64 (2 ^ w - 1)

/-- The mask of the lanes (below `w`) that meet a condition. -/
def maskOf (w : Nat) (p : Nat → Bool) : Word :=
  BitVec.ofNat 64 ((List.range w).foldl (fun acc l => if p l then acc + 2 ^ l else acc) 0)

/-- The lanes named by a mask, rising. -/
def lanesOf (m : Word) : List Nat := (List.range 64).filter fun l => bit m l

/-- The number of lanes named by a mask. -/
def popCount (m : Word) : Nat := (lanesOf m).length

/-- A count that saturates at `top`. -/
def satAdd (top a b : Nat) : Nat := min top (a + b)

end Sys2Proof
end

