-- ==== Sys2Proof/Syntax.lean ====
section
/-! DEFINITION. The steps of the part as a type: one constructor for each row of spec/opcode_table.json, scalar words
first, then lane words, then the events that have no word of their own (spec/95_what_each_step_holds.md), each in
the table's order. (The compiler can build at most 244 constructors of one type as run-time objects, so the steps that
a decoder builds stand first; Lean's kernel has no such limit.) -/

namespace Sys2Proof

/-- A scalar register field, `s0` to `s63` (spec/02 R13). -/
abbrev SReg := BitVec 6
/-- A capability register field, `c0` to `c15` (spec/02 R13). -/
abbrev CReg := BitVec 4

/-- The in-flight paths (spec/05 R103). -/
inductive Path where
  | ld | st | cp | mx | cl | fx
  deriving DecidableEq, Repr

/-- The scopes of the ordered words (spec/13 R218). -/
inductive Scope where
  | g | t | k | d | v | y
  deriving DecidableEq, Repr

/-- The operations of the atomics (spec/13 R224). -/
inductive AmoOp where
  | add | and | or | xor | max | min | swap | cas
  deriving DecidableEq, Repr

/-- The orders of `sy.rmw` (spec/13 R224). -/
inductive Ord where
  | rlx | acq | rel | ar
  deriving DecidableEq, Repr

/-- The formats of the matrix engine (spec/14 R239). -/
inductive MxFmt where
  | d8 | f16 | b16 | p8 | p16
  deriving DecidableEq, Repr

/-- The types of the pairable operations (spec/02 R23). -/
inductive NTy where
  | i32 | n32 | f32 | f16 | b16
  deriving DecidableEq, Repr

/-- The pairable operations, OP7[6:3] (spec/02 R23). -/
inductive NOp where
  | add | sub | mul | fma | min | max | and | or | xor | shl | shr | mov | abs | neg | mulhi | clamp
  deriving DecidableEq, Repr

/-- The fields of a wide lane word but for OP10 (spec/02 R17). A selector field that the operation does not read is
kept as it stands. -/
structure Wide where
  ce : Bool
  ms : BitVec 3
  dst : BitVec 8
  ws : Bool
  le : Bool
  lt : BitVec 2
  sa : BitVec 9
  la : Bool
  sb : BitVec 9
  lb : Bool
  sc : BitVec 9
  lc : Bool
  mod : BitVec 16
  imm : BitVec 23
  deriving DecidableEq, Repr

namespace Wide
/-- MOD16[15:12], the type code (spec/02 R20). -/
def ty (w : Wide) : Nat := (w.mod.extractLsb' 12 4).toNat
/-- MOD16[11:9], the rounding mode. -/
def rm (w : Wide) : Nat := (w.mod.extractLsb' 9 3).toNat
/-- MOD16[8], flush subnormals. -/
def fz (w : Wide) : Bool := bit w.mod 8
/-- MOD16[7], saturate. -/
def sat (w : Wide) : Bool := bit w.mod 7
/-- MOD16[6:2], AUX5. -/
def aux5 (w : Wide) : Nat := (w.mod.extractLsb' 2 5).toNat
/-- MOD16[1:0], AUX2. -/
def aux2 (w : Wide) : Nat := (w.mod.extractLsb' 0 2).toNat
/-- MOD16[6:1], the capability quad of a memory word (spec/08 R163). -/
def qk (w : Wide) : Nat := (w.mod.extractLsb' 1 6).toNat
/-- MOD16[4:1], the scalar capability register of a memory word (spec/08 R163). -/
def ck (w : Wide) : BitVec 4 := w.mod.extractLsb' 1 4
/-- MOD16[0], the flag of a memory word (spec/08 R163). -/
def flag (w : Wide) : Bool := bit w.mod 0
end Wide

/-- The fields of one narrow operation but for OP7 (spec/02 R22). -/
structure Narrow where
  dst : BitVec 8
  ws : Bool
  sa : BitVec 8
  la : Bool
  sb : BitVec 8
  lb : Bool
  sc : BitVec 8
  lc : Bool
  mod : BitVec 4
  deriving DecidableEq, Repr

/-- The slot Y of a pair word: a narrow operation, or `v.nop`, whose other 40 bits are ignored (spec/02 R22, R23). -/
inductive Slot where
  | op (o : NOp) (t : NTy) (f : Narrow)
  | nop (raw : BitVec 40)
  deriving DecidableEq, Repr

/-- The two words that hold a `v.nop`: a pair word whose slot X is the no-operation, and the wide word with
OP10 = OP7 = 0x7F (spec/02 R23; notes/assumptions/13). -/
inductive NopForm where
  | pair (ce : Bool) (raw : BitVec 40) (y : Slot)
  | wide (w : Wide)
  deriving DecidableEq, Repr

/-- A reserved encoding, by its KIND (spec/02 R28), and for KIND 5 whether slot Y was found first (R29). -/
inductive Reserved where
  | major | fn | cond | unused | op10 | op7 (slotY : Bool) | selector | modifier | sEmu | vEmu
  deriving DecidableEq, Repr

/-- What one member of a collective brought (spec/22 R365): its rank, whether its OP, TY, RED, LEN and ROOT agree
with this device's, and its SRC bytes. An outside input. -/
structure ClMember where
  rank : Nat
  agrees : Bool
  data : List Byte
  /-- which bytes lie in a poisoned sector of its source -/
  psn : List Bool
  deriving DecidableEq, Repr

/-- What happens to BOOTST.STAGE (spec/21 R345). -/
inductive BootNext where
  | firmware | reduced | full | failed (code : BitVec 4)
  deriving DecidableEq, Repr

/-- The modes of the host port (spec/22 R348). -/
inductive LinkMode where
  | pcie | cxl
  deriving DecidableEq, Repr

/-- What a request of a sync word asks of its object at the home (spec/13 R220, R223): nothing, a store or an atomic that is no
release, a release with its STATE, a descriptor to bind in the lowest free place, the place to unbind. -/
inductive SyncPart where
  | no | plain | release (st : Word) | bind (w : Word) | unbind (k : Nat)
  deriving DecidableEq, Repr

/-- A request of a peer, arriving through a Swiund port (spec/22 R359): its port, the peer's colour, whether it
travels on a stream keyed to the owner partition, its local address, what it asks for. An outside input. -/
structure PeerRequest where
  port : Nat
  colour : Nat
  keyed : Bool
  addr : Nat
  len : Nat
  write : Option (List Byte)
  envelope : Bool
  poisoned : Bool
  operand : Bool
  atomic : Option (AmoOp × Word × Word)
  sync : SyncPart := .no
  /-- the peer that it comes from -/
  source : Option Nat := none
  deriving DecidableEq, Repr

/-- A request of the host, arriving through the host port (spec/22 R356, spec/21 R338): bound partition of its IDE
stream if any, the address and what it asks for. An outside input. -/
structure HostRequest where
  ide : Option Nat
  part : Nat
  colour : Nat
  addr : Nat
  len : Nat
  write : Option (List Byte)
  poisoned : Bool
  /-- the read of an operand loader (spec/21 R341) -/
  operand : Bool := false
  deriving DecidableEq, Repr

/-- The steps of the part (spec/opcode_table.json, one constructor per row). -/
inductive Instr where
  | sAdd (d a b : SReg) -- s.add R93
  | sSub (d a b : SReg) -- s.sub R93
  | sAnd (d a b : SReg) -- s.and R93
  | sOr (d a b : SReg) -- s.or R93
  | sXor (d a b : SReg) -- s.xor R93
  | sAndn (d a b : SReg) -- s.andn R93
  | sShl (d a b : SReg) -- s.shl R93
  | sShr (d a b : SReg) -- s.shr R93
  | sSra (d a b : SReg) -- s.sra R93
  | sMul (d a b : SReg) -- s.mul R93
  | sMulhI (d a b : SReg) -- s.mulh.i R93
  | sMulhN (d a b : SReg) -- s.mulh.n R93
  | sDivI (d a b : SReg) -- s.div.i R95
  | sDivN (d a b : SReg) -- s.div.n R95
  | sRemI (d a b : SReg) -- s.rem.i R95
  | sRemN (d a b : SReg) -- s.rem.n R95
  | sSeq (d a b : SReg) -- s.seq R93
  | sSne (d a b : SReg) -- s.sne R93
  | sSlt (d a b : SReg) -- s.slt R93
  | sSltn (d a b : SReg) -- s.sltn R93
  | sMinI (d a b : SReg) -- s.min.i R93
  | sMaxI (d a b : SReg) -- s.max.i R93
  | sMinN (d a b : SReg) -- s.min.n R93
  | sMaxN (d a b : SReg) -- s.max.n R93
  | sSel (d a b : SReg) -- s.sel R93
  | sClz (d a : SReg) -- s.clz R93
  | sCtz (d a : SReg) -- s.ctz R93
  | sPopc (d a : SReg) -- s.popc R93
  | sBswap (d a : SReg) -- s.bswap R93
  | sBextN (d a b : SReg) -- s.bext.n R93
  | sBextI (d a b : SReg) -- s.bext.i R93
  | sBins (d a b : SReg) -- s.bins R93
  | sAddi (d a : SReg) (imm : BitVec 14) -- s.addi R94
  | sAndi (d a : SReg) (imm : BitVec 14) -- s.andi R94
  | sOri (d a : SReg) (imm : BitVec 14) -- s.ori R94
  | sXori (d a : SReg) (imm : BitVec 14) -- s.xori R94
  | sShli (d a : SReg) (sh : BitVec 6) -- s.shli R94
  | sShri (d a : SReg) (sh : BitVec 6) -- s.shri R94
  | sSrai (d a : SReg) (sh : BitVec 6) -- s.srai R94
  | sSlti (d a : SReg) (imm : BitVec 14) -- s.slti R94
  | sSltni (d a : SReg) (imm : BitVec 14) -- s.sltni R94
  | sAddhi (d a : SReg) (imm : BitVec 14) -- s.addhi R94
  | sMuli (d a : SReg) (imm : BitVec 14) -- s.muli R94
  | sBz (a : SReg) (disp : BitVec 17) -- s.bz R97
  | sBnz (a : SReg) (disp : BitVec 17) -- s.bnz R97
  | sBlt (a : SReg) (disp : BitVec 17) -- s.blt R97
  | sBge (a : SReg) (disp : BitVec 17) -- s.bge R97
  | sBle (a : SReg) (disp : BitVec 17) -- s.ble R97
  | sBgt (a : SReg) (disp : BitVec 17) -- s.bgt R97
  | sJ (disp : BitVec 26) -- s.j R97
  | sCall (disp : BitVec 26) -- s.call R97
  | sJr (a : SReg) -- s.jr R97
  | sCallr (a : SReg) -- s.callr R97
  | sRet -- s.ret R98
  | lrun (off : BitVec 17) (cnt : BitVec 9) -- lrun R99
  | lwait -- lwait R100
  | sWait (p : Path) (a : SReg) -- s.wait R103
  | sCnt (d : SReg) (p : Path) -- s.cnt R103
  | sMfs (d : SReg) (n : BitVec 6) -- s.mfs R104
  | sMts (n : BitVec 6) (a : SReg) -- s.mts R104
  | sLdN8 (d : SReg) (c : CReg) (off : BitVec 16) -- s.ld.n8 R101
  | sLdN16 (d : SReg) (c : CReg) (off : BitVec 16) -- s.ld.n16 R101
  | sLdN32 (d : SReg) (c : CReg) (off : BitVec 16) -- s.ld.n32 R101
  | sLdN64 (d : SReg) (c : CReg) (off : BitVec 16) -- s.ld.n64 R101
  | sStN8 (d : SReg) (c : CReg) (off : BitVec 16) -- s.st.n8 R101
  | sStN16 (d : SReg) (c : CReg) (off : BitVec 16) -- s.st.n16 R101
  | sStN32 (d : SReg) (c : CReg) (off : BitVec 16) -- s.st.n32 R101
  | sStN64 (d : SReg) (c : CReg) (off : BitVec 16) -- s.st.n64 R101
  | sLdI8 (d : SReg) (c : CReg) (off : BitVec 16) -- s.ld.i8 R101
  | sLdI16 (d : SReg) (c : CReg) (off : BitVec 16) -- s.ld.i16 R101
  | sLdI32 (d : SReg) (c : CReg) (off : BitVec 16) -- s.ld.i32 R101
  | cLd (d c : CReg) (off : BitVec 16) -- c.ld R162
  | cSt (d c : CReg) (off : BitVec 16) -- c.st R162
  | cMov (d a : CReg) -- c.mov R156
  | cSetb (d a : CReg) (b : SReg) -- c.setb R157
  | cSetbOut (d a : CReg) (b : SReg) -- c.setb.out R157
  | cAddc (d a : CReg) (b : SReg) -- c.addc R156
  | cSetc (d a : CReg) (b : SReg) -- c.setc R156
  | cAndp (d a : CReg) (b : SReg) -- c.andp R156
  | cSetk (d a : CReg) (b : SReg) -- c.setk R158
  | cCleart (d a : CReg) -- c.cleart R156
  | cGetbase (d : SReg) (a : CReg) -- c.getbase R159
  | cGetlen (d : SReg) (a : CReg) -- c.getlen R159
  | cGetcur (d : SReg) (a : CReg) -- c.getcur R159
  | cGetp (d : SReg) (a : CReg) -- c.getp R159
  | cGetk (d : SReg) (a : CReg) -- c.getk R159
  | cGetcol (d : SReg) (a : CReg) -- c.getcol R159
  | cGett (d : SReg) (a : CReg) -- c.gett R159
  | cGetlim (d : SReg) (a : CReg) -- c.getlim R159
  | cSeal (d a : CReg) (b : SReg) -- c.seal R160
  | cOpen (d a b : CReg) -- c.open R160
  | cRlen (d a : SReg) -- c.rlen R161
  | cRalign (d a : SReg) -- c.ralign R161
  | syAcq (d : SReg) (a : CReg) (sc : Scope) -- sy.acq R222
  | syRel (a : CReg) (b : SReg) (sc : Scope) -- sy.rel R222
  | syFence (sc : Scope) -- sy.fence R222
  | syMwait (d : SReg) (a : CReg) (b : SReg) (sc : Scope) -- sy.mwait R226
  | syLd (d : SReg) (a : CReg) -- sy.ld R222
  | sySt (a : CReg) (b : SReg) -- sy.st R222
  | syBind (d : SReg) (a b : CReg) -- sy.bind R223
  | syUnbind (a : CReg) (b : SReg) -- sy.unbind R223
  | syBar (d : SReg) -- sy.bar R227
  | syRmw (d : SReg) (a : CReg) (b : SReg) (op : AmoOp) (ord : Ord) (sc : Scope) -- sy.rmw R224
  | cpRun (a : CReg) -- cp.run R229
  | clRun (a : CReg) -- cl.run R364
  | clGive (a b : CReg) -- cl.give R362
  | mxLdb (o : SReg) (a : CReg) (l : SReg) -- mx.ldb R238
  | mxRes (d a b : SReg) (f : MxFmt) -- mx.res R239
  | mxFree (a : SReg) -- mx.free R241
  | mxAzero (a : SReg) -- mx.azero R250
  | mxRinfo (d a : SReg) -- mx.rinfo R240
  | recBegin (a : SReg) -- rec.begin R291
  | recEnd (a : SReg) -- rec.end R291
  | recReplay (a : SReg) -- rec.replay R291
  | recRerecord (a : SReg) -- rec.rerecord R291
  | recDrop (a : SReg) -- rec.drop R291
  | recStatus (d a : SReg) -- rec.status R292
  | recRte (d a : SReg) -- rec.rte R293
  | swRevoke (d : SReg) (a : CReg) -- sw.revoke R276
  | swStatus (d : SReg) -- sw.status R279
  | swWait (a : SReg) -- sw.wait R279
  | chkErr (d : SReg) -- chk.err R184
  | chkErrT (d : SReg) -- chk.err.t R184
  | chkClr -- chk.clr R184
  | sEmu (code : BitVec 26) -- s.emu R37
  | sysEnd -- sys.end R106
  | sysTret -- sys.tret R176
  | sysYield -- sys.yield R106
  | sysTime (d : SReg) -- sys.time R106
  | sTail (a : CReg) -- s.tail R106
  | sysEmuret -- sys.emuret R35
  | vAdd (t : NTy) (w : Wide) -- v.add R113
  | vSub (t : NTy) (w : Wide) -- v.sub R113
  | vMul (t : NTy) (w : Wide) -- v.mul R113
  | vFma (t : NTy) (w : Wide) -- v.fma R113
  | vMin (t : NTy) (w : Wide) -- v.min R113
  | vMax (t : NTy) (w : Wide) -- v.max R113
  | vAnd (t : NTy) (w : Wide) -- v.and R113
  | vOr (t : NTy) (w : Wide) -- v.or R113
  | vXor (t : NTy) (w : Wide) -- v.xor R113
  | vShl (t : NTy) (w : Wide) -- v.shl R113
  | vShr (t : NTy) (w : Wide) -- v.shr R113
  | vMov (t : NTy) (w : Wide) -- v.mov R113
  | vAbs (t : NTy) (w : Wide) -- v.abs R113
  | vNeg (t : NTy) (w : Wide) -- v.neg R113
  | vMulhi (t : NTy) (w : Wide) -- v.mulhi R113
  | vClamp (t : NTy) (w : Wide) -- v.clamp R113
  | vAddNarrow (ce : Bool) (t : NTy) (x : Narrow) (y : Slot) -- v.add R25
  | vSubNarrow (ce : Bool) (t : NTy) (x : Narrow) (y : Slot) -- v.sub R25
  | vMulNarrow (ce : Bool) (t : NTy) (x : Narrow) (y : Slot) -- v.mul R25
  | vFmaNarrow (ce : Bool) (t : NTy) (x : Narrow) (y : Slot) -- v.fma R25
  | vMinNarrow (ce : Bool) (t : NTy) (x : Narrow) (y : Slot) -- v.min R25
  | vMaxNarrow (ce : Bool) (t : NTy) (x : Narrow) (y : Slot) -- v.max R25
  | vAndNarrow (ce : Bool) (t : NTy) (x : Narrow) (y : Slot) -- v.and R25
  | vOrNarrow (ce : Bool) (t : NTy) (x : Narrow) (y : Slot) -- v.or R25
  | vXorNarrow (ce : Bool) (t : NTy) (x : Narrow) (y : Slot) -- v.xor R25
  | vShlNarrow (ce : Bool) (t : NTy) (x : Narrow) (y : Slot) -- v.shl R25
  | vShrNarrow (ce : Bool) (t : NTy) (x : Narrow) (y : Slot) -- v.shr R25
  | vMovNarrow (ce : Bool) (t : NTy) (x : Narrow) (y : Slot) -- v.mov R25
  | vAbsNarrow (ce : Bool) (t : NTy) (x : Narrow) (y : Slot) -- v.abs R25
  | vNegNarrow (ce : Bool) (t : NTy) (x : Narrow) (y : Slot) -- v.neg R25
  | vMulhiNarrow (ce : Bool) (t : NTy) (x : Narrow) (y : Slot) -- v.mulhi R25
  | vClampNarrow (ce : Bool) (t : NTy) (x : Narrow) (y : Slot) -- v.clamp R25
  | vNop (f : NopForm) -- v.nop R23
  | vAddInt (w : Wide) -- v.add R115
  | vSubInt (w : Wide) -- v.sub R115
  | vMulInt (w : Wide) -- v.mul R115
  | vFmaInt (w : Wide) -- v.fma R115
  | vMinInt (w : Wide) -- v.min R115
  | vMaxInt (w : Wide) -- v.max R115
  | vAndInt (w : Wide) -- v.and R115
  | vOrInt (w : Wide) -- v.or R115
  | vXorInt (w : Wide) -- v.xor R115
  | vShlInt (w : Wide) -- v.shl R115
  | vShrInt (w : Wide) -- v.shr R115
  | vMovInt (w : Wide) -- v.mov R115
  | vAbsInt (w : Wide) -- v.abs R115
  | vNegInt (w : Wide) -- v.neg R115
  | vMulhiInt (w : Wide) -- v.mulhi R115
  | vClampInt (w : Wide) -- v.clamp R115
  | vDiv (w : Wide) -- v.div R116
  | vRem (w : Wide) -- v.rem R116
  | vCvt (w : Wide) -- v.cvt R117
  | vPkd8 (w : Wide) -- v.pkd8 R118
  | vUpkd8 (w : Wide) -- v.upkd8 R119
  | vD8sc (w : Wide) -- v.d8sc R120
  | vPmul (w : Wide) -- v.pmul R121
  | vPconj (w : Wide) -- v.pconj R121
  | vPvec (w : Wide) -- v.pvec R121
  | vPres (w : Wide) -- v.pres R121
  | vPcmp (w : Wide) -- v.pcmp R122
  | vSin (w : Wide) -- v.sin R124
  | vCos (w : Wide) -- v.cos R124
  | vAtan2 (w : Wide) -- v.atan2 R124
  | vExp (w : Wide) -- v.exp R124
  | vLn (w : Wide) -- v.ln R124
  | vTanh (w : Wide) -- v.tanh R124
  | vSigm (w : Wide) -- v.sigm R124
  | vSqrt (w : Wide) -- v.sqrt R124
  | vRsq (w : Wide) -- v.rsq R124
  | vDivCordic (w : Wide) -- v.div R124
  | vIf (w : Wide) -- v.if R128
  | vElse (w : Wide) -- v.else R128
  | vEndif (w : Wide) -- v.endif R128
  | vLoop (w : Wide) -- v.loop R128
  | vBreak (w : Wide) -- v.break R128
  | vCont (w : Wide) -- v.cont R128
  | vEndloop (w : Wide) -- v.endloop R128
  | vCmp (w : Wide) -- v.cmp R131
  | vBallot (w : Wide) -- v.ballot R132
  | vVote (w : Wide) -- v.vote R133
  | vShfl (w : Wide) -- v.shfl R136
  | vRed (w : Wide) -- v.red R137
  | vScan (w : Wide) -- v.scan R138
  | vPred (w : Wide) -- v.pred R139
  | vLd (w : Wide) -- v.ld R165
  | vSt (w : Wide) -- v.st R165
  | vGld (w : Wide) -- v.gld R165
  | vSst (w : Wide) -- v.sst R165
  | vCld (w : Wide) -- v.cld R166
  | vCst (w : Wide) -- v.cst R166
  | cBcast (w : Wide) -- c.bcast R166
  | vCaddc (w : Wide) -- v.caddc R166
  | vCsetb (w : Wide) -- v.csetb R166
  | vCget (w : Wide) -- v.cget R164
  | vCandp (w : Wide) -- v.candp R166
  | vAmo (w : Wide) -- v.amo R225
  | cpLrun (w : Wide) -- cp.lrun R229
  | mxMma (w : Wide) -- mx.mma R243
  | mxRd (w : Wide) -- mx.rd R249
  | mxWr (w : Wide) -- mx.wr R249
  | mxResolve (w : Wide) -- mx.resolve R249
  | vTpsn (w : Wide) -- v.tpsn R183
  | vCpsn (w : Wide) -- v.cpsn R183
  | vEmu (n : BitVec 6) (w : Wide) -- v.emu R38
  | emulationEntry (r : Reserved) (word : BitVec 96) -- EMULATION_ENTRY R32
  | trapEntry (code : BitVec 8) -- TRAP_ENTRY R175
  | barrierComplete (team : Nat) -- BARRIER_COMPLETE R227
  | mwaitWake (gid : Nat) -- MWAIT_WAKE R226
  | cpCheck (cl op : Nat) -- CP_CHECK R230
  | cpCopy (cl op : Nat) -- CP_COPY R231
  | cpComplete (cl op : Nat) -- CP_COMPLETE R231
  | clMatch (die op : Nat) (members : List ClMember) -- CL_MATCH R365
  | clComplete (die op : Nat) -- CL_COMPLETE R366
  | cltimeout (die op : Nat) -- CLTIMEOUT R365
  | mxLdbComplete (cl op : Nat) -- MX_LDB_COMPLETE R238
  | arbiterGrant (cl : Nat) -- ARBITER_GRANT R252
  | mxEntryComplete (cl op : Nat) -- MX_ENTRY_COMPLETE R251
  | pushArrival (push : Nat) -- PUSH_ARRIVAL R286
  | sweepPassStart (part : Nat) -- SWEEP_PASS_START R278
  | sweepPassComplete (part : Nat) -- SWEEP_PASS_COMPLETE R278
  | nevWindowEnd (ctx cls : Nat) -- NEV_WINDOW_END R65
  | exitInject (gid : Nat) -- EXIT_INJECT R187
  | starvationRaise (gid : Nat) (lane : Bool) -- STARVATION_RAISE R198
  | registerRefill (gid : Nat) (r : BitVec 8) -- REGISTER_REFILL R200
  | teamAdmit (launch die core : Nat) -- TEAM_ADMIT R202
  | preemptRequest (team : Nat) -- PREEMPT_REQUEST R206
  | drainExpiry (team : Nat) -- DRAIN_EXPIRY R206
  | teamSave (team : Nat) -- TEAM_SAVE R207
  | teamRestore (team die core : Nat) -- TEAM_RESTORE R207
  | teamRelaunch (team die core : Nat) -- TEAM_RELAUNCH R209
  | copyDrop (die core line : Nat) -- COPY_DROP R263
  | ptsTick (die : Nat) -- PTS_TICK R264
  | epochTurn (die : Nat) -- EPOCH_TURN R267
  | cohctlWrite (die : Nat) (v : Word) -- COHCTL_WRITE R264
  | calcfgWrite (die : Nat) (v : Word) -- CALCFG_WRITE R271
  | carveChangeDone (die : Nat) -- CARVE_CHANGE_DONE R271
  | doorbell (die : Nat) (v : Word) -- DOORBELL R300
  | vdoor (fn die : Nat) (v : Word) -- VDOOR R349
  | dberrClear (die : Nat) -- DBERR_CLEAR R299
  | queueMapPending (die : Nat) -- QUEUE_MAP_PENDING R300
  | sortRound (die : Nat) -- SORT_ROUND R307
  | pktLaunch (die slot : Nat) -- LAUNCH R309
  | pktWrite (die slot : Nat) -- WRITE R303
  | pktSignal (die slot : Nat) -- SIGNAL R303
  | pktWait (die slot : Nat) -- WAIT R303
  | pktCopy (die slot cl : Nat) -- COPY R303
  | pktBarrier (die slot : Nat) -- BARRIER R303
  | pktFence (die slot : Nat) -- FENCE R303
  | waitReread (die slot : Nat) -- WAIT_REREAD R303
  | faultwait (die slot : Nat) -- FAULTWAIT R306
  | hatResident (die q : Nat) -- HAT_RESIDENT R306
  | nodeLaunch (launch die core : Nat) -- NODE_LAUNCH R313
  | nodeTimer (launch die core : Nat) -- NODE_TIMER R313
  | periodStart (die q : Nat) -- PERIOD_START R314
  | budgetAccrue (die q : Nat) -- BUDGET_ACCRUE R314
  | scheduleDecision (die : Nat) -- SCHEDULE_DECISION R314
  | ageingBoost (die q : Nat) -- AGEING_BOOST R315
  | contextRemoval (ctx : Nat) -- CONTEXT_REMOVAL R316
  | dualCheckpoint (team : Nat) -- DUAL_CHECKPOINT R319
  | ctxCreate (blk : List Byte) -- CTX_CREATE R342
  | ctxRemove (blk : List Byte) -- CTX_REMOVE R342
  | partSet (blk : List Byte) -- PART_SET R336
  | fwSet (blk : List Byte) -- FW_SET R338
  | importBlob (blk : List Byte) -- IMPORT R340
  | logRead (blk : List Byte) -- LOG_READ R344
  | logSign (blk : List Byte) -- LOG_SIGN R344
  | attest (blk : List Byte) -- ATTEST R342
  | eventDelivery -- EVENT_DELIVERY R343
  | egressWindowEnd (n : Nat) -- EGRESS_WINDOW_END R341
  | pwrcapWrite (v : Word) -- PWRCAP_WRITE R330
  | throttle (die : Nat) (up : Bool) -- THROTTLE R346
  | bootStage (next : BootNext) -- BOOT_STAGE R345
  | linkTrain (mode : LinkMode) -- LINK_TRAIN R348
  | hotReset (linkUp : Bool) -- HOT_RESET R368
  | hatwWrite (n : Nat) (word1 : Bool) (v : Word) -- HATW_WRITE R350
  | hatmiss (n : Nat) -- HATMISS R351
  | hostSnoop (line : Nat) (inv : Bool) -- HOST_SNOOP R354
  | probeTimeout (die : Nat) -- PROBE_TIMEOUT R355
  | remoteRequest (r : PeerRequest) -- REMOTE_REQUEST R359
  | portDown (port : Nat) -- PORT_DOWN R370
  | idleFlit (port : Nat) -- IDLE_FLIT R370
  | peerLost (peer : Nat) -- PEER_LOST R370
  | vqack (fn : Nat) (v : Word) -- VQACK R369
  | fwActivate (v : Word) -- FW_ACTIVATE R369
  | fwActivateSwitch -- FW_ACTIVATE_SWITCH R369
  | fwActivateTimeout -- FW_ACTIVATE_TIMEOUT R369
  | registerWrite (addr : Nat) (v : Word) -- REGISTER_WRITE R330
  | memoryWordComplete (gid op : Nat) -- MEMORY_WORD_COMPLETE R165
  | remoteAccessComplete (gid op : Nat) (refused : List Bool) (data : List Byte) (poison : List Bool) -- REMOTE_ACCESS_COMPLETE R361
  | hostRequest (r : HostRequest) -- HOST_REQUEST R356
  | backInvalidationAnswer (line : Nat) (inFlight : Bool) -- BACK_INVALIDATION_ANSWER R353
  | swiundPortTrain (port idx : Nat) -- SWIUND_PORT_TRAIN R357
  | spdmSession (port part peer : Option Nat) -- SPDM_SESSION R348
  | swstRetryClear (port : Nat) -- SWST_RETRY_CLEAR R357
  | diePowerGate (die : Nat) -- DIE_POWER_GATE R354
  | importComplete -- IMPORT_COMPLETE R340
  | epochTurnComplete (die : Nat) -- EPOCH_TURN_COMPLETE R267
  deriving DecidableEq, Repr

end Sys2Proof
end

