-- ==== Sys2Proof/Machine/LaneTable.lean ====
section
/-! DEFINITION. The lane opcode map: what each OP10 reads, writes and has a use for, from the tables of the families
(spec/02 R20-R26; spec/06 R113-R123; spec/07 R127-R140; spec/08 R163-R164; spec/09 R183; spec/13 R225, R229;
spec/14 R243, R249). Decoding, the fallbacks of R30 and the stalls of R72 read this one table. -/

namespace Sys2Proof

/-- What a lane word writes (spec/02 R17). -/
inductive Dest where
  | none | vreg | mask | scalar | quad
  deriving DecidableEq, Repr

/-- What the opcode map says of one wide word. -/
structure LaneInfo where
  /-- the sources that the operation reads (R18) -/
  readA : Bool := false
  readB : Bool := false
  readC : Bool := false
  /-- the type codes the instruction defines; none where the type is fixed by OP10 (R20, R111) -/
  tys : Option (List Nat) := none
  /-- does the instruction have a use for RM, FZ, SAT (R30 MODIGNORED) -/
  rm : Bool := false
  fz : Bool := false
  sat : Bool := false
  /-- what it writes -/
  dest : Dest := .none
  /-- a reserved AUX value or a mask destination m0 (R28 KIND 7, R80) -/
  badAux : Bool := false
  deriving DecidableEq, Repr

/-- OP7[6:3] (spec/02 R23). -/
def NOp.code : NOp → Nat
  | .add => 0 | .sub => 1 | .mul => 2 | .fma => 3 | .min => 4 | .max => 5 | .and => 6 | .or => 7
  | .xor => 8 | .shl => 9 | .shr => 10 | .mov => 11 | .abs => 12 | .neg => 13 | .mulhi => 14 | .clamp => 15

/-- The operation of OP7[6:3]. -/
def NOp.ofCode : Nat → Option NOp
  | 0 => some .add | 1 => some .sub | 2 => some .mul | 3 => some .fma | 4 => some .min | 5 => some .max
  | 6 => some .and | 7 => some .or | 8 => some .xor | 9 => some .shl | 10 => some .shr | 11 => some .mov
  | 12 => some .abs | 13 => some .neg | 14 => some .mulhi | 15 => some .clamp | _ => none

/-- OP7[2:0] (spec/02 R23). -/
def NTy.code : NTy → Nat
  | .i32 => 0 | .n32 => 1 | .f32 => 2 | .f16 => 3 | .b16 => 4

/-- The type of OP7[2:0]. -/
def NTy.ofCode : Nat → Option NTy
  | 0 => some .i32 | 1 => some .n32 | 2 => some .f32 | 3 => some .f16 | 4 => some .b16 | _ => none

/-- Is the type a floating-point type? -/
def NTy.isFp : NTy → Bool
  | .i32 | .n32 => false
  | .f32 | .f16 | .b16 => true

/-- The pairs of operation and type that R23 lists. -/
def NOp.valid : NOp → NTy → Bool
  | .add, _ | .sub, _ | .mul, _ | .fma, _ | .min, _ | .max, _ | .clamp, _ => true
  | .and, t | .or, t | .xor, t | .shl, t | .shr, t | .mulhi, t => !t.isFp
  | .mov, t => t == .n32
  | .abs, t | .neg, t => t != .n32

/-- Does the narrow operation read source A, B, C (spec/02 R23)? -/
def NOp.readsB : NOp → Bool
  | .mov | .abs | .neg => false
  | _ => true
/-- Only `v.fma` and `v.clamp` read C. -/
def NOp.readsC : NOp → Bool
  | .fma | .clamp => true
  | _ => false

/-- The operations that round under RM (R113, R114). RM on the other floating-point ones (`v.min`, `v.max`, `v.clamp`, `v.abs`, `v.neg`)
is an unused modifier: nonzero it takes MODIGNORED, and 5 to 7 are not reserved there, the model's choice (notes/assumptions/14). -/
def NOp.rounds : NOp → Bool
  | .add | .sub | .mul | .fma => true
  | _ => false
/-- The integer operations that SAT acts on: R113 names those where it is ignored; the result of a minimum, maximum or
clamp lies in range, so SAT has no use there (notes/assumptions/14). -/
def NOp.saturates : NOp → Bool
  | .add | .sub | .mul | .fma | .abs | .neg => true
  | _ => false

/-- The row of a pairable operation of a 32-bit or floating-point type (R23, R113). -/
def pairInfo (o : NOp) (t : NTy) : LaneInfo :=
  { readA := true, readB := o.readsB, readC := o.readsC, dest := .vreg
    rm := t.isFp && o.rounds, fz := t.isFp, sat := !t.isFp && o.saturates }

/-- Integer type codes, floating-point type codes (R20). -/
def tyIsInt (t : Nat) : Bool := decide (t ≤ 7)
def tyIsFp (t : Nat) : Bool := decide (8 ≤ t) && decide (t ≤ 10)
def tyIsPhasor (t : Nat) : Bool := t == 12 || t == 13

/-- The row of the 8-, 16- and 64-bit integer operations, OP10 0x080 + op (R115). -/
def intInfo (o : NOp) : LaneInfo :=
  { readA := true, readB := o.readsB, readC := o.readsC, dest := .vreg, sat := o.saturates
    tys := some (match o with
      | .abs | .neg => [0, 1, 3]
      | _ => [0, 1, 3, 4, 5, 7]) }

/-- The conversions that R117 defines, by destination and source type code. -/
def cvtDefined (d s : Nat) : Bool :=
  decide (d ≤ 13) && decide (s ≤ 13)
  && !(d == 11 && s == 11)
  && !((d == 11 && tyIsPhasor s) || (s == 11 && tyIsPhasor d))
  && !((tyIsInt d && tyIsPhasor s) || (tyIsInt s && tyIsPhasor d))
  && !(tyIsPhasor d && d == s)

/-- The row of `v.cvt` (R58, R117): RM rounds every conversion but those to D8 (R51), among integers, and P8 to P16. -/
def cvtInfo (w : Wide) : LaneInfo :=
  let d := w.ty
  let s := w.aux5 % 16
  { readA := true, readB := (d == 11 || s == 11) && decide (w.aux2 % 2 = 1), dest := .vreg
    tys := some [0, 1, 2, 3, 4, 5, 6, 7, 8, 9, 10, 11, 12, 13]
    rm := d != 11 && !(tyIsInt d && tyIsInt s) && !(d == 13 && s == 12)
    fz := tyIsFp d || tyIsFp s
    sat := tyIsInt d && tyIsInt s
    badAux := decide (16 ≤ w.aux5) || !cvtDefined d s }

/-- A mask destination in DST8[2:0]; 0 names m0 and is reserved (R80). -/
def maskDst (w : Wide) : Nat := w.dst.toNat % 8

/-- The lane opcode map. RM of `v.red` and `v.scan` is used by every OP of a floating-point type, and SAT by every OP of an
integer one, minimum, maximum and logic among them: the model's choice (notes/assumptions/14). None: the OP10 is unassigned (KIND 4). `v.emu` (0x3C0-0x3FF) is not in it. -/
def laneInfo (op10 : Nat) (w : Wide) : Option LaneInfo :=
  if op10 < 0x080 then
    if op10 = 0x07F then some {}
    else match NOp.ofCode (op10 / 8), NTy.ofCode (op10 % 8) with
      | some o, some t => if o.valid t then some (pairInfo o t) else none
      | _, _ => none
  else if op10 < 0x090 then (NOp.ofCode (op10 - 0x080)).map intInfo
  else match op10 with
  | 0x090 | 0x091 => some { readA := true, readB := true, dest := .vreg, tys := some [0, 1, 2, 3, 4, 5, 6, 7] }
  | 0x0A0 => some (cvtInfo w)
  | 0x0A1 => some { readA := true, readB := true, dest := .vreg, tys := some [8, 9, 10, 2, 6], fz := tyIsFp w.ty }
  | 0x0A2 => some { readA := true, readB := true, dest := .vreg, tys := some [8, 9, 10], rm := true, fz := true }
  | 0x0A3 => some { readA := true, dest := .vreg, tys := some [8, 9, 10], fz := true }
  | 0x0B0 => some { readA := true, readB := true, dest := .vreg, tys := some [12, 13] }
  | 0x0B1 => some { readA := true, dest := .vreg, tys := some [12, 13] }
  | 0x0B2 => some { readA := true, dest := .vreg, tys := some [12, 13], badAux := w.aux2 == 3 }
  | 0x0B3 => some { readA := true, readB := true, readC := true, dest := .vreg, tys := some [12, 13] }
  | 0x180 | 0x181 | 0x183 | 0x184 | 0x185 | 0x186 | 0x187 | 0x188 =>
    some { readA := true, dest := .vreg, tys := some [8, 9, 10], fz := true
           badAux := decide (w.aux5 < 4) || decide (28 < w.aux5) }
  | 0x182 | 0x189 =>
    some { readA := true, readB := true, dest := .vreg, tys := some [8, 9, 10], fz := true
           badAux := decide (w.aux5 < 4) || decide (28 < w.aux5) }
  | 0x1C0 | 0x1C1 | 0x1C2 | 0x1C3 | 0x1C4 | 0x1C5 => some {}
  | 0x1C6 => some { dest := .scalar }
  | 0x1D0 => some { readA := true, readB := true, dest := .mask, tys := some [0, 1, 2, 3, 4, 5, 6, 7, 8, 9, 10]
                    fz := tyIsFp w.ty
                    badAux := decide (7 < w.aux5) || (decide (6 ≤ w.aux5) && tyIsInt w.ty) || w.aux2 == 3
                      || maskDst w == 0 }
  | 0x1D8 => some { dest := .scalar, badAux := decide (8 ≤ w.aux5) }
  | 0x1D9 => some { dest := .scalar, badAux := decide (8 ≤ w.aux5) || w.aux2 == 3 }
  | 0x1F0 => some { readA := true, readB := true, dest := .mask, tys := some [12, 13]
                    badAux := decide (6 < w.aux5) || maskDst w == 0 }
  | 0x200 => some { readA := true, readB := true, dest := .vreg, tys := some [15, 7], badAux := decide (3 < w.aux5) }
  | 0x210 | 0x220 =>
    some { readA := true
           dest := if op10 = 0x210 && decide (w.aux2 % 2 = 1) then .scalar else .vreg
           tys := some [2, 6, 3, 7, 8, 9, 10]
           rm := tyIsFp w.ty, fz := tyIsFp w.ty, sat := tyIsInt w.ty
           badAux := decide (5 < w.aux5) || (decide (3 ≤ w.aux5) && !tyIsInt w.ty) }
  | 0x230 => some { readA := true, dest := .vreg, tys := some [12, 13] }
  | 0x280 => some { readA := true, dest := .vreg, tys := some [0, 1, 2, 3, 4, 5, 6, 7, 8, 9, 10, 11, 12, 13] }
  | 0x281 => some { readA := true, readB := true, tys := some [0, 1, 2, 3, 4, 5, 6, 7, 8, 9, 10, 11, 12, 13] }
  | 0x282 => some { readA := true, dest := .vreg, tys := some [0, 1, 2, 3, 4, 5, 6, 7, 8, 9, 10, 11, 12, 13]
                    badAux := decide (0 < w.qk / 16) }
  | 0x283 => some { readA := true, readB := true, tys := some [0, 1, 2, 3, 4, 5, 6, 7, 8, 9, 10, 11, 12, 13]
                    badAux := decide (0 < w.qk / 16) }
  | 0x284 => some { readA := true, dest := .quad }
  | 0x285 => some { readA := true }
  | 0x286 => some { dest := .quad, badAux := decide (0 < w.qk / 16) }
  | 0x287 | 0x288 | 0x28A => some { readA := true, dest := .quad }
  | 0x289 => some { dest := .vreg }
  | 0x300 => some { readA := true, readB := true, readC := w.rm == 7, dest := .vreg, tys := some [2, 6, 3, 7]
                    badAux := w.flag }
  | 0x310 => some {}
  | 0x340 => some { readA := true, readB := true, tys := some [11, 9, 10, 12, 13] }
  | 0x341 => some { readB := true, tys := some [8] }
  | 0x342 => some { readA := true, readB := true, tys := some [8] }
  | 0x343 => some { readB := true, tys := some [12, 13] }
  | 0x3A0 => some { readA := true, dest := .mask
                    tys := some [0, 1, 2, 3, 4, 5, 6, 7, 8, 9, 10, 11, 12, 13, 15], badAux := maskDst w == 0 }
  | 0x3A1 => some { readA := true, dest := .vreg }
  | _ => none

/-- Chain-eligible by its OP10 (spec/02 R26). -/
def chainEligible (op10 : Nat) : Bool := decide (op10 < 0x180)

/-- A selector of R18 that stands for a source; 272-511 are reserved. -/
def selReserved (s : BitVec 9) : Bool := decide (272 ≤ s.toNat)

/-- KIND 6: a reserved selector in a field that the operation reads (R28). -/
def LaneInfo.badSelector (i : LaneInfo) (w : Wide) : Bool :=
  (i.readA && selReserved w.sa) || (i.readB && selReserved w.sb) || (i.readC && selReserved w.sc)

/-- KIND 7: TY = 14, a TY outside the type column, RM 5-7 where RM applies, or a reserved AUX value (R28). -/
def LaneInfo.badModifier (i : LaneInfo) (w : Wide) : Bool :=
  w.ty == 14
  || (match i.tys with
      | some l => !(l.contains w.ty)
      | none => false)
  || (i.rm && decide (5 ≤ w.rm)) || i.badAux

/-- Does a wide word of this OP10 hold no reserved encoding? -/
def laneLegal (op10 : Nat) (w : Wide) : Bool :=
  match laneInfo op10 w with
  | some i => !i.badSelector w && !i.badModifier w
  | none => false

/-- The OP10 and fields of a wide word; none for every other step of the table. -/
def Instr.wide? : Instr → Option (Nat × Wide)
  | .vAdd t w => some (0x00 + t.code, w)
  | .vSub t w => some (0x08 + t.code, w)
  | .vMul t w => some (0x10 + t.code, w)
  | .vFma t w => some (0x18 + t.code, w)
  | .vMin t w => some (0x20 + t.code, w)
  | .vMax t w => some (0x28 + t.code, w)
  | .vAnd t w => some (0x30 + t.code, w)
  | .vOr t w => some (0x38 + t.code, w)
  | .vXor t w => some (0x40 + t.code, w)
  | .vShl t w => some (0x48 + t.code, w)
  | .vShr t w => some (0x50 + t.code, w)
  | .vMov t w => some (0x58 + t.code, w)
  | .vAbs t w => some (0x60 + t.code, w)
  | .vNeg t w => some (0x68 + t.code, w)
  | .vMulhi t w => some (0x70 + t.code, w)
  | .vClamp t w => some (0x78 + t.code, w)
  | .vNop (.wide w) => some (0x07F, w)
  | .vAddInt w => some (0x080, w) | .vSubInt w => some (0x081, w) | .vMulInt w => some (0x082, w)
  | .vFmaInt w => some (0x083, w) | .vMinInt w => some (0x084, w) | .vMaxInt w => some (0x085, w)
  | .vAndInt w => some (0x086, w) | .vOrInt w => some (0x087, w) | .vXorInt w => some (0x088, w)
  | .vShlInt w => some (0x089, w) | .vShrInt w => some (0x08A, w) | .vMovInt w => some (0x08B, w)
  | .vAbsInt w => some (0x08C, w) | .vNegInt w => some (0x08D, w) | .vMulhiInt w => some (0x08E, w)
  | .vClampInt w => some (0x08F, w) | .vDiv w => some (0x090, w) | .vRem w => some (0x091, w)
  | .vCvt w => some (0x0A0, w) | .vPkd8 w => some (0x0A1, w) | .vUpkd8 w => some (0x0A2, w)
  | .vD8sc w => some (0x0A3, w) | .vPmul w => some (0x0B0, w) | .vPconj w => some (0x0B1, w)
  | .vPvec w => some (0x0B2, w) | .vPres w => some (0x0B3, w) | .vSin w => some (0x180, w)
  | .vCos w => some (0x181, w) | .vAtan2 w => some (0x182, w) | .vExp w => some (0x183, w)
  | .vLn w => some (0x184, w) | .vTanh w => some (0x185, w) | .vSigm w => some (0x186, w)
  | .vSqrt w => some (0x187, w) | .vRsq w => some (0x188, w) | .vDivCordic w => some (0x189, w)
  | .vIf w => some (0x1C0, w) | .vElse w => some (0x1C1, w) | .vEndif w => some (0x1C2, w)
  | .vLoop w => some (0x1C3, w) | .vBreak w => some (0x1C4, w) | .vCont w => some (0x1C5, w)
  | .vEndloop w => some (0x1C6, w) | .vCmp w => some (0x1D0, w) | .vBallot w => some (0x1D8, w)
  | .vVote w => some (0x1D9, w) | .vPcmp w => some (0x1F0, w) | .vShfl w => some (0x200, w)
  | .vRed w => some (0x210, w) | .vScan w => some (0x220, w) | .vPred w => some (0x230, w)
  | .vLd w => some (0x280, w) | .vSt w => some (0x281, w) | .vGld w => some (0x282, w)
  | .vSst w => some (0x283, w) | .vCld w => some (0x284, w) | .vCst w => some (0x285, w)
  | .cBcast w => some (0x286, w) | .vCaddc w => some (0x287, w) | .vCsetb w => some (0x288, w)
  | .vCget w => some (0x289, w) | .vCandp w => some (0x28A, w) | .vAmo w => some (0x300, w)
  | .cpLrun w => some (0x310, w) | .mxMma w => some (0x340, w) | .mxRd w => some (0x341, w)
  | .mxWr w => some (0x342, w) | .mxResolve w => some (0x343, w) | .vTpsn w => some (0x3A0, w)
  | .vCpsn w => some (0x3A1, w) | .vEmu n w => some (0x3C0 + n.toNat, w)
  | _ => none

/-- The wide word of a pairable operation and type (R23). -/
def ofNarrowOp (o : NOp) (t : NTy) (w : Wide) : Instr :=
  match o with
  | .add => .vAdd t w | .sub => .vSub t w | .mul => .vMul t w | .fma => .vFma t w
  | .min => .vMin t w | .max => .vMax t w | .and => .vAnd t w | .or => .vOr t w
  | .xor => .vXor t w | .shl => .vShl t w | .shr => .vShr t w | .mov => .vMov t w
  | .abs => .vAbs t w | .neg => .vNeg t w | .mulhi => .vMulhi t w | .clamp => .vClamp t w

/-- The pair word whose slot X holds an operation (R22). -/
def ofPair (o : NOp) (ce : Bool) (t : NTy) (x : Narrow) (y : Slot) : Instr :=
  match o with
  | .add => .vAddNarrow ce t x y | .sub => .vSubNarrow ce t x y | .mul => .vMulNarrow ce t x y
  | .fma => .vFmaNarrow ce t x y | .min => .vMinNarrow ce t x y | .max => .vMaxNarrow ce t x y
  | .and => .vAndNarrow ce t x y | .or => .vOrNarrow ce t x y | .xor => .vXorNarrow ce t x y
  | .shl => .vShlNarrow ce t x y | .shr => .vShrNarrow ce t x y | .mov => .vMovNarrow ce t x y
  | .abs => .vAbsNarrow ce t x y | .neg => .vNegNarrow ce t x y | .mulhi => .vMulhiNarrow ce t x y
  | .clamp => .vClampNarrow ce t x y

/-- The slots X and Y of a pair word, and its CE; none for every other step. -/
def Instr.pair? : Instr → Option (Bool × Slot × Slot)
  | .vAddNarrow ce t x y => some (ce, .op .add t x, y) | .vSubNarrow ce t x y => some (ce, .op .sub t x, y)
  | .vMulNarrow ce t x y => some (ce, .op .mul t x, y) | .vFmaNarrow ce t x y => some (ce, .op .fma t x, y)
  | .vMinNarrow ce t x y => some (ce, .op .min t x, y) | .vMaxNarrow ce t x y => some (ce, .op .max t x, y)
  | .vAndNarrow ce t x y => some (ce, .op .and t x, y) | .vOrNarrow ce t x y => some (ce, .op .or t x, y)
  | .vXorNarrow ce t x y => some (ce, .op .xor t x, y) | .vShlNarrow ce t x y => some (ce, .op .shl t x, y)
  | .vShrNarrow ce t x y => some (ce, .op .shr t x, y) | .vMovNarrow ce t x y => some (ce, .op .mov t x, y)
  | .vAbsNarrow ce t x y => some (ce, .op .abs t x, y) | .vNegNarrow ce t x y => some (ce, .op .neg t x, y)
  | .vMulhiNarrow ce t x y => some (ce, .op .mulhi t x, y) | .vClampNarrow ce t x y => some (ce, .op .clamp t x, y)
  | .vNop (.pair ce raw y) => some (ce, .nop raw, y)
  | _ => none

/-- The wide word of an assigned OP10 from 0x080 on (the families' tables). -/
def ofOp10 (op10 : Nat) (w : Wide) : Option Instr :=
  match op10 with
  | 0x080 => some (.vAddInt w) | 0x081 => some (.vSubInt w) | 0x082 => some (.vMulInt w)
  | 0x083 => some (.vFmaInt w) | 0x084 => some (.vMinInt w) | 0x085 => some (.vMaxInt w)
  | 0x086 => some (.vAndInt w) | 0x087 => some (.vOrInt w) | 0x088 => some (.vXorInt w)
  | 0x089 => some (.vShlInt w) | 0x08A => some (.vShrInt w) | 0x08B => some (.vMovInt w)
  | 0x08C => some (.vAbsInt w) | 0x08D => some (.vNegInt w) | 0x08E => some (.vMulhiInt w)
  | 0x08F => some (.vClampInt w) | 0x090 => some (.vDiv w) | 0x091 => some (.vRem w)
  | 0x0A0 => some (.vCvt w) | 0x0A1 => some (.vPkd8 w) | 0x0A2 => some (.vUpkd8 w)
  | 0x0A3 => some (.vD8sc w) | 0x0B0 => some (.vPmul w) | 0x0B1 => some (.vPconj w)
  | 0x0B2 => some (.vPvec w) | 0x0B3 => some (.vPres w) | 0x180 => some (.vSin w)
  | 0x181 => some (.vCos w) | 0x182 => some (.vAtan2 w) | 0x183 => some (.vExp w)
  | 0x184 => some (.vLn w) | 0x185 => some (.vTanh w) | 0x186 => some (.vSigm w)
  | 0x187 => some (.vSqrt w) | 0x188 => some (.vRsq w) | 0x189 => some (.vDivCordic w)
  | 0x1C0 => some (.vIf w) | 0x1C1 => some (.vElse w) | 0x1C2 => some (.vEndif w)
  | 0x1C3 => some (.vLoop w) | 0x1C4 => some (.vBreak w) | 0x1C5 => some (.vCont w)
  | 0x1C6 => some (.vEndloop w) | 0x1D0 => some (.vCmp w) | 0x1D8 => some (.vBallot w)
  | 0x1D9 => some (.vVote w) | 0x1F0 => some (.vPcmp w) | 0x200 => some (.vShfl w)
  | 0x210 => some (.vRed w) | 0x220 => some (.vScan w) | 0x230 => some (.vPred w)
  | 0x280 => some (.vLd w) | 0x281 => some (.vSt w) | 0x282 => some (.vGld w)
  | 0x283 => some (.vSst w) | 0x284 => some (.vCld w) | 0x285 => some (.vCst w)
  | 0x286 => some (.cBcast w) | 0x287 => some (.vCaddc w) | 0x288 => some (.vCsetb w)
  | 0x289 => some (.vCget w) | 0x28A => some (.vCandp w) | 0x300 => some (.vAmo w)
  | 0x310 => some (.cpLrun w) | 0x340 => some (.mxMma w) | 0x341 => some (.mxRd w)
  | 0x342 => some (.mxWr w) | 0x343 => some (.mxResolve w) | 0x3A0 => some (.vTpsn w)
  | 0x3A1 => some (.vCpsn w)
  | _ => none

end Sys2Proof
end

