-- ==== Sys2Proof/WellFormed.lean ====
section
/-! DEFINITION. Which terms of `Instr` stand for a word of the part: the conditions that the word layouts put on
fields together (spec/02 R13, R20, R23, R28). Steps without a word have none. -/

namespace Sys2Proof

/-- The special numbers that `s.mfs` names (spec/05 R104). -/
def specialReadable (n : BitVec 6) : Bool :=
  let k := n.toNat
  decide (k ≤ 0x04) || (decide (0x08 ≤ k) && decide (k ≤ 0x18)) || (decide (0x20 ≤ k) && decide (k ≤ 0x26))
  || (decide (0x30 ≤ k) && decide (k ≤ 0x3B))

/-- The special numbers that `s.mts` names: all of them but `m0` (spec/05 R104, spec/04 R80). -/
def specialWritable (n : BitVec 6) : Bool := specialReadable n && n != 0x30

/-- A narrow operation has one of the types that R23 lists for it. -/
def Slot.wf : Slot → Bool
  | .op o t _ => o.valid t
  | .nop _ => true

/-- `sy.rmw` without an order names no scope (spec/13 R224). -/
def rmwWf (ord : Ord) (sc : Scope) : Bool := ord != .rlx || sc == .g

/-- Well-formed: the term is what some word decodes to, or a step without a word. -/
def Instr.wf (i : Instr) : Bool :=
  match i with
  | .sMfs _ n => specialReadable n
  | .sMts n _ => specialWritable n
  | .syRmw _ _ _ _ ord sc => rmwWf ord sc
  | .vEmu _ _ => true
  | i =>
    match i.wide?, i.pair? with
    | some (op10, w), _ => laneLegal op10 w
    | none, some (_, x, y) => x.wf && y.wf
    | none, none => true

end Sys2Proof
end

