-- ==== Sys2Proof/Decode.lean ====
section
/-! DEFINITION. The decoder of both streams, total on every word and refusing reserved encodings by their KIND
(spec/02 R12-R29 and the encoding tables of the families), and after it the encoder, written from the same tables. -/

namespace Sys2Proof

/-- The fields of an SR word (spec/02 R12). -/
structure SrFields where
  d : BitVec 6
  a : BitVec 6
  b : BitVec 6
  fn : BitVec 8
  deriving DecidableEq, Repr

/-- SR: sd [25:20], sa [19:14], sb [13:8], fn [7:0]. -/
def srFields (w : BitVec 32) : SrFields :=
  ⟨w.extractLsb' 20 6, w.extractLsb' 14 6, w.extractLsb' 8 6, w.extractLsb' 0 8⟩

/-- A field that must be zero, or a c-register field with bits [5:4] zero (R13); otherwise KIND 3. -/
def need (ok : Bool) (i : Instr) : Except Reserved Instr := if ok then .ok i else .error .unused

/-- The c register of a 6-bit field (R13). -/
def lo4 (f : BitVec 6) : CReg := f.extractLsb' 0 4
/-- Bits [5:4] of a c-register field are zero (R13). -/
def hi2 (f : BitVec 6) : Bool := f.extractLsb' 4 2 == 0

/-- Major 0x00: integer (R93). -/
def decodeInt (f : SrFields) : Except Reserved Instr :=
  match f.fn.toNat with
  | 0x00 => .ok (.sAdd f.d f.a f.b)
  | 0x01 => .ok (.sSub f.d f.a f.b)
  | 0x02 => .ok (.sAnd f.d f.a f.b)
  | 0x03 => .ok (.sOr f.d f.a f.b)
  | 0x04 => .ok (.sXor f.d f.a f.b)
  | 0x05 => .ok (.sAndn f.d f.a f.b)
  | 0x06 => .ok (.sShl f.d f.a f.b)
  | 0x07 => .ok (.sShr f.d f.a f.b)
  | 0x08 => .ok (.sSra f.d f.a f.b)
  | _ => .error .fn

/-- Major 0x01: multiply and divide (R93, R95). -/
def decodeMul (f : SrFields) : Except Reserved Instr :=
  match f.fn.toNat with
  | 0x00 => .ok (.sMul f.d f.a f.b)
  | 0x01 => .ok (.sMulhI f.d f.a f.b)
  | 0x02 => .ok (.sMulhN f.d f.a f.b)
  | 0x03 => .ok (.sDivI f.d f.a f.b)
  | 0x04 => .ok (.sDivN f.d f.a f.b)
  | 0x05 => .ok (.sRemI f.d f.a f.b)
  | 0x06 => .ok (.sRemN f.d f.a f.b)
  | _ => .error .fn

/-- Major 0x02: compare and select (R93). -/
def decodeCmp (f : SrFields) : Except Reserved Instr :=
  match f.fn.toNat with
  | 0x00 => .ok (.sSeq f.d f.a f.b)
  | 0x01 => .ok (.sSne f.d f.a f.b)
  | 0x02 => .ok (.sSlt f.d f.a f.b)
  | 0x03 => .ok (.sSltn f.d f.a f.b)
  | 0x04 => .ok (.sMinI f.d f.a f.b)
  | 0x05 => .ok (.sMaxI f.d f.a f.b)
  | 0x06 => .ok (.sMinN f.d f.a f.b)
  | 0x07 => .ok (.sMaxN f.d f.a f.b)
  | 0x08 => .ok (.sSel f.d f.a f.b)
  | _ => .error .fn

/-- Major 0x03: bit field (R93). -/
def decodeBits (f : SrFields) : Except Reserved Instr :=
  match f.fn.toNat with
  | 0x00 => need (f.b == 0) (.sClz f.d f.a)
  | 0x01 => need (f.b == 0) (.sCtz f.d f.a)
  | 0x02 => need (f.b == 0) (.sPopc f.d f.a)
  | 0x03 => need (f.b == 0) (.sBswap f.d f.a)
  | 0x04 => .ok (.sBextN f.d f.a f.b)
  | 0x05 => .ok (.sBextI f.d f.a f.b)
  | 0x06 => .ok (.sBins f.d f.a f.b)
  | _ => .error .fn

/-- Major 0x13: register jumps and return (R97). -/
def decodeJump (f : SrFields) : Except Reserved Instr :=
  match f.fn.toNat with
  | 0x00 => need (f.d == 0 && f.b == 0) (.sJr f.a)
  | 0x01 => need (f.d == 0 && f.b == 0) (.sCallr f.a)
  | 0x02 => need (f.d == 0 && f.a == 0 && f.b == 0) (.sRet)
  | _ => .error .fn

/-- Major 0x16: special-register moves (R104). -/
def decodeSpecial (f : SrFields) : Except Reserved Instr :=
  match f.fn.toNat with
  | 0x00 => need (f.a == 0 && specialReadable f.b) (.sMfs f.d f.b)
  | 0x01 => need (f.b == 0 && specialWritable f.d) (.sMts f.d f.a)
  | _ => .error .fn

/-- Major 0x17: waits (R103). -/
def decodeWait (f : SrFields) : Except Reserved Instr :=
  match f.fn.toNat with
  | 0x00 => need (f.d == 0 && f.b == 0) (.sWait .ld f.a)
  | 0x08 => need (f.a == 0 && f.b == 0) (.sCnt f.d .ld)
  | 0x01 => need (f.d == 0 && f.b == 0) (.sWait .st f.a)
  | 0x09 => need (f.a == 0 && f.b == 0) (.sCnt f.d .st)
  | 0x02 => need (f.d == 0 && f.b == 0) (.sWait .cp f.a)
  | 0x0A => need (f.a == 0 && f.b == 0) (.sCnt f.d .cp)
  | 0x03 => need (f.d == 0 && f.b == 0) (.sWait .mx f.a)
  | 0x0B => need (f.a == 0 && f.b == 0) (.sCnt f.d .mx)
  | 0x04 => need (f.d == 0 && f.b == 0) (.sWait .cl f.a)
  | 0x0C => need (f.a == 0 && f.b == 0) (.sCnt f.d .cl)
  | 0x05 => need (f.d == 0 && f.b == 0) (.sWait .fx f.a)
  | 0x0D => need (f.a == 0 && f.b == 0) (.sCnt f.d .fx)
  | 0x10 => need (f.d == 0 && f.a == 0 && f.b == 0) (.lwait)
  | _ => .error .fn

/-- Major 0x25: capability derivation (R156). -/
def decodeDerive (f : SrFields) : Except Reserved Instr :=
  match f.fn.toNat with
  | 0x00 => need (hi2 f.d && hi2 f.a && f.b == 0) (.cMov (lo4 f.d) (lo4 f.a))
  | 0x01 => need (hi2 f.d && hi2 f.a) (.cSetb (lo4 f.d) (lo4 f.a) f.b)
  | 0x02 => need (hi2 f.d && hi2 f.a) (.cSetbOut (lo4 f.d) (lo4 f.a) f.b)
  | 0x03 => need (hi2 f.d && hi2 f.a) (.cAddc (lo4 f.d) (lo4 f.a) f.b)
  | 0x04 => need (hi2 f.d && hi2 f.a) (.cSetc (lo4 f.d) (lo4 f.a) f.b)
  | 0x05 => need (hi2 f.d && hi2 f.a) (.cAndp (lo4 f.d) (lo4 f.a) f.b)
  | 0x06 => need (hi2 f.d && hi2 f.a) (.cSetk (lo4 f.d) (lo4 f.a) f.b)
  | 0x07 => need (hi2 f.d && hi2 f.a && f.b == 0) (.cCleart (lo4 f.d) (lo4 f.a))
  | _ => .error .fn

/-- Major 0x26: capability seal, open, inspect (R159). -/
def decodeInspect (f : SrFields) : Except Reserved Instr :=
  match f.fn.toNat with
  | 0x00 => need (hi2 f.a && f.b == 0) (.cGetbase f.d (lo4 f.a))
  | 0x01 => need (hi2 f.a && f.b == 0) (.cGetlen f.d (lo4 f.a))
  | 0x02 => need (hi2 f.a && f.b == 0) (.cGetcur f.d (lo4 f.a))
  | 0x03 => need (hi2 f.a && f.b == 0) (.cGetp f.d (lo4 f.a))
  | 0x04 => need (hi2 f.a && f.b == 0) (.cGetk f.d (lo4 f.a))
  | 0x05 => need (hi2 f.a && f.b == 0) (.cGetcol f.d (lo4 f.a))
  | 0x06 => need (hi2 f.a && f.b == 0) (.cGett f.d (lo4 f.a))
  | 0x07 => need (hi2 f.a && f.b == 0) (.cGetlim f.d (lo4 f.a))
  | 0x08 => need (hi2 f.d && hi2 f.a) (.cSeal (lo4 f.d) (lo4 f.a) f.b)
  | 0x09 => need (hi2 f.d && hi2 f.a && hi2 f.b) (.cOpen (lo4 f.d) (lo4 f.a) (lo4 f.b))
  | 0x0A => need (f.b == 0) (.cRlen f.d f.a)
  | 0x0B => need (f.b == 0) (.cRalign f.d f.a)
  | _ => .error .fn

/-- Major 0x29: sync objects (R221). -/
def decodeSync (f : SrFields) : Except Reserved Instr :=
  match f.fn.toNat with
  | 0x00 => need (hi2 f.a && f.b == 0) (.syAcq f.d (lo4 f.a) .g)
  | 0x08 => need (f.d == 0 && hi2 f.a) (.syRel (lo4 f.a) f.b .g)
  | 0x10 => need (f.d == 0 && f.a == 0 && f.b == 0) (.syFence .g)
  | 0x18 => need (hi2 f.a) (.syMwait f.d (lo4 f.a) f.b .g)
  | 0x01 => need (hi2 f.a && f.b == 0) (.syAcq f.d (lo4 f.a) .t)
  | 0x09 => need (f.d == 0 && hi2 f.a) (.syRel (lo4 f.a) f.b .t)
  | 0x11 => need (f.d == 0 && f.a == 0 && f.b == 0) (.syFence .t)
  | 0x19 => need (hi2 f.a) (.syMwait f.d (lo4 f.a) f.b .t)
  | 0x02 => need (hi2 f.a && f.b == 0) (.syAcq f.d (lo4 f.a) .k)
  | 0x0A => need (f.d == 0 && hi2 f.a) (.syRel (lo4 f.a) f.b .k)
  | 0x12 => need (f.d == 0 && f.a == 0 && f.b == 0) (.syFence .k)
  | 0x1A => need (hi2 f.a) (.syMwait f.d (lo4 f.a) f.b .k)
  | 0x03 => need (hi2 f.a && f.b == 0) (.syAcq f.d (lo4 f.a) .d)
  | 0x0B => need (f.d == 0 && hi2 f.a) (.syRel (lo4 f.a) f.b .d)
  | 0x13 => need (f.d == 0 && f.a == 0 && f.b == 0) (.syFence .d)
  | 0x1B => need (hi2 f.a) (.syMwait f.d (lo4 f.a) f.b .d)
  | 0x04 => need (hi2 f.a && f.b == 0) (.syAcq f.d (lo4 f.a) .v)
  | 0x0C => need (f.d == 0 && hi2 f.a) (.syRel (lo4 f.a) f.b .v)
  | 0x14 => need (f.d == 0 && f.a == 0 && f.b == 0) (.syFence .v)
  | 0x1C => need (hi2 f.a) (.syMwait f.d (lo4 f.a) f.b .v)
  | 0x05 => need (hi2 f.a && f.b == 0) (.syAcq f.d (lo4 f.a) .y)
  | 0x0D => need (f.d == 0 && hi2 f.a) (.syRel (lo4 f.a) f.b .y)
  | 0x15 => need (f.d == 0 && f.a == 0 && f.b == 0) (.syFence .y)
  | 0x1D => need (hi2 f.a) (.syMwait f.d (lo4 f.a) f.b .y)
  | 0x20 => need (hi2 f.a && f.b == 0) (.syLd f.d (lo4 f.a))
  | 0x21 => need (f.d == 0 && hi2 f.a) (.sySt (lo4 f.a) f.b)
  | 0x22 => need (hi2 f.a && hi2 f.b) (.syBind f.d (lo4 f.a) (lo4 f.b))
  | 0x23 => need (f.d == 0 && hi2 f.a) (.syUnbind (lo4 f.a) f.b)
  | 0x24 => need (f.a == 0 && f.b == 0) (.syBar f.d)
  | _ => .error .fn

/-- Major 0x2A: copy engine (R229). -/
def decodeCopy (f : SrFields) : Except Reserved Instr :=
  match f.fn.toNat with
  | 0x00 => need (f.d == 0 && hi2 f.a && f.b == 0) (.cpRun (lo4 f.a))
  | _ => .error .fn

/-- Major 0x2B: collectives (R362, R364). -/
def decodeCollective (f : SrFields) : Except Reserved Instr :=
  match f.fn.toNat with
  | 0x00 => need (f.d == 0 && hi2 f.a && f.b == 0) (.clRun (lo4 f.a))
  | 0x01 => need (f.d == 0 && hi2 f.a && hi2 f.b) (.clGive (lo4 f.a) (lo4 f.b))
  | _ => .error .fn

/-- Major 0x2C: matrix (R238-R241, R250). -/
def decodeMatrix (f : SrFields) : Except Reserved Instr :=
  match f.fn.toNat with
  | 0x00 => need (hi2 f.a) (.mxLdb f.d (lo4 f.a) f.b)
  | 0x10 => .ok (.mxRes f.d f.a f.b .d8)
  | 0x11 => .ok (.mxRes f.d f.a f.b .f16)
  | 0x12 => .ok (.mxRes f.d f.a f.b .b16)
  | 0x13 => .ok (.mxRes f.d f.a f.b .p8)
  | 0x14 => .ok (.mxRes f.d f.a f.b .p16)
  | 0x18 => need (f.d == 0 && f.b == 0) (.mxFree f.a)
  | 0x19 => need (f.d == 0 && f.b == 0) (.mxAzero f.a)
  | 0x1A => need (f.b == 0) (.mxRinfo f.d f.a)
  | _ => .error .fn

/-- Major 0x2D: record mode (R291). -/
def decodeRecord (f : SrFields) : Except Reserved Instr :=
  match f.fn.toNat with
  | 0x00 => need (f.d == 0 && f.b == 0) (.recBegin f.a)
  | 0x01 => need (f.d == 0 && f.b == 0) (.recEnd f.a)
  | 0x02 => need (f.d == 0 && f.b == 0) (.recReplay f.a)
  | 0x03 => need (f.d == 0 && f.b == 0) (.recRerecord f.a)
  | 0x04 => need (f.d == 0 && f.b == 0) (.recDrop f.a)
  | 0x08 => need (f.b == 0) (.recStatus f.d f.a)
  | 0x09 => need (f.b == 0) (.recRte f.d f.a)
  | _ => .error .fn

/-- Major 0x2E: sweep and check (R184, R275). -/
def decodeSweep (f : SrFields) : Except Reserved Instr :=
  match f.fn.toNat with
  | 0x00 => need (hi2 f.a && f.b == 0) (.swRevoke f.d (lo4 f.a))
  | 0x01 => need (f.a == 0 && f.b == 0) (.swStatus f.d)
  | 0x02 => need (f.d == 0 && f.b == 0) (.swWait f.a)
  | 0x40 => need (f.a == 0 && f.b == 0) (.chkErr f.d)
  | 0x41 => need (f.a == 0 && f.b == 0) (.chkErrT f.d)
  | 0x42 => need (f.d == 0 && f.a == 0 && f.b == 0) (.chkClr)
  | _ => .error .fn

/-- The scope of S (spec/13 R218). -/
def Scope.ofCode : Nat → Option Scope
  | 0 => some .g | 1 => some .t | 2 => some .k | 3 => some .d | 4 => some .v | 5 => some .y | _ => none
/-- The order of ORD (spec/13 R224). -/
def Ord.ofCode : Nat → Ord
  | 0 => .rlx | 1 => .acq | 2 => .rel | _ => .ar
/-- The operation of OP (spec/13 R224). -/
def AmoOp.ofCode : Nat → AmoOp
  | 0 => .add | 1 => .and | 2 => .or | 3 => .xor | 4 => .max | 5 => .min | 6 => .swap | _ => .cas

/-- Major 0x28: `sy.rmw`, fn = OP [7:5], ORD [4:3], S [2:0] (R224). -/
def decodeRmw (f : SrFields) : Except Reserved Instr :=
  match Scope.ofCode (f.fn.extractLsb' 0 3).toNat with
  | none => .error .fn
  | some s =>
    let ord := Ord.ofCode (f.fn.extractLsb' 3 2).toNat
    if rmwWf ord s then
      need (hi2 f.a) (.syRmw f.d (lo4 f.a) f.b (AmoOp.ofCode (f.fn.extractLsb' 5 3).toNat) ord s)
    else .error .fn

/-- SB branches: cond [19:17], disp17 [16:0] (R14). -/
def decodeBranch (w : BitVec 32) : Except Reserved Instr :=
  match (w.extractLsb' 17 3).toNat with
  | 0 => .ok (.sBz (w.extractLsb' 20 6) (w.extractLsb' 0 17))
  | 1 => .ok (.sBnz (w.extractLsb' 20 6) (w.extractLsb' 0 17))
  | 2 => .ok (.sBlt (w.extractLsb' 20 6) (w.extractLsb' 0 17))
  | 3 => .ok (.sBge (w.extractLsb' 20 6) (w.extractLsb' 0 17))
  | 4 => .ok (.sBle (w.extractLsb' 20 6) (w.extractLsb' 0 17))
  | 5 => .ok (.sBgt (w.extractLsb' 20 6) (w.extractLsb' 0 17))
  | _ => .error .cond

/-- SX words: subop8 [25:18], A [17:12], the rest zero (R106, R39). -/
def decodeSystem (w : BitVec 32) : Except Reserved Instr :=
  let a := w.extractLsb' 12 6
  let rest := w.extractLsb' 0 12
  match (w.extractLsb' 18 8).toNat with
  | 0x00 => need (a == 0 && rest == 0) .sysEnd
  | 0x01 => need (a == 0 && rest == 0) .sysTret
  | 0x02 => need (a == 0 && rest == 0) .sysYield
  | 0x03 => need (rest == 0) (.sysTime a)
  | 0x04 => need (hi2 a && rest == 0) (.sTail (lo4 a))
  | 0x7E => need (a == 0 && rest == 0) .sysEmuret
  | _ => .error .fn

/-- A scalar word, by its major opcode in [31:26] (R16). -/
def decodeScalar (w : BitVec 32) : Except Reserved Instr :=
  match (w.extractLsb' 26 6).toNat with
  | 0x00 => decodeInt (srFields w)
  | 0x01 => decodeMul (srFields w)
  | 0x02 => decodeCmp (srFields w)
  | 0x03 => decodeBits (srFields w)
  | 0x13 => decodeJump (srFields w)
  | 0x16 => decodeSpecial (srFields w)
  | 0x17 => decodeWait (srFields w)
  | 0x25 => decodeDerive (srFields w)
  | 0x26 => decodeInspect (srFields w)
  | 0x29 => decodeSync (srFields w)
  | 0x2A => decodeCopy (srFields w)
  | 0x2B => decodeCollective (srFields w)
  | 0x2C => decodeMatrix (srFields w)
  | 0x2D => decodeRecord (srFields w)
  | 0x2E => decodeSweep (srFields w)
  | 0x28 => decodeRmw (srFields w)
  | 0x04 => .ok (.sAddi (w.extractLsb' 20 6) (w.extractLsb' 14 6) (w.extractLsb' 0 14))
  | 0x05 => .ok (.sAndi (w.extractLsb' 20 6) (w.extractLsb' 14 6) (w.extractLsb' 0 14))
  | 0x06 => .ok (.sOri (w.extractLsb' 20 6) (w.extractLsb' 14 6) (w.extractLsb' 0 14))
  | 0x07 => .ok (.sXori (w.extractLsb' 20 6) (w.extractLsb' 14 6) (w.extractLsb' 0 14))
  | 0x0B => .ok (.sSlti (w.extractLsb' 20 6) (w.extractLsb' 14 6) (w.extractLsb' 0 14))
  | 0x0C => .ok (.sSltni (w.extractLsb' 20 6) (w.extractLsb' 14 6) (w.extractLsb' 0 14))
  | 0x0D => .ok (.sAddhi (w.extractLsb' 20 6) (w.extractLsb' 14 6) (w.extractLsb' 0 14))
  | 0x0E => .ok (.sMuli (w.extractLsb' 20 6) (w.extractLsb' 14 6) (w.extractLsb' 0 14))
  | 0x08 => need (w.extractLsb' 6 8 == 0) (.sShli (w.extractLsb' 20 6) (w.extractLsb' 14 6) (w.extractLsb' 0 6))
  | 0x09 => need (w.extractLsb' 6 8 == 0) (.sShri (w.extractLsb' 20 6) (w.extractLsb' 14 6) (w.extractLsb' 0 6))
  | 0x0A => need (w.extractLsb' 6 8 == 0) (.sSrai (w.extractLsb' 20 6) (w.extractLsb' 14 6) (w.extractLsb' 0 6))
  | 0x10 => decodeBranch w
  | 0x11 => .ok (.sJ (w.extractLsb' 0 26))
  | 0x12 => .ok (.sCall (w.extractLsb' 0 26))
  | 0x14 => .ok (.lrun (w.extractLsb' 9 17) (w.extractLsb' 0 9))
  | 0x18 => .ok (.sLdN8 (w.extractLsb' 20 6) (w.extractLsb' 16 4) (w.extractLsb' 0 16))
  | 0x19 => .ok (.sLdN16 (w.extractLsb' 20 6) (w.extractLsb' 16 4) (w.extractLsb' 0 16))
  | 0x1A => .ok (.sLdN32 (w.extractLsb' 20 6) (w.extractLsb' 16 4) (w.extractLsb' 0 16))
  | 0x1B => .ok (.sLdN64 (w.extractLsb' 20 6) (w.extractLsb' 16 4) (w.extractLsb' 0 16))
  | 0x1C => .ok (.sStN8 (w.extractLsb' 20 6) (w.extractLsb' 16 4) (w.extractLsb' 0 16))
  | 0x1D => .ok (.sStN16 (w.extractLsb' 20 6) (w.extractLsb' 16 4) (w.extractLsb' 0 16))
  | 0x1E => .ok (.sStN32 (w.extractLsb' 20 6) (w.extractLsb' 16 4) (w.extractLsb' 0 16))
  | 0x1F => .ok (.sStN64 (w.extractLsb' 20 6) (w.extractLsb' 16 4) (w.extractLsb' 0 16))
  | 0x20 => .ok (.sLdI8 (w.extractLsb' 20 6) (w.extractLsb' 16 4) (w.extractLsb' 0 16))
  | 0x21 => .ok (.sLdI16 (w.extractLsb' 20 6) (w.extractLsb' 16 4) (w.extractLsb' 0 16))
  | 0x22 => .ok (.sLdI32 (w.extractLsb' 20 6) (w.extractLsb' 16 4) (w.extractLsb' 0 16))
  | 0x23 => need (hi2 (w.extractLsb' 20 6)) (.cLd (lo4 (w.extractLsb' 20 6)) (w.extractLsb' 16 4) (w.extractLsb' 0 16))
  | 0x24 => need (hi2 (w.extractLsb' 20 6)) (.cSt (lo4 (w.extractLsb' 20 6)) (w.extractLsb' 16 4) (w.extractLsb' 0 16))
  | 0x3E => .ok (.sEmu (w.extractLsb' 0 26))
  | 0x3F => decodeSystem w
  | _ => .error .major

/-- The fields of a wide word (R17). -/
def wideFields (w : BitVec 96) : Wide :=
  { ce := bit w 94, ms := w.extractLsb' 81 3, dst := w.extractLsb' 73 8, ws := bit w 72, le := bit w 71
    lt := w.extractLsb' 69 2, sa := w.extractLsb' 60 9, la := bit w 59, sb := w.extractLsb' 50 9, lb := bit w 49
    sc := w.extractLsb' 40 9, lc := bit w 39, mod := w.extractLsb' 23 16, imm := w.extractLsb' 0 23 }

/-- The step of an OP10 whose word is legal (R26). -/
def wideInstr (op10 : Nat) (w : Wide) : Option Instr :=
  if op10 = 0x07F then some (.vNop (.wide w))
  else if op10 < 0x080 then
    match NOp.ofCode (op10 / 8), NTy.ofCode (op10 % 8) with
    | some o, some t => some (ofNarrowOp o t w)
    | _, _ => none
  else ofOp10 op10 w

/-- A wide word: unassigned OP10, then a reserved selector, then a reserved modifier (R28, R29). -/
def decodeWide (op10 : BitVec 10) (w : Wide) : Except Reserved Instr :=
  if 0x3C0 ≤ op10.toNat then .ok (.vEmu (op10.extractLsb' 0 6) w)
  else match laneInfo op10.toNat w with
    | none => .error .op10
    | some i =>
      if i.badSelector w then .error .selector
      else if i.badModifier w then .error .modifier
      else match wideInstr op10.toNat w with
        | some x => .ok x
        | none => .error .op10

/-- The fields of a narrow operation but for OP7 (R22). -/
def narrowFields (v : BitVec 40) : Narrow :=
  { dst := v.extractLsb' 32 8, ws := bit v 31, sa := v.extractLsb' 23 8, la := bit v 22, sb := v.extractLsb' 14 8
    lb := bit v 13, sc := v.extractLsb' 5 8, lc := bit v 4, mod := v.extractLsb' 0 4 }

/-- One slot of a pair word; none for a reserved OP7 (R23). -/
def decodeSlot (op7 : BitVec 7) (v : BitVec 40) : Option Slot :=
  if op7 = 0x7F then some (.nop v)
  else match NOp.ofCode (op7.toNat / 8), NTy.ofCode (op7.toNat % 8) with
    | some o, some t => if o.valid t then some (.op o t (narrowFields v)) else none
    | _, _ => none

/-- A pair word, by its slot X (R22). -/
def pairInstr (ce : Bool) : Slot → Slot → Instr
  | .op o t x, y => ofPair o ce t x y
  | .nop raw, y => .vNop (.pair ce raw y)

/-- A lane word: bit 95 tells a pair from a wide word; slot X is judged before slot Y (R17, R22, R29). -/
def decodeLane (w : BitVec 96) : Except Reserved Instr :=
  if bit w 95 then
    match decodeSlot (w.extractLsb' 87 7) (w.extractLsb' 47 40), decodeSlot (w.extractLsb' 40 7) (w.extractLsb' 0 40) with
    | none, _ => .error (.op7 false)
    | some _, none => .error (.op7 true)
    | some x, some y => .ok (pairInstr (bit w 94) x y)
  else decodeWide (w.extractLsb' 84 10) (wideFields w)

/-- The instruction the decoder reads from a word numbered as spec/opcode_table.json numbers it: scalar words have 32
bits and lane words 96 (spec/02 R11). -/
def decodeTableWord (nbits w : Nat) : Option Instr :=
  match (if nbits ≤ 32 then decodeScalar (BitVec.ofNat 32 w) else decodeLane (BitVec.ofNat 96 w)) with
  | .ok i => some i
  | .error _ => none

/-! The encoder. -/

/-- SR (R12). -/
def sr (mj : BitVec 6) (d a b : BitVec 6) (fn : BitVec 8) : BitVec 32 := mj ++ d ++ a ++ b ++ fn
/-- SI (R12). -/
def si (mj : BitVec 6) (d a : BitVec 6) (imm : BitVec 14) : BitVec 32 := mj ++ d ++ a ++ imm
/-- SB (R12, R14). -/
def sb (cond : BitVec 3) (a : BitVec 6) (disp : BitVec 17) : BitVec 32 := 0x10#6 ++ a ++ cond ++ disp
/-- SJ (R12). -/
def sj (mj : BitVec 6) (disp : BitVec 26) : BitVec 32 := mj ++ disp
/-- SL (R12). -/
def sl (off : BitVec 17) (cnt : BitVec 9) : BitVec 32 := 0x14#6 ++ off ++ cnt
/-- SM (R12). -/
def sm (mj : BitVec 6) (d : BitVec 6) (c : BitVec 4) (off : BitVec 16) : BitVec 32 := mj ++ d ++ c ++ off
/-- SX (R12). -/
def sx (sub : BitVec 8) (a : BitVec 6) : BitVec 32 := 0x3F#6 ++ sub ++ a ++ 0#12
/-- A c register in a 6-bit field (R13). -/
def reg4 (c : CReg) : BitVec 6 := 0#2 ++ c

/-- fn[2:0] of the counter words (R103). -/
def Path.code : Path → BitVec 8
  | .ld => 0 | .st => 1 | .cp => 2 | .mx => 3 | .cl => 4 | .fx => 5
/-- S (R218). -/
def Scope.code : Scope → BitVec 8
  | .g => 0 | .t => 1 | .k => 2 | .d => 3 | .v => 4 | .y => 5
/-- OP (R224). -/
def AmoOp.code : AmoOp → BitVec 3
  | .add => 0 | .and => 1 | .or => 2 | .xor => 3 | .max => 4 | .min => 5 | .swap => 6 | .cas => 7
/-- ORD (R224). -/
def Ord.code : Ord → BitVec 2
  | .rlx => 0 | .acq => 1 | .rel => 2 | .ar => 3
/-- F (R239). -/
def MxFmt.code : MxFmt → BitVec 8
  | .d8 => 0 | .f16 => 1 | .b16 => 2 | .p8 => 3 | .p16 => 4
/-- fn of `sy.rmw` (R224). -/
def rmwFn (op : AmoOp) (ord : Ord) (s : Scope) : BitVec 8 := op.code ++ ord.code ++ s.code.extractLsb' 0 3

/-- The 32-bit word of a scalar instruction. -/
def encodeScalar (i : Instr) : Option (BitVec 32) :=
  match i with
  | .sAdd d a b => some (sr 0x00 d a b 0x00)
  | .sSub d a b => some (sr 0x00 d a b 0x01)
  | .sAnd d a b => some (sr 0x00 d a b 0x02)
  | .sOr d a b => some (sr 0x00 d a b 0x03)
  | .sXor d a b => some (sr 0x00 d a b 0x04)
  | .sAndn d a b => some (sr 0x00 d a b 0x05)
  | .sShl d a b => some (sr 0x00 d a b 0x06)
  | .sShr d a b => some (sr 0x00 d a b 0x07)
  | .sSra d a b => some (sr 0x00 d a b 0x08)
  | .sMul d a b => some (sr 0x01 d a b 0x00)
  | .sMulhI d a b => some (sr 0x01 d a b 0x01)
  | .sMulhN d a b => some (sr 0x01 d a b 0x02)
  | .sDivI d a b => some (sr 0x01 d a b 0x03)
  | .sDivN d a b => some (sr 0x01 d a b 0x04)
  | .sRemI d a b => some (sr 0x01 d a b 0x05)
  | .sRemN d a b => some (sr 0x01 d a b 0x06)
  | .sSeq d a b => some (sr 0x02 d a b 0x00)
  | .sSne d a b => some (sr 0x02 d a b 0x01)
  | .sSlt d a b => some (sr 0x02 d a b 0x02)
  | .sSltn d a b => some (sr 0x02 d a b 0x03)
  | .sMinI d a b => some (sr 0x02 d a b 0x04)
  | .sMaxI d a b => some (sr 0x02 d a b 0x05)
  | .sMinN d a b => some (sr 0x02 d a b 0x06)
  | .sMaxN d a b => some (sr 0x02 d a b 0x07)
  | .sSel d a b => some (sr 0x02 d a b 0x08)
  | .sClz d a => some (sr 0x03 d a 0 0x00)
  | .sCtz d a => some (sr 0x03 d a 0 0x01)
  | .sPopc d a => some (sr 0x03 d a 0 0x02)
  | .sBswap d a => some (sr 0x03 d a 0 0x03)
  | .sBextN d a b => some (sr 0x03 d a b 0x04)
  | .sBextI d a b => some (sr 0x03 d a b 0x05)
  | .sBins d a b => some (sr 0x03 d a b 0x06)
  | .sJr a => some (sr 0x13 0 a 0 0x00)
  | .sCallr a => some (sr 0x13 0 a 0 0x01)
  | .sRet => some (sr 0x13 0 0 0 0x02)
  | .sMfs d n => some (sr 0x16 d 0 n 0x00)
  | .sMts n a => some (sr 0x16 n a 0 0x01)
  | .lwait => some (sr 0x17 0 0 0 0x10)
  | .cMov d a => some (sr 0x25 (reg4 d) (reg4 a) 0 0x00)
  | .cSetb d a b => some (sr 0x25 (reg4 d) (reg4 a) b 0x01)
  | .cSetbOut d a b => some (sr 0x25 (reg4 d) (reg4 a) b 0x02)
  | .cAddc d a b => some (sr 0x25 (reg4 d) (reg4 a) b 0x03)
  | .cSetc d a b => some (sr 0x25 (reg4 d) (reg4 a) b 0x04)
  | .cAndp d a b => some (sr 0x25 (reg4 d) (reg4 a) b 0x05)
  | .cSetk d a b => some (sr 0x25 (reg4 d) (reg4 a) b 0x06)
  | .cCleart d a => some (sr 0x25 (reg4 d) (reg4 a) 0 0x07)
  | .cGetbase d a => some (sr 0x26 d (reg4 a) 0 0x00)
  | .cGetlen d a => some (sr 0x26 d (reg4 a) 0 0x01)
  | .cGetcur d a => some (sr 0x26 d (reg4 a) 0 0x02)
  | .cGetp d a => some (sr 0x26 d (reg4 a) 0 0x03)
  | .cGetk d a => some (sr 0x26 d (reg4 a) 0 0x04)
  | .cGetcol d a => some (sr 0x26 d (reg4 a) 0 0x05)
  | .cGett d a => some (sr 0x26 d (reg4 a) 0 0x06)
  | .cGetlim d a => some (sr 0x26 d (reg4 a) 0 0x07)
  | .cSeal d a b => some (sr 0x26 (reg4 d) (reg4 a) b 0x08)
  | .cOpen d a b => some (sr 0x26 (reg4 d) (reg4 a) (reg4 b) 0x09)
  | .cRlen d a => some (sr 0x26 d a 0 0x0A)
  | .cRalign d a => some (sr 0x26 d a 0 0x0B)
  | .syLd d a => some (sr 0x29 d (reg4 a) 0 0x20)
  | .sySt a b => some (sr 0x29 0 (reg4 a) b 0x21)
  | .syBind d a b => some (sr 0x29 d (reg4 a) (reg4 b) 0x22)
  | .syUnbind a b => some (sr 0x29 0 (reg4 a) b 0x23)
  | .syBar d => some (sr 0x29 d 0 0 0x24)
  | .cpRun a => some (sr 0x2A 0 (reg4 a) 0 0x00)
  | .clRun a => some (sr 0x2B 0 (reg4 a) 0 0x00)
  | .clGive a b => some (sr 0x2B 0 (reg4 a) (reg4 b) 0x01)
  | .mxLdb d a b => some (sr 0x2C d (reg4 a) b 0x00)
  | .mxFree a => some (sr 0x2C 0 a 0 0x18)
  | .mxAzero a => some (sr 0x2C 0 a 0 0x19)
  | .mxRinfo d a => some (sr 0x2C d a 0 0x1A)
  | .recBegin a => some (sr 0x2D 0 a 0 0x00)
  | .recEnd a => some (sr 0x2D 0 a 0 0x01)
  | .recReplay a => some (sr 0x2D 0 a 0 0x02)
  | .recRerecord a => some (sr 0x2D 0 a 0 0x03)
  | .recDrop a => some (sr 0x2D 0 a 0 0x04)
  | .recStatus d a => some (sr 0x2D d a 0 0x08)
  | .recRte d a => some (sr 0x2D d a 0 0x09)
  | .swRevoke d a => some (sr 0x2E d (reg4 a) 0 0x00)
  | .swStatus d => some (sr 0x2E d 0 0 0x01)
  | .swWait a => some (sr 0x2E 0 a 0 0x02)
  | .chkErr d => some (sr 0x2E d 0 0 0x40)
  | .chkErrT d => some (sr 0x2E d 0 0 0x41)
  | .chkClr => some (sr 0x2E 0 0 0 0x42)
  | .sWait p a => some (sr 0x17 0 a 0 p.code)
  | .sCnt d p => some (sr 0x17 d 0 0 (p.code + 8))
  | .syAcq d a s => some (sr 0x29 d (reg4 a) 0 s.code)
  | .syRel a b s => some (sr 0x29 0 (reg4 a) b (s.code + 8))
  | .syFence s => some (sr 0x29 0 0 0 (s.code + 16))
  | .syMwait d a b s => some (sr 0x29 d (reg4 a) b (s.code + 24))
  | .syRmw d a b op ord s => some (sr 0x28 d (reg4 a) b (rmwFn op ord s))
  | .mxRes d a b f => some (sr 0x2C d a b (f.code + 16))
  | .sAddi d a imm => some (si 0x04 d a imm)
  | .sAndi d a imm => some (si 0x05 d a imm)
  | .sOri d a imm => some (si 0x06 d a imm)
  | .sXori d a imm => some (si 0x07 d a imm)
  | .sSlti d a imm => some (si 0x0B d a imm)
  | .sSltni d a imm => some (si 0x0C d a imm)
  | .sAddhi d a imm => some (si 0x0D d a imm)
  | .sMuli d a imm => some (si 0x0E d a imm)
  | .sShli d a sh => some (si 0x08 d a (0#8 ++ sh))
  | .sShri d a sh => some (si 0x09 d a (0#8 ++ sh))
  | .sSrai d a sh => some (si 0x0A d a (0#8 ++ sh))
  | .sBz a disp => some (sb 0 a disp)
  | .sBnz a disp => some (sb 1 a disp)
  | .sBlt a disp => some (sb 2 a disp)
  | .sBge a disp => some (sb 3 a disp)
  | .sBle a disp => some (sb 4 a disp)
  | .sBgt a disp => some (sb 5 a disp)
  | .sJ disp => some (sj 0x11 disp)
  | .sCall disp => some (sj 0x12 disp)
  | .sEmu code => some (sj 0x3E code)
  | .lrun off cnt => some (sl off cnt)
  | .sLdN8 d c off => some (sm 0x18 d c off)
  | .sLdN16 d c off => some (sm 0x19 d c off)
  | .sLdN32 d c off => some (sm 0x1A d c off)
  | .sLdN64 d c off => some (sm 0x1B d c off)
  | .sStN8 d c off => some (sm 0x1C d c off)
  | .sStN16 d c off => some (sm 0x1D d c off)
  | .sStN32 d c off => some (sm 0x1E d c off)
  | .sStN64 d c off => some (sm 0x1F d c off)
  | .sLdI8 d c off => some (sm 0x20 d c off)
  | .sLdI16 d c off => some (sm 0x21 d c off)
  | .sLdI32 d c off => some (sm 0x22 d c off)
  | .cLd d c off => some (sm 0x23 (reg4 d) c off)
  | .cSt d c off => some (sm 0x24 (reg4 d) c off)
  | .sysEnd => some (sx 0x00 0)
  | .sysTret => some (sx 0x01 0)
  | .sysYield => some (sx 0x02 0)
  | .sysTime d => some (sx 0x03 d)
  | .sTail a => some (sx 0x04 (reg4 a))
  | .sysEmuret => some (sx 0x7E 0)
  | _ => none

/-- One bit. -/
def bit1 (b : Bool) : BitVec 1 := BitVec.ofBool b

/-- A wide word from its OP10 and fields (R17). -/
def wideWord (op10 : BitVec 10) (w : Wide) : BitVec 96 :=
  0#1 ++ bit1 w.ce ++ op10 ++ w.ms ++ w.dst ++ bit1 w.ws ++ bit1 w.le ++ w.lt ++ w.sa ++ bit1 w.la ++ w.sb ++ bit1 w.lb
    ++ w.sc ++ bit1 w.lc ++ w.mod ++ w.imm

/-- The 40 bits of a narrow operation below OP7 (R22). -/
def narrowBits (n : Narrow) : BitVec 40 :=
  n.dst ++ bit1 n.ws ++ n.sa ++ bit1 n.la ++ n.sb ++ bit1 n.lb ++ n.sc ++ bit1 n.lc ++ n.mod

/-- The 47 bits of a slot (R22, R23). -/
def slotBits : Slot → BitVec 47
  | .op o t f => BitVec.ofNat 7 (8 * o.code + t.code) ++ narrowBits f
  | .nop raw => 0x7F#7 ++ raw

/-- A pair word (R22). -/
def pairWord (ce : Bool) (x y : Slot) : BitVec 96 := 1#1 ++ bit1 ce ++ slotBits x ++ slotBits y

/-- The 96-bit word of a lane instruction. -/
def encodeLane (i : Instr) : Option (BitVec 96) :=
  match i.wide?, i.pair? with
  | some (op10, w), _ => some (wideWord (BitVec.ofNat 10 op10) w)
  | none, some (ce, x, y) => some (pairWord ce x y)
  | none, none => none

/-- The word of an instruction: its length in bits and its bits; none for a step without a word. -/
def encode (i : Instr) : Option (Nat × Nat) :=
  match encodeScalar i, encodeLane i with
  | some w, _ => some (32, w.toNat)
  | none, some w => some (96, w.toNat)
  | none, none => none

end Sys2Proof
end

