-- ==== Sys2Proof/Config.lean ====
section
/-! DEFINITION. What an implementation fixes and the values the spec leaves free.
Every constant here is opaque and has no body: no proof can learn what it is, so a statement holds for every value.
The fixed sizes of the FX9-J576 are plain numbers. -/

namespace Sys2Proof.Config

/-- Free value (spec/06 R124, R125; notes/assumptions/10): the position of a CORDIC result inside its bound, in
units of 2^-256 of that bound, a fixed function of the OP10, type code, n, FZ and the source bits. -/
opaque cordic : Nat → Nat → Nat → Bool → BitVec 32 → BitVec 32 → Int

/-- Free value (spec/21 R344; notes/assumptions/11): the SHA-256 digest of a byte string. The spec names the
published standard and does not give the function. -/
opaque sha256 : List Byte → List Byte

/-- Free value (spec/21 R344; notes/assumptions/11): an RSA-3072 signature under the fused identity key. -/
opaque rsaSign : List Byte → List Byte

/-- Free value (spec/21 R342; notes/assumptions/11): the signed report of ATTEST for a nonce. -/
opaque attestReport : List Byte → Nat → List Byte

/-- Free value (spec/21 R340; notes/assumptions/11): what the import engine recovers from the first 512 bytes of
a sealed blob and its ciphertext: the plaintext, or none where CHIPFP, the unwrapping or the GCM tag fails. -/
opaque recoverBlob : List Byte → List Byte → Option (List Byte)

/-- Free value (spec/21 R334; notes/assumptions/12): the 16-bit SEC-DED code of a sector's 32 bytes, TAG and PSN. -/
opaque secded : List Byte → BitVec 8 → BitVec 4 → BitVec 16

/-- Free value (spec/21 R334, R336; notes/assumptions/12): the 48-bit GMAC of a line under a partition key. -/
opaque gmac : Nat → Nat → List Byte → BitVec 48

/-- An implementation's choice (spec/21 R330; notes/assumptions/29): the context of the host driver. -/
opaque driverContext : Nat

/-- An implementation's choice (spec/21 R344; notes/assumptions/29): the postmarks that the log's ring holds. -/
opaque logRing : Nat

/-- Free value (spec/22 R369; notes/assumptions/11): does the RSA-3072 signature of a firmware image verify? -/
opaque firmwareVerifies : Nat → Bool

/-- Free value (spec/21 R345; notes/assumptions/11): does the signature of the image that the package boots verify? -/
opaque bootVerifies : Bool

/-- Free value (notes/assumptions/6): the n-th fresh 64-bit value, where the spec states an effect and not the
value it leaves. -/
opaque freeValue : Nat → BitVec 64

/-- Compute dies of the package (spec/00 R1). -/
def dies : Nat := 4
/-- Clusters of a die (spec/00 R1). -/
def clustersPerDie : Nat := 48
/-- Cores of a cluster (spec/00 R1). -/
def coresPerCluster : Nat := 4
/-- Cores of a die (spec/00 R1). -/
def coresPerDie : Nat := 192
/-- Group slots of a core (spec/12 R195). -/
def slotsPerCore : Nat := 16
/-- Bytes of an operand buffer (spec/14 R236). -/
def operandBytes : Nat := 786432
/-- Peers of the scale-up domain (spec/22 R357). -/
def peers : Nat := 144
/-- One GiB (spec/00 R4). -/
def gib : Nat := 1073741824
/-- Bytes of HBM4 of one die: 144 GiB (spec/16 R269). -/
def hbmPerDie : Nat := 154618822656
/-- Bytes of HBM4 of the device: 576 GiB (spec/16 R269). -/
def hbmTop : Nat := 618475290624
/-- First byte of the carve-out windows, 2^44 (spec/16 R270). -/
def carveBase : Nat := 17592186044416
/-- Bytes of one carve-out window: 48 MiB (spec/16 R270). -/
def carveWindow : Nat := 50331648
/-- First byte of the device register space, 2^47 (spec/21 R330). -/
def regBase : Nat := 140737488355328
/-- First byte of the package register block (spec/21 R330). -/
def pkgBase : Nat := 140737756790784
/-- First byte of the host range, 2^48 (spec/22 R350). -/
def hostBase : Nat := 281474976710656
/-- First byte of the peer range, 2^49 (spec/22 R359). -/
def peerBase : Nat := 562949953421312
/-- One past the last address, 2^50 (spec/08 R151). -/
def addrTop : Nat := 1125899906842624

end Sys2Proof.Config
end

