-- ==== Sys2Proof/Machine/Numbers.lean ====
section
/-! DEFINITION. Number formats, rounding and numerical events (spec/03 R40-R47, R58, R61).
Every operation computes its exact result as a sign and a fraction of naturals and rounds once. -/

namespace Sys2Proof.Machine

/-- The event classes raised by one operation, bit c for class c: INV OVF UNF INX IDIV DSAT PUND (spec/03 R61). -/
abbrev Ev := BitVec 7

def evNone : Ev := 0
def evInv : Ev := 1
def evOvf : Ev := 2
def evUnf : Ev := 4
def evInx : Ev := 8
def evIdiv : Ev := 16
def evDsat : Ev := 32
def evPund : Ev := 64

/-- A binary format: exponent bits and fraction bits (spec/03 R43). -/
structure Fmt where
  eb : Nat
  fb : Nat
  deriving DecidableEq, Repr

def fp32 : Fmt := ⟨8, 23⟩
def fp16 : Fmt := ⟨5, 10⟩
def bf16 : Fmt := ⟨8, 7⟩

/-- Width in bits. -/
def Fmt.width (f : Fmt) : Nat := 1 + f.eb + f.fb
/-- The exponent bias (R43). -/
def Fmt.bias (f : Fmt) : Nat := 2 ^ (f.eb - 1) - 1
/-- The all-ones exponent field. -/
def Fmt.expTop (f : Fmt) : Nat := 2 ^ f.eb - 1
/-- The bit pattern of +infinity. -/
def Fmt.infBits (f : Fmt) : Nat := f.expTop * 2 ^ f.fb
/-- The canonical quiet NaN (R43). -/
def Fmt.nanBits (f : Fmt) : Nat := f.infBits + 2 ^ (f.fb - 1)
/-- The poison pattern (R43): 0x7FD0_0000, 0x7E80 and 0x7FD0. -/
def Fmt.poisonBits (f : Fmt) : Nat := f.nanBits + 2 ^ (f.fb - 3)
/-- The sign bit. -/
def Fmt.signBit (f : Fmt) : Nat := 2 ^ (f.eb + f.fb)
/-- The largest finite magnitude, as bits. -/
def Fmt.maxBits (f : Fmt) : Nat := f.infBits - 1
/-- A signed pattern. -/
def Fmt.signed (f : Fmt) (neg : Bool) (bits : Nat) : Nat := if neg then f.signBit + bits else bits

/-- A value read from a floating-point source: a NaN (signalling or quiet), an infinity, or a sign and an exact
magnitude n / d. -/
inductive Num where
  | nan (sig : Bool)
  | inf (neg : Bool)
  | fin (neg : Bool) (n d : Nat)
  deriving DecidableEq, Repr

/-- 2^e of an integer exponent as a fraction. -/
def pow2 (e : Int) : Nat × Nat := if 0 ≤ e then (2 ^ e.toNat, 1) else (1, 2 ^ (-e).toNat)

/-- Read a pattern of a format (R43). With FZ, a subnormal is read as zero of the same sign (R47). -/
def Fmt.read (f : Fmt) (fz : Bool) (bits : Nat) : Num :=
  let neg := decide (f.signBit ≤ bits % 2 ^ f.width)
  let e := bits / 2 ^ f.fb % 2 ^ f.eb
  let m := bits % 2 ^ f.fb
  if e = f.expTop then
    if m = 0 then .inf neg else .nan (decide (m < 2 ^ (f.fb - 1)))
  else if e = 0 then
    if m = 0 || fz then .fin neg 0 1 else .fin neg m (2 ^ (f.bias + f.fb - 1))
  else
    let p := pow2 ((e : Int) - (f.bias + f.fb : Nat))
    .fin neg ((2 ^ f.fb + m) * p.1) p.2

/-- Floor of the base-2 logarithm of n / d, for n, d > 0. -/
def floorLog2 (n d : Nat) : Int :=
  let k : Int := (Nat.log2 n : Int) - (Nat.log2 d : Int)
  let p := pow2 k
  if p.1 * d ≤ n * p.2 then k else k - 1

/-- Does a magnitude with integer part `m`, remainder `r` over `d`, round away from zero (R46)? Modes 0 rne, 1 rz,
2 ru, 3 rd, 4 rna. -/
def roundsUp (rm : Nat) (neg : Bool) (m r d : Nat) : Bool :=
  match rm with
  | 0 => decide (d < 2 * r) || (decide (d = 2 * r) && decide (m % 2 = 1))
  | 1 => false
  | 2 => !neg && decide (0 < r)
  | 3 => neg && decide (0 < r)
  | _ => decide (d ≤ 2 * r)

/-- n / d rounded to a natural number under RM, and whether it differs. -/
def roundNat (rm : Nat) (neg : Bool) (n d : Nat) : Nat × Bool :=
  let m := n / d
  let r := n % d
  (if roundsUp rm neg m r d then m + 1 else m, decide (r ≠ 0))

/-- Round a signed magnitude n / d once to a format (R46), with gradual underflow or FZ, tininess detected before
rounding (R47). The result's bits and the events raised. -/
def Fmt.round (f : Fmt) (rm : Nat) (fz : Bool) (neg : Bool) (n d : Nat) : Nat × Ev :=
  if n = 0 then (f.signed neg 0, evNone)
  else
    let lg := floorLog2 n d
    let emin : Int := 1 - (f.bias : Int)
    let qe : Int := max lg emin - f.fb
    let p := pow2 (-qe)
    let (m, inexact) := roundNat rm neg (n * p.1) (d * p.2)
    let bits := ((qe + f.fb + f.bias - 1).toNat) * 2 ^ f.fb + m
    if f.infBits ≤ bits then
      let toMax := rm = 1 || (rm = 2 && neg) || (rm = 3 && !neg)
      (f.signed neg (if toMax then f.maxBits else f.infBits), evOvf ||| evInx)
    else if fz && decide (0 < bits) && decide (bits < 2 ^ f.fb) then
      (f.signed neg 0, evUnf ||| evInx)
    else
      (f.signed neg bits,
        if inexact then (if lg < emin then evUnf ||| evInx else evInx) else evNone)

/-- The sign of an exact zero sum of two addends that are not both zeros of one sign (R46, R47: IEEE 754). -/
def zeroSumNeg (rm : Nat) : Bool := rm == 3

/-- An exact signed fraction. -/
structure SFrac where
  num : Int
  den : Nat
  deriving DecidableEq, Repr

/-- The signed fraction of a finite value. -/
def SFrac.of (neg : Bool) (n d : Nat) : SFrac := ⟨if neg then -(n : Int) else n, d⟩
def SFrac.add (a b : SFrac) : SFrac := ⟨a.num * b.den + b.num * a.den, a.den * b.den⟩
def SFrac.mul (a b : SFrac) : SFrac := ⟨a.num * b.num, a.den * b.den⟩
def SFrac.neg (a : SFrac) : SFrac := ⟨-a.num, a.den⟩
/-- a < b, denominators positive. -/
def SFrac.lt (a b : SFrac) : Bool := decide (a.num * b.den < b.num * a.den)
def SFrac.eq (a b : SFrac) : Bool := decide (a.num * b.den = b.num * a.den)

/-- Round an exact signed fraction; `zneg` is the sign of a zero. -/
def Fmt.roundS (f : Fmt) (rm : Nat) (fz zneg : Bool) (x : SFrac) : Nat × Ev :=
  if x.num = 0 then (f.signed zneg 0, evNone)
  else f.round rm fz (decide (x.num < 0)) x.num.natAbs x.den

/-- The INV event of a signalling NaN among the operands (R44). -/
def Num.sigEv : Num → Ev
  | .nan true => evInv
  | _ => evNone
def Num.isNan : Num → Bool
  | .nan _ => true
  | _ => false
def Num.negate : Num → Num
  | .nan s => .nan s
  | .inf n => .inf (!n)
  | .fin n a b => .fin (!n) a b

/-- a + b rounded once (R46); infinities of opposite sign are invalid (R61). -/
def Fmt.add (f : Fmt) (rm : Nat) (fz : Bool) (a b : Num) : Nat × Ev :=
  let s := a.sigEv ||| b.sigEv
  match a, b with
  | .nan _, _ | _, .nan _ => (f.nanBits, s)
  | .inf x, .inf y => if x = y then (f.signed x f.infBits, s) else (f.nanBits, evInv)
  | .inf x, .fin .. => (f.signed x f.infBits, s)
  | .fin .., .inf y => (f.signed y f.infBits, s)
  | .fin x n d, .fin y n' d' =>
    let z := if n = 0 && n' = 0 && x == y then x else zeroSumNeg rm
    f.roundS rm fz z ((SFrac.of x n d).add (SFrac.of y n' d'))

/-- a × b rounded once; 0 × ∞ is invalid (R61). -/
def Fmt.mul (f : Fmt) (rm : Nat) (fz : Bool) (a b : Num) : Nat × Ev :=
  let s := a.sigEv ||| b.sigEv
  match a, b with
  | .nan _, _ | _, .nan _ => (f.nanBits, s)
  | .inf x, .inf y => (f.signed (x != y) f.infBits, s)
  | .inf x, .fin y n _ | .fin y n _, .inf x =>
    if n = 0 then (f.nanBits, evInv) else (f.signed (x != y) f.infBits, s)
  | .fin x n d, .fin y n' d' => f.round rm fz (x != y) (n * n') (d * d')

/-- a × b + c rounded once; a zero times an infinity is invalid whatever c holds (R114). -/
def Fmt.fma (f : Fmt) (rm : Nat) (fz : Bool) (a b c : Num) : Nat × Ev :=
  let s := a.sigEv ||| b.sigEv ||| c.sigEv
  let prodInvalid := match a, b with
    | .inf _, .fin _ n _ | .fin _ n _, .inf _ => decide (n = 0)
    | _, _ => false
  if prodInvalid then (f.nanBits, s ||| evInv)
  else match a, b, c with
  | .nan _, _, _ | _, .nan _, _ | _, _, .nan _ => (f.nanBits, s)
  | .fin x n d, .fin y n' d', .fin z m e =>
    let zn := if n * n' = 0 && m = 0 && (x != y) == z then z else zeroSumNeg rm
    f.roundS rm fz zn ((SFrac.of (x != y) (n * n') (d * d')).add (SFrac.of z m e))
  | .fin .., .fin .., .inf z => (f.signed z f.infBits, s)
  | .inf x, .inf y, c | .inf x, .fin y _ _, c | .fin x _ _, .inf y, c =>
    match c with
    | .inf z => if z = (x != y) then (f.signed z f.infBits, s) else (f.nanBits, evInv)
    | _ => (f.signed (x != y) f.infBits, s)

/-- The order of two values that are not NaN, −0 below +0 (R114). -/
def Num.below (a b : Num) : Bool :=
  match a, b with
  | .nan _, _ | _, .nan _ => false
  | .inf x, .inf y => x && !y
  | .inf x, .fin .. => x
  | .fin .., .inf y => !y
  | .fin x n d, .fin y n' d' =>
    if n = 0 && n' = 0 then x && !y else (SFrac.of x n d).lt (SFrac.of y n' d')

/-- The bits of a value that was read and is not NaN. -/
def Fmt.write (f : Fmt) (a : Num) : Nat :=
  match a with
  | .nan _ => f.nanBits
  | .inf n => f.signed n f.infBits
  | .fin n a b => (f.round 0 false n a b).1

/-- The lesser of two values; a NaN is passed over, and two NaNs give a NaN (R114). -/
def Num.min2 (a b : Num) : Num :=
  if a.isNan then (if b.isNan then .nan false else b) else if b.isNan then a
  else if b.below a then b else a
/-- The greater of two values, as `min2`. -/
def Num.max2 (a b : Num) : Num :=
  if a.isNan then (if b.isNan then .nan false else b) else if b.isNan then a
  else if a.below b then b else a

/-- Numeric equality, −0 = +0; false for a NaN (R131). -/
def Num.eqv (a b : Num) : Bool :=
  match a, b with
  | .nan _, _ | _, .nan _ => false
  | .inf x, .inf y => x == y
  | .fin x n d, .fin y n' d' => (SFrac.of x n d).eq (SFrac.of y n' d')
  | _, _ => false
/-- a < b by value, −0 = +0; false for a NaN (R131). -/
def Num.ltv (a b : Num) : Bool := a.below b && !a.eqv b

/-- A value rounded to a signed integer under RM, and whether it differs (R58). -/
def roundInt (rm : Nat) (neg : Bool) (n d : Nat) : Int × Bool :=
  let r := roundNat rm neg n d
  (if neg then -(r.1 : Int) else r.1, r.2)

/-- The bounds of an integer type of a width (R42). -/
def intLo (signed : Bool) (w : Nat) : Int := if signed then -(2 ^ (w - 1) : Nat) else 0
def intHi (signed : Bool) (w : Nat) : Int := if signed then (2 ^ (w - 1) - 1 : Nat) else (2 ^ w - 1 : Nat)

/-- Bring an exact integer result to a type: wrap, or saturate and count OVF (R42). The value as a 64-bit pattern,
sign- or zero-extended from the type (R40). -/
def intResult (signed : Bool) (w : Nat) (sat : Bool) (x : Int) : BitVec 64 × Ev :=
  let ext (y : Int) : BitVec 64 :=
    if signed then (BitVec.ofInt w y).signExtend 64 else (BitVec.ofInt w y).zeroExtend 64
  if sat && decide (x < intLo signed w) then (ext (intLo signed w), evOvf)
  else if sat && decide (intHi signed w < x) then (ext (intHi signed w), evOvf)
  else (ext x, evNone)

/-- Out of range gives the nearest bound and counts INV; a rounded value in range counts INX (R58). -/
def clampInt (signed : Bool) (w : Nat) (x : Int) (inexact : Bool) : BitVec 64 × Ev :=
  if x < intLo signed w then ((intResult signed w false (intLo signed w)).1, evInv)
  else if intHi signed w < x then ((intResult signed w false (intHi signed w)).1, evInv)
  else ((intResult signed w false x).1, if inexact then evInx else evNone)

/-- FP to integer (R58): NaN gives 0 and INV; an infinity gives the nearest bound and INV. -/
def numToInt (rm : Nat) (signed : Bool) (w : Nat) (a : Num) : BitVec 64 × Ev :=
  match a with
  | .nan _ => (0, evInv)
  | .inf true => ((intResult signed w false (intLo signed w)).1, evInv)
  | .inf false => ((intResult signed w false (intHi signed w)).1, evInv)
  | .fin neg n d =>
    let r := roundInt rm neg n d
    clampInt signed w r.1 r.2

/-- FP to FP (R58). -/
def Fmt.convert (f : Fmt) (rm : Nat) (fz : Bool) (a : Num) : Nat × Ev :=
  match a with
  | .nan s => (f.nanBits, if s then evInv else evNone)
  | .inf neg => (f.signed neg f.infBits, evNone)
  | .fin neg n d => f.round rm fz neg n d

/-- Integer to FP (R58). -/
def Fmt.ofInt (f : Fmt) (rm : Nat) (fz : Bool) (x : Int) : Nat × Ev :=
  f.round rm fz (decide (x < 0)) x.natAbs 1

/-- The floating-point format of a type code (R20). -/
def fmtOf (ty : Nat) : Fmt := if ty = 9 then fp16 else if ty = 10 then bf16 else fp32

/-- Width of the value of a type code in bits (R40, spec/08 R163). -/
def tyWidth (ty : Nat) : Nat :=
  match ty with
  | 0 | 4 | 11 | 12 => 8
  | 1 | 5 | 9 | 10 | 13 => 16
  | 3 | 7 => 64
  | _ => 32
/-- Is an integer type code signed? -/
def tySigned (ty : Nat) : Bool := decide (ty ≤ 3)

/-- The integer that a source of an integer type reads (R40, R42). -/
def readInt (ty : Nat) (x : BitVec 64) : Int :=
  let v := x.extractLsb' 0 (tyWidth ty)
  if tySigned ty then v.toInt else v.toNat

/-- Place a result of a type in 64 bits as R40 writes it. -/
def placeTy (ty : Nat) (x : Nat) : BitVec 64 :=
  if ty ≤ 3 then (BitVec.ofNat (tyWidth ty) x).signExtend 64 else (BitVec.ofNat (tyWidth ty) x).zeroExtend 64

end Sys2Proof.Machine
end

