-- ==== Sys2Proof/Machine/State.lean ====
section
/-! DEFINITION. The state of the whole device, as plain data, and the state after reset.
A register file, a lane file, a memory and every other indexed store is a `Tab`: keys strictly rising, no entry at the
value that an unlisted key reads as. The group on turn stands in `State.grp`; every other group, every team, launch,
context and unit stands in `State.dev`; the control registers whose fields have a legal range stand in `State.regs`. -/

namespace Sys2Proof.Machine

/-- Who stops a machine word with a fault: nothing. No row of the opcode table and no fetch ends in a fault (the spec
turns every failure into a trap, a halt or a removal); the type is empty on purpose, so this is safe. -/
inductive Fault where
  deriving DecidableEq, Repr

/-- Why a step has no meaning. -/
inductive Refusal where
  /-- Raised by an arm of `exec` whose instruction has no meaning yet; stopping is safe. -/
  | notModelled (mnemonic : String)
  deriving DecidableEq, Repr

/-- A capability: 128 bits and a tag (spec/08 R142). -/
structure Cap where
  bits : BitVec 128 := 0
  tag : Bool := false
  deriving DecidableEq, Repr

/-- A byte store with a tag per 16-byte granule and a poison mark per 32-byte sector (spec/08 R149, spec/09 R180). An
unlisted byte reads 0, an unlisted granule is untagged and an unlisted sector unpoisoned (notes/assumptions/2). -/
structure Mem where
  bytes : List Host.Cell := []
  tags : Tab Bool := []
  psn : Tab Bool := []
  deriving DecidableEq, Repr

/-- The lane registers of a group: values and poison side bits keyed 64·register + lane, mapped registers, quad tags
keyed 64·quad + lane, and the lanes whose storage holds an uncorrectable error, keyed as values (spec/04 R74, R76, R79;
spec/09 R186). -/
structure LaneFile where
  val : Tab Lane32 := []
  psn : Tab Bool := []
  mapped : Tab Bool := []
  qtag : Tab Bool := []
  bad : Tab Bool := []
  deriving DecidableEq, Repr

/-- The open chain (spec/04 R87): the index of its first word, its number of words, the latches (keyed
64·latch + lane) with their poison bits, and its held effects: the lane file as the held writes and unmappings leave it,
the division masks, the event counts of each class and the lanes that raised it. -/
structure Chain where
  first : Nat
  words : Nat
  lat : Tab Word
  latPsn : Tab Bool
  held : LaneFile
  dz : Word
  dov : Word
  counts : Tab Nat
  lanes : Tab Word
  deriving DecidableEq, Repr

/-- The scalar-side operands of a block as they stood at its `lrun`, kept up with later lane writes (spec/04 R71,
spec/08 R155). -/
structure View where
  s : Tab Word := []
  c : Tab Cap := []
  m : Tab Word := []
  x : Tab (BitVec 8) := []
  tile : Nat := 0
  deriving DecidableEq, Repr

/-- A block of the lane queue: its start index, its count and its operands (spec/04 R70, R73). -/
structure Block where
  start : Nat
  count : Nat
  view : View
  deriving DecidableEq, Repr

/-- The held lane words of a trap or an emulation frame: the position in the first block, and the blocks (spec/09 R175,
spec/02 R32). -/
structure Frame where
  pos : Nat
  blocks : List Block
  deriving DecidableEq, Repr

/-- An operation on an in-flight path (spec/05 R103). `wts` is the greatest write time of its writes on the issuing
core's die (spec/16 R386). -/
structure Flight where
  path : Path
  id : Nat
  /-- its position among the operations issued on the path, from 1 -/
  pos : Nat
  done : Bool
  wts : Nat
  deriving DecidableEq, Repr

/-- An engine trap held in its issuing group (spec/03 R66): the path, the operation's position on it, the cause and the
event class. -/
structure Held where
  path : Path
  pos : Nat
  code : Nat
  nevc : Nat
  deriving DecidableEq, Repr

/-- A scalar memory word that has issued and whose access is held (spec/05 R102): the word and its address, the `s` and `c`
registers as it read them, and the number of blocks of the lane queue whose lane memory words stand before it. -/
structure HeldWord where
  word : BitVec 32
  at_ : Word
  s : Tab Word
  c : Tab Cap
  blocks : Nat
  deriving DecidableEq, Repr

/-- The role of a group in a recording (spec/17 R283). -/
inductive Role where
  | idle | recording | replay
  deriving DecidableEq, Repr

/-- A group parked in `sy.mwait` (spec/13 R226): the object and the expected value. -/
structure Park where
  addr : Nat
  expect : Word
  deriving DecidableEq, Repr

/-- What the word of a group waits for from a port (spec/22 R361): the flight, and where the answer goes. -/
inductive RemoteWait where
  | scalar (d : Nat) (n : Nat) (signed : Bool)
  | capReg (d : Nat)
  | lanes (d : Nat) (ty : Nat) (mask : Word)
  | quads (q : Nat) (mask : Word)
  /-- an acquire: VALUE, and STATE where the object has one (spec/21 R332) -/
  | acquire (d : Nat) (sc : Scope)
  | mwait (d : Nat) (expect : Word) (sc : Scope)
  /-- the number of the descriptor that a `sy.bind` took, 4 where none was free -/
  | bind (d : Nat)
  /-- a command block of a `cp.run`, `cp.lrun` or `cl.run` (spec/13 R229) -/
  | block
  /-- the source of an engine operation, numbered by the request's `flight` -/
  | engine
  /-- bytes that the front end reads for the packet of a slot (spec/18 R303) -/
  | front (die slot : Nat)
  /-- a queue record behind a port, which the front end of a die reads again at a doorbell (spec/18 R297) -/
  | bell (die queue : Nat)
  /-- the completion record of a launch (spec/18 R310) -/
  | record (launch : Nat)
  | none
  deriving DecidableEq, Repr

/-- A request to a port in flight (spec/22 R350, R358): address, bytes asked for or written, whether it carries an
envelope's tag, its ordering lane and its Swiund port (none for the host port). -/
structure Remote where
  id : Nat
  gid : Nat
  flight : Nat
  addr : Nat
  /-- the host address that a window mapped it to when it was sent (spec/22 R350) -/
  haddr : Option Nat := none
  len : Nat
  write : Option (List Byte)
  envelope : Bool
  /-- an atomic: the operation, its operand and its compare value -/
  atomic : Option (AmoOp × Word × Word) := none
  /-- the data written is poisoned, and which of its bytes are; of a load: its word has recorded a consumption already
  (spec/09 R181) -/
  psn : Bool := false
  marks : List Bool := []
  sync : SyncPart := .no
  lane : Nat
  port : Option Nat
  /-- the protected partition that it travels for, whose stream its port must have (spec/22 R357) -/
  guard : Option Nat := none
  wait : RemoteWait
  deriving DecidableEq, Repr

/-- The last writer of a line, for the recorders (spec/17 R284): core, context, ids with role REC, ids with role PLAY,
the slot and the ordinals by id. -/
structure Writer where
  gid : Nat
  ctx : Nat
  core : Nat
  slot : Nat
  recIds : List (Nat × Nat)
  playIds : List Nat
  deriving DecidableEq, Repr

/-- A route (spec/17 R285), with the context of the entry. -/
structure Route where
  ctx : Nat
  fb : Bool
  id : Nat
  prod : Nat
  cons : Nat
  slot : Nat
  word : Nat
  nwm1 : Nat
  pd : Bool
  ord : Nat
  line : Nat
  deriving DecidableEq, Repr

/-- What the hold buffer of a dual group holds (spec/18 R317): a store with the tag of a capability store, the writer that the
recorders see, and whether it ends the sequence of a sync object that it touches (spec/13 R220); a store to the team's
scratchpad; a write of a device register; a push that follows a word's stores (spec/17 R286). -/
inductive HoldItem where
  | store (a : Nat) (bytes : List Byte) (cap : Option Bool) (poison : Bool) (writer : Option Writer) (plain : Bool)
  | scratch (o : Nat) (bytes : List Byte) (cap : Option Bool) (poison : Bool)
  | device (a : Nat) (v : Word)
  | push (r : Route)
  deriving DecidableEq, Repr

/-- Dual-run state of a group (spec/18 R317-R319): the CRC of its store stream, its held stores and the memory-writing words
since its last checkpoint. -/
structure DualState where
  crc : Word := 0
  hold : List HoldItem := []
  words : Nat := 0
  /-- at a checkpoint (R319); the checkpoint of the word on turn has matched; old values forwarded to the shadow (R320) -/
  waiting : Bool := false
  passed : Bool := false
  /-- waiting with a fatal trap, which stands only if the other copy traps alike (R321) -/
  fatal : Bool := false
  /-- the hold buffer has held since before the register step of a pass (spec/16 R278) -/
  owed : Bool := false
  inbox : List (List Word) := []
  deriving DecidableEq, Repr

/-- A group (spec/04; spec/12 R195). `live` says that a group stands in the record. -/
structure Group where
  live : Bool := false
  gid : Nat := 0
  team : Nat := 0
  ctx : Nat := 0
  die : Nat := 0
  core : Nat := 0
  slot : Nat := 0
  /-- `%group`, `%team` and W (R85, R67) -/
  index : Nat := 0
  teamNo : Nat := 0
  width : Nat := 32
  /-- the lanes that are present (R68) -/
  present : Word := 0
  vregs : Nat := 1
  prc : Bool := false
  dual : Bool := false
  shadow : Bool := false
  colour : Nat := 0
  part : Nat := 0
  /-- the scalar section [lo, hi) and the lane section: base and words (spec/05 R96, R99) -/
  codeLo : Nat := 0
  codeHi : Nat := 0
  laneBase : Nat := 0
  laneWords : Nat := 0
  privSize : Nat := 0
  /-- scalar streams: the byte address of the next scalar word; the lane queue and the index of its next word (R73) -/
  pc : Word := 0
  queue : List Block := []
  lpos : Nat := 0
  s : Tab Word := []
  c : Tab Cap := []
  lanes : LaneFile := {}
  /-- m1-m7; m0 is computed (R80) -/
  m : Tab Word := []
  x : Tab (BitVec 8) := []
  tile : Nat := 0
  chain : Option Chain := none
  /-- nesting counters and `%nestmax` (R82, R83) -/
  nest : Tab Nat := []
  nestHigh : BitVec 8 := 0
  nestLimit : BitVec 8 := 255
  /-- return stack, newest first; spill area by entry; SPILLED (spec/05 R98) -/
  stack : List Word := []
  spill : Tab Word := []
  spilled : Nat := 0
  /-- trap registers (spec/09 R172, R174) -/
  fmask : Word := 0
  skip : Bool := false
  nores : Bool := false
  path : BitVec 3 := 7
  nevc : BitVec 3 := 0
  code : BitVec 8 := 0
  tspc : Word := 0
  tlpc : Word := BitVec.allOnes 64
  trapv : Word := 0
  /-- emulation registers (spec/02 R33, R34) -/
  emuv : Word := 0
  e0 : Word := 0
  e1 : Word := 0
  e2 : Word := 0
  e3 : Word := 0
  /-- division masks (spec/03 R64) -/
  dzmask : Word := 0
  domask : Word := 0
  trapFrame : Option Frame := none
  emuFrame : Option Frame := none
  inHandler : Bool := false
  /-- in-flight operations in issue order, the next number, the greatest write time of the completed operations of each
  path that no wait has joined, held traps (R103, R386, R66) -/
  flights : List Flight := []
  nextOp : Nat := 0
  issued : Tab Nat := []
  unjoined : Tab Nat := []
  heldTraps : List Held := []
  /-- operand-collector latch: A of one type, keyed 4096·lane + register of the run, with side bits (spec/14 R245) -/
  mxLatch : Option (MxFmt × Tab Lane32 × Tab Bool) := none
  /-- record mode: role and ordinal of each id (spec/17 R283) -/
  roles : Tab Role := []
  ords : Tab Nat := []
  /-- unrouted misses counted in the current replay: id and line (R290) -/
  missed : List (Nat × Nat) := []
  /-- ids in which a restored group makes no route (R295) -/
  staleIds : Tab Bool := []
  /-- arrival at the team barrier, with sD (spec/13 R227) -/
  arrived : Option Nat := none
  park : Option Park := none
  waitRemote : Bool := false
  /-- scalar memory words whose accesses are held, oldest first; a trap of the scalar word at the pc that waits for the lane
  words queued before it (R102, R101) -/
  heldWords : List HeldWord := []
  dueTrap : Option Nat := none
  /-- command blocks that have come back through a port for the word that asked for them: address, bytes, poison (R229) -/
  blocks : List (Nat × List Byte × Bool) := []
  /-- a `cp.lrun` that waits at issue: its number on `cp`, and the blocks, with their tags, that it has read and that have not
  entered the engine (R229) -/
  entering : Option (Nat × List (List Byte × List Bool)) := none
  /-- issue: age, priority, starvation counts, raised streams, `sys.yield` mark (spec/12 R196-R198) -/
  age : Nat := 0
  prio : Nat := 0
  starveScalar : Nat := 0
  starveLane : Nat := 0
  yielded : Bool := false
  /-- spilled lane registers (the core says where each stands); the number of the group's last lane issue on its
  core and of the last read of each register (spec/12 R200) -/
  spilledRegs : Tab Nat := []
  lastLane : Nat := 0
  lastRead : Tab Nat := []
  /-- scalar, capability and mask registers whose storage holds an uncorrectable error: k, 64 + k, 128 + k
  (spec/09 R186) -/
  badScalar : Tab Bool := []
  /-- the lanes of latches whose storage does, keyed 64·latch + lane -/
  badLatch : Tab Bool := []
  ended : Bool := false
  dualSt : DualState := {}
  /-- private memory: lane L's byte o at 2^20·L + o (spec/08 R151) -/
  priv : Mem := {}
  deriving DecidableEq, Repr

/-- A kernel descriptor as read (spec/18 R308). -/
structure Kernel where
  entry : Nat := 0
  codeLo : Nat := 0
  codeHi : Nat := 0
  laneBase : Nat := 0
  laneWords : Nat := 0
  vregs : Nat := 1
  width : Nat := 32
  team : Nat := 1
  scratchKiB : Nat := 0
  idem : Bool := false
  dual : Bool := false
  prc : Bool := false
  coop : Bool := false
  node : Bool := false
  trapv : Word := 0
  emuv : Word := 0
  priv : Nat := 0
  bag : Cap := {}
  rsize : Nat := 0
  timer : Nat := 0
  deriving DecidableEq, Repr

/-- Where a team stands (spec/12 R202-R213). -/
inductive TeamStatus where
  | waiting | resident | saved | relaunch | ended | lost | removed
  deriving DecidableEq, Repr

/-- A reservation record of the matrix engine (spec/14 R239). -/
structure MxRec where
  fmt : MxFmt
  slot : Nat
  pm1 : Nat
  two : Bool
  off : Nat
  deriving DecidableEq, Repr

/-- A team (spec/12 R201-R215; spec/14 R237, R241). -/
structure Team where
  launch : Nat := 0
  ctx : Nat := 0
  /-- `%team` -/
  num : Nat := 0
  kernel : Kernel := {}
  status : TeamStatus := .waiting
  die : Nat := 0
  core : Nat := 0
  /-- groups that have not ended, by gid; groups in all; the slots that the team holds on its core and on its pair's -/
  members : List Nat := []
  slots : List (Nat × Nat) := []
  /-- the slots among them whose groups have ended (R195) -/
  freed : List (Nat × Nat) := []
  scratch : Mem := {}
  scratchSize : Nat := 0
  /-- uncorrectable words of the scratchpad, by offset / 8, and the bytes of a word with an error that have been rewritten since
  (R214) -/
  scratchBad : Tab Bool := []
  scratchOver : Tab (BitVec 8) := []
  /-- words with a single-bit error; sectors that a save found uncorrectable and no access has met since (R207, R214) -/
  scratchSoft : Tab Bool := []
  scratchMet : Tab Bool := []
  elapsed : Nat := 0
  /-- the cycle since which the team is resident -/
  since : Nat := 0
  elig : Bool := false
  /-- a drain in progress (R206) -/
  draining : Bool := false
  preempt : Bool := false
  abandoned : Bool := false
  /-- tail requests: `%group` and the CODE capability, with the group's s and c registers at its end (R211, R213) -/
  tails : List (Nat × Cap) := []
  endRegs : List (Nat × Tab Word × Tab Cap) := []
  scratchLosses : Nat := 0
  mismatches : Nat := 0
  preempted : Bool := false
  recs : Tab MxRec := []
  /-- saved units and slots with their bytes and poison marks, while the team is saved (spec/14 R257) -/
  savedUnits : List Nat := []
  savedSlots : List Nat := []
  savedObuf : Mem := {}
  savedAcc : Mem := {}
  savedAccBad : Tab Bool := []
  /-- whether a hand-over started the team, and the registers that its groups then had, by `%group` (R209, R213) -/
  handed : Bool := false
  startRegs : List (Nat × Tab Word × Tab Cap) := []
  /-- dual run: the other copy of the pair, and whether this is the shadow (spec/18 R317) -/
  partner : Option Nat := none
  shadow : Bool := false
  /-- the sum of the CRCs and the held stores of the groups that have ended (R318, R319) -/
  endCrc : Word := 0
  endHold : List HoldItem := []
  /-- those stores have been held since before the register step of a pass (spec/16 R278) -/
  owed : Bool := false
  /-- node launch: first record and record count (spec/18 R313) -/
  first : Nat := 0
  records : Nat := 0
  deriving DecidableEq, Repr

/-- A launch (spec/18 R308-R313). -/
structure Launch where
  ctx : Nat := 0
  die : Nat := 0
  queue : Nat := 0
  index : Nat := 0
  evt : Bool := false
  kernel : Kernel := {}
  /-- s1-s15 and c1-c15 as the argument block gave them (R309) -/
  argS : Tab Word := []
  argC : Tab Cap := []
  teams : Nat := 0
  entered : Nat := 0
  finished : Nat := 0
  lost : Nat := 0
  tailsRefused : Nat := 0
  statusLost : Bool := false
  statusTail : Bool := false
  statusDual : Bool := false
  compl : Cap := {}
  start : Nat := 0
  /-- run times of the last completed teams (R205) -/
  runs : List Nat := []
  /-- node launches: records launched, records in groups that ended, since the start (R313) -/
  nodeFrom : Nat := 0
  nodeL : Nat := 0
  nodeEnded : List (Nat × Nat) := []
  /-- its completion record is on its way through a port -/
  closing : Bool := false
  /-- places that a `coop` launch has reserved for its teams: die and core (R311) -/
  reserved : List (Nat × Nat) := []
  done : Bool := false
  deriving DecidableEq, Repr

/-- One recording of a context on a die (spec/17 R282). -/
structure Recording where
  recorded : Bool := false
  joined : Nat := 0
  sent : Nat := 0
  used : Nat := 0
  deps : Nat := 0
  full : Bool := false
  pre : Bool := false
  deriving DecidableEq, Repr

/-- A context: its record (spec/18 R301), its shared registers (spec/03 R63-R65, spec/09 R180, spec/17 R294). -/
structure Ctx where
  live : Bool := false
  colour : Nat := 0
  part : Nat := 0
  pri : Nat := 0
  endact0 : Nat := 0
  ageUs : Nat := 1
  drain : Nat := 0
  fault : Cap := {}
  savesz : Nat := 0
  /-- `%nev0`-`%nev6`, whether ACT has fired in the window -/
  nev : Tab Word := []
  fired : Tab Bool := []
  nevflag : BitVec 7 := 0
  /-- `%cki` -/
  endact : BitVec 2 := 0
  pcount : BitVec 16 := 0
  wcode : BitVec 4 := 0
  warn : Bool := false
  psrc : BitVec 3 := 7
  psn : Bool := false
  /-- `%recdep` -/
  depIds : BitVec 16 := 0
  depCount : BitVec 32 := 0
  /-- recordings, keyed 16·die + id -/
  recs : Tab Recording := []
  /-- next sequence number of each collective key (spec/22 R365) -/
  clSeq : List ((Nat × Nat × Nat × Nat) × Nat) := []
  /-- the peers that the context has used (spec/22 R370) -/
  peers : List Nat := []
  deriving DecidableEq, Repr

/-- The 128 bytes of a line, its 8 tags and its 4 poison marks. -/
structure LineData where
  bytes : List Byte
  tags : BitVec 8
  psn : BitVec 4
  deriving DecidableEq, Repr

/-- A copy of a line in an L1 (spec/16 R262, spec/17 R286). An exclusive copy holds the newest bytes, which the model
keeps in memory; a shared one holds the bytes as they stood. A pushed copy holds the words [word, word + words). -/
structure Copy where
  excl : Bool
  wts : Nat
  rts : Nat
  data : LineData
  /-- die time when it was placed or placed anew (R263), and the age at which it is dropped where COHCTL has changed since
  (R264) -/
  placed : Nat := 0
  life : Option Nat := none
  pushed : Bool := false
  word : Nat := 0
  words : Nat := 32
  used : Bool := false
  /-- the recording that a pushed copy belongs to, and its producer core -/
  ctx : Nat := 0
  rid : Nat := 0
  prod : Nat := 0
  deriving DecidableEq, Repr

/-- A core (spec/16 R262, spec/17 R285, spec/12 R203, R214). -/
structure Core where
  pts : Nat := 0
  copies : Tab Copy := []
  pushes : Tab Copy := []
  routes : Tab Route := []
  /-- corrected errors of the scratchpad, and its rows out of use, each named by the team and the 8-byte word of its scratchpad
  that failed (spec/12 R214, R215) -/
  corrected : Nat := 0
  rowsOut : List (Nat × Nat) := []
  /-- the register backing cache, and the registers that it has written to L1, with the lines that each takes: group and
  register, oldest first; the number of the core's last lane issue (R200) -/
  backing : List (Nat × Nat) := []
  l1Regs : List (Nat × Nat × Nat) := []
  laneSeq : Nat := 0
  deriving DecidableEq, Repr

/-- How what HBM4 or Caldera stores of a line departs from its codes (spec/16 R272, spec/21 R335): the sectors with one wrong
bit, those with more, whether the MAC no longer fits, and the sectors with more than one wrong bit in Caldera, where it caches
the line. -/
structure LineError where
  single : BitVec 4 := 0
  double : BitVec 4 := 0
  mac : Bool := false
  cached : BitVec 4 := 0
  deriving DecidableEq, Repr

/-- A push in flight (spec/17 R286): the pushing group, the consumer core's key, the line and the copy. -/
structure Push where
  id : Nat
  gid : Nat
  core : Nat
  line : Nat
  copy : Copy
  deriving DecidableEq, Repr

/-- The home state of a line (spec/16 R262), its last writer, and its off-die copies: die, core, exclusive, first word,
words (spec/21 R331). -/
structure Line where
  mwts : Nat := 0
  mrts : Nat := 0
  owner : Option Nat := none
  writer : Option Writer := none
  spans : List (Nat × Nat × Bool × Nat × Nat) := []
  /-- the parked groups that hold a watch (spec/16 R268) -/
  watchers : List Nat := []
  deriving DecidableEq, Repr

/-- A copy-engine operation, its block as captured (spec/13 R228-R231). -/
structure CopyOp where
  id : Nat
  gid : Nat
  flight : Nat
  die : Nat
  core : Nat
  src : Cap
  dst : Cap
  len : Nat
  ctrl : Word
  signal : Cap
  checked : Bool
  moved : Bool
  wts : Nat
  /-- a front-end COPY packet: queue and index (spec/18 R303) -/
  packet : Option (Nat × Nat)
  colour : Nat
  part : Nat
  prc : Bool
  ctx : Nat
  /-- a source behind a port has been asked for, and what came back; a signal has left through a port -/
  asked : Bool := false
  got : Option (List Byte × List Bool) := none
  signalled : Bool := false
  /-- of a copy into the operand buffer under way: the bytes that it has written, and those that it has read and not written, each
  with its poison (spec/15 R261) -/
  written : Nat := 0
  rest : Option (List Byte × List Bool) := none
  deriving DecidableEq, Repr

/-- What an entry of the request table does (spec/14 R243, R249, R250). -/
inductive MxKind where
  | pass (fmt : MxFmt) (step : Nat) (a : Tab Lane32) (apsn : Tab Bool)
  | read (dst c n : Nat) (run : Word)
  | write (c n : Nat) (run : Word) (vals : Tab Lane32)
  | resolve (ty dst c n : Nat) (run : Word)
  | zero
  deriving DecidableEq, Repr

/-- An operand load in progress (spec/14 R238). -/
structure LoadOp where
  id : Nat
  gid : Nat
  flight : Nat
  die : Nat
  core : Nat
  src : Cap
  off : Nat
  len : Nat
  colour : Nat
  part : Nat
  prc : Bool
  ctx : Nat
  team : Nat
  /-- a source behind a port has been asked for, and what came back -/
  asked : Bool := false
  got : Option (List Byte × List Bool) := none
  deriving DecidableEq, Repr

/-- An entry of the request table (spec/14 R251). -/
structure MxEntry where
  id : Nat
  gid : Nat
  flight : Nat
  team : Nat
  prio : Nat
  prc : Bool
  ctx : Nat
  width : Nat
  rc : MxRec
  kind : MxKind
  running : Bool
  passed : Nat
  loads : List Nat
  deriving DecidableEq, Repr

/-- A cluster (spec/14 R236). Owners are team keys. Poison marks of the accumulator store stand per 32-byte sector of
`acc`; `accBad` marks elements with an uncorrectable error. -/
structure Cluster where
  obuf : Mem := {}
  acc : Mem := {}
  accBad : Tab Bool := []
  unitOwner : Tab (Option Nat) := []
  slotOwner : Tab (Option Nat) := []
  table : List MxEntry := []
  loads : List LoadOp := []
  copies : List CopyOp := []
  deriving DecidableEq, Repr

/-- A collective operation (spec/22 R363-R366). -/
structure ClOp where
  id : Nat
  gid : Nat
  flight : Nat
  ctx : Nat
  core : Nat
  src : Cap
  dst : Cap
  len : Nat
  ctrl : Word
  signal : Cap
  seq : Nat
  colour : Nat
  part : Nat
  matched : Bool
  wts : Nat
  prc : Bool := false
  /-- a source behind a port has been asked for, and what came back; a signal has left through a port -/
  asked : Bool := false
  got : Option (List Byte × List Bool) := none
  signalled : Bool := false
  deriving DecidableEq, Repr

/-- A queue slot of a die (spec/18 R299). `st` as the table's ST. -/
structure QSlot where
  st : BitVec 3 := 0
  ctx : Nat
  qaddr : Nat
  /-- the packet in processing, with the tags of its granules -/
  pkt : Option (List Byte × List Bool) := none
  /-- the sorting core's pass takes it (R307) -/
  passMask : Bool := false
  /-- the line that an unsatisfied WAIT watches, and whether it has been written or a re-read is due (R303, R307) -/
  watchLine : Option Nat := none
  watch : Bool := false
  /-- the host window whose page the packet misses (R306) -/
  missing : Option Nat := none
  /-- bytes read through a port for the packet: address, bytes, poison -/
  got : List (Nat × List Byte × Bool) := []
  /-- processing has ended, and RDIDX advances at the end of the pass: index, EVT, whether the packet has completed (R307) -/
  ended : Option (Nat × Bool × Bool) := none
  deriving DecidableEq, Repr

/-- Scheduling state of a registered queue (spec/18 R299, R314, R315). -/
structure QueueSt where
  ctx : Nat
  /-- STATE of QCTL as the front end holds it; the die and slot of a mapped queue; when it became idle -/
  state : Nat := 0
  die : Nat := 0
  mapped : Option Nat := none
  pending : Bool := false
  idleAt : Nat := 0
  ready : Bool := false
  eligible : Bool := true
  boost : Nat := 0
  overrun : Bool := false
  /-- eligible only until the packet in processing ends (R305) -/
  lapsed : Bool := false
  /-- sixteenths of a core-µs that USED does not show (R314) -/
  frac : Nat := 0
  /-- the record as the front end has last seen it, where it stands behind a port (R297) -/
  seen : List Byte := List.replicate 64 0
  /-- processed packets that have not completed: index, and whether EVT asks for an event -/
  open_ : List (Nat × Bool) := []
  deriving DecidableEq, Repr

/-- A die: the parts of its register block without a legal range, front end and engine (spec/16 R264, R267; spec/18
R299-R307; spec/21 R332; spec/22 R364). -/
structure Die where
  epoch : Nat := 0
  turning : Bool := false
  rmax : Nat := 0
  /-- the greatest write time of the front end's own writes to lines of the die (spec/18 R303) -/
  feTime : Nat := 0
  time : Nat := 0
  dberr : BitVec 32 := 0
  slots : Tab QSlot := []
  pending : List Nat := []
  coll : List ClOp := []
  /-- a CARVE change in progress: the four new fields (R271) -/
  carveNew : Option (List Nat) := none
  /-- corrected errors of Caldera and HBM4 (spec/16 R272) -/
  corrected : Nat := 0
  /-- arithmetic clock in steps of 50 MHz below full, power gate, reset (spec/21 R346, spec/22 R354) -/
  throttle : Nat := 0
  gated : Bool := false
  faulted : Bool := false
  deriving DecidableEq, Repr

/-- A partition and its sweep engine (spec/21 R336; spec/16 R276-R279). Regions are [base, top) pairs. -/
structure Part where
  quarters : BitVec 16 := 0
  prot : Bool := false
  /-- the register step of the running pass is done (spec/16 R278) -/
  regsDone : Bool := false
  /-- which MAC key: a fresh number for each creation -/
  key : Nat := 0
  nextSet : List (Nat × Nat) := []
  running : Option (List (Nat × Nat)) := none
  passNo : BitVec 32 := 0
  lastDone : BitVec 32 := 0
  /-- SPDM session of the host port bound to the partition (spec/22 R348) -/
  ide : Bool := false
  deriving DecidableEq, Repr

/-- An event record held by the postmaster core: source and type, context, payload (spec/21 R343). -/
structure Event where
  src : Word
  ctx : Word
  lo : Word
  hi : Word
  deriving DecidableEq, Repr

/-- A postmark of the access log, with its signature if one is kept (spec/21 R344). -/
structure Postmark where
  body : List Byte
  chain : List Byte
  sig : Option (List Byte)
  read : Bool
  deriving DecidableEq, Repr

/-- A host line that a Caldera slice caches (spec/22 R352): the bytes that it holds, by offset, its poison marks, whether it is
modified, the slice's die, and the L1 spans: die, core, exclusive, first word, words. -/
structure HostLine where
  bytes : Tab Byte := []
  psn : BitVec 4 := 0
  dirty : Bool := false
  die : Nat := 0
  spans : List (Nat × Nat × Bool × Nat × Nat) := []
  deriving DecidableEq, Repr

/-- What the module tells the host of a line (spec/22 R354): the answer to a snoop, or a write-back. -/
inductive HostMsg where
  | data (bytes : Tab Byte) (psn : BitVec 4) | noData | poisoned | writeBack (bytes : Tab Byte) (psn : BitVec 4)
  deriving DecidableEq, Repr

/-- A Swiund port (spec/22 R357). -/
structure Port where
  up : Bool := false
  ide : Bool := false
  retry : BitVec 16 := 0
  /-- its keyed streams: the partition, and the peer that the session is with -/
  keyed : List (Nat × Option Nat) := []
  deriving DecidableEq, Repr

/-- The package: postmaster registers, tables and ports (spec/21 R330, R337, R341-R345; spec/22 R350-R370). -/
structure Pkg where
  stage : BitVec 3 := 0
  fail : BitVec 4 := 0
  pmBusy : Bool := false
  pmStatus : BitVec 8 := 0
  pmOp : BitVec 8 := 0
  pmArg : Word := 0
  /-- OP was written with FW_SET while an import was in progress (spec/21 R347) -/
  fwAsked : Bool := false
  evBase : Word := 0
  evWr : BitVec 32 := 0
  evRd : BitVec 32 := 0
  thr : BitVec 32 := 0
  /-- FWT: word 0 and word 1 of each entry -/
  fw : Tab (Word × Word) := []
  /-- EGR: LIMIT, COUNT and the bytes refused in the window -/
  limit : Tab (BitVec 44) := []
  count : Tab (BitVec 44) := []
  refused : Tab Nat := []
  /-- HATW: word 0 and word 1 -/
  hat : Tab (Word × Word) := []
  /-- words 0 written while accesses through the window are in flight: window, word, those accesses (spec/22 R350) -/
  hatPending : List (Nat × Word × List Nat) := []
  /-- HATMISS sent and not yet served, by window (spec/22 R351) -/
  hatMiss : Tab Bool := []
  hatExpired : Tab Bool := []
  ports : Tab Port := []
  domValid : Bool := false
  domIndex : BitVec 8 := 0
  fwState : BitVec 2 := 0
  fwStatus : BitVec 8 := 0
  /-- virtual functions that have not acknowledged; bound functions and their partitions -/
  fwPend : List Nat := []
  vfs : Tab Nat := []
  fwVersion : Nat := 0
  events : List Event := []
  log : List Postmark := []
  logSeq : Nat := 0
  /-- an import in progress: blob address, destination, length, succeeded (R340) -/
  importing : Option (Nat × Nat × Nat × Bool) := none
  linkCxl : Bool := false
  linkUp : Bool := false
  /-- snoop filter: host lines cached on the module, by host address / 128; lost lines; what was sent to the host of them
  (spec/22 R354) -/
  snoop : Tab HostLine := []
  lostLines : Tab Bool := []
  hostOut : List (Nat × HostMsg) := []
  /-- posted writes of the host that have not performed, in order of arrival (spec/22 R356) -/
  posted : List HostRequest := []
  /-- device lines that the host may hold (R353) and back-invalidations in flight -/
  hostHeld : Tab Bool := []
  backInv : Tab Bool := []
  /-- the lines that a step asks back from the host before it may act (the model's own; notes/assumptions/5) -/
  asking : List Nat := []
  /-- of a lost peer, the ports that no new session has been opened on (R370) -/
  lostPeers : Tab (List Nat) := []
  /-- requests of peers that wait at their home, in order of arrival (spec/22 R358) -/
  peersWait : List PeerRequest := []
  deriving DecidableEq, Repr

/-- Control registers of a die whose fields have a legal range (spec/16 R264, R270). -/
structure DieRegs where
  tick : BitVec 4 := 8
  lease : BitVec 8 := 8
  carve0 : BitVec 4 := 0
  carve1 : BitVec 4 := 0
  carve2 : BitVec 4 := 0
  carve3 : BitVec 4 := 0
  deriving DecidableEq, Repr

/-- The control registers with a legal range (spec/16 R264, R270; spec/21 R330, R341). -/
structure CtlRegs where
  die0 : DieRegs := {}
  die1 : DieRegs := {}
  die2 : DieRegs := {}
  die3 : DieRegs := {}
  cap : BitVec 12 := 2200
  log2n : BitVec 4 := 6
  /-- WIN of each limiter; an unlisted one holds its reset value 1,000 -/
  win : Tab (BitVec 20) := []
  deriving DecidableEq, Repr

/-- A store of a die's front end that has not performed: its address may not be reached yet (spec/16 R271), or it stands in release
order behind one that is on its way (spec/18 R297); the launch whose completion record it is (spec/18 R310). -/
structure FrontWrite where
  die : Nat
  a : Nat
  bytes : List Byte
  release : Bool
  closes : Option Nat := none
  deriving DecidableEq, Repr

/-- Everything of the device but the group on turn and the control registers. Keys: groups, teams, launches and
contexts by number; cores 192·die + core; clusters 48·die + cluster; lines by address / 128; queues by address / 64. -/
structure Dev where
  groups : Tab Group := []
  teams : Tab Team := []
  launches : Tab Launch := []
  ctxs : Tab Ctx := []
  cores : Tab Core := []
  clusters : Tab Cluster := []
  dies : Tab Die := []
  lines : Tab Line := []
  queues : Tab QueueSt := []
  parts : Tab Part := []
  pkg : Pkg := {}
  mem : Mem := {}
  /-- the lines of memory whose stored bits hold an error (spec/21 R334, R335) -/
  errors : Tab LineError := []
  /-- register writes of matched checkpoints and of sync words, which the next step performs (spec/18 R317, spec/21 R330) -/
  regWrites : List (Nat × Word) := []
  /-- stores of the front ends that have not performed, in order -/
  frontOwed : List FrontWrite := []
  /-- halt records sent: group, CODE, `%tspc`, `%tlpc`, `%fmask` (spec/09 R186) -/
  halts : List (Nat × Nat × Word × Word × Word) := []
  remotes : List Remote := []
  /-- the sync objects that a sync word has reached, by address / 64 (spec/13 R216, R220; notes/assumptions/18) -/
  syncs : Tab Bool := []
  pushes : List Push := []
  /-- next number of a group, team, launch, engine operation -/
  nextId : Nat := 1
  deriving DecidableEq, Repr

/-- A storage error that arises at some moment (spec/09 R186, spec/12 R214, spec/14 R248, spec/16 R272, spec/21 R335;
notes/assumptions/9): in a scalar-side register of a group (numbered as in `Group.badScalar`), a lane's register or latch, an
8-byte word of a scratchpad (one wrong bit, or more), a word of an accumulator store, or a line of memory. -/
inductive Upset where
  | scalarSide (gid k : Nat)
  | laneReg (gid r l : Nat)
  | latch (gid b l : Nat)
  | scratch (team word : Nat) (double : Bool)
  | accumulator (cluster word : Nat)
  | line (l : Nat) (e : LineError)
  deriving DecidableEq, Repr

/-- What an entry of the agenda lets move: an event of the opcode table, a stream of a group, or an error that arises (the
model's own; notes/assumptions/5). -/
inductive Turn where
  | event (e : Instr)
  | scalar (gid : Nat)
  | lane (gid : Nat)
  | upset (u : Upset)
  deriving DecidableEq, Repr

/-- The state of the machine. `agenda`, `stalled`, `burst` and `fresh` are the model's own (notes/assumptions/5, 6). -/
structure State where
  grp : Group := {}
  dev : Dev := {}
  regs : CtlRegs := {}
  agenda : List Turn := []
  /-- the word on turn could not issue: the next step lets another agent move -/
  stalled : Bool := false
  /-- the words that the group on turn has issued since something else moved -/
  burst : Nat := 0
  /-- the number of the next free value -/
  fresh : Nat := 0
  deriving DecidableEq, Repr

/-- The machine right after reset: BOOTST.STAGE 0, no context, team or group, memory with nothing listed, every
control register at its reset value (spec/21 R330, R345; the chapters' reset columns). -/
def State.reset : State := {}

end Sys2Proof.Machine
end

