-- ==== Sys2Proof/Machine/Memory.lean ====
section
/-! DEFINITION. Byte stores: reading and writing bytes, granule tags and sector poison marks (spec/00 R5, spec/08 R149,
spec/09 R180). -/

namespace Sys2Proof.Machine

/-- One byte of a store; an unlisted byte reads 0 (notes/assumptions/2). -/
def Mem.byte (m : Mem) (a : Nat) : Byte := Tab.getD m.bytes a 0

/-- Is granule `g` (address / 16) tagged? -/
def Mem.tag (m : Mem) (g : Nat) : Bool := m.tags.getD g false

/-- Is sector `k` (address / 32) poisoned? -/
def Mem.poisoned (m : Mem) (k : Nat) : Bool := m.psn.getD k false

/-- The canonical form: keys strictly rising and nothing listed at what an unlisted key reads as. -/
def Mem.wf (m : Mem) : Bool := Tab.canonical m.bytes 0 && m.tags.canonical false && m.psn.canonical false

/-- Write one byte. -/
def Mem.setByte (m : Mem) (a : Nat) (b : Byte) : Mem := { m with bytes := Tab.set m.bytes a b 0 }
/-- Set or clear one granule tag. -/
def Mem.setTag (m : Mem) (g : Nat) (t : Bool) : Mem := { m with tags := m.tags.set g t false }
/-- Set or clear one sector mark. -/
def Mem.setPsn (m : Mem) (k : Nat) (p : Bool) : Mem := { m with psn := m.psn.set k p false }

/-- Bytes [a, a + n). -/
def Mem.read (m : Mem) (a n : Nat) : List Byte := (List.range n).map fun i => m.byte (a + i)

/-- Write a list of bytes from address a on. -/
def Mem.writeBytes (m : Mem) : Nat → List Byte → Mem
  | _, [] => m
  | a, b :: bs => (m.setByte a b).writeBytes (a + 1) bs

/-- Granules or sectors of size k that [a, a + n) touches. -/
def blocksOf (k a n : Nat) : List Nat := if n = 0 then [] else (List.range ((a + n - 1) / k + 1 - a / k)).map (a / k + ·)

/-- Clear the tags of the granules that [a, a + n) touches (R149). -/
def Mem.clearTags (m : Mem) (a n : Nat) : Mem := (blocksOf 16 a n).foldl (fun m g => m.setTag g false) m

/-- The sector marks after a write of [a, a + n): poisoned data marks every sector it touches; clean data clears a mark
only where it covers the whole sector (R180). -/
def Mem.markSectors (m : Mem) (a n : Nat) (poison : Bool) : Mem :=
  (blocksOf 32 a n).foldl (fun m k =>
    if poison then m.setPsn k true
    else if a ≤ 32 * k && 32 * k + 32 ≤ a + n then m.setPsn k false else m) m

/-- A data write: the bytes, cleared tags and sector marks. -/
def Mem.store (m : Mem) (a : Nat) (bs : List Byte) (poison : Bool) : Mem :=
  ((m.writeBytes a bs).clearTags a bs.length).markSectors a bs.length poison

/-- A capability write of a whole granule (R149). -/
def Mem.storeCap (m : Mem) (a : Nat) (bs : List Byte) (tag poison : Bool) : Mem :=
  (m.store a bs poison).setTag (a / 16) tag

/-- Is any sector that [a, a + n) touches poisoned? -/
def Mem.anyPoison (m : Mem) (a n : Nat) : Bool := (blocksOf 32 a n).any m.poisoned

/-- Zero [lo, hi), with tags and marks; lo and hi are multiples of 32 (R281). -/
def Mem.zero (m : Mem) (lo hi : Nat) : Mem :=
  { bytes := m.bytes.filter fun e => decide (e.1 < lo) || decide (hi ≤ e.1)
    tags := m.tags.filter fun e => decide (16 * e.1 < lo) || decide (hi ≤ 16 * e.1)
    psn := m.psn.filter fun e => decide (32 * e.1 < lo) || decide (hi ≤ 32 * e.1) }

/-- Keep only what lies below `hi`, a multiple of 32 (a scratchpad cut to its successor's size, spec/12 R213). -/
def Mem.cut (m : Mem) (hi : Nat) : Mem :=
  { bytes := m.bytes.filter fun e => decide (e.1 < hi)
    tags := m.tags.filter fun e => decide (16 * e.1 < hi)
    psn := m.psn.filter fun e => decide (32 * e.1 < hi) }

/-- The little-endian number of a list of bytes (R5). -/
def leNat : List Byte → Nat
  | [] => 0
  | b :: bs => b.toNat + 256 * leNat bs

/-- The n low bytes of a number, lowest first. -/
def toLe : Nat → Nat → List Byte
  | 0, _ => []
  | n + 1, x => BitVec.ofNat 8 x :: toLe n (x / 256)

/-- The number of n bytes at a. -/
def Mem.num (m : Mem) (a n : Nat) : Nat := leNat (m.read a n)

/-- The 8 bytes at a, as a word. -/
def Mem.word (m : Mem) (a : Nat) : Word := BitVec.ofNat 64 (m.num a 8)

/-- The line of an address as a copy holds it. -/
def Mem.line (m : Mem) (l : Nat) : LineData :=
  { bytes := m.read (128 * l) 128
    tags := BitVec.ofNat 8 ((List.range 8).foldl (fun acc i => if m.tag (8 * l + i) then acc + 2 ^ i else acc) 0)
    psn := BitVec.ofNat 4 ((List.range 4).foldl (fun acc i => if m.poisoned (4 * l + i) then acc + 2 ^ i else acc) 0) }

/-- What an access reads: bytes, the tag of its granule, whether it touched a poisoned sector. -/
structure Fetched where
  bytes : List Byte
  tag : Bool
  poison : Bool
  deriving DecidableEq, Repr

/-- Read [a, a + n) of a store. -/
def Mem.fetch (m : Mem) (a n : Nat) : Fetched := ⟨m.read a n, m.tag (a / 16), m.anyPoison a n⟩

/-- Read [a, a + n) of a line copy, a within the line. -/
def LineData.fetch (l : LineData) (a n : Nat) : Fetched :=
  ⟨(l.bytes.drop (a % 128)).take n, bit l.tags (a % 128 / 16),
    (blocksOf 32 (a % 128) n).any fun k => bit l.psn k⟩

/-- Write granule by granule where tags are copied (spec/13 R231): `tags` gives each granule's tag in order. -/
def Mem.setTags (m : Mem) (g : Nat) : List Bool → Mem
  | [] => m
  | t :: ts => (m.setTag g t).setTags (g + 1) ts

end Sys2Proof.Machine
end

