-- ==== Sys2Proof/Machine/Caps.lean ====
section
/-! DEFINITION. Capabilities: fields, bounds, derivation and the checks of every access (spec/08 R142-R160; spec/21
R336-R338; spec/22 R351, R359). -/

namespace Sys2Proof.Machine

/-- Cause codes (spec/09 R173; spec/13 R230; spec/14 R256; spec/16 R276; spec/22 R351, R361-R366). -/
def cILLEGAL : Nat := 1
def cEMUNEST : Nat := 2
def cBADPC : Nat := 3
def cALIGN : Nat := 4
def cVREGRANGE : Nat := 5
def cNESTOVF : Nat := 6
def cRSEMPTY : Nat := 7
def cRSFULL : Nat := 8
def cNUMEVT : Nat := 9
def cPOISON : Nat := 10
def cUNCORR : Nat := 11
def cCAPTAG : Nat := 16
def cCAPFORM : Nat := 17
def cCAPSEAL : Nat := 18
def cCAPKIND : Nat := 19
def cCAPCOLOUR : Nat := 20
def cCAPPERM : Nat := 21
def cCAPBOUNDS : Nat := 22
def cCAPREPRES : Nat := 23
def cFIREWALL : Nat := 24
def cMXCONV : Nat := 32
def cSYFULL : Nat := 33
def cSYRANGE : Nat := 34
def cCPSRC : Nat := 35
def cCPDST : Nat := 36
def cCPSIG : Nat := 37
def cCPBLOCK : Nat := 38
def cMXWIDTH : Nat := 40
def cMXRES : Nat := 41
def cMXFMT : Nat := 42
def cMXRANGE : Nat := 43
def cMXOVLP : Nat := 44
def cMXSLOT : Nat := 45
def cMXFULL : Nat := 46
def cMXSRC : Nat := 47
def cSWFULL : Nat := 48
def cSWPART : Nat := 49
def cCLBLOCK : Nat := 50
def cCLSRC : Nat := 51
def cCLDST : Nat := 52
def cCLSIG : Nat := 53
def cCLTIMEOUT : Nat := 54
def cCLPEER : Nat := 55
def cFXPEER : Nat := 56
def cFXADDR : Nat := 57
def cHATMISS : Nat := 58

/-- The order of causes among the lanes of one word (spec/08 R154): ALIGN and POISON stand after CAPREPRES. -/
def causeRank (c : Nat) : Nat :=
  if c = cALIGN then 24 else if c = cFIREWALL then 25 else if c = cPOISON then 26 else c

/-- Fields of a capability (R142). -/
def Cap.field (c : Cap) (lo w : Nat) : Nat := (c.bits.extractLsb' lo w).toNat
def Cap.cursor (c : Cap) : Nat := c.field 0 50
def Cap.skind (c : Cap) : Nat := c.field 50 4
def Cap.dn (c : Cap) : Nat := c.field 56 20
def Cap.up (c : Cap) : Nat := c.field 76 20
def Cap.e (c : Cap) : Nat := c.field 96 6
def Cap.perms (c : Cap) : BitVec 12 := c.bits.extractLsb' 102 12
def Cap.kind (c : Cap) : Nat := c.field 114 4
def Cap.colour (c : Cap) : Nat := c.field 118 10

/-- Replace the field of width w at bit lo. -/
def Cap.withField (c : Cap) (lo w x : Nat) : Cap :=
  { c with bits := (c.bits &&& ~~~(BitVec.ofNat 128 ((2 ^ w - 1) * 2 ^ lo))) ||| BitVec.ofNat 128 (x % 2 ^ w * 2 ^ lo) }

/-- Kinds (R143). -/
def kDATA : Nat := 0
def kCODE : Nat := 1
def kSCRATCH : Nat := 2
def kSYNC : Nat := 3
def kCMD : Nat := 4
def kENVELOPE : Nat := 5
def kQUEUE : Nat := 6

/-- Permission masks (R144). -/
def pLD : BitVec 12 := 1
def pST : BitVec 12 := 2
def pLDC : BitVec 12 := 4
def pSTC : BitVec 12 := 8
def pX : BitVec 12 := 16
def pATOM : BitVec 12 := 32
def pSEAL : BitVec 12 := 64
def pOPEN : BitVec 12 := 128
def pMXO : BitVec 12 := 256
def pXPORT : BitVec 12 := 512
def pGIVE : BitVec 12 := 1024
def pSYS : BitVec 12 := 2048

/-- Does the capability hold every permission of a mask? -/
def Cap.has (c : Cap) (p : BitVec 12) : Bool := c.perms &&& p == p

/-- Bounds (R145), exact integers. -/
def Cap.granule (c : Cap) : Nat := c.cursor / 2 ^ c.e
def Cap.base (c : Cap) : Int := ((c.granule : Int) - c.dn) * (2 ^ c.e : Nat)
def Cap.top (c : Cap) : Int := ((c.granule + c.up) * 2 ^ c.e : Nat)
def Cap.limit (c : Cap) : Int := min (c.top + (2 ^ c.e : Nat)) (2 ^ 50 : Nat)

/-- A malformed capability (R146). -/
def Cap.malformed (c : Cap) : Bool :=
  decide (31 < c.e) || c.field 54 2 != 0 || (c.skind != 0 && c.kind != kENVELOPE) || decide (7 ≤ c.kind)
  || decide (2 ^ 20 - 1 < c.dn + c.up) || decide (c.granule < c.dn) || decide ((2 ^ 50 : Nat) < c.top)

/-- Is a cursor value representable (R147)? -/
def Cap.representable (c : Cap) (x : Int) : Bool := decide (c.base ≤ x) && decide (x < c.limit)

/-- Move the cursor to x < 2^50 (R147): DN and UP follow modulo 2^20; the tag stays where `ok` and x is representable. -/
def Cap.moveTo (c : Cap) (x : Nat) (ok : Bool) : Cap :=
  let delta : Int := (x / 2 ^ c.e : Nat) - (c.granule : Int)
  let dn := (((c.dn : Int) + delta) % (2 ^ 20 : Nat)).toNat
  let up := (((c.up : Int) - delta) % (2 ^ 20 : Nat)).toNat
  let c' := ((c.withField 0 50 x).withField 56 20 dn).withField 76 20 up
  { c' with tag := c.tag && ok && c.representable x }

/-- The smallest e of a list that meets a condition. -/
def firstE (p : Nat → Bool) : Option Nat := (List.range 32).find? p

/-- Exact bounds [b, t) (R148): E, or none. -/
def exactE (b t : Nat) : Option Nat :=
  firstE fun e => b % 2 ^ e = 0 && t % 2 ^ e = 0 && decide (b < t) && decide (t - b ≤ (2 ^ 20 - 1) * 2 ^ e)
    && decide (t ≤ 2 ^ 50)

/-- x / 2^e rounded up. -/
def ceilDiv (x g : Nat) : Nat := (x + g - 1) / g

/-- Outward bounds (R148): E. -/
def outwardE (b t : Nat) : Option Nat := firstE fun e => decide (ceilDiv t (2 ^ e) - b / 2 ^ e ≤ 2 ^ 20 - 1)

/-- Set E, DN = 0, UP and the cursor b (R148). -/
def Cap.setBounds (c : Cap) (b e n : Nat) : Cap :=
  (((c.withField 0 50 b).withField 56 20 0).withField 76 20 n).withField 96 6 e

/-- `c.setb` and `c.setb.out` (R157): the result or the cause. -/
def Cap.setb (c : Cap) (len : Nat) (outward : Bool) : Except Nat Cap :=
  if !c.tag then .error cCAPTAG
  else if c.malformed then .error cCAPFORM
  else if c.kind = kENVELOPE then .error cCAPSEAL
  else if len = 0 then .error cCAPREPRES
  else
    let b := c.cursor
    let t := b + len
    if (b : Int) < c.base || c.top < (t : Int) then .error cCAPBOUNDS
    else if outward then
      match outwardE b t with
      | none => .error cCAPREPRES
      | some e =>
        let lo := b / 2 ^ e * 2 ^ e
        let hi := ceilDiv t (2 ^ e) * 2 ^ e
        if (lo : Int) < c.base || c.top < (hi : Int) then .error cCAPBOUNDS
        else .ok (c.setBounds b e ((hi - lo) / 2 ^ e))
    else
      match exactE b t with
      | none => .error cCAPREPRES
      | some e => .ok (c.setBounds b e ((t - b) / 2 ^ e))

/-- Form and seal of a tagged source, before a derivation's own checks (R156). -/
def Cap.derivable (c : Cap) : Option Nat :=
  if !c.tag then none
  else if c.malformed then some cCAPFORM
  else if c.kind = kENVELOPE then some cCAPSEAL
  else none

/-- `c.setk` (R158). CMD blocks and queue records are 64 bytes at 64-byte-aligned addresses (R228, R297). -/
def Cap.setk (c : Cap) (k : Nat) : Except Nat Cap :=
  if !c.tag then .error cCAPTAG
  else if c.malformed then .error cCAPFORM
  else if c.kind = kENVELOPE then .error cCAPSEAL
  else if c.kind = k then .ok c
  else if c.kind = kDATA && (k = kSYNC || k = kCMD || k = kQUEUE) then
    if c.base % 64 = 0 && c.top - c.base = 64 then .ok (c.withField 114 4 k) else .error cCAPBOUNDS
  else .error cCAPKIND

/-- `c.seal` (R160). -/
def Cap.seal (c : Cap) (ctxColour col : Nat) : Except Nat Cap :=
  if !c.tag then .error cCAPTAG
  else if c.malformed then .error cCAPFORM
  else if c.kind = kENVELOPE then .error cCAPSEAL
  else if c.colour ≠ ctxColour then .error cCAPCOLOUR
  else if !c.has pSEAL then .error cCAPPERM
  else if col ≠ c.colour && !c.has pGIVE then .error cCAPPERM
  else .ok (((c.withField 50 4 c.kind).withField 114 4 kENVELOPE).withField 118 10 col)

/-- `c.open` (R160). -/
def Cap.openWith (env op : Cap) (ctxColour : Nat) : Except Nat Cap :=
  if !env.tag || !op.tag then .error cCAPTAG
  else if env.malformed || op.malformed then .error cCAPFORM
  else if op.kind = kENVELOPE then .error cCAPSEAL
  else if env.kind ≠ kENVELOPE then .error cCAPKIND
  else if env.colour ≠ ctxColour || op.colour ≠ ctxColour then .error cCAPCOLOUR
  else if !op.has pOPEN then .error cCAPPERM
  else .ok ((env.withField 114 4 env.skind).withField 50 4 0)

/-- E of `c.rlen` and `c.ralign` (R161). -/
def rlenE (a : Nat) : Nat := (firstE fun e => decide (ceilDiv a (2 ^ e) ≤ 2 ^ 20 - 1)).getD 31

/-- The capability in memory: 16 bytes, little-endian (R142). -/
def Cap.bytes (c : Cap) : List Byte := toLe 16 c.bits.toNat
def Cap.ofBytes (bs : List Byte) (tag : Bool) : Cap := ⟨BitVec.ofNat 128 (leNat bs), tag⟩

/-- The party that makes an access (R151-R153, R338): its colour and partition, its scratchpad size, the private size of
its lanes with the lane (none for a scalar word or an engine), whether it may reach device registers (a scalar word),
whether it is the operand loader or the import engine. -/
structure Party where
  colour : Nat
  part : Nat
  scratch : Nat
  priv : Nat
  lane : Bool
  scalar : Bool
  loader : Bool := false
  host : Bool := false
  deriving DecidableEq, Repr

/-- Where an address lies. -/
inductive Space where
  | hbm (die : Nat) | carve (die q off : Nat) | reg | host (window : Nat) | peer (j off : Nat) | none
  deriving DecidableEq, Repr

/-- The space of a physical address (spec/16 R269, R270; spec/21 R330; spec/22 R350, R359). -/
def spaceOf (a : Nat) : Space :=
  if a < Config.hbmTop then .hbm (a / Config.hbmPerDie)
  else if a < Config.carveBase then .none
  else if a < Config.carveBase + 16 * Config.carveWindow then
    let w := (a - Config.carveBase) / Config.carveWindow
    .carve (w / 4) (w % 4) ((a - Config.carveBase) % Config.carveWindow)
  else if a < Config.regBase then .none
  else if a < Config.hostBase then .reg
  else if a < Config.peerBase then .host ((a - Config.hostBase) / 2 ^ 40)
  else if a < Config.addrTop then .peer (a / 2 ^ 40 % 256) (a % 2 ^ 40)
  else .none

/-- The home die of a local memory address (R269). -/
def homeDie (a : Nat) : Option Nat :=
  match spaceOf a with
  | .hbm d => some d
  | .carve d _ _ => some d
  | _ => none

/-- The quarter that owns an address, as 4·die + quarter (spec/21 R336). -/
def quarterOf (a : Nat) : Option Nat :=
  match spaceOf a with
  | .hbm d => some (4 * d + a % Config.hbmPerDie / (36 * Config.gib))
  | .carve d q _ => some (4 * d + q)
  | _ => none

/-- The registers of a die. -/
def CtlRegs.die (r : CtlRegs) (d : Nat) : DieRegs :=
  match d with
  | 0 => r.die0 | 1 => r.die1 | 2 => r.die2 | _ => r.die3

/-- CARVEq. -/
def DieRegs.carve (r : DieRegs) (q : Nat) : Nat :=
  (match q with
    | 0 => r.carve0 | 1 => r.carve1 | 2 => r.carve2 | _ => r.carve3).toNat

/-- Fields of a firewall entry (spec/21 R337). -/
structure FwEntry where
  live : Bool
  vlt : Bool
  ro : Bool
  shr : Bool
  xpt : Bool
  part : Nat
  colour : Nat
  len : Nat
  base : Nat
  deriving DecidableEq, Repr

def fwEntry (w : Word × Word) : FwEntry :=
  { live := bit w.1 63, vlt := bit w.1 62, ro := bit w.1 61, shr := bit w.1 60, xpt := bit w.1 59
    part := (w.1.extractLsb' 56 3).toNat, colour := (w.1.extractLsb' 46 10).toNat
    len := (w.1.extractLsb' 0 32).toNat * 2 ^ 21, base := (w.2.extractLsb' 21 29).toNat * 2 ^ 21 }

/-- Does a live entry contain an address? -/
def FwEntry.covers (e : FwEntry) (a : Nat) : Bool := e.live && decide (e.base ≤ a) && decide (a < e.base + e.len)

/-- The lowest-numbered live entry that contains an address (R338). -/
def Pkg.fwFind (p : Pkg) (a : Nat) : Option FwEntry :=
  (p.fw.map fun e => fwEntry e.2).find? fun e => e.covers a

/-- Check 9 of R153: pass, FIREWALL, a wait (a carve-out change or an import in progress, spec/16 R271, spec/21 R340),
or a host window whose page is not resident (R351). -/
inductive FwRes where
  | pass | refuse | busy | miss (window : Nat)
  deriving DecidableEq, Repr

/-- Local memory under the firewall table (R338). -/
def fwLocal (R : CtlRegs) (d : Dev) (p : Party) (write : Bool) (a : Nat) : FwRes :=
  let exists_ := match spaceOf a with
    | .hbm _ => true
    | .carve dd q off => decide (off < (R.die dd).carve q * 2 ^ 22)
    | _ => false
  if fwBusy R d a || (write && homeTurns d a) then .busy
  else if !exists_ then .refuse
  else match d.pkg.fwFind a, quarterOf a with
  | some e, some q =>
    let part := d.parts.getD p.part {}
    if e.part = p.part && bit part.quarters q && (e.colour = p.colour || e.shr) && !(e.ro && write)
        && (!e.vlt || (p.loader && !write)) then .pass else .refuse
  | _, _ => .refuse
where
  /-- Does the home of an address turn its epoch: a grant of ownership waits for it (R347)? -/
  homeTurns (d : Dev) (a : Nat) : Bool := (homeDie a).any fun h => (d.dies.getD h {}).turning
  /-- Is the address in a window whose CARVE field is changing (spec/16 R271), or in the destination of an import
  (R340)? -/
  fwBusy (R : CtlRegs) (d : Dev) (a : Nat) : Bool :=
    (match spaceOf a, d.pkg.importing with
      | _, some (_, dst, len, _) => decide (dst ≤ a) && decide (a < dst + len)
      | _, none => false)
    || (match spaceOf a with
      | .carve dd q _ => match (d.dies.getD dd {}).carveNew with
        | some l => decide (l.getD q 0 ≠ (R.die dd).carve q)
        | none => false
      | _ => false)

/-- Is an address in one of the five register blocks (R330)? -/
def regBlock (a : Nat) : Bool :=
  decide (Config.regBase ≤ a && a < Config.regBase + 4 * 2 ^ 24)
  || decide (Config.pkgBase ≤ a && a < Config.pkgBase + 2 ^ 24)

/-- The windows of the host range (spec/22 R350). -/
structure HatEntry where
  live : Bool
  res : Bool
  part : Nat
  colour : Nat
  len : Nat
  deriving DecidableEq, Repr
def hatEntry (w : Word × Word) : HatEntry :=
  { live := bit w.1 63, res := bit w.1 62, part := (w.1.extractLsb' 59 3).toNat
    colour := (w.1.extractLsb' 49 10).toNat, len := (w.1.extractLsb' 0 32).toNat * 2 ^ 21 }

/-- May a port carry requests to a peer: it is up, and a peer that was lost has a new session on it (R359, R370)? -/
def portTo (d : Dev) (j p : Nat) : Bool := (d.pkg.ports.getD p {}).up && !(d.pkg.lostPeers.getD j []).contains p
/-- Is every port of a peer down, or the peer lost (R359, R370)? -/
def peerGone (d : Dev) (j : Nat) : Bool := (List.range 18).all fun p => !portTo d j p

/-- The ordering lane of an address (R358). -/
def laneOf (a : Nat) : Nat := (a / 2 ^ 7 % 16).xor ((a / 2 ^ 11 % 16).xor ((a / 2 ^ 15 % 16).xor (a / 2 ^ 19 % 16)))
/-- The port of a lane to a peer: the first that is up, counted upward from (j + l) mod 18 (R358). -/
def lanePort (d : Dev) (j l : Nat) : Option Nat :=
  ((List.range 18).map fun i => (j + l + i) % 18).find? (portTo d j)

/-- May a party's request take its lane's port: a protected partition's only on a stream that a session with the peer has keyed
to it (R357)? -/
def mayTravel (d : Dev) (p : Party) (j a : Nat) : Bool :=
  !(d.parts.getD p.part {}).prot || (lanePort d j (laneOf a)).any fun q => (d.pkg.ports.getD q {}).keyed.contains (p.part, some j)

/-- Does an address name the requester's own index (R359)? -/
def ownIndex (d : Dev) (j : Nat) : Bool := d.pkg.domValid && d.pkg.domIndex.toNat = j

/-- Check 9 at an address (R338, R330, R351, R359). A host window whose word 0 has been written waits for the accesses in flight
through it, and the later accesses with it (spec/22 R350, R371). -/
def firewall (R : CtlRegs) (d : Dev) (p : Party) (write : Bool) (a n : Nat) : FwRes :=
  match spaceOf a with
  | .hbm _ | .carve _ _ _ => fwLocal R d p write a
  | .reg => if p.scalar && n = 8 && a % 8 = 0 && regBlock a then .pass else .refuse
  | .host w =>
    let e := hatEntry (d.pkg.hat.getD w (0, 0))
    if d.pkg.hatPending.any fun x => x.1 == w then .busy else
    let part := d.parts.getD p.part {}
    if e.live && decide ((a - Config.hostBase) % 2 ^ 40 < e.len) && e.part = p.part && e.colour = p.colour
        && (!part.prot || part.ide) then (if e.res then .pass else .miss w) else .refuse
  | .peer j off =>
    if a / 2 ^ 48 % 2 = 1 || Config.peers ≤ j || Config.hbmTop ≤ off then .refuse
    else if ownIndex d j then fwLocal R d p write off
    else if peerGone d j || !mayTravel d p j a then .refuse else .pass
  | .none => .refuse

/-- The addresses where what the firewall says of memory may change: the bounds of its entries, of the quarters and of the
carve-outs. -/
def fwEdges (R : CtlRegs) (d : Dev) : List Nat :=
  (d.pkg.fw.flatMap fun e => [(fwEntry e.2).base, (fwEntry e.2).base + (fwEntry e.2).len])
  ++ (List.range 17).map (· * (36 * Config.gib))
  ++ (List.range 16).flatMap (fun k => [Config.carveBase + k * Config.carveWindow,
      Config.carveBase + k * Config.carveWindow + (R.die (k / 4)).carve (k % 4) * 2 ^ 22])
  ++ [Config.carveBase + 16 * Config.carveWindow]

/-- The same for the host windows and for the peers. -/
def portEdges (R : CtlRegs) (d : Dev) : List Nat :=
  (List.range 256).flatMap (fun w => [Config.hostBase + w * 2 ^ 40,
      Config.hostBase + w * 2 ^ 40 + (hatEntry (d.pkg.hat.getD w (0, 0))).len])
  ++ (List.range 512).flatMap (fun k => [Config.peerBase + k * 2 ^ 40, Config.peerBase + k * 2 ^ 40 + Config.hbmTop])
  ++ (fwEdges R d).map (Config.peerBase + d.pkg.domIndex.toNat * 2 ^ 40 + ·)
  ++ [Config.regBase, Config.addrTop]

/-- Check 9 over a region [lo, hi) (R153 as `sy.bind` asks it): what holds of an address holds up to the next edge. -/
def regionFirewall (R : CtlRegs) (d : Dev) (p : Party) (write : Bool) (lo hi : Nat) : FwRes :=
  let at_ (a : Nat) : FwRes := firewall R d p write a (hi - lo)
  let l := (lo :: (fwEdges R d ++ portEdges R d).filter fun e => decide (lo < e) && decide (e < hi)).map at_
  if hi ≤ lo then .pass
  else if l.contains .refuse then .refuse
  else if l.contains .busy then .busy
  else (l.find? fun x => x != .pass).getD .pass

/-- The physical address that an access performs at: an address of the device's own index is local (R359). -/
def localAddr (d : Dev) (a : Nat) : Nat :=
  match spaceOf a with
  | .peer j off => if ownIndex d j then off else a
  | _ => a

/-- Does an address leave through a port (R361)? -/
def leaves (d : Dev) (a : Nat) : Bool :=
  match spaceOf a with
  | .host _ => true
  | .peer j _ => !ownIndex d j
  | _ => false

/-- What an access asks of a capability: admitted kinds, permissions (LD may be replaced by MXO for the operand loader),
whether it writes, and whether alignment is judged (R153 order 8). -/
structure Need where
  kinds : List Nat
  perms : BitVec 12
  orMxo : Bool := false
  write : Bool
  aligned : Bool := true
  deriving DecidableEq, Repr

/-- Checks 1 to 8 of R153 for an access of n bytes at address a. Whether a SCRATCH access is private is told by bit 49 of its
address, also for CAPKIND: the model's choice (notes/assumptions/56). -/
def capCheck8 (c : Cap) (p : Party) (need : Need) (colourOk : Bool) (a n : Nat) : Option Nat :=
  if !c.tag then some cCAPTAG
  else if c.malformed then some cCAPFORM
  else if c.kind = kENVELOPE then some cCAPSEAL
  else if !need.kinds.contains c.kind || (c.kind = kSCRATCH && a / 2 ^ 49 % 2 = 1 && !p.lane) then some cCAPKIND
  else if !colourOk then some cCAPCOLOUR
  else if !(c.has need.perms || (need.orMxo && c.has pMXO))
      || (c.kind ≠ kSCRATCH && decide (Config.hostBase ≤ a && a < Config.addrTop) && !c.has pXPORT)
      || (c.kind ≠ kSCRATCH && decide (Config.regBase ≤ a && a < Config.hostBase) && !c.has pSYS) then some cCAPPERM
  else if (a : Int) < c.base || c.top < ((a + n : Nat) : Int)
      || (c.kind = kSCRATCH && (if a / 2 ^ 49 % 2 = 1 then decide (p.priv < a % 2 ^ 49 + n)
            else decide (p.scratch < a % 2 ^ 49 + n))) then some cCAPBOUNDS
  else if need.aligned && n ≠ 0 && a % n ≠ 0 then some cALIGN
  else none

/-- The outcome of all nine checks. -/
inductive Checked where
  | ok | fail (cause : Nat) | busy | miss (window : Nat)
  deriving DecidableEq, Repr

/-- R153. -/
def capCheck (R : CtlRegs) (d : Dev) (c : Cap) (p : Party) (need : Need) (a n : Nat) : Checked :=
  match capCheck8 c p need (c.colour = p.colour) a n with
  | some cause => .fail cause
  | none =>
    if c.kind = kSCRATCH then .ok
    else match firewall R d p need.write a n with
    | .pass => .ok
    | .refuse => .fail cFIREWALL
    | .busy => .busy
    | .miss w => .miss w

def needLoad : Need := { kinds := [0, 2], perms := 1, write := false }
def needStore : Need := { kinds := [0, 2], perms := 2, write := true }
def needCapStore : Need := { kinds := [0, 2], perms := 10, write := true }
def needAtomic : Need := { kinds := [0], perms := 35, write := true }

/-- Does a capability intersect a region (spec/16 R277)? SCRATCH capabilities never do. -/
def Cap.meets (c : Cap) (r : Nat × Nat) : Bool :=
  c.kind != kSCRATCH && decide (c.base < r.2) && decide ((r.1 : Int) < c.top) && decide (r.1 < r.2) && decide (c.base < c.top)

/-- The regions that the filter of a partition holds (R277). -/
def Part.filter (p : Part) : List (Nat × Nat) := p.nextSet ++ (p.running.getD [])

/-- The sweep filter on a capability that moves through memory (R277). -/
def sweepFilter (d : Dev) (part : Nat) (c : Cap) : Cap :=
  if c.tag && ((d.parts.getD part {}).filter).any c.meets then { c with tag := false } else c

end Sys2Proof.Machine
end

