-- ==== Sys2Proof/Machine/Coherence.lean ====
section
/-! DEFINITION. Logical time, off-die spans, and record mode's part in a load and a store (spec/16 R262-R268, R386; spec/21
R331, R332; spec/17 R283-R290). `Dev.mem` always holds the newest bytes of a line: an exclusive copy's bytes are the
memory's, and only shared copies hold older ones. Nothing here sets a value that a load could not return under R263. -/

namespace Sys2Proof.Machine

/-- The key of a core: 192·die + core. -/
def coreKey (die core : Nat) : Nat := Config.coresPerDie * die + core
def Dev.core (d : Dev) (k : Nat) : Core := d.cores.getD k {}
def Dev.setCore (d : Dev) (k : Nat) (c : Core) : Dev := { d with cores := d.cores.set k c {} }
def Dev.line (d : Dev) (l : Nat) : Line := d.lines.getD l {}
def Dev.setLine (d : Dev) (l : Nat) (x : Line) : Dev := { d with lines := d.lines.set l x {} }
def Dev.die (d : Dev) (k : Nat) : Die := d.dies.getD k {}
def Dev.setDie (d : Dev) (k : Nat) (x : Die) : Dev := { d with dies := d.dies.set k x {} }
def Dev.ctx (d : Dev) (k : Nat) : Ctx := d.ctxs.getD k {}
def Dev.setCtx (d : Dev) (k : Nat) (x : Ctx) : Dev := { d with ctxs := d.ctxs.set k x {} }
def Dev.setPart (d : Dev) (k : Nat) (x : Part) : Dev := { d with parts := d.parts.set k x {} }
def Dev.queue? (d : Dev) (k : Nat) : Option QueueSt := d.queues.find? k
def Dev.setQueue (d : Dev) (k : Nat) (x : QueueSt) : Dev := { d with queues := d.queues.insert k x }
def clusterKey (die core : Nat) : Nat := Config.clustersPerDie * die + core / 4
def Dev.cluster (d : Dev) (k : Nat) : Cluster := d.clusters.getD k {}
def Dev.setCluster (d : Dev) (k : Nat) (x : Cluster) : Dev := { d with clusters := d.clusters.set k x {} }
def Dev.team (d : Dev) (k : Nat) : Team := d.teams.getD k {}
def Dev.setTeam (d : Dev) (k : Nat) (x : Team) : Dev := { d with teams := d.teams.set k x {} }
def Dev.launch (d : Dev) (k : Nat) : Launch := d.launches.getD k {}
def Dev.setLaunch (d : Dev) (k : Nat) (x : Launch) : Dev := { d with launches := d.launches.set k x {} }
def Ctx.recording (c : Ctx) (die id : Nat) : Recording := c.recs.getD (16 * die + id) {}
def Ctx.setRecording (c : Ctx) (die id : Nat) (r : Recording) : Ctx := { c with recs := c.recs.set (16 * die + id) r {} }

/-- Raise a core's logical time. -/
def raisePts (d : Dev) (k t : Nat) : Dev :=
  let c := d.core k
  d.setCore k { c with pts := max c.pts t }

/-- Raise RMAX of a die (R332). -/
def raiseRmax (d : Dev) (die t : Nat) : Dev :=
  let x := d.die die
  d.setDie die { x with rmax := max x.rmax t }

/-- LEASE of a die. -/
def lease (R : CtlRegs) (die : Nat) : Nat := (R.die die).lease.toNat

/-- Die time (spec/05 R106). -/
def Dev.time (d : Dev) : Nat := (d.die 0).time

/-- Write a postmark (spec/21 R344): SEQ, time, type with partition and context, detail, and the chain; every 256th is
signed. -/
def postmark (d : Dev) (ty part ctx : Nat) (detail : Nat) : Dev :=
  let prev : List Byte := match d.pkg.log.getLast? with
    | some p => p.chain
    | none => List.replicate 32 0
  let body := toLe 8 d.pkg.logSeq ++ toLe 8 d.time ++ toLe 8 (ty + 256 * (part % 8) + 4096 * (ctx % 4096)) ++ toLe 8 detail
  let chain := Config.sha256 (prev ++ body)
  let sig := if (d.pkg.logSeq + 1) % 256 = 0 then some (Config.rsaSign (Config.sha256 (chain ++ toLe 8 d.pkg.logSeq))) else none
  { d with pkg := { d.pkg with log := d.pkg.log ++ [⟨body, chain, sig, false⟩], logSeq := d.pkg.logSeq + 1 } }

/-! ### Side-band words and errors of memory -/

/-- The partition that owns a line. -/
def ownerPart (d : Dev) (l : Nat) : Nat := ((d.pkg.fwFind (128 * l)).map fun e => e.part).getD 0

/-- The MAC of an HBM4 line (spec/21 R334): GMAC of its data, TAG and PSN under its owner's key, the nonce its number. -/
def lineMac (d : Dev) (l : Nat) : BitVec 48 :=
  let x := d.mem.line l
  Config.gmac (d.parts.getD (ownerPart d l) {}).key l (x.bytes ++ [x.tags.zeroExtend 8, x.psn.zeroExtend 8])

/-- The SEC-DED code of a sector of a line. -/
def lineEcc (d : Dev) (l i : Nat) : BitVec 16 :=
  let x := d.mem.line l
  Config.secded ((x.bytes.drop (32 * i)).take 32) x.tags x.psn

/-- The side-band word that a write of an HBM4 line computes (spec/21 R334, R335). What a line stores departs from it only
where `Dev.errors` says so. -/
def sideBand (d : Dev) (l : Nat) : BitVec 128 :=
  let x := d.mem.line l
  (0 : BitVec 4) ++ x.psn ++ x.tags ++ lineMac d l ++ lineEcc d l 3 ++ lineEcc d l 2 ++ lineEcc d l 1 ++ lineEcc d l 0

/-- Poison the sectors of a line that a mask names. -/
def Mem.poisonLine (m : Mem) (l : Nat) (mask : BitVec 4) : Mem :=
  (List.range 4).foldl (fun m i => if bit mask i then m.setPsn (4 * l + i) true else m) m

/-- A line is read from HBM4 or Caldera (spec/21 R335, spec/16 R272): single-bit errors are corrected and counted; an
uncorrectable one poisons all four sectors of an HBM4 line, and its own sector where it stands in Caldera, of a carve-out or of
a cached line; a MAC that does not fit poisons the line and writes a postmark. -/
def meetErrors (d : Dev) (l : Nat) : Dev :=
  match d.errors.find? l, homeDie (128 * l) with
  | some e, some home =>
    let x := d.die home
    let d := d.setDie home { x with corrected := x.corrected + ((List.range 4).filter fun i => bit e.single i).length }
    let d := { d with errors := d.errors.erase l }
    if 128 * l < Config.hbmTop then
      if e.double ≠ 0 then { d with mem := d.mem.poisonLine l 15 }
      else if e.mac then postmark { d with mem := d.mem.poisonLine l 15 } 3 (ownerPart d l) 0 (128 * l)
      else { d with mem := d.mem.poisonLine l e.cached }
    else { d with mem := d.mem.poisonLine l (e.double ||| e.cached) }
  | _, _ => d

/-! ### Copies -/

/-- The home recalls an exclusive copy (R263): the former owner keeps a shared copy with the times it held, and the home
takes them. -/
def recallCopy (d : Dev) (die l : Nat) : Dev :=
  let x := d.line l
  match x.owner with
  | none => d
  | some o =>
    let k := coreKey die o
    let c := d.core k
    match c.copies.find? l with
    | none => d.setLine l { x with owner := none }
    | some e =>
      let d := d.setCore k { c with copies := c.copies.insert l { e with excl := false, placed := d.time, life := none, data := d.mem.line l } }
      d.setLine l { x with owner := none, mwts := e.wts, mrts := max x.mrts e.rts }

/-- A change of LEASE or TICK leaves the copies placed before it their age limit (R264). -/
def freezeLives (R : CtlRegs) (d : Dev) (die : Nat) : Dev :=
  let r := R.die die
  let keep (t : Tab Copy) : Tab Copy := t.map fun e =>
    (e.1, if e.2.excl || e.2.life.isSome then e.2 else { e.2 with life := some ((r.lease.toNat + 1) * 2 ^ r.tick.toNat) })
  { d with cores := d.cores.map fun (e : Nat × Core) =>
      (e.1, if e.1 / Config.coresPerDie = die then { e.2 with copies := keep e.2.copies, pushes := keep e.2.pushes } else e.2) }

/-- The 4-byte words of a line that [a, a + n) touches: first and count. -/
def wordsOf (a n : Nat) : Nat × Nat := (a % 128 / 4, (a % 128 + n - 1) / 4 - a % 128 / 4 + 1)
def overlap (w n w' n' : Nat) : Bool := decide (w < w' + n') && decide (w' < w + n)

/-- Drop every off-die span that shares a word with [w, w + n), but for those of one core (R331). -/
def Line.dropSpans (x : Line) (w n : Nat) (keepDie keepCore : Nat) : Line :=
  { x with spans := x.spans.filter fun s =>
      !overlap w n s.2.2.2.1 s.2.2.2.2 || (s.1 == keepDie && s.2.1 == keepCore) }

/-- A watched line has been written: the WAIT packets that watch it join the next round (spec/18 R303, R307). -/
def touchWatches (d : Dev) (l : Nat) : Dev :=
  { d with dies := d.dies.map fun e =>
      (e.1, { e.2 with slots := e.2.slots.map fun q =>
        (q.1, if q.2.watchLine = some l then { q.2 with watch := true } else q.2) }) }

/-- A line that the host may hold is asked back before a device write: the step that would write it waits
(spec/22 R353). -/
def askBack (d : Dev) (l : Nat) : Dev :=
  if d.pkg.hostHeld.getD l false then { d with pkg := { d.pkg with asking := d.pkg.asking ++ [l] } } else d

/-- A die that sleeps is woken by a probe (spec/22 R355). -/
def wake (d : Dev) (die : Nat) : Dev :=
  if (d.die die).gated then d.setDie die { (d.die die) with gated := false } else d

/-- Departure of a recording (spec/17 R290, R294): DEPS, COUNT and the id's bit of `%recdep`. -/
def departed (d : Dev) (ctx die id : Nat) : Dev :=
  let x := d.ctx ctx
  let r := x.recording die id
  let x := x.setRecording die id { r with deps := min (2 ^ 32 - 1) (r.deps + 1) }
  d.setCtx ctx { x with
    depIds := setBit x.depIds id true
    depCount := if x.depCount = BitVec.allOnes 32 then x.depCount else x.depCount + 1 }

/-- The routes of a die with their holders: core key, entry, route. -/
def routesOf (d : Dev) (die : Nat) : List (Nat × Nat × Route) :=
  (d.cores.filter fun e => e.1 / Config.coresPerDie = die).flatMap fun e => e.2.routes.map fun r => (e.1, r.1, r.2)

/-- A route departs, judged while RECORDED = 1 (spec/17 R290). -/
def departRoute (d : Dev) (die k i : Nat) (r : Route) : Dev :=
  if r.fb || !((d.ctx r.ctx).recording die r.id).recorded then d
  else
    let c := d.core k
    departed (d.setCore k { c with routes := c.routes.insert i { r with fb := true } }) r.ctx die r.id

/-- The scratchpad in use on a core (spec/12 R203). -/
def scratchHere (d : Dev) (die core : Nat) : Nat :=
  ((d.teams.filter fun e => e.2.status == .resident && e.2.die == die
    && (if e.2.kernel.team ≤ 16 then e.2.core == core else e.2.core / 2 == core / 2)).map fun e =>
      if e.2.kernel.team ≤ 16 then e.2.scratchSize else e.2.scratchSize / 2).sum
/-- The lines that a core's L1 holds: 320 KiB less the scratchpad in use (R203). -/
def l1Lines (d : Dev) (die core : Nat) : Nat := (320 * 1024 - scratchHere d die core) / 128

/-- A core gives up a copy of a line: an exclusive one is written back, and a pushed one that nothing has read makes the route that
pushed it depart (spec/17 R290) where `replaced` says that it leaves by replacement. -/
def evictLine (d : Dev) (die core l : Nat) (replaced : Bool) : Dev :=
  let k := coreKey die core
  let c := d.core k
  let d := match c.copies.find? l with
    | some e => if e.excl then recallCopy d die l else d
    | none => d
  let c := d.core k
  let d := d.setCore k { c with copies := c.copies.erase l, pushes := c.pushes.erase l }
  match c.pushes.find? l with
  | some p => if p.used || !replaced then d else fallBack d die (coreKey die p.prod) p l core
  | none => d
where
  /-- The route in its producer's table that pushed the copy falls back and departs (R290). -/
  fallBack (d : Dev) (die k : Nat) (p : Copy) (l cons : Nat) : Dev :=
    match List.find? (fun (e : Nat × Route) => e.2.ctx == p.ctx && e.2.id == p.rid && e.2.line == l && e.2.cons == cons) (d.core k).routes with
    | some e => departRoute d die k e.1 e.2
    | none => d

/-- The lines of a core's L1 that are taken: copies, and registers that the backing cache has written to it (spec/12 R200). -/
def Core.l1Used (c : Core) : Nat := c.copies.length + c.pushes.length + (c.l1Regs.map fun e => e.2.2).sum

/-- The L1 evicts something: its oldest spilled register, which goes to Caldera (R200), else a line. Which it evicts shows in time
only (notes/assumptions/51). -/
def evictOne (d : Dev) (die core : Nat) : Dev :=
  let c := d.core (coreKey die core)
  match c.l1Regs, (c.copies.map fun e => e.1) ++ c.pushes.map fun e => e.1 with
  | _ :: rest, _ => d.setCore (coreKey die core) { c with l1Regs := rest }
  | [], x :: _ => evictLine d die core x true
  | [], [] => d

/-- The L1 makes room for one more line. -/
def makeRoom (d : Dev) (die core l : Nat) : Dev :=
  let c := d.core (coreKey die core)
  if (c.copies.find? l).isSome || (c.pushes.find? l).isSome || c.l1Used < l1Lines d die core then d else evictOne d die core

/-- The L1 evicts until n lines more find room; at most `fuel` entries. -/
def shrinkL1 (die core n : Nat) : Nat → Dev → Dev
  | 0, d => d
  | fuel + 1, d =>
    if (d.core (coreKey die core)).l1Used + n ≤ l1Lines d die core then d else shrinkL1 die core n fuel (evictOne d die core)

/-- The L1 gives up the lines whose space a scratchpad takes (R203). -/
def trimL1 (d : Dev) (die core : Nat) : Dev := shrinkL1 die core 0 (d.core (coreKey die core)).l1Used d

/-- A watched line is stored to: its home recalls the exclusive copy, so that the store reaches it at once (R268). The storer drops
the shared copy that the recall leaves it (R263), which would lack the store. -/
def recallWatched (d : Dev) (die l : Nat) : Dev :=
  match (d.line l).watchers.isEmpty, (d.line l).owner with
  | false, some o =>
    let d := recallCopy d die l
    let c := d.core (coreKey die o)
    d.setCore (coreKey die o) { c with copies := c.copies.erase l }
  | _, _ => d

/-- Ownership store of core C of the line's home die (R263): the clock moves past every lease; the copy is exclusive. -/
def ownStore (d : Dev) (die core a n : Nat) : Dev :=
  let l := a / 128
  let k := coreKey die core
  let (w, m) := wordsOf a n
  let c := d.core k
  match c.copies.find? l with
  | some e =>
    if e.excl then
      let p := max c.pts e.wts
      let d := d.setCore k { c with pts := p, copies := c.copies.insert l { e with wts := p, rts := p } }
      d.setLine l ((d.line l).dropSpans w m 9 0)
    else ownFresh d die core k l w m
  | none => ownFresh d die core k l w m
where
  /-- The ownership of a line that the core does not hold exclusively. -/
  ownFresh (d : Dev) (die core k l w m : Nat) : Dev :=
    let d := makeRoom (meetErrors (recallCopy d die l) l) die core l
    let x := d.line l
    let c := d.core k
    let p := max c.pts (x.mrts + 1)
    let copy : Copy := { excl := true, wts := p, rts := p, data := ⟨[], 0, 0⟩ }
    let d := d.setCore k { c with pts := p, copies := c.copies.insert l copy, pushes := c.pushes.erase l }
    d.setLine l { (x.dropSpans w m 9 0) with owner := some core }

/-- A store by a core of another die (R331): overlapping copies are invalidated, the home's copy is recalled, and the
grant counts as an ownership store of the home with wts := mrts + 1, recorded in its RMAX. -/
def offDieStore (d : Dev) (home die core a n : Nat) : Dev :=
  let l := a / 128
  let (w, m) := wordsOf a n
  let d := meetErrors (recallCopy d home l) l
  let x := d.line l
  let t := x.mrts + 1
  let spans := (x.dropSpans w m die core).spans.filter fun s => !(s.1 == die && s.2.1 == core && overlap w m s.2.2.2.1 s.2.2.2.2)
  let d := d.setLine l { x with mwts := t, mrts := t, spans := spans ++ [(die, core, true, w, m)] }
  raiseRmax d home t

/-- The write time of a line after its last store. -/
def writeTime (d : Dev) (home a : Nat) : Nat :=
  let l := a / 128
  let x := d.line l
  match x.owner with
  | some o => match (d.core (coreKey home o)).copies.find? l with
    | some e => e.wts
    | none => x.mwts
  | none => x.mwts

/-- The coherence side of a store, atomic or `sy.` access of a core (R263, R331): nothing for an address without a
home. -/
def cohStore (d : Dev) (die core a n : Nat) : Dev :=
  match homeDie a with
  | none => d
  | some home =>
    let d := wake d home
    let d := if home = die then recallWatched (ownStore d die core a n) die (a / 128) else offDieStore d home die core a n
    askBack (touchWatches d (a / 128)) (a / 128)

/-- A write made at the home by a party that is not a core of it (R386); `offDie` raises RMAX. -/
def homeStore (d : Dev) (a n : Nat) (offDie : Bool) : Dev :=
  match homeDie a with
  | none => d
  | some home =>
    let l := a / 128
    let (w, m) := wordsOf a n
    let d := meetErrors (recallCopy (wake d home) home l) l
    let x := d.line l
    let t := max x.mwts x.mrts + 1
    let d := d.setLine l { (x.dropSpans w m 9 0) with mwts := t, mrts := t, writer := none }
    let d := if offDie then raiseRmax d home t else d
    askBack (touchWatches d l) l

/-- A read made at the home by such a party (R386). -/
def homeRead (d : Dev) (a : Nat) : Dev :=
  match homeDie a with
  | none => d
  | some home => meetErrors (recallCopy (wake d home) home (a / 128)) (a / 128)

/-- The lowest free entry of a route table of 256 (R285). -/
def freeRoute (t : Tab Route) : Option Nat := (List.range 256).find? fun i => (t.find? i).isNone

/-- The smallest run of words that covers two runs (R284). -/
def coverRun (w n w' n' : Nat) : Nat × Nat :=
  let lo := min w w'
  (lo, max (w + n) (w' + n') - lo)

/-- A renewal by a group joined to ids with role REC makes or updates a route of each id that the last writer recorded
too (R284). -/
def recordRoute (d : Dev) (g : Group) (l w n : Nat) : Dev :=
  match (d.line l).writer with
  | none => d
  | some wr =>
    if g.shadow || wr.core = g.core || wr.ctx ≠ g.ctx then d
    else wr.recIds.foldl (fun d io =>
      if g.roles.getD io.1 .idle ≠ .recording || g.staleIds.getD io.1 false then d
      else
        let k := coreKey g.die wr.core
        let c := d.core k
        match List.find? (fun (e : Nat × Route) => e.2.ctx == g.ctx && e.2.id == io.1 && e.2.line == l && e.2.cons == g.core) c.routes with
        | some (i, r) =>
          let (w', n') := coverRun r.word (r.nwm1 + 1) w n
          d.setCore k { c with routes := c.routes.insert i { r with word := w', nwm1 := n' - 1, ord := io.2, slot := wr.slot } }
        | none =>
          match freeRoute c.routes with
          | some i =>
            let r : Route :=
              { ctx := g.ctx, fb := false, id := io.1, prod := wr.core, cons := g.core, slot := wr.slot, word := w
                nwm1 := n - 1, pd := false, ord := io.2, line := l }
            d.setCore k { c with routes := c.routes.insert i r }
          | none =>
            let x := d.ctx g.ctx
            d.setCtx g.ctx (x.setRecording g.die io.1 { (x.recording g.die io.1) with full := true })) d

/-- A renewal by a group with role PLAY of a line that another PLAY group of the id wrote last, with no route to this
core, departs once per line in the replay (R290). -/
def replayMiss (g : Group) (d : Dev) (l : Nat) : Group × Dev :=
  match (d.line l).writer with
  | none => (g, d)
  | some wr =>
    if g.shadow || wr.core = g.core || wr.ctx ≠ g.ctx then (g, d)
    else wr.playIds.foldl (fun (gd : Group × Dev) id =>
      let (g, d) := gd
      if g.roles.getD id .idle ≠ .replay || !((d.ctx g.ctx).recording g.die id).recorded
          || g.missed.contains (id, l)
          || (routesOf d g.die).any (fun e => e.2.2.ctx == g.ctx && e.2.2.id == id && e.2.2.line == l && e.2.2.cons == g.core)
      then (g, d)
      else ({ g with missed := (id, l) :: g.missed }, departed d g.ctx g.die id)) (g, d)

/-- The renewal of a load (R263). -/
def renew (R : CtlRegs) (g : Group) (d : Dev) (l a n : Nat) : Group × Dev :=
  let k := coreKey g.die g.core
  let d := makeRoom (meetErrors (recallCopy d g.die l) l) g.die g.core l
  let x := d.line l
  let c := d.core k
  let L := lease R g.die
  let mrts := max x.mrts (max (x.mwts + L) (c.pts + L))
  let copy : Copy := { excl := false, wts := x.mwts, rts := mrts, placed := d.time, data := d.mem.line l }
  let d := d.setLine l { x with mrts := mrts }
  let d := d.setCore k { c with pts := max c.pts x.mwts, copies := c.copies.insert l copy, pushes := c.pushes.erase l }
  let (w, m) := wordsOf a n
  replayMiss g (recordRoute d g l w m) l

/-- The first read of a pushed copy raises USED (R287); the recorders do not see a shadow copy's loads (R295). -/
def countUsed (d : Dev) (die k l : Nat) (p : Copy) : Dev :=
  if p.used then d
  else
    let c := d.core k
    let d := d.setCore k { c with pushes := c.pushes.insert l { p with used := true } }
    let x := d.ctx p.ctx
    let r := x.recording die p.rid
    d.setCtx p.ctx (x.setRecording die p.rid { r with used := min (2 ^ 32 - 1) (r.used + 1) })

/-- What a load reads: memory, or a copy as it stands in the core's L1. -/
def readFrom (d : Dev) (from_ : Option LineData) (a n : Nat) : Fetched :=
  match from_ with
  | none => d.mem.fetch a n
  | some l => l.fetch a n

/-- A load of [a, a + n), inside one line homed on the group's die (R263, R287): the copy it reads, none for memory. A restored group
does not use a push of an id that it has not recorded afresh (spec/17 R295). -/
def ownLoad (R : CtlRegs) (g : Group) (d : Dev) (a n : Nat) : Group × Dev × Option LineData :=
  let l := a / 128
  let k := coreKey g.die g.core
  let c := d.core k
  let (w, m) := wordsOf a n
  let fresh (_ : Unit) : Group × Dev × Option LineData :=
    let (g, d) := renew R g d l a n
    (g, d, none)
  let plain (_ : Unit) : Group × Dev × Option LineData :=
    match c.copies.find? l with
    | some e =>
      if e.excl then
        let p := max c.pts e.wts
        (g, d.setCore k { c with pts := p, copies := c.copies.insert l { e with rts := max e.rts p } }, none)
      else if c.pts ≤ e.rts then (g, d.setCore k { c with pts := max c.pts e.wts }, some e.data)
      else fresh ()
    | none => fresh ()
  match c.pushes.find? l with
  | none => plain ()
  | some p =>
    if p.ctx == g.ctx && g.staleIds.getD p.rid false then plain ()
    else if !(decide (p.word ≤ w) && decide (w + m ≤ p.word + p.words)) then fresh ()
    else if c.pts < p.wts then plain ()
    else if c.pts ≤ p.rts then
      let d := if g.shadow then d else countUsed d g.die k l p
      (g, raisePts d k p.wts, some p.data)
    else
      let x := d.line l
      if x.owner.isNone && x.mwts = p.wts then
        let rts := c.pts + lease R g.die
        let d := d.setLine l { x with mrts := max x.mrts rts }
        let d := if g.shadow then d else countUsed d g.die k l { p with rts := rts }
        let c := d.core k
        (g, d.setCore k { c with pushes := c.pushes.insert l { p with rts := rts, used := p.used || !g.shadow, placed := d.time, life := none } }, some p.data)
      else fresh ()

/-- A load by a core of a line homed elsewhere reads its span, which is never stale (R331). -/
def offDieLoad (d : Dev) (home die core a n : Nat) : Dev :=
  let l := a / 128
  let (w, m) := wordsOf a n
  let d := meetErrors (recallCopy (wake d home) home l) l
  let x := d.line l
  if x.spans.contains (die, core, true, w, m) || x.spans.contains (die, core, false, w, m) then d
  else d.setLine l { x with spans := x.spans ++ [(die, core, false, w, m)] }

/-- A load of memory by a group: the local address a, n bytes within one line; the copy it reads, none for memory. -/
def cohLoad (R : CtlRegs) (g : Group) (d : Dev) (a n : Nat) : Group × Dev × Option LineData :=
  match homeDie a with
  | none => (g, d, none)
  | some home =>
    if home = g.die then ownLoad R g d a n
    else (g, offDieLoad d home g.die g.core a n, none)

/-- Who writes a line, for the recorders (R284, R290): a data store word of a group on the line's own die. -/
def writerOf (g : Group) (a : Nat) : Option Writer :=
  let ids := List.range 16
  if homeDie a ≠ some g.die then none
  else some
    { gid := g.gid, ctx := g.ctx, core := g.core, slot := g.slot
      recIds := (ids.filter fun i => g.roles.getD i .idle = .recording && !g.staleIds.getD i false && decide (g.ords.getD i 0 ≤ 1048575)).map fun i => (i, g.ords.getD i 0)
      playIds := ids.filter fun i => g.roles.getD i .idle = .replay }

/-- Who wrote a line last. -/
def setWriter (d : Dev) (w : Option Writer) (a : Nat) : Dev := d.setLine (a / 128) { (d.line (a / 128)) with writer := w }

/-- The last write to the line was not a data store word (R284). -/
def clearWriter (d : Dev) (a : Nat) : Dev := d.setLine (a / 128) { (d.line (a / 128)) with writer := none }

/-- The 64-byte blocks of [a, a + n) that are sync objects lose their release sequence: RSQ and RTS become 0 (spec/13
R220, fourth row). -/
def breakSeq (d : Dev) (a n : Nat) : Dev :=
  (blocksOf 64 a n).foldl (fun d b =>
    if d.syncs.getD b false then
      let w := d.mem.word (64 * b + 8)
      let w' := w &&& (0x7FFF000000000000 : Word)
      if w = w' then d else { d with mem := d.mem.store (64 * b + 8) (toLe 8 w'.toNat) false }
    else d) d

/-- A data write of memory by anything but a sync word: the bytes, tags and marks, and the sequences it breaks. -/
def plainStore (d : Dev) (a : Nat) (bs : List Byte) (poison : Bool) : Dev :=
  breakSeq { d with mem := d.mem.store a bs poison } a bs.length

/-- A sync word has reached the object at `a`. -/
def noteSync (d : Dev) (a : Nat) : Dev := { d with syncs := d.syncs.set (a / 64) true false }

end Sys2Proof.Machine
end

