-- ==== Sys2Proof/Machine/Ops.lean ====
section
/-! DEFINITION. The named operations over a group and the device: registers, masks, numerical events, `%cki`, writes by
parties other than cores, the end of a group, removal of a context, taking a trap and returning from one, entering
emulation and returning (spec/02 R32-R36; spec/03 R61-R66; spec/04; spec/09; spec/18 R316). -/

namespace Sys2Proof.Machine

/-- The group on turn and the device: what every meaning but a register write changes. -/
structure Mach where
  g : Group
  d : Dev
  deriving DecidableEq, Repr

def State.mach (s : State) : Mach := ⟨s.grp, s.dev⟩
def State.put (s : State) (m : Mach) : State := { s with grp := m.g, dev := m.d }

/-- A step acts, unless it writes a line that the host may hold: then back-invalidations are sent and it waits for their
answers (spec/22 R353). -/
def State.commit (s : State) (m : Mach) : Host.Outcome State Fault Refusal :=
  if m.d.pkg.asking = s.dev.pkg.asking then .next (s.put m)
  else
    let t := (m.d.pkg.asking.drop s.dev.pkg.asking.length).foldl (fun (t : Tab Bool) l => t.insert l true) s.dev.pkg.backInv
    .next { s with dev := { s.dev with pkg := { s.dev.pkg with backInv := t } }, stalled := true }

/-- A step that always acts. -/
def act (f : CtlRegs → Mach → Mach) (s : State) : Host.Outcome State Fault Refusal := s.commit (f s.regs s.mach)

/-- A step that may have to wait: none leaves everything as it stands and marks the turn as waiting. -/
def actOrWait (f : CtlRegs → Mach → Option Mach) (s : State) : Host.Outcome State Fault Refusal :=
  match f s.regs s.mach with
  | some m => s.commit m
  | none => .next { s with stalled := true }

/-- A step that also writes control registers acts, or waits, in the same way. -/
def State.adopt (s t : State) : Host.Outcome State Fault Refusal :=
  if t.dev.pkg.asking = s.dev.pkg.asking then .next t else s.commit t.mach

/-- A step that changes only the group. -/
def onGroup (f : Group → Group) (s : State) : Host.Outcome State Fault Refusal := .next { s with grp := f s.grp }

/-! ### Registers of a group -/

/-- `s0` reads zero (R74). -/
def Group.rs (g : Group) (k : Nat) : Word := if k = 0 then 0 else g.s.getD k 0
/-- A write to `s0` is discarded (R74). -/
def Group.setS (g : Group) (k : Nat) (x : Word) : Group := if k = 0 then g else { g with s := g.s.set k x 0, badScalar := g.badScalar.erase k }
def Group.rc (g : Group) (k : Nat) : Cap := g.c.getD k {}
def Group.setC (g : Group) (k : Nat) (x : Cap) : Group := { g with c := g.c.set k x {}, badScalar := g.badScalar.erase (64 + k) }
/-- The next scalar word. -/
def Group.advance (g : Group) : Group := { g with pc := g.pc + 4 }
/-- `s`d := x, and on to the next word. -/
def Group.result (g : Group) (d : SReg) (x : Word) : Group := (g.setS d.toNat x).advance
/-- `c`d := x, and on to the next word. -/
def Group.capResult (g : Group) (d : CReg) (x : Cap) : Group := (g.setC d.toNat x).advance
/-- The nesting counter of a lane (R82). -/
def Group.counter (g : Group) (l : Nat) : Nat := g.nest.getD l 0
/-- `m0`: the present lanes whose counter is zero (R80). -/
def Group.m0 (g : Group) : Word := maskOf g.width fun l => bit g.present l && g.counter l = 0
/-- `m`k of the scalar side. -/
def Group.mask (g : Group) (k : Nat) : Word := if k = 0 then g.m0 else g.m.getD k 0
/-- Write `m`k, k ≥ 1; bits at or above W are discarded (R80). -/
def Group.setM (g : Group) (k : Nat) (x : Word) : Group := { g with m := g.m.set k (x &&& maskBelow g.width) 0, badScalar := g.badScalar.erase (128 + k) }

/-- Change the operands of every block of the group: those queued, and those that a trap or emulation frame holds. -/
def Group.mapViews (g : Group) (f : View → View) : Group :=
  let bs (l : List Block) : List Block := l.map fun b => { b with view := f b.view }
  let fr (o : Option Frame) : Option Frame := o.map fun x => { x with blocks := bs x.blocks }
  { g with queue := bs g.queue, trapFrame := fr g.trapFrame, emuFrame := fr g.emuFrame }

/-- A lane word's write of `s`k reaches the operands of its own and of every later block (R71). -/
def Group.laneSetS (g : Group) (k : Nat) (x : Word) : Group :=
  if k = 0 then g else
  (g.setS k x).mapViews fun v => { v with s := v.s.set k x 0 }
/-- A lane word's write of `m`k, likewise, in the lanes on which it runs: the others keep their bit, in the register and in each
block's operands (R81). -/
def Group.laneSetM (g : Group) (k : Nat) (run x : Word) : Group :=
  let put (old : Word) : Word := old &&& ~~~run ||| x &&& run
  (g.setM k (put (g.m.getD k 0))).mapViews fun v => { v with m := v.m.set k (put (v.m.getD k 0) &&& maskBelow g.width) 0 }

/-- The operands as a block queued now would see them. -/
def Group.viewNow (g : Group) : View := { s := g.s, c := g.c, m := g.m, x := g.x, tile := g.tile }
/-- The operands of the lane word on turn (R71). -/
def Group.view (g : Group) : View :=
  match g.queue with
  | b :: _ => b.view
  | [] => g.viewNow

/-- Has the lane stream nothing pending (`lwait`)? -/
def Group.lanesIdle (g : Group) : Bool := g.queue.isEmpty

/-! ### Paths -/

def pathCode : Path → Nat
  | .ld => 0 | .st => 1 | .cp => 2 | .mx => 3 | .cl => 4 | .fx => 5

/-- The in-flight counter of a path (R103). -/
def Group.count (g : Group) (p : Path) : Nat := (g.flights.filter fun f => f.path == p).length
/-- Raise a counter: a new operation in flight, numbered `nextOp`. -/
def Group.raise (g : Group) (p : Path) : Group :=
  let n := g.issued.getD (pathCode p) 0 + 1
  { g with flights := g.flights ++ [⟨p, g.nextOp, n, false, 0⟩], nextOp := g.nextOp + 1
           issued := g.issued.set (pathCode p) n 0 }

/-- The position of an operation on its path; the next one if it is not in flight. -/
def Group.posOf (g : Group) (id : Nat) : Nat :=
  match g.flights.find? (fun f => f.id == id) with
  | some f => f.pos
  | none => 0
/-- May the counter rise (R103: at most 1,023)? -/
def Group.canRaise (g : Group) (p : Path) : Bool := decide (g.count p < 1023)

/-- Drop the completed operations that stand first on a path: the counter falls in issue order. Their greatest write
time is kept until a wait joins them. -/
def Group.retire (g : Group) (p : Path) : Group :=
  let mine := g.flights.filter fun f => f.path == p
  let fallen := mine.takeWhile fun f => f.done
  let ids := fallen.map fun f => f.id
  let t := fallen.foldl (fun acc f => max acc f.wts) (g.unjoined.getD (pathCode p) 0)
  { g with
    flights := g.flights.filter fun f => !(f.path == p && ids.contains f.id)
    unjoined := g.unjoined.set (pathCode p) t 0 }

/-- An operation completes. -/
def Group.complete (g : Group) (id wts : Nat) : Group :=
  match g.flights.find? (fun f => f.id == id) with
  | none => g
  | some f =>
    let g := { g with flights := g.flights.map fun (f : Flight) => if f.id = id then { f with done := true, wts := max f.wts wts } else f }
    g.retire f.path

/-- Find a group wherever it stands, and change it. -/
def Mach.onGid (m : Mach) (gid : Nat) (f : Group → Group) : Mach :=
  if m.g.gid = gid && m.g.live then { m with g := f m.g }
  else { m with d := { m.d with groups := m.d.groups.modify gid f } }
def Mach.group? (m : Mach) (gid : Nat) : Option Group :=
  if m.g.gid = gid && m.g.live then some m.g else m.d.groups.find? gid
/-- Bring a group to the turn; the group that had it goes back among the others. -/
def Mach.focus (m : Mach) (gid : Nat) : Mach :=
  if m.g.gid = gid && m.g.live then m
  else match m.d.groups.find? gid with
  | none => m
  | some g =>
    let t := m.d.groups.erase gid
    { g := g, d := { m.d with groups := if m.g.live then t.insert m.g.gid m.g else t } }
/-- Change every group that meets a condition. -/
def Mach.onGroups (m : Mach) (p : Group → Bool) (f : Group → Group) : Mach :=
  { g := if m.g.live && p m.g then f m.g else m.g
    d := { m.d with groups := m.d.groups.map fun e => (e.1, if p e.2 then f e.2 else e.2) } }
/-- Every live group. -/
def Mach.allGroups (m : Mach) : List Group := (if m.g.live then [m.g] else []) ++ m.d.groups.map fun e => e.2

/-! ### Events to the host and the log -/

/-- Types of event records. The spec gives the record's shape and not the codes (notes/assumptions/16). -/
def evNev : Nat := 1
def evHalt : Nat := 2
def evExit : Nat := 3
def evKernelEnd : Nat := 4
def evPacket : Nat := 5
def evQueueError : Nat := 6
def evOverrun : Nat := 7
def evHatMiss : Nat := 8
def evPeerLost : Nat := 9
def evPause : Nat := 10
def evResume : Nat := 11
def evDieFault : Nat := 12

/-- Queue an event record: type and source, context, payload (spec/21 R343). -/
def post (d : Dev) (ty src ctx : Nat) (lo hi : Word) : Dev :=
  { d with pkg := { d.pkg with events := d.pkg.events ++
      [⟨BitVec.ofNat 64 (ty + 256 * src), BitVec.ofNat 64 ctx, lo, hi⟩] } }

/-! ### Writes and reads by other parties -/

/-- A context uses a peer (spec/22 R370). -/
def usePeer (d : Dev) (ctx j : Nat) : Dev :=
  let x := d.ctx ctx
  if x.peers.contains j then d else d.setCtx ctx { x with peers := x.peers ++ [j] }

/-- Split [a, a + n) at line borders. -/
def lineRuns (a : Nat) : Nat → Nat → List (Nat × Nat)
  | 0, _ => []
  | _, 0 => []
  | fuel + 1, n =>
    let k := min n (128 - a % 128)
    (a, k) :: lineRuns (a + k) fuel (n - k)

/-- The host address of a byte of the host range (spec/22 R350). -/
def hostAddr? (p : Pkg) (a : Nat) : Option Nat :=
  match spaceOf a with
  | .host w => some ((p.hat.getD w (0, 0)).2.toNat / 2 ^ 21 * 2 ^ 21 + (a - Config.hostBase) % 2 ^ 40)
  | _ => none

/-- One request leaves through a port (spec/22 R350, R358). -/
def sendOne (d : Dev) (gid flight a n : Nat) (write : Option (List Byte)) (env : Bool) (wait : RemoteWait) (marks : List Bool)
    (guard : Option Nat := none) : Dev :=
  let port := match spaceOf a with
    | .peer j _ => lanePort d j (laneOf a)
    | _ => none
  { d with
    remotes := d.remotes ++ [{ id := d.nextId, gid := gid, flight := flight, addr := a, haddr := hostAddr? d.pkg a, len := n
                               write := write, envelope := env, psn := marks.any id, marks := marks, lane := laneOf a, port := port
                               guard := guard, wait := wait }]
    nextId := d.nextId + 1 }

/-- An access leaves through a port, for a context if one is named: a request for each line (spec/22 R358). `psn` marks the
poisoned bytes of its data. -/
def sendRemote (d : Dev) (ctx : Option Nat) (gid flight a n : Nat) (write : Option (List Byte)) (env : Bool) (wait : RemoteWait)
    (psn : List Bool := []) : Dev :=
  let d := match ctx, spaceOf a with
    | some c, .peer j _ => usePeer d c j
    | _, _ => d
  let guard := ctx.bind fun c => if (d.parts.getD (d.ctx c).part {}).prot then some (d.ctx c).part else none
  (lineRuns a (n + 1) n).foldl (fun d r =>
    let part {β : Type} (l : List β) : List β := (l.drop (r.1 - a)).take r.2
    sendOne d gid flight r.1 r.2 (write.map part) env wait (part psn) guard) d

/-- A data write by a party that is not a core (R386): at the home, or through a port. -/
def partyStore (d : Dev) (a : Nat) (bs : List Byte) (poison offDie : Bool) : Dev :=
  if leaves d a then sendRemote d none 0 0 a bs.length (some bs) false .none
  else
    let d := (lineRuns a (bs.length + 1) bs.length).foldl (fun d r => homeStore d r.1 r.2 offDie) d
    plainStore d a bs poison

/-- A read at the homes of a range (R386). -/
def homesRead (d : Dev) (a n : Nat) : Dev := (lineRuns a (n + 1) n).foldl (fun d x => homeRead d x.1) d

/-- A read by a party that is not a core (R386). -/
def partyRead (d : Dev) (a n : Nat) : Dev × Fetched :=
  let d := homesRead d a n
  (d, d.mem.fetch a n)

/-! ### `%cki` and numerical events -/

/-- A consuming operation (spec/09 R180, R181). -/
def consume (d : Dev) (ctx src : Nat) : Dev :=
  let x := d.ctx ctx
  d.setCtx ctx { x with
    pcount := if x.pcount = BitVec.allOnes 16 then x.pcount else x.pcount + 1
    psrc := if x.psn then x.psrc else BitVec.ofNat 3 src
    psn := true }

/-- A fallback (spec/02 R31): the lowest code of the word is recorded if WARN was clear. -/
def warn (d : Dev) (ctx : Nat) (codes : List Nat) : Dev :=
  match codes.min? with
  | none => d
  | some c =>
    let x := d.ctx ctx
    d.setCtx ctx { x with wcode := if x.warn then x.wcode else BitVec.ofNat 4 c, warn := true }

/-- Count n events of a class (R63-R65): the flag, the saturating COUNT, and the action at the first crossing of THRESH
in the window. Says whether the action traps the group. -/
def countClass (d : Dev) (ctx cls n : Nat) : Dev × Bool :=
  if n = 0 then (d, false)
  else
    let x := d.ctx ctx
    let r := x.nev.getD cls 0
    let old := (r.extractLsb' 0 32).toNat
    let thr := (r.extractLsb' 32 16).toNat
    let actn := (r.extractLsb' 62 2).toNat
    let new := satAdd (2 ^ 32 - 1) old n
    let fires := decide (old ≤ thr) && decide (thr < new) && !x.fired.getD cls false
    let r' := (r &&& ~~~(0xFFFFFFFF : Word)) ||| BitVec.ofNat 64 new
    let d := d.setCtx ctx { x with
      nev := x.nev.set cls r' 0
      nevflag := setBit x.nevflag cls true
      fired := if fires then x.fired.set cls true false else x.fired }
    let d := if fires && decide (2 ≤ actn) then post d evNev cls ctx (BitVec.ofNat 64 cls) (BitVec.ofNat 64 new) else d
    (d, fires && actn % 2 = 1)

/-- Count events of every class of a word or operation; the lowest class whose action traps the group (R66). -/
def countEvents (d : Dev) (ctx : Nat) (counts : List (Nat × Nat)) : Dev × Option Nat :=
  counts.foldl (fun (r : Dev × Option Nat) e =>
    let (d, t) := countClass r.1 ctx e.1 e.2
    (d, match r.2 with
      | some c => some c
      | none => if t then some e.1 else none)) (d, none)

/-- The classes of an event set, one event each (an engine operation or a scalar word, R62). -/
def onceEach (e : Ev) : List (Nat × Nat) := ((List.range 7).filter fun c => bit e c).map fun c => (c, 1)

/-- The group of the other copy of a dual pair with the same index (spec/18 R317). -/
def Mach.twin (m : Mach) (g : Group) : Option Group :=
  if !g.dual then none
  else match (m.d.team g.team).partner with
  | none => none
  | some t => m.allGroups.find? fun x => x.team == t && x.index == g.index

/-- A change of a group that its shadow copy follows (spec/18 R319): only the primary's engine operations run. -/
def Mach.onPair (m : Mach) (gid : Nat) (f : Group → Group) : Mach :=
  match m.group? gid with
  | none => m
  | some g =>
    let m := m.onGid gid f
    match (if g.shadow then none else m.twin g) with
    | none => m
    | some x => m.onGid x.gid f

/-- An operation, named by its path and its position on it, completes. -/
def Group.completeAt (g : Group) (p : Path) (pos wts : Nat) : Group :=
  match g.flights.find? (fun f => f.path == p && f.pos == pos) with
  | none => g
  | some f => g.complete f.id wts

/-- Raise a counter for an operation that is complete at once. -/
def Group.raiseDone (g : Group) (p : Path) : Group := (g.raise p).completeAt p (g.issued.getD (pathCode p) 0 + 1) 0

/-- An engine operation completes in its group, and in the shadow's. -/
def Mach.finishOp (m : Mach) (gid : Nat) (p : Path) (id wts : Nat) : Mach :=
  match m.group? gid with
  | none => m
  | some g => m.onPair gid fun x => x.completeAt p (g.posOf id) wts

/-- Hold an engine trap in its group (R66). -/
def Mach.hold (m : Mach) (gid : Nat) (p : Path) (id code : Nat) : Mach :=
  match m.group? gid with
  | none => m
  | some g => m.onPair gid fun x => { x with heldTraps := x.heldTraps ++ [⟨p, g.posOf id, code, 0⟩] }

/-- Events of an engine operation, charged to its issuing group; a trap is held (R66). -/
def Mach.engineEvents (m : Mach) (gid ctx : Nat) (p : Path) (id : Nat) (e : Ev) : Mach :=
  let (d, t) := countEvents m.d ctx (onceEach e)
  let m := { m with d := d }
  match m.group? gid, t with
  | some g, some c => m.onPair gid fun x => { x with heldTraps := x.heldTraps ++ [⟨p, g.posOf id, cNUMEVT, c⟩] }
  | _, _ => m

/-- The shadow copy's engine operation, just raised, runs nowhere: it completes with the primary's, at once where the
primary's has completed (spec/18 R317, R319). -/
def Mach.followPrimary (m : Mach) (p : Path) : Mach :=
  let n := m.g.issued.getD (pathCode p) 0
  match m.twin m.g with
  | none => m
  | some x =>
    if n ≤ x.issued.getD (pathCode p) 0 && !(x.flights.any fun f => f.path == p && f.pos == n && !f.done) then
      { m with g := m.g.completeAt p n 0 }
    else m

/-! ### Record mode: leaving -/

/-- leave(g, i) (spec/17 R291). -/
def leaveId (m : Mach) (i : Nat) : Mach :=
  let g := m.g
  let role := g.roles.getD i .idle
  if role = .idle then m
  else
    let x := m.d.ctx g.ctx
    let r := x.recording g.die i
    let r := { r with joined := r.joined - 1, recorded := r.recorded || role = .recording }
    let d := m.d.setCtx g.ctx (x.setRecording g.die i r)
    let k := coreKey g.die g.core
    let d := if role = .replay then
        ((d.core k).routes).foldl (fun d e =>
          if e.2.ctx = g.ctx && e.2.id = i && e.2.slot = g.slot && !e.2.fb && !e.2.pd then departRoute d g.die k e.1 e.2 else d) d
      else d
    { g := { g with roles := g.roles.set i .idle .idle, ords := g.ords.set i 0 0 }, d := d }

/-- A group that ends leaves every id (spec/17 R283). -/
def leaveAll (m : Mach) : Mach := (List.range 16).foldl leaveId m

/-! ### Watches of parked groups (spec/16 R268) -/

/-- A parked group gives up its watch. -/
def unwatch (d : Dev) (g : Group) : Dev :=
  match g.park with
  | none => d
  | some p => d.setLine (p.addr / 128) { (d.line (p.addr / 128)) with watchers := (d.line (p.addr / 128)).watchers.filter (· ≠ g.gid) }

/-- A parked group holds a watch at its line's home. -/
def watch (d : Dev) (gid a : Nat) : Dev :=
  d.setLine (a / 128) { (d.line (a / 128)) with watchers := (d.line (a / 128)).watchers ++ [gid] }

/-! ### Removal of a context -/

/-- The completion record of a launch (spec/18 R310). A launch that a removal cuts off has REMOVED and not DONE, and no
`%cki` has been copied for it (R316, spec/09 R185). -/
def completionBytes (l : Launch) (removed : Bool) (cki : Nat) (time : Nat) : List Byte :=
  let b (x : Bool) (k : Nat) : Nat := if x then k else 0
  toLe 8 (b (!removed) 1 + b l.statusLost 2 + b l.statusTail 4 + b removed 8 + b l.statusDual 16)
    ++ toLe 8 cki ++ toLe 8 l.finished ++ toLe 8 l.lost ++ toLe 8 l.tailsRefused ++ toLe 8 l.start ++ toLe 8 time
    ++ toLe 8 0

/-- The low half of `%cki` (spec/09 R180). -/
def Ctx.ckiLow (x : Ctx) : Nat :=
  (if x.psn then 1 else 0) + 256 * x.psrc.toNat + (if x.warn then 2048 else 0) + 4096 * x.wcode.toNat
    + 65536 * x.pcount.toNat

/-- Forget everything that the engines hold for the groups of a condition. Their stores that have left through a port stand:
a later access that R90 orders after one may have performed (spec/09 R188); their pushes, which SENT counts, still arrive
(spec/17 R286). -/
def dropEngines (d : Dev) (p : Nat → Bool) : Dev :=
  { d with
    clusters := d.clusters.map fun e => (e.1, { e.2 with
      table := e.2.table.filter fun t => !p t.gid
      loads := e.2.loads.filter fun t => !p t.gid
      copies := e.2.copies.filter fun t => t.packet.isSome || !p t.gid })
    dies := d.dies.map fun e => (e.1, { e.2 with coll := e.2.coll.filter fun t => !p t.gid })
    remotes := d.remotes.filter fun r => !(r.gid != 0 && p r.gid) || ((r.write.isSome || r.atomic.isSome) && !r.envelope) }

/-- Free the claims of the teams of a condition on units and slots (spec/14 R237, R257). -/
def dropClaims (d : Dev) (p : Nat → Bool) : Dev :=
  let keep (t : Tab (Option Nat)) : Tab (Option Nat) := t.filter fun e => match e.2 with
    | some k => !p k
    | none => false
  { d with clusters := d.clusters.map fun e => (e.1, { e.2 with
      unitOwner := keep e.2.unitOwner, slotOwner := keep e.2.slotOwner }) }

/-- The homes of a range take a write by a party of a die (R386, spec/21 R332). -/
def homesTake (d : Dev) (die la n : Nat) : Dev :=
  (lineRuns la (n / 128 + 2) n).foldl (fun d r => homeStore d r.1 r.2 (homeDie r.1 != some die)) d

/-- The greatest write time of a range's lines homed on a die. -/
def homesTime (d : Dev) (die la n : Nat) : Nat :=
  (lineRuns la (n / 128 + 2) n).foldl (fun t r => if homeDie r.1 = some die then max t (d.line (r.1 / 128)).mwts else t) 0

/-- The front end's writes to its own die's lines reach a time. -/
def noteFeTime (d : Dev) (die t : Nat) : Dev :=
  let x := d.die die
  d.setDie die { x with feTime := max x.feTime t }

/-- A packet of a queue completes (spec/18 R304): with EVT its event goes to the host. -/
def packetDone (d : Dev) (q idx : Nat) : Dev :=
  match d.queue? q with
  | none => d
  | some x =>
    let evt := x.open_.any fun e => e.1 == idx && e.2
    let d := d.setQueue q { x with open_ := x.open_.filter fun e => e.1 ≠ idx }
    if evt then post d evPacket q x.ctx (BitVec.ofNat 64 q) (BitVec.ofNat 64 idx) else d

/-- The completion record of a launch has been written: the launch is done, and its packet completes (R310). -/
def closeLaunch (d : Dev) (k : Nat) : Dev :=
  let l := d.launch k
  packetDone (d.setLaunch k { l with done := true, closing := false }) l.queue l.index

/-- A store by the front end of a die performs, a release with the time of every earlier write of the front end (R297, R310,
spec/21 R332): at its homes, or by a request through a port. -/
def frontPerform (d : Dev) (w : FrontWrite) : Dev :=
  let n := w.bytes.length
  if leaves d w.a then
    let d := if w.release then raiseRmax d w.die (d.die w.die).feTime else d
    match w.closes with
    | some k => (sendRemote d (some (d.launch k).ctx) 0 0 w.a n (some w.bytes) false (.record k)).setLaunch k { d.launch k with closing := true }
    | none => sendRemote d none 0 0 w.a n (some w.bytes) false .none
  else
    let a := localAddr d w.a
    let d := plainStore (homesTake d w.die a n) a w.bytes false
    let d := noteFeTime d w.die (homesTime d w.die a n)
    let d := if w.release then raiseRmax d w.die (d.die w.die).feTime else d
    match w.closes with
    | some k => closeLaunch d k
    | none => d

/-- Must a store of a front end wait: for a carve-out window that changes (spec/16 R271), or, in release order, for its stores that
are on their way through a port (spec/22 R356)? -/
def frontWaits (d : Dev) (w : FrontWrite) : Bool :=
  (match spaceOf (localAddr d w.a) with
    | .carve k _ _ => (d.die k).carveNew.isSome
    | _ => false)
  || w.release && d.remotes.any fun r => r.gid == 0 && r.flight == 0 && r.write.isSome

/-- A store of a front end: at once, or behind those of its die that wait. -/
def frontPut (d : Dev) (w : FrontWrite) : Dev :=
  if frontWaits d w || d.frontOwed.any fun x => x.die == w.die then
    let d := { d with frontOwed := d.frontOwed ++ [w] }
    match w.closes with
    | some k => d.setLaunch k { d.launch k with closing := true }
    | none => d
  else frontPerform d w

/-- The stores of the front ends that wait perform, those of a die in order. -/
def settleFront (d : Dev) : Dev :=
  d.frontOwed.foldl (fun d w => frontPut d w) { d with frontOwed := [] }

/-- A store by the front end of a die, with release order if asked. -/
def frontStore (d : Dev) (die a : Nat) (bs : List Byte) (release : Bool) : Dev := frontPut d ⟨die, a, bs, release, none⟩

/-- Bytes of memory as the front ends have written them. -/
def frontBytes (d : Dev) (a n : Nat) : List Byte :=
  d.frontOwed.foldl (fun bs w => bs.zipIdx.map fun b =>
    if w.a ≤ a + b.2 && a + b.2 < w.a + w.bytes.length then w.bytes.getD (a + b.2 - w.a) 0 else b.1) (d.mem.read a n)

/-- Bytes [o, o + n) of a queue record, as a number (spec/18 R297): as they stand, or as last seen behind a port. -/
def recordNum (d : Dev) (q o n : Nat) : Nat :=
  if leaves d (64 * q) then leNat (((((d.queue? q).map fun x => x.seen).getD []).drop o).take n)
  else if d.frontOwed.isEmpty then d.mem.num (localAddr d (64 * q) + o) n
  else leNat (frontBytes d (localAddr d (64 * q) + o) n)

/-- Does the firewall table give an address to a context's colour for a write (spec/16 R281, spec/21 R338)? -/
def ownsByte (d : Dev) (ctx a : Nat) : Bool :=
  let x := d.ctx ctx
  leaves d a || match d.pkg.fwFind a, quarterOf a with
    | some e, some q => e.part == x.part && bit (d.parts.getD x.part {}).quarters q && (e.colour == x.colour || e.shr) && !e.ro && !e.vlt
    | _, _ => false

/-- The front end writes bytes of a queue record, in release order at `.y` (R297), while they are its context's (spec/16
R281). -/
def recordStore (d : Dev) (die q o : Nat) (bs : List Byte) : Dev :=
  if !ownsByte d (((d.queue? q).map fun x => x.ctx).getD 0) (localAddr d (64 * q)) then d
  else
    let d := if leaves d (64 * q) then { d with queues := d.queues.modify q fun x =>
        { x with seen := x.seen.take o ++ bs ++ x.seen.drop (o + bs.length) } } else d
    frontStore d die (64 * q + o) bs true

/-- The front end reads a queue record in memory (R386). -/
def readRecord (d : Dev) (q : Nat) : Dev := if leaves d (64 * q) then d else homeRead d (localAddr d (64 * q))

/-- STATE and ERR of a queue record, written by the front end (R297). -/
def setQueueState (d : Dev) (q : Nat) (state : Nat) (err : Option Nat) : Dev :=
  let d := { d with queues := d.queues.modify q fun x => { x with state := state } }
  let w := BitVec.ofNat 64 (recordNum d q 32 8)
  let w := (w &&& ~~~(7 : Word)) ||| BitVec.ofNat 64 (state % 8)
  let w := match err with
    | some e => (w &&& ~~~(0xFF00 : Word)) ||| BitVec.ofNat 64 (e % 256 * 256)
    | none => w
  recordStore d (((d.queue? q).map fun x => x.die).getD 0) q 32 ((toLe 8 w.toNat).take 2)

/-- Take a queue out of its slot (R300). -/
def unmapQueue (d : Dev) (q : Nat) : Dev :=
  { d with
    dies := d.dies.map fun e => (e.1, { e.2 with
      slots := e.2.slots.filter (fun s => s.2.qaddr ≠ q), pending := e.2.pending.filter (· ≠ q) })
    queues := d.queues.modify q fun x => { x with mapped := none } }

/-- The fault record of a removal (spec/18 R316). -/
structure FaultInfo where
  cause : Word := 0
  tspc : Word := 0
  tlpc : Word := 0
  fmask : Word := 0
  wher : Nat := 0
  reason : Nat := 4
  deriving DecidableEq, Repr

/-- `%cause` as read (spec/09 R172). -/
def Group.causeWord (g : Group) : Word :=
  BitVec.ofNat 64 ((if g.skip then 32768 else 0) + (if g.nores then 16384 else 0) + 2048 * g.path.toNat
    + 256 * g.nevc.toNat + g.code.toNat)

/-- The empty record a group leaves behind. -/
def Group.gone (g : Group) : Group :=
  { g with live := false, ended := true, queue := [], chain := none, mxLatch := none, flights := [], heldTraps := []
           trapFrame := none, emuFrame := none, inHandler := false, park := none, arrived := none, waitRemote := false
           heldWords := [], dueTrap := none, entering := none, blocks := [] }

/-- Is the group's next scalar word one that waits (spec/09 R187, spec/13 R234): a wait on a counter or for the lanes, an
`lrun` with a full queue, a `cp.run` or `cl.run` whose engine is full? -/
def stalledWord (d : Dev) (g : Group) : Bool :=
  match decodeScalar (BitVec.ofNat 32 (d.mem.num (localAddr d g.pc.toNat) 4)) with
  | .ok (.sWait p a) => !g.lanesIdle || decide ((g.rs a.toNat).toNat < g.count p)
  | .ok .lwait => !g.lanesIdle
  | .ok (.lrun _ _) => decide (4 ≤ g.queue.length)
  | .ok (.cpRun _) => !g.canRaise .cp || decide (32 ≤ (d.cluster (clusterKey g.die g.core)).copies.length)
  | .ok (.clRun _) => !g.canRaise .cl || decide (64 ≤ (d.die g.die).coll.length)
  | .ok .sysEnd | .ok (.sTail _) => !g.lanesIdle || !g.flights.isEmpty
  | .ok (.syRel _ _ _) | .ok (.syFence _) | .ok (.syBar _) => !g.lanesIdle
  | _ => false

/-- An injected exit of one group (spec/09 R187): its exit record reaches the host as an event whose payload says whether
a word was blocked, with status EXITED. -/
def exitRecord (d : Dev) (g : Group) : Dev :=
  post d evExit g.gid g.ctx
    (BitVec.ofNat 64 (if g.park.isSome || g.arrived.isSome || g.waitRemote || stalledWord d g then 2 else 0)) g.pc

/-- A halt record (R186): CODE UNCORR, the position and the affected lanes; the host receives it as an event. -/
def sendHalt (d : Dev) (g : Group) (tspc tlpc mask : Word) : Dev :=
  let d := post d evHalt g.gid g.ctx mask (BitVec.ofNat 64 (cUNCORR + 256 * (if tlpc == BitVec.allOnes 64 then tspc else tlpc).toNat))
  { d with halts := d.halts ++ [(g.gid, cUNCORR, tspc, tlpc, mask)] }

/-- A record that the front end of a die writes for a context, in release order, through a capability that still has its tag
and over bytes that are still the context's. -/
def frontRecord (d : Dev) (die ctx : Nat) (c : Cap) (a : Nat) (bs : List Byte) : Dev :=
  if c.tag && ownsByte d ctx (localAddr d a) then frontStore d die a bs true else d

/-- Removal of a context (R316, R187). -/
def removeContext (m : Mach) (ctx : Nat) (f : FaultInfo) : Mach :=
  let x := m.d.ctx ctx
  if !x.live then m
  else
    let qs := m.d.queues.filter fun e => e.2.ctx = ctx
    let d := qs.foldl (fun d e => setQueueState (unmapQueue d e.1) e.1 4 none) m.d
    let gone := m.allGroups.filter fun g => g.ctx = ctx
    let gids := gone.map fun g => g.gid
    let d := gone.foldl (fun d g => exitRecord (unwatch d g) g) d
    let d := dropEngines d gids.contains
    let d := { d with
      groups := d.groups.filter fun e => e.2.ctx ≠ ctx
      clusters := d.clusters.map fun (e : Nat × Cluster) => (e.1, { e.2 with copies := e.2.copies.filter fun o => o.ctx ≠ ctx }) }
    let d := frontRecord d (f.wher / 4096 % 4) ctx x.fault x.fault.base.toNat (toLe 8 f.cause.toNat ++ toLe 8 f.tspc.toNat
      ++ toLe 8 f.tlpc.toNat ++ toLe 8 f.fmask.toNat ++ toLe 8 f.wher ++ toLe 8 f.reason ++ toLe 8 d.time ++ toLe 8 0)
    let ls := d.launches.filter fun e => e.2.ctx = ctx && !e.2.done && !e.2.closing
    let d := ls.foldl (fun d e => frontRecord d e.2.die ctx e.2.compl e.2.compl.cursor (completionBytes e.2 true 0 d.time)) d
    let d := { d with launches := d.launches.map fun e => (e.1, if e.2.ctx = ctx then { e.2 with done := true } else e.2) }
    let d := dropClaims d fun t => (d.team t).ctx = ctx
    let d := { d with
      teams := d.teams.map fun (e : Nat × Team) => (e.1, if e.2.ctx = ctx && e.2.status != TeamStatus.ended && e.2.status != TeamStatus.lost then
        { e.2 with status := .removed, members := [], slots := [], scratch := {}, recs := [], savedUnits := [], savedSlots := [] }
        else e.2)
      cores := d.cores.map fun (e : Nat × Core) => (e.1, { e.2 with routes := e.2.routes.filter fun r => r.2.ctx ≠ ctx }) }
    let d := d.setCtx ctx { (d.ctx ctx) with live := false, recs := [] }
    { g := if m.g.ctx = ctx && m.g.live then m.g.gone else m.g, d := d }

/-- WHERE of a fault record (R316). -/
def Group.wher (g : Group) : Nat :=
  g.slot + 16 * g.core + 4096 * g.die + 65536 * g.index + 2 ^ 32 * (g.teamNo % 2 ^ 32)

/-! ### Traps -/

/-- A trap as it is reported (spec/09 R170-R174). -/
structure TrapInfo where
  code : Nat
  nevc : Nat := 0
  path : Nat := 7
  tspc : Word
  tlpc : Word := BitVec.allOnes 64
  fmask : Word := 0
  skip : Bool := false
  frame : Frame := ⟨0, []⟩
  deriving DecidableEq, Repr

/-- The trap registers as the trap writes them (R172, R174). -/
def Group.trapRegs (g : Group) (t : TrapInfo) (code : Nat) (nores : Bool) : Group :=
  { g with code := BitVec.ofNat 8 code, nevc := BitVec.ofNat 3 t.nevc, path := BitVec.ofNat 3 t.path, skip := t.skip
           nores := nores, tspc := t.tspc, tlpc := t.tlpc, fmask := t.fmask &&& maskBelow g.width }

/-- The blocks before the held scalar accesses leave the queue for a frame: the accesses, whose words have issued, are held by
no lane word any more (R170). -/
def Group.freeHeld (g : Group) : Group := { g with heldWords := g.heldWords.map fun h => { h with blocks := 0 } }

/-- The entry of the handler (R175): the frame takes the held lane words, the chain and its latches go, the scalar
thread continues at `%trapv` with an empty lane queue. -/
def Group.intoHandler (g : Group) (t : TrapInfo) : Group :=
  { g.freeHeld with trapFrame := some t.frame, chain := none, queue := [], lpos := 0, pc := g.trapv, inHandler := true
                    emuFrame := none, dueTrap := none, blocks := [] }

/-- Is the trap fatal to the context: in the handler, or with no handler (R175, R177)? -/
def Group.fatal (g : Group) : Bool := g.inHandler || g.trapv == 0

/-- The cause that a trap reports: inside an emulation handler it is EMUNEST (R36, R178). -/
def Group.trapCode (g : Group) (code : Nat) : Nat := if g.emuFrame.isSome then cEMUNEST else code

/-- The removal of the context by a fatal trap of a group whose trap registers are written (R177, spec/18 R316). -/
def fatalTrap (m : Mach) (g : Group) : Mach :=
  removeContext m g.ctx { cause := g.causeWord, tspc := g.tspc, tlpc := g.tlpc, fmask := g.fmask, wher := g.wher, reason := 1 }

/-- Taking a trap (R175), one operation for every word: the registers, then the handler, or the removal of the context
(R177). A group of a dual team waits with a fatal trap until its other copy has trapped too (spec/18 R321). -/
def takeTrap (m : Mach) (t : TrapInfo) : Mach :=
  let g := m.g
  let g' := g.trapRegs t (g.trapCode t.code) g.emuFrame.isSome
  if g.fatal then
    if g.dual then { m with g := { g' with dualSt := { g'.dualSt with waiting := true, fatal := true } } }
    else fatalTrap { m with g := g' } g'
  else { m with g := g'.intoHandler t }

/-- A trap of the scalar word on turn (R170): every lane word queued before it completes first, so it waits for them. -/
def scalarTrap (m : Mach) (code : Nat) : Option Mach :=
  if m.g.lanesIdle then some (takeTrap m { code := code, tspc := m.g.pc }) else none

/-- The position of a lane-word trap: the chain's first word if one is open (R89, R170). -/
def Group.laneTrapPos (g : Group) : Nat :=
  match g.chain with
  | some c => c.first
  | none => g.lpos

/-- A trap of the lane word on turn (R170), naming lanes. -/
def laneTrap (m : Mach) (code : Nat) (mask : Word) : Mach :=
  let p := m.g.laneTrapPos
  takeTrap m { code := code, tspc := m.g.pc, tlpc := BitVec.ofNat 64 p, fmask := mask, frame := ⟨p, m.g.queue⟩ }

/-- Is an address a legal transfer target (spec/05 R96)? -/
def Group.goodTarget (g : Group) (a : Word) : Bool :=
  a.toNat % 4 == 0 && decide (g.codeLo ≤ a.toNat) && decide (a.toNat < g.codeHi)

/-- Drop finished blocks from the head of the queue. -/
def Group.settle (g : Group) : Group :=
  match g.queue with
  | b :: bs =>
    if b.start + b.count ≤ g.lpos then
      { g with queue := bs, lpos := (bs.head?.map fun b => b.start).getD 0
               heldWords := g.heldWords.map fun h => { h with blocks := h.blocks - 1 } }
    else g
  | [] => g

/-- The lane stream of a frame resumes at an index. -/
def Group.resumeLanes (g : Group) (f : Frame) (pos : Nat) : Group :=
  ({ g with queue := f.blocks, lpos := pos }).settle

/-- `sys.tret` (R176). None: it waits for the handler's own lane words. -/
def trapReturn (m : Mach) : Option Mach :=
  let g := m.g
  if !g.lanesIdle then none
  else
    let illegal := some (takeTrap m { code := cILLEGAL, tspc := g.pc })
    match g.trapFrame with
    | none => illegal
    | some f =>
      if g.nores then illegal
      else
        let none_ := g.tlpc == BitVec.allOnes 64
        let sk := if g.skip then 1 else 0
        let pos := g.tlpc.toNat + sk
        let inside := match f.blocks with
          | b :: _ => decide (b.start ≤ pos) && decide (pos ≤ b.start + b.count)
          | [] => false
        if !none_ && !inside then illegal
        else
          let target := if none_ then g.tspc + (if g.skip then 4 else 0) else g.tspc
          if !g.goodTarget target then some (takeTrap m { code := cBADPC, tspc := g.pc })
          else
            let g := { g with pc := target, trapFrame := none, inHandler := false }
            some { m with g := if none_ then { g with queue := [], lpos := 0 } else g.resumeLanes f pos }

/-! ### Emulation -/

/-- Entry into the emulation handler (spec/02 R32, R36, R178): `e0`-`e3` as given, for a scalar word or a lane word. A trap that is
due of a later scalar word is raised anew by that word, which `%tspc` names. -/
def enterEmulation (m : Mach) (lane : Bool) (e0 e1 e2 e3 : Word) : Option Mach :=
  let g := m.g
  if !lane && !g.lanesIdle then none
  else
    let tlpc : Word := if lane then BitVec.ofNat 64 g.lpos else BitVec.allOnes 64
    let frame : Frame := if lane then ⟨g.lpos, g.queue⟩ else ⟨0, []⟩
    let trap (code : Nat) : Option Mach :=
      some (takeTrap m { code := code, tspc := g.pc, tlpc := tlpc, fmask := if lane then e3 else 0, frame := frame })
    if g.emuFrame.isSome then trap cEMUNEST
    else if g.emuv == 0 then trap cILLEGAL
    else if !g.goodTarget g.emuv then trap cBADPC
    else some { m with g :=
      { g.freeHeld with emuFrame := some frame, tspc := g.pc, tlpc := tlpc, chain := none, e0 := e0, e1 := e1, e2 := e2, e3 := e3
                        queue := [], lpos := 0, pc := g.emuv, dueTrap := none, blocks := [] } }

/-- `sys.emuret` (spec/02 R35, R36): after a lane word, whose frame holds it, the lanes resume at `%tlpc` + 1. The frame, and not
`%tlpc`, tells which word was emulated, so that a `%tlpc` of all ones that the handler wrote is a number like any other, and an
index outside the held block is taken as it stands: the model's choice (notes/assumptions/57). -/
def emulationReturn (m : Mach) : Option Mach :=
  let g := m.g
  if !g.lanesIdle then none
  else match g.emuFrame with
  | none => some (takeTrap m { code := cILLEGAL, tspc := g.pc })
  | some f =>
    let g := { g with emuFrame := none }
    some { m with g :=
      if f.blocks.isEmpty then { g with pc := g.tspc + 4 }
      else { g.resumeLanes f (g.tlpc + 1).toNat with pc := g.tspc } }

end Sys2Proof.Machine
end

