-- ==== Sys2Proof/Machine/Registers.lean ====
section
/-! DEFINITION. The device register space: what a read gives and what a write does (spec/16 R264, R270; spec/18 R299, R300;
spec/21 R330, R337, R341; spec/22 R350, R357, R369). -/

namespace Sys2Proof.Machine

/-- A change of the registers of one die. -/
def CtlRegs.onDie (r : CtlRegs) (d : Nat) (f : DieRegs → DieRegs) : CtlRegs :=
  match d with
  | 0 => { r with die0 := f r.die0 }
  | 1 => { r with die1 := f r.die1 }
  | 2 => { r with die2 := f r.die2 }
  | 3 => { r with die3 := f r.die3 }
  | _ => r

/-- A write of COHCTL (R264): values outside a field's range leave it. -/
def DieRegs.writeCohctl (r : DieRegs) (v : Word) : DieRegs :=
  let t := v.extractLsb' 16 4
  let l := v.extractLsb' 8 8
  { r with tick := if 6 ≤ t.toNat ∧ t.toNat ≤ 12 then t else r.tick, lease := if l = 0 then r.lease else l }

/-- COHCTL as read. -/
def cohctlRead (r : DieRegs) (x : Die) : Word :=
  BitVec.ofNat 64 (2 ^ 20 * (x.epoch % 64) + 65536 * r.tick.toNat + 256 * r.lease.toNat)

/-- CALCFG as read (R270). -/
def calcfgRead (r : DieRegs) : Word :=
  BitVec.ofNat 64 (4096 * r.carve3.toNat + 256 * r.carve2.toNat + 16 * r.carve1.toNat + r.carve0.toNat)

/-- A field of a CALCFG write: a value above 12 keeps the old one. -/
def carveField (old v : BitVec 4) : BitVec 4 := if 12 < v.toNat then old else v

/-- A write of CALCFG starts a change (R271); CALCFG reads the old values until it is done. -/
def calcfgStart (R : CtlRegs) (d : Dev) (die : Nat) (v : Word) : Dev :=
  let r := R.die die
  let x := d.die die
  if x.carveNew.isSome then d
  else d.setDie die { x with carveNew := some [(carveField r.carve0 (v.extractLsb' 0 4)).toNat,
    (carveField r.carve1 (v.extractLsb' 4 4)).toNat, (carveField r.carve2 (v.extractLsb' 8 4)).toNat,
    (carveField r.carve3 (v.extractLsb' 12 4)).toNat] }

/-- Drop every copy of the lines of [lo, hi) (R271, R281). -/
def dropCopies (d : Dev) (lo hi : Nat) : Dev :=
  { d with
    cores := d.cores.map fun (e : Nat × Core) => (e.1, { e.2 with
      copies := e.2.copies.filter fun c => decide (128 * c.1 < lo) || decide (hi ≤ 128 * c.1)
      pushes := e.2.pushes.filter fun c => decide (128 * c.1 < lo) || decide (hi ≤ 128 * c.1) })
    pushes := d.pushes.filter fun p => decide (128 * p.line < lo) || decide (hi ≤ 128 * p.line)
    lines := d.lines.map fun (e : Nat × Line) =>
      (e.1, if lo ≤ 128 * e.1 && 128 * e.1 < hi then { e.2 with owner := none, writer := none, spans := [] } else e.2) }

/-- Every line of [lo, hi) that the host may hold is asked back before a device write (spec/22 R353). -/
def askBackRange (d : Dev) (lo hi : Nat) : Dev :=
  d.pkg.hostHeld.foldl (fun d e => if lo ≤ 128 * e.1 && 128 * e.1 < hi then askBack d e.1 else d) d

/-- Zeroing on a change of owner (spec/16 R281): bytes, tags, poison and copies. -/
def zeroRange (d : Dev) (lo hi : Nat) : Dev := if lo < hi then { dropCopies (askBackRange d lo hi) lo hi with
    mem := d.mem.zero lo hi, errors := d.errors.filter fun e => decide (128 * e.1 < lo) || decide (hi ≤ 128 * e.1)
    syncs := d.syncs.filter fun e => decide (64 * e.1 < lo) || decide (hi ≤ 64 * e.1) } else d

/-- The change of a quarter's carve-out takes place (R271): what is given up or gained is zero. -/
def carveZero (d : Dev) (die q old new : Nat) : Dev :=
  let base := Config.carveBase + (4 * die + q) * Config.carveWindow
  zeroRange d (base + min old new * 2 ^ 22) (base + max old new * 2 ^ 22)

/-- A field of a die's change; in range it is the new value. -/
def carveDone (l : List Nat) (q : Nat) (old : BitVec 4) : BitVec 4 := carveField old (BitVec.ofNat 4 (l.getD q old.toNat))

/-! ### Queues and doorbells (R299, R300) -/

/-- The lowest free slot of a die. -/
def freeSlot (x : Die) : Option Nat := (List.range 64).find? fun i => (x.slots.find? i).isNone

/-- A queue as it stands in a fresh slot. -/
def newSlot (ctx q : Nat) : QSlot := { ctx := ctx, qaddr := q }

/-- Map a queue into a slot: STATE becomes MAPPED. -/
def mapInto (d : Dev) (die slot q : Nat) : Dev :=
  match d.queue? q with
  | none => d
  | some x =>
    let y := d.die die
    let d := d.setDie die { y with slots := y.slots.insert slot (newSlot x.ctx q), pending := y.pending.filter (· ≠ q) }
    let d := { d with queues := d.queues.modify q fun x => { x with mapped := some slot, die := die, pending := false, idleAt := d.time } }
    setQueueState d q 1 none

/-- RDIDX and WRIDX of a queue record (R297). -/
def rdidx (d : Dev) (q : Nat) : Nat := recordNum d q 24 8
def wridx (d : Dev) (q : Nat) : Nat := recordNum d q 16 8

/-- Is a mapped queue idle (R300)? -/
def slotIdle (d : Dev) (s : QSlot) : Bool := rdidx d s.qaddr == wridx d s.qaddr && s.pkt.isNone

/-- The mapped queue that has been idle longest, for at least 10 µs (R300). -/
def evictable (d : Dev) (die : Nat) : Option QSlot :=
  let c := ((d.die die).slots.map fun e => e.2).filter fun s => slotIdle d s && decide (10000 ≤ d.time - ((d.queue? s.qaddr).map fun x => x.idleAt).getD d.time)
  c.foldl (fun best s => match best with
    | none => some s
    | some b => if ((d.queue? s.qaddr).map fun x => x.idleAt).getD 0 < ((d.queue? b.qaddr).map fun x => x.idleAt).getD 0
        then some s else some b) none

/-- The records of the mapped queues are read again (R386). -/
def readMapped (d : Dev) (die : Nat) : Dev := (d.die die).slots.foldl (fun d s => readRecord d s.2.qaddr) d

/-- Room for one more queue (R300): the lowest free slot, or that of the mapped queue that has been idle longest, which returns to
IDLE. -/
def makeSlot (d : Dev) (die : Nat) : Dev × Option Nat :=
  match freeSlot (d.die die) with
  | some i => (d, some i)
  | none =>
    let d := readMapped d die
    match evictable d die with
    | some s =>
      let d := setQueueState (unmapQueue d s.qaddr) s.qaddr 0 none
      (d, freeSlot (d.die die))
    | none => (d, none)

/-- QUEUE_MAP_PENDING (R300): the first pending record is mapped where there is room; records are mapped in doorbell order. -/
def queueMapPending (die : Nat) (d : Dev) : Dev :=
  match (d.die die).pending with
  | [] => d
  | q :: _ =>
    match makeSlot d die with
    | (d, some i) => mapInto d die i q
    | (d, none) => d

/-- A queue joins the pending list, and the first of the list is mapped where there is room (R300). -/
def mapQueue (d : Dev) (die q : Nat) : Dev :=
  let y := d.die die
  queueMapPending die { d.setDie die { y with pending := y.pending ++ [q] } with
    queues := d.queues.modify q fun x => { x with pending := true } }

/-- Count an ignored doorbell, saturating. -/
def dberr (d : Dev) (die : Nat) : Dev :=
  let x := d.die die
  d.setDie die { x with dberr := if x.dberr = BitVec.allOnes 32 then x.dberr else x.dberr + 1 }

/-- Does a partition include quarters of a die? -/
def partOnDie (p : Part) (die : Nat) : Bool := (List.range 4).any fun q => bit p.quarters (4 * die + q)

/-- A doorbell (R299, R300, spec/21 R345, spec/22 R349, R369). `vfPart` is the partition of a virtual function. -/
def ringDoorbell (d : Dev) (die : Nat) (v : Word) (vfPart : Option Nat) : Dev :=
  let q := (v.extractLsb' 0 44).toNat
  if d.pkg.fwState ≠ 0 || (d.pkg.stage == 2 && die ≠ 0) then dberr d die
  else match d.queue? q with
  | none => dberr d die
  | some x =>
    let c := d.ctx x.ctx
    let ok := c.live && partOnDie (d.parts.getD c.part {}) die && (match vfPart with
      | some p => p == c.part
      | none => true)
    if !ok then dberr d die
    else
      -- the producer may return a queue from ERROR to IDLE (R297); behind a port the record is read first
      if x.state = 3 && leaves d (64 * q) then sendRemote d (some x.ctx) 0 0 (64 * q) 64 none false (.bell die q)
      else returned (readRecord d q) die q x
where
  /-- A doorbell takes effect: a queue whose producer has returned it from ERROR is IDLE, and an IDLE queue is mapped. -/
  returned (d : Dev) (die q : Nat) (x : QueueSt) : Dev :=
    let state := if x.state = 3 && recordNum d q 32 1 % 8 = 0 then 0 else x.state
    let d := { d with queues := d.queues.modify q fun x => { x with state := state } }
    if x.mapped.isSome || x.pending || state ≠ 0 then d else mapQueue d die q

/-! ### Reading -/

/-- QSLOTn (R299). -/
def qslotRead (x : Die) (n : Nat) : Word :=
  match x.slots.find? n with
  | some s => BitVec.ofNat 64 (2 ^ 63 + 2 ^ 60 * s.st.toNat + 2 ^ 48 * s.ctx + s.qaddr)
  | none => 0

/-- Is an SPDM-keyed IDE stream open on a port? -/
def swstRead (p : Port) : Word :=
  BitVec.ofNat 64 ((if p.up then 2 ^ 63 else 0) + (if p.ide then 2 ^ 62 else 0) + 2 ^ 32 * p.retry.toNat)

/-- A register of a die's block, by its offset. -/
def dieRegRead (R : CtlRegs) (d : Dev) (die o : Nat) : Word :=
  if o = 0x0100 then cohctlRead (R.die die) (d.die die)
  else if o = 0x0108 then calcfgRead (R.die die)
  else if o = 0x0208 then (d.die die).dberr.zeroExtend 64
  else if 0x1000 ≤ o ∧ o < 0x1200 then qslotRead (d.die die) ((o - 0x1000) / 8)
  else 0

/-- A register of the package block, by its offset. -/
def pkgRegRead (R : CtlRegs) (p : Pkg) (o : Nat) : Word :=
  if o = 0x0010 then BitVec.ofNat 64 (16 * p.fail.toNat + p.stage.toNat)
  else if o = 0x0020 then BitVec.ofNat 64 ((if p.pmBusy then 2 ^ 63 else 0) + 2 ^ 48 * p.pmStatus.toNat)
  else if o = 0x0028 then p.pmArg
  else if o = 0x0040 then p.evBase
  else if o = 0x0048 then BitVec.ofNat 64 (2 ^ 32 * p.evWr.toNat + R.log2n.toNat)
  else if o = 0x0050 then p.evRd.zeroExtend 64
  else if o = 0x0300 then BitVec.ofNat 64 (2 ^ 32 * p.thr.toNat + R.cap.toNat)
  else if o = 0x0400 then BitVec.ofNat 64 (2 ^ 62 * p.fwState.toNat + 2 ^ 48 * p.fwStatus.toNat + 256 * p.fwPend.length)
  else if 0x2000 ≤ o ∧ o < 0x2130 then
    let n := (o - 0x2000) / 16
    if o % 16 = 0 then BitVec.ofNat 64 (2 ^ 44 * (R.win.getD n 1000).toNat + (p.limit.getD n 0).toNat)
    else (p.count.getD n 0).zeroExtend 64
  else if 0x3000 ≤ o ∧ o < 0x4000 then
    let w := p.hat.getD ((o - 0x3000) / 16) (0, 0)
    if o % 16 = 0 then w.1 else w.2
  else if 0x4000 ≤ o ∧ o < 0x4090 then swstRead (p.ports.getD ((o - 0x4000) / 8) {})
  else if o = 0x4100 then BitVec.ofNat 64 ((if p.domValid then 256 else 0) + p.domIndex.toNat)
  else if 0x10000 ≤ o ∧ o < 0x18000 then
    let w := p.fw.getD ((o - 0x10000) / 16) (0, 0)
    if o % 16 = 0 then w.1 else w.2
  else 0

/-- A read of 8 bytes of the register space; unassigned offsets read zero (R330). -/
def regRead (R : CtlRegs) (d : Dev) (a : Nat) : Word :=
  if Config.pkgBase ≤ a then pkgRegRead R d.pkg (a - Config.pkgBase)
  else dieRegRead R d ((a - Config.regBase) / 2 ^ 24) ((a - Config.regBase) % 2 ^ 24)

/-! ### Writing -/

/-- The start of a postmaster command (spec/21 R342): a write of OP while BUSY is ignored, but for FW_SET during an import, which
may be denied (R347); a code without a command answers BADARG. -/
def pmStart (p : Pkg) (v : Word) : Pkg :=
  let op := (v.extractLsb' 0 8).toNat
  if p.pmBusy then (if p.importing.isSome && op = 4 then { p with fwAsked := true } else p)
  else if 1 ≤ op ∧ op ≤ 8 then { p with pmBusy := true, pmOp := v.extractLsb' 0 8 }
  else { p with pmStatus := 1 }

/-- GO of FWACT (spec/22 R369, steps 1 and 2). -/
def fwGo (d : Dev) (v : Word) : Dev :=
  if !(bit v 0) || d.pkg.fwState ≠ 0 then d
  else if !Config.firmwareVerifies d.pkg.pmArg.toNat then { d with pkg := { d.pkg with fwStatus := 4, fwState := 0 } }
  else
    let vs := d.pkg.vfs.map fun e => e.1
    let d := vs.foldl (fun d f => post d evPause f 0 0 0) d
    { d with pkg := { d.pkg with fwState := if vs.isEmpty then 2 else 1, fwPend := vs } }

/-- The accesses in flight through a host window (spec/22 R350). -/
def hatFlights (d : Dev) (n : Nat) : List Nat := (d.remotes.filter fun r => spaceOf r.addr == .host n).map fun r => r.id
/-- Must a write of word 0 wait: for an access in flight, or for a write before it? -/
def hatInFlight (d : Dev) (n : Nat) : Bool := !(hatFlights d n).isEmpty || d.pkg.hatPending.any fun e => e.1 == n

/-- Word 0 of HATWn as a write leaves it: reserved bits zero, LEN at most 524,288 (R350, notes/assumptions/54). -/
def hatWord (v : Word) : Word :=
  let v := v &&& ~~~(0x0001FFFF00000000 : Word)
  if 524288 < (v.extractLsb' 0 32).toNat then (v &&& ~~~(0xFFFFFFFF : Word)) ||| 524288 else v

/-- A write of HATWn (R350): word 0 takes effect after the accesses in flight. Reserved fields read zero. -/
def hatWrite (d : Dev) (n : Nat) (word1 : Bool) (v : Word) : Dev :=
  let w := d.pkg.hat.getD n (0, 0)
  if word1 then
    { d with pkg := { d.pkg with hat := d.pkg.hat.set n (w.1, v &&& ~~~(0x1FFFFF : Word)) (0, 0) } }
  else if hatInFlight d n then { d with pkg := { d.pkg with hatPending := d.pkg.hatPending ++ [(n, v, hatFlights d n)] } }
  else hatApply d n v
where
  /-- The write of word 0; a page that becomes resident lets the waiting accesses check again (R351). -/
  hatApply (d : Dev) (n : Nat) (v : Word) : Dev :=
    let w := d.pkg.hat.getD n (0, 0)
    let v := hatWord v
    { d with pkg := { d.pkg with
        hat := d.pkg.hat.set n (v, w.2) (0, 0)
        hatMiss := if bit v 62 then d.pkg.hatMiss.set n false false else d.pkg.hatMiss
        hatExpired := if bit v 62 then d.pkg.hatExpired.set n false false else d.pkg.hatExpired } }

/-- Clear RETRY of SWSTp (spec/22 R357). -/
def retryClear (d : Dev) (p : Nat) : Dev :=
  { d with pkg := { d.pkg with ports := d.pkg.ports.set p { d.pkg.ports.getD p {} with retry := 0 } {} } }

/-- Clear DBERR (R299). -/
def dberrZero (d : Dev) (die : Nat) : Dev := d.setDie die { d.die die with dberr := 0 }

/-- A write of PWRCAP (R330): CAP in range, THR cleared. -/
def pwrcapReg (old : BitVec 12) (v : Word) : BitVec 12 :=
  let c := v.extractLsb' 0 12
  if 800 ≤ c.toNat ∧ c.toNat ≤ 2200 then c else old

/-- The device side of a register write: everything but the control registers. -/
def regWriteDev (R : CtlRegs) (d : Dev) (a : Nat) (v : Word) : Dev :=
  if Config.pkgBase ≤ a then
    let o := a - Config.pkgBase
    let p := d.pkg
    if o = 0x0020 then { d with pkg := pmStart p v }
    else if o = 0x0028 then { d with pkg := { p with pmArg := v } }
    else if o = 0x0040 then { d with pkg := { p with evBase := v &&& ~~~(0xFFF : Word) } }
    else if o = 0x0050 then { d with pkg := { p with evRd := v.extractLsb' 0 32 } }
    else if o = 0x0300 then { d with pkg := { p with thr := 0 } }
    else if o = 0x0400 then fwGo d v
    else if 0x3000 ≤ o ∧ o < 0x4000 then hatWrite d ((o - 0x3000) / 16) (o % 16 = 8) v
    else if 0x4000 ≤ o ∧ o < 0x4090 then retryClear d ((o - 0x4000) / 8)
    else d
  else
    let die := (a - Config.regBase) / 2 ^ 24
    let o := (a - Config.regBase) % 2 ^ 24
    if o = 0x0100 then freezeLives R d die
    else if o = 0x0108 then calcfgStart R d die v
    else if o = 0x0200 then ringDoorbell d die v none
    else if o = 0x0208 then dberrZero d die
    else d

/-- The control-register side of a register write. -/
def regWriteCtl (R : CtlRegs) (a : Nat) (v : Word) : CtlRegs :=
  if Config.pkgBase ≤ a then
    let o := a - Config.pkgBase
    if o = 0x0048 then (if (v.extractLsb' 0 4).toNat ≤ 10 then { R with log2n := v.extractLsb' 0 4 } else R)
    else if o = 0x0300 then { R with cap := pwrcapReg R.cap v }
    else R
  else if (a - Config.regBase) % 2 ^ 24 = 0x0100 then R.onDie ((a - Config.regBase) / 2 ^ 24) fun r => r.writeCohctl v
  else R

/-- A write of 8 bytes to the register space; unassigned offsets ignore it (R330). -/
def State.writeReg (s : State) (a : Nat) (v : Word) : State :=
  { s with dev := regWriteDev s.regs s.dev a v, regs := regWriteCtl s.regs a v }

end Sys2Proof.Machine
end

