-- ==== Sys2Proof/Machine/DieEvents.lean ====
section
/-! DEFINITION. The events of a die's memory: dropped copies, ticks, epoch turns, control-register writes, changes of the
carve-out, and the arrival of a push (spec/16 R263-R271; spec/17 R286). -/

namespace Sys2Proof.Machine

/-- COPY_DROP (R263): a core drops a shared or pushed copy, by replacement: a pushed copy that nothing has read makes its route
depart (spec/17 R290). -/
def copyDrop (die core l : Nat) (d : Dev) : Dev :=
  let c := d.core (coreKey die core)
  match c.copies.find? l, c.pushes.find? l with
  | some e, _ => if e.excl then d else evictLine d die core l true
  | none, some _ => evictLine d die core l true
  | none, none => d

/-- Every core drops each shared and each pushed copy (LEASE + 1) · 2^TICK cycles after it was placed (R263, R265), with the values
that COHCTL had when it was placed (R264). -/
def dropAged (R : CtlRegs) (d : Dev) : Dev :=
  { d with cores := d.cores.map fun (e : Nat × Core) =>
      let r := R.die (e.1 / Config.coresPerDie)
      let young (c : Copy) : Bool := c.excl || decide (d.time < c.placed + c.life.getD ((r.lease.toNat + 1) * 2 ^ r.tick.toNat))
      (e.1, { e.2 with copies := e.2.copies.filter fun c => young c.2, pushes := e.2.pushes.filter fun c => young c.2 }) }

/-- COPY_DROP (R263). -/
def execCopyDrop (die core line : Nat) (s : State) : Host.Outcome State Fault Refusal :=
  act (fun _ m => { m with d := copyDrop die core line m.d }) s

/-- The limit of logical time: one access adds at most 256, so no timestamp passes 2^40 - 2^24 (R267). -/
def timeLimit : Nat := 2 ^ 40 - 2 ^ 24 - 256

/-- Has some timestamp of a die reached the limit (R267)? -/
def epochDue (d : Dev) (die : Nat) : Bool :=
  d.cores.any (fun e => e.1 / Config.coresPerDie = die && (decide (timeLimit < e.2.pts)
    || e.2.copies.any fun c => homeDie (128 * c.1) = some die && decide (timeLimit < max c.2.wts c.2.rts)))
  || d.lines.any fun e => homeDie (128 * e.1) = some die && decide (timeLimit < max e.2.mwts e.2.mrts)

/-- PTS_TICK (R264): the logical time of every core of the die rises by 1. -/
def ptsTick (die : Nat) (d : Dev) : Dev :=
  if 4 ≤ die || epochDue d die || (d.die die).turning then d
  else (List.range Config.coresPerDie).foldl (fun d c => raisePts d (coreKey die c) ((d.core (coreKey die c)).pts + 1)) d

/-- PTS_TICK (R264). -/
def execPtsTick (die : Nat) (s : State) : Host.Outcome State Fault Refusal :=
  act (fun _ m => { m with d := ptsTick die m.d }) s

/-- EPOCH_TURN (R267): a die whose time would exceed the limit pauses issue. -/
def epochTurn (die : Nat) (d : Dev) : Dev :=
  if 4 ≤ die || !epochDue d die then d else d.setDie die { (d.die die) with turning := true }

/-- EPOCH_TURN (R267). -/
def execEpochTurn (die : Nat) (s : State) : Host.Outcome State Fault Refusal :=
  act (fun _ m => { m with d := epochTurn die m.d }) s

/-- A group's write times of a die that turns. -/
def Group.forgetTimes (g : Group) : Group :=
  { g with unjoined := [], flights := g.flights.map fun (f : Flight) => { f with wts := 0 } }

/-- EPOCH_TURN_COMPLETE (R267): copies of the die's own lines are gone, pushes not yet read with them (spec/17 R295); every
timestamp of the die, RMAX among them (spec/21 R332), is 0, and EPOCH is one more. -/
def epochTurnComplete (die : Nat) (m : Mach) : Mach :=
  if !(m.d.die die).turning then m
  else
    let d := m.d
    let own (l : Nat) : Bool := homeDie (128 * l) = some die
    let x := d.die die
    let cl (t : Nat) (y : Cluster) : Cluster :=
      if t / Config.clustersPerDie = die then { y with copies := y.copies.map fun (o : CopyOp) => { o with wts := 0 } } else y
    let d := { d with
      cores := d.cores.map fun (e : Nat × Core) => (e.1, { e.2 with
        pts := if e.1 / Config.coresPerDie = die then 0 else e.2.pts
        copies := e.2.copies.filter fun c => !own c.1
        pushes := e.2.pushes.filter fun c => !own c.1 })
      lines := d.lines.map fun (e : Nat × Line) => (e.1, if own e.1 then { e.2 with mwts := 0, mrts := 0, owner := none } else e.2)
      clusters := d.clusters.map fun (e : Nat × Cluster) => (e.1, cl e.1 e.2)
      pushes := d.pushes.filter fun p => !own p.line }
    let d := d.setDie die { x with
      turning := false, epoch := x.epoch + 1, rmax := 0, feTime := 0, coll := x.coll.map fun (o : ClOp) => { o with wts := 0 } }
    ({ m with d := d } : Mach).onGroups (fun g => g.die = die) Group.forgetTimes

/-- EPOCH_TURN_COMPLETE (R267). -/
def execEpochTurnComplete (die : Nat) (s : State) : Host.Outcome State Fault Refusal :=
  act (fun _ m => epochTurnComplete die m) s

/-- COHCTL_WRITE (R264). -/
def execCohctlWrite (die : Nat) (v : Word) (s : State) : Host.Outcome State Fault Refusal :=
  .next { s with regs := s.regs.onDie die fun r => r.writeCohctl v, dev := freezeLives s.regs s.dev die }

/-- CALCFG_WRITE (R271): a change of the carve-out begins. -/
def execCalcfgWrite (die : Nat) (v : Word) (s : State) : Host.Outcome State Fault Refusal :=
  act (fun R m => if 4 ≤ die then m else { m with d := calcfgStart R m.d die v }) s

/-- The fields of a change take their new values. -/
def DieRegs.carved (r : DieRegs) (l : List Nat) : DieRegs :=
  { r with carve0 := carveDone l 0 r.carve0, carve1 := carveDone l 1 r.carve1, carve2 := carveDone l 2 r.carve2
           carve3 := carveDone l 3 r.carve3 }

/-- CARVE_CHANGE_DONE (R271): bytes given up or gained are zero, and the register reads the new values. -/
def execCarveChangeDone (die : Nat) (s : State) : Host.Outcome State Fault Refusal :=
  match (s.dev.die die).carveNew with
  | none => .next s
  | some l =>
    let r := s.regs.die die
    let r' := r.carved l
    let d := (List.range 4).foldl (fun d q => carveZero d die q (r.carve q) (r'.carve q)) s.dev
    s.adopt { s with
      dev := d.setDie die { (d.die die) with carveNew := none }
      regs := s.regs.onDie die fun r => r.carved l }

/-- PUSH_ARRIVAL (spec/17 R286): the pushed copy is placed, unless the core holds one as new. -/
def pushArrival (id : Nat) (d : Dev) : Dev :=
  match d.pushes.find? fun p => p.id == id with
  | none => d
  | some p =>
    let d := { d with pushes := d.pushes.filter fun q => q.id ≠ id }
    let c := d.core p.core
    let newer (t : Tab Copy) : Bool := match t.find? p.line with
      | some e => decide (p.copy.wts ≤ e.wts)
      | none => false
    if newer c.copies || newer c.pushes then d
    else
      let die := p.core / Config.coresPerDie
      let d := makeRoom d die (p.core % Config.coresPerDie) p.line
      d.setCore p.core { (d.core p.core) with pushes := (d.core p.core).pushes.insert p.line { p.copy with placed := d.time } }

/-- PUSH_ARRIVAL (R286). -/
def execPushArrival (push : Nat) (s : State) : Host.Outcome State Fault Refusal :=
  act (fun _ m => { m with d := pushArrival push m.d }) s

end Sys2Proof.Machine
end

