-- ==== Sys2Proof/Machine/CapWords.lean ====
section
/-! DEFINITION. Scalar capability words: derivation, inspection, sealing and opening (spec/08 R155-R161). -/

namespace Sys2Proof.Machine

/-- A derivation that never traps. -/
def capMove (f : Group → Cap → Cap) (d a : CReg) (s : State) : Host.Outcome State Fault Refusal :=
  onGroup (fun g => g.capResult d (f g (g.rc a.toNat))) s

/-- A derivation that may trap: the result or the cause; a trapping word leaves `c`D unchanged (R157). -/
def capDerive (f : Group → Cap → Except Nat Cap) (d a : CReg) (s : State) : Host.Outcome State Fault Refusal :=
  actOrWait (fun _ m =>
    match f m.g (m.g.rc a.toNat) with
    | .ok c => some { m with g := m.g.capResult d c }
    | .error cause => scalarTrap m cause) s

/-- An inspection (R159), which never traps. -/
def capGet (f : Cap → Word) (d : SReg) (a : CReg) (s : State) : Host.Outcome State Fault Refusal :=
  onGroup (fun g => g.result d (f (g.rc a.toNat))) s

/-- A derivation of an untagged or a well-formed, unsealed source (R156). -/
def derived (c : Cap) (x : Cap) : Except Nat Cap :=
  match c.derivable with
  | some cause => .error cause
  | none => .ok x

/-- The result of `c.addc` (R156). -/
def Cap.addc (c : Cap) (b : Word) : Cap := c.moveTo (((c.cursor : Int) + b.toInt) % (2 ^ 50 : Nat)).toNat true
/-- The result of `c.setc` (R156). -/
def Cap.setc (c : Cap) (b : Word) : Cap := c.moveTo (b.toNat % 2 ^ 50) (decide (b.toNat < 2 ^ 50))
/-- The result of `c.andp` (R156). -/
def Cap.andp (c : Cap) (b : BitVec 12) : Cap := c.withField 102 12 (c.perms &&& b).toNat

/-- `c.mov` (R156). -/
def execCMov (d a : CReg) (s : State) : Host.Outcome State Fault Refusal := capMove (fun _ c => c) d a s
/-- `c.setb` (R157). -/
def execCSetb (d a : CReg) (b : SReg) (s : State) : Host.Outcome State Fault Refusal :=
  capDerive (fun g c => c.setb (g.rs b.toNat).toNat false) d a s
/-- `c.setb.out` (R157). -/
def execCSetbOut (d a : CReg) (b : SReg) (s : State) : Host.Outcome State Fault Refusal :=
  capDerive (fun g c => c.setb (g.rs b.toNat).toNat true) d a s
/-- `c.addc` (R156). -/
def execCAddc (d a : CReg) (b : SReg) (s : State) : Host.Outcome State Fault Refusal :=
  capDerive (fun g c => derived c (c.addc (g.rs b.toNat))) d a s
/-- `c.setc` (R156). -/
def execCSetc (d a : CReg) (b : SReg) (s : State) : Host.Outcome State Fault Refusal :=
  capDerive (fun g c => derived c (c.setc (g.rs b.toNat))) d a s
/-- `c.andp` (R156). -/
def execCAndp (d a : CReg) (b : SReg) (s : State) : Host.Outcome State Fault Refusal :=
  capDerive (fun g c => derived c (c.andp ((g.rs b.toNat).extractLsb' 0 12))) d a s
/-- `c.setk` (R158). -/
def execCSetk (d a : CReg) (b : SReg) (s : State) : Host.Outcome State Fault Refusal :=
  capDerive (fun g c => c.setk ((g.rs b.toNat).toNat % 16)) d a s
/-- `c.cleart` (R156). -/
def execCCleart (d a : CReg) (s : State) : Host.Outcome State Fault Refusal :=
  capMove (fun _ c => { c with tag := false }) d a s
/-- `c.getbase` (R159). -/
def execCGetbase (d : SReg) (a : CReg) (s : State) : Host.Outcome State Fault Refusal := capGet (fun c => BitVec.ofInt 64 c.base) d a s
/-- `c.getlen` (R159). -/
def execCGetlen (d : SReg) (a : CReg) (s : State) : Host.Outcome State Fault Refusal := capGet (fun c => BitVec.ofInt 64 (c.top - c.base)) d a s
/-- `c.getcur` (R159). -/
def execCGetcur (d : SReg) (a : CReg) (s : State) : Host.Outcome State Fault Refusal := capGet (fun c => BitVec.ofNat 64 c.cursor) d a s
/-- `c.getp` (R159). -/
def execCGetp (d : SReg) (a : CReg) (s : State) : Host.Outcome State Fault Refusal := capGet (fun c => c.perms.zeroExtend 64) d a s
/-- `c.getk` (R159). -/
def execCGetk (d : SReg) (a : CReg) (s : State) : Host.Outcome State Fault Refusal := capGet (fun c => BitVec.ofNat 64 c.kind) d a s
/-- `c.getcol` (R159). -/
def execCGetcol (d : SReg) (a : CReg) (s : State) : Host.Outcome State Fault Refusal := capGet (fun c => BitVec.ofNat 64 c.colour) d a s
/-- `c.gett` (R159). -/
def execCGett (d : SReg) (a : CReg) (s : State) : Host.Outcome State Fault Refusal := capGet (fun c => boolWord c.tag) d a s
/-- `c.getlim` (R159). The limit, with its minimum with 2^50, is taken on exact integers and then cut to 64 bits: the model's choice
for untagged values of a large E (notes/assumptions/56). -/
def execCGetlim (d : SReg) (a : CReg) (s : State) : Host.Outcome State Fault Refusal := capGet (fun c => BitVec.ofInt 64 c.limit) d a s
/-- `c.seal` (R160). -/
def execCSeal (d a : CReg) (b : SReg) (s : State) : Host.Outcome State Fault Refusal :=
  capDerive (fun g c => c.seal g.colour ((g.rs b.toNat).toNat % 1024)) d a s
/-- `c.open` (R160). -/
def execCOpen (d a b : CReg) (s : State) : Host.Outcome State Fault Refusal :=
  capDerive (fun g c => c.openWith (g.rc b.toNat) g.colour) d a s

/-- The rounded length of `c.rlen` (R161). -/
def rlen (a : Word) : Word :=
  let x := min a.toNat (2 ^ 50)
  BitVec.ofNat 64 (ceilDiv x (2 ^ rlenE x) * 2 ^ rlenE x)
/-- The mask of `c.ralign` (R161). -/
def ralign (a : Word) : Word := ~~~(BitVec.ofNat 64 (2 ^ rlenE (min a.toNat (2 ^ 50)) - 1))

/-- `c.rlen` (R161). -/
def execCRlen (d a : SReg) (s : State) : Host.Outcome State Fault Refusal :=
  onGroup (fun g => g.result d (rlen (g.rs a.toNat))) s
/-- `c.ralign` (R161). -/
def execCRalign (d a : SReg) (s : State) : Host.Outcome State Fault Refusal :=
  onGroup (fun g => g.result d (ralign (g.rs a.toNat))) s

end Sys2Proof.Machine
end

