-- ==== Sys2Proof/Machine/Phasor.lean ====
section
/-! DEFINITION. Phasors: codes, unit-vector tables, products, reductions, compares and conversions (spec/03 R53-R58).
Sines, cosines and angles are computed in fixed point, far finer than the roundings that the spec asks for; a rounding
result at such a fineness is the exact one unless the exact value lies within the fineness of a tie, and the ties that
can occur (the multiples of a right angle, and of half of one) are computed exactly (notes/assumptions/15). -/

namespace Sys2Proof.Machine

/-- π × 2^640, rounded to an integer. -/
def piFix : Nat := 14333329926761567455775730701799299831126131522901418329710873694248203755857903894978459978948837038337184470360789102305252273090192709030764248428292776480232102476327552185579501988876367276

/-- π in fixed point with p fraction bits, p at most 640. -/
def piAt (p : Nat) : Int := ((piFix / 2 ^ (640 - p) : Nat) : Int)

/-- The Taylor sum t + t·(−r²)/((k+1)(k+2)) + …, in fixed point with p fraction bits. -/
def taylor (p : Nat) (r2 : Int) : Nat → Nat → Int → Int → Int
  | 0, _, _, acc => acc
  | fuel + 1, k, t, acc =>
    let t' := -(t * r2 / 2 ^ p) / (((k + 1) * (k + 2) : Nat) : Int)
    taylor p r2 fuel (k + 2) t' (acc + t')

/-- Sine and cosine of an angle of at most π/2, fixed point with p fraction bits. -/
def sinFix (p : Nat) (r : Int) : Int := taylor p (r * r / 2 ^ p) (p / 4 + 6) 1 r r
def cosFix (p : Nat) (r : Int) : Int := taylor p (r * r / 2 ^ p) (p / 4 + 6) 0 (2 ^ p) (2 ^ p)

/-- A fixed-point value of p fraction bits rounded to a multiple of 2^-17, half to even. -/
def roundFix (p : Nat) (x : Int) : Int :=
  let r := roundNat 0 (decide (x < 0)) (x.natAbs * 2 ^ 17) (2 ^ p)
  if x < 0 then -(r.1 : Int) else r.1

/-- The cosine entry for i in the first quadrant, 0 to 8,192 (R54). -/
def cosQuarter (i : Nat) : Int :=
  if i = 8192 then 0
  else if i ≤ 4096 then roundFix 96 (cosFix 96 (piAt 96 * i / 16384))
  else roundFix 96 (sinFix 96 (piAt 96 * ((8192 - i : Nat) : Int) / 16384))

/-- Entry i of the cosine table: cos(2πi/32,768) × 2^17, rounded half-even (R54). -/
def cosEntry (i : Nat) : Int :=
  let i := i % 32768
  if i ≤ 8192 then cosQuarter i
  else if i ≤ 16384 then -cosQuarter (16384 - i)
  else if i ≤ 24576 then -cosQuarter (i - 16384)
  else cosQuarter (32768 - i)

/-- Entry i of the sine table (R54). -/
def sinEntry (i : Nat) : Int := cosEntry (i + 24576)

/-- Angle bits of a phasor type: 7 for P8 (code 12), 15 for P16 (R53). -/
def phBits (ty : Nat) : Nat := if ty = 12 then 7 else 15

/-- The angle of a code; none where U = 1 (R53). -/
def phAngle (ty : Nat) (x : Nat) : Option Nat :=
  let n := phBits ty
  if x / 2 ^ n % 2 = 1 then none else some (x % 2 ^ n)

/-- The canonical undefined code: 0x80 or 0x8000 (R53). -/
def phUndef (ty : Nat) : Nat := 2 ^ phBits ty

/-- The table index of an angle: a for P16, 256·a for P8 (R54). -/
def phIndex (ty a : Nat) : Nat := if ty = 12 then 256 * a else a

/-- The product of two phasors of one type (R55). -/
def phMul (ty : Nat) (x y : Nat) : Option Nat :=
  match phAngle ty x, phAngle ty y with
  | some a, some b => some ((a + b) % 2 ^ phBits ty)
  | _, _ => none

/-- One term of the arctangent sum Σ 2^(2k)(k!)²/(2k+1)! · t^(2k+1)/(1+t²)^(k+1): each is the last times
2k/(2k+1) · y²/(x²+y²). -/
def atanSum (n d : Nat) : Nat → Nat → Nat → Nat → Nat
  | 0, _, _, acc => acc
  | fuel + 1, k, t, acc =>
    let t' := t * (2 * k) * n / ((2 * k + 1) * d)
    atanSum n d fuel (k + 1) t' (acc + t')

/-- atan(y/x) for 0 ≤ y ≤ x, x > 0, with p fraction bits. -/
def atanFix (p y x : Nat) : Nat :=
  let d := x * x + y * y
  let t := x * y * 2 ^ p / d
  atanSum (y * y) d (p + 8) 1 t t

/-- The angle of (x, y) as a fraction of a half turn: (n, d) with atan2(y, x) = π·n/d in [0, 2π), where the angle is
exact for the multiples of π/4 and otherwise carries p = 320 fraction bits. -/
def angleFrac (y x : Int) : Nat × Nat :=
  let ax := x.natAbs
  let ay := y.natAbs
  let p := 320
  let piN := (piAt p).toNat
  -- the angle from the x axis in the first quadrant, as a fraction of π
  let q : Nat × Nat :=
    if ay = 0 then (0, 1)
    else if ax = 0 then (1, 2)
    else if ax = ay then (1, 4)
    else if ay < ax then (atanFix p ay ax, piN)
    else (piN - 2 * atanFix p ax ay, 2 * piN)
  if 0 ≤ x && 0 ≤ y then q
  else if x < 0 && 0 ≤ y then (q.2 - q.1, q.2)
  else if x < 0 then (q.2 + q.1, q.2)
  else (2 * q.2 - q.1, q.2)

/-- The bits of a number below 2^n, from the top: the integer square root by trial (the bit i is kept where the square
still fits). -/
def isqrtBits (x : Nat) : Nat → Nat → Nat
  | 0, r => r
  | i + 1, r => isqrtBits x i (if (r + 2 ^ i) * (r + 2 ^ i) ≤ x then r + 2 ^ i else r)

/-- Floor of the square root. -/
def isqrt (x : Nat) : Nat := isqrtBits x (Nat.log2 x / 2 + 1) 0

/-- round(65,536 × √s / (2^17·N)) to nearest, ties to even, saturating at 0xFFFF (R56). Doubling before the root makes
the comparison with a half exact. -/
def coherence (s N : Nat) : Nat :=
  let q := isqrt (s * 2 ^ 34 / (2 ^ 34 * N * N))
  -- q = floor(65,536·2·√s / (2^17·N))
  let exact := decide (q * q * (2 ^ 34 * N * N) = s * 2 ^ 34)
  let m := q / 2
  let up := q % 2 = 1 && (!exact || m % 2 = 1)
  min 0xFFFF (if up then m + 1 else m)

/-- The reduction of R56 from the sums X, Y and the number N of defined inputs: angle and coherence; none where it is
undefined. -/
def phResolve (ty : Nat) (x y : Int) (N : Nat) : Option (Nat × Nat) :=
  if N = 0 || (x = 0 && y = 0) then none
  else
    let n := phBits ty
    let (an, ad) := angleFrac y x
    -- a = (π·an/ad)·2^n/(2π)
    let a := (roundNat 0 false (an * 2 ^ n) (2 * ad)).1 % 2 ^ n
    some (a, coherence (x * x + y * y).toNat N)

/-- Is the angle of (x, y) a code exactly? The tangent of a rational part of a turn is rational only at the multiples of π/4,
and those are codes of both formats. -/
def angleExact (x y : Int) : Bool := x == 0 || y == 0 || x.natAbs == y.natAbs

/-- The events of a reduction (spec/03 R61): PUND where it is undefined, INX where its angle is rounded. The coherence is an
`.n16` fraction and counts nothing (notes/assumptions/15). -/
def resolveEv (ty : Nat) (x y : Int) (N : Nat) : Ev :=
  if (phResolve ty x y N).isNone then evPund else if angleExact x y then evNone else evInx

/-- The packing of `v.pres`: the phasor in [15:0], the coherence in [31:16] (R121). -/
def phPack (ty : Nat) (r : Option (Nat × Nat)) : Nat :=
  match r with
  | some (a, c) => a + 65536 * c
  | none => phUndef ty

/-- FP to phasor (R58): round(x × 2^n / 2π) mod 2^n under RM. -/
def numToPhasor (ty rm : Nat) (x : Num) : Nat × Ev :=
  match x with
  | .nan _ => (phUndef ty, evInv ||| evPund)
  | .inf _ => (phUndef ty, evInv ||| evPund)
  | .fin neg n d =>
    let r := roundInt rm neg (n * 2 ^ (phBits ty) * 2 ^ 640) (2 * piFix * d)
    ((r.1 % ((2 ^ phBits ty : Nat) : Int)).toNat, if r.2 then evInx else evNone)

/-- Phasor to FP (R58): 2π·a/2^n rounded under RM; an undefined source gives the canonical NaN, with no event. -/
def phasorToNum (ty rm : Nat) (f : Fmt) (fz : Bool) (x : Nat) : Nat × Ev :=
  match phAngle ty x with
  | none => (f.nanBits, evNone)
  | some a => f.round rm fz false (2 * piFix * a) (2 ^ (phBits ty) * 2 ^ 640)

/-- P8 to P16, exact (R58). -/
def p8ToP16 (x : Nat) : Nat × Ev :=
  match phAngle 12 x with
  | none => (phUndef 13, evPund)
  | some a => (a * 256, evNone)

/-- P16 to P8: round(a/256) mod 128 under RM (R58). -/
def p16ToP8 (rm : Nat) (x : Nat) : Nat × Ev :=
  match phAngle 13 x with
  | none => (phUndef 12, evPund)
  | some a =>
    let r := roundNat rm false a 256
    (r.1 % 128, if r.2 then evInx else evNone)

/-- The columns of a wrap-safe compare (R57): equal, a less than b, b less than a, unordered. -/
structure PhCmp where
  eq : Bool
  lt : Bool
  gt : Bool
  un : Bool
  deriving DecidableEq, Repr

/-- The wrap-safe compare of two codes (R57). -/
def phCompare (ty x y : Nat) : PhCmp :=
  match phAngle ty x, phAngle ty y with
  | some a, some b =>
    let m := 2 ^ phBits ty
    let d := (b + m - a) % m
    ⟨d = 0, 0 < d && d < m / 2, m / 2 < d, d = m / 2⟩
  | _, _ => ⟨false, false, false, true⟩

end Sys2Proof.Machine
end

