-- ==== Sys2Proof/Machine/Cordic.lean ====
section
/-! DEFINITION. The CORDIC family (spec/06 R123-R125): exact values as fixed-point fractions, the bound of each class,
and the special inputs. The position of the internal result inside its bound is the free value `Config.cordic`
(notes/assumptions/10). -/

namespace Sys2Proof.Machine

/-- ln 2 × 2^640, rounded to an integer. -/
def ln2Fix : Nat := 3162442850577000144542819255265044123884198300717798677536341180773118696995660441338367561063358767323571958122307070903190084685977847936741854327993944726832264493303953239866611699627604095

/-- Fraction bits of the CORDIC fixed point. -/
def cfx : Nat := 640

/-- The ten functions of the family (R123). -/
inductive CordicFn where
  | sin | cos | atan2 | exp | ln | tanh | sigm | sqrt | rsq | div
  deriving DecidableEq, Repr

/-- OP10 of a CORDIC word (R123). -/
def CordicFn.op10 : CordicFn → Nat
  | .sin => 0x180 | .cos => 0x181 | .atan2 => 0x182 | .exp => 0x183 | .ln => 0x184
  | .tanh => 0x185 | .sigm => 0x186 | .sqrt => 0x187 | .rsq => 0x188 | .div => 0x189

/-- Does the bound of the word scale with the value (R123)? -/
def CordicFn.relative : CordicFn → Bool
  | .sin | .cos | .atan2 => false
  | _ => true

/-- The Taylor sum of e^r, terms t, t·r/(k+1), … in fixed point. -/
def expSum (r : Nat) : Nat → Nat → Nat → Nat → Nat
  | 0, _, _, acc => acc
  | fuel + 1, k, t, acc =>
    let t' := t * r / 2 ^ cfx / (k + 1)
    expSum r fuel (k + 1) t' (acc + t')

/-- e^x of a signed fixed-point x, as a fraction. Far outside the range of every format the value is a stand-in that
rounds alike: 2^300 above 200, and 0 below −400. -/
def expFrac (x : Int) : Nat × Nat :=
  if (200 * 2 ^ cfx : Nat) < x then (2 ^ 300, 1)
  else if x < -((400 * 2 ^ cfx : Nat) : Int) then (0, 1)
  else
    let k := x / (ln2Fix : Int)
    let r := (x % (ln2Fix : Int)).toNat
    let m := expSum r 150 0 (2 ^ cfx) (2 ^ cfx)
    let p := pow2 (k - (cfx : Nat))
    (m * p.1, p.2)

/-- The sum z + z³/3 + z⁵/5 + …, in fixed point. -/
def atanhSum (z2 : Nat) : Nat → Nat → Nat → Nat → Nat
  | 0, _, _, acc => acc
  | fuel + 1, k, t, acc =>
    let t' := t * z2 / 2 ^ cfx
    atanhSum z2 fuel (k + 2) t' (acc + t' / (k + 2))

/-- ln(n/d) in fixed point, n, d > 0. -/
def lnFix (n d : Nat) : Int :=
  let e := floorLog2 n d
  let p := pow2 (-e)
  let mn := n * p.1
  let md := d * p.2
  let z := (mn - md) * 2 ^ cfx / (mn + md)
  e * (ln2Fix : Int) + 2 * (atanhSum (z * z / 2 ^ cfx) 200 1 z z : Int)

/-- Sine or cosine of an angle in fixed point: the argument modulo a quarter turn, then the Taylor sum. -/
def trigFix (cosine : Bool) (x : Int) : Int :=
  let half := (piFix : Int) / 2
  let q := x / half
  let r := x % half
  let q4 := ((q + (if cosine then 1 else 0)) % 4).toNat
  match q4 with
  | 0 => sinFix cfx r
  | 1 => cosFix cfx r
  | 2 => -sinFix cfx r
  | _ => -cosFix cfx r

/-- A finite value in fixed point. -/
def toFix (neg : Bool) (n d : Nat) : Int :=
  let m := ((n * 2 ^ cfx / d : Nat) : Int)
  if neg then -m else m

/-- √(n/d) as a fraction: exact where n/d is the square of a fraction. -/
def sqrtFrac (n d : Nat) : Nat × Nat :=
  let r := isqrt (n * d)
  if r * r = n * d then (r, d) else (isqrt (n * 2 ^ (2 * cfx) / d), 2 ^ cfx)

/-- atan2 of two finite values of which neither is zero, as a signed fraction. -/
def atan2Frac (yn : Bool) (y yd : Nat) (xn : Bool) (x xd : Nat) : SFrac :=
  let yi : Int := ((y * xd : Nat) : Int)
  let xi : Int := if xn then -((x * yd : Nat) : Int) else ((x * yd : Nat) : Int)
  let a := angleFrac yi xi
  SFrac.of yn (a.1 * piFix) (a.2 * 2 ^ cfx)

/-- What a CORDIC word computes for its source values: a special result with its events, a multiple k·π/4 that is
rounded alone, or an exact value f with the test of an exact result (R124). -/
inductive CordicCase where
  | bits (b : Nat) (e : Ev)
  | quarterPi (neg : Bool) (k : Nat)
  | value (f : SFrac)
  deriving DecidableEq, Repr

/-- The special inputs and exact values of R124. `v.div` of ±0 by a finite nonzero b, and of ±∞ by a finite b, stand in no row of its
table: they give the signed 0 or ∞, with no displacement and no event, the model's choice (notes/assumptions/10). -/
def cordicCase (f : Fmt) (fn : CordicFn) (a b : Num) : CordicCase :=
  let nan (e : Ev) : CordicCase := .bits f.nanBits e
  let zero (neg : Bool) : CordicCase := .bits (f.signed neg 0) evNone
  let inf (neg : Bool) : CordicCase := .bits (f.signed neg f.infBits) evNone
  let one (neg : Bool) : CordicCase := .bits (f.signed neg (f.bias * 2 ^ f.fb)) evNone
  match fn with
  | .sin | .cos =>
    match a with
    | .nan _ => nan a.sigEv
    | .inf _ => nan evInv
    | .fin neg n d =>
      if n = 0 then (if fn = .sin then zero neg else one false)
      else .value ⟨trigFix (fn = .cos) (toFix neg n d), 2 ^ cfx⟩
  | .atan2 =>
    match a, b with
    | .nan _, _ | _, .nan _ => nan (a.sigEv ||| b.sigEv)
    | .inf y, .inf x => .quarterPi y (if x then 3 else 1)
    | .inf y, .fin .. => .quarterPi y 2
    | .fin y _ _, .inf x => if x then .quarterPi y 4 else zero y
    | .fin y n d, .fin x m e =>
      if n = 0 then (if x then .quarterPi y 4 else zero y)
      else if m = 0 then .quarterPi y 2
      else .value (atan2Frac y n d x m e)
  | .exp =>
    match a with
    | .nan _ => nan a.sigEv
    | .inf neg => if neg then zero false else inf false
    | .fin neg n d =>
      if n = 0 then one false
      else let r := expFrac (toFix neg n d); .value ⟨r.1, r.2⟩
  | .ln =>
    match a with
    | .nan _ => nan a.sigEv
    | .inf neg => if neg then nan evInv else inf false
    | .fin neg n d =>
      if n = 0 then inf true
      else if neg then nan evInv
      else if n = d then zero false
      else .value ⟨lnFix n d, 2 ^ cfx⟩
  | .tanh =>
    match a with
    | .nan _ => nan a.sigEv
    | .inf neg => one neg
    | .fin neg n d =>
      if n = 0 then zero neg
      else
        let r := expFrac (2 * toFix neg n d)
        .value ⟨(r.1 : Int) - r.2, r.1 + r.2⟩
  | .sigm =>
    match a with
    | .nan _ => nan a.sigEv
    | .inf neg => if neg then zero false else one false
    | .fin neg n d =>
      if n = 0 then .bits ((f.bias - 1) * 2 ^ f.fb) evNone
      else
        let r := expFrac (toFix neg n d)
        .value ⟨r.1, r.1 + r.2⟩
  | .sqrt =>
    match a with
    | .nan _ => nan a.sigEv
    | .inf neg => if neg then nan evInv else inf false
    | .fin neg n d =>
      if n = 0 then zero neg
      else if neg then nan evInv
      else let r := sqrtFrac n d; .value ⟨r.1, r.2⟩
  | .rsq =>
    match a with
    | .nan _ => nan a.sigEv
    | .inf neg => if neg then nan evInv else zero false
    | .fin neg n d =>
      if n = 0 then inf neg
      else if neg then nan evInv
      else let r := sqrtFrac d n; .value ⟨r.1, r.2⟩
  | .div =>
    match a, b with
    | .nan _, _ | _, .nan _ => nan (a.sigEv ||| b.sigEv)
    | .inf _, .inf _ => nan evInv
    | .inf x, .fin y _ _ => inf (x != y)
    | .fin x _ _, .inf y => zero (x != y)
    | .fin x n d, .fin y m e =>
      if m = 0 then (if n = 0 then nan evInv else inf (x != y))
      else if n = 0 then zero (x != y)
      else .value (SFrac.of (x != y) (n * e) (d * m))

/-- Is a finite nonzero result r the exact value of the function? Only the algebraic functions have such results. -/
def cordicExact (fn : CordicFn) (a b r : Num) : Bool :=
  match fn, a, b, r with
  | .sqrt, .fin _ n d, _, .fin s p q => !s && decide (p * p * d = q * q * n)
  | .rsq, .fin _ n d, _, .fin s p q => !s && decide (p * p * n = q * q * d)
  | .div, .fin x n d, .fin y m e, .fin s p q => s == (x != y) && decide (p * m * d = q * e * n)
  | _, _, _, _ => false

/-- The width of the bound of a value (R124): absolute 2^(1−n), or relative 2^(2−n) times |f|, or times the smallest
normal number where f is not a normal number. -/
def cordicBound (f : Fmt) (fn : CordicFn) (n : Nat) (x : SFrac) : SFrac :=
  if fn.relative then
    let minN := pow2 (1 - (f.bias : Int))
    let maxN := f.read false f.maxBits
    let inNormal := decide (minN.1 * x.den ≤ x.num.natAbs * minN.2) &&
      (match maxN with
        | .fin _ p q => decide (x.num.natAbs * q ≤ p * x.den)
        | _ => false)
    if inNormal then ⟨4 * (x.num.natAbs : Int), x.den * 2 ^ n⟩ else ⟨4 * (minN.1 : Int), minN.2 * 2 ^ n⟩
  else ⟨2, 2 ^ n⟩

/-- The internal result y: the exact value moved inside its bound by the free value (R124, R125). A quotient is exact,
as is a root of the square of a fraction; the other values stand in fixed point, finer than 2^-500 of the bound (notes/assumptions/10). -/
def cordicY (f : Fmt) (fn : CordicFn) (n : Nat) (free : Int) (x : SFrac) : SFrac :=
  let c := max (-(2 ^ 256 : Int)) (min (2 ^ 256 : Int) free)
  let b := cordicBound f fn n x
  x.add ⟨b.num * c, b.den * 2 ^ 256⟩

/-- A CORDIC word on source patterns (R124): the result's bits and the events. -/
def cordic (fn : CordicFn) (ty n : Nat) (fz : Bool) (a b : BitVec 32) : Nat × Ev :=
  let f := fmtOf ty
  let pa := a.toNat % 2 ^ f.width
  let pb := b.toNat % 2 ^ f.width
  let na := f.read fz pa
  let nb := f.read fz pb
  match cordicCase f fn na nb with
  | .bits r e => (r, e)
  | .quarterPi neg k => f.round 0 fz neg (piFix * k) (4 * 2 ^ cfx)
  | .value x =>
    let y := cordicY f fn n (Config.cordic fn.op10 ty n fz (BitVec.ofNat 32 pa) (BitVec.ofNat 32 pb)) x
    let (r, e) := f.roundS 0 fz false y
    if cordicExact fn na nb (f.read false r) then (r, evNone)
    else
      let tiny := decide ((y.num.natAbs : Nat) * (pow2 ((f.bias : Int) - 1)).1 < y.den)
      (r, e ||| evInx ||| (if tiny then evUnf else evNone))

end Sys2Proof.Machine
end

