-- ==== Sys2Proof/Machine/D8.lean ====
section
/-! DEFINITION. D8, the decimal-marker format, its block scales and its conversions (spec/03 R48-R52). -/

namespace Sys2Proof.Machine

/-- A power of ten with an integer exponent, as a fraction. -/
def pow10 (e : Int) : Nat × Nat := if 0 ≤ e then (10 ^ e.toNat, 1) else (1, 10 ^ (-e).toNat)

/-- F, f and D of a nonzero body (R48), from its marker k, the position of its highest set bit. -/
def d8Fields (body : Nat) : Nat × Nat × Int :=
  let k := Nat.log2 body
  let r := body - 2 ^ k
  match k with
  | 6 => (r % 32, 5, if r / 32 = 0 then 0 else -1)
  | 5 => (r % 8, 3, [1, 2, -2, -3].getD (r / 8) 0)
  | 4 => (r % 4, 2, [3, 4, -4, -5].getD (r / 4) 0)
  | 3 => (r % 2, 1, [5, 6, -6, -7].getD (r / 2) 0)
  | 2 => (0, 0, [7, 8, -8, -9].getD r 0)
  | 1 => (0, 0, [9, -10].getD r 0)
  | _ => (0, 0, 10)

/-- The magnitude of a nonzero body: (1 + 9F/2^f) × 10^D (R48). -/
def d8Mag (body : Nat) : Nat × Nat :=
  let (F, f, D) := d8Fields body
  let p := pow10 D
  ((2 ^ f + 9 * F) * p.1, 2 ^ f * p.2)

/-- The value of a code; none for NaD, 0x80 (R48). -/
def d8Value (code : Nat) : Option (Bool × Nat × Nat) :=
  if code % 256 = 0x80 then none
  else if code % 128 = 0 then some (false, 0, 1)
  else
    let m := d8Mag (code % 128)
    some (decide (128 ≤ code % 256), m.1, m.2)

/-- The value of a block scale; none for NaS, 0x3FF (R49): (16 + m)/16 × 10^(d − 32). -/
def scaleValue (s : Nat) : Option (Nat × Nat) :=
  let s := s % 1024
  if s = 0x3FF then none
  else
    let p := pow10 ((s / 16 : Nat) - 32 : Int)
    some ((16 + s % 16) * p.1, 16 * p.2)

/-- |x − y| of two fractions, over the product of their denominators. -/
def fracDist (x y : Nat × Nat) : Nat × Nat :=
  let a := x.1 * y.2
  let b := y.1 * x.2
  (if a ≤ b then b - a else a - b, x.2 * y.2)

/-- Is candidate body `c` a better rounding of q than `best` (R51 step 5)? Nearer wins; at a tie an even F wins over an
odd one, and of two even ones the smaller magnitude. -/
def d8Better (q : Nat × Nat) (c best : Nat) : Bool :=
  let dc := fracDist q (d8Mag c)
  let db := fracDist q (d8Mag best)
  let x := dc.1 * db.2
  let y := db.1 * dc.2
  let oc := (d8Fields c).1 % 2
  let ob := (d8Fields best).1 % 2
  let mc := d8Mag c
  let mb := d8Mag best
  decide (x < y) || (decide (x = y) && (decide (oc < ob) ||
    (decide (oc = ob) && decide (mc.1 * mb.2 < mb.1 * mc.2))))

/-- The body nearest to a magnitude q in range (R51 step 5). -/
def d8Nearest (q : Nat × Nat) : Nat :=
  (List.range 127).foldl (fun best i => if d8Better q (i + 1) best then i + 1 else best) 1

/-- Conversion of a value to D8 under a scale (R51): the code and the events. -/
def toD8 (x : Num) (scale : Nat) : Nat × Ev :=
  match x, scaleValue scale with
  | _, none => (0x80, x.sigEv)
  | .nan s, some _ => (0x80, if s then evInv else evNone)
  | .inf neg, some _ => (if neg then 0x81 else 0x01, evDsat ||| evInx)
  | .fin neg n d, some (sn, sd) =>
    let q : Nat × Nat := (n * sd, d * sn)
    if 10 ^ 10 * q.2 < q.1 then (if neg then 0x81 else 0x01, evDsat ||| evInx)
    else if 2 * q.1 * 10 ^ 10 < q.2 then (0, if q.1 = 0 then evNone else evUnf ||| evInx)
    else
      let b := d8Nearest q
      (if neg then 0x80 + b else b, if (fracDist q (d8Mag b)).1 = 0 then evNone else evInx)

/-- The exact value of a D8 code under a scale; a NaD or a NaS scale is a quiet NaN (R52). -/
def d8Num (code scale : Nat) : Num :=
  match d8Value code, scaleValue scale with
  | some (neg, n, d), some (sn, sd) => .fin neg (n * sn) (d * sd)
  | _, _ => .nan false

/-- The scale 1.0, code 0x200 (R49, R51). -/
def scaleOne : Nat := 0x200

/-- The smallest code, at most 0x3FE, whose scale brings a magnitude to at most 9.71875 (R120); the search descends
from `c` while the next smaller code still does. -/
def d8scSearch (n d : Nat) : Nat → Nat
  | 0 => 0
  | c + 1 =>
    match scaleValue c with
    | some (sn, sd) => if n * sd * 32 ≤ 311 * d * sn then d8scSearch n d c else c + 1
    | none => c + 1

/-- `v.d8sc` (R120): a scale for a value, and the events. 9.71875 = 311/32. -/
def d8sc (x : Num) : Nat × Ev :=
  match x with
  | .nan s => (0x3FF, if s then evInv else evNone)
  | .inf _ => (0x3FE, evDsat)
  | .fin _ n d =>
    if n = 0 then (0, evNone)
    else match scaleValue 0x3FE with
      | some (sn, sd) => if n * sd * 32 ≤ 311 * d * sn then (d8scSearch n d 0x3FE, evNone) else (0x3FE, evDsat)
      | none => (0x3FE, evDsat)

end Sys2Proof.Machine
end

