-- ==== Sys2Proof/Machine/Operands.lean ====
section
/-! DEFINITION. The operand forms of lane words: lane registers with their side bits and quad tags, the source selectors
of R18 with the immediates of R19, the types that each source is read under, and the registers that a word names
(spec/02 R17-R25; spec/03 R40, R41; spec/04 R74-R81, R86; spec/06 R109-R110; spec/08 R163-R166; spec/14 R242-R249). -/

namespace Sys2Proof.Machine

/-! ### The lane file -/

/-- Write lane `l` of a register: it becomes mapped, and the lane's quad tag is cleared (R76, R79). -/
def LaneFile.put (f : LaneFile) (r l : Nat) (x : Lane32) (psn : Bool) : LaneFile :=
  { val := f.val.set (64 * r + l) x 0, psn := f.psn.set (64 * r + l) psn false
    mapped := f.mapped.set r true false, qtag := f.qtag.set (64 * (r / 4) + l) false false, bad := f.bad.erase (64 * r + l) }

/-- Write lane `l` of a register pair (R41). -/
def LaneFile.putPair (f : LaneFile) (r l : Nat) (x : Word) (psn : Bool) : LaneFile :=
  (f.put (r - r % 2) l (x.extractLsb' 0 32) psn).put (r - r % 2 + 1) l (x.extractLsb' 32 32) psn

/-- Write lane `l` of a quad with its tag (R79). -/
def LaneFile.putQuad (f : LaneFile) (q l : Nat) (c : Cap) (psn : Bool) : LaneFile :=
  let f := (List.range 4).foldl (fun f i => f.put (4 * q + i) l (c.bits.extractLsb' (32 * i) 32) psn) f
  { f with qtag := f.qtag.set (64 * q + l) c.tag false }

/-- Unmap a register: it reads zero, and the tags of its quad are cleared (R76, R79). -/
def LaneFile.unmap (f : LaneFile) (r : Nat) : LaneFile :=
  { val := f.val.filter fun e => e.1 / 64 ≠ r, psn := f.psn.filter fun e => e.1 / 64 ≠ r
    mapped := f.mapped.erase r, qtag := f.qtag.filter fun e => e.1 / 64 ≠ r / 4, bad := f.bad.filter fun e => e.1 / 64 ≠ r }

/-- What a lane reads of a source: the value, and the side bit of its register or latch. -/
structure Opnd where
  val : Word
  psn : Bool
  deriving DecidableEq, Repr

/-- Lane `l` of a register. -/
def LaneFile.get (f : LaneFile) (r l : Nat) : Opnd :=
  ⟨(f.val.getD (64 * r + l) 0).zeroExtend 64, f.psn.getD (64 * r + l) false⟩

/-- Lane `l` of a register pair (R41); poisoned when either half is (R110). -/
def LaneFile.getPair (f : LaneFile) (r l : Nat) : Opnd :=
  let lo := f.get (r - r % 2) l
  let hi := f.get (r - r % 2 + 1) l
  ⟨lo.val ||| (hi.val <<< 32), lo.psn || hi.psn⟩

/-- Lane `l` of a register, at the width of a type. -/
def LaneFile.read (f : LaneFile) (ty r l : Nat) : Opnd := if tyWidth ty = 64 then f.getPair r l else f.get r l

/-- The capability of quad `q` in lane `l` (R79), and whether any of its registers has the side bit. -/
def LaneFile.quad (f : LaneFile) (q l : Nat) : Cap × Bool :=
  let v (i : Nat) : Nat := (f.get (4 * q + i) l).val.toNat
  (⟨BitVec.ofNat 128 (v 0 + 2 ^ 32 * v 1 + 2 ^ 64 * v 2 + 2 ^ 96 * v 3), f.qtag.getD (64 * q + l) false⟩,
    (List.range 4).any fun i => (f.get (4 * q + i) l).psn)

/-! ### Sources -/

/-- An immediate widened by a type (R19). -/
def immOf (ty : Nat) (imm : BitVec 23) : Word :=
  match ty with
  | 0 | 1 | 2 => (imm.signExtend 32).zeroExtend 64
  | 3 => imm.signExtend 64
  | 8 => (imm.zeroExtend 64) <<< 9
  | 9 | 10 | 13 => (imm.extractLsb' 0 16).zeroExtend 64
  | 11 | 12 => (imm.extractLsb' 0 8).zeroExtend 64
  | _ => imm.zeroExtend 64

/-- n of an indirect selector 260 + j (R78), 9 bits. -/
def indexOf (v : View) (imm : BitVec 23) (j : Nat) : Nat :=
  ((v.x.getD j 0).toNat + (imm.extractLsb' 0 8).toNat) % 512

/-- The value that selector `sel` gives in lane `l`, read under a type code (R18, R109). -/
def readSel (g : Group) (v : View) (imm : BitVec 23) (ty : Nat) (sel : BitVec 9) (l : Nat) : Opnd :=
  let k := sel.toNat
  let w64 := tyWidth ty = 64
  let cut (x : Word) : Word := if w64 then x else (x.extractLsb' 0 32).zeroExtend 64
  if k < 256 then g.lanes.read ty k l
  else if k < 260 then
    match g.chain with
    | some c => ⟨cut (c.lat.getD (64 * (k - 256) + l) 0), c.latPsn.getD (64 * (k - 256) + l) false⟩
    | none => ⟨0, false⟩
  else if k < 264 then g.lanes.read ty (indexOf v imm (k - 260)) l
  else if k = 264 then ⟨immOf ty imm, false⟩
  else if k = 265 then ⟨cut (if imm.toNat % 64 = 0 then 0 else v.s.getD (imm.toNat % 64) 0), false⟩
  else if k = 266 then ⟨BitVec.ofNat 64 l, false⟩
  else if k = 268 then ⟨BitVec.ofNat 64 g.index, false⟩
  else if k = 269 then ⟨cut (BitVec.ofNat 64 g.teamNo), false⟩
  else if k = 270 then ⟨BitVec.ofNat 64 g.width, false⟩
  else if k = 271 then ⟨BitVec.ofNat 64 v.tile, false⟩
  else ⟨0, false⟩

/-- Does a value hold the poison pattern of a floating-point type (R43)? -/
def fpPoison (ty : Nat) (x : Word) : Bool := tyIsFp ty && x.toNat % 2 ^ tyWidth ty == (fmtOf ty).poisonBits

/-- Is a source poisoned (R110)? -/
def Opnd.poisoned (o : Opnd) (ty : Nat) : Bool := o.psn || fpPoison ty o.val

/-! ### The types of a word's operands -/

/-- The type code of OP7[2:0] (R23). -/
def nTyCode : NTy → Nat
  | .i32 => 2 | .n32 => 6 | .f32 => 8 | .f16 => 9 | .b16 => 10

/-- The type codes that sources A, B and C of a wide word are read under; 15 is untyped. A of `v.upkd8` is read untyped, so that an
immediate there is zero-extended: the model's choice (notes/assumptions/55). -/
def srcTys (op10 : Nat) (w : Wide) : Nat × Nat × Nat :=
  if op10 < 0x080 then
    let t := ((NTy.ofCode (op10 % 8)).map nTyCode).getD 15
    (t, t, t)
  else match op10 with
  | 0x0A0 => (w.aux5 % 16, 15, 15)
  | 0x0A1 => (w.ty, 15, 15)
  | 0x0A2 => (15, 15, 15)
  | 0x0B3 => (2, 2, 6)
  | 0x200 => (w.ty, 15, 15)
  | 0x280 | 0x281 | 0x282 | 0x283 => (2, w.ty, 15)
  | 0x284 | 0x285 | 0x287 => (2, 15, 15)
  | 0x288 => (6, 15, 15)
  | 0x28A => (15, 15, 15)
  | 0x300 => (2, w.ty, w.ty)
  | 0x340 | 0x341 | 0x342 | 0x343 => (w.ty, 15, 15)
  | 0x3A1 => (15, 15, 15)
  | _ => (w.ty, w.ty, w.ty)

/-- The type code of a register result. -/
def dstTy (op10 : Nat) (w : Wide) : Nat :=
  if op10 < 0x080 then ((NTy.ofCode (op10 % 8)).map nTyCode).getD 15
  else match op10 with
  | 0x0A1 | 0x0A3 | 0x0B3 | 0x230 | 0x3A1 => 6
  | 0x0B2 => 2
  | 0x200 => if w.ty = 7 then 7 else 6
  | 0x289 => 7
  | _ => w.ty

/-! ### The registers a word names -/

/-- The registers that a selector reaches at a type's width. -/
def selRegs (v : View) (imm : BitVec 23) (ty : Nat) (sel : BitVec 9) : List Nat :=
  let k := sel.toNat
  let wide (r : Nat) : List Nat := if tyWidth ty = 64 then [r - r % 2, r - r % 2 + 1] else [r]
  if k < 256 then wide k
  else if 260 ≤ k ∧ k < 264 then wide (indexOf v imm (k - 260))
  else []

/-- n registers from r on. -/
def runFrom (r n : Nat) : List Nat := (List.range n).map (r + ·)
/-- The four registers of a quad. -/
def quadRegs (q : Nat) : List Nat := runFrom (4 * q) 4

/-- N of a matrix register word: IMM23[17:13] + 1 (spec/14 R249). -/
def mxN (w : Wide) : Nat := w.imm.toNat / 2 ^ 13 % 32 + 1
/-- Registers of the A run of a matrix pass (spec/14 R242): 48 elements of 8 or 16 bits. -/
def mxRun (ty : Nat) : Nat := if tyWidth ty = 8 then 12 else 24

/-- The quad that a lane memory word names (spec/08 R163). -/
def quadOf (op10 : Nat) (w : Wide) : List Nat :=
  match op10 with
  | 0x280 | 0x281 | 0x284 | 0x285 | 0x287 | 0x288 | 0x289 | 0x28A | 0x300 | 0x310 => quadRegs w.qk
  | _ => []

/-- How many registers a direct SA reaches. -/
def runOfA (op10 : Nat) (w : Wide) : Nat :=
  match op10 with
  | 0x0A1 => 4
  | 0x340 => mxRun w.ty
  | 0x342 => mxN w
  | _ => 1

/-- The registers that source A reaches. -/
def aRegs (op10 : Nat) (w : Wide) (v : View) : List Nat :=
  if 1 < runOfA op10 w && decide (w.sa.toNat < 256) then runFrom w.sa.toNat (runOfA op10 w)
  else selRegs v w.imm (srcTys op10 w).1 w.sa

/-- The registers that a wide word reads. -/
def wideReads (op10 : Nat) (w : Wide) (i : LaneInfo) (v : View) : List Nat :=
  let t := srcTys op10 w
  (if i.readA then aRegs op10 w v else []) ++ (if i.readB then selRegs v w.imm t.2.1 w.sb else [])
    ++ (if i.readC then selRegs v w.imm t.2.2 w.sc else []) ++ quadOf op10 w
    ++ (if op10 = 0x285 then quadRegs (w.dst.toNat / 4) else [])

/-- The registers that a wide word writes. -/
def wideWrites (op10 : Nat) (w : Wide) (i : LaneInfo) : List Nat :=
  if op10 = 0x341 || op10 = 0x343 then runFrom w.dst.toNat (mxN w)
  else if w.ws then []
  else match i.dest with
  | .vreg => if tyWidth (dstTy op10 w) = 64 then [w.dst.toNat - w.dst.toNat % 2, w.dst.toNat - w.dst.toNat % 2 + 1] else [w.dst.toNat]
  | .quad => quadRegs (w.dst.toNat / 4)
  | _ => []

/-- The registers that the last-use bits of a wide word free (R76): direct selectors that it reads. -/
def wideLast (op10 : Nat) (w : Wide) (i : LaneInfo) (v : View) : List Nat :=
  let t := srcTys op10 w
  let direct (s : BitVec 9) : Bool := decide (s.toNat < 256)
  (if i.readA && w.la && direct w.sa then aRegs op10 w v else [])
    ++ (if i.readB && w.lb && direct w.sb then selRegs v w.imm t.2.1 w.sb else [])
    ++ (if i.readC && w.lc && direct w.sc then selRegs v w.imm t.2.2 w.sc else [])

/-- The lanes that a wide word runs on (R81). -/
def runMask (g : Group) (v : View) (ms : Nat) : Word := if ms = 0 then g.m0 else g.m0 &&& v.m.getD ms 0

/-- A mask as the lane word on turn reads it. -/
def viewMask (g : Group) (v : View) (k : Nat) : Word := if k = 0 then g.m0 else v.m.getD k 0

/-- T, the tile size of `%part` (R84). -/
def tileSize (g : Group) (v : View) : Nat := if v.tile = 0 then g.width else 2 ^ v.tile

/-! ### Narrow operations -/

/-- The source registers that a slot reads (R23). -/
def slotReads : Slot → List Nat
  | .op o _ f => f.sa.toNat :: ((if o.readsB then [f.sb.toNat] else []) ++ if o.readsC then [f.sc.toNat] else [])
  | .nop _ => []
/-- The register that a slot writes (R24 rule 3). -/
def slotWrites : Slot → List Nat
  | .op _ _ f => if f.ws then [] else [f.dst.toNat]
  | .nop _ => []
/-- The registers whose last use a slot marks. -/
def slotLast : Slot → List Nat
  | .op o _ f => (if f.la then [f.sa.toNat] else []) ++ (if f.lb && o.readsB then [f.sb.toNat] else [])
      ++ if f.lc && o.readsC then [f.sc.toNat] else []
  | .nop _ => []

/-- Does a pair keep the three rules of R24? -/
def pairKeeps (x y : Slot) : Bool :=
  let rs := (slotReads x ++ slotReads y).dedup
  decide (rs.length ≤ 4) && (List.range 4).all (fun b => decide ((rs.filter fun r => r % 4 = b).length ≤ 2))
    && (match slotWrites x, slotWrites y with
      | [a], [b] => decide (a % 4 ≠ b % 4)
      | _, _ => true)

end Sys2Proof.Machine
end

