-- ==== Sys2Proof/Machine/Flags.lean ====
section
/-! DEFINITION. What a lane word raises: the fallbacks of R30 with their warning codes, the numerical events of a word or a
chain, and the trap of an event class (spec/02 R30, R31; spec/03 R61-R66; spec/04 R87-R89). -/

namespace Sys2Proof.Machine

/-- Warning codes of R30. -/
def wPAIRSPLIT : Nat := 1
def wLATCHZERO : Nat := 2
def wWSNODEST : Nat := 3
def wLTNOLE : Nat := 4
def wCENOCHAIN : Nat := 5
def wCHAINCUT : Nat := 6
def wLENOTELIG : Nat := 7
def wCHAINLONG : Nat := 8
def wCHAINBLOCK : Nat := 9
def wLUNOREG : Nat := 10
def wMODIGNORED : Nat := 11

/-- A code, where its combination stands. -/
def codeIf (b : Bool) (c : Nat) : List Nat := if b then [c] else []

/-- A latch selector. -/
def isLatch (s : BitVec 9) : Bool := decide (256 ≤ s.toNat) && decide (s.toNat < 260)

/-- MODIGNORED on a wide word: RM, FZ or SAT without a use, or a type on a fixed OP10. RM of `v.amo` is its operation
(spec/13 R225). A word whose description names no type at all (`cp.lrun`, `v.ballot`, `v.vote`) counts as a fixed OP10: TY 0-13
warns, and TY 14 is reserved as it is everywhere; that is the model's choice (notes/assumptions/14). -/
def modIgnored (op10 : Nat) (w : Wide) (i : LaneInfo) : Bool :=
  (!i.rm && op10 != 0x300 && w.rm != 0) || (!i.fz && w.fz) || (!i.sat && w.sat) || (i.tys.isNone && w.ty != 15)

/-- The fallbacks of a wide word that do not depend on where a chain stands, with `open_` saying whether a chain is open
when the word reads (R30). -/
def wideWarns (op10 : Nat) (w : Wide) (i : LaneInfo) (open_ : Bool) : List Nat :=
  let latch (r : Bool) (s : BitVec 9) : Bool := r && isLatch s
  let noreg (r l : Bool) (s : BitVec 9) : Bool := r && l && decide (256 ≤ s.toNat)
  codeIf (!open_ && (latch i.readA w.sa || latch i.readB w.sb || latch i.readC w.sc)) wLATCHZERO
  ++ codeIf (w.ws && (i.dest == .none || i.dest == .mask)) wWSNODEST
  ++ codeIf (w.lt != 0 && !w.le) wLTNOLE
  ++ codeIf (w.ce && !open_ && !w.le) wCENOCHAIN
  ++ codeIf (w.le && !chainEligible op10) wLENOTELIG
  ++ codeIf (noreg i.readA w.la w.sa || noreg i.readB w.lb w.sb || noreg i.readC w.lc w.sc) wLUNOREG
  ++ codeIf (modIgnored op10 w i) wMODIGNORED

/-- MODIGNORED on a slot of a pair word. -/
def slotModIgnored : Slot → Bool
  | .op o t f =>
    let i := pairInfo o t
    (!i.rm && decide (4 ≤ f.mod.toNat)) || (!i.fz && bit f.mod 1) || (!i.sat && bit f.mod 0)
  | .nop _ => false

/-- The fallbacks of a pair word. -/
def pairWarns (ce : Bool) (x y : Slot) (open_ : Bool) : List Nat :=
  codeIf (!pairKeeps x y) wPAIRSPLIT ++ codeIf (ce && !open_) wCENOCHAIN ++ codeIf (slotModIgnored x || slotModIgnored y) wMODIGNORED

/-- The events of a word over its lanes: for each class the lanes that raised it. -/
def evLanes (l : List (Nat × Ev)) : List (Nat × Word) :=
  ((List.range 7).map fun c => (c, l.foldl (fun (m : Word) e => if bit e.2 c then setBit m e.1 true else m) 0)).filter
    fun e => decide (e.2 ≠ 0)

/-- One event for each lane named (R62). -/
def laneCounts (l : List (Nat × Word)) : List (Nat × Nat) := l.map fun e => (e.1, popCount e.2)

/-- Add the counts of a word to those of a chain. -/
def addCounts (t : Tab Nat) (l : List (Nat × Nat)) : Tab Nat := l.foldl (fun t e => t.set e.1 (t.getD e.1 0 + e.2) 0) t
/-- Add the lanes of a word to those of a chain. -/
def addLanes (t : Tab Word) (l : List (Nat × Word)) : Tab Word := l.foldl (fun t e => t.set e.1 (t.getD e.1 0 ||| e.2) 0) t

/-- The lanes that a list names for a class. -/
def lanesFor (l : List (Nat × Word)) (c : Nat) : Word := ((l.find? fun e => e.1 == c).map fun e => e.2).getD 0

/-- A NUMEVT trap of a lane word or chain (R66, R89): its results stand, `%tlpc` names the word, SKIP = 1. -/
def numTrap (m : Mach) (pos cls : Nat) (mask : Word) : Mach :=
  takeTrap m { code := cNUMEVT, nevc := cls, tspc := m.g.pc, tlpc := BitVec.ofNat 64 pos, fmask := mask, skip := true
               frame := ⟨pos, m.g.queue⟩ }

end Sys2Proof.Machine
end

