-- ==== Sys2Proof/Machine/Lanes.lean ====
section
/-! DEFINITION. How a lane word runs, once for all of them: the cut, the opening and the close of chains, fallbacks, the
register check, held or immediate effects, last use, events and their trap, and the move to the next word (spec/02 R27-R31;
spec/04 R75, R76, R86-R89; spec/06 R108-R111; spec/09 R169-R171). -/

namespace Sys2Proof.Machine

/-- The effects of a lane word on its own registers: the change of the lane file, the values for a latch (lane, value, side
bit), the events counted, the lanes named for each class, the division masks. -/
structure LaneEff where
  file : LaneFile → LaneFile := id
  lat : List (Nat × Word × Bool) := []
  counts : List (Nat × Nat) := []
  lanes : List (Nat × Word) := []
  dz : Word := 0
  dov : Word := 0

/-- How the body of a lane word ends: it waits at issue (with a change of the device, or none), it traps, it ends its
group (an effect that comes after its fallbacks are recorded), or it is done. -/
inductive LaneRes where
  | wait (m : Option Mach)
  | trap (m : Mach) (code : Nat) (mask : Word)
  | gone (k : Mach → Mach)
  | done (m : Mach) (e : LaneEff)

/-- What the wrapper knows of a word: chain eligibility, CE, LE, LT, its fallbacks given whether a chain is open, the
registers that it names, those that its last-use bits free, and its lanes. -/
structure LaneForm where
  eligible : Bool
  ce : Bool
  le : Bool
  lt : Nat
  warns : Bool → List Nat
  regs : List Nat
  frees : List Nat
  run : Word

/-- The chain a word with LE = 1 opens (R87). -/
def freshChain (g : Group) : Chain :=
  { first := g.lpos, words := 0, lat := [], latPsn := [], held := g.lanes, dz := 0, dov := 0, counts := [], lanes := [] }

/-- The held effects of a chain take place (R87 rule 3); the class whose action traps, with its lanes. -/
def closeChain (m : Mach) : Mach × Option (Nat × Word) :=
  match m.g.chain with
  | none => (m, none)
  | some c =>
    let g := { m.g with lanes := c.held, dzmask := m.g.dzmask ||| c.dz, domask := m.g.domask ||| c.dov, chain := none }
    let (d, t) := countEvents m.d g.ctx c.counts
    ({ g := g, d := d }, t.map fun cls => (cls, c.lanes.getD cls 0))

/-- Is the word on turn the last of its block? -/
def lastOfBlock (g : Group) : Bool :=
  match g.queue with
  | b :: _ => decide (b.start + b.count ≤ g.lpos + 1)
  | [] => true

/-- On to the next lane word. -/
def Group.nextLane (g : Group) : Group := ({ g with lpos := g.lpos + 1 }).settle

/-- Why the chain closes after its word number n without CE (R30): CHAINLONG at the eighth, CHAINBLOCK at the block's end. -/
def closeCodes (g : Group) (ce : Bool) (n : Nat) : List Nat :=
  codeIf (!ce && decide (8 ≤ n)) wCHAINLONG ++ codeIf (!ce && lastOfBlock g) wCHAINBLOCK

/-- Latch values written (R86). -/
def Chain.latch (c : Chain) (lt : Nat) (l : List (Nat × Word × Bool)) : Chain :=
  l.foldl (fun c e => { c with lat := c.lat.set (64 * lt + e.1) e.2.1 0
                               latPsn := c.latPsn.set (64 * lt + e.1) e.2.2 false }) c

/-- The latch error marks after the word has written its latch: a value written anew holds no error (spec/09 R186). -/
def LaneForm.freshLatch (f : LaneForm) (e : LaneEff) (b : Tab Bool) : Tab Bool := e.lat.foldl (fun b x => b.erase (64 * f.lt + x.1)) b

/-- The effects of a word that is done, and the end of its turn. -/
def finishLane (f : LaneForm) (m : Mach) (e : LaneEff) : Mach :=
  let change (l : LaneFile) : LaneFile := f.frees.foldl LaneFile.unmap (e.file l)
  match m.g.chain with
  | some c =>
    let c := if f.le then c.latch f.lt e.lat else c
    let c := { c with
      words := c.words + 1, held := change c.held, dz := c.dz ||| e.dz, dov := c.dov ||| e.dov
      counts := addCounts c.counts e.counts, lanes := addLanes c.lanes e.lanes }
    let m := { m with g := { m.g with chain := some c, badLatch := if f.le then f.freshLatch e m.g.badLatch else m.g.badLatch } }
    if f.ce || !(closeCodes m.g f.ce c.words).isEmpty then
      match closeChain m with
      | (m, some (cls, mask)) => numTrap m m.g.lpos cls mask
      | (m, none) => { m with g := m.g.nextLane }
    else { m with g := m.g.nextLane }
  | none =>
    let g := { m.g with lanes := change m.g.lanes, dzmask := m.g.dzmask ||| e.dz, domask := m.g.domask ||| e.dov }
    let (d, t) := countEvents m.d g.ctx e.counts
    let m : Mach := { g := g, d := d }
    match t with
    | some cls => numTrap m m.g.lpos cls (lanesFor e.lanes cls)
    | none => { m with g := m.g.nextLane }

/-- The word itself, after any cut. `pre` holds the fallbacks already met: where the word then waits, the cut stands, so its
fallbacks are recorded now. -/
def runLane (f : LaneForm) (body : Word → Mach → LaneRes) (pre : List Nat) (m : Mach) : Option Mach :=
  let m := if f.eligible && f.le && m.g.chain.isNone then { m with g := { m.g with chain := some (freshChain m.g), badLatch := [] } } else m
  let open_ := m.g.chain.isSome
  let n := match m.g.chain with
    | some c => c.words + 1
    | none => 0
  let codes := pre ++ f.warns open_
  if f.regs.any fun r => decide (m.g.vregs ≤ r) then
    some (laneTrap { m with d := warn m.d m.g.ctx codes } cVREGRANGE f.run)
  else
    match body f.run m with
    | .wait none => none
    | .wait (some m') => some (if pre.isEmpty then m' else { m' with d := warn m'.d m'.g.ctx codes })
    | .trap m code mask => some (laneTrap { m with d := warn m.d m.g.ctx codes } code mask)
    | .gone k => some (k { m with d := warn m.d m.g.ctx codes })
    | .done m' e =>
      let codes := codes ++ if open_ then closeCodes m.g f.ce n else []
      some (finishLane f { m' with d := warn m'.d m'.g.ctx codes } e)

/-- A lane word in full: a word that is not chain-eligible first cuts an open chain (R30 CHAINCUT), whose events may trap
(R89). -/
def laneStep (f : LaneForm) (body : Word → Mach → LaneRes) (m : Mach) : Option Mach :=
  if m.g.chain.isSome && !f.eligible then
    match closeChain m with
    | (m, some (cls, mask)) => some (numTrap { m with d := warn m.d m.g.ctx [wCHAINCUT] } (m.g.lpos - 1) cls mask)
    | (m, none) => runLane f body [wCHAINCUT] m
  else runLane f body [] m

/-- What the wrapper knows of a wide word. -/
def wideForm (op10 : Nat) (w : Wide) (i : LaneInfo) (g : Group) : LaneForm :=
  let v := g.view
  let writes := wideWrites op10 w i
  { eligible := chainEligible op10, ce := w.ce, le := w.le && chainEligible op10, lt := w.lt.toNat
    warns := wideWarns op10 w i
    regs := wideReads op10 w i v ++ writes
    frees := (wideLast op10 w i v).filter fun r => !writes.contains r
    run := runMask g v w.ms.toNat }

/-- An entry of the request table of the group that will write lane registers: the lane stream waits for it
(spec/14 R249). A shadow copy waits for the primary's operations. -/
def lanesPending (m : Mach) : Bool :=
  (m.g.shadow && m.g.flights.any fun f => f.path == .mx && !f.done) ||
  (m.d.cluster (clusterKey m.g.die m.g.core)).table.any fun e => e.gid == m.g.gid &&
    (match e.kind with
      | .read .. | .resolve .. => true
      | _ => false)

/-- Does the word name a register that is spilled (spec/12 R200)? It waits for the refill. -/
def spilledUse (f : LaneForm) (g : Group) : Bool := f.regs.any fun r => g.spilledRegs.getD r 0 ≠ 0

/-- A lane word of the map, with its body. -/
def laneWord (op10 : Nat) (w : Wide) (body : LaneInfo → View → Word → CtlRegs → Mach → LaneRes) (s : State) :
    Host.Outcome State Fault Refusal :=
  actOrWait (fun R m =>
    let i := (laneInfo op10 w).getD {}
    let v := m.g.view
    let f := wideForm op10 w i m.g
    if lanesPending m || spilledUse f m.g then none else laneStep f (fun run m => body i v run R m) m) s

/-- A lane word whose body only computes register effects. -/
def laneCompute (op10 : Nat) (w : Wide) (body : LaneInfo → View → Word → Mach → LaneEff) (s : State) :
    Host.Outcome State Fault Refusal :=
  laneWord op10 w (fun i v run _ m => .done m (body i v run m)) s

end Sys2Proof.Machine
end

