-- ==== Sys2Proof/Machine/LaneArith.lean ====
section
/-! DEFINITION. Lane arithmetic (spec/06 R108-R125): the pairable operations in wide and pair form, the 8-, 16- and 64-bit
integer operations, division, conversions and D8 packing, phasor words, the CORDIC family. -/

namespace Sys2Proof.Machine

/-- What one lane's operation gives: the value, its events, the lane's bits of `%dzmask` and `%domask`, and the side bit
of a copied register. -/
structure LaneOut where
  val : Word
  ev : Ev := evNone
  dz : Bool := false
  dov : Bool := false
  psn : Bool := false
  deriving DecidableEq, Repr

/-- The fixed result of a lane with a poisoned source (R110). -/
def poisonOut (dty : Nat) : LaneOut :=
  if tyIsFp dty then { val := BitVec.ofNat 64 (fmtOf dty).poisonBits } else { val := 0, psn := true }

/-- The register effect of per-lane results (R108): DST8 unless WS, the latch values, the events and division masks. -/
def laneEff (dst : Nat) (ws : Bool) (dty : Nat) (l : List (Nat × LaneOut)) : LaneEff :=
  let w64 := tyWidth dty = 64
  let ls := evLanes (l.map fun e => (e.1, e.2.ev))
  { file := fun f => if ws then f else l.foldl (fun f e =>
      if w64 then f.putPair dst e.1 e.2.val e.2.psn else f.put dst e.1 (e.2.val.extractLsb' 0 32) e.2.psn) f
    lat := l.map fun e => (e.1, (if w64 then e.2.val else (e.2.val.extractLsb' 0 32).zeroExtend 64), e.2.psn)
    counts := laneCounts ls
    lanes := ls
    dz := l.foldl (fun m e => if e.2.dz then setBit m e.1 true else m) 0
    dov := l.foldl (fun m e => if e.2.dov then setBit m e.1 true else m) 0 }

/-- The sources of a wide word in a lane, each with whether it is poisoned in a `prc` group. -/
def srcIn (g : Group) (v : View) (w : Wide) (read : Bool) (sel : BitVec 9) (ty l : Nat) : Word × Bool :=
  if read then
    let o := readSel g v w.imm ty sel l
    (o.val, g.prc && o.poisoned ty)
  else (0, false)

/-- A wide arithmetic word (R108): each running lane reads, meets poison or computes, and writes. -/
def arithEff (op10 : Nat) (w : Wide) (i : LaneInfo) (v : View) (run : Word) (g : Group)
    (f : Word → Word → Word → LaneOut) : LaneEff :=
  let t := srcTys op10 w
  laneEff w.dst.toNat w.ws (dstTy op10 w) ((lanesOf run).map fun l =>
    let a := srcIn g v w i.readA w.sa t.1 l
    let b := srcIn g v w i.readB w.sb t.2.1 l
    let c := srcIn g v w i.readC w.sc t.2.2 l
    (l, if a.2 || b.2 || c.2 then poisonOut (dstTy op10 w) else f a.1 b.1 c.1))

/-- A wide arithmetic word as a step. -/
def arithWord (op10 : Nat) (w : Wide) (f : Word → Word → Word → LaneOut) (s : State) : Host.Outcome State Fault Refusal :=
  laneCompute op10 w (fun i v run m => arithEff op10 w i v run m.g f) s

/-! ### The pairable operations (R113, R114) -/

/-- An integer operation of R113 on patterns of width w, signed or natural. -/
def intOp (o : NOp) (ty : Nat) (sat : Bool) (a b c : Word) : Word × Ev :=
  let w := tyWidth ty
  let sg := tySigned ty
  let x := readInt ty a
  let y := readInt ty b
  let z := readInt ty c
  let sh := b.toNat % w
  let bits (n : Nat) : Word × Ev := (placeTy ty n, evNone)
  let ua := a.toNat % 2 ^ w
  let ub := b.toNat % 2 ^ w
  match o with
  | .add => intResult sg w sat (x + y)
  | .sub => intResult sg w sat (x - y)
  | .mul => intResult sg w sat (x * y)
  | .fma => intResult sg w sat (x * y + z)
  | .min => intResult sg w false (min x y)
  | .max => intResult sg w false (max x y)
  | .and => bits (ua &&& ub)
  | .or => bits (ua ||| ub)
  | .xor => bits (ua ^^^ ub)
  | .shl => bits (ua * 2 ^ sh)
  | .shr => intResult sg w false (x / (2 ^ sh : Nat))
  | .mov => bits ua
  | .abs => intResult sg w sat x.natAbs
  | .neg => intResult sg w sat (-x)
  | .mulhi => intResult sg w false (x * y / (2 ^ w : Nat))
  | .clamp => intResult sg w false (min (max x y) z)

/-- A floating-point operation of R113 and R114. -/
def fpOp (o : NOp) (f : Fmt) (rm : Nat) (fz : Bool) (a b c : Nat) : Nat × Ev :=
  let x := f.read fz a
  let y := f.read fz b
  let z := f.read fz c
  match o with
  | .add => f.add rm fz x y
  | .sub => f.add rm fz x y.negate
  | .mul => f.mul rm fz x y
  | .fma => f.fma rm fz x y z
  | .min => (f.write (x.min2 y), x.sigEv ||| y.sigEv)
  | .max => (f.write (x.max2 y), x.sigEv ||| y.sigEv)
  | .clamp => (f.write ((x.max2 y).min2 z), x.sigEv ||| y.sigEv ||| z.sigEv)
  | .abs => (match x with
      | .nan _ => f.nanBits
      | .inf _ => f.infBits
      | .fin _ n d => f.write (.fin false n d), x.sigEv)
  | .neg => (f.write x.negate, x.sigEv)
  | _ => (a, evNone)

/-- One operation under a type code. -/
def pairable (o : NOp) (ty rm : Nat) (fz sat : Bool) (a b c : Word) : LaneOut :=
  if tyIsFp ty then
    let w := tyWidth ty
    let r := fpOp o (fmtOf ty) rm fz (a.toNat % 2 ^ w) (b.toNat % 2 ^ w) (c.toNat % 2 ^ w)
    { val := BitVec.ofNat 64 r.1, ev := r.2 }
  else
    let r := intOp o ty sat a b c
    { val := r.1, ev := r.2 }

/-- `v.mov` (R113): a bit copy with the side bit; it does not apply R110. Of a 64-bit source whose registers differ in their side
bits, both destination registers take the side bit: the model's choice (notes/assumptions/55). -/
def movEff (op10 : Nat) (w : Wide) (v : View) (run : Word) (g : Group) : LaneEff :=
  let ty := (srcTys op10 w).1
  laneEff w.dst.toNat w.ws ty ((lanesOf run).map fun l =>
    let o := readSel g v w.imm ty w.sa l
    (l, { val := placeTy ty (o.val.toNat % 2 ^ tyWidth ty), psn := g.prc && o.psn }))

/-- A pairable operation in wide form, or its 8-, 16- or 64-bit integer form. -/
def pairableWord (op10 : Nat) (o : NOp) (w : Wide) (s : State) : Host.Outcome State Fault Refusal :=
  if o = .mov then laneCompute op10 w (fun _ v run m => movEff op10 w v run m.g) s
  else arithWord op10 w (pairable o (dstTy op10 w) w.rm w.fz w.sat) s

/-- `v.add` (R113). -/
def execVAdd (t : NTy) (w : Wide) (s : State) : Host.Outcome State Fault Refusal := pairableWord (0x00 + t.code) .add w s
/-- `v.sub` (R113). -/
def execVSub (t : NTy) (w : Wide) (s : State) : Host.Outcome State Fault Refusal := pairableWord (0x08 + t.code) .sub w s
/-- `v.mul` (R113). -/
def execVMul (t : NTy) (w : Wide) (s : State) : Host.Outcome State Fault Refusal := pairableWord (0x10 + t.code) .mul w s
/-- `v.fma` (R113). -/
def execVFma (t : NTy) (w : Wide) (s : State) : Host.Outcome State Fault Refusal := pairableWord (0x18 + t.code) .fma w s
/-- `v.min` (R113, R114). -/
def execVMin (t : NTy) (w : Wide) (s : State) : Host.Outcome State Fault Refusal := pairableWord (0x20 + t.code) .min w s
/-- `v.max` (R113, R114). -/
def execVMax (t : NTy) (w : Wide) (s : State) : Host.Outcome State Fault Refusal := pairableWord (0x28 + t.code) .max w s
/-- `v.and` (R113). -/
def execVAnd (t : NTy) (w : Wide) (s : State) : Host.Outcome State Fault Refusal := pairableWord (0x30 + t.code) .and w s
/-- `v.or` (R113). -/
def execVOr (t : NTy) (w : Wide) (s : State) : Host.Outcome State Fault Refusal := pairableWord (0x38 + t.code) .or w s
/-- `v.xor` (R113). -/
def execVXor (t : NTy) (w : Wide) (s : State) : Host.Outcome State Fault Refusal := pairableWord (0x40 + t.code) .xor w s
/-- `v.shl` (R113). -/
def execVShl (t : NTy) (w : Wide) (s : State) : Host.Outcome State Fault Refusal := pairableWord (0x48 + t.code) .shl w s
/-- `v.shr` (R113). -/
def execVShr (t : NTy) (w : Wide) (s : State) : Host.Outcome State Fault Refusal := pairableWord (0x50 + t.code) .shr w s
/-- `v.mov` (R113). -/
def execVMov (t : NTy) (w : Wide) (s : State) : Host.Outcome State Fault Refusal := pairableWord (0x58 + t.code) .mov w s
/-- `v.abs` (R113, R114). -/
def execVAbs (t : NTy) (w : Wide) (s : State) : Host.Outcome State Fault Refusal := pairableWord (0x60 + t.code) .abs w s
/-- `v.neg` (R113, R114). -/
def execVNeg (t : NTy) (w : Wide) (s : State) : Host.Outcome State Fault Refusal := pairableWord (0x68 + t.code) .neg w s
/-- `v.mulhi` (R113). -/
def execVMulhi (t : NTy) (w : Wide) (s : State) : Host.Outcome State Fault Refusal := pairableWord (0x70 + t.code) .mulhi w s
/-- `v.clamp` (R113, R114). -/
def execVClamp (t : NTy) (w : Wide) (s : State) : Host.Outcome State Fault Refusal := pairableWord (0x78 + t.code) .clamp w s

/-! ### Pair words (R22-R25) -/

/-- The results of a slot under `m0` (R25): no latch, its own rounding. -/
def slotOuts (g : Group) (run : Word) : Slot → List (Nat × LaneOut)
  | .nop _ => []
  | .op o t f =>
    let ty := nTyCode t
    (lanesOf run).map fun l =>
      let a := g.lanes.get f.sa.toNat l
      let b := g.lanes.get f.sb.toNat l
      let c := g.lanes.get f.sc.toNat l
      if o = .mov then (l, { val := a.val, psn := g.prc && a.psn })
      else if g.prc && (a.poisoned ty || (o.readsB && b.poisoned ty) || (o.readsC && c.poisoned ty)) then (l, poisonOut ty)
      else (l, pairable o ty (f.mod.toNat / 4) (bit f.mod 1) (bit f.mod 0) a.val b.val c.val)

/-- A slot's register effect. -/
def slotEff (g : Group) (run : Word) (x : Slot) : LaneEff :=
  match x with
  | .nop _ => {}
  | .op _ t f => laneEff f.dst.toNat f.ws (nTyCode t) (slotOuts g run x)

/-- What the wrapper knows of a pair word. -/
def pairForm (ce : Bool) (x y : Slot) (g : Group) : LaneForm :=
  let writes := slotWrites x ++ slotWrites y
  { eligible := true, ce := ce, le := false, lt := 0, warns := pairWarns ce x y
    regs := slotReads x ++ slotReads y ++ writes
    frees := (slotLast x ++ slotLast y).filter fun r => !writes.contains r
    run := g.m0 }

/-- A pair word (R25): both slots read before either writes; a pair that breaks R24 runs X and then Y. The word counts a
class once in each lane in which it arose. Inside an open chain the Y of a split pair reads the registers as they stood before
the chain (spec/04 R87, rule 1), not what X has written (R25): the model's choice between the two (notes/assumptions/55). -/
def pairStep (ce : Bool) (x y : Slot) (s : State) : Host.Outcome State Fault Refusal :=
  actOrWait (fun _ m =>
    let f := pairForm ce x y m.g
    if lanesPending m || spilledUse f m.g then none
    else laneStep f (fun run m =>
      let ex := slotEff m.g run x
      let gy := if pairKeeps x y || m.g.chain.isSome then m.g else { m.g with lanes := ex.file m.g.lanes }
      let ey := slotEff gy run y
      let ls := (ex.lanes ++ ey.lanes).foldl (fun (t : Tab Word) e => t.set e.1 (t.getD e.1 0 ||| e.2) 0) []
      .done m { file := fun l => ey.file (ex.file l), counts := laneCounts ls, lanes := ls }) m) s

/-- `v.add` in slot X (R25). -/
def execVAddNarrow (ce : Bool) (t : NTy) (x : Narrow) (y : Slot) (s : State) : Host.Outcome State Fault Refusal := pairStep ce (.op .add t x) y s
/-- `v.sub` in slot X. -/
def execVSubNarrow (ce : Bool) (t : NTy) (x : Narrow) (y : Slot) (s : State) : Host.Outcome State Fault Refusal := pairStep ce (.op .sub t x) y s
/-- `v.mul` in slot X. -/
def execVMulNarrow (ce : Bool) (t : NTy) (x : Narrow) (y : Slot) (s : State) : Host.Outcome State Fault Refusal := pairStep ce (.op .mul t x) y s
/-- `v.fma` in slot X. -/
def execVFmaNarrow (ce : Bool) (t : NTy) (x : Narrow) (y : Slot) (s : State) : Host.Outcome State Fault Refusal := pairStep ce (.op .fma t x) y s
/-- `v.min` in slot X. -/
def execVMinNarrow (ce : Bool) (t : NTy) (x : Narrow) (y : Slot) (s : State) : Host.Outcome State Fault Refusal := pairStep ce (.op .min t x) y s
/-- `v.max` in slot X. -/
def execVMaxNarrow (ce : Bool) (t : NTy) (x : Narrow) (y : Slot) (s : State) : Host.Outcome State Fault Refusal := pairStep ce (.op .max t x) y s
/-- `v.and` in slot X. -/
def execVAndNarrow (ce : Bool) (t : NTy) (x : Narrow) (y : Slot) (s : State) : Host.Outcome State Fault Refusal := pairStep ce (.op .and t x) y s
/-- `v.or` in slot X. -/
def execVOrNarrow (ce : Bool) (t : NTy) (x : Narrow) (y : Slot) (s : State) : Host.Outcome State Fault Refusal := pairStep ce (.op .or t x) y s
/-- `v.xor` in slot X. -/
def execVXorNarrow (ce : Bool) (t : NTy) (x : Narrow) (y : Slot) (s : State) : Host.Outcome State Fault Refusal := pairStep ce (.op .xor t x) y s
/-- `v.shl` in slot X. -/
def execVShlNarrow (ce : Bool) (t : NTy) (x : Narrow) (y : Slot) (s : State) : Host.Outcome State Fault Refusal := pairStep ce (.op .shl t x) y s
/-- `v.shr` in slot X. -/
def execVShrNarrow (ce : Bool) (t : NTy) (x : Narrow) (y : Slot) (s : State) : Host.Outcome State Fault Refusal := pairStep ce (.op .shr t x) y s
/-- `v.mov` in slot X. -/
def execVMovNarrow (ce : Bool) (t : NTy) (x : Narrow) (y : Slot) (s : State) : Host.Outcome State Fault Refusal := pairStep ce (.op .mov t x) y s
/-- `v.abs` in slot X. -/
def execVAbsNarrow (ce : Bool) (t : NTy) (x : Narrow) (y : Slot) (s : State) : Host.Outcome State Fault Refusal := pairStep ce (.op .abs t x) y s
/-- `v.neg` in slot X. -/
def execVNegNarrow (ce : Bool) (t : NTy) (x : Narrow) (y : Slot) (s : State) : Host.Outcome State Fault Refusal := pairStep ce (.op .neg t x) y s
/-- `v.mulhi` in slot X. -/
def execVMulhiNarrow (ce : Bool) (t : NTy) (x : Narrow) (y : Slot) (s : State) : Host.Outcome State Fault Refusal := pairStep ce (.op .mulhi t x) y s
/-- `v.clamp` in slot X. -/
def execVClampNarrow (ce : Bool) (t : NTy) (x : Narrow) (y : Slot) (s : State) : Host.Outcome State Fault Refusal := pairStep ce (.op .clamp t x) y s
/-- `v.nop` (R23): in slot X of a pair word, or as a wide word (notes/assumptions/13). -/
def execVNop (f : NopForm) (s : State) : Host.Outcome State Fault Refusal :=
  match f with
  | .pair ce raw y => pairStep ce (.nop raw) y s
  | .wide w => laneCompute 0x07F w (fun _ _ _ _ => {}) s

/-! ### The 8-, 16- and 64-bit integer operations (R115) -/

/-- `v.add` (R115). -/
def execVAddInt (w : Wide) (s : State) : Host.Outcome State Fault Refusal := pairableWord 0x080 .add w s
/-- `v.sub` (R115). -/
def execVSubInt (w : Wide) (s : State) : Host.Outcome State Fault Refusal := pairableWord 0x081 .sub w s
/-- `v.mul` (R115). -/
def execVMulInt (w : Wide) (s : State) : Host.Outcome State Fault Refusal := pairableWord 0x082 .mul w s
/-- `v.fma` (R115). -/
def execVFmaInt (w : Wide) (s : State) : Host.Outcome State Fault Refusal := pairableWord 0x083 .fma w s
/-- `v.min` (R115). -/
def execVMinInt (w : Wide) (s : State) : Host.Outcome State Fault Refusal := pairableWord 0x084 .min w s
/-- `v.max` (R115). -/
def execVMaxInt (w : Wide) (s : State) : Host.Outcome State Fault Refusal := pairableWord 0x085 .max w s
/-- `v.and` (R115). -/
def execVAndInt (w : Wide) (s : State) : Host.Outcome State Fault Refusal := pairableWord 0x086 .and w s
/-- `v.or` (R115). -/
def execVOrInt (w : Wide) (s : State) : Host.Outcome State Fault Refusal := pairableWord 0x087 .or w s
/-- `v.xor` (R115). -/
def execVXorInt (w : Wide) (s : State) : Host.Outcome State Fault Refusal := pairableWord 0x088 .xor w s
/-- `v.shl` (R115). -/
def execVShlInt (w : Wide) (s : State) : Host.Outcome State Fault Refusal := pairableWord 0x089 .shl w s
/-- `v.shr` (R115). -/
def execVShrInt (w : Wide) (s : State) : Host.Outcome State Fault Refusal := pairableWord 0x08A .shr w s
/-- `v.mov` (R115). -/
def execVMovInt (w : Wide) (s : State) : Host.Outcome State Fault Refusal := pairableWord 0x08B .mov w s
/-- `v.abs` (R115). -/
def execVAbsInt (w : Wide) (s : State) : Host.Outcome State Fault Refusal := pairableWord 0x08C .abs w s
/-- `v.neg` (R115). -/
def execVNegInt (w : Wide) (s : State) : Host.Outcome State Fault Refusal := pairableWord 0x08D .neg w s
/-- `v.mulhi` (R115). -/
def execVMulhiInt (w : Wide) (s : State) : Host.Outcome State Fault Refusal := pairableWord 0x08E .mulhi w s
/-- `v.clamp` (R115). -/
def execVClampInt (w : Wide) (s : State) : Host.Outcome State Fault Refusal := pairableWord 0x08F .clamp w s

/-! ### Division (R116) -/

/-- Quotient and remainder, with the lane's events and masks. -/
def divLane (ty : Nat) (rem : Bool) (a b : Word) : LaneOut :=
  let w := tyWidth ty
  let sg := tySigned ty
  let x := readInt ty a
  let y := readInt ty b
  let out (q r : Int) : Word := (intResult sg w false (if rem then r else q)).1
  if y = 0 then { val := out (intHi sg w) x, ev := evIdiv, dz := true }
  else if sg && decide (x = intLo sg w) && decide (y = -1) then { val := out x 0, ev := evIdiv, dov := true }
  else { val := out (x.tdiv y) (x.tmod y) }

/-- `v.div` of an integer type (R116). -/
def execVDiv (w : Wide) (s : State) : Host.Outcome State Fault Refusal :=
  arithWord 0x090 w (fun a b _ => divLane w.ty false a b) s
/-- `v.rem` (R116). -/
def execVRem (w : Wide) (s : State) : Host.Outcome State Fault Refusal :=
  arithWord 0x091 w (fun a b _ => divLane w.ty true a b) s

/-! ### Conversions and D8 packing (R117-R120) -/

/-- The value that a floating-point, integer or D8 source reads as; D8 under a scale. -/
def numOf (ty : Nat) (fz : Bool) (scale : Nat) (x : Word) : Num :=
  if tyIsInt ty then
    let i := readInt ty x
    .fin (decide (i < 0)) i.natAbs 1
  else if ty = 11 then d8Num (x.toNat % 256) scale
  else (fmtOf ty).read fz (x.toNat % 2 ^ tyWidth ty)

/-- One conversion (R58) from type s to type d, under a scale on the D8 rows. -/
def convertOne (d s rm : Nat) (fz sat : Bool) (scale : Nat) (x : Word) : Word × Ev :=
  let nat (r : Nat × Ev) : Word × Ev := (BitVec.ofNat 64 r.1, r.2)
  if d = 11 then nat (toD8 (numOf s fz 0 x) scale)
  else if tyIsPhasor s then
    if d = 13 then nat (p8ToP16 (x.toNat % 256))
    else if d = 12 then nat (p16ToP8 rm (x.toNat % 65536))
    else nat (phasorToNum s rm (fmtOf d) fz (x.toNat % 2 ^ tyWidth s))
  else if tyIsPhasor d then nat (numToPhasor d rm (numOf s fz scale x))
  else if tyIsInt d then
    if tyIsInt s then intResult (tySigned d) (tyWidth d) sat (readInt s x)
    else numToInt rm (tySigned d) (tyWidth d) (numOf s fz scale x)
  else if tyIsInt s then nat ((fmtOf d).ofInt rm fz (readInt s x))
  else nat ((fmtOf d).convert rm fz (numOf s fz scale x))

/-- The scale of a D8 row: B[9:0], or 1.0 (R117). -/
def scaleOf (use : Bool) (b : Word) : Nat := if use then b.toNat % 1024 else scaleOne

/-- `v.cvt` (R117, R58). -/
def execVCvt (w : Wide) (s : State) : Host.Outcome State Fault Refusal :=
  let src := w.aux5 % 16
  let use := (w.ty == 11 || src == 11) && decide (w.aux2 % 2 = 1)
  arithWord 0x0A0 w (fun a b _ =>
    let r := convertOne w.ty src w.rm w.fz w.sat (scaleOf use b) a
    { val := r.1, ev := r.2 }) s

/-- The four elements of `v.pkd8` in a lane (R118): a direct SA names a run of four registers. -/
def packSrc (w : Wide) (g : Group) (v : View) (l : Nat) : List Opnd :=
  if w.sa.toNat < 256 then (List.range 4).map fun k => g.lanes.get (w.sa.toNat + k) l
  else List.replicate 4 (readSel g v w.imm w.ty w.sa l)

/-- Four conversions under one scale, element i in byte i. -/
def packBytes (ty : Nat) (fz : Bool) (scale : Nat) (l : List Word) : LaneOut :=
  let r := (l.map fun x => toD8 (numOf ty fz 0 x) scale)
  { val := BitVec.ofNat 64 (r.foldr (fun e acc => e.1 + 256 * acc) 0), ev := r.foldl (fun acc e => acc ||| e.2) evNone }

/-- `v.pkd8` (R118). -/
def execVPkd8 (w : Wide) (s : State) : Host.Outcome State Fault Refusal :=
  laneCompute 0x0A1 w (fun _ v run m =>
    laneEff w.dst.toNat w.ws 6 ((lanesOf run).map fun l =>
      let els := packSrc w m.g v l
      let b := readSel m.g v w.imm 15 w.sb l
      (l, if m.g.prc && (els.any (fun o => o.poisoned w.ty) || b.psn) then poisonOut 6
        else packBytes w.ty w.fz (b.val.toNat % 1024) (els.map fun o => o.val)))) s

/-- `v.upkd8` (R119): byte AUX2 of A. -/
def execVUpkd8 (w : Wide) (s : State) : Host.Outcome State Fault Refusal :=
  arithWord 0x0A2 w (fun a b _ =>
    let r := convertOne w.ty 11 w.rm w.fz false (b.toNat % 1024) (a >>> (8 * w.aux2))
    { val := r.1, ev := r.2 }) s

/-- `v.d8sc` (R120). -/
def execVD8sc (w : Wide) (s : State) : Host.Outcome State Fault Refusal :=
  arithWord 0x0A3 w (fun a _ _ =>
    let r := d8sc (numOf w.ty w.fz 0 a)
    { val := BitVec.ofNat 64 r.1, ev := r.2 }) s

/-! ### Phasors (R121) -/

/-- A phasor result; none is undefined and counts PUND. -/
def phOut (ty : Nat) (r : Option Nat) : LaneOut :=
  match r with
  | some a => { val := BitVec.ofNat 64 a }
  | none => { val := BitVec.ofNat 64 (phUndef ty), ev := evPund }

/-- A phasor code as read. -/
def phCode (ty : Nat) (x : Word) : Nat := x.toNat % 2 ^ tyWidth ty

/-- `v.pmul` (R121, R55). -/
def execVPmul (w : Wide) (s : State) : Host.Outcome State Fault Refusal :=
  arithWord 0x0B0 w (fun a b _ => phOut w.ty (phMul w.ty (phCode w.ty a) (phCode w.ty b))) s

/-- `v.pconj` (R121). -/
def execVPconj (w : Wide) (s : State) : Host.Outcome State Fault Refusal :=
  arithWord 0x0B1 w (fun a _ _ =>
    phOut w.ty ((phAngle w.ty (phCode w.ty a)).map fun x => (2 ^ phBits w.ty - x) % 2 ^ phBits w.ty)) s

/-- An integer as an `.i32` result. -/
def i32Out (x : Int) : LaneOut := { val := (intResult true 32 false x).1 }

/-- `v.pvec` (R121): cosine entry, sine entry, or the defined flag. -/
def execVPvec (w : Wide) (s : State) : Host.Outcome State Fault Refusal :=
  arithWord 0x0B2 w (fun a _ _ =>
    match phAngle w.ty (phCode w.ty a) with
    | none => { val := 0 }
    | some x => i32Out (if w.aux2 = 0 then cosEntry (phIndex w.ty x) else if w.aux2 = 1 then sinEntry (phIndex w.ty x) else 1)) s

/-- A resolution packed as `v.pres` writes it, with its events. -/
def resolveOut (ty : Nat) (x y : Int) (n : Nat) : LaneOut :=
  { val := BitVec.ofNat 64 (phPack ty (phResolve ty x y n)), ev := resolveEv ty x y n }

/-- `v.pres` (R121, R56). -/
def execVPres (w : Wide) (s : State) : Host.Outcome State Fault Refusal :=
  arithWord 0x0B3 w (fun a b c => resolveOut w.ty (readInt 2 a) (readInt 2 b) (c.toNat % 2 ^ 32)) s

/-! ### CORDIC (R123-R125) -/

/-- A CORDIC word. -/
def cordicWord (op10 : Nat) (fn : CordicFn) (w : Wide) (s : State) : Host.Outcome State Fault Refusal :=
  arithWord op10 w (fun a b _ =>
    let r := cordic fn w.ty w.aux5 w.fz (a.extractLsb' 0 32) (b.extractLsb' 0 32)
    { val := BitVec.ofNat 64 r.1, ev := r.2 }) s

/-- `v.sin` (R124). -/
def execVSin (w : Wide) (s : State) : Host.Outcome State Fault Refusal := cordicWord 0x180 .sin w s
/-- `v.cos` (R124). -/
def execVCos (w : Wide) (s : State) : Host.Outcome State Fault Refusal := cordicWord 0x181 .cos w s
/-- `v.atan2` (R124). -/
def execVAtan2 (w : Wide) (s : State) : Host.Outcome State Fault Refusal := cordicWord 0x182 .atan2 w s
/-- `v.exp` (R124). -/
def execVExp (w : Wide) (s : State) : Host.Outcome State Fault Refusal := cordicWord 0x183 .exp w s
/-- `v.ln` (R124). -/
def execVLn (w : Wide) (s : State) : Host.Outcome State Fault Refusal := cordicWord 0x184 .ln w s
/-- `v.tanh` (R124). -/
def execVTanh (w : Wide) (s : State) : Host.Outcome State Fault Refusal := cordicWord 0x185 .tanh w s
/-- `v.sigm` (R124). -/
def execVSigm (w : Wide) (s : State) : Host.Outcome State Fault Refusal := cordicWord 0x186 .sigm w s
/-- `v.sqrt` (R124). -/
def execVSqrt (w : Wide) (s : State) : Host.Outcome State Fault Refusal := cordicWord 0x187 .sqrt w s
/-- `v.rsq` (R124). -/
def execVRsq (w : Wide) (s : State) : Host.Outcome State Fault Refusal := cordicWord 0x188 .rsq w s
/-- `v.div` of a floating-point type (R124). -/
def execVDivCordic (w : Wide) (s : State) : Host.Outcome State Fault Refusal := cordicWord 0x189 .div w s

end Sys2Proof.Machine
end

