-- ==== Sys2Proof/Machine/Endings.lean ====
section
/-! DEFINITION. Kernel descriptors, writes of the front end, and how teams and launches end (spec/18 R308-R313, R316; spec/12
R209-R215; spec/09 R185; spec/17 R295). -/

namespace Sys2Proof.Machine

/-! ### Kernel descriptors (R308) -/

/-- A capability of a granule of a block, by its number. -/
def capAt (bs : List Byte) (tags : List Bool) (i : Nat) : Cap := Cap.ofBytes ((bs.drop (16 * i)).take 16) (tags.getD i false)
/-- The 8 bytes of a block at an offset. -/
def natAt (bs : List Byte) (o : Nat) : Nat := leNat ((bs.drop o).take 8)
/-- The field of w bits at bit lo of a number. -/
def fieldAt (x lo w : Nat) : Nat := x / 2 ^ lo % 2 ^ w

/-- Is the section's capability one that the descriptor may hold? -/
def sectionCap (c : Cap) : Bool := c.tag && !c.malformed && c.kind == kCODE && c.has pX

/-- A mailbag's ring in records (R312): none where the length does not fit. -/
def bagRecords (bag : Cap) (rsize : Nat) : Option Nat :=
  let n := (bag.top - bag.base).toNat
  if rsize = 0 || n < 256 + rsize || (n - 256) % rsize ≠ 0 then none else some ((n - 256) / rsize)

/-- The kernel of a descriptor's 128 bytes (R308, R312): none where it fails with KDESC. -/
def kernelOf (bs : List Byte) (tags : List Bool) : Option Kernel :=
  let sc := capAt bs tags 0
  let lc := capAt bs tags 1
  let bag := capAt bs tags 4
  let sh := natAt bs 32
  let b (i : Nat) : Bool := fieldAt sh i 1 == 1
  let k : Kernel :=
    { entry := sc.cursor, codeLo := sc.base.toNat, codeHi := sc.top.toNat
      laneBase := lc.base.toNat, laneWords := (lc.top - lc.base).toNat / 12
      vregs := fieldAt sh 0 8 + 1, width := 16 * 2 ^ fieldAt sh 8 2, team := fieldAt sh 16 5 + 1, scratchKiB := fieldAt sh 24 10
      idem := b 40, dual := b 41, prc := b 42, coop := b 43, node := b 44
      trapv := BitVec.ofNat 64 (natAt bs 40 / 4 * 4), emuv := BitVec.ofNat 64 (natAt bs 48 / 4 * 4), priv := natAt bs 56
      bag := bag, rsize := natAt bs 80, timer := natAt bs 88 }
  let reserved := fieldAt sh 10 6 != 0 || fieldAt sh 21 3 != 0 || fieldAt sh 34 6 != 0 || fieldAt sh 45 19 != 0
    || (bs.drop 96).any (· ≠ 0)
  let node := k.node && (k.team ≠ 1 || k.rsize % 16 ≠ 0 || k.rsize < 16 || 256 < k.rsize || 2 ^ 20 < k.timer
    || !bag.tag || bag.malformed || bag.kind ≠ kDATA || !bag.has (pLD ||| pST ||| pATOM) || (bagRecords bag k.rsize).isNone)
  if reserved || !sectionCap sc || !sectionCap lc || k.laneBase % 16 ≠ 0 || (lc.top - lc.base).toNat % 12 ≠ 0
      || fieldAt sh 8 2 = 3 || k.priv % 16 ≠ 0 || 2 ^ 20 < k.priv
      || (if k.team ≤ 16 then 256 else 512) < k.scratchKiB || node || (k.coop && k.node) then none
  else some k

/-- Read a descriptor from local memory (R386). -/
def readKernel (d : Dev) (a : Nat) : Dev × Option Kernel :=
  let d := homeRead d a
  (d, if a % 64 ≠ 0 then none else kernelOf (d.mem.read a 128) ((List.range 8).map fun i => d.mem.tag (a / 16 + i)))

/-! ### The front end's writes -/

/-- The state word of a release timestamp merged into STATE (spec/13 R220, spec/21 R332). -/
def mergedRts (st : Word) (die epoch time : Nat) : Word :=
  let same := bit st 63 && (st.extractLsb' 46 2).toNat == die && (st.extractLsb' 40 6).toNat == epoch % 64
  let t := if same then max (st.extractLsb' 0 40).toNat time else time
  BitVec.ofNat 64 (2 ^ 63 + 2 ^ 46 * (die % 4) + 2 ^ 40 * (epoch % 64) + t % 2 ^ 40)

/-- A release add by the front end of a die on a local object (R303, R313): its time covers every earlier write of the front
end on the die. A poisoned VALUE is left as it is, and the consumption is recorded. -/
def frontAdd (d : Dev) (die ctx a add : Nat) : Dev :=
  let d := homeRead d a
  if d.mem.anyPoison a 8 then consume d ctx 2
  else
    let d := noteSync (homesTake d die a 16) a
    let d := noteFeTime d die (homesTime d die a 16)
    let t := (d.die die).feTime
    let v := d.mem.word a + BitVec.ofNat 64 add
    let st := mergedRts (d.mem.word (a + 8)) die (d.die die).epoch t
    raiseRmax { d with mem := d.mem.store a (toLe 8 v.toNat ++ toLe 8 st.toNat) false } die t

/-! ### Record mode when a team stops (spec/17 R295) -/

/-- Routes of the ids that a team's groups have joined and that name one of its cores fall back, with PRE set and nothing
counted. -/
def fallRoutes (m : Mach) (team : Nat) : Mach :=
  let gs := m.allGroups.filter fun g => g.team = team
  let ids := (List.range 16).filter fun i => gs.any fun g => g.roles.getD i .idle ≠ .idle
  match gs with
  | [] => m
  | g0 :: _ =>
    if ids.isEmpty then m
    else
      let t := m.d.team team
      let cores := if t.kernel.team ≤ 16 then [t.core] else [t.core, t.core + 1]
      let d := { m.d with cores := m.d.cores.map fun (e : Nat × Core) =>
        (e.1, if e.1 / Config.coresPerDie = g0.die then { e.2 with routes := e.2.routes.map fun (r : Nat × Route) =>
          (r.1, if r.2.ctx == g0.ctx && ids.contains r.2.id && (cores.contains r.2.prod || cores.contains r.2.cons) then
            { r.2 with fb := true } else r.2) } else e.2) }
      let x := ids.foldl (fun (x : Ctx) i => x.setRecording g0.die i { x.recording g0.die i with pre := true }) (d.ctx g0.ctx)
      { m with d := d.setCtx g0.ctx x }

/-- The groups of a team that is discarded leave their ids as `rec.end` leaves them (R283): a recording becomes recorded. -/
def dropRoles (m : Mach) (team : Nat) : Mach :=
  let gs := m.allGroups.filter fun g => g.team = team
  let d := gs.foldl (fun (d : Dev) g => (List.range 16).foldl (fun (d : Dev) i =>
    if g.roles.getD i .idle = .idle then d
    else
      let x := d.ctx g.ctx
      let r := x.recording g.die i
      d.setCtx g.ctx (x.setRecording g.die i
        { r with joined := r.joined - 1, recorded := r.recorded || g.roles.getD i .idle = .recording })) d) m.d
  { m with d := d }

/-! ### The end of a launch (R310, R185) -/

/-- Has a team of a launch ended in some way? A shadow copy is no team of its own. -/
def Team.over (t : Team) : Bool := t.status == .ended || t.status == .lost || t.status == .removed

/-- Have the last team of a launch and of its tail chains ended? -/
def launchOver (d : Dev) (k : Nat) : Bool :=
  let l := d.launch k
  let all := if l.kernel.node then decide (l.nodeFrom + l.teams ≤ l.nodeL) else decide (l.teams ≤ l.entered)
  all && d.teams.all fun e => !(e.2.launch = k && !e.2.shadow) || e.2.over

/-- The completion record is written, in release order at `.y`, and closes the launch: at once, or when its store performs. -/
def writeCompletion (d : Dev) (k : Nat) (bs : List Byte) : Dev :=
  let l := d.launch k
  if l.compl.tag && ownsByte d l.ctx (localAddr d l.compl.cursor) then frontPut d ⟨l.die, l.compl.cursor, bs, true, some k⟩
  else closeLaunch d k

/-- The end of a launch: `%cki` is copied and cleared, the completion record written, the packet completes, and ENDACT
acts (R185, R310, R316). -/
def endLaunch (m : Mach) (k : Nat) : Mach :=
  let l := m.d.launch k
  if l.done || l.closing || !launchOver m.d k then m
  else
    let x := m.d.ctx l.ctx
    let d := m.d.setCtx l.ctx { x with psn := false, psrc := 7, pcount := 0, warn := false, wcode := 0 }
    let d := writeCompletion d k (completionBytes l false x.ckiLow m.d.time)
    let d := if x.endact = 1 then post d evKernelEnd k l.ctx (BitVec.ofNat 64 k) (BitVec.ofNat 64 x.ckiLow) else d
    let m := { m with d := d }
    if x.endact = 2 && x.psn then removeContext m l.ctx { cause := 0x380A, reason := 2 } else m

/-- DONE of a node launch advances to the lowest record whose group has not ended (R313), where the mailbag is still its
context's (spec/16 R281) and no change of the carve-out holds it (R271). -/
def nodeRelease (d : Dev) (k : Nat) : Dev :=
  let l := d.launch k
  let live := (d.teams.filter fun e => e.2.launch = k && !e.2.shadow && !e.2.over).map fun e => e.2.first
  let low := live.foldl min l.nodeL
  let a := localAddr d (l.kernel.bag.base.toNat + 128)
  let done := d.mem.num a 8
  if low ≤ done || !ownsByte d l.ctx a || frontWaits d ⟨l.die, a, [], false, none⟩ then d else frontAdd d l.die l.ctx a (low - done)

/-! ### Teams that stop -/

/-- Take a team's groups away, with their engine work and their roles (R187, R209). -/
def dropGroups (m : Mach) (team : Nat) : Mach :=
  let m := dropRoles (fallRoutes m team) team
  let gs := m.allGroups.filter fun g => g.team = team
  let d := dropEngines (gs.foldl unwatch m.d) (gs.map fun g => g.gid).contains
  let d := dropClaims { d with groups := d.groups.filter fun e => e.2.team ≠ team } (· = team)
  { g := if m.g.live && m.g.team = team then m.g.gone else m.g, d := d }

/-- What a discarded or ended team no longer holds. -/
def Team.emptied (t : Team) (st : TeamStatus) : Team :=
  { t with status := st, members := [], slots := [], freed := [], scratch := {}, scratchBad := [], scratchSoft := [], scratchOver := [], scratchMet := [], recs := [], tails := [], endRegs := []
           endCrc := 0, endHold := [], owed := false, draining := false, preempt := false, abandoned := false, savedUnits := [], savedSlots := []
           savedObuf := {}, savedAcc := {}, savedAccBad := [] }

/-- A team is discarded for a later relaunch (R209), with the other copy of a dual pair. -/
def flushTeam (m : Mach) (k : Nat) : Mach :=
  let one (m : Mach) (k : Nat) : Mach :=
    let m := dropGroups m k
    { m with d := m.d.setTeam k ((m.d.team k).emptied .relaunch) }
  match (m.d.team k).partner with
  | some p => one (one m k) p
  | none => one m k

/-- A team is over (R213, R215): its launch counts it, and may be over too. -/
def teamOver (m : Mach) (k : Nat) (st : TeamStatus) (count : Launch → Launch) : Mach :=
  let t := m.d.team k
  let d := m.d.setTeam k (t.emptied st)
  let d := dropClaims d (· = k)
  let d := match t.partner with
    | some p => dropClaims (d.setTeam p ((d.team p).emptied st)) (· = p)
    | none => d
  let d := d.setLaunch t.launch (count (d.launch t.launch))
  let d := if (d.launch t.launch).kernel.node then nodeRelease d t.launch else d
  endLaunch { m with d := d } t.launch

end Sys2Proof.Machine
end

