-- ==== Sys2Proof/Machine/Access.lean ====
section
/-! DEFINITION. Memory as a group reaches it: the party, the checks with their waits, loads and stores in each space, dual
hold buffers, the store stream's CRC, ordinals and pushes (spec/05 R101, R102; spec/08 R149-R153; spec/12 R215; spec/17
R283, R286; spec/18 R317, R318; spec/22 R351, R361). -/

namespace Sys2Proof.Machine

/-- The group on turn as a party: a scalar word, or a lane (R153). -/
def Mach.party (m : Mach) (lane : Bool) : Party :=
  { colour := m.g.colour, part := m.g.part, scratch := (m.d.team m.g.team).scratchSize, priv := m.g.privSize
    lane := lane, scalar := !lane }

/-- A word meets a host window whose page is not resident (spec/22 R351): the first time the host is sent an event; after
1 ms without an answer (HATMISS) the access fails; otherwise it waits. -/
inductive HatWait where
  | expired | asked (d : Dev) | waiting
  deriving DecidableEq, Repr

/-- What a meeting with a non-resident window does. -/
def hatWait (d : Dev) (w : Nat) : HatWait :=
  if d.pkg.hatExpired.getD w false then .expired
  else if d.pkg.hatMiss.getD w false then .waiting
  else .asked { post d evHatMiss w 0 (BitVec.ofNat 64 w) 0 with pkg :=
    { (post d evHatMiss w 0 (BitVec.ofNat 64 w) 0).pkg with hatMiss := d.pkg.hatMiss.set w true false } }

/-- The window's answer has been used. -/
def hatClear (d : Dev) (w : Nat) : Dev :=
  { d with pkg := { d.pkg with hatMiss := d.pkg.hatMiss.set w false false, hatExpired := d.pkg.hatExpired.set w false false } }

/-- What a scalar word does with the outcome of its checks: a failed check traps (R101), a non-resident window waits, and a
passed check goes on. -/
def scalarOutcome (m : Mach) (r : Checked) (k : Mach → Option Mach) : Option Mach :=
  match r with
  | .fail cause => scalarTrap m cause
  | .busy => none
  | .miss w =>
    match hatWait m.d w with
    | .expired => scalarTrap { m with d := hatClear m.d w } cHATMISS
    | .asked d => some { m with d := d }
    | .waiting => none
  | .ok => k m

/-- A checked access of a scalar word. -/
def scalarChecked (R : CtlRegs) (m : Mach) (c : Cap) (need : Need) (a n : Nat) (k : Mach → Option Mach) : Option Mach :=
  scalarOutcome m (capCheck R m.d c (m.party false) need a n) k

/-- Does an access through a capability reach the ports' range at an address of the device's own index, so that it performs
here (R359)? -/
def fabricHere (d : Dev) (c : Cap) (a : Nat) : Bool :=
  c.kind != kSCRATCH && decide (Config.hostBase ≤ a) && decide (a < Config.addrTop) && !leaves d a

/-- A scalar memory word that performs here: where its access reached the ports' range, it counts on `fx` all the same once it has
issued, and its operation there is complete (R361). -/
def countFx (here : Bool) (k : Mach → Option Mach) (m : Mach) : Option Mach :=
  if !here then k m
  else if !m.g.canRaise .fx then none
  else (k m).map fun t =>
    if t.g.live && t.g.pc == m.g.pc + 4 && t.g.inHandler == m.g.inHandler then { t with g := t.g.raiseDone .fx } else t

/-- The checked access of a scalar memory word (R101, R361). -/
def memChecked (R : CtlRegs) (m : Mach) (c : Cap) (need : Need) (a n : Nat) (k : Mach → Option Mach) : Option Mach :=
  scalarChecked R m c need a n (countFx (fabricHere m.d c a) k)

/-- Does [a, a + n) touch a sector that a save found uncorrectable (R207)? Its first access, of any kind, consumes it. -/
def Team.metScratch (t : Team) (a n : Nat) : Bool := (blocksOf 32 a n).any fun k => t.scratchMet.getD k false

/-- Does [a, a + n) of a scratchpad touch a word with an uncorrectable error (R215)? -/
def Team.badScratch (t : Team) (a n : Nat) : Bool :=
  (blocksOf 8 a n).any (fun k => t.scratchBad.getD k false) || t.metScratch a n

/-- The bytes of 8-byte word k that a write of [o, o + n) covers. -/
def wordBytes (o n k : Nat) : BitVec 8 :=
  (List.range 8).foldl (fun b i => if o ≤ 8 * k + i ∧ 8 * k + i < o + n then setBit b i true else b) 0

/-- A team whose scratchpad takes a write of [o, o + n): a word whose eight bytes have all been rewritten, by this write or with
earlier ones, holds no error (R214). -/
def Team.rewritten (t : Team) (o n : Nat) : Team :=
  (blocksOf 8 o n).foldl (fun t k =>
    if !(t.scratchBad.getD k false || t.scratchSoft.getD k false) then t
    else
      let b := t.scratchOver.getD k 0 ||| wordBytes o n k
      if b = BitVec.allOnes 8 then
        { t with scratchBad := t.scratchBad.erase k, scratchSoft := t.scratchSoft.erase k, scratchOver := t.scratchOver.erase k }
      else { t with scratchOver := t.scratchOver.set k b 0 }) t

/-- The core whose SRAM holds an 8-byte word of a team's scratchpad: the second half of a pair's lies on the odd core (R204). -/
def Team.coreOfWord (t : Team) (k : Nat) : Nat := if 16 < t.kernel.team ∧ t.scratchSize / 2 ≤ 8 * k then t.core + 1 else t.core

/-- A read of a scratchpad corrects its single-bit errors, and the core that holds each counts it (R214). -/
def correctScratch (d : Dev) (team a n : Nat) : Dev :=
  let t := d.team team
  let soft := (blocksOf 8 a n).filter fun k => t.scratchSoft.getD k false
  if soft.isEmpty then d
  else
    let d := d.setTeam team { t with scratchSoft := soft.foldl (fun x i => x.erase i) t.scratchSoft }
    soft.foldl (fun d k =>
      let c := coreKey t.die (t.coreOfWord k)
      d.setCore c { (d.core c) with corrected := (d.core c).corrected + 1 }) d

/-- The space that a capability access performs in. -/
inductive Place where
  | scratch (off : Nat) | priv (off : Nat) | local_ (a : Nat) | device (a : Nat) | remote (a : Nat)
  deriving DecidableEq, Repr

/-- Where an access through a capability performs (R151, R330, R359). -/
def placeOf (d : Dev) (c : Cap) (a : Nat) : Place :=
  if c.kind = kSCRATCH then (if a / 2 ^ 49 % 2 = 1 then .priv (a % 2 ^ 49) else .scratch (a % 2 ^ 49))
  else if leaves d a then .remote a
  else if decide (Config.regBase ≤ a) && decide (a < Config.hostBase) then .device a
  else .local_ (localAddr d a)

/-- A held store of bytes at b over what was fetched at a (R317). -/
def overlayOne (a b : Nat) (bs : List Byte) (cap : Option Bool) (psn : Bool) (f : Fetched) : Fetched :=
  if !(decide (b < a + f.bytes.length) && decide (a < b + bs.length)) then f
  else
    { bytes := (List.range f.bytes.length).map fun i =>
        if b ≤ a + i && a + i < b + bs.length then bs.getD (a + i - b) 0 else f.bytes.getD i 0
      tag := cap == some true && b == a && bs.length == 16
      poison := if psn then true else f.poison }

/-- Held stores of the group over what memory, the register space or a port gives (R317): the group's own loads see them. -/
def overlay (hold : List HoldItem) (a : Nat) (f : Fetched) : Fetched :=
  hold.foldl (fun f h => match h with
    | .store b bs cap psn _ _ => overlayOne a b bs cap psn f
    | .device b v => overlayOne a b (toLe 8 v.toNat) none false f
    | .scratch _ _ _ _ | .push _ => f) f

/-- Held stores of the group over what its team's scratchpad gives. -/
def overlayScratch (hold : List HoldItem) (o : Nat) (f : Fetched) : Fetched :=
  hold.foldl (fun f h => match h with
    | .scratch b bs cap psn => overlayOne o b bs cap psn f
    | .store _ _ _ _ _ _ | .device _ _ | .push _ => f) f

/-- What a group reads of its team's scratchpad, with its own held stores, and whether it meets an uncorrectable word that they do
not rewrite (R317, spec/12 R214, R215). -/
def scratchFetch (t : Team) (g : Group) (o n : Nat) : Fetched × Bool :=
  let rewrite (t : Team) (h : HoldItem) : Team := match h with
    | .scratch b bs _ _ => t.rewritten b bs.length
    | .store _ _ _ _ _ _ | .device _ _ | .push _ => t
  if g.dual then (overlayScratch g.dualSt.hold o (t.scratch.fetch o n), (g.dualSt.hold.foldl rewrite t).badScratch o n)
  else (t.scratch.fetch o n, t.badScratch o n)

/-- A store enters the hold buffer of a dual group (R317). -/
def Group.holdItem (g : Group) (h : HoldItem) : Group := { g with dualSt := { g.dualSt with hold := g.dualSt.hold ++ [h] } }

/-- A load of n bytes by the group on turn (lane L for private memory) of a place that answers at once. The flag says
that it read an uncorrectable scratchpad word. -/
def groupLoad (R : CtlRegs) (m : Mach) (p : Place) (lane n : Nat) : Mach × Fetched × Bool :=
  match p with
  | .scratch o => ({ m with d := correctScratch m.d m.g.team o n }, scratchFetch (m.d.team m.g.team) m.g o n)
  | .priv o => (m, m.g.priv.fetch (2 ^ 20 * lane + o) n, false)
  | .local_ a =>
    let (g, d, from_) := cohLoad R m.g m.d a n
    let f := readFrom d from_ a n
    ({ g := g, d := d }, if g.dual then overlay g.dualSt.hold a f else f, false)
  | .device _ | .remote _ => (m, ⟨List.replicate n 0, false, false⟩, false)

/-- One step of the CRC-64 of ECMA-182 (R318). -/
def crcBit (c : Word) (b : Bool) : Word :=
  let x := c <<< 1
  if bit c 63 != b then x ^^^ 0x42F0E1EBA9EA3693 else x
/-- A byte, most significant bit first. -/
def crcByte (c : Word) (b : Byte) : Word := (List.range 8).foldl (fun c i => crcBit c (bit b (7 - i))) c
def crcBytes (c : Word) (bs : List Byte) : Word := bs.foldl crcByte c

/-- The element of one access (R318). -/
def crcStore (a : Nat) (bs : List Byte) (tag : Bool) : List Byte :=
  toLe 8 a ++ bs ++ List.replicate (16 - bs.length) 0 ++ toLe 8 (2 ^ bs.length - 1 + if tag then 65536 else 0)

/-- Feed the store stream of a dual group. -/
def Group.feed (g : Group) (e : List Byte) : Group :=
  if g.dual then { g with dualSt := { g.dualSt with crc := crcBytes g.dualSt.crc e } } else g

/-- A local store as memory takes it: a data store, or a capability write of a whole granule. -/
def Mem.put (m : Mem) (a : Nat) (bs : List Byte) (cap : Option Bool) (poison : Bool) : Mem :=
  match cap with
  | none => m.store a bs poison
  | some t => m.storeCap a bs t poison

/-- A store to a team's scratchpad. -/
def Team.putScratch (t : Team) (o : Nat) (bs : List Byte) (cap : Option Bool) (poison : Bool) : Team :=
  let t := t.rewritten o bs.length
  { t with scratch := t.scratch.put o bs cap poison }

/-- A store by the group on turn: private memory; scratchpad and memory at once or into the hold buffer of a dual group; or
a request through a port (R360: no tag crosses). `cap` holds the tag of a capability store. -/
def groupStore (m : Mach) (p : Place) (lane : Nat) (bs : List Byte) (cap : Option Bool) (poison : Bool) : Mach :=
  match p with
  | .scratch o =>
    let g := m.g.feed (crcStore o bs (cap == some true))
    if g.dual then { m with g := g.holdItem (.scratch o bs cap poison) }
    else { g := g, d := m.d.setTeam m.g.team ((m.d.team m.g.team).putScratch o bs cap poison) }
  | .priv o =>
    { m with g := { m.g.feed (crcStore (2 ^ 49 + o) bs (cap == some true)) with priv := m.g.priv.put (2 ^ 20 * lane + o) bs cap poison } }
  | .local_ a =>
    let g := m.g.feed (crcStore a bs (cap == some true))
    if g.dual then { m with g := g.holdItem (.store a bs cap poison (writerOf g a) true) }
    else
      let d := cohStore m.d g.die g.core a bs.length
      { g := g, d := setWriter (breakSeq { d with mem := d.mem.put a bs cap poison } a bs.length) (writerOf g a) a }
  | .device a => if m.g.dual then { m with g := (m.g.feed (crcStore a bs false)).holdItem (.device a (BitVec.ofNat 64 (leNat bs))) } else m
  | .remote a =>
    let g := m.g.feed (crcStore a bs (cap == some true))
    if g.dual then { m with g := g.holdItem (.store a bs none poison none true) }
    else { m with d := sendRemote m.d (some m.g.ctx) m.g.gid m.g.nextOp a bs.length (some bs) false .none [poison] }

/-- The lines of memory that a store wrote. -/
def Place.line? : Place → Option Nat
  | .local_ a => some (a / 128)
  | _ => none

/-- Would a store of n bytes meet a sector that a save found uncorrectable? -/
def Place.meets (p : Place) (t : Team) (n : Nat) : Bool :=
  match p with
  | .scratch o => t.metScratch o n
  | _ => false

/-- Every memory-writing word takes one ordinal in each id that the group has joined (R283). -/
def Group.takeOrdinal (g : Group) : Group :=
  { g with
    ords := (List.range 16).foldl (fun t i =>
      if g.roles.getD i .idle = .idle then t else t.set i (min 1048576 (t.getD i 0 + 1)) 0) g.ords
    dualSt := if g.dual then { g.dualSt with words := g.dualSt.words + 1 } else g.dualSt }

/-- An entry pushes, at the issue of its word (R286): PD is set and SENT rises. -/
def noteSent (d : Dev) (g : Group) (i : Nat) (r : Route) : Dev :=
  let k := coreKey g.die g.core
  let c := d.core k
  let d := d.setCore k { c with routes := c.routes.insert i { r with pd := true } }
  let x := d.ctx g.ctx
  let rec_ := x.recording g.die r.id
  d.setCtx g.ctx (x.setRecording g.die r.id { rec_ with sent := min (2 ^ 32 - 1) (rec_.sent + 1) })

/-- The push of one entry, once the word's writes to the line have performed (R286): the home takes the producer's times, and the
copy is on its way. -/
def pushRoute (R : CtlRegs) (d : Dev) (g : Group) (r : Route) : Dev :=
  let d := recallCopy d g.die r.line
  let h := d.line r.line
  let rts := h.mwts + lease R g.die
  let d := d.setLine r.line { h with mrts := max h.mrts rts }
  { d with
    pushes := d.pushes ++ [{ id := d.nextId, gid := g.gid, core := coreKey g.die r.cons, line := r.line
                             copy := { excl := false, wts := h.mwts, rts := rts, data := d.mem.line r.line, pushed := true
                                       word := r.word, words := r.nwm1 + 1, ctx := g.ctx, rid := r.id, prod := r.prod } }]
    nextId := d.nextId + 1 }

/-- The replay ordinals that the word on turn has taken: id and ordinal. -/
def Group.plays (g : Group) : List (Nat × Nat) :=
  ((List.range 16).filter fun i => g.roles.getD i .idle = .replay).map fun i => (i, g.ords.getD i 0)

/-- The entries of a word's replay ordinals, with their numbers (R286). -/
def playedRoutes (d : Dev) (g : Group) : List (Nat × Route) :=
  (d.core (coreKey g.die g.core)).routes.filter fun e =>
    e.2.ctx = g.ctx && !e.2.fb && e.2.slot = g.slot && g.plays.contains (e.2.id, e.2.ord) && decide (e.2.ord ≤ 1048575) && decide (1 ≤ e.2.ord)

/-- The entries of a word's replay ordinals are judged at its issue (R286, R290): those whose line a data store word writes push,
the others depart. -/
def judgePlays (d : Dev) (g : Group) (data : Bool) (lines : List Nat) : Dev :=
  (playedRoutes d g).foldl (fun d e =>
    if data && lines.contains e.2.line then noteSent d g e.1 e.2 else departRoute d g.die (coreKey g.die g.core) e.1 e.2) d

/-- The entries that push for a data store word that writes some lines. -/
def pushedRoutes (d : Dev) (g : Group) (data : Bool) (lines : List Nat) : List Route :=
  ((playedRoutes d g).filter fun e => data && lines.contains e.2.line).map fun e => e.2

/-- The pushes of a memory-writing word follow its writes: at once, or in a dual group where its stores leave the hold
buffer. -/
def pushRoutes (R : CtlRegs) (m : Mach) (data : Bool) (lines : List Nat) : Mach :=
  let rs := pushedRoutes m.d m.g data lines
  let d := judgePlays m.d m.g data lines
  if m.g.dual then { g := rs.foldl (fun g r => g.holdItem (.push r)) m.g, d := d }
  else { m with d := rs.foldl (fun d r => pushRoute R d m.g r) d }

/-- Loss of a team to a scratchpad error (R215): every group ends, engine work goes, each group has a halt record; that of the
reading group, if a group's word read, carries its position, of which R215 names `%tlpc` only for the others: their `%tspc` is written 0,
the model's choice (notes/assumptions/36). An eligible team is relaunched, at most twice, with the failing rows out of use: the
spec gives no rows, so a failing word stands for its own. The other copy of a dual pair goes with it (spec/18 R321). -/
def loseTeam (m : Mach) (k : Nat) (reader : Option (Nat × Word × Word)) : Mach :=
  let t := m.d.team k
  let mine := m.allGroups.filter fun g => g.team = k
  let d := mine.foldl (fun d g => match reader with
    | some (gid, tspc, tlpc) => if g.gid = gid then sendHalt d g tspc tlpc 0 else sendHalt d g 0 (BitVec.allOnes 64) 0
    | none => sendHalt d g 0 (BitVec.allOnes 64) 0) m.d
  let d := d.setTeam k { t with scratchLosses := t.scratchLosses + 1 }
  if t.elig && decide (t.scratchLosses < 2) then
    let words := ((t.scratchBad.map fun (e : Nat × Bool) => e.1) ++ t.scratchMet.map fun (e : Nat × Bool) => 4 * e.1).dedup
    flushTeam { m with d := words.foldl (fun d i =>
      let c := coreKey t.die (t.coreOfWord i)
      d.setCore c { (d.core c) with rowsOut := (d.core c).rowsOut ++ [(k, i)] }) d } k
  else
    let m := dropGroups { m with d := d } k
    let m := match t.partner with
      | some p => dropGroups m p
      | none => m
    teamOver m k .lost fun l => { l with lost := l.lost + 1, statusLost := true }

/-- The scalar word, or the lane word, on turn read an uncorrectable scratchpad word. -/
def scratchLoss (m : Mach) (lane : Bool) : Mach :=
  loseTeam m m.g.team (some (m.g.gid, m.g.pc, if lane then BitVec.ofNat 64 m.g.laneTrapPos else BitVec.allOnes 64))

/-- The team loses its restart eligibility for good (spec/12 R208). -/
def dropElig (m : Mach) : Mach :=
  let t := m.d.team m.g.team
  if t.elig then { m with d := m.d.setTeam m.g.team { t with elig := false } } else m

/-- A 64-bit pattern of loaded bytes, zero- or sign-extended. -/
def loadWord (bs : List Byte) (signed : Bool) : Word :=
  let x := BitVec.ofNat (8 * bs.length) (leNat bs)
  if signed then x.signExtend 64 else x.zeroExtend 64

end Sys2Proof.Machine
end

