-- ==== Sys2Proof/Machine/ScalarMem.lean ====
section
/-! DEFINITION. Scalar loads and stores, `c.ld` and `c.st` (spec/05 R101, R102; spec/08 R162; spec/22 R361). -/

namespace Sys2Proof.Machine

/-- cursor + offset × n (R101), exact: an address outside the space is given as 2^51, beyond every capability's top. -/
def smAddr (c : Cap) (off : BitVec 16) (n : Nat) : Nat :=
  let x : Int := (c.cursor : Int) + off.toInt * n
  if 0 ≤ x ∧ x < (2 ^ 50 : Nat) then x.toNat else 2 ^ 51

/-- A word whose access leaves through a port (spec/22 R361): counted on `fx`, and the group waits for the answer. -/
def remoteWord (m : Mach) (a n : Nat) (write : Option (List Byte)) (atomic : Option (AmoOp × Word × Word))
    (w : RemoteWait) (sync : SyncPart := .no) : Option Mach :=
  if !m.g.canRaise .fx then none
  else
    let m := dropElig m
    let g := m.g
    let d := sendRemote m.d (some g.ctx) g.gid g.nextOp a n write false w
    let d := { d with remotes := d.remotes.map fun (r : Remote) => if r.id = m.d.nextId then { r with atomic := atomic, sync := sync } else r }
    some { g := { (g.raise .fx).advance with waitRemote := decide (w ≠ .none) }, d := d }

/-- The word on turn waits at a checkpoint of its pair (spec/18 R319): its element enters the CRC first. -/
def Group.atCheckpoint (g : Group) (e : List Byte) : Group :=
  { g.feed e with dualSt := { (g.feed e).dualSt with waiting := true } }

/-- The checkpoint of the word on turn has matched, and is used up. -/
def Group.passCheckpoint (g : Group) : Group := { g with dualSt := { g.dualSt with passed := false } }

/-- A checkpoint before the word on turn in a dual team (spec/18 R319): the word waits until the pair has matched. -/
def dualGate (m : Mach) (e : List Byte) (k : Mach → Option Mach) : Option Mach :=
  let g := m.g
  if !g.dual then k m
  else if g.dualSt.passed then k { m with g := g.passCheckpoint }
  else if g.dualSt.waiting then none
  else some { m with g := g.atCheckpoint e }

/-- The checkpoint after every 256th memory-writing word (R319). -/
def Group.dualCount (g : Group) : Group :=
  if g.dual && decide (256 ≤ g.dualSt.words) then { g with dualSt := { g.dualSt with waiting := true } } else g

/-- A register as the group's own loads see it: with its held writes (spec/18 R317). -/
def Mach.ownReg (R : CtlRegs) (m : Mach) (a : Nat) : Word :=
  if m.g.dual then BitVec.ofNat 64 (leNat (overlay m.g.dualSt.hold a ⟨toLe 8 (regRead R m.d a).toNat, false, false⟩).bytes)
  else regRead R m.d a

/-- A scalar load (R101): zero-extended, or sign-extended. -/
def scalarLoad (signed : Bool) (n : Nat) (d : SReg) (c : CReg) (off : BitVec 16) (R : CtlRegs) (m : Mach) : Option Mach :=
  let cap := m.g.rc c.toNat
  let a := smAddr cap off n
  memChecked R m cap needLoad a n fun m =>
    match placeOf m.d cap a with
    | .remote a => remoteWord m a n none none (.scalar d.toNat n signed)
    | .device a => some { m with g := m.g.result d (m.ownReg R a) }
    | p =>
      let (m', f, bad) := groupLoad R m p 0 n
      if bad then some (scratchLoss m false)
      else if f.poison then
        if m.g.prc then scalarTrap { m with d := m'.d } cPOISON
        else some { g := m'.g.result d 0, d := consume m'.d m.g.ctx 1 }
      else some { m' with g := m'.g.result d (loadWord f.bytes signed) }

/-- After a scalar memory-writing word: its pushes, and the count of a dual group. -/
def wroteMemory (R : CtlRegs) (m : Mach) (data : Bool) (lines : List Nat) : Mach :=
  let m := pushRoutes R m data lines
  { m with g := m.g.dualCount }

/-- A store through a port by a dual group enters its hold buffer; the team loses its restart eligibility as at the word's issue
(spec/12 R208, spec/18 R317). Its count on `fx` falls at once, as a held store has been done for its own group (spec/22 R361). -/
def holdRemote (R : CtlRegs) (m : Mach) (a : Nat) (bs : List Byte) (cap : Option Bool) : Option Mach :=
  if !m.g.canRaise .fx then none
  else
    let m := wroteMemory R (groupStore (dropElig { m with g := m.g.takeOrdinal }) (.remote a) 0 bs cap false) true []
    some { m with g := (m.g.raiseDone .fx).advance }

/-- A store to a place of the group's own reach: a scratchpad sector that a save found uncorrectable is met first
(spec/12 R207, R215). -/
def scalarPut (R : CtlRegs) (m : Mach) (p : Place) (bs : List Byte) (cap : Option Bool) : Option Mach :=
  if p.meets (m.d.team m.g.team) bs.length then some (scratchLoss m false)
  else
    let m := wroteMemory R (groupStore { m with g := m.g.takeOrdinal } p 0 bs cap false) true p.line?.toList
    some { m with g := m.g.advance }

/-- A scalar store (R101); one to the register space comes here in a dual group only, which holds it (spec/18 R317). -/
def scalarStore (n : Nat) (d : SReg) (c : CReg) (off : BitVec 16) (R : CtlRegs) (m : Mach) : Option Mach :=
  let cap := m.g.rc c.toNat
  let a := smAddr cap off n
  let bs := toLe n (m.g.rs d.toNat).toNat
  memChecked R m cap needStore a n fun m =>
    match placeOf m.d cap a with
    | .remote a =>
      if m.g.dual then holdRemote R m a bs none
      else remoteWord (wroteMemory R { m with g := m.g.takeOrdinal } true []) a n (some bs) none .none
    | p => scalarPut R m p bs none

/-- Does a scalar store of 8 bytes reach the register space with every check passed (spec/21 R330)? -/
def storesRegister (n : Nat) (c : CReg) (off : BitVec 16) (s : State) : Bool :=
  let cap := s.grp.rc c.toNat
  let a := smAddr cap off n
  decide (capCheck s.regs s.dev cap (s.mach.party false) needStore a n = .ok) && placeOf s.dev cap a == .device a

/-- A scalar store (R101): a register is written at once, and the word departs the routes of its ordinals (spec/17 R290). -/
def scalarStoreAny (n : Nat) (d : SReg) (c : CReg) (off : BitVec 16) (s : State) : Host.Outcome State Fault Refusal :=
  if storesRegister n c off s && !s.grp.dual then
    let s' := s.writeReg (smAddr (s.grp.rc c.toNat) off n) (s.grp.rs d.toNat)
    let m := wroteMemory s.regs { g := s.grp.takeOrdinal, d := s'.dev } true []
    s.adopt (s'.put { m with g := m.g.advance })
  else actOrWait (scalarStore n d c off) s

def execSLdN8 (d : SReg) (c : CReg) (off : BitVec 16) (s : State) : Host.Outcome State Fault Refusal :=
  actOrWait (scalarLoad false 1 d c off) s
def execSLdN16 (d : SReg) (c : CReg) (off : BitVec 16) (s : State) : Host.Outcome State Fault Refusal :=
  actOrWait (scalarLoad false 2 d c off) s
def execSLdN32 (d : SReg) (c : CReg) (off : BitVec 16) (s : State) : Host.Outcome State Fault Refusal :=
  actOrWait (scalarLoad false 4 d c off) s
def execSLdN64 (d : SReg) (c : CReg) (off : BitVec 16) (s : State) : Host.Outcome State Fault Refusal :=
  actOrWait (scalarLoad false 8 d c off) s
def execSLdI8 (d : SReg) (c : CReg) (off : BitVec 16) (s : State) : Host.Outcome State Fault Refusal :=
  actOrWait (scalarLoad true 1 d c off) s
def execSLdI16 (d : SReg) (c : CReg) (off : BitVec 16) (s : State) : Host.Outcome State Fault Refusal :=
  actOrWait (scalarLoad true 2 d c off) s
def execSLdI32 (d : SReg) (c : CReg) (off : BitVec 16) (s : State) : Host.Outcome State Fault Refusal :=
  actOrWait (scalarLoad true 4 d c off) s
def execSStN8 (d : SReg) (c : CReg) (off : BitVec 16) (s : State) : Host.Outcome State Fault Refusal :=
  scalarStoreAny 1 d c off s
def execSStN16 (d : SReg) (c : CReg) (off : BitVec 16) (s : State) : Host.Outcome State Fault Refusal :=
  scalarStoreAny 2 d c off s
def execSStN32 (d : SReg) (c : CReg) (off : BitVec 16) (s : State) : Host.Outcome State Fault Refusal :=
  scalarStoreAny 4 d c off s
def execSStN64 (d : SReg) (c : CReg) (off : BitVec 16) (s : State) : Host.Outcome State Fault Refusal :=
  scalarStoreAny 8 d c off s

/-- `c.ld` (R162): the tag is the granule's AND LDC, after the sweep filter (spec/16 R277); poison gives an untagged zero. -/
def capLoad (d c : CReg) (off : BitVec 16) (R : CtlRegs) (m : Mach) : Option Mach :=
  let cap := m.g.rc c.toNat
  let a := smAddr cap off 16
  memChecked R m cap needLoad a 16 fun m =>
    match placeOf m.d cap a with
    | .remote a => remoteWord m a 16 none none (.capReg d.toNat)
    | p =>
      let (m', f, bad) := groupLoad R m p 0 16
      if bad then some (scratchLoss m false)
      else if f.poison then
        if m.g.prc then scalarTrap { m with d := m'.d } cPOISON
        else some { g := m'.g.capResult d {}, d := consume m'.d m.g.ctx 1 }
      else some { m' with g := m'.g.capResult d (sweepFilter m'.d m.g.part (Cap.ofBytes f.bytes (f.tag && cap.has pLDC))) }

/-- `c.st` (R162): the granule takes `c`D's tag, after the sweep filter. -/
def capStore (d c : CReg) (off : BitVec 16) (R : CtlRegs) (m : Mach) : Option Mach :=
  let cap := m.g.rc c.toNat
  let a := smAddr cap off 16
  memChecked R m cap needCapStore a 16 fun m =>
    let x := sweepFilter m.d m.g.part (m.g.rc d.toNat)
    match placeOf m.d cap a with
    | .remote a =>
      if m.g.dual then holdRemote R m a x.bytes (some x.tag)
      else remoteWord (wroteMemory R { m with g := m.g.takeOrdinal } true []) a 16 (some x.bytes) none .none
    | p => scalarPut R m p x.bytes (some x.tag)

/-- `c.ld` (R162). -/
def execCLd (d c : CReg) (off : BitVec 16) (s : State) : Host.Outcome State Fault Refusal := actOrWait (capLoad d c off) s
/-- `c.st` (R162). -/
def execCSt (d c : CReg) (off : BitVec 16) (s : State) : Host.Outcome State Fault Refusal := actOrWait (capStore d c off) s

end Sys2Proof.Machine
end

