-- ==== Sys2Proof/Machine/Special.lean ====
section
/-! DEFINITION. Special-register moves, the scalar check words, `s.emu`, returns, and the record words (spec/05 R104-R106;
spec/09 R172-R184; spec/02 R33-R39; spec/17 R291-R295). -/

namespace Sys2Proof.Machine

/-- `%cki` (spec/09 R180). -/
def Ctx.cki (x : Ctx) : Word := BitVec.ofNat 64 (x.ckiLow + 2 ^ 32 * x.endact.toNat)
/-- `%recdep` (spec/17 R294). -/
def Ctx.recdep (x : Ctx) : Word := BitVec.ofNat 64 (x.depIds.toNat + 2 ^ 32 * x.depCount.toNat)
/-- `%rsp` (spec/05 R98). -/
def Group.rsp (g : Group) : Word := BitVec.ofNat 64 (65536 * g.stack.length + g.spilled)
/-- `%nestmax` (spec/04 R83). -/
def Group.nestmax (g : Group) : Word := BitVec.ofNat 64 (256 * g.nestHigh.toNat + g.nestLimit.toNat)

/-- The value of special register n (R104, R85). -/
def specialValue (g : Group) (x : Ctx) (n : Nat) : Word :=
  if n = 0x01 then BitVec.ofNat 64 g.index
  else if n = 0x02 then BitVec.ofNat 64 g.teamNo
  else if n = 0x03 then BitVec.ofNat 64 g.width
  else if n = 0x04 then BitVec.ofNat 64 g.tile
  else if n = 0x08 then x.cki
  else if n = 0x09 then g.fmask
  else if n = 0x0A then g.causeWord
  else if n = 0x0B then g.tspc
  else if n = 0x0C then g.tlpc
  else if n = 0x0D then g.trapv
  else if n = 0x0E then g.emuv
  else if n = 0x0F then g.nestmax
  else if n = 0x10 then g.e0
  else if n = 0x11 then g.e1
  else if n = 0x12 then g.e2
  else if n = 0x13 then g.e3
  else if n = 0x14 then g.rsp
  else if n = 0x15 then x.recdep
  else if n = 0x16 then x.nevflag.zeroExtend 64
  else if n = 0x17 then g.dzmask
  else if n = 0x18 then g.domask
  else if 0x20 ≤ n ∧ n ≤ 0x26 then x.nev.getD (n - 0x20) 0
  else if 0x30 ≤ n ∧ n ≤ 0x37 then g.mask (n - 0x30)
  else if 0x38 ≤ n ∧ n ≤ 0x3B then (g.x.getD (n - 0x38) 0).zeroExtend 64
  else 0

/-- The moves that first wait as `lwait` (R105), and of the writes those of R72 besides. -/
def specialWaits (write : Bool) (n : Nat) : Bool :=
  n == 0x30 || n == 0x08 || n == 0x0F || n == 0x15 || (decide (0x16 ≤ n) && decide (n ≤ 0x18))
  || (decide (0x20 ≤ n) && decide (n ≤ 0x26)) || (write && (n == 0x04 || decide (0x38 ≤ n)))

/-- Bits [63:2] of a value (R6). -/
def clearLow2 (x : Word) : Word := x &&& ~~~(3 : Word)

/-- A write of `%cki` (spec/09 R180). -/
def Ctx.writeCki (x : Ctx) (v : Word) : Ctx :=
  let x := if v.extractLsb' 32 2 = 3 then x else { x with endact := v.extractLsb' 32 2 }
  let x := if bit v 11 then x else { x with warn := false, wcode := 0 }
  if bit v 0 then x else { x with psn := false, psrc := 7, pcount := 0 }

/-- The special registers of the group that a move writes without a trap (R104); every other write is discarded. -/
def Group.writeSpecial (g : Group) (n : Nat) (v : Word) : Group :=
  if n = 0x04 then { g with tile := (v.extractLsb' 0 3).toNat }
  else if n = 0x09 then { g with fmask := v &&& maskBelow g.width }
  else if n = 0x0A then { g with skip := bit v 15 }
  else if n = 0x0B then { g with tspc := clearLow2 v }
  else if n = 0x0C then { g with tlpc := v }
  else if n = 0x0D then { g with trapv := clearLow2 v }
  else if n = 0x0E then { g with emuv := clearLow2 v }
  else if n = 0x0F then { g with nestLimit := v.extractLsb' 0 8, nestHigh := 0 }
  else if n = 0x14 then
    { g with spilled := (v.extractLsb' 0 10).toNat, stack := g.stack.drop (g.stack.length - (v.extractLsb' 16 5).toNat) }
  else if n = 0x17 then { g with dzmask := v }
  else if n = 0x18 then { g with domask := v }
  else if 0x31 ≤ n ∧ n ≤ 0x37 then g.setM (n - 0x30) v
  else if 0x38 ≤ n ∧ n ≤ 0x3B then { g with x := g.x.set (n - 0x38) (v.extractLsb' 0 8) 0 }
  else g

/-- The special registers of the context that a move writes (R104, R63, R64, spec/17 R294). -/
def Ctx.writeSpecial (x : Ctx) (n : Nat) (v : Word) : Ctx :=
  if n = 0x08 then x.writeCki v
  else if n = 0x15 then { x with depIds := 0, depCount := 0 }
  else if n = 0x16 then { x with nevflag := x.nevflag &&& v.extractLsb' 0 7 }
  else if 0x20 ≤ n ∧ n ≤ 0x26 then { x with nev := x.nev.set (n - 0x20) (x.nev.getD (n - 0x20) 0 &&& ~~~(0xFFFFFFFF : Word)) 0 }
  else x

/-- Does the write trap with ILLEGAL: a reserved tile (R84), or an `%rsp` that raises HELD or overfills SPILLED (R98)? -/
def Group.illegalWrite (g : Group) (n : Nat) (v : Word) : Bool :=
  if n = 0x04 then
    let t := (v.extractLsb' 0 3).toNat
    decide (6 ≤ t) || (t == 5 && decide (g.width < 64)) || (t == 4 && decide (g.width = 16))
  else if n = 0x14 then
    decide (512 < (v.extractLsb' 0 10).toNat) || decide (g.stack.length < (v.extractLsb' 16 5).toNat)
  else false

/-- Is a special register one of the context's? -/
def contextSpecial (n : Nat) : Bool :=
  n == 0x08 || n == 0x15 || n == 0x16 || (decide (0x20 ≤ n) && decide (n ≤ 0x26))

/-- `s.mfs` (R104, R105). -/
def moveFrom (d : SReg) (n : Nat) (m : Mach) : Option Mach :=
  if specialWaits false n && !m.g.lanesIdle then none
  else some { m with g := m.g.result d (specialValue m.g (m.d.ctx m.g.ctx) n) }

/-- `s.mts` (R104, R105). -/
def moveTo (n : Nat) (a : SReg) (m : Mach) : Option Mach :=
  let v := m.g.rs a.toNat
  if specialWaits true n && !m.g.lanesIdle then none
  else if m.g.illegalWrite n v then scalarTrap m cILLEGAL
  else if contextSpecial n then
    some { g := m.g.advance, d := m.d.setCtx m.g.ctx ((m.d.ctx m.g.ctx).writeSpecial n v) }
  else some { m with g := (m.g.writeSpecial n v).advance }

/-- `s.mfs` (R104). -/
def execSMfs (d : SReg) (n : BitVec 6) (s : State) : Host.Outcome State Fault Refusal :=
  actOrWait (fun _ m => moveFrom d n.toNat m) s

/-- `s.mts` (R104). -/
def execSMts (n : BitVec 6) (a : SReg) (s : State) : Host.Outcome State Fault Refusal :=
  actOrWait (fun _ m => moveTo n.toNat a m) s

/-- A word that first waits as `lwait`. -/
def afterLanes (f : Mach → Option Mach) (m : Mach) : Option Mach := if m.g.lanesIdle then f m else none

/-- `chk.err` (R184). -/
def execChkErr (d : SReg) (s : State) : Host.Outcome State Fault Refusal :=
  actOrWait (fun _ => afterLanes fun m => some { m with g := m.g.result d (m.d.ctx m.g.ctx).cki }) s

/-- `chk.err.t` (R184): PSN traps with POISON. -/
def execChkErrT (d : SReg) (s : State) : Host.Outcome State Fault Refusal :=
  actOrWait (fun _ => afterLanes fun m =>
    if (m.d.ctx m.g.ctx).psn then scalarTrap m cPOISON
    else some { m with g := m.g.result d (m.d.ctx m.g.ctx).cki }) s

/-- Clear PSN, PCOUNT, WARN and WCODE, and set PSRC to 7 (R184, R185). -/
def Ctx.chkClr (x : Ctx) : Ctx := { x with psn := false, pcount := 0, warn := false, wcode := 0, psrc := 7 }

/-- `chk.clr` (R184). -/
def execChkClr (s : State) : Host.Outcome State Fault Refusal :=
  actOrWait (fun _ => afterLanes fun m =>
    some { g := m.g.advance, d := m.d.setCtx m.g.ctx (m.d.ctx m.g.ctx).chkClr }) s

/-- `%e1` (spec/02 R34). -/
def e1Word (kind : Nat) (lane slotY : Bool) (hi : Nat) : Word :=
  BitVec.ofNat 64 (hi + 2 ^ 32 * kind + (if lane then 2 ^ 36 else 0) + if slotY then 2 ^ 37 else 0)
/-- `%e2` of a scalar word (R34). -/
def e2Scalar (w : BitVec 32) : Word :=
  BitVec.ofNat 64 ((w.extractLsb' 26 6).toNat + 2 ^ 10 * (w.extractLsb' 20 6).toNat + 2 ^ 18 * (w.extractLsb' 14 6).toNat
    + 2 ^ 27 * (w.extractLsb' 8 6).toNat + 2 ^ 36 * (w.extractLsb' 0 8).toNat)

/-- A scalar word enters emulation (R32): `%e3` reads `m0`. -/
def emulateScalar (kind : Nat) (w : BitVec 32) (m : Mach) : Option Mach :=
  enterEmulation m false (w.zeroExtend 64) (e1Word kind false false 0) (e2Scalar w) m.g.m0

/-- `s.emu` (R37): KIND 8; `%e0` holds the word. -/
def execSEmu (code : BitVec 26) (s : State) : Host.Outcome State Fault Refusal :=
  actOrWait (fun _ m => emulateScalar 8 (BitVec.ofNat 32 (0x3E * 2 ^ 26 + code.toNat)) m) s

/-- `sys.tret` (R176). -/
def execSysTret (s : State) : Host.Outcome State Fault Refusal := actOrWait (fun _ m => trapReturn m) s

/-- `sys.emuret` (R35, R39). -/
def execSysEmuret (s : State) : Host.Outcome State Fault Refusal := actOrWait (fun _ m => emulationReturn m) s

/-- `sys.yield` (R106): the youngest in its next scalar selection (spec/12 R198). -/
def execSysYield (s : State) : Host.Outcome State Fault Refusal := onGroup (fun g => { g.advance with yielded := true }) s

/-- `sys.time` (R106): the cycles since the last look are not modelled, so a free number of them has passed
(notes/assumptions/8). -/
def execSysTime (d : SReg) (s : State) : Host.Outcome State Fault Refusal :=
  let t := s.dev.time + (Config.freeValue s.fresh).toNat
  .next { s with
    grp := s.grp.result d (BitVec.ofNat 64 t)
    dev := { s.dev with dies := (List.range 4).foldl (fun t' k =>
      t'.set k { t'.getD k {} with time := (t'.getD k {}).time + (Config.freeValue s.fresh).toNat } {}) s.dev.dies }
    fresh := s.fresh + 1 }

/-! ### Record words -/

/-- Remove every entry of an id on a die (spec/17 R291). -/
def removeRoutes (d : Dev) (ctx die id : Nat) : Dev :=
  { d with cores := d.cores.map fun (e : Nat × Core) =>
      (e.1, if e.1 / Config.coresPerDie = die then
        { e.2 with routes := e.2.routes.filter fun r => !(r.2.ctx == ctx && r.2.id == id) } else e.2) }

/-- join_rec(g, i) (R291); the recorders do not see the shadow copy of a dual team (R295). -/
def joinRec (m : Mach) (i : Nat) : Mach :=
  if m.g.shadow then m else
  let g := m.g
  let d := if ((m.d.ctx g.ctx).recording g.die i).joined = 0 then
      let d := removeRoutes m.d g.ctx g.die i
      d.setCtx g.ctx ((d.ctx g.ctx).setRecording g.die i {})
    else m.d
  let x := d.ctx g.ctx
  let r := x.recording g.die i
  { g := { g with roles := g.roles.set i .recording .idle, ords := g.ords.set i 0 0, staleIds := g.staleIds.set i false false }
    d := d.setCtx g.ctx (x.setRecording g.die i { r with joined := r.joined + 1 }) }

/-- The play half of `rec.replay` (R291). -/
def joinPlay (m : Mach) (i : Nat) : Mach :=
  if m.g.shadow then m else
  let g := m.g
  let x := m.d.ctx g.ctx
  let r := x.recording g.die i
  let d := m.d.setCtx g.ctx (x.setRecording g.die i { r with joined := r.joined + 1 })
  let k := coreKey g.die g.core
  let c := d.core k
  let d := d.setCore k { c with routes := c.routes.map fun (e : Nat × Route) =>
    (e.1, if e.2.ctx = g.ctx && e.2.id = i && e.2.slot = g.slot then { e.2 with pd := false } else e.2) }
  { g := { g with roles := g.roles.set i .replay .idle, ords := g.ords.set i 0 0
                  missed := g.missed.filter fun e => e.1 ≠ i }
    d := d }

/-- The id of a record word: a[3:0]. -/
def recId (m : Mach) (a : SReg) : Nat := (m.g.rs a.toNat).toNat % 16

/-- `rec.begin` (R291). -/
def execRecBegin (a : SReg) (s : State) : Host.Outcome State Fault Refusal :=
  actOrWait (fun _ => afterLanes fun m =>
    let m := joinRec (leaveId m (recId m a)) (recId m a)
    some { m with g := m.g.advance }) s

/-- `rec.end` (R291). -/
def execRecEnd (a : SReg) (s : State) : Host.Outcome State Fault Refusal :=
  actOrWait (fun _ => afterLanes fun m =>
    let m := leaveId m (recId m a)
    some { m with g := m.g.advance }) s

/-- `rec.replay` (R291). -/
def execRecReplay (a : SReg) (s : State) : Host.Outcome State Fault Refusal :=
  actOrWait (fun _ => afterLanes fun m =>
    let i := recId m a
    let m := leaveId m i
    let m := if ((m.d.ctx m.g.ctx).recording m.g.die i).recorded then joinPlay m i else joinRec m i
    some { m with g := m.g.advance }) s

/-- `rec.rerecord` (R291); a shadow copy is not seen (R295). -/
def execRecRerecord (a : SReg) (s : State) : Host.Outcome State Fault Refusal :=
  actOrWait (fun _ => afterLanes fun m =>
    if m.g.shadow then some { m with g := m.g.advance } else
    let i := recId m a
    let d := removeRoutes m.d m.g.ctx m.g.die i
    let x := d.ctx m.g.ctx
    let r := x.recording m.g.die i
    some { g := m.g.advance
           d := d.setCtx m.g.ctx (x.setRecording m.g.die i { r with recorded := false, full := false }) }) s

/-- `rec.drop` (R291): every joined group of the context on the die leaves with no role; a shadow copy is not seen (R295). -/
def execRecDrop (a : SReg) (s : State) : Host.Outcome State Fault Refusal :=
  actOrWait (fun _ => afterLanes fun m =>
    if m.g.shadow then some { m with g := m.g.advance } else
    let i := recId m a
    let ctx := m.g.ctx
    let die := m.g.die
    let d := removeRoutes m.d ctx die i
    let d := d.setCtx ctx ((d.ctx ctx).setRecording die i {})
    let m := ({ m with d := d } : Mach).onGroups (fun g => g.ctx = ctx && g.die = die)
      fun g => { g with roles := g.roles.set i .idle .idle }
    some { m with g := m.g.advance }) s

/-- What `rec.status` writes (R292). -/
def recStatusValue (m : Mach) (v : Nat) : Word :=
  let i := v % 16
  let r := (m.d.ctx m.g.ctx).recording m.g.die i
  match v / 16 % 4 with
  | 0 => BitVec.ofNat 64 r.sent
  | 1 => BitVec.ofNat 64 r.used
  | 2 => BitVec.ofNat 64 r.deps
  | _ =>
    let n := ((routesOf m.d m.g.die).filter fun e => e.2.2.ctx == m.g.ctx && e.2.2.id == i).length
    BitVec.ofNat 64 (2 ^ 32 * n + 65536 * r.joined + (if r.pre then 8 else 0) + (if r.full then 4 else 0)
      + if r.recorded then 2 else 0)

/-- `rec.status` (R292). -/
def execRecStatus (d a : SReg) (s : State) : Host.Outcome State Fault Refusal :=
  actOrWait (fun _ => afterLanes fun m =>
    some { m with g := m.g.result d (recStatusValue m (m.g.rs a.toNat).toNat) }) s

/-- The two halves of an entry (R285). -/
def Route.half (r : Route) (hi : Bool) : Word :=
  if hi then BitVec.ofNat 64 r.line
  else BitVec.ofNat 64 (2 ^ 63 + (if r.fb then 2 ^ 62 else 0) + 2 ^ 58 * r.id + 2 ^ 50 * r.prod + 2 ^ 42 * r.cons
    + 2 ^ 38 * r.slot + 2 ^ 33 * r.word + 2 ^ 28 * r.nwm1 + (if r.pd then 2 ^ 27 else 0) + r.ord)

/-- `rec.rte` (R293). -/
def execRecRte (d a : SReg) (s : State) : Host.Outcome State Fault Refusal :=
  actOrWait (fun _ => afterLanes fun m =>
    let v := (m.g.rs a.toNat).toNat
    let x := match (m.d.core (coreKey m.g.die m.g.core)).routes.find? (v % 256) with
      | some r => if r.ctx = m.g.ctx then r.half (v / 256 % 2 == 1) else 0
      | none => 0
    some { m with g := m.g.result d x }) s

end Sys2Proof.Machine
end

