-- ==== Sys2Proof/Machine/Sync.lean ====
section
/-! DEFINITION. Sync objects, atomics, monitor-wait and the team barrier (spec/13 R216-R227; spec/16 R266, R268; spec/21
R332). -/

namespace Sys2Proof.Machine

/-- The code of a scope (R218). -/
def scopeCode : Scope → Nat
  | .g => 0 | .t => 1 | .k => 2 | .d => 3 | .v => 4 | .y => 5

/-- Fields of STATE and of a release timestamp (R216, spec/16 R266). -/
def rtsDie (st : Word) : Nat := (st.extractLsb' 46 2).toNat
def rtsEpoch (st : Word) : Nat := (st.extractLsb' 40 6).toNat
def rtsTime (st : Word) : Nat := (st.extractLsb' 0 40).toNat
def rsqOpen (st : Word) : Bool := bit st 63
/-- STATE with an open sequence and a release time. -/
def stateOf (die epoch time : Nat) : Word :=
  BitVec.ofNat 64 (2 ^ 63 + 2 ^ 46 * (die % 4) + 2 ^ 40 * (epoch % 64) + time % 2 ^ 40)

/-- What an acquire needs of a SYNC object at its base: 8 bytes (R221). -/
def syncNeed (perms : BitVec 12) (write : Bool) : Need := { kinds := [3], perms := perms, write := write }

/-- A checked access to the object of a SYNC capability (R221); every `sy.` word needs its ownership, whose grant waits for an epoch
turn of the home (spec/21 R347). -/
def syncChecked (R : CtlRegs) (m : Mach) (c : Cap) (perms : BitVec 12) (write : Bool) (k : Mach → Option Mach) : Option Mach :=
  memChecked R m c (syncNeed perms write) c.base.toNat 8 fun m =>
    if !leaves m.d c.base.toNat && fwLocal.homeTurns m.d (localAddr m.d c.base.toNat) then none else k m

/-- Ownership of a line by the group's core (R263); the word is no data store (spec/17 R284). -/
def ownLine (m : Mach) (a : Nat) : Mach := { m with d := clearWriter (cohStore m.d m.g.die m.g.core a 8) a }
/-- Ownership of a sync object. -/
def ownObject (m : Mach) (a : Nat) : Mach := { ownLine m a with d := noteSync (ownLine m a).d a }

/-- The group's logical time. -/
def Mach.pts (m : Mach) : Nat := (m.d.core (coreKey m.g.die m.g.core)).pts

/-- The acquiring effect of a read of STATE at a scope (R266, R332): TIME where DIE and EPOCH are the core's own, and
RMAX at `.d` and wider. -/
def acquireAt (d : Dev) (g : Group) (st : Word) (sc : Scope) : Dev :=
  let x := d.die g.die
  let t := if rtsDie st = g.die && rtsEpoch st = x.epoch % 64 then rtsTime st else 0
  let t := if 3 ≤ scopeCode sc then max t x.rmax else t
  raisePts d (coreKey g.die g.core) t
/-- The group on turn acquires. -/
def acquireTime (m : Mach) (st : Word) (sc : Scope) : Mach := { m with d := acquireAt m.d m.g st sc }

/-- The time of a release on an object: the write time that its ownership store gave, on the core's own die; the core's
logical time for an object homed elsewhere (notes/assumptions/17). -/
def releaseTime (m : Mach) (a : Nat) : Nat :=
  match homeDie a with
  | some h => if h = m.g.die then writeTime m.d h a else m.pts
  | none => m.pts

/-- A release at `.d` or wider raises RMAX of the releaser's die (R332). -/
def releaseRmax (m : Mach) (t : Nat) (sc : Scope) : Mach :=
  if 3 ≤ scopeCode sc then { m with d := raiseRmax m.d m.g.die (max t m.pts) } else m

/-- Bring a release time into STATE (R220, R332): the greater time when an open sequence carries the same die and
epoch. -/
def mergeState (st : Word) (die epoch time : Nat) : Word :=
  if rsqOpen st && rtsDie st == die && rtsEpoch st == epoch % 64 then stateOf die epoch (max (rtsTime st) time)
  else stateOf die epoch time

/-- May a release or fence at a scope perform: pushes are placed at `.d` and wider (spec/17 R288), and remote accesses are
performed at `.y` (spec/22 R356). -/
def mayRelease (m : Mach) (sc : Scope) : Bool :=
  (decide (scopeCode sc < 3) || m.d.pushes.all fun p => p.gid ≠ m.g.gid)
  && (decide (scopeCode sc < 5) || m.d.remotes.all fun r => r.gid ≠ m.g.gid)

/-- Write 8 bytes of an object that the core owns. -/
def putWord (m : Mach) (a : Nat) (x : Word) : Mach :=
  { m with d := { m.d with mem := m.d.mem.store a (toLe 8 x.toNat) false } }

/-- Consumption of a poisoned scalar read by the word that found `m0`: recorded, or in a `prc` group a trap, before which the access
has met the errors of its line (R101, R221). -/
def poisonScalar (m0 m : Mach) (k : Mach → Option Mach) : Option Mach :=
  if m.g.prc then scalarTrap { m0 with d := m.d } cPOISON else k { m with d := consume m.d m.g.ctx 1 }

/-- Bytes of memory as the group's own loads see them (spec/18 R317). -/
def Mach.ownFetch (m : Mach) (a n : Nat) : Fetched :=
  if m.g.dual then overlay m.g.dualSt.hold a (m.d.mem.fetch a n) else m.d.mem.fetch a n

/-- Read VALUE of an object (R221): a poisoned VALUE reads as zero. -/
def readValue (m0 : Mach) (a : Nat) (k : Mach → Word → Option Mach) (m : Mach) : Option Mach :=
  let f := m.ownFetch a 8
  if f.poison then poisonScalar m0 m fun m => k m 0 else k m (loadWord f.bytes false)

/-- The STATE that a release leaves where the object's home is not the core's to read: the core's logical time
(notes/assumptions/17). -/
def releaseState (m : Mach) : Word := stateOf m.g.die (m.d.die m.g.die).epoch m.pts

/-- A sync word writes a register (spec/21 R330): the next step performs it. -/
def writeRegLater (m : Mach) (a : Nat) (v : Word) : Mach := { m with d := { m.d with regWrites := m.d.regWrites ++ [(a, v)] } }

/-- `sy.ld` (R222): an ownership access (spec/16 R263), with no ordering beyond the group's own. An object in the register space
is its VALUE's register (notes/assumptions/52). -/
def syLoad (d : SReg) (a : CReg) (R : CtlRegs) (m : Mach) : Option Mach :=
  let c := m.g.rc a.toNat
  syncChecked R m c pLD false fun m =>
    match placeOf m.d c c.base.toNat with
    | .remote x => remoteWord m x 8 none none (.scalar d.toNat 8 false)
    | .local_ x => readValue m x (fun m v => some { m with g := m.g.result d v }) (ownObject m x)
    | .device x => some { m with g := m.g.result d (m.ownReg R x) }
    | _ => none

/-- `sy.acq` (R222, R266). -/
def syAcquire (d : SReg) (a : CReg) (sc : Scope) (R : CtlRegs) (m : Mach) : Option Mach :=
  let c := m.g.rc a.toNat
  syncChecked R m c pLD false fun m =>
    match placeOf m.d c c.base.toNat with
    | .remote x => remoteWord m x 16 none none (.acquire d.toNat sc)
    | .local_ x =>
      readValue m x (fun m v =>
        let m := acquireTime m (m.d.mem.word (x + 8)) sc
        some { m with g := m.g.result d v }) (ownObject m x)
    | .device x => some { acquireTime m 0 sc with g := m.g.result d (m.ownReg R x) }
    | _ => none

/-- The two words of an object after a store that is no release (R220). -/
def storePlain (m : Mach) (x : Nat) (v : Word) : Mach := putWord (putWord (ownObject m x) x v) (x + 8) 0

/-- The two words after a release (R220, R266). -/
def storeRelease (m : Mach) (x : Nat) (v : Word) (sc : Scope) : Mach :=
  let m := ownObject m x
  let t := releaseTime m x
  let m := putWord (putWord m x v) (x + 8) (stateOf m.g.die (m.d.die m.g.die).epoch t)
  releaseRmax m t sc

/-- The 16 bytes of VALUE and STATE. -/
def objectBytes (v st : Word) : List Byte := toLe 8 v.toNat ++ toLe 8 st.toNat

/-- `sy.st` (R222); in a dual group it is held as every store is (spec/18 R317). -/
def syStore (a : CReg) (b : SReg) (R : CtlRegs) (m : Mach) : Option Mach :=
  let c := m.g.rc a.toNat
  let v := m.g.rs b.toNat
  syncChecked R m c pST true fun m =>
    let m := { m with g := m.g.takeOrdinal }
    match placeOf m.d c c.base.toNat with
    | .remote x =>
      if m.g.dual then
        if !m.g.canRaise .fx then none
        else
          let m := wroteMemory R (groupStore (dropElig m) (.remote x) 0 (objectBytes v 0) none false) false []
          some { m with g := (m.g.raiseDone .fx).advance }
      else remoteWord (wroteMemory R m false []) x 16 (some (objectBytes v 0)) none .none .plain
    | .local_ x =>
      let bs := objectBytes v 0
      let m := if m.g.dual then
          { g := (m.g.feed (crcStore x bs false)).holdItem (.store x bs none false none false), d := noteSync m.d x }
        else storePlain m x v
      let m := wroteMemory R m false []
      some { m with g := m.g.advance }
    | .device x =>
      let m := wroteMemory R (if m.g.dual then groupStore m (.device x) 0 (toLe 8 v.toNat) none false else writeRegLater m x v) false []
      some { m with g := m.g.advance }
    | _ => none

/-- `sy.rel` (R222, R288, R319): it waits for the lanes, and its group loses its restart eligibility (spec/12 R208). -/
def syRelease (a : CReg) (b : SReg) (sc : Scope) (R : CtlRegs) (m : Mach) : Option Mach :=
  let c := m.g.rc a.toNat
  let v := m.g.rs b.toNat
  if !m.g.lanesIdle || !mayRelease m sc then none
  else syncChecked R m c pST true fun m => dualGate m (crcStore c.base.toNat (toLe 8 v.toNat) false) fun m =>
    let m := dropElig { m with g := m.g.takeOrdinal }
    match placeOf m.d c c.base.toNat with
    | .remote x =>
      if m.g.shadow then some { m with g := (m.g.raiseDone .fx).advance }
      else
        let m := releaseRmax m m.pts sc
        remoteWord (wroteMemory R m false []) x 16 (some (objectBytes v (releaseState m))) none .none (.release (releaseState m))
    | .local_ x =>
      let m := if m.g.shadow then m else storeRelease m x v sc
      let m := wroteMemory R m false []
      some { m with g := m.g.advance }
    | .device x =>
      let m := if m.g.shadow then m else writeRegLater (releaseRmax m m.pts sc) x v
      let m := wroteMemory R m false []
      some { m with g := m.g.advance }
    | _ => none

/-- `sy.fence` (R222, R266, R332), a release at a checkpoint in a dual team (spec/18 R319). It leaves the restart eligibility of its
team, since spec/12 R208 names no fence: the model's choice (notes/assumptions/35). -/
def syFence (sc : Scope) (m : Mach) : Option Mach :=
  if !m.g.lanesIdle || !mayRelease m sc then none
  else dualGate m [] fun m =>
    let m := releaseRmax m m.pts sc
    let m := acquireTime m 0 sc
    some { m with g := m.g.advance }

/-- `sy.acq` (R222). -/
def execSyAcq (d : SReg) (a : CReg) (sc : Scope) (s : State) : Host.Outcome State Fault Refusal := actOrWait (syAcquire d a sc) s
/-- `sy.rel` (R222). -/
def execSyRel (a : CReg) (b : SReg) (sc : Scope) (s : State) : Host.Outcome State Fault Refusal := actOrWait (syRelease a b sc) s
/-- `sy.fence` (R222). -/
def execSyFence (sc : Scope) (s : State) : Host.Outcome State Fault Refusal := actOrWait (fun _ m => syFence sc m) s
/-- `sy.ld` (R222). -/
def execSyLd (d : SReg) (a : CReg) (s : State) : Host.Outcome State Fault Refusal := actOrWait (syLoad d a) s
/-- `sy.st` (R222). -/
def execSySt (a : CReg) (b : SReg) (s : State) : Host.Outcome State Fault Refusal := actOrWait (syStore a b) s

/-- `sy.mwait` (R226): an unequal VALUE completes as an acquire; otherwise the group parks with the word unissued. -/
def syMwait (d : SReg) (a : CReg) (b : SReg) (sc : Scope) (R : CtlRegs) (m : Mach) : Option Mach :=
  let c := m.g.rc a.toNat
  let e := m.g.rs b.toNat
  if m.g.park.isSome then none
  else syncChecked R m c pLD false fun m =>
    match placeOf m.d c c.base.toNat with
    | .remote x => remoteWord m x 16 none none (.mwait d.toNat e sc)
    | .local_ x =>
      readValue m x (fun m v =>
        if v = e then some { g := { m.g with park := some ⟨x, e⟩ }, d := watch m.d m.g.gid x }
        else
          let m := acquireTime m (m.d.mem.word (x + 8)) sc
          some { m with g := m.g.result d v }) (ownObject m x)
    | .device x =>
      let v := m.ownReg R x
      if v = e then some { m with g := { m.g with park := some ⟨x, e⟩ } }
      else some { acquireTime m 0 sc with g := m.g.result d v }
    | _ => none

/-- `sy.mwait` (R226). -/
def execSyMwait (d : SReg) (a : CReg) (b : SReg) (sc : Scope) (s : State) : Host.Outcome State Fault Refusal :=
  actOrWait (syMwait d a b sc) s

/-- A parked group wakes: it reads VALUE again. -/
def wakeGroup (gid : Nat) (m : Mach) : Mach :=
  match m.group? gid with
  | none => m
  | some g => { m with d := unwatch m.d g }.onGid gid fun g => { g with park := none }

/-- VALUE of an object in this device as a read gives it (R221): a poisoned one reads as zero. -/
def valueNow (R : CtlRegs) (d : Dev) (a : Nat) : Word :=
  if Config.regBase ≤ a then regRead R d a else if d.mem.anyPoison a 8 then 0 else d.mem.word a

/-- MWAIT_WAKE (R226, R268): a group whose watched VALUE, of an object in this device, now differs. -/
def mwaitWake (gid : Nat) (R : CtlRegs) (m : Mach) : Mach :=
  match (m.group? gid).bind fun g => g.park with
  | some p =>
    if leaves m.d p.addr then m
    else if valueNow R m.d p.addr = p.expect then m
    else wakeGroup gid m
  | none => m

/-- MWAIT_WAKE (R226); the home of an object behind a port sends it when VALUE differs (notes/assumptions/18). -/
def execMwaitWake (gid : Nat) (s : State) : Host.Outcome State Fault Refusal :=
  act (fun R m => match (m.group? gid).bind fun g => g.park with
    | some p => if leaves m.d p.addr then wakeGroup gid m else mwaitWake gid R m
    | none => m) s

/-- The new value of an atomic (R224), for a width and a compare of a type. -/
def amoNew (op : AmoOp) (w : Nat) (signed : Bool) (old b c : Nat) : Nat :=
  let sv (x : Nat) : Int := if signed && decide (2 ^ (w - 1) ≤ x) then (x : Int) - (2 ^ w : Nat) else x
  match op with
  | .add => (old + b) % 2 ^ w
  | .and => old &&& b
  | .or => old ||| b
  | .xor => old ^^^ b
  | .max => if sv old < sv b then b else old
  | .min => if sv b < sv old then b else old
  | .swap => b
  | .cas => if old = c then b else old

def ordAcquires : Ord → Bool
  | .acq | .ar => true
  | _ => false
def ordReleases : Ord → Bool
  | .rel | .ar => true
  | _ => false

/-- The performed atomic on an object or a DATA word at `x` whose line its core owns (R224, R220, R266): sd := old. -/
def rmwPerform (x : Nat) (sync : Bool) (d : SReg) (b : Word) (op : AmoOp) (ord : Ord) (sc : Scope) (m : Mach) : Mach :=
  let old := m.d.mem.word x
  let new := BitVec.ofNat 64 (amoNew op 64 false old.toNat b.toNat (m.g.rs d.toNat).toNat)
  let st := m.d.mem.word (x + 8)
  let t := releaseTime m x
  let m := putWord m x new
  let m := if sync then m else { m with d := breakSeq m.d x 8 }
  let m := if ordReleases ord then
      let m := if sync then putWord m (x + 8) (mergeState st m.g.die (m.d.die m.g.die).epoch t) else m
      releaseRmax m t sc
    else m
  let m := if ordAcquires ord then acquireTime m (if sync then st else 0) sc else m
  { m with g := m.g.result d old }

/-- What is forwarded of one access of an atomic: the old value, whether it was poisoned, and STATE. -/
def forwarded (old : Word) (poison : Bool) (st : Word) : List Word := [old, boolWord poison, st]
/-- The access numbered i of what was forwarded. -/
def forwardedAt (l : List Word) (i : Nat) : Word × Bool × Word := (l.getD (3 * i) 0, l.getD (3 * i + 1) 0 ≠ 0, l.getD (3 * i + 2) 0)

/-- Forward an atomic's old values to the shadow group of the same index (spec/18 R320). -/
def forward (m : Mach) (vals : List Word) : Mach :=
  if !m.g.dual || m.g.shadow then m
  else match (m.d.team m.g.team).partner with
  | none => m
  | some t => m.onGroups (fun g => g.team = t && g.index = m.g.index)
      fun g => { g with dualSt := { g.dualSt with inbox := g.dualSt.inbox ++ [vals] } }

/-- The shadow copy's atomic takes the forwarded old values (R320). -/
def takeForwarded (m : Mach) (k : Mach → List Word → Option Mach) : Option Mach :=
  match m.g.dualSt.inbox with
  | [] => none
  | v :: rest => k { m with g := { m.g with dualSt := { m.g.dualSt with inbox := rest } } } v

/-- A region descriptor (R216). -/
def descriptor (line lines : Nat) : Word := BitVec.ofNat 64 (2 ^ 63 + 2 ^ 43 * (lines - 1) + line)

/-- The checks of `c`B of `sy.bind`: a DATA capability of any permissions, its region as one access (R223, spec/08
R153). -/
def bindCheck (R : CtlRegs) (m : Mach) (c : Cap) : Checked :=
  if !c.tag then .fail cCAPTAG
  else if c.malformed then .fail cCAPFORM
  else if c.kind = kENVELOPE then .fail cCAPSEAL
  else if c.kind ≠ kDATA then .fail cCAPKIND
  else if c.colour ≠ m.g.colour then .fail cCAPCOLOUR
  else match regionFirewall R m.d (m.party false) false c.base.toNat c.top.toNat with
    | .pass => .ok
    | .refuse => .fail cFIREWALL
    | .busy => .busy
    | .miss w => .miss w

/-- `sy.bind` (R223): the order of its traps, then the lowest free descriptor. -/
def syBind (d : SReg) (a b : CReg) (R : CtlRegs) (m : Mach) : Option Mach :=
  let c := m.g.rc a.toNat
  let r := m.g.rc b.toNat
  syncChecked R m c pST true fun m => scalarOutcome m (bindCheck R m r) fun m =>
      let lo := r.base.toNat / 128
      let hi := ceilDiv r.top.toNat 128
      if r.top ≤ r.base || 2 ^ 20 < hi - lo then scalarTrap m cSYRANGE
      else dualGate m (crcStore c.base.toNat (toLe 8 (descriptor lo (hi - lo)).toNat) false) fun m =>
        if m.g.shadow then takeForwarded m fun m l =>
          if (forwardedAt l 0).2.1 then scalarTrap m cSYFULL
          else some { m with g := (if leaves m.d c.base.toNat then m.g.raiseDone .fx else m.g).result d (forwardedAt l 0).1 }
        else
          let w := descriptor lo (hi - lo)
          let bound (put : Nat → Mach) (k : Option Nat) : Option Mach := match k with
            | none => (scalarTrap m cSYFULL).map fun m => forward m (forwarded 0 true 0)
            | some k =>
              let m := put k
              some (forward { m with g := m.g.result d (BitVec.ofNat 64 k) } (forwarded (BitVec.ofNat 64 k) false 0))
          match placeOf m.d c c.base.toNat with
          | .local_ x => bound (fun k => putWord (ownObject m x) (x + 32 + 8 * k) w)
              ((List.range 4).find? fun k => !bit (m.d.mem.word (x + 32 + 8 * k)) 63)
          | .remote x => remoteWord m x 8 none none (.bind d.toNat) (.bind w)
          | .device x => bound (fun k => writeRegLater m (x + 32 + 8 * k) w)
              ((List.range 4).find? fun k => !bit (regRead R m.d (x + 32 + 8 * k)) 63)
          | _ => none

/-- `sy.bind` (R223). -/
def execSyBind (d : SReg) (a b : CReg) (s : State) : Host.Outcome State Fault Refusal := actOrWait (syBind d a b) s

/-- `sy.unbind` (R223): V := 0 in descriptor b[1:0]. -/
def syUnbind (a : CReg) (b : SReg) (R : CtlRegs) (m : Mach) : Option Mach :=
  let c := m.g.rc a.toNat
  let k := (m.g.rs b.toNat).toNat % 4
  syncChecked R m c pST true fun m => dualGate m (crcStore c.base.toNat (toLe 8 k) false) fun m =>
    if m.g.shadow then
      some { m with g := (if leaves m.d c.base.toNat then m.g.raiseDone .fx else m.g).advance }
    else match placeOf m.d c c.base.toNat with
    | .local_ x =>
      let m := ownObject m x
      let m := putWord m (x + 32 + 8 * k) (setBit (m.d.mem.word (x + 32 + 8 * k)) 63 false)
      some { m with g := m.g.advance }
    | .remote x => remoteWord m x 8 (some []) none .none (.unbind k)
    | .device x =>
      let m := writeRegLater m (x + 32 + 8 * k) (setBit (regRead R m.d (x + 32 + 8 * k)) 63 false)
      some { m with g := m.g.advance }
    | _ => none

/-- `sy.unbind` (R223). -/
def execSyUnbind (a : CReg) (b : SReg) (s : State) : Host.Outcome State Fault Refusal := actOrWait (syUnbind a b) s

/-- `sy.rmw` (R224). -/
def syRmw (d : SReg) (a : CReg) (b : SReg) (op : AmoOp) (ord : Ord) (sc : Scope) (R : CtlRegs) (m : Mach) : Option Mach :=
  let c := m.g.rc a.toNat
  let v := m.g.rs b.toNat
  let sync := c.kind == kSYNC
  let need : Need := if sync then syncNeed pATOM true else needAtomic
  let a0 := if sync then c.base.toNat else c.cursor
  let elem := toLe 8 a0 ++ toLe 8 v.toNat ++ toLe 8 (m.g.rs d.toNat).toNat ++ toLe 8 0
  if ordReleases ord && (!m.g.lanesIdle || !mayRelease m sc) then none
  else memChecked R m c need a0 8 fun m => dualGate m elem fun m =>
    let taken := dropElig { m with g := m.g.takeOrdinal }
    let wrote (m : Mach) : Mach := wroteMemory R m false []
    let poisoned (m0 m : Mach) : Option Mach := poisonScalar m0 m fun m => some { wrote m with g := (wrote m).g.result d 0 }
    let acquired (m : Mach) (st : Word) : Mach := if ordAcquires ord then acquireTime m st sc else m
    let released (m : Mach) : Mach := if ordReleases ord then releaseRmax m m.pts sc else m
    let place := placeOf m.d c a0
    if m.g.shadow then takeForwarded taken fun taken l =>
      let f := forwardedAt l 0
      if f.2.1 then poisoned { m with g := { m.g with dualSt := taken.g.dualSt } } taken
      else
        let m := wrote (acquired taken f.2.2)
        some { m with g := (if leaves m.d a0 then m.g.raiseDone .fx else m.g).result d f.1 }
    else match place with
    | .remote x =>
      let part : SyncPart := if !sync then .no else if ordReleases ord then .release (releaseState taken) else .plain
      remoteWord (wrote (released taken)) x (if sync && ordAcquires ord then 16 else 8) none (some (op, v, m.g.rs d.toNat))
        (if ordAcquires ord then .acquire d.toNat sc else .scalar d.toNat 8 false) part
    | .local_ x =>
      let taken := if sync then ownObject taken x else ownLine taken x
      if taken.d.mem.anyPoison x 8 then (poisoned m taken).map fun m => forward m (forwarded 0 true 0)
      else
        let m := taken
        let old := m.d.mem.word x
        some (wrote (forward (rmwPerform x sync d v op ord sc taken) (forwarded old false (if sync then m.d.mem.word (x + 8) else 0))))
    | .device x =>
      let old := regRead R m.d x
      let new := BitVec.ofNat 64 (amoNew op 64 false old.toNat v.toNat (m.g.rs d.toNat).toNat)
      let m := wrote (acquired (writeRegLater (forward (released taken) (forwarded old false 0)) x new) 0)
      some { m with g := m.g.result d old }
    | _ => none

/-- `sy.rmw` (R224). -/
def execSyRmw (d : SReg) (a : CReg) (b : SReg) (op : AmoOp) (ord : Ord) (sc : Scope) (s : State) :
    Host.Outcome State Fault Refusal := actOrWait (syRmw d a b op ord sc) s

/-! ### The team barrier -/

/-- The live groups of a team. -/
def Mach.groupsOf (m : Mach) (team : Nat) : List Group := m.allGroups.filter fun g => g.team = team

/-- Have all live groups of the team arrived? -/
def allArrived (m : Mach) (team : Nat) : Bool := (m.groupsOf team).all fun g => g.arrived.isSome

/-- Completion of the barrier in every arrived group (R227): the status, and a fence at `.t`, which on a pair of cores
brings both logical times to the later one. -/
def completeBarrier (m : Mach) (team : Nat) : Mach :=
  let t := m.d.team team
  let keys := ((m.groupsOf team).map fun g => coreKey g.die g.core).dedup
  let top := keys.foldl (fun acc k => max acc (m.d.core k).pts) 0
  let m := { m with d := keys.foldl (fun d k => raisePts d k top) m.d }
  m.onGroups (fun g => g.team = team) fun g =>
    match g.arrived with
    | some d => { (g.setS d (if t.abandoned then 1 else 0)).advance with arrived := none }
    | none => g

/-- BARRIER_COMPLETE (R227): once every live group has arrived. In a dual team the pair's checkpoint completes it
(spec/18 R319). -/
def barrierComplete (m : Mach) (team : Nat) : Mach :=
  if (m.groupsOf team).isEmpty || !allArrived m team || (m.d.team team).partner.isSome then m else completeBarrier m team

/-- `sy.bar` (R227): arrival, and completion if this group is the last. -/
def syBar (d : SReg) (m : Mach) : Option Mach :=
  if !m.g.lanesIdle || m.g.arrived.isSome then none
  else some (barrierComplete { m with g := { m.g with arrived := some d.toNat } } m.g.team)

/-- `sy.bar` (R227). -/
def execSyBar (d : SReg) (s : State) : Host.Outcome State Fault Refusal := actOrWait (fun _ m => syBar d m) s

/-- BARRIER_COMPLETE (R227). -/
def execBarrierComplete (team : Nat) (s : State) : Host.Outcome State Fault Refusal := act (fun _ m => barrierComplete m team) s

end Sys2Proof.Machine
end

