-- ==== Sys2Proof/Machine/LaneMem.lean ====
section
/-! DEFINITION. Lane memory words: loads and stores through quads and scalar capabilities, capability words on quads, lane
atomics (spec/08 R151-R155, R163-R167; spec/09 R181, R182; spec/13 R225). -/

namespace Sys2Proof.Machine

/-! ### Addresses and checks -/

/-- One running lane of a memory word: its capability and address. -/
structure LaneAt where
  lane : Nat
  cap : Cap
  addr : Nat
  deriving DecidableEq, Repr

/-- A quad as a word uses it: in a `prc` group a set poison bit makes it untagged (R166). -/
def quadCap (g : Group) (q l : Nat) : Cap :=
  let c := g.lanes.quad q l
  if g.prc && c.2 then { c.1 with tag := false } else c.1

/-- (CURSOR + sext(a)) mod 2^50 (R165). -/
def laneAddr (c : Cap) (off : Word) : Nat :=
  (((c.cursor : Int) + (off.extractLsb' 0 32).toInt) % (2 ^ 50 : Nat)).toNat

/-- The running lanes of a memory word, ascending; `scalar` says that the capability is `c`K of the block's operands
(R155). -/
def laneAts (g : Group) (v : View) (w : Wide) (run : Word) (scalar : Bool) : List LaneAt :=
  (lanesOf run).map fun l =>
    let c := if scalar then v.c.getD w.ck.toNat {} else quadCap g w.qk l
    ⟨l, c, laneAddr c (readSel g v w.imm 2 w.sa l).val⟩

/-- The lanes of a list that meet a condition, as a mask. -/
def maskIf (l : List LaneAt) (p : LaneAt → Bool) : Word :=
  l.foldl (fun m e => if p e then setBit m e.lane true else m) 0

/-- The earliest cause of R154's ranking. -/
def firstCause (l : List Nat) : Nat :=
  l.foldl (fun acc c => if causeRank c < causeRank acc then c else acc) (l.headD 0)

/-- The checks of every running lane before any access (R154). -/
def laneChecked (R : CtlRegs) (m : Mach) (need : Need) (n : Nat) (l : List LaneAt) (k : Mach → LaneRes) : LaneRes :=
  let res := l.map fun e => (e, capCheck R m.d e.cap (m.party true) need e.addr n)
  let fails := res.filterMap fun e => match e.2 with
    | .fail c => some (e.1, c)
    | _ => none
  let misses := res.filterMap fun e => match e.2 with
    | .miss w => some (e.1, w)
    | _ => none
  if !fails.isEmpty then
    .trap m (firstCause (fails.map fun e => e.2)) (maskIf l fun e => fails.any fun f => f.1.lane == e.lane)
  else if res.any fun e => e.2 == .busy then .wait none
  else match misses with
    | [] => k m
    | (_, w) :: _ =>
      match hatWait m.d w with
      | .expired => .trap { m with d := hatClear m.d w } cHATMISS (maskIf l fun e => misses.contains (e, w))
      | .asked d => .wait (some { m with d := d })
      | .waiting => .wait none

/-- Does the lane's access leave through a port? -/
def isRemote (d : Dev) (e : LaneAt) : Bool :=
  match placeOf d e.cap e.addr with
  | .remote _ => true
  | _ => false

/-- Does the lane's access reach the ports' range (R361)? -/
def reachesFabric (e : LaneAt) : Bool := e.cap.kind != kSCRATCH && decide (Config.hostBase ≤ e.addr) && decide (e.addr < Config.addrTop)

/-- The word's path count, and its `fx` count if a lane reaches the ports' range (R165, R361): may they rise? -/
def mayRaise (m : Mach) (p : Path) (remote : Bool) : Bool := m.g.canRaise p && (!remote || m.g.canRaise .fx)

/-- Raise both, after the word's requests have been numbered: the path's operation has the word's number, the `fx`
operation the next. Where every lane that reaches the range performs here, or is held, the latter is complete. -/
def raiseRemote (m : Mach) (remote reach : Bool) : Mach :=
  if remote then dropElig { m with g := m.g.raise .fx } else if reach then { m with g := m.g.raiseDone .fx } else m

/-! ### Loads -/

/-- A line's loads by one word: the line, its first byte and the byte past its last (R284: the span that the load
reads). -/
def lineSpans (n : Nat) (l : List Nat) : List (Nat × Nat × Nat) :=
  l.foldl (fun acc a =>
    if acc.any fun e => e.1 == a / 128 then
      acc.map fun e => if e.1 = a / 128 then (e.1, min e.2.1 a, max e.2.2 (a + n)) else e
    else acc ++ [(a / 128, a, a + n)]) []

/-- One load of each line, in the order of the lanes; where each line was read from. -/
def loadLines (R : CtlRegs) (m : Mach) (l : List (Nat × Nat × Nat)) : Mach × List (Nat × Option LineData) :=
  l.foldl (fun (r : Mach × List (Nat × Option LineData)) e =>
    let (g, d, src) := cohLoad R r.1.g r.1.d e.2.1 (e.2.2 - e.2.1)
    ({ g := g, d := d }, r.2 ++ [(e.1, src)])) (m, [])

/-- The local addresses that a load reads. -/
def localAddrs (d : Dev) (l : List LaneAt) : List Nat :=
  l.filterMap fun e => match placeOf d e.cap e.addr with
    | .local_ a => some a
    | _ => none

/-- What each lane that answers at once reads, and whether an uncorrectable scratchpad word was read. -/
def laneFetch (m : Mach) (lines : List (Nat × Option LineData)) (n : Nat) (e : LaneAt) : Option (Fetched × Bool) :=
  match placeOf m.d e.cap e.addr with
  | .scratch o => some (scratchFetch (m.d.team m.g.team) m.g o n)
  | .priv o => some (m.g.priv.fetch (2 ^ 20 * e.lane + o) n, false)
  | .local_ a =>
    let src := ((lines.find? fun x => x.1 == a / 128).map fun x => x.2).getD none
    let f := readFrom m.d src a n
    some (if m.g.dual then overlay m.g.dualSt.hold a f else f, false)
  | _ => none

/-- The single-bit errors of the scratchpad words that the lanes read are corrected (spec/12 R214). -/
def correctLanes (m : Mach) (n : Nat) (l : List LaneAt) : Mach :=
  { m with d := l.foldl (fun d e => match placeOf d e.cap e.addr with
      | .scratch o => correctScratch d m.g.team o n
      | _ => d) m.d }

/-- A loaded value (R165, R181, R182). -/
def loadedOut (prc : Bool) (ty : Nat) (bs : List Byte) (poison : Bool) : LaneOut :=
  if poison then
    if tyIsFp ty then { val := BitVec.ofNat 64 (fmtOf ty).poisonBits } else { val := 0, psn := prc }
  else { val := placeTy ty (leNat bs) }

/-- Write loaded capabilities into quads. -/
def quadEff (q : Nat) (ws : Bool) (l : List (Nat × Cap × Bool)) : LaneEff :=
  { file := fun f => if ws then f else l.foldl (fun f e => f.putQuad q e.1 e.2.1 e.2.2) f }

/-- The requests of the lanes that leave through a port; `eaten` says that the word has recorded a consumption. -/
def sendLoads (m : Mach) (flight n : Nat) (eaten : Bool) (wait : Nat → RemoteWait) (l : List LaneAt) : Mach :=
  l.foldl (fun m e => match placeOf m.d e.cap e.addr with
    | .remote a => { m with d := sendRemote m.d (some m.g.ctx) m.g.gid flight a n none false (wait e.lane) [eaten] }
    | _ => m) m

/-- A lane load of n bytes (R165, R166): `eff` makes the register effect of the lanes that answer at once. -/
def laneLoad (n : Nat) (scalar : Bool) (w : Wide) (v : View) (run : Word) (wait : Nat → RemoteWait)
    (eff : Mach → List (LaneAt × Fetched) → LaneEff) (R : CtlRegs) (m : Mach) : LaneRes :=
  let l := laneAts m.g v w run scalar
  laneChecked R m needLoad n l fun m =>
    let remote := l.any (isRemote m.d)
    let reach := l.any reachesFabric
    if !mayRaise m .ld reach then .wait none
    else
      let (m', lines) := loadLines R m (lineSpans n (localAddrs m.d l))
      let got := l.filterMap fun e => (laneFetch m' lines n e).map fun f => (e, f)
      if got.any fun e => e.2.2 then .gone (scratchLoss · true)
      else
        let got := got.map fun e => (e.1, e.2.1)
        let poison := got.any fun e => e.2.poison
        let m' := correctLanes m' n l
        let m' := if poison && !m'.g.prc then { m' with d := consume m'.d m'.g.ctx 0 } else m'
        let m' := { m' with g := m'.g.raise .ld }
        let e := eff m' got
        let m' := sendLoads m' m'.g.nextOp n (poison && !m'.g.prc) wait l
        let m' := raiseRemote m' remote reach
        .done { m' with g := { m'.g with waitRemote := remote } } e

/-- A data load. -/
def dataLoad (op10 : Nat) (scalar : Bool) (w : Wide) (s : State) : Host.Outcome State Fault Refusal :=
  laneWord op10 w (fun _ v run R m =>
    laneLoad (tyWidth w.ty / 8) scalar w v run
      (fun l => .lanes w.dst.toNat w.ty (if w.ws then 0 else setBit 0 l true))
      (fun m got => laneEff w.dst.toNat w.ws w.ty (got.map fun e =>
        (e.1.lane, loadedOut m.g.prc w.ty e.2.bytes e.2.poison))) R m) s

/-- `v.ld` (R165). -/
def execVLd (w : Wide) (s : State) : Host.Outcome State Fault Refusal := dataLoad 0x280 false w s
/-- `v.gld` (R165). -/
def execVGld (w : Wide) (s : State) : Host.Outcome State Fault Refusal := dataLoad 0x282 true w s

/-- The capability that `v.cld` loads in a lane (R166): the tag is the granule's AND LDC, after the sweep filter; poison
gives an untagged zero, with the side bit in a `prc` group. -/
def loadedCap (m : Mach) (c : Cap) (f : Fetched) : Cap × Bool :=
  if f.poison then ({}, m.g.prc)
  else (sweepFilter m.d m.g.part (Cap.ofBytes f.bytes (f.tag && c.has pLDC)), false)

/-- `v.cld` (R166). -/
def execVCld (w : Wide) (s : State) : Host.Outcome State Fault Refusal :=
  laneWord 0x284 w (fun _ v run R m =>
    laneLoad 16 false w v run (fun l => .quads (w.dst.toNat / 4) (if w.ws then 0 else setBit 0 l true))
      (fun m got => quadEff (w.dst.toNat / 4) w.ws (got.map fun e => (e.1.lane, loadedCap m e.1.cap e.2))) R m) s

/-! ### Stores -/

/-- What one lane stores: bytes, the tag of a capability store, poison. -/
structure LaneData where
  bytes : List Byte
  cap : Option Bool
  poison : Bool
  deriving DecidableEq, Repr

/-- The lines of memory that the lanes write. -/
def storeLines (d : Dev) (l : List LaneAt) : List Nat := (localAddrs d l).map fun a => a / 128

/-- A lane store (R165, R166): ordinal, the lanes' stores in ascending order, pushes, and the dual count. It meets a scratchpad
sector that a save found uncorrectable first (spec/12 R207, R215). -/
def laneStore (n : Nat) (need : Need) (scalar : Bool) (w : Wide) (v : View) (run : Word) (data : Mach → Nat → LaneData)
    (R : CtlRegs) (m : Mach) : LaneRes :=
  let l := laneAts m.g v w run scalar
  laneChecked R m need n l fun m =>
    let remote := l.any (isRemote m.d) && !m.g.dual
    let reach := l.any reachesFabric
    if !mayRaise m .st reach then .wait none
    else if l.any fun e => (placeOf m.d e.cap e.addr).meets (m.d.team m.g.team) n then .gone (scratchLoss · true)
    else
      let m := if l.any (isRemote m.d) then dropElig m else m
      let lines := storeLines m.d l
      let src := data m
      let m := { m with g := (m.g.takeOrdinal).raise .st }
      let m := l.foldl (fun m e =>
        let x := src e.lane
        groupStore m (placeOf m.d e.cap e.addr) e.lane x.bytes x.cap x.poison) m
      let m := pushRoutes R (raiseRemote m remote reach) true lines
      .done { m with g := m.g.dualCount } {}

/-- The value of b in a lane as `v.st` stores it (R165, R182). -/
def storeData (w : Wide) (v : View) (m : Mach) (l : Nat) : LaneData :=
  let o := readSel m.g v w.imm w.ty w.sb l
  ⟨toLe (tyWidth w.ty / 8) o.val.toNat, none, m.g.prc && o.poisoned w.ty⟩

/-- A data store. -/
def dataStore (op10 : Nat) (scalar : Bool) (w : Wide) (s : State) : Host.Outcome State Fault Refusal :=
  laneWord op10 w (fun _ v run R m =>
    laneStore (tyWidth w.ty / 8) needStore scalar w v run (storeData w v) R m) s

/-- `v.st` (R165). -/
def execVSt (w : Wide) (s : State) : Host.Outcome State Fault Refusal := dataStore 0x281 false w s
/-- `v.sst` (R165). -/
def execVSst (w : Wide) (s : State) : Host.Outcome State Fault Refusal := dataStore 0x283 true w s

/-- The quad that `v.cst` stores in a lane (R166), after the sweep filter. -/
def capData (w : Wide) (m : Mach) (l : Nat) : LaneData :=
  let q := m.g.lanes.quad (w.dst.toNat / 4) l
  let c := sweepFilter m.d m.g.part (quadCap m.g (w.dst.toNat / 4) l)
  ⟨c.bytes, some c.tag, m.g.prc && q.2⟩

/-- `v.cst` (R166). -/
def execVCst (w : Wide) (s : State) : Host.Outcome State Fault Refusal :=
  laneWord 0x285 w (fun _ v run R m => laneStore 16 needCapStore false w v run (capData w) R m) s

/-! ### Capability words on quads -/

/-- `c.bcast` (R166). -/
def execCBcast (w : Wide) (s : State) : Host.Outcome State Fault Refusal :=
  laneCompute 0x286 w (fun _ v run _ =>
    quadEff (w.dst.toNat / 4) w.ws ((lanesOf run).map fun l => (l, v.c.getD w.ck.toNat {}, false))) s

/-- A derivation lane by lane: the result or the cause (R166, R154). The side bits of the result are written clear, in a lane that reads
a poisoned quad or offset in a `prc` group too: the model's choice (notes/assumptions/47). -/
def quadDerive (op10 : Nat) (ty : Nat) (w : Wide) (f : Cap → Word → Except Nat Cap) (s : State) :
    Host.Outcome State Fault Refusal :=
  laneWord op10 w (fun _ v run _ m =>
    let rs := (lanesOf run).map fun l => (l, f (quadCap m.g w.qk l) (readSel m.g v w.imm ty w.sa l).val)
    let fails := rs.filterMap fun e => match e.2 with
      | .error c => some (e.1, c)
      | .ok _ => none
    if !fails.isEmpty then
      .trap m (firstCause (fails.map fun e => e.2)) (fails.foldl (fun (x : Word) e => setBit x e.1 true) 0)
    else
      .done m (quadEff (w.dst.toNat / 4) w.ws (rs.filterMap fun e => match e.2 with
        | .ok c => some (e.1, c, false)
        | .error _ => none))) s

/-- `v.caddc` (R166). -/
def execVCaddc (w : Wide) (s : State) : Host.Outcome State Fault Refusal :=
  quadDerive 0x287 2 w (fun c a => derived c (c.addc ((a.extractLsb' 0 32).signExtend 64))) s
/-- `v.csetb` (R166). -/
def execVCsetb (w : Wide) (s : State) : Host.Outcome State Fault Refusal :=
  quadDerive 0x288 6 w (fun c a => c.setb (a.toNat % 2 ^ 32) w.flag) s
/-- `v.candp` (R166). -/
def execVCandp (w : Wide) (s : State) : Host.Outcome State Fault Refusal :=
  quadDerive 0x28A 15 w (fun c a => derived c (c.andp (a.extractLsb' 0 12))) s

/-- The field F of a capability (R164). -/
def capField (f : Nat) (c : Cap) : Word :=
  match f with
  | 0 => BitVec.ofInt 64 c.base
  | 1 => BitVec.ofInt 64 (c.top - c.base)
  | 2 => BitVec.ofNat 64 c.cursor
  | 3 => c.perms.zeroExtend 64
  | 4 => BitVec.ofNat 64 c.kind
  | 5 => BitVec.ofNat 64 c.colour
  | 6 => boolWord c.tag
  | _ => BitVec.ofInt 64 c.limit

/-- `v.cget` (R164, R166). Its side bits are written clear, of a poisoned quad in a `prc` group too: the model's choice
(notes/assumptions/47). -/
def execVCget (w : Wide) (s : State) : Host.Outcome State Fault Refusal :=
  laneCompute 0x289 w (fun _ _ run m =>
    laneEff w.dst.toNat w.ws 7 ((lanesOf run).map fun l =>
      (l, { val := capField (w.imm.toNat % 8) (quadCap m.g w.qk l) }))) s

/-! ### Atomics -/

/-- The operation of a code (R224). -/
def amoOf (k : Nat) : AmoOp :=
  match k with
  | 0 => .add | 1 => .and | 2 => .or | 3 => .xor | 4 => .max | 5 => .min | 6 => .swap | _ => .cas

/-- The operands of `v.amo` in a lane: b, c, and whether a source is poisoned in a `prc` group (R225). -/
def amoArgs (g : Group) (v : View) (w : Wide) (i : LaneInfo) (l : Nat) : Word × Word × Bool :=
  let a := readSel g v w.imm 2 w.sa l
  let b := readSel g v w.imm w.ty w.sb l
  let c := if i.readC then readSel g v w.imm w.ty w.sc l else ⟨0, false⟩
  (b.val, c.val, g.prc && (a.psn || b.psn || c.psn))

/-- The ownership of a lane's word (spec/16 R263), which meets the errors of its line before the word is judged (spec/21 R335). -/
def amoOwn (m : Mach) (a n : Nat) : Mach := { m with d := clearWriter (cohStore m.d m.g.die m.g.core a n) a }

/-- One lane's indivisible access of n bytes at a local address that its core owns (R224, R225, R220). -/
def amoLocal (m : Mach) (w : Wide) (a : Nat) (b c : Word) : Mach × Word :=
  let n := tyWidth w.ty / 8
  let old := m.d.mem.num a n
  let k := tyWidth w.ty
  let new := amoNew (amoOf w.rm) k (tySigned w.ty) old (b.toNat % 2 ^ k) (c.toNat % 2 ^ k)
  ({ m with d := plainStore m.d a (toLe n new) false }, BitVec.ofNat 64 old)

/-- One lane of `v.amo`: what it gives at once, and what the shadow copy needs. `fwd` is what was forwarded to a shadow
group. -/
def amoLane (m : Mach) (w : Wide) (flight : Nat) (e : LaneAt) (b c : Word) (psn : Bool) (fwd : Option (Word × Bool)) :
    Mach × Option LaneOut × List Word :=
  let n := tyWidth w.ty / 8
  let out (x : Word) (poison : Bool) : Option LaneOut := some (if poison then { val := 0, psn := m.g.prc } else { val := placeTy w.ty x.toNat })
  if psn then (m, some { val := 0, psn := true }, forwarded 0 false 0)
  else match fwd, placeOf m.d e.cap e.addr with
  | some x, _ => (m, out x.1 x.2, [])
  | none, .local_ a =>
    let m := amoOwn m a n
    if m.d.mem.anyPoison a n then (m, out 0 true, forwarded 0 true 0)
    else
      let (m, old) := amoLocal m w a b c
      (m, out old false, forwarded old false 0)
  | none, .remote a =>
      let d := sendRemote m.d (some m.g.ctx) m.g.gid flight a n none false (.lanes w.dst.toNat w.ty (if w.ws then 0 else setBit 0 e.lane true))
      ({ m with d := { d with remotes := d.remotes.map fun (r : Remote) =>
          if r.id = m.d.nextId then { r with atomic := some (amoOf w.rm, b, c) } else r } }, none, forwarded 0 false 0)
  | none, _ => (m, out 0 false, forwarded 0 false 0)

/-- The element that the lanes of an atomic add to the store stream (spec/18 R318). -/
def amoElements (g : Group) (v : View) (w : Wide) (i : LaneInfo) (l : List LaneAt) : List Byte :=
  l.flatMap fun e =>
    let x := amoArgs g v w i e.lane
    toLe 8 e.addr ++ toLe 8 x.1.toNat ++ toLe 8 x.2.1.toNat ++ toLe 8 0

/-- The checkpoint before a lane word of a dual team (spec/18 R319). -/
def dualGateLane (m : Mach) (e : List Byte) (k : Mach → LaneRes) : LaneRes :=
  let g := m.g
  if !g.dual then k m
  else if g.dualSt.passed then k { m with g := g.passCheckpoint }
  else if g.dualSt.waiting then .wait none
  else .wait (some { m with g := g.atCheckpoint e })

/-- The lanes of `v.amo` whose accesses leave through a port; a lane with a poisoned operand reaches no memory. -/
def amoFar (m : Mach) (v : View) (w : Wide) (i : LaneInfo) (l : List LaneAt) : List LaneAt :=
  l.filter fun e => isRemote m.d e && !(amoArgs m.g v w i e.lane).2.2

/-- Does a lane of `v.amo` whose access is made reach the ports' range? -/
def amoReaches (m : Mach) (v : View) (w : Wide) (i : LaneInfo) (l : List LaneAt) : Bool :=
  l.any fun e => reachesFabric e && !(amoArgs m.g v w i e.lane).2.2

/-- The lanes of `v.amo` in ascending order: what each gives at once, and what the shadow copy needs of them. A shadow copy has
been forwarded two lists, one element for each lane, and one for each lane whose access leaves through a port. -/
def amoLanes (m : Mach) (v : View) (w : Wide) (i : LaneInfo) (flight : Nat) (fwd : Option (List Word × List Word)) (l : List LaneAt) :
    Mach × List (Nat × LaneOut) × List Word :=
  let g := m.g
  let far := amoFar m v w i l
  l.zipIdx.foldl (fun (r : Mach × List (Nat × LaneOut) × List Word) ei =>
    let e := ei.1
    let x := amoArgs g v w i e.lane
    let given := fwd.map fun f =>
      let y := if isRemote m.d e then forwardedAt f.2 (far.findIdx fun z => z.lane == e.lane) else forwardedAt f.1 ei.2
      (y.1, y.2.1)
    let (m, o, old) := amoLane r.1 w flight e x.1 x.2.1 x.2.2 given
    (m, r.2.1 ++ (match o with
      | some o => [(e.lane, o)]
      | none => []), r.2.2 ++ old)) (m, [], [])

/-- Was some lane's word poisoned when its access reached it? -/
def amoForwardedPoison (f : List Word) (n : Nat) : Bool := (List.range n).any fun i => (forwardedAt f i).2.1

/-- `v.amo`, its checks passed and its checkpoint matched. -/
def amoRun (w : Wide) (i : LaneInfo) (v : View) (l : List LaneAt) (fwd : Option (List Word × List Word)) (R : CtlRegs) (m : Mach) :
    LaneRes :=
  let far := !(amoFar m v w i l).isEmpty
  let remote := far && fwd.isNone
  let reach := amoReaches m v w i l
  let m := dropElig { m with g := (m.g.takeOrdinal).raise .ld }
  let before := m.d.nextId
  let (m, outs, olds) := amoLanes m v w i m.g.nextOp fwd l
  let poison := amoForwardedPoison ((fwd.map fun f => f.1).getD olds) l.length
  let m := if poison && !m.g.prc then { m with d := consume m.d m.g.ctx 0 } else m
  let m := if poison && !m.g.prc then { m with d := { m.d with remotes := m.d.remotes.map fun (r : Remote) =>
    if before ≤ r.id then { r with psn := true } else r } } else m
  let m := raiseRemote m remote reach
  let m := if fwd.isSome then m else forward m olds
  let m := pushRoutes R { m with g := { m.g with waitRemote := remote } } false []
  .done { m with g := m.g.dualCount } (laneEff w.dst.toNat w.ws w.ty outs)

/-- `v.amo` (R225, spec/18 R320). -/
def execVAmo (w : Wide) (s : State) : Host.Outcome State Fault Refusal :=
  laneWord 0x300 w (fun i v run R m =>
    let l := laneAts m.g v w run false
    laneChecked R m needAtomic (tyWidth w.ty / 8) l fun m =>
      let far := !(amoFar m v w i l).isEmpty
      if !mayRaise m .ld (amoReaches m v w i l) then .wait none
      else dualGateLane m (amoElements m.g v w i l) fun m =>
        if m.g.shadow then
          let used (rest : List (List Word)) : Mach := { m with g := { m.g with dualSt := { m.g.dualSt with inbox := rest } } }
          match m.g.dualSt.inbox, far with
          | x :: y :: rest, true => amoRun w i v l (some (x, y)) R (used rest)
          | x :: rest, false => amoRun w i v l (some (x, [])) R (used rest)
          | _, _ => .wait none
        else amoRun w i v l none R m) s

end Sys2Proof.Machine
end

