-- ==== Sys2Proof/Machine/Engines.lean ====
section
/-! DEFINITION. What the engines share: ranges under the access firewall, reads and writes of whole ranges with their tags
and poison, the operand buffer, claims, and command blocks (spec/13 R228-R231; spec/14 R237, R238; spec/16 R386). -/

namespace Sys2Proof.Machine

/-! ### Ranges under the firewall -/

/-- How far a range may move: all of it, up to a refusal, or not yet (R230, R238, spec/16 R271, spec/22 R351). -/
inductive Reach where
  | all | refused (n : Nat) | wait | miss (n w : Nat)
  deriving DecidableEq, Repr

/-- The runs of a range in order. -/
def reachRuns (R : CtlRegs) (d : Dev) (p : Party) (write : Bool) (a : Nat) : List (Nat × Nat) → Reach
  | [] => .all
  | r :: rs =>
    match firewall R d p write r.1 r.2 with
    | .pass => reachRuns R d p write a rs
    | .refuse => .refused (r.1 - a)
    | .busy => .wait
    | .miss w => .miss (r.1 - a) w

/-- The lines of a range. -/
def runsOf (a n : Nat) : List (Nat × Nat) := lineRuns a (n / 128 + 2) n

/-- Check 9 over a range through a capability; a scratchpad has no firewall. -/
def reach (R : CtlRegs) (d : Dev) (p : Party) (write : Bool) (c : Cap) (a n : Nat) : Reach :=
  if c.kind = kSCRATCH then .all else reachRuns R d p write a (runsOf a n)

/-- The reach once a non-resident window has been asked for: the bytes that may move and whether a refusal ends them, or
none while the range waits. -/
def settleReach (d : Dev) (n : Nat) : Reach → Dev × Option (Nat × Bool)
  | .all => (d, some (n, false))
  | .refused k => (d, some (k, true))
  | .wait => (d, none)
  | .miss k w =>
    match hatWait d w with
    | .expired => (hatClear d w, some (k, true))
    | .asked d => (d, none)
    | .waiting => (d, none)

/-! ### Reading and writing ranges -/

/-- What a range holds: its bytes, whether each lies in a poisoned sector, and the tags of its granules from the first. -/
structure RangeData where
  bytes : List Byte
  psn : List Bool
  tags : List Bool
  deriving DecidableEq, Repr

/-- A range of a store. -/
def Mem.range (m : Mem) (a n : Nat) : RangeData :=
  { bytes := m.read a n
    psn := (List.range n).map fun i => m.poisoned ((a + i) / 32)
    tags := (List.range ((n + 15) / 16)).map fun i => m.tag (a / 16 + i) }

/-- The first k bytes of a range. -/
def RangeData.cut (x : RangeData) (k : Nat) : RangeData :=
  ⟨x.bytes.take k, x.psn.take k, x.tags.take ((k + 15) / 16)⟩

/-- An engine reads a range (R386): the team's scratchpad, or memory at its homes. The flag says that it met an
uncorrectable scratchpad word (spec/12 R215). -/
def engineRead (d : Dev) (team : Nat) (c : Cap) (a n : Nat) : Dev × RangeData × Bool :=
  if c.kind = kSCRATCH then
    let t := d.team team
    (correctScratch d team (a % 2 ^ 49) n, t.scratch.range (a % 2 ^ 49) n, t.badScratch (a % 2 ^ 49) n)
  else
    let la := localAddr d a
    let d := (runsOf la n).foldl (fun d r => homeRead d r.1) d
    (d, d.mem.range la n, false)

/-- Write a range sector by sector: a poisoned source byte poisons the sector that it reaches (R231, spec/09 R180). -/
def Mem.storeRange (m : Mem) (a : Nat) (x : RangeData) : Mem :=
  let n := x.bytes.length
  (blocksOf 32 a n).foldl (fun m k =>
    let lo := max a (32 * k)
    let hi := min (a + n) (32 * k + 32)
    m.store lo ((x.bytes.drop (lo - a)).take (hi - lo)) (((x.psn.drop (lo - a)).take (hi - lo)).any id)) m

/-- The tags of the granules of a range as a tag-copying write sets them (R231, spec/16 R277). -/
def copiedTags (d : Dev) (part : Nat) (ldc : Bool) (x : RangeData) : List Bool :=
  (List.range x.tags.length).map fun i =>
    (sweepFilter d part (Cap.ofBytes ((x.bytes.drop (16 * i)).take 16) (x.tags.getD i false && ldc))).tag

/-- The homes of a range take a write by an engine of a die (R386, spec/21 R332). -/
def rangeHomes (d : Dev) (die la n : Nat) : Dev :=
  (runsOf la n).foldl (fun d r => homeStore d r.1 r.2 (homeDie r.1 != some die)) d

/-- Would an engine's write meet a scratchpad sector that a save found uncorrectable (spec/12 R207, R215)? -/
def engineMeets (d : Dev) (team : Nat) (c : Cap) (a n : Nat) : Bool := c.kind == kSCRATCH && (d.team team).metScratch (a % 2 ^ 49) n

/-- An engine of a die writes a range through a capability; `tags` gives the granules' tags of a capability write. -/
def engineWrite (d : Dev) (die team : Nat) (c : Cap) (a : Nat) (x : RangeData) (tags : Option (List Bool)) : Dev :=
  let n := x.bytes.length
  let put (m : Mem) (a : Nat) : Mem :=
    let m := m.storeRange a x
    match tags with
    | none => m
    | some ts => m.setTags (a / 16) ts
  if c.kind = kSCRATCH then
    let o := a % 2 ^ 49
    let t := (d.team team).rewritten o n
    d.setTeam team { t with scratch := put t.scratch o }
  else
    let la := localAddr d a
    let d := rangeHomes d die la n
    breakSeq { d with mem := put d.mem la } la n

/-- The greatest write time of the lines of a range homed on a die (R386). -/
def rangeWts (d : Dev) (die : Nat) (c : Cap) (a n : Nat) : Nat :=
  if c.kind = kSCRATCH then 0
  else (runsOf (localAddr d a) n).foldl (fun t r =>
    if homeDie r.1 = some die then max t (d.line (r.1 / 128)).mwts else t) 0

/-! ### The operand buffer and claims -/

/-- Write a range into the operand buffer: a poisoned source byte becomes zero and marks the sector (R231, R238). -/
def Cluster.bufferWrite (x : Cluster) (o : Nat) (r : RangeData) : Cluster :=
  let zeroed := (List.range r.bytes.length).map fun i => if r.psn.getD i false then 0 else r.bytes.getD i 0
  { x with obuf := x.obuf.storeRange o { r with bytes := zeroed } }

/-- May a team claim every key of a list (R237)? -/
def claimable (t : Tab (Option Nat)) (team : Nat) (ks : List Nat) : Bool :=
  ks.all fun k => match t.getD k none with
    | none => true
    | some o => o == team

/-- The units of a range of the operand buffer. -/
def unitsOf (o n : Nat) : List Nat := blocksOf 1024 o n

/-- Claim a unit: the first claim zeroes it (R237). -/
def Cluster.claimUnit (x : Cluster) (team k : Nat) : Cluster :=
  if (x.unitOwner.getD k none).isSome then x
  else { x with unitOwner := x.unitOwner.set k (some team) none, obuf := x.obuf.zero (1024 * k) (1024 * k + 1024) }

/-- Claim a slot: the first claim zeroes it. -/
def Cluster.claimSlot (x : Cluster) (team k : Nat) : Cluster :=
  if (x.slotOwner.getD k none).isSome then x
  else { x with
    slotOwner := x.slotOwner.set k (some team) none
    acc := x.acc.zero (4096 * k) (4096 * k + 4096)
    accBad := x.accBad.filter fun e => e.1 / 1024 ≠ k }

/-- Claim units and slots. -/
def Cluster.claim (x : Cluster) (team : Nat) (units slots : List Nat) : Cluster :=
  slots.foldl (fun x k => x.claimSlot team k) (units.foldl (fun x k => x.claimUnit team k) x)

/-! ### Command blocks -/

/-- A command or collective block as the word read it: 64 bytes and the tags of its granules. -/
structure CmdBlock where
  bytes : List Byte
  tags : List Bool
  deriving DecidableEq, Repr

/-- A block of zeros without tags, as a poisoned block reads (R229). -/
def CmdBlock.zero : CmdBlock := ⟨List.replicate 64 0, []⟩
/-- The capability of granule i. -/
def CmdBlock.cap (b : CmdBlock) (i : Nat) : Cap := Cap.ofBytes ((b.bytes.drop (16 * i)).take 16) (b.tags.getD i false)
/-- The 8 bytes at an offset. -/
def CmdBlock.word (b : CmdBlock) (o : Nat) : Word := BitVec.ofNat 64 (leNat ((b.bytes.drop o).take 8))

/-- What an access to a CMD block asks (R229): kind CMD and LD. -/
def needCmd : Need := { kinds := [4], perms := pLD, write := false, aligned := false }

/-- A block that has come back through a port for the word on turn: its bytes as the group's own loads see them, and whether it is
poisoned; none where it has not (R229, spec/18 R317). -/
def farBlock (g : Group) (a : Nat) : Option Fetched :=
  let parts := (lineRuns a 65 64).map fun r => g.blocks.find? fun e => e.1 == r.1
  if parts.all (·.isSome) then
    let f : Fetched := ⟨parts.flatMap fun e => (e.map fun x => x.2.1).getD [], false, parts.any fun e => e.any fun x => x.2.2⟩
    some (if g.dual then overlay g.dualSt.hold a f else f)
  else none

/-- The blocks of a word that stand behind a port and have not come back. -/
def blocksAway (m : Mach) (as : List Nat) : List Nat := (as.filter fun a => leaves m.d a && (farBlock m.g a).isNone).dedup

/-- They are asked for, and the word waits for the answers before it issues (R229). -/
def askBlocks (m : Mach) (as : List Nat) : Mach :=
  { g := { m.g with waitRemote := true }
    d := as.foldl (fun d a => sendRemote d (some m.g.ctx) m.g.gid m.g.nextOp a 64 none false .block) m.d }

/-- The word has used its blocks. -/
def Group.dropBlocks (g : Group) : Group := { g with blocks := [] }

/-- The element of an engine issue in the store stream (spec/18 R318): the first 32 bytes of the block, as they stand. -/
def blockElement (m : Mach) (a : Nat) : List Byte :=
  if leaves m.d a then ((farBlock m.g a).map fun f => f.bytes.take 32).getD [] else (m.ownFetch (localAddr m.d a) 32).bytes

/-- Read the block at an address at issue (R229): the block after the sweep filter, and whether it is poisoned. No tag comes
through a port (spec/22 R360). -/
def readBlock (R : CtlRegs) (m : Mach) (a : Nat) : Mach × CmdBlock × Bool :=
  if leaves m.d a then
    let f := (farBlock m.g a).getD ⟨[], false, false⟩
    (m, ⟨f.bytes, []⟩, f.poison)
  else
  let a := localAddr m.d a
  let (g, d, src) := cohLoad R m.g m.d a 64
  let m : Mach := { g := g, d := d }
  let get (i : Nat) : Fetched :=
    let f := readFrom d src (a + 16 * i) 16
    if g.dual then overlay g.dualSt.hold (a + 16 * i) f else f
  let fs := (List.range 4).map get
  (m, ⟨fs.flatMap fun f => f.bytes, fs.map fun f => (sweepFilter d g.part (Cap.ofBytes f.bytes f.tag)).tag⟩,
    fs.any fun f => f.poison)

/-- The party of an engine's accesses for a group's operation. -/
def engineParty (d : Dev) (colour part team : Nat) (loader : Bool) : Party :=
  { colour := colour, part := part, scratch := (d.team team).scratchSize, priv := 0, lane := false, scalar := false
    loader := loader }

/-- Loss of a team to an uncorrectable scratchpad word that an engine reads (spec/12 R215). -/
def engineLoss (m : Mach) (gid : Nat) : Mach :=
  match m.group? gid with
  | some g => loseTeam m g.team none
  | none => m

end Sys2Proof.Machine
end

