-- ==== Sys2Proof/Machine/Copy.lean ====
section
/-! DEFINITION. The copy engine: `cp.run`, `cp.lrun`, and the three steps of an operation (spec/13 R228-R232; spec/14 R237;
spec/16 R386; spec/21 R332). -/

namespace Sys2Proof.Machine

/-! ### Issue -/

/-- Fields of CTRL (R228). -/
def ctrlTags (c : Word) : Bool := bit c 0
def ctrlSig (c : Word) : Bool := bit c 1
def ctrlBuffer (c : Word) : Bool := bit c 2
def ctrlOffset (c : Word) : Nat := (c.extractLsb' 28 20).toNat
def ctrlAdd (c : Word) : Nat := (c.extractLsb' 48 16).toNat

/-- The operation of a block, as captured at issue. -/
def copyOf (d : Dev) (g : Group) (flight : Nat) (b : CmdBlock) : CopyOp :=
  { id := d.nextId, gid := g.gid, flight := flight, die := g.die, core := g.core, src := b.cap 0, dst := b.cap 1
    len := (b.word 32).toNat, ctrl := b.word 40, signal := b.cap 3, checked := false, moved := false, wts := 0
    packet := none, colour := g.colour, part := g.part, prc := g.prc, ctx := g.ctx }

/-- Has the operation a remote effect (spec/12 R208): a destination behind a port, or a signal? -/
def CopyOp.remoteEffect (o : CopyOp) : Bool :=
  ctrlSig o.ctrl || (!ctrlBuffer o.ctrl && o.dst.kind != kSCRATCH && decide (Config.hostBase ≤ o.dst.cursor))

/-- An operation enters the engine of its cluster. -/
def enqueueCopy (m : Mach) (g : Group) (flight : Nat) (b : CmdBlock) : Mach :=
  let o := copyOf m.d g flight b
  let k := clusterKey g.die g.core
  let x := m.d.cluster k
  let m := { m with d := { m.d.setCluster k { x with copies := x.copies ++ [o] } with nextId := m.d.nextId + 1 } }
  if o.remoteEffect then { m with d := (g.team :: (m.d.team g.team).partner.toList).foldl dropEligOf m.d } else m
where
  /-- Both copies of a dual pair lose their restart eligibility (spec/12 R208). -/
  dropEligOf (d : Dev) (k : Nat) : Dev := if (d.team k).elig then d.setTeam k { (d.team k) with elig := false } else d

/-- The copies that a group's engine holds. -/
def copiesOf (d : Dev) (g : Group) : Nat := (d.cluster (clusterKey g.die g.core)).copies.length
def copiesHeld (m : Mach) : Nat := copiesOf m.d m.g

/-- `cp.run` (R229). -/
def copyRun (a : CReg) (R : CtlRegs) (m : Mach) : Option Mach :=
  let c := m.g.rc a.toNat
  let base := c.base.toNat
  scalarChecked R m c needCmd base 64 fun m =>
    if !(blocksAway m [base]).isEmpty then some (askBlocks m [base])
    else if !m.g.canRaise .cp || decide (32 ≤ copiesHeld m) then none
    else
      dualGate m (blockElement m base) fun m =>
        let id := m.g.nextOp
        let (m', b, poison) := readBlock R m base
        if poison && m.g.prc then scalarTrap { m with d := m'.d } cPOISON
        else
          let m' := if poison then { m' with d := consume m'.d m.g.ctx 2 } else m'
          let m' := { m' with g := m'.g.raise .cp }
          let m' := if m.g.shadow then m'.followPrimary .cp else enqueueCopy m' m.g id (if poison then CmdBlock.zero else b)
          some { m' with g := m'.g.advance.dropBlocks }

/-- `cp.run` (R229). -/
def execCpRun (a : CReg) (s : State) : Host.Outcome State Fault Refusal := actOrWait (copyRun a) s

/-- The blocks of `cp.lrun`: lane, capability, base (R229). -/
def blockAts (g : Group) (w : Wide) (run : Word) : List LaneAt :=
  (lanesOf run).map fun l =>
    let c := quadCap g w.qk l
    ⟨l, c, c.base.toNat⟩

/-- The lanes' blocks are read, in ascending lane order: each lane with its block, and whether it is poisoned (R229). -/
def readBlocks (R : CtlRegs) (m : Mach) (l : List LaneAt) : Mach × List (LaneAt × CmdBlock × Bool) :=
  l.foldl (fun (r : Mach × List (LaneAt × CmdBlock × Bool)) e =>
    let (m, b, poison) := readBlock R r.1 e.addr
    (m, r.2 ++ [(e, b, poison)])) (m, [])

/-- Blocks of the waiting `cp.lrun` of the group on turn enter the engine, in ascending lane order, while it has room. -/
def enterBlocks (flight : Nat) : List (List Byte × List Bool) → Mach → Mach
  | [], m => { m with g := { m.g with entering := some (flight, []) } }
  | b :: rest, m =>
    if 32 ≤ copiesHeld m then { m with g := { m.g with entering := some (flight, b :: rest) } }
    else enterBlocks flight rest (enqueueCopy m m.g flight ⟨b.1, b.2⟩)

/-- More blocks of a group's waiting `cp.lrun` enter. -/
def enterMore (gid : Nat) (m : Mach) : Mach :=
  match (m.group? gid).bind fun g => g.entering with
  | some (flight, b :: rest) => if (m.group? gid).any fun g => copiesOf m.d g < 32 then enterBlocks flight (b :: rest) (m.focus gid) else m
  | _ => m

/-- `cp.lrun` (R229): its checks, its checkpoint and its count come first; the word waits at issue until its last block has
entered. -/
def execCpLrun (w : Wide) (s : State) : Host.Outcome State Fault Refusal :=
  laneWord 0x310 w (fun _ _ run R m =>
    match m.g.entering with
    | some (_, []) => .done { m with g := { m.g with entering := none } } {}
    | some (flight, b :: rest) => if 32 ≤ copiesHeld m then .wait none else .wait (some (enterBlocks flight (b :: rest) m))
    | none =>
      let l := blockAts m.g w run
      laneChecked R m needCmd 64 l fun m =>
        let away := blocksAway m (l.map fun e => e.addr)
        if !away.isEmpty then .wait (some (askBlocks m away))
        else
          let (met, bs) := readBlocks R m l
          let bad := bs.filter fun b => b.2.2
          if m.g.prc && !bad.isEmpty then .trap { m with d := met.d } cPOISON (maskIf l fun e => bad.any fun b => b.1.lane == e.lane)
          else if !m.g.canRaise .cp || decide (32 ≤ copiesHeld m) then .wait none
          else dualGateLane m (l.flatMap fun e => blockElement m e.addr) fun m =>
            let id := m.g.nextOp
            let met := (readBlocks R m l).1
            let m := if bad.isEmpty then met else { met with d := consume met.d m.g.ctx 2 }
            let m := { m with g := (m.g.raise .cp).dropBlocks }
            if m.g.shadow then .done (m.followPrimary .cp) {}
            else if l.isEmpty then .done (m.finishOp m.g.gid .cp id 0) {}
            else
              let m := enterBlocks id (bs.map fun b => if b.2.2 then (CmdBlock.zero.bytes, []) else (b.2.1.bytes, b.2.1.tags)) m
              match m.g.entering with
              | some (_, []) => .done { m with g := { m.g with entering := none } } {}
              | _ => .wait (some m)) s

/-! ### The engine's steps -/

/-- The operation named by cluster and number. -/
def copyOp? (d : Dev) (cl op : Nat) : Option CopyOp := (d.cluster cl).copies.find? fun o => o.id == op
/-- Change an operation. -/
def setCopy (d : Dev) (cl op : Nat) (f : CopyOp → CopyOp) : Dev :=
  let x := d.cluster cl
  d.setCluster cl { x with copies := x.copies.map fun o => if o.id = op then f o else o }

/-- An operation leaves its engine; a packet's writes are the front end's own (spec/18 R303). The `cp` count of its word falls once no block of the word is left (R229). -/
def leaveEngine (m : Mach) (cl : Nat) (o : CopyOp) : Mach :=
  let x := m.d.cluster cl
  let m := { m with d := m.d.setCluster cl { x with copies := x.copies.filter fun y => y.id ≠ o.id } }
  match o.packet with
  | some (q, idx) => { m with d := packetDone (noteFeTime m.d o.die o.wts) q idx }
  | none =>
    let m := m.onPair o.gid fun g => { g with flights := g.flights.map fun (f : Flight) =>
      if f.path == .cp && f.id = o.flight then { f with wts := max f.wts o.wts } else f }
    let left := (m.d.cluster cl).copies.any (fun y => y.gid == o.gid && y.flight == o.flight && y.packet.isNone)
      || (m.group? o.gid).any fun g => g.entering.any fun e => e.1 == o.flight && !e.2.isEmpty
    if left then m else m.finishOp o.gid .cp o.flight o.wts

/-- A failed operation completes at once, and its trap is held (R230, R66). -/
def failCopy (m : Mach) (cl : Nat) (o : CopyOp) (code : Nat) : Mach :=
  leaveEngine (if o.packet.isSome then m else m.hold o.gid .cp o.flight code) cl o

/-- The team whose scratchpad an operation reaches. -/
def opTeam (m : Mach) (gid : Nat) : Nat := ((m.group? gid).map fun g => g.team).getD 0

/-- Orders 1 to 4 of R230: the cause, or none. The colour passes where COLOUR is the context's or GIVE is held. -/
def copyFault (m : Mach) (o : CopyOp) : Option Nat :=
  let tags := ctrlTags o.ctrl
  let buf := ctrlBuffer o.ctrl
  let p := engineParty m.d o.colour o.part (opTeam m o.gid) false
  let colourOk (c : Cap) : Bool := c.colour == o.colour || c.has pGIVE
  let need (perms : BitVec 12) (write : Bool) : Need := { kinds := [0, 2], perms := perms, write := write, aligned := false }
  if 2 ^ 30 < o.len || (o.ctrl.extractLsb' 3 25) ≠ 0
      || (tags && (o.src.cursor % 16 ≠ 0 || o.len % 16 ≠ 0
        || (if buf then ctrlOffset o.ctrl else o.dst.cursor) % 16 ≠ 0)) then some cCPBLOCK
  else if (capCheck8 o.src p (need pLD false) (colourOk o.src) o.src.cursor o.len).isSome then some cCPSRC
  else if buf then
    if Config.operandBytes < ctrlOffset o.ctrl + o.len then some cCPDST else sigFault p colourOk
  else if (capCheck8 o.dst p (need (if tags then pST ||| pSTC else pST) true) (colourOk o.dst) o.dst.cursor o.len).isSome
    then some cCPDST
  else sigFault p colourOk
where
  /-- Order 4. -/
  sigFault (p : Party) (colourOk : Cap → Bool) : Option Nat :=
    if ctrlSig o.ctrl && (capCheck8 o.signal p { kinds := [3], perms := pATOM, write := true } (colourOk o.signal)
      o.signal.base.toNat 8).isSome then some cCPSIG else none

/-- CP_CHECK (R230, R237): the operations of one group start in issue order. -/
def cpCheck (cl op : Nat) (m : Mach) : Mach :=
  match copyOp? m.d cl op with
  | none => m
  | some o =>
    let before := (m.d.cluster cl).copies.takeWhile fun y => y.id ≠ op
    if o.checked || before.any (fun y => y.gid == o.gid && !y.checked) then m
    else match copyFault m o with
    | some code => failCopy m cl o code
    | none =>
      let x := m.d.cluster cl
      let units := unitsOf (ctrlOffset o.ctrl) o.len
      if ctrlBuffer o.ctrl && !claimable x.unitOwner (opTeam m o.gid) units then failCopy m cl o cCPDST
      else
        let m := if ctrlBuffer o.ctrl then { m with d := m.d.setCluster cl (x.claim (opTeam m o.gid) units []) } else m
        { m with d := setCopy m.d cl op fun o => { o with checked := true } }

/-- CP_CHECK (R230). -/
def execCpCheck (cl op : Nat) (s : State) : Host.Outcome State Fault Refusal := act (fun _ m => cpCheck cl op m) s

/-- The bytes that may move and the cause that stops the rest (R230): none while a range waits. -/
def copyReach (R : CtlRegs) (d : Dev) (p : Party) (o : CopyOp) : Dev × Option (Nat × Option Nat) :=
  let (d, s) := settleReach d o.len (reach R d p false o.src o.src.cursor o.len)
  match s with
  | none => (d, none)
  | some (ns, rs) =>
    let (d, t) := if ctrlBuffer o.ctrl then (d, some (o.len, false))
      else settleReach d o.len (reach R d p true o.dst o.dst.cursor o.len)
    match t with
    | none => (d, none)
    | some (nt, rt) =>
      (d, some (min ns nt, if rs && decide (ns ≤ nt) then some cCPSRC else if rt then some cCPDST else none))

/-- The first k bytes of the source, written to a destination in memory or in a scratchpad (R231). -/
def copyWrite (d : Dev) (team : Nat) (o : CopyOp) (x : RangeData) : Dev :=
  if o.dst.kind ≠ kSCRATCH && leaves d o.dst.cursor then
    if x.bytes.isEmpty then d
    else sendRemote d (some o.ctx) 0 o.id o.dst.cursor x.bytes.length (some x.bytes) false .none x.psn
  else
    let tags := if ctrlTags o.ctrl then some (copiedTags d o.part (o.src.has pLDC) x) else none
    engineWrite d o.die team o.dst o.dst.cursor x tags

/-- The whole source before any byte is written (R231): none while a source behind a port has not answered. -/
def copySource (d : Dev) (team : Nat) (o : CopyOp) (k : Nat) : Dev × Option (RangeData × Bool) :=
  if o.src.kind ≠ kSCRATCH && leaves d o.src.cursor && k ≠ 0 then
    match o.got with
    | some (bs, psn) =>
      let bs := (bs ++ List.replicate k 0).take k
      (d, some (⟨bs, (psn ++ List.replicate k false).take k, List.replicate ((k + 15) / 16) false⟩, false))
    | none =>
      if o.asked then (d, none) else (sendRemote d (some o.ctx) 0 o.id o.src.cursor k none false .engine, none)
  else
    let (d, x, bad) := engineRead d team o.src o.src.cursor k
    (d, some (x, bad))

/-- The next bytes of a copy, up to a multiple of 128, enter the operand buffer, which a pass may find partly written (spec/15 R261);
after the last the copy has moved, or failed where its source was cut short (R230). -/
def bufferPiece (m : Mach) (cl : Nat) (o : CopyOp) (bs : List Byte) (psn : List Bool) : Mach :=
  let k := 128 - (ctrlOffset o.ctrl + o.written) % 128
  let d := m.d.setCluster cl ((m.d.cluster cl).bufferWrite (ctrlOffset o.ctrl + o.written) ⟨bs.take k, psn.take k, []⟩)
  let n := o.written + (bs.take k).length
  let left := bs.drop k
  let d := setCopy d cl o.id fun o => { o with written := n, rest := some (left, psn.drop k), moved := left.isEmpty }
  if left.isEmpty && decide (n < o.len) then failCopy { m with d := d } cl o cCPSRC else { m with d := d }

/-- A source on its way into the operand buffer has been read, once (R231): poison that it brings is consumed where no register
could report it (R237), and its first bytes move. -/
def bufferCopy (m : Mach) (cl : Nat) (o : CopyOp) (x : RangeData) : Mach :=
  bufferPiece (if x.psn.any id && !o.prc then { m with d := consume m.d o.ctx 2 } else m) cl o x.bytes x.psn

/-- CP_COPY (R231, R232): the bytes move once every earlier copy of the group on the engine has moved its own. -/
def cpCopy (cl op : Nat) (R : CtlRegs) (m : Mach) : Mach :=
  match copyOp? m.d cl op with
  | none => m
  | some o =>
    let before := (m.d.cluster cl).copies.takeWhile fun y => y.id ≠ op
    if !o.checked || o.moved || before.any (fun y => y.gid == o.gid && !y.moved) then m
    else match o.rest with
    | some (bs, psn) => bufferPiece m cl o bs psn
    | none =>
      let team := opTeam m o.gid
      match copyReach R m.d (engineParty m.d o.colour o.part team false) o with
      | (d, none) => { m with d := d }
      | (d, some (k, cause)) =>
        match copySource d team o k with
        | (d, none) => { m with d := setCopy d cl op fun o => { o with asked := true } }
        | (d, some (_, true)) => engineLoss { m with d := d } o.gid
        | (d, some (x, false)) =>
          if ctrlBuffer o.ctrl then bufferCopy { m with d := d } cl o x
          else if engineMeets d team o.dst o.dst.cursor k then engineLoss { m with d := d } o.gid else
          let d := copyWrite d team o x
          let wts := if o.dst.kind ≠ kSCRATCH && leaves d o.dst.cursor then 0
            else rangeWts d o.die o.dst o.dst.cursor k
          let d := setCopy d cl op fun o => { o with moved := true, wts := wts }
          match cause with
          | some code => failCopy { m with d := d } cl { o with wts := wts } code
          | none => { m with d := d }

/-- CP_COPY (R231). -/
def execCpCopy (cl op : Nat) (s : State) : Host.Outcome State Fault Refusal := act (fun R m => cpCopy cl op R m) s

/-- An engine's signal (R231, spec/22 R366): an add with release at `.v` on a local object, on behalf of the issuing core;
the release time covers the operation's writes. A poisoned VALUE, which the read may find so, is left as it is. -/
def signalAt (d : Dev) (die core ctx a add wts src : Nat) : Dev :=
  let d := cohStore d die core a 8
  if d.mem.anyPoison a 8 then consume d ctx src
  else
    let d := noteSync (clearWriter d a) a
    let t := max (d.core (coreKey die core)).pts wts
    let v := d.mem.word a + BitVec.ofNat 64 add
    let st := mergeState (d.mem.word (a + 8)) die (d.die die).epoch t
    raiseRmax { d with mem := d.mem.store a (toLe 8 v.toNat ++ toLe 8 st.toNat) false } die t

/-- A signal leaves through a port (R231, spec/21 R332): the release raises the RMAX of the engine's die. -/
def sendSignal (d : Dev) (die core ctx op a add wts : Nat) : Dev :=
  let t := max (d.core (coreKey die core)).pts wts
  let d' := sendRemote d (some ctx) 0 op a 8 none false .none
  let d' := { d' with remotes := d'.remotes.map fun (r : Remote) =>
    if r.id = d.nextId then { r with atomic := some (.add, BitVec.ofNat 64 add, 0), sync := .release (stateOf die (d.die die).epoch t) } else r }
  raiseRmax d' die t

/-- Does the home of a signal's object turn its epoch: the grant of ownership waits for it (spec/21 R347). -/
def signalWaits (d : Dev) (a : Nat) : Bool :=
  !leaves d a && (homeDie (localAddr d a)).any fun h => (d.die h).turning

/-- CP_COMPLETE (R231): every byte is performed; the signal is performed; then the operation is complete. A refused signal
is reported as CPSIG. -/
def cpComplete (cl op : Nat) (R : CtlRegs) (m : Mach) : Mach :=
  match copyOp? m.d cl op with
  | none => m
  | some o =>
    if !o.moved || m.d.remotes.any (fun r => r.gid == 0 && r.flight == op) then m
    else if !ctrlSig o.ctrl || o.signalled then leaveEngine m cl o
    else if signalWaits m.d o.signal.base.toNat then m
    else
      let a := o.signal.base.toNat
      let (d, s) := settleReach m.d 8 (reach R m.d (engineParty m.d o.colour o.part 0 false) true o.signal a 8)
      match s with
      | none => { m with d := d }
      | some (_, true) => failCopy { m with d := d } cl o cCPSIG
      | some (_, false) =>
        if leaves d a then
          { m with d := setCopy (sendSignal d o.die o.core o.ctx op a (ctrlAdd o.ctrl) o.wts) cl op fun o => { o with signalled := true } }
        else
          leaveEngine { m with d := signalAt d o.die o.core o.ctx (localAddr d a) (ctrlAdd o.ctrl) o.wts 2 } cl o

/-- CP_COMPLETE (R231). -/
def execCpComplete (cl op : Nat) (s : State) : Host.Outcome State Fault Refusal := act (fun R m => cpComplete cl op R m) s

end Sys2Proof.Machine
end

