-- ==== Sys2Proof/Machine/Collective.lean ====
section
/-! DEFINITION. Collectives and the envelope write: `cl.run`, `cl.give`, and the steps of a collective operation (spec/22
R362-R366). What the other members bring is an outside input. -/

namespace Sys2Proof.Machine

/-! ### The collective block (R363) -/

def clFirst (c : Word) : Nat := (c.extractLsb' 56 8).toNat
def clCount (c : Word) : Nat := (c.extractLsb' 48 8).toNat
def clStride (c : Word) : Nat := (c.extractLsb' 40 8).toNat
def clRoot (c : Word) : Nat := (c.extractLsb' 32 8).toNat
def clTag (c : Word) : Nat := (c.extractLsb' 16 16).toNat
def clTy (c : Word) : Nat := (c.extractLsb' 12 4).toNat
def clRed (c : Word) : Nat := (c.extractLsb' 10 2).toNat
def clOpc (c : Word) : Nat := (c.extractLsb' 8 2).toNat
def clSig (c : Word) : Bool := bit c 1

/-- e, the element size. -/
def clBytes (c : Word) : Nat := tyWidth (clTy c) / 8

/-- The rank of this device: the rank whose peer index is DOMID.INDEX. -/
def clRank (d : Dev) (c : Word) : Option Nat :=
  if !d.pkg.domValid then none
  else (List.range (clCount c)).find? fun r => clFirst c + r * clStride c == d.pkg.domIndex.toNat

/-- SRC and DST bytes of a member of rank q (R363). -/
def clSrcLen (c : Word) (len q : Nat) : Nat :=
  match clOpc c with
  | 0 => if q = clRoot c then len * clBytes c else 0
  | 2 => clCount c * len * clBytes c
  | _ => len * clBytes c
def clDstLen (c : Word) (len : Nat) : Nat :=
  match clOpc c with
  | 3 => clCount c * len * clBytes c
  | _ => len * clBytes c

/-- Is TY allowed for OP? -/
def clTyOk (c : Word) : Bool :=
  match clOpc c with
  | 0 | 3 => decide (clTy c ≤ 13)
  | _ => [2, 3, 6, 7, 8, 9, 10].contains (clTy c)

/-- Order 1 of R364. -/
def clBlockOk (d : Dev) (c : Word) (len : Nat) : Bool :=
  !bit c 0 && clRed c != 3 && clTyOk c && decide (1 ≤ len) && decide (len ≤ 2 ^ 28)
  && decide (1 ≤ clStride c) && decide (clStride c ≤ 143) && decide (clFirst c + (clCount c - 1) * clStride c < Config.peers)
  && (clRank d c).isSome && decide (clRoot c < clCount c)

/-- The checks of R364, in order. -/
def clFault (d : Dev) (o : ClOp) : Option Nat :=
  let c := o.ctrl
  if !clBlockOk d c o.len then some cCLBLOCK
  else
    let q := (clRank d c).getD 0
    let p := engineParty d o.colour o.part 0 false
    let need (perms : BitVec 12) (write : Bool) : Need := { kinds := [0], perms := perms, write := write, aligned := false }
    if (capCheck8 o.src p (need pLD false) (o.src.colour = o.colour) o.src.cursor (clSrcLen c o.len q)).isSome then some cCLSRC
    else if (capCheck8 o.dst p (need pST true) (o.dst.colour = o.colour) o.dst.cursor (clDstLen c o.len)).isSome then
      some cCLDST
    else if clSig c && (capCheck8 o.signal p { kinds := [3], perms := pATOM, write := true }
        (o.signal.colour == o.colour || o.signal.has pGIVE) o.signal.base.toNat 8).isSome then some cCLSIG
    else none

/-- The matching key (R365), packed: FIRST, COUNT, STRIDE and TAG; the colour is the context's. -/
def clKey (c : Word) : Nat × Nat × Nat × Nat := (clFirst c, clCount c, clStride c, clTag c)

/-- The next sequence number of a key in a context. -/
def nextSeq (x : Ctx) (k : Nat × Nat × Nat × Nat) : Nat := ((x.clSeq.find? fun e => e.1 == k).map fun e => e.2).getD 0
/-- Take it. -/
def takeSeq (x : Ctx) (k : Nat × Nat × Nat × Nat) : Ctx :=
  { x with clSeq := (k, nextSeq x k + 1) :: x.clSeq.filter fun e => e.1 != k }

/-- An operation leaves the engine and its counter may fall. -/
def leaveCl (m : Mach) (die : Nat) (o : ClOp) : Mach :=
  let x := m.d.die die
  let m := { m with d := m.d.setDie die { x with coll := x.coll.filter fun y => y.id ≠ o.id } }
  m.finishOp o.gid .cl o.flight o.wts

/-- A failed operation completes with its trap held (R364). -/
def failCl (m : Mach) (die : Nat) (o : ClOp) (code : Nat) : Mach := leaveCl (m.hold o.gid .cl o.flight code) die o

/-- The other peers among the ranks of a collective (R363). -/
def clPeers (d : Dev) (c : Word) : List Nat :=
  ((List.range (clCount c)).map fun r => clFirst c + r * clStride c).filter fun j => !ownIndex d j

/-- A block enters the collective engine; a failed check ends the operation (R364, R365). -/
def enqueueCl (m : Mach) (g : Group) (flight : Nat) (b : CmdBlock) : Mach :=
  let c := b.word 40
  let o : ClOp :=
    { id := m.d.nextId, gid := g.gid, flight := flight, ctx := g.ctx, core := g.core, src := b.cap 0, dst := b.cap 1
      len := (b.word 32).toNat, ctrl := c, signal := b.cap 3, seq := nextSeq (m.d.ctx g.ctx) (clKey c), colour := g.colour
      part := g.part, matched := false, wts := 0, prc := g.prc }
  let x := m.d.die g.die
  let d := m.d.setDie g.die { x with coll := x.coll ++ [o] }
  let d := { d.setCtx g.ctx (takeSeq (d.ctx g.ctx) (clKey c)) with nextId := m.d.nextId + 1 }
  match clFault d o with
  | none => { m with d := (clPeers d c).foldl (fun d j => usePeer d g.ctx j) d }
  | some code => failCl { m with d := d } g.die o code

/-- `cl.run` (R364). -/
def clRun (a : CReg) (R : CtlRegs) (m : Mach) : Option Mach :=
  let c := m.g.rc a.toNat
  let base := c.base.toNat
  scalarChecked R m c needCmd base 64 fun m =>
    if !(blocksAway m [base]).isEmpty then some (askBlocks m [base])
    else if !m.g.canRaise .cl || decide (64 ≤ (m.d.die m.g.die).coll.length) then none
    else
      dualGate m (blockElement m base) fun m =>
        let id := m.g.nextOp
        let (m', b, poison) := readBlock R m base
        if poison && m.g.prc then scalarTrap { m with d := m'.d } cPOISON
        else
          let m' := dropElig (if poison then { m' with d := consume m'.d m.g.ctx 4 } else m')
          let m' := { m' with g := m'.g.raise .cl }
          let m' := if m.g.shadow then m'.followPrimary .cl else enqueueCl m' m.g id (if poison then CmdBlock.zero else b)
          some { m' with g := m'.g.advance.dropBlocks }

/-- `cl.run` (R364). -/
def execClRun (a : CReg) (s : State) : Host.Outcome State Fault Refusal := actOrWait (clRun a) s

/-! ### The operation (R365) -/

/-- One member's contribution: rank, SRC bytes, and whether each byte is poisoned. -/
structure ClPart where
  rank : Nat
  bytes : List Byte
  psn : List Bool
  deriving DecidableEq, Repr

/-- Element j of size e. -/
def clElem (e : Nat) (bs : List Byte) (j : Nat) : Nat := leNat ((bs.drop (e * j)).take e)

/-- One ⊕ step (R365): the value's pattern and the events. -/
def clStep (c : Word) (x y : Nat) : Nat × Ev :=
  let op : NOp := match clRed c with
    | 0 => .add
    | 1 => .min
    | _ => .max
  let ty := clTy c
  let r := pairable op ty 0 false false (placeTy ty x) (placeTy ty y) 0
  (r.val.toNat % 2 ^ tyWidth ty, r.ev)

/-- The reduction of element j over the members in rank order. -/
def clReduce (c : Word) (ps : List ClPart) (j : Nat) : Nat × Ev :=
  let e := clBytes c
  match ps with
  | [] => (0, evNone)
  | p :: rest => rest.foldl (fun (acc : Nat × Ev) q =>
      let r := clStep c acc.1 (clElem e q.bytes j)
      (r.1, acc.2 ||| r.2)) (clElem e p.bytes j, evNone)

/-- Is some byte of element j of some member poisoned? -/
def clElemPsn (c : Word) (ps : List ClPart) (j : Nat) : Bool :=
  let e := clBytes c
  ps.any fun p => ((p.psn.drop (e * j)).take e).any id

/-- What rank q writes to DST (R365), from every member in rank order: the bytes with their poison, and the events. -/
def clResult (c : Word) (len q : Nat) (ps : List ClPart) : RangeData × Ev :=
  let e := clBytes c
  let reduced (base : Nat) : RangeData × Ev :=
    let js := (List.range len).map (base + ·)
    let rs := js.map fun j => clReduce c ps j
    (⟨rs.flatMap fun r => toLe e r.1, js.flatMap fun j => List.replicate e (clElemPsn c ps j), []⟩,
      rs.foldl (fun ev r => ev ||| r.2) evNone)
  match clOpc c with
  | 0 => match ps.find? fun p => p.rank == clRoot c with
    | some p => (⟨p.bytes.take (len * e), p.psn.take (len * e), []⟩, evNone)
    | none => (⟨[], [], []⟩, evNone)
  | 1 => reduced 0
  | 2 => reduced (q * len)
  | _ => (⟨ps.flatMap fun p => p.bytes.take (len * e), ps.flatMap fun p => p.psn.take (len * e), []⟩, evNone)

/-- The bytes of DST that stand before the first one that needs a source byte refused at offset k (R364). -/
def clReady (c : Word) (len q k : Nat) : Nat :=
  let n := len * clBytes c
  match clOpc c with
  | 2 => min n (k - q * n)
  | 3 => q * n + k
  | _ => k

/-- The other members as the engine takes them, with the bytes that lie in poisoned sectors of their sources. -/
def clOther (c : Word) (len : Nat) (x : ClMember) : ClPart :=
  let n := clSrcLen c len x.rank
  ⟨x.rank, (x.data ++ List.replicate n 0).take n, (x.psn ++ List.replicate n false).take n⟩

/-- This device's own contribution: none while a source behind a port has not answered. -/
def clOwn (d : Dev) (o : ClOp) (q n : Nat) : Dev × Option ClPart :=
  if n ≠ 0 && leaves d o.src.cursor then
    match o.got with
    | some (bs, psn) => (d, some ⟨q, (bs ++ List.replicate n 0).take n, (psn ++ List.replicate n false).take n⟩)
    | none => if o.asked then (d, none) else (sendRemote d (some o.ctx) 0 o.id o.src.cursor n none false .engine, none)
  else
    let (d, x, _) := engineRead d 0 o.src o.src.cursor n
    (d, some ⟨q, x.bytes, x.psn⟩)

/-- Change an operation. -/
def setCl (d : Dev) (die op : Nat) (f : ClOp → ClOp) : Dev :=
  let x := d.die die
  d.setDie die { x with coll := x.coll.map fun o => if o.id = op then f o else o }

/-- CL_MATCH (R365): every other member has issued; this device's DST is written. -/
def clMatch (die op : Nat) (members : List ClMember) (R : CtlRegs) (m : Mach) : Mach :=
  match (m.d.die die).coll.find? fun o => o.id == op with
  | none => m
  | some o =>
    let c := o.ctrl
    match clRank m.d c with
    | none => m
    | some q =>
      let others := (List.range (clCount c)).filter (· ≠ q)
      if o.matched || !others.all (fun r => members.any fun x => x.rank == r) then m
      else if members.any fun x => others.contains x.rank && !x.agrees then failCl m die o cCLBLOCK
      else
        let p := engineParty m.d o.colour o.part 0 false
        let n := clSrcLen c o.len q
        let k := clDstLen c o.len
        match settleReach m.d n (reach R m.d p false o.src o.src.cursor n) with
        | (d, none) => { m with d := d }
        | (d, some (ns, rs)) =>
          match settleReach d k (reach R d p true o.dst o.dst.cursor k) with
          | (d, none) => { m with d := d }
          | (d, some (nt, rt)) =>
            match clOwn d o q n with
            | (d, none) => { m with d := setCl d die op fun o => { o with asked := true } }
            | (d, some own) =>
              let parts := (List.range (clCount c)).map fun r =>
                if r = q then own
                else match members.find? fun x => x.rank == r with
                  | some x => clOther c o.len x
                  | none => ⟨r, [], []⟩
              let (out, ev) := clResult c o.len q parts
              let ready := if rs then min k (clReady c o.len q ns) else k
              let out := out.cut (min ready nt)
              let far := leaves d o.dst.cursor
              let d := if far then (if out.bytes.isEmpty then d
                  else sendRemote d (some o.ctx) 0 op o.dst.cursor out.bytes.length (some out.bytes) false .none out.psn)
                else engineWrite d die 0 o.dst o.dst.cursor out none
              let wts := if far then 0 else rangeWts d die o.dst o.dst.cursor out.bytes.length
              let m : Mach := { m with d := setCl d die op fun o => { o with matched := true, wts := wts } }
              let o := { o with matched := true, wts := wts }
              let m := m.engineEvents o.gid o.ctx .cl o.flight ev
              if rs && decide (ready ≤ nt) then failCl m die o cCLSRC
              else if rt then failCl m die o cCLDST else m

/-- CL_MATCH (R365). -/
def execClMatch (die op : Nat) (members : List ClMember) (s : State) : Host.Outcome State Fault Refusal :=
  act (fun R m => clMatch die op members R m) s

/-- CL_COMPLETE (R366): DST is performed, and then the signal. -/
def clComplete (die op : Nat) (R : CtlRegs) (m : Mach) : Mach :=
  match (m.d.die die).coll.find? fun o => o.id == op with
  | none => m
  | some o =>
    if !o.matched || m.d.remotes.any (fun r => r.gid == 0 && r.flight == op) then m
    else if !clSig o.ctrl || o.signalled then leaveCl m die o
    else if signalWaits m.d o.signal.base.toNat then m
    else
      let a := o.signal.base.toNat
      match settleReach m.d 8 (reach R m.d (engineParty m.d o.colour o.part 0 false) true o.signal a 8) with
      | (d, none) => { m with d := d }
      | (d, some (_, true)) => failCl { m with d := d } die o cCLSIG
      | (d, some (_, false)) =>
        if leaves d a then
          { m with d := setCl (sendSignal d die o.core o.ctx op a 1 o.wts) die op fun o => { o with signalled := true } }
        else leaveCl { m with d := signalAt d die o.core o.ctx (localAddr d a) 1 o.wts 4 } die o

/-- CL_COMPLETE (R366). -/
def execClComplete (die op : Nat) (s : State) : Host.Outcome State Fault Refusal := act (fun R m => clComplete die op R m) s

/-- CLTIMEOUT (R365): a member has not issued within TMO. -/
def clTimeout (die op : Nat) (m : Mach) : Mach :=
  match (m.d.die die).coll.find? fun o => o.id == op && !o.matched with
  | none => m
  | some o => failCl m die o cCLTIMEOUT

/-- CLTIMEOUT (R365). -/
def execCltimeout (die op : Nat) (s : State) : Host.Outcome State Fault Refusal := act (fun _ m => clTimeout die op m) s

/-! ### `cl.give` (R362) -/

/-- What `cl.give` asks of `c`B. -/
def needGive : Need := { kinds := [0, 2], perms := pST ||| pSTC ||| pXPORT, write := true }

/-- `cl.give` (R362): an address of the device's own index is written at once (R359). -/
def clGive (a b : CReg) (R : CtlRegs) (m : Mach) : Option Mach :=
  let env := m.g.rc a.toNat
  let dst := m.g.rc b.toNat
  let at_ := dst.cursor
  if !env.tag then scalarTrap m cCAPTAG
  else if env.malformed then scalarTrap m cCAPFORM
  else if env.kind ≠ kENVELOPE then scalarTrap m cCAPKIND
  else scalarChecked R m dst needGive at_ 16 fun m =>
    if at_ < Config.peerBase || Config.addrTop ≤ at_ || dst.kind = kSCRATCH then scalarTrap m cFXADDR
    else if !m.g.canRaise .fx then none
    else dualGate m (crcStore at_ env.bytes true) fun m =>
      let id := m.g.nextOp
      let m := dropElig m
      if m.g.shadow then
        let m := Mach.followPrimary { m with g := m.g.raise .fx } .fx
        some { m with g := m.g.advance }
      else match placeOf m.d dst at_ with
      | .remote x =>
        some { g := (m.g.raise .fx).advance, d := sendRemote m.d (some m.g.ctx) m.g.gid id x 16 (some env.bytes) true .none }
      | .local_ x =>
        let c := sweepFilter m.d m.g.part env
        let d := clearWriter (cohStore m.d m.g.die m.g.core x 16) x
        let d := breakSeq { d with mem := d.mem.storeCap x c.bytes c.tag false } x 16
        some (Mach.finishOp { g := (m.g.raise .fx).advance, d := d } m.g.gid .fx id 0)
      | _ => none

/-- `cl.give` (R362). -/
def execClGive (a b : CReg) (s : State) : Host.Outcome State Fault Refusal := actOrWait (clGive a b) s

end Sys2Proof.Machine
end

