-- ==== Sys2Proof/Machine/Emulate.lean ====
section
/-! DEFINITION. Words that enter the emulation handler, and the entry of a trap as a step of its own (spec/02 R27-R38;
spec/09 R170-R178). -/

namespace Sys2Proof.Machine

/-- The KIND of a reserved encoding (R28). -/
def kindOf : Reserved → Nat
  | .major => 0 | .fn => 1 | .cond => 2 | .unused => 3 | .op10 => 4 | .op7 _ => 5 | .selector => 6 | .modifier => 7
  | .sEmu => 8 | .vEmu => 9

/-- Was the reserved OP7 found first in slot Y (R29)? -/
def slotYOf : Reserved → Bool
  | .op7 y => y
  | _ => false

/-- `%e2` of a wide word (R34). -/
def e2Wide (op10 : BitVec 10) (w : Wide) : Word := w.ms ++ w.mod ++ w.sc ++ w.sb ++ w.sa ++ w.dst ++ op10

/-- `%e2` of the reported slot of a pair word (R34). -/
def e2Slot (op7 : BitVec 7) (n : Narrow) : Word :=
  (0 : BitVec 15) ++ n.mod ++ (0 : BitVec 1) ++ n.sc ++ (0 : BitVec 1) ++ n.sb ++ (0 : BitVec 1) ++ n.sa ++ n.dst
    ++ (0 : BitVec 3) ++ op7

/-- `%e2` of a lane word. -/
def e2Lane (word : BitVec 96) (slotY : Bool) : Word :=
  if bit word 95 then
    if slotY then e2Slot (word.extractLsb' 40 7) (narrowFields (word.extractLsb' 0 40))
    else e2Slot (word.extractLsb' 87 7) (narrowFields (word.extractLsb' 47 40))
  else e2Wide (word.extractLsb' 84 10) (wideFields word)

/-- The lanes that a lane word would have run on (R34). -/
def laneEmask (g : Group) (word : BitVec 96) : Word :=
  if bit word 95 then g.m0 else runMask g g.view (wideFields word).ms.toNat

/-- A lane word enters emulation (R32): the earlier lane words complete, an open chain is cut first (R30 CHAINCUT), and
its events may trap before the word. -/
def emulateLane (kind : Nat) (slotY : Bool) (word : BitVec 96) (m : Mach) : Option Mach :=
  let enter (m : Mach) : Option Mach :=
    enterEmulation m true (word.extractLsb' 0 64) (e1Word kind true slotY (word.extractLsb' 64 32).toNat)
      (e2Lane word slotY) (laneEmask m.g word)
  if lanesPending m then none
  else if m.g.chain.isSome then
    match closeChain m with
    | (m, some (cls, mask)) => some (numTrap { m with d := warn m.d m.g.ctx [wCHAINCUT] } (m.g.lpos - 1) cls mask)
    | (m, none) => enter { m with d := warn m.d m.g.ctx [wCHAINCUT] }
  else enter m

/-- `v.emu` (R38): KIND 9. -/
def execVEmu (n : BitVec 6) (w : Wide) (s : State) : Host.Outcome State Fault Refusal :=
  actOrWait (fun _ m => emulateLane 9 false (wideWord (15#4 ++ n) w) m) s

/-- EMULATION_ENTRY (R32): the word on turn holds a reserved encoding. -/
def execEmulationEntry (r : Reserved) (word : BitVec 96) (s : State) : Host.Outcome State Fault Refusal :=
  actOrWait (fun _ m =>
    let k := kindOf r
    if k ≤ 3 || k = 8 then emulateScalar k (word.extractLsb' 0 32) m else emulateLane k (slotYOf r) word m) s

/-- The cause codes that a trap may carry (spec/09 R173 and the chapters' causes): UNCORR stands in halt records only. -/
def trapCodes : List Nat := (List.range 10).map (· + 1) ++ (List.range 9).map (· + 16) ++ (List.range 7).map (· + 32)
  ++ (List.range 19).map (· + 40)

/-- TRAP_ENTRY (R175): the scalar word on turn traps; a code that no trap carries traps nothing. -/
def execTrapEntry (code : BitVec 8) (s : State) : Host.Outcome State Fault Refusal :=
  actOrWait (fun _ m => if trapCodes.contains code.toNat then scalarTrap m code.toNat else some m) s

end Sys2Proof.Machine
end

