-- ==== Sys2Proof/Machine/Teams.lean ====
section
/-! DEFINITION. Groups and teams: starting, ending, hand-over, halts and exits, pre-emption, saving and restoring (spec/12
R195-R215; spec/09 R185-R188; spec/18 R309, R313). -/

namespace Sys2Proof.Machine

/-! ### Places -/

/-- The dies of a partition. -/
def partDies (p : Part) : List Nat := (List.range 4).filter (partOnDie p)
/-- Is a core in the quarters of a partition (spec/21 R336)? -/
def coreInPart (p : Part) (die core : Nat) : Bool :=
  decide (die < 4) && decide (core < Config.coresPerDie) && bit p.quarters (4 * die + core / 48)

/-- The cores of a team: one, or the pair whose even core is named (R201). -/
def teamCores (n core : Nat) : List Nat := if n ≤ 16 then [core] else [core, core + 1]
/-- The share of a scratchpad on each of its cores (R204). -/
def scratchShare (n size : Nat) : Nat := if n ≤ 16 then size else size / 2

/-- The teams that are resident on a core. -/
def residentOn (d : Dev) (die core : Nat) : List Team :=
  (d.teams.map fun e => e.2).filter fun t => t.status == .resident && t.die == die
    && (teamCores t.kernel.team t.core).contains core
/-- The free slots of a core (R195): a group holds its slot until it ends; once a group has asked for a tail-launch, its
team keeps the slots that it still has for the successor (R213, notes/assumptions/34). -/
def freeSlots (d : Dev) (die core : Nat) : List Nat :=
  let used := (residentOn d die core).flatMap fun t =>
    (t.slots.filter fun s => s.1 = core && !t.freed.contains s).map fun s => s.2
  (List.range 16).filter fun k => !used.contains k
/-- The scratchpad in use on a core (R203). -/
def scratchUsed (d : Dev) (die core : Nat) : Nat :=
  ((residentOn d die core).map fun t => scratchShare t.kernel.team t.scratchSize).sum

/-- The groups of a team on each of its cores. -/
def groupsOn (n i : Nat) : Nat := if n ≤ 16 then n else if i = 0 then 16 else n - 16

/-! ### Standing of queues, and reservations (spec/18 R311, R314, R315) -/

/-- Is a context scheduled by earliest deadline first (R314)? -/
def edf (d : Dev) (ctx : Nat) : Bool := decide ((partDies (d.parts.getD (d.ctx ctx).part {})).length ≤ 1)

/-- PERIOD, BUDGET, DLINE and USED of a queue record (R297). -/
def qPeriod (d : Dev) (q : Nat) : Nat := recordNum d q 44 4
def qBudget (d : Dev) (q : Nat) : Nat := recordNum d q 40 4
def qDline (d : Dev) (q : Nat) : Nat := recordNum d q 48 8
def qUsed (d : Dev) (q : Nat) : Nat := recordNum d q 56 8

/-- The effective priority of a queue (R315). -/
def effPri (d : Dev) (q : Nat) (ctx : Nat) : Nat := min 7 ((d.ctx ctx).pri + ((d.queue? q).map fun x => x.boost).getD 0)

/-- The order of two ranks. -/
def lexLt : List Nat → List Nat → Bool
  | a :: as, b :: bs => decide (a < b) || (a == b && lexLt as bs)
  | _, _ => false

/-- The deadline of a queue (R314): DLINE, and none of a background queue's, after every other. -/
def deadlineKey (d : Dev) (q : Nat) : List Nat := if qPeriod d q = 0 then [1, 0] else [0, qDline d q]

/-- Where a launch stands in the order in which teams receive cores (R314, R315): the deadline, background queues last, and the slot;
or the effective priority; then entry. -/
def rank (d : Dev) (lk : Nat) : List Nat :=
  let l := d.launch lk
  let q := l.queue
  if edf d l.ctx then deadlineKey d q ++ [((d.queue? q).bind fun x => x.mapped).getD 64, lk] else [7 - effPri d q l.ctx, lk]

/-- Is the launch's queue eligible (R305)? -/
def launchEligible (d : Dev) (l : Launch) : Bool := ((d.queue? l.queue).map fun x => x.eligible).getD true

/-- May a team of launch k take what a `coop` launch lk has reserved (R311, R322)? Only one of an earlier deadline, or of a higher
priority, which ageing does not raise. -/
def overrides (d : Dev) (k lk : Nat) : Bool :=
  let a := d.launch k
  let b := d.launch lk
  if edf d b.ctx then lexLt (deadlineKey d a.queue) (deadlineKey d b.queue)
  else decide (effPri d b.queue b.ctx < (d.ctx a.ctx).pri)

/-- The slots and the scratchpad of a core that other launches have reserved against a launch. -/
def reservedFrom (d : Dev) (lk die core : Nat) : Nat × Nat :=
  (d.launches.filter fun e => e.1 ≠ lk && !e.2.done && !overrides d lk e.1).foldl (fun (r : Nat × Nat) e =>
    let k := e.2.kernel
    e.2.reserved.foldl (fun (r : Nat × Nat) x =>
      if x.1 = die && (teamCores k.team x.2).contains core then
        (r.1 + groupsOn k.team (core - x.2), r.2 + scratchShare k.team (1024 * k.scratchKiB)) else r) r) (0, 0)

/-- Does a die run teams: in reduced service only die 0 does (spec/21 R345)? -/
def dieServes (d : Dev) (die : Nat) : Bool := d.pkg.stage != 2 || die == 0

/-- The places that a `coop` launch still needs: one for each of its teams, two of a dual kernel (R317). -/
def coopNeeds (l : Launch) : Nat :=
  if l.kernel.coop && !l.done then (l.teams - l.entered) * (if l.kernel.dual then 2 else 1) - l.reserved.length else 0

/-- Does what is free on a core go to a `coop` launch as it becomes free (R311): one that waits and still needs places, and that a
launch may not override? While one does, every free slot and all free scratchpad of its partition is the reservation's, whether or
not it is enough for a place (notes/assumptions/35). Among `coop` launches the first in the order has it. -/
def coopClaims (d : Dev) (lk die core : Nat) : Bool :=
  d.launches.any fun e => e.1 ≠ lk && decide (0 < coopNeeds e.2) && launchEligible d e.2 && (d.ctx e.2.ctx).live
    && (d.ctx e.2.ctx).part = (d.ctx (d.launch lk).ctx).part && !overrides d lk e.1
    && (!(d.launch lk).kernel.coop || lexLt (rank d e.1) (rank d lk))
    && dieServes d die && coreInPart (d.parts.getD (d.ctx e.2.ctx).part {}) die core

/-- May a team of a launch's kernel be admitted on a core, or a pair (R202, R203), beside what is reserved for others? -/
def fits (d : Dev) (p : Part) (k : Kernel) (lk die core : Nat) : Bool :=
  let cs := teamCores k.team core
  dieServes d die && (k.team ≤ 16 || core % 2 = 0)
  && cs.zipIdx.all fun c => coreInPart p die c.1
    && decide (groupsOn k.team c.2 + (reservedFrom d lk die c.1).1 ≤ (freeSlots d die c.1).length)
    && decide (scratchUsed d die c.1 + scratchShare k.team (1024 * k.scratchKiB) + (reservedFrom d lk die c.1).2 ≤ 256 * 1024)

/-- The slots that a team takes: the lowest free ones, by `%group`. -/
def takeSlots (d : Dev) (k : Kernel) (die core : Nat) : List (Nat × Nat) :=
  (teamCores k.team core).zipIdx.flatMap fun c =>
    ((freeSlots d die c.1).take (groupsOn k.team c.2)).map fun s => (c.1, s)

/-- The first place of a partition that a condition admits and where a kernel's team fits, off a cluster if one is named. -/
def findPlace (d : Dev) (p : Part) (k : Kernel) (lk : Nat) (notCluster : Option Nat) (free : Nat → Nat → Bool := fun _ _ => true) :
    Option (Nat × Nat) :=
  ((List.range 768).map fun i => (i / 192, i % 192)).find? fun x =>
    notCluster ≠ some (clusterKey x.1 x.2) && fits d p k lk x.1 x.2 && free x.1 x.2

/-! ### Starting groups -/

/-- The issue priority of a context's groups (R196): PRI, or 0 under earliest deadline first. -/
def groupPrio (d : Dev) (x : Ctx) : Nat := if 1 < (partDies (d.parts.getD x.part {})).length then x.pri else 0

/-- A capability on its way into a group that starts after the register step of a running pass, which clears it there (spec/16
R278). -/
def passFilter (d : Dev) (part : Nat) (c : Cap) : Cap :=
  if c.tag && ((d.parts.getD part {}).running.getD []).any c.meets then { c with tag := false } else c

/-- A group at its start (spec/04 R74, spec/18 R309). -/
def newGroup (d : Dev) (key : Nat) (t : Team) (i gid : Nat) (place : Nat × Nat) (present : Word) (s : Tab Word) (c : Tab Cap) : Group :=
  let x := d.ctx t.ctx
  let k := t.kernel
  { live := true, gid := gid, team := key, ctx := t.ctx, die := t.die, core := place.1, slot := place.2, index := i
    teamNo := t.num, width := k.width, present := present, vregs := k.vregs, prc := k.prc, dual := t.partner.isSome
    shadow := t.shadow, colour := x.colour, part := x.part, codeLo := k.codeLo, codeHi := k.codeHi
    laneBase := k.laneBase, laneWords := k.laneWords, privSize := k.priv, pc := BitVec.ofNat 64 k.entry, s := s
    c := c.map fun e => (e.1, passFilter d x.part e.2)
    trapv := k.trapv, emuv := k.emuv, nextOp := 1, age := d.time, prio := groupPrio d x }

/-- The groups of a team enter their slots; `regs` gives the launch registers by `%group`. -/
def startGroups (d : Dev) (key : Nat) (present : Word) (regs : Nat → Tab Word × Tab Cap) : Dev :=
  let t := d.team key
  let n := t.kernel.team
  let d' := ((t.slots.take n).zipIdx).foldl (fun (d : Dev) e =>
    let (s, c) := regs e.2
    let g := newGroup d key t e.2 d.nextId e.1 present s c
    { d with groups := d.groups.insert g.gid g, nextId := d.nextId + 1 }) d
  d'.setTeam key { t with members := (List.range n).map (d.nextId + ·) }

/-- A capability with its permissions reduced to a mask. -/
def Cap.only (c : Cap) (p : BitVec 12) : Cap := c.withField 102 12 (c.perms &&& p).toNat

/-- The registers of group i of a team at its start: the launch registers, or those that its hand-over gave it (R209, R213). -/
def Team.handedRegs (t : Team) (i : Nat) : Tab Word × Tab Cap :=
  match t.startRegs.find? fun r => r.1 == i with
  | some r => r.2
  | none => ([], [])

/-- The launch registers of a team (spec/18 R309, R313). -/
def launchRegs (l : Launch) (t : Team) : Tab Word × Tab Cap :=
  if t.kernel.node then
    ((l.argS.set 14 (BitVec.ofNat 64 t.first) 0).set 15 (BitVec.ofNat 64 t.records) 0, l.argC.set 15 (t.kernel.bag.only pLD) {})
  else (l.argS, l.argC)

/-- The lanes that are present (spec/04 R68). -/
def presentOf (t : Team) : Word := maskBelow (if t.kernel.node then t.records else t.kernel.width)

/-- A team becomes resident at a place, fresh (R202-R204, R208), where the L1 gives up what its scratchpad takes (R203). -/
def startTeam (d : Dev) (key die core : Nat) : Dev :=
  let t := d.team key
  let l := d.launch t.launch
  let t := { t with
    status := .resident, die := die, core := core, slots := takeSlots d t.kernel die core, freed := [], scratch := {}
    scratchSize := 1024 * t.kernel.scratchKiB, scratchBad := [], scratchSoft := [], scratchOver := [], scratchMet := [], elapsed := 0, since := d.time, elig := t.kernel.idem
    preempted := false, draining := false, preempt := false }
  let d := (teamCores t.kernel.team core).foldl (fun d c => trimL1 d die c) (d.setTeam key t)
  startGroups d key (presentOf t) fun i => if t.handed then t.handedRegs i else launchRegs l t

/-- A fresh team record of a launch. -/
def teamOf (l : Launch) (key : Nat) (num first records : Nat) : Team :=
  { launch := key, ctx := l.ctx, num := num, kernel := l.kernel, first := first, records := records }

/-- Is the place barred to a context: does a team of it drain there (R206)? -/
def drainsAt (d : Dev) (ctx die core n : Nat) : Bool :=
  (teamCores n core).any fun c => (residentOn d die c).any fun t => t.draining && t.ctx == ctx

/-- Admit a team that stands in the records, with its shadow on another cluster (R202, spec/18 R317): none if it does not
fit, or would take, with either copy, the slots of a team of its context that is drained; the shadow takes nothing that is reserved
for a `coop` launch (R311). -/
def admitTeam (d : Dev) (key die core : Nat) : Option Dev :=
  let t := d.team key
  let p := d.parts.getD (d.ctx t.ctx).part {}
  if !fits d p t.kernel t.launch die core || drainsAt d t.ctx die core t.kernel.team then none
  else
    let d1 := startTeam d key die core
    match t.partner with
    | none => some d1
    | some s => (findPlace d1 p t.kernel t.launch (some (clusterKey die core)) fun die core =>
        !drainsAt d1 t.ctx die core t.kernel.team && !coopClaims d1 t.launch die core).map fun x => startTeam d1 s x.1 x.2

/-- Enter a new team of a launch in the records: a dual kernel's with its shadow. -/
def enterTeam (d : Dev) (lk num first records : Nat) : Dev × Nat :=
  let l := d.launch lk
  let key := d.nextId
  let t := teamOf l lk num first records
  if l.kernel.dual then
    let d := d.setTeam key { t with partner := some (key + 1) }
    ({ d.setTeam (key + 1) { t with partner := some key, shadow := true } with nextId := key + 2 }, key)
  else ({ d.setTeam key t with nextId := key + 1 }, key)

/-! ### Pre-emption (R205-R210) -/

/-- ELAPSED (R205). -/
def Team.runTime (t : Team) (now : Nat) : Nat := t.elapsed + (now - t.since)

/-- 64 · SAVEC: the bytes of the mapped and spilled lane registers, and of the scratchpad. -/
def saveBytes (m : Mach) (key : Nat) : Nat :=
  ((m.groupsOf key).map fun g => 4 * g.width * g.lanes.mapped.length).sum + (m.d.team key).scratchSize

/-- How a team gives its slots back (R206). -/
inductive Method where
  | drain | flush | save
  deriving DecidableEq, Repr

/-- Does the team belong to a `coop` launch (R206)? A successor still does (R213). -/
def coopTeam (d : Dev) (t : Team) : Bool := (d.launch t.launch).kernel.coop

/-- The rule of R206; `drained` leaves the drain line out. -/
def chooseMethod (m : Mach) (key : Nat) (drained : Bool) : Method :=
  let t := m.d.team key
  let l := m.d.launch t.launch
  let e := t.runTime m.d.time
  let n := l.runs.length
  if coopTeam m.d t then .save
  else if !drained && 0 < n && l.runs.sum ≤ n * (e + (m.d.ctx t.ctx).drain) then .drain
  else if t.elig && 64 * e ≤ saveBytes m key then .flush
  else .save

/-- The teams that are pre-empted, saved and restored with a team: all of a `coop` launch; the other copy of a pair. -/
def together (d : Dev) (key : Nat) : List Nat :=
  let t := d.team key
  if coopTeam d t then (d.teams.filter fun e => e.2.launch = t.launch && !e.2.over).map fun e => e.1
  else key :: t.partner.toList

/-- The core gives a team's slots back by a method. -/
def giveBack (m : Mach) (key : Nat) (how : Method) : Mach :=
  let mark (f : Team → Team) : Mach := { m with d := (together m.d key).foldl (fun d k => d.setTeam k (f (d.team k))) m.d }
  match how with
  | .drain => mark fun t => { t with draining := true }
  | .flush => flushTeam m key
  | .save => mark fun t => { t with preempt := true, draining := false }

/-- PREEMPT_REQUEST (R206). A team whose last group has ended is not pre-empted (R210). -/
def preemptTeam (key : Nat) (m : Mach) : Mach :=
  let t := m.d.team key
  if t.status != .resident || t.members.isEmpty || t.draining || t.preempt then m
  else giveBack m key (chooseMethod m key false)

/-! ### The end of a group and of a team -/

/-- The successor of a team (R211): the request of the lowest `%group`. -/
def tailOf (t : Team) : Option Cap :=
  (t.tails.foldl (fun (best : Option (Nat × Cap)) r => match best with
    | some b => if r.1 < b.1 then some r else some b
    | none => some r) none).map fun r => r.2

/-- The successor's kernel (R212): none where the hand-over is refused; a node kernel is, which R212 does not name: the model's choice
(notes/assumptions/34). -/
def successor (d : Dev) (t : Team) (c : Cap) : Dev × Option Kernel :=
  let a := c.cursor
  if !c.tag || c.malformed || c.colour ≠ (d.ctx t.ctx).colour || leaves d a || (a : Int) < c.base || c.top < ((a + 128 : Nat) : Int)
    then (d, none)
  else
    let (d, k) := readKernel d (localAddr d a)
    match k with
    | none => (d, none)
    | some k =>
      let held (i : Nat) : Nat := (t.slots.filter fun s => s.1 = t.core + i).length
      let room := if k.team ≤ 16 then decide (k.team ≤ held 0) else decide (16 ≤ held 0) && decide (k.team - 16 ≤ held 1)
      (d, if k.node || !room || t.scratchSize < 1024 * k.scratchKiB then none else some k)

/-- The slots that a team still has on the i-th of its cores: those of its groups, and those freed that nothing has taken. -/
def Team.kept (t : Team) (d : Dev) (i : Nat) : List (Nat × Nat) :=
  t.slots.filter fun s => s.1 = t.core + i && (!t.freed.contains s || (freeSlots d t.die s.1).contains s.2)

/-- Are a successor's slots still the team's? Slots that its ended groups freed may have gone to another team, and the hand-over is
then refused: the model's choice (notes/assumptions/34). -/
def stillRoom (d : Dev) (t : Team) (k : Kernel) : Bool :=
  if k.team ≤ 16 then decide (k.team ≤ (t.kept d 0).length)
  else decide (16 ≤ (t.kept d 0).length) && decide (k.team - 16 ≤ (t.kept d 1).length)

/-- An accepted hand-over (R213): the same key, so that records and claims pass on (spec/14 R257). A successor of at most 16 groups
lies on the even core of a pair, and it runs as a dual pair where its predecessor did, whatever its own kernel says: the model's
choices (notes/assumptions/34). -/
def handOver (d : Dev) (key : Nat) (k : Kernel) : Dev :=
  let t := d.team key
  let size := 1024 * k.scratchKiB
  let regs := t.endRegs.map fun r => (r.1, r.2.1.filter fun e => decide (e.1 < 16), r.2.2.filter fun e => e.1 ≠ 0)
  let t := { t with
    kernel := k, members := [], tails := [], endRegs := [], endCrc := 0, endHold := [], owed := false, abandoned := false
    slots := if k.team ≤ 16 then (t.kept d 0).take k.team else (t.kept d 0).take 16 ++ (t.kept d 1).take (k.team - 16)
    freed := [], handed := true, startRegs := regs, scratch := t.scratch.cut size, scratchSize := size
    scratchBad := t.scratchBad.filter fun e => decide (8 * e.1 < size), scratchSoft := t.scratchSoft.filter fun e => decide (8 * e.1 < size)
    scratchOver := t.scratchOver.filter fun e => decide (8 * e.1 < size)
    scratchMet := t.scratchMet.filter fun e => decide (32 * e.1 < size), elig := k.idem, elapsed := 0, since := d.time, draining := false, preempt := false, preempted := false }
  startGroups (d.setTeam key t) key (maskBelow k.width) t.handedRegs

/-- A team's run time counts for EST (R205), unless it was saved: a team that ended while it drained, or that ran to its end after a
flush, counts as one that ran without pre-emption, the model's choice (notes/assumptions/35). -/
def Launch.noteRun (l : Launch) (t : Team) (now : Nat) : Launch :=
  if t.preempted then l else { l with runs := ((t.elapsed + (now - t.since)) :: l.runs).take 8 }

/-- The last group of a team has ended (R211-R213, spec/18 R310). A pre-emption that met the hand-over strikes the successor
(R210). -/
def teamEnds (m : Mach) (key : Nat) : Mach :=
  let t := m.d.team key
  let done (m : Mach) (refused : Bool) : Mach := teamOver m key .ended fun l =>
    let l := { l.noteRun t m.d.time with finished := l.finished + 1 }
    if refused then { l with tailsRefused := l.tailsRefused + 1, statusTail := true } else l
  match tailOf t with
  | none => done m false
  | some c =>
    match successor m.d t c with
    | (d, none) => done { m with d := d } true
    | (d, some k) =>
      if !(key :: t.partner.toList).all (fun x => stillRoom d (d.team x) k) then done { m with d := d } true
      else
        let d := (key :: t.partner.toList).foldl (fun d x => handOver d x k) d
        if t.draining || t.preempt then preemptTeam key { m with d := d } else { m with d := d }

/-- A group leaves its team (R211): by its end with a tail request or without, or by a halt or an exit. -/
def groupLeaves (m : Mach) (tail : Option Cap) : Mach :=
  let g := m.g
  let m := leaveAll m
  let t := m.d.team g.team
  let t := { t with
    members := t.members.filter (· ≠ g.gid), freed := if t.tails.isEmpty && tail.isNone then (g.core, g.slot) :: t.freed else t.freed
    tails := t.tails ++ (tail.map fun c => (g.index, c)).toList
    endRegs := t.endRegs ++ [(g.index, g.s, g.c)], endCrc := t.endCrc + g.dualSt.crc, endHold := t.endHold ++ g.dualSt.hold
    owed := t.owed || g.dualSt.owed }
  let m := barrierComplete { g := m.g.gone, d := m.d.setTeam g.team t } g.team
  if t.members.isEmpty && t.partner.isNone then teamEnds m g.team else m

/-- `sys.end` and `s.tail` (spec/05 R106, spec/03 R66): the waits, a held trap, then the end. -/
def groupEnd (tail : Option Cap) (m : Mach) : Option Mach :=
  let g := m.g
  if !g.lanesIdle || !g.flights.isEmpty then none
  else match g.heldTraps with
  | h :: _ =>
    let held := g.heldTraps.filter fun x => x != h && !(h.code = cNUMEVT && x.code = cNUMEVT && x.path == h.path && x.pos = h.pos)
    some (takeTrap { m with g := { g with heldTraps := held } } { code := h.code, nevc := h.nevc, path := pathCode h.path, tspc := g.pc })
  | [] => some (groupLeaves m tail)

/-- `sys.end` (R106). -/
def execSysEnd (s : State) : Host.Outcome State Fault Refusal := actOrWait (fun _ m => groupEnd none m) s

/-- What `s.tail` checks of its capability (spec/05 R106). -/
def tailFault (c : Cap) : Option Nat :=
  if !c.tag then some cCAPTAG
  else if c.malformed then some cCAPFORM
  else if c.kind = kENVELOPE then some cCAPSEAL
  else if c.kind ≠ kCODE then some cCAPKIND
  else if !c.has pX then some cCAPPERM
  else none

/-- `s.tail` (R106, spec/12 R208, R211). -/
def sTail (a : CReg) (m : Mach) : Option Mach :=
  match tailFault (m.g.rc a.toNat) with
  | some cause => scalarTrap m cause
  | none => groupEnd (some (m.g.rc a.toNat)) (dropElig m)

/-- `s.tail` (R106). -/
def execSTail (a : CReg) (s : State) : Host.Outcome State Fault Refusal := actOrWait (fun _ m => sTail a m) s

/-! ### Dual pairs (spec/18 R319-R321) -/

/-- A mismatch (R321): both copies are discarded; relaunch, or the removal of the context with DUALFAIL. -/
def dualMismatch (m : Mach) (key : Nat) : Mach :=
  let t := m.d.team key
  let key := if t.shadow then t.partner.getD key else key
  let t := m.d.team key
  let n := t.mismatches + 1
  let m := flushTeam { m with d := m.d.setTeam key { t with mismatches := n } } key
  if t.elig && n < 2 then m
  else
    let d := m.d.setLaunch t.launch { (m.d.launch t.launch) with statusDual := true }
    removeContext { m with d := d } t.ctx { reason := 3 }

/-- A held store performs for the primary (R317, R319), where its line is still the context's (spec/21 R338), with the tag that
a sweep leaves it (spec/16 R277) and the writer of its word (spec/17 R284). A store to a sync object that is no release
ends its sequence (spec/13 R220); a held sync word, which is not `plain`, has written STATE itself. -/
def performStore (d : Dev) (g : Group) (a : Nat) (bs : List Byte) (cap : Option Bool) (poison : Bool) (w : Option Writer)
    (plain : Bool) : Dev :=
  if leaves d a then sendRemote d (some g.ctx) g.gid 0 a bs.length (some bs) false .none [poison]
  else if !ownsByte d g.ctx a then d
  else
    let d := cohStore d g.die g.core a bs.length
    let cap := cap.map fun t => (sweepFilter d (d.ctx g.ctx).part (Cap.ofBytes bs t)).tag
    let d := { d with mem := d.mem.put a bs cap poison }
    setWriter (if plain then breakSeq d a bs.length else d) w a

/-- The held stores of a copy to its team's scratchpad perform. -/
def performScratch (d : Dev) (team : Nat) (hold : List HoldItem) : Dev :=
  hold.foldl (fun d h => match h with
    | .scratch o bs cap poison => d.setTeam team ((d.team team).putScratch o bs cap poison)
    | .store _ _ _ _ _ _ | .device _ _ | .push _ => d) d

/-- What a matched checkpoint lets out, in order, for the primary (R319): stores, register writes, and the pushes that follow
a word's writes (spec/17 R286). -/
def performHolds (R : CtlRegs) (d : Dev) (g : Group) (hold : List HoldItem) : Dev :=
  hold.foldl (fun d h => match h with
    | .store a bs cap poison w plain => performStore d g a bs cap poison w plain
    | .scratch o bs cap poison => d.setTeam g.team ((d.team g.team).putScratch o bs cap poison)
    | .device a v => { d with regWrites := d.regWrites ++ [(a, v)] }
    | .push r => pushRoute R d g r) d

/-- Must the stores of a hold buffer wait: for bytes that a carve-out change or an import holds (spec/16 R271, spec/21 R340), or for
a home that turns its epoch (spec/21 R347)? -/
def holdBusy (R : CtlRegs) (d : Dev) (hold : List HoldItem) : Bool :=
  hold.any fun h => match h with
    | .store a _ _ _ _ _ => !leaves d a && (fwLocal.fwBusy R d (localAddr d a) || fwLocal.homeTurns d (localAddr d a))
    | .scratch _ _ _ _ | .device _ _ | .push _ => false

/-- A copy goes on after a matched checkpoint. -/
def Group.matched (g : Group) : Group :=
  { g with dualSt := { g.dualSt with
      crc := 0, hold := [], words := 0, waiting := false, owed := false, passed := g.dualSt.waiting && decide (g.dualSt.words < 256) } }

/-- Traps that must agree (R321): their causes and positions. -/
def sameTraps (a b : Group) : Bool := a.causeWord == b.causeWord && a.tspc == b.tspc && a.tlpc == b.tlpc

/-- The stores of the ended groups of a matched pair perform (R319), the shadow's own to its scratchpad. -/
def performEnded (R : CtlRegs) (key p : Nat) (d : Dev) : Dev :=
  let t := d.team key
  let who : Group := { die := t.die, core := t.core, ctx := t.ctx, team := key }
  let d := performScratch (performHolds R d who t.endHold) p (d.team p).endHold
  let done (d : Dev) (k : Nat) : Dev := d.setTeam k { (d.team k) with endHold := [], endCrc := 0, owed := false }
  done (done d key) p

/-- The team signature (R318): live groups and those that have ended. -/
def signature (m : Mach) (key : Nat) : Word := (m.groupsOf key).foldl (fun t g => t + g.dualSt.crc) (m.d.team key).endCrc

/-- DUAL_CHECKPOINT (R319): the first pair of groups that both wait is compared; else a barrier that both copies have
reached; else the teams' end. A copy whose other copy has gone elsewhere is a mismatch; stores that may not reach their bytes yet
hold a match up (spec/16 R271). -/
def dualCheckpoint (key : Nat) (R : CtlRegs) (m : Mach) : Mach :=
  let t := m.d.team key
  match t.partner with
  | none => m
  | some p =>
    let key := if t.shadow then p else key
    let t := m.d.team key
    let p := t.partner.getD key
    let mine := m.groupsOf key
    let theirs := m.groupsOf p
    if t.status != .resident then m
    else if mine.isEmpty && theirs.isEmpty then
      if t.endCrc = (m.d.team p).endCrc then
        if holdBusy R m.d t.endHold then m else teamEnds { m with d := performEnded R key p m.d } key
      else dualMismatch m key
    else
      let other (i : Nat) : Option Group := theirs.find? fun x => x.index = i
      let apart (g : Group) (x : Option Group) : Bool := g.dualSt.waiting && match x with
        | none => true
        | some x => x.arrived.isSome
      let back (i : Nat) : Option Group := mine.find? fun x => x.index = i
      if mine.any (fun g => apart g (other g.index)) || theirs.any (fun g => apart g (back g.index)) then dualMismatch m key
      else match mine.find? fun g => g.dualSt.waiting && ((other g.index).any fun x => x.dualSt.waiting) with
      | some g =>
        match other g.index with
        | none => m
        | some x =>
          if g.dualSt.fatal || x.dualSt.fatal then
            if g.dualSt.fatal && x.dualSt.fatal && g.dualSt.crc = x.dualSt.crc && sameTraps g x then fatalTrap m g else dualMismatch m key
          else if g.dualSt.crc = x.dualSt.crc && sameTraps g x then
            if holdBusy R m.d g.dualSt.hold then m else
            let m := { m with d := performScratch (performHolds R m.d g g.dualSt.hold) p x.dualSt.hold }
            (m.onGid g.gid Group.matched).onGid x.gid Group.matched
          else dualMismatch m key
      | none =>
        if allArrived m key && allArrived m p && !(mine.isEmpty || theirs.isEmpty) then
          if signature m key = signature m p && mine.all (fun g => (other g.index).any (sameTraps g)) then
            if holdBusy R m.d (t.endHold ++ mine.flatMap fun g => g.dualSt.hold) then m else
            let d := mine.foldl (fun d g => performHolds R d g g.dualSt.hold) (performEnded R key p m.d)
            let m := { m with d := theirs.foldl (fun (d : Dev) (x : Group) => performScratch d p x.dualSt.hold) d }
            let m := m.onGroups (fun g => g.team = key || g.team = p) Group.matched
            completeBarrier (completeBarrier m key) p
          else dualMismatch m key
        else m

/-- DUAL_CHECKPOINT (R319). -/
def execDualCheckpoint (team : Nat) (s : State) : Host.Outcome State Fault Refusal := act (dualCheckpoint team) s

/-! ### Halts and exits -/

/-- A read of a register whose storage holds an uncorrectable error (spec/09 R186): the group halts, its halt record is
sent, and the others' barriers are abandoned. In a dual team it is a mismatch (spec/18 R321). -/
def haltGroup (m : Mach) (lane : Bool) (mask : Word) : Mach :=
  let g := m.g
  let d := sendHalt m.d g g.pc (if lane then BitVec.ofNat 64 g.laneTrapPos else BitVec.allOnes 64) mask
  let t := d.team g.team
  if t.partner.isSome then dualMismatch { m with d := d } g.team
  else
    let d := dropEngines (d.setTeam g.team { t with abandoned := true }) (· = g.gid)
    groupLeaves { m with d := d } none

/-- EXIT_INJECT (R187): the group ends with its exit record; its engine operations are discarded. -/
def exitInject (gid : Nat) (m : Mach) : Mach :=
  match m.group? gid with
  | none => m
  | some g =>
    let d := dropEngines (exitRecord (unwatch m.d g) g) (· = gid)
    let t := d.team g.team
    let d := d.setTeam g.team { t with
      members := t.members.filter (· ≠ gid), freed := if t.tails.isEmpty then (g.core, g.slot) :: t.freed else t.freed }
    let m := dropMember { m with d := d } gid
    if (m.d.team g.team).members.isEmpty && t.partner.isNone then teamOver m g.team .removed id else m
where
  /-- The group leaves its ids and its slot. -/
  dropMember (m : Mach) (gid : Nat) : Mach :=
    let m := leaveAll (m.focus gid)
    { m with g := m.g.gone }

/-- EXIT_INJECT (R187). -/
def execExitInject (gid : Nat) (s : State) : Host.Outcome State Fault Refusal := act (fun _ m => exitInject gid m) s

/-- NEV_WINDOW_END (spec/03 R65): COUNT clears, and the action may fire again; the timers stop while no team is resident. -/
def nevWindowEnd (ctx cls : Nat) (d : Dev) : Dev :=
  if cls < 7 && (d.ctx ctx).live && d.teams.any (fun e => e.2.ctx = ctx && e.2.status == .resident) then
    let x := d.ctx ctx
    d.setCtx ctx { x with nev := x.nev.set cls (x.nev.getD cls 0 &&& ~~~(0xFFFFFFFF : Word)) 0, fired := x.fired.set cls false false }
  else d

/-- NEV_WINDOW_END (R65). -/
def execNevWindowEnd (ctx cls : Nat) (s : State) : Host.Outcome State Fault Refusal :=
  act (fun _ m => { m with d := nevWindowEnd ctx cls m.d }) s

/-! ### Issue (R196-R200) -/

/-- May a group issue now? Its team is resident and not being saved, it waits for nothing, and its die turns no epoch. -/
def mayIssue (d : Dev) (g : Group) : Bool :=
  let t := d.team g.team
  g.live && !g.waitRemote && g.park.isNone && g.arrived.isNone && !g.dualSt.waiting && t.status == .resident && !t.preempt
  && !(d.die g.die).turning

/-- STARVATION_RAISE (R198): a stream that could issue for 64 cycles has not. -/
def execStarvationRaise (gid : Nat) (lane : Bool) (s : State) : Host.Outcome State Fault Refusal :=
  act (fun _ m => m.onGid gid fun g =>
    if !mayIssue m.d g || lane && g.queue.isEmpty then g
    else if lane then { g with starveLane := max 64 g.starveLane } else { g with starveScalar := max 64 g.starveScalar }) s

/-! ### The register file (R199, R200) -/

/-- Is a lane register in the physical file: mapped and not spilled? -/
def Group.inFile (g : Group) (r : Nat) : Bool := g.lanes.mapped.getD r false && g.spilledRegs.getD r 0 = 0

/-- Physical registers that a group holds, in halves of a 32-lane register: its registers in the file. -/
def physHeld (g : Group) : Nat := g.width / 16 * (g.lanes.mapped.filter fun e => g.spilledRegs.getD e.1 0 = 0).length

/-- What the file keeps for a group: what it holds, and at least the 32 names that it is guaranteed (R199). -/
def physKept (g : Group) : Nat := max (physHeld g) (2 * g.width)

/-- The resident groups of a core. -/
def Mach.onCore (m : Mach) (die core : Nat) : List Group :=
  m.allGroups.filter fun g => g.die = die && g.core = core && (m.d.team g.team).status == .resident

/-- The key that is least by a measure. -/
def leastBy (f : Nat → Nat) : List Nat → Option Nat
  | [] => none
  | x :: xs => some (xs.foldl (fun b y => if f y < f b then y else b) x)

/-- The register that is spilled next (R200): of the group, among those above their guarantee, whose last lane issue is oldest,
the one read least recently. `named` are the registers of `gid` that a word in the pipe reads or writes. -/
def spillVictim (gs : List Group) (gid : Nat) (named : List Nat) : Option (Nat × Nat) :=
  let open_ (g : Group) : List Nat := (g.lanes.mapped.map fun e => e.1).filter fun r =>
    g.spilledRegs.getD r 0 = 0 && !(g.gid == gid && named.contains r)
  let able := gs.filter fun g => decide (2 * g.width < physHeld g) && !(open_ g).isEmpty
  match able with
  | [] => none
  | g :: rest =>
    let v := rest.foldl (fun b x => if x.lastLane < b.lastLane then x else b) g
    (leastBy (fun r => v.lastRead.getD r 0) (open_ v)).map fun r => (v.gid, r)

/-- The backing cache's registers of groups that still run: 64 KiB, in halves (R203). -/
def Mach.backed (m : Mach) (die core : Nat) : List (Nat × Nat) :=
  (m.d.core (coreKey die core)).backing.filter fun e => (m.group? e.1).any fun g => g.spilledRegs.getD e.2 0 ≠ 0
def Mach.halves (m : Mach) (l : List (Nat × Nat)) : Nat := (l.map fun e => ((m.group? e.1).map fun g => g.width / 16).getD 0).sum

/-- The backing cache writes its oldest entry to L1, which makes room for it; the L1 writes the entries that it evicts to Caldera
(R200, notes/assumptions/51). -/
def writeToL1 (m : Mach) (die core : Nat) (o : Nat × Nat) : Mach :=
  let k := coreKey die core
  let lines := (m.halves [o] + 1) / 2
  let d := shrinkL1 die core lines (m.d.core k).l1Used m.d
  { m with d := d.setCore k { (d.core k) with l1Regs := (d.core k).l1Regs ++ [(o.1, o.2, lines)] } }

/-- A register goes to the backing cache; where it is full, its oldest entry goes on to L1 (R200). -/
def spillOne (m : Mach) (die core : Nat) (e : Nat × Nat) : Mach :=
  let m := m.onGid e.1 fun g => { g with spilledRegs := g.spilledRegs.set e.2 1 0 }
  let k := coreKey die core
  let all := m.backed die core
  let all := if all.contains e then all else all ++ [e]
  let put (l : List (Nat × Nat)) : Mach := { m with d := m.d.setCore k { (m.d.core k) with backing := l } }
  match all with
  | [] => m
  | o :: rest => if m.halves all ≤ 1024 then put all else writeToL1 (put rest) die core o

/-- Spill until the file of 1,536 registers holds what its groups have and are guaranteed; at most `fuel` registers. -/
def spillCore (die core gid : Nat) (named : List Nat) : Nat → Mach → Mach
  | 0, m => m
  | fuel + 1, m =>
    let gs := m.onCore die core
    if (gs.map physKept).sum ≤ 3072 then m
    else match spillVictim gs gid named with
    | none => m
    | some e => spillCore die core gid named fuel (spillOne m die core e)

/-- Before and after a lane word of the group on turn: the file has room for it (R199, R200). -/
def spillFull (m : Mach) (named : List Nat) : Mach :=
  if m.g.live then spillCore m.g.die m.g.core m.g.gid named 4096 m else m

/-- A lane word of the group on turn has issued, and read some lane registers. -/
def Mach.laneIssued (m : Mach) (reads : List Nat) : Mach :=
  if !m.g.live then m
  else
    let k := coreKey m.g.die m.g.core
    let n := (m.d.core k).laneSeq + 1
    { g := { m.g with lastLane := n, lastRead := reads.foldl (fun t r => t.set r n 0) m.g.lastRead }
      d := m.d.setCore k { (m.d.core k) with laneSeq := n } }

/-- Spilled registers of a group come back (R200); others give up their room. -/
def Mach.refill (m : Mach) (gid : Nat) (rs : List Nat) : Mach :=
  match m.group? gid with
  | none => m
  | some g =>
    let m := m.onGid gid fun g => { g with spilledRegs := rs.foldl (fun t r => t.erase r) g.spilledRegs }
    let k := coreKey g.die g.core
    let c := m.d.core k
    let m := { m with d := m.d.setCore k { c with
      backing := c.backing.filter fun e => !(e.1 == gid && rs.contains e.2)
      l1Regs := c.l1Regs.filter fun e => !(e.1 == gid && rs.contains e.2.1) } }
    spillCore g.die g.core gid rs 4096 m

/-- REGISTER_REFILL (R200): a spilled register comes back. -/
def execRegisterRefill (gid : Nat) (r : BitVec 8) (s : State) : Host.Outcome State Fault Refusal :=
  act (fun _ m => m.refill gid [r.toNat]) s

/-! ### Pre-emption (R206) -/

/-- PREEMPT_REQUEST (R206). -/
def execPreemptRequest (team : Nat) (s : State) : Host.Outcome State Fault Refusal := act (fun _ m => preemptTeam team m) s

/-- DRAIN_EXPIRY (R206): the core chooses again with the drain line left out. -/
def execDrainExpiry (team : Nat) (s : State) : Host.Outcome State Fault Refusal :=
  act (fun _ m =>
    let t := m.d.team team
    if t.status == .resident && t.draining then giveBack m team (chooseMethod m team true) else m) s

/-! ### Saving (R207) -/

/-- Has every engine operation of the team completed? -/
def saveReady (m : Mach) (key : Nat) : Bool :=
  (m.groupsOf key).all fun g => g.flights.isEmpty && !g.waitRemote

/-- A group at the precise position where it is saved: an open chain rewound, arrivals and parks withdrawn, its ids
stale (R89, R92, spec/13 R226, R234, spec/17 R295). -/
def savedGroup (g : Group) : Group :=
  { g with
    lpos := g.laneTrapPos, chain := none, blocks := [], arrived := none, park := none, yielded := false, starveScalar := 0, starveLane := 0
    spilledRegs := [], lastLane := 0, lastRead := []
    staleIds := (List.range 16).foldl (fun t i => if g.roles.getD i .idle = .idle then t else t.set i true false) g.staleIds }

/-- The part of a store inside a set of addresses. -/
def Mem.only (m : Mem) (p : Nat → Bool) : Mem :=
  { bytes := m.bytes.filter fun e => p e.1, tags := m.tags.filter fun e => p (16 * e.1), psn := m.psn.filter fun e => p (32 * e.1) }

/-- What a store outside a set, and another inside it, make together. -/
def Mem.merge (m n : Mem) (p : Nat → Bool) : Mem :=
  let a := m.only fun x => !p x
  { bytes := n.bytes.foldl (fun t e => Tab.set t e.1 e.2 0) a.bytes
    tags := n.tags.foldl (fun t e => t.set e.1 e.2 false) a.tags, psn := n.psn.foldl (fun t e => t.set e.1 e.2 false) a.psn }

/-- The units or slots that a team has claimed. -/
def claimed (t : Tab (Option Nat)) (key : Nat) : List Nat := (t.filter fun e => e.2 == some key).map fun e => e.1

/-- One team is saved: its claims with their contents and error marks (spec/14 R257), its scratchpad, whose single-bit errors the
read corrects (R214) and whose uncorrectable words mark their sectors (R207). -/
def saveOne (m : Mach) (key : Nat) : Mach :=
  let m := fallRoutes m key
  let m := { m with d := correctScratch m.d key 0 (m.d.team key).scratchSize }
  let t := m.d.team key
  let x := m.d.cluster (clusterKey t.die t.core)
  let us := claimed x.unitOwner key
  let ss := claimed x.slotOwner key
  let met := t.scratchBad.foldl (fun (b : Tab Bool) e => b.set (e.1 / 4) true false) ([] : Tab Bool)
  let m := { m with d := (m.groupsOf key).foldl unwatch m.d }.onGroups (fun g => g.team = key) savedGroup
  { m with d := dropClaims (m.d.setTeam key { t with
      status := .saved, slots := [], elapsed := t.runTime m.d.time, preempted := true, preempt := false, draining := false
      freed := [], scratchBad := [], scratchSoft := [], scratchOver := [], scratchMet := met, savedUnits := us, savedSlots := ss
      savedObuf := x.obuf.only fun a => us.contains (a / 1024), savedAcc := x.acc.only fun a => ss.contains (a / 4096)
      savedAccBad := x.accBad.filter fun e => ss.contains (e.1 / 1024) }) (· = key) }

/-- One resident team is saved; a save that reaches a sector which an earlier save marked, and nothing has met since, loses the team
instead (R215). -/
def saveTeam (m : Mach) (key : Nat) : Mach :=
  if (m.d.team key).status != .resident then m
  else if (m.d.team key).scratchMet.isEmpty then saveOne m key else loseTeam m key none

/-- TEAM_SAVE (R207): a team whose slots were asked for, once its engine operations have completed. -/
def teamSave (key : Nat) (m : Mach) : Mach :=
  let ks := together m.d key
  if (m.d.team key).status == .resident && (m.d.team key).preempt && ks.all (saveReady m) then
    ks.foldl saveTeam m
  else m

/-- TEAM_SAVE (R207). -/
def execTeamSave (team : Nat) (s : State) : Host.Outcome State Fault Refusal := act (fun _ m => teamSave team m) s

/-- A saved team comes back at a place: its claims need the same units and slots free (spec/14 R257). The core's time rises
to what the team may have seen (notes/assumptions/26). -/
def restoreOne (m : Mach) (key die core : Nat) : Option Mach :=
  let t := m.d.team key
  let p := m.d.parts.getD (m.d.ctx t.ctx).part {}
  let ck := clusterKey die core
  let x := m.d.cluster ck
  let free := (t.savedUnits.all fun u => (x.unitOwner.getD u none).isNone) && t.savedSlots.all fun u => (x.slotOwner.getD u none).isNone
  if t.status != .saved || !fits m.d p t.kernel t.launch die core || !free then none
  else
    let slots := takeSlots m.d t.kernel die core
    let own (o : Tab (Option Nat)) (ks : List Nat) : Tab (Option Nat) := ks.foldl (fun (o : Tab (Option Nat)) k => o.set k (some key) none) o
    let x := { x with
      unitOwner := own x.unitOwner t.savedUnits, slotOwner := own x.slotOwner t.savedSlots
      obuf := x.obuf.merge t.savedObuf fun a => t.savedUnits.contains (a / 1024)
      acc := x.acc.merge t.savedAcc fun a => t.savedSlots.contains (a / 4096)
      accBad := t.savedAccBad.foldl (fun (b : Tab Bool) e => b.set e.1 true false) (x.accBad.filter fun e => !t.savedSlots.contains (e.1 / 1024)) }
    let seen := max (m.d.die die).rmax (if t.die = die then (m.d.core (coreKey t.die t.core)).pts else 0)
    let d := (teamCores t.kernel.team core).foldl (fun d c => raisePts d (coreKey die c) seen) m.d
    let d := (d.setCluster ck x).setTeam key { t with
      status := .resident, die := die, core := core, slots := slots, since := d.time, savedUnits := [], savedSlots := []
      freed := if t.tails.isEmpty then (slots.zipIdx.filter fun s => (m.groupsOf key).all fun g => g.index ≠ s.2).map fun s => s.1 else []
      savedObuf := {}, savedAcc := {}, savedAccBad := [] }
    let d := (teamCores t.kernel.team core).foldl (fun d c => trimL1 d die c) d
    let m : Mach := { m with d := d }
    some (m.onGroups (fun g => g.team = key) fun g =>
      let s := slots.getD g.index (core, 0)
      { g with die := die, core := s.1, slot := s.2, age := d.time })

/-- TEAM_RESTORE (R207): with the teams that were saved with it, each where it fits beside what is reserved for `coop` launches
(spec/18 R311). -/
def teamRestore (key die core : Nat) (m : Mach) : Mach :=
  let rest := (together m.d key).filter fun k => k ≠ key && (m.d.team k).status == .saved
  let pair := (m.d.team key).partner
  let all := rest.foldl (fun (r : Option Mach) k => r.bind fun m =>
    let t := m.d.team k
    let away := if pair = some k then some (clusterKey die core) else none
    (findPlace m.d (m.d.parts.getD (m.d.ctx t.ctx).part {}) t.kernel t.launch away fun die core => !coopClaims m.d t.launch die core).bind
      fun x => restoreOne m k x.1 x.2) (restoreOne m key die core)
  all.getD m

/-- TEAM_RELAUNCH (R209, R215): as first launched. -/
def teamRelaunch (key die core : Nat) (m : Mach) : Mach :=
  let t := m.d.team key
  if t.status != .relaunch || t.shadow then m
  else match admitTeam m.d key die core with
  | some d => { m with d := d }
  | none => m

end Sys2Proof.Machine
end

