-- ==== Sys2Proof/Machine/Package.lean ====
section
/-! DEFINITION. The postmaster core: its commands, event records, access log, bring-up and power (spec/21 R330-R347; spec/18
R301). -/

namespace Sys2Proof.Machine

/-! ### Commands (R342) -/

/-- What a command comes to: STATUS 0, or a code. -/
inductive PmRes where
  | ok (m : Mach) | fail (status : Nat)

/-- STATUS codes (R342). -/
def pmBADARG : Nat := 1
def pmDENIED : Nat := 2
def pmNOSPACE : Nat := 3
def pmAUTHFAIL : Nat := 4

/-- STATUS is written and BUSY clears. -/
def pmDone (d : Dev) (status : Nat) : Dev :=
  { d with pkg := { d.pkg with pmBusy := false, pmStatus := BitVec.ofNat 8 status } }

/-- The command block: memory at PMARG, or what the host sends where PMARG names its range (notes/assumptions/31). -/
def pmBlock (d : Dev) (blk : List Byte) (n : Nat) : List Byte :=
  let a := d.pkg.pmArg.toNat
  if (homeDie a).isSome then d.mem.read a n else (blk ++ List.replicate n 0).take n

/-- The postmaster reads the command block at its homes (spec/16 R386). -/
def readCommand (d : Dev) : Dev := if (homeDie d.pkg.pmArg.toNat).isSome then homesRead d d.pkg.pmArg.toNat 512 else d

/-- Is a postmark that the ring would overwrite still unread (R344)? -/
def logPending (p : Pkg) : Bool := (p.log.take (p.log.length + 1 - Config.logRing)).any fun x => !x.read

/-- A command runs when its code was written; `marks` says that it writes a postmark. -/
def command (op : Nat) (marks : Bool) (f : CtlRegs → Mach → PmRes) (s : State) : Host.Outcome State Fault Refusal :=
  act (fun R m =>
    if !m.d.pkg.pmBusy || m.d.pkg.pmOp.toNat ≠ op || m.d.pkg.importing.isSome then m
    else if marks && logPending m.d.pkg then { m with d := pmDone m.d pmNOSPACE }
    else match f R { m with d := readCommand m.d } with
    | .ok m => { m with d := pmDone m.d 0 }
    | .fail c => { m with d := pmDone (readCommand m.d) c }) s

/-! ### CTX_CREATE (R342, R301) -/

/-- Does a context record hold values that it may: AGE at least 1, an ENDACT that has a meaning? Its reserved fields are ignored
(spec/00 R6). -/
def recordOk (b : List Byte) : Bool :=
  let po := natAt b 8
  fieldAt po 32 32 != 0 && fieldAt po 4 2 != 3

/-- Does some vault entry of the firewall share a byte with a capability? -/
def overVault (p : Pkg) (c : Cap) : Bool :=
  p.fw.any fun e => (fwEntry e.2).live && (fwEntry e.2).vlt
    && c.meets ((fwEntry e.2).base, (fwEntry e.2).base + (fwEntry e.2).len)

/-- A root capability as the postmaster gives it: the context's colour, SYS for the host driver alone, MXO without LD or
ST over vault bytes (R144, R330, R339). -/
def grantRoot (d : Dev) (ctx colour : Nat) (c : Cap) : Cap :=
  let p := if c.has pSYS && ctx ≠ Config.driverContext then c.perms &&& ~~~pSYS else c.perms
  let p := if c.kind != kSCRATCH && overVault d.pkg c then (p &&& ~~~(pLD ||| pST)) ||| pMXO else p
  { (c.withField 102 12 p.toNat).withField 118 10 colour with tag := true }

/-- The root capabilities that a block asks for: bytes [256, 512); a zero granule asks for none (notes/assumptions/31). -/
def rootRequests (b : List Byte) : List (Nat × Cap) :=
  (((List.range 16).map fun i => (i, Cap.ofBytes ((b.drop (256 + 16 * i)).take 16) false)).filter fun e => e.2.bits != 0)

/-- A root that can be given. -/
def rootOk (c : Cap) : Bool :=
  !c.malformed && c.kind != kENVELOPE && (c.kind != kQUEUE || (c.base % 64 == 0 && c.top - c.base == 64))

/-- A queue record is registered with its context, whose number QCTL takes (spec/18 R297). -/
def registerQueue (d : Dev) (ctx : Nat) (c : Cap) : Dev :=
  if c.kind ≠ kQUEUE then d
  else
    let q := c.base.toNat / 64
    let die := (partDies (d.parts.getD (d.ctx ctx).part {})).headD 0
    let d := d.setQueue q { ctx := ctx, die := die }
    let w := recordNum d q 36 2
    recordStore d die q 36 (toLe 2 (w % 16 + 16 * (ctx % 4096)))

/-- A context as its record gives it (R301). -/
def ctxOf (b : List Byte) (fault : Cap) : Ctx :=
  let id := natAt b 0
  let po := natAt b 8
  { live := true, colour := fieldAt id 0 10, part := fieldAt id 14 3, pri := fieldAt po 0 3, endact0 := fieldAt po 4 2
    ageUs := fieldAt po 32 32, drain := natAt b 16, fault := fault, savesz := natAt b 96
    nev := (List.range 7).foldl (fun (t : Tab Word) i => t.set i (BitVec.ofNat 64 (natAt b (24 + 8 * i) / 2 ^ 32 * 2 ^ 32)) 0) []
    endact := BitVec.ofNat 2 (fieldAt po 4 2) }

/-- CTX_CREATE (R342). -/
def ctxCreate (blk : List Byte) (m : Mach) : PmRes :=
  let b := pmBlock m.d blk 512
  let ctx := fieldAt (natAt b 0) 24 12
  let part := fieldAt (natAt b 0) 14 3
  let colour := fieldAt (natAt b 0) 0 10
  let fault := Cap.ofBytes ((b.drop 80).take 16) false
  let roots := rootRequests b
  if !recordOk b || (m.d.parts.getD part {}).quarters == 0 || fault.malformed || fault.kind ≠ kDATA || !fault.has pST
      || fault.top - fault.base ≠ 64 || !(roots.all fun e => rootOk e.2) then .fail pmBADARG
  else if (m.d.ctx ctx).live then .fail pmDENIED
  else
    let d := m.d.setCtx ctx (ctxOf b { fault.withField 118 10 colour with tag := true })
    let d := roots.foldl (fun (d : Dev) e => registerQueue d ctx e.2) d
    let a := d.pkg.pmArg.toNat + 256
    let d := roots.foldl (fun (d : Dev) e =>
      let c := grantRoot d ctx colour e.2
      if (homeDie a).isNone || a % 16 ≠ 0 then d
      else { homeStore d (a + 16 * e.1) 16 true with mem := (homeStore d (a + 16 * e.1) 16 true).mem.storeCap (a + 16 * e.1) c.bytes true false }) d
    .ok { m with d := postmark d 4 part ctx 0 }

/-- CTX_CREATE (R342). -/
def execCtxCreate (blk : List Byte) (s : State) : Host.Outcome State Fault Refusal :=
  command 1 true (fun _ m => ctxCreate blk m) s

/-! ### CTX_REMOVE (R342, R316) -/

/-- CTX_REMOVE (R342): REASON 4. -/
def ctxRemove (blk : List Byte) (m : Mach) : PmRes :=
  let b := pmBlock m.d blk 512
  let ctx := natAt b 0
  if 4096 ≤ ctx || (b.drop 8).any (· != 0) || !(m.d.ctx ctx).live then .fail pmBADARG
  else
    let part := (m.d.ctx ctx).part
    let m := removeContext m ctx {}
    .ok { m with d := postmark m.d 5 part ctx 4 }

/-- CTX_REMOVE (R342). -/
def execCtxRemove (blk : List Byte) (s : State) : Host.Outcome State Fault Refusal :=
  command 2 true (fun _ m => ctxRemove blk m) s

/-! ### PART_SET (R336) -/

/-- The memory of a quarter: its HBM4 and its carve-out window (R336). -/
def zeroQuarter (d : Dev) (k : Nat) : Dev :=
  let lo := Config.hbmPerDie * (k / 4) + 36 * Config.gib * (k % 4)
  let cv := Config.carveBase + k * Config.carveWindow
  zeroRange (zeroRange d lo (lo + 36 * Config.gib)) cv (cv + Config.carveWindow)

/-- The memory of some quarters is zeroed (R281). -/
def zeroQuarters (d : Dev) (mask : BitVec 16) : Dev :=
  ((List.range 16).filter fun k => bit mask k).foldl zeroQuarter d

/-- Does a live context belong to a partition that holds one of the quarters? -/
def quartersInUse (d : Dev) (mask : BitVec 16) : Bool :=
  d.ctxs.any fun e => e.2.live && ((d.parts.getD e.2.part {}).quarters &&& mask) != 0

/-- A partition as PART_SET leaves it: its sweep engine counts from 0 and its key is fresh where it is created or set anew
(R336, spec/16 R278). The virtual function with the next number is bound to it (spec/22 R349; notes/assumptions/32). -/
def setPartition (d : Dev) (n : Nat) (mask : BitVec 16) (prot : Bool) : Dev :=
  let old := d.parts.getD n {}
  let anew := old.quarters == 0 || old.prot != prot
  let p : Part :=
    if mask == 0 then {}
    else if anew then { quarters := mask, prot := prot, key := d.nextId }
    else { old with quarters := mask, nextSet := [], running := none }
  let d := zeroQuarters d (if anew then old.quarters ||| mask else old.quarters ^^^ mask)
  let d := { d.setPart n p with nextId := d.nextId + 1 }
  { d with pkg := { d.pkg with vfs := if mask == 0 then d.pkg.vfs.erase (n + 1) else d.pkg.vfs.insert (n + 1) n } }

/-- The quarters that [lo, lo + len) touches. -/
def quartersOf (lo len : Nat) : BitVec 16 :=
  (List.range 16).foldl (fun (m : BitVec 16) k =>
    let a := Config.hbmPerDie * (k / 4) + 36 * Config.gib * (k % 4)
    let c := Config.carveBase + k * Config.carveWindow
    if (lo < a + 36 * Config.gib && a < lo + len) || (lo < c + Config.carveWindow && c < lo + len) then setBit m k true else m) 0

/-- Would a change of a partition leave one of its live vault entries outside a protected partition (R339)? -/
def leavesVault (d : Dev) (n : Nat) (mask : BitVec 16) (prot : Bool) : Bool :=
  d.pkg.fw.any fun e =>
    let x := fwEntry e.2
    x.live && x.vlt && x.part == n && (!prot || (quartersOf x.base x.len &&& ~~~mask) != 0)

/-- PART_SET (R336, R342): [0, 8) the number, [8, 16) the quarter mask, [16, 24) 1 for protected; that nonzero bytes after them give
BADARG is the model's choice too (notes/assumptions/31). In reduced service die 0 stays the one ordinary partition of its four
quarters (R345). -/
def partSet (blk : List Byte) (m : Mach) : PmRes :=
  let b := pmBlock m.d blk 512
  let n := natAt b 0
  let mask := BitVec.ofNat 16 (natAt b 8)
  let old := m.d.parts.getD n {}
  if 8 ≤ n || 65536 ≤ natAt b 8 || 2 ≤ natAt b 16 || (b.drop 24).any (· != 0) then .fail pmBADARG
  else if m.d.pkg.stage == 2 && !(n == 0 && natAt b 8 == 15 && natAt b 16 == 0) then .fail pmDENIED
  else if leavesVault m.d n mask (natAt b 16 == 1) then .fail pmDENIED
  else if quartersInUse m.d (old.quarters ||| mask) || m.d.parts.any (fun e => e.1 ≠ n && (e.2.quarters &&& mask) != 0) then
    .fail pmDENIED
  else .ok { m with d := postmark (setPartition m.d n mask (natAt b 16 == 1)) 6 n 0 mask.toNat }

/-- PART_SET (R336). -/
def execPartSet (blk : List Byte) (s : State) : Host.Outcome State Fault Refusal :=
  command 3 true (fun _ m => partSet blk m) s

/-! ### FW_SET (R337, R338) -/

/-- Writable bits of the words of an entry (R337). -/
def fwWord0 (w : Word) : Word := w &&& ~~~(0x00003FFF00000000 : Word)
def fwWord1 (w : Word) : Word := w &&& (0x0003FFFFFFE00000 : Word)

/-- The owner of a byte, and whether a vault entry holds it (R338). -/
def ownerAt (p : Pkg) (a : Nat) : Option (Nat × Nat) × Bool :=
  match p.fwFind a with
  | some e => (some (e.part, e.colour), e.vlt)
  | none => (none, false)

/-- Does a change of the table zero the byte? -/
def changesOwner (p q : Pkg) (a : Nat) : Bool :=
  (ownerAt p a).1 != (ownerAt q a).1 || ((ownerAt p a).2 && !(ownerAt q a).2)

/-- The bounds of the live entries of a table. -/
def fwBounds (p : Pkg) : List Nat :=
  p.fw.flatMap fun e => if (fwEntry e.2).live then [(fwEntry e.2).base, (fwEntry e.2).base + (fwEntry e.2).len] else []

/-- Every byte whose owner changes, or that a vault entry no longer holds, is zeroed (R338, R281). What holds of a byte holds
up to the next bound. -/
def zeroChanged (d : Dev) (q : Pkg) : Dev :=
  let bs := (fwBounds d.pkg ++ fwBounds q).eraseDups
  bs.foldl (fun (e : Dev) lo =>
    let hi := (bs.filter (lo < ·)).foldl min (2 ^ 50)
    if changesOwner d.pkg q lo then zeroRange e lo hi else e) d

/-- Does an entry meet the destination of an import in progress? -/
def meetsImport (p : Pkg) (e : FwEntry) : Bool :=
  match p.importing with
  | some (_, dst, len, _) => e.live && decide (e.base < dst + len) && decide (dst < e.base + e.len)
  | none => false

/-- Does a range lie in HBM4 or in one carve-out window? -/
def inMemory (lo len : Nat) : Bool :=
  decide (lo + len ≤ Config.hbmTop)
  || (decide (Config.carveBase ≤ lo) && decide (lo + len ≤ Config.carveBase + 16 * Config.carveWindow)
    && decide ((lo - Config.carveBase) / Config.carveWindow = (lo + len - 1 - Config.carveBase) / Config.carveWindow))

/-- FW_SET (R338, R342). -/
def fwSet (blk : List Byte) (m : Mach) : PmRes :=
  let b := pmBlock m.d blk 512
  let n := natAt b 0
  let w := (fwWord0 (BitVec.ofNat 64 (natAt b 8)), fwWord1 (BitVec.ofNat 64 (natAt b 16)))
  let e := fwEntry w
  if 2048 ≤ n || (b.drop 24).any (· != 0) || (e.live && e.len = 0) || (e.live && e.vlt && !inMemory e.base e.len) then
    .fail pmBADARG
  else if (e.live && e.vlt && (!(m.d.parts.getD e.part {}).prot || (quartersOf e.base e.len &&& ~~~(m.d.parts.getD e.part {}).quarters) != 0)) || meetsImport m.d.pkg e
      || meetsImport m.d.pkg (fwEntry (m.d.pkg.fw.getD n (0, 0))) then .fail pmDENIED
  else
    let q := { m.d.pkg with fw := m.d.pkg.fw.set n w (0, 0) }
    let d := zeroChanged m.d q
    .ok { m with d := postmark { d with pkg := q } 7 e.part 0 n }

/-- Would the table that the command leaves change the owner of a byte that a held access touches, which has passed its checks and
is performed before the zeroing begins (R338)? A scalar access that is held counts whatever it touches (notes/assumptions/50). -/
def fwWaits (blk : List Byte) (m : Mach) : Bool :=
  let b := pmBlock m.d blk 512
  let w := (fwWord0 (BitVec.ofNat 64 (natAt b 8)), fwWord1 (BitVec.ofNat 64 (natAt b 16)))
  let q := { m.d.pkg with fw := m.d.pkg.fw.set (natAt b 0) w (0, 0) }
  let changes := ((fwBounds m.d.pkg ++ fwBounds q).eraseDups).any (changesOwner m.d.pkg q)
  let meets (i : HoldItem) : Bool := match i with
    | .store a bs _ _ _ _ => (List.range bs.length).any fun o => changesOwner m.d.pkg q (localAddr m.d a + o)
    | _ => false
  changes && (m.allGroups.any (fun g => !g.heldWords.isEmpty || g.dualSt.hold.any meets) || m.d.teams.any fun e => e.2.endHold.any meets)

/-- FW_SET while an import is in progress (R347): DENIED on a range that meets its destination; any other is ignored. -/
def fwDenied (blk : List Byte) (d : Dev) : Dev :=
  let b := pmBlock d blk 512
  let e := fwEntry (fwWord0 (BitVec.ofNat 64 (natAt b 8)), fwWord1 (BitVec.ofNat 64 (natAt b 16)))
  let meet := meetsImport d.pkg e || meetsImport d.pkg (fwEntry (d.pkg.fw.getD (natAt b 0) (0, 0)))
  { d with pkg := { d.pkg with fwAsked := false, pmStatus := if meet then BitVec.ofNat 8 pmDENIED else d.pkg.pmStatus } }

/-- FW_SET (R338): it waits for the held accesses that its change meets. -/
def execFwSet (blk : List Byte) (s : State) : Host.Outcome State Fault Refusal :=
  if s.dev.pkg.importing.isSome && s.dev.pkg.fwAsked then act (fun _ m => { m with d := fwDenied blk (readCommand m.d) }) s
  else if s.dev.pkg.pmBusy && s.dev.pkg.pmOp.toNat = 4 && s.dev.pkg.importing.isNone && !logPending s.dev.pkg && fwWaits blk s.mach then .next { s with stalled := true }
  else command 4 true (fun _ m => fwSet blk m) s

/-! ### IMPORT (R340) -/

/-- The blob at an address: its first 512 bytes and its ciphertext, from memory, or after the block where it lies in the
host's range. -/
def blobAt (d : Dev) (blk : List Byte) (a n : Nat) : List Byte :=
  if (homeDie a).isSome then d.mem.read a n else ((blk.drop 512) ++ List.replicate n 0).take n

/-- The import engine reads bytes of the blob at their homes (spec/16 R386). -/
def readBlob (d : Dev) (a n : Nat) : Dev := if (homeDie a).isSome then homesRead d a n else d

/-- Bytes laid down by the import engine at their homes (spec/16 R386). -/
def importWrite (d : Dev) (dst len : Nat) (bs : List Byte) : Dev :=
  let d := (lineRuns dst (len / 128 + 2) len).foldl (fun d r => homeStore d r.1 r.2 true) d
  { d with mem := d.mem.store dst ((bs ++ List.replicate len 0).take len) false }

/-- IMPORT (R340): steps 1 to 3, or the STATUS that it ends with at once. The plaintext, or zeros where a check or the tag fails, stands in the destination, which
every access waits for until IMPORT_COMPLETE. Nonzero bytes after the fields give BADARG (notes/assumptions/31). -/
def importStart (blk : List Byte) (m : Mach) : Mach × Option Nat :=
  let b := pmBlock m.d blk 512
  let blob := natAt b 0
  let dst := natAt b 8
  let m := { m with d := readBlob m.d blob 512 }
  let head := blobAt m.d blk blob 512
  let len := natAt head 432
  let e := m.d.pkg.fwFind dst
  let held := match e with
    | some e => e.vlt && decide (dst + len ≤ e.base + e.len) && inMemory dst len
    | none => false
  if len % 128 ≠ 0 || len < 128 || 2 ^ 40 < len || !held || (b.drop 16).any (· != 0) then (m, some pmBADARG)
  else
    let m := { m with d := readBlob m.d blob (512 + len) }
    let text := Config.recoverBlob head ((blobAt m.d blk blob (512 + len)).drop 512)
    let d := importWrite m.d dst len (text.getD [])
    ({ m with d := { d with pkg := { d.pkg with importing := some (blob, dst, len, text.isSome) } } }, none)

/-- IMPORT (R340). -/
def execImportBlob (blk : List Byte) (s : State) : Host.Outcome State Fault Refusal :=
  act (fun _ m =>
    if !m.d.pkg.pmBusy || m.d.pkg.pmOp.toNat ≠ 5 || m.d.pkg.importing.isSome then m
    else if logPending m.d.pkg then { m with d := pmDone m.d pmNOSPACE }
    else match importStart blk { m with d := readCommand m.d } with
    | (m, none) => m
    | (m, some c) => { m with d := pmDone m.d c }) s

/-- IMPORT_COMPLETE (R340): the waiting accesses go on, a postmark and STATUS are written. -/
def importComplete (d : Dev) : Dev :=
  match d.pkg.importing with
  | none => d
  | some (_, dst, _, good) =>
    let part := ((d.pkg.fwFind dst).map fun e => e.part).getD 0
    let status := if good then 0 else pmAUTHFAIL
    pmDone { postmark d 1 part 0 status with pkg := { (postmark d 1 part 0 status).pkg with importing := none } } status

/-- IMPORT_COMPLETE (R340). -/
def execImportComplete (s : State) : Host.Outcome State Fault Refusal :=
  act (fun _ m => { m with d := importComplete m.d }) s

/-! ### The log and the report (R342, R344) -/

/-- Is the postmark of an index still in the ring, or kept? -/
def inRing (p : Pkg) (i : Nat) : Bool :=
  match p.log[i]? with
  | some x => !x.read || decide (p.log.length - i ≤ Config.logRing)
  | none => false

/-- The postmarks [first, first + n) are marked as read. -/
def markRead : List Postmark → Nat → Nat → List Postmark
  | [], _, _ => []
  | x :: xs, first, n =>
    { x with read := x.read || (first = 0 && n ≠ 0) } :: markRead xs (first - 1) (if first = 0 then n - 1 else n)

/-- LOG_READ (R344): the first number, a count and the buffer; nonzero bytes after them give BADARG (notes/assumptions/31). -/
def logRead (blk : List Byte) (m : Mach) : PmRes :=
  let b := pmBlock m.d blk 512
  let first := natAt b 0
  let n := natAt b 8
  let buf := natAt b 16
  let p := m.d.pkg
  if (b.drop 24).any (· != 0) || p.log.length < first + n || !((List.range n).all fun i => inRing p (first + i))
      || !((homeDie buf).isSome || leaves m.d buf) then .fail pmBADARG
  else
    let bs := ((p.log.drop first).take n).flatMap fun x => x.body ++ (x.chain ++ List.replicate 32 0).take 32
    let d := partyStore m.d buf bs false true
    .ok { m with d := { d with pkg := { d.pkg with log := markRead d.pkg.log first n } } }

/-- LOG_READ (R344). -/
def execLogRead (blk : List Byte) (s : State) : Host.Outcome State Fault Refusal :=
  command 6 false (fun _ m => logRead blk m) s

/-- Bytes go to the command block. -/
def blockStore (d : Dev) (o : Nat) (bs : List Byte) : Dev :=
  let a := d.pkg.pmArg.toNat
  if (homeDie a).isSome || leaves d a then partyStore d (a + o) bs false true else d

/-- LOG_SIGN (R344): the last postmark's chain is signed, the signature is kept with it and written to bytes [256, 640). One
that is already signed keeps its signature. -/
def logSign (m : Mach) : Mach :=
  let p := m.d.pkg
  let last := p.log.getLast?
  let chain := (last.map fun x => x.chain).getD (List.replicate 32 0)
  let sig := ((last.bind fun x => x.sig).getD (Config.rsaSign (Config.sha256 (chain ++ toLe 8 (p.logSeq - 1)))) ++ List.replicate 384 0).take 384
  let log := match last with
    | some x => p.log.dropLast ++ [{ x with sig := some sig }]
    | none => []
  { m with d := blockStore { m.d with pkg := { p with log := log } } 256 sig }

/-- LOG_SIGN (R344). -/
def execLogSign (_blk : List Byte) (s : State) : Host.Outcome State Fault Refusal :=
  command 7 false (fun _ m => .ok (logSign m)) s

/-- ATTEST (R342): the signed report of a nonce, written over the block. -/
def attest (blk : List Byte) (m : Mach) : Mach :=
  let nonce := pmBlock m.d blk 32
  let r := (Config.attestReport nonce m.d.nextId ++ List.replicate 512 0).take 512
  { m with d := blockStore { m.d with nextId := m.d.nextId + 1 } 0 r }

/-- ATTEST (R342). -/
def execAttest (blk : List Byte) (s : State) : Host.Outcome State Fault Refusal :=
  command 8 false (fun _ m => .ok (attest blk m)) s

/-! ### Event records (R343) -/

/-- An event record's 32 bytes. -/
def Event.bytes (e : Event) : List Byte :=
  toLe 8 e.src.toNat ++ toLe 8 e.ctx.toNat ++ toLe 8 e.lo.toNat ++ toLe 8 e.hi.toNat

/-- EVENT_DELIVERY (R343): the oldest record enters the ring while it has room. A base outside the host's range holds them. -/
def eventDelivery (R : CtlRegs) (d : Dev) : Dev :=
  let size := 2 ^ (R.log2n.toNat + 6)
  match d.pkg.events with
  | [] => d
  | e :: es =>
    let base := d.pkg.evBase.toNat
    let isHost := match spaceOf base with
      | .host _ => true
      | _ => false
    if !isHost || size ≤ (d.pkg.evWr - d.pkg.evRd).toNat then d
    else
      let d := partyStore d (base + 32 * (d.pkg.evWr.toNat % size)) e.bytes false false
      { d with pkg := { d.pkg with events := es, evWr := d.pkg.evWr + 1 } }

/-- EVENT_DELIVERY (R343). -/
def execEventDelivery (s : State) : Host.Outcome State Fault Refusal :=
  act (fun R m => { m with d := eventDelivery R m.d }) s

/-! ### Egress limiters (R341) -/

/-- A port's request of b vault bytes with XPT = 1: admitted whole, or counted as refused. -/
def egress (d : Dev) (n b : Nat) : Dev × Bool :=
  let p := d.pkg
  let c := (p.count.getD n 0).toNat
  if c + b ≤ (p.limit.getD n 0).toNat then
    ({ d with pkg := { p with count := p.count.set n (BitVec.ofNat 44 (c + b)) 0 } }, true)
  else ({ d with pkg := { p with refused := p.refused.set n (p.refused.getD n 0 + b) 0 } }, false)

/-- EGRESS_WINDOW_END (R341): COUNT clears; a window with a refusal writes one postmark of the port and the bytes. -/
def egressWindowEnd (n : Nat) (d : Dev) : Dev :=
  let r := d.pkg.refused.getD n 0
  let d := if r = 0 then d else postmark d 2 0 0 (n + 256 * r)
  { d with pkg := { d.pkg with count := d.pkg.count.erase n, refused := d.pkg.refused.erase n } }

/-- EGRESS_WINDOW_END (R341). -/
def execEgressWindowEnd (n : Nat) (s : State) : Host.Outcome State Fault Refusal :=
  act (fun _ m => { m with d := egressWindowEnd n m.d }) s

/-! ### Power and bring-up (R330, R345, R346) -/

/-- PWRCAP_WRITE (R330): CAP in range; THR clears. -/
def execPwrcapWrite (v : Word) (s : State) : Host.Outcome State Fault Refusal :=
  .next { s with dev := { s.dev with pkg := { s.dev.pkg with thr := 0 } }, regs := { s.regs with cap := pwrcapReg s.regs.cap v } }

/-- THROTTLE (R346): one step of 50 MHz; timing only. -/
def execThrottle (die : Nat) (up : Bool) (s : State) : Host.Outcome State Fault Refusal :=
  act (fun _ m =>
    let x := m.d.die die
    if 4 ≤ die then m
    else { m with d := m.d.setDie die { x with throttle := if up then x.throttle - 1 else x.throttle + 1 } }) s

/-- A cycle of idle time: every die's time advances; THR counts the µs in which a die stands below full clock (R330). -/
def tick (d : Dev) : Dev :=
  let t := d.time + 1
  let slow := (List.range 4).any fun k => (d.die k).throttle ≠ 0
  let d := (List.range 4).foldl (fun (d : Dev) k => d.setDie k { d.die k with time := (d.die k).time + 1 }) d
  if slow && t % 1000 = 0 && d.pkg.thr ≠ BitVec.allOnes 32 then { d with pkg := { d.pkg with thr := d.pkg.thr + 1 } } else d

/-- Die 0 as one ordinary partition of its four quarters (R345). -/
def reducedService (d : Dev) : Dev := setPartition d 0 15 false

/-- The resident teams of die 0. -/
def dieTeams (d : Dev) (die : Nat) : List Nat :=
  (d.teams.filter fun e => e.2.status == .resident && e.2.die == die).map fun e => e.1

/-- Stage 2 to stage 3 (R345): die 0's resident teams are saved under R207 and come back; it waits for their engine
operations. -/
def fullService (m : Mach) : Option Mach :=
  let ks := dieTeams m.d 0
  if !(ks.all (saveReady m)) then none
  else
    let at_ := ks.map fun k => (k, (m.d.team k).core)
    let m := ks.foldl saveTeam m
    some (at_.foldl (fun m e => (restoreOne m e.1 0 e.2).getD m) m)

/-- A change of BOOTST (R345). -/
def bootStage (next : BootNext) (m : Mach) : Option Mach :=
  let stage (d : Dev) (k : BitVec 3) (f : BitVec 4) : Dev := { d with pkg := { d.pkg with stage := k, fail := f } }
  match next with
  | .firmware => some (if m.d.pkg.stage == 0 && Config.bootVerifies then { m with d := stage m.d 1 0 } else m)
  | .reduced => some (if m.d.pkg.stage == 1 then { m with d := stage (reducedService m.d) 2 0 } else m)
  | .full => if m.d.pkg.stage == 2 then (fullService m).map fun m => { m with d := stage m.d 3 0 } else some m
  | .failed code => some { m with d := stage m.d 7 code }

/-- BOOT_STAGE (R345). -/
def execBootStage (next : BootNext) (s : State) : Host.Outcome State Fault Refusal :=
  actOrWait (fun _ m => bootStage next m) s

end Sys2Proof.Machine
end

