-- ==== Sys2Proof/Machine/Matrix.lean ====
section
/-! DEFINITION. The matrix engine: operand loads, reservations, passes, the slot operations, the request table and its
arbiter (spec/14 R236-R258; spec/03 R59, R60, R62). -/

namespace Sys2Proof.Machine

/-! ### Records and layout (R239, R240) -/

/-- The format code F. -/
def mxCode : MxFmt → Nat
  | .d8 => 0 | .f16 => 1 | .b16 => 2 | .p8 => 3 | .p16 => 4
/-- The type code of a format (R20). -/
def mxTy : MxFmt → Nat
  | .d8 => 11 | .f16 => 9 | .b16 => 10 | .p8 => 12 | .p16 => 13
/-- Bytes of an element. -/
def mxBytes : MxFmt → Nat
  | .d8 | .p8 => 1
  | _ => 2
/-- BB, the B bytes of a step. -/
def mxBB (f : MxFmt) : Nat := 1536 * mxBytes f
/-- The block length. -/
def mxBlock : MxFmt → Nat
  | .d8 => 24
  | .f16 | .b16 => 16
  | _ => 48
/-- Does the format carry scales? -/
def mxScaled : MxFmt → Bool
  | .d8 => true
  | _ => false
/-- Is it a phasor format? -/
def mxPhasor : MxFmt → Bool
  | .p8 | .p16 => true
  | _ => false

/-- T, the tile count. -/
def recTiles (r : MxRec) : Nat := if r.two then 2 else 1
/-- P, the number of steps. -/
def recSteps (r : MxRec) : Nat := r.pm1 + 1
/-- SBO. -/
def recSbo (r : MxRec) : Nat := r.off + (recSteps r * mxBB r.fmt + 1023) / 1024 * 1024
/-- SAO. -/
def recSao (r : MxRec) : Nat := recSbo r + 128 * recSteps r
/-- The byte past the region. -/
def recEnd (r : MxRec) : Nat :=
  if mxScaled r.fmt then recSao r + 128 * recSteps r * recTiles r else r.off + recSteps r * mxBB r.fmt
/-- How many slots the record holds. -/
def recHeld (r : MxRec) : Nat := (if mxPhasor r.fmt then 4 else 1) * recTiles r
/-- The slots of a record. -/
def recSlots (r : MxRec) : List Nat := runFrom r.slot (recHeld r)

/-- What `mx.rinfo` reads (R240). -/
def recInfo (r : MxRec) : Word :=
  BitVec.ofNat 64 (2 ^ 63 + 2 ^ 60 * mxCode r.fmt + 2 ^ 54 * mxBlock r.fmt + 2 ^ 49 * r.slot + 2 ^ 41 * r.pm1
    + (if r.two then 2 ^ 40 else 0) + 2 ^ 26 * (r.off / 128)
    + if mxScaled r.fmt then 2 ^ 13 * (recSbo r / 128) + recSao r / 128 else 0)

/-- The ranges of the operand buffer that a pass of step p reads: first byte and length. -/
def passReads (r : MxRec) (p : Nat) : List (Nat × Nat) :=
  (r.off + p * mxBB r.fmt, mxBB r.fmt) ::
    if mxScaled r.fmt then [(recSbo r + 128 * p, 128), (recSao r + 128 * recTiles r * p, 128 * recTiles r)] else []

/-- Do two byte ranges meet? -/
def rangesMeet (a b : Nat × Nat) : Bool := decide (a.1 < b.1 + b.2) && decide (b.1 < a.1 + a.2)

/-- The records in use in a cluster: those of the teams resident on its cores; a saved team's lie in its save area. -/
def recordsUsed (d : Dev) (k : Nat) : Nat :=
  (d.teams.filter fun e => e.2.status == .resident && clusterKey e.2.die e.2.core == k).foldl (fun n e => n + e.2.recs.length) 0

/-- The cluster of the group on turn. -/
def Mach.clKey (m : Mach) : Nat := clusterKey m.g.die m.g.core

/-! ### Scalar words -/

/-- The permission of an operand load: LD, or MXO in its place (R238). -/
def needOperand : Need := { kinds := [0, 2], perms := pLD, orMxo := true, write := false, aligned := false }

/-- `mx.ldb` (R238). -/
def mxLoad (o : SReg) (a : CReg) (l : SReg) (m : Mach) : Option Mach :=
  let g := m.g
  if !g.lanesIdle || !g.canRaise .mx then none
  else
    let c := g.rc a.toNat
    let off := (g.rs o.toNat).toNat
    let n := (g.rs l.toNat).toNat
    let x := m.d.cluster m.clKey
    match capCheck8 c (engineParty m.d g.colour g.part g.team true) needOperand (c.colour = g.colour) c.cursor n with
    | some code => scalarTrap m code
    | none =>
      if off % 16 ≠ 0 || n % 16 ≠ 0 || Config.operandBytes < off + n then scalarTrap m cMXRANGE
      else if !claimable x.unitOwner g.team (unitsOf off n) then scalarTrap m cMXOVLP
      else dualGate m [] fun m =>
        let g := m.g
        let id := g.nextOp
        let x := x.claim g.team (unitsOf off n) []
        let op : LoadOp :=
          { id := m.d.nextId, gid := g.gid, flight := id, die := g.die, core := g.core, src := c, off := off, len := n
            colour := g.colour, part := g.part, prc := g.prc, ctx := g.ctx, team := g.team }
        let m := { m with g := (g.raise .mx).advance }
        if n = 0 then some (m.finishOp g.gid .mx id 0)
        else if g.shadow then some (Mach.followPrimary { m with d := m.d.setCluster m.clKey x } .mx)
        else some { m with d := { m.d.setCluster m.clKey { x with loads := x.loads ++ [op] } with nextId := m.d.nextId + 1 } }

/-- `mx.ldb` (R238). -/
def execMxLdb (o : SReg) (a : CReg) (l : SReg) (s : State) : Host.Outcome State Fault Refusal :=
  actOrWait (fun _ m => mxLoad o a l m) s

/-- The record that `mx.res` asks for. -/
def recOf (g : Group) (f : MxFmt) (a b : Word) : MxRec :=
  { fmt := f, slot := b.toNat % 32, pm1 := b.toNat / 256 % 256, two := g.width == 64, off := a.toNat }

/-- The checks of `mx.res`, in order (R239). -/
def recFault (g : Group) (x : Cluster) (t : Team) (r : MxRec) : Option Nat :=
  if g.width = 16 then some cMXWIDTH
  else if r.off % 128 ≠ 0 || Config.operandBytes < recEnd r then some cMXRANGE
  else if r.slot % recHeld r ≠ 0 || 32 < r.slot + recHeld r then some cMXSLOT
  else if !claimable x.unitOwner g.team (unitsOf r.off (recEnd r - r.off)) || !claimable x.slotOwner g.team (recSlots r)
    then some cMXOVLP
  else if 32 ≤ t.recs.length then some cMXFULL
  else none

/-- The lowest free number of a team. -/
def freeRec (t : Team) : Nat := ((List.range 32).find? fun i => (t.recs.find? i).isNone).getD 0

/-- `mx.res` (R239). -/
def mxReserve (d a b : SReg) (f : MxFmt) (m : Mach) : Option Mach :=
  let g := m.g
  if !g.lanesIdle then none
  else
    let r := recOf g f (g.rs a.toNat) (g.rs b.toNat)
    let x := m.d.cluster m.clKey
    let t := m.d.team g.team
    match recFault g x t r with
    | some code => scalarTrap m code
    | none =>
      if 32 ≤ recordsUsed m.d m.clKey then none
      else
        let k := freeRec t
        let d' := m.d.setCluster m.clKey (x.claim g.team (unitsOf r.off (recEnd r - r.off)) (recSlots r))
        some { g := g.result d (BitVec.ofNat 64 k), d := d'.setTeam g.team { t with recs := t.recs.insert k r } }

/-- `mx.res` (R239). -/
def execMxRes (d a b : SReg) (f : MxFmt) (s : State) : Host.Outcome State Fault Refusal :=
  actOrWait (fun _ m => mxReserve d a b f m) s

/-- The record of the team that a number names. -/
def Mach.rec? (m : Mach) (k : Nat) : Option MxRec := (m.d.team m.g.team).recs.find? (k % 32)

/-- `mx.free` (R241). -/
def execMxFree (a : SReg) (s : State) : Host.Outcome State Fault Refusal :=
  actOrWait (fun _ => afterLanes fun m =>
    let t := m.d.team m.g.team
    some { g := m.g.advance
           d := m.d.setTeam m.g.team { t with recs := t.recs.erase ((m.g.rs a.toNat).toNat % 32) } }) s

/-- `mx.rinfo` (R240). -/
def execMxRinfo (d a : SReg) (s : State) : Host.Outcome State Fault Refusal :=
  actOrWait (fun _ => afterLanes fun m =>
    some { m with g := m.g.result d (match m.rec? (m.g.rs a.toNat).toNat with
      | some r => recInfo r
      | none => 0) }) s

/-! ### The request table -/

/-- Is every entry of the table held (R244)? -/
def tableFull (m : Mach) : Bool := decide (32 ≤ (m.d.cluster m.clKey).table.length)

/-- An operation enters the table and raises `mx` (R251); a shadow copy's runs nowhere. `reads` are the operand-buffer
bytes that it reads: it waits for the group's earlier loads of them. -/
def enterTable (m : Mach) (r : MxRec) (k : MxKind) (reads : List (Nat × Nat)) : Mach :=
  let g := m.g
  let id := g.nextOp
  let m := { m with g := g.raise .mx }
  if g.shadow then m.followPrimary .mx
  else
    let x := m.d.cluster m.clKey
    let waits := (x.loads.filter fun l => l.gid == g.gid && reads.any fun q => rangesMeet q (l.off, l.len)).map fun l => l.id
    let e : MxEntry :=
      { id := m.d.nextId, gid := g.gid, flight := id, team := g.team, prio := g.prio, prc := g.prc, ctx := g.ctx
        width := g.width, rc := r, kind := k, running := false, passed := 0, loads := waits }
    { m with d := { m.d.setCluster m.clKey { x with table := x.table ++ [e] } with nextId := m.d.nextId + 1 } }

/-- `mx.azero` (R250). -/
def mxAzero (a : SReg) (m : Mach) : Option Mach :=
  if !m.g.lanesIdle then none
  else match m.rec? (m.g.rs a.toNat).toNat with
  | none => scalarTrap m cMXRES
  | some r =>
    if tableFull m || !m.g.canRaise .mx then none
    else dualGate m [] fun m =>
      let m := enterTable m r .zero []
      some { m with g := m.g.advance }

/-- `mx.azero` (R250). -/
def execMxAzero (a : SReg) (s : State) : Host.Outcome State Fault Refusal := actOrWait (fun _ m => mxAzero a m) s

/-! ### Lane words -/

/-- The lowest running lane; lane 0 where none runs. -/
def lowestLane (run : Word) : Nat := (lanesOf run).headD 0

/-- SB, read untyped in the lowest running lane (R243). -/
def mxSel (g : Group) (v : View) (w : Wide) (run : Word) : Nat := (readSel g v w.imm 15 w.sb (lowestLane run)).val.toNat

/-- The A operand of every lane, read now (R242): keyed 4096·lane + register of the run. -/
def readRun (g : Group) (v : View) (w : Wide) (n : Nat) : Tab Lane32 × Tab Bool :=
  (List.range g.width).foldl (fun (t : Tab Lane32 × Tab Bool) l =>
    (List.range n).foldl (fun (t : Tab Lane32 × Tab Bool) j =>
      let o := if w.sa.toNat < 256 then g.lanes.get (w.sa.toNat + j) l else readSel g v w.imm w.ty w.sa l
      (t.1.set (4096 * l + j) (o.val.extractLsb' 0 32) 0, t.2.set (4096 * l + j) o.psn false)) t) ([], [])

/-- The format of a type code. -/
def mxFmtOf (ty : Nat) : MxFmt := if ty = 9 then .f16 else if ty = 10 then .b16 else if ty = 12 then .p8 else if ty = 13 then .p16 else .d8

/-- The latch's format, if it is full. -/
def Group.latchFmt (g : Group) : Option MxFmt := g.mxLatch.map fun x => x.1

/-- Checks 2 to 6 of a pass (R244): cause and lanes. In reduced service only `.f16` passes run (spec/21 R345). -/
def passFault (m : Mach) (w : Wide) (run : Word) (n : Nat) : Option (Nat × Word) :=
  let g := m.g
  let idle := g.present &&& ~~~run
  if g.width = 16 then some (cMXWIDTH, run)
  else if idle ≠ 0 then some (cMXCONV, idle)
  else match m.rec? n with
  | none => some (cMXRES, run)
  | some r =>
    if r.fmt ≠ mxFmtOf w.ty || r.two != (g.width == 64) || (m.d.pkg.stage == 2 && mxFmtOf w.ty ≠ .f16)
        || (match g.latchFmt with
          | some f => f != mxFmtOf w.ty
          | none => false) then some (cMXFMT, run)
    else if r.pm1 < n / 256 % 256 then some (cMXRANGE, run)
    else none

/-- `mx.mma` (R243-R245). -/
def execMxMma (w : Wide) (s : State) : Host.Outcome State Fault Refusal :=
  laneWord 0x340 w (fun _ v run _ m =>
    let n := mxSel m.g v w run
    match passFault m w run n, m.rec? n with
    | some (code, mask), _ => .trap m code mask
    | none, none => .trap m cMXRES run
    | none, some r =>
      if tableFull m || !m.g.canRaise .mx then .wait none
      else dualGateLane m [] fun m =>
        let a := match m.g.mxLatch with
          | some x => x.2
          | none => readRun m.g v w (mxRun w.ty)
        let m := { m with g := { m.g with mxLatch := if w.aux2 % 2 = 1 then some (mxFmtOf w.ty, a.1, a.2) else none } }
        let p := n / 256 % 256
        .done (enterTable m r (.pass (mxFmtOf w.ty) p a.1 a.2) (passReads r p)) {}) s

/-- The checks of a slot word (R249). -/
def slotFault (m : Mach) (phasor : Bool) (n c k : Nat) : Option Nat :=
  if m.g.width = 16 then some cMXWIDTH
  else match m.rec? n with
  | none => some cMXRES
  | some r =>
    if mxPhasor r.fmt != phasor || r.two != (m.g.width == 64) then some cMXFMT
    else if 32 < c + k then some cMXRANGE
    else none

/-- c of a slot word: IMM23[12:8] (R249). -/
def mxCol (w : Wide) : Nat := w.imm.toNat / 256 % 32

/-- A slot word: its checks, then its entry. -/
def slotWord (op10 : Nat) (phasor : Bool) (w : Wide) (kind : Group → View → Word → MxKind) (s : State) :
    Host.Outcome State Fault Refusal :=
  laneWord op10 w (fun _ v run _ m =>
    let n := mxSel m.g v w run
    match slotFault m phasor n (mxCol w) (mxN w), m.rec? n with
    | some code, _ => .trap m code run
    | none, none => .trap m cMXRES run
    | none, some r =>
      if tableFull m || !m.g.canRaise .mx then .wait none
      else dualGateLane m [] fun m => .done (enterTable m r (kind m.g v run) []) {}) s

/-- `mx.rd` (R249). -/
def execMxRd (w : Wide) (s : State) : Host.Outcome State Fault Refusal :=
  slotWord 0x341 false w (fun _ _ run => .read w.dst.toNat (mxCol w) (mxN w) run) s
/-- `mx.resolve` (R249). -/
def execMxResolve (w : Wide) (s : State) : Host.Outcome State Fault Refusal :=
  slotWord 0x343 true w (fun _ _ run => .resolve w.ty w.dst.toNat (mxCol w) (mxN w) run) s
/-- `mx.wr` (R249): its registers are read at issue. -/
def execMxWr (w : Wide) (s : State) : Host.Outcome State Fault Refusal :=
  slotWord 0x342 false w (fun g v run => .write (mxCol w) (mxN w) run (readRun g v w (mxN w)).1) s

/-! ### A pass (R246-R248) -/

/-- A byte of the operand buffer as a pass reads it: zero in a poisoned sector. -/
def Cluster.bufByte (x : Cluster) (o : Nat) : Nat := if x.obuf.poisoned (o / 32) then 0 else (x.obuf.byte o).toNat
/-- A 16-bit value of it. -/
def Cluster.bufHalf (x : Cluster) (o : Nat) : Nat := x.bufByte o + 256 * x.bufByte (o + 1)

/-- Element k of a lane's A. -/
def elemA (f : MxFmt) (a : Tab Lane32) (l k : Nat) : Nat :=
  let e := mxBytes f
  (a.getD (4096 * l + k * e / 4) 0).toNat / 2 ^ (8 * e * (k % (4 / e))) % 2 ^ (8 * e)
/-- Element (k, n) of step p of B. -/
def elemB (x : Cluster) (r : MxRec) (p k n : Nat) : Nat :=
  let o := r.off + p * mxBB r.fmt + (48 * n + k) * mxBytes r.fmt
  if mxBytes r.fmt = 1 then x.bufByte o else x.bufHalf o
/-- The address of the B scale of column n, block b, step p; and of the A scale of row mm of tile t. -/
def scaleBAt (r : MxRec) (p n b : Nat) : Nat := recSbo r + 128 * p + 2 * (2 * n + b)
def scaleAAt (r : MxRec) (p t mm b : Nat) : Nat := recSao r + 2 * ((p * recTiles r + t) * 64 + 2 * mm + b)

/-- The numbers of A and B elements of the floating-point passes. -/
def mxNum (f : MxFmt) (x : Nat) : Num :=
  match f with
  | .d8 => d8Num x scaleOne
  | .f16 => fp16.read false x
  | _ => bf16.read false x

/-- Does a number have a sign bit? -/
def Num.isNeg : Num → Bool
  | .nan _ => false
  | .inf n => n
  | .fin n _ _ => n
/-- Is it an infinity? -/
def Num.isInf : Num → Bool
  | .inf _ => true
  | _ => false
/-- Is it a zero? -/
def Num.isZero : Num → Bool
  | .fin _ n _ => n == 0
  | _ => false
/-- A finite number as a fraction. -/
def Num.frac : Num → SFrac
  | .fin neg n d => SFrac.of neg n d
  | _ => ⟨0, 1⟩

/-- The value of a block (R59, R60): the exact sum of its products times a scale, rounded once to FP32; the events. -/
def blockValue (ts : List (Num × Num)) (scale : Option SFrac) : Num × Ev :=
  let sig := ts.foldl (fun e t => e ||| t.1.sigEv ||| t.2.sigEv) evNone
  let nan := ts.any fun t => t.1.isNan || t.2.isNan
  let bad := ts.any fun t => (t.1.isInf && t.2.isZero) || (t.1.isZero && t.2.isInf)
  let infs := (ts.filter fun t => (t.1.isInf || t.2.isInf) && !t.1.isNan && !t.2.isNan && !t.1.isZero && !t.2.isZero).map
    fun t => t.1.isNeg != t.2.isNeg
  let opp := infs.contains true && infs.contains false
  let ev := if bad || opp then sig ||| evInv else sig
  match scale with
  | none => (.nan false, ev)
  | some s =>
    if nan || bad || opp then (.nan false, ev)
    else match infs with
    | n :: _ => (.inf n, ev)
    | [] =>
      let sum : SFrac := ts.foldl (fun (acc : SFrac) t => acc.add (t.1.frac.mul t.2.frac)) ⟨0, 1⟩
      let zneg := ts.all fun t => (t.1.isZero || t.2.isZero) && t.1.isNeg != t.2.isNeg
      let r := fp32.roundS 0 false zneg (sum.mul s)
      (fp32.read false r.1, ev ||| r.2)

/-- The product of the scales of block b, none under a NaS; 1 where the format has none. -/
def blockScale (x : Cluster) (r : MxRec) (p t mm n b : Nat) : Option SFrac :=
  if !mxScaled r.fmt then some ⟨1, 1⟩
  else match scaleValue (x.bufHalf (scaleAAt r p t mm b)), scaleValue (x.bufHalf (scaleBAt r p n b)) with
  | some u, some v => some ⟨u.1 * v.1, u.2 * v.2⟩
  | _, _ => none

/-- One FP32 element of a pass (R246): the accumulator's bits and the events. -/
def passElement (x : Cluster) (r : MxRec) (p : Nat) (a : Tab Lane32) (t mm n acc : Nat) : Nat × Ev :=
  let len := mxBlock r.fmt
  (List.range (48 / len)).foldl (fun (s : Nat × Ev) b =>
    let ts := (List.range len).map fun i =>
      (mxNum r.fmt (elemA r.fmt a (32 * t + mm) (len * b + i)), mxNum r.fmt (elemB x r p (len * b + i) n))
    let v := blockValue ts (blockScale x r p t mm n b)
    let y := fp32.add 0 false (fp32.read false s.1) v.1
    (y.1, s.2 ||| v.2 ||| y.2)) (acc, evNone)

/-- Is a sector of a range of the operand buffer poisoned? -/
def bufPoison (x : Cluster) (o n : Nat) : Bool := x.obuf.anyPoison o n

/-- Is row mm of tile t touched by poison (R248): from A in a `prc` group, or from its scales? -/
def rowPoison (x : Cluster) (e : MxEntry) (p : Nat) (a : Tab Lane32) (apsn : Tab Bool) (t mm : Nat) : Bool :=
  let r := e.rc
  let l := 32 * t + mm
  (e.prc && ((List.range (12 * mxBytes r.fmt)).any (fun j => apsn.getD (4096 * l + j) false)
    || ((r.fmt == .f16 || r.fmt == .b16)
      && (List.range 48).any fun k => fpPoison (mxTy r.fmt) (BitVec.ofNat 64 (elemA r.fmt a l k)))))
  || (mxScaled r.fmt && bufPoison x (scaleAAt r p t mm 0) 4)
/-- Is column n touched by poison: its elements or its scales? -/
def colPoison (x : Cluster) (r : MxRec) (p n : Nat) : Bool :=
  bufPoison x (r.off + p * mxBB r.fmt + 48 * n * mxBytes r.fmt) (48 * mxBytes r.fmt)
  || (mxScaled r.fmt && bufPoison x (scaleBAt r p n 0) 4)

/-- What an engine's work on the accumulator gives: the cluster, the events, whether it consumed poison. -/
structure MxOut where
  x : Cluster
  ev : Ev := evNone
  used : Bool := false

/-- Word w of the accumulator store. -/
def Cluster.accWord (x : Cluster) (w : Nat) : Nat := x.acc.num (4 * w) 4
/-- Write it; a fresh value has no storage error. -/
def Cluster.setAcc (x : Cluster) (w v : Nat) : Cluster :=
  { x with acc := x.acc.store (4 * w) (toLe 4 v) false, accBad := x.accBad.erase w }

/-- An FP32 element as it is read (R248): a storage error gives the poison pattern in a `prc` group, and otherwise +0
with a consumption. -/
def readAcc (x : Cluster) (prc : Bool) (w : Nat) : Nat × Bool :=
  if x.accBad.getD w false then (if prc then (fp32.poisonBits, false) else (0, true)) else (x.accWord w, false)

/-- The rows and columns of every tile. -/
def tileElements (tiles : Nat) : List (Nat × Nat × Nat) :=
  (List.range tiles).flatMap fun t => (List.range 32).flatMap fun mm => (List.range 32).map fun n => (t, mm, n)

/-- A floating-point pass (R246, R248). -/
def fpPass (x0 : Cluster) (e : MxEntry) (p : Nat) (a : Tab Lane32) (apsn : Tab Bool) : MxOut :=
  (tileElements (recTiles e.rc)).foldl (fun (o : MxOut) q =>
    let (t, mm, n) := q
    let w := 1024 * (e.rc.slot + t) + 32 * mm + n
    let old := readAcc x0 e.prc w
    if e.prc && (rowPoison x0 e p a apsn t mm || colPoison x0 e.rc p n || old.1 == fp32.poisonBits) then
      { o with x := o.x.setAcc w fp32.poisonBits }
    else
      let y := passElement x0 e.rc p a t mm n old.1
      { x := o.x.setAcc w y.1, ev := o.ev ||| y.2, used := o.used || old.2 }) { x := x0 }

/-- X, Y and N of a phasor element (R247). -/
structure PhAcc where
  x : Int
  y : Int
  n : Nat
  deriving DecidableEq, Repr

/-- The first word of phasor element (mm, n) of tile t. -/
def phWord (r : MxRec) (t mm n : Nat) : Nat := 1024 * r.slot + 4096 * t + 4 * (32 * mm + n)

/-- Read an element; a storage error reads as a poisoned element. -/
def Cluster.phRead (x : Cluster) (w : Nat) : PhAcc :=
  let hi := x.accWord (w + 2)
  let sx (v : Nat) : Int := (BitVec.ofNat 48 v).toInt
  { x := sx (x.accWord w + 2 ^ 32 * (hi % 65536)), y := sx (x.accWord (w + 1) + 2 ^ 32 * (hi / 65536))
    n := if (List.range 4).any fun i => x.accBad.getD (w + i) false then 0xFFFFFFFF else x.accWord (w + 3) }

/-- Write an element. -/
def Cluster.phWrite (c : Cluster) (w : Nat) (v : PhAcc) : Cluster :=
  let ux := (v.x % (2 ^ 48 : Nat)).toNat
  let uy := (v.y % (2 ^ 48 : Nat)).toNat
  (((c.setAcc w (ux % 2 ^ 32)).setAcc (w + 1) (uy % 2 ^ 32)).setAcc (w + 2) (uy / 2 ^ 32 * 65536 + ux / 2 ^ 32)).setAcc (w + 3) v.n

/-- Saturation to ±(2^47 − 1). -/
def sat47 (x : Int) : Int := max (-(2 ^ 47 - 1 : Nat)) (min x (2 ^ 47 - 1 : Nat))

/-- One element of a phasor pass: each addition saturates, and counts OVF where it does. -/
def phElement (x : Cluster) (r : MxRec) (p : Nat) (a : Tab Lane32) (t mm n : Nat) (v : PhAcc) : PhAcc × Ev :=
  let ty := mxTy r.fmt
  (List.range 48).foldl (fun (s : PhAcc × Ev) k =>
    match phMul ty (elemA r.fmt a (32 * t + mm) k) (elemB x r p k n) with
    | none => (s.1, s.2 ||| evPund)
    | some c =>
      let i := phIndex ty c
      let X := s.1.x + cosEntry i
      let Y := s.1.y + sinEntry i
      (⟨sat47 X, sat47 Y, min (s.1.n + 1) 0xFFFFFFFE⟩,
        if sat47 X ≠ X || sat47 Y ≠ Y then s.2 ||| evOvf else s.2)) (v, evNone)

/-- A phasor pass (R247, R248): a poisoned element is left as it stands, and one whose storage holds an error is poisoned. -/
def phPass (x0 : Cluster) (e : MxEntry) (p : Nat) (a : Tab Lane32) (apsn : Tab Bool) : MxOut :=
  (tileElements (recTiles e.rc)).foldl (fun (o : MxOut) q =>
    let (t, mm, n) := q
    let w := phWord e.rc t mm n
    let v := x0.phRead w
    if v.n = 0xFFFFFFFF then { o with x := o.x.phWrite w v }
    else if rowPoison x0 e p a apsn t mm || colPoison x0 e.rc p n then
      { o with x := o.x.phWrite w { v with n := 0xFFFFFFFF } }
    else
      let y := phElement x0 e.rc p a t mm n v
      { o with x := o.x.phWrite w y.1, ev := o.ev ||| y.2 }) { x := x0 }

/-! ### The arbiter (R251, R252) -/

/-- The slots that an entry names. -/
def MxEntry.slots (e : MxEntry) : List Nat := recSlots e.rc

/-- May an entry be granted (R251)? `older` are the entries before it. -/
def entryEligible (older : List MxEntry) (e : MxEntry) : Bool :=
  !e.running && e.loads.isEmpty && older.all fun o => !(o.slots.any fun k => e.slots.contains k)

/-- The eligible entries of a table, oldest first. -/
def eligibleEntries (t : List MxEntry) : List MxEntry :=
  t.filter fun e => entryEligible (t.takeWhile fun o => o.id ≠ e.id) e

/-- The entry that the next grant takes (R252). -/
def grantPick (l : List MxEntry) : Option MxEntry :=
  match l.find? fun e => decide (32 ≤ e.passed) with
  | some e => some e
  | none => l.foldl (fun best e => match best with
    | none => some e
    | some b => if b.prio < e.prio then some e else some b) none

/-- The lane values that `mx.rd` or `mx.resolve` writes: (register, lane, value, side bit). -/
def slotValues (x : Cluster) (e : MxEntry) : List (Nat × Nat × Lane32 × Bool) × Ev × Bool :=
  match e.kind with
  | .read dst c n run =>
    let l := (lanesOf run).flatMap fun l => (List.range n).map fun j =>
      (dst + j, l, readAcc x e.prc (1024 * (e.rc.slot + l / 32) + 32 * (l % 32) + c + j))
    (l.map fun q => (q.1, q.2.1, BitVec.ofNat 32 q.2.2.1, false), evNone, l.any fun q => q.2.2.2)
  | .resolve ty dst c n run =>
    let l := (lanesOf run).flatMap fun l => (List.range n).map fun j =>
      (dst + j, l, x.phRead (phWord e.rc (l / 32) (l % 32) (c + j)))
    let bad (v : PhAcc) : Bool := v.n == 0xFFFFFFFF
    (l.map fun q =>
        if bad q.2.2 then (q.1, q.2.1, if e.prc then 0 else BitVec.ofNat 32 (phUndef ty), e.prc)
        else (q.1, q.2.1, BitVec.ofNat 32 (phPack ty (phResolve ty q.2.2.x q.2.2.y q.2.2.n)), false),
      l.foldl (fun e q => if bad q.2.2 then e else e ||| resolveEv ty q.2.2.x q.2.2.y q.2.2.n) evNone,
      !e.prc && l.any fun q => bad q.2.2)
  | _ => ([], evNone, false)

/-- What a granted entry does to its cluster. -/
def grantOut (x : Cluster) (e : MxEntry) : MxOut :=
  match e.kind with
  | .pass f p a apsn => if mxPhasor f then phPass x e p a apsn else fpPass x e p a apsn
  | .write c n run vals =>
    { x := (lanesOf run).foldl (fun x l => (List.range n).foldl (fun x j =>
        x.setAcc (1024 * (e.rc.slot + l / 32) + 32 * (l % 32) + c + j) (vals.getD (4096 * l + j) 0).toNat) x) x }
  | .zero => { x := e.slots.foldl (fun x k => { x with
      acc := x.acc.zero (4096 * k) (4096 * k + 4096), accBad := x.accBad.filter fun b => b.1 / 1024 ≠ k }) x }
  | _ =>
    let v := slotValues x e
    { x := x, ev := v.2.1, used := v.2.2 }

/-- ARBITER_GRANT (R246, R252): one eligible entry runs; its values are read now. -/
def arbiterGrant (cl : Nat) (m : Mach) : Mach :=
  let x := m.d.cluster cl
  let l := eligibleEntries x.table
  match grantPick l with
  | none => m
  | some e =>
    let o := grantOut x e
    let vals := (slotValues x e).1
    let table := x.table.map fun (y : MxEntry) =>
      if y.id = e.id then { y with running := true }
      else if l.any fun z => z.id == y.id then { y with passed := y.passed + 1 } else y
    let d := m.d.setCluster cl { o.x with table := table }
    let m : Mach := { m with d := if o.used then consume d e.ctx 3 else d }
    let m := if vals.isEmpty then m else m.onPair e.gid fun g =>
      { g with lanes := vals.foldl (fun f q => f.put q.1 q.2.1 q.2.2.1 q.2.2.2) g.lanes }
    m.engineEvents e.gid e.ctx .mx e.flight o.ev

/-- ARBITER_GRANT (R252). -/
def execArbiterGrant (cl : Nat) (s : State) : Host.Outcome State Fault Refusal := act (fun _ m => arbiterGrant cl m) s

/-- MX_ENTRY_COMPLETE (R251): a running entry is freed, and its counter may fall. -/
def mxEntryComplete (cl op : Nat) (m : Mach) : Mach :=
  let x := m.d.cluster cl
  match x.table.find? fun e => e.id == op && e.running with
  | none => m
  | some e =>
    let m := { m with d := m.d.setCluster cl { x with table := x.table.filter fun y => y.id ≠ op } }
    m.finishOp e.gid .mx e.flight 0

/-- MX_ENTRY_COMPLETE (R251). -/
def execMxEntryComplete (cl op : Nat) (s : State) : Host.Outcome State Fault Refusal :=
  act (fun _ m => mxEntryComplete cl op m) s

/-! ### The operand loader -/

/-- The bytes of the operand buffer that an entry not yet granted reads. -/
def MxEntry.reads (e : MxEntry) : List (Nat × Nat) :=
  match e.kind with
  | .pass _ p _ _ => if e.running then [] else passReads e.rc p
  | _ => []

/-- A load leaves: its counter falls, and the entries that waited for it go on (R253). -/
def endLoad (m : Mach) (cl : Nat) (o : LoadOp) : Mach :=
  let x := m.d.cluster cl
  let m := { m with d := m.d.setCluster cl { x with
    loads := x.loads.filter fun y => y.id ≠ o.id
    table := x.table.map fun (e : MxEntry) => { e with loads := e.loads.filter (· ≠ o.id) } } }
  m.finishOp o.gid .mx o.flight 0

/-- The source bytes of a load that may move: none while a source behind a port has not answered. -/
def loadSource (d : Dev) (o : LoadOp) (k : Nat) : Dev × Option (RangeData × Bool) :=
  if o.src.kind ≠ kSCRATCH && leaves d o.src.cursor && k ≠ 0 then
    match o.got with
    | some (bs, psn) => (d, some (⟨(bs ++ List.replicate k 0).take k, (psn ++ List.replicate k false).take k, []⟩, false))
    | none => if o.asked then (d, none) else (sendRemote d (some o.ctx) 0 o.id o.src.cursor k none false .engine, none)
  else
    let (d, x, bad) := engineRead d o.team o.src o.src.cursor k
    (d, some (x, bad))

/-- MX_LDB_COMPLETE (R238, R253, R254): the bytes move after the group's earlier passes have read what they replace. -/
def mxLdbComplete (cl op : Nat) (R : CtlRegs) (m : Mach) : Mach :=
  let x := m.d.cluster cl
  match x.loads.find? fun o => o.id == op with
  | none => m
  | some o =>
    let before := x.loads.takeWhile fun y => y.id ≠ op
    if before.any (fun y => y.gid == o.gid)
        || x.table.any (fun e => e.gid == o.gid && decide (e.id < o.id) && e.reads.any fun q => rangesMeet q (o.off, o.len)) then m
    else
      let p := engineParty m.d o.colour o.part o.team true
      match settleReach m.d o.len (reach R m.d p false o.src o.src.cursor o.len) with
      | (d, none) => { m with d := d }
      | (d, some (k, refused)) =>
        match loadSource d o k with
        | (d, none) =>
          let y := d.cluster cl
          { m with d := d.setCluster cl { y with loads := y.loads.map fun z => if z.id = op then { z with asked := true } else z } }
        | (d, some (_, true)) => engineLoss { m with d := d } o.gid
        | (d, some (src, false)) =>
          let d := d.setCluster cl ((d.cluster cl).bufferWrite o.off src)
          let d := if src.psn.any id && !o.prc then consume d o.ctx 3 else d
          let m : Mach := { m with d := d }
          endLoad (if refused then m.hold o.gid .mx o.flight cMXSRC else m) cl o

/-- MX_LDB_COMPLETE (R238). -/
def execMxLdbComplete (cl op : Nat) (s : State) : Host.Outcome State Fault Refusal :=
  act (fun R m => mxLdbComplete cl op R m) s

end Sys2Proof.Machine
end

