-- ==== Sys2Proof/Machine/Remote.lean ====
section
/-! DEFINITION. How memory words complete: MEMORY_WORD_COMPLETE, and what comes back through a port (spec/08 R165; spec/18
R320; spec/22 R350, R358, R361). -/

namespace Sys2Proof.Machine

/-- MEMORY_WORD_COMPLETE (R165): the operation's data is delivered or its stores are performed, so its counter falls in
issue order. Its requests through ports, numbered next, have been answered. The write time is the core's, which no write
of the word can exceed (spec/16 R263). -/
def memoryWordComplete (gid op : Nat) (m : Mach) : Mach :=
  match m.group? gid with
  | none => m
  | some g =>
    if g.flights.any (fun f => f.id == op && (f.path == .ld || f.path == .st))
        && m.d.remotes.all (fun r => !(r.gid == gid && r.flight == op + 1)) then
      m.onGid gid fun g => g.complete op (m.d.core (coreKey g.die g.core)).pts
    else m

/-- MEMORY_WORD_COMPLETE (R165). -/
def execMemoryWordComplete (gid op : Nat) (s : State) : Host.Outcome State Fault Refusal :=
  act (fun _ m => memoryWordComplete gid op m) s

/-! ### Answers to a group -/

/-- Deliver the answer of one request to the registers that wait for it; a completion record and the engines are answered
elsewhere. -/
def deliver (g : Group) (w : RemoteWait) (addr : Nat) (bs : List Byte) (poison : Bool) : Group :=
  let x := if poison then 0 else leNat bs
  match w with
  | .scalar d n signed => g.setS d (if poison then 0 else loadWord (bs.take n) signed)
  | .capReg d => g.setC d ⟨BitVec.ofNat 128 x, false⟩
  | .lanes d ty mask =>
    let o := loadedOut g.prc ty bs poison
    { g with lanes := (laneEff d false ty ((lanesOf mask).map fun l => (l, o))).file g.lanes }
  | .quads q mask =>
    { g with lanes := (quadEff q false ((lanesOf mask).map fun l =>
        (l, ⟨BitVec.ofNat 128 x, false⟩, poison && g.prc))).file g.lanes }
  | .acquire d _ => g.setS d (BitVec.ofNat 64 (x % 2 ^ 64))
  | .mwait d expect _ =>
    let v := BitVec.ofNat 64 (x % 2 ^ 64)
    if v = expect then { g with pc := g.pc - 4, park := some ⟨addr, expect⟩ } else g.setS d v
  | .bind d => g.setS d (BitVec.ofNat 64 x)
  | .block | .engine | .front _ _ | .bell _ _ | .record _ | .none => g

/-- The acquiring effect of an answer (spec/21 R332): VALUE and STATE are read at this moment. -/
def acquired (d : Dev) (g : Group) (w : RemoteWait) (bs : List Byte) (poison : Bool) : Dev :=
  let st := BitVec.ofNat 64 (leNat ((bs.drop 8).take 8))
  match w with
  | .acquire _ sc => acquireAt d g st sc
  | .mwait _ expect sc => if (if poison then 0 else BitVec.ofNat 64 (leNat (bs.take 8))) = expect then d else acquireAt d g st sc
  | _ => d

/-- A request's answer: its data, and the poison marks of the 32-byte sectors that it reads, in order. -/
structure Answer where
  r : Remote
  bytes : List Byte
  marks : List Bool
  refused : Bool

/-- Did any of it come back poisoned? -/
def Answer.psn (e : Answer) : Bool := e.marks.any id
/-- Which of its bytes lie in a poisoned sector. -/
def Answer.bytePsn (e : Answer) : List Bool := (List.range e.bytes.length).map fun i => e.marks.getD ((e.r.addr % 32 + i) / 32) false

/-! ### Host lines that the module caches (R352) -/

/-- The cached line that serves a request: all of its bytes for a read, a modified line for a write or an atomic. A sync word
goes to the host. -/
def hostHit (p : Pkg) (r : Remote) : Option HostLine :=
  match r.haddr with
  | none => none
  | some h => if !p.linkCxl || !p.linkUp || r.sync ≠ .no then none else
    (p.snoop.find? (h / 128)).bind fun x =>
      let whole := (List.range r.len).all fun i => (x.bytes.find? (h % 128 + i)).isSome
      let reads := r.write.isNone
      let writes := r.write.isSome || r.atomic.isSome
      if (!reads || whole) && (!writes || x.dirty) then some x else none

/-- The bytes [o, o + n) of a cached line, and the poison marks of their sectors. -/
def HostLine.read (x : HostLine) (o n : Nat) : List Byte × List Bool :=
  ((List.range n).map fun i => x.bytes.getD (o + i) 0, (blocksOf 32 o n).map fun k => bit x.psn k)

/-- Bytes enter a cached line, each with its poison. -/
def HostLine.put (x : HostLine) (o : Nat) (bs : List Byte) (psn : List Bool) : HostLine :=
  { x with
    bytes := bs.zipIdx.foldl (fun (t : Tab Byte) b => t.insert (o + b.2) b.1) x.bytes
    psn := (blocksOf 32 o bs.length).foldl (fun m k =>
      if ((psn.take (32 * k + 32 - o)).drop (32 * k - o)).any id then setBit m k true
      else if o ≤ 32 * k && 32 * k + 32 ≤ o + bs.length then setBit m k false else m) x.psn }

/-- The bytes of a line that it does not hold enter it; those that it holds, which may be modified, stand. -/
def HostLine.fill (x : HostLine) (o : Nat) (bs : List Byte) : HostLine :=
  { x with bytes := bs.zipIdx.foldl (fun (t : Tab Byte) b => if (t.find? (o + b.2)).isSome then t else t.insert (o + b.2) b.1) x.bytes }

/-- The L1 spans of a line after an access of a core, kept by invalidation (R352, spec/21 R331). -/
def HostLine.span (x : HostLine) (who : Nat × Nat) (excl : Bool) (o n : Nat) : HostLine :=
  let (w, k) := wordsOf o n
  let s := (who.1, who.2, excl, w, k)
  { x with spans := s :: x.spans.filter fun t =>
      t ≠ s && !((excl || t.2.2.1) && overlap w k t.2.2.2.1 t.2.2.2.2) }

/-- The host's data for a request with the bytes that the module's copy of the line holds over them (R352). -/
def overHost (p : Pkg) (r : Remote) (bs : List Byte) : List Byte :=
  match r.haddr.bind fun h => (p.snoop.find? (h / 128)).map fun x => (h, x) with
  | some (h, x) =>
    if !p.linkCxl || !p.linkUp || r.sync ≠ .no then bs
    else bs.zipIdx.map fun b => (x.bytes.find? (h % 128 + b.2)).getD b.1
  | none => bs

/-- What each request of an operation is answered with, in order: its part of the data, and the poison marks of the sectors that it
reads; zeros where it was refused, which has no part of either; the module's own copy where it has one. -/
def answers (p : Pkg) : List Bool → List Byte → List Bool → List Remote → List Answer
  | _, _, _, [] => []
  | no, data, psn, r :: rs =>
    let n := if r.write.isSome then 0 else r.len
    let k := (blocksOf 32 r.addr n).length
    match (hostHit p r).map fun x => x.read (r.haddr.getD 0 % 128) n, no.headD false with
    | some x, _ => ⟨r, x.1, x.2, false⟩ :: answers p no.tail (data.drop n) (psn.drop k) rs
    | none, true => ⟨r, List.replicate n 0, [], true⟩ :: answers p no.tail data psn rs
    | none, false => ⟨r, overHost p r ((data ++ List.replicate n 0).take n), psn.take k, false⟩ :: answers p no.tail (data.drop n) (psn.drop k) rs

/-- The answer of a load as a group's own loads see it: with the stores that a dual group holds (spec/18 R317). -/
def Answer.own (g : Group) (e : Answer) : Answer :=
  if g.dual && e.r.write.isNone && e.r.atomic.isNone then
    let f := overlay g.dualSt.hold e.r.addr ⟨e.bytes, false, e.psn⟩
    { e with bytes := f.bytes, marks := [f.poison] }
  else e

/-- Does an answer go to lane registers? -/
def RemoteWait.toLanes : RemoteWait → Bool
  | .lanes .. | .quads .. => true
  | _ => false

/-- Is it a command block's? -/
def RemoteWait.isBlock : RemoteWait → Bool
  | .block => true
  | _ => false

/-- The requests of a group's operation have left the list. -/
def takeRemotes (m : Mach) (gid op : Nat) : Mach :=
  { m with d := { m.d with remotes := m.d.remotes.filter fun r => !(r.gid == gid && r.flight == op) } }

/-- What the shadow copy of a dual pair is forwarded of an operation's atomics and bindings (spec/18 R320): of a bind, its
number, and whether no descriptor was free. -/
def answeredOld (e : Answer) : List Word :=
  let v := BitVec.ofNat 64 (leNat (e.bytes.take 8))
  match e.r.wait with
  | .bind _ => forwarded v (decide (4 ≤ v.toNat)) 0
  | _ => if e.r.atomic.isSome then forwarded v e.psn (BitVec.ofNat 64 (leNat ((e.bytes.drop 8).take 8))) else []

/-- The trap of a scalar word that its answer brings: a poisoned read in a `prc` group (R101), a bind that found no descriptor
free (spec/13 R223). -/
def answerTrap (g : Group) (as : List Answer) : Option Nat :=
  if g.prc && as.any (fun (e : Answer) => e.psn && !e.r.wait.toLanes) then some cPOISON
  else if as.any fun (e : Answer) => match e.r.wait with
    | .bind _ => decide (4 ≤ leNat (e.bytes.take 8))
    | _ => false then some cSYFULL
  else none

/-- The answer of an operation on `fx` (R361). A refused or lost access gives zeros, and its word holds FXPEER in its group; a
poisoned one is recorded, once for its word, or in a `prc` group traps its scalar word with no effect on its register (R101,
R181, R182): the trap waits for the lane words queued before the word (R170). -/
def wordAnswered (gid op : Nat) (g : Group) (mine : List Remote) (as : List Answer) (m : Mach) : Mach :=
  let m := if as.any fun (e : Answer) => e.refused then m.hold gid .fx op cFXPEER else m
  let as := as.map (Answer.own g)
  let trap := answerTrap g as
  let m := if as.any (fun (e : Answer) => e.psn) && !g.prc && !mine.any (fun r => r.write.isNone && r.psn) then { m with d := consume m.d g.ctx 5 } else m
  let m := match trap with
    | some code => m.onGid gid fun g => { g with waitRemote := false, pc := g.pc - 4, dueTrap := some code }
    | none =>
      let m := m.onGid gid fun g => { as.foldl (fun g (e : Answer) => deliver g e.r.wait e.r.addr e.bytes e.psn) g with waitRemote := false }
      { m with d := as.foldl (fun d (e : Answer) => acquired d g e.r.wait e.bytes e.psn) m.d }
  let m := if mine.any (fun r => r.envelope) then m.finishOp gid .fx op (m.d.core (coreKey g.die g.core)).pts
    else m.onGid gid fun g => g.complete op (m.d.core (coreKey g.die g.core)).pts
  let old := as.flatMap answeredOld
  match (if old.isEmpty || g.shadow then none else m.twin g) with
  | none => m
  | some x => m.onGid x.gid fun x => { x with dualSt := { x.dualSt with inbox := x.dualSt.inbox ++ [old] } }

/-- The answer of command blocks (R229): the word that asked for them may issue; a refused block reads as zeros. -/
def blockAnswered (gid : Nat) (as : List Answer) (m : Mach) : Mach :=
  m.onGid gid fun g => { g with waitRemote := false, blocks := g.blocks ++ as.map fun (e : Answer) => (e.r.addr, e.bytes, e.psn) }

/-! ### Answers to engines and to the front end -/

/-- Where an engine operation stands. -/
inductive OpAt where
  | copy (cl : Nat) (o : CopyOp) | load (cl : Nat) (o : LoadOp) | coll (die : Nat) (o : ClOp) | nowhere
  deriving DecidableEq, Repr

/-- Find an engine operation by its number. -/
def opAt (d : Dev) (op : Nat) : OpAt :=
  let cs := d.clusters.flatMap fun e => e.2.copies.map fun o => (e.1, o)
  let ls := d.clusters.flatMap fun e => e.2.loads.map fun o => (e.1, o)
  let ks := d.dies.flatMap fun e => e.2.coll.map fun o => (e.1, o)
  match cs.find? fun e => e.2.id == op with
  | some (k, o) => .copy k o
  | none => match ls.find? fun e => e.2.id == op with
    | some (k, o) => .load k o
    | none => match ks.find? fun e => e.2.id == op with
      | some (k, o) => .coll k o
      | none => .nowhere

/-- A refused access of an engine is the source's or the destination's failure, or the signal's (R230, R238, R364). -/
def engineRefused (m : Mach) (op : Nat) (r : Remote) : Mach :=
  match opAt m.d op with
  | .copy k o => failCopy m k o (if r.atomic.isSome then cCPSIG else if r.write.isSome then cCPDST else cCPSRC)
  | .load k o => endLoad (m.hold o.gid .mx o.flight cMXSRC) k o
  | .coll k o => failCl m k o (if r.atomic.isSome then cCLSIG else if r.write.isSome then cCLDST else cCLSRC)
  | .nowhere => m

/-- The bytes of a source arrive. -/
def engineGot (m : Mach) (op : Nat) (bs : List Byte) (psn : List Bool) : Mach :=
  match opAt m.d op with
  | .copy k _ => { m with d := setCopy m.d k op fun o => { o with got := more o.got } }
  | .load k _ =>
    let x := m.d.cluster k
    { m with d := m.d.setCluster k { x with loads := x.loads.map fun (o : LoadOp) =>
        if o.id = op then { o with got := more o.got } else o } }
  | .coll k _ => { m with d := setCl m.d k op fun o => { o with got := more o.got } }
  | .nowhere => m
where
  /-- The bytes of one line after those of the lines before it. -/
  more (got : Option (List Byte × List Bool)) : Option (List Byte × List Bool) :=
    let x := got.getD ([], [])
    some (x.1 ++ bs, x.2 ++ psn)

/-- The answer of one request that no group's word made. -/
def engineAnswered (m : Mach) (e : Answer) : Mach :=
  let r := e.r
  match r.wait with
  | .front die slot =>
    let x := m.d.die die
    { m with d := m.d.setDie die { x with slots := x.slots.modify slot fun q =>
        { q with got := q.got ++ [(r.addr, e.bytes, e.psn)] } } }
  | .bell die q =>
    let d := { m.d with queues := m.d.queues.modify q fun x => { x with seen := e.bytes } }
    match d.queue? q with
    | some x => { m with d := if e.refused || x.state ≠ 3 then m.d else ringDoorbell.returned d die q x }
    | none => m
  | .engine => if e.refused then engineRefused m r.flight r else engineGot m r.flight e.bytes e.bytePsn
  | .record k => { m with d := closeLaunch m.d k }
  | _ => if e.refused && r.flight ≠ 0 then engineRefused m r.flight r else m

/-! ### The event -/

/-- Writes of word 0 of a window held back until the accesses that were in flight have ended, in order (R350). -/
def settleWindows (d : Dev) : Dev :=
  d.pkg.hatPending.foldl (fun d e =>
    if e.2.2.any (fun i => d.remotes.any fun r => r.id == i) || d.pkg.hatPending.any (fun x => x.1 == e.1) then
      { d with pkg := { d.pkg with hatPending := d.pkg.hatPending ++ [e] } }
    else hatWrite.hatApply d e.1 e.2.1) { d with pkg := { d.pkg with hatPending := [] } }

/-- The die and core that a request comes from: a group's, its engine's or its front end's. -/
def remoteFrom (m : Mach) (r : Remote) : Nat × Nat :=
  match m.group? r.gid, r.wait with
  | some g, _ => (g.die, g.core)
  | none, .front die _ => (die, 0)
  | none, .bell die _ => (die, 0)
  | none, _ => match opAt m.d r.flight with
    | .copy k o => (k / Config.clustersPerDie, o.core)
    | .load k o => (k / Config.clustersPerDie, o.core)
    | .coll die o => (die, o.core)
    | .nowhere => (0, 0)

/-- In CXL mode the slice of the requester's die keeps the host lines that it reaches, and the snoop filter tracks them and
whether they are modified, and by which die (R352, R354). An atomic that the host performed, and a sync word's access, leave no copy. -/
def noteHostLine (from_ : Nat × Nat) (d : Dev) (e : Answer) : Dev :=
  match e.r.haddr with
  | none => d
  | some h =>
    if !d.pkg.linkCxl || !d.pkg.linkUp then d
    else
      let hit := hostHit d.pkg e.r
      let x := d.pkg.snoop.getD (h / 128) { die := from_.1 }
      let keep (x : HostLine) : Dev := { d with pkg := { d.pkg with snoop := d.pkg.snoop.insert (h / 128) x } }
      if e.r.sync ≠ .no || (e.r.atomic.isSome && hit.isNone) then { d with pkg := { d.pkg with snoop := d.pkg.snoop.erase (h / 128) } }
      else match e.r.atomic, e.r.write with
      | some (op, b, c), _ =>
        if e.psn then d
        else
          let k := 8 * e.r.len
          let new := amoNew op k false (leNat e.bytes) (b.toNat % 2 ^ k) (c.toNat % 2 ^ k)
          keep (({ x with die := from_.1 }.put (h % 128) (toLe e.r.len new) []).span from_ true (h % 128) e.r.len)
      | none, some bs => keep (({ x with dirty := true, die := from_.1 }.put (h % 128) bs e.r.marks).span from_ true (h % 128) e.r.len)
      | none, none =>
        let x := if hit.isSome || e.psn then x else x.fill (h % 128) e.bytes
        keep (x.span from_ false (h % 128) e.r.len)

/-- Do the requests of an operation travel: before the first on a port, those of its lane on another port are retired (R358); a
protected partition's only on a stream keyed to it with the peer (R357); an access to a host line after the earlier stores and
atomics to it, which a cached copy does not show yet (spec/13 R233). -/
def travels (d : Dev) (mine : List Remote) : Bool :=
  let peer (r : Remote) : Option Nat := match spaceOf r.addr with
    | .peer j _ => some j
    | _ => none
  let keyed (r : Remote) : Bool := match r.guard, r.port with
    | some k, some q => (d.pkg.ports.getD q {}).keyed.contains (k, peer r)
    | _, _ => true
  let line (r : Remote) : Option Nat := r.haddr.map fun h => h / 128
  mine.all fun r => ((peer r).isNone || keyed r && d.remotes.all fun x =>
      !(decide (x.id < r.id) && peer x == peer r && x.lane == r.lane && x.port != r.port))
    && (r.haddr.isNone || d.remotes.all fun x =>
      !(decide (x.id < r.id) && line x == line r && (x.write.isSome || x.atomic.isSome) && !(x.gid == r.gid && x.flight == r.flight)))

/-- The answers to the requests of one operation reach it; `refused` says of each request, in order, whether it was refused. -/
def completeRemote (gid op : Nat) (refused : List Bool) (data : List Byte) (psn : List Bool) (m : Mach) : Mach :=
  let mine := m.d.remotes.filter fun r => r.gid == gid && r.flight == op
  let as := answers m.d.pkg refused data psn mine
  let m' := takeRemotes m gid op
  let out :=
    if mine.isEmpty then m
    else if gid = 0 then as.foldl (fun m (e : Answer) => engineAnswered m e) m'
    else match m.group? gid with
    | none => m'
    | some g =>
      if mine.any fun r => r.wait.isBlock then blockAnswered gid as m'
      else wordAnswered gid op g mine as m'
  { out with d := settleWindows (as.foldl (fun d (e : Answer) => if e.refused then d else noteHostLine (remoteFrom m e.r) d e) out.d) }

/-- REMOTE_ACCESS_COMPLETE (R361), for an operation whose requests travel (R358). Group 0 stands for the engines, the front end
and the other parties. -/
def remoteAccessComplete (gid op : Nat) (refused : List Bool) (data : List Byte) (psn : List Bool) (m : Mach) : Mach :=
  if travels m.d (m.d.remotes.filter fun r => r.gid == gid && r.flight == op) then completeRemote gid op refused data psn m else m

/-- The operations in flight whose every request a cached host line serves (R352). -/
def hostServed (d : Dev) : List (Nat × Nat) :=
  ((d.remotes.map fun r => (r.gid, r.flight)).eraseDups).filter fun k =>
    (d.remotes.filter fun r => r.gid == k.1 && r.flight == k.2).all fun r => (hostHit d.pkg r).isSome

/-- REMOTE_ACCESS_COMPLETE (R361). -/
def execRemoteAccessComplete (gid op : Nat) (refused : List Bool) (data : List Byte) (psn : List Bool) (s : State) :
    Host.Outcome State Fault Refusal := act (fun _ m => remoteAccessComplete gid op refused data psn m) s

end Sys2Proof.Machine
end

