-- ==== Sys2Proof/Machine/Fabric.lean ====
section
/-! DEFINITION. The host port, the Swiund ports, peers, firmware activation and recovery (spec/22 R348-R371). -/

namespace Sys2Proof.Machine

/-! ### Training and sessions (R348, R357) -/

/-- Modified host lines of a condition are written back, or are lost where the link is down (R354); lines not kept leave the
module. -/
def writeBackHost (d : Dev) (linkUp keep : Bool) (p : HostLine → Bool) : Dev :=
  let dirty := d.pkg.snoop.filter fun e => e.2.dirty && p e.2
  { d with pkg := { d.pkg with
      snoop := if keep then d.pkg.snoop.map fun (e : Nat × HostLine) => (e.1, if p e.2 then { e.2 with dirty := false } else e.2)
        else d.pkg.snoop.filter fun e => !p e.2
      hostOut := if linkUp then d.pkg.hostOut ++ dirty.map fun e => (e.1, .writeBack e.2.bytes e.2.psn) else d.pkg.hostOut
      lostLines := if linkUp then d.pkg.lostLines else dirty.foldl (fun (t : Tab Bool) e => t.set e.1 true false) d.pkg.lostLines } }

/-- LINK_TRAIN (R348): in PCIe mode host lines are never cached (R352). -/
def execLinkTrain (mode : LinkMode) (s : State) : Host.Outcome State Fault Refusal :=
  act (fun _ m =>
    let d := if mode = .cxl then m.d else writeBackHost m.d true false fun _ => true
    { m with d := { d with pkg := { d.pkg with linkUp := true, linkCxl := decide (mode = .cxl) } } }) s

/-- Change a Swiund port. -/
def onPort (d : Dev) (p : Nat) (f : Port → Port) : Dev :=
  { d with pkg := { d.pkg with ports := d.pkg.ports.set p (f (d.pkg.ports.getD p {})) {} } }

/-- SWIUND_PORT_TRAIN (R357): the port comes up, and the switch assigns the peer index. -/
def swiundPortTrain (port idx : Nat) (d : Dev) : Dev :=
  if 18 ≤ port || Config.peers ≤ idx then d
  else
    let d := onPort d port fun p => { p with up := true }
    { d with pkg := { d.pkg with domValid := true, domIndex := BitVec.ofNat 8 idx } }

/-- SWIUND_PORT_TRAIN (R357). -/
def execSwiundPortTrain (port idx : Nat) (s : State) : Host.Outcome State Fault Refusal :=
  act (fun _ m => { m with d := swiundPortTrain port idx m.d }) s

/-- The entry of `keyed` that stands for a stream bound to no partition. -/
def anyPart : Nat := 8

/-- SPDM_SESSION (R348, R357): keys a stream of the host port, bound to a partition, or of a Swiund port, with the peer that the
session is with. A peer that was lost joins with it, on that port (R370). -/
def spdmSession (port part peer : Option Nat) (d : Dev) : Dev :=
  let exists_ (p : Nat) : Bool := (d.parts.getD p {}).quarters != 0
  match port with
  | none => match part with
    | none => d
    | some p => if !d.pkg.linkUp || !exists_ p then d else d.setPart p { d.parts.getD p {} with ide := true }
  | some q =>
    let k := part.getD anyPart
    if 18 ≤ q || !(d.pkg.ports.getD q {}).up || (part.isSome && !exists_ k) then d
    else
      let d := onPort d q fun p => { p with ide := true, keyed := if p.keyed.contains (k, peer) then p.keyed else p.keyed ++ [(k, peer)] }
      match peer with
      | some j => { d with pkg := { d.pkg with lostPeers := d.pkg.lostPeers.set j ((d.pkg.lostPeers.getD j []).filter (· ≠ q)) [] } }
      | none => d

/-- SPDM_SESSION (R348). -/
def execSpdmSession (port part peer : Option Nat) (s : State) : Host.Outcome State Fault Refusal :=
  act (fun _ m => { m with d := spdmSession port part peer m.d }) s

/-- SWST_RETRY_CLEAR (R357). -/
def execSwstRetryClear (port : Nat) (s : State) : Host.Outcome State Fault Refusal :=
  act (fun _ m => { m with d := if port < 18 then retryClear m.d port else m.d }) s

/-! ### The host access translator (R350, R351) -/

/-- HATW_WRITE (R350). -/
def execHatwWrite (n : Nat) (word1 : Bool) (v : Word) (s : State) : Host.Outcome State Fault Refusal :=
  act (fun _ m => { m with d := if n < 256 then hatWrite m.d n word1 v else m.d }) s

/-- HATMISS (R351): 1 ms has passed without an answer; the accesses that wait fail when they are next judged. -/
def hatmiss (n : Nat) (d : Dev) : Dev :=
  if d.pkg.hatMiss.getD n false then { d with pkg := { d.pkg with hatExpired := d.pkg.hatExpired.set n true false } } else d

/-- HATMISS (R351). -/
def execHatmiss (n : Nat) (s : State) : Host.Outcome State Fault Refusal := act (fun _ m => { m with d := hatmiss n m.d }) s

/-! ### Coherence with the host (R352-R354) -/

/-- HOST_SNOOP (R352, R354): the copies of a host line, by its host address / 128, are invalidated or downgraded, and the snoop is
answered: with the data of a modified line, without data, or with poison for a lost line, which stays lost. -/
def hostSnoop (line : Nat) (inv : Bool) (d : Dev) : Dev :=
  let answer (m : HostMsg) (t : Tab HostLine) : Dev :=
    { d with pkg := { d.pkg with snoop := t, hostOut := d.pkg.hostOut ++ [(line, m)] } }
  if d.pkg.lostLines.getD line false then answer .poisoned d.pkg.snoop
  else match d.pkg.snoop.find? line with
  | none => answer .noData d.pkg.snoop
  | some x =>
    answer (if x.dirty && !(d.die x.die).gated then .data x.bytes x.psn else .noData)
      (if inv then d.pkg.snoop.erase line
       else d.pkg.snoop.insert line { x with dirty := false, spans := x.spans.map fun s => (s.1, s.2.1, false, s.2.2.2) })

/-- HOST_SNOOP (R354). -/
def execHostSnoop (line : Nat) (inv : Bool) (s : State) : Host.Outcome State Fault Refusal :=
  act (fun _ m => { m with d := hostSnoop line inv m.d }) s

/-- DIE_POWER_GATE (R354): a die where no team is resident writes back its modified host lines and sleeps until a probe
wakes it (R355). While a write-back cannot be made, it does not. -/
def diePowerGate (die : Nat) (d : Dev) : Dev :=
  if 4 ≤ die || !(dieTeams d die).isEmpty || (!d.pkg.linkUp && d.pkg.snoop.any fun e => e.2.dirty && e.2.die == die) then d
  else
    let d := writeBackHost d true true fun x => x.die == die
    d.setDie die { (d.die die) with gated := true }

/-- DIE_POWER_GATE (R354). -/
def execDiePowerGate (die : Nat) (s : State) : Host.Outcome State Fault Refusal :=
  act (fun _ m => { m with d := diePowerGate die m.d }) s

/-- BACK_INVALIDATION_ANSWER (R353): the host's copy is gone and the write that waits may perform; or the host's own request
for the line is in flight, and the back-invalidation is sent again. -/
def backInvalidationAnswer (line : Nat) (inFlight : Bool) (d : Dev) : Dev :=
  if inFlight || (d.pkg.backInv.find? line).isNone then d
  else { d with pkg := { d.pkg with backInv := d.pkg.backInv.erase line, hostHeld := d.pkg.hostHeld.erase line } }

/-- BACK_INVALIDATION_ANSWER (R353). -/
def execBackInvalidationAnswer (line : Nat) (inFlight : Bool) (s : State) : Host.Outcome State Fault Refusal :=
  act (fun _ m => { m with d := backInvalidationAnswer line inFlight m.d }) s

/-! ### Requests that arrive through a port (R338, R341, R356, R359) -/

/-- What a request meets. -/
inductive Admit where
  | yes (part : Nat) | no | busy | egress (part : Nat)
  deriving DecidableEq, Repr

/-- A peer's request at one address (R359, R338, R340): the partition condition is taken as met; a protected partition is
reached on a stream that a session with that peer has keyed to it. -/
def peerAdmit (R : CtlRegs) (d : Dev) (r : PeerRequest) (a : Nat) : Admit :=
  match d.pkg.fwFind a with
  | none => .no
  | some e =>
    let p := d.parts.getD e.part {}
    let writes := r.write.isSome || r.atomic.isSome
    if Config.hbmTop ≤ a || !(e.colour == r.colour || e.shr) || (e.ro && writes)
        || (p.prot && !(r.keyed && (d.pkg.ports.getD r.port {}).keyed.contains (e.part, r.source))) then .no
    else if fwLocal.fwBusy R d a then .busy
    else if e.vlt then (if e.xpt && r.operand && !writes then .egress e.part else .no)
    else .yes e.part

/-- The host's request at one address (R338): a protected partition is reached on its IDE stream. -/
def hostAdmit (R : CtlRegs) (d : Dev) (r : HostRequest) (a : Nat) : Admit :=
  let p : Party := { colour := r.colour, part := r.part, scratch := 0, priv := 0, lane := false, scalar := false, host := true
                     loader := r.operand }
  let x := d.parts.getD r.part {}
  if x.prot && !(x.ide && r.ide == some r.part) then .no
  else match fwLocal R d p r.write.isSome a with
  | .pass => match d.pkg.fwFind a with
    | some e => if !e.vlt then .yes r.part else if e.xpt then .egress r.part else .no
    | none => .no
  | .busy => .busy
  | _ => .no

/-- The worst of a request's lines. -/
def admitRange (f : Nat → Admit) (a n : Nat) : Admit :=
  let l := (lineRuns a (n + 1) n).map fun x => f x.1
  if l.isEmpty || l.contains .no then .no
  else if l.contains .busy then .busy
  else match l.find? fun x => match x with
      | .egress _ => true
      | _ => false with
    | some x => x
    | none => l.headD .no

/-- What a peer's sync word does to the object at its address (spec/13 R220, R223, spec/21 R332): VALUE, and STATE after it. -/
def peerSync (d : Dev) (r : PeerRequest) : Dev :=
  let a := r.addr
  let d := noteSync (homeStore d a 16 true) a
  let put (d : Dev) (o : Nat) (v : Word) : Dev := { d with mem := d.mem.store (a + o) (toLe 8 v.toNat) false }
  let old := d.mem.word (a + 8)
  let merged (st : Word) : Word := mergeState old (rtsDie st) (rtsEpoch st) (rtsTime st)
  match r.sync, r.atomic, r.write with
  | .bind w, _, _ => match (List.range 4).find? fun k => !bit (d.mem.word (a + 32 + 8 * k)) 63 with
    | some k => put d (32 + 8 * k) w
    | none => d
  | .unbind k, _, _ => put d (32 + 8 * (k % 4)) (setBit (d.mem.word (a + 32 + 8 * (k % 4))) 63 false)
  | part, some (op, b, c), _ =>
    if d.mem.anyPoison a 8 then d
    else
      let d' := put d 0 (BitVec.ofNat 64 (amoNew op 64 false (d.mem.word a).toNat b.toNat c.toNat))
      match part with
      | .release st => put d' 8 (merged st)
      | _ => d'
  | part, none, some bs =>
    let d := put d 0 (BitVec.ofNat 64 (leNat (bs.take 8)))
    put d 8 (match part with
      | .release st => st
      | _ => 0)
  | _, none, none => d

/-- A peer's write, atomic or envelope performs (R359, R360, R362; spec/16 R386): tags are cleared but for an envelope's,
which passes the filter of R277. -/
def peerPerform (d : Dev) (part : Nat) (r : PeerRequest) : Dev :=
  if r.sync ≠ .no then peerSync d r
  else match r.atomic, r.write with
  | some (op, b, c), _ =>
    let d := homeStore d r.addr r.len true
    let k := 8 * r.len
    let new := amoNew op k false (d.mem.num r.addr r.len) (b.toNat % 2 ^ k) (c.toNat % 2 ^ k)
    if d.mem.anyPoison r.addr r.len then d else plainStore d r.addr (toLe r.len new) false
  | none, some bs =>
    let bs := (bs ++ List.replicate r.len 0).take r.len
    let d := (lineRuns r.addr (r.len + 1) r.len).foldl (fun d x => homeStore d x.1 x.2 true) d
    let d := plainStore d r.addr bs r.poisoned
    if r.envelope && r.len = 16 && r.addr % 16 = 0 then
      { d with mem := d.mem.setTag (r.addr / 16) (sweepFilter d part (Cap.ofBytes bs true)).tag }
    else d
  | none, none => homesRead d r.addr r.len

/-- REMOTE_REQUEST (R359). None: the bytes wait for a carve-out change or an import. -/
def remoteRequest (r : PeerRequest) (R : CtlRegs) (m : Mach) : Option Mach :=
  if !(m.d.pkg.ports.getD r.port {}).up || 18 ≤ r.port || 2 ^ 40 ≤ r.addr then some m
  else match admitRange (peerAdmit R m.d r) r.addr r.len with
  | .no => some m
  | .busy => none
  | .egress part =>
    match egress m.d (r.port + 1) r.len with
    | (d, true) => some { m with d := peerPerform d part r }
    | (d, false) => some { m with d := d }
  | .yes part => some { m with d := peerPerform m.d part r }

/-- Do two requests share their source and their ordering lane (R358)? -/
def sameLane (a b : PeerRequest) : Bool := a.source == b.source && laneOf a.addr == laneOf b.addr

/-- A peer's request arrives, or is tried again: it performs, or waits at the home behind those of its source and lane that wait
(R358), for the bytes that it reaches, or for the host's answer to a back-invalidation (R353). -/
def peerArrives (R : CtlRegs) (m : Mach) (r : PeerRequest) : Mach :=
  let wait (lines : List Nat) : Mach := { m with d := { m.d with pkg := { m.d.pkg with
    peersWait := m.d.pkg.peersWait ++ [r], backInv := lines.foldl (fun (t : Tab Bool) l => t.insert l true) m.d.pkg.backInv } } }
  if m.d.pkg.peersWait.any (sameLane r) then wait []
  else match remoteRequest r R m with
  | none => wait []
  | some m' =>
    let asked := m'.d.pkg.asking.drop m.d.pkg.asking.length
    if asked.isEmpty then m' else wait asked

/-- The requests that wait are tried again, in order. -/
def drainPeers (R : CtlRegs) (m : Mach) : Mach :=
  m.d.pkg.peersWait.foldl (peerArrives R) { m with d := { m.d with pkg := { m.d.pkg with peersWait := [] } } }

/-- REMOTE_REQUEST (R359). -/
def execRemoteRequest (r : PeerRequest) (s : State) : Host.Outcome State Fault Refusal := act (fun R m => peerArrives R m r) s

/-- The host writes one of its own lines, named by a window's address: a lost line is lost no longer (R354). -/
def hostOwnWrite (d : Dev) (a n : Nat) : Dev :=
  let found (t : Tab Bool) (o : Option Nat) : Tab Bool := match o with
    | some h => t.set (h / 128) false false
    | none => t
  { d with pkg := { d.pkg with lostLines :=
      (lineRuns a (n + 1) n).foldl (fun (t : Tab Bool) x => found t (hostAddr? d.pkg x.1)) d.pkg.lostLines } }

/-- The host's accesses to device memory (R353, R356): a posted write performs at the homes; in CXL mode a read lets the host
hold the lines. The host's own copy needs no back-invalidation, and a device write that waits for one goes on waiting. -/
def hostPerform (d : Dev) (r : HostRequest) : Dev :=
  let ls := (lineRuns r.addr (r.len + 1) r.len).map fun x => x.1 / 128
  match r.write with
  | some bs =>
    let held := ls.foldl (fun (t : Tab Bool) l => t.set l false false) d.pkg.hostHeld
    let e := partyStore { d with pkg := { d.pkg with hostHeld := held } } r.addr ((bs ++ List.replicate r.len 0).take r.len) r.poisoned true
    { e with pkg := { e.pkg with hostHeld := d.pkg.hostHeld } }
  | none =>
    let d := homesRead d r.addr r.len
    if d.pkg.linkCxl then
      { d with pkg := { d.pkg with hostHeld := ls.foldl (fun (t : Tab Bool) l => t.set l true false) d.pkg.hostHeld } }
    else d

/-- One request of the host on device memory: none while it waits. -/
def hostOne (R : CtlRegs) (d : Dev) (r : HostRequest) : Option Dev :=
  match admitRange (hostAdmit R d r) r.addr r.len with
  | .yes _ => some (hostPerform d r)
  | .egress _ =>
    match egress d 0 r.len with
    | (d, true) => some (hostPerform d r)
    | (d, false) => some d
  | .busy => none
  | .no => some d

/-- Posted writes perform one after another in the order of their arrival, up to one that waits (R356). -/
def drainPosted (R : CtlRegs) : List HostRequest → Dev → Dev
  | [], d => { d with pkg := { d.pkg with posted := [] } }
  | r :: rs, d => match hostOne R d r with
    | some d => drainPosted R rs d
    | none => { d with pkg := { d.pkg with posted := r :: rs } }

/-- HOST_REQUEST (R356): a posted write goes behind those that wait; a read passes none of them. -/
def hostRequest (r : HostRequest) (R : CtlRegs) (m : Mach) : Option Mach :=
  if !m.d.pkg.linkUp then some m
  else match spaceOf r.addr with
  | .host _ => some (if r.write.isSome then { m with d := hostOwnWrite m.d r.addr r.len } else m)
  | _ =>
    if r.write.isSome then some { m with d := drainPosted R (m.d.pkg.posted ++ [r]) m.d }
    else
      let d := drainPosted R m.d.pkg.posted m.d
      if d.pkg.posted.isEmpty then (hostOne R d r).map fun d => { m with d := d } else none

/-- HOST_REQUEST (R356). -/
def execHostRequest (r : HostRequest) (s : State) : Host.Outcome State Fault Refusal := actOrWait (hostRequest r) s

/-! ### Partition resets (R355, R368) -/

/-- Contexts of a condition are removed with REASON 4, each with a postmark of type 5 (R368, steps 2 and 6). -/
def removeContexts (m : Mach) (p : Ctx → Bool) : Mach :=
  ((m.d.ctxs.filter fun e => e.2.live && p e.2).map fun e => e.1).foldl (fun m c =>
    let part := (m.d.ctx c).part
    let m := removeContext m c {}
    { m with d := postmark m.d 5 part c 4 }) m

/-- A protected partition starts again (R368, steps 3 and 4; spec/16 R280): its memory is zeroed, its key renewed, its passes
abandoned, its sessions dropped, and an import into it comes to nothing. -/
def resetProtected (d : Dev) (k : Nat) : Dev :=
  let p := d.parts.getD k {}
  let d := zeroQuarters d p.quarters
  let d := { d.setPart k { p with key := d.nextId, nextSet := [], running := none, ide := false } with nextId := d.nextId + 1 }
  { d with pkg := { d.pkg with
      ports := d.pkg.ports.map fun (e : Nat × Port) =>
        let ks := e.2.keyed.filter fun (x : Nat × Option Nat) => x.1 ≠ k
        (e.1, { e.2 with keyed := ks, ide := !ks.isEmpty })
      importing := d.pkg.importing.map fun i => (i.1, i.2.1, i.2.2.1, i.2.2.2 && quarterOut p i.2.1) } }
where
  /-- Does an address lie outside a partition's quarters? -/
  quarterOut (p : Part) (a : Nat) : Bool := match quarterOf a with
    | some q => !bit p.quarters q
    | none => true

/-- Partitions of a condition are reset (R368). -/
def resetPartitions (m : Mach) (f : Nat → Part → Bool) : Mach :=
  let ks := (m.d.parts.filter fun e => f e.1 e.2).map fun e => e.1
  let m := removeContexts m fun x => ks.contains x.part
  let d := (ks.filter fun k => (m.d.parts.getD k {}).prot).foldl resetProtected m.d
  { m with d := { d with parts := d.parts.map fun (e : Nat × Part) =>
      (e.1, if ks.contains e.1 then { e.2 with ide := false, nextSet := [], running := none, regsDone := false } else e.2) } }

/-- HOT_RESET (R368, R371): it waits while new firmware takes effect. -/
def hotReset (linkUp : Bool) (m : Mach) : Option Mach :=
  if m.d.pkg.fwState == 2 then none
  else
    let m := { m with d := writeBackHost m.d (linkUp && m.d.pkg.linkUp) false fun _ => true }
    let m := removeContexts m fun _ => true
    let m := resetPartitions m fun _ _ => true
    some { m with d := { m.d with pkg := { m.d.pkg with linkUp := false, hostHeld := [], backInv := [], posted := [] } } }

/-- HOT_RESET (R368). -/
def execHotReset (linkUp : Bool) (s : State) : Host.Outcome State Fault Refusal := actOrWait (fun _ m => hotReset linkUp m) s

/-- PROBE_TIMEOUT (R355): a die fault is reported; modified host lines are written back, and the affected partitions are reset
(R368). -/
def probeTimeout (die : Nat) (m : Mach) : Mach :=
  if 4 ≤ die then m
  else
    let d := post m.d evDieFault die 0 (BitVec.ofNat 64 die) 0
    let d := writeBackHost (d.setDie die { (d.die die) with faulted := true }) d.pkg.linkUp false fun _ => true
    resetPartitions { m with d := d } fun _ p => partOnDie p die

/-- PROBE_TIMEOUT (R355). -/
def execProbeTimeout (die : Nat) (s : State) : Host.Outcome State Fault Refusal := act (fun _ m => probeTimeout die m) s

/-! ### Ports and peers (R358, R370) -/

/-- PORT_DOWN (R370, R371): the port goes down, and what it had in flight moves to the next port of its lane (R358). -/
def portDown (port : Nat) (d : Dev) : Dev :=
  if 18 ≤ port then d
  else
    let d := onPort d port fun p => { p with up := false, ide := false, keyed := [] }
    { d with remotes := d.remotes.map fun (r : Remote) => match spaceOf r.addr with
      | .peer j _ => if r.port = some port then { r with port := lanePort d j r.lane } else r
      | _ => r }

/-- PORT_DOWN (R370). -/
def execPortDown (port : Nat) (s : State) : Host.Outcome State Fault Refusal := act (fun _ m => { m with d := portDown port m.d }) s

/-- IDLE_FLIT (R370, R357): a flit crosses a port that is up, with its link-level retries, which RETRY counts up to its
greatest value. -/
def idleFlit (port retries : Nat) (d : Dev) : Dev :=
  if 18 ≤ port || !(d.pkg.ports.getD port {}).up then d
  else onPort d port fun p => { p with retry := BitVec.ofNat 16 (min 65535 (p.retry.toNat + retries)) }

/-- IDLE_FLIT (R370): a free number of retries, since none is given (notes/assumptions/6). -/
def execIdleFlit (port : Nat) (s : State) : Host.Outcome State Fault Refusal :=
  .next { s with dev := idleFlit port (Config.freeValue s.fresh).toNat s.dev, fresh := s.fresh + 1 }

/-- Does a request go to a peer? -/
def toPeer (j : Nat) (r : Remote) : Bool := match spaceOf r.addr with
  | .peer k _ => k == j
  | _ => false

/-- One operation loses the part of it that went to a peer (R361): zeros for its loads, and FXPEER in its group. -/
def loseOp (j : Nat) (m : Mach) (k : Nat × Nat) : Mach :=
  let (gid, op) := k
  let here (r : Remote) : Bool := r.gid == gid && r.flight == op
  let rest := m.d.remotes.filter fun r => here r && !toPeer j r
  let mine := m.d.remotes.filter fun r => here r && toPeer j r
  if gid = 0 then
    let m := { m with d := { m.d with remotes := m.d.remotes.filter fun r => !(here r && toPeer j r) } }
    mine.foldl (fun m r => engineAnswered m ⟨r, List.replicate r.len 0, [], true⟩) m
  else if rest.isEmpty || mine.any (fun r => r.wait.isBlock) then completeRemote gid op (m.d.remotes.map fun _ => true) [] [] m
  else
    let m := m.hold gid .fx op cFXPEER
    let m := { m with d := { m.d with remotes := m.d.remotes.filter fun r => !(here r && toPeer j r) } }
    m.onGid gid fun g => mine.foldl (fun g r => deliver g r.wait r.addr (List.replicate r.len 0) false) g

/-- Collectives with a lost member complete with CLPEER (R366). -/
def loseMembers (j : Nat) (m : Mach) : Mach :=
  let ops := m.d.dies.flatMap fun e => (e.2.coll.filter fun o => (clPeers m.d o.ctrl).contains j).map fun o => (e.1, o)
  ops.foldl (fun m e => failCl m e.1 e.2 cCLPEER) m

/-- PEER_LOST (R370, step 3): every operation with the peer fails, its sessions are gone, and each context that used it is told. -/
def peerLost (j : Nat) (m : Mach) : Mach :=
  if Config.peers ≤ j || ownIndex m.d j then m
  else
    let m := { m with d := { m.d with pkg := { m.d.pkg with
      lostPeers := m.d.pkg.lostPeers.set j (List.range 18) []
      ports := m.d.pkg.ports.map fun (e : Nat × Port) =>
        let ks := e.2.keyed.filter fun (k : Nat × Option Nat) => k.2 ≠ some j
        (e.1, { e.2 with keyed := ks, ide := !ks.isEmpty }) } } }
    let ops := ((m.d.remotes.filter (toPeer j)).map fun r => (r.gid, r.flight)).eraseDups
    let m := ops.foldl (loseOp j) m
    let m := loseMembers j m
    let users := (m.d.ctxs.filter fun e => e.2.live && e.2.peers.contains j).map fun e => e.1
    { m with d := users.foldl (fun d c => post d evPeerLost j c (BitVec.ofNat 64 j) 0) m.d }

/-- PEER_LOST (R370). -/
def execPeerLost (peer : Nat) (s : State) : Host.Outcome State Fault Refusal := act (fun _ m => peerLost peer m) s

/-! ### Firmware activation (R369) -/

/-- FW_ACTIVATE (R369, steps 1 and 2). -/
def execFwActivate (v : Word) (s : State) : Host.Outcome State Fault Refusal := act (fun _ m => { m with d := fwGo m.d v }) s

/-- VQACK (R369, steps 3 and 4): when no function is left, STATE becomes 2. -/
def vqack (fn : Nat) (v : Word) (d : Dev) : Dev :=
  if !(bit v 0) || d.pkg.fwState ≠ 1 then d
  else
    let l := d.pkg.fwPend.filter (· ≠ fn)
    { d with pkg := { d.pkg with fwPend := l, fwState := if l.isEmpty then 2 else 1 } }

/-- VQACK (R369). -/
def execVqack (fn : Nat) (v : Word) (s : State) : Host.Outcome State Fault Refusal := act (fun _ m => { m with d := vqack fn v m.d }) s

/-- A RESUME event for each bound function. -/
def resumeAll (d : Dev) : Dev := d.pkg.vfs.foldl (fun d e => post d evResume e.1 0 0 0) d

/-- FW_ACTIVATE_SWITCH (R369, steps 4 and 5). -/
def fwSwitch (d : Dev) : Dev :=
  if d.pkg.fwState ≠ 2 then d
  else
    let d := postmark (resumeAll d) 8 0 0 (d.pkg.fwVersion + 1)
    { d with pkg := { d.pkg with fwState := 0, fwStatus := 0, fwVersion := d.pkg.fwVersion + 1 } }

/-- FW_ACTIVATE_SWITCH (R369). -/
def execFwActivateSwitch (s : State) : Host.Outcome State Fault Refusal := act (fun _ m => { m with d := fwSwitch m.d }) s

/-- FW_ACTIVATE_TIMEOUT (R369): the old firmware stays in force. -/
def fwTimeout (d : Dev) : Dev :=
  if d.pkg.fwState ≠ 1 then d
  else
    let d := resumeAll d
    { d with pkg := { d.pkg with fwState := 0, fwStatus := 5, fwPend := [] } }

/-- FW_ACTIVATE_TIMEOUT (R369). -/
def execFwActivateTimeout (s : State) : Host.Outcome State Fault Refusal := act (fun _ m => { m with d := fwTimeout m.d }) s

/-! ### Registers with no behaviour of their own (R330, R341) -/

/-- The postmaster's own write of EGRn (R341): LIMIT, and WIN where it is at least 1. -/
def egressReg (R : CtlRegs) (d : Dev) (o : Nat) (v : Word) : CtlRegs × Dev :=
  let n := (o - 0x2000) / 16
  if o % 16 = 8 then (R, d)
  else
    let w := v.extractLsb' 44 20
    (if w = 0 then R else { R with win := R.win.set n w 1000 }
     , { d with pkg := { d.pkg with limit := d.pkg.limit.set n (v.extractLsb' 0 44) 0 } })

/-- The registers of the egress limiters. -/
def egressAddr (a : Nat) : Bool := decide (Config.pkgBase + 0x2000 ≤ a) && decide (a < Config.pkgBase + 0x2130)

/-- REGISTER_WRITE (R330): a write of 8 bytes; reserved fields and unassigned offsets ignore it. EGRn takes the postmaster
core's writes alone, which is what a REGISTER_WRITE of it stands for (notes/assumptions/33). -/
def registerWrite (addr : Nat) (v : Word) (s : State) : State :=
  if !regBlock addr || addr % 8 ≠ 0 then s
  else if egressAddr addr then
    { s with regs := (egressReg s.regs s.dev (addr - Config.pkgBase) v).1, dev := (egressReg s.regs s.dev (addr - Config.pkgBase) v).2 }
  else s.writeReg addr v

/-- REGISTER_WRITE (R330). -/
def execRegisterWrite (addr : Nat) (v : Word) (s : State) : Host.Outcome State Fault Refusal := s.adopt (registerWrite addr v s)

end Sys2Proof.Machine
end

