-- ==== Sys2Proof/Machine/FrontEnd.lean ====
section
/-! DEFINITION. The die front end: doorbells, the sorting core's rounds, the seven packets, HAT waits, and node launches
(spec/18 R297-R313, R322; spec/22 R349). -/

namespace Sys2Proof.Machine

/-! ### Doorbells and slots -/

/-- DOORBELL (R300), behind the host's posted writes that arrived before it (spec/22 R356). -/
def execDoorbell (die : Nat) (v : Word) (s : State) : Host.Outcome State Fault Refusal :=
  actOrWait (fun _ m => if !m.d.pkg.posted.isEmpty then none
    else some (if 4 ≤ die then m else { m with d := ringDoorbell m.d die v none })) s

/-- VDOOR (spec/22 R349): accepted only for a record of the function's partition, and behind the host's posted writes. -/
def execVdoor (fn die : Nat) (v : Word) (s : State) : Host.Outcome State Fault Refusal :=
  actOrWait (fun _ m => if !m.d.pkg.posted.isEmpty then none else some (match m.d.pkg.vfs.find? fn with
    | some p => if 4 ≤ die then m else { m with d := ringDoorbell m.d die v (some p) }
    | none => m)) s

/-- DBERR_CLEAR (R299). -/
def execDberrClear (die : Nat) (s : State) : Host.Outcome State Fault Refusal :=
  act (fun _ m => if 4 ≤ die then m else { m with d := dberrZero m.d die }) s

/-- QUEUE_MAP_PENDING (R300). -/
def execQueueMapPending (die : Nat) (s : State) : Host.Outcome State Fault Refusal :=
  act (fun _ m => { m with d := queueMapPending die m.d }) s

/-- A slot of a die, and its change. -/
def slot? (d : Dev) (die slot : Nat) : Option QSlot := (d.die die).slots.find? slot
def setSlot (d : Dev) (die slot : Nat) (f : QSlot → QSlot) : Dev :=
  let x := d.die die
  d.setDie die { x with slots := x.slots.modify slot f }

/-! ### What a packet's processing may find -/

/-- Processing goes on with a value, is held, or fails with an error code (R304). A packet that is held in its pass holds up the
passes after it (an effect that is not yet performed, R307); any other leaves the round (a page not resident, a condition that does
not hold). -/
inductive Fe (α : Type) where
  | ok (m : Mach) (x : α)
  | hold (m : Mach) (inPass : Bool)
  | err (m : Mach) (code : Nat)

/-- Go on where the value is there. -/
def Fe.then {α β : Type} (r : Fe α) (k : Mach → α → Fe β) : Fe β :=
  match r with
  | .ok m x => k m x
  | .hold m inPass => .hold m inPass
  | .err m c => .err m c

/-- Where a packet stands: its die and slot, and the context of its queue. -/
structure FeAt where
  die : Nat
  slot : Nat
  ctx : Nat
  deriving DecidableEq, Repr

/-- The front end as a party for a context. -/
def feParty (d : Dev) (ctx : Nat) : Party := engineParty d (d.ctx ctx).colour (d.ctx ctx).part 0 false

/-- A check of R153 for a packet; a page that is not resident holds the slot (R306). -/
def feCheck (R : CtlRegs) (m : Mach) (at_ : FeAt) (c : Cap) (need : Need) (a n : Nat) : Fe Unit :=
  match capCheck R m.d c (feParty m.d at_.ctx) need a n with
  | .ok => .ok m ()
  | .fail _ => .err m 3
  | .busy => .hold m true
  | .miss w =>
    let d := match hatWait m.d w with
      | .asked d => d
      | _ => m.d
    .hold { m with d := setSlot d at_.die at_.slot fun q => { q with st := 3, missing := some w } } false

/-- Something done behind a port for a packet: the bytes that came back, of each line; held until they have. -/
def feRemote (m : Mach) (at_ : FeAt) (a n : Nat) (write : Option (List Byte)) (atomic : Option (AmoOp × Word × Word))
    (sync : SyncPart := .no) : Fe (List Byte × Bool) :=
  let got := ((slot? m.d at_.die at_.slot).map fun q => q.got).getD []
  let parts := (lineRuns a (n + 1) n).map fun r => got.find? fun e => e.1 == r.1
  if parts.all (·.isSome) then .ok m (parts.flatMap fun e => (e.map fun x => x.2.1).getD [], parts.any fun e => e.any fun x => x.2.2)
  else
    if m.d.remotes.any fun r => r.wait == .front at_.die at_.slot && r.addr == a then .hold m true
    else
      let d := sendRemote m.d (some at_.ctx) 0 m.d.nextId a n write false (.front at_.die at_.slot)
      .hold { m with d := { d with remotes := d.remotes.map fun (r : Remote) =>
        if r.id = m.d.nextId then { r with atomic := atomic, sync := sync } else r } } true

/-- A block of bytes with the tags of its granules, as the front end reads it (R386): zeros without tags where a sector is
poisoned, with the consumption recorded (notes/assumptions/27). -/
def feRead (m : Mach) (at_ : FeAt) (a n : Nat) : Fe (List Byte × List Bool) :=
  let poisoned (m : Mach) : Fe (List Byte × List Bool) :=
    .ok { m with d := consume m.d at_.ctx 2 } (List.replicate n 0, [])
  if leaves m.d a then
    (feRemote m at_ a n none none).then fun m x => if x.2 then poisoned m else .ok m (x.1, [])
  else
    let a := localAddr m.d a
    let d := (lineRuns a (n + 1) n).foldl (fun d r => homeRead d r.1) m.d
    if d.mem.anyPoison a n then poisoned { m with d := d }
    else .ok { m with d := d } (d.mem.read a n, (List.range ((n + 15) / 16)).map fun i => d.mem.tag (a / 16 + i))

/-- A checked read through a capability. -/
def feLoad (R : CtlRegs) (m : Mach) (at_ : FeAt) (c : Cap) (need : Need) (a n : Nat) : Fe (List Byte × List Bool) :=
  (feCheck R m at_ c need a n).then fun m _ => feRead m at_ a n

/-- The capability of 16 bytes of a block from any offset: it is tagged where every granule that it touches is
(notes/assumptions/28). -/
def fieldCap (bs : List Byte) (tags : List Bool) (o : Nat) : Cap :=
  Cap.ofBytes ((bs.drop o).take 16) (tags.getD (o / 16) false && tags.getD ((o + 15) / 16) false)

/-! ### The end of a packet -/

/-- The slot is ready for its next packet. -/
def QSlot.cleared (q : QSlot) : QSlot :=
  { q with st := 0, pkt := none, passMask := false, watchLine := none, watch := false, missing := none, got := [], ended := none }

/-- Processing of a packet has ended: RDIDX advances with release order at `.y` (R297, R304), and the packet is open until it
completes. A queue that has overrun, or whose slice has expired, loses its eligibility between packets (R305). -/
def advanceSlot (die slot : Nat) (d : Dev) (q : QSlot) : Dev :=
  match q.ended with
  | none => d
  | some (idx, evt, done) =>
    let d := setSlot d die slot QSlot.cleared
    let d := recordStore d die q.qaddr 24 (toLe 8 (idx + 1))
    let d := { d with queues := d.queues.modify q.qaddr fun x =>
      { x with open_ := x.open_ ++ [(idx, evt)], idleAt := d.time, eligible := x.eligible && !x.overrun && !x.lapsed } }
    if done then packetDone d q.qaddr idx else d

/-- A queue enters ERROR (R304): it leaves its slot, RDIDX stays, and the host is told. -/
def queueError (m : Mach) (q code : Nat) : Mach :=
  let ctx := ((m.d.queue? q).map fun x => x.ctx).getD 0
  let d := setQueueState (unmapQueue m.d q) q 3 (some code)
  { m with d := post d evQueueError q ctx (BitVec.ofNat 64 q) (BitVec.ofNat 64 code) }

/-! ### The packets (R302, R303) -/

/-- Header fields. -/
def pktType (bs : List Byte) : Nat := fieldAt (natAt bs 0) 0 8
def pktOrd (bs : List Byte) : Bool := fieldAt (natAt bs 0) 8 1 == 1
def pktEvt (bs : List Byte) : Bool := fieldAt (natAt bs 0) 9 1 == 1

/-- The bytes of the body that the type names, as [from, to) runs. -/
def namedBytes : Nat → List (Nat × Nat)
  | 1 => [(8, 44), (48, 64)]
  | 2 | 3 => [(8, 32)]
  | 4 => [(8, 33)]
  | 5 => [(8, 24)]
  | 6 => [(8, 56)]
  | _ => [(8, 9)]

/-- BADTYPE and BADFIELD, as far as the packet itself shows (R304). -/
def pktFault (bs : List Byte) : Option Nat :=
  let t := pktType bs
  if t = 0 || 7 < t then some 1
  else if fieldAt (natAt bs 0) 10 54 ≠ 0
      || (bs.zipIdx.any fun e => decide (8 ≤ e.2) && e.1 != 0 && !(namedBytes t).any fun r => decide (r.1 ≤ e.2) && decide (e.2 < r.2))
      || (t = 4 && 2 < (bs.getD 32 0).toNat) || (t = 7 && 5 < (bs.getD 8 0).toNat) then some 2
  else none

/-- The order of the passes (R303). -/
def pktPriority : Nat → Nat
  | 4 => 1 | 3 => 2 | 2 => 3 | 7 => 4 | 6 => 5 | 5 => 6 | _ => 7

/-- May the pass of a slot's packet run now: the packet's type is the event's, and no slot of the die is left in an earlier
pass, or before it in its own (R307, R322)? -/
def passTurn (d : Dev) (die slot ty : Nat) : Option QSlot :=
  match slot? d die slot with
  | none => none
  | some q =>
    match q.pkt with
    | none => none
    | some (bs, _) =>
      let pri := pktPriority ty
      if q.passMask && pktType bs == ty && (d.die die).slots.all fun e => !e.2.passMask || (match e.2.pkt with
          | some (b, _) => decide (pri < pktPriority (pktType b)) || (decide (pri = pktPriority (pktType b)) && decide (slot ≤ e.1))
          | none => true)
      then some q else none

/-- The end of a pass (R307): once no slot of the die is left in it, the slots whose packets' processing has ended advance. -/
def endPass (die pri : Nat) (d : Dev) : Dev :=
  let left := (d.die die).slots.any fun e => e.2.passMask && (match e.2.pkt with
    | some (b, _) => pktPriority (pktType b) == pri
    | none => false)
  if left then d else (d.die die).slots.foldl (fun d e => advanceSlot die e.1 d e.2) d

/-- One packet's processing: `body` answers when it has ended, and whether it has completed. A packet whose effect is not performed
yet stays in its pass (R307). -/
def runPacket (ty die slot : Nat) (m : Mach)
    (body : FeAt → QSlot → Nat → List Byte → List Bool → Mach → Fe Bool) : Mach :=
  match passTurn m.d die slot ty with
  | none => m
  | some q =>
    match q.pkt with
    | none => m
    | some (bs, tags) =>
      let at_ : FeAt := ⟨die, slot, q.ctx⟩
      let idx := rdidx m.d q.qaddr
      let m := match pktFault bs with
        | some code => queueError m q.qaddr code
        | none =>
          match body at_ q idx bs tags m with
          | .ok m done => { m with d := setSlot m.d die slot fun q => { q with passMask := false, ended := some (idx, pktEvt bs, done) } }
          | .hold m inPass => { m with d := setSlot m.d die slot fun q => { q with passMask := inPass } }
          | .err m code => queueError m q.qaddr code
      { m with d := endPass die (pktPriority ty) m.d }

/-- The front end's earlier stores stand first. -/
def feOrdered (m : Mach) (at_ : FeAt) : Fe Unit := if m.d.frontOwed.any fun w => w.die == at_.die then .hold m true else .ok m ()

/-- WRITE (R303). -/
def feWrite (R : CtlRegs) (at_ : FeAt) (bs : List Byte) (tags : List Bool) (m : Mach) : Fe Bool :=
  let c := fieldCap bs tags 8
  let a := c.cursor
  let v := (bs.drop 24).take 8
  (feCheck R m at_ c { kinds := [0], perms := pST, write := true } a 8).then fun m _ =>
    if leaves m.d a then (feRemote m at_ a 8 (some v) none).then fun m _ => .ok m true
    else (feOrdered m at_).then fun m _ => .ok { m with d := frontStore m.d at_.die a v false } true

/-- WRITE (R303). -/
def execPktWrite (die slot : Nat) (s : State) : Host.Outcome State Fault Refusal :=
  act (fun R m => runPacket 2 die slot m fun at_ _ _ bs tags m => feWrite R at_ bs tags m) s

/-- SIGNAL (R303): the release covers every write of the die's front end (spec/21 R332), behind a port too. -/
def feSignal (R : CtlRegs) (at_ : FeAt) (bs : List Byte) (tags : List Bool) (m : Mach) : Fe Bool :=
  let c := fieldCap bs tags 8
  let a := c.base.toNat
  let add := natAt bs 24
  (feCheck R m at_ c { kinds := [3], perms := pATOM, write := true } a 8).then fun m _ =>
    (feOrdered m at_).then fun m _ =>
    if leaves m.d a then
      let t := (m.d.die at_.die).feTime
      let st := stateOf at_.die (m.d.die at_.die).epoch t
      (feRemote { m with d := raiseRmax m.d at_.die t } at_ a 8 none (some (.add, BitVec.ofNat 64 add, 0)) (.release st)).then
        fun m _ => .ok m true
    else .ok { m with d := frontAdd m.d at_.die at_.ctx (localAddr m.d a) add } true

/-- SIGNAL (R303). -/
def execPktSignal (die slot : Nat) (s : State) : Host.Outcome State Fault Refusal :=
  act (fun R m => runPacket 3 die slot m fun at_ _ _ bs tags m => feSignal R at_ bs tags m) s

/-- Does a WAIT's condition hold (R303)? -/
def waitHolds (cond v ref : Nat) : Bool :=
  match cond with
  | 0 => decide (ref ≤ v)
  | 1 => v == ref
  | _ => v != ref

/-- WAIT (R303): an unsatisfied one watches its word's line. -/
def feWait (R : CtlRegs) (at_ : FeAt) (bs : List Byte) (tags : List Bool) (m : Mach) : Fe Bool :=
  let c := fieldCap bs tags 8
  let a := if c.kind = kSYNC then c.base.toNat else c.cursor
  (feLoad R m at_ c { kinds := [0, 3], perms := pLD, write := false } a 8).then fun m x =>
    if waitHolds (bs.getD 32 0).toNat (leNat x.1) (natAt bs 24) then .ok m true
    else .hold { m with d := setSlot m.d at_.die at_.slot fun q =>
      { q with st := 2, watchLine := some (localAddr m.d a / 128), watch := false, got := [] } } false

/-- WAIT (R303). -/
def execPktWait (die slot : Nat) (s : State) : Host.Outcome State Fault Refusal :=
  act (fun R m => runPacket 4 die slot m fun at_ _ _ bs tags m => feWait R at_ bs tags m) s

/-- WAIT_REREAD (R303): the 10 µs re-read falls due. -/
def execWaitReread (die slot : Nat) (s : State) : Host.Outcome State Fault Refusal :=
  act (fun _ m => { m with d := setSlot m.d die slot fun q => if q.watchLine.isSome then { q with watch := true } else q }) s

/-- The group that a COPY packet's operation runs for: none, with the context's colour and partition. -/
def copyGroup (d : Dev) (at_ : FeAt) (cl : Nat) : Group :=
  { die := at_.die, core := cl % Config.clustersPerDie * 4, ctx := at_.ctx, colour := (d.ctx at_.ctx).colour
    part := (d.ctx at_.ctx).part }

/-- COPY (R303): the block enters the engine of a cluster of the die, and completes with its operation. -/
def feCopy (R : CtlRegs) (at_ : FeAt) (cl q idx : Nat) (bs : List Byte) (tags : List Bool) (m : Mach) : Fe Bool :=
  let c := fieldCap bs tags 8
  let a := c.base.toNat
  if cl / Config.clustersPerDie ≠ at_.die || 32 ≤ (m.d.cluster cl).copies.length then .hold m true
  else (feLoad R m at_ c needCmd a 64).then fun m x =>
    let b : CmdBlock := ⟨x.1, (List.range 4).map fun i =>
      (sweepFilter m.d (m.d.ctx at_.ctx).part (Cap.ofBytes ((x.1.drop (16 * i)).take 16) (x.2.getD i false))).tag⟩
    if ctrlBuffer (b.word 40) then .err m 2
    else
      let o := { copyOf m.d (copyGroup m.d at_ cl) 0 b with packet := some (q, idx) }
      let y := m.d.cluster cl
      .ok { m with d := { m.d.setCluster cl { y with copies := y.copies ++ [o] } with nextId := m.d.nextId + 1 } } false

/-- COPY (R303). -/
def execPktCopy (die slot cl : Nat) (s : State) : Host.Outcome State Fault Refusal :=
  act (fun R m => runPacket 5 die slot m fun at_ q idx bs tags m => feCopy R at_ cl q.qaddr idx bs tags m) s

/-- Has a queue completed every packet below an index? -/
def queueReached (d : Dev) (q idx : Nat) : Bool :=
  decide (idx ≤ rdidx d q) && match d.queue? q with
    | some x => x.open_.all fun e => decide (idx ≤ e.1)
    | none => true

/-- BARRIER (R303): an untagged field names no queue. -/
def feBarrier (R : CtlRegs) (at_ : FeAt) (bs : List Byte) (tags : List Bool) (m : Mach) : Fe Bool :=
  let one (m : Mach) (o : Nat) : Fe Bool :=
    let c := fieldCap bs tags o
    if !c.tag then .ok m true
    else (feCheck R m at_ c { kinds := [6], perms := 0, write := false, aligned := false } c.base.toNat 64).then fun m _ =>
      let m := { m with d := readRecord m.d (c.base.toNat / 64) }
      .ok m (queueReached m.d (c.base.toNat / 64) (natAt bs (o + 16)))
  (one m 8).then fun m x => (one m 32).then fun m y =>
    if x && y then .ok m true else .hold { m with d := setSlot m.d at_.die at_.slot fun q => { q with st := 1 } } false

/-- BARRIER (R303). -/
def execPktBarrier (die slot : Nat) (s : State) : Host.Outcome State Fault Refusal :=
  act (fun R m => runPacket 6 die slot m fun at_ _ _ bs tags m => feBarrier R at_ bs tags m) s

/-- FENCE (R303): every earlier packet of the queue has completed; then it fences at SCOPE, which at `.d` and wider raises RMAX
to the time of the front end's writes (spec/16 R266, spec/21 R332). -/
def feFence (q idx scope : Nat) (at_ : FeAt) (m : Mach) : Fe Bool :=
  if queueReached m.d q idx then .ok { m with d := if 3 ≤ scope then raiseRmax m.d at_.die (m.d.die at_.die).feTime else m.d } true
  else .hold { m with d := setSlot m.d at_.die at_.slot fun q => { q with st := 1 } } false

/-- FENCE (R303). -/
def execPktFence (die slot : Nat) (s : State) : Host.Outcome State Fault Refusal :=
  act (fun _ m => runPacket 7 die slot m fun at_ q idx bs _ m => feFence q.qaddr idx (bs.getD 8 0).toNat at_ m) s

/-! ### LAUNCH (R308-R312) -/

/-- How many teams of a kernel an empty core, or pair, holds; none for as many as are asked. -/
def corePlaces (k : Kernel) : Nat :=
  let byScratch := if k.scratchKiB = 0 then 16 else 256 / k.scratchKiB
  if k.team ≤ 16 then min (16 / k.team) byScratch else 1

/-- Could the partition, empty, hold every team of a `coop` launch at once (R311, R317)? -/
def coopPossible (d : Dev) (p : Part) (k : Kernel) (teams : Nat) : Bool :=
  let clusters := (List.range 192).filter fun c => coreInPart p (c / 48) (c % 48 * 4)
  let n := clusters.length
  let per := if k.team ≤ 16 then 4 * corePlaces k else 2
  if d.pkg.stage == 7 then false
  else if k.dual then decide (2 * teams ≤ n * min per teams) else decide (teams ≤ n * per)

/-- The launch registers of an argument block (R309). -/
def argScalars (bs : List Byte) : Tab Word :=
  (List.range 15).foldl (fun t i => t.set (i + 1) (BitVec.ofNat 64 (natAt bs (8 * (i + 1)))) 0) []
def argCaps (bs : List Byte) (tags : List Bool) (ldc : Bool) : Tab Cap :=
  (List.range 15).foldl (fun t i =>
    let c := fieldCap bs tags (128 + 16 * (i + 1))
    t.set (i + 1) { c with tag := c.tag && ldc } {}) []

/-- The launch enters: its teams wait for admission, and a node launch counts from DONE (R309, R313). -/
def enterLaunch (m : Mach) (at_ : FeAt) (q idx : Nat) (evt : Bool) (k : Kernel) (teams : Nat) (args : Cap) (x : List Byte × List Bool)
    (compl : Cap) : Mach :=
  let at128 := localAddr m.d (k.bag.base.toNat + 128)
  let m := if k.node then { m with d := homeRead m.d at128 } else m
  let done := if k.node then m.d.mem.num at128 8 else 0
  let l : Launch :=
    { ctx := at_.ctx, die := at_.die, queue := q, index := idx, evt := evt, kernel := k, argS := argScalars x.1
      argC := argCaps x.1 x.2 (args.has pLDC), teams := teams, compl := compl, start := m.d.time, nodeFrom := done, nodeL := done }
  { m with d := { m.d.setLaunch m.d.nextId l with nextId := m.d.nextId + 1 } }

/-- LAUNCH (R303, R308-R311). -/
def feLaunch (R : CtlRegs) (at_ : FeAt) (q idx : Nat) (bs : List Byte) (tags : List Bool) (m : Mach) : Fe Bool :=
  let kd := fieldCap bs tags 8
  let args := fieldCap bs tags 24
  let compl := fieldCap bs tags 48
  let teams := natAt bs 40 % 2 ^ 32
  let any (kind : Nat) (p : BitVec 12) (w : Bool) : Need := { kinds := [kind], perms := p, write := w, aligned := false }
  (feLoad R m at_ kd (any kCODE pX false) kd.cursor 128).then fun m x =>
  (feCheck R m at_ compl (any kDATA pST true) compl.cursor 64).then fun m _ =>
  (feLoad R m at_ args (any kDATA pLD false) args.cursor 384).then fun m y =>
    let tagsOf := if args.cursor % 16 = 0 then y.2 else []
    match (if kd.cursor % 64 = 0 then kernelOf x.1 x.2 else none) with
    | none => .err m 5
    | some k =>
      let part := m.d.parts.getD (m.d.ctx at_.ctx).part {}
      if teams = 0 && !k.node then .err m 2
      else if k.coop && !coopPossible m.d part k teams then .err m 6
      else .ok (enterLaunch m at_ q idx (pktEvt bs) k teams args (y.1, tagsOf) compl) false

/-- LAUNCH (R309): a node launch of no records ends at once. -/
def execPktLaunch (die slot : Nat) (s : State) : Host.Outcome State Fault Refusal :=
  act (fun R m =>
    let key := m.d.nextId
    let m' := runPacket 1 die slot m fun at_ q idx bs tags m => feLaunch R at_ q.qaddr idx bs tags m
    if (m'.d.launches.find? key).isSome then endLaunch m' key else m') s

/-! ### Rounds -/

/-- The front end reads a queue record (R297, R386): the bytes, and whether RING has its tag. -/
def feRecord (m : Mach) (at_ : FeAt) (q : Nat) : Fe (List Byte × List Bool) :=
  (feRead m at_ (64 * q) 64).then fun m x =>
    let d := setSlot m.d at_.die at_.slot fun s => { s with got := s.got.filter fun e => e.1 ≠ 64 * q }
    .ok { m with d := if leaves d (64 * q) then { d with queues := d.queues.modify q fun y => { y with seen := x.1 } } else d } x

/-- Fetch the next packet of a slot for a round (R302, R307): none where nothing may start yet. -/
def fetchPacket (R : CtlRegs) (m : Mach) (at_ : FeAt) (q : QSlot) : Fe (Option (List Byte × List Bool)) :=
  (feRecord m at_ q.qaddr).then fun m r =>
    let ring := Cap.ofBytes (r.1.take 16) (r.2.headD false)
    let rd := natAt r.1 24
    let wr := natAt r.1 16
    let n := (ring.top - ring.base).toNat / 64
    if wr = rd then .ok m none
    else if n < (wr + 2 ^ 64 - rd) % 2 ^ 64 then .err m 4
    else
      let a := ring.base.toNat + 64 * (rd % max n 1)
      (feLoad R m at_ ring { kinds := [0], perms := pLD, write := false, aligned := false } a 64).then fun m x => .ok m (some x)

/-- Has a packet that has no effect until it completes been fetched (R305)? Its processing may stop and start again. -/
def mayRestart (bs : List Byte) : Bool := pktType bs == 4 || pktType bs == 6 || pktType bs == 7

/-- One slot of a round (R307): a packet that may start joins once it is fetched (R304, R305), an unsatisfied WAIT only when its
line has been written or its re-read is due; a packet in processing goes on. -/
def roundSlot (R : CtlRegs) (m : Mach) (die : Nat) (slot : Nat) (q : QSlot) : Mach :=
  let at_ : FeAt := ⟨die, slot, q.ctx⟩
  let x := (m.d.queue? q.qaddr).getD { ctx := q.ctx }
  let join (m : Mach) : Mach := { m with d := setSlot m.d die slot fun q => { q with passMask := true, st := 1, missing := none } }
  let fetch (_ : Unit) : Mach :=
    match fetchPacket R m at_ q with
    | .hold m _ => m
    | .err m code => queueError m q.qaddr code
    | .ok m none => m
    | .ok m (some (bs, tags)) =>
      if pktOrd bs && !x.open_.isEmpty then { m with d := setSlot m.d die slot fun q => { q with st := 0, missing := none } }
      else join { m with d := setSlot m.d die slot fun q => { q with pkt := some (bs, tags), watchLine := none, watch := false, got := [] } }
  match q.pkt with
  | some (bs, _) =>
    if q.ended.isSome then m
    else if !mayRestart bs then join m
    else if x.eligible && (q.watchLine.isNone || q.watch) then (if q.got.isEmpty then fetch () else join m) else m
  | none => if x.eligible then fetch () else m

/-- SORT_ROUND (R307): a round forms its mask once the last one has run its passes. -/
def sortRound (die : Nat) (R : CtlRegs) (m : Mach) : Mach :=
  let slots := (m.d.die die).slots
  if slots.any fun e => e.2.passMask then m
  else slots.foldl (fun m e => roundSlot R m die e.1 e.2) m

/-- SORT_ROUND (R307). -/
def execSortRound (die : Nat) (s : State) : Host.Outcome State Fault Refusal := act (fun R m => sortRound die R m) s

/-- FAULTWAIT (R306): a page still not resident after 1 ms takes the queue out of its slot; the packet has no effect. -/
def faultwait (die slot : Nat) (d : Dev) : Dev :=
  match slot? d die slot with
  | none => d
  | some q =>
    match q.missing with
    | some w => if q.st ≠ 3 || bit (d.pkg.hat.getD w (0, 0)).1 62 then d else setQueueState (unmapQueue d q.qaddr) q.qaddr 2 none
    | none => d

/-- FAULTWAIT (R306). -/
def execFaultwait (die slot : Nat) (s : State) : Host.Outcome State Fault Refusal :=
  act (fun _ m => { m with d := faultwait die slot m.d }) s

/-- HAT_RESIDENT (R306): the queue returns to IDLE and joins the pending list of the die that held it; a stopped queue ignores
the report (R322). -/
def hatResident (die q : Nat) (d : Dev) : Dev :=
  match d.queue? q with
  | none => d
  | some x =>
    if x.state ≠ 2 || x.die ≠ die then d
    else
      let d := setQueueState d q 0 none
      let y := d.die die
      { d.setDie die { y with pending := y.pending ++ [q] } with queues := d.queues.modify q fun x => { x with pending := true } }

/-- HAT_RESIDENT (R306). -/
def execHatResident (die q : Nat) (s : State) : Host.Outcome State Fault Refusal :=
  act (fun _ m => { m with d := hatResident die q m.d }) s

end Sys2Proof.Machine
end

