-- ==== Sys2Proof/Machine/LaneControl.lean ====
section
/-! DEFINITION. Lane control, compares, votes and ballots, exchange within tiles, and the check lane words (spec/07
R127-R140; spec/06 R122; spec/09 R183). -/

namespace Sys2Proof.Machine

/-! ### Structured words (R127-R130) -/

/-- The lanes that are present, of the group's width. -/
def presentLanes (g : Group) : List Nat := (List.range g.width).filter fun l => bit g.present l

/-- New counters of a structured word: kept, or refused with the lanes that would rise above LIMIT (R130). -/
def setCounters (g : Group) (new : Nat → Nat) : Except Word Group :=
  let above := maskOf g.width fun l =>
    bit g.present l && decide (g.counter l < new l) && decide (g.nestLimit.toNat < new l)
  if above ≠ 0 then .error above
  else
    let nest := (presentLanes g).foldl (fun (t : Tab Nat) l => t.set l (new l) 0) g.nest
    let top := (presentLanes g).foldl (fun acc l => max acc (new l)) 0
    .ok { g with nest := nest, nestHigh := if g.nestHigh.toNat < top then BitVec.ofNat 8 top else g.nestHigh }

/-- A structured word: the counters, and a further effect on the group. -/
def structured (op10 : Nat) (w : Wide) (new : Group → View → Nat → Nat) (post : Group → Group → Group) (s : State) :
    Host.Outcome State Fault Refusal :=
  laneWord op10 w (fun _ v _ _ m =>
    match setCounters m.g (new m.g v) with
    | .error above => .trap m cNESTOVF above
    | .ok g => .done { m with g := post m.g g } {}) s

/-- The condition of a structured word in a lane (R127). -/
def condIn (g : Group) (v : View) (w : Wide) (l : Nat) : Bool := w.ms == 0 || bit (viewMask g v w.ms.toNat) l

/-- `v.if` (R128). -/
def execVIf (w : Wide) (s : State) : Host.Outcome State Fault Refusal :=
  structured 0x1C0 w (fun g v l => if 1 ≤ g.counter l then g.counter l + 1 else if condIn g v w l then 0 else 1) (fun _ g => g) s
/-- `v.else` (R128). -/
def execVElse (w : Wide) (s : State) : Host.Outcome State Fault Refusal :=
  structured 0x1C1 w (fun g _ l => if g.counter l = 0 then 1 else if g.counter l = 1 then 0 else g.counter l) (fun _ g => g) s
/-- `v.endif` (R128). -/
def execVEndif (w : Wide) (s : State) : Host.Outcome State Fault Refusal :=
  structured 0x1C2 w (fun g _ l => g.counter l - 1) (fun _ g => g) s
/-- `v.loop` (R128). -/
def execVLoop (w : Wide) (s : State) : Host.Outcome State Fault Refusal :=
  structured 0x1C3 w (fun g _ l => if 1 ≤ g.counter l then g.counter l + 2 else 0) (fun _ g => g) s
/-- The counter after a break or continue of a running lane. -/
def leaveLoop (w : Wide) (k : Nat) (g : Group) (v : View) (l : Nat) : Nat :=
  if bit g.m0 l && condIn g v w l then w.imm.toNat % 256 + k else g.counter l
/-- `v.break` (R128). -/
def execVBreak (w : Wide) (s : State) : Host.Outcome State Fault Refusal := structured 0x1C4 w (leaveLoop w 2) (fun _ g => g) s
/-- `v.cont` (R128). -/
def execVCont (w : Wide) (s : State) : Host.Outcome State Fault Refusal := structured 0x1C5 w (leaveLoop w 1) (fun _ g => g) s

/-- A counter after the first half of `v.endloop`. -/
def endloopHalf (g : Group) (l : Nat) : Nat := if g.counter l = 1 then 0 else g.counter l
/-- Does the loop go on: is some present lane active? -/
def loopGoes (g : Group) : Bool := (presentLanes g).any fun l => endloopHalf g l == 0
/-- `v.endloop` (R128). -/
def execVEndloop (w : Wide) (s : State) : Host.Outcome State Fault Refusal :=
  structured 0x1C6 w
    (fun g _ l => if loopGoes g then endloopHalf g l else endloopHalf g l - 2)
    (fun g g' => if w.ws then g' else g'.laneSetS (w.dst.toNat % 64) (boolWord (loopGoes g))) s

/-! ### Compares (R131, R122) -/

/-- A compare word: the condition of each running lane with its events, 0 and recorded in a poisoned lane (R110). -/
def compareWord (op10 : Nat) (w : Wide) (mode : Nat) (f : Word → Word → Bool × Ev) (s : State) :
    Host.Outcome State Fault Refusal :=
  laneWord op10 w (fun i v run _ m =>
    let t := srcTys op10 w
    let rs := (lanesOf run).map fun l =>
      let a := srcIn m.g v w i.readA w.sa t.1 l
      let b := srcIn m.g v w i.readB w.sb t.2.1 l
      (l, a.2 || b.2, if a.2 || b.2 then (false, evNone) else f a.1 b.1)
    let k := w.dst.toNat % 8
    let old := viewMask m.g v k
    let new := rs.foldl (fun (x : Word) e =>
      let t := e.2.2.1
      setBit x e.1 (if mode = 1 then bit old e.1 && t else if mode = 2 then bit old e.1 || t else t)) old
    let ls := evLanes (rs.map fun e => (e.1, e.2.2.2))
    let d := if rs.any fun e => e.2.1 then consume m.d m.g.ctx 6 else m.d
    .done { g := m.g.laneSetM k run new, d := d } { counts := laneCounts ls, lanes := ls }) s

/-- COND of `v.cmp` on integers. -/
def intCond (c : Nat) (x y : Int) : Bool :=
  match c with
  | 0 => x == y | 1 => x != y | 2 => decide (x < y) | 3 => decide (x ≤ y) | 4 => decide (y < x) | _ => decide (y ≤ x)
/-- COND of `v.cmp` on floating-point values; every relation but `ne` and `un` is false on a NaN. -/
def fpCond (c : Nat) (x y : Num) : Bool :=
  match c with
  | 0 => x.eqv y | 1 => !x.eqv y | 2 => x.ltv y | 3 => x.ltv y || x.eqv y | 4 => y.ltv x | 5 => y.ltv x || x.eqv y
  | 6 => x.isNan || y.isNan | _ => !(x.isNan || y.isNan)

/-- One lane of `v.cmp`. -/
def cmpLane (ty c : Nat) (fz : Bool) (a b : Word) : Bool × Ev :=
  if tyIsFp ty then
    let x := numOf ty fz 0 a
    let y := numOf ty fz 0 b
    (fpCond c x y, x.sigEv ||| y.sigEv)
  else (intCond c (readInt ty a) (readInt ty b), evNone)

/-- `v.cmp` (R131). -/
def execVCmp (w : Wide) (s : State) : Host.Outcome State Fault Refusal :=
  compareWord 0x1D0 w w.aux2 (cmpLane w.ty w.aux5 w.fz) s

/-- COND of `v.pcmp` (R122). -/
def phCond (c : Nat) (r : PhCmp) : Bool :=
  match c with
  | 0 => r.eq | 1 => !r.eq | 2 => r.lt | 3 => r.gt | 4 => r.lt || r.eq | 5 => r.gt || r.eq | _ => r.un

/-- `v.pcmp` (R122): an undefined operand counts PUND. -/
def execVPcmp (w : Wide) (s : State) : Host.Outcome State Fault Refusal :=
  compareWord 0x1F0 w 0 (fun a b =>
    let x := phCode w.ty a
    let y := phCode w.ty b
    (phCond w.aux5 (phCompare w.ty x y),
      if (phAngle w.ty x).isNone || (phAngle w.ty y).isNone then evPund else evNone)) s

/-! ### Ballots and votes (R132, R133) -/

/-- A word that writes a scalar register from masks. -/
def scalarFromLanes (op10 : Nat) (w : Wide) (f : Group → View → Word → Word) (s : State) : Host.Outcome State Fault Refusal :=
  laneWord op10 w (fun _ v run _ m =>
    .done (if w.ws then m else { m with g := m.g.laneSetS (w.dst.toNat % 64) (f m.g v run) }) {}) s

/-- `v.ballot` (R132). -/
def execVBallot (w : Wide) (s : State) : Host.Outcome State Fault Refusal :=
  scalarFromLanes 0x1D8 w (fun g v run => run &&& viewMask g v (w.aux5 % 8)) s

/-- Bit t of a vote (R133). -/
def voteBit (kind : Nat) (run m : Word) (lanes : List Nat) : Bool :=
  let r := lanes.filter fun l => bit run l
  match kind with
  | 0 => r.any fun l => bit m l
  | 1 => r.all fun l => bit m l
  | _ => (r.all fun l => bit m l) || r.all fun l => !bit m l

/-- The lanes of tile t. -/
def tileLanes (size t : Nat) : List Nat := (List.range size).map (t * size + ·)

/-- `v.vote` (R133). -/
def execVVote (w : Wide) (s : State) : Host.Outcome State Fault Refusal :=
  scalarFromLanes 0x1D9 w (fun g v run =>
    let size := tileSize g v
    maskOf (g.width / size) fun t => voteBit w.aux2 run (viewMask g v (w.aux5 % 8)) (tileLanes size t)) s

/-! ### Exchange (R135-R139) -/

/-- The source index of a shuffle (R136). -/
def shflIndex (kind size i b : Nat) : Nat :=
  match kind with
  | 0 => b % size
  | 1 => if i < b then i else i - b
  | 2 => if size ≤ i + b then i else i + b
  | _ => i.xor (b % size)

/-- `v.shfl` (R136): an absent source lane gives zero. Under `.n64` both registers of the pair take the side bit that either source
register has: the model's choice (notes/assumptions/55). -/
def execVShfl (w : Wide) (s : State) : Host.Outcome State Fault Refusal :=
  laneCompute 0x200 w (fun _ v run m =>
    let size := tileSize m.g v
    laneEff w.dst.toNat w.ws (dstTy 0x200 w) ((lanesOf run).map fun l =>
      let b := (readSel m.g v w.imm 15 w.sb l).val.toNat % 2 ^ 32
      let src := l / size * size + shflIndex w.aux5 size (l % size) b
      let o := if bit m.g.present src then readSel m.g v w.imm w.ty w.sa src else ⟨0, false⟩
      (l, { val := o.val, psn := o.psn }))) s

/-- The identity of a reduction (R137). -/
def redIdent (op ty : Nat) : Word :=
  if tyIsFp ty then
    let f := fmtOf ty
    BitVec.ofNat 64 (match op with
      | 1 => f.infBits
      | 2 => f.signed true f.infBits
      | _ => 0)
  else match op with
    | 1 => (intResult (tySigned ty) (tyWidth ty) false (intHi (tySigned ty) (tyWidth ty))).1
    | 2 => (intResult (tySigned ty) (tyWidth ty) false (intLo (tySigned ty) (tyWidth ty))).1
    | 3 => placeTy ty (2 ^ tyWidth ty - 1)
    | _ => 0

/-- An exact floating-point sum rounded once (R137). With a quiet NaN among the addends, infinities of both signs count no INV: the
model's choice (notes/assumptions/55). -/
def fpSum (f : Fmt) (rm : Nat) (fz : Bool) (l : List Num) : Nat × Ev :=
  let sig := l.foldl (fun e x => e ||| x.sigEv) evNone
  let pos := l.any fun x => x == .inf false
  let neg := l.any fun x => x == .inf true
  if l.any Num.isNan then (f.nanBits, sig)
  else if pos && neg then (f.nanBits, evInv)
  else if pos then (f.infBits, evNone)
  else if neg then (f.signed true f.infBits, evNone)
  else
    let fr := l.map fun x => match x with
      | .fin s n d => SFrac.of s n d
      | _ => ⟨0, 1⟩
    let allNegZero := l.all fun x => match x with
      | .fin s n _ => s && n == 0
      | _ => false
    let allPosZero := l.all fun x => match x with
      | .fin s n _ => !s && n == 0
      | _ => false
    f.roundS rm fz (if allNegZero then true else if allPosZero then false else zeroSumNeg rm) (fr.foldl SFrac.add ⟨0, 1⟩)

/-- OP over a list of values (R137); the list is not empty. -/
def redFold (op ty rm : Nat) (fz sat : Bool) (l : List Word) : Word × Ev :=
  if tyIsFp ty then
    let f := fmtOf ty
    let xs := l.map fun x => f.read fz (x.toNat % 2 ^ tyWidth ty)
    let sig := xs.foldl (fun e x => e ||| x.sigEv) evNone
    match op with
    | 0 =>
      let r := fpSum f rm fz xs
      (BitVec.ofNat 64 r.1, r.2)
    | 1 => (BitVec.ofNat 64 (f.write (xs.foldl Num.min2 (.nan false))), sig)
    | _ => (BitVec.ofNat 64 (f.write (xs.foldl Num.max2 (.nan false))), sig)
  else
    let w := tyWidth ty
    let sg := tySigned ty
    let xs := l.map (readInt ty)
    let us := l.map fun x => x.toNat % 2 ^ w
    match op with
    | 0 => intResult sg w sat (xs.foldl (· + ·) 0)
    | 1 => intResult sg w false (xs.foldl min (intHi sg w))
    | 2 => intResult sg w false (xs.foldl max (intLo sg w))
    | 3 => (placeTy ty (us.foldl (· &&& ·) (2 ^ w - 1)), evNone)
    | 4 => (placeTy ty (us.foldl (· ||| ·) 0), evNone)
    | _ => (placeTy ty (us.foldl (· ^^^ ·) 0), evNone)

/-- OP over a list that may be empty. -/
def redOver (op ty rm : Nat) (fz sat : Bool) (l : List Word) : Word × Ev :=
  if l.isEmpty then (redIdent op ty, evNone) else redFold op ty rm fz sat l

/-- Counts and named lanes where each event is raised once by a set of lanes (R137). -/
def setEvents (l : List (List Nat × Ev)) : List (Nat × Nat) × List (Nat × Word) :=
  let cls := (List.range 7).filter fun c => l.any fun e => bit e.2 c
  (cls.map fun c => (c, (l.filter fun e => bit e.2 c).length),
   cls.map fun c => (c, l.foldl (fun (m : Word) e => if bit e.2 c then e.1.foldl (fun m k => setBit m k true) m else m) 0))

/-- The running lanes of each tile. -/
def runTiles (g : Group) (v : View) (run : Word) : List (List Nat) :=
  (List.range (g.width / tileSize g v)).map fun t => (tileLanes (tileSize g v) t).filter fun l => bit run l

/-- Vector results of a word over sets of lanes: (lanes read, lanes that receive). A set with a poisoned lane gives the
poison result and no event (R110, R137-R139). -/
def overSets (w : Wide) (dty : Nat) (sets : List (List Nat × List Nat)) (psn : Nat → Bool)
    (f : List Nat → Word × Ev) : LaneEff :=
  let rs := sets.map fun e =>
    if e.1.any psn then (e.2, poisonOut dty)
    else
      let r := f e.1
      (e.2, { val := r.1, ev := r.2 })
  let outs := rs.flatMap fun e => e.1.map fun l => (l, e.2)
  let ev := setEvents (rs.filterMap fun e => if e.1.isEmpty then none else some (e.1, e.2.ev))
  { laneEff w.dst.toNat w.ws dty outs with counts := ev.1, lanes := ev.2 }

/-- Source A of an exchange word in a lane. -/
def exchA (m : Mach) (v : View) (w : Wide) (l : Nat) : Word × Bool := srcIn m.g v w true w.sa w.ty l

/-- `v.red` (R137). In the scalar form only tile 0's result, the one delivered, counts events: the model's choice
(notes/assumptions/21). -/
def execVRed (w : Wide) (s : State) : Host.Outcome State Fault Refusal :=
  laneWord 0x210 w (fun _ v run _ m =>
    let fold (ls : List Nat) : Word × Ev := redOver w.aux5 w.ty w.rm w.fz w.sat (ls.map fun l => (exchA m v w l).1)
    let tiles := runTiles m.g v run
    if w.aux2 % 2 = 1 then
      let t0 := tiles.headD []
      let bad := maskOf m.g.width fun l => t0.contains l && (exchA m v w l).2
      if bad ≠ 0 then .trap m cPOISON bad
      else
        let r := fold t0
        let ev := setEvents [(t0, r.2)]
        .done (if w.ws then m else { m with g := m.g.laneSetS (w.dst.toNat % 64) r.1 }) { counts := ev.1, lanes := ev.2 }
    else
      .done m (overSets w w.ty ((tiles.filter fun t => !t.isEmpty).map fun t => (t, t)) (fun l => (exchA m v w l).2) fold)) s

/-- The sets of a scan: the lanes up to each lane, or before it (R138). -/
def scanSets (excl : Bool) (tile : List Nat) : List (List Nat × List Nat) :=
  tile.map fun l => (tile.filter fun k => if excl then decide (k < l) else decide (k ≤ l), [l])

/-- `v.scan` (R138). -/
def execVScan (w : Wide) (s : State) : Host.Outcome State Fault Refusal :=
  laneCompute 0x220 w (fun _ v run m =>
    overSets w w.ty ((runTiles m.g v run).flatMap (scanSets (w.aux2 % 2 == 1))) (fun l => (exchA m v w l).2)
      fun ls => redOver w.aux5 w.ty w.rm w.fz w.sat (ls.map fun l => (exchA m v w l).1)) s

/-- `v.pred` (R139). -/
def execVPred (w : Wide) (s : State) : Host.Outcome State Fault Refusal :=
  laneCompute 0x230 w (fun _ v run m =>
    overSets w 6 (((runTiles m.g v run).filter fun t => !t.isEmpty).map fun t => (t, t)) (fun l => (exchA m v w l).2)
      fun ls =>
        let as := ls.filterMap fun l => phAngle w.ty (phCode w.ty (exchA m v w l).1)
        let o := resolveOut w.ty (as.foldl (fun acc a => acc + cosEntry (phIndex w.ty a)) 0)
          (as.foldl (fun acc a => acc + sinEntry (phIndex w.ty a)) 0) as.length
        (o.val, o.ev)) s

/-! ### Check lane words (spec/09 R183) -/

/-- `v.tpsn`: judged in any group. -/
def execVTpsn (w : Wide) (s : State) : Host.Outcome State Fault Refusal :=
  laneWord 0x3A0 w (fun _ v run _ m =>
    let k := w.dst.toNat % 8
    let new := (lanesOf run).foldl (fun (x : Word) l => setBit x l ((readSel m.g v w.imm w.ty w.sa l).poisoned w.ty)) 0
    .done { m with g := m.g.laneSetM k run new } {}) s

/-- `v.cpsn`: the bits of a, the side bit clear. -/
def execVCpsn (w : Wide) (s : State) : Host.Outcome State Fault Refusal :=
  laneCompute 0x3A1 w (fun _ v run m =>
    laneEff w.dst.toNat w.ws 6 ((lanesOf run).map fun l => (l, { val := (readSel m.g v w.imm 15 w.sa l).val }))) s

end Sys2Proof.Machine
end

