-- ==== Sys2Proof/Machine/Scalar.lean ====
section
/-! DEFINITION. Scalar words that touch only the group and its lane queue: integer and bit-field arithmetic, division,
branches, jumps, the return stack, `lrun`, and the waits (spec/05 R91-R100, R103). -/

namespace Sys2Proof.Machine

/-- An SR word of two sources (R93). -/
def alu2 (f : Word → Word → Word) (d a b : SReg) (s : State) : Host.Outcome State Fault Refusal :=
  onGroup (fun g => g.result d (f (g.rs a.toNat) (g.rs b.toNat))) s
/-- A word of one source (R93, R94). -/
def alu1 (f : Word → Word) (d a : SReg) (s : State) : Host.Outcome State Fault Refusal :=
  onGroup (fun g => g.result d (f (g.rs a.toNat))) s
/-- An SI word: imm14 sign-extended (R94). -/
def aluImm (f : Word → Word → Word) (d a : SReg) (imm : BitVec 14) (s : State) : Host.Outcome State Fault Refusal :=
  alu1 (fun x => f x (imm.signExtend 64)) d a s

/-- Leading zero bits of the low n bits. -/
def leadingZerosBelow (x : Word) : Nat → Nat
  | 0 => 0
  | n + 1 => if bit x n then 0 else 1 + leadingZerosBelow x n
/-- Leading zero bits, 0 to 64. -/
def leadingZeros (x : Word) : Nat := leadingZerosBelow x 64
/-- Trailing zero bits, 0 to 64. -/
def trailingZeros (x : Word) : Nat := ((List.range 64).find? fun i => bit x i).getD 64
/-- The eight bytes in reverse order. -/
def bswap (x : Word) : Word := BitVec.ofNat 64 (leNat (toLe 8 x.toNat).reverse)
/-- lo and len of a bit-field word, len cut at bit 63 (R93). -/
def fieldLo (b : Word) : Nat := (b.extractLsb' 0 6).toNat
def fieldLen (b : Word) : Nat := min ((b.extractLsb' 8 6).toNat + 1) (64 - fieldLo b)
/-- The field of a. -/
def fieldOf (a b : Word) : Nat := a.toNat / 2 ^ fieldLo b % 2 ^ fieldLen b
/-- Sign-extend an n-bit number, n at least 1. -/
def signExt (n x : Nat) : Word :=
  if x < 2 ^ (n - 1) then BitVec.ofNat 64 x else BitVec.ofInt 64 ((x : Int) - (2 ^ n : Nat))
/-- The old value with the field replaced by the low bits of a. -/
def insertField (old a b : Word) : Word :=
  let m := BitVec.ofNat 64 ((2 ^ fieldLen b - 1) * 2 ^ fieldLo b)
  (old &&& ~~~m) ||| ((a <<< fieldLo b) &&& m)

/-- Quotient, remainder, and whether the IDIV corner arose (R95). -/
def divResult (signed : Bool) (a b : Word) : Word × Word × Bool :=
  if b = 0 then (if signed then 0x7FFFFFFFFFFFFFFF else BitVec.allOnes 64, a, true)
  else if signed && a == 0x8000000000000000 && b == BitVec.allOnes 64 then (a, 0, true)
  else if signed then (BitVec.ofInt 64 (a.toInt.tdiv b.toInt), BitVec.ofInt 64 (a.toInt.tmod b.toInt), false)
  else (a / b, a % b, false)

/-- A divide word (R95): the result, and one IDIV event in a corner, whose action may trap after the word (R66). -/
def divide (signed quotient : Bool) (d a b : SReg) (m : Mach) : Option Mach :=
  let r := divResult signed (m.g.rs a.toNat) (m.g.rs b.toNat)
  let x := if quotient then r.1 else r.2.1
  let g := m.g.result d x
  if !r.2.2 then some { m with g := g }
  else if !m.g.lanesIdle then none
  else
    let (dev, t) := countEvents m.d m.g.ctx [(4, 1)]
    match t with
    | none => some { g := g, d := dev }
    | some c => some (takeTrap { g := g, d := dev } { code := cNUMEVT, nevc := c, tspc := m.g.pc, skip := true })

/-- A control transfer (R96): the target is checked before anything takes effect; `k` gives the effects beside the pc. -/
def transfer (m : Mach) (target : Word) (k : Group → Option Group) : Option Mach :=
  if !m.g.goodTarget target then scalarTrap m cBADPC
  else match k m.g with
  | some g => some { m with g := { g with pc := target } }
  | none => scalarTrap m cRSFULL

/-- A conditional branch (R97): the displacement counts words from the branch (R15). -/
def branch (cond : Word → Bool) (a : SReg) (disp : BitVec 17) (m : Mach) : Option Mach :=
  if cond (m.g.rs a.toNat) then transfer m (m.g.pc + (disp.signExtend 64 <<< 2)) some
  else some { m with g := m.g.advance }

/-- push (R98); none when stack and spill area are full. -/
def Group.push (g : Group) (x : Word) : Option Group :=
  if g.stack.length < 16 then some { g with stack := x :: g.stack }
  else if g.spilled = 512 then none
  else match g.stack.getLast? with
  | some old => some { g with spill := g.spill.set g.spilled old 0, spilled := g.spilled + 1, stack := x :: g.stack.dropLast }
  | none => some { g with stack := [x] }

/-- A call (R97, R98). -/
def call (m : Mach) (target : Word) : Option Mach := transfer m target fun g => g.push (g.pc + 4)

/-- `s.ret` (R98): the popped address is checked before the entry is removed. -/
def ret (m : Mach) : Option Mach :=
  match m.g.stack with
  | x :: rest => transfer m x fun g => some { g with stack := rest }
  | [] =>
    if 0 < m.g.spilled then
      transfer m (m.g.spill.getD (m.g.spilled - 1) 0) fun g => some { g with spilled := g.spilled - 1 }
    else scalarTrap m cRSEMPTY

/-- `lrun` (R99), of `cnt` words. -/
def lrun (off cnt : Nat) (m : Mach) : Option Mach :=
  let g := m.g
  if 4 ≤ g.queue.length then none
  else if g.laneWords < off + cnt then scalarTrap m cBADPC
  else some { m with g :=
    { g.advance with queue := g.queue ++ [⟨off, cnt, g.viewNow⟩], lpos := if g.queue.isEmpty then off else g.lpos } }

/-- The held trap that a wait takes: the first whose operation the threshold covers (R66, R103). -/
def Group.coveredTrap (g : Group) (p : Path) (covered : Nat) : Option Held :=
  g.heldTraps.find? fun h => h.path == p && decide (h.pos ≤ covered)

/-- `s.wait` (R103, R66, R386). In its handler the group leaves held traps held (R177). Of several held traps that one wait
covers, the oldest is taken; the others stay held for a later wait on the path or for the group's end: the spec names no
order, and this one is the model's choice (notes/assumptions/49). -/
def waitPath (p : Path) (thr : Nat) (m : Mach) : Option Mach :=
  let g := m.g
  if !g.lanesIdle then none
  else if thr < g.count p then none
  else
    let covered := g.issued.getD (pathCode p) 0 - thr
    let d := raisePts m.d (coreKey g.die g.core) (g.unjoined.getD (pathCode p) 0)
    let g := { g with unjoined := g.unjoined.set (pathCode p) 0 0 }
    match (if g.inHandler then none else g.coveredTrap p covered) with
    | none => some { g := g.advance, d := d }
    | some h =>
      let held := g.heldTraps.filter fun x => x != h && !(h.code = cNUMEVT && x.code = cNUMEVT && x.path == p && x.pos = h.pos)
      some (takeTrap { g := { g.advance with heldTraps := held }, d := d }
        { code := h.code, nevc := h.nevc, path := pathCode p, tspc := g.pc, skip := true })

/-- `s.add` (R93). -/
def execSAdd (d a b : SReg) (s : State) : Host.Outcome State Fault Refusal :=
  alu2 (fun x y => x + y) d a b s

/-- `s.sub` (R93). -/
def execSSub (d a b : SReg) (s : State) : Host.Outcome State Fault Refusal :=
  alu2 (fun x y => x - y) d a b s

/-- `s.and` (R93). -/
def execSAnd (d a b : SReg) (s : State) : Host.Outcome State Fault Refusal :=
  alu2 (fun x y => x &&& y) d a b s

/-- `s.or` (R93). -/
def execSOr (d a b : SReg) (s : State) : Host.Outcome State Fault Refusal :=
  alu2 (fun x y => x ||| y) d a b s

/-- `s.xor` (R93). -/
def execSXor (d a b : SReg) (s : State) : Host.Outcome State Fault Refusal :=
  alu2 (fun x y => x ^^^ y) d a b s

/-- `s.andn` (R93). -/
def execSAndn (d a b : SReg) (s : State) : Host.Outcome State Fault Refusal :=
  alu2 (fun x y => x &&& ~~~y) d a b s

/-- `s.shl` (R93). -/
def execSShl (d a b : SReg) (s : State) : Host.Outcome State Fault Refusal :=
  alu2 (fun x y => x <<< (y.toNat % 64)) d a b s

/-- `s.shr` (R93). -/
def execSShr (d a b : SReg) (s : State) : Host.Outcome State Fault Refusal :=
  alu2 (fun x y => x >>> (y.toNat % 64)) d a b s

/-- `s.sra` (R93). -/
def execSSra (d a b : SReg) (s : State) : Host.Outcome State Fault Refusal :=
  alu2 (fun x y => x.sshiftRight (y.toNat % 64)) d a b s

/-- `s.mul` (R93). -/
def execSMul (d a b : SReg) (s : State) : Host.Outcome State Fault Refusal :=
  alu2 (fun x y => x * y) d a b s

/-- `s.mulh.i` (R93). -/
def execSMulhI (d a b : SReg) (s : State) : Host.Outcome State Fault Refusal :=
  alu2 (fun x y => BitVec.ofInt 64 (x.toInt * y.toInt / 2 ^ 64)) d a b s

/-- `s.mulh.n` (R93). -/
def execSMulhN (d a b : SReg) (s : State) : Host.Outcome State Fault Refusal :=
  alu2 (fun x y => BitVec.ofNat 64 (x.toNat * y.toNat / 2 ^ 64)) d a b s

/-- `s.div.i` (R95). -/
def execSDivI (d a b : SReg) (s : State) : Host.Outcome State Fault Refusal :=
  actOrWait (fun _ m => divide true true d a b m) s

/-- `s.div.n` (R95). -/
def execSDivN (d a b : SReg) (s : State) : Host.Outcome State Fault Refusal :=
  actOrWait (fun _ m => divide false true d a b m) s

/-- `s.rem.i` (R95). -/
def execSRemI (d a b : SReg) (s : State) : Host.Outcome State Fault Refusal :=
  actOrWait (fun _ m => divide true false d a b m) s

/-- `s.rem.n` (R95). -/
def execSRemN (d a b : SReg) (s : State) : Host.Outcome State Fault Refusal :=
  actOrWait (fun _ m => divide false false d a b m) s

/-- `s.seq` (R93). -/
def execSSeq (d a b : SReg) (s : State) : Host.Outcome State Fault Refusal :=
  alu2 (fun x y => boolWord (x == y)) d a b s

/-- `s.sne` (R93). -/
def execSSne (d a b : SReg) (s : State) : Host.Outcome State Fault Refusal :=
  alu2 (fun x y => boolWord (x != y)) d a b s

/-- `s.slt` (R93). -/
def execSSlt (d a b : SReg) (s : State) : Host.Outcome State Fault Refusal :=
  alu2 (fun x y => boolWord (x.slt y)) d a b s

/-- `s.sltn` (R93). -/
def execSSltn (d a b : SReg) (s : State) : Host.Outcome State Fault Refusal :=
  alu2 (fun x y => boolWord (x.ult y)) d a b s

/-- `s.min.i` (R93). -/
def execSMinI (d a b : SReg) (s : State) : Host.Outcome State Fault Refusal :=
  alu2 (fun x y => if y.slt x then y else x) d a b s

/-- `s.max.i` (R93). -/
def execSMaxI (d a b : SReg) (s : State) : Host.Outcome State Fault Refusal :=
  alu2 (fun x y => if x.slt y then y else x) d a b s

/-- `s.min.n` (R93). -/
def execSMinN (d a b : SReg) (s : State) : Host.Outcome State Fault Refusal :=
  alu2 (fun x y => if y.ult x then y else x) d a b s

/-- `s.max.n` (R93). -/
def execSMaxN (d a b : SReg) (s : State) : Host.Outcome State Fault Refusal :=
  alu2 (fun x y => if x.ult y then y else x) d a b s

/-- `s.sel` (R93): sd is read before it is written. -/
def execSSel (d a b : SReg) (s : State) : Host.Outcome State Fault Refusal :=
  onGroup (fun g => g.result d (if g.rs d.toNat ≠ 0 then g.rs a.toNat else g.rs b.toNat)) s

/-- `s.clz` (R93). -/
def execSClz (d a : SReg) (s : State) : Host.Outcome State Fault Refusal :=
  alu1 (fun x => BitVec.ofNat 64 (leadingZeros x)) d a s

/-- `s.ctz` (R93). -/
def execSCtz (d a : SReg) (s : State) : Host.Outcome State Fault Refusal :=
  alu1 (fun x => BitVec.ofNat 64 (trailingZeros x)) d a s

/-- `s.popc` (R93). -/
def execSPopc (d a : SReg) (s : State) : Host.Outcome State Fault Refusal :=
  alu1 (fun x => BitVec.ofNat 64 (popCount x)) d a s

/-- `s.bswap` (R93). -/
def execSBswap (d a : SReg) (s : State) : Host.Outcome State Fault Refusal :=
  alu1 (fun x => bswap x) d a s

/-- `s.bext.n` (R93). -/
def execSBextN (d a b : SReg) (s : State) : Host.Outcome State Fault Refusal :=
  alu2 (fun x y => BitVec.ofNat 64 (fieldOf x y)) d a b s

/-- `s.bext.i` (R93). -/
def execSBextI (d a b : SReg) (s : State) : Host.Outcome State Fault Refusal :=
  alu2 (fun x y => signExt (fieldLen y) (fieldOf x y)) d a b s

/-- `s.bins` (R93): the field of the old sd is replaced by the low bits of a. -/
def execSBins (d a b : SReg) (s : State) : Host.Outcome State Fault Refusal :=
  onGroup (fun g => g.result d (insertField (g.rs d.toNat) (g.rs a.toNat) (g.rs b.toNat))) s

/-- `s.addi` (R94). -/
def execSAddi (d a : SReg) (imm : BitVec 14) (s : State) : Host.Outcome State Fault Refusal :=
  aluImm (fun x y => x + y) d a imm s

/-- `s.andi` (R94). -/
def execSAndi (d a : SReg) (imm : BitVec 14) (s : State) : Host.Outcome State Fault Refusal :=
  aluImm (fun x y => x &&& y) d a imm s

/-- `s.ori` (R94). -/
def execSOri (d a : SReg) (imm : BitVec 14) (s : State) : Host.Outcome State Fault Refusal :=
  aluImm (fun x y => x ||| y) d a imm s

/-- `s.xori` (R94). -/
def execSXori (d a : SReg) (imm : BitVec 14) (s : State) : Host.Outcome State Fault Refusal :=
  aluImm (fun x y => x ^^^ y) d a imm s

/-- `s.shli` (R94). -/
def execSShli (d a : SReg) (sh : BitVec 6) (s : State) : Host.Outcome State Fault Refusal :=
  alu1 (fun x => x <<< sh.toNat) d a s

/-- `s.shri` (R94). -/
def execSShri (d a : SReg) (sh : BitVec 6) (s : State) : Host.Outcome State Fault Refusal :=
  alu1 (fun x => x >>> sh.toNat) d a s

/-- `s.srai` (R94). -/
def execSSrai (d a : SReg) (sh : BitVec 6) (s : State) : Host.Outcome State Fault Refusal :=
  alu1 (fun x => x.sshiftRight sh.toNat) d a s

/-- `s.slti` (R94). -/
def execSSlti (d a : SReg) (imm : BitVec 14) (s : State) : Host.Outcome State Fault Refusal :=
  aluImm (fun x y => boolWord (x.slt y)) d a imm s

/-- `s.sltni` (R94). -/
def execSSltni (d a : SReg) (imm : BitVec 14) (s : State) : Host.Outcome State Fault Refusal :=
  aluImm (fun x y => boolWord (x.ult y)) d a imm s

/-- `s.addhi` (R94). -/
def execSAddhi (d a : SReg) (imm : BitVec 14) (s : State) : Host.Outcome State Fault Refusal :=
  aluImm (fun x y => x + (y <<< 14)) d a imm s

/-- `s.muli` (R94). -/
def execSMuli (d a : SReg) (imm : BitVec 14) (s : State) : Host.Outcome State Fault Refusal :=
  aluImm (fun x y => x * y) d a imm s

/-- `s.bz` (R97, R14). -/
def execSBz (a : SReg) (disp : BitVec 17) (s : State) : Host.Outcome State Fault Refusal :=
  actOrWait (fun _ m => branch (fun x => x == 0) a disp m) s

/-- `s.bnz` (R97, R14). -/
def execSBnz (a : SReg) (disp : BitVec 17) (s : State) : Host.Outcome State Fault Refusal :=
  actOrWait (fun _ m => branch (fun x => x != 0) a disp m) s

/-- `s.blt` (R97, R14). -/
def execSBlt (a : SReg) (disp : BitVec 17) (s : State) : Host.Outcome State Fault Refusal :=
  actOrWait (fun _ m => branch (fun x => x.slt 0) a disp m) s

/-- `s.bge` (R97, R14). -/
def execSBge (a : SReg) (disp : BitVec 17) (s : State) : Host.Outcome State Fault Refusal :=
  actOrWait (fun _ m => branch (fun x => !x.slt 0) a disp m) s

/-- `s.ble` (R97, R14). -/
def execSBle (a : SReg) (disp : BitVec 17) (s : State) : Host.Outcome State Fault Refusal :=
  actOrWait (fun _ m => branch (fun x => x.sle 0) a disp m) s

/-- `s.bgt` (R97, R14). -/
def execSBgt (a : SReg) (disp : BitVec 17) (s : State) : Host.Outcome State Fault Refusal :=
  actOrWait (fun _ m => branch (fun x => !x.sle 0) a disp m) s

/-- `s.j` (R97). -/
def execSJ (disp : BitVec 26) (s : State) : Host.Outcome State Fault Refusal :=
  actOrWait (fun _ m => transfer m (m.g.pc + (disp.signExtend 64 <<< 2)) some) s

/-- `s.call` (R97). -/
def execSCall (disp : BitVec 26) (s : State) : Host.Outcome State Fault Refusal :=
  actOrWait (fun _ m => call m (m.g.pc + (disp.signExtend 64 <<< 2))) s

/-- `s.jr` (R97). -/
def execSJr (a : SReg) (s : State) : Host.Outcome State Fault Refusal :=
  actOrWait (fun _ m => transfer m (m.g.rs a.toNat) some) s

/-- `s.callr` (R97). -/
def execSCallr (a : SReg) (s : State) : Host.Outcome State Fault Refusal :=
  actOrWait (fun _ m => call m (m.g.rs a.toNat)) s

/-- `s.ret` (R97, R98). -/
def execSRet (s : State) : Host.Outcome State Fault Refusal :=
  actOrWait (fun _ m => ret m) s

/-- `lrun` (R99): the stall on four queued blocks, the check of the lane section, and the queued block with its operands
(R71). -/
def execLrun (off : BitVec 17) (cnt : BitVec 9) (s : State) : Host.Outcome State Fault Refusal :=
  actOrWait (fun _ m => lrun off.toNat (cnt.toNat + 1) m) s

/-- `lwait` (R100). -/
def execLwait (s : State) : Host.Outcome State Fault Refusal :=
  actOrWait (fun _ m => if m.g.lanesIdle then some { m with g := m.g.advance } else none) s

/-- `s.wait` (R103): the join of the operations that the threshold covers. -/
def execSWait (p : Path) (a : SReg) (s : State) : Host.Outcome State Fault Refusal :=
  actOrWait (fun _ m => waitPath p (m.g.rs a.toNat).toNat m) s

/-- `s.cnt` (R103). -/
def execSCnt (d : SReg) (p : Path) (s : State) : Host.Outcome State Fault Refusal :=
  actOrWait (fun _ m => if m.g.lanesIdle then some { m with g := m.g.result d (BitVec.ofNat 64 (m.g.count p)) } else none) s

end Sys2Proof.Machine
end

