-- ==== Sys2Proof/Machine/Schedule.lean ====
section
/-! DEFINITION. Admission and time sharing: the order in which launches receive cores, TEAM_ADMIT, node launches, periods,
budgets, decisions, ageing, and the removal of a context on request (spec/12 R202; spec/18 R311-R316). -/

namespace Sys2Proof.Machine

/-! ### The order of admission -/

/-- PUT of a node launch (R312), and the records that one condition of R313 lets it launch; `timer` for the second. -/
def nodePut (d : Dev) (l : Launch) : Nat := d.mem.num (localAddr d (l.kernel.bag.base.toNat + 64)) 8
def nodeRecords (d : Dev) (l : Launch) (timer : Bool) : Nat :=
  let r := l.nodeFrom + l.teams
  let ready := nodePut d l - l.nodeL
  let w := l.kernel.width
  if r ≤ l.nodeL then 0
  else if w ≤ ready then min w (r - l.nodeL)
  else if timer && l.kernel.timer ≠ 0 then min (min ready w) (r - l.nodeL)
  else 0

/-- Has a launch a team that waits for admission? -/
def waits (d : Dev) (lk : Nat) : Bool :=
  let l := d.launch lk
  !l.done && launchEligible d l
  && ((if l.kernel.node then decide (0 < nodeRecords d l false) else decide (l.entered < l.teams))
    || d.teams.any fun e => e.2.launch = lk && (e.2.status == .saved || e.2.status == .relaunch))

/-- The waiting launches of a partition. -/
def waiting (d : Dev) (part : Nat) : List Nat :=
  ((d.launches.map fun e => e.1).filter fun k => (d.ctx (d.launch k).ctx).part = part && waits d k)

/-- Is a launch the next of its partition to receive cores (R311, R314, R315)? A `coop` launch holds back no other: it reserves
what it needs, and takes it before any that may not take what it has reserved. -/
def mayAdmit (d : Dev) (lk : Nat) : Bool :=
  let l := d.launch lk
  !l.done && (d.ctx l.ctx).live && launchEligible d l
  && (waiting d (d.ctx l.ctx).part).all fun k => k = lk
    || (if l.kernel.coop then !overrides d k lk else (d.launch k).kernel.coop || !lexLt (rank d k) (rank d lk))

/-! ### Admission -/

/-- One of a queue's teams has been admitted: its boost returns to 0 (R315). -/
def admitted (d : Dev) (lk : Nat) : Dev :=
  { d with queues := d.queues.modify (d.launch lk).queue fun x => { x with boost := 0 } }

/-- Enter and admit the next team of a launch at a place. -/
def admitNext (d : Dev) (lk first records die core : Nat) : Option Dev :=
  let l := d.launch lk
  let (d, key) := enterTeam d lk l.entered first records
  let d := d.setLaunch lk { (d.launch lk) with entered := l.entered + 1, nodeL := l.nodeL + records }
  admitTeam d key die core

/-- Admit n teams of a `coop` launch, each where it first fits: all or none. -/
def admitAll (lk : Nat) : Nat → Dev → Option Dev
  | 0, d => some d
  | n + 1, d =>
    let l := d.launch lk
    match findPlace d (d.parts.getD (d.ctx l.ctx).part {}) l.kernel lk none with
    | none => none
    | some x => (admitNext d lk 0 0 x.1 x.2).bind (admitAll lk n)

/-- Admit the teams of a `coop` launch at the places that it has reserved: all or none. -/
def admitAt (lk : Nat) : List (Nat × Nat) → Dev → Option Dev
  | [], d => some d
  | x :: xs, d => (admitNext d lk 0 0 x.1 x.2).bind (admitAt lk xs)

/-- A `coop` launch reserves a place that fits one of its teams beside those reserved already (R311). -/
def reservePlace (d : Dev) (lk die core : Nat) : Dev :=
  let l := d.launch lk
  let k := l.kernel
  let held := l.reserved.filter fun x => x.1 = die && (teamCores k.team x.2).any (teamCores k.team core).contains
  let room := (teamCores k.team core).zipIdx.all fun c =>
    decide ((held.length + 1) * groupsOn k.team c.2 + (reservedFrom d lk die c.1).1 ≤ (freeSlots d die c.1).length)
    && decide (scratchUsed d die c.1 + (held.length + 1) * scratchShare k.team (1024 * k.scratchKiB) + (reservedFrom d lk die c.1).2 ≤ 256 * 1024)
  if coopNeeds l = 0 || !fits d (d.parts.getD (d.ctx l.ctx).part {}) k lk die core || !room || coopClaims d lk die core then d
  else d.setLaunch lk { l with reserved := l.reserved ++ [(die, core)] }

/-- TEAM_ADMIT of a `coop` launch (R311): the place is reserved for its next team, and once each team has one, all are admitted
together; a place that an overriding launch has taken is given up. -/
def coopAdmit (lk die core : Nat) (d : Dev) : Dev :=
  let l := d.launch lk
  let d := d.setLaunch lk { l with reserved := l.reserved.filter fun x => fits d (d.parts.getD (d.ctx l.ctx).part {}) l.kernel lk x.1 x.2 }
  let d := reservePlace d lk die core
  let l := d.launch lk
  if coopNeeds l ≠ 0 || l.done || !mayAdmit d lk then d
  else match (admitAt lk (l.reserved.take (l.teams - l.entered)) d).or (admitAll lk (l.teams - l.entered) d) with
  | some d => (admitted d lk).setLaunch lk { ((admitted d lk).launch lk) with reserved := [] }
  | none => d

/-- TEAM_ADMIT (spec/12 R202, R311). -/
def teamAdmit (lk die core : Nat) (d : Dev) : Dev :=
  let l := d.launch lk
  if l.kernel.node || l.teams ≤ l.entered then d
  else if l.kernel.coop then coopAdmit lk die core d
  else if !mayAdmit d lk || coopClaims d lk die core then d
  else match admitNext d lk 0 0 die core with
  | some d => admitted d lk
  | none => d

/-- TEAM_ADMIT (R202). -/
def execTeamAdmit (launch die core : Nat) (s : State) : Host.Outcome State Fault Refusal :=
  act (fun _ m => { m with d := teamAdmit launch die core m.d }) s

/-- A node launch of one group (R313): PUT is read at its home. -/
def nodeStart (timer : Bool) (lk die core : Nat) (d : Dev) : Dev :=
  let l := d.launch lk
  let d := if l.kernel.node then homeRead d (localAddr d (l.kernel.bag.base.toNat + 64)) else d
  let n := nodeRecords d l timer
  if !l.kernel.node || n = 0 || !mayAdmit d lk || coopClaims d lk die core then d
  else match admitNext d lk l.nodeL n die core with
  | some d => admitted d lk
  | none => d

/-- NODE_LAUNCH (R313). -/
def execNodeLaunch (launch die core : Nat) (s : State) : Host.Outcome State Fault Refusal :=
  act (fun _ m => { m with d := nodeStart false launch die core m.d }) s

/-- NODE_TIMER (R313): record L has been committed for TIMER µs. -/
def execNodeTimer (launch die core : Nat) (s : State) : Host.Outcome State Fault Refusal :=
  act (fun _ m => { m with d := nodeStart true launch die core m.d }) s

/-! ### Teams that come back -/

/-- A team that was saved or discarded comes back only in its launch's turn, and not where a `coop` launch claims the place
(R311, R314, R315); its queue's boost then returns to 0. -/
def comeBack (key die core : Nat) (back : Mach → Mach) (m : Mach) : Mach :=
  let lk := (m.d.team key).launch
  if !mayAdmit m.d lk || coopClaims m.d lk die core then m
  else
    let m := back m
    if (m.d.team key).status == .resident then { m with d := admitted m.d lk } else m

/-- TEAM_RESTORE (spec/12 R207). -/
def execTeamRestore (team die core : Nat) (s : State) : Host.Outcome State Fault Refusal :=
  act (fun _ m => if (m.d.team team).status == .saved then comeBack team die core (teamRestore team die core) m else m) s

/-- TEAM_RELAUNCH (spec/12 R209). -/
def execTeamRelaunch (team die core : Nat) (s : State) : Host.Outcome State Fault Refusal :=
  act (fun _ m => if (m.d.team team).status == .relaunch then comeBack team die core (teamRelaunch team die core) m else m) s

/-! ### Periods and budgets (R314) -/

/-- The teams of a queue that are resident. -/
def queueTeams (d : Dev) (q : Nat) : List (Nat × Team) :=
  d.teams.filter fun e => e.2.status == .resident && (d.launch e.2.launch).queue = q

/-- Is a queue ready: a packet to process, or teams resident or waiting (R314)? -/
def queueReady (d : Dev) (q : Nat) : Bool :=
  match d.queue? q with
  | none => false
  | some x =>
    ((x.mapped.isSome || x.pending) && rdidx d q != wridx d q)
    || d.launches.any fun e => e.2.queue = q && !e.2.done && ((if e.2.kernel.node then decide (0 < nodeRecords d e.2 false) else decide (e.2.entered < e.2.teams))
      || d.teams.any fun t => t.2.launch = e.1 && !t.2.over)

/-- PERIOD_START (R314): when the queue becomes ready, and at its deadline. -/
def periodStart (die q : Nat) (d : Dev) : Dev :=
  let d := readRecord d q
  match d.queue? q with
  | none => d
  | some x =>
    if !edf d x.ctx || qPeriod d q = 0 || !queueReady d q || (x.ready && decide (d.time < qDline d q)) then d
    else
      let d := recordStore d die q 48 (toLe 8 (d.time + 1000 * qPeriod d q) ++ toLe 8 0)
      { d with queues := d.queues.modify q fun x => { x with ready := true, overrun := false, frac := 0 } }

/-- PERIOD_START (R314). -/
def execPeriodStart (die q : Nat) (s : State) : Host.Outcome State Fault Refusal :=
  act (fun _ m => { m with d := periodStart die q m.d }) s

/-- Has a queue a packet in processing that has an effect before it completes? Its eligibility ends only between packets
(R305). -/
def inProcessing (d : Dev) (x : QueueSt) : Bool :=
  match x.mapped.bind (slot? d x.die) with
  | some q => q.passMask || q.ended.isSome || (match q.pkt with
    | some (bs, _) => !mayRestart bs
    | none => false)
  | none => false

/-- BUDGET_ACCRUE (R314): each µs, the group slots that the queue's teams hold, in sixteenths; reaching BUDGET before DLINE
overruns. -/
def budgetAccrue (die q : Nat) (m : Mach) : Mach :=
  let m := { m with d := readRecord m.d q }
  match m.d.queue? q with
  | none => m
  | some x =>
    if !edf m.d x.ctx || qPeriod m.d q = 0 then m
    else
      let f := x.frac + ((queueTeams m.d q).map fun t => (t.2.slots.filter fun s => !t.2.freed.contains s).length).sum
      let used := qUsed m.d q + f / 16
      let d := if f / 16 = 0 then m.d else recordStore m.d die q 56 (toLe 8 used)
      let d := { d with queues := d.queues.modify q fun x => { x with frac := f % 16 } }
      if used < qBudget d q || x.overrun || qDline d q ≤ d.time then { m with d := d }
      else
        let d := { d with queues := d.queues.modify q fun x => { x with overrun := true, eligible := inProcessing d x } }
        let d := post d evOverrun q x.ctx (BitVec.ofNat 64 q) (BitVec.ofNat 64 x.ctx)
        (queueTeams d q).foldl (fun m t => preemptTeam t.1 m) { m with d := d }

/-- BUDGET_ACCRUE (R314). -/
def execBudgetAccrue (die q : Nat) (s : State) : Host.Outcome State Fault Refusal :=
  act (fun _ m => budgetAccrue die q m) s

/-! ### Decisions -/

/-- A queue with a deadline that is eligible by its own budget (R314). -/
def deadlineEligible (d : Dev) (q : Nat) (x : QueueSt) : Bool :=
  qPeriod d q ≠ 0 && queueReady d q && !x.overrun && decide (qUsed d q < qBudget d q)

/-- Eligibility of a queue (R305, R314, R315). -/
def eligibleNow (d : Dev) (q : Nat) (x : QueueSt) : Bool :=
  if !edf d x.ctx then true
  else if qPeriod d q ≠ 0 then deadlineEligible d q x
  else d.queues.all fun e => !((d.ctx e.2.ctx).part = (d.ctx x.ctx).part && (d.ctx e.2.ctx).live && deadlineEligible d e.1 e.2)

/-- Every queue of the die's contexts takes its eligibility; one that loses it in the middle of a packet keeps it until the packet's
processing ends (R305). -/
def setEligible (d : Dev) (die : Nat) : Dev :=
  { d with queues := d.queues.map fun (e : Nat × QueueSt) =>
      (e.1, if partOnDie (d.parts.getD (d.ctx e.2.ctx).part {}) die then
        { e.2 with eligible := eligibleNow d e.1 e.2 || (e.2.eligible && inProcessing d e.2), lapsed := !eligibleNow d e.1 e.2
                   ready := e.2.ready && queueReady d e.1 } else e.2) }

/-- May a resident team be asked for its slots by a waiting launch (R314, R315)? Its deadline is later, or its effective priority
lower. -/
def yieldsTo (d : Dev) (t : Team) (lk : Nat) : Bool :=
  let l := d.launch lk
  let a := rank d lk
  let b := rank d t.launch
  t.status == .resident && !t.shadow && (d.ctx t.ctx).part = (d.ctx l.ctx).part
  && (if edf d l.ctx then lexLt (deadlineKey d l.queue) (deadlineKey d (d.launch t.launch).queue) else decide (a.headD 0 < b.headD 0))

/-- The team that yields first: the latest deadline, or the lowest effective priority, youngest first. -/
def victim (d : Dev) (lk : Nat) : Option Nat :=
  let c := d.teams.filter fun e => yieldsTo d e.2 lk
  let key (t : Team) : List Nat := (rank d t.launch).dropLast ++ [t.since]
  (c.foldl (fun (best : Option (Nat × Team)) e => match best with
    | none => some e
    | some b => if lexLt (key b.2) (key e.2) then some e else some b) none).map fun e => e.1

/-- Does the next team of a waiting launch fit? -/
def launchFits (d : Dev) (lk : Nat) : Bool :=
  let l := d.launch lk
  if l.kernel.coop then (admitAll lk (l.teams - l.entered) d).isSome
  else (findPlace d (d.parts.getD (d.ctx l.ctx).part {}) l.kernel lk none).isSome

/-- The teams to pre-empt until the launch fits, found on a copy of the device where each has gone. -/
def victims (lk : Nat) : Nat → Dev → List Nat
  | 0, _ => []
  | n + 1, d =>
    if launchFits d lk then []
    else match victim d lk with
    | none => []
    | some k => k :: victims lk n ((together d k).foldl (fun d k => d.setTeam k { (d.team k) with status := .saved }) d)

/-- SCHEDULE_DECISION (R314, R315): the queue records are read again (R386), then eligibility, and pre-emption for the first waiting
launch of each partition. -/
def scheduleDecision (die : Nat) (m : Mach) : Mach :=
  let m := { m with d := setEligible (m.d.queues.foldl (fun d (e : Nat × QueueSt) => readRecord d e.1) m.d) die }
  let parts := (m.d.parts.map fun e => e.1).filter fun p => partOnDie (m.d.parts.getD p {}) die
  parts.foldl (fun m p =>
    match (waiting m.d p).find? fun k => mayAdmit m.d k with
    | none => m
    | some k => (victims k m.d.teams.length m.d).foldl (fun m t => preemptTeam t m) m) m

/-- SCHEDULE_DECISION (R314, R315). -/
def execScheduleDecision (die : Nat) (s : State) : Host.Outcome State Fault Refusal :=
  act (fun _ m => scheduleDecision die m) s

/-- AGEING_BOOST (R315): a queue that has admitted none of its waiting teams for AGE µs. -/
def ageingBoost (q : Nat) (d : Dev) : Dev :=
  match d.queue? q with
  | none => d
  | some x =>
    if edf d x.ctx || !d.launches.any (fun e => e.2.queue = q && waits d e.1) then d
    else { d with queues := d.queues.modify q fun x => { x with boost := min 7 (x.boost + 1) } }

/-- AGEING_BOOST (R315). -/
def execAgeingBoost (die q : Nat) (s : State) : Host.Outcome State Fault Refusal :=
  act (fun _ m => if die < 4 then { m with d := ageingBoost q m.d } else m) s

/-- CONTEXT_REMOVAL (R316), on request. -/
def execContextRemoval (ctx : Nat) (s : State) : Host.Outcome State Fault Refusal :=
  act (fun _ m => removeContext m ctx {}) s

end Sys2Proof.Machine
end

