-- ==== Sys2Proof/Machine/Sweep.lean ====
section
/-! DEFINITION. Revocation: `sw.revoke`, `sw.status`, `sw.wait`, and the passes of a partition (spec/16 R275-R280). -/

namespace Sys2Proof.Machine

/-! ### The region of `sw.revoke` -/

/-- Does the partition's firewall give an address to a colour (R276)? -/
def fwGives (R : CtlRegs) (d : Dev) (part colour a : Nat) : Bool :=
  let exists_ := match spaceOf a with
    | .hbm _ => true
    | .carve dd q off => decide (off < (R.die dd).carve q * 2 ^ 22)
    | _ => false
  exists_ && match d.pkg.fwFind a, quarterOf a with
  | some e, some q => e.part == part && bit (d.parts.getD part {}).quarters q && (e.colour == colour || e.shr)
  | _, _ => false

/-- SWPART: some address of [lo, hi) is not the colour's. What holds of an address holds up to the next edge. -/
def regionOutside (R : CtlRegs) (d : Dev) (part colour lo hi : Nat) : Bool :=
  (lo :: (fwEdges R d).filter fun e => decide (lo < e) && decide (e < hi)).any fun a => !fwGives R d part colour a

/-! ### Passes -/

/-- A pass starts (R278): it takes the whole next-pass set. -/
def startPass (p : Part) : Part :=
  if p.running.isSome || p.nextSet.isEmpty then p
  else { p with running := some p.nextSet, nextSet := [], passNo := p.passNo + 1, regsDone := false }

/-- SWEEP_PASS_START (R278). -/
def execSweepPassStart (part : Nat) (s : State) : Host.Outcome State Fault Refusal :=
  act (fun _ m => { m with d := m.d.setPart part (startPass (m.d.parts.getD part {})) }) s

/-- The checks of `sw.revoke` (R276): orders 1 to 6 of R153. -/
def needRevoke : Need := { kinds := [0], perms := pLD ||| pST ||| pGIVE, write := false, aligned := false }

/-- `sw.revoke` (R276). The shadow copy of a dual team takes the primary's pass number. -/
def swRevoke (dst : SReg) (a : CReg) (R : CtlRegs) (m : Mach) : Option Mach :=
  let c := m.g.rc a.toNat
  let lo := c.base.toNat
  match capCheck8 c (m.party false) needRevoke (c.colour = m.g.colour) lo 0 with
  | some cause => scalarTrap m cause
  | none =>
    let p := m.d.parts.getD m.g.part {}
    if m.g.shadow then takeForwarded m fun m l => some { m with g := m.g.result dst (l.getD 0 0) }
    else if 64 ≤ p.nextSet.length then scalarTrap m cSWFULL
    else if regionOutside R m.d m.g.part m.g.colour lo c.top.toNat then scalarTrap m cSWPART
    else
      let p := startPass { p with nextSet := p.nextSet ++ [(lo, c.top.toNat)] }
      let n := (if p.nextSet.isEmpty then p.passNo else p.passNo + 1).zeroExtend 64
      let m := forward m [n]
      some { g := m.g.result dst n, d := m.d.setPart m.g.part p }

/-- `sw.revoke` (R276). -/
def execSwRevoke (d : SReg) (a : CReg) (s : State) : Host.Outcome State Fault Refusal := actOrWait (swRevoke d a) s

/-- `sw.status` (R279). -/
def execSwStatus (d : SReg) (s : State) : Host.Outcome State Fault Refusal :=
  actOrWait (fun _ => afterLanes fun m =>
    some { m with g := m.g.result d ((m.d.parts.getD m.g.part {}).lastDone.zeroExtend 64) }) s

/-- Has a pass completed, by number (R279)? -/
def passDone (lastDone : BitVec 32) (a : Word) : Bool := decide ((lastDone - a.extractLsb' 0 32).toNat < 2 ^ 31)

/-- `sw.wait` (R279): then an acquire at `.v` over every address. In a dual team its wait is a checkpoint, since the pass waits
for the held stores (R278, notes/assumptions/53). -/
def swWait (a : SReg) (m : Mach) : Option Mach :=
  if !m.g.lanesIdle then none
  else dualGate m [] fun m =>
    if !passDone (m.d.parts.getD m.g.part {}).lastDone (m.g.rs a.toNat) then none
    else
      let m := acquireTime m 0 .v
      some { m with g := m.g.advance }

/-- `sw.wait` (R279). -/
def execSwWait (a : SReg) (s : State) : Host.Outcome State Fault Refusal := actOrWait (fun _ m => swWait a m) s

/-! ### What a pass clears -/

/-- A capability under a pass. -/
def sweptCap (rs : List (Nat × Nat)) (c : Cap) : Cap := if c.tag && rs.any c.meets then { c with tag := false } else c
def sweptCaps (rs : List (Nat × Nat)) (t : Tab Cap) : Tab Cap := t.map fun e => (e.1, sweptCap rs e.2)

/-- Quads (R79). -/
def sweptLanes (rs : List (Nat × Nat)) (f : LaneFile) : LaneFile :=
  { f with qtag := f.qtag.filter fun e => (sweptCap rs (f.quad (e.1 / 64) (e.1 % 64)).1).tag }

/-- A store: the granules of a condition. -/
def sweptMem (rs : List (Nat × Nat)) (p : Nat → Bool) (m : Mem) : Mem :=
  { m with tags := m.tags.filter fun e => !p e.1 || (sweptCap rs (Cap.ofBytes (m.read (16 * e.1) 16) e.2)).tag }

def sweptBlocks (rs : List (Nat × Nat)) (bs : List Block) : List Block :=
  bs.map fun (b : Block) => { b with view := { b.view with c := sweptCaps rs b.view.c } }
def sweptFrame (rs : List (Nat × Nat)) (f : Frame) : Frame := { f with blocks := sweptBlocks rs f.blocks }

/-- Held stores of a dual copy. -/
def sweptHold (rs : List (Nat × Nat)) (l : List HoldItem) : List HoldItem :=
  l.map fun h => match h with
    | .store a bs cap poison w plain => .store a bs (cap.map fun t => (sweptCap rs (Cap.ofBytes bs t)).tag) poison w plain
    | .scratch o bs cap poison => .scratch o bs (cap.map fun t => (sweptCap rs (Cap.ofBytes bs t)).tag) poison
    | .device a v => .device a v
    | .push r => .push r

/-- The registers that a team was handed over, or hands over. -/
def sweptRegs (rs : List (Nat × Nat)) (l : List (Nat × Tab Word × Tab Cap)) : List (Nat × Tab Word × Tab Cap) :=
  l.map fun r => (r.1, r.2.1, sweptCaps rs r.2.2)

/-- A packet in processing, or a block that a word has captured, with the tags that it carries. -/
def sweptPacket (rs : List (Nat × Nat)) (p : List Byte × List Bool) : List Byte × List Bool :=
  (p.1, p.2.zipIdx.map fun t => (sweptCap rs (Cap.ofBytes ((p.1.drop (16 * t.2)).take 16) t.1)).tag)

/-- The registers step on a group (R278): `c` registers, quads, frames and queued operands, with its private memory. -/
def sweptGroup (rs : List (Nat × Nat)) (g : Group) : Group :=
  { g with
    c := sweptCaps rs g.c
    lanes := sweptLanes rs g.lanes
    chain := g.chain.map fun c => { c with held := sweptLanes rs c.held }
    queue := sweptBlocks rs g.queue
    entering := g.entering.map fun e => (e.1, e.2.map (sweptPacket rs))
    trapFrame := g.trapFrame.map (sweptFrame rs)
    emuFrame := g.emuFrame.map (sweptFrame rs)
    dualSt := { g.dualSt with hold := sweptHold rs g.dualSt.hold, owed := !g.dualSt.hold.isEmpty }
    priv := sweptMem rs (fun _ => true) g.priv }

/-- The cause with which a copy stops (R278): its source's; else its destination's, which stands for its signal's too. -/
def copyMeets (rs : List (Nat × Nat)) (o : CopyOp) : Option Nat :=
  let hit (c : Cap) : Bool := c.tag && rs.any c.meets
  if hit o.src then some cCPSRC
  else if (!ctrlBuffer o.ctrl && hit o.dst) || (ctrlSig o.ctrl && hit o.signal) then some cCPDST
  else none
/-- The cause with which a collective stops, its own chapter's for its source or its destination (notes/assumptions/53). -/
def clMeets (rs : List (Nat × Nat)) (o : ClOp) : Option Nat :=
  let hit (c : Cap) : Bool := c.tag && rs.any c.meets
  if hit o.src then some cCLSRC
  else if hit o.dst || (clSig o.ctrl && hit o.signal) then some cCLDST
  else none

/-- Engine operations of the partition that hold a captured intersecting capability stop where they stand (R278). -/
def sweepEngines (rs : List (Nat × Nat)) (part : Nat) (m : Mach) : Mach :=
  let copies := m.d.clusters.flatMap fun e => (e.2.copies.filter fun o => o.part = part).map fun o => (e.1, o)
  let loads := m.d.clusters.flatMap fun e => (e.2.loads.filter fun o => o.part = part).map fun o => (e.1, o)
  let colls := m.d.dies.flatMap fun e => (e.2.coll.filter fun o => o.part = part).map fun o => (e.1, o)
  let m := copies.foldl (fun m e => match copyMeets rs e.2 with
    | some code => failCopy m e.1 e.2 code
    | none => m) m
  let m := loads.foldl (fun m e => if e.2.src.tag && rs.any e.2.src.meets then
    endLoad (m.hold e.2.gid .mx e.2.flight cMXSRC) e.1 e.2 else m) m
  colls.foldl (fun m e => match clMeets rs e.2 with
    | some code => failCl m e.1 e.2 code
    | none => m) m

/-- Does the partition's firewall admit a granule? -/
def granuleOf (d : Dev) (part g : Nat) : Bool :=
  match d.pkg.fwFind (16 * g), quarterOf (16 * g) with
  | some e, some q => e.part == part && bit (d.parts.getD part {}).quarters q
  | _, _ => false

/-- The lines of a partition that a pass reads with an error meet it (spec/21 R335). -/
def sweepErrors (part : Nat) (d : Dev) : Dev :=
  d.errors.foldl (fun d e => if (List.range 8).any fun i => granuleOf d part (8 * e.1 + i) then meetErrors d e.1 else d) d

/-- The memory step (R278): memory with its copies in L1s, scratchpads and what the front end keeps for the partition's
contexts, launches, teams and packets. A line that the pass itself finds poisoned is scanned as untagged (spec/21 R347). -/
def sweepMemory (rs : List (Nat × Nat)) (part : Nat) (d : Dev) : Dev :=
  let mine (ctx : Nat) : Bool := (d.ctx ctx).part == part
  let line (l : Nat) (x : LineData) : LineData :=
    { x with tags := (List.range 8).foldl (fun t i =>
        if bit t i && granuleOf d part (8 * l + i)
            && !(sweptCap rs (Cap.ofBytes ((x.bytes.drop (16 * i)).take 16) true)).tag then setBit t i false else t) x.tags }
  let sour (g : Nat) : Bool := (d.errors.find? (g / 8)).any fun e =>
    if 16 * g < Config.hbmTop then e.mac || e.double ≠ 0 || bit e.cached (g % 8 / 2) else bit (e.double ||| e.cached) (g % 8 / 2)
  let d := sweepErrors part d
  let copies (t : Tab Copy) : Tab Copy := t.map fun (e : Nat × Copy) => (e.1, { e.2 with data := line e.1 e.2.data })
  { d with
    mem := sweptMem rs (fun g => granuleOf d part g && !sour g) d.mem
    dies := d.dies.map fun (e : Nat × Die) => (e.1, { e.2 with slots := e.2.slots.map fun q =>
      (q.1, if mine q.2.ctx then { q.2 with pkt := q.2.pkt.map (sweptPacket rs) } else q.2) })
    ctxs := d.ctxs.map fun (e : Nat × Ctx) => (e.1, if e.2.part = part then { e.2 with fault := sweptCap rs e.2.fault } else e.2)
    cores := d.cores.map fun (e : Nat × Core) => (e.1, { e.2 with copies := copies e.2.copies, pushes := copies e.2.pushes })
    pushes := d.pushes.map fun (p : Push) => { p with copy := { p.copy with data := line p.line p.copy.data } }
    teams := d.teams.map fun (e : Nat × Team) => (e.1, if mine e.2.ctx then
      { e.2 with
        scratch := sweptMem rs (fun _ => true) e.2.scratch
        tails := e.2.tails.map fun t => (t.1, sweptCap rs t.2)
        endRegs := sweptRegs rs e.2.endRegs, startRegs := sweptRegs rs e.2.startRegs
        endHold := sweptHold rs e.2.endHold
        kernel := { e.2.kernel with bag := sweptCap rs e.2.kernel.bag } } else e.2)
    launches := d.launches.map fun (e : Nat × Launch) => (e.1, if mine e.2.ctx then
      { e.2 with argC := sweptCaps rs e.2.argC, compl := sweptCap rs e.2.compl
                 kernel := { e.2.kernel with bag := sweptCap rs e.2.kernel.bag } } else e.2) }

/-- The dies of a partition that turn their epoch: a pass pauses with them (R280). -/
def passPaused (d : Dev) (part : Nat) : Bool := (List.range 4).any fun k => partOnDie (d.parts.getD part {}) k && (d.die k).turning

/-- The stores that were held at the register step and have not performed. -/
def passOwed (m : Mach) (part : Nat) : Bool :=
  m.allGroups.any (fun g => g.part = part && g.dualSt.owed)
  || m.d.teams.any fun e => (m.d.ctx e.2.ctx).part == part && e.2.status == .resident && e.2.owed

/-- SWEEP_PASS_COMPLETE (R278): the register step, once every access that has issued at a word held under R102 has performed;
then, once the stores that dual groups held at it have performed, the memory step, and the regions leave the filter. -/
def sweepPassComplete (part : Nat) (m : Mach) : Mach :=
  let p := m.d.parts.getD part {}
  match p.running with
  | none => m
  | some rs =>
    if passPaused m.d part then m
    else if !p.regsDone then
      if m.allGroups.any fun g => g.part = part && !g.heldWords.isEmpty then m
      else
        let m := m.onGroups (fun g => g.part = part) (sweptGroup rs)
        let m := sweepEngines rs part m
        let teams := m.d.teams.map fun (e : Nat × Team) => (e.1, if (m.d.ctx e.2.ctx).part = part then { e.2 with owed := !e.2.endHold.isEmpty } else e.2)
        { m with d := { m.d with teams := teams }.setPart part { (m.d.parts.getD part {}) with regsDone := true } }
    else if passOwed m part then m
    else
      let d := sweepMemory rs part m.d
      let p := d.parts.getD part {}
      { m with d := d.setPart part { p with running := none, lastDone := p.passNo, regsDone := false } }

/-- SWEEP_PASS_COMPLETE (R278). -/
def execSweepPassComplete (part : Nat) (s : State) : Host.Outcome State Fault Refusal :=
  act (fun _ m => sweepPassComplete part m) s

end Sys2Proof.Machine
end

