-- ==== Sys2Proof/Machine/Dispatch.lean ====
section
/-! DEFINITION. One arm per step of spec/opcode_table.json: each calls its meaning. -/

namespace Sys2Proof.Machine

/-- The meaning of each step. -/
def exec (i : Instr) (s : State) : Host.Outcome State Fault Refusal :=
  match i with
  | .sAdd d a b => Sys2Proof.Machine.execSAdd d a b s
  | .sSub d a b => Sys2Proof.Machine.execSSub d a b s
  | .sAnd d a b => Sys2Proof.Machine.execSAnd d a b s
  | .sOr d a b => Sys2Proof.Machine.execSOr d a b s
  | .sXor d a b => Sys2Proof.Machine.execSXor d a b s
  | .sAndn d a b => Sys2Proof.Machine.execSAndn d a b s
  | .sShl d a b => Sys2Proof.Machine.execSShl d a b s
  | .sShr d a b => Sys2Proof.Machine.execSShr d a b s
  | .sSra d a b => Sys2Proof.Machine.execSSra d a b s
  | .sMul d a b => Sys2Proof.Machine.execSMul d a b s
  | .sMulhI d a b => Sys2Proof.Machine.execSMulhI d a b s
  | .sMulhN d a b => Sys2Proof.Machine.execSMulhN d a b s
  | .sDivI d a b => Sys2Proof.Machine.execSDivI d a b s
  | .sDivN d a b => Sys2Proof.Machine.execSDivN d a b s
  | .sRemI d a b => Sys2Proof.Machine.execSRemI d a b s
  | .sRemN d a b => Sys2Proof.Machine.execSRemN d a b s
  | .sSeq d a b => Sys2Proof.Machine.execSSeq d a b s
  | .sSne d a b => Sys2Proof.Machine.execSSne d a b s
  | .sSlt d a b => Sys2Proof.Machine.execSSlt d a b s
  | .sSltn d a b => Sys2Proof.Machine.execSSltn d a b s
  | .sMinI d a b => Sys2Proof.Machine.execSMinI d a b s
  | .sMaxI d a b => Sys2Proof.Machine.execSMaxI d a b s
  | .sMinN d a b => Sys2Proof.Machine.execSMinN d a b s
  | .sMaxN d a b => Sys2Proof.Machine.execSMaxN d a b s
  | .sSel d a b => Sys2Proof.Machine.execSSel d a b s
  | .sClz d a => Sys2Proof.Machine.execSClz d a s
  | .sCtz d a => Sys2Proof.Machine.execSCtz d a s
  | .sPopc d a => Sys2Proof.Machine.execSPopc d a s
  | .sBswap d a => Sys2Proof.Machine.execSBswap d a s
  | .sBextN d a b => Sys2Proof.Machine.execSBextN d a b s
  | .sBextI d a b => Sys2Proof.Machine.execSBextI d a b s
  | .sBins d a b => Sys2Proof.Machine.execSBins d a b s
  | .sAddi d a imm => Sys2Proof.Machine.execSAddi d a imm s
  | .sAndi d a imm => Sys2Proof.Machine.execSAndi d a imm s
  | .sOri d a imm => Sys2Proof.Machine.execSOri d a imm s
  | .sXori d a imm => Sys2Proof.Machine.execSXori d a imm s
  | .sShli d a sh => Sys2Proof.Machine.execSShli d a sh s
  | .sShri d a sh => Sys2Proof.Machine.execSShri d a sh s
  | .sSrai d a sh => Sys2Proof.Machine.execSSrai d a sh s
  | .sSlti d a imm => Sys2Proof.Machine.execSSlti d a imm s
  | .sSltni d a imm => Sys2Proof.Machine.execSSltni d a imm s
  | .sAddhi d a imm => Sys2Proof.Machine.execSAddhi d a imm s
  | .sMuli d a imm => Sys2Proof.Machine.execSMuli d a imm s
  | .sBz a disp => Sys2Proof.Machine.execSBz a disp s
  | .sBnz a disp => Sys2Proof.Machine.execSBnz a disp s
  | .sBlt a disp => Sys2Proof.Machine.execSBlt a disp s
  | .sBge a disp => Sys2Proof.Machine.execSBge a disp s
  | .sBle a disp => Sys2Proof.Machine.execSBle a disp s
  | .sBgt a disp => Sys2Proof.Machine.execSBgt a disp s
  | .sJ disp => Sys2Proof.Machine.execSJ disp s
  | .sCall disp => Sys2Proof.Machine.execSCall disp s
  | .sJr a => Sys2Proof.Machine.execSJr a s
  | .sCallr a => Sys2Proof.Machine.execSCallr a s
  | .sRet => Sys2Proof.Machine.execSRet s
  | .lrun off cnt => Sys2Proof.Machine.execLrun off cnt s
  | .lwait => Sys2Proof.Machine.execLwait s
  | .sWait p a => Sys2Proof.Machine.execSWait p a s
  | .sCnt d p => Sys2Proof.Machine.execSCnt d p s
  | .sMfs d n => Sys2Proof.Machine.execSMfs d n s
  | .sMts n a => Sys2Proof.Machine.execSMts n a s
  | .sLdN8 d c off => Sys2Proof.Machine.execSLdN8 d c off s
  | .sLdN16 d c off => Sys2Proof.Machine.execSLdN16 d c off s
  | .sLdN32 d c off => Sys2Proof.Machine.execSLdN32 d c off s
  | .sLdN64 d c off => Sys2Proof.Machine.execSLdN64 d c off s
  | .sStN8 d c off => Sys2Proof.Machine.execSStN8 d c off s
  | .sStN16 d c off => Sys2Proof.Machine.execSStN16 d c off s
  | .sStN32 d c off => Sys2Proof.Machine.execSStN32 d c off s
  | .sStN64 d c off => Sys2Proof.Machine.execSStN64 d c off s
  | .sLdI8 d c off => Sys2Proof.Machine.execSLdI8 d c off s
  | .sLdI16 d c off => Sys2Proof.Machine.execSLdI16 d c off s
  | .sLdI32 d c off => Sys2Proof.Machine.execSLdI32 d c off s
  | .cLd d c off => Sys2Proof.Machine.execCLd d c off s
  | .cSt d c off => Sys2Proof.Machine.execCSt d c off s
  | .cMov d a => Sys2Proof.Machine.execCMov d a s
  | .cSetb d a b => Sys2Proof.Machine.execCSetb d a b s
  | .cSetbOut d a b => Sys2Proof.Machine.execCSetbOut d a b s
  | .cAddc d a b => Sys2Proof.Machine.execCAddc d a b s
  | .cSetc d a b => Sys2Proof.Machine.execCSetc d a b s
  | .cAndp d a b => Sys2Proof.Machine.execCAndp d a b s
  | .cSetk d a b => Sys2Proof.Machine.execCSetk d a b s
  | .cCleart d a => Sys2Proof.Machine.execCCleart d a s
  | .cGetbase d a => Sys2Proof.Machine.execCGetbase d a s
  | .cGetlen d a => Sys2Proof.Machine.execCGetlen d a s
  | .cGetcur d a => Sys2Proof.Machine.execCGetcur d a s
  | .cGetp d a => Sys2Proof.Machine.execCGetp d a s
  | .cGetk d a => Sys2Proof.Machine.execCGetk d a s
  | .cGetcol d a => Sys2Proof.Machine.execCGetcol d a s
  | .cGett d a => Sys2Proof.Machine.execCGett d a s
  | .cGetlim d a => Sys2Proof.Machine.execCGetlim d a s
  | .cSeal d a b => Sys2Proof.Machine.execCSeal d a b s
  | .cOpen d a b => Sys2Proof.Machine.execCOpen d a b s
  | .cRlen d a => Sys2Proof.Machine.execCRlen d a s
  | .cRalign d a => Sys2Proof.Machine.execCRalign d a s
  | .syAcq d a sc => Sys2Proof.Machine.execSyAcq d a sc s
  | .syRel a b sc => Sys2Proof.Machine.execSyRel a b sc s
  | .syFence sc => Sys2Proof.Machine.execSyFence sc s
  | .syMwait d a b sc => Sys2Proof.Machine.execSyMwait d a b sc s
  | .syLd d a => Sys2Proof.Machine.execSyLd d a s
  | .sySt a b => Sys2Proof.Machine.execSySt a b s
  | .syBind d a b => Sys2Proof.Machine.execSyBind d a b s
  | .syUnbind a b => Sys2Proof.Machine.execSyUnbind a b s
  | .syBar d => Sys2Proof.Machine.execSyBar d s
  | .syRmw d a b op ord sc => Sys2Proof.Machine.execSyRmw d a b op ord sc s
  | .cpRun a => Sys2Proof.Machine.execCpRun a s
  | .clRun a => Sys2Proof.Machine.execClRun a s
  | .clGive a b => Sys2Proof.Machine.execClGive a b s
  | .mxLdb o a l => Sys2Proof.Machine.execMxLdb o a l s
  | .mxRes d a b f => Sys2Proof.Machine.execMxRes d a b f s
  | .mxFree a => Sys2Proof.Machine.execMxFree a s
  | .mxAzero a => Sys2Proof.Machine.execMxAzero a s
  | .mxRinfo d a => Sys2Proof.Machine.execMxRinfo d a s
  | .recBegin a => Sys2Proof.Machine.execRecBegin a s
  | .recEnd a => Sys2Proof.Machine.execRecEnd a s
  | .recReplay a => Sys2Proof.Machine.execRecReplay a s
  | .recRerecord a => Sys2Proof.Machine.execRecRerecord a s
  | .recDrop a => Sys2Proof.Machine.execRecDrop a s
  | .recStatus d a => Sys2Proof.Machine.execRecStatus d a s
  | .recRte d a => Sys2Proof.Machine.execRecRte d a s
  | .swRevoke d a => Sys2Proof.Machine.execSwRevoke d a s
  | .swStatus d => Sys2Proof.Machine.execSwStatus d s
  | .swWait a => Sys2Proof.Machine.execSwWait a s
  | .chkErr d => Sys2Proof.Machine.execChkErr d s
  | .chkErrT d => Sys2Proof.Machine.execChkErrT d s
  | .chkClr => Sys2Proof.Machine.execChkClr s
  | .sEmu code => Sys2Proof.Machine.execSEmu code s
  | .sysEnd => Sys2Proof.Machine.execSysEnd s
  | .sysTret => Sys2Proof.Machine.execSysTret s
  | .sysYield => Sys2Proof.Machine.execSysYield s
  | .sysTime d => Sys2Proof.Machine.execSysTime d s
  | .sTail a => Sys2Proof.Machine.execSTail a s
  | .sysEmuret => Sys2Proof.Machine.execSysEmuret s
  | .vAdd t w => Sys2Proof.Machine.execVAdd t w s
  | .vSub t w => Sys2Proof.Machine.execVSub t w s
  | .vMul t w => Sys2Proof.Machine.execVMul t w s
  | .vFma t w => Sys2Proof.Machine.execVFma t w s
  | .vMin t w => Sys2Proof.Machine.execVMin t w s
  | .vMax t w => Sys2Proof.Machine.execVMax t w s
  | .vAnd t w => Sys2Proof.Machine.execVAnd t w s
  | .vOr t w => Sys2Proof.Machine.execVOr t w s
  | .vXor t w => Sys2Proof.Machine.execVXor t w s
  | .vShl t w => Sys2Proof.Machine.execVShl t w s
  | .vShr t w => Sys2Proof.Machine.execVShr t w s
  | .vMov t w => Sys2Proof.Machine.execVMov t w s
  | .vAbs t w => Sys2Proof.Machine.execVAbs t w s
  | .vNeg t w => Sys2Proof.Machine.execVNeg t w s
  | .vMulhi t w => Sys2Proof.Machine.execVMulhi t w s
  | .vClamp t w => Sys2Proof.Machine.execVClamp t w s
  | .vAddNarrow ce t x y => Sys2Proof.Machine.execVAddNarrow ce t x y s
  | .vSubNarrow ce t x y => Sys2Proof.Machine.execVSubNarrow ce t x y s
  | .vMulNarrow ce t x y => Sys2Proof.Machine.execVMulNarrow ce t x y s
  | .vFmaNarrow ce t x y => Sys2Proof.Machine.execVFmaNarrow ce t x y s
  | .vMinNarrow ce t x y => Sys2Proof.Machine.execVMinNarrow ce t x y s
  | .vMaxNarrow ce t x y => Sys2Proof.Machine.execVMaxNarrow ce t x y s
  | .vAndNarrow ce t x y => Sys2Proof.Machine.execVAndNarrow ce t x y s
  | .vOrNarrow ce t x y => Sys2Proof.Machine.execVOrNarrow ce t x y s
  | .vXorNarrow ce t x y => Sys2Proof.Machine.execVXorNarrow ce t x y s
  | .vShlNarrow ce t x y => Sys2Proof.Machine.execVShlNarrow ce t x y s
  | .vShrNarrow ce t x y => Sys2Proof.Machine.execVShrNarrow ce t x y s
  | .vMovNarrow ce t x y => Sys2Proof.Machine.execVMovNarrow ce t x y s
  | .vAbsNarrow ce t x y => Sys2Proof.Machine.execVAbsNarrow ce t x y s
  | .vNegNarrow ce t x y => Sys2Proof.Machine.execVNegNarrow ce t x y s
  | .vMulhiNarrow ce t x y => Sys2Proof.Machine.execVMulhiNarrow ce t x y s
  | .vClampNarrow ce t x y => Sys2Proof.Machine.execVClampNarrow ce t x y s
  | .vNop f => Sys2Proof.Machine.execVNop f s
  | .vAddInt w => Sys2Proof.Machine.execVAddInt w s
  | .vSubInt w => Sys2Proof.Machine.execVSubInt w s
  | .vMulInt w => Sys2Proof.Machine.execVMulInt w s
  | .vFmaInt w => Sys2Proof.Machine.execVFmaInt w s
  | .vMinInt w => Sys2Proof.Machine.execVMinInt w s
  | .vMaxInt w => Sys2Proof.Machine.execVMaxInt w s
  | .vAndInt w => Sys2Proof.Machine.execVAndInt w s
  | .vOrInt w => Sys2Proof.Machine.execVOrInt w s
  | .vXorInt w => Sys2Proof.Machine.execVXorInt w s
  | .vShlInt w => Sys2Proof.Machine.execVShlInt w s
  | .vShrInt w => Sys2Proof.Machine.execVShrInt w s
  | .vMovInt w => Sys2Proof.Machine.execVMovInt w s
  | .vAbsInt w => Sys2Proof.Machine.execVAbsInt w s
  | .vNegInt w => Sys2Proof.Machine.execVNegInt w s
  | .vMulhiInt w => Sys2Proof.Machine.execVMulhiInt w s
  | .vClampInt w => Sys2Proof.Machine.execVClampInt w s
  | .vDiv w => Sys2Proof.Machine.execVDiv w s
  | .vRem w => Sys2Proof.Machine.execVRem w s
  | .vCvt w => Sys2Proof.Machine.execVCvt w s
  | .vPkd8 w => Sys2Proof.Machine.execVPkd8 w s
  | .vUpkd8 w => Sys2Proof.Machine.execVUpkd8 w s
  | .vD8sc w => Sys2Proof.Machine.execVD8sc w s
  | .vPmul w => Sys2Proof.Machine.execVPmul w s
  | .vPconj w => Sys2Proof.Machine.execVPconj w s
  | .vPvec w => Sys2Proof.Machine.execVPvec w s
  | .vPres w => Sys2Proof.Machine.execVPres w s
  | .vPcmp w => Sys2Proof.Machine.execVPcmp w s
  | .vSin w => Sys2Proof.Machine.execVSin w s
  | .vCos w => Sys2Proof.Machine.execVCos w s
  | .vAtan2 w => Sys2Proof.Machine.execVAtan2 w s
  | .vExp w => Sys2Proof.Machine.execVExp w s
  | .vLn w => Sys2Proof.Machine.execVLn w s
  | .vTanh w => Sys2Proof.Machine.execVTanh w s
  | .vSigm w => Sys2Proof.Machine.execVSigm w s
  | .vSqrt w => Sys2Proof.Machine.execVSqrt w s
  | .vRsq w => Sys2Proof.Machine.execVRsq w s
  | .vDivCordic w => Sys2Proof.Machine.execVDivCordic w s
  | .vIf w => Sys2Proof.Machine.execVIf w s
  | .vElse w => Sys2Proof.Machine.execVElse w s
  | .vEndif w => Sys2Proof.Machine.execVEndif w s
  | .vLoop w => Sys2Proof.Machine.execVLoop w s
  | .vBreak w => Sys2Proof.Machine.execVBreak w s
  | .vCont w => Sys2Proof.Machine.execVCont w s
  | .vEndloop w => Sys2Proof.Machine.execVEndloop w s
  | .vCmp w => Sys2Proof.Machine.execVCmp w s
  | .vBallot w => Sys2Proof.Machine.execVBallot w s
  | .vVote w => Sys2Proof.Machine.execVVote w s
  | .vShfl w => Sys2Proof.Machine.execVShfl w s
  | .vRed w => Sys2Proof.Machine.execVRed w s
  | .vScan w => Sys2Proof.Machine.execVScan w s
  | .vPred w => Sys2Proof.Machine.execVPred w s
  | .vLd w => Sys2Proof.Machine.execVLd w s
  | .vSt w => Sys2Proof.Machine.execVSt w s
  | .vGld w => Sys2Proof.Machine.execVGld w s
  | .vSst w => Sys2Proof.Machine.execVSst w s
  | .vCld w => Sys2Proof.Machine.execVCld w s
  | .vCst w => Sys2Proof.Machine.execVCst w s
  | .cBcast w => Sys2Proof.Machine.execCBcast w s
  | .vCaddc w => Sys2Proof.Machine.execVCaddc w s
  | .vCsetb w => Sys2Proof.Machine.execVCsetb w s
  | .vCget w => Sys2Proof.Machine.execVCget w s
  | .vCandp w => Sys2Proof.Machine.execVCandp w s
  | .vAmo w => Sys2Proof.Machine.execVAmo w s
  | .cpLrun w => Sys2Proof.Machine.execCpLrun w s
  | .mxMma w => Sys2Proof.Machine.execMxMma w s
  | .mxRd w => Sys2Proof.Machine.execMxRd w s
  | .mxWr w => Sys2Proof.Machine.execMxWr w s
  | .mxResolve w => Sys2Proof.Machine.execMxResolve w s
  | .vTpsn w => Sys2Proof.Machine.execVTpsn w s
  | .vCpsn w => Sys2Proof.Machine.execVCpsn w s
  | .vEmu n w => Sys2Proof.Machine.execVEmu n w s
  | .emulationEntry r word => Sys2Proof.Machine.execEmulationEntry r word s
  | .trapEntry code => Sys2Proof.Machine.execTrapEntry code s
  | .barrierComplete team => Sys2Proof.Machine.execBarrierComplete team s
  | .mwaitWake gid => Sys2Proof.Machine.execMwaitWake gid s
  | .cpCheck cl op => Sys2Proof.Machine.execCpCheck cl op s
  | .cpCopy cl op => Sys2Proof.Machine.execCpCopy cl op s
  | .cpComplete cl op => Sys2Proof.Machine.execCpComplete cl op s
  | .clMatch die op members => Sys2Proof.Machine.execClMatch die op members s
  | .clComplete die op => Sys2Proof.Machine.execClComplete die op s
  | .cltimeout die op => Sys2Proof.Machine.execCltimeout die op s
  | .mxLdbComplete cl op => Sys2Proof.Machine.execMxLdbComplete cl op s
  | .arbiterGrant cl => Sys2Proof.Machine.execArbiterGrant cl s
  | .mxEntryComplete cl op => Sys2Proof.Machine.execMxEntryComplete cl op s
  | .pushArrival push => Sys2Proof.Machine.execPushArrival push s
  | .sweepPassStart part => Sys2Proof.Machine.execSweepPassStart part s
  | .sweepPassComplete part => Sys2Proof.Machine.execSweepPassComplete part s
  | .nevWindowEnd ctx cls => Sys2Proof.Machine.execNevWindowEnd ctx cls s
  | .exitInject gid => Sys2Proof.Machine.execExitInject gid s
  | .starvationRaise gid lane => Sys2Proof.Machine.execStarvationRaise gid lane s
  | .registerRefill gid r => Sys2Proof.Machine.execRegisterRefill gid r s
  | .teamAdmit launch die core => Sys2Proof.Machine.execTeamAdmit launch die core s
  | .preemptRequest team => Sys2Proof.Machine.execPreemptRequest team s
  | .drainExpiry team => Sys2Proof.Machine.execDrainExpiry team s
  | .teamSave team => Sys2Proof.Machine.execTeamSave team s
  | .teamRestore team die core => Sys2Proof.Machine.execTeamRestore team die core s
  | .teamRelaunch team die core => Sys2Proof.Machine.execTeamRelaunch team die core s
  | .copyDrop die core line => Sys2Proof.Machine.execCopyDrop die core line s
  | .ptsTick die => Sys2Proof.Machine.execPtsTick die s
  | .epochTurn die => Sys2Proof.Machine.execEpochTurn die s
  | .cohctlWrite die v => Sys2Proof.Machine.execCohctlWrite die v s
  | .calcfgWrite die v => Sys2Proof.Machine.execCalcfgWrite die v s
  | .carveChangeDone die => Sys2Proof.Machine.execCarveChangeDone die s
  | .doorbell die v => Sys2Proof.Machine.execDoorbell die v s
  | .vdoor fn die v => Sys2Proof.Machine.execVdoor fn die v s
  | .dberrClear die => Sys2Proof.Machine.execDberrClear die s
  | .queueMapPending die => Sys2Proof.Machine.execQueueMapPending die s
  | .sortRound die => Sys2Proof.Machine.execSortRound die s
  | .pktLaunch die slot => Sys2Proof.Machine.execPktLaunch die slot s
  | .pktWrite die slot => Sys2Proof.Machine.execPktWrite die slot s
  | .pktSignal die slot => Sys2Proof.Machine.execPktSignal die slot s
  | .pktWait die slot => Sys2Proof.Machine.execPktWait die slot s
  | .pktCopy die slot cl => Sys2Proof.Machine.execPktCopy die slot cl s
  | .pktBarrier die slot => Sys2Proof.Machine.execPktBarrier die slot s
  | .pktFence die slot => Sys2Proof.Machine.execPktFence die slot s
  | .waitReread die slot => Sys2Proof.Machine.execWaitReread die slot s
  | .faultwait die slot => Sys2Proof.Machine.execFaultwait die slot s
  | .hatResident die q => Sys2Proof.Machine.execHatResident die q s
  | .nodeLaunch launch die core => Sys2Proof.Machine.execNodeLaunch launch die core s
  | .nodeTimer launch die core => Sys2Proof.Machine.execNodeTimer launch die core s
  | .periodStart die q => Sys2Proof.Machine.execPeriodStart die q s
  | .budgetAccrue die q => Sys2Proof.Machine.execBudgetAccrue die q s
  | .scheduleDecision die => Sys2Proof.Machine.execScheduleDecision die s
  | .ageingBoost die q => Sys2Proof.Machine.execAgeingBoost die q s
  | .contextRemoval ctx => Sys2Proof.Machine.execContextRemoval ctx s
  | .dualCheckpoint team => Sys2Proof.Machine.execDualCheckpoint team s
  | .ctxCreate blk => Sys2Proof.Machine.execCtxCreate blk s
  | .ctxRemove blk => Sys2Proof.Machine.execCtxRemove blk s
  | .partSet blk => Sys2Proof.Machine.execPartSet blk s
  | .fwSet blk => Sys2Proof.Machine.execFwSet blk s
  | .importBlob blk => Sys2Proof.Machine.execImportBlob blk s
  | .logRead blk => Sys2Proof.Machine.execLogRead blk s
  | .logSign blk => Sys2Proof.Machine.execLogSign blk s
  | .attest blk => Sys2Proof.Machine.execAttest blk s
  | .eventDelivery => Sys2Proof.Machine.execEventDelivery s
  | .egressWindowEnd n => Sys2Proof.Machine.execEgressWindowEnd n s
  | .pwrcapWrite v => Sys2Proof.Machine.execPwrcapWrite v s
  | .throttle die up => Sys2Proof.Machine.execThrottle die up s
  | .bootStage next => Sys2Proof.Machine.execBootStage next s
  | .linkTrain mode => Sys2Proof.Machine.execLinkTrain mode s
  | .hotReset linkUp => Sys2Proof.Machine.execHotReset linkUp s
  | .hatwWrite n word1 v => Sys2Proof.Machine.execHatwWrite n word1 v s
  | .hatmiss n => Sys2Proof.Machine.execHatmiss n s
  | .hostSnoop line inv => Sys2Proof.Machine.execHostSnoop line inv s
  | .probeTimeout die => Sys2Proof.Machine.execProbeTimeout die s
  | .remoteRequest r => Sys2Proof.Machine.execRemoteRequest r s
  | .portDown port => Sys2Proof.Machine.execPortDown port s
  | .idleFlit port => Sys2Proof.Machine.execIdleFlit port s
  | .peerLost peer => Sys2Proof.Machine.execPeerLost peer s
  | .vqack fn v => Sys2Proof.Machine.execVqack fn v s
  | .fwActivate v => Sys2Proof.Machine.execFwActivate v s
  | .fwActivateSwitch => Sys2Proof.Machine.execFwActivateSwitch s
  | .fwActivateTimeout => Sys2Proof.Machine.execFwActivateTimeout s
  | .registerWrite addr v => Sys2Proof.Machine.execRegisterWrite addr v s
  | .memoryWordComplete gid op => Sys2Proof.Machine.execMemoryWordComplete gid op s
  | .remoteAccessComplete gid op refused data psn => Sys2Proof.Machine.execRemoteAccessComplete gid op refused data psn s
  | .hostRequest r => Sys2Proof.Machine.execHostRequest r s
  | .backInvalidationAnswer line inFlight => Sys2Proof.Machine.execBackInvalidationAnswer line inFlight s
  | .swiundPortTrain port idx => Sys2Proof.Machine.execSwiundPortTrain port idx s
  | .spdmSession port part peer => Sys2Proof.Machine.execSpdmSession port part peer s
  | .swstRetryClear port => Sys2Proof.Machine.execSwstRetryClear port s
  | .diePowerGate die => Sys2Proof.Machine.execDiePowerGate die s
  | .importComplete => Sys2Proof.Machine.execImportComplete s
  | .epochTurnComplete die => Sys2Proof.Machine.execEpochTurnComplete die s

end Sys2Proof.Machine
end

