-- ==== Sys2Proof/Machine/Issue.lean ====
section
/-! DEFINITION. Issue: what the group on turn fetches, when it may issue, how far the scalar thread runs ahead of the lanes,
and what moves while it waits (spec/02 R11, R27; spec/04 R70-R72; spec/05 R96; spec/09 R186; spec/12 R196-R200). -/

namespace Sys2Proof.Machine

/-! ### Fetching -/

/-- The scalar word at the scalar program counter (R11). -/
def scalarWordAt (d : Dev) (a : Nat) : BitVec 32 := BitVec.ofNat 32 (d.mem.num (localAddr d a) 4)

/-- Lane word n of a group's lane section (R11). -/
def laneWordAt (d : Dev) (g : Group) (n : Nat) : BitVec 96 :=
  BitVec.ofNat 96 (d.mem.num (localAddr d (g.laneBase + 12 * n)) 12)

/-- The lines of a fetch whose stored bits hold an error are read first: the errors are met (spec/21 R335). None: there are none. -/
def fetchErrors (d : Dev) (a n : Nat) : Option Dev :=
  if d.errors.isEmpty then none
  else
    let ls := (lineRuns (localAddr d a) (n + 1) n).map fun r => r.1 / 128
    if ls.any fun l => (d.errors.find? l).isSome && (homeDie (128 * l)).isSome then some (ls.foldl meetErrors d) else none

/-! ### Registers that a scalar word reads and writes -/

/-- The registers that a scalar word reads: `s`k as k, `c`k as 64 + k, `m`k as 128 + k. -/
def scalarReads (i : Instr) : List Nat :=
  match i with
  | .sAdd _ a b | .sSub _ a b | .sAnd _ a b | .sOr _ a b | .sXor _ a b | .sAndn _ a b | .sShl _ a b | .sShr _ a b
  | .sSra _ a b | .sMul _ a b | .sMulhI _ a b | .sMulhN _ a b | .sDivI _ a b | .sDivN _ a b | .sRemI _ a b | .sRemN _ a b
  | .sSeq _ a b | .sSne _ a b | .sSlt _ a b | .sSltn _ a b | .sMinI _ a b | .sMaxI _ a b | .sMinN _ a b | .sMaxN _ a b
  | .sBextN _ a b | .sBextI _ a b | .mxRes _ a b _ => [a.toNat, b.toNat]
  | .sSel d a b | .sBins d a b => [d.toNat, a.toNat, b.toNat]
  | .sClz _ a | .sCtz _ a | .sPopc _ a | .sBswap _ a | .cRlen _ a | .cRalign _ a | .mxRinfo _ a | .recStatus _ a
  | .recRte _ a | .sJr a | .sCallr a | .sMts _ a | .sWait _ a | .mxFree a | .mxAzero a | .recBegin a | .recEnd a
  | .recReplay a | .recRerecord a | .recDrop a | .swWait a => [a.toNat]
  | .sAddi _ a _ | .sAndi _ a _ | .sOri _ a _ | .sXori _ a _ | .sSlti _ a _ | .sSltni _ a _ | .sAddhi _ a _
  | .sMuli _ a _ => [a.toNat]
  | .sShli _ a _ | .sShri _ a _ | .sSrai _ a _ => [a.toNat]
  | .sBz a _ | .sBnz a _ | .sBlt a _ | .sBge a _ | .sBle a _ | .sBgt a _ => [a.toNat]
  | .sMfs _ n => if 0x31 ≤ n.toNat ∧ n.toNat ≤ 0x37 then [128 + (n.toNat - 0x30)] else []
  | .sLdN8 _ c _ | .sLdN16 _ c _ | .sLdN32 _ c _ | .sLdN64 _ c _ | .sLdI8 _ c _ | .sLdI16 _ c _ | .sLdI32 _ c _
  | .cLd _ c _ => [64 + c.toNat]
  | .sStN8 a c _ | .sStN16 a c _ | .sStN32 a c _ | .sStN64 a c _ => [a.toNat, 64 + c.toNat]
  | .cSt d c _ => [64 + d.toNat, 64 + c.toNat]
  | .cMov _ a | .cCleart _ a => [64 + a.toNat]
  | .cSetb _ a b | .cSetbOut _ a b | .cAddc _ a b | .cSetc _ a b | .cAndp _ a b | .cSetk _ a b | .cSeal _ a b =>
    [64 + a.toNat, b.toNat]
  | .cGetbase _ a | .cGetlen _ a | .cGetcur _ a | .cGetp _ a | .cGetk _ a | .cGetcol _ a | .cGett _ a | .cGetlim _ a
  | .syLd _ a | .swRevoke _ a => [64 + a.toNat]
  | .cOpen _ a b | .syBind _ a b => [64 + a.toNat, 64 + b.toNat]
  | .syAcq _ a _ => [64 + a.toNat]
  | .syRel a b _ => [64 + a.toNat, b.toNat]
  | .syMwait _ a b _ => [64 + a.toNat, b.toNat]
  | .sySt a b | .syUnbind a b => [64 + a.toNat, b.toNat]
  | .syRmw d a b .cas _ _ => [d.toNat, 64 + a.toNat, b.toNat]
  | .syRmw _ a b _ _ _ => [64 + a.toNat, b.toNat]
  | .cpRun a | .clRun a | .sTail a => [64 + a.toNat]
  | .clGive a b => [64 + a.toNat, 64 + b.toNat]
  | .mxLdb o a l => [o.toNat, 64 + a.toNat, l.toNat]
  | _ => []

/-- The registers that a scalar word writes: `s`k as k, `c`k as 64 + k, `m`k as 128 + k. -/
def scalarWrites (i : Instr) : List Nat :=
  match i with
  | .sAdd d _ _ | .sSub d _ _ | .sAnd d _ _ | .sOr d _ _ | .sXor d _ _ | .sAndn d _ _ | .sShl d _ _ | .sShr d _ _
  | .sSra d _ _ | .sMul d _ _ | .sMulhI d _ _ | .sMulhN d _ _ | .sDivI d _ _ | .sDivN d _ _ | .sRemI d _ _ | .sRemN d _ _
  | .sSeq d _ _ | .sSne d _ _ | .sSlt d _ _ | .sSltn d _ _ | .sMinI d _ _ | .sMaxI d _ _ | .sMinN d _ _ | .sMaxN d _ _
  | .sSel d _ _ | .sBextN d _ _ | .sBextI d _ _ | .sBins d _ _ | .mxRes d _ _ _ => [d.toNat]
  | .sClz d _ | .sCtz d _ | .sPopc d _ | .sBswap d _ | .cRlen d _ | .cRalign d _ | .mxRinfo d _ | .recStatus d _
  | .recRte d _ => [d.toNat]
  | .sAddi d _ _ | .sAndi d _ _ | .sOri d _ _ | .sXori d _ _ | .sSlti d _ _ | .sSltni d _ _ | .sAddhi d _ _
  | .sMuli d _ _ => [d.toNat]
  | .sShli d _ _ | .sShri d _ _ | .sSrai d _ _ => [d.toNat]
  | .sCnt d _ | .sMfs d _ => [d.toNat]
  | .sLdN8 d _ _ | .sLdN16 d _ _ | .sLdN32 d _ _ | .sLdN64 d _ _ | .sLdI8 d _ _ | .sLdI16 d _ _ | .sLdI32 d _ _ => [d.toNat]
  | .cGetbase d _ | .cGetlen d _ | .cGetcur d _ | .cGetp d _ | .cGetk d _ | .cGetcol d _ | .cGett d _ | .cGetlim d _
  | .syLd d _ | .swRevoke d _ => [d.toNat]
  | .syAcq d _ _ => [d.toNat]
  | .syMwait d _ _ _ => [d.toNat]
  | .syBind d _ _ => [d.toNat]
  | .syRmw d _ _ _ _ _ => [d.toNat]
  | .syBar d | .swStatus d | .chkErr d | .chkErrT d | .sysTime d => [d.toNat]
  | .cLd d _ _ | .cMov d _ | .cCleart d _ | .cSetb d _ _ | .cSetbOut d _ _ | .cAddc d _ _ | .cSetc d _ _ | .cAndp d _ _
  | .cSetk d _ _ | .cSeal d _ _ | .cOpen d _ _ => [64 + d.toNat]
  | .sMts n _ => if 0x31 ≤ n.toNat ∧ n.toNat ≤ 0x37 then [128 + (n.toNat - 0x30)] else []
  | _ => []

/-! ### Running ahead (R72) -/

/-- The lane words of each queued block that have not completed: their indices in the lane section. -/
def blockWords (g : Group) : List (List Nat) :=
  match g.queue with
  | [] => []
  | b :: bs => (List.range (b.start + b.count - g.lpos)).map (g.lpos + ·)
      :: bs.map fun c => (List.range c.count).map (c.start + ·)

/-- The lane words of a group that have not completed. -/
def pendingLanes (g : Group) : List Nat := (blockWords g).flatten

/-- The scalar-side registers that a lane word reads and writes, numbered as for a scalar word. -/
structure LaneUse where
  reads : List Nat := []
  writes : List Nat := []

/-- What a wide lane word reads and writes of the scalar side (spec/04 R71, R80, spec/08 R155): `s`k through selector 265,
its mask MS, the mask of a ballot or vote, the old mask of a compare with `and` or `or`, the capability that it names; a scalar or
mask destination. `v.nop` and the structured words without a condition do not read MS (spec/07 R127). -/
def wideUse (op10 : Nat) (x : Wide) : LaneUse :=
  let n := (laneInfo op10 x).getD {}
  let src (r : Bool) (s : BitVec 9) : List Nat := if r && decide (s.toNat = 265) then [x.imm.toNat % 64] else []
  let mask (k : Nat) : List Nat := if k = 0 then [] else [128 + k]
  { reads := src n.readA x.sa ++ src n.readB x.sb ++ src n.readC x.sc
      ++ (if [0x07F, 0x1C1, 0x1C2, 0x1C3, 0x1C6].contains op10 then [] else mask x.ms.toNat)
      ++ (if op10 = 0x1D0 && x.aux2 != 0 then mask (maskDst x) else [])
      ++ (if op10 = 0x1D8 || op10 = 0x1D9 then mask (x.aux5 % 8) else [])
      ++ (if [0x282, 0x283, 0x286].contains op10 then [64 + x.ck.toNat] else [])
    writes := match n.dest with
      | .scalar => if x.ws then [] else [x.dst.toNat % 64]
      | .mask => mask (maskDst x)
      | .none | .vreg | .quad => [] }

/-- What a lane word reads and writes of the scalar side. -/
def laneUse (w : BitVec 96) : LaneUse :=
  match decodeLane w with
  | .error _ => {}
  | .ok i => match i.wide? with
    | none => {}
    | some (op10, x) => wideUse op10 x

/-- Does a scalar word access memory? -/
def scalarAccesses (i : Instr) : Bool :=
  match i with
  | .sLdN8 _ _ _ | .sLdN16 _ _ _ | .sLdN32 _ _ _ | .sLdN64 _ _ _ | .sLdI8 _ _ _ | .sLdI16 _ _ _ | .sLdI32 _ _ _ => true
  | .sStN8 _ _ _ | .sStN16 _ _ _ | .sStN32 _ _ _ | .sStN64 _ _ _ | .cLd _ _ _ | .cSt _ _ _ => true
  | .syLd _ _ | .sySt _ _ | .syAcq _ _ _ | .syRel _ _ _ | .syMwait _ _ _ _ | .syRmw _ _ _ _ _ _ => true
  | .syBind _ _ _ | .syUnbind _ _ => true
  | _ => false

/-- Does a scalar word issue an engine operation or a capability give (R90: Fork)? -/
def scalarForks (i : Instr) : Bool :=
  match i with
  | .cpRun _ | .clRun _ | .clGive _ _ | .mxLdb _ _ _ => true
  | _ => false

/-- Does a lane word access memory? -/
def laneAccesses (w : BitVec 96) : Bool :=
  match decodeLane w with
  | .ok (.vLd _) | .ok (.vSt _) | .ok (.vGld _) | .ok (.vSst _) | .ok (.vCld _) | .ok (.vCst _) | .ok (.vAmo _) => true
  | _ => false

/-- Does a lane word issue copies? A later fork of the group is ordered after it on the copy path (spec/13 R232, R233). -/
def laneForks (w : BitVec 96) : Bool :=
  match decodeLane w with
  | .ok (.cpLrun _) => true
  | _ => false

/-- Must a fork wait: for the memory words and the copies that are pending in the lane stream, or for a held access (R90)? -/
def forkWaits (d : Dev) (g : Group) : Bool :=
  !g.heldWords.isEmpty || (pendingLanes g).any fun k => laneAccesses (laneWordAt d g k) || laneForks (laneWordAt d g k)

/-- Must a scalar word stall on the lane words that are pending? The rows of R72, and the moves that first wait as `lwait`
(R105). -/
def mustStall (d : Dev) (g : Group) (i : Instr) : Bool :=
  let ahead := pendingLanes g
  match i with
  | .sMfs _ n => !ahead.isEmpty && specialWaits false n.toNat || clashes ahead
  | .sMts n _ => !ahead.isEmpty && specialWaits true n.toNat || clashes ahead
  | _ => clashes ahead
where
  /-- A pending lane word writes what the word reads or writes, or reads what it writes. -/
  clashes (ahead : List Nat) : Bool :=
    let mine := scalarReads i ++ scalarWrites i
    ahead.any fun n =>
      let u := laneUse (laneWordAt d g n)
      (u.writes.any fun k => k ≠ 0 && mine.contains k) || u.reads.any fun k => k ≠ 0 && (scalarWrites i).contains k

/-- The queued blocks up to the last one that holds a pending lane memory word: what a scalar access is held behind
(R102). -/
def blocksAhead (d : Dev) (g : Group) : Nat :=
  (blockWords g).zipIdx.foldl (fun n e => if e.1.any (fun k => laneAccesses (laneWordAt d g k)) then e.2 + 1 else n) 0

/-! ### Held scalar accesses (R102) -/

/-- May a word's access be held? A word that releases, or binds, waits for the lanes itself; in a `prc` group a word that
reads memory completes before any later scalar word issues (R101). -/
def holdable (g : Group) (i : Instr) : Bool :=
  match i with
  | .sLdN8 _ _ _ | .sLdN16 _ _ _ | .sLdN32 _ _ _ | .sLdN64 _ _ _ | .sLdI8 _ _ _ | .sLdI16 _ _ _ | .sLdI32 _ _ _ => !g.prc
  | .cLd _ _ _ | .syLd _ _ | .syAcq _ _ _ | .syRmw _ _ _ _ .rlx _ | .syRmw _ _ _ _ .acq _ => !g.prc
  | .sStN8 _ _ _ | .sStN16 _ _ _ | .sStN32 _ _ _ | .sStN64 _ _ _ | .cSt _ _ _ | .sySt _ _ => true
  | _ => false

/-- The registers that held words still have to write: busy. -/
def busyRegs (g : Group) : List Nat :=
  (g.heldWords.flatMap fun h => match decodeScalar h.word with
    | .ok i => scalarWrites i
    | .error _ => []).filter fun k => k ≠ 0

/-- Does a word use a busy register? An `lrun` reads every scalar register for its block (R71). -/
def usesBusy (g : Group) (i : Instr) : Bool :=
  match i with
  | .lrun _ _ => !(busyRegs g).isEmpty
  | i => (scalarReads i ++ scalarWrites i).any (busyRegs g).contains

/-- The held access that may perform now, with those behind it: the lane words that it was held behind have completed. -/
def heldReady (g : Group) : Option (HeldWord × List HeldWord) :=
  match g.heldWords with
  | h :: rest => if h.blocks = 0 then some (h, rest) else none
  | [] => none

/-- The group with a held word's operands in place, at its address. -/
def Group.asHeld (g : Group) (h : HeldWord) (rest : List HeldWord) : Group :=
  { g with heldWords := rest, s := h.s, c := h.c, pc := h.at_, queue := [], lpos := 0 }

/-- What the access wrote joins the group as it stands: `t` gives the word's own registers. -/
def Group.joinHeld (g : Group) (t : Group) (ws : List Nat) : Group :=
  { t with
    s := (ws.filter (· < 64)).foldl (fun s k => s.set k (t.s.getD k 0) 0) g.s
    c := (ws.filter fun k => decide (64 ≤ k) && decide (k < 128)).foldl (fun c k => c.set (k - 64) (t.c.getD (k - 64) {}) {}) g.c
    pc := g.pc, queue := g.queue, lpos := g.lpos }

/-- A held access performs. Its checks passed at issue; one that is refused only now performs nothing and writes zero
(notes/assumptions/50). One that waits for a checkpoint of its pair stays held (spec/18 R319). -/
def performHeld (h : HeldWord) (rest : List HeldWord) (s : State) : Host.Outcome State Fault Refusal :=
  let g := s.grp
  match decodeScalar h.word with
  | .error _ => .next { s with grp := { g with heldWords := rest } }
  | .ok i =>
    match exec i { s with grp := g.asHeld h rest } with
    | .next t =>
      if t.stalled || (t.grp.live && t.grp.pc == h.at_) then .next { t with grp := { g with dualSt := t.grp.dualSt } }
      else if !t.grp.live then .next t
      else if t.grp.pc == h.at_ + 4 && t.grp.inHandler == g.inHandler then .next { t with grp := g.joinHeld t.grp (scalarWrites i) }
      else .next { s with grp := (g.joinHeld { g with heldWords := rest, s := [], c := [] } (scalarWrites i)) }
    | r => r

/-- A memory word issues and its access is held, where its checks let it; else it waits for the lanes. A checkpoint of its pair is
met when the access performs (spec/18 R319). -/
def holdWord (w : BitVec 32) (i : Instr) (n : Nat) (s : State) : Host.Outcome State Fault Refusal :=
  let g := s.grp
  let wait : Host.Outcome State Fault Refusal := .next { s with stalled := true }
  if !holdable g i then wait
  else match exec i { s with grp := { g with queue := [], lpos := 0, dual := false } } with
  | .next t =>
    if t.stalled || !t.grp.live || t.grp.pc != g.pc + 4 || t.grp.inHandler != g.inHandler then wait
    else .next { s with grp := { g.advance with heldWords := g.heldWords ++ [⟨w, g.pc, g.s, g.c, n⟩], starveScalar := 0, yielded := false } }
  | r => r

/-! ### Issue -/

/-- May the group on turn go on issuing, with no other group of its core to select (R197)? -/
def canIssue (d : Dev) (g : Group) : Bool :=
  mayIssue d g && d.groups.all fun e => !(mayIssue d e.2 && e.2.die == g.die && e.2.core == g.core)

/-- After a word of a stream has issued (R197, R198); `keep` tells a `sys.yield`, which resets no count. -/
def Group.issued_ (g : Group) (lane keep : Bool) : Group :=
  { g with starveScalar := if lane || keep then g.starveScalar else 0, starveLane := if lane then 0 else g.starveLane
           yielded := keep && g.yielded }

/-- A word's outcome, once it has issued; it read some lane registers, and names those and others (R200). -/
def settleIssue (lane keep : Bool) (reads named : List Nat) (r : Host.Outcome State Fault Refusal) :
    Host.Outcome State Fault Refusal :=
  match r with
  | .next t =>
    if t.stalled then .next t
    else
      let t := { t with grp := t.grp.issued_ lane keep, burst := t.burst + 1 }
      .next (if lane then t.put (spillFull (t.mach.laneIssued reads) named) else t)
  | r => r

/-- `sys.yield`, whose mark lasts until the next word. -/
def isYield (i : Instr) : Bool := match i with
  | .sysYield => true
  | _ => false

/-- The turn passes: the word on turn has to wait. -/
def stall (s : State) : Host.Outcome State Fault Refusal := .next { s with stalled := true }

/-- Does a scalar word read a register whose storage holds an uncorrectable error? -/
def readsBad (g : Group) (i : Instr) : Bool := (scalarReads i).any fun k => g.badScalar.getD k false

/-- A decoded scalar word runs, unless it reads a register whose storage holds an uncorrectable error (R186). -/
def runScalar (i : Instr) (s : State) : Host.Outcome State Fault Refusal :=
  if readsBad s.grp i then
    actOrWait (fun _ m => if m.g.lanesIdle then some (haltGroup m false 0) else none) s
  else settleIssue false (isYield i) [] [] (exec i s)

/-- A decoded scalar word on turn: the stalls of R72, R102 and R105, then its access is held, or it runs. -/
def aheadScalar (w : BitVec 32) (i : Instr) (s : State) : Host.Outcome State Fault Refusal :=
  let g := s.grp
  let n := blocksAhead s.dev g
  if mustStall s.dev g i || usesBusy g i then stall s
  else if readsBad g i then runScalar i s
  else if scalarAccesses i && (n ≠ 0 || !g.heldWords.isEmpty) then holdWord w i n s
  else if scalarForks i && forkWaits s.dev g then stall s
  else runScalar i s

/-- The scalar stream on turn (R27, R96): a held access that may perform comes first, then a trap that is due; then the
fetch is checked, and a reserved encoding enters emulation. -/
def issueScalar (s : State) : Host.Outcome State Fault Refusal :=
  match heldReady s.grp, s.grp.dueTrap with
  | some (h, rest), _ => performHeld h rest s
  | none, some code => actOrWait (fun _ m => scalarTrap { m with g := { m.g with dueTrap := none } } code) s
  | none, none =>
    if !s.grp.goodTarget s.grp.pc then actOrWait (fun _ m => scalarTrap m cBADPC) s
    else match fetchErrors s.dev s.grp.pc.toNat 4 with
    | some d => .next { s with dev := d }
    | none =>
      let w := scalarWordAt s.dev s.grp.pc.toNat
      match decodeScalar w with
      | .ok i => aheadScalar w i s
      | .error r => settleIssue false false [] [] (exec (.emulationEntry r (w.zeroExtend 96)) s)

/-- The lane registers that a lane word reads, with those that it writes. -/
def laneReads (g : Group) (i : Instr) : List Nat :=
  match i.wide?, i.pair? with
  | some (op10, w), _ => wideReads op10 w ((laneInfo op10 w).getD {}) g.view
  | none, some (_, x, y) => slotReads x ++ slotReads y
  | none, none => []
def laneNames (g : Group) (i : Instr) : List Nat :=
  laneReads g i ++ match i.wide?, i.pair? with
  | some (op10, w), _ => wideWrites op10 w ((laneInfo op10 w).getD {})
  | none, some (_, x, y) => slotWrites x ++ slotWrites y
  | none, none => []

/-- The latches that a lane word reads (R17, R24). -/
def latchReads (i : Instr) : List Nat :=
  let sel (r : Bool) (s : BitVec 9) : List Nat := if r && decide (256 ≤ s.toNat) && decide (s.toNat ≤ 259) then [s.toNat - 256] else []
  match i.wide? with
  | some (op10, w) =>
    let n := (laneInfo op10 w).getD {}
    sel n.readA w.sa ++ sel n.readB w.sb ++ sel n.readC w.sc
  | none => []

/-- The fallbacks that a lane word meets (R30), given whether a chain is open when it reads. -/
def laneWarns (i : Instr) (open_ : Bool) : List Nat :=
  match i.wide?, i.pair? with
  | some (op10, w), _ => wideWarns op10 w ((laneInfo op10 w).getD {}) open_
  | none, some (ce, x, y) => pairWarns ce x y open_
  | none, none => []

/-- Does a lane word first cut an open chain (R30): is it not chain-eligible? -/
def cutsChain (i : Instr) : Bool := i.wide?.any fun e => !chainEligible e.1
/-- Does a lane word read inside a chain: one that is open, or that the word itself opens? -/
def inChain (g : Group) (i : Instr) : Bool := g.chain.isSome || i.wide?.any fun e => e.2.le && chainEligible e.1

/-- An exchange word reads its sources in every lane (spec/07 R135). -/
def readsEveryLane (i : Instr) : Bool := i.wide?.any fun e => [0x200, 0x210, 0x220, 0x230].contains e.1

/-- The lanes that would read a register or a latch with an uncorrectable error (R186), if there is one: all of the word's,
where a scalar, capability or mask register that it reads has one. -/
def badLanes (g : Group) (i : Instr) : Option Word :=
  let ms := match i.wide? with
    | some (_, w) => w.ms.toNat
    | none => 0
  let run := runMask g g.view ms
  let shared := match i.wide? with
    | some (op10, w) => (wideUse op10 w).reads
    | none => []
  if shared.any fun k => g.badScalar.getD k false then some run
  else
    let lanes := if readsEveryLane i then g.present else run
    let bad := maskOf g.width fun l => bit lanes l && (((laneReads g i).any fun r => g.lanes.bad.getD (64 * r + l) false)
      || g.chain.isSome && (latchReads i).any fun b => g.badLatch.getD (64 * b + l) false)
    if bad = 0 then none else some bad

/-- The group as a lane word reads it: a word that is not chain-eligible reads what an open chain has written (R30, R87). -/
def Group.readBy (g : Group) (i : Instr) : Group :=
  match g.chain with
  | some c => if cutsChain i then { g with lanes := c.held, chain := none } else g
  | none => g

/-- The storage marks of a group that a lane word could meet. -/
def Group.soundLanes (g : Group) : Bool := g.lanes.bad.isEmpty && g.badScalar.isEmpty && g.badLatch.isEmpty

/-- A lane word that reads a bad register or latch (R27, R186): its fallbacks apply first, a cut among them, whose events may trap
before the word; then the group halts. -/
def haltLane (i : Instr) (bad : Word) (m : Mach) : Mach :=
  if m.g.chain.isSome && cutsChain i then
    match closeChain m with
    | (m, some (cls, mask)) => numTrap { m with d := warn m.d m.g.ctx [wCHAINCUT] } (m.g.lpos - 1) cls mask
    | (m, none) => haltGroup { m with d := warn m.d m.g.ctx (wCHAINCUT :: laneWarns i false) } true bad
  else haltGroup { m with d := warn m.d m.g.ctx (laneWarns i (inChain m.g i)) } true bad

/-- A decoded lane word runs, unless a lane reads a register whose storage holds an uncorrectable error; one that has to wait for
its registers, or that names one beyond the group's allotment, does so first (R27). What the file cannot hold beside the
guarantees of its groups goes to the backing cache first (R199). -/
def runLaneWord (i : Instr) (s : State) : Host.Outcome State Fault Refusal :=
  let g := s.grp
  let named := laneNames g i
  let first := lanesPending s.mach || named.any fun r => decide (g.vregs ≤ r) || g.spilledRegs.getD r 0 != 0
  match if g.soundLanes || first then none else badLanes (g.readBy i) i with
  | some bad => act (fun _ m => haltLane i bad m) s
  | none => settleIssue true false (laneReads g i) named (exec i (s.put (spillFull s.mach named)))

/-- The lane stream on turn (R27): a held scalar access that no lane word stands before comes first (R102). -/
def issueLane (s : State) : Host.Outcome State Fault Refusal :=
  match heldReady s.grp with
  | some (h, rest) => performHeld h rest s
  | none => match fetchErrors s.dev (s.grp.laneBase + 12 * s.grp.lpos) 12 with
    | some d => .next { s with dev := d }
    | none =>
      let w := laneWordAt s.dev s.grp s.grp.lpos
      match decodeLane w with
      | .ok i => runLaneWord i s
      | .error r => settleIssue true false [] [] (exec (.emulationEntry r w) s)

/-- The group on turn runs its next word in the order of R70: its queued lane words, then its scalar word. -/
def issue (s : State) : Host.Outcome State Fault Refusal :=
  if s.grp.queue.isEmpty then issueScalar s else issueLane s

/-! ### What moves while the group on turn waits -/

/-- The spilled registers that a group's next lane word names. -/
def spilledNext (d : Dev) (g : Group) : List Nat :=
  if g.queue.isEmpty || g.spilledRegs.isEmpty then []
  else match decodeLane (laneWordAt d g g.lpos) with
    | .ok i => (laneNames g i).filter fun r => g.spilledRegs.getD r 0 ≠ 0
    | .error _ => []

/-- Does poison keep a node launch's DONE as it is (R313)? -/
def nodeStuck (d : Dev) (l : Launch) : Bool := d.mem.anyPoison (localAddr d (l.kernel.bag.base.toNat + 128)) 8

/-- Operations in flight that a step of their own completes, in a fixed order (notes/assumptions/5). -/
def progressSteps (R : CtlRegs) (m : Mach) : List (Mach → Mach) :=
  let gs := m.allGroups
  let cl := m.d.clusters
  (gs.flatMap fun g => (g.flights.filter fun f => !f.done && (f.path == .ld || f.path == .st)).map fun f => memoryWordComplete g.gid f.id)
  ++ (gs.filter fun g => g.park.isSome).map (fun g => mwaitWake g.gid R)
  ++ (gs.filter fun g => !(spilledNext m.d g).isEmpty).map (fun g m => m.refill g.gid (spilledNext m.d g))
  ++ (gs.filter fun g => g.entering.isSome).map (fun g => enterMore g.gid)
  ++ (hostServed m.d).map (fun k => remoteAccessComplete k.1 k.2 [] [] [])
  ++ [fun m => { m with d := settleWindows m.d }, fun m => { m with d := drainPosted R m.d.pkg.posted m.d }, drainPeers R
      , fun m => { m with d := settleFront m.d }]
  ++ (m.d.launches.filter fun e => e.2.kernel.node && !e.2.done && !nodeStuck m.d e.2).map (fun e m => { m with d := nodeRelease m.d e.1 })
  ++ (cl.flatMap fun e => e.2.copies.flatMap fun o => [cpCheck e.1 o.id, cpCopy e.1 o.id R, cpComplete e.1 o.id R])
  ++ (cl.flatMap fun e => e.2.loads.map fun o => mxLdbComplete e.1 o.id R)
  ++ (cl.flatMap fun e => e.2.table.map fun o => mxEntryComplete e.1 o.id)
  ++ (cl.filter fun e => !e.2.table.isEmpty).map (fun e => arbiterGrant e.1)
  ++ (m.d.dies.flatMap fun e => e.2.coll.map fun o => clComplete e.1 o.id R)
  ++ m.d.pushes.map (fun p m => { m with d := pushArrival p.id m.d })
  ++ (m.d.teams.filter fun e => e.2.partner.isSome && !e.2.shadow).map (fun e => dualCheckpoint e.1 R)
  ++ (m.d.teams.filter fun e => e.2.preempt).map (fun e => teamSave e.1)
  ++ (m.d.parts.map fun e m => { m with d := m.d.setPart e.1 (startPass (m.d.parts.getD e.1 {})) })
  ++ (m.d.parts.filter fun e => e.2.running.isSome).map (fun e => sweepPassComplete e.1)
  ++ (List.range 4).map (fun k m => epochTurnComplete k m)
  ++ (List.range 4).map (fun k m => { m with d := epochTurn k m.d })

/-- Does a step only ask the host again for lines that have been asked back (spec/22 R353)? -/
def asksAgain (m n : Mach) : Bool :=
  let ls := n.d.pkg.asking.drop m.d.pkg.asking.length
  !ls.isEmpty && ls.all fun l => (m.d.pkg.backInv.find? l).isSome

/-- The first step that changes anything. -/
def firstMove (m : Mach) : List (Mach → Mach) → Option Mach
  | [] => none
  | f :: fs => if f m = m || asksAgain m (f m) then firstMove m fs else some (f m)

/-! ### Selection (R197, R198) -/

/-- Would the next word of a group's stream issue now, with its sources there and no stall to meet? -/
def readyFor (s : State) (lane : Bool) (g : Group) : Bool :=
  mayIssue s.dev g && !(lane && g.queue.isEmpty) &&
    let s := { s.put (s.mach.focus g.gid) with stalled := false }
    match (if lane then issueLane s else issueScalar s) with
    | .next t => !t.stalled
    | _ => false

/-- The starvation count of a stream. -/
def Group.starved (g : Group) (lane : Bool) : Nat := if lane then g.starveLane else g.starveScalar

/-- Is a group older than another (R196)? One that has yielded is the youngest of its scalar selection (R198). -/
def older (lane : Bool) (a b : Group) : Bool :=
  let y (g : Group) : Bool := !lane && g.yielded
  if y a != y b then y b
  else decide (a.age < b.age) || (a.age == b.age && decide (a.slot < b.slot))

/-- Does a group go before another in the selection of a stream (R197): raised, then priority, then age? -/
def goesFirst (lane : Bool) (a b : Group) : Bool :=
  let raised (g : Group) : Bool := decide (64 ≤ g.starved lane)
  if raised a != raised b then raised a
  else if !raised a && a.prio != b.prio then decide (b.prio < a.prio)
  else older lane a b

/-- The first n groups of a list in the order of selection. -/
def selected (lane : Bool) : Nat → List Group → List Group
  | 0, _ => []
  | _, [] => []
  | n + 1, g :: gs =>
    let best := gs.foldl (fun b x => if goesFirst lane x b then x else b) g
    best :: selected lane n ((g :: gs).filter fun x => x.gid ≠ best.gid)

/-- A pipe that an open chain holds is offered to no other group (R88): the pipes left for the groups without a chain. -/
def freePipes (m : Mach) (die core : Nat) : Nat :=
  2 - ((m.allGroups.filter fun g => g.die == die && g.core == core && g.chain.isSome).length)

/-- The groups that one core's cycle picks for a stream, at most two. -/
def coreCycle (m : Mach) (lane : Bool) (ready : List Group) (k : Nat × Nat) : List Group :=
  let here := ready.filter fun g => g.die == k.1 && g.core == k.2
  if !lane then selected false 2 here
  else
    let holders := selected true 2 (here.filter fun g => g.chain.isSome)
    holders ++ selected true (freePipes m k.1 k.2) (here.filter fun g => g.chain.isNone)

/-- A group's starvation counts after a cycle (R198), and the end of a yield. -/
def Group.cycled (g : Group) (ready won : Bool → Nat → Bool) : Group :=
  let count (lane : Bool) : Nat := if ready lane g.gid && !won lane g.gid then g.starved lane + 1 else if won lane g.gid then g.starved lane else 0
  { g with starveScalar := count false, starveLane := count true, yielded := g.yielded && !ready false g.gid }

/-- One cycle: every core picks its words, at most two of each stream; the turns stand on the agenda, lane words first. -/
def cycle (s : State) : State :=
  let m := s.mach
  let gs := m.allGroups
  let ready (lane : Bool) : List Group := gs.filter (readyFor s lane)
  let rs := ready false
  let rl := ready true
  let cores := (gs.map fun g => (g.die, g.core)).eraseDups
  let ws := cores.flatMap (coreCycle m false rs)
  let wl := cores.flatMap (coreCycle m true rl)
  let has (l : List Group) (k : Nat) : Bool := l.any fun g => g.gid == k
  let m := m.onGroups (fun _ => true) fun g =>
    g.cycled (fun lane k => has (if lane then rl else rs) k) (fun lane k => has (if lane then wl else ws) k)
  { s.put { m with d := dropAged s.regs (tick m.d) } with
    agenda := (wl.map fun g => .lane g.gid) ++ ws.map fun g => .scalar g.gid }

/-- The group on turn cannot issue alone: something in flight moves; else a cycle passes, and the cores pick their words. -/
def progress (s : State) : Host.Outcome State Fault Refusal :=
  let s := { s with stalled := false, burst := 0 }
  match firstMove s.mach (progressSteps s.regs s.mach) with
  | some m => s.commit m
  | none => .next (cycle s)

/-! ### The agenda -/

/-- An event that could not take place yet stands at the end of the agenda. -/
def requeue (t : Turn) (r : Host.Outcome State Fault Refusal) : Host.Outcome State Fault Refusal :=
  match r with
  | .next u => .next (if u.stalled then { u with stalled := false, agenda := u.agenda ++ [t] } else u)
  | r => r

/-- A turn that its group cannot use passes. -/
def passed (r : Host.Outcome State Fault Refusal) : Host.Outcome State Fault Refusal :=
  match r with
  | .next u => .next { u with stalled := false }
  | r => r

/-- Two errors of one line: what either has wrong is wrong, and a sector with one wrong bit and another has two. -/
def LineError.join (a b : LineError) : LineError :=
  { single := a.single ^^^ b.single, double := a.double ||| b.double ||| (a.single &&& b.single), mac := a.mac || b.mac
    cached := a.cached ||| b.cached }

/-- A storage error arises: the mark stands, if what it names is there (notes/assumptions/9). -/
def arise (u : Upset) (m : Mach) : Mach :=
  match u with
  | .scalarSide gid k =>
    if (0 < k ∧ k < 80) ∨ (128 < k ∧ k < 136) then
      m.onGroups (fun g => g.gid == gid) fun g => { g with badScalar := g.badScalar.set k true false }
    else m
  | .laneReg gid r l =>
    let mark (f : LaneFile) : LaneFile :=
      if f.mapped.getD r false then { f with bad := f.bad.set (64 * r + l) true false } else f
    m.onGroups (fun g => g.gid == gid && bit g.present l) fun g =>
      { g with lanes := mark g.lanes, chain := g.chain.map fun c => { c with held := mark c.held } }
  | .latch gid b l => m.onGroups (fun g => g.gid == gid && g.chain.isSome && decide (b < 4) && bit g.present l) fun g =>
    { g with badLatch := g.badLatch.set (64 * b + l) true false }
  | .scratch k w double =>
    let t := m.d.team k
    if t.status ≠ .resident || t.scratchSize ≤ 8 * w then m
    else
    let t := { t with scratchOver := t.scratchOver.erase w }
    if double then { m with d := m.d.setTeam k { t with scratchBad := t.scratchBad.set w true false } }
    else if t.scratchSoft.getD w false then
      { m with d := m.d.setTeam k { t with scratchBad := t.scratchBad.set w true false, scratchSoft := t.scratchSoft.erase w } }
    else { m with d := m.d.setTeam k { t with scratchSoft := t.scratchSoft.set w true false } }
  | .accumulator k w =>
    let x := m.d.cluster k
    if w < 32768 then { m with d := m.d.setCluster k { x with accBad := x.accBad.set w true false } } else m
  | .line l e =>
    if (homeDie (128 * l)).isSome then
      { m with d := { m.d with errors := m.d.errors.set l ((m.d.errors.getD l {}).join e) {} } }
    else m

/-- The turn at the head of the agenda: an event, a word of a stream of a group (R70-R72), or an error that arises. -/
def takeTurn (t : Turn) (s : State) : Host.Outcome State Fault Refusal :=
  match t with
  | .event e => requeue t (exec e s)
  | .scalar gid =>
    let s := s.put (s.mach.focus gid)
    if s.grp.gid ≠ gid || !mayIssue s.dev s.grp then .next s else passed (issueScalar s)
  | .lane gid =>
    let s := s.put (s.mach.focus gid)
    if s.grp.gid ≠ gid || !mayIssue s.dev s.grp || s.grp.queue.isEmpty
        || (s.grp.chain.isNone && freePipes s.mach s.grp.die s.grp.core == 0) then .next s
    else passed (issueLane s)
  | .upset u => .next (s.put (arise u s.mach))

end Sys2Proof.Machine
end

