-- ==== Sys2Proof/Machine/Step.lean ====
section
/-! DEFINITION. One step of the machine, and the placing of a word where the next step fetches it. -/

namespace Sys2Proof.Machine

/-- The register write that is due: none while the last attempt waits for the host's answer (spec/22 R353). -/
def State.regWrite? (s : State) : Option ((Nat × Word) × List (Nat × Word)) :=
  match s.dev.regWrites with
  | w :: rest => if s.stalled then none else some (w, rest)
  | [] => none

/-- One step: the head of the agenda, if there is one; else the next word of the group on turn, in the sequential order of
spec/04 R70, while no other group of its core may issue; else what is in flight moves, and the cores select their words
(spec/12 R197, notes/assumptions/5). A die whose time would pass its limit begins its epoch turn first (spec/16 R267), and a
register write that a word has left is performed before anything else moves. -/
def step (s : State) : Host.Outcome State Fault Refusal :=
  match (List.range 4).find? fun k => epochDue s.dev k && !(s.dev.die k).turning with
  | some k => .next { s with dev := epochTurn k s.dev }
  | none => match s.regWrite?, s.agenda with
    | some (w, rest), _ => s.adopt ({ s with dev := { s.dev with regWrites := rest } }.writeReg w.1 w.2)
    | none, t :: rest => takeTurn t { s with agenda := rest, stalled := false }
    | none, [] => if s.stalled || decide (64 ≤ s.burst) || !canIssue s.dev s.grp then progress s else issue s

/-- The program that `withFetchWord` stands for: one group of 32 lanes, alone in its team, in a context of an ordinary
partition, with a scalar section at 0x10000 and a lane section at 0x20000 (notes/assumptions/1). -/
def probeGroup (g : Group) (lane : Bool) : Group :=
  { g with
    live := true, gid := 1, team := 1, ctx := 1, part := 0, width := 32, present := maskBelow 32, vregs := 64
    codeLo := 0x10000, codeHi := 0x20000, laneBase := 0x20000, laneWords := 256, pc := 0x10000
    queue := if lane then [⟨0, 1, g.viewNow⟩] else [], lpos := 0, chain := none, waitRemote := false, park := none
    arrived := none, heldWords := [], dueTrap := none, entering := none, blocks := [], spilledRegs := [], dualSt := { g.dualSt with waiting := false } }

/-- The state with an instruction placed at the group's next fetch: its words lie in memory, in a program that a launch has
brought to the turn. -/
def State.withFetchWord (s : State) (nbits w : Nat) : State :=
  let lane := decide (32 < nbits)
  let d := s.dev
  let d := d.setTeam 1 { (d.team 1) with ctx := 1, status := .resident, members := [1], slots := [(0, 0)], preempt := false }
  let d := d.setCtx 1 { (d.ctx 1) with live := true }
  let d := d.setPart 0 { (d.parts.getD 0 {}) with quarters := 15 }
  let d := { d with
    groups := d.groups.erase 1, regWrites := [], dies := d.dies.map fun e => (e.1, { e.2 with turning := false })
    cores := [], lines := [], errors := (d.errors.erase 512).erase 1024
    mem := if lane then d.mem.writeBytes 0x20000 (toLe 12 w) else d.mem.writeBytes 0x10000 (toLe 4 w) }
  { s with grp := probeGroup s.grp lane, dev := d, agenda := [], stalled := false, burst := 0 }

end Sys2Proof.Machine
end

