-- ==== Sys2Proof/Safety.lean ====
section
/-! DEFINITION. What counts as safe: the control registers hold legal values, memory keeps its canonical form, and a run
never stops; and the terms in which the statements speak, written from the tables of the spec. -/

namespace Sys2Proof.Machine

/-- The fields of a die's control registers are in range (spec/16 R264, R270). -/
def DieRegs.legal (r : DieRegs) : Bool :=
  decide (6 ≤ r.tick.toNat) && decide (r.tick.toNat ≤ 12) && decide (1 ≤ r.lease.toNat)
  && decide (r.carve0.toNat ≤ 12) && decide (r.carve1.toNat ≤ 12) && decide (r.carve2.toNat ≤ 12)
  && decide (r.carve3.toNat ≤ 12)

/-- Every control register with a legal range is in it (spec/16 R264, R270; spec/21 R330, R341). -/
def CtlRegs.legal (r : CtlRegs) : Bool :=
  r.die0.legal && r.die1.legal && r.die2.legal && r.die3.legal
  && decide (800 ≤ r.cap.toNat) && decide (r.cap.toNat ≤ 2200) && decide (r.log2n.toNat ≤ 10)
  && r.win.all fun e => e.2 != 0

/-- A state that keeps what the spec says of its control registers and of its memory's form. -/
def State.safe (s : State) : Bool := s.regs.legal && s.dev.mem.wf

/-- An outcome that goes on. -/
def goesOn (r : Host.Outcome State Fault Refusal) : Prop := ∃ t, r = .next t

/-- A run of n steps goes on to its end. -/
def runsOn (n : Nat) (s : State) : Prop := ∃ t, Sys2Proof.core.run n s = .next t

/-! ### Scalar words -/

/-- The number of k below n that meet a condition. -/
def countBelow (n : Nat) (p : Nat → Bool) : Nat := ((List.range n).filter p).length

/-- Where the field of a bit-field word starts and how long it is (spec/05 R93: it stops at bit 63). -/
def bitFieldLo (b : Nat) : Nat := b % 64
def bitFieldLen (b : Nat) : Nat := min (b / 256 % 64 + 1) (64 - bitFieldLo b)
/-- The field of a number. -/
def bitField (a b : Nat) : Nat := a / 2 ^ bitFieldLo b % 2 ^ bitFieldLen b

/-- What the arithmetic words of spec/05 R93, R94 write, and where, in exact integers that wrap modulo 2^64 (R91), from the
registers as they stood; none for every other step. -/
def aluResult (i : Instr) (g : Group) : Option (SReg × Word) :=
  let r (k : SReg) : Word := g.rs k.toNat
  let n (k : SReg) : Nat := (g.rs k.toNat).toNat
  let z (k : SReg) : Int := (g.rs k.toNat).toInt
  let nat (x : Nat) : Word := BitVec.ofNat 64 x
  let int (x : Int) : Word := BitVec.ofInt 64 x
  let truth (p : Prop) [Decidable p] : Word := if p then 1 else 0
  match i with
  | .sAdd d a b => some (d, int (z a + z b))
  | .sSub d a b => some (d, int (z a - z b))
  | .sAnd d a b => some (d, r a &&& r b)
  | .sOr d a b => some (d, r a ||| r b)
  | .sXor d a b => some (d, r a ^^^ r b)
  | .sAndn d a b => some (d, r a &&& ~~~(r b))
  | .sShl d a b => some (d, nat (n a * 2 ^ (n b % 64)))
  | .sShr d a b => some (d, nat (n a / 2 ^ (n b % 64)))
  | .sSra d a b => some (d, int (z a / (2 ^ (n b % 64) : Nat)))
  | .sMul d a b => some (d, int (z a * z b))
  | .sMulhI d a b => some (d, int (z a * z b / (2 ^ 64 : Nat)))
  | .sMulhN d a b => some (d, nat (n a * n b / 2 ^ 64))
  | .sSeq d a b => some (d, truth (n a = n b))
  | .sSne d a b => some (d, truth (n a ≠ n b))
  | .sSlt d a b => some (d, truth (z a < z b))
  | .sSltn d a b => some (d, truth (n a < n b))
  | .sMinI d a b => some (d, int (min (z a) (z b)))
  | .sMaxI d a b => some (d, int (max (z a) (z b)))
  | .sMinN d a b => some (d, nat (min (n a) (n b)))
  | .sMaxN d a b => some (d, nat (max (n a) (n b)))
  | .sSel d a b => some (d, if n d ≠ 0 then r a else r b)
  | .sClz d a => some (d, nat (countBelow 64 fun k => decide (n a < 2 ^ k)))
  | .sCtz d a => some (d, nat (countBelow 64 fun k => decide (n a % 2 ^ (k + 1) = 0)))
  | .sPopc d a => some (d, nat (countBelow 64 fun k => decide (n a / 2 ^ k % 2 = 1)))
  | .sBswap d a => some (d, nat (((List.range 8).map fun k => n a / 256 ^ k % 256 * 256 ^ (7 - k)).sum))
  | .sBextN d a b => some (d, nat (bitField (n a) (n b)))
  | .sBextI d a b => some (d, int (if bitField (n a) (n b) < 2 ^ (bitFieldLen (n b) - 1) then (bitField (n a) (n b) : Int)
      else (bitField (n a) (n b) : Int) - (2 ^ bitFieldLen (n b) : Nat)))
  | .sBins d a b => some (d, nat (n d - bitField (n d) (n b) * 2 ^ bitFieldLo (n b)
      + n a % 2 ^ bitFieldLen (n b) * 2 ^ bitFieldLo (n b)))
  | .sAddi d a imm => some (d, int (z a + imm.toInt))
  | .sAndi d a imm => some (d, r a &&& int imm.toInt)
  | .sOri d a imm => some (d, r a ||| int imm.toInt)
  | .sXori d a imm => some (d, r a ^^^ int imm.toInt)
  | .sShli d a sh => some (d, nat (n a * 2 ^ sh.toNat))
  | .sShri d a sh => some (d, nat (n a / 2 ^ sh.toNat))
  | .sSrai d a sh => some (d, int (z a / (2 ^ sh.toNat : Nat)))
  | .sSlti d a imm => some (d, truth (z a < imm.toInt))
  | .sSltni d a imm => some (d, truth ((n a : Int) < imm.toInt % (2 ^ 64 : Nat)))
  | .sAddhi d a imm => some (d, int (z a + imm.toInt * 2 ^ 14))
  | .sMuli d a imm => some (d, int (z a * imm.toInt))
  | _ => none

/-- The quotient and the remainder of spec/05 R95, and whether one IDIV event is counted. -/
def divRule (signed : Bool) (a b : Word) : Int × Int × Bool :=
  if b.toNat = 0 then (if signed then 0x7FFFFFFFFFFFFFFF else 0xFFFFFFFFFFFFFFFF, a.toInt, true)
  else if signed ∧ a.toNat = 0x8000000000000000 ∧ b.toNat = 0xFFFFFFFFFFFFFFFF then (a.toInt, 0, true)
  else if signed then (a.toInt.tdiv b.toInt, a.toInt - a.toInt.tdiv b.toInt * b.toInt, false)
  else ((a.toNat / b.toNat : Nat), (a.toNat : Int) - (a.toNat / b.toNat : Nat) * b.toNat, false)

/-- What the divide words write, and where, and whether an event is counted (spec/05 R95). -/
def divWord (i : Instr) (g : Group) : Option (SReg × Word × Bool) :=
  let q (s : Bool) (d a b : SReg) : Option (SReg × Word × Bool) :=
    let r := divRule s (g.rs a.toNat) (g.rs b.toNat)
    some (d, BitVec.ofInt 64 r.1, r.2.2)
  let m (s : Bool) (d a b : SReg) : Option (SReg × Word × Bool) :=
    let r := divRule s (g.rs a.toNat) (g.rs b.toNat)
    some (d, BitVec.ofInt 64 r.2.1, r.2.2)
  match i with
  | .sDivI d a b => q true d a b
  | .sDivN d a b => q false d a b
  | .sRemI d a b => m true d a b
  | .sRemN d a b => m false d a b
  | _ => none

/-- The target of a scalar transfer that is taken, and whether it pushes a return address (spec/05 R97, spec/02 R14, R15);
none for a branch whose condition fails and for every other step. -/
def transferTarget (i : Instr) (g : Group) : Option (Word × Bool) :=
  let z (k : SReg) : Int := (g.rs k.toNat).toInt
  let off {w : Nat} (x : BitVec w) : Word := BitVec.ofInt 64 (g.pc.toNat + 4 * x.toInt)
  let when_ (p : Prop) [Decidable p] (x : BitVec 17) : Option (Word × Bool) := if p then some (off x, false) else none
  match i with
  | .sBz a x => when_ (z a = 0) x
  | .sBnz a x => when_ (z a ≠ 0) x
  | .sBlt a x => when_ (z a < 0) x
  | .sBge a x => when_ (0 ≤ z a) x
  | .sBle a x => when_ (z a ≤ 0) x
  | .sBgt a x => when_ (0 < z a) x
  | .sJ x => some (off x, false)
  | .sCall x => some (off x, true)
  | .sJr a => some (g.rs a.toNat, false)
  | .sCallr a => some (g.rs a.toNat, true)
  | _ => none

/-- Is a step a conditional branch? -/
def isBranch (i : Instr) : Bool :=
  match i with
  | .sBz _ _ | .sBnz _ _ | .sBlt _ _ | .sBge _ _ | .sBle _ _ | .sBgt _ _ => true
  | _ => false

/-- The return addresses of a group, newest first: its stack, then its spill area (spec/05 R98). -/
def Group.returns (g : Group) : List Word :=
  g.stack ++ ((List.range g.spilled).reverse.map fun k => g.spill.getD k 0)

/-- A group inside its handler, after the trap of a cause (spec/09 R172, R174, R175): the trap registers as given, NORES
and EMUNEST for a trap inside the emulation handler, the held lane words in the frame, the chain gone, the lane queue empty,
the scalar thread at `%trapv`, no scalar access held behind a lane word any more, and no command block fetched for a word. -/
def Group.trapped (g : Group) (cause nevc path : Nat) (tspc tlpc fmask : Word) (skip : Bool) (f : Frame) : Group :=
  { g with
    code := BitVec.ofNat 8 (if g.emuFrame.isSome then 2 else cause), nevc := BitVec.ofNat 3 nevc, path := BitVec.ofNat 3 path
    skip := skip, nores := g.emuFrame.isSome, tspc := tspc, tlpc := tlpc, fmask := fmask &&& maskBelow g.width
    trapFrame := some f, emuFrame := none, inHandler := true, chain := none, queue := [], lpos := 0, pc := g.trapv
    heldWords := g.heldWords.map fun h => { h with blocks := 0 }, dueTrap := none, blocks := [] }

/-- A group whose scalar word on turn has trapped: `%tlpc` is all ones, PATH 7, no held lane words (spec/09 R170, R173). -/
def Group.scalarTrapped (g : Group) (cause : Nat) : Group :=
  g.trapped cause 0 7 g.pc (BitVec.allOnes 64) 0 false ⟨0, []⟩

/-- A trap of the scalar word on turn takes place at once and reaches a handler: no lane word is queued, the group is in no
handler and `%trapv` is not zero. -/
def trapsNow (g : Group) : Prop := g.queue = [] ∧ g.inHandler = false ∧ g.trapv ≠ 0

/-- The state after a step that waits: nothing but the mark of the turn has changed. -/
def State.waits (s : State) : State := { s with stalled := true }

/-- The scalar loads (spec/05 R101): signed, bytes, destination, capability, offset. -/
def loadForm (i : Instr) : Option (Bool × Nat × SReg × CReg × BitVec 16) :=
  match i with
  | .sLdN8 d c o => some (false, 1, d, c, o)
  | .sLdN16 d c o => some (false, 2, d, c, o)
  | .sLdN32 d c o => some (false, 4, d, c, o)
  | .sLdN64 d c o => some (false, 8, d, c, o)
  | .sLdI8 d c o => some (true, 1, d, c, o)
  | .sLdI16 d c o => some (true, 2, d, c, o)
  | .sLdI32 d c o => some (true, 4, d, c, o)
  | _ => none

/-- The scalar stores (spec/05 R101): bytes, source, capability, offset. -/
def storeForm (i : Instr) : Option (Nat × SReg × CReg × BitVec 16) :=
  match i with
  | .sStN8 d c o => some (1, d, c, o)
  | .sStN16 d c o => some (2, d, c, o)
  | .sStN32 d c o => some (4, d, c, o)
  | .sStN64 d c o => some (8, d, c, o)
  | _ => none

/-- The scalar words that access memory through a capability register with the checks of spec/08 R153, with what each
asks of it and the bytes of its access: `s.ld`, `s.st`, `c.ld`, `c.st` (spec/05 R101, spec/08 R162). -/
def accessForm (i : Instr) : Option (CReg × BitVec 16 × Need × Nat) :=
  match loadForm i, storeForm i, i with
  | some (_, n, _, c, o), _, _ => some (c, o, needLoad, n)
  | none, some (n, _, c, o), _ => some (c, o, needStore, n)
  | none, none, .cLd _ c o => some (c, o, needLoad, 16)
  | none, none, .cSt _ c o => some (c, o, needCapStore, 16)
  | _, _, _ => none

/-- Byte `a` of memory, of a team's scratchpad, of a group's private memory. -/
def State.memByte (s : State) (a : Nat) : Byte := s.dev.mem.byte a
def State.scratchByte (s : State) (team a : Nat) : Byte := (s.dev.team team).scratch.byte a
def State.privByte (s : State) (a : Nat) : Byte := s.grp.priv.byte a

/-- A group with the operations in flight, their numbers and their write times of another. -/
def Group.flightsOf (g g0 : Group) : Group :=
  { g with flights := g0.flights, nextOp := g0.nextOp, issued := g0.issued, unjoined := g0.unjoined }

/-- Through a word whose access reaches the ports' range at an address of the device's own index (`here`), one operation more has
issued on `fx`, and the other paths stay (spec/22 R361); through any other, every path stays. -/
def fxCounted (here : Bool) (g g' : Group) : Prop :=
  (here = false → g'.flightsOf g = g') ∧
  (here = true → g'.issued.getD 5 0 = g.issued.getD 5 0 + 1 ∧
    ∀ p, p ≠ .fx → g'.count p = g.count p ∧ g'.issued.getD (pathCode p) 0 = g.issued.getD (pathCode p) 0)

/-- The count on `fx` may rise where a word's access reaches the ports' range (spec/05 R103, spec/22 R361). -/
def fxRoom (here : Bool) (g : Group) : Prop := here = true → g.count .fx < 1023

/-- What a group keeps through a scalar word that reads memory into a register: everything but the register, the program
counter, the misses counted in a replay (spec/17 R290) and the count on `fx`. -/
def keptByLoad (g g' : Group) : Prop :=
  { g'.flightsOf g with s := g.s, c := g.c, pc := g.pc, badScalar := g.badScalar, missed := g.missed } = g

/-- What a group keeps through a scalar word that stores: everything but the program counter, its private memory, the
ordinals of its recordings (spec/17 R283), the dual-run record (spec/18 R318) and the count on `fx`. -/
def keptByStore (g g' : Group) : Prop :=
  { g'.flightsOf g with pc := g.pc, priv := g.priv, ords := g.ords, dualSt := g.dualSt } = g

/-- Memory through a step that only reads it: every byte, tag and mark is as before; a sector is poisoned besides only where a
line held an error that nothing had met yet (spec/21 R335). -/
def memKept (d d' : Dev) : Prop :=
  (∀ a, d'.mem.byte a = d.mem.byte a) ∧ (∀ g, d'.mem.tag g = d.mem.tag g) ∧
  (∀ k, d.mem.poisoned k = true → d'.mem.poisoned k = true) ∧ (d.errors = [] → d'.mem = d.mem)

/-- What the device keeps through a scalar word that only reads memory: memory, and every team with its scratchpad, but that
the single-bit errors that the read has corrected are gone (spec/12 R214). -/
def memoryKept (d d' : Dev) : Prop :=
  memKept d d' ∧ ∀ k, { d'.team k with scratchSoft := (d.team k).scratchSoft } = d.team k

/-- The line of an address holds no storage error that a read would meet (spec/21 R335). -/
def soundLine (s : State) (a : Nat) : Prop := s.dev.errors.find? (a / 128) = none

/-- No action of a class traps the group: bit 62 of every `%nev` of the context is clear (spec/03 R63, R65). -/
def noEventTrap (s : State) : Prop := ∀ c, bit ((s.dev.ctx s.grp.ctx).nev.getD c 0) 62 = false

/-- The host holds no line of the device, so no step has to wait for it (spec/22 R353). -/
def hostHoldsNothing (s : State) : Prop := ∀ l, s.dev.pkg.hostHeld.getD l false = false

/-! ### Emulation -/

/-- `%e2` holds OP, DST, SA, SB, SC, MOD and MS (spec/02 R34). -/
def e2Holds (e : Word) (op dst sa sb sc mod ms : Nat) : Prop :=
  e.toNat % 2 ^ 10 = op ∧ e.toNat / 2 ^ 10 % 2 ^ 8 = dst ∧ e.toNat / 2 ^ 18 % 2 ^ 9 = sa ∧ e.toNat / 2 ^ 27 % 2 ^ 9 = sb ∧
  e.toNat / 2 ^ 36 % 2 ^ 9 = sc ∧ e.toNat / 2 ^ 45 % 2 ^ 16 = mod ∧ e.toNat / 2 ^ 61 = ms

/-- `%e2` of a scalar word: its major opcode and its bits 25 to 20, 19 to 14, 13 to 8 and 7 to 0 (spec/02 R34). -/
def e2OfScalar (e : Word) (w : BitVec 32) : Prop :=
  e2Holds e (w.toNat / 2 ^ 26) (w.toNat / 2 ^ 20 % 2 ^ 6) (w.toNat / 2 ^ 14 % 2 ^ 6) (w.toNat / 2 ^ 8 % 2 ^ 6) (w.toNat % 2 ^ 8) 0 0

/-- `%e2` of a lane word (spec/02 R34): the fields of a wide word (R17), or those of the slot of a pair word that is reported
(R22). -/
def e2OfLane (e : Word) (w : BitVec 96) (slotY : Bool) : Prop :=
  let f (lo n : Nat) : Nat := w.toNat / 2 ^ lo % 2 ^ n
  let o := if slotY then 0 else 47
  (bit w 95 = false → e2Holds e (f 84 10) (f 73 8) (f 60 9) (f 50 9) (f 40 9) (f 23 16) (f 81 3)) ∧
  (bit w 95 = true → e2Holds e (f (o + 40) 7) (f (o + 32) 8) (f (o + 23) 8) (f (o + 14) 8) (f (o + 5) 8) (f o 4) 0)

/-- What a group keeps on its entry into emulation (spec/02 R32): everything but the registers that the entry writes, the place of both
streams, the chain, and what waits behind a lane word. -/
def keptByEmulation (g g' : Group) : Prop :=
  { g' with e0 := g.e0, e1 := g.e1, e2 := g.e2, e3 := g.e3, pc := g.pc, tspc := g.tspc, tlpc := g.tlpc, emuFrame := g.emuFrame
            chain := g.chain, queue := g.queue, lpos := g.lpos, heldWords := g.heldWords, dueTrap := g.dueTrap
            blocks := g.blocks } = g ∧
  g'.heldWords = (g.heldWords.map fun h => { h with blocks := 0 }) ∧ g'.chain = none ∧ g'.queue = []

/-! ### Capabilities -/

/-- The 2^e granules of the exact mode fit a region [b, t) (spec/08 R148). -/
def exactFits (b t e : Nat) : Prop :=
  e ≤ 31 ∧ b % 2 ^ e = 0 ∧ t % 2 ^ e = 0 ∧ b < t ∧ t - b ≤ (2 ^ 20 - 1) * 2 ^ e ∧ t ≤ 2 ^ 50

/-- The 2^e granules of the outward mode fit a region [b, t) (spec/08 R148). -/
def outwardFits (b t e : Nat) : Prop := e ≤ 31 ∧ (t + 2 ^ e - 1) / 2 ^ e - b / 2 ^ e ≤ 2 ^ 20 - 1

/-- e is the smallest exponent that fits. -/
def smallest (fits : Nat → Prop) (e : Nat) : Prop := fits e ∧ ∀ k, k < e → ¬ fits k

/-- A capability with E, DN = 0, UP and the cursor b, all else as in c (spec/08 R148, R157). -/
def Cap.bounded (c r : Cap) (b e up : Nat) : Prop :=
  r.cursor = b ∧ r.e = e ∧ r.dn = 0 ∧ r.up = up ∧ r.tag = true ∧ r.perms = c.perms ∧ r.kind = c.kind ∧
  r.colour = c.colour ∧ r.skind = c.skind

/-- The derivation words and the sealing word with their destination and source, but for `c.open`, which reads two
capabilities, and `c.mov` and `c.cleart`, which never trap (spec/08 R156, R160). -/
def derivation (i : Instr) : Option (CReg × CReg) :=
  match i with
  | .cSetb d a _ | .cSetbOut d a _ | .cAddc d a _ | .cSetc d a _ | .cAndp d a _ | .cSetk d a _ | .cSeal d a _ => some (d, a)
  | _ => none

/-- Must the source of a derivation be tagged (spec/08 R157, R158, R160)? -/
def needsTag (i : Instr) : Bool :=
  match i with
  | .cSetb _ _ _ | .cSetbOut _ _ _ | .cSetk _ _ _ | .cSeal _ _ _ => true
  | _ => false

/-! ### Sync objects -/

/-- Does the object of `c`A stand at an address of the device's own index in the ports' range? -/
def objectFabric (s : State) (a : CReg) : Bool := fabricHere s.dev (s.grp.rc a.toNat) (s.grp.rc a.toNat).base.toNat

/-- The checks of a sync word on the object of `c`A pass, and the object stands in memory of the device at x, at a home that turns no
epoch (spec/21 R347); the count on `fx` may rise, the group is no copy of a dual pair, and the host holds no line (spec/13 R221). -/
def objectAt (s : State) (a : CReg) (perms : BitVec 12) (write : Bool) (x : Nat) : Prop :=
  capCheck s.regs s.dev (s.grp.rc a.toNat) (s.mach.party false) (syncNeed perms write) (s.grp.rc a.toNat).base.toNat 8 = .ok ∧
  placeOf s.dev (s.grp.rc a.toNat) (s.grp.rc a.toNat).base.toNat = .local_ x ∧ s.grp.dual = false ∧ s.grp.shadow = false ∧
  hostHoldsNothing s ∧ fwLocal.homeTurns s.dev x = false ∧ fxRoom (objectFabric s a) s.grp

/-- The words that check an object, with what they ask of `c`A (spec/13 R221, R224); `sy.rmw` stands apart. -/
def syncForm (i : Instr) : Option (CReg × BitVec 12 × Bool) :=
  match i with
  | .syAcq _ a _ | .syMwait _ a _ _ | .syLd _ a => some (a, 1, false)
  | .syRel a _ _ | .sySt a _ | .syBind _ a _ | .syUnbind a _ => some (a, 2, true)
  | _ => none

/-- No push of the group is in flight and no access of it is at a port (spec/17 R288, spec/22 R356). -/
def quiet (s : State) : Prop := (∀ p ∈ s.dev.pushes, p.gid ≠ s.grp.gid) ∧ ∀ r ∈ s.dev.remotes, r.gid ≠ s.grp.gid

/-- Every byte of memory outside [a, a + n) is as before. -/
def bytesKept (s t : State) (a n : Nat) : Prop := ∀ b, b < a ∨ a + n ≤ b → t.memByte b = s.memByte b

/-- What a group keeps through a sync word: everything but the destination, the program counter, its ordinals and the count on
`fx`. -/
def keptBySync (g g' : Group) : Prop := { g'.flightsOf g with s := g.s, pc := g.pc, badScalar := g.badScalar, ords := g.ords } = g

/-- `s`d := v and on, in every register. -/
def onlyReg (g g' : Group) (d : SReg) (v : Word) : Prop :=
  (∀ k, g'.rs k = if k = d.toNat ∧ k ≠ 0 then v else g.rs k) ∧ g'.pc = g.pc + 4

/-- The logical time of the core of the group on turn, and RMAX of its die. -/
def State.pts (s : State) : Nat := s.mach.pts
def State.rmax (s : State) : Nat := (s.dev.die s.grp.die).rmax
/-- The scopes `.d`, `.v` and `.y`. -/
def isWide (sc : Scope) : Bool := decide (3 ≤ scopeCode sc)

/-- The new value of an atomic of 64 bits in natural numbers (spec/13 R224). -/
def rmwRule (op : AmoOp) (old b c : Word) : Word :=
  match op with
  | .add => old + b
  | .and => old &&& b
  | .or => old ||| b
  | .xor => old ^^^ b
  | .max => if old.toNat ≤ b.toNat then b else old
  | .min => if old.toNat ≤ b.toNat then old else b
  | .swap => b
  | .cas => if old = c then b else old

/-! ### Engines -/

/-- What a group keeps through a word that issues an engine operation: everything but the program counter, the operations in
flight with their numbers, the misses counted in a replay, its ordinals and the command blocks fetched for the word. -/
def keptByIssue (g g' : Group) : Prop :=
  { g' with pc := g.pc, flights := g.flights, nextOp := g.nextOp, issued := g.issued, missed := g.missed, ords := g.ords
            blocks := g.blocks } = g

/-- One more operation of a path is in flight, and the scalar thread is at its next word. -/
def issuedOn (p : Path) (g g' : Group) : Prop := g'.count p = g.count p + 1 ∧ g'.pc = g.pc + 4 ∧ keptByIssue g g'

/-- A trap of an engine operation is held in its issuing group, with the operation's position on its path. -/
def trapHeld (s t : State) (gid : Nat) (p : Path) (flight code : Nat) : Prop :=
  ∃ g g', s.mach.group? gid = some g ∧ t.mach.group? gid = some g' ∧ (⟨p, g.posOf flight, code, 0⟩ : Held) ∈ g'.heldTraps

/-- The operation is the first that a group has in flight on its path: when it completes, the counter falls. -/
def firstOn (g : Group) (p : Path) (flight : Nat) : Prop :=
  ∃ f, g.flights.find? (fun x => x.id == flight) = some f ∧ (g.flights.filter fun x => x.path == p).head? = some f

/-- The counter of a path has fallen in a group. -/
def counterFalls (s t : State) (gid : Nat) (p : Path) : Prop :=
  ∃ g g', s.mach.group? gid = some g ∧ t.mach.group? gid = some g' ∧ g'.count p < g.count p

/-- No block of [a, a + n) holds a sync object that a sync word has reached. -/
def noSyncIn (s : State) (a n : Nat) : Prop := ∀ k, a / 64 ≤ k → k ≤ (a + n) / 64 → s.dev.syncs.getD k false = false

/-- What an engine's DATA or SCRATCH access asks, without alignment and without the firewall (spec/13 R230). -/
def rangeNeed (perms : BitVec 12) (write : Bool) : Need := { kinds := [0, 2], perms := perms, write := write, aligned := false }
/-- What an engine's signal asks (spec/13 R230). -/
def signalNeed : Need := { kinds := [3], perms := 32, write := true }

/-! ### Lane words -/

/-- What the wrapper knows of a wide word in a state. -/
def formOf (s : State) (op10 : Nat) (w : Wide) : LaneForm := wideForm op10 w ((laneInfo op10 w).getD {}) s.grp

/-- A lane word may issue: no earlier operation of the request table is to write lane registers, none of its registers is spilled,
every one is within the allotment, and no event class is set to trap (spec/04 R75, spec/12 R200, spec/14 R249). -/
def laneReady (s : State) (f : LaneForm) : Prop :=
  lanesPending s.mach = false ∧ spilledUse f s.grp = false ∧ (∀ r ∈ f.regs, r < s.grp.vregs) ∧ noEventTrap s

/-- On to the next lane word: the next index of the block, or the next block (spec/04 R73), which leaves the scalar accesses that
are held with one block less to wait for (spec/05 R102). -/
def laneNext (g g' : Group) : Prop :=
  g'.queue.length = (if lastOfBlock g then g.queue.length - 1 else g.queue.length) ∧
  (lastOfBlock g = false → g'.lpos = g.lpos + 1) ∧
  (∀ b c bs, g.queue = b :: c :: bs → lastOfBlock g = true → g'.lpos = c.start) ∧
  g'.heldWords = (if lastOfBlock g && !g.queue.isEmpty then g.heldWords.map fun h => { h with blocks := h.blocks - 1 } else g.heldWords)

/-- A group as it stands but for its lane registers, its division masks and the place of its lane stream. -/
def lanesOnly (g g' : Group) : Prop :=
  { g' with lanes := g.lanes, dzmask := g.dzmask, domask := g.domask, queue := g.queue, lpos := g.lpos
            heldWords := g.heldWords } = g

/-- A source of a lane word in a lane, and whether it is poisoned in a `prc` group (spec/06 R109, R110). -/
def laneSources (op10 : Nat) (w : Wide) (g : Group) (v : View) (l : Nat) : (Word × Bool) × (Word × Bool) × (Word × Bool) :=
  let i := (laneInfo op10 w).getD {}
  let t := srcTys op10 w
  (srcIn g v w i.readA w.sa t.1 l, srcIn g v w i.readB w.sb t.2.1 l, srcIn g v w i.readC w.sc t.2.2 l)

/-- A wide lane word whose result in a lane depends on the group's registers alone: OP10, fields, the type of its result, and the
result of a running lane. -/
structure LaneRule where
  op10 : Nat
  w : Wide
  dty : Nat
  out : Group → View → Nat → LaneOut

/-- An arithmetic rule (spec/06 R108, R110): a poisoned source gives the poison result. -/
def arithRule (op10 : Nat) (w : Wide) (f : Word → Word → Word → LaneOut) : LaneRule :=
  ⟨op10, w, dstTy op10 w, fun g v l =>
    let s := laneSources op10 w g v l
    if s.1.2 || s.2.1.2 || s.2.2.2 then poisonOut (dstTy op10 w) else f s.1.1 s.2.1.1 s.2.2.1⟩
/-- A pairable operation (spec/06 R113, R115). -/
def pairableRule (op10 : Nat) (o : NOp) (w : Wide) : LaneRule :=
  arithRule op10 w (pairable o (dstTy op10 w) w.rm w.fz w.sat)
/-- `v.mov` (spec/06 R113): the bits, with the side bit in a `prc` group. -/
def moveRule (op10 : Nat) (w : Wide) : LaneRule :=
  ⟨op10, w, (srcTys op10 w).1, fun g v l =>
    let o := readSel g v w.imm (srcTys op10 w).1 w.sa l
    { val := placeTy (srcTys op10 w).1 (o.val.toNat % 2 ^ tyWidth (srcTys op10 w).1), psn := g.prc && o.psn }⟩
/-- A CORDIC word (spec/06 R123, R124). -/
def cordicRule (op10 : Nat) (fn : CordicFn) (w : Wide) : LaneRule :=
  arithRule op10 w fun a b _ =>
    { val := BitVec.ofNat 64 (cordic fn w.ty w.aux5 w.fz (a.extractLsb' 0 32) (b.extractLsb' 0 32)).1
      ev := (cordic fn w.ty w.aux5 w.fz (a.extractLsb' 0 32) (b.extractLsb' 0 32)).2 }

/-- The lane words with such a rule (spec/06 R113-R125; spec/07 R136; spec/09 R183). -/
def laneRule (i : Instr) : Option LaneRule :=
  match i with
  | .vAdd t w => some (pairableRule (0x00 + t.code) .add w)
  | .vSub t w => some (pairableRule (0x08 + t.code) .sub w)
  | .vMul t w => some (pairableRule (0x10 + t.code) .mul w)
  | .vFma t w => some (pairableRule (0x18 + t.code) .fma w)
  | .vMin t w => some (pairableRule (0x20 + t.code) .min w)
  | .vMax t w => some (pairableRule (0x28 + t.code) .max w)
  | .vAnd t w => some (pairableRule (0x30 + t.code) .and w)
  | .vOr t w => some (pairableRule (0x38 + t.code) .or w)
  | .vXor t w => some (pairableRule (0x40 + t.code) .xor w)
  | .vShl t w => some (pairableRule (0x48 + t.code) .shl w)
  | .vShr t w => some (pairableRule (0x50 + t.code) .shr w)
  | .vMov t w => some (moveRule (0x58 + t.code) w)
  | .vAbs t w => some (pairableRule (0x60 + t.code) .abs w)
  | .vNeg t w => some (pairableRule (0x68 + t.code) .neg w)
  | .vMulhi t w => some (pairableRule (0x70 + t.code) .mulhi w)
  | .vClamp t w => some (pairableRule (0x78 + t.code) .clamp w)
  | .vAddInt w => some (pairableRule 0x080 .add w)
  | .vSubInt w => some (pairableRule 0x081 .sub w)
  | .vMulInt w => some (pairableRule 0x082 .mul w)
  | .vFmaInt w => some (pairableRule 0x083 .fma w)
  | .vMinInt w => some (pairableRule 0x084 .min w)
  | .vMaxInt w => some (pairableRule 0x085 .max w)
  | .vAndInt w => some (pairableRule 0x086 .and w)
  | .vOrInt w => some (pairableRule 0x087 .or w)
  | .vXorInt w => some (pairableRule 0x088 .xor w)
  | .vShlInt w => some (pairableRule 0x089 .shl w)
  | .vShrInt w => some (pairableRule 0x08A .shr w)
  | .vMovInt w => some (moveRule 0x08B w)
  | .vAbsInt w => some (pairableRule 0x08C .abs w)
  | .vNegInt w => some (pairableRule 0x08D .neg w)
  | .vMulhiInt w => some (pairableRule 0x08E .mulhi w)
  | .vClampInt w => some (pairableRule 0x08F .clamp w)
  | .vDiv w => some (arithRule 0x090 w fun a b _ => divLane w.ty false a b)
  | .vRem w => some (arithRule 0x091 w fun a b _ => divLane w.ty true a b)
  | .vCvt w => some (arithRule 0x0A0 w fun a b _ =>
      let use := (w.ty == 11 || w.aux5 % 16 == 11) && decide (w.aux2 % 2 = 1)
      let r := convertOne w.ty (w.aux5 % 16) w.rm w.fz w.sat (scaleOf use b) a
      { val := r.1, ev := r.2 })
  | .vPkd8 w => some ⟨0x0A1, w, 6, fun g v l =>
      let els := packSrc w g v l
      let b := readSel g v w.imm 15 w.sb l
      if g.prc && (els.any (fun o => o.poisoned w.ty) || b.psn) then poisonOut 6
      else packBytes w.ty w.fz (b.val.toNat % 1024) (els.map fun o => o.val)⟩
  | .vUpkd8 w => some (arithRule 0x0A2 w fun a b _ =>
      let r := convertOne w.ty 11 w.rm w.fz false (b.toNat % 1024) (a >>> (8 * w.aux2))
      { val := r.1, ev := r.2 })
  | .vD8sc w => some (arithRule 0x0A3 w fun a _ _ =>
      { val := BitVec.ofNat 64 (d8sc (numOf w.ty w.fz 0 a)).1, ev := (d8sc (numOf w.ty w.fz 0 a)).2 })
  | .vPmul w => some (arithRule 0x0B0 w fun a b _ => phOut w.ty (phMul w.ty (phCode w.ty a) (phCode w.ty b)))
  | .vPconj w => some (arithRule 0x0B1 w fun a _ _ =>
      phOut w.ty ((phAngle w.ty (phCode w.ty a)).map fun x => (2 ^ phBits w.ty - x) % 2 ^ phBits w.ty))
  | .vPvec w => some (arithRule 0x0B2 w fun a _ _ =>
      match phAngle w.ty (phCode w.ty a) with
      | none => { val := 0 }
      | some x =>
        i32Out (if w.aux2 = 0 then cosEntry (phIndex w.ty x) else if w.aux2 = 1 then sinEntry (phIndex w.ty x) else 1))
  | .vPres w => some (arithRule 0x0B3 w fun a b c => resolveOut w.ty (readInt 2 a) (readInt 2 b) (c.toNat % 2 ^ 32))
  | .vSin w => some (cordicRule 0x180 .sin w)
  | .vCos w => some (cordicRule 0x181 .cos w)
  | .vAtan2 w => some (cordicRule 0x182 .atan2 w)
  | .vExp w => some (cordicRule 0x183 .exp w)
  | .vLn w => some (cordicRule 0x184 .ln w)
  | .vTanh w => some (cordicRule 0x185 .tanh w)
  | .vSigm w => some (cordicRule 0x186 .sigm w)
  | .vSqrt w => some (cordicRule 0x187 .sqrt w)
  | .vRsq w => some (cordicRule 0x188 .rsq w)
  | .vDivCordic w => some (cordicRule 0x189 .div w)
  | .vShfl w => some ⟨0x200, w, dstTy 0x200 w, fun g v l =>
      let size := tileSize g v
      let b := (readSel g v w.imm 15 w.sb l).val.toNat % 2 ^ 32
      let src := l / size * size + shflIndex w.aux5 size (l % size) b
      if bit g.present src then
        { val := (readSel g v w.imm w.ty w.sa src).val, psn := (readSel g v w.imm w.ty w.sa src).psn }
      else { val := 0 }⟩
  | .vCpsn w => some ⟨0x3A1, w, 6, fun g v l => { val := (readSel g v w.imm 15 w.sa l).val }⟩
  | _ => none

/-- The registers that a rule's word writes: DST8, or its pair for a 64-bit result; none under WS (spec/02 R17, spec/03 R41). -/
def LaneRule.writes (r : LaneRule) : List Nat :=
  if r.w.ws then [] else if tyWidth r.dty = 64 then [r.w.dst.toNat - r.w.dst.toNat % 2, r.w.dst.toNat - r.w.dst.toNat % 2 + 1]
  else [r.w.dst.toNat]

/-- The half of a lane's result that a register takes: the low half, but for the odd register of a pair. -/
def LaneRule.half (r : LaneRule) (k : Nat) (o : LaneOut) : Opnd :=
  ⟨if tyWidth r.dty = 64 ∧ k % 2 = 1 then o.val >>> 32 else o.val &&& 0xFFFFFFFF, o.psn⟩

/-- The registers of a lane file after a word: running lanes of the written registers take their results, every lane of the freed
ones reads zero, all else is as before. -/
def lanesAfter (old new : LaneFile) (run : Word) (writes frees : List Nat) (val : Nat → Nat → Opnd) : Prop :=
  ∀ k l, l < 64 → new.get k l = if bit run l = true ∧ k ∈ writes then val k l
    else if k ∈ frees then ⟨0, false⟩ else old.get k l

/-- The events of a class: COUNT saturates, the flag is set; n is the number of events (spec/03 R62-R64). -/
def counted (s t : State) (n : Nat → Nat) : Prop :=
  ∀ c, c < 7 →
    (((t.dev.ctx s.grp.ctx).nev.getD c 0).extractLsb' 0 32).toNat =
      min (2 ^ 32 - 1) ((((s.dev.ctx s.grp.ctx).nev.getD c 0).extractLsb' 0 32).toNat + n c) ∧
    bit (t.dev.ctx s.grp.ctx).nevflag c = (bit (s.dev.ctx s.grp.ctx).nevflag c || decide (n c ≠ 0))

/-- The fallbacks of a word: WARN is set where there is one, and WCODE takes the lowest if WARN was clear (spec/02 R31). -/
def warned (s t : State) (codes : List Nat) : Prop :=
  let x := s.dev.ctx s.grp.ctx
  let y := t.dev.ctx s.grp.ctx
  (codes = [] → y.warn = x.warn ∧ y.wcode = x.wcode) ∧
  (codes ≠ [] → y.warn = true ∧ (x.warn = true → y.wcode = x.wcode) ∧
    (x.warn = false → ∃ c ∈ codes, (∀ k ∈ codes, c ≤ k) ∧ y.wcode = BitVec.ofNat 4 c))

/-- The lanes of a set that meet a condition. -/
def lanesWith (run : Word) (p : Nat → Bool) : Nat := countBelow 64 fun l => bit run l && p l

/-- The result of a slot of a pair word in a running lane (spec/02 R25, spec/06 R108). -/
def slotOut (g : Group) : Slot → Nat → LaneOut
  | .nop _, _ => { val := 0 }
  | .op o t f, l =>
    let a := g.lanes.get f.sa.toNat l
    let b := g.lanes.get f.sb.toNat l
    let c := g.lanes.get f.sc.toNat l
    let ty := nTyCode t
    if o = .mov then { val := a.val, psn := g.prc && a.psn }
    else if g.prc && (a.poisoned ty || (o.readsB && b.poisoned ty) || (o.readsC && c.poisoned ty)) then poisonOut ty
    else pairable o ty (f.mod.toNat / 4) (bit f.mod 1) (bit f.mod 0) a.val b.val c.val

/-! ### Numbers as rationals -/

/-- Exponent and fraction bits of a floating-point type (spec/03 R43). -/
def fpShape (ty : Nat) : Nat × Nat := if ty = 9 then (5, 10) else if ty = 10 then (8, 7) else (8, 23)
/-- The sign bit, the magnitude of infinity and that of the least normal number, as patterns. -/
def fpSign (ty : Nat) : Nat := 2 ^ ((fpShape ty).1 + (fpShape ty).2)
def fpTop (ty : Nat) : Nat := (2 ^ (fpShape ty).1 - 1) * 2 ^ (fpShape ty).2
def fpNormal (ty : Nat) : Nat := 2 ^ (fpShape ty).2
/-- The canonical NaN (spec/03 R44). -/
def fpQuiet (ty : Nat) : Nat := fpTop ty + 2 ^ ((fpShape ty).2 - 1)
/-- The exponent bias. -/
def fpBias (ty : Nat) : Nat := 2 ^ ((fpShape ty).1 - 1) - 1
/-- The value of a magnitude (spec/03 R43); that of infinity counts as the power of two past the greatest number. -/
def fpMag (ty m : Nat) : ℚ :=
  if m < fpNormal ty then (m : ℚ) / 2 ^ (fpBias ty + (fpShape ty).2 - 1)
  else ((fpNormal ty + m % fpNormal ty : Nat) : ℚ) * 2 ^ (m / fpNormal ty) / 2 ^ (fpBias ty + (fpShape ty).2)
/-- Sign and value of a pattern. -/
def fpNeg (ty x : Nat) : Bool := decide (fpSign ty ≤ x)
def fpVal (ty x : Nat) : ℚ := (if fpNeg ty x then -1 else 1) * fpMag ty (x % fpSign ty)
/-- A pattern is finite, an infinity, a NaN, a signalling NaN. -/
def fpFinite (ty x : Nat) : Prop := x % fpSign ty < fpTop ty
def fpInf (ty x : Nat) : Prop := x % fpSign ty = fpTop ty
def fpNan (ty x : Nat) : Prop := fpTop ty < x % fpSign ty
def fpSignal (ty x : Nat) : Prop := fpTop ty < x % fpSign ty ∧ x % fpNormal ty < 2 ^ ((fpShape ty).2 - 1)
/-- A source as it is read: with FZ, a subnormal is zero of its sign (spec/03 R47). -/
def fpIn (ty : Nat) (fz : Bool) (x : Nat) : Nat := if fz = true ∧ x % fpSign ty < fpNormal ty then x - x % fpSign ty else x
/-- The order of patterns that are no NaN, −0 below +0 (spec/06 R114). -/
def fpKey (ty x : Nat) : Int := if fpNeg ty x then -1 - (x % fpSign ty : Nat) else (x % fpSign ty : Nat)

/-- A magnitude a ≥ 0 rounds to the pattern r (spec/03 R46): 1 down, 2 up, 0 to the nearest with ties to even, else with ties away. -/
def magRounds (ty mode : Nat) (a : ℚ) (r : Nat) : Prop :=
  let v := fpMag ty
  r ≤ fpTop ty ∧
  (mode = 1 → r < fpTop ty ∧ v r ≤ a ∧ ∀ y, y < fpTop ty → v y ≤ a → y ≤ r) ∧
  (mode = 2 → (a ≤ v r ∨ r = fpTop ty) ∧ ∀ y, y < r → v y < a) ∧
  (mode ≠ 1 → mode ≠ 2 → ∀ y, y ≤ fpTop ty → |v r - a| ≤ |v y - a| ∧
    (y ≠ r → |v r - a| = |v y - a| → if mode = 0 then r % 2 = 0 else y < r))

/-- How RM rounds a magnitude of a sign: toward +∞ and −∞ it depends on the sign. -/
def magMode (rm : Nat) (neg : Bool) : Nat :=
  match rm with
  | 2 => if neg then 1 else 2
  | 3 => if neg then 2 else 1
  | k => k

/-- The exact q, rounded once (spec/03 R46, R47, R61): the result's pattern, with the sign of q or of an exact zero, flushed under FZ;
OVF and INX where it passes the greatest number, UNF and INX where it is tiny and inexact, INX where it is inexact. -/
def fpGives (ty rm : Nat) (fz : Bool) (q : ℚ) (neg0 : Bool) (val : Nat) (ev : Ev) : Prop :=
  let neg := if q = 0 then neg0 else decide (q < 0)
  ∃ r, magRounds ty (magMode rm neg) |q| r ∧
    let m := if fz = true ∧ r < fpNormal ty then 0 else r
    val = (if neg then fpSign ty else 0) + m ∧
    ev = if m = fpTop ty ∨ fpMag ty (fpTop ty) ≤ |q| then 10 else if fpMag ty m = |q| then 0
      else if |q| < fpMag ty (fpNormal ty) then 12 else 8

/-- The least or the greatest of patterns, NaNs passed over; of NaNs alone the canonical one (spec/06 R114, spec/07 R137). -/
def fpPicks (ty : Nat) (greatest : Bool) (l : List Nat) (val : Nat) : Prop :=
  ((∀ x ∈ l, fpNan ty x) → val = fpQuiet ty) ∧
  ((∃ x ∈ l, ¬ fpNan ty x) → val ∈ l ∧ ¬ fpNan ty val ∧
    ∀ x ∈ l, ¬ fpNan ty x → if greatest then fpKey ty x ≤ fpKey ty val else fpKey ty val ≤ fpKey ty x)
/-- The event INV of signalling NaNs among the operands (spec/03 R44). -/
def fpInv (ty : Nat) (l : List Nat) (ev : Ev) : Prop := ev = 1 ∧ (∃ x ∈ l, fpSignal ty x) ∨ ev = 0 ∧ ∀ x ∈ l, ¬ fpSignal ty x

/-- q rounds to the integer z under RM (spec/03 R46). -/
def intRounds (rm : Nat) (q : ℚ) (z : Int) : Prop :=
  match rm with
  | 0 => |2 * (z : ℚ) - 2 * q| ≤ 1 ∧ (|2 * (z : ℚ) - 2 * q| = 1 → z % 2 = 0)
  | 1 => z = if q < 0 then ⌈q⌉ else ⌊q⌋
  | 2 => z = ⌈q⌉
  | 3 => z = ⌊q⌋
  | _ => |2 * (z : ℚ) - 2 * q| ≤ 1 ∧ (|2 * (z : ℚ) - 2 * q| = 1 → |q| < |(z : ℚ)|)

/-- The value of a number that was read. -/
def numVal : Num → ℚ
  | .fin neg n d => (if neg then -1 else 1) * ((n : ℚ) / d)
  | _ => 0

/-- The decode table of D8, row by row: the bodies from and to, f, D (spec/03 R48). -/
def d8Table : List (Nat × Nat × Nat × Int) :=
  [(0x40, 0x5F, 5, 0), (0x60, 0x7F, 5, -1), (0x20, 0x27, 3, 1), (0x28, 0x2F, 3, 2), (0x30, 0x37, 3, -2), (0x38, 0x3F, 3, -3),
   (0x10, 0x13, 2, 3), (0x14, 0x17, 2, 4), (0x18, 0x1B, 2, -4), (0x1C, 0x1F, 2, -5), (0x08, 0x09, 1, 5), (0x0A, 0x0B, 1, 6),
   (0x0C, 0x0D, 1, -6), (0x0E, 0x0F, 1, -7), (0x04, 0x04, 0, 7), (0x05, 0x05, 0, 8), (0x06, 0x06, 0, -8), (0x07, 0x07, 0, -9),
   (0x02, 0x02, 0, 9), (0x03, 0x03, 0, -10), (0x01, 0x01, 0, 10)]
/-- f and D of a body, its F, and its magnitude (1 + 9·F/2^f) × 10^D. -/
def d8Row (body : Nat) : Nat × Int := ((d8Table.find? fun r => decide (r.1 ≤ body ∧ body ≤ r.2.1)).map fun r => r.2.2).getD (0, 0)
def d8F (body : Nat) : Nat := body % 2 ^ (d8Row body).1
def d8Size (body : Nat) : ℚ := (1 + 9 * (d8F body : ℚ) / 2 ^ (d8Row body).1) * 10 ^ (d8Row body).2
/-- The value of a code, and of a scale (spec/03 R48, R49). -/
def codeVal (code : Nat) : Option ℚ :=
  if code % 256 = 0x80 then none else if code % 128 = 0 then some 0
  else some ((if 128 ≤ code % 256 then -1 else 1) * d8Size (code % 128))
def scaleVal (s : Nat) : Option ℚ :=
  if s % 1024 = 0x3FF then none else some ((16 + (s % 16 : Nat) : ℚ) / 16 * 10 ^ (((s % 1024 / 16 : Nat) : Int) - 32))

/-! ### The matrix engine -/

/-- The units of the operand buffer and the slots that a team may claim: free, or its own (spec/14 R237). -/
def mayClaim (owner : Tab (Option Nat)) (team : Nat) (ks : List Nat) : Prop :=
  ∀ k ∈ ks, ∀ o, owner.getD k none = some o → o = team
/-- Every key of a list is the team's. -/
def claimedBy (owner : Tab (Option Nat)) (team : Nat) (ks : List Nat) : Prop := ∀ k ∈ ks, owner.getD k none = some team

/-- The cluster of the group on turn. -/
def State.cluster (s : State) : Cluster := s.dev.cluster (clusterKey s.grp.die s.grp.core)
/-- The records of its team. -/
def State.recs (s : State) : Tab MxRec := (s.dev.team s.grp.team).recs

/-- A new entry of the request table for the group on turn, with the counter raised (spec/14 R251). -/
def entered (s t : State) (r : MxRec) (kind : MxKind) : Prop :=
  ∃ e, t.cluster.table = s.cluster.table ++ [e] ∧ e.gid = s.grp.gid ∧ e.rc = r ∧ e.kind = kind ∧ e.running = false ∧ e.passed = 0 ∧
    e.prio = s.grp.prio ∧ e.team = s.grp.team ∧ t.grp.count .mx = s.grp.count .mx + 1

/-- The next word of the lane stream traps with a cause and named lanes. -/
def Group.laneTrapped (g : Group) (cause : Nat) (lanes : Word) : Group :=
  g.trapped cause 0 7 g.pc (BitVec.ofNat 64 g.lpos) lanes false ⟨g.lpos, g.queue⟩
/-- A trap of the lane word on turn reaches a handler; no chain is open. -/
def laneTraps (g : Group) : Prop := g.chain = none ∧ g.inHandler = false ∧ g.trapv ≠ 0
/-- The words that are not chain-eligible: a lane word of these issues outside a chain. -/
def aloneReady (s : State) (op10 : Nat) (w : Wide) : Prop := laneReady s (formOf s op10 w) ∧ s.grp.chain = none

/-! ### Lane memory words -/

/-- The capability and the address of a lane: (CURSOR + sext(a)) mod 2^50, through its quad or through `c`K (spec/08 R155, R165). -/
def laneAt (s : State) (w : Wide) (scalar : Bool) (l : Nat) : LaneAt :=
  let g := s.grp
  let c := if scalar then g.view.c.getD w.ck.toNat {} else quadCap g w.qk l
  ⟨l, c, laneAddr c (readSel g g.view w.imm 2 w.sa l).val⟩

/-- The check of a lane's access. -/
def laneCheck (s : State) (need : Need) (n : Nat) (e : LaneAt) : Checked :=
  capCheck s.regs s.dev e.cap (s.mach.party true) need e.addr n
/-- Every running lane passes its checks. -/
def lanesPass (s : State) (need : Need) (n : Nat) (run : Word) (e : Nat → LaneAt) : Prop :=
  ∀ l, l < 64 → bit run l = true → laneCheck s need n (e l) = .ok

/-- The lane words that check an access in every running lane (spec/08 R165, R166; spec/13 R225): OP10, fields, whether the
capability is `c`K, what it asks, and the bytes of the access. -/
def laneAccessForm (i : Instr) : Option (Nat × Wide × Bool × Need × Nat) :=
  match i with
  | .vLd w => some (0x280, w, false, needLoad, tyWidth w.ty / 8)
  | .vSt w => some (0x281, w, false, needStore, tyWidth w.ty / 8)
  | .vGld w => some (0x282, w, true, needLoad, tyWidth w.ty / 8)
  | .vSst w => some (0x283, w, true, needStore, tyWidth w.ty / 8)
  | .vCld w => some (0x284, w, false, needLoad, 16)
  | .vCst w => some (0x285, w, false, needCapStore, 16)
  | .vAmo w => some (0x300, w, false, needAtomic, tyWidth w.ty / 8)
  | _ => none

/-- The count on `fx` may rise where a running lane's access reaches the ports' range (spec/22 R361). -/
def lanesRoom (g : Group) (run : Word) (e : Nat → LaneAt) : Prop :=
  (∃ l, l < 64 ∧ bit run l = true ∧ reachesFabric (e l) = true) → g.count .fx < 1023

/-- The core of the group holds no copy of a line, so that a load of it reads memory (spec/16 R263). -/
def noCopyHeld (s : State) (a : Nat) : Prop :=
  (s.dev.core (coreKey s.grp.die s.grp.core)).copies.find? (a / 128) = none ∧
  (s.dev.core (coreKey s.grp.die s.grp.core)).pushes.find? (a / 128) = none

/-- A lane's place answers at once, with the newest bytes and without a storage error. -/
def nearby (s : State) (n : Nat) (e : LaneAt) : Prop :=
  match placeOf s.dev e.cap e.addr with
  | .scratch o => (s.dev.team s.grp.team).badScratch o n = false
  | .priv _ => True
  | .local_ a => noCopyHeld s a ∧ soundLine s a
  | _ => False

/-- What stands at a lane's place: n bytes, lowest first, the tag of its granule, and whether it is poisoned. -/
def standing (s : State) (n : Nat) (e : LaneAt) : Fetched :=
  match placeOf s.dev e.cap e.addr with
  | .scratch o => (s.dev.team s.grp.team).scratch.fetch o n
  | .priv o => s.grp.priv.fetch (2 ^ 20 * e.lane + o) n
  | .local_ a => s.dev.mem.fetch a n
  | _ => ⟨[], false, false⟩

/-- What a group keeps through a lane word that accesses memory: everything but its lane registers and the place of its lane
stream, the operations in flight with their numbers and times, its private memory, its ordinals and the misses counted in a
replay. -/
def keptByLanes (g g' : Group) : Prop :=
  { g'.flightsOf g with
    lanes := g.lanes, queue := g.queue, lpos := g.lpos, missed := g.missed, waitRemote := g.waitRemote, ords := g.ords
    priv := g.priv, heldWords := g.heldWords } = g

/-- Bytes after the stores of the running lanes in ascending order: n bytes of v l, lowest first, at x l; where lanes overlap, the
highest lane's stand (spec/08 R165). -/
def laneStored (old new : Nat → Byte) (run : Word) (n : Nat) (x : Nat → Nat) (v : Nat → Nat) : Prop :=
  (∀ b, (∀ l, l < 64 → bit run l = true → b < x l ∨ x l + n ≤ b) → new b = old b) ∧
  ∀ l b, l < 64 → bit run l = true → x l ≤ b → b < x l + n → (∀ k, l < k → k < 64 → bit run k = true → b < x k ∨ x k + n ≤ b) →
    new b = BitVec.ofNat 8 (v l / 256 ^ (b - x l))

/-- The value of the word at an address after the atomics of the lanes below l, in ascending order (spec/13 R225). -/
def afterLanesBelow (old : Nat → Nat) (run : Word) (x : Nat → Nat) (f : Nat → Nat → Nat) (a : Nat) : Nat → Nat
  | 0 => old a
  | l + 1 => let v := afterLanesBelow old run x f a l
    if bit run l = true ∧ x l = a then f l v else v

/-- The new value of an atomic at the width of a type (spec/13 R224). -/
def amoRule (op : AmoOp) (ty old b c : Nat) : Nat :=
  let z (n : Nat) : Int := readInt ty (BitVec.ofNat 64 n)
  match op with
  | .add => (old + b) % 2 ^ tyWidth ty
  | .and => old &&& b
  | .or => old ||| b
  | .xor => old ^^^ b
  | .max => if z b ≤ z old then old else b
  | .min => if z old ≤ z b then old else b
  | .swap => b
  | .cas => if old = c then b else old

/-- The quads after a word: running lanes of quad q take their capabilities, and no register outside the quad and the freed ones
changes (spec/04 R79). -/
def quadsAfter (old new : LaneFile) (run : Word) (ws : Bool) (q : Nat) (frees : List Nat) (val : Nat → Cap × Bool) : Prop :=
  (∀ l, l < 64 → bit run l = true → ws = false → (new.quad q l).1 = (val l).1 ∧ (new.quad q l).2 = (val l).2) ∧
  (∀ k l, l < 64 → k / 4 ≠ q → k ∉ frees → new.get k l = old.get k l)

/-! ### Lane control and exchange -/

/-- The structured words (spec/07 R128): OP10, fields, and the new counter of a present lane, from its counter c, whether its condition
holds, and whether `v.endloop` goes on. -/
def nestRule (i : Instr) : Option (Nat × Wide × (Nat → Bool → Bool → Nat)) :=
  let half (c : Nat) : Nat := if c = 1 then 0 else c
  match i with
  | .vIf w => some (0x1C0, w, fun c cond _ => if c = 0 then (if cond then 0 else 1) else c + 1)
  | .vElse w => some (0x1C1, w, fun c _ _ => if c = 0 then 1 else if c = 1 then 0 else c)
  | .vEndif w => some (0x1C2, w, fun c _ _ => if c = 0 then 0 else c - 1)
  | .vLoop w => some (0x1C3, w, fun c _ _ => if c = 0 then 0 else c + 2)
  | .vBreak w => some (0x1C4, w, fun c cond _ => if c = 0 ∧ cond then w.imm.toNat % 256 + 2 else c)
  | .vCont w => some (0x1C5, w, fun c cond _ => if c = 0 ∧ cond then w.imm.toNat % 256 + 1 else c)
  | .vEndloop w => some (0x1C6, w, fun c _ goes => if goes then half c else half c - 2)
  | _ => none

/-- A frame keeps its position and its blocks, whose operands may have been kept up with a lane write (spec/04 R71). -/
def framesKept (f f' : Option Frame) : Prop :=
  (f'.map fun x => (x.pos, x.blocks.map fun b => (b.start, b.count))) = f.map fun x => (x.pos, x.blocks.map fun b => (b.start, b.count))

/-- What a group keeps through a lane word that writes counters, masks or a scalar register: its lane file but for last use, and all
else but the place of the lane stream, the operands that its blocks hold and what it writes. -/
def keptByControl (g g' : Group) : Prop :=
  { g' with lanes := g.lanes, queue := g.queue, lpos := g.lpos, nest := g.nest, nestHigh := g.nestHigh, s := g.s, m := g.m
            badScalar := g.badScalar, heldWords := g.heldWords, trapFrame := g.trapFrame, emuFrame := g.emuFrame } = g ∧
  framesKept g.trapFrame g'.trapFrame ∧ framesKept g.emuFrame g'.emuFrame

/-- The running lanes of the tile of a lane (spec/04 R84). -/
def tileRun (g : Group) (v : View) (run : Word) (l : Nat) : List Nat :=
  (List.range 64).filter fun k => bit run k && decide (k / tileSize g v = l / tileSize g v)

/-- The tiles divide the group. -/
def tilesFit (g : Group) (v : View) : Prop := 0 < tileSize g v ∧ tileSize g v ∣ g.width ∧ g.width ≤ 64

/-- Source A of an exchange word in a lane, and whether it is poisoned in a `prc` group. -/
def exchSource (g : Group) (v : View) (w : Wide) (l : Nat) : Word × Bool := srcIn g v w true w.sa w.ty l

/-- A result over a set of lanes: poisoned if one of them is (spec/06 R110). -/
def overLanes (g : Group) (v : View) (w : Wide) (dty : Nat) (ls : List Nat) (f : List Word → LaneOut) : LaneOut :=
  if ls.any fun k => (exchSource g v w k).2 then poisonOut dty else f (ls.map fun k => (exchSource g v w k).1)

/-- A reduction of a list (spec/07 R137). -/
def reduced (w : Wide) (l : List Word) : LaneOut :=
  { val := (redOver w.aux5 w.ty w.rm w.fz w.sat l).1, ev := (redOver w.aux5 w.ty w.rm w.fz w.sat l).2 }

/-- `s`k of the group after a word: v, but `s0` keeps reading zero; every other register as before. -/
def scalarSet (g g' : Group) (k : Nat) (v : Word) : Prop := ∀ j, g'.rs j = if j = k ∧ j ≠ 0 then v else g.rs j

/-! ### Groups, teams and events -/

/-- A step goes on to a state of which something holds. -/
def leads (i : Instr) (s : State) (p : State → Prop) : Prop := ∃ t, exec i s = .next t ∧ p t
/-- A step that changes nothing. -/
def idles (i : Instr) (s : State) : Prop := exec i s = .next s

/-- The group that a number names changes as given, and memory keeps every byte. -/
def groupBecomes (s t : State) (gid : Nat) (f : Group → Group) : Prop :=
  t.dev.mem = s.dev.mem ∧ ∀ g, s.mach.group? gid = some g → t.mach.group? gid = some (f g)

/-- A team that has neither a shadow nor a launch whose teams move together. -/
def aloneTeam (s : State) (k : Nat) : Prop := (s.dev.team k).partner = none ∧ (s.dev.launch (s.dev.team k).launch).kernel.coop = false

/-- The numbers of the groups are told apart: the group on turn stands in no other place. -/
def turnApart (s : State) : Prop := s.dev.groups.find? s.grp.gid = none

/-- What `s.tail` asks of its capability, in order (spec/05 R106). -/
def tailCause (c : Cap) : Option Nat :=
  if c.tag = false then some 16 else if c.malformed = true then some 17 else if c.kind = 5 then some 18
  else if c.kind ≠ 1 then some 19 else if c.perms &&& 16 = 0 then some 21 else none

/-- A line is homed on a die. -/
def homed (die l : Nat) : Prop := homeDie (128 * l) = some die

/-- What an event keeps that changes the device alone: the group on turn and every byte of memory. -/
def deviceOnly (s t : State) : Prop := t.grp = s.grp ∧ t.dev.mem = s.dev.mem ∧ t.regs = s.regs
/-- What an event keeps that changes the package's registers and records alone. -/
def pkgOnly (s t : State) : Prop := t.grp = s.grp ∧ t.regs = s.regs ∧ { t.dev with pkg := s.dev.pkg } = s.dev
/-- And what it keeps where the postmaster core also reads at the homes (spec/16 R386): dies that sleep wake, copies are recalled. -/
def commandOnly (s t : State) : Prop :=
  t.grp = s.grp ∧ t.regs = s.regs ∧
  { t.dev with pkg := s.dev.pkg, dies := s.dev.dies, cores := s.dev.cores, lines := s.dev.lines } = s.dev ∧
  (∀ j, { t.dev.die j with gated := (s.dev.die j).gated } = s.dev.die j) ∧
  (∀ k, { t.dev.core k with copies := (s.dev.core k).copies } = s.dev.core k) ∧
  ∀ l, { t.dev.line l with owner := (s.dev.line l).owner, mwts := (s.dev.line l).mwts, mrts := (s.dev.line l).mrts } = s.dev.line l

/-- The postmaster core runs a command: its code was written, no import holds it, and the log has room for a postmark where the
command writes one (spec/21 R342, R344). -/
def commandRuns (s : State) (op : Nat) (marks : Bool) : Prop :=
  s.dev.pkg.pmBusy = true ∧ s.dev.pkg.pmOp.toNat = op ∧ s.dev.pkg.importing = none ∧ (marks = true → logPending s.dev.pkg = false)
/-- The command is over, with a STATUS. -/
def answered (t : State) (status : Nat) : Prop := t.dev.pkg.pmBusy = false ∧ t.dev.pkg.pmStatus = BitVec.ofNat 8 status
/-- One more postmark stands in the log. -/
def marked (s t : State) : Prop := t.dev.pkg.log.length = s.dev.pkg.log.length + 1 ∧ t.dev.pkg.logSeq = s.dev.pkg.logSeq + 1
/-- The commands of the postmaster core with their codes and whether they write a postmark (spec/21 R342). -/
def commandForm (i : Instr) : Option (Nat × Bool) :=
  match i with
  | .ctxCreate _ => some (1, true)
  | .ctxRemove _ => some (2, true)
  | .partSet _ => some (3, true)
  | .fwSet _ => some (4, true)
  | .importBlob _ => some (5, true)
  | .logRead _ => some (6, false)
  | .logSign _ => some (7, false)
  | .attest _ => some (8, false)
  | _ => none

/-- Byte a lies in quarter k of the module: in its HBM4 or in its carve-out window (spec/21 R336). -/
def inQuarter (k a : Nat) : Prop :=
  (Config.hbmPerDie * (k / 4) + 36 * Config.gib * (k % 4) ≤ a ∧ a < Config.hbmPerDie * (k / 4) + 36 * Config.gib * (k % 4) + 36 * Config.gib) ∨
  (Config.carveBase + k * Config.carveWindow ≤ a ∧ a < Config.carveBase + (k + 1) * Config.carveWindow)

/-! ### Registers, queues and packets -/

/-- A write of a register of the package block changes its registers alone, as given (spec/21 R330). -/
def regBecomes (s : State) (o : Nat) (v : Word) (p : Pkg) : Prop :=
  exec (.registerWrite (Config.pkgBase + o) v) s = .next { s with dev := { s.dev with pkg := p } }

/-- No sync word has reached any object: a data write breaks no release sequence (spec/13 R220). -/
def noSyncs (s : State) : Prop := ∀ l, s.dev.syncs.getD l false = false

/-- The stores of the front ends to a place perform at once: none of theirs waits or is on its way through a port, and no change of a
carve-out holds the place (spec/16 R271, spec/22 R356). -/
def frontFree (s : State) (a : Nat) : Prop :=
  s.dev.frontOwed = [] ∧ (∀ r ∈ s.dev.remotes, r.gid = 0 → r.flight = 0 → r.write = none) ∧
  ∀ die q o, spaceOf a = .carve die q o → (s.dev.die die).carveNew = none
/-- A queue record that stands in the device's memory, is its context's (spec/16 R281), and that the front end may write. -/
def recordHere (s : State) (q : Nat) : Prop :=
  (homeDie (64 * q)).isSome = true ∧ ownsByte s.dev (((s.dev.queue? q).map fun x => x.ctx).getD 0) (64 * q) = true ∧ frontFree s (64 * q)
/-- STATE and ERR of a queue record as memory holds them (spec/18 R297). -/
def State.qState (s : State) (q : Nat) : Nat := s.dev.mem.num (64 * q + 32) 8 % 8
def State.qErr (s : State) (q : Nat) : Nat := s.dev.mem.num (64 * q + 32) 8 / 256 % 256

/-- An ignored doorbell is counted, saturating, and has no other effect (spec/18 R299, R300). -/
def ignored (s t : State) (die : Nat) : Prop :=
  t.grp = s.grp ∧ t.regs = s.regs ∧ { t.dev with dies := s.dev.dies } = s.dev ∧
  (t.dev.die die).dberr.toNat = min (2 ^ 32 - 1) ((s.dev.die die).dberr.toNat + 1) ∧
  ∀ j, j ≠ die → t.dev.die j = s.dev.die j

/-- A queue stands in a slot of a die: fresh, with STATE = MAPPED in its record; the other bytes of memory are as before. -/
def queueMapped (s t : State) (die slot q : Nat) : Prop :=
  (∃ y, (t.dev.die die).slots.find? slot = some y ∧ y.qaddr = q ∧ y.pkt = none ∧ y.st = 0) ∧
  (∃ x, t.dev.queue? q = some x ∧ x.mapped = some slot ∧ x.die = die ∧ x.state = 1 ∧ x.pending = false) ∧
  (noSyncs s → t.qState q = 1) ∧ (noSyncs s → bytesKept s t (64 * q + 32) 8) ∧ t.grp = s.grp

/-- A queue has left its slot with a STATE (spec/18 R300, R304, R306); the other bytes of memory are as before. -/
def queueLeft (s t : State) (q state : Nat) : Prop :=
  (∀ j, j < 4 → ∀ e ∈ (t.dev.die j).slots, e.2.qaddr ≠ q) ∧
  (∀ x, t.dev.queue? q = some x → x.state = state ∧ x.mapped = none) ∧
  (noSyncs s → t.qState q = state) ∧ (noSyncs s → bytesKept s t (64 * q + 32) 8) ∧ t.grp = s.grp

/-- The packet of a slot is on turn in its pass (spec/18 R307) and the last of it; its queue's record and RDIDX stand in memory, no
object has been reached there, the host holds no line, and no line holds an error. -/
def packetOn (s : State) (ty die slot : Nat) (q : QSlot) (bs : List Byte) (tags : List Bool) : Prop :=
  die < 4 ∧ passTurn s.dev die slot ty = some q ∧ q.pkt = some (bs, tags) ∧ bs.length = 64 ∧ recordHere s q.qaddr ∧ noSyncs s ∧
  hostHoldsNothing s ∧ s.dev.errors = [] ∧ s.dev.queue? q.qaddr ≠ none ∧ q.ended = none ∧
  ∀ e ∈ (s.dev.die die).slots, e.1 ≠ slot → e.2.ended = none ∧
    (e.2.passMask = true → ∀ b, e.2.pkt = some b → pktPriority (pktType b.1) ≠ pktPriority ty)

/-- A packet's processing has ended (spec/18 R297, R304): its slot is ready for the next, and RDIDX is one more. -/
def packetOver (s t : State) (die slot : Nat) (q : QSlot) : Prop :=
  (∃ y, slot? t.dev die slot = some y ∧ y.qaddr = q.qaddr ∧ y.pkt = none ∧ y.st = 0 ∧ y.passMask = false) ∧
  rdidx t.dev q.qaddr = (rdidx s.dev q.qaddr + 1) % 2 ^ 64 ∧ t.grp = s.grp ∧ t.regs = s.regs
/-- It is complete as well: with EVT its event goes to the host. -/
def packetDoneNow (s t : State) (q : QSlot) (bs : List Byte) : Prop :=
  (pktEvt bs = true → ∃ e, t.dev.pkg.events = s.dev.pkg.events ++ [e]) ∧
  ∀ x, t.dev.queue? q.qaddr = some x → ∀ e ∈ x.open_, e.1 ≠ rdidx s.dev q.qaddr
/-- Every byte but RDIDX's is as before. -/
def restKept (s t : State) (q : QSlot) : Prop := bytesKept s t (64 * q.qaddr + 24) 8
/-- The packet stays in its slot, in a wait, for a later round (spec/18 R303, R306, R307). -/
def packetHeld (s t : State) (die slot : Nat) (q : QSlot) (st : Nat) : Prop :=
  (∃ y, slot? t.dev die slot = some y ∧ y.qaddr = q.qaddr ∧ y.pkt = q.pkt ∧ y.st = BitVec.ofNat 3 st ∧ y.passMask = false) ∧
  (∀ a, t.memByte a = s.memByte a) ∧ t.grp = s.grp
/-- The packet's queue enters ERROR with a code (spec/18 R304): RDIDX stays, and the host is told. -/
def packetFails (s t : State) (q : QSlot) (code : Nat) : Prop :=
  queueLeft s t q.qaddr 3 ∧ t.qErr q.qaddr = code ∧ ∃ e, t.dev.pkg.events = s.dev.pkg.events ++ [e]

/-- What the front end asks of a packet's capability, as R153 judges it. -/
def frontCheck (s : State) (ctx : Nat) (c : Cap) (need : Need) (a n : Nat) : Checked :=
  capCheck s.regs s.dev c (feParty s.dev ctx) need a n
/-- It passes, and the bytes lie in the device's memory, unpoisoned. -/
def frontReads (s : State) (ctx : Nat) (c : Cap) (need : Need) (a n : Nat) : Prop :=
  frontCheck s ctx c need a n = .ok ∧ (homeDie a).isSome = true ∧ s.dev.mem.anyPoison a n = false

/-- The packets with their types, dies and slots (spec/18 R303). -/
def packetForm (i : Instr) : Option (Nat × Nat × Nat) :=
  match i with
  | .pktLaunch die slot => some (1, die, slot)
  | .pktWrite die slot => some (2, die, slot)
  | .pktSignal die slot => some (3, die, slot)
  | .pktWait die slot => some (4, die, slot)
  | .pktCopy die slot _ => some (5, die, slot)
  | .pktBarrier die slot => some (6, die, slot)
  | .pktFence die slot => some (7, die, slot)
  | _ => none

/-- The first access that a packet's type checks (spec/18 R303, R304). -/
def packetCap (ty : Nat) (bs : List Byte) (tags : List Bool) : Option (Cap × Need × Nat × Nat) :=
  let c := fieldCap bs tags 8
  match ty with
  | 1 => some (c, { kinds := [1], perms := 16, write := false, aligned := false }, c.cursor, 128)
  | 2 => some (c, { kinds := [0], perms := 2, write := true }, c.cursor, 8)
  | 3 => some (c, { kinds := [3], perms := 32, write := true }, c.base.toNat, 8)
  | 4 => some (c, { kinds := [0, 3], perms := 1, write := false }, if c.kind = 3 then c.base.toNat else c.cursor, 8)
  | 5 => some (c, needCmd, c.base.toNat, 64)
  | 6 => if c.tag = true then some (c, { kinds := [6], perms := 0, write := false, aligned := false }, c.base.toNat, 64) else none
  | _ => none

/-- The numbers of teams and groups from the next one on are free. -/
def numbersFree (s : State) : Prop := ∀ k, s.dev.nextId ≤ k → s.dev.teams.find? k = none ∧ s.dev.groups.find? k = none

/-- The memory and the group on turn stay, and the contexts but for the departures of routes whose pushed copies leave an L1
(spec/17 R290). -/
def schedulesOnly (s t : State) : Prop :=
  t.grp = s.grp ∧ t.regs = s.regs ∧ t.dev.mem = s.dev.mem ∧ ∀ c,
    { t.dev.ctx c with recs := (s.dev.ctx c).recs, depIds := (s.dev.ctx c).depIds, depCount := (s.dev.ctx c).depCount } = s.dev.ctx c

/-! ### Steps -/

/-- The state after a word of a stream has issued: its starvation count is 0, and save that `sys.yield`, which leaves its
mark, resets none (spec/12 R197, R198). -/
def State.issued (t : State) (lane keep : Bool) : State :=
  if t.stalled then t
  else { t with
    grp := { t.grp with
      starveScalar := if lane || keep then t.grp.starveScalar else 0, starveLane := if lane then 0 else t.grp.starveLane
      yielded := keep && t.grp.yielded }
    burst := t.burst + 1 }

/-- What a lane word that has issued leaves beside its own effect: its number among the core's lane words, and on the registers that
it read (spec/12 R200). -/
def State.laneNoted (t : State) (reads : List Nat) : State := if t.stalled then t else t.put (t.mach.laneIssued reads)

/-- The lane registers of the core's groups, with what each is guaranteed, fit its file, so that none is spilled (spec/12 R199, R200). -/
def fileFits (t : State) : Prop := ((t.mach.onCore t.grp.die t.grp.core).map physKept).sum ≤ 3072

/-- No storage of the group's registers or latches holds an uncorrectable error (spec/09 R186). -/
def soundStorage (g : Group) : Prop := g.badScalar = [] ∧ g.lanes.bad = [] ∧ g.badLatch = []

end Sys2Proof.Machine
end

