-- ==== Sys2Proof/Certificates/Slice0/Obligations.lean ====
section
/-! DEFINITION. The statements. Each says which rules of spec/ it formalises. -/

open Sys2Proof Sys2Proof.Machine

/-! ### Scalar words -/

/-- R74, R91: a scalar word that writes `s`d gives it the value, a write to `s0` is discarded and `s0` reads zero, the word
moves on by 4 bytes, and nothing else of the group changes. (`badScalar` holds storage errors: a write clears the
register's own.) -/
def Sys2Proof.Claims.ScalarWriteAndFrame : Prop :=
  ∀ (g : Group) (d : SReg) (x : Word),
    (∀ k, (g.result d x).rs k = if k = d.toNat ∧ k ≠ 0 then x else g.rs k) ∧
    g.rs 0 = 0 ∧
    (g.result d x).pc = g.pc + 4 ∧
    (∀ k, k ≠ d.toNat → (g.result d x).badScalar.getD k false = g.badScalar.getD k false) ∧
    { g.result d x with s := g.s, pc := g.pc, badScalar := g.badScalar } = g

/-- R93, R94: every arithmetic word of the two tables answers a next state in which `s`d holds what the table says and
nothing else has changed but the program counter. -/
def Sys2Proof.Claims.ScalarArithmeticResults : Prop :=
  ∀ (i : Instr) (s : State) (d : SReg) (x : Word), aluResult i s.grp = some (d, x) →
    exec i s = .next { s with grp := s.grp.result d x }

/-- R95, R66: the divide words give quotient and remainder, with the corner results and one IDIV event in a corner, whose
action traps the group after the word; a word that counts an event waits for the lane words before it. -/
def Sys2Proof.Claims.ScalarDivision : Prop :=
  ∀ (i : Instr) (s : State) (d : SReg) (x : Word) (ev : Bool), divWord i s.grp = some (d, x, ev) →
    (ev = false → exec i s = .next { s with grp := s.grp.result d x }) ∧
    (ev = true → s.grp.queue ≠ [] → exec i s = .next s.waits) ∧
    (ev = true → s.grp.queue = [] → (countClass s.dev s.grp.ctx 4 1).2 = false →
      exec i s = .next { s with grp := s.grp.result d x, dev := (countClass s.dev s.grp.ctx 4 1).1 }) ∧
    (ev = true → trapsNow s.grp → (countClass s.dev s.grp.ctx 4 1).2 = true →
      exec i s = .next { s with
        grp := (s.grp.result d x).trapped 9 4 7 s.grp.pc (BitVec.allOnes 64) 0 true ⟨0, []⟩
        dev := (countClass s.dev s.grp.ctx 4 1).1 })

/-- R96, R97, R14, R15: a transfer that is taken moves the program counter to its target and, for a jump or a branch, changes
nothing else; a branch not taken moves on; a target that is no multiple of 4 or lies outside the scalar section traps with
BADPC and leaves the return stack as it was. -/
def Sys2Proof.Claims.ScalarTransfers : Prop :=
  ∀ (i : Instr) (s : State),
    (∀ t, transferTarget i s.grp = some (t, false) → s.grp.goodTarget t = true →
      exec i s = .next { s with grp := { s.grp with pc := t } }) ∧
    (isBranch i = true → transferTarget i s.grp = none → exec i s = .next { s with grp := { s.grp with pc := s.grp.pc + 4 } }) ∧
    (∀ t p, transferTarget i s.grp = some (t, p) → s.grp.goodTarget t = false → trapsNow s.grp →
      exec i s = .next { s with grp := s.grp.scalarTrapped 3 })

/-- R98: a call pushes the address of the next word on the logical stack (return stack and spill area together) and a return
pops it, nothing else of the group changing but the program counter; a push on a full stack traps with RSFULL, a return on
an empty one with RSEMPTY, a return to a bad address with BADPC, and each leaves the stack as it was. -/
def Sys2Proof.Claims.CallsAndReturns : Prop :=
  ∀ (s : State),
    (∀ i t, transferTarget i s.grp = some (t, true) → s.grp.goodTarget t = true →
      (s.grp.stack.length < 16 ∨ s.grp.spilled ≠ 512) →
      ∃ g, exec i s = .next { s with grp := g } ∧ g.pc = t ∧ g.returns = (s.grp.pc + 4) :: s.grp.returns ∧
        { g with pc := s.grp.pc, stack := s.grp.stack, spill := s.grp.spill, spilled := s.grp.spilled } = s.grp) ∧
    (∀ i t, transferTarget i s.grp = some (t, true) → s.grp.goodTarget t = true → s.grp.stack.length = 16 →
      s.grp.spilled = 512 → trapsNow s.grp → exec i s = .next { s with grp := s.grp.scalarTrapped 8 }) ∧
    (∀ t rest, s.grp.returns = t :: rest → s.grp.goodTarget t = true →
      ∃ g, exec .sRet s = .next { s with grp := g } ∧ g.pc = t ∧ g.returns = rest ∧
        { g with pc := s.grp.pc, stack := s.grp.stack, spill := s.grp.spill, spilled := s.grp.spilled } = s.grp) ∧
    (∀ t rest, s.grp.returns = t :: rest → s.grp.goodTarget t = false → trapsNow s.grp →
      exec .sRet s = .next { s with grp := s.grp.scalarTrapped 3 }) ∧
    (s.grp.returns = [] → trapsNow s.grp → exec .sRet s = .next { s with grp := s.grp.scalarTrapped 7 })

/-- R99, R100: `lrun` stalls while four blocks are queued, traps with BADPC past the lane section, and otherwise queues the
block with the scalar-side operands as they stand (R71) and moves on; `lwait` waits until no lane word is queued. -/
def Sys2Proof.Claims.LaneHandOff : Prop :=
  ∀ (s : State) (off : BitVec 17) (cnt : BitVec 9),
    (4 ≤ s.grp.queue.length → exec (.lrun off cnt) s = .next s.waits) ∧
    (s.grp.queue.length < 4 → off.toNat + (cnt.toNat + 1) ≤ s.grp.laneWords →
      exec (.lrun off cnt) s = .next { s with grp := { s.grp with
        pc := s.grp.pc + 4
        queue := s.grp.queue ++ [⟨off.toNat, cnt.toNat + 1, ⟨s.grp.s, s.grp.c, s.grp.m, s.grp.x, s.grp.tile⟩⟩]
        lpos := if s.grp.queue = [] then off.toNat else s.grp.lpos } }) ∧
    (s.grp.laneWords < off.toNat + (cnt.toNat + 1) → trapsNow s.grp →
      exec (.lrun off cnt) s = .next { s with grp := s.grp.scalarTrapped 3 }) ∧
    (s.grp.queue = [] → exec .lwait s = .next { s with grp := { s.grp with pc := s.grp.pc + 4 } }) ∧
    (s.grp.queue ≠ [] → exec .lwait s = .next s.waits)

/-- R103, R66: `s.cnt` reads the in-flight counter of a path and joins nothing; `s.wait` waits while the counter is above
the threshold; completed, it moves on (the core's logical time then covers the writes that it joins, R386), and a held trap
of an operation that the threshold covers is taken after it, with the operation's path. Of several held traps it is the one held
longest: the rules give no order, and this one is the model's choice (notes/assumptions/49). -/
def Sys2Proof.Claims.InFlightWaits : Prop :=
  ∀ (s : State) (p : Path) (a d : SReg),
    (s.grp.queue = [] → exec (.sCnt d p) s =
      .next { s with grp := s.grp.result d (BitVec.ofNat 64 (s.grp.flights.filter fun f => f.path == p).length) }) ∧
    (s.grp.queue ≠ [] → exec (.sCnt d p) s = .next s.waits ∧ exec (.sWait p a) s = .next s.waits) ∧
    ((s.grp.rs a.toNat).toNat < s.grp.count p → exec (.sWait p a) s = .next s.waits) ∧
    (s.grp.queue = [] → s.grp.count p ≤ (s.grp.rs a.toNat).toNat → (∀ h ∈ s.grp.heldTraps, h.path ≠ p) →
      exec (.sWait p a) s = .next { s with
        grp := { s.grp with pc := s.grp.pc + 4, unjoined := s.grp.unjoined.set (pathCode p) 0 0 }
        dev := raisePts s.dev (coreKey s.grp.die s.grp.core) (s.grp.unjoined.getD (pathCode p) 0) }) ∧
    (∀ h rest, trapsNow s.grp → s.grp.count p ≤ (s.grp.rs a.toNat).toNat → s.grp.heldTraps = h :: rest → h.path = p →
      h.pos ≤ s.grp.issued.getD (pathCode p) 0 - (s.grp.rs a.toNat).toNat →
      ∃ t, exec (.sWait p a) s = .next t ∧ t.grp.code = BitVec.ofNat 8 (s.grp.trapCode h.code) ∧
        t.grp.nevc = BitVec.ofNat 3 h.nevc ∧ t.grp.path = BitVec.ofNat 3 (pathCode p) ∧ t.grp.tspc = s.grp.pc ∧
        t.grp.tlpc = BitVec.allOnes 64 ∧ t.grp.skip = true ∧ t.grp.pc = s.grp.trapv ∧ h ∉ t.grp.heldTraps)

/-! ### Special registers -/

/-- R104, R85, R98, R83, R80, R172: what `s.mfs` reads, register by register: the named group fields, the masks (`m0` has
the present lanes whose nesting counter is zero), HELD and SPILLED of `%rsp`, HIGH and LIMIT of `%nestmax`, the fields of
`%cause`, and the context's registers. -/
def Sys2Proof.Claims.SpecialRegisterValues : Prop :=
  ∀ (g : Group) (x : Ctx),
    let v := specialValue g x
    (v 0x00 = 0 ∧ v 0x01 = BitVec.ofNat 64 g.index ∧ v 0x02 = BitVec.ofNat 64 g.teamNo ∧
      v 0x03 = BitVec.ofNat 64 g.width ∧ v 0x04 = BitVec.ofNat 64 g.tile) ∧
    (v 0x09 = g.fmask ∧ v 0x0B = g.tspc ∧ v 0x0C = g.tlpc ∧ v 0x0D = g.trapv ∧ v 0x0E = g.emuv) ∧
    ((v 0x0A).extractLsb' 0 8 = g.code ∧ (v 0x0A).extractLsb' 8 3 = g.nevc ∧ (v 0x0A).extractLsb' 11 3 = g.path ∧
      bit (v 0x0A) 14 = g.nores ∧ bit (v 0x0A) 15 = g.skip ∧ (v 0x0A).toNat < 2 ^ 16) ∧
    ((v 0x0F).extractLsb' 0 8 = g.nestLimit ∧ (v 0x0F).extractLsb' 8 8 = g.nestHigh ∧ (v 0x0F).toNat < 2 ^ 16) ∧
    (v 0x10 = g.e0 ∧ v 0x11 = g.e1 ∧ v 0x12 = g.e2 ∧ v 0x13 = g.e3) ∧
    (g.stack.length ≤ 16 → g.spilled ≤ 512 →
      ((v 0x14).extractLsb' 16 5).toNat = g.stack.length ∧ ((v 0x14).extractLsb' 0 10).toNat = g.spilled) ∧
    ((v 0x15).extractLsb' 0 16 = x.depIds ∧ (v 0x15).extractLsb' 32 32 = x.depCount) ∧
    (v 0x16 = x.nevflag.zeroExtend 64 ∧ v 0x17 = g.dzmask ∧ v 0x18 = g.domask) ∧
    (∀ c, c ≤ 6 → v (0x20 + c) = x.nev.getD c 0) ∧
    (∀ l, l < 64 → bit (v 0x30) l = (decide (l < g.width) && bit g.present l && decide (g.nest.getD l 0 = 0))) ∧
    (∀ k, 1 ≤ k → k ≤ 7 → v (0x30 + k) = g.m.getD k 0) ∧
    (∀ k, k ≤ 3 → v (0x38 + k) = (g.x.getD k 0).zeroExtend 64)

/-- R104, R105: `s.mfs` writes the register's value to `s`d and changes nothing else; a move that waits for the lanes does
so first. -/
def Sys2Proof.Claims.SpecialReads : Prop :=
  ∀ (s : State) (d : SReg) (n : BitVec 6),
    ((specialWaits false n.toNat = false ∨ s.grp.queue = []) → exec (.sMfs d n) s =
      .next { s with grp := s.grp.result d (specialValue s.grp (s.dev.ctx s.grp.ctx) n.toNat) }) ∧
    (specialWaits false n.toNat = true → s.grp.queue ≠ [] → exec (.sMfs d n) s = .next s.waits)

/-- R104, R105, R84, R98, R33, R80, R78, R63, R64, R83: what `s.mts` does to each register: writable ones take their fields
(bits at or above W of a mask and the low bits of the handler addresses are dropped), read-only ones ignore the write, a
reserved tile or an `%rsp` that raises HELD or puts SPILLED above 512 traps with ILLEGAL and keeps its value. -/
def Sys2Proof.Claims.SpecialWrites : Prop :=
  ∀ (s : State) (n : BitVec 6) (a : SReg),
    let v := s.grp.rs a.toNat
    let g := s.grp
    let next (g' : Group) : Prop := exec (.sMts n a) s = .next { s with grp := { g' with pc := g.pc + 4 } }
    let nextCtx (x : Ctx) : Prop :=
      exec (.sMts n a) s = .next { s with grp := { g with pc := g.pc + 4 }, dev := s.dev.setCtx g.ctx x }
    let x := s.dev.ctx g.ctx
    (specialWaits true n.toNat = true → g.queue ≠ [] → exec (.sMts n a) s = .next s.waits) ∧
    (g.illegalWrite n.toNat v = true → trapsNow g → exec (.sMts n a) s = .next { s with grp := g.scalarTrapped 1 }) ∧
    ((specialWaits true n.toNat = false ∨ g.queue = []) → g.illegalWrite n.toNat v = false →
      (n = 0x04 → next { g with tile := (v.extractLsb' 0 3).toNat }) ∧
      (n = 0x09 → next { g with fmask := v &&& maskBelow g.width }) ∧
      (n = 0x0A → next { g with skip := bit v 15 }) ∧
      (n = 0x0B → next { g with tspc := v &&& ~~~(3 : Word) }) ∧
      (n = 0x0C → next { g with tlpc := v }) ∧
      (n = 0x0D → next { g with trapv := v &&& ~~~(3 : Word) }) ∧
      (n = 0x0E → next { g with emuv := v &&& ~~~(3 : Word) }) ∧
      (n = 0x0F → next { g with nestLimit := v.extractLsb' 0 8, nestHigh := 0 }) ∧
      (n = 0x14 → next { g with
        spilled := (v.extractLsb' 0 10).toNat
        stack := g.stack.drop (g.stack.length - (v.extractLsb' 16 5).toNat) }) ∧
      (n = 0x17 → next { g with dzmask := v }) ∧
      (n = 0x18 → next { g with domask := v }) ∧
      (∀ k, 1 ≤ k → k ≤ 7 → n.toNat = 0x30 + k → next { g with
        m := g.m.set k (v &&& maskBelow g.width) 0, badScalar := g.badScalar.erase (128 + k) }) ∧
      (∀ k, k ≤ 3 → n.toNat = 0x38 + k → next { g with x := g.x.set k (v.extractLsb' 0 8) 0 }) ∧
      (n.toNat ≤ 3 ∨ (0x10 ≤ n.toNat ∧ n.toNat ≤ 0x13) → next g) ∧
      (n = 0x08 → ∃ y, nextCtx y ∧
        y.endact = (if v.extractLsb' 32 2 = 3 then x.endact else v.extractLsb' 32 2) ∧
        (y.warn, y.wcode) = (if bit v 11 then (x.warn, x.wcode) else (false, 0)) ∧
        (y.psn, y.psrc, y.pcount) = (if bit v 0 then (x.psn, x.psrc, x.pcount) else (false, 7, 0))) ∧
      (n = 0x15 → nextCtx { x with depIds := 0, depCount := 0 }) ∧
      (n = 0x16 → nextCtx { x with nevflag := x.nevflag &&& v.extractLsb' 0 7 }) ∧
      (∀ c, c ≤ 6 → n.toNat = 0x20 + c → ∃ y, nextCtx y ∧ (y.nev.getD c 0).extractLsb' 0 32 = 0 ∧
        (y.nev.getD c 0).extractLsb' 32 32 = (x.nev.getD c 0).extractLsb' 32 32 ∧
        ∀ b, b ≠ c → y.nev.getD b 0 = x.nev.getD b 0))

/-- R184: `chk.err` reads `%cki` and leaves it; `chk.err.t` does the same where PSN is clear and traps with POISON where it
is set; `chk.clr` clears PSN, PCOUNT, WARN and WCODE and sets PSRC to 7. Each first waits for the lanes. -/
def Sys2Proof.Claims.CheckWords : Prop :=
  ∀ (s : State) (d : SReg),
    let x := s.dev.ctx s.grp.ctx
    (s.grp.queue = [] →
      exec (.chkErr d) s = .next { s with grp := s.grp.result d x.cki } ∧
      (x.psn = false → exec (.chkErrT d) s = .next { s with grp := s.grp.result d x.cki }) ∧
      exec .chkClr s = .next { s with
        grp := { s.grp with pc := s.grp.pc + 4 }
        dev := s.dev.setCtx s.grp.ctx { x with psn := false, pcount := 0, warn := false, wcode := 0, psrc := 7 } }) ∧
    (trapsNow s.grp → x.psn = true → exec (.chkErrT d) s = .next { s with grp := s.grp.scalarTrapped 10 }) ∧
    (s.grp.queue ≠ [] → exec (.chkErr d) s = .next s.waits ∧ exec (.chkErrT d) s = .next s.waits ∧ exec .chkClr s = .next s.waits)

/-! ### Traps and emulation -/

/-- R172, R174, R175, R178: taking a trap in a group that is in no handler and has one: the trap registers are written (in an
emulation handler the cause is EMUNEST and NORES is set), the chain and its latches go, the held lane words are kept in the
trap frame, the lane queue is empty, the scalar thread continues at `%trapv`; nothing of the device changes. -/
def Sys2Proof.Claims.TakingATrap : Prop :=
  ∀ (m : Mach) (t : TrapInfo), m.g.inHandler = false → m.g.trapv ≠ 0 →
    takeTrap m t = { m with g := m.g.trapped t.code t.nevc t.path t.tspc t.tlpc t.fmask t.skip t.frame }

/-- R175, R177, R316: a trap in a group that is in its handler, or has none, removes the context: the group is gone, and so
is every other group of the context. A copy of a dual pair waits with such a trap, its registers written, until the other copy has
trapped too (R321). -/
def Sys2Proof.Claims.TrapInHandlerRemovesContext : Prop :=
  ∀ (m : Mach) (t : TrapInfo), m.g.live = true → (m.d.ctx m.g.ctx).live = true → (m.g.inHandler = true ∨ m.g.trapv = 0) →
    (m.g.dual = false → (takeTrap m t).g.live = false ∧ ((takeTrap m t).d.ctx m.g.ctx).live = false ∧
      ∀ e ∈ (takeTrap m t).d.groups, e.2.ctx ≠ m.g.ctx) ∧
    (m.g.dual = true → (takeTrap m t).d = m.d ∧ (takeTrap m t).g.live = true ∧ (takeTrap m t).g.dualSt.waiting = true ∧
      (takeTrap m t).g.dualSt.fatal = true ∧ (takeTrap m t).g.tspc = t.tspc ∧ (takeTrap m t).g.tlpc = t.tlpc ∧
      (takeTrap m t).g.pc = m.g.pc ∧ (takeTrap m t).g.s = m.g.s)

/-- R175 (TRAP_ENTRY), R27, R170: a trap of the scalar word on turn is that entry, with `%tspc` naming the word, once the
lane words queued before it have completed; until then it waits. -/
def Sys2Proof.Claims.TrapEntry : Prop :=
  ∀ (s : State) (code : BitVec 8), trapCodes.contains code.toNat = true →
    (trapsNow s.grp → exec (.trapEntry code) s = .next { s with grp := s.grp.scalarTrapped code.toNat }) ∧
    (s.grp.queue ≠ [] → exec (.trapEntry code) s = .next s.waits)

/-- R176: `sys.tret` completes: inside a trap frame without NORES, once the handler's own lane words have, its group resumes: at
`%tspc` (plus 4 with SKIP) when no lane word was held, else at `%tspc` with the held lane words at `%tlpc` (plus 1 with SKIP), a
finished block having left the queue; the handler state ends and no other register changes. Outside a trap frame, or with NORES,
it traps with ILLEGAL. -/
def Sys2Proof.Claims.TrapReturn : Prop :=
  ∀ (s : State), s.grp.queue = [] →
    (∀ f, s.grp.trapFrame = some f → s.grp.nores = false → s.grp.tlpc = BitVec.allOnes 64 →
      s.grp.goodTarget (s.grp.tspc + if s.grp.skip then 4 else 0) = true →
      exec .sysTret s = .next { s with grp := { s.grp with
        pc := s.grp.tspc + (if s.grp.skip then 4 else 0), trapFrame := none, inHandler := false, lpos := 0 } }) ∧
    (∀ f b bs, s.grp.trapFrame = some f → s.grp.nores = false → f.blocks = b :: bs → s.grp.tlpc ≠ BitVec.allOnes 64 →
      b.start ≤ s.grp.tlpc.toNat + (if s.grp.skip then 1 else 0) →
      s.grp.tlpc.toNat + (if s.grp.skip then 1 else 0) < b.start + b.count → s.grp.goodTarget s.grp.tspc = true →
      exec .sysTret s = .next { s with grp := { s.grp with
        pc := s.grp.tspc, trapFrame := none, inHandler := false, queue := f.blocks
        lpos := s.grp.tlpc.toNat + (if s.grp.skip then 1 else 0) } }) ∧
    (∀ f b bs, s.grp.trapFrame = some f → s.grp.nores = false → f.blocks = b :: bs → s.grp.tlpc ≠ BitVec.allOnes 64 →
      s.grp.tlpc.toNat + (if s.grp.skip then 1 else 0) = b.start + b.count → s.grp.goodTarget s.grp.tspc = true →
      exec .sysTret s = .next { s with grp := { s.grp with
        pc := s.grp.tspc, trapFrame := none, inHandler := false, queue := bs, lpos := (bs.head?.map fun x => x.start).getD 0
        heldWords := s.grp.heldWords.map fun h => { h with blocks := h.blocks - 1 } } }) ∧
    ((s.grp.trapFrame = none ∨ s.grp.nores = true) → trapsNow s.grp →
      exec .sysTret s = .next { s with grp := s.grp.scalarTrapped 1 })

/-- R174, R176 together: a trap taken by a lane word and returned from without SKIP brings back the lane queue, the lane
position and the scalar position as they stood, and every register but the trap registers, the chain excepted. -/
def Sys2Proof.Claims.TrapAndReturnRestore : Prop :=
  ∀ (s : State) (code : Nat) (b : Block) (bs : List Block), s.grp.inHandler = false → s.grp.trapv ≠ 0 →
    s.grp.emuFrame = none → s.grp.queue = b :: bs → b.start ≤ s.grp.lpos → s.grp.lpos < b.start + b.count →
    s.grp.lpos < 2 ^ 64 - 1 → s.grp.goodTarget s.grp.pc = true →
    ∃ t, exec .sysTret (s.put (laneTrap { s.mach with g := { s.grp with chain := none } } code 0)) = .next t ∧
      t.grp.queue = s.grp.queue ∧ t.grp.lpos = s.grp.lpos ∧ t.grp.pc = s.grp.pc ∧ t.grp.inHandler = false ∧
      t.grp.s = s.grp.s ∧ t.grp.c = s.grp.c ∧ t.grp.m = s.grp.m ∧ t.grp.lanes = s.grp.lanes ∧ t.dev = s.dev

/-- R32, R33, R34, R36, R37: `s.emu` enters the emulation handler, with the word in `%e0`, KIND 8 in `%e1`, its fields, one by one, in
`%e2` and `m0` in `%e3`; the scalar thread continues at `%emuv`. It waits for the lanes; without a handler it traps with ILLEGAL,
inside one with EMUNEST. -/
def Sys2Proof.Claims.EmulationCall : Prop :=
  ∀ (s : State) (code : BitVec 26),
    (s.grp.queue ≠ [] → exec (.sEmu code) s = .next s.waits) ∧
    (s.grp.queue = [] → s.grp.emuFrame = none → s.grp.emuv ≠ 0 → s.grp.goodTarget s.grp.emuv = true →
      ∃ g, exec (.sEmu code) s = .next { s with grp := g } ∧ g.e0.toNat = 0x3E * 2 ^ 26 + code.toNat ∧
        g.e1.toNat = 8 * 2 ^ 32 ∧ e2OfScalar g.e2 (BitVec.ofNat 32 (0x3E * 2 ^ 26 + code.toNat)) ∧ g.e3 = s.grp.m0 ∧
        g.pc = s.grp.emuv ∧ g.tspc = s.grp.pc ∧ g.tlpc = BitVec.allOnes 64 ∧ g.emuFrame = some ⟨0, []⟩ ∧
        keptByEmulation s.grp g) ∧
    (trapsNow s.grp → s.grp.emuFrame = none → s.grp.emuv = 0 → exec (.sEmu code) s = .next { s with grp := s.grp.scalarTrapped 1 }) ∧
    (trapsNow s.grp → s.grp.emuFrame.isSome = true → exec (.sEmu code) s = .next { s with grp := s.grp.scalarTrapped 2 })

/-- R35, R36, R39: `sys.emuret` goes on after the emulated word: at `%tspc` + 4 for a scalar word, which left no lane words held; for
a lane word at lane word `%tlpc` + 1, with the scalar thread at `%tspc`, both registers as the handler leaves them; where that is the
end of the block in the frame, the block is over and the next one follows, so that the scalar accesses held behind it wait for one block less.
Outside the handler it traps with ILLEGAL. That the frame tells which word was emulated is the model's choice
(notes/assumptions/57). -/
def Sys2Proof.Claims.EmulationReturn : Prop :=
  ∀ (s : State), s.grp.queue = [] →
    (∀ f, s.grp.emuFrame = some f → f.blocks = [] →
      exec .sysEmuret s = .next { s with grp := { s.grp with emuFrame := none, pc := s.grp.tspc + 4 } }) ∧
    (∀ f b bs, s.grp.emuFrame = some f → f.blocks = b :: bs → (s.grp.tlpc + 1).toNat < b.start + b.count →
      exec .sysEmuret s = .next { s with grp := { s.grp with
        emuFrame := none, pc := s.grp.tspc, queue := f.blocks, lpos := (s.grp.tlpc + 1).toNat } }) ∧
    (∀ f b bs, s.grp.emuFrame = some f → f.blocks = b :: bs → (s.grp.tlpc + 1).toNat = b.start + b.count →
      exec .sysEmuret s = .next { s with grp := { s.grp with
        emuFrame := none, pc := s.grp.tspc, queue := bs, lpos := (bs.head?.map fun x => x.start).getD 0
        heldWords := s.grp.heldWords.map fun h => { h with blocks := h.blocks - 1 } } }) ∧
    (s.grp.emuFrame = none → trapsNow s.grp → exec .sysEmuret s = .next { s with grp := s.grp.scalarTrapped 1 })

/-- R28, R29, R32, R34, R38: a reserved encoding of either stream (EMULATION_ENTRY), and `v.emu`, enter the handler: a
scalar word as `s.emu` does, with its KIND; a lane word with bits 63 to 0 in `%e0`, bits 95 to 64, the KIND, the LANE bit and the slot
in `%e1`, its fields, or those of the reported slot, in `%e2`, the lanes it would have run on in `%e3` (of a pair word `m0`), its queue
held in the frame. Nothing else of the group changes, and nothing of the device. -/
def Sys2Proof.Claims.EmulationEntries : Prop :=
  ∀ (s : State), s.grp.emuFrame = none → s.grp.emuv ≠ 0 → s.grp.goodTarget s.grp.emuv = true →
    (∀ (r : Reserved) (w : BitVec 96), kindOf r ≤ 3 ∨ kindOf r = 8 → s.grp.queue = [] →
      ∃ g, exec (.emulationEntry r w) s = .next { s with grp := g } ∧ g.e0 = (w.extractLsb' 0 32).zeroExtend 64 ∧
        g.e1.toNat = kindOf r * 2 ^ 32 ∧ e2OfScalar g.e2 (w.extractLsb' 0 32) ∧ g.e3 = s.grp.m0 ∧ g.pc = s.grp.emuv ∧ g.tspc = s.grp.pc ∧
        g.tlpc = BitVec.allOnes 64 ∧ g.emuFrame = some ⟨0, []⟩ ∧ keptByEmulation s.grp g) ∧
    (∀ (i : Instr) (k : Nat) (y : Bool) (w : BitVec 96),
      ((∃ r, i = .emulationEntry r w ∧ kindOf r = k ∧ slotYOf r = y ∧ 4 ≤ k ∧ k ≠ 8) ∨
        (∃ n x, i = .vEmu n x ∧ k = 9 ∧ y = false ∧ w = wideWord (15#4 ++ n) x)) →
      lanesPending s.mach = false → s.grp.chain = none →
      ∃ g, exec i s = .next { s with grp := g } ∧ g.e0 = w.extractLsb' 0 64 ∧
        g.e1.extractLsb' 0 32 = w.extractLsb' 64 32 ∧ (g.e1.extractLsb' 32 4).toNat = k ∧ bit g.e1 36 = true ∧
        bit g.e1 37 = y ∧ g.e1.toNat < 2 ^ 38 ∧ e2OfLane g.e2 w y ∧
        g.e3 = (if bit w 95 then s.grp.m0 else runMask s.grp s.grp.view (w.toNat / 2 ^ 81 % 8)) ∧ g.pc = s.grp.emuv ∧ g.tspc = s.grp.pc ∧
        g.tlpc = BitVec.ofNat 64 s.grp.lpos ∧ g.emuFrame = some ⟨s.grp.lpos, s.grp.queue⟩ ∧ keptByEmulation s.grp g)

/-! ### Scalar memory words -/

/-- R101, R153, R92: a scalar memory word, `c.ld` or `c.st` whose check fails traps with the cause, once the lanes are idle, and
has no other effect: registers, memory and every other part of the device stay. -/
def Sys2Proof.Claims.FailedAccessTraps : Prop :=
  ∀ (i : Instr) (s : State) (c : CReg) (o : BitVec 16) (need : Need) (n cause : Nat), accessForm i = some (c, o, need, n) →
    capCheck s.regs s.dev (s.grp.rc c.toNat) (s.mach.party false) need (smAddr (s.grp.rc c.toNat) o n) n = .fail cause →
    (trapsNow s.grp → exec i s = .next { s with grp := s.grp.scalarTrapped cause }) ∧
    (s.grp.queue ≠ [] → exec i s = .next s.waits)

/-- R153: the order of the checks of a scalar access: each check is judged only when every earlier one passes, and an access
that passes all eight of the capability's is judged by the firewall (SCRATCH is not). That bit 49 of the address tells a private SCRATCH
access, which a scalar word cannot make, is the model's choice (notes/assumptions/56). -/
def Sys2Proof.Claims.CheckOrder : Prop :=
  ∀ (R : CtlRegs) (d : Dev) (c : Cap) (p : Party) (need : Need) (a n : Nat), need.orMxo = false → need.aligned = true →
    p.lane = false → n ≠ 0 → a < 2 ^ 50 →
    let r := capCheck R d c p need a n
    let upper := decide (2 ^ 49 ≤ a)
    (c.tag = false → r = .fail 16) ∧
    (c.tag = true → c.malformed = true → r = .fail 17) ∧
    (c.tag = true → c.malformed = false → c.kind = 5 → r = .fail 18) ∧
    (c.tag = true → c.malformed = false → c.kind ≠ 5 →
      (c.kind ∉ need.kinds ∨ (c.kind = 2 ∧ upper = true) → r = .fail 19) ∧
      (c.kind ∈ need.kinds → ¬ (c.kind = 2 ∧ upper = true) →
        (c.colour ≠ p.colour → r = .fail 20) ∧
        (c.colour = p.colour →
          (c.perms &&& need.perms ≠ need.perms → r = .fail 21) ∧
          (c.kind ≠ 2 → 2 ^ 48 ≤ a → c.perms &&& 512 = 0 → r = .fail 21) ∧
          (c.kind ≠ 2 → 2 ^ 47 ≤ a → a < 2 ^ 48 → c.perms &&& 2048 = 0 → r = .fail 21) ∧
          (c.perms &&& need.perms = need.perms →
            (c.kind = 2 ∨ a < 2 ^ 47 ∨ (2 ^ 48 ≤ a ∧ c.perms &&& 512 ≠ 0) ∨ (2 ^ 47 ≤ a ∧ a < 2 ^ 48 ∧ c.perms &&& 2048 ≠ 0)) →
            ((a : Int) < c.base ∨ c.top < ((a + n : Nat) : Int) ∨ (c.kind = 2 ∧ p.scratch < a + n) → r = .fail 22) ∧
            (c.base ≤ (a : Int) → ((a + n : Nat) : Int) ≤ c.top → (c.kind = 2 → a + n ≤ p.scratch) →
              (a % n ≠ 0 → r = .fail 4) ∧
              (a % n = 0 → c.kind = 2 → r = .ok) ∧
              (a % n = 0 → c.kind ≠ 2 → firewall R d p need.write a n = .refuse → r = .fail 24) ∧
              (a % n = 0 → c.kind ≠ 2 → firewall R d p need.write a n = .pass → r = .ok))))))

/-- R101, R92: a scalar load whose checks pass, of a place that answers at once and holds no poison, writes the n bytes that it
reads, lowest first, zero- or sign-extended, and moves on; memory, the other registers and every flag are as before, and an access that
reaches the ports' range at the device's own index has counted on `fx` (R361). -/
def Sys2Proof.Claims.ScalarLoads : Prop :=
  ∀ (i : Instr) (s : State) (sg : Bool) (n : Nat) (d : SReg) (c : CReg) (o : BitVec 16), loadForm i = some (sg, n, d, c, o) →
    let cap := s.grp.rc c.toNat
    let a := smAddr cap o n
    let place := placeOf s.dev cap a
    let got := (groupLoad s.regs s.mach place 0 n).2
    capCheck s.regs s.dev cap (s.mach.party false) needLoad a n = .ok →
    ((∃ x, place = .scratch x) ∨ ∃ x, place = .local_ x) → got.1.poison = false → got.2 = false →
    fxRoom (fabricHere s.dev cap a) s.grp →
    ∃ t, exec i s = .next t ∧
      (∀ k, t.grp.rs k = if k = d.toNat ∧ k ≠ 0 then
          (if sg then (BitVec.ofNat (8 * got.1.bytes.length) (leNat got.1.bytes)).signExtend 64 else BitVec.ofNat 64 (leNat got.1.bytes))
        else s.grp.rs k) ∧
      t.grp.c = s.grp.c ∧ t.grp.pc = s.grp.pc + 4 ∧ keptByLoad s.grp t.grp ∧ fxCounted (fabricHere s.dev cap a) s.grp t.grp ∧
      memoryKept s.dev t.dev ∧ t.regs = s.regs ∧ t.agenda = s.agenda ∧ t.stalled = s.stalled

/-- R101, R181: a scalar load of poisoned bytes writes zero and records the consumption in `%cki` with PSRC 1; in a `prc` group
it traps with POISON and writes nothing. -/
def Sys2Proof.Claims.PoisonedScalarLoads : Prop :=
  ∀ (i : Instr) (s : State) (sg : Bool) (n : Nat) (d : SReg) (c : CReg) (o : BitVec 16), loadForm i = some (sg, n, d, c, o) →
    let cap := s.grp.rc c.toNat
    let a := smAddr cap o n
    let place := placeOf s.dev cap a
    let got := (groupLoad s.regs s.mach place 0 n).2
    capCheck s.regs s.dev cap (s.mach.party false) needLoad a n = .ok →
    ((∃ x, place = .scratch x) ∨ ∃ x, place = .local_ x) → got.1.poison = true → got.2 = false →
    fxRoom (fabricHere s.dev cap a) s.grp →
    (s.grp.prc = false → ∃ t, exec i s = .next t ∧ t.grp.rs d.toNat = 0 ∧ (t.dev.ctx s.grp.ctx).psn = true ∧
      ((s.dev.ctx s.grp.ctx).psn = false → (t.dev.ctx s.grp.ctx).psrc = 1) ∧ t.grp.pc = s.grp.pc + 4 ∧
      memoryKept s.dev t.dev) ∧
    (s.grp.prc = true → trapsNow s.grp → ∃ t, exec i s = .next t ∧ t.grp = s.grp.scalarTrapped 10 ∧ memoryKept s.dev t.dev ∧
      (t.dev.ctx s.grp.ctx).psn = (s.dev.ctx s.grp.ctx).psn)

/-- What a load reads (R263, R151): a scratchpad's bytes; of memory homed on the group's die, the newest bytes where the
core holds no shared or pushed copy of the line, and the copy's bytes while its lease covers the core's logical time; of
memory homed elsewhere the newest bytes (R331). The line holds no storage error that the load would meet (R335). -/
def Sys2Proof.Claims.WhatALoadReads : Prop :=
  ∀ (R : CtlRegs) (m : Mach) (a n : Nat), m.g.dual = false → m.d.errors.find? (a / 128) = none →
    ((groupLoad R m (.scratch a) 0 n).2.1.bytes = (m.d.team m.g.team).scratch.read a n) ∧
    (homeDie a = some m.g.die → (m.d.core (coreKey m.g.die m.g.core)).pushes.find? (a / 128) = none →
      let c := m.d.core (coreKey m.g.die m.g.core)
      (c.copies.find? (a / 128) = none → (groupLoad R m (.local_ a) 0 n).2.1 = m.d.mem.fetch a n) ∧
      (∀ e, c.copies.find? (a / 128) = some e → (e.excl = true ∨ e.rts < c.pts) →
        (groupLoad R m (.local_ a) 0 n).2.1 = m.d.mem.fetch a n) ∧
      (∀ e, c.copies.find? (a / 128) = some e → e.excl = false → c.pts ≤ e.rts →
        (groupLoad R m (.local_ a) 0 n).2.1 = e.data.fetch a n)) ∧
    (∀ h, homeDie a = some h → h ≠ m.g.die → (groupLoad R m (.local_ a) 0 n).2.1 = m.d.mem.fetch a n)

/-- R101, R149, R180, R283: a scalar store whose checks pass, to memory that no sync object shares the block of, writes the n
low bytes of `s`D at the address, clears the tag of the granule and moves on: every other byte, every other tag, every
scratchpad, register and flag is as before. -/
def Sys2Proof.Claims.ScalarStoresToMemory : Prop :=
  ∀ (i : Instr) (s : State) (n : Nat) (d : SReg) (c : CReg) (o : BitVec 16) (x : Nat), storeForm i = some (n, d, c, o) →
    let cap := s.grp.rc c.toNat
    let a := smAddr cap o n
    capCheck s.regs s.dev cap (s.mach.party false) needStore a n = .ok → placeOf s.dev cap a = .local_ x →
    s.grp.dual = false → hostHoldsNothing s → s.dev.syncs.getD (x / 64) false = false → fxRoom (fabricHere s.dev cap a) s.grp →
    ∃ t, exec i s = .next t ∧ fxCounted (fabricHere s.dev cap a) s.grp t.grp ∧
      (∀ b, t.memByte b = if x ≤ b ∧ b < x + n then BitVec.ofNat 8 ((s.grp.rs d.toNat).toNat / 256 ^ (b - x)) else s.memByte b) ∧
      (∀ g, t.dev.mem.tag g = if g = x / 16 then false else s.dev.mem.tag g) ∧
      (∀ k, s.dev.mem.poisoned k = true → t.dev.mem.poisoned k = true) ∧
      (soundLine s x → ∀ k, t.dev.mem.poisoned k = s.dev.mem.poisoned k) ∧
      t.dev.teams = s.dev.teams ∧ t.grp.priv = s.grp.priv ∧ t.grp.pc = s.grp.pc + 4 ∧ keptByStore s.grp t.grp ∧
      t.regs = s.regs ∧ t.agenda = s.agenda ∧ t.stalled = s.stalled

/-- R101, R151: a scalar store to a scratchpad, where it meets no sector that a save found uncorrectable (R207), writes the n low
bytes of `s`D there; memory, other scratchpads, registers and flags are as before. -/
def Sys2Proof.Claims.ScalarStoresToScratch : Prop :=
  ∀ (i : Instr) (s : State) (n : Nat) (d : SReg) (c : CReg) (o : BitVec 16) (x : Nat), storeForm i = some (n, d, c, o) →
    let cap := s.grp.rc c.toNat
    let a := smAddr cap o n
    capCheck s.regs s.dev cap (s.mach.party false) needStore a n = .ok → placeOf s.dev cap a = .scratch x →
    (s.dev.team s.grp.team).metScratch x n = false → s.grp.dual = false → ∃ t, exec i s = .next t ∧
      (∀ b, t.scratchByte s.grp.team b =
        if x ≤ b ∧ b < x + n then BitVec.ofNat 8 ((s.grp.rs d.toNat).toNat / 256 ^ (b - x)) else s.scratchByte s.grp.team b) ∧
      (∀ g, (t.dev.team s.grp.team).scratch.tag g = if g = x / 16 then false else (s.dev.team s.grp.team).scratch.tag g) ∧
      (∀ k, k ≠ s.grp.team → t.dev.team k = s.dev.team k) ∧
      t.dev.mem = s.dev.mem ∧ t.grp.pc = s.grp.pc + 4 ∧ keptByStore s.grp t.grp ∧ fxCounted false s.grp t.grp ∧ t.regs = s.regs

/-- R162, R149: `c.ld` of a place that answers at once loads 16 bytes, tagged only where the granule is and the capability
has LDC, through the sweep filter (R277); `c.st` to memory stores the 16 bytes of `c`D with its tag through the filter, and
every other byte and tag is as before. -/
def Sys2Proof.Claims.CapabilityLoadsAndStores : Prop :=
  ∀ (s : State) (d c : CReg) (o : BitVec 16),
    let cap := s.grp.rc c.toNat
    let a := smAddr cap o 16
    let got := (groupLoad s.regs s.mach (placeOf s.dev cap a) 0 16).2
    let here := fabricHere s.dev cap a
    fxRoom here s.grp →
    (capCheck s.regs s.dev cap (s.mach.party false) needLoad a 16 = .ok →
      ((∃ x, placeOf s.dev cap a = .scratch x) ∨ ∃ x, placeOf s.dev cap a = .local_ x) → got.1.poison = false →
      got.2 = false → ∃ t, exec (.cLd d c o) s = .next t ∧
        (t.grp.rc d.toNat).bits = BitVec.ofNat 128 (leNat got.1.bytes) ∧
        ((t.grp.rc d.toNat).tag = true → got.1.tag = true ∧ cap.perms &&& 4 = 4) ∧
        ((s.dev.parts.getD s.grp.part {}).filter = [] → (t.grp.rc d.toNat).tag = (got.1.tag && cap.perms &&& 4 == 4)) ∧
        (∀ k, k ≠ d.toNat → t.grp.rc k = s.grp.rc k) ∧ t.grp.s = s.grp.s ∧ t.grp.pc = s.grp.pc + 4 ∧
        fxCounted here s.grp t.grp ∧ keptByLoad s.grp t.grp ∧ memoryKept s.dev t.dev) ∧
    (∀ x, capCheck s.regs s.dev cap (s.mach.party false) needCapStore a 16 = .ok → placeOf s.dev cap a = .local_ x →
      s.grp.dual = false → hostHoldsNothing s → s.dev.syncs.getD (x / 64) false = false →
      ∃ t, exec (.cSt d c o) s = .next t ∧
        (∀ b, t.memByte b = if x ≤ b ∧ b < x + 16 then BitVec.ofNat 8 ((s.grp.rc d.toNat).bits.toNat / 256 ^ (b - x))
          else s.memByte b) ∧
        (∀ g, t.dev.mem.tag g = if g = x / 16 then (sweepFilter s.dev s.grp.part (s.grp.rc d.toNat)).tag
          else s.dev.mem.tag g) ∧
        t.dev.teams = s.dev.teams ∧ t.grp.pc = s.grp.pc + 4 ∧ fxCounted here s.grp t.grp ∧ keptByStore s.grp t.grp)

/-- R330, R317, R290: a store of 8 bytes to the register space writes the register, and the value follows each register's own rule; in a
group that replays a recording its routes of that ordinal depart besides. A group of a dual team holds the store. -/
def Sys2Proof.Claims.StoresToRegisters : Prop :=
  ∀ (s : State) (d : SReg) (c : CReg) (o : BitVec 16),
    let a := smAddr (s.grp.rc c.toNat) o 8
    capCheck s.regs s.dev (s.grp.rc c.toNat) (s.mach.party false) needStore a 8 = .ok →
    placeOf s.dev (s.grp.rc c.toNat) a = .device a → hostHoldsNothing s →
    ∃ t, exec (.sStN64 d c o) s = .next t ∧ t.grp.pc = s.grp.pc + 4 ∧ keptByStore s.grp t.grp ∧ fxCounted false s.grp t.grp ∧
      (s.grp.dual = false → t.regs = regWriteCtl s.regs a (s.grp.rs d.toNat) ∧
        t.dev = judgePlays (regWriteDev s.regs s.dev a (s.grp.rs d.toNat)) s.grp.takeOrdinal true [] ∧
        ((∀ i, s.grp.roles.getD i .idle ≠ .replay) → t.dev = regWriteDev s.regs s.dev a (s.grp.rs d.toNat))) ∧
      (s.grp.dual = true → t.regs = s.regs ∧ t.dev = judgePlays s.dev s.grp.takeOrdinal true [] ∧
        ((∀ i, s.grp.roles.getD i .idle ≠ .replay) → t.dev = s.dev) ∧ .device a (s.grp.rs d.toNat) ∈ t.grp.dualSt.hold)

/-! ### Capability words -/

/-- R156, R159, R145, R161, R142: what the words that never trap write. `c.mov` and `c.cleart` copy; the getters decode base,
top and limit from the fields with exact integers, whatever the tag; `c.rlen` and `c.ralign` round a length up to the
granule of the smallest exponent that fits. A write of `c`D changes that register (and clears a storage error of it) and the
program counter, and nothing else. That `c.getlim` takes the lesser of the exact limit and 2^50 before it is cut to 64 bits, whatever the
tag, is the model's choice (notes/assumptions/56). -/
def Sys2Proof.Claims.CapabilityMovesAndReads : Prop :=
  ∀ (s : State) (d a : CReg) (x y : SReg),
    let c := s.grp.rc a.toNat
    let f (lo w : Nat) : Nat := (c.bits.extractLsb' lo w).toNat
    let g := 2 ^ f 96 6
    let base : Int := ((f 0 50 / g : Nat) - (f 56 20 : Nat) : Int) * (g : Nat)
    let top : Int := ((f 0 50 / g + f 76 20) * g : Nat)
    let put (i : Instr) (v : Word) : Prop := exec i s = .next { s with grp := s.grp.result x v }
    exec (.cMov d a) s = .next { s with grp := s.grp.capResult d c } ∧
    exec (.cCleart d a) s = .next { s with grp := s.grp.capResult d { c with tag := false } } ∧
    (∀ (k : Nat) (v : Cap), ((s.grp.capResult d v).rc k = if k = d.toNat then v else s.grp.rc k) ∧
      (s.grp.capResult d v).pc = s.grp.pc + 4 ∧
      { s.grp.capResult d v with c := s.grp.c, pc := s.grp.pc, badScalar := s.grp.badScalar } = s.grp) ∧
    put (.cGetbase x a) (BitVec.ofInt 64 base) ∧
    put (.cGetlen x a) (BitVec.ofInt 64 (top - base)) ∧
    put (.cGetcur x a) (BitVec.ofNat 64 (f 0 50)) ∧
    put (.cGetp x a) (BitVec.ofNat 64 (f 102 12)) ∧
    put (.cGetk x a) (BitVec.ofNat 64 (f 114 4)) ∧
    put (.cGetcol x a) (BitVec.ofNat 64 (f 118 10)) ∧
    put (.cGett x a) (if c.tag then 1 else 0) ∧
    put (.cGetlim x a) (BitVec.ofInt 64 (min (top + (g : Nat)) (2 ^ 50 : Nat))) ∧
    (∀ e, smallest (outwardFits 0 (min (s.grp.rs y.toNat).toNat (2 ^ 50))) e →
      put (.cRlen x y) (BitVec.ofNat 64 ((min (s.grp.rs y.toNat).toNat (2 ^ 50) + 2 ^ e - 1) / 2 ^ e * 2 ^ e)) ∧
      put (.cRalign x y) (BitVec.ofNat 64 (2 ^ 64 - 2 ^ e)))

/-- R156, R157, R158, R160, R101: how the derivation words trap: an untagged source with CAPTAG (where the word needs a tag), then a
malformed one with CAPFORM, then an envelope with CAPSEAL, before any check of their own; the trap waits for the lanes, and
`c`D keeps its value. -/
def Sys2Proof.Claims.CapabilityDerivationTraps : Prop :=
  ∀ (i : Instr) (s : State) (d a : CReg), derivation i = some (d, a) →
    let c := s.grp.rc a.toNat
    let traps (cause : Nat) : Prop :=
      (trapsNow s.grp → exec i s = .next { s with grp := s.grp.scalarTrapped cause }) ∧
      (s.grp.queue ≠ [] → exec i s = .next s.waits)
    (needsTag i = true → c.tag = false → traps 16) ∧
    (c.tag = true → c.malformed = true → traps 17) ∧
    (c.tag = true → c.malformed = false → c.kind = 5 → traps 18)

/-- R156, R147: `c.addc`, `c.setc` and `c.andp` of an untagged or a well-formed, unsealed source: the cursor moves modulo 2^50
(or is the low 50 bits of s[B]), the bounds stay, the tag is kept only where the new cursor is representable; PERMS are masked. An
untagged source gives an untagged result. -/
def Sys2Proof.Claims.CapabilityCursorAndPermissions : Prop :=
  ∀ (s : State) (d a : CReg) (b : SReg),
    let c := s.grp.rc a.toNat
    let v := s.grp.rs b.toNat
    let moved (i : Instr) (x : Nat) (ok : Bool) : Prop := ∃ r : Cap, exec i s = .next { s with grp := s.grp.capResult d r } ∧
      r.cursor = x ∧ r.e = c.e ∧ r.perms = c.perms ∧ r.kind = c.kind ∧ r.colour = c.colour ∧ r.skind = c.skind ∧
      (r.tag = true ↔ c.tag = true ∧ ok = true ∧ c.base ≤ (x : Int) ∧ (x : Int) < c.limit) ∧
      (r.tag = true → r.base = c.base ∧ r.top = c.top ∧ r.malformed = false)
    (c.tag = false ∨ (c.malformed = false ∧ c.kind ≠ 5)) →
      moved (.cAddc d a b) (((c.cursor : Int) + v.toInt) % (2 ^ 50 : Nat)).toNat true ∧
      moved (.cSetc d a b) (v.toNat % 2 ^ 50) (decide (v.toNat < 2 ^ 50)) ∧
      ∃ r : Cap, exec (.cAndp d a b) s = .next { s with grp := s.grp.capResult d r } ∧ r.tag = c.tag ∧
        r.perms = c.perms &&& v.extractLsb' 0 12 ∧
        r.cursor = c.cursor ∧ r.e = c.e ∧ r.dn = c.dn ∧ r.up = c.up ∧ r.kind = c.kind ∧ r.colour = c.colour ∧ r.skind = c.skind

/-- R157, R148: `c.setb` and `c.setb.out` of a tagged, well-formed, unsealed source: a zero length traps with CAPREPRES, bounds
outside the source's with CAPBOUNDS, exact bounds that no exponent fits with CAPREPRES, outward bounds that widen the source with
CAPBOUNDS; otherwise the result takes the smallest exponent that fits. -/
def Sys2Proof.Claims.CapabilityBounds : Prop :=
  ∀ (s : State) (d a : CReg) (b : SReg),
    let c := s.grp.rc a.toNat
    let lo := c.cursor
    let hi := c.cursor + (s.grp.rs b.toNat).toNat
    let traps (i : Instr) (cause : Nat) : Prop :=
      trapsNow s.grp → exec i s = .next { s with grp := s.grp.scalarTrapped cause }
    let gives (i : Instr) (e up : Nat) : Prop := ∃ r : Cap, exec i s = .next { s with grp := s.grp.capResult d r } ∧
      c.bounded r lo e up
    c.tag = true → c.malformed = false → c.kind ≠ 5 →
      (hi = lo → traps (.cSetb d a b) 23 ∧ traps (.cSetbOut d a b) 23) ∧
      (lo < hi → (lo : Int) < c.base ∨ c.top < (hi : Int) → traps (.cSetb d a b) 22 ∧ traps (.cSetbOut d a b) 22) ∧
      (lo < hi → c.base ≤ (lo : Int) → (hi : Int) ≤ c.top →
        ((∀ e, ¬ exactFits lo hi e) → traps (.cSetb d a b) 23) ∧
        (∀ e, smallest (exactFits lo hi) e → gives (.cSetb d a b) e ((hi - lo) / 2 ^ e)) ∧
        (∀ e, smallest (outwardFits lo hi) e →
          let down := lo / 2 ^ e * 2 ^ e
          let up := (hi + 2 ^ e - 1) / 2 ^ e * 2 ^ e
          ((down : Int) < c.base ∨ c.top < (up : Int) → traps (.cSetbOut d a b) 22) ∧
          (c.base ≤ (down : Int) → (up : Int) ≤ c.top → gives (.cSetbOut d a b) e ((up - down) / 2 ^ e))))

/-- R158, R160: `c.setk`, `c.seal` and `c.open`: the transitions of KIND with their conditions; sealing needs the context's colour,
SEAL, and GIVE for another colour; opening needs two tagged, well-formed sources, an opener that is no envelope, an envelope, both of
the context's colour, and OPEN; each changes KIND, SKIND and COLOUR only. -/
def Sys2Proof.Claims.SealingAndOpening : Prop :=
  ∀ (s : State) (d a a' : CReg) (b : SReg),
    let c := s.grp.rc a.toNat
    let op := s.grp.rc a'.toNat
    let k := (s.grp.rs b.toNat).toNat % 16
    let col := (s.grp.rs b.toNat).toNat % 1024
    let sound (x : Cap) : Prop := x.tag = true ∧ x.malformed = false
    let traps (i : Instr) (cause : Nat) : Prop :=
      trapsNow s.grp → exec i s = .next { s with grp := s.grp.scalarTrapped cause }
    let gives (i : Instr) (kind skind colour : Nat) : Prop :=
      ∃ r : Cap, exec i s = .next { s with grp := s.grp.capResult d r } ∧ r.kind = kind ∧ r.skind = skind ∧ r.colour = colour ∧
        r.tag = true ∧ r.perms = c.perms ∧ r.cursor = c.cursor ∧ r.e = c.e ∧ r.dn = c.dn ∧ r.up = c.up
    (sound c → c.kind ≠ 5 →
      (k = c.kind → exec (.cSetk d a b) s = .next { s with grp := s.grp.capResult d c }) ∧
      (c.kind = 0 → k = 3 ∨ k = 4 ∨ k = 6 →
        (c.base % 64 = 0 ∧ c.top - c.base = 64 → gives (.cSetk d a b) k c.skind c.colour) ∧
        (c.base % 64 ≠ 0 ∨ c.top - c.base ≠ 64 → traps (.cSetk d a b) 22)) ∧
      (k ≠ c.kind → c.kind ≠ 0 ∨ (k ≠ 3 ∧ k ≠ 4 ∧ k ≠ 6) → traps (.cSetk d a b) 19) ∧
      (c.colour ≠ s.grp.colour → traps (.cSeal d a b) 20) ∧
      (c.colour = s.grp.colour → c.perms &&& 64 = 0 → traps (.cSeal d a b) 21) ∧
      (c.colour = s.grp.colour → c.perms &&& 64 ≠ 0 → col ≠ c.colour → c.perms &&& 1024 = 0 → traps (.cSeal d a b) 21) ∧
      (c.colour = s.grp.colour → c.perms &&& 64 ≠ 0 → (col = c.colour ∨ c.perms &&& 1024 ≠ 0) →
        gives (.cSeal d a b) 5 c.kind col)) ∧
    ((c.tag = false ∨ op.tag = false) → traps (.cOpen d a a') 16) ∧
    (c.tag = true → op.tag = true → (c.malformed = true ∨ op.malformed = true) → traps (.cOpen d a a') 17) ∧
    (sound c → sound op → op.kind = 5 → traps (.cOpen d a a') 18) ∧
    (sound c → sound op → op.kind ≠ 5 →
      (c.kind ≠ 5 → traps (.cOpen d a a') 19) ∧
      (c.kind = 5 → (c.colour ≠ s.grp.colour ∨ op.colour ≠ s.grp.colour) → traps (.cOpen d a a') 20) ∧
      (c.kind = 5 → c.colour = s.grp.colour → op.colour = s.grp.colour →
        (op.perms &&& 128 = 0 → traps (.cOpen d a a') 21) ∧
        (op.perms &&& 128 ≠ 0 → gives (.cOpen d a a') c.skind 0 c.colour)))

/-- Derivation narrows and never widens (spec/08, with R147, R156, R157): whatever a copying or a narrowing word leaves in `c`D with its tag
comes from a tagged source with the same colour, at least its permissions and its bounds within the source's; or no capability
register has changed. -/
def Sys2Proof.Claims.DerivationNeverWidens : Prop :=
  ∀ (i : Instr) (s t : State) (d a : CReg),
    (i = .cMov d a ∨ i = .cCleart d a ∨ ∃ b, i = .cSetb d a b ∨ i = .cSetbOut d a b ∨ i = .cAddc d a b ∨ i = .cSetc d a b ∨ i = .cAndp d a b) →
    exec i s = .next t → t.grp.c = s.grp.c ∨
      ((t.grp.rc d.toNat).tag = true → (s.grp.rc a.toNat).tag = true ∧ (t.grp.rc d.toNat).colour = (s.grp.rc a.toNat).colour ∧
        (t.grp.rc d.toNat).perms &&& ~~~(s.grp.rc a.toNat).perms = 0 ∧
        (s.grp.rc a.toNat).base ≤ (t.grp.rc d.toNat).base ∧ (t.grp.rc d.toNat).top ≤ (s.grp.rc a.toNat).top)

/-! ### Sync words -/

/-- R221, R223, R224, R101: a sync word whose checks fail traps with the cause once the lanes are idle (`sy.rel`: once it may perform);
`sy.bind` judges `c`B second, then SYRANGE, then SYFULL. -/
def Sys2Proof.Claims.SyncWordTraps : Prop :=
  ∀ (s : State), trapsNow s.grp → s.grp.park = none → quiet s →
    let traps (i : Instr) (cause : Nat) : Prop := exec i s = .next { s with grp := s.grp.scalarTrapped cause }
    (∀ i a perms write cause, syncForm i = some (a, perms, write) →
      capCheck s.regs s.dev (s.grp.rc a.toNat) (s.mach.party false) (syncNeed perms write) (s.grp.rc a.toNat).base.toNat 8 = .fail cause →
      traps i cause) ∧
    (∀ d (a : CReg) b op ord sc cause,
      let c := s.grp.rc a.toNat
      (c.kind = 3 → capCheck s.regs s.dev c (s.mach.party false) (syncNeed 32 true) c.base.toNat 8 = .fail cause →
        traps (.syRmw d a b op ord sc) cause) ∧
      (c.kind ≠ 3 → capCheck s.regs s.dev c (s.mach.party false) needAtomic c.cursor 8 = .fail cause →
        traps (.syRmw d a b op ord sc) cause)) ∧
    (∀ d a (b : CReg) x, objectAt s a 2 true x →
      let r := s.grp.rc b.toNat
      (r.tag = false → traps (.syBind d a b) 16) ∧
      (r.tag = true → r.malformed = true → traps (.syBind d a b) 17) ∧
      (r.tag = true → r.malformed = false →
        (r.kind = 5 → traps (.syBind d a b) 18) ∧
        (r.kind ≠ 5 → r.kind ≠ 0 → traps (.syBind d a b) 19) ∧
        (r.kind = 0 → r.colour ≠ s.grp.colour → traps (.syBind d a b) 20)) ∧
      (bindCheck s.regs s.mach r = .ok → r.top ≤ r.base ∨ 2 ^ 20 < (r.top.toNat + 127) / 128 - r.base.toNat / 128 →
        traps (.syBind d a b) 34) ∧
      (bindCheck s.regs s.mach r = .ok → r.base < r.top → (r.top.toNat + 127) / 128 - r.base.toNat / 128 ≤ 2 ^ 20 →
        (∀ k, k < 4 → bit (s.dev.mem.word (x + 32 + 8 * k)) 63 = true) → traps (.syBind d a b) 33))

/-- R222, R221, R226, R266, R332: `sy.ld`, `sy.acq` and `sy.mwait` with an unequal VALUE write VALUE to sd; memory stays. An
acquire brings the core's logical time to at least RTS.TIME where DIE and EPOCH are its own, and at `.d` and wider to RMAX. With an
equal VALUE the group parks, the word unissued. A poisoned VALUE reads as zero and is recorded, and traps with POISON in a
`prc` group. The object's line holds no storage error that has not been met (R335). -/
def Sys2Proof.Claims.SyncReads : Prop :=
  ∀ (s : State) (d : SReg) (a : CReg) (b : SReg) (sc : Scope) (x : Nat), objectAt s a 1 false x → s.grp.park = none → soundLine s x →
    let v := s.dev.mem.word x
    let e := s.grp.rs b.toNat
    let st := s.dev.mem.word (x + 8)
    let acquires (t : State) : Prop :=
      (rtsDie st = s.grp.die → rtsEpoch st = (s.dev.die s.grp.die).epoch % 64 → rtsTime st ≤ t.pts) ∧
      (isWide sc = true → s.rmax ≤ t.pts) ∧ s.pts ≤ t.pts
    let reads (i : Instr) (v : Word) (more : State → Prop) : Prop := ∃ t, exec i s = .next t ∧ onlyReg s.grp t.grp d v ∧
      keptByLoad s.grp t.grp ∧ fxCounted (objectFabric s a) s.grp t.grp ∧ t.grp.c = s.grp.c ∧ memoryKept s.dev t.dev ∧ more t
    let traps (i : Instr) : Prop := ∃ t, exec i s = .next t ∧ t.grp = s.grp.scalarTrapped 10 ∧ memoryKept s.dev t.dev ∧
      (t.dev.ctx s.grp.ctx).psn = (s.dev.ctx s.grp.ctx).psn
    (s.dev.mem.anyPoison x 8 = false →
      (reads (.syLd d a) v fun t => s.pts ≤ t.pts) ∧
      reads (.syAcq d a sc) v acquires ∧
      (v ≠ e → reads (.syMwait d a b sc) v acquires) ∧
      (v = e → ∃ t, exec (.syMwait d a b sc) s = .next t ∧ t.grp = { s.grp with park := some ⟨x, e⟩ } ∧ memoryKept s.dev t.dev)) ∧
    (s.dev.mem.anyPoison x 8 = true → s.grp.prc = false →
      (reads (.syLd d a) 0 fun t => (t.dev.ctx s.grp.ctx).psn = true) ∧
      reads (.syAcq d a sc) 0 (fun t => acquires t ∧ (t.dev.ctx s.grp.ctx).psn = true) ∧
      (e ≠ 0 → reads (.syMwait d a b sc) 0 (fun t => acquires t ∧ (t.dev.ctx s.grp.ctx).psn = true))) ∧
    (s.dev.mem.anyPoison x 8 = true → s.grp.prc = true → trapsNow s.grp →
      traps (.syLd d a) ∧ traps (.syAcq d a sc) ∧ traps (.syMwait d a b sc))

/-- R222, R220, R266, R332, R208: `sy.st` writes VALUE and clears STATE; `sy.rel`, once the lanes are idle and the group's pushes and
remote accesses are over, writes VALUE and opens a sequence with the die, the epoch and a time not before the core's, raises
RMAX at `.d` and wider, and its team is no longer eligible for restart; no other byte of memory changes, and both clear the tags
of the granules they write. -/
def Sys2Proof.Claims.SyncStores : Prop :=
  ∀ (s : State) (a : CReg) (b : SReg) (sc : Scope) (x : Nat), objectAt s a 2 true x →
    let v := s.grp.rs b.toNat
    let stores (i : Instr) (more : State → Prop) : Prop := ∃ t, exec i s = .next t ∧ t.dev.mem.word x = v ∧ bytesKept s t x 16 ∧
      (∀ g, t.dev.mem.tag g = if g = x / 16 ∨ g = (x + 8) / 16 then false else s.dev.mem.tag g) ∧ t.grp.s = s.grp.s ∧
      t.grp.pc = s.grp.pc + 4 ∧ keptBySync s.grp t.grp ∧ fxCounted (objectFabric s a) s.grp t.grp ∧ more t
    stores (.sySt a b) (fun t => t.dev.mem.word (x + 8) = 0 ∧ t.dev.teams = s.dev.teams) ∧
    (s.grp.queue = [] → quiet s → stores (.syRel a b sc) fun t =>
      (∃ time, s.pts ≤ time ∧ t.dev.mem.word (x + 8) = stateOf s.grp.die (s.dev.die s.grp.die).epoch time ∧
        (isWide sc = true → time ≤ t.rmax)) ∧ (t.dev.team s.grp.team).elig = false) ∧
    (s.grp.queue ≠ [] → exec (.syRel a b sc) s = .next s.waits)

/-- R222, R266, R332, R288, R356, R319: a fence waits for the lanes, for the group's pushes at `.d` and wider and for its remote accesses at
`.y`, and in a dual team then for its checkpoint; at `.d` and wider it brings RMAX to at least the core's time and the core's time
to at least RMAX; it changes nothing else but the program counter and the mark that its checkpoint has matched. -/
def Sys2Proof.Claims.Fences : Prop :=
  ∀ (s : State) (sc : Scope),
    (s.grp.queue ≠ [] → exec (.syFence sc) s = .next s.waits) ∧
    (isWide sc = true → (∃ p ∈ s.dev.pushes, p.gid = s.grp.gid) → exec (.syFence sc) s = .next s.waits) ∧
    (sc = .y → (∃ r ∈ s.dev.remotes, r.gid = s.grp.gid) → exec (.syFence sc) s = .next s.waits) ∧
    (s.grp.queue = [] → quiet s → s.grp.dual = true → s.grp.dualSt.passed = false → s.grp.dualSt.waiting = false →
      exec (.syFence sc) s = .next { s with grp := { s.grp with dualSt := { s.grp.dualSt with waiting := true } } }) ∧
    (s.grp.queue = [] → quiet s → (s.grp.dual = true → s.grp.dualSt.passed = true) → ∃ t, exec (.syFence sc) s = .next t ∧
      t.grp = { s.grp with
        pc := s.grp.pc + 4, dualSt := if s.grp.dual then { s.grp.dualSt with passed := false } else s.grp.dualSt } ∧
      t.dev.mem = s.dev.mem ∧ t.dev.teams = s.dev.teams ∧
      (isWide sc = true → t.pts = max s.pts s.rmax ∧ t.rmax = max s.rmax s.pts) ∧
      (isWide sc = false → t.pts = s.pts ∧ t.rmax = s.rmax))

/-- R224, R220: `sy.rmw` on an object, or on a DATA word, that is not poisoned: sd takes the old value, memory the new one of the
operation, of which `s`D is the compare value; a releasing form on an object opens a sequence, with the greater time where one was open with
the same die and epoch; every other byte stays, and the team loses its eligibility for restart. On poison nothing is written: sd takes zero
with a consumption, or the word traps in a `prc` group. The line holds no storage error that has not been met (R335). -/
def Sys2Proof.Claims.Atomics : Prop :=
  ∀ (s : State) (d : SReg) (a : CReg) (b : SReg) (op : AmoOp) (ord : Ord) (sc : Scope) (x : Nat),
    let c := s.grp.rc a.toNat
    let old := s.dev.mem.word x
    let st := s.dev.mem.word (x + 8)
    let rel := ordReleases ord
    let sync := c.kind == 3
    let here := fabricHere s.dev c (if sync then c.base.toNat else c.cursor)
    soundLine s x →
    (objectAt s a 32 true x ∧ c.kind = 3 ∨
      (c.kind ≠ 3 ∧ capCheck s.regs s.dev c (s.mach.party false) needAtomic c.cursor 8 = .ok ∧
        placeOf s.dev c c.cursor = .local_ x ∧ s.grp.dual = false ∧ s.grp.shadow = false ∧ hostHoldsNothing s ∧
        s.dev.syncs.getD (x / 64) false = false ∧ fxRoom here s.grp)) →
    (rel = true → s.grp.queue ≠ [] → exec (.syRmw d a b op ord sc) s = .next s.waits) ∧
    (s.grp.queue = [] → quiet s → s.dev.mem.anyPoison x 8 = false → ∃ t, exec (.syRmw d a b op ord sc) s = .next t ∧
      onlyReg s.grp t.grp d old ∧ keptBySync s.grp t.grp ∧ fxCounted here s.grp t.grp ∧
      t.dev.mem.word x = rmwRule op old (s.grp.rs b.toNat) (s.grp.rs d.toNat) ∧
      bytesKept s t x (if sync && rel then 16 else 8) ∧
      (sync = true → rel = true → ∃ time, s.pts ≤ time ∧ t.dev.mem.word (x + 8) =
        if rsqOpen st = true ∧ rtsDie st = s.grp.die ∧ rtsEpoch st = (s.dev.die s.grp.die).epoch % 64
        then stateOf s.grp.die (s.dev.die s.grp.die).epoch (max (rtsTime st) time)
        else stateOf s.grp.die (s.dev.die s.grp.die).epoch time) ∧
      (t.dev.team s.grp.team).elig = false) ∧
    (s.grp.queue = [] → quiet s → s.dev.mem.anyPoison x 8 = true → s.grp.prc = false → ∃ t, exec (.syRmw d a b op ord sc) s = .next t ∧
      onlyReg s.grp t.grp d 0 ∧ keptBySync s.grp t.grp ∧ fxCounted here s.grp t.grp ∧ t.dev.mem = s.dev.mem ∧
      (t.dev.ctx s.grp.ctx).psn = true) ∧
    (quiet s → trapsNow s.grp → s.dev.mem.anyPoison x 8 = true → s.grp.prc = true → ∃ t, exec (.syRmw d a b op ord sc) s = .next t ∧
      t.grp = s.grp.scalarTrapped 10 ∧ t.dev.mem = s.dev.mem)

/-- R223, R216: `sy.bind` rounds `c`B's region outward to lines, writes the lowest descriptor with V clear and gives its index;
`sy.unbind` clears V of the descriptor that `s`B names; each changes those bytes of memory only. -/
def Sys2Proof.Claims.Bindings : Prop :=
  ∀ (s : State) (d : SReg) (a b : CReg) (k x : Nat) (e : SReg), objectAt s a 2 true x →
    let r := s.grp.rc b.toNat
    let lo := r.base.toNat / 128
    let n := (r.top.toNat + 127) / 128 - lo
    (bindCheck s.regs s.mach r = .ok → r.base < r.top → n ≤ 2 ^ 20 → k < 4 →
      bit (s.dev.mem.word (x + 32 + 8 * k)) 63 = false → (∀ j, j < k → bit (s.dev.mem.word (x + 32 + 8 * j)) 63 = true) →
      ∃ t, exec (.syBind d a b) s = .next t ∧ onlyReg s.grp t.grp d (BitVec.ofNat 64 k) ∧ keptBySync s.grp t.grp ∧ fxCounted (objectFabric s a) s.grp t.grp ∧
        (t.dev.mem.word (x + 32 + 8 * k)).toNat = 2 ^ 63 + 2 ^ 43 * (n - 1) + lo ∧ bytesKept s t (x + 32 + 8 * k) 8) ∧
    (let j := (s.grp.rs e.toNat).toNat % 4
     ∃ t, exec (.syUnbind a e) s = .next t ∧ { t.grp.flightsOf s.grp with pc := s.grp.pc } = s.grp ∧ t.grp.pc = s.grp.pc + 4 ∧
      fxCounted (objectFabric s a) s.grp t.grp ∧
      (t.dev.mem.word (x + 32 + 8 * j)).toNat = (s.dev.mem.word (x + 32 + 8 * j)).toNat % 2 ^ 63 ∧
      bytesKept s t (x + 32 + 8 * j) 8)

/-- R227, R226: `sy.bar` waits for the lanes, then arrives; while another group of the team has not arrived it stays arrived, and
the last arrival (or BARRIER_COMPLETE after a group ended) completes the barrier in every arrived group: sd is 1 if a group
of the team was halted and 0 otherwise, and the group goes on. MWAIT_WAKE unparks a group whose watched VALUE, as a read gives it
(a poisoned one as zero, R221), differs, and no other. -/
def Sys2Proof.Claims.BarrierAndWake : Prop :=
  ∀ (s : State) (d : SReg), s.grp.live = true → (s.dev.team s.grp.team).partner = none →
    let status : Word := if (s.dev.team s.grp.team).abandoned then 1 else 0
    let others := s.dev.groups.filter fun e => e.2.team == s.grp.team
    let completes (t : State) : Prop := ∀ e ∈ s.dev.groups, e.2.team = s.grp.team → ∀ k, e.2.arrived = some k →
      ∃ g, (e.1, g) ∈ t.dev.groups ∧ g.arrived = none ∧ g.pc = e.2.pc + 4 ∧ g.rs k = if k = 0 then 0 else status
    (s.grp.queue ≠ [] → exec (.syBar d) s = .next s.waits) ∧
    (s.grp.queue = [] → s.grp.arrived = none → (∃ e ∈ others, e.2.arrived = none) →
      exec (.syBar d) s = .next { s with grp := { s.grp with arrived := some d.toNat } }) ∧
    (s.grp.queue = [] → s.grp.arrived = none → (∀ e ∈ others, e.2.arrived ≠ none) → ∃ t, exec (.syBar d) s = .next t ∧
      onlyReg s.grp t.grp d status ∧ t.grp.arrived = none ∧ t.dev.mem = s.dev.mem ∧ completes t) ∧
    (∀ k, s.grp.arrived = some k → (∀ e ∈ others, e.2.arrived ≠ none) → ∃ t, exec (.barrierComplete s.grp.team) s = .next t ∧
      t.grp.rs k = (if k = 0 then 0 else status) ∧ t.grp.pc = s.grp.pc + 4 ∧ t.grp.arrived = none ∧ completes t) ∧
    (s.grp.arrived = none → exec (.barrierComplete s.grp.team) s = .next s) ∧
    (∀ p, s.grp.park = some p → (homeDie p.addr).isSome = true →
      let value : Word := if s.dev.mem.anyPoison p.addr 8 then 0 else s.dev.mem.word p.addr
      (value ≠ p.expect →
        exec (.mwaitWake s.grp.gid) s = .next { s with grp := { s.grp with park := none }, dev := unwatch s.dev s.grp }) ∧
      (value = p.expect → exec (.mwaitWake s.grp.gid) s = .next s))

/-! ### The copy engine -/

/-- R229, R228: `cp.run` of a CMD block in memory: it waits while the engine holds 32 operations or the counter stands at 1,023; a failed
check traps; otherwise the operation enters the engine with the block's fields as they stand, and the counter rises. A
poisoned block is read as zeros and recorded, and traps with POISON in a `prc` group. -/
def Sys2Proof.Claims.CopyIssue : Prop :=
  ∀ (s : State) (a : CReg),
    let c := s.grp.rc a.toNat
    let k := clusterKey s.grp.die s.grp.core
    let check := capCheck s.regs s.dev c (s.mach.party false) needCmd c.base.toNat 64
    (∀ cause, check = .fail cause → trapsNow s.grp → exec (.cpRun a) s = .next { s with grp := s.grp.scalarTrapped cause }) ∧
    (check = .ok → leaves s.dev c.base.toNat = false → 32 ≤ copiesHeld s.mach ∨ 1023 ≤ s.grp.count .cp →
      exec (.cpRun a) s = .next s.waits) ∧
    (∀ x, check = .ok → placeOf s.dev c c.base.toNat = .local_ x → s.grp.dual = false → s.grp.shadow = false →
      copiesHeld s.mach < 32 → s.grp.count .cp < 1023 →
      let got := (readBlock s.regs s.mach c.base.toNat).2
      let b := if got.2 then CmdBlock.zero else got.1
      (got.2 = false ∨ s.grp.prc = false → ∃ t o, exec (.cpRun a) s = .next t ∧
        (t.dev.cluster k).copies = (s.dev.cluster k).copies ++ [o] ∧ o.gid = s.grp.gid ∧ o.ctx = s.grp.ctx ∧ o.src = b.cap 0 ∧
        o.dst = b.cap 1 ∧ o.len = (b.word 32).toNat ∧ o.ctrl = b.word 40 ∧ o.signal = b.cap 3 ∧ o.checked = false ∧
        issuedOn .cp s.grp t.grp ∧ memKept s.dev t.dev ∧ (got.2 = true → (t.dev.ctx s.grp.ctx).psn = true)) ∧
      (got.2 = true → s.grp.prc = true → trapsNow s.grp → ∃ t, exec (.cpRun a) s = .next t ∧ t.grp = s.grp.scalarTrapped 10 ∧
        t.dev.clusters = s.dev.clusters ∧ memKept s.dev t.dev))

/-- R230, R237: the engine's checks of an operation, in order; a failed one moves no byte, completes the operation and holds its trap in
the issuing group; passed checks mark the operation, and a copy into the operand buffer claims its units for the team. -/
def Sys2Proof.Claims.CopyChecks : Prop :=
  ∀ (s : State) (cl : Nat) (o : CopyOp) (before rest : List CopyOp), (s.dev.cluster cl).copies = before ++ o :: rest →
    (∀ y ∈ before ++ rest, y.id ≠ o.id) → o.packet = none → o.checked = false →
    (∀ y ∈ before, y.gid = o.gid → y.checked = true) → (s.mach.group? o.gid).isSome = true →
    let p := engineParty s.dev o.colour o.part (opTeam s.mach o.gid) false
    let buf := bit o.ctrl 2
    let tags := bit o.ctrl 0
    let off := (o.ctrl.extractLsb' 28 20).toNat
    let colour (c : Cap) : Bool := decide (c.colour = o.colour) || decide (c.perms &&& 1024 ≠ 0)
    let bad1 := 2 ^ 30 < o.len ∨ o.ctrl.extractLsb' 3 25 ≠ 0 ∨
      (tags = true ∧ (o.src.cursor % 16 ≠ 0 ∨ o.len % 16 ≠ 0 ∨ (if buf then off else o.dst.cursor) % 16 ≠ 0))
    let bad2 := capCheck8 o.src p (rangeNeed 1 false) (colour o.src) o.src.cursor o.len ≠ none
    let bad3 := if buf then 786432 < off + o.len
      else capCheck8 o.dst p (rangeNeed (if tags then 10 else 2) true) (colour o.dst) o.dst.cursor o.len ≠ none
    let bad4 := bit o.ctrl 1 = true ∧ capCheck8 o.signal p signalNeed (colour o.signal) o.signal.base.toNat 8 ≠ none
    let fails (code : Nat) : Prop := ∃ t, exec (.cpCheck cl o.id) s = .next t ∧ (t.dev.cluster cl).copies = before ++ rest ∧
      t.dev.mem = s.dev.mem ∧ trapHeld s t o.gid .cp o.flight code
    (bad1 → fails 38) ∧ (¬ bad1 → bad2 → fails 35) ∧ (¬ bad1 → ¬ bad2 → bad3 → fails 36) ∧
    (¬ bad1 → ¬ bad2 → ¬ bad3 → bad4 → fails 37) ∧
    (¬ bad1 → ¬ bad2 → ¬ bad3 → ¬ bad4 →
      (buf = true → (∃ u ∈ blocksOf 1024 off o.len, ∃ k, (s.dev.cluster cl).unitOwner.getD u none = some k ∧ k ≠ opTeam s.mach o.gid) → fails 36) ∧
      ((buf = false ∨ ∀ u ∈ blocksOf 1024 off o.len, ∀ k, (s.dev.cluster cl).unitOwner.getD u none = some k → k = opTeam s.mach o.gid) →
        ∃ t, exec (.cpCheck cl o.id) s = .next t ∧ (t.dev.cluster cl).copies = before ++ { o with checked := true } :: rest ∧
          t.dev.mem = s.dev.mem ∧ t.grp = s.grp ∧
          (buf = true → ∀ u ∈ blocksOf 1024 off o.len, (t.dev.cluster cl).unitOwner.getD u none = some (opTeam s.mach o.gid))))

/-- R231, R149, R180: a checked copy between two ranges of memory that the firewall passes: the destination takes the source's bytes as
they all stood before, no other byte changes, a poisoned source byte poisons the sector it reaches; with TAGS = 0 the granules it touches
lose their tags, with TAGS = 1 they take the source's tags AND LDC. -/
def Sys2Proof.Claims.CopyMoves : Prop :=
  ∀ (s : State) (cl : Nat) (o : CopyOp) (before rest : List CopyOp), (s.dev.cluster cl).copies = before ++ o :: rest →
    (∀ y ∈ before ++ rest, y.id ≠ o.id) → o.checked = true → o.moved = false → o.rest = none →
    (∀ y ∈ before, y.gid = o.gid → y.moved = true) →
    let p := engineParty s.dev o.colour o.part (opTeam s.mach o.gid) false
    let sa := localAddr s.dev o.src.cursor
    let da := localAddr s.dev o.dst.cursor
    let touched (g : Nat) : Prop := o.len ≠ 0 ∧ da / 16 ≤ g ∧ g ≤ (da + o.len - 1) / 16
    bit o.ctrl 2 = false → o.src.kind = 0 → o.dst.kind = 0 → leaves s.dev o.src.cursor = false → leaves s.dev o.dst.cursor = false →
    reach s.regs s.dev p false o.src o.src.cursor o.len = .all → reach s.regs s.dev p true o.dst o.dst.cursor o.len = .all →
    hostHoldsNothing s → noSyncIn s da o.len →
    ∃ t, exec (.cpCopy cl o.id) s = .next t ∧ t.grp = s.grp ∧ t.dev.teams = s.dev.teams ∧
      (∃ w, (t.dev.cluster cl).copies = before ++ { o with moved := true, wts := w } :: rest) ∧
      (∀ b, t.memByte b = if da ≤ b ∧ b < da + o.len then s.memByte (sa + (b - da)) else s.memByte b) ∧
      (∀ k, k < o.len → s.dev.mem.poisoned ((sa + k) / 32) = true → t.dev.mem.poisoned ((da + k) / 32) = true) ∧
      (∀ g, ¬ touched g → t.dev.mem.tag g = s.dev.mem.tag g) ∧
      (bit o.ctrl 0 = false → ∀ g, touched g → t.dev.mem.tag g = false) ∧
      (bit o.ctrl 0 = true → da % 16 = 0 → sa % 16 = 0 → o.len % 16 = 0 → (s.dev.parts.getD o.part {}).filter = [] →
        ∀ i, 16 * i < o.len → t.dev.mem.tag (da / 16 + i) = (s.dev.mem.tag (sa / 16 + i) && decide (o.src.perms &&& 4 = 4)))

/-- R231, R230, R237, R261: a copy into the operand buffer reads its whole source once and enters it
in pieces up to the next multiple of 128 bytes, zero where the source is poisoned, with the buffer's sector marked; between two pieces a pass may
find it partly written. It has moved after its last byte, and fails with CPSRC where a refusal cut its source short. Memory keeps every byte. The size of a piece is the model's own
(notes/assumptions/58). -/
def Sys2Proof.Claims.BufferCopies : Prop :=
  ∀ (s : State) (cl : Nat) (o : CopyOp) (before rest : List CopyOp), (s.dev.cluster cl).copies = before ++ o :: rest →
    (∀ y ∈ before ++ rest, y.id ≠ o.id) → o.checked = true → o.moved = false → o.packet = none → bit o.ctrl 2 = true →
    (∀ y ∈ before, y.gid = o.gid → y.moved = true) → (s.mach.group? o.gid).isSome = true →
    let x := s.dev.cluster cl
    let at_ := (o.ctrl.extractLsb' 28 20).toNat + o.written
    let k := 128 - at_ % 128
    let piece (t : State) (bs : List Byte) (psn : List Bool) : Prop :=
      let y := t.dev.cluster cl
      t.dev.mem = s.dev.mem ∧
      (∀ b, y.obuf.byte b = if at_ ≤ b ∧ b < at_ + min k bs.length
        then (if psn.getD (b - at_) false then 0 else bs.getD (b - at_) 0) else x.obuf.byte b) ∧
      (∀ i, i < min k bs.length → psn.getD i false = true → y.obuf.poisoned ((at_ + i) / 32) = true) ∧
      (k < bs.length → t.grp = s.grp ∧ y.copies = before ++ { o with written := o.written + k, rest := some (bs.drop k, psn.drop k) } :: rest) ∧
      (bs.length ≤ k → o.len ≤ o.written + bs.length → t.grp = s.grp ∧
        ∃ z, y.copies = before ++ z :: rest ∧ z.moved = true ∧ z.id = o.id ∧ z.gid = o.gid ∧ z.ctrl = o.ctrl ∧ z.signal = o.signal) ∧
      (bs.length ≤ k → o.written + bs.length < o.len → y.copies = before ++ rest ∧ trapHeld s t o.gid .cp o.flight 35)
    (∀ bs psn, o.rest = some (bs, psn) → ∃ t, exec (.cpCopy cl o.id) s = .next t ∧ piece t bs psn) ∧
    (let p := engineParty s.dev o.colour o.part (opTeam s.mach o.gid) false
     let sa := localAddr s.dev o.src.cursor
     let reached := reach s.regs s.dev p false o.src o.src.cursor o.len
     o.rest = none → o.written = 0 → o.src.kind = 0 → leaves s.dev o.src.cursor = false → s.dev.errors = [] →
     ∀ n, (reached = .all ∧ n = o.len ∨ reached = .refused n) → ∃ t, exec (.cpCopy cl o.id) s = .next t ∧
      piece t ((List.range n).map fun i => s.memByte (sa + i)) ((List.range n).map fun i => s.dev.mem.poisoned ((sa + i) / 32)) ∧
      ((∃ i, i < n ∧ s.dev.mem.poisoned ((sa + i) / 32) = true) → o.prc = false → (t.dev.ctx o.ctx).psn = true))

/-- R231, R232, R103, R220, R332: a moved operation completes once its writes through a port have answered: it leaves the engine, and the
counter of its group falls where it stands first on its path and no other block of its word is left. With SIG = 1 the signal comes first,
where the object's home turns no epoch: VALUE rises by SIGADD, STATE opens a sequence with the engine's die and a time not before the writes', and RMAX follows. -/
def Sys2Proof.Claims.CopyCompletes : Prop :=
  ∀ (s : State) (cl : Nat) (o : CopyOp) (before rest : List CopyOp), (s.dev.cluster cl).copies = before ++ o :: rest →
    (∀ y ∈ before ++ rest, y.id ≠ o.id) → o.packet = none → o.moved = true → (∀ r ∈ s.dev.remotes, r.gid = 0 → r.flight ≠ o.id) →
    let ends (t : State) : Prop := exec (.cpComplete cl o.id) s = .next t ∧ (t.dev.cluster cl).copies = before ++ rest ∧
      (∀ g, s.mach.group? o.gid = some g → firstOn g .cp o.flight → (∀ y ∈ before ++ rest, y.gid = o.gid → y.flight ≠ o.flight) →
        g.entering = none → counterFalls s t o.gid .cp)
    ((∃ r ∈ s.dev.remotes, r.gid = 0 ∧ r.flight = o.id) → exec (.cpComplete cl o.id) s = .next s) ∧
    (bit o.ctrl 1 = false → ∃ t, ends t ∧ t.dev.mem = s.dev.mem) ∧
    (let a := o.signal.base.toNat
     let x := localAddr s.dev a
     bit o.ctrl 1 = true → o.signalled = false → o.signal.kind ≠ 2 → leaves s.dev a = false → signalWaits s.dev a = false →
      s.dev.mem.anyPoison x 8 = false → soundLine s x →
      reach s.regs s.dev (engineParty s.dev o.colour o.part 0 false) true o.signal a 8 = .all → hostHoldsNothing s →
      ∃ t, ends t ∧ t.dev.mem.word x = s.dev.mem.word x + BitVec.ofNat 64 (o.ctrl.extractLsb' 48 16).toNat ∧ bytesKept s t x 16 ∧
        ∃ time, o.wts ≤ time ∧ time ≤ (t.dev.die o.die).rmax ∧
          t.dev.mem.word (x + 8) = mergeState (s.dev.mem.word (x + 8)) o.die (s.dev.die o.die).epoch time)

/-! ### Collectives and the envelope write -/

/-- R364, R365, R229: `cl.run`: it waits while the die's engine holds 64 operations; otherwise the block enters the engine with the next number
of its key, the counter rises and the team loses its restart eligibility; a block that fails the engine's checks completes at once, and
its trap is held. A poisoned block traps with POISON in a `prc` group; outside it reads as zeros, a consumption that CLBLOCK then answers. -/
def Sys2Proof.Claims.CollectiveIssue : Prop :=
  ∀ (s : State) (a : CReg),
    let c := s.grp.rc a.toNat
    let check := capCheck s.regs s.dev c (s.mach.party false) needCmd c.base.toNat 64
    let coll := (s.dev.die s.grp.die).coll
    (∀ cause, check = .fail cause → trapsNow s.grp → exec (.clRun a) s = .next { s with grp := s.grp.scalarTrapped cause }) ∧
    (check = .ok → leaves s.dev c.base.toNat = false → 64 ≤ coll.length ∨ 1023 ≤ s.grp.count .cl → exec (.clRun a) s = .next s.waits) ∧
    (check = .ok → leaves s.dev c.base.toNat = false → s.grp.dual = false → s.grp.shadow = false → coll.length < 64 →
      s.grp.count .cl < 1023 → s.grp.live = true →
      let got := (readBlock s.regs s.mach c.base.toNat).2
      let b := got.1
      let key := clKey (b.word 40)
      (got.2 = true → s.grp.prc = true → trapsNow s.grp → ∃ t, exec (.clRun a) s = .next t ∧ t.grp = s.grp.scalarTrapped 10 ∧
        (t.dev.die s.grp.die).coll = coll ∧ memKept s.dev t.dev) ∧
      (got.2 = true → s.grp.prc = false → (∀ y ∈ coll, y.id ≠ s.dev.nextId) → ∃ t, exec (.clRun a) s = .next t ∧ memKept s.dev t.dev ∧
        t.grp.pc = s.grp.pc + 4 ∧ (t.dev.die s.grp.die).coll = coll ∧ (t.dev.ctx s.grp.ctx).psn = true ∧
        ∃ h ∈ t.grp.heldTraps, h.path = .cl ∧ h.code = 50) ∧
      (got.2 = false → ∃ t o, exec (.clRun a) s = .next t ∧ memKept s.dev t.dev ∧ t.grp.pc = s.grp.pc + 4 ∧
        o.gid = s.grp.gid ∧ o.src = b.cap 0 ∧ o.dst = b.cap 1 ∧ o.len = (b.word 32).toNat ∧ o.ctrl = b.word 40 ∧ o.signal = b.cap 3 ∧
        o.seq = nextSeq (s.dev.ctx s.grp.ctx) key ∧ nextSeq (t.dev.ctx s.grp.ctx) key = o.seq + 1 ∧
        (t.dev.team s.grp.team).elig = false ∧
        (clFault s.dev o = none → (t.dev.die s.grp.die).coll = coll ++ [o] ∧ issuedOn .cl s.grp t.grp) ∧
        (∀ code, clFault s.dev o = some code → (∀ y ∈ coll, y.id ≠ s.dev.nextId) →
          (t.dev.die s.grp.die).coll = coll ∧ ∃ h ∈ t.grp.heldTraps, h.path = .cl ∧ h.code = code)))

/-- R364, R363: the first check of the collective engine, field by field. That a STRIDE of 0 or above 143 fails here is the model's reading
(notes/assumptions/24). -/
def Sys2Proof.Claims.CollectiveBlockCheck : Prop :=
  ∀ (d : Dev) (o : ClOp),
    let c := o.ctrl
    let f (lo w : Nat) : Nat := (c.extractLsb' lo w).toNat
    let rank (r : Nat) : Prop := r < f 48 8 ∧ f 56 8 + r * f 40 8 = d.pkg.domIndex.toNat
    clFault d o = some 50 ↔ ¬ (f 0 1 = 0 ∧ f 10 2 ≠ 3 ∧
      (if f 8 2 = 0 ∨ f 8 2 = 3 then f 12 4 ≤ 13 else f 12 4 ∈ [2, 3, 6, 7, 8, 9, 10]) ∧
      1 ≤ o.len ∧ o.len ≤ 2 ^ 28 ∧ 1 ≤ f 40 8 ∧ f 40 8 ≤ 143 ∧ f 56 8 + (f 48 8 - 1) * f 40 8 < 144 ∧
      d.pkg.domValid = true ∧ (∃ r, rank r) ∧ f 32 8 < f 48 8)

/-- R365, R45: one ⊕ step under TY: on integers the wrapping sum, the least or the greatest; on numbers the add, min or max of the pair words
with RM nearest and neither FZ nor SAT, cut to the element. -/
def Sys2Proof.Claims.CollectiveStep : Prop :=
  ∀ (c : Word) (x y : Nat),
    let ty := (c.extractLsb' 12 4).toNat
    let red := (c.extractLsb' 10 2).toNat
    let w := tyWidth ty
    let r := clStep c x y
    let z (n : Nat) : Int := readInt ty (BitVec.ofNat 64 n)
    (x < 2 ^ w → y < 2 ^ w → ty ∈ [2, 3, 6, 7] → r.2 = 0 ∧
      (red = 0 → r.1 = (x + y) % 2 ^ w) ∧
      (red = 1 → r.1 = if z y < z x then y else x) ∧
      (red = 2 → r.1 = if z x < z y then y else x)) ∧
    (ty ∈ [8, 9, 10] →
      let p (o : NOp) : LaneOut := pairable o ty 0 false false (BitVec.ofNat 64 x) (BitVec.ofNat 64 y) 0
      x < 2 ^ w → y < 2 ^ w →
      (red = 0 → r = ((p .add).val.toNat % 2 ^ w, (p .add).ev)) ∧
      (red = 1 → r = ((p .min).val.toNat % 2 ^ w, (p .min).ev)) ∧
      (red = 2 → r = ((p .max).val.toNat % 2 ^ w, (p .max).ev)))

/-- R365: what a rank's DST receives, in elements: the root's for BCAST, the reduction in rank order for ALLRED, its own share of the
reduction for REDSCAT, every rank's in turn for ALLGATH; a poisoned byte of any source element marks the result. -/
def Sys2Proof.Claims.CollectiveResults : Prop :=
  ∀ (c : Word) (len q : Nat) (p : ClPart) (ps : List ClPart),
    let e := clBytes c
    let parts := p :: ps
    let out := (clResult c len q parts).1
    let op := (c.extractLsb' 8 2).toNat
    let fold (j : Nat) : Nat := (ps.foldl (fun acc x => (clStep c acc (clElem e x.bytes j)).1) (clElem e p.bytes j))
    (op = 0 → ∀ x ∈ parts, x.rank = (c.extractLsb' 32 8).toNat → (∀ y ∈ parts, y.rank = x.rank → y = x) →
      out.bytes = x.bytes.take (len * e) ∧ out.psn = x.psn.take (len * e)) ∧
    (op = 1 → out.bytes = (List.range len).flatMap fun j => toLe e (fold j)) ∧
    (op = 2 → out.bytes = (List.range len).flatMap fun j => toLe e (fold (q * len + j))) ∧
    (op = 3 → out.bytes = parts.flatMap fun x => x.bytes.take (len * e)) ∧
    (op = 1 → ∀ j i, j < len → i < e → (out.psn.getD (e * j + i) false = true ↔
      ∃ x ∈ parts, ∃ k, k < e ∧ x.psn.getD (e * j + k) false = true))

/-- R365, R366, R103: the steps of a collective: once every other member has issued and agrees, DST takes the result and the operation is
matched; members that differ fail it with CLBLOCK; a matched operation without a signal leaves the engine and its counter falls; an
unmatched one that has waited for TMO fails with CLTIMEOUT. -/
def Sys2Proof.Claims.CollectiveSteps : Prop :=
  ∀ (s : State) (die : Nat) (o : ClOp) (before rest : List ClOp) (members : List ClMember),
    (s.dev.die die).coll = before ++ o :: rest → (∀ y ∈ before ++ rest, y.id ≠ o.id) → (s.mach.group? o.gid).isSome = true →
    let c := o.ctrl
    let p := engineParty s.dev o.colour o.part 0 false
    let fails (i : Instr) (code : Nat) : Prop := ∃ t, exec i s = .next t ∧ (t.dev.die die).coll = before ++ rest ∧
      t.dev.mem = s.dev.mem ∧ trapHeld s t o.gid .cl o.flight code
    (o.matched = false → fails (.cltimeout die o.id) 54) ∧
    (o.matched = true → bit c 1 = false → (∀ r ∈ s.dev.remotes, r.gid = 0 → r.flight ≠ o.id) →
      ∃ t, exec (.clComplete die o.id) s = .next t ∧ (t.dev.die die).coll = before ++ rest ∧ t.dev.mem = s.dev.mem ∧
        ∀ g, s.mach.group? o.gid = some g → firstOn g .cl o.flight → counterFalls s t o.gid .cl) ∧
    (∀ q, o.matched = false → clRank s.dev c = some q →
      let n := clSrcLen c o.len q
      let k := clDstLen c o.len
      let da := localAddr s.dev o.dst.cursor
      let others := (List.range (clCount c)).filter (· ≠ q)
      ((∃ r ∈ others, ∀ x ∈ members, x.rank ≠ r) → exec (.clMatch die o.id members) s = .next s) ∧
      ((∀ r ∈ others, ∃ x ∈ members, x.rank = r) → (∃ x ∈ members, x.rank ∈ others ∧ x.agrees = false) →
        fails (.clMatch die o.id members) 50) ∧
      ((∀ r ∈ others, ∃ x ∈ members, x.rank = r ∧ x.agrees = true) → (members.map (·.rank)).Nodup →
        o.src.kind = 0 → o.dst.kind = 0 → leaves s.dev o.src.cursor = false → leaves s.dev o.dst.cursor = false →
        reach s.regs s.dev p false o.src o.src.cursor n = .all → reach s.regs s.dev p true o.dst o.dst.cursor k = .all →
        hostHoldsNothing s → noSyncIn s da k →
        let own : ClPart := ⟨q, (s.dev.mem.range (localAddr s.dev o.src.cursor) n).bytes, (s.dev.mem.range (localAddr s.dev o.src.cursor) n).psn⟩
        let parts := (List.range (clCount c)).map fun r => if r = q then own else
          (((members.find? fun x => x.rank == r).map (clOther c o.len)).getD ⟨r, [], []⟩)
        let out := (clResult c o.len q parts).1.bytes
        ∃ t, exec (.clMatch die o.id members) s = .next t ∧ (∃ w, (t.dev.die die).coll = before ++ { o with matched := true, wts := w } :: rest) ∧
          ∀ b, t.memByte b = if da ≤ b ∧ b < da + (min k out.length) then out.getD (b - da) 0 else s.memByte b))

/-- R362, R361, R149: `cl.give` traps on an untagged `c`A, on one that is no envelope, on a failed check of `c`B, and with FXADDR on a target outside
[2^49, 2^50); otherwise the `fx` counter rises and one request leaves with the envelope's bytes and its tag. -/
def Sys2Proof.Claims.EnvelopeWrites : Prop :=
  ∀ (s : State) (a b : CReg),
    let env := s.grp.rc a.toNat
    let dst := s.grp.rc b.toNat
    let traps (cause : Nat) : Prop := trapsNow s.grp → exec (.clGive a b) s = .next { s with grp := s.grp.scalarTrapped cause }
    let check := capCheck s.regs s.dev dst (s.mach.party false) needGive dst.cursor 16
    (env.tag = false → traps 16) ∧
    (env.tag = true → env.malformed = false → env.kind ≠ 5 → traps 19) ∧
    (env.tag = true → env.malformed = false → env.kind = 5 →
      (∀ cause, check = .fail cause → traps cause) ∧
      (check = .ok → dst.cursor < 2 ^ 49 ∨ 2 ^ 50 ≤ dst.cursor ∨ dst.kind = 2 → traps 57) ∧
      (∀ x, check = .ok → 2 ^ 49 ≤ dst.cursor → dst.cursor < 2 ^ 50 → dst.kind ≠ 2 → s.grp.dual = false → s.grp.shadow = false →
        (1023 ≤ s.grp.count .fx → exec (.clGive a b) s = .next s.waits) ∧
        (s.grp.count .fx < 1023 → placeOf s.dev dst dst.cursor = .remote x → ∃ t r, exec (.clGive a b) s = .next t ∧
          t.dev.remotes = s.dev.remotes ++ [r] ∧ r.addr = x ∧ r.len = 16 ∧ r.write = some env.bytes ∧ r.envelope = true ∧
          r.gid = s.grp.gid ∧ issuedOn .fx s.grp t.grp ∧ t.dev.mem = s.dev.mem ∧ (t.dev.team s.grp.team).elig = false)))

/-! ### Lane words -/

/-- R108, R110, R76, R62, R64, R65, R31 (and the rules of each operation): a wide lane word outside a chain computes, in each running lane
and from the registers as they stood, the result of its rule; DST8 takes it in those lanes (both registers of a pair), freed registers read
zero, every other register, lane and mask is as before; the division masks take the lanes that divided by zero or overflowed,
each event class counts the lanes that raised it, and the fallbacks are recorded. That a 64-bit move in a `prc` group sets the side bits of both registers, and the
free displacement of a CORDIC result within its bound, are the model's (notes/assumptions/55, 10). -/
def Sys2Proof.Claims.LaneResults : Prop :=
  ∀ (i : Instr) (s : State) (r : LaneRule), laneRule i = some r →
    let f := formOf s r.op10 r.w
    let g := s.grp
    let out (l : Nat) : LaneOut := r.out g g.view l
    laneReady s f → g.chain = none → r.w.le = false ∨ 0x180 ≤ r.op10 →
    ∃ t, exec i s = .next t ∧ laneNext g t.grp ∧ lanesOnly g t.grp ∧
      lanesAfter g.lanes t.grp.lanes (runMask g g.view r.w.ms.toNat) r.writes f.frees (fun k l => r.half k (out l)) ∧
      (∀ l, l < 64 → bit t.grp.dzmask l = (bit g.dzmask l || (bit f.run l && (out l).dz)) ∧
        bit t.grp.domask l = (bit g.domask l || (bit f.run l && (out l).dov))) ∧
      counted s t (fun c => lanesWith f.run fun l => bit (out l).ev c) ∧
      warned s t (wideWarns r.op10 r.w ((laneInfo r.op10 r.w).getD {}) false) ∧
      t.dev.mem = s.dev.mem ∧ t.dev.teams = s.dev.teams ∧ t.regs = s.regs

/-- R18, R19, R41, R74, R78, R86, R109: what a selector gives in a lane under a type: a register (or its pair, low half first), a latch of the
open chain (zero where none is open), a register through an index, the immediate as its type widens it, the scalar register at the
`lrun`, the lane number, zero, and the group's numbers. -/
def Sys2Proof.Claims.LaneOperands : Prop :=
  ∀ (g : Group) (v : View) (imm : BitVec 23) (ty l : Nat) (sel : BitVec 9),
    let x := (readSel g v imm ty sel l).val
    let reg (k : Nat) : Nat := (g.lanes.val.getD (64 * k + l) 0).toNat
    let at_ (k : Nat) : Nat := if ty = 3 ∨ ty = 7 then reg (k - k % 2) + 2 ^ 32 * reg (k - k % 2 + 1) else reg k
    let cut (y : Nat) : Nat := if ty = 3 ∨ ty = 7 then y else y % 2 ^ 32
    (sel.toNat < 256 → x.toNat = at_ sel.toNat) ∧
    (∀ c j, j < 4 → sel.toNat = 256 + j → g.chain = some c → x.toNat = cut (c.lat.getD (64 * j + l) 0).toNat) ∧
    (256 ≤ sel.toNat → sel.toNat < 260 → g.chain = none → x = 0) ∧
    (∀ j, j < 4 → sel.toNat = 260 + j → x.toNat = at_ (((v.x.getD j 0).toNat + imm.toNat % 256) % 512)) ∧
    (sel.toNat = 264 →
      ((ty = 0 ∨ ty = 1 ∨ ty = 2) → x.toNat = (imm.toInt % (2 ^ 32 : Nat)).toNat) ∧
      (ty = 3 → x.toNat = (imm.toInt % (2 ^ 64 : Nat)).toNat) ∧
      (ty = 8 → x.toNat = imm.toNat * 2 ^ 9) ∧
      ((ty = 9 ∨ ty = 10 ∨ ty = 13) → x.toNat = imm.toNat % 2 ^ 16) ∧
      ((ty = 11 ∨ ty = 12) → x.toNat = imm.toNat % 2 ^ 8) ∧
      ((4 ≤ ty ∧ ty ≤ 7) ∨ 14 ≤ ty → x.toNat = imm.toNat)) ∧
    (sel.toNat = 265 → x.toNat = cut (if imm.toNat % 64 = 0 then 0 else (v.s.getD (imm.toNat % 64) 0).toNat)) ∧
    (l < 64 → sel.toNat = 266 → x.toNat = l) ∧ (sel.toNat = 267 → x = 0) ∧
    (g.index < 2 ^ 32 → sel.toNat = 268 → x.toNat = g.index) ∧ (g.teamNo < 2 ^ 32 → sel.toNat = 269 → x.toNat = g.teamNo) ∧
    (g.width ≤ 64 → sel.toNat = 270 → x.toNat = g.width) ∧ (v.tile < 8 → sel.toNat = 271 → x.toNat = v.tile)

/-- R113, R115, R42, R40: the integer lane operations at each width, in exact integers that wrap, or saturate and count OVF where SAT has a use;
results are extended to 64 bits by their type. -/
def Sys2Proof.Claims.IntegerLaneOperations : Prop :=
  ∀ (ty : Nat) (sat : Bool) (a b c : Word), ty ≤ 7 →
    let w := tyWidth ty
    let x := readInt ty a
    let y := readInt ty b
    let z := readInt ty c
    let lo : Int := if ty ≤ 3 then -(2 ^ (w - 1) : Nat) else 0
    let hi : Int := if ty ≤ 3 then (2 ^ (w - 1) : Nat) - 1 else (2 ^ w : Nat) - 1
    let sh := b.toNat % w
    let wraps (o : NOp) (e : Int) : Prop := readInt ty (pairable o ty 0 false false a b c).val % (2 ^ w : Nat) = e % (2 ^ w : Nat) ∧
      (pairable o ty 0 false false a b c).ev = 0
    let clips (o : NOp) (e : Int) : Prop := readInt ty (pairable o ty 0 false true a b c).val = max lo (min e hi) ∧
      (pairable o ty 0 false true a b c).ev = if e < lo ∨ hi < e then 2 else 0
    (lo ≤ x ∧ x ≤ hi) ∧
    (wraps .add (x + y) ∧ wraps .sub (x - y) ∧ wraps .mul (x * y) ∧ wraps .fma (x * y + z) ∧ wraps .abs |x| ∧ wraps .neg (-x)) ∧
    (clips .add (x + y) ∧ clips .sub (x - y) ∧ clips .mul (x * y) ∧ clips .fma (x * y + z) ∧ clips .abs |x| ∧ clips .neg (-x)) ∧
    (readInt ty (pairable .min ty 0 false sat a b c).val = min x y ∧ readInt ty (pairable .max ty 0 false sat a b c).val = max x y ∧
      readInt ty (pairable .clamp ty 0 false sat a b c).val = min (max x y) z ∧
      readInt ty (pairable .mov ty 0 false sat a b c).val = x ∧
      readInt ty (pairable .mulhi ty 0 false sat a b c).val % (2 ^ w : Nat) = x * y / (2 ^ w : Nat) % (2 ^ w : Nat) ∧
      readInt ty (pairable .shr ty 0 false sat a b c).val = x / (2 ^ sh : Nat) ∧
      readInt ty (pairable .shl ty 0 false sat a b c).val % (2 ^ w : Nat) = x * (2 ^ sh : Nat) % (2 ^ w : Nat)) ∧
    (∀ k, k < w →
      bit (pairable .and ty 0 false sat a b c).val k = (bit a k && bit b k) ∧
      bit (pairable .or ty 0 false sat a b c).val k = (bit a k || bit b k) ∧
      bit (pairable .xor ty 0 false sat a b c).val k = (bit a k != bit b k)) ∧
    (∀ o, (pairable o ty 0 false sat a b c).val = if ty ≤ 3
      then BitVec.ofInt 64 (readInt ty (pairable o ty 0 false sat a b c).val)
      else BitVec.ofNat 64 (readInt ty (pairable o ty 0 false sat a b c).val).toNat)

/-- R116: integer division lane by lane: truncation toward zero, the result for a zero divisor with the lane of `%dzmask` and IDIV, and
the overflow with the lane of `%domask` and IDIV. -/
def Sys2Proof.Claims.IntegerLaneDivision : Prop :=
  ∀ (ty : Nat) (a b : Word), ty ≤ 7 →
    let w := tyWidth ty
    let x := readInt ty a
    let y := readInt ty b
    let q := divLane ty false a b
    let r := divLane ty true a b
    let ovf := ty ≤ 3 ∧ x = -(2 ^ (w - 1) : Nat) ∧ y = -1
    (y = 0 → readInt ty q.val = (if ty ≤ 3 then (2 ^ (w - 1) : Nat) - 1 else (2 ^ w : Nat) - 1) ∧ readInt ty r.val = x) ∧
    (ovf → readInt ty q.val = x ∧ readInt ty r.val = 0) ∧
    (y ≠ 0 → ¬ ovf → readInt ty q.val = x.tdiv y ∧ readInt ty r.val = x - x.tdiv y * y) ∧
    (∀ o, o = q ∨ o = r → (o.dz = decide (y = 0)) ∧ (o.dov = true ↔ ovf) ∧ o.ev = if y = 0 ∨ ovf then 16 else 0)

/-- R46: rounding a positive magnitude n/d to an integer: to the nearest, ties to even (rne) or away (rna), toward zero (rz), up (ru), down
(rd); exact magnitudes stay. -/
def Sys2Proof.Claims.RoundingModes : Prop :=
  ∀ (neg : Bool) (n d : Nat), 0 < d →
    let m (rm : Nat) : Int := (roundNat rm neg n d).1
    let err (rm : Nat) : Int := m rm * d - n
    (2 * |err 0| ≤ d ∧ (2 * |err 0| = d → m 0 % 2 = 0)) ∧
    (2 * |err 4| ≤ d ∧ (2 * |err 4| = d → 0 < err 4)) ∧
    (err 1 ≤ 0 ∧ -(d : Int) < err 1) ∧
    (if neg then err 2 ≤ 0 ∧ -(d : Int) < err 2 else 0 ≤ err 2 ∧ err 2 < d) ∧
    (if neg then 0 ≤ err 3 ∧ err 3 < d else err 3 ≤ 0 ∧ -(d : Int) < err 3) ∧
    (∀ rm, (roundNat rm neg n d).2 = true ↔ n % d ≠ 0) ∧ (n % d = 0 → ∀ rm, m rm * d = n)

/-- R43, R44, R45, R46, R47, R113, R114: floating-point operations of wide and pair words: add, sub, mul and fma round the exact result of finite
operands once; a NaN gives the canonical NaN, and INV where it is signalling; opposite infinities, and zero times infinity, are invalid; `min` and
`max` order −0 below +0 and pass NaNs over; `abs` and `neg` change the sign. -/
def Sys2Proof.Claims.FloatingResults : Prop :=
  ∀ (ty rm : Nat) (fz sat : Bool) (a0 b0 c0 : Nat), ty = 8 ∨ ty = 9 ∨ ty = 10 → a0 < 2 * fpSign ty → b0 < 2 * fpSign ty → c0 < 2 * fpSign ty →
    let out (o : NOp) : LaneOut := pairable o ty rm fz sat (BitVec.ofNat 64 a0) (BitVec.ofNat 64 b0) (BitVec.ofNat 64 c0)
    let a := fpIn ty fz a0
    let b := fpIn ty fz b0
    let c := fpIn ty fz c0
    let v := fpVal ty
    let neg := fpNeg ty
    let zero (x : Nat) : Bool := decide (x % fpSign ty = 0)
    let gives (o : NOp) (q : ℚ) (neg0 : Bool) : Prop := fpGives ty rm fz q neg0 (out o).val.toNat (out o).ev
    (fpFinite ty a → fpFinite ty b →
      gives .add (v a + v b) (if zero a && zero b && neg a == neg b then neg a else rm == 3) ∧
      gives .sub (v a - v b) (if zero a && zero b && neg a != neg b then neg a else rm == 3) ∧
      gives .mul (v a * v b) (neg a != neg b) ∧
      (fpFinite ty c → gives .fma (v a * v b + v c)
        (if (zero a || zero b) && zero c && (neg a != neg b) == neg c then neg c else rm == 3))) ∧
    (fpNan ty a ∨ fpNan ty b → ∀ o, o = .add ∨ o = .sub ∨ o = .mul → (out o).val.toNat = fpQuiet ty ∧ fpInv ty [a, b] (out o).ev) ∧
    (fpInf ty a → fpInf ty b →
      (neg a ≠ neg b → (out .add).val.toNat = fpQuiet ty ∧ (out .add).ev = 1) ∧
      (neg a = neg b → (out .add).val.toNat = a ∧ (out .add).ev = 0 ∧ (out .sub).val.toNat = fpQuiet ty ∧ (out .sub).ev = 1)) ∧
    (fpInf ty a → fpFinite ty b → (out .add).val.toNat = a ∧ (out .add).ev = 0 ∧
      (zero b = true → (out .mul).val.toNat = fpQuiet ty ∧ (out .mul).ev = 1) ∧
      (zero b = false → (out .mul).val.toNat % fpSign ty = fpTop ty ∧ neg (out .mul).val.toNat = (neg a != neg b) ∧ (out .mul).ev = 0)) ∧
    (fpPicks ty false [a, b] (out .min).val.toNat ∧ fpInv ty [a, b] (out .min).ev) ∧
    (fpPicks ty true [a, b] (out .max).val.toNat ∧ fpInv ty [a, b] (out .max).ev) ∧
    (¬ fpNan ty a → (out .abs).val.toNat = a % fpSign ty ∧ (out .abs).ev = 0 ∧
      (out .neg).val.toNat = (if neg a then a % fpSign ty else fpSign ty + a) ∧ (out .neg).ev = 0)

/-- R137, R46, R47, R44: a floating-point reduction of a list: the exact sum, rounded once whatever the order; a NaN, or infinities of both signs,
give the canonical NaN; the least and the greatest number, NaNs passed over. -/
def Sys2Proof.Claims.FloatingReductions : Prop :=
  ∀ (ty rm : Nat) (fz sat : Bool) (l : List Word), ty = 8 ∨ ty = 9 ∨ ty = 10 → l ≠ [] →
    let ins := l.map fun x => fpIn ty fz (x.toNat % (2 * fpSign ty))
    let r (op : Nat) := redOver op ty rm fz sat l
    ((∀ x ∈ ins, fpFinite ty x) → fpGives ty rm fz (ins.map (fpVal ty)).sum
      (if ins.all (· == fpSign ty) then true else if ins.all (· == 0) then false else rm == 3) (r 0).1.toNat (r 0).2) ∧
    ((∃ x ∈ ins, fpNan ty x) → (r 0).1.toNat = fpQuiet ty ∧ fpInv ty ins (r 0).2) ∧
    ((∀ x ∈ ins, ¬ fpNan ty x) → fpTop ty ∈ ins →
      (fpSign ty + fpTop ty ∈ ins → (r 0).1.toNat = fpQuiet ty ∧ (r 0).2 = 1) ∧
      (fpSign ty + fpTop ty ∉ ins → (r 0).1.toNat = fpTop ty ∧ (r 0).2 = 0)) ∧
    (fpPicks ty false ins (r 1).1.toNat ∧ fpInv ty ins (r 1).2) ∧ (fpPicks ty true ins (r 2).1.toNat ∧ fpInv ty ins (r 2).2)

/-- R59, R60: the value of a block of a pass: the exact sum of its products times the scale, rounded once to FP32, to the nearest, with gradual underflow;
a zero is negative where every product is a negative zero. A NaN, or a NaS scale, gives a NaN. -/
def Sys2Proof.Claims.BlockValues : Prop :=
  ∀ (ts : List (Machine.Num × Machine.Num)) (sc : SFrac), ts ≠ [] → 0 < sc.den →
    let finite (x : Machine.Num) : Prop := ∃ neg n d, x = .fin neg n d ∧ 0 < d
    ((∀ t ∈ ts, finite t.1 ∧ finite t.2) → ∃ val ev, blockValue ts (some sc) = (fp32.read false val, ev) ∧
      fpGives 8 0 false ((ts.map fun t => numVal t.1 * numVal t.2).sum * ((sc.num : ℚ) / sc.den))
        (ts.all fun t => decide (numVal t.1 * numVal t.2 = 0) && (t.1.isNeg != t.2.isNeg)) val ev) ∧
    ((∃ t ∈ ts, (∃ b, t.1 = .nan b) ∨ ∃ b, t.2 = .nan b) → (blockValue ts (some sc)).1 = .nan false) ∧
    (blockValue ts none).1 = .nan false

/-- R58, R42, R46, R47, R52, R53: conversions: among numbers and from D8 the exact value rounded once; to an integer rounded under RM, clipped with INV out of
range, INX where rounded; a NaN or NaD gives 0 and INV; integers wrap, or saturate and count OVF; between the phasor formats a × 256 and its rounded inverse. -/
def Sys2Proof.Claims.ConversionValues : Prop :=
  ∀ (d s rm scale : Nat) (fz sat : Bool) (x : Word),
    let r := convertOne d s rm fz sat scale x
    let lo : Int := if d ≤ 3 then -(2 ^ (tyWidth d - 1) : Nat) else 0
    let hi : Int := if d ≤ 3 then (2 ^ (tyWidth d - 1) : Nat) - 1 else (2 ^ tyWidth d : Nat) - 1
    let num (t : Nat) : Prop := t = 8 ∨ t = 9 ∨ t = 10
    let p := fpIn s fz (x.toNat % (2 * fpSign s))
    let toInt (q : ℚ) : Prop := ∃ z, intRounds rm q z ∧ readInt d r.1 = max lo (min z hi) ∧
      r.2 = if z < lo ∨ hi < z then 1 else if (z : ℚ) = q then 0 else 8
    (num s → num d →
      (fpFinite s p → fpGives d rm fz (fpVal s p) (fpNeg s p) r.1.toNat r.2) ∧
      (fpInf s p → r.1.toNat = (if fpNeg s p then fpSign d else 0) + fpTop d ∧ r.2 = 0) ∧
      (fpNan s p → r.1.toNat = fpQuiet d ∧ fpInv s [p] r.2)) ∧
    (s ≤ 7 → num d → fpGives d rm fz (readInt s x) false r.1.toNat r.2) ∧
    (num s → d ≤ 7 →
      (fpFinite s p → toInt (fpVal s p)) ∧
      (fpInf s p → readInt d r.1 = (if fpNeg s p then lo else hi) ∧ r.2 = 1) ∧ (fpNan s p → r.1 = 0 ∧ r.2 = 1)) ∧
    (s ≤ 7 → d ≤ 7 →
      (sat = false → readInt d r.1 % (2 ^ tyWidth d : Nat) = readInt s x % (2 ^ tyWidth d : Nat) ∧ r.2 = 0) ∧
      (sat = true → readInt d r.1 = max lo (min (readInt s x) hi) ∧ r.2 = if readInt s x < lo ∨ hi < readInt s x then 2 else 0)) ∧
    (s = 11 → (∀ u v, codeVal x.toNat = some u → scaleVal scale = some v →
        (num d → fpGives d rm fz (u * v) false r.1.toNat r.2) ∧ (d ≤ 7 → toInt (u * v))) ∧
      (codeVal x.toNat = none ∨ scaleVal scale = none →
        (num d → r.1.toNat = fpQuiet d ∧ r.2 = 0) ∧ (d ≤ 7 → r.1 = 0 ∧ r.2 = 1))) ∧
    (s = 12 → d = 13 → if bit x 7 then r = (0x8000, 64) else r.1.toNat = x.toNat % 128 * 256 ∧ r.2 = 0) ∧
    (s = 13 → d = 12 → if bit x 15 then r = (0x80, 64) else
      let a : Nat := x.toNat % 2 ^ 15
      ∃ z, intRounds rm ((a : ℚ) / 256) z ∧ (r.1.toNat : Int) = z % 128 ∧ r.2 = if a % 256 = 0 then 0 else 8)

/-- R48, R49, R51, R120: the value of every D8 code and of every scale; a value converts to the code nearest to it under the scale, a tie to even F and then to
the smaller; beyond 10^10 it saturates, below half of 10^-10 it is zero; `v.d8sc` gives the least scale that brings the value to 9.71875 at most. -/
def Sys2Proof.Claims.D8Codes : Prop :=
  (∀ code, code < 256 → match codeVal code with
    | none => d8Value code = none
    | some v => ∃ neg n d, d8Value code = some (neg, n, d) ∧ 0 < d ∧ numVal (.fin neg n d) = v) ∧
  (∀ sc, sc < 1024 → match scaleVal sc with
    | none => scaleValue sc = none
    | some v => ∃ n d, scaleValue sc = some (n, d) ∧ 0 < d ∧ (n : ℚ) / d = v) ∧
  (∀ (x : Machine.Num) (sc : Nat), scaleVal sc = none → (toD8 x sc).1 = 0x80) ∧
  (∀ (sc : Nat) (v : ℚ), scaleVal sc = some v →
    (∀ b, toD8 (.nan b) sc = (0x80, if b then 1 else 0)) ∧ (∀ neg, toD8 (.inf neg) sc = (if neg then 0x81 else 0x01, 40)) ∧
    (∀ (neg : Bool) (n d : Nat), 0 < d →
      let q : ℚ := (n : ℚ) / d / v
      let r := toD8 (.fin neg n d) sc
      let far (b : Nat) : ℚ := |d8Size b - q|
      (10 ^ 10 < q → r = (if neg then 0x81 else 0x01, 40)) ∧
      (q < 1 / 2 / 10 ^ 10 → r = (0, if n = 0 then 0 else 12)) ∧
      (1 / 2 / 10 ^ 10 ≤ q → q ≤ 10 ^ 10 → ∃ b, 1 ≤ b ∧ b < 128 ∧ r.1 = (if neg then 128 else 0) + b ∧
        (r.2 = if d8Size b = q then 0 else 8) ∧
        ∀ y, 1 ≤ y → y < 128 → far b < far y ∨ (far b = far y ∧
          (d8F b % 2 < d8F y % 2 ∨ (d8F b % 2 = d8F y % 2 ∧ d8Size b ≤ d8Size y)))))) ∧
  (∀ (neg : Bool) (n d : Nat), 0 < d →
    let v : ℚ := (n : ℚ) / d
    let r := d8sc (.fin neg n d)
    let holds (c : Nat) : Prop := ∃ u, scaleVal c = some u ∧ v ≤ 311 / 32 * u
    (n = 0 → r = (0, 0)) ∧
    (n ≠ 0 → holds 0x3FE → r.1 ≤ 0x3FE ∧ holds r.1 ∧ (∀ c, c < r.1 → ¬ holds c) ∧ r.2 = 0) ∧
    (n ≠ 0 → ¬ holds 0x3FE → r = (0x3FE, 32)))

/-- R53, R54, R55, R56: phasors: a code with U set is undefined; the product adds angles; the tables' printed entries and symmetries; a reduction is
undefined with no input or a zero sum, its angle is exact along the axes and the diagonals, and its coherence is the nearest fraction. -/
def Sys2Proof.Claims.PhasorValues : Prop :=
  (∀ ty x y, ty = 12 ∨ ty = 13 →
    let n := if ty = 12 then 7 else 15
    (phAngle ty x = if x / 2 ^ n % 2 = 1 then none else some (x % 2 ^ n)) ∧
    phMul ty x y = if x / 2 ^ n % 2 = 1 ∨ y / 2 ^ n % 2 = 1 then none else some ((x % 2 ^ n + y % 2 ^ n) % 2 ^ n)) ∧
  (cosEntry 0 = 131072 ∧ cosEntry 1 = 131072 ∧ sinEntry 1 = 25 ∧ cosEntry 4096 = 92682 ∧ sinEntry 4096 = 92682 ∧ cosEntry 8192 = 0) ∧
  (∀ i, cosEntry (i + 16384) = -cosEntry i ∧ cosEntry (i + 32768) = cosEntry i ∧ (i ≤ 32768 → cosEntry (32768 - i) = cosEntry i) ∧
    sinEntry (i + 8192) = cosEntry i) ∧
  (∀ ty (x y : Int) (N : Nat), ty = 12 ∨ ty = 13 →
    let n := if ty = 12 then 7 else 15
    (phResolve ty x y N = none ↔ N = 0 ∨ (x = 0 ∧ y = 0)) ∧
    ∀ a c, phResolve ty x y N = some (a, c) → a < 2 ^ n ∧
      (∃ m : Nat, c = min 0xFFFF m ∧ ((2 * m - 1 : Nat) * N : Int) ^ 2 ≤ x * x + y * y ∧ x * x + y * y ≤ ((2 * m + 1) * N : Int) ^ 2 ∧
        (x * x + y * y = ((2 * m - 1 : Nat) * N : Int) ^ 2 ∨ x * x + y * y = ((2 * m + 1) * N : Int) ^ 2 → m % 2 = 0)) ∧
      (y = 0 → a = if 0 < x then 0 else 2 ^ n / 2) ∧ (x = 0 → a = if 0 < y then 2 ^ n / 4 else 3 * 2 ^ n / 4) ∧
      (x = y → a = if 0 < x then 2 ^ n / 8 else 5 * 2 ^ n / 8) ∧ (x = -y → a = if 0 < x then 7 * 2 ^ n / 8 else 3 * 2 ^ n / 8)) ∧
  (∀ ty x, phPack ty x = match x with
    | none => if ty = 12 then 0x80 else 0x8000
    | some (a, c) => a + 65536 * c)

/-- R124, R44, R61: the special inputs of the CORDIC words, row by row. -/
def Sys2Proof.Claims.CordicSpecials : Prop :=
  ∀ (ty n : Nat) (fz : Bool) (a0 b0 : BitVec 32), ty = 8 ∨ ty = 9 ∨ ty = 10 →
    let r (fn : CordicFn) := cordic fn ty n fz a0 b0
    let a := fpIn ty fz (a0.toNat % (2 * fpSign ty))
    let b := fpIn ty fz (b0.toNat % (2 * fpSign ty))
    let zero (x : Nat) : Prop := x % fpSign ty = 0
    let one := fpBias ty * fpNormal ty
    let inf := fpTop ty
    let bad := (fpQuiet ty, (1 : Ev))
    let signed (neg : Bool) (m : Nat) : Nat × Ev := ((if neg then fpSign ty else 0) + m, 0)
    (∀ fn, (fpNan ty a ∨ (fpNan ty b ∧ (fn = .atan2 ∨ fn = .div))) → (r fn).1 = fpQuiet ty ∧
      fpInv ty (if fn = .atan2 ∨ fn = .div then [a, b] else [a]) (r fn).2) ∧
    (fpInf ty a → r .sin = bad ∧ r .cos = bad) ∧ (zero a → r .sin = (a, 0) ∧ r .cos = (one, 0)) ∧
    (zero a → r .exp = (one, 0) ∧ r .ln = signed true inf ∧ r .tanh = (a, 0) ∧ r .sigm = ((fpBias ty - 1) * fpNormal ty, 0) ∧
      r .sqrt = (a, 0) ∧ r .rsq = signed (fpNeg ty a) inf) ∧
    (a = inf → r .exp = (inf, 0) ∧ r .ln = (inf, 0) ∧ r .sigm = (one, 0) ∧ r .sqrt = (inf, 0) ∧ r .rsq = (0, 0)) ∧
    (a = fpSign ty + inf → r .exp = (0, 0) ∧ r .sigm = (0, 0)) ∧
    (fpInf ty a → r .tanh = signed (fpNeg ty a) one) ∧ (a = one → r .ln = (0, 0)) ∧
    (fpNeg ty a = true → ¬ zero a → ¬ fpNan ty a → r .ln = bad ∧ r .sqrt = bad ∧ r .rsq = bad) ∧
    (fpFinite ty a → ¬ zero a → zero b → r .div = signed (fpNeg ty a != fpNeg ty b) inf) ∧
    (zero a → zero b → r .div = bad) ∧ (fpInf ty a → fpInf ty b → r .div = bad) ∧
    (fpFinite ty a → fpInf ty b → r .div = signed (fpNeg ty a != fpNeg ty b) 0) ∧
    (zero a → fpFinite ty b → ¬ zero b → fpNeg ty b = false → r .atan2 = (a, 0)) ∧
    (zero a → zero b → fpNeg ty b = false → r .atan2 = (a, 0)) ∧ (fpFinite ty a → b = inf → r .atan2 = signed (fpNeg ty a) 0)

/-- R124, R123: a CORDIC word rounds to the nearest an internal result within the bound of its class from the exact value, and counts INX where no exact result is
possible. A quotient is exact, and a root lies within 2^-640 below the true one; the other functions are held to the model's own
value; where inside the bound the result lies is open (notes/assumptions/10). -/
def Sys2Proof.Claims.CordicBound : Prop :=
  ∀ (fn : CordicFn) (ty n : Nat) (fz : Bool) (a0 b0 : BitVec 32), ty = 8 ∨ ty = 9 ∨ ty = 10 → 4 ≤ n → n ≤ 28 →
    let f := fmtOf ty
    let a := fpIn ty fz (a0.toNat % (2 * fpSign ty))
    let b := fpIn ty fz (b0.toNat % (2 * fpSign ty))
    let r := cordic fn ty n fz a0 b0
    let exact := cordicCase f fn (f.read fz (a0.toNat % 2 ^ f.width)) (f.read fz (b0.toNat % 2 ^ f.width))
    (∀ x, exact = .value x → 0 < x.den →
      let v : ℚ := (x.num : ℚ) / x.den
      let normal : Prop := fpMag ty (fpNormal ty) ≤ |v| ∧ |v| ≤ fpMag ty (fpTop ty - 1)
      ∃ y : ℚ, (fn = .sin ∨ fn = .cos ∨ fn = .atan2 → |y - v| ≤ 2 / 2 ^ n) ∧
        (fn ≠ .sin → fn ≠ .cos → fn ≠ .atan2 → (normal → |y - v| ≤ 4 / 2 ^ n * |v|) ∧ (¬ normal → |y - v| ≤ 4 / 2 ^ n * fpMag ty (fpNormal ty))) ∧
        (∃ ev, fpGives ty 0 fz y false r.1 ev) ∧
        (fn ≠ .sqrt → fn ≠ .rsq → fn ≠ .div → bit r.2 3 = true)) ∧
    (fpFinite ty a → a % fpSign ty ≠ 0 →
      (fn = .div → fpFinite ty b → b % fpSign ty ≠ 0 → ∃ x, exact = .value x ∧ 0 < x.den ∧ (x.num : ℚ) / x.den = fpVal ty a / fpVal ty b) ∧
      (∀ v, (fn = .sqrt ∧ v = fpVal ty a) ∨ (fn = .rsq ∧ v = 1 / fpVal ty a) → 0 < v →
        ∃ x, exact = .value x ∧ 0 < x.den ∧ 0 ≤ x.num ∧ ((x.num : ℚ) / x.den) ^ 2 ≤ v ∧ v < ((x.num : ℚ) / x.den + 1 / 2 ^ 640) ^ 2))

/-- R75, R249, R200, R170, R174: every wide lane word and every pair word waits while an operation that will write lane registers is in the request
table or a register that it names is spilled; one that names a register at or above the allotment traps with VREGRANGE before any other
effect, naming its lanes, with the held lane words in the frame. -/
def Sys2Proof.Claims.LaneWordWaitsAndRange : Prop :=
  ∀ (i : Instr) (s : State) (f : LaneForm),
    ((∃ op10 w, i.wide? = some (op10, w) ∧ op10 < 0x3C0 ∧ f = formOf s op10 w) ∨
      (∃ ce x y, i.pair? = some (ce, x, y) ∧ f = pairForm ce x y s.grp)) →
    (lanesPending s.mach = true → exec i s = .next s.waits) ∧
    (lanesPending s.mach = false → spilledUse f s.grp = true → exec i s = .next s.waits) ∧
    (lanesPending s.mach = false → spilledUse f s.grp = false → (∃ r ∈ f.regs, s.grp.vregs ≤ r) → s.grp.chain = none →
      s.grp.inHandler = false → s.grp.trapv ≠ 0 → ∃ t, exec i s = .next t ∧
        { t.grp with badLatch := s.grp.badLatch } =
          s.grp.trapped 5 0 7 s.grp.pc (BitVec.ofNat 64 s.grp.lpos) f.run false ⟨s.grp.lpos, s.grp.queue⟩ ∧
        t.dev.mem = s.dev.mem ∧ t.dev.teams = s.dev.teams)

/-- R66, R89, R174, R176: when the action of a class traps, the results of a lane word stand, and the trap names the word with SKIP, so that a
return goes on after it. -/
def Sys2Proof.Claims.NumericalTraps : Prop :=
  ∀ (i : Instr) (s : State) (r : LaneRule) (cls : Nat), laneRule i = some r →
    let f := formOf s r.op10 r.w
    let g := s.grp
    let out (l : Nat) : LaneOut := r.out g g.view l
    let n (c : Nat) : Nat := lanesWith f.run fun l => bit (out l).ev c
    let fires (c : Nat) : Prop := n c ≠ 0 ∧ (countClass s.dev g.ctx c (n c)).2 = true
    lanesPending s.mach = false → spilledUse f g = false → (∀ k ∈ f.regs, k < g.vregs) → g.chain = none →
    r.w.le = false ∨ 0x180 ≤ r.op10 → g.inHandler = false → g.trapv ≠ 0 → cls < 7 → fires cls → (∀ c, c < cls → ¬ fires c) →
    ∃ t, exec i s = .next t ∧
      lanesAfter g.lanes t.grp.lanes (runMask g g.view r.w.ms.toNat) r.writes f.frees (fun k l => r.half k (out l)) ∧
      t.grp.code = (if g.emuFrame.isSome then 2 else 9) ∧ t.grp.nevc = BitVec.ofNat 3 cls ∧ t.grp.skip = true ∧
      t.grp.tspc = g.pc ∧ t.grp.tlpc = BitVec.ofNat 64 g.lpos ∧ t.grp.pc = g.trapv ∧ t.grp.inHandler = true ∧
      t.grp.trapFrame = some ⟨g.lpos, g.queue⟩ ∧ counted s t n ∧
      ∀ l, l < g.width → bit t.grp.fmask l = (bit f.run l && bit (out l).ev cls)

/-- R86, R87, R88, R26: a word with LE opens a chain and its effects are held: no register, mask or count changes, and its latch takes
the results; in the word that closes it (CE = 1) every held effect takes place, with its own, and the latches are gone. -/
def Sys2Proof.Claims.LaneChains : Prop :=
  ∀ (i : Instr) (s : State) (r : LaneRule), laneRule i = some r → r.op10 < 0x180 →
    let f := formOf s r.op10 r.w
    let g := s.grp
    laneReady s f → lastOfBlock g = false →
    (g.chain = none → r.w.le = true → r.w.ce = false →
      let g1 := { g with chain := some (freshChain g) }
      ∃ t c, exec i s = .next t ∧ { t.grp with chain := none, lpos := g.lpos, badLatch := g.badLatch } = g ∧ t.grp.lpos = g.lpos + 1 ∧ t.grp.chain = some c ∧
        c.first = g.lpos ∧ c.words = 1 ∧ (t.dev.ctx g.ctx).nev = (s.dev.ctx g.ctx).nev ∧ t.dev.mem = s.dev.mem ∧
        lanesAfter g.lanes c.held f.run r.writes f.frees (fun k l => r.half k (r.out g1 g.view l)) ∧
        (∀ l, l < 64 → bit f.run l = true → c.lat.getD (64 * r.w.lt.toNat + l) 0 =
          if tyWidth r.dty = 64 then (r.out g1 g.view l).val else (r.out g1 g.view l).val &&& 0xFFFFFFFF)) ∧
    (∀ c, g.chain = some c → c.words < 7 → r.w.ce = true →
      ∃ t, exec i s = .next t ∧ t.grp.chain = none ∧ laneNext g t.grp ∧
        lanesAfter c.held t.grp.lanes f.run r.writes f.frees (fun k l => r.half k (r.out g g.view l)) ∧
        t.grp.s = g.s ∧ t.grp.m = g.m ∧ t.dev.mem = s.dev.mem ∧
        (∀ l, l < 64 → bit t.grp.dzmask l = (bit g.dzmask l || bit c.dz l || (bit f.run l && (r.out g g.view l).dz))))

/-- R87, R88, R30, R31: how a chain goes on and ends. A middle word leaves it open with its effects added to those held; without CE the eighth
word (CHAINLONG) and the last of a block (CHAINBLOCK) close it as CE does; a word that is not chain-eligible cuts it (CHAINCUT): the held effects
take place, and the word then runs alone. -/
def Sys2Proof.Claims.ChainEnds : Prop :=
  ∀ (i : Instr) (s : State) (r : LaneRule) (c : Chain), laneRule i = some r →
    let f := formOf s r.op10 r.w
    let g := s.grp
    let met (open_ : Bool) : List Nat := wideWarns r.op10 r.w ((laneInfo r.op10 r.w).getD {}) open_
    laneReady s f → g.chain = some c →
    (r.op10 < 0x180 → r.w.ce = false → c.words < 7 → lastOfBlock g = false →
      ∃ t c', exec i s = .next t ∧ { t.grp with chain := g.chain, lpos := g.lpos, badLatch := g.badLatch } = g ∧ t.grp.lpos = g.lpos + 1 ∧
        t.grp.chain = some c' ∧ c'.words = c.words + 1 ∧ c'.first = c.first ∧ (t.dev.ctx g.ctx).nev = (s.dev.ctx g.ctx).nev ∧
        t.dev.mem = s.dev.mem ∧ warned s t (met true) ∧
        lanesAfter c.held c'.held f.run r.writes f.frees (fun k l => r.half k (r.out g g.view l))) ∧
    (r.op10 < 0x180 → r.w.ce = false → (7 ≤ c.words ∨ lastOfBlock g = true) →
      ∃ t, exec i s = .next t ∧ t.grp.chain = none ∧ laneNext g t.grp ∧ t.grp.s = g.s ∧ t.grp.m = g.m ∧ t.dev.mem = s.dev.mem ∧
        lanesAfter c.held t.grp.lanes f.run r.writes f.frees (fun k l => r.half k (r.out g g.view l)) ∧
        warned s t (met true ++ (if 7 ≤ c.words then [8] else []) ++ (if lastOfBlock g then [9] else []))) ∧
    (0x180 ≤ r.op10 →
      let mid : Group := { g with lanes := c.held, chain := none }
      ∃ t, exec i s = .next t ∧ t.grp.chain = none ∧ laneNext g t.grp ∧ t.grp.s = g.s ∧ t.grp.m = g.m ∧ t.dev.mem = s.dev.mem ∧
        lanesAfter c.held t.grp.lanes f.run r.writes f.frees (fun k l => r.half k (r.out mid g.view l)) ∧
        (∀ l, l < 64 → bit t.grp.dzmask l = (bit g.dzmask l || bit c.dz l || (bit f.run l && (r.out mid g.view l).dz))) ∧
        warned s t (6 :: met false))

/-- R25, R24, R22, R23, R62: a pair word: both slots read before either writes, under `m0`; a pair that breaks R24 runs X and then Y; `v.nop` does
nothing; a class counts once in each lane in which it arose. That a wide word with the OP10 of `v.nop` is one is the model's
reading (notes/assumptions/13). -/
def Sys2Proof.Claims.PairWords : Prop :=
  ∀ (i : Instr) (s : State) (ce : Bool) (x y : Slot), i.pair? = some (ce, x, y) →
    let f := pairForm ce x y s.grp
    let g := s.grp
    laneReady s f → g.chain = none →
    let mid (l : LaneFile) : Group := { g with lanes := l }
    ∃ t h, exec i s = .next t ∧ laneNext g t.grp ∧ lanesOnly g t.grp ∧
      lanesAfter g.lanes h g.m0 (slotWrites x) [] (fun _ l => ⟨(slotOut g x l).val &&& 0xFFFFFFFF, (slotOut g x l).psn⟩) ∧
      (let gy := if pairKeeps x y then g else mid h
       lanesAfter h t.grp.lanes g.m0 (slotWrites y) f.frees
          (fun _ l => ⟨(slotOut gy y l).val &&& 0xFFFFFFFF, (slotOut gy y l).psn⟩) ∧
       counted s t (fun c => lanesWith g.m0 fun l => bit (slotOut g x l).ev c || bit (slotOut gy y l).ev c)) ∧
      warned s t (pairWarns ce x y false) ∧ t.grp.dzmask = g.dzmask ∧ t.grp.domask = g.domask ∧ t.dev.mem = s.dev.mem ∧
      (∀ w, laneReady s (formOf s 0x07F w) → w.le = false → ∃ u, exec (.vNop (.wide w)) s = .next u ∧ laneNext g u.grp ∧
        lanesOnly g u.grp ∧ u.grp.lanes = g.lanes ∧ u.dev.mem = s.dev.mem)

/-! ### The matrix engine -/

/-- R238, R237, R103: `mx.ldb` waits for the lanes, then judges its checks in order; an accepted load claims its units, raises the counter and
stands in the loader with the values of its operands; a length of 0 claims nothing and is complete at once. -/
def Sys2Proof.Claims.OperandLoads : Prop :=
  ∀ (s : State) (o l : SReg) (a : CReg),
    let c := s.grp.rc a.toNat
    let off := (s.grp.rs o.toNat).toNat
    let n := (s.grp.rs l.toNat).toNat
    let i : Instr := .mxLdb o a l
    let check := capCheck8 c (engineParty s.dev s.grp.colour s.grp.part s.grp.team true) needOperand (c.colour = s.grp.colour) c.cursor n
    let units := blocksOf 1024 off n
    let traps (cause : Nat) : Prop := trapsNow s.grp → exec i s = .next { s with grp := s.grp.scalarTrapped cause }
    (s.grp.queue ≠ [] ∨ 1023 ≤ s.grp.count .mx → exec i s = .next s.waits) ∧
    (s.grp.count .mx < 1023 →
      (∀ cause, check = some cause → traps cause) ∧
      (check = none → off % 16 ≠ 0 ∨ n % 16 ≠ 0 ∨ 786432 < off + n → traps 43) ∧
      (check = none → off % 16 = 0 → n % 16 = 0 → off + n ≤ 786432 →
        (¬ mayClaim s.cluster.unitOwner s.grp.team units → traps 44) ∧
        (mayClaim s.cluster.unitOwner s.grp.team units → s.grp.queue = [] → s.grp.dual = false → s.grp.shadow = false →
          (n ≠ 0 → ∃ t op, exec i s = .next t ∧ t.cluster.loads = s.cluster.loads ++ [op] ∧ op.gid = s.grp.gid ∧ op.src = c ∧ op.off = off ∧
            op.len = n ∧ issuedOn .mx s.grp t.grp ∧ claimedBy t.cluster.unitOwner s.grp.team units ∧ t.dev.mem = s.dev.mem) ∧
          (n = 0 → s.grp.live = true → s.grp.flights = [] → ∃ t, exec i s = .next t ∧ t.grp.count .mx = 0 ∧
            t.grp.pc = s.grp.pc + 4 ∧ t.dev.clusters = s.dev.clusters))))

/-- R239, R237: `mx.res` waits for the lanes, then judges MXWIDTH, MXRANGE, MXSLOT, MXOVLP and MXFULL in order, stalls while the cluster's 32
records are in use, and then claims the region's units and slots, fills the lowest free number and writes it to `s`D. -/
def Sys2Proof.Claims.Reservations : Prop :=
  ∀ (s : State) (d a b : SReg) (f : MxFmt),
    let i : Instr := .mxRes d a b f
    let off := (s.grp.rs a.toNat).toNat
    let slot := (s.grp.rs b.toNat).toNat % 32
    let steps := (s.grp.rs b.toNat).toNat / 256 % 256 + 1
    let tiles := s.grp.width / 32
    let r : MxRec := ⟨f, slot, steps - 1, decide (s.grp.width = 64), off⟩
    let wide := f = .f16 ∨ f = .b16 ∨ f = .p16
    let bb := if wide then 3072 else 1536
    let last := if f = .d8 then off + (steps * 1536 + 1023) / 1024 * 1024 + 128 * steps + 128 * steps * tiles else off + steps * bb
    let held := if f = .p8 ∨ f = .p16 then 4 * tiles else tiles
    let units := blocksOf 1024 off (last - off)
    let slots := (List.range held).map (slot + ·)
    let traps (cause : Nat) : Prop := trapsNow s.grp → exec i s = .next { s with grp := s.grp.scalarTrapped cause }
    let free := mayClaim s.cluster.unitOwner s.grp.team units ∧ mayClaim s.cluster.slotOwner s.grp.team slots
    (s.grp.queue ≠ [] → exec i s = .next s.waits) ∧ (s.grp.width = 16 → traps 40) ∧
    (s.grp.width = 32 ∨ s.grp.width = 64 →
      (off % 128 ≠ 0 ∨ 786432 < last → traps 43) ∧
      (off % 128 = 0 → last ≤ 786432 →
        (slot % held ≠ 0 ∨ 32 < slot + held → traps 45) ∧
        (slot % held = 0 → slot + held ≤ 32 →
          (¬ free → traps 44) ∧ (free → 32 ≤ s.recs.length → traps 46) ∧
          (free → s.recs.length < 32 → s.grp.queue = [] →
            (32 ≤ recordsUsed s.dev (clusterKey s.grp.die s.grp.core) → exec i s = .next s.waits) ∧
            (∀ k, recordsUsed s.dev (clusterKey s.grp.die s.grp.core) < 32 → k < 32 → s.recs.find? k = none →
              (∀ j, j < k → (s.recs.find? j).isSome = true) → ∃ t, exec i s = .next t ∧ t.grp = s.grp.result d (BitVec.ofNat 64 k) ∧
                (∀ j, t.recs.find? j = if j = k then some r else s.recs.find? j) ∧ t.dev.mem = s.dev.mem ∧
                claimedBy t.cluster.unitOwner s.grp.team units ∧ claimedBy t.cluster.slotOwner s.grp.team slots)))))

/-- R240, R241, R250: `mx.rinfo` reads the fields of a live record, and 0 for a free number; `mx.free` frees a number and leaves the claims; `mx.azero`
traps with MXRES on a free number, stalls while the table is full, and otherwise enters it. Each waits for the lanes first. -/
def Sys2Proof.Claims.ReservationWords : Prop :=
  ∀ (s : State) (d a : SReg),
    let k := (s.grp.rs a.toNat).toNat % 32
    (s.grp.queue ≠ [] → exec (.mxRinfo d a) s = .next s.waits ∧ exec (.mxFree a) s = .next s.waits ∧ exec (.mxAzero a) s = .next s.waits) ∧
    (s.grp.queue = [] →
      (s.recs.find? k = none → exec (.mxRinfo d a) s = .next { s with grp := s.grp.result d 0 }) ∧
      (∀ r, s.recs.find? k = some r → r.slot < 32 → r.pm1 < 256 → r.off % 128 = 0 → recEnd r ≤ 786432 →
        ∃ v : Word, exec (.mxRinfo d a) s = .next { s with grp := s.grp.result d v } ∧ bit v 63 = true ∧
          (v.extractLsb' 60 3).toNat = mxCode r.fmt ∧ (v.extractLsb' 54 6).toNat = mxBlock r.fmt ∧ (v.extractLsb' 49 5).toNat = r.slot ∧
          (v.extractLsb' 41 8).toNat = r.pm1 ∧ bit v 40 = r.two ∧ (v.extractLsb' 26 13).toNat = r.off / 128 ∧
          (v.extractLsb' 13 13).toNat = (if r.fmt = .d8 then recSbo r / 128 else 0) ∧
          (v.extractLsb' 0 13).toNat = if r.fmt = .d8 then recSao r / 128 else 0) ∧
      (∃ t, exec (.mxFree a) s = .next t ∧ t.grp = { s.grp with pc := s.grp.pc + 4 } ∧ t.dev.clusters = s.dev.clusters ∧
        t.dev.mem = s.dev.mem ∧ ∀ j, t.recs.find? j = if j = k then none else s.recs.find? j) ∧
      (s.recs.find? k = none → trapsNow s.grp → exec (.mxAzero a) s = .next { s with grp := s.grp.scalarTrapped 41 }) ∧
      (∀ r, s.recs.find? k = some r →
        (32 ≤ s.cluster.table.length ∨ 1023 ≤ s.grp.count .mx → exec (.mxAzero a) s = .next s.waits) ∧
        (s.cluster.table.length < 32 → s.grp.count .mx < 1023 → s.grp.dual = false → s.grp.shadow = false →
          ∃ t, exec (.mxAzero a) s = .next t ∧ entered s t r .zero ∧ t.grp.pc = s.grp.pc + 4 ∧ keptByIssue s.grp t.grp)))

/-- R243, R244, R245, R249, R42: `mx.mma`, `mx.rd`, `mx.wr` and `mx.resolve`: the checks in order with the lanes they name, the wait for a free entry,
and the entry with what it captured at issue: the pass's step and A (from the latch if it is full), the column, the count and the running
lanes of a slot word. The latch is filled under `.keep` and emptied otherwise. -/
def Sys2Proof.Claims.MatrixLaneWords : Prop :=
  ∀ (s : State) (w : Wide),
    let g := s.grp
    let run := runMask g g.view w.ms.toNat
    let n := mxSel g g.view w run
    let step := n / 256 % 256
    let rec_ := s.recs.find? (n % 32)
    let c := w.imm.toNat / 256 % 32
    let m := w.imm.toNat / 2 ^ 13 % 32 + 1
    let fmt := mxFmtOf w.ty
    let traps (i : Instr) (cause : Nat) (lanes : Word) : Prop :=
      laneTraps g → ∃ t, exec i s = .next t ∧ t.grp = g.laneTrapped cause lanes ∧ t.dev.mem = s.dev.mem ∧ t.dev.clusters = s.dev.clusters
    let idle := g.present &&& ~~~run
    let passOk (r : MxRec) : Prop := r.fmt = fmt ∧ r.two = decide (g.width = 64) ∧ (s.dev.pkg.stage = 2 → fmt = .f16) ∧
      (∀ x, g.mxLatch = some x → x.1 = fmt)
    let a := match g.mxLatch with
      | some x => x.2
      | none => readRun g g.view w (mxRun w.ty)
    let goes (op10 : Nat) (i : Instr) (r : MxRec) (kind : MxKind) (latch : Option (MxFmt × Tab Lane32 × Tab Bool)) : Prop :=
      (32 ≤ s.cluster.table.length ∨ 1023 ≤ g.count .mx → exec i s = .next s.waits) ∧
      (s.cluster.table.length < 32 → g.count .mx < 1023 → g.dual = false → g.shadow = false → ∃ t, exec i s = .next t ∧
        entered s t r kind ∧ laneNext g t.grp ∧ t.grp.mxLatch = latch ∧ t.grp.s = g.s ∧ t.dev.mem = s.dev.mem ∧
        lanesAfter g.lanes t.grp.lanes run [] (formOf s op10 w).frees (fun _ _ => ⟨0, false⟩))
    let slotWord (op10 : Nat) (i : Instr) (phasor : Bool) (kind : MxKind) : Prop := aloneReady s op10 w →
      (g.width = 16 → traps i 40 run) ∧ (g.width ≠ 16 → rec_ = none → traps i 41 run) ∧
      (∀ r, g.width ≠ 16 → rec_ = some r →
        let ok := mxPhasor r.fmt = phasor ∧ r.two = decide (g.width = 64)
        (¬ ok → traps i 42 run) ∧ (ok → 32 < c + m → traps i 43 run) ∧ (ok → c + m ≤ 32 → goes op10 i r kind g.mxLatch))
    (aloneReady s 0x340 w →
      (g.width = 16 → traps (.mxMma w) 40 run) ∧
      (g.width ≠ 16 → idle ≠ 0 → traps (.mxMma w) 32 idle) ∧
      (g.width ≠ 16 → idle = 0 → rec_ = none → traps (.mxMma w) 41 run) ∧
      (∀ r, g.width ≠ 16 → idle = 0 → rec_ = some r →
        (¬ passOk r → traps (.mxMma w) 42 run) ∧ (passOk r → r.pm1 < step → traps (.mxMma w) 43 run) ∧
        (passOk r → step ≤ r.pm1 →
          goes 0x340 (.mxMma w) r (.pass fmt step a.1 a.2) (if w.aux2 % 2 = 1 then some (fmt, a.1, a.2) else none)))) ∧
    slotWord 0x341 (.mxRd w) false (.read w.dst.toNat c m run) ∧
    slotWord 0x342 (.mxWr w) false (.write c m run (readRun g g.view w m).1) ∧
    slotWord 0x343 (.mxResolve w) true (.resolve w.ty w.dst.toNat c m run)

/-- R251, R252, R254: a grant goes to the oldest raised eligible entry, else to one of the highest priority, the oldest of these; the others that
are eligible count it; an entry is eligible when no older entry names a common slot and its loads are over. -/
def Sys2Proof.Claims.ArbiterChoice : Prop :=
  ∀ (s : State) (cl : Nat), let table := (s.dev.cluster cl).table
    (table.map (·.id)).Nodup →
    let eligible (e : MxEntry) : Prop := e ∈ table ∧ e.running = false ∧ e.loads = [] ∧
      ∀ o ∈ table.takeWhile fun o => o.id ≠ e.id, ∀ k ∈ recSlots o.rc, k ∉ recSlots e.rc
    let before (a b : MxEntry) : Prop := a ∈ table.takeWhile fun o => o.id ≠ b.id
    ((∀ e, ¬ eligible e) → exec (.arbiterGrant cl) s = .next s) ∧
    (∀ e, eligible e →
      ((32 ≤ e.passed ∧ ∀ o, eligible o → 32 ≤ o.passed → o = e ∨ before e o) ∨
        ((∀ o, eligible o → o.passed < 32) ∧ ∀ o, eligible o → o.prio < e.prio ∨ (o.prio = e.prio ∧ (o = e ∨ before e o)))) →
      ∃ t, exec (.arbiterGrant cl) s = .next t ∧ (t.dev.cluster cl).table.map (·.id) = table.map (·.id) ∧
        ∀ o ∈ (t.dev.cluster cl).table, (o.running = true ↔ o.id = e.id ∨ ∃ x ∈ table, x.id = o.id ∧ x.running = true) ∧
          (o.id ≠ e.id → ∀ x, eligible x → x.id = o.id → o.passed = x.passed + 1))

/-- R246, R247, R248, R249, R250, R251, R56, R121: what the grant of the only entry of a table does: `mx.azero` zeroes its slots and clears their errors; a
pass gives every element of every tile the sum of its blocks, or the poison pattern in a `prc` group; a phasor pass adds the unit vectors of its products,
each addition saturating, to every element, but poisons one that poison touches or whose storage holds an error, and leaves a poisoned one so; `mx.wr`
stores its captured values; no pass or write changes another word; `mx.rd` and `mx.resolve` write the running lanes of their registers, and consume poison
outside a `prc` group. When it has run, the entry leaves and the counter falls. -/
def Sys2Proof.Claims.MatrixGrants : Prop :=
  ∀ (s : State) (cl : Nat) (e : MxEntry), (s.dev.cluster cl).table = [e] → e.loads = [] → noEventTrap s → e.ctx = s.grp.ctx → e.gid = s.grp.gid →
    s.grp.live = true → s.grp.dual = false →
    let x := s.dev.cluster cl
    let word (y : Cluster) (k : Nat) : Nat := y.accWord k
    let T := if e.rc.two then 2 else 1
    (e.running = false → ∃ t, exec (.arbiterGrant cl) s = .next t ∧ t.dev.mem = s.dev.mem ∧ t.grp.s = s.grp.s ∧
      (let y := t.dev.cluster cl
       (e.kind = .zero → e.rc.slot + recHeld e.rc ≤ 32 → ∀ k, k < 32768 →
          word y k = if e.rc.slot ≤ k / 1024 ∧ k / 1024 < e.rc.slot + recHeld e.rc then 0 else word x k) ∧
       (∀ fmt p a psn, e.kind = .pass fmt p a psn → mxPhasor fmt = false → mxPhasor e.rc.fmt = false →
          (∀ tt m n, tt < T → m < 32 → n < 32 →
            let k := 1024 * (e.rc.slot + tt) + 32 * m + n
            let old := readAcc x e.prc k
            word y k % 2 ^ 32 = (if e.prc && (rowPoison x e p a psn tt m || colPoison x e.rc p n || old.1 == 0x7FD00000) then 0x7FD00000
              else (passElement x e.rc p a tt m n old.1).1) % 2 ^ 32) ∧
          (∀ k, k / 1024 < e.rc.slot ∨ e.rc.slot + T ≤ k / 1024 → word y k = word x k)) ∧
       (∀ fmt p a psn, e.kind = .pass fmt p a psn → mxPhasor fmt = true → mxPhasor e.rc.fmt = true →
          (∀ tt m n, tt < T → m < 32 → n < 32 →
            let k := 1024 * e.rc.slot + 4096 * tt + 4 * (32 * m + n)
            let old := x.phRead k
            let new := y.phRead k
            let ty := mxTy e.rc.fmt
            let codes := (List.range 48).filterMap fun j => phMul ty (elemA e.rc.fmt a (32 * tt + m) j) (elemB x e.rc p j n)
            let cut (v : Int) : Int := max (-(2 ^ 47 - 1)) (min v (2 ^ 47 - 1))
            let sum (entry : Nat → Int) (v : Int) : Int := codes.foldl (fun v c => cut (v + entry (phIndex ty c))) v
            if old.n = 2 ^ 32 - 1 then new = old
            else if (rowPoison x e p a psn tt m || colPoison x e.rc p n) = true then new = { old with n := 2 ^ 32 - 1 }
            else new = ⟨sum cosEntry old.x, sum sinEntry old.y, min (old.n + codes.length) (2 ^ 32 - 2)⟩) ∧
          (∀ k, k / 1024 < e.rc.slot ∨ e.rc.slot + 4 * T ≤ k / 1024 → word y k = word x k)) ∧
       (∀ c m run vals, e.kind = .write c m run vals → c + m ≤ 32 →
          let at_ (l j : Nat) : Nat := 1024 * (e.rc.slot + l / 32) + 32 * (l % 32) + c + j
          (∀ l j, l < 64 → j < m → bit run l = true → word y (at_ l j) = (vals.getD (4096 * l + j) 0).toNat) ∧
          ∀ k, (∀ l j, l < 64 → j < m → bit run l = true → k ≠ at_ l j) → word y k = word x k) ∧
       (∀ dst c m run, e.kind = .read dst c m run → c + m ≤ 32 →
          let got (l j : Nat) : Nat × Bool := readAcc x e.prc (1024 * (e.rc.slot + l / 32) + 32 * (l % 32) + c + j)
          y.acc = x.acc ∧
          (∀ l k, l < 64 → t.grp.lanes.get k l = if bit run l = true ∧ dst ≤ k ∧ k < dst + m
            then ⟨BitVec.ofNat 64 ((got l (k - dst)).1 % 2 ^ 32), false⟩ else s.grp.lanes.get k l) ∧
          ((∃ l j, l < 64 ∧ bit run l = true ∧ j < m ∧ (got l j).2 = true) → (t.dev.ctx e.ctx).psn = true)) ∧
       (∀ ty dst c m run, e.kind = .resolve ty dst c m run → c + m ≤ 32 →
          let got (l j : Nat) : PhAcc := x.phRead (1024 * e.rc.slot + 4096 * (l / 32) + 4 * (32 * (l % 32) + c + j))
          let value (v : PhAcc) : Opnd := if v.n = 2 ^ 32 - 1 then ⟨if e.prc then 0 else BitVec.ofNat 64 (phUndef ty), e.prc⟩
            else ⟨BitVec.ofNat 64 (phPack ty (phResolve ty v.x v.y v.n)), false⟩
          y.acc = x.acc ∧
          (∀ l k, l < 64 → t.grp.lanes.get k l = if bit run l = true ∧ dst ≤ k ∧ k < dst + m then value (got l (k - dst))
            else s.grp.lanes.get k l) ∧
          (e.prc = false → (∃ l j, l < 64 ∧ bit run l = true ∧ j < m ∧ (got l j).n = 2 ^ 32 - 1) → (t.dev.ctx e.ctx).psn = true)))) ∧
    (e.running = true → firstOn s.grp .mx e.flight → ∃ t, exec (.mxEntryComplete cl e.id) s = .next t ∧ (t.dev.cluster cl).table = [] ∧
      counterFalls s t e.gid .mx ∧ t.dev.mem = s.dev.mem) ∧
    (e.running = false → exec (.mxEntryComplete cl e.id) s = .next s)

/-- R238, R253, R254, R66: an operand load moves its bytes into the operand buffer, zero where the source is poisoned, with the buffer's sector marked;
it leaves the loader, the entries that waited for it go on, and its counter may fall; a refused source holds MXSRC. Memory holds no
storage error that the load would meet (R335). -/
def Sys2Proof.Claims.OperandLoadCompletes : Prop :=
  ∀ (s : State) (cl : Nat) (o : LoadOp) (rest : List LoadOp), (s.dev.cluster cl).loads = o :: rest → (∀ y ∈ rest, y.id ≠ o.id) →
    (∀ e ∈ (s.dev.cluster cl).table, e.gid ≠ o.gid ∨ o.id ≤ e.id) → o.src.kind = 0 → leaves s.dev o.src.cursor = false →
    (s.mach.group? o.gid).isSome = true →
    let p := engineParty s.dev o.colour o.part o.team true
    let sa := localAddr s.dev o.src.cursor
    let x := s.dev.cluster cl
    (reach s.regs s.dev p false o.src o.src.cursor o.len = .all → s.dev.errors = [] → ∃ t, exec (.mxLdbComplete cl o.id) s = .next t ∧
      (let y := t.dev.cluster cl
       y.loads = rest ∧ y.table = (x.table.map fun e => { e with loads := e.loads.filter (· ≠ o.id) }) ∧ t.dev.mem = s.dev.mem ∧
       (∀ b, y.obuf.byte b = if o.off ≤ b ∧ b < o.off + o.len
          then (if s.dev.mem.poisoned ((sa + (b - o.off)) / 32) then 0 else s.memByte (sa + (b - o.off))) else x.obuf.byte b) ∧
       (∀ k, k < o.len → s.dev.mem.poisoned ((sa + k) / 32) = true → y.obuf.poisoned ((o.off + k) / 32) = true)) ∧
      (∀ g, s.mach.group? o.gid = some g → firstOn g .mx o.flight → counterFalls s t o.gid .mx)) ∧
    (reach s.regs s.dev p false o.src o.src.cursor o.len = .refused 0 → ∃ t, exec (.mxLdbComplete cl o.id) s = .next t ∧
      (t.dev.cluster cl).loads = rest ∧ (t.dev.cluster cl).obuf = x.obuf ∧ trapHeld s t o.gid .mx o.flight 47)

/-! ### Lane memory -/

/-- R154, R153: a lane word that accesses memory checks every running lane before any access: where some fail, the word traps with the
cause that stands first among them, `%fmask` names the failing lanes, and nothing is stored or written. -/
def Sys2Proof.Claims.LaneAccessTraps : Prop :=
  ∀ (i : Instr) (s : State) (op10 : Nat) (w : Wide) (sc : Bool) (need : Need) (n cause lane : Nat),
    laneAccessForm i = some (op10, w, sc, need, n) → aloneReady s op10 w → laneTraps s.grp →
    let run := runMask s.grp s.grp.view w.ms.toNat
    let check (l : Nat) : Checked := laneCheck s need n (laneAt s w sc l)
    lane < 64 → bit run lane = true → check lane = .fail cause →
    (∀ l c, l < 64 → bit run l = true → check l = .fail c → causeRank cause ≤ causeRank c) →
    ∃ t mask, exec i s = .next t ∧ t.grp = s.grp.laneTrapped cause mask ∧ t.dev.mem = s.dev.mem ∧ t.dev.teams = s.dev.teams ∧
      ∀ l, l < 64 → (bit mask l = true ↔ bit run l = true ∧ ∃ c, check l = .fail c)

/-- R165, R166, R181, R182, R102: a lane load whose lanes pass writes in each running lane what stands at its address, extended by its type; poison
gives the poison pattern or zero with the side bit, and outside `prc` a consumption with PSRC 0. `v.cld` writes quads, tagged only with LDC,
through the sweep filter. Memory is as before, and `ld` rises. -/
def Sys2Proof.Claims.LaneLoads : Prop :=
  ∀ (i : Instr) (s : State) (op10 : Nat) (w : Wide) (sc : Bool) (n : Nat), laneAccessForm i = some (op10, w, sc, needLoad, n) →
    let g := s.grp
    let run := runMask g g.view w.ms.toNat
    let e (l : Nat) : LaneAt := laneAt s w sc l
    let got (l : Nat) : Fetched := standing s n (e l)
    let poisons := ∃ l, l < 64 ∧ bit run l = true ∧ (got l).poison = true
    aloneReady s op10 w → lanesPass s needLoad n run e → (∀ l, l < 64 → bit run l = true → nearby s n (e l)) → g.dual = false →
    g.count .ld < 1023 → lanesRoom g run e →
    let out (l : Nat) : LaneOut := if (got l).poison then
        (if tyIsFp w.ty then { val := BitVec.ofNat 64 (fmtOf w.ty).poisonBits } else { val := 0, psn := g.prc })
      else { val := placeTy w.ty (leNat (got l).bytes) }
    let rule : LaneRule := ⟨op10, w, w.ty, fun _ _ l => out l⟩
    ∃ t, exec i s = .next t ∧ laneNext g t.grp ∧ keptByLanes g t.grp ∧ memoryKept s.dev t.dev ∧ t.grp.count .ld = g.count .ld + 1 ∧
      (op10 ≠ 0x284 → lanesAfter g.lanes t.grp.lanes run rule.writes (formOf s op10 w).frees (fun k l => rule.half k (out l))) ∧
      (op10 = 0x284 → quadsAfter g.lanes t.grp.lanes run w.ws (w.dst.toNat / 4) (formOf s op10 w).frees (fun l =>
        if (got l).poison then ({}, g.prc)
        else (sweepFilter s.dev g.part ⟨BitVec.ofNat 128 (leNat (got l).bytes), (got l).tag && decide ((e l).cap.perms &&& 4 = 4)⟩, false))) ∧
      (poisons → g.prc = false → (t.dev.ctx g.ctx).psn = true ∧ ((s.dev.ctx g.ctx).psn = false → (t.dev.ctx g.ctx).psrc = 0)) ∧
      (¬ poisons ∨ g.prc = true → (t.dev.ctx g.ctx).psn = (s.dev.ctx g.ctx).psn)

/-- R165, R166, R149, R180, R182, R283: a lane store whose lanes pass writes each running lane's bytes, lanes in ascending order, to memory or to the
scratchpad, and no other byte changes; `v.st` and `v.sst` clear the tags of the granules, `v.cst` stores the tag through the sweep filter; `st`
rises and no lane register changes but by last use. -/
def Sys2Proof.Claims.LaneStores : Prop :=
  ∀ (i : Instr) (s : State) (op10 : Nat) (w : Wide) (sc : Bool) (need : Need) (n : Nat) (x : Nat → Nat),
    laneAccessForm i = some (op10, w, sc, need, n) → op10 = 0x281 ∨ op10 = 0x283 ∨ op10 = 0x285 →
    let g := s.grp
    let run := runMask g g.view w.ms.toNat
    let e (l : Nat) : LaneAt := laneAt s w sc l
    let cap (l : Nat) : Cap := sweepFilter s.dev g.part (quadCap g (w.dst.toNat / 4) l)
    let v (l : Nat) : Nat := if op10 = 0x285 then (cap l).bits.toNat else (readSel g g.view w.imm w.ty w.sb l).val.toNat
    let tags (old new : Nat → Bool) : Prop :=
      (∀ k, (∀ l, l < 64 → bit run l = true → x l / 16 ≠ k) → new k = old k) ∧
      ∀ l, l < 64 → bit run l = true → (∀ j, l < j → j < 64 → bit run j = true → x j / 16 ≠ x l / 16) →
        new (x l / 16) = (decide (op10 = 0x285) && (cap l).tag)
    aloneReady s op10 w → lanesPass s need n run e → g.dual = false → g.count .st < 1023 → lanesRoom g run e →
    ((∀ l, l < 64 → bit run l = true → placeOf s.dev (e l).cap (e l).addr = .local_ (x l) ∧ s.dev.syncs.getD (x l / 64) false = false) →
      hostHoldsNothing s → ∃ t, exec i s = .next t ∧ laneNext g t.grp ∧ keptByLanes g t.grp ∧ t.dev.teams = s.dev.teams ∧
        t.grp.count .st = g.count .st + 1 ∧ laneStored s.memByte t.memByte run n x v ∧ t.grp.priv = g.priv ∧
        tags s.dev.mem.tag t.dev.mem.tag ∧ lanesAfter g.lanes t.grp.lanes run [] (formOf s op10 w).frees (fun _ _ => ⟨0, false⟩)) ∧
    ((∀ l, l < 64 → bit run l = true → placeOf s.dev (e l).cap (e l).addr = .scratch (x l) ∧
        (s.dev.team g.team).metScratch (x l) n = false) →
      ∃ t, exec i s = .next t ∧ laneNext g t.grp ∧ keptByLanes g t.grp ∧ t.dev.mem = s.dev.mem ∧ t.grp.priv = g.priv ∧
        laneStored (s.scratchByte g.team) (t.scratchByte g.team) run n x v ∧ (∀ k, k ≠ g.team → t.dev.team k = s.dev.team k) ∧
        tags (s.dev.team g.team).scratch.tag (t.dev.team g.team).scratch.tag)

/-- R225, R224, R110, R111: `v.amo` on local memory: the running lanes act in ascending order, each on the value that the lanes below it left, and each
receives that value; no other word of memory changes, and `ld` rises. -/
def Sys2Proof.Claims.LaneAtomics : Prop :=
  ∀ (s : State) (w : Wide) (x : Nat → Nat),
    let g := s.grp
    let n := tyWidth w.ty / 8
    let run := runMask g g.view w.ms.toNat
    let e (l : Nat) : LaneAt := laneAt s w false l
    let src (sel : BitVec 9) (l : Nat) : Nat := (readSel g g.view w.imm w.ty sel l).val.toNat % 2 ^ tyWidth w.ty
    let f (l old : Nat) : Nat := amoRule (amoOf w.rm) w.ty old (src w.sb l) (if amoOf w.rm = .cas then src w.sc l else 0)
    let old (l : Nat) : Nat := afterLanesBelow (fun a => s.dev.mem.num a n) run x f (x l) l
    let rule : LaneRule := ⟨0x300, w, w.ty, fun _ _ l => { val := placeTy w.ty (old l) }⟩
    aloneReady s 0x300 w → w.ty ≤ 7 → n = 4 ∨ n = 8 → lanesPass s needAtomic n run e → g.dual = false → g.shadow = false → g.prc = false →
    hostHoldsNothing s → g.count .ld < 1023 → lanesRoom g run e →
    (∀ l, l < 64 → bit run l = true → placeOf s.dev (e l).cap (e l).addr = .local_ (x l) ∧ s.dev.syncs.getD (x l / 64) false = false ∧
      s.dev.mem.anyPoison (x l) n = false ∧ soundLine s (x l)) →
    ∃ t, exec (.vAmo w) s = .next t ∧ laneNext g t.grp ∧ keptByLanes g t.grp ∧ t.grp.count .ld = g.count .ld + 1 ∧
      lanesAfter g.lanes t.grp.lanes run rule.writes (formOf s 0x300 w).frees (fun k l => rule.half k (rule.out g g.view l)) ∧
      ∀ a, a % n = 0 → t.dev.mem.num a n = afterLanesBelow (fun a => s.dev.mem.num a n) run x f a 64

/-- R229, R154, R103: `cp.lrun`, its lanes' checks passed, issues the block of every running lane, lanes in ascending order, as one operation on the
`cp` path; with no running lane it issues none, and its operation is complete at once. It waits while the engine holds 32 operations: where
all blocks do not fit, those that do enter, and the word waits at issue with the others. -/
def Sys2Proof.Claims.LaneCopies : Prop :=
  ∀ (s : State) (w : Wide) (x : Nat → Nat),
    let g := s.grp
    let k := clusterKey g.die g.core
    let run := runMask g g.view w.ms.toNat
    let cap (l : Nat) : Cap := quadCap g w.qk l
    let e (l : Nat) : LaneAt := ⟨l, cap l, (cap l).base.toNat⟩
    let part (l o : Nat) : Nat := s.dev.mem.num (x l + o) 8
    let held (l : Nat) (i : Nat) : Cap := ⟨BitVec.ofNat 128 (s.dev.mem.num (x l + 16 * i) 16), s.dev.mem.tag (x l / 16 + i)⟩
    let room := 32 - copiesHeld s.mach
    aloneReady s 0x310 w → lanesPass s needCmd 64 run e → g.dual = false → g.shadow = false → g.entering = none →
    (∀ l, l < 64 → bit run l = true → placeOf s.dev (cap l) (cap l).base.toNat = .local_ (x l) ∧ x l % 64 = 0 ∧ noCopyHeld s (x l) ∧
      s.dev.mem.anyPoison (x l) 64 = false ∧ soundLine s (x l)) →
    (32 ≤ copiesHeld s.mach ∨ 1023 ≤ g.count .cp → exec (.cpLrun w) s = .next s.waits) ∧
    (copiesHeld s.mach < 32 → g.count .cp < 1023 →
      (room < (lanesOf run).length → ∃ t ops es, exec (.cpLrun w) s = .next t ∧ t.grp.queue = g.queue ∧ t.grp.lpos = g.lpos ∧
        t.grp.entering = some (g.nextOp, es) ∧
        es.map (fun b => b.1) = ((lanesOf run).drop room).map (fun l => s.dev.mem.read (x l) 64) ∧
        ((s.dev.parts.getD g.part {}).filter = [] → es.map (fun b => b.2) = ((lanesOf run).drop room).map fun l =>
          (List.range 4).map fun i => s.dev.mem.tag (x l / 16 + i)) ∧
        (t.dev.cluster k).copies = (s.dev.cluster k).copies ++ ops ∧
        ops.map (fun o => (o.len, o.ctrl)) = ((lanesOf run).take room).map fun l => (part l 32, BitVec.ofNat 64 (part l 40))) ∧
      (run ≠ 0 → (lanesOf run).length ≤ room → ∃ t ops, exec (.cpLrun w) s = .next t ∧ laneNext g t.grp ∧ t.grp.count .cp = g.count .cp + 1 ∧ t.dev.mem = s.dev.mem ∧
        (t.dev.cluster k).copies = (s.dev.cluster k).copies ++ ops ∧ ops.map (fun o => (o.len, o.ctrl, o.gid)) = (lanesOf run).map (fun l =>
          (part l 32, BitVec.ofNat 64 (part l 40), g.gid)) ∧
        ops.map (fun o => (o.src.bits, o.dst.bits, o.signal.bits)) = (lanesOf run).map (fun l =>
          ((held l 0).bits, (held l 1).bits, (held l 3).bits)) ∧
        ((s.dev.parts.getD g.part {}).filter = [] → ops.map (fun o => (o.src, o.dst, o.signal)) = (lanesOf run).map (fun l =>
          (held l 0, held l 1, held l 3)))) ∧
      (run = 0 → g.live = true → g.flights = [] → ∃ t, exec (.cpLrun w) s = .next t ∧ laneNext g t.grp ∧ t.grp.count .cp = 0 ∧
        t.dev.clusters = s.dev.clusters))

/-- R166, R164, R155, R79: the capability words on quads: `c.bcast` copies `c`K with its tag, `v.cget` reads a field, and the derivations give each running
lane what their rules give its quad and its a; where a lane's derivation fails the word traps, names the failing lanes and writes nothing. That a
derived quad has clear side bits in a `prc` group as well is the model's reading (notes/assumptions/47). -/
def Sys2Proof.Claims.LaneCapabilityWords : Prop :=
  ∀ (s : State) (w : Wide),
    let g := s.grp
    let run := runMask g g.view w.ms.toNat
    let q := w.dst.toNat / 4
    let c (l : Nat) : Cap := quadCap g w.qk l
    let field (l : Nat) : Word := match w.imm.toNat % 8 with
      | 0 => BitVec.ofInt 64 (c l).base
      | 1 => BitVec.ofInt 64 ((c l).top - (c l).base)
      | 2 => BitVec.ofNat 64 (c l).cursor
      | 3 => (c l).perms.zeroExtend 64
      | 4 => BitVec.ofNat 64 (c l).kind
      | 5 => BitVec.ofNat 64 (c l).colour
      | 6 => if (c l).tag then 1 else 0
      | _ => BitVec.ofInt 64 (c l).limit
    let get : LaneRule := ⟨0x289, w, 7, fun _ _ l => { val := field l }⟩
    let a (ty l : Nat) : Word := (readSel g g.view w.imm ty w.sa l).val
    let derives (op10 : Nat) (i : Instr) (f : Nat → Except Nat Cap) : Prop := aloneReady s op10 w →
      ((∀ l, l < 64 → bit run l = true → ∃ r, f l = .ok r) → ∃ t, exec i s = .next t ∧ laneNext g t.grp ∧ lanesOnly g t.grp ∧
        t.dev.mem = s.dev.mem ∧ ∀ l r, l < 64 → bit run l = true → w.ws = false → f l = .ok r → t.grp.lanes.quad q l = (r, false)) ∧
      (∀ cause lane, lane < 64 → bit run lane = true → f lane = .error cause →
        (∀ l d, l < 64 → bit run l = true → f l = .error d → causeRank cause ≤ causeRank d) → laneTraps g →
        ∃ t mask, exec i s = .next t ∧ t.grp = g.laneTrapped cause mask ∧ t.dev.mem = s.dev.mem ∧
          ∀ l, l < 64 → (bit mask l = true ↔ bit run l = true ∧ ∃ d, f l = .error d))
    (aloneReady s 0x286 w → ∃ t, exec (.cBcast w) s = .next t ∧ laneNext g t.grp ∧ lanesOnly g t.grp ∧ t.dev.mem = s.dev.mem ∧
      quadsAfter g.lanes t.grp.lanes run w.ws q (formOf s 0x286 w).frees (fun _ => (g.view.c.getD w.ck.toNat {}, false))) ∧
    (aloneReady s 0x289 w → ∃ t, exec (.vCget w) s = .next t ∧ laneNext g t.grp ∧ lanesOnly g t.grp ∧ t.dev.mem = s.dev.mem ∧
      lanesAfter g.lanes t.grp.lanes run get.writes (formOf s 0x289 w).frees (fun k l => get.half k (get.out g g.view l))) ∧
    derives 0x287 (.vCaddc w) (fun l => derived (c l) ((c l).addc (((a 2 l).extractLsb' 0 32).signExtend 64))) ∧
    derives 0x288 (.vCsetb w) (fun l => (c l).setb ((a 6 l).toNat % 2 ^ 32) w.flag) ∧
    derives 0x28A (.vCandp w) (fun l => derived (c l) ((c l).andp ((a 15 l).extractLsb' 0 12)))

/-! ### Lane control and exchange -/

/-- R127, R128, R129, R130: a structured word gives every present lane the counter of its rule; where a counter would rise above LIMIT it traps with
NESTOVF, names those lanes and changes nothing. HIGH follows the greatest counter; `v.endloop` writes whether the loop goes on. -/
def Sys2Proof.Claims.StructuredWords : Prop :=
  ∀ (i : Instr) (s : State) (op10 : Nat) (w : Wide) (rule : Nat → Bool → Bool → Nat), nestRule i = some (op10, w, rule) →
    aloneReady s op10 w →
    let g := s.grp
    let present (l : Nat) : Prop := l < g.width ∧ bit g.present l = true
    let cond (l : Nat) : Bool := w.ms.toNat == 0 || bit (g.view.m.getD w.ms.toNat 0) l
    let goes := decide (∃ l, l < g.width ∧ bit g.present l = true ∧ g.counter l ≤ 1)
    let new (l : Nat) : Nat := rule (g.counter l) (cond l) goes
    let rises (l : Nat) : Prop := present l ∧ g.counter l < new l ∧ g.nestLimit.toNat < new l
    g.width ≤ 64 →
    ((∃ l, rises l) → laneTraps g → ∃ t mask, exec i s = .next t ∧ t.grp = g.laneTrapped 6 mask ∧ t.dev.mem = s.dev.mem ∧
      ∀ l, l < g.width → (bit mask l = true ↔ rises l)) ∧
    ((∀ l, ¬ rises l) → (∀ l, present l → new l < 256) → ∃ t, exec i s = .next t ∧ laneNext g t.grp ∧ keptByControl g t.grp ∧ t.grp.m = g.m ∧ t.dev.mem = s.dev.mem ∧
      t.grp.lanes = g.lanes ∧ (∀ l, present l → t.grp.counter l = new l) ∧ (∀ l, ¬ present l → t.grp.counter l = g.counter l) ∧
      g.nestHigh.toNat ≤ t.grp.nestHigh.toNat ∧ (∀ l, present l → new l ≤ t.grp.nestHigh.toNat) ∧
      (t.grp.nestHigh = g.nestHigh ∨ ∃ l, present l ∧ t.grp.nestHigh.toNat = new l) ∧
      (op10 ≠ 0x1C6 ∨ w.ws = true → t.grp.s = g.s) ∧
      (op10 = 0x1C6 → w.ws = false → scalarSet g t.grp (w.dst.toNat % 64) (if goes then 1 else 0)))

/-- R131, R122, R183, R110: the words that write a mask: each running lane's bit takes the condition, or its AND or OR with the old bit, and no other bit
changes; in a `prc` group a poisoned source gives 0 and a consumption with PSRC 6; `v.tpsn` reads which lanes are poisoned. -/
def Sys2Proof.Claims.MaskWords : Prop :=
  ∀ (s : State) (w : Wide),
    let g := s.grp
    let run := runMask g g.view w.ms.toNat
    let k := w.dst.toNat % 8
    let old (l : Nat) : Bool := bit (g.view.m.getD k 0) l
    let src (op10 l : Nat) := laneSources op10 w g g.view l
    let bad (op10 l : Nat) : Bool := (src op10 l).1.2 || (src op10 l).2.1.2
    let writes (op10 : Nat) (i : Instr) (new : Nat → Bool) (t : State) : Prop :=
      exec i s = .next t ∧ laneNext g t.grp ∧ keptByControl g t.grp ∧ t.grp.s = g.s ∧ t.grp.nest = g.nest ∧ t.dev.mem = s.dev.mem ∧
      (∀ l, l < g.width → bit (t.grp.m.getD k 0) l = if bit run l then new l else bit (g.m.getD k 0) l) ∧
      (∀ j, j ≠ k → t.grp.m.getD j 0 = g.m.getD j 0) ∧
      lanesAfter g.lanes t.grp.lanes run [] (formOf s op10 w).frees (fun _ _ => ⟨0, false⟩)
    let poisons (op10 : Nat) (t : State) : Prop :=
      ((∃ l, l < 64 ∧ bit run l = true ∧ bad op10 l = true) → (t.dev.ctx g.ctx).psn = true ∧
        ((s.dev.ctx g.ctx).psn = false → (t.dev.ctx g.ctx).psrc = 6)) ∧
      ((∀ l, l < 64 → bit run l = true → bad op10 l = false) → (t.dev.ctx g.ctx).psn = (s.dev.ctx g.ctx).psn)
    k ≠ 0 → g.width ≤ 64 →
    (aloneReady s 0x1D0 w →
      let c (l : Nat) : Bool × Ev := if bad 0x1D0 l then (false, 0) else cmpLane w.ty w.aux5 w.fz (src 0x1D0 l).1.1 (src 0x1D0 l).2.1.1
      ∃ t, writes 0x1D0 (.vCmp w) (fun l => if w.aux2 = 1 then old l && (c l).1 else if w.aux2 = 2 then old l || (c l).1 else (c l).1) t ∧
        poisons 0x1D0 t ∧ counted s t (fun e => lanesWith run fun l => bit (c l).2 e)) ∧
    (aloneReady s 0x1F0 w →
      let x (l : Nat) : Nat := phCode w.ty (src 0x1F0 l).1.1
      let y (l : Nat) : Nat := phCode w.ty (src 0x1F0 l).2.1.1
      ∃ t, writes 0x1F0 (.vPcmp w) (fun l => !bad 0x1F0 l && phCond w.aux5 (phCompare w.ty (x l) (y l))) t ∧ poisons 0x1F0 t ∧
        counted s t (fun e => lanesWith run fun l => !bad 0x1F0 l && (e == 6) && ((phAngle w.ty (x l)).isNone || (phAngle w.ty (y l)).isNone))) ∧
    (aloneReady s 0x3A0 w → ∃ t,
      writes 0x3A0 (.vTpsn w) (fun l => (readSel g g.view w.imm w.ty w.sa l).poisoned w.ty) t)

/-- R131, R114, R44, R47: the conditions of `v.cmp`: on integers as the type reads them; on floating point by value, infinities past every number, −0 equal to
+0, every relation but `ne` and `un` false where an operand is a NaN; a signaling NaN counts INV. -/
def Sys2Proof.Claims.CompareConditions : Prop :=
  ∀ (ty c : Nat) (fz : Bool) (a b : Word), c < 8 →
    let r := cmpLane ty c fz a b
    (ty ≤ 7 → c < 6 → r.2 = 0 ∧ (r.1 = true ↔ match c with
      | 0 => readInt ty a = readInt ty b
      | 1 => readInt ty a ≠ readInt ty b
      | 2 => readInt ty a < readInt ty b
      | 3 => readInt ty a ≤ readInt ty b
      | 4 => readInt ty b < readInt ty a
      | _ => readInt ty b ≤ readInt ty a)) ∧
    (ty = 8 ∨ ty = 9 ∨ ty = 10 →
      let x := fpIn ty fz (a.toNat % (2 * fpSign ty))
      let y := fpIn ty fz (b.toNat % (2 * fpSign ty))
      fpInv ty [x, y] r.2 ∧
      (fpNan ty x ∨ fpNan ty y → (r.1 = true ↔ c = 1 ∨ c = 6)) ∧
      (¬ fpNan ty x → ¬ fpNan ty y → (r.1 = true ↔ match c with
        | 0 => fpVal ty x = fpVal ty y
        | 1 => fpVal ty x ≠ fpVal ty y
        | 2 => fpVal ty x < fpVal ty y
        | 3 => fpVal ty x ≤ fpVal ty y
        | 4 => fpVal ty y < fpVal ty x
        | 5 => fpVal ty y ≤ fpVal ty x
        | 6 => False
        | _ => True)))

/-- R132, R133, R84: `v.ballot` writes the running lanes' bits of a mask to `s`D, and `v.vote` one bit for each tile: any, all, or equal over its running
lanes; lanes that do not run do not count. -/
def Sys2Proof.Claims.BallotsAndVotes : Prop :=
  ∀ (s : State) (w : Wide),
    let g := s.grp
    let v := g.view
    let run := runMask g v w.ms.toNat
    let src := w.aux5 % 8
    let m := if src = 0 then g.m0 else v.m.getD src 0
    let writes (op10 : Nat) (i : Instr) (x : Word) : Prop := aloneReady s op10 w → ∃ t, exec i s = .next t ∧ laneNext g t.grp ∧
      keptByControl g t.grp ∧ t.grp.nest = g.nest ∧ t.grp.m = g.m ∧ t.grp.lanes = g.lanes ∧ t.dev.mem = s.dev.mem ∧
      if w.ws then t.grp.s = g.s else scalarSet g t.grp (w.dst.toNat % 64) x
    writes 0x1D8 (.vBallot w) (run &&& m) ∧
    (tilesFit g v → ∀ x : Word, (∀ l, l < 64 → (bit x l = true ↔ l < g.width / tileSize g v ∧
        let own (k : Nat) : Prop := l * tileSize g v ≤ k ∧ k < (l + 1) * tileSize g v ∧ bit run k = true
        let all (b : Bool) : Prop := ∀ k, own k → bit m k = b
        if w.aux2 = 0 then ∃ k, own k ∧ bit m k = true else if w.aux2 = 1 then all true else all true ∨ all false)) →
      writes 0x1D9 (.vVote w) x)

/-- R137, R138, R139, R84, R62, R110: the exchange words over the running lanes of each tile: `v.red` gives every running lane its tile's reduction, or `s`D tile 0's;
`v.scan` gives a lane the reduction of the lanes up to it, or before it; `v.pred` sums phasors. A class counts once for each set that raised it. That the scalar form counts tile 0's
events alone, and which lanes its POISON trap names, are the model's (notes/assumptions/21). -/
def Sys2Proof.Claims.ExchangeWords : Prop :=
  ∀ (s : State) (w : Wide),
    let g := s.grp
    let v := g.view
    let run := runMask g v w.ms.toNat
    let tile (l : Nat) : List Nat := tileRun g v run l
    let own (l : Nat) : List Nat := (tile l).filter fun k => if w.aux2 % 2 = 1 then decide (k < l) else decide (k ≤ l)
    let size := tileSize g v
    let red (l : Nat) : LaneOut := overLanes g v w w.ty (tile l) (reduced w)
    let scan (l : Nat) : LaneOut := overLanes g v w w.ty (own l) (reduced w)
    let sum (xs : List Word) : LaneOut :=
      let as := xs.filterMap fun x => phAngle w.ty (phCode w.ty x)
      resolveOut w.ty (as.map fun a => cosEntry (phIndex w.ty a)).sum (as.map fun a => sinEntry (phIndex w.ty a)).sum as.length
    let pred (l : Nat) : LaneOut := overLanes g v w 6 (tile l) sum
    let once (out : Nat → LaneOut) (c : Nat) : Nat :=
      countBelow (g.width / size) fun t => (tile (t * size)).length != 0 && bit (out (t * size)).ev c
    let gives (op10 dty : Nat) (i : Instr) (out : Nat → LaneOut) (n : Nat → Nat) : Prop :=
      let rule : LaneRule := ⟨op10, w, dty, fun _ _ l => out l⟩
      ∃ t, exec i s = .next t ∧ laneNext g t.grp ∧ lanesOnly g t.grp ∧ t.dev.mem = s.dev.mem ∧ counted s t n ∧
        lanesAfter g.lanes t.grp.lanes run rule.writes (formOf s op10 w).frees (fun k l => rule.half k (out l))
    tilesFit g v →
    (aloneReady s 0x210 w →
      (w.aux2 % 2 = 0 → gives 0x210 w.ty (.vRed w) red (once red)) ∧
      (w.aux2 % 2 = 1 → ((tile 0).any fun k => (exchSource g v w k).2) = false → ∃ t, exec (.vRed w) s = .next t ∧ laneNext g t.grp ∧
        keptByControl g t.grp ∧ t.grp.m = g.m ∧ t.grp.nest = g.nest ∧ t.dev.mem = s.dev.mem ∧
        counted s t (fun c => if bit (red 0).ev c then 1 else 0) ∧
        if w.ws then t.grp.s = g.s else scalarSet g t.grp (w.dst.toNat % 64) (red 0).val) ∧
      (w.aux2 % 2 = 1 → ((tile 0).any fun k => (exchSource g v w k).2) = true → laneTraps g → ∃ t mask, exec (.vRed w) s = .next t ∧
        t.grp = g.laneTrapped 10 mask ∧ ∀ l, l < g.width → (bit mask l = true ↔ l ∈ tile 0 ∧ (exchSource g v w l).2 = true))) ∧
    (aloneReady s 0x220 w → gives 0x220 w.ty (.vScan w) scan (fun c => lanesWith run fun l => bit (scan l).ev c)) ∧
    (aloneReady s 0x230 w → gives 0x230 6 (.vPred w) pred (once pred))

/-- R137, R42: the integer reductions of a list, in exact integers: the sum that wraps, or saturates and counts OVF; least and greatest; the bitwise
operations; and of an empty list the identity. In floating point an empty list gives 0, +∞ or −∞, and a sum with a NaN the canonical NaN. -/
def Sys2Proof.Claims.Reductions : Prop :=
  ∀ (ty rm : Nat) (fz sat : Bool) (l : List Word),
    let r (op : Nat) (sat : Bool) := redOver op ty rm fz sat l
    let w := tyWidth ty
    let z := l.map (readInt ty)
    let lo : Int := if ty ≤ 3 then -(2 ^ (w - 1) : Nat) else 0
    let hi : Int := if ty ≤ 3 then (2 ^ (w - 1) : Nat) - 1 else (2 ^ w : Nat) - 1
    (ty ≤ 7 →
      (readInt ty (r 0 false).1 % (2 ^ w : Nat) = z.sum % (2 ^ w : Nat) ∧ (r 0 false).2 = 0) ∧
      (readInt ty (r 0 true).1 = max lo (min z.sum hi) ∧ (r 0 true).2 = if z.sum < lo ∨ hi < z.sum then 2 else 0) ∧
      (readInt ty (r 1 sat).1 = z.foldl min hi ∧ readInt ty (r 2 sat).1 = z.foldl max lo) ∧
      ∀ k, k < w → bit (r 3 sat).1 k = l.all (fun x => bit x k) ∧ bit (r 4 sat).1 k = l.any (fun x => bit x k) ∧
        (bit (r 5 sat).1 k = true ↔ (l.filter fun x => bit x k).length % 2 = 1)) ∧
    (tyIsFp ty = true → l = [] → (r 0 sat).1 = 0 ∧ (r 1 sat).1 = BitVec.ofNat 64 (fmtOf ty).infBits ∧
      (r 2 sat).1 = BitVec.ofNat 64 ((fmtOf ty).signed true (fmtOf ty).infBits)) ∧
    (tyIsFp ty = true → (∃ x ∈ l, ((fmtOf ty).read fz (x.toNat % 2 ^ tyWidth ty)).isNan = true) →
      (r 0 sat).1 = BitVec.ofNat 64 (fmtOf ty).nanBits)

/-! ### Record words -/

/-- R291, R290, R283, R284, R295: the record words, by the role of the group in the id: what each does to J, RECORDED, FULL and the counters, to the group's
role and ordinal, and to the entries of the id on the die. Leaving a replay departs entries only while RECORDED = 1. Each first waits as `lwait`. A shadow copy's
words change nothing of a recording. -/
def Sys2Proof.Claims.RecordWords : Prop :=
  ∀ (s : State) (a : SReg),
    let g := s.grp
    let i := (g.rs a.toNat).toNat % 16
    let role := g.roles.getD i .idle
    let held (t : State) : Recording := (t.dev.ctx g.ctx).recording g.die i
    let entries (t : State) : List (Nat × Nat × Route) := (routesOf t.dev g.die).filter fun e => e.2.2.ctx == g.ctx && e.2.2.id == i
    let goes (w : Instr) (p : State → Prop) : Prop := ∃ t, exec w s = .next t ∧ t.grp.pc = g.pc + 4 ∧ t.dev.mem = s.dev.mem ∧
      t.grp.s = g.s ∧ (∀ j, j ≠ i → t.grp.roles.getD j .idle = g.roles.getD j .idle) ∧ p t
    let takes (t : State) (r : Role) : Prop := t.grp.roles.getD i .idle = r ∧ t.grp.ords.getD i 0 = 0
    let begins (t : State) : Prop := takes t .recording ∧
      held t = { (if (held s).joined = 0 then {} else held s) with joined := (if (held s).joined = 0 then 0 else (held s).joined) + 1 } ∧
      ((held s).joined = 0 → entries t = []) ∧ ((held s).joined ≠ 0 → t.dev.cores = s.dev.cores)
    (g.queue ≠ [] → ∀ w, w = .recBegin a ∨ w = .recEnd a ∨ w = .recReplay a ∨ w = .recRerecord a ∨ w = .recDrop a →
      exec w s = .next s.waits) ∧
    (g.queue = [] → g.live = true →
      (role = .idle → g.shadow = false → goes (.recBegin a) begins) ∧
      (role = .idle → g.shadow = false → (held s).recorded = false → goes (.recReplay a) begins) ∧
      (role = .idle → g.shadow = false → (held s).recorded = true → goes (.recReplay a) fun t => takes t .replay ∧
        held t = { held s with joined := (held s).joined + 1 } ∧
        ∀ k r, (t.dev.core (coreKey g.die g.core)).routes.find? k = some r → r.ctx = g.ctx → r.id = i → r.slot = g.slot → r.pd = false) ∧
      (role = .idle → goes (.recEnd a) fun t => t.dev = s.dev ∧ t.grp = g.advance) ∧
      (role = .recording → goes (.recEnd a) fun t => takes t .idle ∧ t.dev.cores = s.dev.cores ∧
        held t = { held s with joined := (held s).joined - 1, recorded := true }) ∧
      (role = .replay → goes (.recEnd a) fun t => takes t .idle ∧ (held t).joined = (held s).joined - 1 ∧
        (held t).recorded = (held s).recorded ∧ ((held s).recorded = false → t.dev.cores = s.dev.cores) ∧
        ((held s).recorded = true → ∀ k r, (t.dev.core (coreKey g.die g.core)).routes.find? k = some r → r.ctx = g.ctx → r.id = i →
          r.slot = g.slot → r.fb = true ∨ r.pd = true)) ∧
      (g.shadow = true → ∀ w, w = .recRerecord a ∨ w = .recDrop a → goes w fun t => t.dev = s.dev ∧ t.grp = g.advance) ∧
      (g.shadow = false → goes (.recRerecord a) fun t =>
        held t = { held s with recorded := false, full := false } ∧ entries t = [] ∧ t.grp = g.advance) ∧
      (g.shadow = false → goes (.recDrop a) fun t => held t = {} ∧ entries t = [] ∧ t.grp.roles.getD i .idle = .idle ∧
        ∀ k x, t.dev.groups.find? k = some x → x.ctx = g.ctx → x.die = g.die → x.roles.getD i .idle = .idle))

/-- R292, R293, R285: `rec.status` reads SENT, USED, DEPS, or the state word with ENTRIES, J, PRE, FULL and RECORDED; `rec.rte` reads a half of an entry of
the core's route table, zero for one that is not valid or of another context. -/
def Sys2Proof.Claims.RecordReads : Prop :=
  ∀ (s : State) (d a : SReg),
    let g := s.grp
    let v := (g.rs a.toNat).toNat
    let i := v % 16
    let r := (s.dev.ctx g.ctx).recording g.die i
    let n := ((routesOf s.dev g.die).filter fun e => e.2.2.ctx == g.ctx && e.2.2.id == i).length
    let gives (w : Instr) (x : Word) : Prop := exec w s = .next { s with grp := g.result d x }
    (g.queue ≠ [] → exec (.recStatus d a) s = .next s.waits ∧ exec (.recRte d a) s = .next s.waits) ∧
    (g.queue = [] →
      (v / 16 % 4 = 0 → gives (.recStatus d a) (BitVec.ofNat 64 r.sent)) ∧
      (v / 16 % 4 = 1 → gives (.recStatus d a) (BitVec.ofNat 64 r.used)) ∧
      (v / 16 % 4 = 2 → gives (.recStatus d a) (BitVec.ofNat 64 r.deps)) ∧
      (v / 16 % 4 = 3 → n < 2 ^ 32 → r.joined < 2 ^ 12 → ∃ x : Word, gives (.recStatus d a) x ∧ (x.extractLsb' 32 32).toNat = n ∧
        (x.extractLsb' 28 4).toNat = 0 ∧ (x.extractLsb' 16 12).toNat = r.joined ∧ (x.extractLsb' 4 12).toNat = 0 ∧ bit x 3 = r.pre ∧
        bit x 2 = r.full ∧ bit x 1 = r.recorded ∧ bit x 0 = false) ∧
      (let e := (s.dev.core (coreKey g.die g.core)).routes.find? (v % 256)
       (e = none → gives (.recRte d a) 0) ∧
       (∀ x, e = some x → x.ctx ≠ g.ctx → gives (.recRte d a) 0) ∧
       (∀ x, e = some x → x.ctx = g.ctx → v / 256 % 2 = 1 → gives (.recRte d a) (BitVec.ofNat 64 x.line)) ∧
       (∀ x, e = some x → x.ctx = g.ctx → v / 256 % 2 = 0 → x.id < 16 → x.prod < 256 → x.cons < 256 → x.slot < 16 → x.word < 32 →
        x.nwm1 < 32 → x.ord < 2 ^ 27 → ∃ y : Word, gives (.recRte d a) y ∧ bit y 63 = true ∧ bit y 62 = x.fb ∧
          (y.extractLsb' 58 4).toNat = x.id ∧ (y.extractLsb' 50 8).toNat = x.prod ∧ (y.extractLsb' 42 8).toNat = x.cons ∧
          (y.extractLsb' 38 4).toNat = x.slot ∧ (y.extractLsb' 33 5).toNat = x.word ∧ (y.extractLsb' 28 5).toNat = x.nwm1 ∧
          bit y 27 = x.pd ∧ (y.extractLsb' 0 27).toNat = x.ord)))

/-- R286, R203: a pushed copy that arrives is placed in the consumer's core, unless the core holds a copy of the line as new; either way it is no longer on
its way. Where the core's L1 has room, no other copy leaves. -/
def Sys2Proof.Claims.PushArrivals : Prop :=
  ∀ (s : State) (id : Nat), let find := s.dev.pushes.find? fun p => p.id == id
    (find = none → exec (.pushArrival id) s = .next s) ∧
    (∀ p, find = some p →
      let c := s.dev.core p.core
      let newer := (∃ e, c.copies.find? p.line = some e ∧ p.copy.wts ≤ e.wts) ∨ ∃ e, c.pushes.find? p.line = some e ∧ p.copy.wts ≤ e.wts
      ∃ t, exec (.pushArrival id) s = .next t ∧ t.grp = s.grp ∧ t.dev.mem = s.dev.mem ∧
        t.dev.pushes = s.dev.pushes.filter (fun q => q.id ≠ id) ∧ (newer → t.dev.cores = s.dev.cores) ∧
        (¬ newer → (t.dev.core p.core).pushes.find? p.line = some { p.copy with placed := s.dev.time }) ∧
        (¬ newer → c.l1Used < l1Lines s.dev (p.core / 192) (p.core % 192) → (t.dev.core p.core).copies = c.copies ∧
          (∀ l, l ≠ p.line → (t.dev.core p.core).pushes.find? l = c.pushes.find? l) ∧ ∀ k, k ≠ p.core → t.dev.core k = s.dev.core k))

/-! ### Ends of groups and teams -/

/-- R106, R66, R211, R187: `sys.yield`, `sys.time`, `sys.end` and `s.tail`: the waits of an end, the held trap that it takes first, the traps of the
capability of `s.tail`, the group that leaves its team, and the team that ends with its last group. That the oldest of several held traps is taken, and which
others it covers, are the model's (notes/assumptions/49). -/
def Sys2Proof.Claims.SystemWords : Prop :=
  ∀ (s : State) (d : SReg) (a : CReg),
    let g := s.grp
    let k := g.team
    let tm := s.dev.team k
    let c := g.rc a.toNat
    let ends (i : Instr) : Prop := i = .sysEnd ∨ (i = .sTail a ∧ tailCause c = none)
    (exec .sysYield s = .next { s with grp := { g.advance with yielded := true } }) ∧
    (∃ t n, exec (.sysTime d) s = .next t ∧ onlyReg g t.grp d (BitVec.ofNat 64 ((s.dev.die 0).time + n)) ∧ t.dev.mem = s.dev.mem ∧
      ∀ j, j < 4 → (t.dev.die j).time = (s.dev.die j).time + n) ∧
    (∀ cause, tailCause c = some cause → trapsNow g → exec (.sTail a) s = .next { s with grp := g.scalarTrapped cause }) ∧
    (∀ i, ends i → g.queue ≠ [] ∨ g.flights ≠ [] → exec i s = .next s.waits) ∧
    (∀ i h rest, ends i → g.flights = [] → trapsNow g → g.heldTraps = h :: rest → leads i s fun t =>
      let left := (h :: rest).filter fun x => decide (x ≠ h ∧ ¬ (h.code = 9 ∧ x.code = 9 ∧ x.path = h.path ∧ x.pos = h.pos))
      t.grp = { g with heldTraps := left }.trapped h.code h.nevc (pathCode h.path) g.pc (BitVec.allOnes 64) 0 false ⟨0, []⟩) ∧
    (∀ i, ends i → g.queue = [] → g.flights = [] → g.heldTraps = [] → (∃ x ∈ tm.members, x ≠ g.gid) → leads i s fun t =>
      t.grp.live = false ∧ (t.dev.team k).members = tm.members.filter (· ≠ g.gid) ∧ t.dev.mem = s.dev.mem ∧
      (t.dev.team k).tails = (if i = .sysEnd then tm.tails else tm.tails ++ [(g.index, c)])) ∧
    (g.queue = [] → g.flights = [] → g.heldTraps = [] → tm.members = [g.gid] → tm.tails = [] → tm.partner = none →
      tm.kernel.node = false → hostHoldsNothing s → (s.dev.ctx (s.dev.launch tm.launch).ctx).endact ≠ 2 → leads .sysEnd s fun t =>
        t.grp.live = false ∧ (t.dev.team k).status = .ended ∧ (t.dev.team k).slots = [] ∧
        (t.dev.launch tm.launch).finished = (s.dev.launch tm.launch).finished + 1)

/-- R65, R187, R198, R200: the window of a class ends: COUNT clears and the action may fire again; a group that could issue and has not is raised after 64 cycles; a spilled register
comes back, and no other is spilled while the core's file has room; an injected exit ends one group, with its record, and its team goes on; what it has stored
through a port stays on its way. -/
def Sys2Proof.Claims.GroupEvents : Prop :=
  ∀ (s : State) (gid : Nat),
    (∀ ctx cls, cls < 7 → (s.dev.ctx ctx).live = true → (∃ e ∈ s.dev.teams, e.2.ctx = ctx ∧ e.2.status = .resident) →
      leads (.nevWindowEnd ctx cls) s fun t => t.grp = s.grp ∧ t.dev.mem = s.dev.mem ∧
        ((t.dev.ctx ctx).nev.getD cls 0).extractLsb' 0 32 = 0 ∧ (t.dev.ctx ctx).fired.getD cls false = false ∧
        ((t.dev.ctx ctx).nev.getD cls 0).extractLsb' 32 32 = ((s.dev.ctx ctx).nev.getD cls 0).extractLsb' 32 32 ∧
        (∀ j, j ≠ cls → (t.dev.ctx ctx).nev.getD j 0 = (s.dev.ctx ctx).nev.getD j 0) ∧ (t.dev.ctx ctx).nevflag = (s.dev.ctx ctx).nevflag) ∧
    (∀ ctx cls, (∀ e ∈ s.dev.teams, e.2.ctx = ctx → e.2.status ≠ .resident) → idles (.nevWindowEnd ctx cls) s) ∧
    (leads (.starvationRaise gid true) s fun t => groupBecomes s t gid fun g =>
      if mayIssue s.dev g = true ∧ g.queue ≠ [] then { g with starveLane := max 64 g.starveLane } else g) ∧
    (leads (.starvationRaise gid false) s fun t => groupBecomes s t gid fun g =>
      if mayIssue s.dev g = true then { g with starveScalar := max 64 g.starveScalar } else g) ∧
    (∀ r g, s.mach.group? gid = some g → g.gid = gid → leads (.registerRefill gid r) s fun t => ∃ g', t.mach.group? gid = some g' ∧
      g'.spilledRegs.getD r.toNat 0 = 0 ∧ { g' with spilledRegs := g.spilledRegs } = g ∧ t.dev.mem = s.dev.mem ∧
      ((((s.mach.onGid gid fun x => { x with spilledRegs := x.spilledRegs.erase r.toNat }).onCore g.die g.core).map physKept).sum ≤ 3072 →
        ∀ j, j ≠ r.toNat → g'.spilledRegs.getD j 0 = g.spilledRegs.getD j 0)) ∧
    (s.mach.group? gid = none → idles (.exitInject gid) s) ∧
    (∀ g, s.mach.group? gid = some g → turnApart s → g.gid = gid → (∃ x ∈ (s.dev.team g.team).members, x ≠ gid) →
      leads (.exitInject gid) s fun t => t.mach.group? gid = none ∧
        (t.dev.team g.team).members = (s.dev.team g.team).members.filter (· ≠ gid) ∧ t.dev.mem = s.dev.mem ∧
        (∀ p ∈ t.dev.remotes, p.gid ≠ gid ∨ gid = 0 ∨ ((p.write.isSome = true ∨ p.atomic.isSome = true) ∧ p.envelope = false)) ∧ ∃ e, t.dev.pkg.events = s.dev.pkg.events ++ [e])

/-- R206, R205, R210: a request for the slots of a team: a `coop` team is saved; one that will soon end drains; an eligible one that has run less than its
save would take is flushed; every other is saved. A drain that expires chooses again without draining. -/
def Sys2Proof.Claims.Preemption : Prop :=
  ∀ (s : State) (k : Nat), (s.dev.team k).partner = none →
    let t0 := s.dev.team k
    let l := s.dev.launch t0.launch
    let e := t0.elapsed + (s.dev.time - t0.since)
    let coop := l.kernel.coop = true
    let soon := l.runs ≠ [] ∧ l.runs.sum ≤ l.runs.length * (e + (s.dev.ctx t0.ctx).drain)
    let cheap := t0.elig = true ∧ 64 * e ≤
      ((s.mach.groupsOf k).map fun g => 4 * g.width * g.lanes.mapped.length).sum + t0.scratchSize
    let saves (i : Instr) : Prop := leads i s fun t => (t.dev.team k).preempt = true ∧ (t.dev.team k).draining = false ∧
      (t.dev.team k).status = .resident ∧ t.grp = s.grp ∧ t.dev.mem = s.dev.mem
    let flushes (i : Instr) : Prop := leads i s fun t => (t.dev.team k).status = .relaunch ∧ (t.dev.team k).slots = [] ∧
      t.dev.mem = s.dev.mem ∧ ∀ g ∈ t.mach.allGroups, g.team ≠ k
    (t0.status ≠ .resident ∨ t0.members = [] ∨ t0.draining = true ∨ t0.preempt = true → idles (.preemptRequest k) s) ∧
    (t0.status = .resident → t0.members ≠ [] → t0.draining = false → t0.preempt = false →
      (coop → (∃ x ∈ s.dev.teams, x.1 = k ∧ x.2 = t0) → saves (.preemptRequest k)) ∧
      (¬ coop → soon → leads (.preemptRequest k) s fun t => (t.dev.team k).draining = true ∧ (t.dev.team k).preempt = false ∧
        (t.dev.team k).status = .resident ∧ t.grp = s.grp) ∧
      (¬ coop → ¬ soon → cheap → flushes (.preemptRequest k)) ∧ (¬ coop → ¬ soon → ¬ cheap → saves (.preemptRequest k))) ∧
    (t0.status = .resident → t0.draining = true → ¬ coop → (cheap → flushes (.drainExpiry k)) ∧ (¬ cheap → saves (.drainExpiry k))) ∧
    (t0.status ≠ .resident ∨ t0.draining = false → idles (.drainExpiry k) s)

/-- R207, R209, R89, R92, R257, R202, R203: saving, restoring and relaunching a team. A save waits for its engine operations, and keeps its groups, at a precise
position, and its scratchpad; a restore gives it a place, with its claims; a relaunch starts it anew. Where it does not fit, or its launch's turn has not come, nothing
happens. A save that meets a sector which an earlier one marked loses the team. -/
def Sys2Proof.Claims.SavesAndRestores : Prop :=
  ∀ (s : State) (k die core : Nat), aloneTeam s k →
    let t0 := s.dev.team k
    let room := fits s.dev (s.dev.parts.getD (s.dev.ctx t0.ctx).part {}) t0.kernel t0.launch die core
    let turn := mayAdmit s.dev t0.launch = true ∧ coopClaims s.dev t0.launch die core = false
    let x := s.dev.cluster (clusterKey die core)
    let free := (∀ u ∈ t0.savedUnits, x.unitOwner.getD u none = none) ∧ ∀ u ∈ t0.savedSlots, x.slotOwner.getD u none = none
    (t0.status = .resident → t0.preempt = true → t0.scratchMet = [] → (∀ g ∈ s.mach.groupsOf k, g.flights = [] ∧ g.waitRemote = false) →
      leads (.teamSave k) s fun t => (t.dev.team k).status = .saved ∧ (t.dev.team k).slots = [] ∧
        (t.dev.team k).members = t0.members ∧ (t.dev.team k).scratch = t0.scratch ∧ t.dev.mem = s.dev.mem ∧
        (∀ c u, (t.dev.cluster c).unitOwner.find? u ≠ some (some k) ∧ (t.dev.cluster c).slotOwner.find? u ≠ some (some k)) ∧
        (∀ g ∈ t.mach.groupsOf k, g.chain = none ∧ g.park = none ∧ g.arrived = none)) ∧
    (t0.status = .resident → (∃ g ∈ s.mach.groupsOf k, g.flights ≠ []) → idles (.teamSave k) s) ∧
    (t0.status = .resident → t0.preempt = true → t0.scratchMet ≠ [] → (∀ g ∈ s.mach.groupsOf k, g.flights = [] ∧ g.waitRemote = false) →
      hostHoldsNothing s → leads (.teamSave k) s fun t => (t.dev.team k).status ≠ .resident ∧ ∀ g ∈ t.mach.allGroups, g.team ≠ k) ∧
    (t0.status = .saved → turn → room = true → free → leads (.teamRestore k die core) s fun t =>
      (t.dev.team k).status = .resident ∧ (t.dev.team k).die = die ∧ (t.dev.team k).core = core ∧
      (t.dev.team k).slots = takeSlots s.dev t0.kernel die core ∧ (t.dev.team k).scratch = t0.scratch ∧ t.dev.mem = s.dev.mem ∧
      (∀ u ∈ t0.savedUnits, (t.dev.cluster (clusterKey die core)).unitOwner.getD u none = some k) ∧
      (∀ g ∈ t.mach.groupsOf k, g.die = die) ∧ ∀ g ∈ s.mach.groupsOf k, ∃ h ∈ t.mach.groupsOf k, h.gid = g.gid ∧
        { h with die := g.die, core := g.core, slot := g.slot, age := g.age } = g) ∧
    (t0.status = .saved → ¬ turn ∨ room = false ∨ ¬ free → idles (.teamRestore k die core) s) ∧
    (t0.status = .relaunch → t0.shadow = false → turn → room = true → drainsAt s.dev t0.ctx die core t0.kernel.team = false → leads (.teamRelaunch k die core) s fun t =>
      (t.dev.team k).status = .resident ∧ (t.dev.team k).die = die ∧ (t.dev.team k).core = core ∧ (t.dev.team k).scratch = {} ∧
      (t.dev.team k).elig = t0.kernel.idem ∧ t.grp = s.grp ∧ t.dev.mem = s.dev.mem ∧
      (t.dev.team k).slots = takeSlots s.dev t0.kernel die core) ∧
    (t0.status = .relaunch → t0.shadow = false → ¬ turn ∨ room = false ∨ drainsAt s.dev t0.ctx die core t0.kernel.team = true → idles (.teamRelaunch k die core) s)

/-- R319, R321, R317: a checkpoint of the two copies of a pair: with equal CRCs and trap registers the held store of the primary is performed and both go on;
otherwise both are discarded, for a relaunch where the team is eligible and it is the first mismatch; so are they where one copy waits with a fatal trap and the
other does not. -/
def Sys2Proof.Claims.DualCheckpoints : Prop :=
  ∀ (s : State) (k p : Nat) (g x : Group),
    let t0 := s.dev.team k
    t0.partner = some p → t0.shadow = false → t0.status = .resident → s.mach.groupsOf k = [g] → s.mach.groupsOf p = [x] →
    (s.dev.team p).partner = some k → (s.dev.team p).shadow = true → p ≠ k →
    s.mach.group? g.gid = some g → s.mach.group? x.gid = some x → g.gid ≠ x.gid → g.index = x.index → g.dualSt.waiting = true →
    x.dualSt.waiting = true → g.arrived = none → x.arrived = none → hostHoldsNothing s →
    let same := g.dualSt.crc = x.dualSt.crc ∧ g.causeWord = x.causeWord ∧ g.tspc = x.tspc ∧ g.tlpc = x.tlpc
    let fatal := g.dualSt.fatal = true ∧ x.dualSt.fatal = true
    let calm := g.dualSt.fatal = false ∧ x.dualSt.fatal = false
    let apart := ¬ same ∨ ¬ (fatal ∨ calm)
    (same → calm → ∀ a bs p w pl, leaves s.dev a = false → ownsByte s.dev g.ctx a = true → s.dev.syncs.getD (a / 64) false = false →
      fwLocal.fwBusy s.regs s.dev (localAddr s.dev a) = false → fwLocal.homeTurns s.dev (localAddr s.dev a) = false →
      bs.length ≤ 16 → a % 16 + bs.length ≤ 16 → g.dualSt.hold = [.store a bs none p w pl] → leads (.dualCheckpoint k) s fun t =>
        (∀ b, t.memByte b = if a ≤ b ∧ b < a + bs.length then bs.getD (b - a) 0 else s.memByte b) ∧
        ∀ y, y = g ∨ y = x → ∃ z, t.mach.group? y.gid = some z ∧ z.dualSt.waiting = false ∧ z.dualSt.crc = 0 ∧ z.dualSt.hold = [] ∧
          { z with dualSt := y.dualSt } = y) ∧
    (apart → t0.elig = true → t0.mismatches = 0 → leads (.dualCheckpoint k) s fun t =>
      (t.dev.team k).status = .relaunch ∧ (t.dev.team p).status = .relaunch ∧ (t.dev.team k).mismatches = 1 ∧ t.dev.mem = s.dev.mem ∧
      ∀ y ∈ t.mach.allGroups, y.team ≠ k ∧ y.team ≠ p) ∧
    (apart → t0.elig = false → (s.dev.ctx t0.ctx).live = true → leads (.dualCheckpoint k) s fun t =>
      (t.dev.ctx t0.ctx).live = false ∧ ∀ y ∈ t.mach.allGroups, y.team ≠ k ∧ y.team ≠ p) ∧
    (same → fatal → (s.dev.ctx g.ctx).live = true → leads (.dualCheckpoint k) s fun t => (t.dev.ctx g.ctx).live = false)

/-! ### Events of a die's memory -/

/-- R335, R272, R214: what a read does that meets a storage error. The single-bit errors of a line are corrected and counted; one that is
uncorrectable poisons every sector of an HBM4 line, its own sectors in a carve-out; one of a line's copy in Caldera poisons its own sector; a MAC that does not
fit poisons the line and writes a postmark; no byte changes. A scratchpad's single-bit errors are corrected, and each core counts those of its half. How an error arises is the model's
(notes/assumptions/9). -/
def Sys2Proof.Claims.StorageErrors : Prop :=
  (∀ (s : State) (u : Upset) (rest : List Turn), s.agenda = .upset u :: rest → s.dev.regWrites = [] →
    (∀ k, k < 4 → epochDue s.dev k = true → (s.dev.die k).turning = true) →
    step s = .next (({ s with agenda := rest, stalled := false } : State).put (arise u s.mach))) ∧
  (∀ (d : Dev) (l home : Nat) (e : LineError), d.errors.find? l = some e → homeDie (128 * l) = some home →
    let t := meetErrors d l
    let hbm : Prop := 128 * l < Config.hbmTop
    let whole : Bool := decide (e.double ≠ 0) || e.mac
    t.errors.find? l = none ∧ (∀ a, t.mem.byte a = d.mem.byte a) ∧ t.mem.tags = d.mem.tags ∧
    (t.die home).corrected = (d.die home).corrected + ((List.range 4).filter fun i => bit e.single i).length ∧
    (∀ i, i < 4 → t.mem.poisoned (4 * l + i) = (d.mem.poisoned (4 * l + i) || if hbm then whole || bit e.cached i else bit e.double i || bit e.cached i)) ∧
    (∀ k, k / 4 ≠ l → t.mem.poisoned k = d.mem.poisoned k) ∧
    (hbm → e.double = 0 → e.mac = true → t.pkg.logSeq = d.pkg.logSeq + 1) ∧
    (¬ hbm ∨ e.double ≠ 0 ∨ e.mac = false → t.pkg = d.pkg)) ∧
  (∀ (d : Dev) (l : Nat), d.errors.find? l = none → meetErrors d l = d) ∧
  ∀ (d : Dev) (k a n : Nat),
    let t := d.team k
    let soft := (blocksOf 8 a n).filter fun i => t.scratchSoft.getD i false
    let u := correctScratch d k a n
    let home (i : Nat) : Nat := coreKey t.die (if 16 < t.kernel.team ∧ t.scratchSize / 2 ≤ 8 * i then t.core + 1 else t.core)
    (∀ c, (u.core c).corrected = (d.core c).corrected + (soft.filter fun i => home i == c).length) ∧
    (∀ i ∈ blocksOf 8 a n, (u.team k).scratchSoft.getD i false = false) ∧ (u.team k).scratch = t.scratch

/-- R263, R264, R267, R271, R332: a core drops a copy; time ticks; a die whose time is at its limit turns its epoch: its copies and timestamps are gone and EPOCH is
one more. -/
def Sys2Proof.Claims.CoherenceEvents : Prop :=
  ∀ (s : State) (die core l : Nat),
    let k := coreKey die core
    let c := s.dev.core k
    (leads (.copyDrop die core l) s fun t => deviceOnly s t ∧
      (∀ e, c.copies.find? l = some e → e.excl = true → t = s) ∧
      ((∀ e, c.copies.find? l = some e → e.excl = false) → (t.dev.core k).copies.find? l = none ∧ (t.dev.core k).pushes.find? l = none) ∧
      (∀ j, j ≠ l → (t.dev.core k).copies.find? j = c.copies.find? j ∧ (t.dev.core k).pushes.find? j = c.pushes.find? j) ∧
      (∀ j, j ≠ k → { t.dev.core j with routes := (s.dev.core j).routes } = s.dev.core j) ∧
      ((∀ p, c.pushes.find? l = some p → p.used = true) → ∀ j, j ≠ k → t.dev.core j = s.dev.core j)) ∧
    (die < 4 → epochDue s.dev die = false → (s.dev.die die).turning = false → leads (.ptsTick die) s fun t => deviceOnly s t ∧
      (∀ n, n < 192 → (t.dev.core (coreKey die n)).pts = (s.dev.core (coreKey die n)).pts + 1) ∧
      ∀ j, j / 192 ≠ die → t.dev.core j = s.dev.core j) ∧
    (die < 4 → epochDue s.dev die = true → idles (.ptsTick die) s ∧ leads (.epochTurn die) s fun t => deviceOnly s t ∧
      (t.dev.die die).turning = true) ∧
    (epochDue s.dev die = false → idles (.epochTurn die) s) ∧ ((s.dev.die die).turning = false → idles (.epochTurnComplete die) s) ∧
    ((s.dev.die die).turning = true → leads (.epochTurnComplete die) s fun t => t.dev.mem = s.dev.mem ∧
      (t.dev.die die).epoch = (s.dev.die die).epoch + 1 ∧ (t.dev.die die).turning = false ∧ (t.dev.die die).rmax = 0 ∧
      (∀ j, j / 192 = die → (t.dev.core j).pts = 0) ∧ (∀ j, j / 192 ≠ die → (t.dev.core j).pts = (s.dev.core j).pts) ∧
      (∀ j n, homed die n → (t.dev.core j).copies.find? n = none ∧ (t.dev.core j).pushes.find? n = none) ∧
      (∀ n, homed die n → (t.dev.line n).mwts = 0 ∧ (t.dev.line n).mrts = 0 ∧ (t.dev.line n).owner = none) ∧
      ∀ n, ¬ homed die n → t.dev.line n = s.dev.line n)

/-- R264, R270, R271: a write of COHCTL takes the fields that are in range, and the copies that are held keep the age limit that they began with; a write of CALCFG
begins a change that its fields in range ask for, and the change, once done, gives CALCFG its new values and zeroes what each quarter gives up or gains. That a write
of CALCFG during a change changes nothing is the model's (notes/assumptions/40). -/
def Sys2Proof.Claims.ControlRegisterEvents : Prop :=
  ∀ (s : State) (die : Nat) (v : Word), die < 4 →
    let r := s.regs.die die
    let tick := (v.extractLsb' 16 4).toNat
    let lease := v.extractLsb' 8 8
    let field (q : Nat) : Nat := (v.extractLsb' (4 * q) 4).toNat
    let dated (k : Nat) (e : Copy) : Copy := if k / 192 = die ∧ e.excl = false ∧ e.life = none then
      { e with life := some ((r.lease.toNat + 1) * 2 ^ r.tick.toNat) } else e
    (leads (.cohctlWrite die v) s fun t => t.grp = s.grp ∧ { t.dev with cores := s.dev.cores } = s.dev ∧
      (∀ k, { t.dev.core k with copies := (s.dev.core k).copies, pushes := (s.dev.core k).pushes } = s.dev.core k ∧ ∀ l,
        (t.dev.core k).copies.find? l = ((s.dev.core k).copies.find? l).map (dated k) ∧
        (t.dev.core k).pushes.find? l = ((s.dev.core k).pushes.find? l).map (dated k)) ∧
      ((t.regs.die die).tick.toNat = if 6 ≤ tick ∧ tick ≤ 12 then tick else r.tick.toNat) ∧
      ((t.regs.die die).lease = if lease ≠ 0 then lease else r.lease) ∧ (∀ q, q < 4 → (t.regs.die die).carve q = r.carve q) ∧
      ∀ e, e < 4 → e ≠ die → t.regs.die e = s.regs.die e) ∧
    ((s.dev.die die).carveNew.isSome = true → idles (.calcfgWrite die v) s) ∧
    ((s.dev.die die).carveNew = none → leads (.calcfgWrite die v) s fun t => deviceOnly s t ∧ ∃ n, (t.dev.die die).carveNew = some n ∧
      n.length = 4 ∧ ∀ q, q < 4 → n.getD q 0 = if field q ≤ 12 then field q else r.carve q) ∧
    ((s.dev.die die).carveNew = none → idles (.carveChangeDone die) s) ∧
    (∀ n, hostHoldsNothing s → (s.dev.die die).carveNew = some n → n.length = 4 → (∀ q, q < 4 → n.getD q 0 ≤ 12) → leads (.carveChangeDone die) s fun t =>
      t.grp = s.grp ∧ (t.dev.die die).carveNew = none ∧ (∀ q, q < 4 → (t.regs.die die).carve q = n.getD q 0) ∧
      (t.regs.die die).tick = r.tick ∧ (t.regs.die die).lease = r.lease ∧
      ∀ b, (let base (q : Nat) : Nat := Config.carveBase + (4 * die + q) * Config.carveWindow
        (∃ q, q < 4 ∧ base q + min (r.carve q) (n.getD q 0) * 2 ^ 22 ≤ b ∧ b < base q + max (r.carve q) (n.getD q 0) * 2 ^ 22) →
          t.memByte b = 0) ∧
        (s.regs.legal = true → b < Config.carveBase ∨ Config.carveBase + 16 * Config.carveWindow ≤ b → t.memByte b = s.memByte b))

/-- R276, R277, R279, R153: `sw.revoke` checks, in order, its capability, the room in the next pass and that the region is the colour's, adds the region
and returns the number of the pass that will take it; `sw.status` reads the last pass done; `sw.wait` waits for a pass, modulo 2^32. That a full set is told before
a region outside is the model's order (notes/assumptions/53). -/
def Sys2Proof.Claims.SweepWords : Prop :=
  ∀ (s : State) (d : SReg) (a : CReg) (b : SReg),
    let g := s.grp
    let c := g.rc a.toNat
    let p := s.dev.parts.getD g.part {}
    let check := capCheck8 c (s.mach.party false) needRevoke (c.colour = g.colour) c.base.toNat 0
    let traps (cause : Nat) : Prop := trapsNow g → exec (.swRevoke d a) s = .next { s with grp := g.scalarTrapped cause }
    let outside := regionOutside s.regs s.dev g.part g.colour c.base.toNat c.top.toNat
    (∀ cause, check = some cause → traps cause) ∧ (check = none → g.shadow = false → 64 ≤ p.nextSet.length → traps 48) ∧
    (check = none → g.shadow = false → p.nextSet.length < 64 → outside = true → traps 49) ∧
    (check = none → g.shadow = false → g.dual = false → p.nextSet.length < 64 → outside = false → leads (.swRevoke d a) s fun t =>
      let y := t.dev.parts.getD g.part {}
      (p.running = none → onlyReg g t.grp d ((p.passNo + 1).zeroExtend 64) ∧ y.passNo = p.passNo + 1 ∧ y.nextSet = [] ∧
        y.running = some (p.nextSet ++ [(c.base.toNat, c.top.toNat)])) ∧
      (p.running ≠ none → onlyReg g t.grp d ((p.passNo + 1).zeroExtend 64) ∧ y.passNo = p.passNo ∧ y.running = p.running ∧
        y.nextSet = p.nextSet ++ [(c.base.toNat, c.top.toNat)]) ∧ t.dev.mem = s.dev.mem) ∧
    (g.queue ≠ [] → exec (.swStatus d) s = .next s.waits ∧ exec (.swWait b) s = .next s.waits) ∧
    (g.queue = [] → exec (.swStatus d) s = .next { s with grp := g.result d (p.lastDone.zeroExtend 64) }) ∧
    (g.queue = [] → g.dual = false →
      let behind := (p.lastDone - (g.rs b.toNat).extractLsb' 0 32).toNat
      (2 ^ 31 ≤ behind → exec (.swWait b) s = .next s.waits) ∧
      (behind < 2 ^ 31 → leads (.swWait b) s fun t => t.grp = g.advance ∧ t.dev.mem = s.dev.mem ∧ s.pts ≤ t.pts ∧ s.rmax ≤ t.pts))

/-- R278, R275, R277, R79, R280: a pass takes the whole next set; its register step leaves no `c` register and no quad of a group of the partition with a tagged capability that meets
a region of the pass; its memory step, when it completes, no granule of a sound line that the partition's firewall admits; every byte is as before, and the pass is the last done.
It pauses while a die of the partition turns its epoch, and waits for the accesses and the stores that are held: these waits between its two steps are the model's
(notes/assumptions/53). -/
def Sys2Proof.Claims.SweepPasses : Prop :=
  ∀ (s : State) (k : Nat),
    let p := s.dev.parts.getD k {}
    (p.running ≠ none ∨ p.nextSet = [] → leads (.sweepPassStart k) s fun t => t.dev.parts.getD k {} = p ∧ deviceOnly s t) ∧
    (p.running = none → p.nextSet ≠ [] → leads (.sweepPassStart k) s fun t => deviceOnly s t ∧
      t.dev.parts.getD k {} = { p with running := some p.nextSet, nextSet := [], passNo := p.passNo + 1, regsDone := false }) ∧
    (p.running = none ∨ passPaused s.dev k = true → idles (.sweepPassComplete k) s) ∧
    (p.running ≠ none → p.regsDone = false → (∃ g ∈ s.mach.allGroups, g.part = k ∧ g.heldWords ≠ []) → idles (.sweepPassComplete k) s) ∧
    (p.running ≠ none → p.regsDone = true → passOwed s.mach k = true → idles (.sweepPassComplete k) s) ∧
    (∀ rs, p.running = some rs → passPaused s.dev k = false → p.regsDone = false →
      (∀ g ∈ s.mach.allGroups, g.part = k → g.heldWords = []) → leads (.sweepPassComplete k) s fun t =>
      let clean (c : Cap) : Prop := c.tag = true → ∀ r ∈ rs, c.meets r = false
      t.dev.parts.getD k {} = { p with regsDone := true } ∧ t.dev.mem = s.dev.mem ∧
      ∀ g ∈ t.mach.allGroups, g.part = k → (∀ n, clean (g.rc n)) ∧ ∀ q l, l < 64 → clean (g.lanes.quad q l).1) ∧
    (∀ rs, p.running = some rs → passPaused s.dev k = false → p.regsDone = true → passOwed s.mach k = false →
      leads (.sweepPassComplete k) s fun t =>
      let y := t.dev.parts.getD k {}
      let clean (c : Cap) : Prop := c.tag = true → ∀ r ∈ rs, c.meets r = false
      y.running = none ∧ y.lastDone = p.passNo ∧ y.nextSet = p.nextSet ∧ (∀ b, t.memByte b = s.memByte b) ∧ t.grp = s.grp ∧
      (∀ n, soundLine s (16 * n) → granuleOf t.dev k n = true → clean ⟨BitVec.ofNat 128 (t.dev.mem.num (16 * n) 16), t.dev.mem.tag n⟩) ∧
      (s.dev.mem.wf = true → ∀ n, t.dev.mem.tag n = true → s.dev.mem.tag n = true) ∧
      ∀ n, s.dev.mem.tag n = true → (∀ r ∈ rs, Cap.meets ⟨BitVec.ofNat 128 (s.dev.mem.num (16 * n) 16), true⟩ r = false) →
        t.dev.mem.tag n = true)

/-! ### The postmaster core -/

/-- R342, R344: a command runs where its code was written and BUSY is set, and does nothing else; one that writes a postmark answers NOSPACE while the
log would lose a postmark that has not been read. FW_SET during an import is denied where it meets its destination, and ignored elsewhere. -/
def Sys2Proof.Claims.CommandStart : Prop :=
  ∀ (i : Instr) (s : State) (op : Nat) (marks : Bool), commandForm i = some (op, marks) →
    let asked := s.dev.pkg.importing.isSome = true ∧ s.dev.pkg.fwAsked = true
    (s.dev.pkg.pmBusy = false ∨ s.dev.pkg.pmOp.toNat ≠ op ∨ s.dev.pkg.importing.isSome = true → op ≠ 4 ∨ ¬ asked → idles i s) ∧
    (∀ blk z, i = .fwSet blk → s.dev.pkg.importing = some z → s.dev.pkg.fwAsked = true → s.dev.errors = [] →
      let b := pmBlock s.dev blk 512
      let new := fwEntry (BitVec.ofNat 64 (natAt b 8) &&& ~~~(0x00003FFF00000000 : Word), BitVec.ofNat 64 (natAt b 16) &&& (0x0003FFFFFFE00000 : Word))
      let old := fwEntry (s.dev.pkg.fw.getD (natAt b 0) (0, 0))
      let meets := ∃ e, (e = new ∨ e = old) ∧ e.live = true ∧ e.base < z.2.1 + z.2.2.1 ∧ z.2.1 < e.base + e.len
      leads i s fun t => commandOnly s t ∧ t.dev.pkg.fw = s.dev.pkg.fw ∧ t.dev.pkg.fwAsked = false ∧
        (meets → t.dev.pkg.pmStatus = 2) ∧ (¬ meets → t.dev.pkg.pmStatus = s.dev.pkg.pmStatus)) ∧
    (s.dev.pkg.pmBusy = true → s.dev.pkg.pmOp.toNat = op → s.dev.pkg.importing = none → marks = true → logPending s.dev.pkg = true →
      leads i s fun t => answered t 3 ∧ pkgOnly s t)

/-- R342, R301, R316, R336, R337, R338, R281, R345: the commands that make and remove contexts, set partitions and set the firewall: the STATUS, the record that they make, the postmark,
and the memory that changes hands reads zero; FW_SET waits for held accesses that its change meets. The places of their arguments in the command block, and which
held words count, are the model's (notes/assumptions/31, 50). -/
def Sys2Proof.Claims.PartitionCommands : Prop :=
  ∀ (s : State) (blk : List Byte), hostHoldsNothing s → s.dev.errors = [] →
    let b := pmBlock s.dev blk 512
    let n := natAt b 0
    let ctx := n / 2 ^ 24 % 2 ^ 12
    let part := n / 2 ^ 14 % 8
    let fault := Cap.ofBytes ((b.drop 80).take 16) false
    let good := recordOk b = true ∧ (s.dev.parts.getD part {}).quarters ≠ 0 ∧ fault.malformed = false ∧ fault.kind = 0 ∧
      fault.perms &&& 2 = 2 ∧ fault.top - fault.base = 64 ∧ ∀ e ∈ rootRequests b, rootOk e.2 = true
    (commandRuns s 1 true →
      (¬ good → leads (.ctxCreate blk) s fun t => answered t 1 ∧ commandOnly s t) ∧
      (good → (s.dev.ctx ctx).live = true → leads (.ctxCreate blk) s fun t => answered t 2 ∧ commandOnly s t) ∧
      (good → (s.dev.ctx ctx).live = false → leads (.ctxCreate blk) s fun t => answered t 0 ∧ marked s t ∧
        (t.dev.ctx ctx).live = true ∧ (t.dev.ctx ctx).colour = n % 2 ^ 10 ∧ (t.dev.ctx ctx).part = part ∧
        (t.dev.ctx ctx).pri = natAt b 8 % 8 ∧ (t.dev.ctx ctx).drain = natAt b 16 ∧
        (∀ k, k < 7 → (t.dev.ctx ctx).nev.getD k 0 = BitVec.ofNat 64 (natAt b (24 + 8 * k) / 2 ^ 32 * 2 ^ 32)) ∧
        ∀ e ∈ rootRequests b, e.2.kind = 6 → (t.dev.queue? (e.2.base.toNat / 64)).map (fun q => q.ctx) = some ctx)) ∧
    (commandRuns s 2 true →
      (4096 ≤ n ∨ (s.dev.ctx n).live = false ∨ (∃ x ∈ b.drop 8, x ≠ 0) → leads (.ctxRemove blk) s fun t => answered t 1 ∧ commandOnly s t) ∧
      (n < 4096 → (s.dev.ctx n).live = true → (∀ x ∈ b.drop 8, x = 0) → leads (.ctxRemove blk) s fun t => answered t 0 ∧ marked s t ∧
        (t.dev.ctx n).live = false ∧ ∀ g ∈ t.mach.allGroups, g.ctx ≠ n)) ∧
    (commandRuns s 3 true →
      let old := s.dev.parts.getD n {}
      let mask := BitVec.ofNat 16 (natAt b 8)
      let prot := natAt b 16 == 1
      let bad := 8 ≤ n ∨ 65536 ≤ natAt b 8 ∨ 2 ≤ natAt b 16 ∨ ∃ x ∈ b.drop 24, x ≠ 0
      let taken := (s.dev.pkg.stage = 2 ∧ ¬ (n = 0 ∧ natAt b 8 = 15 ∧ natAt b 16 = 0)) ∨ leavesVault s.dev n mask prot = true ∨
        quartersInUse s.dev (old.quarters ||| mask) = true ∨ ∃ e ∈ s.dev.parts, e.1 ≠ n ∧ e.2.quarters &&& mask ≠ 0
      (bad → leads (.partSet blk) s fun t => answered t 1 ∧ commandOnly s t) ∧
      (¬ bad → taken → leads (.partSet blk) s fun t => answered t 2 ∧ commandOnly s t) ∧
      (¬ bad → ¬ taken → leads (.partSet blk) s fun t => answered t 0 ∧ marked s t ∧ t.grp = s.grp ∧
        (t.dev.parts.getD n {}).quarters = mask ∧ (mask ≠ 0 → (t.dev.parts.getD n {}).prot = prot) ∧
        (∀ j, j ≠ n → t.dev.parts.getD j {} = s.dev.parts.getD j {}) ∧
        (∀ k a, k < 16 → bit old.quarters k ≠ bit mask k → inQuarter k a → t.memByte a = 0) ∧
        ∀ a, (∀ k, k < 16 → bit (old.quarters ||| mask) k = true → ¬ inQuarter k a) → t.memByte a = s.memByte a)) ∧
    (commandRuns s 4 true →
      let w0 := BitVec.ofNat 64 (natAt b 8) &&& ~~~(0x00003FFF00000000 : Word)
      let w1 := BitVec.ofNat 64 (natAt b 16) &&& (0x0003FFFFFFE00000 : Word)
      let e := fwEntry (w0, w1)
      let q := { s.dev.pkg with fw := s.dev.pkg.fw.set n (w0, w1) (0, 0) }
      let bad := 2048 ≤ n ∨ (∃ x ∈ b.drop 24, x ≠ 0) ∨ (e.live = true ∧ e.len = 0) ∨
        (e.live = true ∧ e.vlt = true ∧ inMemory e.base e.len = false)
      let denied := e.live = true ∧ e.vlt = true ∧ ((s.dev.parts.getD e.part {}).prot = false ∨
        quartersOf e.base e.len &&& ~~~((s.dev.parts.getD e.part {}).quarters) ≠ 0)
      let waits := fwWaits blk s.mach
      (waits = true → exec (.fwSet blk) s = .next { s with stalled := true }) ∧
      (waits = false → bad → leads (.fwSet blk) s fun t => answered t 1 ∧ commandOnly s t) ∧
      (waits = false → ¬ bad → denied → leads (.fwSet blk) s fun t => answered t 2 ∧ commandOnly s t) ∧
      (waits = false → ¬ bad → ¬ denied → leads (.fwSet blk) s fun t => answered t 0 ∧ marked s t ∧ t.grp = s.grp ∧
        t.dev.pkg.fw.getD n (0, 0) = (w0, w1) ∧ (∀ j, j ≠ n → t.dev.pkg.fw.getD j (0, 0) = s.dev.pkg.fw.getD j (0, 0)) ∧
        ∀ a, a < 2 ^ 50 → t.memByte a = if changesOwner s.dev.pkg q a then 0 else s.memByte a))

/-- R340, R344, R342: an import lays the recovered bytes in the vault, which waits until it completes with STATUS 0, or AUTHFAIL and zeros; LOG_READ, LOG_SIGN and ATTEST write to
the buffer or the block. Cryptography and the block's layout are the model's (notes/assumptions/11, 31). -/
def Sys2Proof.Claims.VaultAndLogCommands : Prop :=
  ∀ (s : State) (blk : List Byte), hostHoldsNothing s → s.dev.errors = [] →
    let b := pmBlock s.dev blk 512
    let x := natAt b 0
    let y := natAt b 8
    let head := blobAt s.dev blk x 512
    let len := natAt head 432
    let held := ∃ e, s.dev.pkg.fwFind y = some e ∧ e.vlt = true ∧ y + len ≤ e.base + e.len ∧ inMemory y len = true
    let good := len % 128 = 0 ∧ 128 ≤ len ∧ len ≤ 2 ^ 40 ∧ held ∧ ∀ z ∈ b.drop 16, z = 0
    let text := Config.recoverBlob head ((blobAt s.dev blk x (512 + len)).drop 512)
    let home := (homeDie s.dev.pkg.pmArg.toNat).isSome = true ∧ leaves s.dev s.dev.pkg.pmArg.toNat = false
    (commandRuns s 5 true →
      (¬ good → leads (.importBlob blk) s fun t => answered t 1 ∧ commandOnly s t) ∧
      (good → leads (.importBlob blk) s fun t => t.dev.pkg.importing = some (x, y, len, text.isSome) ∧ t.dev.pkg.pmBusy = true ∧
        ∀ a, t.memByte a = if y ≤ a ∧ a < y + len then (text.getD []).getD (a - y) 0 else s.memByte a)) ∧
    (s.dev.pkg.importing = none → idles .importComplete s) ∧
    (∀ z, s.dev.pkg.importing = some z → leads .importComplete s fun t => answered t (if z.2.2.2 then 0 else 4) ∧ marked s t ∧
      t.dev.pkg.importing = none ∧ deviceOnly s t) ∧
    (commandRuns s 6 false →
      let buf := natAt b 16
      let readable := (∀ z ∈ b.drop 24, z = 0) ∧ x + y ≤ s.dev.pkg.log.length ∧ (∀ j, j < y → inRing s.dev.pkg (x + j) = true) ∧
        ((homeDie buf).isSome = true ∨ leaves s.dev buf = true)
      (¬ readable → leads (.logRead blk) s fun t => answered t 1 ∧ commandOnly s t) ∧
      (readable → leads (.logRead blk) s fun t => answered t 0 ∧ t.grp = s.grp ∧ t.dev.pkg.log.length = s.dev.pkg.log.length ∧
        (∀ j z, x ≤ j → j < x + y → t.dev.pkg.log[j]? = some z → z.read = true) ∧
        (leaves s.dev buf = false → (∀ l, s.dev.syncs.getD l false = false) → ∀ j z i, j < y → s.dev.pkg.log[x + j]? = some z →
          z.body.length = 32 → (∀ w ∈ s.dev.pkg.log, w.body.length = 32) → i < 32 →
          t.memByte (buf + 64 * j + i) = z.body.getD i 0))) ∧
    (commandRuns s 7 false → leads (.logSign blk) s fun t => answered t 0 ∧ t.grp = s.grp ∧
      t.dev.pkg.log.length = s.dev.pkg.log.length ∧ (∀ z, t.dev.pkg.log.getLast? = some z → z.sig.isSome = true)) ∧
    (commandRuns s 8 false → home → (∀ l, s.dev.syncs.getD l false = false) → leads (.attest blk) s fun t => answered t 0 ∧
      t.grp = s.grp ∧ ∀ i, i < 512 → t.memByte (s.dev.pkg.pmArg.toNat + i) =
        (Config.attestReport (pmBlock s.dev blk 32) s.dev.nextId).getD i 0) ∧
    (commandRuns s 8 false → leads (.attest blk) s fun t => answered t 0 ∧ t.grp = s.grp)

/-! ### The register space, doorbells and queues -/

/-- R330, R299, R341, R342, R264, R271, R346: what a write of 8 bytes does to each register: fields in range are taken, reserved ones are not, and read-only and
unassigned offsets ignore it; PWRCAP's cap stays in [800, 2200] and THR clears; DBERR clears; a throttle step is counted. That a LOG2N above 10 is not taken, and that
the event stands for the postmaster core's write of EGRn, are the model's (notes/assumptions/40, 33). -/
def Sys2Proof.Claims.RegisterEvents : Prop :=
  ∀ (s : State) (v : Word) (die : Nat), die < 4 →
    let p := s.dev.pkg
    let cap := (v.extractLsb' 0 12).toNat
    let op := (v.extractLsb' 0 8).toNat
    let own (o : Nat) (i : Instr) : Prop := exec (.registerWrite (Config.regBase + 2 ^ 24 * die + o) v) s = exec i s
    (∀ i, i = .pwrcapWrite v ∨ i = .registerWrite (Config.pkgBase + 0x300) v → leads i s fun t => t.grp = s.grp ∧
      t.dev = { s.dev with pkg := { p with thr := 0 } } ∧ { t.regs with cap := s.regs.cap } = s.regs ∧
      t.regs.cap.toNat = if 800 ≤ cap ∧ cap ≤ 2200 then cap else s.regs.cap.toNat) ∧
    regBecomes s 0x28 v { p with pmArg := v } ∧ regBecomes s 0x40 v { p with evBase := BitVec.ofNat 64 (v.toNat / 4096 * 4096) } ∧
    regBecomes s 0x50 v { p with evRd := v.extractLsb' 0 32 } ∧
    regBecomes s 0x20 v (if p.pmBusy = true then (if p.importing.isSome = true ∧ op = 4 then { p with fwAsked := true } else p) else if 1 ≤ op ∧ op ≤ 8 then { p with pmBusy := true, pmOp := v.extractLsb' 0 8 }
      else { p with pmStatus := 1 }) ∧
    (leads (.registerWrite (Config.pkgBase + 0x48) v) s fun t => t.grp = s.grp ∧ t.dev = s.dev ∧
      t.regs = if (v.extractLsb' 0 4).toNat ≤ 10 then { s.regs with log2n := v.extractLsb' 0 4 } else s.regs) ∧
    (∀ n, n < 19 → leads (.registerWrite (Config.pkgBase + 0x2000 + 16 * n) v) s fun t => t.grp = s.grp ∧
      t.dev.pkg.limit.getD n 0 = v.extractLsb' 0 44 ∧ (∀ j, j ≠ n → t.dev.pkg.limit.getD j 0 = p.limit.getD j 0) ∧
      { t.dev with pkg := { t.dev.pkg with limit := p.limit } } = s.dev ∧ { t.regs with win := s.regs.win } = s.regs ∧
      t.regs.win.getD n 1000 = (if v.extractLsb' 44 20 = 0 then s.regs.win.getD n 1000 else v.extractLsb' 44 20)) ∧
    (∀ a, (a < Config.regBase ∨ Config.pkgBase + 2 ^ 24 ≤ a ∨ a % 8 ≠ 0 ∨ a = Config.pkgBase + 0x10 ∨ a = Config.pkgBase + 0x18 ∨
      a = Config.pkgBase + 0x4100 ∨ (Config.pkgBase + 0x10000 ≤ a ∧ a < Config.pkgBase + 0x18000) ∨
      (∃ n, n < 19 ∧ a = Config.pkgBase + 0x2008 + 16 * n)) → idles (.registerWrite a v) s) ∧
    own 0x100 (.cohctlWrite die v) ∧ own 0x108 (.calcfgWrite die v) ∧ own 0x208 (.dberrClear die) ∧
    (hostHoldsNothing s → s.dev.pkg.posted = [] → own 0x200 (.doorbell die v)) ∧
    (leads (.dberrClear die) s fun t => deviceOnly s t ∧ (t.dev.die die).dberr = 0 ∧ ∀ j, j ≠ die → t.dev.die j = s.dev.die j) ∧
    ∀ up, leads (.throttle die up) s fun t => deviceOnly s t ∧ (∀ j, j ≠ die → t.dev.die j = s.dev.die j) ∧
      t.dev.die die = { s.dev.die die with throttle := if up = true then (s.dev.die die).throttle - 1 else (s.dev.die die).throttle + 1 }

/-- R299, R300, R345, R349, R356, R369: a doorbell stands behind the host's posted writes; one of a queue that is no live context's of the die, or while the die takes
none, is counted and ignored; a queue that is mapped, pending or not IDLE stays as it is; another joins the pending list, whose first queue takes the lowest free slot,
or that of the mapped queue that has been idle longest, if for 10 µs. -/
def Sys2Proof.Claims.Doorbells : Prop :=
  ∀ (s : State) (die fn : Nat) (v : Word), die < 4 → hostHoldsNothing s → s.dev.errors = [] →
    let q := v.toNat % 2 ^ 44
    let here (x : QueueSt) : Prop := (s.dev.ctx x.ctx).live = true ∧ partOnDie (s.dev.parts.getD (s.dev.ctx x.ctx).part {}) die = true
    let closed := s.dev.pkg.fwState ≠ 0 ∨ (s.dev.pkg.stage = 2 ∧ die ≠ 0)
    let rings (p : State → Prop) : Prop := s.dev.pkg.posted = [] → leads (.doorbell die v) s p
    (s.dev.pkg.posted ≠ [] → exec (.doorbell die v) s = .next s.waits ∧ exec (.vdoor fn die v) s = .next s.waits) ∧
    (closed ∨ s.dev.queue? q = none ∨ (∃ x, s.dev.queue? q = some x ∧ ¬ here x) → rings fun t => ignored s t die) ∧
    (¬ closed → ∀ x, s.dev.queue? q = some x → here x → recordHere s q →
      let lists (t : State) : Prop := ∀ j, (t.dev.die j).slots = (s.dev.die j).slots ∧ (t.dev.die j).pending = (s.dev.die j).pending
      (x.mapped.isSome = true ∨ x.pending = true ∨ (x.state ≠ 0 ∧ (x.state = 3 → s.qState q ≠ 0)) → rings fun t => deviceOnly s t ∧ lists t) ∧
      (x.mapped = none → x.pending = false → x.state = 0 ∨ (x.state = 3 ∧ s.qState q = 0) →
        (∀ i, (s.dev.die die).pending = [] → freeSlot (s.dev.die die) = some i → rings fun t => queueMapped s t die i q) ∧
        (∀ h l i, (s.dev.die die).pending = h :: l → h ≠ q → freeSlot (s.dev.die die) = some i → (s.dev.queue? h).isSome = true →
          recordHere s h → rings fun t => queueMapped s t die i h ∧ (t.dev.die die).pending = (l ++ [q]).filter (· ≠ h)) ∧
        (∀ i y, (s.dev.die die).pending = [] → freeSlot (s.dev.die die) = none → evictable s.dev die = some y → i < 64 →
          (s.dev.die die).slots.find? i = some y → (∀ e ∈ (s.dev.die die).slots, e.1 = i → e.2 = y) → y.qaddr ≠ q → recordHere s y.qaddr →
          rings fun t => (∃ j z, (t.dev.die die).slots.find? j = some z ∧ z.qaddr = q ∧ z.pkt = none) ∧
            (∀ j, ∀ e ∈ (t.dev.die j).slots, e.2.qaddr ≠ y.qaddr) ∧
            (∀ z, t.dev.queue? y.qaddr = some z → z.state = 0 ∧ z.mapped = none) ∧ (noSyncs s → t.qState q = 1 ∧ t.qState y.qaddr = 0)) ∧
        (freeSlot (s.dev.die die) = none → evictable s.dev die = none → rings fun t => deviceOnly s t ∧
          (t.dev.die die).pending = (s.dev.die die).pending ++ [q] ∧ (t.dev.die die).slots = (s.dev.die die).slots))) ∧
    (∀ k, s.dev.pkg.posted = [] → s.dev.pkg.vfs.find? fn = some k →
      ((∃ x, s.dev.queue? q = some x ∧ (s.dev.ctx x.ctx).part ≠ k) → leads (.vdoor fn die v) s fun t => ignored s t die) ∧
      ((∃ x, s.dev.queue? q = some x ∧ (s.dev.ctx x.ctx).part = k) → exec (.vdoor fn die v) s = exec (.doorbell die v) s)) ∧
    (s.dev.pkg.posted = [] → s.dev.pkg.vfs.find? fn = none → idles (.vdoor fn die v) s) ∧
    (∀ x l i, (s.dev.die die).pending = q :: l → freeSlot (s.dev.die die) = some i → s.dev.queue? q = some x → recordHere s q →
      leads (.queueMapPending die) s fun t => queueMapped s t die i q ∧ ∀ k ∈ (t.dev.die die).pending, k ≠ q) ∧
    ((s.dev.die die).pending = [] → idles (.queueMapPending die) s) ∧
    (freeSlot (s.dev.die die) = none → evictable s.dev die = none → leads (.queueMapPending die) s fun t => deviceOnly s t ∧
      (t.dev.die die).pending = (s.dev.die die).pending ∧ (t.dev.die die).slots = (s.dev.die die).slots)

/-- R303, R306, R322: a wait's re-read falls due; a queue whose page is not resident after 1 ms leaves its slot in FAULTWAIT; a report that it is resident returns it to
IDLE and to the pending list of the die that held it. -/
def Sys2Proof.Claims.QueueEvents : Prop :=
  ∀ (s : State) (die slot q : Nat) (y : QSlot) (x : QueueSt), die < 4 → hostHoldsNothing s → s.dev.errors = [] →
    let resident (w : Nat) : Prop := bit (s.dev.pkg.hat.getD w (0, 0)).1 62 = true
    (slot? s.dev die slot = none → idles (.faultwait die slot) s ∧ leads (.waitReread die slot) s fun t => deviceOnly s t ∧
      ∀ j, t.dev.die j = s.dev.die j) ∧
    (slot? s.dev die slot = some y → leads (.waitReread die slot) s fun t => deviceOnly s t ∧
      slot? t.dev die slot = some { y with watch := y.watch || y.watchLine.isSome }) ∧
    (slot? s.dev die slot = some y → y.st ≠ 3 ∨ y.missing = none ∨ (∃ w, y.missing = some w ∧ resident w) → idles (.faultwait die slot) s) ∧
    (∀ w, slot? s.dev die slot = some y → y.st = 3 → y.missing = some w → ¬ resident w → recordHere s y.qaddr → leads (.faultwait die slot) s fun t => queueLeft s t y.qaddr 2) ∧
    (s.dev.queue? q = some x → x.state = 2 → x.die = die → recordHere s q → leads (.hatResident die q) s fun t => t.grp = s.grp ∧
      (t.dev.die die).pending = (s.dev.die die).pending ++ [q] ∧ (noSyncs s → t.qState q = 0 ∧ bytesKept s t (64 * q + 32) 8) ∧
      ∃ z, t.dev.queue? q = some z ∧ z.state = 0 ∧ z.pending = true) ∧
    (s.dev.queue? q = none ∨ (s.dev.queue? q = some x ∧ (x.state ≠ 2 ∨ x.die ≠ die)) → idles (.hatResident die q) s)

/-! ### Packets -/

/-- R302, R304, R305, R307: a round forms when the last has run its passes: the next packet of an eligible queue is fetched and joins; one with ORD waits while an
earlier packet of its queue is open; an index out of the ring's reach is an error; a WAIT joins again only when its line has been written or its re-read is due; a packet in processing goes on, and one that has no
effect until it completes is fetched again. -/
def Sys2Proof.Claims.Rounds : Prop :=
  ∀ (s : State) (die slot : Nat) (y : QSlot) (x : QueueSt), die < 4 → hostHoldsNothing s → s.dev.errors = [] →
    ((∃ e ∈ (s.dev.die die).slots, e.2.passMask = true) → idles (.sortRound die) s) ∧
    ((s.dev.die die).slots = [(slot, y)] → y.passMask = false → s.dev.queue? y.qaddr = some x → recordHere s y.qaddr →
      let rd := rdidx s.dev y.qaddr
      let wr := wridx s.dev y.qaddr
      let ring := Cap.ofBytes (s.dev.mem.read (64 * y.qaddr) 16) (s.dev.mem.tag (4 * y.qaddr))
      let n := (ring.top - ring.base).toNat / 64
      let a := ring.base.toNat + 64 * (rd % max n 1)
      let bs := s.dev.mem.read a 64
      let waiting := (wr + 2 ^ 64 - rd) % 2 ^ 64
      let readable := frontReads s y.ctx ring { kinds := [0], perms := 1, write := false, aligned := false } a 64
      let stays (t : State) : Prop := t.grp = s.grp ∧ (∀ b, t.memByte b = s.memByte b) ∧
        ∃ z, slot? t.dev die slot = some z ∧ z.passMask = false ∧ z.pkt = y.pkt ∧ z.qaddr = y.qaddr
      let joins (t : State) (pkt : Option (List Byte)) : Prop := t.grp = s.grp ∧ (∀ b, t.memByte b = s.memByte b) ∧
        ∃ z, slot? t.dev die slot = some z ∧ z.passMask = true ∧ z.pkt.map (fun e => e.1) = pkt ∧ z.qaddr = y.qaddr
      let ready := x.eligible = true ∧ (y.watchLine = none ∨ y.watch = true)
      let fetches := (y.pkt = none ∧ x.eligible = true) ∨
        ∃ e, y.pkt = some e ∧ y.ended = none ∧ mayRestart e.1 = true ∧ ready ∧ y.got = []
      s.dev.mem.anyPoison (64 * y.qaddr) 64 = false →
      ((y.pkt = none ∧ x.eligible = false) ∨ (fetches ∧ rd = wr) ∨ (y.pkt ≠ none ∧ y.ended.isSome = true) ∨
        (∃ e, y.pkt = some e ∧ mayRestart e.1 = true ∧ ¬ ready) → leads (.sortRound die) s stays) ∧
      (∀ e, y.pkt = some e → y.ended = none → mayRestart e.1 = false ∨ (ready ∧ y.got ≠ []) →
        leads (.sortRound die) s fun t => joins t (some e.1)) ∧
      (fetches → rd ≠ wr → n < waiting → leads (.sortRound die) s fun t => packetFails s t y 4) ∧
      (fetches → rd ≠ wr → waiting ≤ n → readable →
        (pktOrd bs = true → x.open_ ≠ [] → leads (.sortRound die) s stays) ∧
        (pktOrd bs = false ∨ x.open_ = [] → leads (.sortRound die) s fun t => joins t (some bs))))

/-- R302-R304, R306: what every packet shares: one that is not on turn changes nothing; an unknown type or a field out of its range puts its queue in ERROR, and so does
a capability whose check fails; a page that is not resident holds it. -/
def Sys2Proof.Claims.PacketErrors : Prop :=
  ∀ (i : Instr) (s : State) (ty die slot : Nat), packetForm i = some (ty, die, slot) →
    (passTurn s.dev die slot ty = none → s.dev.launches.find? s.dev.nextId = none → idles i s) ∧
    ∀ q bs tags, packetOn s ty die slot q bs tags →
      (∀ code, pktFault bs = some code → s.dev.launches.find? s.dev.nextId = none → leads i s fun t => packetFails s t q code) ∧
      (pktFault bs = none → ∀ c need a n, packetCap ty bs tags = some (c, need, a, n) →
        s.dev.launches.find? s.dev.nextId = none → (∀ cl, i = .pktCopy die slot cl → cl / 48 = die ∧ (s.dev.cluster cl).copies.length < 32) →
        (∀ cause, frontCheck s q.ctx c need a n = .fail cause → leads i s fun t => packetFails s t q 3) ∧
        (∀ w, frontCheck s q.ctx c need a n = .miss w → leads i s fun t => packetHeld s t die slot q 3))

/-- R303, R297, R224, R386: WRITE stores its 8 bytes, SIGNAL adds to an object's VALUE and leaves a poisoned one, WAIT completes when its comparison holds and watches its line
until then. That a SIGNAL's read of a poisoned VALUE is recorded as a consumption is the model's reading (notes/assumptions/30). -/
def Sys2Proof.Claims.WritesSignalsAndWaits : Prop :=
  ∀ (s : State) (die slot : Nat) (q : QSlot) (bs : List Byte) (tags : List Bool), pktFault bs = none →
    let c := fieldCap bs tags 8
    let base := c.base.toNat
    let apart (a : Nat) : Prop := a / 64 ≠ q.qaddr ∧ a % 8 = 0
    (packetOn s 2 die slot q bs tags → frontCheck s q.ctx c { kinds := [0], perms := 2, write := true } c.cursor 8 = .ok →
      (homeDie c.cursor).isSome = true → leads (.pktWrite die slot) s fun t => packetOver s t die slot q ∧ packetDoneNow s t q bs ∧
        ∀ b, b < 64 * q.qaddr + 24 ∨ 64 * q.qaddr + 32 ≤ b →
          t.memByte b = if c.cursor ≤ b ∧ b < c.cursor + 8 then bs.getD (24 + (b - c.cursor)) 0 else s.memByte b) ∧
    (packetOn s 3 die slot q bs tags → frontCheck s q.ctx c { kinds := [3], perms := 32, write := true } base 8 = .ok →
      (homeDie base).isSome = true → apart base →
      (s.dev.mem.anyPoison base 8 = false → leads (.pktSignal die slot) s fun t => packetOver s t die slot q ∧ packetDoneNow s t q bs ∧
        t.dev.mem.word base = s.dev.mem.word base + BitVec.ofNat 64 (natAt bs 24) ∧ bit (t.dev.mem.word (base + 8)) 63 = true ∧
        (∀ b, (b < 64 * q.qaddr + 24 ∨ 64 * q.qaddr + 32 ≤ b) → (b < base ∨ base + 16 ≤ b) → t.memByte b = s.memByte b)) ∧
      (s.dev.mem.anyPoison base 8 = true → leads (.pktSignal die slot) s fun t => packetOver s t die slot q ∧ packetDoneNow s t q bs ∧
        restKept s t q ∧ (t.dev.ctx q.ctx).psn = true)) ∧
    (let a := if c.kind = 3 then base else c.cursor
      let v := s.dev.mem.num a 8
      let ref := natAt bs 24
      let cond := (bs.getD 32 0).toNat
      let holds := (cond = 0 ∧ ref ≤ v) ∨ (cond = 1 ∧ v = ref) ∨ (cond = 2 ∧ v ≠ ref)
      packetOn s 4 die slot q bs tags → frontReads s q.ctx c { kinds := [0, 3], perms := 1, write := false } a 8 →
      (holds → leads (.pktWait die slot) s fun t => packetOver s t die slot q ∧ packetDoneNow s t q bs ∧ restKept s t q) ∧
      (¬ holds → leads (.pktWait die slot) s fun t => packetHeld s t die slot q 2 ∧
        ∃ y, slot? t.dev die slot = some y ∧ y.watchLine = some (a / 128) ∧ y.watch = false))

/-- R303, R305, R310: BARRIER completes when both queues that it names have completed every packet below its indices, FENCE when its own queue has completed every
earlier one; COPY's block enters an engine of the die, and the packet stays open until its operation completes. RDIDX advances at the end of the pass: while another packet of the pass is left, a
packet that has ended leaves it. -/
def Sys2Proof.Claims.BarriersFencesAndCopies : Prop :=
  ∀ (s : State) (die slot cl : Nat) (q : QSlot) (bs : List Byte) (tags : List Bool), pktFault bs = none →
    let named (o : Nat) : Cap := fieldCap bs tags o
    let seen (o : Nat) : Prop := (named o).tag = true →
      frontCheck s q.ctx (named o) { kinds := [6], perms := 0, write := false, aligned := false } (named o).base.toNat 64 = .ok
    let reached (o : Nat) : Prop := (named o).tag = true → queueReached s.dev ((named o).base.toNat / 64) (natAt bs (o + 16)) = true
    let ends (t : State) : Prop := packetOver s t die slot q ∧ packetDoneNow s t q bs ∧ restKept s t q
    (packetOn s 6 die slot q bs tags → seen 8 → seen 32 →
      (reached 8 → reached 32 → leads (.pktBarrier die slot) s ends) ∧
      (¬ (reached 8 ∧ reached 32) → leads (.pktBarrier die slot) s fun t => packetHeld s t die slot q 1)) ∧
    (packetOn s 7 die slot q bs tags →
      let done := ∀ x, s.dev.queue? q.qaddr = some x → ∀ e ∈ x.open_, rdidx s.dev q.qaddr ≤ e.1
      (done → leads (.pktFence die slot) s ends) ∧ (¬ done → leads (.pktFence die slot) s fun t => packetHeld s t die slot q 1)) ∧
    (∀ e b, passTurn s.dev die slot 7 = some q → q.pkt = some (bs, tags) → e ∈ (s.dev.die die).slots → e.1 ≠ slot → e.2.passMask = true →
      e.2.pkt = some b → pktType b.1 = 7 → queueReached s.dev q.qaddr (rdidx s.dev q.qaddr) = true → leads (.pktFence die slot) s fun t =>
        (∃ y, slot? t.dev die slot = some y ∧ y.ended = some (rdidx s.dev q.qaddr, pktEvt bs, true)) ∧
        rdidx t.dev q.qaddr = rdidx s.dev q.qaddr ∧ t.grp = s.grp ∧ t.dev.mem = s.dev.mem) ∧
    (packetOn s 5 die slot q bs tags →
      let c := named 8
      let a := c.base.toNat
      let ctrl := s.dev.mem.word (a + 40)
      (cl / 48 ≠ die ∨ 32 ≤ (s.dev.cluster cl).copies.length → leads (.pktCopy die slot cl) s fun t => deviceOnly s t ∧ slot? t.dev die slot = some q) ∧
      (cl / 48 = die → (s.dev.cluster cl).copies.length < 32 → frontReads s q.ctx c needCmd a 64 →
        (ctrlBuffer ctrl = true → leads (.pktCopy die slot cl) s fun t => packetFails s t q 2) ∧
        (ctrlBuffer ctrl = false → leads (.pktCopy die slot cl) s fun t => packetOver s t die slot q ∧ restKept s t q ∧
          (∃ x, t.dev.queue? q.qaddr = some x ∧ (rdidx s.dev q.qaddr, pktEvt bs) ∈ x.open_) ∧
          ∃ o, (t.dev.cluster cl).copies = (s.dev.cluster cl).copies ++ [o] ∧ o.packet = some (q.qaddr, rdidx s.dev q.qaddr) ∧
            o.len = (s.dev.mem.word (a + 32)).toNat ∧ o.ctrl = ctrl ∧ o.src.bits = BitVec.ofNat 128 (s.dev.mem.num a 16) ∧
            o.dst.bits = BitVec.ofNat 128 (s.dev.mem.num (a + 16) 16) ∧ o.ctx = q.ctx ∧ o.moved = false)))

/-- R303, R308-R312: LAUNCH reads its descriptor and its arguments: a descriptor that fails its checks is error 5, no teams error 2, a `coop` launch that its partition could
not hold error 6; else its teams wait to be admitted, and the packet is open. -/
def Sys2Proof.Claims.Launches : Prop :=
  ∀ (s : State) (die slot : Nat) (q : QSlot) (bs : List Byte) (tags : List Bool), pktFault bs = none → packetOn s 1 die slot q bs tags →
    s.dev.launches.find? s.dev.nextId = none →
    let kd := fieldCap bs tags 8
    let args := fieldCap bs tags 24
    let compl := fieldCap bs tags 48
    let teams := natAt bs 40 % 2 ^ 32
    let need (kind : Nat) (p : BitVec 12) (w : Bool) : Need := { kinds := [kind], perms := p, write := w, aligned := false }
    let kernel := if kd.cursor % 64 = 0 then kernelOf (s.dev.mem.read kd.cursor 128) ((List.range 8).map fun i => s.dev.mem.tag (kd.cursor / 16 + i))
      else none
    let part := s.dev.parts.getD (s.dev.ctx q.ctx).part {}
    let run (p : State → Prop) : Prop := leads (.pktLaunch die slot) s p
    frontReads s q.ctx kd (need 1 16 false) kd.cursor 128 → frontCheck s q.ctx compl (need 0 2 true) compl.cursor 64 = .ok →
    frontReads s q.ctx args (need 0 1 false) args.cursor 384 →
    (kernel = none → run fun t => packetFails s t q 5) ∧
    (∀ k, kernel = some k →
      (teams = 0 → k.node = false → run fun t => packetFails s t q 2) ∧
      (teams ≠ 0 → k.coop = true → coopPossible s.dev part k teams = false → run fun t => packetFails s t q 6) ∧
      (teams ≠ 0 → k.coop = false ∨ coopPossible s.dev part k teams = true → run fun t => packetOver s t die slot q ∧ restKept s t q ∧
        (∃ x, t.dev.queue? q.qaddr = some x ∧ (rdidx s.dev q.qaddr, pktEvt bs) ∈ x.open_) ∧
        (∀ l, l = t.dev.launch s.dev.nextId →
          l.ctx = q.ctx ∧ l.queue = q.qaddr ∧ l.kernel = k ∧ l.teams = teams ∧ l.entered = 0 ∧ l.done = false ∧ l.compl = compl ∧
          l.start = s.dev.time ∧ (∀ j, 1 ≤ j → j < 16 → l.argS.getD j 0 = s.dev.mem.word (args.cursor + 8 * j)) ∧
          ∀ j, 1 ≤ j → j < 16 → (l.argC.getD j {}).bits = BitVec.ofNat 128 (s.dev.mem.num (args.cursor + 128 + 16 * j) 16))))

/-! ### Admission and time sharing -/

/-- R202, R203, R309, R311, R313, R315: a team of the launch whose turn it is is admitted where it fits: it takes the lowest free slots, its groups start at the kernel's entry with
the launch registers, its scratchpad is empty, and its queue's boost returns to 0. A node launch enters one group for the records that are ready. A `coop` launch of more teams than one first reserves the
place, which is the model's way to reserve (notes/assumptions/35). Nothing is admitted otherwise, nor where a `coop` launch claims the place or the core drains; a
capability that a running pass revokes starts untagged (R278). -/
def Sys2Proof.Claims.Admission : Prop :=
  ∀ (s : State) (lk die core : Nat), numbersFree s → s.dev.errors = [] →
    let l := s.dev.launch lk
    let k := l.kernel
    let key := s.dev.nextId
    let room := fits s.dev (s.dev.parts.getD (s.dev.ctx l.ctx).part {}) k lk die core && !drainsAt s.dev l.ctx die core k.team
    let turn := mayAdmit s.dev lk && !coopClaims s.dev lk die core
    let enters (first records : Nat) (t : State) : Prop := schedulesOnly s t ∧
      (∀ x, x = t.dev.team key →
        x.status = .resident ∧ x.launch = lk ∧ x.ctx = l.ctx ∧ x.num = l.entered ∧ x.kernel = k ∧ x.die = die ∧ x.core = core ∧ x.scratch = {} ∧
        x.scratchSize = 1024 * k.scratchKiB ∧ x.elig = k.idem ∧ x.slots = takeSlots s.dev k die core ∧ x.first = first ∧ x.records = records ∧
        x.members.length = k.team ∧ x.partner = none) ∧
      (t.dev.launch lk).entered = l.entered + 1 ∧ (t.dev.launch lk).nodeL = l.nodeL + records ∧
      (∀ x, t.dev.queue? l.queue = some x → x.boost = 0) ∧
      (∀ n, n < k.team → ∃ g, t.dev.groups.find? ((t.dev.team key).members.getD n 0) = some g ∧ g.live = true ∧ g.team = key ∧ g.index = n ∧
        g.ctx = l.ctx ∧ g.width = k.width ∧ g.pc = BitVec.ofNat 64 k.entry ∧ g.die = die ∧ g.trapv = k.trapv ∧ g.queue = [] ∧ g.lanes = {} ∧
        (records = 0 → g.s = l.argS ∧ g.present = maskBelow k.width ∧ ∀ j, (g.rc j).bits = (l.argC.getD j {}).bits ∧
          ((g.rc j).tag = true ↔ (l.argC.getD j {}).tag = true ∧
            ∀ r ∈ (s.dev.parts.getD (s.dev.ctx l.ctx).part {}).running.getD [], (l.argC.getD j {}).meets r = false)) ∧
        (records ≠ 0 → g.s.getD 14 0 = BitVec.ofNat 64 first ∧ g.s.getD 15 0 = BitVec.ofNat 64 records ∧ g.present = maskBelow records)) ∧
      (∀ j, j < key → t.dev.team j = s.dev.team j ∧ t.dev.groups.find? j = s.dev.groups.find? j)
    (k.node = true ∨ l.teams ≤ l.entered ∨ (k.coop = false ∧ turn = false) → idles (.teamAdmit lk die core) s) ∧
    (k.node = false → k.coop = true → l.done = false → l.entered = 0 → l.reserved = [] → 1 < l.teams →
      fits s.dev (s.dev.parts.getD (s.dev.ctx l.ctx).part {}) k lk die core = true → coopClaims s.dev lk die core = false → leads (.teamAdmit lk die core) s fun t =>
        schedulesOnly s t ∧ t.dev.teams = s.dev.teams ∧ t.dev.groups = s.dev.groups ∧ (t.dev.launch lk).reserved = [(die, core)]) ∧
    (k.node = false → k.coop = false → k.dual = false → l.entered < l.teams → turn = true →
      (room = false → idles (.teamAdmit lk die core) s) ∧ (room = true → leads (.teamAdmit lk die core) s (enters 0 0))) ∧
    (k.node = true → k.dual = false → k.team = 1 → turn = true → room = true → ∀ i timer, i = .nodeLaunch lk die core ∧ timer = false ∨ i = .nodeTimer lk die core ∧ timer = true →
      0 < nodeRecords s.dev l timer → nodeRecords s.dev l timer ≤ 64 → leads i s (enters l.nodeL (nodeRecords s.dev l timer))) ∧
    (∀ i timer, i = .nodeLaunch lk die core ∧ timer = false ∨ i = .nodeTimer lk die core ∧ timer = true →
      k.node = false ∨ nodeRecords s.dev l timer = 0 ∨ turn = false → leads i s fun t => schedulesOnly s t ∧ t.dev.teams = s.dev.teams ∧
        t.dev.groups = s.dev.groups ∧ t.dev.launches = s.dev.launches)

/-- R313: how many records a node launch takes: a whole group's width of committed ones, or as many as are left; or, when its timer falls due, what is there.
That the records that are left are counted from DONE at the launch is the model's (notes/assumptions/46). -/
def Sys2Proof.Claims.NodeRecordCounts : Prop :=
  ∀ (s : State) (l : Launch) (timer : Bool),
    let left := l.nodeFrom + l.teams - l.nodeL
    let ready := s.dev.mem.num (localAddr s.dev (l.kernel.bag.base.toNat + 64)) 8 - l.nodeL
    let n := nodeRecords s.dev l timer
    n ≤ left ∧ n ≤ l.kernel.width ∧ n ≤ ready ∧
    (0 < left → 0 < l.kernel.width → l.kernel.width ≤ ready → n = min l.kernel.width left) ∧
    (ready < l.kernel.width → n = if timer = true ∧ l.kernel.timer ≠ 0 then min ready left else 0)

/-- R297, R314: a period starts when its queue becomes ready and at its deadline: DLINE is PERIOD µs away and USED 0; each µs the slots that the queue's teams hold are
charged in sixteenths of a core, and a queue that uses its BUDGET before DLINE overruns and is eligible no longer than the packet that it processes. -/
def Sys2Proof.Claims.PeriodsAndBudgets : Prop :=
  ∀ (s : State) (die q : Nat) (x : QueueSt), hostHoldsNothing s → noSyncs s → die < 4 → s.dev.queue? q = some x → recordHere s q → s.dev.errors = [] →
    let paced := edf s.dev x.ctx = true ∧ qPeriod s.dev q ≠ 0
    let due := queueReady s.dev q = true ∧ (x.ready = false ∨ qDline s.dev q ≤ s.dev.time)
    let sum := x.frac + ((queueTeams s.dev q).map fun e => (e.2.slots.filter fun y => !e.2.freed.contains y).length).sum
    let reads (i : Instr) : Prop := leads i s fun t => t.grp = s.grp ∧ t.regs = s.regs ∧ t.dev.queues = s.dev.queues ∧ t.dev.teams = s.dev.teams ∧
      ∀ b, t.memByte b = s.memByte b
    let used := qUsed s.dev q + sum / 16
    let spent := qBudget s.dev q ≤ used ∧ x.overrun = false ∧ s.dev.time < qDline s.dev q
    (¬ (paced ∧ due) → reads (.periodStart die q)) ∧
    (paced → due → s.dev.time + 1000 * qPeriod s.dev q < 2 ^ 64 → leads (.periodStart die q) s fun t => t.grp = s.grp ∧
      qDline t.dev q = s.dev.time + 1000 * qPeriod s.dev q ∧ qUsed t.dev q = 0 ∧ bytesKept s t (64 * q + 48) 16 ∧
      ∃ y, t.dev.queue? q = some y ∧ y.ready = true ∧ y.overrun = false ∧ y.frac = 0) ∧
    (¬ paced → reads (.budgetAccrue die q)) ∧
    (paced → leads (.budgetAccrue die q) s fun t => qUsed t.dev q = used % 2 ^ 64 ∧ bytesKept s t (64 * q + 56) 8 ∧
      (∃ y, t.dev.queue? q = some y ∧ y.frac = sum % 16 ∧ (spent → y.overrun = true ∧ y.eligible = inProcessing s.dev x) ∧
        (¬ spent → y.overrun = x.overrun ∧ y.eligible = x.eligible)) ∧
      (¬ spent → t.grp = s.grp ∧ t.dev.teams = s.dev.teams ∧ t.dev.pkg.events = s.dev.pkg.events) ∧
      (spent → ∃ e, t.dev.pkg.events = s.dev.pkg.events ++ [e]))

/-- R305, R314, R315: a decision gives every queue of the die its eligibility (a queue with a packet in processing keeps it until the packet ends), and asks the teams that stand
behind the first waiting launch for their slots, and no others; a queue that has waited AGE µs is boosted by 1, up to 7. -/
def Sys2Proof.Claims.Decisions : Prop :=
  ∀ (s : State) (die q : Nat), s.dev.errors = [] →
    let d := setEligible (s.dev.queues.foldl (fun d (e : Nat × QueueSt) => readRecord d e.1) s.dev) die
    let mid : State := { s with dev := d }
    (leads (.scheduleDecision die) s fun t => t.regs = s.regs ∧ t.dev.mem = s.dev.mem ∧ ∀ x, s.dev.queue? q = some x →
      ∃ y, t.dev.queue? q = some y ∧ (partOnDie (s.dev.parts.getD (s.dev.ctx x.ctx).part {}) die = true →
        y.eligible = (eligibleNow s.dev q x || (x.eligible && inProcessing s.dev x))) ∧
        (partOnDie (s.dev.parts.getD (s.dev.ctx x.ctx).part {}) die = false → y.eligible = x.eligible)) ∧
    ((∀ e ∈ s.dev.launches, e.2.done = true) → exec (.scheduleDecision die) s = .next mid) ∧
    (∀ p lk v, (s.dev.parts.map (fun e => e.1)).filter (fun p => partOnDie (s.dev.parts.getD p {}) die) = [p] →
      (waiting d p).find? (fun k => mayAdmit d k) = some lk → victims lk d.teams.length d = [v] →
        exec (.scheduleDecision die) s = exec (.preemptRequest v) mid ∧
        (Tab.risingFrom none s.dev.teams = true → yieldsTo d (d.team v) lk = true)) ∧
    (∀ p lk, (s.dev.parts.map (fun e => e.1)).filter (fun p => partOnDie (s.dev.parts.getD p {}) die) = [p] →
      (waiting d p).find? (fun k => mayAdmit d k) = some lk → launchFits d lk = true → exec (.scheduleDecision die) s = .next mid) ∧
    (∀ x, die < 4 → s.dev.queue? q = some x →
      let waits_ := ∃ e ∈ s.dev.launches, e.2.queue = q ∧ waits s.dev e.1 = true
      (edf s.dev x.ctx = false → waits_ → leads (.ageingBoost die q) s fun t => schedulesOnly s t ∧ t.dev.teams = s.dev.teams ∧
        ∃ y, t.dev.queue? q = some y ∧ y.boost = min 7 (x.boost + 1) ∧ { y with boost := x.boost } = x) ∧
      (edf s.dev x.ctx = true ∨ ¬ waits_ → idles (.ageingBoost die q) s))

/-- R316, R187, R342: a context is removed: its groups end, its queues are STOPPED and out of their slots, its teams are gone, and its fault record tells the reason. -/
def Sys2Proof.Claims.ContextRemoval : Prop :=
  ∀ (s : State) (ctx : Nat), hostHoldsNothing s →
    let x := s.dev.ctx ctx
    (x.live = false → idles (.contextRemoval ctx) s) ∧
    (x.live = true → leads (.contextRemoval ctx) s fun t => (t.dev.ctx ctx).live = false ∧ (∀ g ∈ t.mach.allGroups, g.ctx ≠ ctx) ∧
      (∀ q y, t.dev.queue? q = some y → y.ctx = ctx → y.state = 4 ∧ y.mapped = none) ∧
      (∀ k, (s.dev.team k).ctx = ctx → (t.dev.team k).status ≠ .resident) ∧
      (∀ c, c ≠ ctx → t.dev.ctx c = s.dev.ctx c) ∧ (s.grp.ctx ≠ ctx → t.grp = s.grp) ∧
      (x.fault.tag = true → (homeDie x.fault.base.toNat).isSome = true → ownsByte s.dev ctx x.fault.base.toNat = true → frontFree s x.fault.base.toNat → noSyncs s → (∀ e ∈ s.dev.queues, e.2.ctx ≠ ctx) →
        (∀ e ∈ s.dev.launches, e.2.ctx = ctx → e.2.done = true) → t.dev.mem.num (x.fault.base.toNat + 40) 8 = 4 ∧
        bytesKept s t x.fault.base.toNat 64))

/-! ### The package, the host port and the peers -/

/-- R343, R341, R344: the oldest event record enters the host's ring while there is room, by a request to the host; at the end of a limiter's window its count clears, and a window with a
refusal is written in the log. -/
def Sys2Proof.Claims.RingAndLimiterEvents : Prop :=
  ∀ (s : State) (n : Nat) (e : Event) (es : List Event),
    let p := s.dev.pkg
    let size := 2 ^ (s.regs.log2n.toNat + 6)
    let a := p.evBase.toNat + 32 * (p.evWr.toNat % size)
    let full := size ≤ (p.evWr - p.evRd).toNat
    (p.events = [] ∨ full ∨ p.evBase.toNat < Config.hostBase ∨ Config.peerBase ≤ p.evBase.toNat → idles .eventDelivery s) ∧
    (p.events = e :: es → ¬ full → Config.hostBase ≤ p.evBase.toNat → p.evBase.toNat % 4096 = 0 → a < Config.peerBase → leads .eventDelivery s fun t =>
      deviceOnly s t ∧ t.dev.pkg.events = es ∧ t.dev.pkg.evWr = p.evWr + 1 ∧ ∃ r, t.dev.remotes = s.dev.remotes ++ [r] ∧ r.addr = a ∧
        r.write = some (e.bytes) ∧ e.bytes.length = 32 ∧ r.gid = 0) ∧
    (p.refused.getD n 0 = 0 → leads (.egressWindowEnd n) s fun t => pkgOnly s t ∧ t.dev.pkg.count.getD n 0 = 0 ∧ t.dev.pkg.log = p.log) ∧
    (p.refused.getD n 0 ≠ 0 → leads (.egressWindowEnd n) s fun t => pkgOnly s t ∧ t.dev.pkg.count.getD n 0 = 0 ∧
      t.dev.pkg.refused.getD n 0 = 0 ∧ marked s t) ∧
    ∀ j, j ≠ n → ∀ t, exec (.egressWindowEnd n) s = .next t → t.dev.pkg.count.getD j 0 = p.count.getD j 0

/-- R345, R354, R355: the stages of bring-up follow each other; reduced service makes die 0 one ordinary partition; full service saves and restores die 0's teams, once their engines
rest; a die without teams writes back its modified host lines and sleeps, but not while it cannot write them back. An image must verify (Config.bootVerifies is a free
value, notes/assumptions/11). -/
def Sys2Proof.Claims.StagesAndSleep : Prop :=
  ∀ (s : State) (die : Nat) (code : BitVec 4),
    let p := s.dev.pkg
    let at_ (i : Instr) (k : BitVec 3) : Prop := (p.stage ≠ k → idles i s)
    at_ (.bootStage .firmware) 0 ∧ at_ (.bootStage .reduced) 1 ∧ at_ (.bootStage .full) 2 ∧
    (Config.bootVerifies = false → idles (.bootStage .firmware) s) ∧
    (p.stage = 0 → Config.bootVerifies = true → exec (.bootStage .firmware) s = .next { s with dev := { s.dev with pkg := { p with stage := 1, fail := 0 } } }) ∧
    (exec (.bootStage (.failed code)) s = .next { s with dev := { s.dev with pkg := { p with stage := 7, fail := code } } }) ∧
    (p.stage = 1 → hostHoldsNothing s → leads (.bootStage .reduced) s fun t => t.grp = s.grp ∧ t.regs = s.regs ∧ t.dev.pkg.stage = 2 ∧
      (t.dev.parts.getD 0 {}).quarters = 15 ∧ (t.dev.parts.getD 0 {}).prot = false ∧
      (∀ j, j ≠ 0 → t.dev.parts.getD j {} = s.dev.parts.getD j {}) ∧
      ∀ a, (∀ k, k < 16 → bit ((s.dev.parts.getD 0 {}).quarters ||| 15) k = true → ¬ inQuarter k a) → t.memByte a = s.memByte a) ∧
    (p.stage = 2 → dieTeams s.dev 0 = [] →
      exec (.bootStage .full) s = .next { s with dev := { s.dev with pkg := { p with stage := 3, fail := 0 } } }) ∧
    (p.stage = 2 → (∃ k ∈ dieTeams s.dev 0, saveReady s.mach k = false) → exec (.bootStage .full) s = .next s.waits) ∧
    (p.stage = 2 → (∀ k ∈ dieTeams s.dev 0, saveReady s.mach k = true ∧ (s.dev.team k).status = .resident ∧ (s.dev.team k).scratchMet = []) →
      leads (.bootStage .full) s fun t => t.dev.pkg.stage = 3 ∧ t.dev.pkg.fail = 0 ∧ t.dev.mem = s.dev.mem ∧ ∀ k ∈ dieTeams s.dev 0,
        let x := s.dev.team k
        let y := t.dev.team k
        let place := x.kernel.team ≤ 16 ∧ x.kernel.scratchKiB ≤ 256 ∧ coreInPart (s.dev.parts.getD (s.dev.ctx x.ctx).part {}) 0 x.core = true ∧
          ∀ e ∈ s.dev.launches, e.2.reserved = []
        (y.status = .resident ∨ y.status = .saved) ∧ y.members = x.members ∧ y.scratch = x.scratch ∧ y.preempted = true ∧
        (∀ g ∈ t.mach.groupsOf k, g.chain = none ∧ g.park = none ∧ g.arrived = none) ∧
        (dieTeams s.dev 0 = [k] → x.die = 0 → place → y.status = .resident ∧ y.die = 0 ∧ y.core = x.core)) ∧
    (let stuck : Prop := p.linkUp = false ∧ ∃ e ∈ p.snoop, e.2.dirty = true ∧ e.2.die = die;
      (4 ≤ die ∨ dieTeams s.dev die ≠ [] ∨ stuck → idles (.diePowerGate die) s) ∧
      (die < 4 → dieTeams s.dev die = [] → ¬ stuck → leads (.diePowerGate die) s fun t => deviceOnly s t ∧ (t.dev.die die).gated = true ∧
        (∀ l, t.dev.pkg.snoop.find? l = (p.snoop.find? l).map fun x => if x.die = die then { x with dirty := false } else x) ∧
        t.dev.pkg.lostLines = p.lostLines ∧ ∀ l x, p.snoop.find? l = some x → x.die = die → x.dirty = true →
          (l, .writeBack x.bytes x.psn) ∈ t.dev.pkg.hostOut))

/-- R348, R357, R350, R351, R352, R353, R354, R370: training, sessions, the windows of the host range, and lines that the host or the module holds. A snoop is answered: with the data of a modified line, without
data, or with poison for a lost line. A session keys a port for a partition and a peer, and a lost peer joins on that port. That a LEN above its greatest value is
stored as that, and how a session names its peer, are the model's (notes/assumptions/54, 42). -/
def Sys2Proof.Claims.LinkEvents : Prop :=
  ∀ (s : State) (port idx k j line : Nat) (v : Word) (flag : Bool),
    let p := s.dev.pkg
    let portOf (t : State) (n : Nat) : Port := t.dev.pkg.ports.getD n {}
    let known (n : Nat) : Prop := (s.dev.parts.getD n {}).quarters ≠ 0
    (leads (.linkTrain .cxl) s fun t => t = { s with dev := { s.dev with pkg := { p with linkUp := true, linkCxl := true } } }) ∧
    (leads (.linkTrain .pcie) s fun t => t = { s with dev := { s.dev with pkg := { p with
      linkUp := true, linkCxl := false, snoop := []
      hostOut := p.hostOut ++ (p.snoop.filter fun e => e.2.dirty).map fun e => (e.1, .writeBack e.2.bytes e.2.psn) } } }) ∧
    (18 ≤ port ∨ 144 ≤ idx → idles (.swiundPortTrain port idx) s) ∧
    (port < 18 → idx < 144 → leads (.swiundPortTrain port idx) s fun t => pkgOnly s t ∧ t.dev.pkg.domValid = true ∧
      t.dev.pkg.domIndex.toNat = idx ∧ portOf t port = { portOf s port with up := true } ∧ ∀ n, n ≠ port → portOf t n = portOf s n) ∧
    (p.linkUp = true → known k → leads (.spdmSession none (some k) none) s fun t => deviceOnly s t ∧
      t.dev.parts.getD k {} = { s.dev.parts.getD k {} with ide := true } ∧ ∀ n, n ≠ k → t.dev.parts.getD n {} = s.dev.parts.getD n {}) ∧
    (p.linkUp = false ∨ ¬ known k → idles (.spdmSession none (some k) none) s) ∧
    (port < 18 → (portOf s port).up = true → known k → leads (.spdmSession (some port) (some k) (some j)) s fun t => pkgOnly s t ∧
      (portOf t port).ide = true ∧ (k, some j) ∈ (portOf t port).keyed ∧
      t.dev.pkg.lostPeers.getD j [] = (p.lostPeers.getD j []).filter (· ≠ port) ∧
      ∀ n, n ≠ port → portOf t n = portOf s n) ∧
    (18 ≤ port ∨ (portOf s port).up = false → idles (.spdmSession (some port) (some k) (some j)) s) ∧
    (18 ≤ port → idles (.swstRetryClear port) s) ∧
    (port < 18 → leads (.swstRetryClear port) s fun t => pkgOnly s t ∧ portOf t port = { portOf s port with retry := 0 } ∧
      ∀ n, n ≠ port → portOf t n = portOf s n) ∧
    (256 ≤ k → idles (.hatwWrite k flag v) s) ∧
    (k < 256 → leads (.hatwWrite k true v) s fun t => pkgOnly s t ∧
      t.dev.pkg.hat.getD k (0, 0) = ((p.hat.getD k (0, 0)).1, BitVec.ofNat 64 (v.toNat / 2 ^ 21 * 2 ^ 21)) ∧
      ∀ n, n ≠ k → t.dev.pkg.hat.getD n (0, 0) = p.hat.getD n (0, 0)) ∧
    (k < 256 → hatInFlight s.dev k = true → leads (.hatwWrite k false v) s fun t => pkgOnly s t ∧ t.dev.pkg.hat = p.hat ∧
      t.dev.pkg.hatPending = p.hatPending ++ [(k, v, hatFlights s.dev k)]) ∧
    (k < 256 → hatInFlight s.dev k = false → leads (.hatwWrite k false v) s fun t => pkgOnly s t ∧
      t.dev.pkg.hat.getD k (0, 0) = (if 524288 < v.toNat % 2 ^ 32 then (v &&& 0xFFFE000000000000) ||| 524288 else v &&& 0xFFFE0000FFFFFFFF
        , (p.hat.getD k (0, 0)).2) ∧ t.dev.pkg.hatPending = p.hatPending ∧
      (bit v 62 = true → t.dev.pkg.hatMiss.getD k false = false)) ∧
    (p.hatMiss.getD k false = false → idles (.hatmiss k) s) ∧
    (p.hatMiss.getD k false = true → leads (.hatmiss k) s fun t => pkgOnly s t ∧ t.dev.pkg.hatExpired.getD k false = true) ∧
    (let answers (m : HostMsg) (x : Option HostLine) : Prop := leads (.hostSnoop line flag) s fun t => pkgOnly s t ∧
        t.dev.pkg.hostOut = p.hostOut ++ [(line, m)] ∧ t.dev.pkg.snoop.find? line = x ∧ t.dev.pkg.lostLines = p.lostLines;
      (p.lostLines.getD line false = true → answers .poisoned (p.snoop.find? line)) ∧
      (p.lostLines.getD line false = false → p.snoop.find? line = none → answers .noData none) ∧
      ∀ x, p.lostLines.getD line false = false → p.snoop.find? line = some x →
        answers (if x.dirty = true ∧ (s.dev.die x.die).gated = false then .data x.bytes x.psn else .noData)
          (if flag = true then none else some { x with dirty := false, spans := x.spans.map fun e => (e.1, e.2.1, false, e.2.2.2) })) ∧
    (flag = true ∨ p.backInv.find? line = none → idles (.backInvalidationAnswer line flag) s) ∧
    ((p.backInv.find? line).isSome = true → leads (.backInvalidationAnswer line false) s fun t => pkgOnly s t ∧
      t.dev.pkg.backInv.find? line = none ∧ t.dev.pkg.hostHeld.getD line false = false)

/-- R338, R356, R358, R359, R360, R353, R386: requests that arrive through a port: one that comes while its port is down, or that the firewall does not admit, changes nothing; one waits behind those
of its source and lane that wait, for bytes that are held, and for the host's copies of its lines, which are asked back; an admitted write stores its bytes without tags; an admitted read by the host in CXL mode lets it hold the lines. Reads of vault bytes that may be exported count against the port's limiter, the host's against limiter 0. -/
def Sys2Proof.Claims.ArrivingRequests : Prop :=
  ∀ (s : State) (r : PeerRequest) (h : HostRequest), noSyncs s → s.dev.errors = [] → r.sync = .no → s.dev.pkg.posted = [] →
    let p := s.dev.pkg
    let peer := admitRange (peerAdmit s.regs s.dev r) r.addr r.len
    let host := admitRange (hostAdmit s.regs s.dev h) h.addr h.len
    let up := (p.ports.getD r.port {}).up = true ∧ r.port < 18 ∧ r.addr < 2 ^ 40
    let given (bs : List Byte) (a n b : Nat) : Byte := if a ≤ b ∧ b < a + n then bs.getD (b - a) 0 else s.memByte b
    let behind := ∃ w ∈ p.peersWait, sameLane r w = true
    (behind ∨ (up ∧ peer = .busy) → exec (.remoteRequest r) s = .next { s with dev := { s.dev with pkg := { p with peersWait := p.peersWait ++ [r] } } }) ∧
    (¬ behind → ¬ up ∨ peer = .no → idles (.remoteRequest r) s) ∧
    (¬ behind → up → (∃ k, peer = .yes k) → r.atomic = none → r.write ≠ none → r.envelope = false → 0 < r.len → p.hostHeld.getD (r.addr / 128) false = true →
      leads (.remoteRequest r) s fun t => deviceOnly s t ∧ t.dev.pkg.peersWait = p.peersWait ++ [r] ∧ (t.dev.pkg.backInv.find? (r.addr / 128)).isSome = true) ∧
    (¬ behind → up → hostHoldsNothing s → (∃ k, peer = .yes k) → r.atomic = none →
      (∀ bs, r.write = some bs → r.envelope = false → leads (.remoteRequest r) s fun t => t.grp = s.grp ∧ t.regs = s.regs ∧
        (∀ b, t.memByte b = given bs r.addr r.len b) ∧ ∀ g, r.addr / 16 ≤ g → 16 * g < r.addr + r.len → t.dev.mem.tag g = false) ∧
      (r.write = none → leads (.remoteRequest r) s fun t => deviceOnly s t)) ∧
    (¬ behind → up → (∃ k, peer = .egress k) → leads (.remoteRequest r) s fun t => t.grp = s.grp ∧ t.dev.mem = s.dev.mem ∧
      let c := (p.count.getD (r.port + 1) 0).toNat
      let fits := c + r.len ≤ (p.limit.getD (r.port + 1) 0).toNat
      (t.dev.pkg.count.getD (r.port + 1) 0).toNat = (if fits then c + r.len else c) ∧
      t.dev.pkg.refused.getD (r.port + 1) 0 = p.refused.getD (r.port + 1) 0 + if fits then 0 else r.len) ∧
    (p.linkUp = true → (∃ k, host = .egress k) → h.write = none → h.addr < Config.hostBase → leads (.hostRequest h) s fun t =>
      t.grp = s.grp ∧ t.dev.mem = s.dev.mem ∧
      let c := (p.count.getD 0 0).toNat
      let fits := c + h.len ≤ (p.limit.getD 0 0).toNat
      (t.dev.pkg.count.getD 0 0).toNat = (if fits then c + h.len else c) ∧
      t.dev.pkg.refused.getD 0 0 = p.refused.getD 0 0 + if fits then 0 else h.len) ∧
    (p.linkUp = false → idles (.hostRequest h) s) ∧
    (p.linkUp = true → h.addr < Config.hostBase → host = .no → idles (.hostRequest h) s) ∧
    (p.linkUp = true → h.addr < Config.hostBase → host = .busy → exec (.hostRequest h) s =
      .next (if h.write.isSome = true then { s with dev := { s.dev with pkg := { p with posted := [h] } } } else s.waits)) ∧
    (p.linkUp = true → (∃ k, host = .yes k) → h.addr < Config.hostBase → h.addr + h.len ≤ Config.hbmTop →
      (∀ bs, h.write = some bs → hostHoldsNothing s → leads (.hostRequest h) s fun t => t.grp = s.grp ∧ t.regs = s.regs ∧
        ∀ b, t.memByte b = given bs h.addr h.len b) ∧
      (h.write = none → leads (.hostRequest h) s fun t => deviceOnly s t ∧
        (p.linkCxl = true → 0 < h.len → t.dev.pkg.hostHeld.getD (h.addr / 128) false = true) ∧
        (p.linkCxl = false → t.dev.pkg.hostHeld = p.hostHeld)))

/-- R355, R357, R368, R370, R371: a hot reset takes every context away and the link down, but waits while new firmware takes effect; a die that does not answer its probes is reported and the contexts
of its partitions are removed; a port counts the retries of its flits, and one that fails takes nothing in flight with it; a lost peer loses its sessions and is told to each context that used it. How many retries a flit
counts is a free value of the model (notes/assumptions/42, 6). -/
def Sys2Proof.Claims.ResetsAndLosses : Prop :=
  ∀ (s : State) (die port peer : Nat) (flag : Bool), hostHoldsNothing s →
    let p := s.dev.pkg
    (p.fwState = 2 → exec (.hotReset flag) s = .next s.waits) ∧
    (p.fwState ≠ 2 → leads (.hotReset flag) s fun t => t.dev.pkg.linkUp = false ∧ t.dev.pkg.snoop = [] ∧ t.dev.pkg.backInv = [] ∧
      (∀ c, (t.dev.ctx c).live = false) ∧ (∀ k, (t.dev.parts.getD k {}).quarters = (s.dev.parts.getD k {}).quarters) ∧
      ∀ k, (t.dev.parts.getD k {}).ide = false) ∧
    (4 ≤ die → idles (.probeTimeout die) s) ∧
    (die < 4 → leads (.probeTimeout die) s fun t => (t.dev.die die).faulted = true ∧
      (∀ c, partOnDie (s.dev.parts.getD (s.dev.ctx c).part {}) die = true → (t.dev.ctx c).live = false) ∧
      (Tab.risingFrom none s.dev.ctxs = true → ∀ c, (∀ e ∈ s.dev.parts, e.1 = (s.dev.ctx c).part → partOnDie e.2 die = false) → t.dev.ctx c = s.dev.ctx c)) ∧
    (18 ≤ port → idles (.portDown port) s) ∧
    (port < 18 → (∀ r ∈ s.dev.remotes, r.port = some port → ∃ j o, spaceOf r.addr = .peer j o) → leads (.portDown port) s fun t => deviceOnly s t ∧ (t.dev.pkg.ports.getD port {}).up = false ∧
      (t.dev.pkg.ports.getD port {}).ide = false ∧ t.dev.remotes.length = s.dev.remotes.length ∧
      (∀ r ∈ t.dev.remotes, r.port ≠ some port) ∧
      (∀ r ∈ s.dev.remotes, r.port ≠ some port → r ∈ t.dev.remotes)) ∧
    (18 ≤ port ∨ (p.ports.getD port {}).up = false → exec (.idleFlit port) s = .next { s with fresh := s.fresh + 1 }) ∧
    (port < 18 → (p.ports.getD port {}).up = true → leads (.idleFlit port) s fun t => pkgOnly { s with fresh := s.fresh + 1 } t ∧
      (∃ n, (t.dev.pkg.ports.getD port {}).retry.toNat = min 65535 ((p.ports.getD port {}).retry.toNat + n)) ∧
      ∀ j, j ≠ port → t.dev.pkg.ports.getD j {} = p.ports.getD j {}) ∧
    (144 ≤ peer ∨ ownIndex s.dev peer = true → idles (.peerLost peer) s) ∧
    (peer < 144 → ownIndex s.dev peer = false → (∀ r ∈ s.dev.remotes, toPeer peer r = false) → (∀ e ∈ s.dev.dies, e.2.coll = []) →
      leads (.peerLost peer) s fun t => deviceOnly s t ∧ t.dev.pkg.lostPeers.getD peer [] = List.range 18 ∧
        (∀ n, ∀ x ∈ (t.dev.pkg.ports.getD n {}).keyed, x.2 ≠ some peer) ∧
        t.dev.pkg.events.length = p.events.length + (s.dev.ctxs.filter fun e => e.2.live && e.2.peers.contains peer).length)

/-- R369: firmware activation: an image that does not verify is refused with STATUS 4; else every bound function is told to pause, and the new firmware takes effect when the last has acknowledged; a
time-out keeps the old one. Verification is the model's free value (notes/assumptions/11). -/
def Sys2Proof.Claims.FirmwareActivation : Prop :=
  ∀ (s : State) (v : Word) (fn : Nat),
    let p := s.dev.pkg
    let bound := p.vfs.map fun e => e.1
    let good := Config.firmwareVerifies p.pmArg.toNat = true
    let left := p.fwPend.filter (· ≠ fn)
    (bit v 0 = false ∨ p.fwState ≠ 0 → idles (.fwActivate v) s) ∧
    (bit v 0 = true → p.fwState = 0 → ¬ good → leads (.fwActivate v) s fun t => pkgOnly s t ∧ t.dev.pkg.fwStatus = 4 ∧ t.dev.pkg.fwState = 0) ∧
    (bit v 0 = true → p.fwState = 0 → good → leads (.fwActivate v) s fun t => pkgOnly s t ∧ t.dev.pkg.fwPend = bound ∧
      t.dev.pkg.fwState = (if bound = [] then 2 else 1) ∧ t.dev.pkg.events.length = p.events.length + bound.length) ∧
    (bit v 0 = false ∨ p.fwState ≠ 1 → idles (.vqack fn v) s) ∧
    (bit v 0 = true → p.fwState = 1 → leads (.vqack fn v) s fun t => pkgOnly s t ∧ t.dev.pkg.fwPend = left ∧
      t.dev.pkg.fwState = if left = [] then 2 else 1) ∧
    (p.fwState ≠ 2 → idles .fwActivateSwitch s) ∧ (p.fwState ≠ 1 → idles .fwActivateTimeout s) ∧
    (p.fwState = 2 → leads .fwActivateSwitch s fun t => pkgOnly s t ∧ t.dev.pkg.fwState = 0 ∧ t.dev.pkg.fwStatus = 0 ∧
      t.dev.pkg.fwVersion = p.fwVersion + 1 ∧ marked s t ∧ t.dev.pkg.events.length = p.events.length + bound.length) ∧
    (p.fwState = 1 → leads .fwActivateTimeout s fun t => pkgOnly s t ∧ t.dev.pkg.fwState = 0 ∧ t.dev.pkg.fwStatus = 5 ∧
      t.dev.pkg.fwPend = [] ∧ t.dev.pkg.fwVersion = p.fwVersion ∧ t.dev.pkg.events.length = p.events.length + bound.length)

/-! ### Accesses that leave through a port -/

/-- R361, R350, R358, R208: a scalar load, store or capability word whose address leaves through a port sends one request, counts it on `fx`, and is at its next word; a load makes its group wait
for the answer. Its team may not be restarted any more. That the whole group waits is the model's (notes/assumptions/39). -/
def Sys2Proof.Claims.RemoteWords : Prop :=
  ∀ (s : State) (i : Instr) (c : CReg) (o : BitVec 16) (need : Need) (n a : Nat), accessForm i = some (c, o, need, n) →
    let g := s.grp
    let cap := g.rc c.toNat
    capCheck s.regs s.dev cap (s.mach.party false) need (smAddr cap o n) n = .ok → placeOf s.dev cap (smAddr cap o n) = .remote a →
    g.dual = false → (∀ k, g.roles.getD k .idle = .idle) → (∀ r ∈ s.dev.remotes, r.id ≠ s.dev.nextId) →
    (g.canRaise .fx = false → exec i s = .next s.waits) ∧
    (g.canRaise .fx = true → leads i s fun t => t.grp.count .fx = g.count .fx + 1 ∧ t.grp.pc = g.pc + 4 ∧ t.dev.mem = s.dev.mem ∧
      (t.dev.team g.team).elig = false ∧ t.grp.s = g.s ∧ t.grp.c = g.c ∧
      ∃ r, t.dev.remotes = s.dev.remotes ++ [r] ∧ r.addr = a ∧ r.len = n ∧ r.gid = g.gid ∧ r.envelope = false ∧ r.atomic = none ∧
        (∀ sg w d c o, loadForm i = some (sg, w, d, c, o) → r.write = none ∧ t.grp.waitRemote = true ∧ r.wait = .scalar d.toNat w sg) ∧
        (∀ w d c o, storeForm i = some (w, d, c, o) → r.write = some (toLe w (g.rs d.toNat).toNat) ∧ t.grp.waitRemote = false) ∧
        (∀ d a o, i = .cLd d a o → r.write = none ∧ t.grp.waitRemote = true ∧ r.wait = .capReg d.toNat) ∧
        (∀ d a o, i = .cSt d a o → (∃ bs, r.write = some bs ∧ bs.length = 16) ∧ t.grp.waitRemote = false))

/-- R165, R361, R101, R103: a memory word's operation completes and its counter falls in issue order; the answer of a scalar load's request reaches its register, a refused one gives zero and holds FXPEER, a
poisoned one reads as zero, or traps a `prc` group's word once the lane words before it have completed; an answer that nothing asked for changes nothing. -/
def Sys2Proof.Claims.RemoteAnswers : Prop :=
  ∀ (s : State) (gid op : Nat) (no psn : List Bool) (data : List Byte),
    let flag := no.headD false
    let mine := s.dev.remotes.filter fun r => r.gid == gid && r.flight == op
    (∀ g, s.mach.group? gid = some g → firstOn g .ld op ∨ firstOn g .st op → (∀ r ∈ s.dev.remotes, r.gid ≠ gid ∨ r.flight ≠ op + 1) →
      leads (.memoryWordComplete gid op) s fun t => t.dev.mem = s.dev.mem ∧
        (firstOn g .ld op → counterFalls s t gid .ld) ∧ (firstOn g .st op → counterFalls s t gid .st)) ∧
    (s.mach.group? gid = none → idles (.memoryWordComplete gid op) s) ∧
    (mine = [] → s.dev.pkg.hatPending = [] → idles (.remoteAccessComplete gid op no data psn) s) ∧
    (∀ r d n sg, gid ≠ 0 → s.grp.live = true → s.grp.gid = gid → s.grp.dual = false → mine = [r] → r.write = none → r.atomic = none →
      r.len = n → r.envelope = false → r.wait = .scalar d n sg → n ≤ data.length → n ≤ 8 → 0 < n → travels s.dev [r] = true →
      hostHit s.dev.pkg r = none → r.addr % 32 + n ≤ 32 →
      (flag = false → psn.headD false = true → s.grp.prc = false → leads (.remoteAccessComplete gid op no data psn) s fun t =>
        t.grp.waitRemote = false ∧ t.grp.pc = s.grp.pc ∧ t.grp.rs d = 0 ∧ (t.dev.ctx s.grp.ctx).psn = true ∧ t.dev.mem = s.dev.mem) ∧
      (flag = false → psn.headD false = true → s.grp.prc = true → leads (.remoteAccessComplete gid op no data psn) s fun t =>
        t.grp.waitRemote = false ∧ t.grp.pc = s.grp.pc - 4 ∧ t.grp.dueTrap = some 10 ∧ t.grp.s = s.grp.s ∧ t.dev.mem = s.dev.mem) ∧
      (flag = false → psn.headD false = false → leads (.remoteAccessComplete gid op no data psn) s fun t => t.grp.waitRemote = false ∧ t.grp.pc = s.grp.pc ∧
        (∀ k, t.grp.rs k = if k = d ∧ k ≠ 0 then loadWord (overHost s.dev.pkg r (data.take n)) sg else s.grp.rs k) ∧ t.dev.mem = s.dev.mem ∧
        t.grp.heldTraps = s.grp.heldTraps ∧ ∀ x ∈ t.dev.remotes, x.gid ≠ gid ∨ x.flight ≠ op) ∧
      (flag = true → leads (.remoteAccessComplete gid op no data psn) s fun t => t.grp.waitRemote = false ∧ t.grp.rs d = 0 ∧
        t.dev.mem = s.dev.mem ∧ ∃ h, t.grp.heldTraps = s.grp.heldTraps ++ [h] ∧ h.path = .fx ∧ h.code = 56))

/-! ### Decoding, steps and the state as a whole -/

/-- R11, R13, R17, R22: the words of spec/23 and of the programs' listings decode to the instructions that they stand for. -/
def Sys2Proof.Claims.DecodedWords : Prop :=
  decodeScalar 0x10200004 = .ok (.sAddi 2 0 4) ∧ decodeScalar 0x0030C200 = .ok (.sAdd 3 3 2) ∧ decodeScalar 0x4023FFFE = .ok (.sBnz 2 (-2)) ∧
  decodeScalar 0x58700300 = .ok (.sMfs 7 3) ∧ decodeScalar 0x68510002 = .ok (.sLdN32 5 1 2) ∧ decodeScalar 0x8C320002 = .ok (.cLd 3 2 2) ∧
  decodeScalar 0x94104401 = .ok (.cSetb 1 1 4) ∧ decodeScalar 0xA400C409 = .ok (.syRel 3 4 .t) ∧
  decodeScalar 0xA8018000 = .ok (.cpRun 6) ∧ decodeScalar 0xAC018000 = .ok (.clRun 6) ∧ decodeScalar 0xB0A0CB00 = .ok (.mxLdb 10 3 11) ∧
  decodeScalar 0xB4010000 = .ok (.recBegin 4) ∧ decodeScalar 0xFC000000 = .ok .sysEnd ∧
  decodeLane 0x3400000104250B580000000F = .ok (.mxMma ⟨false, 0, 0, false, false, 0, 16, false, 265, false, 267, false, 0xB000, 15⟩) ∧
  decodeLane 0x34104010B4250B400003E00F = .ok (.mxRd ⟨false, 0, 32, false, false, 0, 267, false, 265, false, 267, false, 0x8000, 253967⟩)

/-- R13-R26, R28, R29: a well-formed instruction's word decodes to it, whatever its operands. -/
def Sys2Proof.Claims.EncodeThenDecode : Prop :=
  (∀ (i : Instr) (w : BitVec 32), i.wf = true → encodeScalar i = some w → decodeScalar w = .ok i) ∧
  ∀ (i : Instr) (w : BitVec 96), i.wf = true → encodeLane i = some w → decodeLane w = .ok i

/-- R27-R29: a word that decodes is the word of that one well-formed instruction: no bit of it is dropped, and a reserved encoding never passes for an instruction. -/
def Sys2Proof.Claims.DecodeThenEncode : Prop :=
  (∀ (w : BitVec 32) (i : Instr), decodeScalar w = .ok i → i.wf = true ∧ encodeScalar i = some w) ∧
  ∀ (w : BitVec 96) (i : Instr), decodeLane w = .ok i → i.wf = true ∧ encodeLane i = some w

/-- R27, R70, R96, R197: with nothing on the agenda, a step of a group that may issue runs exec of the instruction that its next word decodes to: its lane word while its lane queue holds one, else its scalar
word. A reserved encoding enters emulation; a scalar program counter outside its section traps with BADPC. Around exec a step only resets the stream's starvation count and the yield mark, counts
the word, and notes what a lane word read. A register write that a word has left is performed first, and a die whose time is at its limit turns its epoch before that; a fetch that
meets a storage error corrects or poisons first (R335). That these are steps of their own is the model's (notes/assumptions/5). -/
def Sys2Proof.Claims.StepRunsTheDecodedWord : Prop :=
  ∀ (s : State),
    let due (k : Nat) : Bool := epochDue s.dev k && !(s.dev.die k).turning
    (∀ k, (List.range 4).find? due = some k → step s = .next { s with dev := epochTurn k s.dev }) ∧
    (∀ a v rest, (List.range 4).find? due = none → s.dev.regWrites = (a, v) :: rest → s.stalled = false → ∀ t,
      exec (.registerWrite a v) { s with dev := { s.dev with regWrites := rest } } = .next t → t.stalled = false → regBlock a = true →
      a % 8 = 0 → egressAddr a = false → step s = .next t) ∧
    (s.agenda = [] → s.stalled = false → canIssue s.dev s.grp = true → s.burst < 64 → (List.range 4).find? due = none → s.dev.regWrites = [] →
    s.grp.heldWords = [] → s.grp.dueTrap = none →
    let g := s.grp
    let w := scalarWordAt s.dev g.pc.toNat
    let x := laneWordAt s.dev g g.lpos
    let met := if g.queue = [] then fetchErrors s.dev g.pc.toNat 4 else fetchErrors s.dev (g.laneBase + 12 * g.lpos) 12
    (g.queue = [] → g.goodTarget g.pc = false → trapsNow g → step s = .next { s with grp := g.scalarTrapped 3 }) ∧
    (∀ d, g.queue ≠ [] ∨ g.goodTarget g.pc = true → met = some d → step s = .next { s with dev := d }) ∧
    (g.queue = [] → g.goodTarget g.pc = true → met = none →
      (∀ i t, decodeScalar w = .ok i → soundStorage g → exec i s = .next t → step s = .next (t.issued false (decide (i = .sysYield)))) ∧
      (∀ r t, decodeScalar w = .error r → exec (.emulationEntry r (w.zeroExtend 96)) s = .next t → step s = .next (t.issued false false))) ∧
    (g.queue ≠ [] → met = none →
      (∀ i t, decodeLane x = .ok i → soundStorage g → exec i s = .next t → fileFits s → fileFits (t.issued true false) →
        step s = .next ((t.issued true false).laneNoted (laneReads g i))) ∧
      (∀ r t, decodeLane x = .error r → exec (.emulationEntry r x) s = .next t → fileFits (t.issued true false) →
        step s = .next ((t.issued true false).laneNoted []))))

/-- R70-R72, R102: what stands first on the agenda takes place first: an event is exec of its instruction, and one that has to wait goes to the agenda's end; a turn of a group's stream runs the next word of that
stream, and one that it cannot use passes. A scalar word stalls on the rows of R72; one that accesses memory issues ahead of pending lane memory words, and its access is held; one that forks waits for
them and for copies that are pending. The agenda is the model's own, and which words fork, and which accesses may not be held, its reading (notes/assumptions/5, 43). -/
def Sys2Proof.Claims.AgendaTurns : Prop :=
  ∀ (s : State) (rest : List Turn) (i : Instr) (t : State),
    let u : State := { s with agenda := rest, stalled := false }
    let g := s.grp
    let w := scalarWordAt s.dev g.pc.toNat
    let ahead := blocksAhead s.dev g
    let waits := scalarForks i = true ∧ forkWaits s.dev g = true
    (∀ k, k < 4 → epochDue s.dev k = true → (s.dev.die k).turning = true) → s.dev.regWrites = [] →
    (s.agenda = .event i :: rest → exec i u = .next t →
      step s = .next (if t.stalled = true then { t with stalled := false, agenda := t.agenda ++ [.event i] } else t)) ∧
    (g.live = true → mayIssue s.dev g = true → soundStorage g → g.heldWords = [] → g.dueTrap = none →
      (s.agenda = .scalar g.gid :: rest → decodeScalar w = .ok i → g.goodTarget g.pc = true → fetchErrors s.dev g.pc.toNat 4 = none →
        (mustStall s.dev g i = false → ¬ waits → scalarAccesses i = false ∨ ahead = 0 → exec i u = .next t →
          step s = .next { t.issued false (decide (i = .sysYield)) with stalled := false }) ∧
        (mustStall s.dev g i = true ∨ waits ∨ (scalarAccesses i = true ∧ ahead ≠ 0 ∧ holdable g i = false) →
          step s = .next u) ∧
        (mustStall s.dev g i = false → scalarAccesses i = true → ahead ≠ 0 → holdable g i = true →
          exec i { u with grp := { g with queue := [], lpos := 0, dual := false } } = .next t → t.stalled = false → t.grp.live = true → t.grp.pc = g.pc + 4 →
          t.grp.inHandler = g.inHandler → step s = .next { u with grp := { g.advance with
            heldWords := [⟨w, g.pc, g.s, g.c, ahead⟩], starveScalar := 0, yielded := false } })) ∧
      (s.agenda = .lane g.gid :: rest → decodeLane (laneWordAt s.dev g g.lpos) = .ok i → g.queue ≠ [] →
        fetchErrors s.dev (g.laneBase + 12 * g.lpos) 12 = none →
        g.chain ≠ none ∨ freePipes s.mach g.die g.core ≠ 0 → exec i u = .next t → fileFits s → fileFits (t.issued true false) →
        step s = .next { (t.issued true false).laneNoted (laneReads g i) with stalled := false }) ∧
      (s.agenda = .lane g.gid :: rest → g.queue = [] → step s = .next u))

/-- R264, R270, R330, R337, R341, R345, R350, R357: what reset leaves, as the register tables give it: TICK 8, LEASE 8, EPOCH 0, the carve-outs 0, BOOTST.STAGE 0, the cap 2,200 W, the event ring at
LOG2N 6, LIMIT 0 and WIN 1,000, no live firewall entry or window, no port up, and no peer index. -/
def Sys2Proof.Claims.ResetValues : Prop :=
  let r := State.reset.regs
  let p := State.reset.dev.pkg
  (∀ die, die < 4 → (r.die die).tick = 8 ∧ (r.die die).lease = 8 ∧ (∀ q, q < 4 → (r.die die).carve q = 0) ∧ (State.reset.dev.die die).epoch = 0 ∧
    (State.reset.dev.die die).dberr = 0 ∧ ∀ n, qslotRead (State.reset.dev.die die) n = 0) ∧
  p.stage = 0 ∧ p.fail = 0 ∧ p.pmBusy = false ∧ r.cap = 2200 ∧ p.thr = 0 ∧ r.log2n = 6 ∧ p.evWr = 0 ∧ p.evRd = 0 ∧ p.evBase = 0 ∧
  (∀ n, r.win.getD n 1000 = 1000 ∧ p.limit.getD n 0 = 0 ∧ p.count.getD n 0 = 0) ∧ (∀ n, p.fw.getD n (0, 0) = (0, 0) ∧ p.hat.getD n (0, 0) = (0, 0)) ∧
  (∀ n, (p.ports.getD n {}).up = false) ∧ p.domValid = false ∧ p.fwState = 0 ∧ (∀ k, (State.reset.dev.ctx k).live = false) ∧ State.reset.grp.live = false

/-- R264, R270, R330, R341: reset is safe: every control register is in its range, and memory has its canonical form. Every byte of memory reads 0 at reset, which the spec leaves
open and the model chooses (notes/assumptions/2). -/
def Sys2Proof.Claims.ResetIsSafe : Prop := State.reset.safe = true ∧ ∀ a, State.reset.memByte a = 0

/-- R264, R270, R330, R341: whatever a step does, TICK stays in [6, 12], LEASE above 0, every carve-out field at most 12, the power cap in [800, 2200], LOG2N at most 10 and every WIN above 0. -/
def Sys2Proof.Claims.ControlRegistersStayLegal : Prop :=
  ∀ s t : State, s.regs.legal = true → step s = .next t → t.regs.legal = true

/-- R36, R170: nothing stops the machine: every step of the table, in every state, goes on to a next state, and so does every run. -/
def Sys2Proof.Claims.NothingStops : Prop :=
  (∀ (i : Instr) (s : State), goesOn (exec i s)) ∧ (∀ s : State, goesOn (step s)) ∧ ∀ (n : Nat) (s : State), runsOn n s

/-- R149, R180, R281, R386: the functions listed here, which write memory, keep its canonical form: stores of a core, of the front end, of the postmaster core, of peers, held stores of a dual pair, and
zeroing. What the form leaves unlisted rests on the value that the model gives unwritten memory (notes/assumptions/2). -/
def Sys2Proof.Claims.WritesKeepTheForm : Prop :=
  ∀ (d : Dev) (m : Mach) (a n : Nat) (bs : List Byte) (b : Bool) (x : Cap), d.mem.wf = true → m.d.mem.wf = true →
    (∀ y z, (partyStore d a bs y z).mem.wf = true) ∧ (∀ die, (frontStore d die a bs b).mem.wf = true) ∧
    (∀ die ctx k, (frontAdd d die ctx a k).mem.wf = true) ∧ (∀ p lane cap, (groupStore m p lane bs cap b).d.mem.wf = true) ∧
    (∀ R g l, (performHolds R d g l).mem.wf = true) ∧ (∀ k r, (peerPerform d k r).mem.wf = true) ∧ (importWrite d a n bs).mem.wf = true ∧
    (zeroRange d a n).mem.wf = true ∧ (∀ k, (zeroQuarters d k).mem.wf = true) ∧ (∀ q, (zeroChanged d q).mem.wf = true) ∧
    (∀ rs p, (sweptMem rs p d.mem).wf = true) ∧ (d.mem.storeCap a x.bytes x.tag b).wf = true

/-! ### The obligations -/

/-- Scalar arithmetic words: result, zero register, frame, division corners. -/
def Obligations.ScalarArithmetic : Prop :=
  Claims.ScalarWriteAndFrame ∧ Claims.ScalarArithmeticResults ∧ Claims.ScalarDivision

/-- Scalar transfers, calls and returns, and the hand-over to the lane stream. -/
def Obligations.ScalarControl : Prop :=
  Claims.ScalarTransfers ∧ Claims.CallsAndReturns ∧ Claims.LaneHandOff

/-- Waiting for operations in flight and reading their counters. -/
def Obligations.InFlightWaits : Prop :=
  Claims.InFlightWaits

/-- What each special register reads as and what a move to it writes. -/
def Obligations.SpecialRegisters : Prop :=
  Claims.SpecialRegisterValues ∧ Claims.SpecialReads ∧ Claims.SpecialWrites

/-- Traps: saved registers, handler entry, removal of a context without a handler; what `sys.tret` restores, and that a trap and its return
bring back the position. -/
def Obligations.TakingTraps : Prop :=
  Claims.TakingATrap ∧ Claims.TrapInHandlerRemovesContext ∧ Claims.TrapEntry ∧ Claims.TrapReturn ∧ Claims.TrapAndReturnRestore

/-- Numbers in lanes: exact results rounded once, reductions, conversions, D8, phasors, and the bounds of the CORDIC words. -/
def Obligations.FloatingArithmetic : Prop :=
  Claims.FloatingResults ∧ Claims.FloatingReductions ∧ Claims.BlockValues ∧ Claims.ConversionValues ∧ Claims.D8Codes ∧ Claims.PhasorValues ∧
  Claims.CordicSpecials ∧ Claims.CordicBound

/-- Emulation: calls, entries for reserved encodings, returns. -/
def Obligations.Emulation : Prop :=
  Claims.EmulationCall ∧ Claims.EmulationReturn ∧ Claims.EmulationEntries

/-- Scalar loads: checks, values, poison, and what memory a load reads. -/
def Obligations.ScalarLoadWords : Prop :=
  Claims.FailedAccessTraps ∧ Claims.ScalarLoads ∧ Claims.PoisonedScalarLoads ∧ Claims.WhatALoadReads

/-- An access that fails several checks reports the first of them. -/
def Obligations.OrderOfChecks : Prop :=
  Claims.CheckOrder

/-- Scalar stores to memory, to the scratchpad and to device registers, with their frame. -/
def Obligations.ScalarStoreWords : Prop :=
  Claims.ScalarStoresToMemory ∧ Claims.ScalarStoresToScratch ∧ Claims.StoresToRegisters

/-- Capability loads, stores, moves and reads. -/
def Obligations.CapabilityMoves : Prop :=
  Claims.CapabilityLoadsAndStores ∧ Claims.CapabilityMovesAndReads

/-- Capability derivations: traps, cursor, permissions and bounds. -/
def Obligations.CapabilityDerivations : Prop :=
  Claims.CapabilityDerivationTraps ∧ Claims.CapabilityCursorAndPermissions ∧ Claims.CapabilityBounds

/-- Sealing and opening, and no derivation widens what a capability gives. -/
def Obligations.SealingAndMonotonicity : Prop :=
  Claims.SealingAndOpening ∧ Claims.DerivationNeverWidens

/-- Sync words: their traps and their reads. -/
def Obligations.SyncReads : Prop :=
  Claims.SyncWordTraps ∧ Claims.SyncReads

/-- Sync stores and releases, fences, barriers and waits. -/
def Obligations.SyncStoresAndBarriers : Prop :=
  Claims.SyncStores ∧ Claims.Fences ∧ Claims.BarrierAndWake

/-- Scalar atomics, and binding regions to sync objects. -/
def Obligations.AtomicsAndBindings : Prop :=
  Claims.Atomics ∧ Claims.Bindings

/-- Issuing copies, from the scalar thread and from lanes, and the checks of a copy. -/
def Obligations.CopyWords : Prop :=
  Claims.CopyIssue ∧ Claims.CopyChecks ∧ Claims.LaneCopies

/-- A copy moves its bytes and completes. -/
def Obligations.CopyEngine : Prop :=
  Claims.CopyMoves ∧ Claims.BufferCopies ∧ Claims.CopyCompletes

/-- Issuing collectives, the check of their block, and envelopes for peers. -/
def Obligations.CollectiveWords : Prop :=
  Claims.CollectiveIssue ∧ Claims.CollectiveBlockCheck ∧ Claims.EnvelopeWrites

/-- What a collective computes, and how its operation proceeds. -/
def Obligations.CollectiveEngine : Prop :=
  Claims.CollectiveStep ∧ Claims.CollectiveResults ∧ Claims.CollectiveSteps

/-- Lane arithmetic words: operands, results, masks, last use, events and frame. -/
def Obligations.LaneResults : Prop :=
  Claims.LaneResults ∧ Claims.LaneOperands

/-- Integer lane operations, their division, and the rounding of conversions. -/
def Obligations.LaneIntegerArithmetic : Prop :=
  Claims.IntegerLaneOperations ∧ Claims.IntegerLaneDivision ∧ Claims.RoundingModes

/-- When a lane word waits or is out of range, and numerical events that trap. -/
def Obligations.LaneWaitsAndEvents : Prop :=
  Claims.LaneWordWaitsAndRange ∧ Claims.NumericalTraps

/-- Chains hold their effects until they end, and pair words run both slots. -/
def Obligations.ChainsAndPairs : Prop :=
  Claims.LaneChains ∧ Claims.ChainEnds ∧ Claims.PairWords

/-- Loads of the operand buffer: issue, checks, bytes. -/
def Obligations.OperandLoads : Prop :=
  Claims.OperandLoads ∧ Claims.OperandLoadCompletes

/-- Reservations of the matrix engine: claims, checks, records. -/
def Obligations.MatrixReservations : Prop :=
  Claims.Reservations ∧ Claims.ReservationWords

/-- Matrix lane words enter the request table. -/
def Obligations.MatrixLaneWords : Prop :=
  Claims.MatrixLaneWords

/-- The arbiter's choice, and what a granted entry computes. -/
def Obligations.MatrixArbiter : Prop :=
  Claims.ArbiterChoice ∧ Claims.MatrixGrants

/-- Lane loads, stores and atomics: checks, values, overlaps, frame. -/
def Obligations.LaneMemory : Prop :=
  Claims.LaneAccessTraps ∧ Claims.LaneLoads ∧ Claims.LaneStores ∧ Claims.LaneAtomics

/-- Capability words on quads. -/
def Obligations.LaneCapabilities : Prop :=
  Claims.LaneCapabilityWords

/-- Structured lane control: nesting counters. -/
def Obligations.StructuredControl : Prop :=
  Claims.StructuredWords

/-- Compare and mask words, their conditions, ballots and votes. -/
def Obligations.MasksAndVotes : Prop :=
  Claims.MaskWords ∧ Claims.CompareConditions ∧ Claims.BallotsAndVotes

/-- Exchange words, reductions and scans over tiles. -/
def Obligations.ExchangesAndReductions : Prop :=
  Claims.ExchangeWords ∧ Claims.Reductions

/-- Record mode: roles, status and routes, and the arrival of a push. -/
def Obligations.RecordMode : Prop :=
  Claims.RecordWords ∧ Claims.RecordReads ∧ Claims.PushArrivals

/-- System words, group ends and tails, and the check words. -/
def Obligations.SystemAndCheckWords : Prop :=
  Claims.SystemWords ∧ Claims.CheckWords

/-- Group events, and how a team gives its slots back. -/
def Obligations.GroupAndTeamEvents : Prop :=
  Claims.GroupEvents ∧ Claims.Preemption

/-- Saving, restoring and relaunching teams. -/
def Obligations.SavesAndRestores : Prop :=
  Claims.SavesAndRestores

/-- Checkpoints of dual pairs, and the removal of a context. -/
def Obligations.DualPairsAndRemoval : Prop :=
  Claims.DualCheckpoints ∧ Claims.ContextRemoval

/-- Logical time, epoch turns, dropped copies, storage errors and the die's control registers. -/
def Obligations.DieMemoryEvents : Prop :=
  Claims.CoherenceEvents ∧ Claims.StorageErrors ∧ Claims.ControlRegisterEvents

/-- Revocation: the words and the passes, after which no capability to a revoked region is left. -/
def Obligations.Revocation : Prop :=
  Claims.SweepWords ∧ Claims.SweepPasses

/-- Commands that make contexts, partitions and firewall entries. -/
def Obligations.PostmasterCommands : Prop :=
  Claims.CommandStart ∧ Claims.PartitionCommands

/-- Imports into the vault, the log and attestation. -/
def Obligations.VaultAndLogCommands : Prop :=
  Claims.VaultAndLogCommands

/-- What a write of each device register does. -/
def Obligations.RegisterWrites : Prop :=
  Claims.RegisterEvents

/-- Doorbells, the mapping of queues, waits and faults of queues. -/
def Obligations.DoorbellsAndQueues : Prop :=
  Claims.Doorbells ∧ Claims.QueueEvents

/-- Rounds of the sorting core, and errors that all packets share. -/
def Obligations.RoundsAndPacketErrors : Prop :=
  Claims.Rounds ∧ Claims.PacketErrors

/-- The packets that write, signal, wait, copy, and order a queue. -/
def Obligations.Packets : Prop :=
  Claims.WritesSignalsAndWaits ∧ Claims.BarriersFencesAndCopies

/-- Launches, and the records that a node launch takes. -/
def Obligations.LaunchPackets : Prop :=
  Claims.Launches ∧ Claims.NodeRecordCounts

/-- Admission of teams and of node launches. -/
def Obligations.Admission : Prop :=
  Claims.Admission

/-- Periods, budgets, decisions and ageing. -/
def Obligations.TimeSharing : Prop :=
  Claims.PeriodsAndBudgets ∧ Claims.Decisions

/-- The event ring, egress windows, bring-up and power gates. -/
def Obligations.PackageEvents : Prop :=
  Claims.RingAndLimiterEvents ∧ Claims.StagesAndSleep

/-- Link events, and requests that arrive through a port. -/
def Obligations.HostAndPeerPorts : Prop :=
  Claims.LinkEvents ∧ Claims.ArrivingRequests

/-- Resets, lost dies, ports and peers, and firmware activation. -/
def Obligations.ResetsAndActivation : Prop :=
  Claims.ResetsAndLosses ∧ Claims.FirmwareActivation

/-- Words whose access leaves through a port, and their answers. -/
def Obligations.RemoteAccesses : Prop :=
  Claims.RemoteWords ∧ Claims.RemoteAnswers

/-- A step runs the decoded word of the stream on turn, or the event at the head of the agenda. -/
def Obligations.StepRunsTheDecodedWord : Prop :=
  Claims.StepRunsTheDecodedWord ∧ Claims.AgendaTurns

/-- Words written out in the spec decode to their instructions. -/
def Obligations.DecodedWords : Prop :=
  Claims.DecodedWords

/-- Decoding and encoding agree for every word and every well-formed instruction. -/
def Obligations.EncodingRoundTrip : Prop :=
  Claims.EncodeThenDecode ∧ Claims.DecodeThenEncode

/-- What reset leaves in the control registers, and that reset is safe, with memory that reads zero. -/
def Obligations.ResetState : Prop :=
  Claims.ResetValues ∧ Claims.ResetIsSafe

/-- Every step keeps every control register in its legal range. -/
def Obligations.ControlRegistersStayLegal : Prop :=
  Claims.ControlRegistersStayLegal

/-- No step and no run stops the machine. -/
def Obligations.NothingStops : Prop :=
  Claims.NothingStops

/-- The functions that write memory, as listed, keep its canonical form. -/
def Obligations.MemoryKeepsItsForm : Prop :=
  Claims.WritesKeepTheForm
end

