-- ==== Sys2Proof/Laws/Tab.lean ====
section
/-! SUPPORT. Laws of the sparse tables: what a key reads after a write, and the canonical form. -/

namespace Sys2Proof.Tab

variable {α : Type}

@[simp] theorem find?_nil (a : Nat) : find? ([] : Tab α) a = none := rfl

theorem find?_insert_self (t : Tab α) (a : Nat) (x : α) : (t.insert a x).find? a = some x := by
  induction t with
  | nil => simp [insert, find?]
  | cons e t ih =>
    obtain ⟨k, v⟩ := e
    unfold insert
    split
    · simp [find?]
    · split
      · simp [find?]
      · next h => simp [find?, Ne.symm h, ih]

theorem find?_insert_ne (t : Tab α) {a b : Nat} (x : α) (h : a ≠ b) : (t.insert a x).find? b = t.find? b := by
  induction t with
  | nil => simp [insert, find?, h]
  | cons e t ih =>
    obtain ⟨k, v⟩ := e
    unfold insert
    split
    · simp [find?, h]
    · split
      · next h' => subst h'; simp [find?, h]
      · simp [find?, ih]

theorem find?_erase_self (t : Tab α) (a : Nat) : (t.erase a).find? a = none := by
  induction t with
  | nil => rfl
  | cons e t ih =>
    obtain ⟨k, v⟩ := e
    unfold erase
    split
    · exact ih
    · next h => simp [find?, h, ih]

theorem find?_erase_ne (t : Tab α) {a b : Nat} (h : a ≠ b) : (t.erase a).find? b = t.find? b := by
  induction t with
  | nil => rfl
  | cons e t ih =>
    obtain ⟨k, v⟩ := e
    unfold erase
    split
    · next h' => subst h'; simp [find?, h, ih]
    · simp [find?, ih]

@[simp] theorem getD_nil (a : Nat) (d : α) : getD ([] : Tab α) a d = d := rfl

@[simp] theorem getD_insert_self (t : Tab α) (a : Nat) (x d : α) : (t.insert a x).getD a d = x := by
  simp [getD, find?_insert_self]

theorem getD_insert_ne (t : Tab α) {a b : Nat} (x d : α) (h : a ≠ b) : (t.insert a x).getD b d = t.getD b d := by
  simp [getD, find?_insert_ne t x h]

/-- A read after a write of the same key. -/
@[simp] theorem getD_set_self [DecidableEq α] (t : Tab α) (a : Nat) (x d : α) : (t.set a x d).getD a d = x := by
  unfold set
  split
  · next h => simp [getD, find?_erase_self, h]
  · simp

/-- A write leaves every other key alone. -/
theorem getD_set_ne [DecidableEq α] (t : Tab α) {a b : Nat} (x d e : α) (h : a ≠ b) : (t.set a x d).getD b e = t.getD b e := by
  unfold set
  split
  · simp [getD, find?_erase_ne t h]
  · exact getD_insert_ne t x e h

theorem getD_set [DecidableEq α] (t : Tab α) (a b : Nat) (x d : α) :
    (t.set a x d).getD b d = if a = b then x else t.getD b d := by
  by_cases h : a = b
  · subst h; simp
  · simp [h, getD_set_ne]

/-! ### The canonical form -/

theorem risingFrom_weaken {lo : Option Nat} {t : Tab α} (h : risingFrom lo t = true) : risingFrom none t = true := by
  cases t with
  | nil => rfl
  | cons e t =>
    obtain ⟨k, v⟩ := e
    simp only [risingFrom, Bool.and_eq_true] at h ⊢
    exact ⟨trivial, h.2⟩

theorem risingFrom_mono {l k : Nat} {t : Tab α} (hk : l ≤ k) (h : risingFrom (some k) t = true) : risingFrom (some l) t = true := by
  cases t with
  | nil => rfl
  | cons e t =>
    obtain ⟨j, v⟩ := e
    simp only [risingFrom, Bool.and_eq_true, decide_eq_true_eq] at h ⊢
    exact ⟨by omega, h.2⟩

theorem risingFrom_insert {lo : Option Nat} {t : Tab α} {a : Nat} {x : α} (h : risingFrom lo t = true)
    (ha : ∀ l ∈ lo, l < a) : risingFrom lo (t.insert a x) = true := by
  induction t generalizing lo with
  | nil => cases lo <;> simp_all [insert, risingFrom]
  | cons e t ih =>
    obtain ⟨k, v⟩ := e
    simp only [risingFrom, Bool.and_eq_true] at h
    unfold insert
    split
    · next hk => cases lo <;> simp_all [risingFrom]
    · split
      · next hk => subst hk; cases lo <;> simp_all [risingFrom]
      · next h1 h2 =>
        simp only [risingFrom, Bool.and_eq_true]
        exact ⟨h.1, ih h.2 (by simp; omega)⟩

theorem risingFrom_erase {lo : Option Nat} {t : Tab α} {a : Nat} (h : risingFrom lo t = true) :
    risingFrom lo (t.erase a) = true := by
  induction t generalizing lo with
  | nil => rfl
  | cons e t ih =>
    obtain ⟨k, v⟩ := e
    simp only [risingFrom, Bool.and_eq_true] at h
    unfold erase
    split
    · cases lo with
      | none => exact risingFrom_weaken (ih h.2)
      | some l => exact risingFrom_mono (by simpa using Nat.le_of_lt (by simpa using h.1)) (ih h.2)
    · simp only [risingFrom, Bool.and_eq_true]
      exact ⟨h.1, ih h.2⟩

theorem risingFrom_filter {lo : Option Nat} {t : Tab α} (p : Nat × α → Bool) (h : risingFrom lo t = true) :
    risingFrom lo (t.filter p) = true := by
  induction t generalizing lo with
  | nil => rfl
  | cons e t ih =>
    obtain ⟨k, v⟩ := e
    simp only [risingFrom, Bool.and_eq_true] at h
    rw [List.filter_cons]
    split
    · simp only [risingFrom, Bool.and_eq_true]
      exact ⟨h.1, ih h.2⟩
    · cases lo with
      | none => exact risingFrom_weaken (ih h.2)
      | some l => exact risingFrom_mono (by simpa using Nat.le_of_lt (by simpa using h.1)) (ih h.2)

theorem mem_insert {t : Tab α} {a : Nat} {x : α} {e : Nat × α} (h : e ∈ t.insert a x) : e = (a, x) ∨ e ∈ t := by
  induction t with
  | nil => simpa [insert] using h
  | cons f t ih =>
    obtain ⟨k, v⟩ := f
    unfold insert at h
    split at h
    · simpa using h
    · split at h
      · rcases List.mem_cons.1 h with h | h
        · exact .inl h
        · exact .inr (List.mem_cons_of_mem _ h)
      · rcases List.mem_cons.1 h with h | h
        · exact .inr (h ▸ List.mem_cons_self ..)
        · rcases ih h with h | h
          · exact .inl h
          · exact .inr (List.mem_cons_of_mem _ h)

theorem mem_erase {t : Tab α} {a : Nat} {e : Nat × α} (h : e ∈ t.erase a) : e ∈ t := by
  induction t with
  | nil => exact h
  | cons f t ih =>
    obtain ⟨k, v⟩ := f
    unfold erase at h
    split at h
    · exact List.mem_cons_of_mem _ (ih h)
    · rcases List.mem_cons.1 h with h | h
      · exact h ▸ List.mem_cons_self ..
      · exact List.mem_cons_of_mem _ (ih h)

theorem canonical_iff [DecidableEq α] (t : Tab α) (d : α) :
    t.canonical d = true ↔ risingFrom none t = true ∧ ∀ e ∈ t, e.2 ≠ d := by
  simp [canonical, Bool.and_eq_true, List.all_eq_true]

theorem canonical_nil [DecidableEq α] (d : α) : canonical ([] : Tab α) d = true := rfl

/-- A write keeps the canonical form. -/
theorem canonical_set [DecidableEq α] {t : Tab α} {d : α} (h : t.canonical d = true) (a : Nat) (x : α) :
    (t.set a x d).canonical d = true := by
  rw [canonical_iff] at h ⊢
  unfold set
  split
  · exact ⟨risingFrom_erase h.1, fun e he => h.2 e (mem_erase he)⟩
  · next hx =>
    refine ⟨risingFrom_insert h.1 (by simp), fun e he => ?_⟩
    rcases mem_insert he with rfl | he
    · exact hx
    · exact h.2 e he

/-- Dropping entries keeps the canonical form. -/
theorem canonical_filter [DecidableEq α] {t : Tab α} {d : α} (h : t.canonical d = true) (p : Nat × α → Bool) :
    Tab.canonical (t.filter p) d = true := by
  rw [canonical_iff] at h ⊢
  exact ⟨risingFrom_filter p h.1, fun e he => h.2 e (List.mem_filter.1 he).1⟩

end Sys2Proof.Tab
end

