-- ==== Sys2Proof/Laws/Memory.lean ====
section
/-! SUPPORT. Laws of the byte stores: what a byte, a tag and a mark read after each operation, and that every operation keeps
the canonical form. -/

namespace Sys2Proof.Machine

/-! ### What is read -/

@[simp] theorem Mem.byte_setByte_self (m : Mem) (a : Nat) (b : Byte) : (m.setByte a b).byte a = b := by
  simp [Mem.byte, Mem.setByte]

theorem Mem.byte_setByte (m : Mem) (a b : Nat) (x : Byte) : (m.setByte a x).byte b = if a = b then x else m.byte b := by
  simp [Mem.byte, Mem.setByte, Tab.getD_set]

@[simp] theorem Mem.tag_setByte (m : Mem) (a g : Nat) (b : Byte) : (m.setByte a b).tag g = m.tag g := rfl
@[simp] theorem Mem.poisoned_setByte (m : Mem) (a k : Nat) (b : Byte) : (m.setByte a b).poisoned k = m.poisoned k := rfl
@[simp] theorem Mem.byte_setTag (m : Mem) (g a : Nat) (t : Bool) : (m.setTag g t).byte a = m.byte a := rfl
@[simp] theorem Mem.poisoned_setTag (m : Mem) (g k : Nat) (t : Bool) : (m.setTag g t).poisoned k = m.poisoned k := rfl
@[simp] theorem Mem.byte_setPsn (m : Mem) (k a : Nat) (p : Bool) : (m.setPsn k p).byte a = m.byte a := rfl
@[simp] theorem Mem.tag_setPsn (m : Mem) (k g : Nat) (p : Bool) : (m.setPsn k p).tag g = m.tag g := rfl

theorem Mem.tag_setTag (m : Mem) (g h : Nat) (t : Bool) : (m.setTag g t).tag h = if g = h then t else m.tag h := by
  simp [Mem.tag, Mem.setTag, Tab.getD_set]
theorem Mem.poisoned_setPsn (m : Mem) (k j : Nat) (p : Bool) :
    (m.setPsn k p).poisoned j = if k = j then p else m.poisoned j := by
  simp [Mem.poisoned, Mem.setPsn, Tab.getD_set]

/-- A byte after a write of a list. -/
theorem Mem.byte_writeBytes (m : Mem) (a : Nat) (bs : List Byte) (b : Nat) :
    (m.writeBytes a bs).byte b = if a ≤ b ∧ b < a + bs.length then bs.getD (b - a) 0 else m.byte b := by
  induction bs generalizing m a with
  | nil => simp [Mem.writeBytes]
  | cons x bs ih =>
    rw [Mem.writeBytes, ih, Mem.byte_setByte]
    by_cases h : a = b
    · subst h; simp
    · by_cases h1 : a + 1 ≤ b ∧ b < a + 1 + bs.length
      · have h2 : a ≤ b ∧ b < a + (x :: bs).length := by simp; omega
        rw [if_pos h1, if_pos h2, show b - a = (b - (a + 1)) + 1 by omega]
        simp
      · have h2 : ¬(a ≤ b ∧ b < a + (x :: bs).length) := by simp; omega
        rw [if_neg h1, if_neg h2, if_neg h]

@[simp] theorem Mem.tag_writeBytes (m : Mem) (a g : Nat) (bs : List Byte) : (m.writeBytes a bs).tag g = m.tag g := by
  induction bs generalizing m a with
  | nil => rfl
  | cons x bs ih => rw [Mem.writeBytes, ih]; rfl
@[simp] theorem Mem.poisoned_writeBytes (m : Mem) (a k : Nat) (bs : List Byte) :
    (m.writeBytes a bs).poisoned k = m.poisoned k := by
  induction bs generalizing m a with
  | nil => rfl
  | cons x bs ih => rw [Mem.writeBytes, ih]; rfl

theorem Mem.foldl_byte (f : Mem → Nat → Mem) (hf : ∀ m k b, (f m k).byte b = m.byte b) (l : List Nat) (m : Mem) (b : Nat) :
    (l.foldl f m).byte b = m.byte b := by
  induction l generalizing m with
  | nil => rfl
  | cons k l ih => rw [List.foldl_cons, ih, hf]

@[simp] theorem Mem.byte_clearTags (m : Mem) (a n b : Nat) : (m.clearTags a n).byte b = m.byte b :=
  Mem.foldl_byte (fun m g => m.setTag g false) (fun _ _ _ => rfl) _ m b
@[simp] theorem Mem.byte_markSectors (m : Mem) (a n b : Nat) (p : Bool) : (m.markSectors a n p).byte b = m.byte b :=
  Mem.foldl_byte _ (fun _ _ _ => by split <;> (try split) <;> rfl) _ m b

/-- A byte after a data write: the bytes written read back, every other byte is as before. -/
theorem Mem.byte_store (m : Mem) (a : Nat) (bs : List Byte) (p : Bool) (b : Nat) :
    (m.store a bs p).byte b = if a ≤ b ∧ b < a + bs.length then bs.getD (b - a) 0 else m.byte b := by
  simp [Mem.store, Mem.byte_writeBytes]

theorem Mem.byte_storeCap (m : Mem) (a : Nat) (bs : List Byte) (t p : Bool) (b : Nat) :
    (m.storeCap a bs t p).byte b = if a ≤ b ∧ b < a + bs.length then bs.getD (b - a) 0 else m.byte b := by
  simp [Mem.storeCap, Mem.byte_store]

/-- A byte after a store of a word, whatever its tag. -/
theorem Mem.byte_put (m : Mem) (a : Nat) (bs : List Byte) (cap : Option Bool) (p : Bool) (b : Nat) :
    (m.put a bs cap p).byte b = if a ≤ b ∧ b < a + bs.length then bs.getD (b - a) 0 else m.byte b := by
  cases cap with
  | none => exact Mem.byte_store ..
  | some t => exact Mem.byte_storeCap ..

/-! ### Numbers and their bytes -/

@[simp] theorem toLe_length (n x : Nat) : (toLe n x).length = n := by
  induction n generalizing x with
  | zero => rfl
  | succ n ih => simp [toLe, ih]

/-- A number of n bytes reads back modulo 2^(8n). -/
theorem leNat_toLe (n x : Nat) : leNat (toLe n x) = x % 256 ^ n := by
  induction n generalizing x with
  | zero => simp [toLe, leNat, Nat.mod_one]
  | succ n ih =>
    rw [toLe, leNat, ih, BitVec.toNat_ofNat, show (256 : Nat) ^ (n + 1) = 256 * 256 ^ n from pow_succ' 256 n]
    exact Nat.mod_mul.symm

/-- What was written reads back. -/
theorem Mem.read_writeBytes_self (m : Mem) (a : Nat) (bs : List Byte) : (m.writeBytes a bs).read a bs.length = bs := by
  apply List.ext_getElem
  · simp [Mem.read]
  · intro i h1 h2
    simp [Mem.read, Mem.byte_writeBytes, h2]

theorem Mem.read_store_self (m : Mem) (a : Nat) (bs : List Byte) (p : Bool) : (m.store a bs p).read a bs.length = bs := by
  apply List.ext_getElem
  · simp [Mem.read]
  · intro i h1 h2
    simp [Mem.read, Mem.byte_store, h2]

/-! ### The canonical form -/

theorem Mem.wf_iff (m : Mem) :
    m.wf = true ↔ Tab.canonical m.bytes 0 = true ∧ m.tags.canonical false = true ∧ m.psn.canonical false = true := by
  simp [Mem.wf, Bool.and_eq_true, and_assoc]

/-- Reset memory is canonical. -/
theorem Mem.wf_empty : ({} : Mem).wf = true := rfl

theorem Mem.wf_setByte {m : Mem} (h : m.wf = true) (a : Nat) (b : Byte) : (m.setByte a b).wf = true := by
  rw [Mem.wf_iff] at h ⊢
  exact ⟨Tab.canonical_set h.1 a b, h.2⟩
theorem Mem.wf_setTag {m : Mem} (h : m.wf = true) (g : Nat) (t : Bool) : (m.setTag g t).wf = true := by
  rw [Mem.wf_iff] at h ⊢
  exact ⟨h.1, Tab.canonical_set h.2.1 g t, h.2.2⟩
theorem Mem.wf_setPsn {m : Mem} (h : m.wf = true) (k : Nat) (p : Bool) : (m.setPsn k p).wf = true := by
  rw [Mem.wf_iff] at h ⊢
  exact ⟨h.1, h.2.1, Tab.canonical_set h.2.2 k p⟩

theorem Mem.wf_foldl {α : Type} (f : Mem → α → Mem) (hf : ∀ m k, m.wf = true → (f m k).wf = true) (l : List α) {m : Mem}
    (h : m.wf = true) : (l.foldl f m).wf = true := by
  induction l generalizing m with
  | nil => exact h
  | cons k l ih => exact ih (hf m k h)

theorem Mem.wf_writeBytes {m : Mem} (h : m.wf = true) (a : Nat) (bs : List Byte) : (m.writeBytes a bs).wf = true := by
  induction bs generalizing m a with
  | nil => exact h
  | cons x bs ih => exact ih (Mem.wf_setByte h a x) (a + 1)
theorem Mem.wf_clearTags {m : Mem} (h : m.wf = true) (a n : Nat) : (m.clearTags a n).wf = true :=
  Mem.wf_foldl _ (fun _ g h => Mem.wf_setTag h g false) _ h
theorem Mem.wf_markSectors {m : Mem} (h : m.wf = true) (a n : Nat) (p : Bool) : (m.markSectors a n p).wf = true :=
  Mem.wf_foldl _ (fun m k h => by
    split
    · exact Mem.wf_setPsn h k true
    · split
      · exact Mem.wf_setPsn h k false
      · exact h) _ h
theorem Mem.wf_store {m : Mem} (h : m.wf = true) (a : Nat) (bs : List Byte) (p : Bool) : (m.store a bs p).wf = true :=
  Mem.wf_markSectors (Mem.wf_clearTags (Mem.wf_writeBytes h a bs) a _) a _ p
theorem Mem.wf_storeCap {m : Mem} (h : m.wf = true) (a : Nat) (bs : List Byte) (t p : Bool) :
    (m.storeCap a bs t p).wf = true := Mem.wf_setTag (Mem.wf_store h a bs p) _ t
theorem Mem.wf_put {m : Mem} (h : m.wf = true) (a : Nat) (bs : List Byte) (cap : Option Bool) (p : Bool) :
    (m.put a bs cap p).wf = true := by
  cases cap with
  | none => exact Mem.wf_store h a bs p
  | some t => exact Mem.wf_storeCap h a bs t p
theorem Mem.wf_setTags {m : Mem} (h : m.wf = true) (g : Nat) (ts : List Bool) : (m.setTags g ts).wf = true := by
  induction ts generalizing m g with
  | nil => exact h
  | cons t ts ih => exact ih (Mem.wf_setTag h g t) (g + 1)

/-- Dropping entries keeps the form. -/
theorem Mem.wf_filter {m : Mem} (h : m.wf = true) (p : Host.Cell → Bool) (q r : Nat × Bool → Bool) :
    (⟨m.bytes.filter p, m.tags.filter q, m.psn.filter r⟩ : Mem).wf = true := by
  rw [Mem.wf_iff] at h ⊢
  exact ⟨Tab.canonical_filter h.1 p, Tab.canonical_filter h.2.1 q, Tab.canonical_filter h.2.2 r⟩
theorem Mem.wf_zero {m : Mem} (h : m.wf = true) (lo hi : Nat) : (m.zero lo hi).wf = true := Mem.wf_filter h _ _ _
theorem Mem.wf_only {m : Mem} (h : m.wf = true) (p : Nat → Bool) : (m.only p).wf = true := Mem.wf_filter h _ _ _
theorem Mem.wf_cut {m : Mem} (h : m.wf = true) (hi : Nat) : (m.cut hi).wf = true := Mem.wf_filter h _ _ _

theorem Tab.canonical_foldl {α : Type} [DecidableEq α] {d : α} (l : List (Nat × α)) {t : Tab α} (h : t.canonical d = true) :
    Tab.canonical (l.foldl (fun (t : Tab α) e => t.set e.1 e.2 d) t) d = true := by
  induction l generalizing t with
  | nil => exact h
  | cons e l ih => exact ih (Tab.canonical_set h e.1 e.2)

theorem Mem.wf_merge {m : Mem} (h : m.wf = true) (n : Mem) (p : Nat → Bool) : (m.merge n p).wf = true := by
  have h' := (Mem.wf_iff _).1 (Mem.wf_only h fun x => !p x)
  exact (Mem.wf_iff _).2 ⟨Tab.canonical_foldl _ h'.1, Tab.canonical_foldl _ h'.2.1, Tab.canonical_foldl _ h'.2.2⟩

/-! ### A rewritten scratchpad -/

/-- A field that the error marks of a scratchpad's words do not touch stands when bytes are rewritten. -/
theorem Team.rewritten_keeps {β : Type} (f : Team → β) (h : ∀ (t : Team) b s x, f { t with scratchBad := b, scratchSoft := s, scratchOver := x } = f t)
    (t : Team) (o n : Nat) : f (t.rewritten o n) = f t := by
  unfold Team.rewritten
  generalize blocksOf 8 o n = l
  induction l generalizing t with
  | nil => rfl
  | cons k l ih =>
    rw [List.foldl_cons, ih]
    dsimp only
    split
    · rfl
    · split
      · exact h t _ _ _
      · exact h t t.scratchBad t.scratchSoft _

@[simp] theorem Team.rewritten_scratch (t : Team) (o n : Nat) : (t.rewritten o n).scratch = t.scratch :=
  Team.rewritten_keeps (·.scratch) (fun _ _ _ _ => rfl) t o n
@[simp] theorem Team.rewritten_scratchMet (t : Team) (o n : Nat) : (t.rewritten o n).scratchMet = t.scratchMet :=
  Team.rewritten_keeps (·.scratchMet) (fun _ _ _ _ => rfl) t o n
@[simp] theorem Team.rewritten_scratchSize (t : Team) (o n : Nat) : (t.rewritten o n).scratchSize = t.scratchSize :=
  Team.rewritten_keeps (·.scratchSize) (fun _ _ _ _ => rfl) t o n
@[simp] theorem Team.rewritten_members (t : Team) (o n : Nat) : (t.rewritten o n).members = t.members :=
  Team.rewritten_keeps (·.members) (fun _ _ _ _ => rfl) t o n
@[simp] theorem Team.rewritten_status (t : Team) (o n : Nat) : (t.rewritten o n).status = t.status :=
  Team.rewritten_keeps (·.status) (fun _ _ _ _ => rfl) t o n
@[simp] theorem Team.rewritten_kernel (t : Team) (o n : Nat) : (t.rewritten o n).kernel = t.kernel :=
  Team.rewritten_keeps (·.kernel) (fun _ _ _ _ => rfl) t o n
@[simp] theorem Team.rewritten_partner (t : Team) (o n : Nat) : (t.rewritten o n).partner = t.partner :=
  Team.rewritten_keeps (·.partner) (fun _ _ _ _ => rfl) t o n
@[simp] theorem Team.rewritten_core (t : Team) (o n : Nat) : (t.rewritten o n).core = t.core :=
  Team.rewritten_keeps (·.core) (fun _ _ _ _ => rfl) t o n
@[simp] theorem Team.rewritten_die (t : Team) (o n : Nat) : (t.rewritten o n).die = t.die :=
  Team.rewritten_keeps (·.die) (fun _ _ _ _ => rfl) t o n

end Sys2Proof.Machine
end

