-- ==== Sys2Proof/Laws/State.lean ====
section
/-! SUPPORT. What each update of the state leaves: one lemma per field per update. -/

namespace Sys2Proof.Machine

/-! ### The state and the pair of group and device -/

@[simp] theorem State.mach_g (s : State) : s.mach.g = s.grp := rfl
@[simp] theorem State.mach_d (s : State) : s.mach.d = s.dev := rfl
@[simp] theorem State.put_grp (s : State) (m : Mach) : (s.put m).grp = m.g := rfl
@[simp] theorem State.put_dev (s : State) (m : Mach) : (s.put m).dev = m.d := rfl
@[simp] theorem State.put_regs (s : State) (m : Mach) : (s.put m).regs = s.regs := rfl
@[simp] theorem State.put_agenda (s : State) (m : Mach) : (s.put m).agenda = s.agenda := rfl
@[simp] theorem State.put_stalled (s : State) (m : Mach) : (s.put m).stalled = s.stalled := rfl
@[simp] theorem State.put_burst (s : State) (m : Mach) : (s.put m).burst = s.burst := rfl
@[simp] theorem State.put_fresh (s : State) (m : Mach) : (s.put m).fresh = s.fresh := rfl
@[simp] theorem State.put_mach (s : State) (m : Mach) : (s.put m).mach = m := rfl
@[simp] theorem State.put_self (s : State) : s.put s.mach = s := rfl

/-! ### Registers of a group -/

@[simp] theorem Group.advance_live (g : Group) : g.advance.live = g.live := rfl
@[simp] theorem Group.advance_gid (g : Group) : g.advance.gid = g.gid := rfl
@[simp] theorem Group.advance_team (g : Group) : g.advance.team = g.team := rfl
@[simp] theorem Group.advance_ctx (g : Group) : g.advance.ctx = g.ctx := rfl
@[simp] theorem Group.advance_die (g : Group) : g.advance.die = g.die := rfl
@[simp] theorem Group.advance_core (g : Group) : g.advance.core = g.core := rfl
@[simp] theorem Group.advance_slot (g : Group) : g.advance.slot = g.slot := rfl
@[simp] theorem Group.advance_index (g : Group) : g.advance.index = g.index := rfl
@[simp] theorem Group.advance_teamNo (g : Group) : g.advance.teamNo = g.teamNo := rfl
@[simp] theorem Group.advance_width (g : Group) : g.advance.width = g.width := rfl
@[simp] theorem Group.advance_present (g : Group) : g.advance.present = g.present := rfl
@[simp] theorem Group.advance_vregs (g : Group) : g.advance.vregs = g.vregs := rfl
@[simp] theorem Group.advance_prc (g : Group) : g.advance.prc = g.prc := rfl
@[simp] theorem Group.advance_dual (g : Group) : g.advance.dual = g.dual := rfl
@[simp] theorem Group.advance_shadow (g : Group) : g.advance.shadow = g.shadow := rfl
@[simp] theorem Group.advance_colour (g : Group) : g.advance.colour = g.colour := rfl
@[simp] theorem Group.advance_part (g : Group) : g.advance.part = g.part := rfl
@[simp] theorem Group.advance_codeLo (g : Group) : g.advance.codeLo = g.codeLo := rfl
@[simp] theorem Group.advance_codeHi (g : Group) : g.advance.codeHi = g.codeHi := rfl
@[simp] theorem Group.advance_laneBase (g : Group) : g.advance.laneBase = g.laneBase := rfl
@[simp] theorem Group.advance_laneWords (g : Group) : g.advance.laneWords = g.laneWords := rfl
@[simp] theorem Group.advance_privSize (g : Group) : g.advance.privSize = g.privSize := rfl
@[simp] theorem Group.advance_pc (g : Group) : g.advance.pc = g.pc + 4 := rfl
@[simp] theorem Group.advance_queue (g : Group) : g.advance.queue = g.queue := rfl
@[simp] theorem Group.advance_lpos (g : Group) : g.advance.lpos = g.lpos := rfl
@[simp] theorem Group.advance_s (g : Group) : g.advance.s = g.s := rfl
@[simp] theorem Group.advance_c (g : Group) : g.advance.c = g.c := rfl
@[simp] theorem Group.advance_lanes (g : Group) : g.advance.lanes = g.lanes := rfl
@[simp] theorem Group.advance_m (g : Group) : g.advance.m = g.m := rfl
@[simp] theorem Group.advance_x (g : Group) : g.advance.x = g.x := rfl
@[simp] theorem Group.advance_tile (g : Group) : g.advance.tile = g.tile := rfl
@[simp] theorem Group.advance_chain (g : Group) : g.advance.chain = g.chain := rfl
@[simp] theorem Group.advance_nest (g : Group) : g.advance.nest = g.nest := rfl
@[simp] theorem Group.advance_nestHigh (g : Group) : g.advance.nestHigh = g.nestHigh := rfl
@[simp] theorem Group.advance_nestLimit (g : Group) : g.advance.nestLimit = g.nestLimit := rfl
@[simp] theorem Group.advance_stack (g : Group) : g.advance.stack = g.stack := rfl
@[simp] theorem Group.advance_spill (g : Group) : g.advance.spill = g.spill := rfl
@[simp] theorem Group.advance_spilled (g : Group) : g.advance.spilled = g.spilled := rfl
@[simp] theorem Group.advance_fmask (g : Group) : g.advance.fmask = g.fmask := rfl
@[simp] theorem Group.advance_skip (g : Group) : g.advance.skip = g.skip := rfl
@[simp] theorem Group.advance_nores (g : Group) : g.advance.nores = g.nores := rfl
@[simp] theorem Group.advance_path (g : Group) : g.advance.path = g.path := rfl
@[simp] theorem Group.advance_nevc (g : Group) : g.advance.nevc = g.nevc := rfl
@[simp] theorem Group.advance_code (g : Group) : g.advance.code = g.code := rfl
@[simp] theorem Group.advance_tspc (g : Group) : g.advance.tspc = g.tspc := rfl
@[simp] theorem Group.advance_tlpc (g : Group) : g.advance.tlpc = g.tlpc := rfl
@[simp] theorem Group.advance_trapv (g : Group) : g.advance.trapv = g.trapv := rfl
@[simp] theorem Group.advance_emuv (g : Group) : g.advance.emuv = g.emuv := rfl
@[simp] theorem Group.advance_e0 (g : Group) : g.advance.e0 = g.e0 := rfl
@[simp] theorem Group.advance_e1 (g : Group) : g.advance.e1 = g.e1 := rfl
@[simp] theorem Group.advance_e2 (g : Group) : g.advance.e2 = g.e2 := rfl
@[simp] theorem Group.advance_e3 (g : Group) : g.advance.e3 = g.e3 := rfl
@[simp] theorem Group.advance_dzmask (g : Group) : g.advance.dzmask = g.dzmask := rfl
@[simp] theorem Group.advance_domask (g : Group) : g.advance.domask = g.domask := rfl
@[simp] theorem Group.advance_trapFrame (g : Group) : g.advance.trapFrame = g.trapFrame := rfl
@[simp] theorem Group.advance_emuFrame (g : Group) : g.advance.emuFrame = g.emuFrame := rfl
@[simp] theorem Group.advance_inHandler (g : Group) : g.advance.inHandler = g.inHandler := rfl
@[simp] theorem Group.advance_flights (g : Group) : g.advance.flights = g.flights := rfl
@[simp] theorem Group.advance_nextOp (g : Group) : g.advance.nextOp = g.nextOp := rfl
@[simp] theorem Group.advance_issued (g : Group) : g.advance.issued = g.issued := rfl
@[simp] theorem Group.advance_unjoined (g : Group) : g.advance.unjoined = g.unjoined := rfl
@[simp] theorem Group.advance_heldTraps (g : Group) : g.advance.heldTraps = g.heldTraps := rfl
@[simp] theorem Group.advance_mxLatch (g : Group) : g.advance.mxLatch = g.mxLatch := rfl
@[simp] theorem Group.advance_roles (g : Group) : g.advance.roles = g.roles := rfl
@[simp] theorem Group.advance_ords (g : Group) : g.advance.ords = g.ords := rfl
@[simp] theorem Group.advance_missed (g : Group) : g.advance.missed = g.missed := rfl
@[simp] theorem Group.advance_staleIds (g : Group) : g.advance.staleIds = g.staleIds := rfl
@[simp] theorem Group.advance_arrived (g : Group) : g.advance.arrived = g.arrived := rfl
@[simp] theorem Group.advance_park (g : Group) : g.advance.park = g.park := rfl
@[simp] theorem Group.advance_waitRemote (g : Group) : g.advance.waitRemote = g.waitRemote := rfl
@[simp] theorem Group.advance_heldWords (g : Group) : g.advance.heldWords = g.heldWords := rfl
@[simp] theorem Group.advance_dueTrap (g : Group) : g.advance.dueTrap = g.dueTrap := rfl
@[simp] theorem Group.advance_blocks (g : Group) : g.advance.blocks = g.blocks := rfl
@[simp] theorem Group.advance_entering (g : Group) : g.advance.entering = g.entering := rfl
@[simp] theorem Group.advance_age (g : Group) : g.advance.age = g.age := rfl
@[simp] theorem Group.advance_prio (g : Group) : g.advance.prio = g.prio := rfl
@[simp] theorem Group.advance_starveScalar (g : Group) : g.advance.starveScalar = g.starveScalar := rfl
@[simp] theorem Group.advance_starveLane (g : Group) : g.advance.starveLane = g.starveLane := rfl
@[simp] theorem Group.advance_yielded (g : Group) : g.advance.yielded = g.yielded := rfl
@[simp] theorem Group.advance_spilledRegs (g : Group) : g.advance.spilledRegs = g.spilledRegs := rfl
@[simp] theorem Group.advance_lastLane (g : Group) : g.advance.lastLane = g.lastLane := rfl
@[simp] theorem Group.advance_lastRead (g : Group) : g.advance.lastRead = g.lastRead := rfl
@[simp] theorem Group.advance_badScalar (g : Group) : g.advance.badScalar = g.badScalar := rfl
@[simp] theorem Group.advance_badLatch (g : Group) : g.advance.badLatch = g.badLatch := rfl
@[simp] theorem Group.advance_ended (g : Group) : g.advance.ended = g.ended := rfl
@[simp] theorem Group.advance_dualSt (g : Group) : g.advance.dualSt = g.dualSt := rfl
@[simp] theorem Group.advance_priv (g : Group) : g.advance.priv = g.priv := rfl
@[simp] theorem Group.setS_live (g : Group) (k : Nat) (x : Word) : (g.setS k x).live = g.live := by
  unfold Group.setS; split <;> rfl
@[simp] theorem Group.setS_gid (g : Group) (k : Nat) (x : Word) : (g.setS k x).gid = g.gid := by
  unfold Group.setS; split <;> rfl
@[simp] theorem Group.setS_team (g : Group) (k : Nat) (x : Word) : (g.setS k x).team = g.team := by
  unfold Group.setS; split <;> rfl
@[simp] theorem Group.setS_ctx (g : Group) (k : Nat) (x : Word) : (g.setS k x).ctx = g.ctx := by
  unfold Group.setS; split <;> rfl
@[simp] theorem Group.setS_die (g : Group) (k : Nat) (x : Word) : (g.setS k x).die = g.die := by
  unfold Group.setS; split <;> rfl
@[simp] theorem Group.setS_core (g : Group) (k : Nat) (x : Word) : (g.setS k x).core = g.core := by
  unfold Group.setS; split <;> rfl
@[simp] theorem Group.setS_slot (g : Group) (k : Nat) (x : Word) : (g.setS k x).slot = g.slot := by
  unfold Group.setS; split <;> rfl
@[simp] theorem Group.setS_index (g : Group) (k : Nat) (x : Word) : (g.setS k x).index = g.index := by
  unfold Group.setS; split <;> rfl
@[simp] theorem Group.setS_teamNo (g : Group) (k : Nat) (x : Word) : (g.setS k x).teamNo = g.teamNo := by
  unfold Group.setS; split <;> rfl
@[simp] theorem Group.setS_width (g : Group) (k : Nat) (x : Word) : (g.setS k x).width = g.width := by
  unfold Group.setS; split <;> rfl
@[simp] theorem Group.setS_present (g : Group) (k : Nat) (x : Word) : (g.setS k x).present = g.present := by
  unfold Group.setS; split <;> rfl
@[simp] theorem Group.setS_vregs (g : Group) (k : Nat) (x : Word) : (g.setS k x).vregs = g.vregs := by
  unfold Group.setS; split <;> rfl
@[simp] theorem Group.setS_prc (g : Group) (k : Nat) (x : Word) : (g.setS k x).prc = g.prc := by
  unfold Group.setS; split <;> rfl
@[simp] theorem Group.setS_dual (g : Group) (k : Nat) (x : Word) : (g.setS k x).dual = g.dual := by
  unfold Group.setS; split <;> rfl
@[simp] theorem Group.setS_shadow (g : Group) (k : Nat) (x : Word) : (g.setS k x).shadow = g.shadow := by
  unfold Group.setS; split <;> rfl
@[simp] theorem Group.setS_colour (g : Group) (k : Nat) (x : Word) : (g.setS k x).colour = g.colour := by
  unfold Group.setS; split <;> rfl
@[simp] theorem Group.setS_part (g : Group) (k : Nat) (x : Word) : (g.setS k x).part = g.part := by
  unfold Group.setS; split <;> rfl
@[simp] theorem Group.setS_codeLo (g : Group) (k : Nat) (x : Word) : (g.setS k x).codeLo = g.codeLo := by
  unfold Group.setS; split <;> rfl
@[simp] theorem Group.setS_codeHi (g : Group) (k : Nat) (x : Word) : (g.setS k x).codeHi = g.codeHi := by
  unfold Group.setS; split <;> rfl
@[simp] theorem Group.setS_laneBase (g : Group) (k : Nat) (x : Word) : (g.setS k x).laneBase = g.laneBase := by
  unfold Group.setS; split <;> rfl
@[simp] theorem Group.setS_laneWords (g : Group) (k : Nat) (x : Word) : (g.setS k x).laneWords = g.laneWords := by
  unfold Group.setS; split <;> rfl
@[simp] theorem Group.setS_privSize (g : Group) (k : Nat) (x : Word) : (g.setS k x).privSize = g.privSize := by
  unfold Group.setS; split <;> rfl
@[simp] theorem Group.setS_pc (g : Group) (k : Nat) (x : Word) : (g.setS k x).pc = g.pc := by
  unfold Group.setS; split <;> rfl
@[simp] theorem Group.setS_queue (g : Group) (k : Nat) (x : Word) : (g.setS k x).queue = g.queue := by
  unfold Group.setS; split <;> rfl
@[simp] theorem Group.setS_lpos (g : Group) (k : Nat) (x : Word) : (g.setS k x).lpos = g.lpos := by
  unfold Group.setS; split <;> rfl
@[simp] theorem Group.setS_c (g : Group) (k : Nat) (x : Word) : (g.setS k x).c = g.c := by
  unfold Group.setS; split <;> rfl
@[simp] theorem Group.setS_lanes (g : Group) (k : Nat) (x : Word) : (g.setS k x).lanes = g.lanes := by
  unfold Group.setS; split <;> rfl
@[simp] theorem Group.setS_m (g : Group) (k : Nat) (x : Word) : (g.setS k x).m = g.m := by
  unfold Group.setS; split <;> rfl
@[simp] theorem Group.setS_x (g : Group) (k : Nat) (x : Word) : (g.setS k x).x = g.x := by
  unfold Group.setS; split <;> rfl
@[simp] theorem Group.setS_tile (g : Group) (k : Nat) (x : Word) : (g.setS k x).tile = g.tile := by
  unfold Group.setS; split <;> rfl
@[simp] theorem Group.setS_chain (g : Group) (k : Nat) (x : Word) : (g.setS k x).chain = g.chain := by
  unfold Group.setS; split <;> rfl
@[simp] theorem Group.setS_nest (g : Group) (k : Nat) (x : Word) : (g.setS k x).nest = g.nest := by
  unfold Group.setS; split <;> rfl
@[simp] theorem Group.setS_nestHigh (g : Group) (k : Nat) (x : Word) : (g.setS k x).nestHigh = g.nestHigh := by
  unfold Group.setS; split <;> rfl
@[simp] theorem Group.setS_nestLimit (g : Group) (k : Nat) (x : Word) : (g.setS k x).nestLimit = g.nestLimit := by
  unfold Group.setS; split <;> rfl
@[simp] theorem Group.setS_stack (g : Group) (k : Nat) (x : Word) : (g.setS k x).stack = g.stack := by
  unfold Group.setS; split <;> rfl
@[simp] theorem Group.setS_spill (g : Group) (k : Nat) (x : Word) : (g.setS k x).spill = g.spill := by
  unfold Group.setS; split <;> rfl
@[simp] theorem Group.setS_spilled (g : Group) (k : Nat) (x : Word) : (g.setS k x).spilled = g.spilled := by
  unfold Group.setS; split <;> rfl
@[simp] theorem Group.setS_fmask (g : Group) (k : Nat) (x : Word) : (g.setS k x).fmask = g.fmask := by
  unfold Group.setS; split <;> rfl
@[simp] theorem Group.setS_skip (g : Group) (k : Nat) (x : Word) : (g.setS k x).skip = g.skip := by
  unfold Group.setS; split <;> rfl
@[simp] theorem Group.setS_nores (g : Group) (k : Nat) (x : Word) : (g.setS k x).nores = g.nores := by
  unfold Group.setS; split <;> rfl
@[simp] theorem Group.setS_path (g : Group) (k : Nat) (x : Word) : (g.setS k x).path = g.path := by
  unfold Group.setS; split <;> rfl
@[simp] theorem Group.setS_nevc (g : Group) (k : Nat) (x : Word) : (g.setS k x).nevc = g.nevc := by
  unfold Group.setS; split <;> rfl
@[simp] theorem Group.setS_code (g : Group) (k : Nat) (x : Word) : (g.setS k x).code = g.code := by
  unfold Group.setS; split <;> rfl
@[simp] theorem Group.setS_tspc (g : Group) (k : Nat) (x : Word) : (g.setS k x).tspc = g.tspc := by
  unfold Group.setS; split <;> rfl
@[simp] theorem Group.setS_tlpc (g : Group) (k : Nat) (x : Word) : (g.setS k x).tlpc = g.tlpc := by
  unfold Group.setS; split <;> rfl
@[simp] theorem Group.setS_trapv (g : Group) (k : Nat) (x : Word) : (g.setS k x).trapv = g.trapv := by
  unfold Group.setS; split <;> rfl
@[simp] theorem Group.setS_emuv (g : Group) (k : Nat) (x : Word) : (g.setS k x).emuv = g.emuv := by
  unfold Group.setS; split <;> rfl
@[simp] theorem Group.setS_e0 (g : Group) (k : Nat) (x : Word) : (g.setS k x).e0 = g.e0 := by
  unfold Group.setS; split <;> rfl
@[simp] theorem Group.setS_e1 (g : Group) (k : Nat) (x : Word) : (g.setS k x).e1 = g.e1 := by
  unfold Group.setS; split <;> rfl
@[simp] theorem Group.setS_e2 (g : Group) (k : Nat) (x : Word) : (g.setS k x).e2 = g.e2 := by
  unfold Group.setS; split <;> rfl
@[simp] theorem Group.setS_e3 (g : Group) (k : Nat) (x : Word) : (g.setS k x).e3 = g.e3 := by
  unfold Group.setS; split <;> rfl
@[simp] theorem Group.setS_dzmask (g : Group) (k : Nat) (x : Word) : (g.setS k x).dzmask = g.dzmask := by
  unfold Group.setS; split <;> rfl
@[simp] theorem Group.setS_domask (g : Group) (k : Nat) (x : Word) : (g.setS k x).domask = g.domask := by
  unfold Group.setS; split <;> rfl
@[simp] theorem Group.setS_trapFrame (g : Group) (k : Nat) (x : Word) : (g.setS k x).trapFrame = g.trapFrame := by
  unfold Group.setS; split <;> rfl
@[simp] theorem Group.setS_emuFrame (g : Group) (k : Nat) (x : Word) : (g.setS k x).emuFrame = g.emuFrame := by
  unfold Group.setS; split <;> rfl
@[simp] theorem Group.setS_inHandler (g : Group) (k : Nat) (x : Word) : (g.setS k x).inHandler = g.inHandler := by
  unfold Group.setS; split <;> rfl
@[simp] theorem Group.setS_flights (g : Group) (k : Nat) (x : Word) : (g.setS k x).flights = g.flights := by
  unfold Group.setS; split <;> rfl
@[simp] theorem Group.setS_nextOp (g : Group) (k : Nat) (x : Word) : (g.setS k x).nextOp = g.nextOp := by
  unfold Group.setS; split <;> rfl
@[simp] theorem Group.setS_issued (g : Group) (k : Nat) (x : Word) : (g.setS k x).issued = g.issued := by
  unfold Group.setS; split <;> rfl
@[simp] theorem Group.setS_unjoined (g : Group) (k : Nat) (x : Word) : (g.setS k x).unjoined = g.unjoined := by
  unfold Group.setS; split <;> rfl
@[simp] theorem Group.setS_heldTraps (g : Group) (k : Nat) (x : Word) : (g.setS k x).heldTraps = g.heldTraps := by
  unfold Group.setS; split <;> rfl
@[simp] theorem Group.setS_mxLatch (g : Group) (k : Nat) (x : Word) : (g.setS k x).mxLatch = g.mxLatch := by
  unfold Group.setS; split <;> rfl
@[simp] theorem Group.setS_roles (g : Group) (k : Nat) (x : Word) : (g.setS k x).roles = g.roles := by
  unfold Group.setS; split <;> rfl
@[simp] theorem Group.setS_ords (g : Group) (k : Nat) (x : Word) : (g.setS k x).ords = g.ords := by
  unfold Group.setS; split <;> rfl
@[simp] theorem Group.setS_missed (g : Group) (k : Nat) (x : Word) : (g.setS k x).missed = g.missed := by
  unfold Group.setS; split <;> rfl
@[simp] theorem Group.setS_staleIds (g : Group) (k : Nat) (x : Word) : (g.setS k x).staleIds = g.staleIds := by
  unfold Group.setS; split <;> rfl
@[simp] theorem Group.setS_arrived (g : Group) (k : Nat) (x : Word) : (g.setS k x).arrived = g.arrived := by
  unfold Group.setS; split <;> rfl
@[simp] theorem Group.setS_park (g : Group) (k : Nat) (x : Word) : (g.setS k x).park = g.park := by
  unfold Group.setS; split <;> rfl
@[simp] theorem Group.setS_waitRemote (g : Group) (k : Nat) (x : Word) : (g.setS k x).waitRemote = g.waitRemote := by
  unfold Group.setS; split <;> rfl
@[simp] theorem Group.setS_heldWords (g : Group) (k : Nat) (x : Word) : (g.setS k x).heldWords = g.heldWords := by
  unfold Group.setS; split <;> rfl
@[simp] theorem Group.setS_dueTrap (g : Group) (k : Nat) (x : Word) : (g.setS k x).dueTrap = g.dueTrap := by
  unfold Group.setS; split <;> rfl
@[simp] theorem Group.setS_blocks (g : Group) (k : Nat) (x : Word) : (g.setS k x).blocks = g.blocks := by
  unfold Group.setS; split <;> rfl
@[simp] theorem Group.setS_entering (g : Group) (k : Nat) (x : Word) : (g.setS k x).entering = g.entering := by
  unfold Group.setS; split <;> rfl
@[simp] theorem Group.setS_age (g : Group) (k : Nat) (x : Word) : (g.setS k x).age = g.age := by
  unfold Group.setS; split <;> rfl
@[simp] theorem Group.setS_prio (g : Group) (k : Nat) (x : Word) : (g.setS k x).prio = g.prio := by
  unfold Group.setS; split <;> rfl
@[simp] theorem Group.setS_starveScalar (g : Group) (k : Nat) (x : Word) : (g.setS k x).starveScalar = g.starveScalar := by
  unfold Group.setS; split <;> rfl
@[simp] theorem Group.setS_starveLane (g : Group) (k : Nat) (x : Word) : (g.setS k x).starveLane = g.starveLane := by
  unfold Group.setS; split <;> rfl
@[simp] theorem Group.setS_yielded (g : Group) (k : Nat) (x : Word) : (g.setS k x).yielded = g.yielded := by
  unfold Group.setS; split <;> rfl
@[simp] theorem Group.setS_spilledRegs (g : Group) (k : Nat) (x : Word) : (g.setS k x).spilledRegs = g.spilledRegs := by
  unfold Group.setS; split <;> rfl
@[simp] theorem Group.setS_lastLane (g : Group) (k : Nat) (x : Word) : (g.setS k x).lastLane = g.lastLane := by
  unfold Group.setS; split <;> rfl
@[simp] theorem Group.setS_lastRead (g : Group) (k : Nat) (x : Word) : (g.setS k x).lastRead = g.lastRead := by
  unfold Group.setS; split <;> rfl
@[simp] theorem Group.setS_badLatch (g : Group) (k : Nat) (x : Word) : (g.setS k x).badLatch = g.badLatch := by
  unfold Group.setS; split <;> rfl
@[simp] theorem Group.setS_ended (g : Group) (k : Nat) (x : Word) : (g.setS k x).ended = g.ended := by
  unfold Group.setS; split <;> rfl
@[simp] theorem Group.setS_dualSt (g : Group) (k : Nat) (x : Word) : (g.setS k x).dualSt = g.dualSt := by
  unfold Group.setS; split <;> rfl
@[simp] theorem Group.setS_priv (g : Group) (k : Nat) (x : Word) : (g.setS k x).priv = g.priv := by
  unfold Group.setS; split <;> rfl
@[simp] theorem Group.setC_live (g : Group) (k : Nat) (x : Cap) : (g.setC k x).live = g.live := rfl
@[simp] theorem Group.setC_gid (g : Group) (k : Nat) (x : Cap) : (g.setC k x).gid = g.gid := rfl
@[simp] theorem Group.setC_team (g : Group) (k : Nat) (x : Cap) : (g.setC k x).team = g.team := rfl
@[simp] theorem Group.setC_ctx (g : Group) (k : Nat) (x : Cap) : (g.setC k x).ctx = g.ctx := rfl
@[simp] theorem Group.setC_die (g : Group) (k : Nat) (x : Cap) : (g.setC k x).die = g.die := rfl
@[simp] theorem Group.setC_core (g : Group) (k : Nat) (x : Cap) : (g.setC k x).core = g.core := rfl
@[simp] theorem Group.setC_slot (g : Group) (k : Nat) (x : Cap) : (g.setC k x).slot = g.slot := rfl
@[simp] theorem Group.setC_index (g : Group) (k : Nat) (x : Cap) : (g.setC k x).index = g.index := rfl
@[simp] theorem Group.setC_teamNo (g : Group) (k : Nat) (x : Cap) : (g.setC k x).teamNo = g.teamNo := rfl
@[simp] theorem Group.setC_width (g : Group) (k : Nat) (x : Cap) : (g.setC k x).width = g.width := rfl
@[simp] theorem Group.setC_present (g : Group) (k : Nat) (x : Cap) : (g.setC k x).present = g.present := rfl
@[simp] theorem Group.setC_vregs (g : Group) (k : Nat) (x : Cap) : (g.setC k x).vregs = g.vregs := rfl
@[simp] theorem Group.setC_prc (g : Group) (k : Nat) (x : Cap) : (g.setC k x).prc = g.prc := rfl
@[simp] theorem Group.setC_dual (g : Group) (k : Nat) (x : Cap) : (g.setC k x).dual = g.dual := rfl
@[simp] theorem Group.setC_shadow (g : Group) (k : Nat) (x : Cap) : (g.setC k x).shadow = g.shadow := rfl
@[simp] theorem Group.setC_colour (g : Group) (k : Nat) (x : Cap) : (g.setC k x).colour = g.colour := rfl
@[simp] theorem Group.setC_part (g : Group) (k : Nat) (x : Cap) : (g.setC k x).part = g.part := rfl
@[simp] theorem Group.setC_codeLo (g : Group) (k : Nat) (x : Cap) : (g.setC k x).codeLo = g.codeLo := rfl
@[simp] theorem Group.setC_codeHi (g : Group) (k : Nat) (x : Cap) : (g.setC k x).codeHi = g.codeHi := rfl
@[simp] theorem Group.setC_laneBase (g : Group) (k : Nat) (x : Cap) : (g.setC k x).laneBase = g.laneBase := rfl
@[simp] theorem Group.setC_laneWords (g : Group) (k : Nat) (x : Cap) : (g.setC k x).laneWords = g.laneWords := rfl
@[simp] theorem Group.setC_privSize (g : Group) (k : Nat) (x : Cap) : (g.setC k x).privSize = g.privSize := rfl
@[simp] theorem Group.setC_pc (g : Group) (k : Nat) (x : Cap) : (g.setC k x).pc = g.pc := rfl
@[simp] theorem Group.setC_queue (g : Group) (k : Nat) (x : Cap) : (g.setC k x).queue = g.queue := rfl
@[simp] theorem Group.setC_lpos (g : Group) (k : Nat) (x : Cap) : (g.setC k x).lpos = g.lpos := rfl
@[simp] theorem Group.setC_s (g : Group) (k : Nat) (x : Cap) : (g.setC k x).s = g.s := rfl
@[simp] theorem Group.setC_lanes (g : Group) (k : Nat) (x : Cap) : (g.setC k x).lanes = g.lanes := rfl
@[simp] theorem Group.setC_m (g : Group) (k : Nat) (x : Cap) : (g.setC k x).m = g.m := rfl
@[simp] theorem Group.setC_x (g : Group) (k : Nat) (x : Cap) : (g.setC k x).x = g.x := rfl
@[simp] theorem Group.setC_tile (g : Group) (k : Nat) (x : Cap) : (g.setC k x).tile = g.tile := rfl
@[simp] theorem Group.setC_chain (g : Group) (k : Nat) (x : Cap) : (g.setC k x).chain = g.chain := rfl
@[simp] theorem Group.setC_nest (g : Group) (k : Nat) (x : Cap) : (g.setC k x).nest = g.nest := rfl
@[simp] theorem Group.setC_nestHigh (g : Group) (k : Nat) (x : Cap) : (g.setC k x).nestHigh = g.nestHigh := rfl
@[simp] theorem Group.setC_nestLimit (g : Group) (k : Nat) (x : Cap) : (g.setC k x).nestLimit = g.nestLimit := rfl
@[simp] theorem Group.setC_stack (g : Group) (k : Nat) (x : Cap) : (g.setC k x).stack = g.stack := rfl
@[simp] theorem Group.setC_spill (g : Group) (k : Nat) (x : Cap) : (g.setC k x).spill = g.spill := rfl
@[simp] theorem Group.setC_spilled (g : Group) (k : Nat) (x : Cap) : (g.setC k x).spilled = g.spilled := rfl
@[simp] theorem Group.setC_fmask (g : Group) (k : Nat) (x : Cap) : (g.setC k x).fmask = g.fmask := rfl
@[simp] theorem Group.setC_skip (g : Group) (k : Nat) (x : Cap) : (g.setC k x).skip = g.skip := rfl
@[simp] theorem Group.setC_nores (g : Group) (k : Nat) (x : Cap) : (g.setC k x).nores = g.nores := rfl
@[simp] theorem Group.setC_path (g : Group) (k : Nat) (x : Cap) : (g.setC k x).path = g.path := rfl
@[simp] theorem Group.setC_nevc (g : Group) (k : Nat) (x : Cap) : (g.setC k x).nevc = g.nevc := rfl
@[simp] theorem Group.setC_code (g : Group) (k : Nat) (x : Cap) : (g.setC k x).code = g.code := rfl
@[simp] theorem Group.setC_tspc (g : Group) (k : Nat) (x : Cap) : (g.setC k x).tspc = g.tspc := rfl
@[simp] theorem Group.setC_tlpc (g : Group) (k : Nat) (x : Cap) : (g.setC k x).tlpc = g.tlpc := rfl
@[simp] theorem Group.setC_trapv (g : Group) (k : Nat) (x : Cap) : (g.setC k x).trapv = g.trapv := rfl
@[simp] theorem Group.setC_emuv (g : Group) (k : Nat) (x : Cap) : (g.setC k x).emuv = g.emuv := rfl
@[simp] theorem Group.setC_e0 (g : Group) (k : Nat) (x : Cap) : (g.setC k x).e0 = g.e0 := rfl
@[simp] theorem Group.setC_e1 (g : Group) (k : Nat) (x : Cap) : (g.setC k x).e1 = g.e1 := rfl
@[simp] theorem Group.setC_e2 (g : Group) (k : Nat) (x : Cap) : (g.setC k x).e2 = g.e2 := rfl
@[simp] theorem Group.setC_e3 (g : Group) (k : Nat) (x : Cap) : (g.setC k x).e3 = g.e3 := rfl
@[simp] theorem Group.setC_dzmask (g : Group) (k : Nat) (x : Cap) : (g.setC k x).dzmask = g.dzmask := rfl
@[simp] theorem Group.setC_domask (g : Group) (k : Nat) (x : Cap) : (g.setC k x).domask = g.domask := rfl
@[simp] theorem Group.setC_trapFrame (g : Group) (k : Nat) (x : Cap) : (g.setC k x).trapFrame = g.trapFrame := rfl
@[simp] theorem Group.setC_emuFrame (g : Group) (k : Nat) (x : Cap) : (g.setC k x).emuFrame = g.emuFrame := rfl
@[simp] theorem Group.setC_inHandler (g : Group) (k : Nat) (x : Cap) : (g.setC k x).inHandler = g.inHandler := rfl
@[simp] theorem Group.setC_flights (g : Group) (k : Nat) (x : Cap) : (g.setC k x).flights = g.flights := rfl
@[simp] theorem Group.setC_nextOp (g : Group) (k : Nat) (x : Cap) : (g.setC k x).nextOp = g.nextOp := rfl
@[simp] theorem Group.setC_issued (g : Group) (k : Nat) (x : Cap) : (g.setC k x).issued = g.issued := rfl
@[simp] theorem Group.setC_unjoined (g : Group) (k : Nat) (x : Cap) : (g.setC k x).unjoined = g.unjoined := rfl
@[simp] theorem Group.setC_heldTraps (g : Group) (k : Nat) (x : Cap) : (g.setC k x).heldTraps = g.heldTraps := rfl
@[simp] theorem Group.setC_mxLatch (g : Group) (k : Nat) (x : Cap) : (g.setC k x).mxLatch = g.mxLatch := rfl
@[simp] theorem Group.setC_roles (g : Group) (k : Nat) (x : Cap) : (g.setC k x).roles = g.roles := rfl
@[simp] theorem Group.setC_ords (g : Group) (k : Nat) (x : Cap) : (g.setC k x).ords = g.ords := rfl
@[simp] theorem Group.setC_missed (g : Group) (k : Nat) (x : Cap) : (g.setC k x).missed = g.missed := rfl
@[simp] theorem Group.setC_staleIds (g : Group) (k : Nat) (x : Cap) : (g.setC k x).staleIds = g.staleIds := rfl
@[simp] theorem Group.setC_arrived (g : Group) (k : Nat) (x : Cap) : (g.setC k x).arrived = g.arrived := rfl
@[simp] theorem Group.setC_park (g : Group) (k : Nat) (x : Cap) : (g.setC k x).park = g.park := rfl
@[simp] theorem Group.setC_waitRemote (g : Group) (k : Nat) (x : Cap) : (g.setC k x).waitRemote = g.waitRemote := rfl
@[simp] theorem Group.setC_heldWords (g : Group) (k : Nat) (x : Cap) : (g.setC k x).heldWords = g.heldWords := rfl
@[simp] theorem Group.setC_dueTrap (g : Group) (k : Nat) (x : Cap) : (g.setC k x).dueTrap = g.dueTrap := rfl
@[simp] theorem Group.setC_blocks (g : Group) (k : Nat) (x : Cap) : (g.setC k x).blocks = g.blocks := rfl
@[simp] theorem Group.setC_entering (g : Group) (k : Nat) (x : Cap) : (g.setC k x).entering = g.entering := rfl
@[simp] theorem Group.setC_age (g : Group) (k : Nat) (x : Cap) : (g.setC k x).age = g.age := rfl
@[simp] theorem Group.setC_prio (g : Group) (k : Nat) (x : Cap) : (g.setC k x).prio = g.prio := rfl
@[simp] theorem Group.setC_starveScalar (g : Group) (k : Nat) (x : Cap) : (g.setC k x).starveScalar = g.starveScalar := rfl
@[simp] theorem Group.setC_starveLane (g : Group) (k : Nat) (x : Cap) : (g.setC k x).starveLane = g.starveLane := rfl
@[simp] theorem Group.setC_yielded (g : Group) (k : Nat) (x : Cap) : (g.setC k x).yielded = g.yielded := rfl
@[simp] theorem Group.setC_spilledRegs (g : Group) (k : Nat) (x : Cap) : (g.setC k x).spilledRegs = g.spilledRegs := rfl
@[simp] theorem Group.setC_lastLane (g : Group) (k : Nat) (x : Cap) : (g.setC k x).lastLane = g.lastLane := rfl
@[simp] theorem Group.setC_lastRead (g : Group) (k : Nat) (x : Cap) : (g.setC k x).lastRead = g.lastRead := rfl
@[simp] theorem Group.setC_badLatch (g : Group) (k : Nat) (x : Cap) : (g.setC k x).badLatch = g.badLatch := rfl
@[simp] theorem Group.setC_ended (g : Group) (k : Nat) (x : Cap) : (g.setC k x).ended = g.ended := rfl
@[simp] theorem Group.setC_dualSt (g : Group) (k : Nat) (x : Cap) : (g.setC k x).dualSt = g.dualSt := rfl
@[simp] theorem Group.setC_priv (g : Group) (k : Nat) (x : Cap) : (g.setC k x).priv = g.priv := rfl
@[simp] theorem Group.setM_live (g : Group) (k : Nat) (x : Word) : (g.setM k x).live = g.live := rfl
@[simp] theorem Group.setM_gid (g : Group) (k : Nat) (x : Word) : (g.setM k x).gid = g.gid := rfl
@[simp] theorem Group.setM_team (g : Group) (k : Nat) (x : Word) : (g.setM k x).team = g.team := rfl
@[simp] theorem Group.setM_ctx (g : Group) (k : Nat) (x : Word) : (g.setM k x).ctx = g.ctx := rfl
@[simp] theorem Group.setM_die (g : Group) (k : Nat) (x : Word) : (g.setM k x).die = g.die := rfl
@[simp] theorem Group.setM_core (g : Group) (k : Nat) (x : Word) : (g.setM k x).core = g.core := rfl
@[simp] theorem Group.setM_slot (g : Group) (k : Nat) (x : Word) : (g.setM k x).slot = g.slot := rfl
@[simp] theorem Group.setM_index (g : Group) (k : Nat) (x : Word) : (g.setM k x).index = g.index := rfl
@[simp] theorem Group.setM_teamNo (g : Group) (k : Nat) (x : Word) : (g.setM k x).teamNo = g.teamNo := rfl
@[simp] theorem Group.setM_width (g : Group) (k : Nat) (x : Word) : (g.setM k x).width = g.width := rfl
@[simp] theorem Group.setM_present (g : Group) (k : Nat) (x : Word) : (g.setM k x).present = g.present := rfl
@[simp] theorem Group.setM_vregs (g : Group) (k : Nat) (x : Word) : (g.setM k x).vregs = g.vregs := rfl
@[simp] theorem Group.setM_prc (g : Group) (k : Nat) (x : Word) : (g.setM k x).prc = g.prc := rfl
@[simp] theorem Group.setM_dual (g : Group) (k : Nat) (x : Word) : (g.setM k x).dual = g.dual := rfl
@[simp] theorem Group.setM_shadow (g : Group) (k : Nat) (x : Word) : (g.setM k x).shadow = g.shadow := rfl
@[simp] theorem Group.setM_colour (g : Group) (k : Nat) (x : Word) : (g.setM k x).colour = g.colour := rfl
@[simp] theorem Group.setM_part (g : Group) (k : Nat) (x : Word) : (g.setM k x).part = g.part := rfl
@[simp] theorem Group.setM_codeLo (g : Group) (k : Nat) (x : Word) : (g.setM k x).codeLo = g.codeLo := rfl
@[simp] theorem Group.setM_codeHi (g : Group) (k : Nat) (x : Word) : (g.setM k x).codeHi = g.codeHi := rfl
@[simp] theorem Group.setM_laneBase (g : Group) (k : Nat) (x : Word) : (g.setM k x).laneBase = g.laneBase := rfl
@[simp] theorem Group.setM_laneWords (g : Group) (k : Nat) (x : Word) : (g.setM k x).laneWords = g.laneWords := rfl
@[simp] theorem Group.setM_privSize (g : Group) (k : Nat) (x : Word) : (g.setM k x).privSize = g.privSize := rfl
@[simp] theorem Group.setM_pc (g : Group) (k : Nat) (x : Word) : (g.setM k x).pc = g.pc := rfl
@[simp] theorem Group.setM_queue (g : Group) (k : Nat) (x : Word) : (g.setM k x).queue = g.queue := rfl
@[simp] theorem Group.setM_lpos (g : Group) (k : Nat) (x : Word) : (g.setM k x).lpos = g.lpos := rfl
@[simp] theorem Group.setM_s (g : Group) (k : Nat) (x : Word) : (g.setM k x).s = g.s := rfl
@[simp] theorem Group.setM_c (g : Group) (k : Nat) (x : Word) : (g.setM k x).c = g.c := rfl
@[simp] theorem Group.setM_lanes (g : Group) (k : Nat) (x : Word) : (g.setM k x).lanes = g.lanes := rfl
@[simp] theorem Group.setM_x (g : Group) (k : Nat) (x : Word) : (g.setM k x).x = g.x := rfl
@[simp] theorem Group.setM_tile (g : Group) (k : Nat) (x : Word) : (g.setM k x).tile = g.tile := rfl
@[simp] theorem Group.setM_chain (g : Group) (k : Nat) (x : Word) : (g.setM k x).chain = g.chain := rfl
@[simp] theorem Group.setM_nest (g : Group) (k : Nat) (x : Word) : (g.setM k x).nest = g.nest := rfl
@[simp] theorem Group.setM_nestHigh (g : Group) (k : Nat) (x : Word) : (g.setM k x).nestHigh = g.nestHigh := rfl
@[simp] theorem Group.setM_nestLimit (g : Group) (k : Nat) (x : Word) : (g.setM k x).nestLimit = g.nestLimit := rfl
@[simp] theorem Group.setM_stack (g : Group) (k : Nat) (x : Word) : (g.setM k x).stack = g.stack := rfl
@[simp] theorem Group.setM_spill (g : Group) (k : Nat) (x : Word) : (g.setM k x).spill = g.spill := rfl
@[simp] theorem Group.setM_spilled (g : Group) (k : Nat) (x : Word) : (g.setM k x).spilled = g.spilled := rfl
@[simp] theorem Group.setM_fmask (g : Group) (k : Nat) (x : Word) : (g.setM k x).fmask = g.fmask := rfl
@[simp] theorem Group.setM_skip (g : Group) (k : Nat) (x : Word) : (g.setM k x).skip = g.skip := rfl
@[simp] theorem Group.setM_nores (g : Group) (k : Nat) (x : Word) : (g.setM k x).nores = g.nores := rfl
@[simp] theorem Group.setM_path (g : Group) (k : Nat) (x : Word) : (g.setM k x).path = g.path := rfl
@[simp] theorem Group.setM_nevc (g : Group) (k : Nat) (x : Word) : (g.setM k x).nevc = g.nevc := rfl
@[simp] theorem Group.setM_code (g : Group) (k : Nat) (x : Word) : (g.setM k x).code = g.code := rfl
@[simp] theorem Group.setM_tspc (g : Group) (k : Nat) (x : Word) : (g.setM k x).tspc = g.tspc := rfl
@[simp] theorem Group.setM_tlpc (g : Group) (k : Nat) (x : Word) : (g.setM k x).tlpc = g.tlpc := rfl
@[simp] theorem Group.setM_trapv (g : Group) (k : Nat) (x : Word) : (g.setM k x).trapv = g.trapv := rfl
@[simp] theorem Group.setM_emuv (g : Group) (k : Nat) (x : Word) : (g.setM k x).emuv = g.emuv := rfl
@[simp] theorem Group.setM_e0 (g : Group) (k : Nat) (x : Word) : (g.setM k x).e0 = g.e0 := rfl
@[simp] theorem Group.setM_e1 (g : Group) (k : Nat) (x : Word) : (g.setM k x).e1 = g.e1 := rfl
@[simp] theorem Group.setM_e2 (g : Group) (k : Nat) (x : Word) : (g.setM k x).e2 = g.e2 := rfl
@[simp] theorem Group.setM_e3 (g : Group) (k : Nat) (x : Word) : (g.setM k x).e3 = g.e3 := rfl
@[simp] theorem Group.setM_dzmask (g : Group) (k : Nat) (x : Word) : (g.setM k x).dzmask = g.dzmask := rfl
@[simp] theorem Group.setM_domask (g : Group) (k : Nat) (x : Word) : (g.setM k x).domask = g.domask := rfl
@[simp] theorem Group.setM_trapFrame (g : Group) (k : Nat) (x : Word) : (g.setM k x).trapFrame = g.trapFrame := rfl
@[simp] theorem Group.setM_emuFrame (g : Group) (k : Nat) (x : Word) : (g.setM k x).emuFrame = g.emuFrame := rfl
@[simp] theorem Group.setM_inHandler (g : Group) (k : Nat) (x : Word) : (g.setM k x).inHandler = g.inHandler := rfl
@[simp] theorem Group.setM_flights (g : Group) (k : Nat) (x : Word) : (g.setM k x).flights = g.flights := rfl
@[simp] theorem Group.setM_nextOp (g : Group) (k : Nat) (x : Word) : (g.setM k x).nextOp = g.nextOp := rfl
@[simp] theorem Group.setM_issued (g : Group) (k : Nat) (x : Word) : (g.setM k x).issued = g.issued := rfl
@[simp] theorem Group.setM_unjoined (g : Group) (k : Nat) (x : Word) : (g.setM k x).unjoined = g.unjoined := rfl
@[simp] theorem Group.setM_heldTraps (g : Group) (k : Nat) (x : Word) : (g.setM k x).heldTraps = g.heldTraps := rfl
@[simp] theorem Group.setM_mxLatch (g : Group) (k : Nat) (x : Word) : (g.setM k x).mxLatch = g.mxLatch := rfl
@[simp] theorem Group.setM_roles (g : Group) (k : Nat) (x : Word) : (g.setM k x).roles = g.roles := rfl
@[simp] theorem Group.setM_ords (g : Group) (k : Nat) (x : Word) : (g.setM k x).ords = g.ords := rfl
@[simp] theorem Group.setM_missed (g : Group) (k : Nat) (x : Word) : (g.setM k x).missed = g.missed := rfl
@[simp] theorem Group.setM_staleIds (g : Group) (k : Nat) (x : Word) : (g.setM k x).staleIds = g.staleIds := rfl
@[simp] theorem Group.setM_arrived (g : Group) (k : Nat) (x : Word) : (g.setM k x).arrived = g.arrived := rfl
@[simp] theorem Group.setM_park (g : Group) (k : Nat) (x : Word) : (g.setM k x).park = g.park := rfl
@[simp] theorem Group.setM_waitRemote (g : Group) (k : Nat) (x : Word) : (g.setM k x).waitRemote = g.waitRemote := rfl
@[simp] theorem Group.setM_heldWords (g : Group) (k : Nat) (x : Word) : (g.setM k x).heldWords = g.heldWords := rfl
@[simp] theorem Group.setM_dueTrap (g : Group) (k : Nat) (x : Word) : (g.setM k x).dueTrap = g.dueTrap := rfl
@[simp] theorem Group.setM_blocks (g : Group) (k : Nat) (x : Word) : (g.setM k x).blocks = g.blocks := rfl
@[simp] theorem Group.setM_entering (g : Group) (k : Nat) (x : Word) : (g.setM k x).entering = g.entering := rfl
@[simp] theorem Group.setM_age (g : Group) (k : Nat) (x : Word) : (g.setM k x).age = g.age := rfl
@[simp] theorem Group.setM_prio (g : Group) (k : Nat) (x : Word) : (g.setM k x).prio = g.prio := rfl
@[simp] theorem Group.setM_starveScalar (g : Group) (k : Nat) (x : Word) : (g.setM k x).starveScalar = g.starveScalar := rfl
@[simp] theorem Group.setM_starveLane (g : Group) (k : Nat) (x : Word) : (g.setM k x).starveLane = g.starveLane := rfl
@[simp] theorem Group.setM_yielded (g : Group) (k : Nat) (x : Word) : (g.setM k x).yielded = g.yielded := rfl
@[simp] theorem Group.setM_spilledRegs (g : Group) (k : Nat) (x : Word) : (g.setM k x).spilledRegs = g.spilledRegs := rfl
@[simp] theorem Group.setM_lastLane (g : Group) (k : Nat) (x : Word) : (g.setM k x).lastLane = g.lastLane := rfl
@[simp] theorem Group.setM_lastRead (g : Group) (k : Nat) (x : Word) : (g.setM k x).lastRead = g.lastRead := rfl
@[simp] theorem Group.setM_badLatch (g : Group) (k : Nat) (x : Word) : (g.setM k x).badLatch = g.badLatch := rfl
@[simp] theorem Group.setM_ended (g : Group) (k : Nat) (x : Word) : (g.setM k x).ended = g.ended := rfl
@[simp] theorem Group.setM_dualSt (g : Group) (k : Nat) (x : Word) : (g.setM k x).dualSt = g.dualSt := rfl
@[simp] theorem Group.setM_priv (g : Group) (k : Nat) (x : Word) : (g.setM k x).priv = g.priv := rfl

/-! ### The tables of the device -/

@[simp] theorem Dev.setCore_groups (d : Dev) (k : Nat) (x : Core) : (d.setCore k x).groups = d.groups := rfl
@[simp] theorem Dev.setCore_teams (d : Dev) (k : Nat) (x : Core) : (d.setCore k x).teams = d.teams := rfl
@[simp] theorem Dev.setCore_launches (d : Dev) (k : Nat) (x : Core) : (d.setCore k x).launches = d.launches := rfl
@[simp] theorem Dev.setCore_ctxs (d : Dev) (k : Nat) (x : Core) : (d.setCore k x).ctxs = d.ctxs := rfl
@[simp] theorem Dev.setCore_clusters (d : Dev) (k : Nat) (x : Core) : (d.setCore k x).clusters = d.clusters := rfl
@[simp] theorem Dev.setCore_dies (d : Dev) (k : Nat) (x : Core) : (d.setCore k x).dies = d.dies := rfl
@[simp] theorem Dev.setCore_lines (d : Dev) (k : Nat) (x : Core) : (d.setCore k x).lines = d.lines := rfl
@[simp] theorem Dev.setCore_queues (d : Dev) (k : Nat) (x : Core) : (d.setCore k x).queues = d.queues := rfl
@[simp] theorem Dev.setCore_parts (d : Dev) (k : Nat) (x : Core) : (d.setCore k x).parts = d.parts := rfl
@[simp] theorem Dev.setCore_pkg (d : Dev) (k : Nat) (x : Core) : (d.setCore k x).pkg = d.pkg := rfl
@[simp] theorem Dev.setCore_mem (d : Dev) (k : Nat) (x : Core) : (d.setCore k x).mem = d.mem := rfl
@[simp] theorem Dev.setCore_errors (d : Dev) (k : Nat) (x : Core) : (d.setCore k x).errors = d.errors := rfl
@[simp] theorem Dev.setCore_regWrites (d : Dev) (k : Nat) (x : Core) : (d.setCore k x).regWrites = d.regWrites := rfl
@[simp] theorem Dev.setCore_frontOwed (d : Dev) (k : Nat) (x : Core) : (d.setCore k x).frontOwed = d.frontOwed := rfl
@[simp] theorem Dev.setCore_halts (d : Dev) (k : Nat) (x : Core) : (d.setCore k x).halts = d.halts := rfl
@[simp] theorem Dev.setCore_remotes (d : Dev) (k : Nat) (x : Core) : (d.setCore k x).remotes = d.remotes := rfl
@[simp] theorem Dev.setCore_syncs (d : Dev) (k : Nat) (x : Core) : (d.setCore k x).syncs = d.syncs := rfl
@[simp] theorem Dev.setCore_pushes (d : Dev) (k : Nat) (x : Core) : (d.setCore k x).pushes = d.pushes := rfl
@[simp] theorem Dev.setCore_nextId (d : Dev) (k : Nat) (x : Core) : (d.setCore k x).nextId = d.nextId := rfl
@[simp] theorem Dev.setLine_groups (d : Dev) (k : Nat) (x : Line) : (d.setLine k x).groups = d.groups := rfl
@[simp] theorem Dev.setLine_teams (d : Dev) (k : Nat) (x : Line) : (d.setLine k x).teams = d.teams := rfl
@[simp] theorem Dev.setLine_launches (d : Dev) (k : Nat) (x : Line) : (d.setLine k x).launches = d.launches := rfl
@[simp] theorem Dev.setLine_ctxs (d : Dev) (k : Nat) (x : Line) : (d.setLine k x).ctxs = d.ctxs := rfl
@[simp] theorem Dev.setLine_cores (d : Dev) (k : Nat) (x : Line) : (d.setLine k x).cores = d.cores := rfl
@[simp] theorem Dev.setLine_clusters (d : Dev) (k : Nat) (x : Line) : (d.setLine k x).clusters = d.clusters := rfl
@[simp] theorem Dev.setLine_dies (d : Dev) (k : Nat) (x : Line) : (d.setLine k x).dies = d.dies := rfl
@[simp] theorem Dev.setLine_queues (d : Dev) (k : Nat) (x : Line) : (d.setLine k x).queues = d.queues := rfl
@[simp] theorem Dev.setLine_parts (d : Dev) (k : Nat) (x : Line) : (d.setLine k x).parts = d.parts := rfl
@[simp] theorem Dev.setLine_pkg (d : Dev) (k : Nat) (x : Line) : (d.setLine k x).pkg = d.pkg := rfl
@[simp] theorem Dev.setLine_mem (d : Dev) (k : Nat) (x : Line) : (d.setLine k x).mem = d.mem := rfl
@[simp] theorem Dev.setLine_errors (d : Dev) (k : Nat) (x : Line) : (d.setLine k x).errors = d.errors := rfl
@[simp] theorem Dev.setLine_regWrites (d : Dev) (k : Nat) (x : Line) : (d.setLine k x).regWrites = d.regWrites := rfl
@[simp] theorem Dev.setLine_frontOwed (d : Dev) (k : Nat) (x : Line) : (d.setLine k x).frontOwed = d.frontOwed := rfl
@[simp] theorem Dev.setLine_halts (d : Dev) (k : Nat) (x : Line) : (d.setLine k x).halts = d.halts := rfl
@[simp] theorem Dev.setLine_remotes (d : Dev) (k : Nat) (x : Line) : (d.setLine k x).remotes = d.remotes := rfl
@[simp] theorem Dev.setLine_syncs (d : Dev) (k : Nat) (x : Line) : (d.setLine k x).syncs = d.syncs := rfl
@[simp] theorem Dev.setLine_pushes (d : Dev) (k : Nat) (x : Line) : (d.setLine k x).pushes = d.pushes := rfl
@[simp] theorem Dev.setLine_nextId (d : Dev) (k : Nat) (x : Line) : (d.setLine k x).nextId = d.nextId := rfl
@[simp] theorem Dev.setDie_groups (d : Dev) (k : Nat) (x : Die) : (d.setDie k x).groups = d.groups := rfl
@[simp] theorem Dev.setDie_teams (d : Dev) (k : Nat) (x : Die) : (d.setDie k x).teams = d.teams := rfl
@[simp] theorem Dev.setDie_launches (d : Dev) (k : Nat) (x : Die) : (d.setDie k x).launches = d.launches := rfl
@[simp] theorem Dev.setDie_ctxs (d : Dev) (k : Nat) (x : Die) : (d.setDie k x).ctxs = d.ctxs := rfl
@[simp] theorem Dev.setDie_cores (d : Dev) (k : Nat) (x : Die) : (d.setDie k x).cores = d.cores := rfl
@[simp] theorem Dev.setDie_clusters (d : Dev) (k : Nat) (x : Die) : (d.setDie k x).clusters = d.clusters := rfl
@[simp] theorem Dev.setDie_lines (d : Dev) (k : Nat) (x : Die) : (d.setDie k x).lines = d.lines := rfl
@[simp] theorem Dev.setDie_queues (d : Dev) (k : Nat) (x : Die) : (d.setDie k x).queues = d.queues := rfl
@[simp] theorem Dev.setDie_parts (d : Dev) (k : Nat) (x : Die) : (d.setDie k x).parts = d.parts := rfl
@[simp] theorem Dev.setDie_pkg (d : Dev) (k : Nat) (x : Die) : (d.setDie k x).pkg = d.pkg := rfl
@[simp] theorem Dev.setDie_mem (d : Dev) (k : Nat) (x : Die) : (d.setDie k x).mem = d.mem := rfl
@[simp] theorem Dev.setDie_errors (d : Dev) (k : Nat) (x : Die) : (d.setDie k x).errors = d.errors := rfl
@[simp] theorem Dev.setDie_regWrites (d : Dev) (k : Nat) (x : Die) : (d.setDie k x).regWrites = d.regWrites := rfl
@[simp] theorem Dev.setDie_frontOwed (d : Dev) (k : Nat) (x : Die) : (d.setDie k x).frontOwed = d.frontOwed := rfl
@[simp] theorem Dev.setDie_halts (d : Dev) (k : Nat) (x : Die) : (d.setDie k x).halts = d.halts := rfl
@[simp] theorem Dev.setDie_remotes (d : Dev) (k : Nat) (x : Die) : (d.setDie k x).remotes = d.remotes := rfl
@[simp] theorem Dev.setDie_syncs (d : Dev) (k : Nat) (x : Die) : (d.setDie k x).syncs = d.syncs := rfl
@[simp] theorem Dev.setDie_pushes (d : Dev) (k : Nat) (x : Die) : (d.setDie k x).pushes = d.pushes := rfl
@[simp] theorem Dev.setDie_nextId (d : Dev) (k : Nat) (x : Die) : (d.setDie k x).nextId = d.nextId := rfl
@[simp] theorem Dev.setCtx_groups (d : Dev) (k : Nat) (x : Ctx) : (d.setCtx k x).groups = d.groups := rfl
@[simp] theorem Dev.setCtx_teams (d : Dev) (k : Nat) (x : Ctx) : (d.setCtx k x).teams = d.teams := rfl
@[simp] theorem Dev.setCtx_launches (d : Dev) (k : Nat) (x : Ctx) : (d.setCtx k x).launches = d.launches := rfl
@[simp] theorem Dev.setCtx_cores (d : Dev) (k : Nat) (x : Ctx) : (d.setCtx k x).cores = d.cores := rfl
@[simp] theorem Dev.setCtx_clusters (d : Dev) (k : Nat) (x : Ctx) : (d.setCtx k x).clusters = d.clusters := rfl
@[simp] theorem Dev.setCtx_dies (d : Dev) (k : Nat) (x : Ctx) : (d.setCtx k x).dies = d.dies := rfl
@[simp] theorem Dev.setCtx_lines (d : Dev) (k : Nat) (x : Ctx) : (d.setCtx k x).lines = d.lines := rfl
@[simp] theorem Dev.setCtx_queues (d : Dev) (k : Nat) (x : Ctx) : (d.setCtx k x).queues = d.queues := rfl
@[simp] theorem Dev.setCtx_parts (d : Dev) (k : Nat) (x : Ctx) : (d.setCtx k x).parts = d.parts := rfl
@[simp] theorem Dev.setCtx_pkg (d : Dev) (k : Nat) (x : Ctx) : (d.setCtx k x).pkg = d.pkg := rfl
@[simp] theorem Dev.setCtx_mem (d : Dev) (k : Nat) (x : Ctx) : (d.setCtx k x).mem = d.mem := rfl
@[simp] theorem Dev.setCtx_errors (d : Dev) (k : Nat) (x : Ctx) : (d.setCtx k x).errors = d.errors := rfl
@[simp] theorem Dev.setCtx_regWrites (d : Dev) (k : Nat) (x : Ctx) : (d.setCtx k x).regWrites = d.regWrites := rfl
@[simp] theorem Dev.setCtx_frontOwed (d : Dev) (k : Nat) (x : Ctx) : (d.setCtx k x).frontOwed = d.frontOwed := rfl
@[simp] theorem Dev.setCtx_halts (d : Dev) (k : Nat) (x : Ctx) : (d.setCtx k x).halts = d.halts := rfl
@[simp] theorem Dev.setCtx_remotes (d : Dev) (k : Nat) (x : Ctx) : (d.setCtx k x).remotes = d.remotes := rfl
@[simp] theorem Dev.setCtx_syncs (d : Dev) (k : Nat) (x : Ctx) : (d.setCtx k x).syncs = d.syncs := rfl
@[simp] theorem Dev.setCtx_pushes (d : Dev) (k : Nat) (x : Ctx) : (d.setCtx k x).pushes = d.pushes := rfl
@[simp] theorem Dev.setCtx_nextId (d : Dev) (k : Nat) (x : Ctx) : (d.setCtx k x).nextId = d.nextId := rfl
@[simp] theorem Dev.setPart_groups (d : Dev) (k : Nat) (x : Part) : (d.setPart k x).groups = d.groups := rfl
@[simp] theorem Dev.setPart_teams (d : Dev) (k : Nat) (x : Part) : (d.setPart k x).teams = d.teams := rfl
@[simp] theorem Dev.setPart_launches (d : Dev) (k : Nat) (x : Part) : (d.setPart k x).launches = d.launches := rfl
@[simp] theorem Dev.setPart_ctxs (d : Dev) (k : Nat) (x : Part) : (d.setPart k x).ctxs = d.ctxs := rfl
@[simp] theorem Dev.setPart_cores (d : Dev) (k : Nat) (x : Part) : (d.setPart k x).cores = d.cores := rfl
@[simp] theorem Dev.setPart_clusters (d : Dev) (k : Nat) (x : Part) : (d.setPart k x).clusters = d.clusters := rfl
@[simp] theorem Dev.setPart_dies (d : Dev) (k : Nat) (x : Part) : (d.setPart k x).dies = d.dies := rfl
@[simp] theorem Dev.setPart_lines (d : Dev) (k : Nat) (x : Part) : (d.setPart k x).lines = d.lines := rfl
@[simp] theorem Dev.setPart_queues (d : Dev) (k : Nat) (x : Part) : (d.setPart k x).queues = d.queues := rfl
@[simp] theorem Dev.setPart_pkg (d : Dev) (k : Nat) (x : Part) : (d.setPart k x).pkg = d.pkg := rfl
@[simp] theorem Dev.setPart_mem (d : Dev) (k : Nat) (x : Part) : (d.setPart k x).mem = d.mem := rfl
@[simp] theorem Dev.setPart_errors (d : Dev) (k : Nat) (x : Part) : (d.setPart k x).errors = d.errors := rfl
@[simp] theorem Dev.setPart_regWrites (d : Dev) (k : Nat) (x : Part) : (d.setPart k x).regWrites = d.regWrites := rfl
@[simp] theorem Dev.setPart_frontOwed (d : Dev) (k : Nat) (x : Part) : (d.setPart k x).frontOwed = d.frontOwed := rfl
@[simp] theorem Dev.setPart_halts (d : Dev) (k : Nat) (x : Part) : (d.setPart k x).halts = d.halts := rfl
@[simp] theorem Dev.setPart_remotes (d : Dev) (k : Nat) (x : Part) : (d.setPart k x).remotes = d.remotes := rfl
@[simp] theorem Dev.setPart_syncs (d : Dev) (k : Nat) (x : Part) : (d.setPart k x).syncs = d.syncs := rfl
@[simp] theorem Dev.setPart_pushes (d : Dev) (k : Nat) (x : Part) : (d.setPart k x).pushes = d.pushes := rfl
@[simp] theorem Dev.setPart_nextId (d : Dev) (k : Nat) (x : Part) : (d.setPart k x).nextId = d.nextId := rfl
@[simp] theorem Dev.setQueue_groups (d : Dev) (k : Nat) (x : QueueSt) : (d.setQueue k x).groups = d.groups := rfl
@[simp] theorem Dev.setQueue_teams (d : Dev) (k : Nat) (x : QueueSt) : (d.setQueue k x).teams = d.teams := rfl
@[simp] theorem Dev.setQueue_launches (d : Dev) (k : Nat) (x : QueueSt) : (d.setQueue k x).launches = d.launches := rfl
@[simp] theorem Dev.setQueue_ctxs (d : Dev) (k : Nat) (x : QueueSt) : (d.setQueue k x).ctxs = d.ctxs := rfl
@[simp] theorem Dev.setQueue_cores (d : Dev) (k : Nat) (x : QueueSt) : (d.setQueue k x).cores = d.cores := rfl
@[simp] theorem Dev.setQueue_clusters (d : Dev) (k : Nat) (x : QueueSt) : (d.setQueue k x).clusters = d.clusters := rfl
@[simp] theorem Dev.setQueue_dies (d : Dev) (k : Nat) (x : QueueSt) : (d.setQueue k x).dies = d.dies := rfl
@[simp] theorem Dev.setQueue_lines (d : Dev) (k : Nat) (x : QueueSt) : (d.setQueue k x).lines = d.lines := rfl
@[simp] theorem Dev.setQueue_parts (d : Dev) (k : Nat) (x : QueueSt) : (d.setQueue k x).parts = d.parts := rfl
@[simp] theorem Dev.setQueue_pkg (d : Dev) (k : Nat) (x : QueueSt) : (d.setQueue k x).pkg = d.pkg := rfl
@[simp] theorem Dev.setQueue_mem (d : Dev) (k : Nat) (x : QueueSt) : (d.setQueue k x).mem = d.mem := rfl
@[simp] theorem Dev.setQueue_errors (d : Dev) (k : Nat) (x : QueueSt) : (d.setQueue k x).errors = d.errors := rfl
@[simp] theorem Dev.setQueue_regWrites (d : Dev) (k : Nat) (x : QueueSt) : (d.setQueue k x).regWrites = d.regWrites := rfl
@[simp] theorem Dev.setQueue_frontOwed (d : Dev) (k : Nat) (x : QueueSt) : (d.setQueue k x).frontOwed = d.frontOwed := rfl
@[simp] theorem Dev.setQueue_halts (d : Dev) (k : Nat) (x : QueueSt) : (d.setQueue k x).halts = d.halts := rfl
@[simp] theorem Dev.setQueue_remotes (d : Dev) (k : Nat) (x : QueueSt) : (d.setQueue k x).remotes = d.remotes := rfl
@[simp] theorem Dev.setQueue_syncs (d : Dev) (k : Nat) (x : QueueSt) : (d.setQueue k x).syncs = d.syncs := rfl
@[simp] theorem Dev.setQueue_pushes (d : Dev) (k : Nat) (x : QueueSt) : (d.setQueue k x).pushes = d.pushes := rfl
@[simp] theorem Dev.setQueue_nextId (d : Dev) (k : Nat) (x : QueueSt) : (d.setQueue k x).nextId = d.nextId := rfl
@[simp] theorem Dev.setCluster_groups (d : Dev) (k : Nat) (x : Cluster) : (d.setCluster k x).groups = d.groups := rfl
@[simp] theorem Dev.setCluster_teams (d : Dev) (k : Nat) (x : Cluster) : (d.setCluster k x).teams = d.teams := rfl
@[simp] theorem Dev.setCluster_launches (d : Dev) (k : Nat) (x : Cluster) : (d.setCluster k x).launches = d.launches := rfl
@[simp] theorem Dev.setCluster_ctxs (d : Dev) (k : Nat) (x : Cluster) : (d.setCluster k x).ctxs = d.ctxs := rfl
@[simp] theorem Dev.setCluster_cores (d : Dev) (k : Nat) (x : Cluster) : (d.setCluster k x).cores = d.cores := rfl
@[simp] theorem Dev.setCluster_dies (d : Dev) (k : Nat) (x : Cluster) : (d.setCluster k x).dies = d.dies := rfl
@[simp] theorem Dev.setCluster_lines (d : Dev) (k : Nat) (x : Cluster) : (d.setCluster k x).lines = d.lines := rfl
@[simp] theorem Dev.setCluster_queues (d : Dev) (k : Nat) (x : Cluster) : (d.setCluster k x).queues = d.queues := rfl
@[simp] theorem Dev.setCluster_parts (d : Dev) (k : Nat) (x : Cluster) : (d.setCluster k x).parts = d.parts := rfl
@[simp] theorem Dev.setCluster_pkg (d : Dev) (k : Nat) (x : Cluster) : (d.setCluster k x).pkg = d.pkg := rfl
@[simp] theorem Dev.setCluster_mem (d : Dev) (k : Nat) (x : Cluster) : (d.setCluster k x).mem = d.mem := rfl
@[simp] theorem Dev.setCluster_errors (d : Dev) (k : Nat) (x : Cluster) : (d.setCluster k x).errors = d.errors := rfl
@[simp] theorem Dev.setCluster_regWrites (d : Dev) (k : Nat) (x : Cluster) : (d.setCluster k x).regWrites = d.regWrites := rfl
@[simp] theorem Dev.setCluster_frontOwed (d : Dev) (k : Nat) (x : Cluster) : (d.setCluster k x).frontOwed = d.frontOwed := rfl
@[simp] theorem Dev.setCluster_halts (d : Dev) (k : Nat) (x : Cluster) : (d.setCluster k x).halts = d.halts := rfl
@[simp] theorem Dev.setCluster_remotes (d : Dev) (k : Nat) (x : Cluster) : (d.setCluster k x).remotes = d.remotes := rfl
@[simp] theorem Dev.setCluster_syncs (d : Dev) (k : Nat) (x : Cluster) : (d.setCluster k x).syncs = d.syncs := rfl
@[simp] theorem Dev.setCluster_pushes (d : Dev) (k : Nat) (x : Cluster) : (d.setCluster k x).pushes = d.pushes := rfl
@[simp] theorem Dev.setCluster_nextId (d : Dev) (k : Nat) (x : Cluster) : (d.setCluster k x).nextId = d.nextId := rfl
@[simp] theorem Dev.setTeam_groups (d : Dev) (k : Nat) (x : Team) : (d.setTeam k x).groups = d.groups := rfl
@[simp] theorem Dev.setTeam_launches (d : Dev) (k : Nat) (x : Team) : (d.setTeam k x).launches = d.launches := rfl
@[simp] theorem Dev.setTeam_ctxs (d : Dev) (k : Nat) (x : Team) : (d.setTeam k x).ctxs = d.ctxs := rfl
@[simp] theorem Dev.setTeam_cores (d : Dev) (k : Nat) (x : Team) : (d.setTeam k x).cores = d.cores := rfl
@[simp] theorem Dev.setTeam_clusters (d : Dev) (k : Nat) (x : Team) : (d.setTeam k x).clusters = d.clusters := rfl
@[simp] theorem Dev.setTeam_dies (d : Dev) (k : Nat) (x : Team) : (d.setTeam k x).dies = d.dies := rfl
@[simp] theorem Dev.setTeam_lines (d : Dev) (k : Nat) (x : Team) : (d.setTeam k x).lines = d.lines := rfl
@[simp] theorem Dev.setTeam_queues (d : Dev) (k : Nat) (x : Team) : (d.setTeam k x).queues = d.queues := rfl
@[simp] theorem Dev.setTeam_parts (d : Dev) (k : Nat) (x : Team) : (d.setTeam k x).parts = d.parts := rfl
@[simp] theorem Dev.setTeam_pkg (d : Dev) (k : Nat) (x : Team) : (d.setTeam k x).pkg = d.pkg := rfl
@[simp] theorem Dev.setTeam_mem (d : Dev) (k : Nat) (x : Team) : (d.setTeam k x).mem = d.mem := rfl
@[simp] theorem Dev.setTeam_errors (d : Dev) (k : Nat) (x : Team) : (d.setTeam k x).errors = d.errors := rfl
@[simp] theorem Dev.setTeam_regWrites (d : Dev) (k : Nat) (x : Team) : (d.setTeam k x).regWrites = d.regWrites := rfl
@[simp] theorem Dev.setTeam_frontOwed (d : Dev) (k : Nat) (x : Team) : (d.setTeam k x).frontOwed = d.frontOwed := rfl
@[simp] theorem Dev.setTeam_halts (d : Dev) (k : Nat) (x : Team) : (d.setTeam k x).halts = d.halts := rfl
@[simp] theorem Dev.setTeam_remotes (d : Dev) (k : Nat) (x : Team) : (d.setTeam k x).remotes = d.remotes := rfl
@[simp] theorem Dev.setTeam_syncs (d : Dev) (k : Nat) (x : Team) : (d.setTeam k x).syncs = d.syncs := rfl
@[simp] theorem Dev.setTeam_pushes (d : Dev) (k : Nat) (x : Team) : (d.setTeam k x).pushes = d.pushes := rfl
@[simp] theorem Dev.setTeam_nextId (d : Dev) (k : Nat) (x : Team) : (d.setTeam k x).nextId = d.nextId := rfl
@[simp] theorem Dev.setLaunch_groups (d : Dev) (k : Nat) (x : Launch) : (d.setLaunch k x).groups = d.groups := rfl
@[simp] theorem Dev.setLaunch_teams (d : Dev) (k : Nat) (x : Launch) : (d.setLaunch k x).teams = d.teams := rfl
@[simp] theorem Dev.setLaunch_ctxs (d : Dev) (k : Nat) (x : Launch) : (d.setLaunch k x).ctxs = d.ctxs := rfl
@[simp] theorem Dev.setLaunch_cores (d : Dev) (k : Nat) (x : Launch) : (d.setLaunch k x).cores = d.cores := rfl
@[simp] theorem Dev.setLaunch_clusters (d : Dev) (k : Nat) (x : Launch) : (d.setLaunch k x).clusters = d.clusters := rfl
@[simp] theorem Dev.setLaunch_dies (d : Dev) (k : Nat) (x : Launch) : (d.setLaunch k x).dies = d.dies := rfl
@[simp] theorem Dev.setLaunch_lines (d : Dev) (k : Nat) (x : Launch) : (d.setLaunch k x).lines = d.lines := rfl
@[simp] theorem Dev.setLaunch_queues (d : Dev) (k : Nat) (x : Launch) : (d.setLaunch k x).queues = d.queues := rfl
@[simp] theorem Dev.setLaunch_parts (d : Dev) (k : Nat) (x : Launch) : (d.setLaunch k x).parts = d.parts := rfl
@[simp] theorem Dev.setLaunch_pkg (d : Dev) (k : Nat) (x : Launch) : (d.setLaunch k x).pkg = d.pkg := rfl
@[simp] theorem Dev.setLaunch_mem (d : Dev) (k : Nat) (x : Launch) : (d.setLaunch k x).mem = d.mem := rfl
@[simp] theorem Dev.setLaunch_errors (d : Dev) (k : Nat) (x : Launch) : (d.setLaunch k x).errors = d.errors := rfl
@[simp] theorem Dev.setLaunch_regWrites (d : Dev) (k : Nat) (x : Launch) : (d.setLaunch k x).regWrites = d.regWrites := rfl
@[simp] theorem Dev.setLaunch_frontOwed (d : Dev) (k : Nat) (x : Launch) : (d.setLaunch k x).frontOwed = d.frontOwed := rfl
@[simp] theorem Dev.setLaunch_halts (d : Dev) (k : Nat) (x : Launch) : (d.setLaunch k x).halts = d.halts := rfl
@[simp] theorem Dev.setLaunch_remotes (d : Dev) (k : Nat) (x : Launch) : (d.setLaunch k x).remotes = d.remotes := rfl
@[simp] theorem Dev.setLaunch_syncs (d : Dev) (k : Nat) (x : Launch) : (d.setLaunch k x).syncs = d.syncs := rfl
@[simp] theorem Dev.setLaunch_pushes (d : Dev) (k : Nat) (x : Launch) : (d.setLaunch k x).pushes = d.pushes := rfl
@[simp] theorem Dev.setLaunch_nextId (d : Dev) (k : Nat) (x : Launch) : (d.setLaunch k x).nextId = d.nextId := rfl

end Sys2Proof.Machine
end

