-- ==== Sys2Proof/Laws/Outcome.lean ====
section
/-! SUPPORT. What the four ways of ending a step can do: each answers a next state, and none but a register write changes
the control registers, the agenda or the count of fresh values. -/

namespace Sys2Proof.Machine

/-- The outcome is a next state that keeps the control registers, the agenda and the count of fresh values. -/
def Steady (s : State) (r : Host.Outcome State Fault Refusal) : Prop :=
  ∃ t, r = .next t ∧ t.regs = s.regs ∧ t.agenda = s.agenda ∧ t.fresh = s.fresh

theorem State.commit_ok (s : State) (m : Mach) (h : m.d.pkg.asking = s.dev.pkg.asking) : s.commit m = .next (s.put m) := by
  simp [State.commit, h]

theorem State.adopt_ok (s t : State) (h : t.dev.pkg.asking = s.dev.pkg.asking) : s.adopt t = .next t := by
  simp [State.adopt, h]

theorem commit_steady (s : State) (m : Mach) : Steady s (s.commit m) := by
  unfold State.commit
  split
  · exact ⟨_, rfl, rfl, rfl, rfl⟩
  · exact ⟨_, rfl, rfl, rfl, rfl⟩

theorem act_ok (f : CtlRegs → Mach → Mach) (s : State)
    (h : (f s.regs s.mach).d.pkg.asking = s.dev.pkg.asking) : act f s = .next (s.put (f s.regs s.mach)) :=
  State.commit_ok s _ h

theorem act_steady (f : CtlRegs → Mach → Mach) (s : State) : Steady s (act f s) := commit_steady s _

theorem actOrWait_ok {f : CtlRegs → Mach → Option Mach} {s : State} {m : Mach} (h : f s.regs s.mach = some m)
    (ha : m.d.pkg.asking = s.dev.pkg.asking) : actOrWait f s = .next (s.put m) := by
  simp [actOrWait, h, State.commit_ok s m ha]

theorem actOrWait_wait {f : CtlRegs → Mach → Option Mach} {s : State} (h : f s.regs s.mach = none) :
    actOrWait f s = .next { s with stalled := true } := by
  simp [actOrWait, h]

theorem actOrWait_steady (f : CtlRegs → Mach → Option Mach) (s : State) : Steady s (actOrWait f s) := by
  unfold actOrWait
  split
  · exact commit_steady s _
  · exact ⟨_, rfl, rfl, rfl, rfl⟩

theorem onGroup_steady (f : Group → Group) (s : State) : Steady s (onGroup f s) := ⟨_, rfl, rfl, rfl, rfl⟩

theorem laneWord_steady (op10 : Nat) (w : Wide) (body : LaneInfo → View → Word → CtlRegs → Mach → LaneRes) (s : State) :
    Steady s (laneWord op10 w body s) := actOrWait_steady _ s

/-- A trap of a scalar word is taken once the lane stream is idle. -/
theorem scalarTrap_idle (m : Mach) (code : Nat) (h : m.g.lanesIdle = true) :
    scalarTrap m code = some (takeTrap m { code := code, tspc := m.g.pc }) := by
  simp [scalarTrap, h]

/-- A trap of a group that is in no handler and has one enters the handler and changes nothing else of the device. -/
theorem takeTrap_handler (m : Mach) (t : TrapInfo) (h : m.g.fatal = false) :
    takeTrap m t = { m with g := (m.g.trapRegs t (m.g.trapCode t.code) m.g.emuFrame.isSome).intoHandler t } := by
  simp [takeTrap, h]

end Sys2Proof.Machine
end

