-- ==== Sys2Proof/Laws/Registers.lean ====
section
/-! SUPPORT. The control registers keep legal values: one lemma for each operation that writes them. -/

namespace Sys2Proof.Machine

theorem carveField_le {old v : BitVec 4} (h : old.toNat ≤ 12) : (carveField old v).toNat ≤ 12 := by
  unfold carveField
  split <;> omega

theorem DieRegs.legal_iff (r : DieRegs) : r.legal = true ↔
    6 ≤ r.tick.toNat ∧ r.tick.toNat ≤ 12 ∧ 1 ≤ r.lease.toNat ∧ r.carve0.toNat ≤ 12 ∧ r.carve1.toNat ≤ 12
      ∧ r.carve2.toNat ≤ 12 ∧ r.carve3.toNat ≤ 12 := by
  simp [DieRegs.legal, and_assoc]

theorem DieRegs.writeCohctl_legal {r : DieRegs} (h : r.legal = true) (v : Word) : (r.writeCohctl v).legal = true := by
  rw [DieRegs.legal_iff] at h ⊢
  obtain ⟨h1, h2, h3, h4⟩ := h
  refine ⟨?_, ?_, ?_, h4⟩ <;> dsimp only [DieRegs.writeCohctl] <;> split
  · exact (by assumption : _ ∧ _).1
  · exact h1
  · exact (by assumption : _ ∧ _).2
  · exact h2
  · exact h3
  · rename_i hl
    have : (BitVec.extractLsb' 8 8 v).toNat ≠ 0 := fun h0 => hl (BitVec.eq_of_toNat_eq (by simpa using h0))
    omega

theorem DieRegs.carved_legal {r : DieRegs} (h : r.legal = true) (l : List Nat) : (r.carved l).legal = true := by
  rw [DieRegs.legal_iff] at h ⊢
  obtain ⟨h1, h2, h3, h4, h5, h6, h7⟩ := h
  exact ⟨h1, h2, h3, carveField_le h4, carveField_le h5, carveField_le h6, carveField_le h7⟩

theorem CtlRegs.legal_iff (R : CtlRegs) : R.legal = true ↔
    R.die0.legal = true ∧ R.die1.legal = true ∧ R.die2.legal = true ∧ R.die3.legal = true ∧ 800 ≤ R.cap.toNat
      ∧ R.cap.toNat ≤ 2200 ∧ R.log2n.toNat ≤ 10 ∧ ∀ e ∈ R.win, e.2 ≠ 0 := by
  simp only [CtlRegs.legal, Bool.and_eq_true, decide_eq_true_eq, List.all_eq_true, bne_iff_ne, and_assoc]

theorem CtlRegs.onDie_legal {R : CtlRegs} (h : R.legal = true) (k : Nat) {f : DieRegs → DieRegs}
    (hf : ∀ r : DieRegs, r.legal = true → (f r).legal = true) : (R.onDie k f).legal = true := by
  rw [CtlRegs.legal_iff] at h
  obtain ⟨h0, h1, h2, h3, h⟩ := h
  unfold CtlRegs.onDie
  split <;> rw [CtlRegs.legal_iff]
  · exact ⟨hf _ h0, h1, h2, h3, h⟩
  · exact ⟨h0, hf _ h1, h2, h3, h⟩
  · exact ⟨h0, h1, hf _ h2, h3, h⟩
  · exact ⟨h0, h1, h2, hf _ h3, h⟩
  · exact ⟨h0, h1, h2, h3, h⟩

theorem pwrcapReg_legal {old : BitVec 12} (h : 800 ≤ old.toNat ∧ old.toNat ≤ 2200) (v : Word) :
    800 ≤ (pwrcapReg old v).toNat ∧ (pwrcapReg old v).toNat ≤ 2200 := by
  unfold pwrcapReg
  dsimp only
  split <;> assumption

theorem CtlRegs.cap_legal {R : CtlRegs} (h : R.legal = true) (v : Word) :
    ({ R with cap := pwrcapReg R.cap v } : CtlRegs).legal = true := by
  rw [CtlRegs.legal_iff] at h ⊢
  obtain ⟨h0, h1, h2, h3, h4, h5, h⟩ := h
  exact ⟨h0, h1, h2, h3, (pwrcapReg_legal ⟨h4, h5⟩ v).1, (pwrcapReg_legal ⟨h4, h5⟩ v).2, h⟩

theorem regWriteCtl_legal {R : CtlRegs} (h : R.legal = true) (a : Nat) (v : Word) : (regWriteCtl R a v).legal = true := by
  unfold regWriteCtl
  split
  · dsimp only
    split
    · split
      · rename_i hv
        rw [CtlRegs.legal_iff] at h ⊢
        obtain ⟨h0, h1, h2, h3, h4, h5, -, h7⟩ := h
        exact ⟨h0, h1, h2, h3, h4, h5, hv, h7⟩
      · exact h
    · split
      · exact CtlRegs.cap_legal h v
      · exact h
  · split
    · exact CtlRegs.onDie_legal h _ fun r hr => DieRegs.writeCohctl_legal hr v
    · exact h

theorem egressReg_legal {R : CtlRegs} (h : R.legal = true) (d : Dev) (o : Nat) (v : Word) : (egressReg R d o v).1.legal = true := by
  unfold egressReg
  dsimp only
  split
  · exact h
  · dsimp only
    split
    · exact h
    · rename_i hw
      rw [CtlRegs.legal_iff] at h ⊢
      obtain ⟨h0, h1, h2, h3, h4, h5, h6, h7⟩ := h
      refine ⟨h0, h1, h2, h3, h4, h5, h6, fun e he => ?_⟩
      unfold Tab.set at he
      split at he
      · exact h7 e (Tab.mem_erase he)
      · rcases Tab.mem_insert he with rfl | he
        · exact hw
        · exact h7 e he

theorem writeReg_legal {s : State} (h : s.regs.legal = true) (a : Nat) (v : Word) : (s.writeReg a v).regs.legal = true :=
  regWriteCtl_legal h a v

/-- What a register write can do. -/
theorem registerWrite_cases (a : Nat) (v : Word) (s : State) :
    registerWrite a v s = s ∨
    (∃ o, registerWrite a v s = { s with regs := (egressReg s.regs s.dev o v).1, dev := (egressReg s.regs s.dev o v).2 }) ∨
    registerWrite a v s = s.writeReg a v := by
  generalize hc : (!regBlock a || decide (a % 8 ≠ 0)) = c
  generalize he : egressAddr a = e
  cases c
  · cases e
    · exact .inr (.inr (by rw [registerWrite, hc, he]; rfl))
    · exact .inr (.inl ⟨_, by rw [registerWrite, hc, he]; rfl⟩)
  · exact .inl (by rw [registerWrite, hc]; rfl)

theorem registerWrite_legal {s : State} (h : s.regs.legal = true) (a : Nat) (v : Word) :
    (registerWrite a v s).regs.legal = true := by
  rcases registerWrite_cases a v s with e | ⟨o, e⟩ | e <;> rw [e]
  · exact h
  · exact egressReg_legal h s.dev o v
  · exact writeReg_legal h a v

end Sys2Proof.Machine
end

