-- ==== Sys2Proof/Laws/Steady.lean ====
section
/-! SUPPORT. Each shared shape of a meaning ends in a next state and keeps the control registers, the agenda and the count
of fresh values. -/

namespace Sys2Proof.Machine

theorem alu1_steady (f : Word → Word) (d a : SReg) (s : State) : Steady s (alu1 f d a s) := onGroup_steady _ s
theorem alu2_steady (f : Word → Word → Word) (d a b : SReg) (s : State) : Steady s (alu2 f d a b s) := onGroup_steady _ s
theorem aluImm_steady (f : Word → Word → Word) (d a : SReg) (i : BitVec 14) (s : State) : Steady s (aluImm f d a i s) :=
  alu1_steady _ d a s
theorem capMove_steady (f : Group → Cap → Cap) (d a : CReg) (s : State) : Steady s (capMove f d a s) := onGroup_steady _ s
theorem capDerive_steady (f : Group → Cap → Except Nat Cap) (d a : CReg) (s : State) : Steady s (capDerive f d a s) :=
  actOrWait_steady _ s
theorem capGet_steady (f : Cap → Word) (d : SReg) (a : CReg) (s : State) : Steady s (capGet f d a s) := onGroup_steady _ s
theorem laneCompute_steady (op10 : Nat) (w : Wide) (body : LaneInfo → View → Word → Mach → LaneEff) (s : State) :
    Steady s (laneCompute op10 w body s) := laneWord_steady _ _ _ s
theorem arithWord_steady (op10 : Nat) (w : Wide) (f : Word → Word → Word → LaneOut) (s : State) :
    Steady s (arithWord op10 w f s) := laneCompute_steady _ _ _ s
theorem pairableWord_steady (op10 : Nat) (o : NOp) (w : Wide) (s : State) : Steady s (pairableWord op10 o w s) := by
  unfold pairableWord
  split
  · exact laneCompute_steady _ _ _ s
  · exact arithWord_steady _ _ _ s
theorem pairStep_steady (ce : Bool) (x y : Slot) (s : State) : Steady s (pairStep ce x y s) := actOrWait_steady _ s
theorem cordicWord_steady (op10 : Nat) (fn : CordicFn) (w : Wide) (s : State) : Steady s (cordicWord op10 fn w s) :=
  arithWord_steady _ _ _ s
theorem structured_steady (op10 : Nat) (w : Wide) (new : Group → View → Nat → Nat) (post : Group → Group → Group) (s : State) :
    Steady s (structured op10 w new post s) := laneWord_steady _ _ _ s
theorem compareWord_steady (op10 : Nat) (w : Wide) (mode : Nat) (f : Word → Word → Bool × Ev) (s : State) :
    Steady s (compareWord op10 w mode f s) := laneWord_steady _ _ _ s
theorem scalarFromLanes_steady (op10 : Nat) (w : Wide) (f : Group → View → Word → Word) (s : State) :
    Steady s (scalarFromLanes op10 w f s) := laneWord_steady _ _ _ s
theorem dataLoad_steady (op10 : Nat) (scalar : Bool) (w : Wide) (s : State) : Steady s (dataLoad op10 scalar w s) :=
  laneWord_steady _ _ _ s
theorem dataStore_steady (op10 : Nat) (scalar : Bool) (w : Wide) (s : State) : Steady s (dataStore op10 scalar w s) :=
  laneWord_steady _ _ _ s
theorem quadDerive_steady (op10 ty : Nat) (w : Wide) (f : Cap → Word → Except Nat Cap) (s : State) :
    Steady s (quadDerive op10 ty w f s) := laneWord_steady _ _ _ s
theorem slotWord_steady (op10 : Nat) (phasor : Bool) (w : Wide) (kind : Group → View → Word → MxKind) (s : State) :
    Steady s (slotWord op10 phasor w kind s) := laneWord_steady _ _ _ s
theorem command_steady (op : Nat) (marks : Bool) (f : CtlRegs → Mach → PmRes) (s : State) : Steady s (command op marks f s) :=
  act_steady _ s

end Sys2Proof.Machine
end

