-- ==== Sys2Proof/Tests/Slice0.lean ====
section
/-! SUPPORT. Tests: words written out from the spec's encodings, terms that `Instr.wf` refuses, single steps with results
taken from the spec's tables, and for every statement states and operands that meet its hypotheses. -/

open Sys2Proof Sys2Proof.Machine

namespace Sys2Proof.Tests

set_option Elab.async false

/-! ### Helpers -/

/-- A tagged capability of granule 1 with its cursor at its base (spec/08 R142). -/
def capOf (kind perms colour base len : Nat) : Cap :=
  ⟨BitVec.ofNat 128 (base + len * 2 ^ 76 + perms * 2 ^ 102 + kind * 2 ^ 114 + colour * 2 ^ 118), true⟩

/-- A group of 32 lanes with 16 registers, colour 5, scalar section [0x1000, 0x2000) and 64 lane words from 0x2000 on. -/
def grp0 : Group :=
  { live := true, gid := 1, team := 1, ctx := 1, width := 32, present := 0xFFFFFFFF, vregs := 16, colour := 5
    codeLo := 0x1000, codeHi := 0x2000, laneBase := 0x2000, laneWords := 64, privSize := 4096, pc := 0x1000
    trapv := 0x1800, emuv := 0x1900 }

/-- The group's team, launch and context, partition 0 with the whole module, and one firewall entry: the first 32 MiB
are the context's. -/
def dev0 : Dev :=
  { teams := [(1, { launch := 1, ctx := 1, status := .resident, members := [1], slots := [(0, 0)], scratchSize := 4096, elig := true })]
    launches := [(1, { ctx := 1, teams := 1, entered := 1 })]
    ctxs := [(1, { live := true, colour := 5 })]
    parts := [(0, { quarters := 0xFFFF })]
    pkg := { fw := [(0, (0x8001400000000010, 0))] }
    nextId := 2 }

/-- The group alone on the device. -/
def st (g : Group) : State := { grp := g, dev := dev0 }
def st0 : State := st grp0

/-- A block of four lane words with the group's registers as they stand. -/
def blk : Block := ⟨0, 4, {}⟩
/-- The same group while lane words are queued. -/
def busy : Group := { grp0 with queue := [blk] }

/-- Capability registers: c1 DATA [0x4000, 0x5000), c2 SCRATCH [0, 4096), c3 SYNC [0x8000, 0x8040), c4 CMD [0x9000, 0x9040),
c5 untagged, c6 SCRATCH over private memory, c7 the register space of die 0, c8 malformed, c9 an envelope of c1. -/
def caps : Tab Cap :=
  [(1, capOf 0 0x7FF 5 0x4000 0x1000), (2, capOf 2 0x0F 5 0 4096), (3, capOf 3 0x23 5 0x8000 64), (4, capOf 4 0x03 5 0x9000 64),
   (5, { capOf 0 0x7FF 5 0x4000 0x1000 with tag := false }), (6, capOf 2 0x0F 5 (2 ^ 49) 4096),
   (7, capOf 0 0x803 5 Config.regBase 0x1000), (8, capOf 7 0x7FF 5 0x4000 0x1000), (9, capOf 5 0x7FF 5 0x4000 0x1000)]
def capGrp : Group := { grp0 with c := caps }
def capSt : State := st capGrp

/-! ### Witnesses: scalar words, special registers, traps -/

/-- s1 = 7, s2 = 2, s3 = 0, s4 = -1, s5 = the most negative number, s6 = 0x1400, s7 = 0x1402. -/
def sregs : Tab Word := [(1, 7), (2, 2), (4, 0xFFFFFFFFFFFFFFFF), (5, 0x8000000000000000), (6, 0x1400), (7, 0x1402)]
def sGrp : Group := { grp0 with s := sregs }
/-- The class IDIV traps. -/
def idivTraps : Dev := { dev0 with ctxs := [(1, { live := true, colour := 5, nev := [(4, 0x4000000000000000)] })] }

theorem wit_ScalarArithmeticResults : aluResult (.sSub 4 1 2) sGrp = some (4, 5) := by decide
theorem wit_ScalarDivision :
    divWord (.sDivI 9 1 2) sGrp = some (9, 3, false) ∧ divWord (.sRemI 9 5 4) sGrp = some (9, 0, true) ∧
    sGrp.queue = [] ∧ ({ sGrp with queue := [blk] } : Group).queue ≠ [] ∧
    divWord (.sDivN 9 1 3) { sGrp with queue := [blk] } = some (9, 0xFFFFFFFFFFFFFFFF, true) ∧
    (countClass dev0 1 4 1).2 = false ∧ trapsNow sGrp ∧ (countClass idivTraps 1 4 1).2 = true :=
  ⟨by decide, by decide, rfl, by decide, by decide, by decide, ⟨rfl, rfl, by decide⟩, by decide⟩
theorem wit_ScalarTransfers :
    transferTarget (.sBnz 2 3) sGrp = some (0x100C, false) ∧ sGrp.goodTarget 0x100C = true ∧
    transferTarget (.sBgt 4 3) sGrp = none ∧ isBranch (.sBgt 4 3) = true ∧
    transferTarget (.sJr 7) sGrp = some (0x1402, false) ∧ sGrp.goodTarget 0x1402 = false ∧
    transferTarget (.sJ 0x3FF) sGrp = some (0x1FFC, false) ∧ sGrp.goodTarget 0x1FFC = true ∧ sGrp.goodTarget 0x2000 = false ∧
    trapsNow sGrp := by unfold trapsNow; decide
/-- A full return stack and spill area, and a stack of one good and of one bad address. -/
def fullGrp : Group := { sGrp with stack := List.replicate 16 0x1100, spilled := 512 }
theorem wit_CallsAndReturns :
    transferTarget (.sCallr 6) sGrp = some (0x1400, true) ∧ sGrp.goodTarget 0x1400 = true ∧ sGrp.stack.length < 16 ∧
    transferTarget (.sCallr 6) fullGrp = some (0x1400, true) ∧ fullGrp.stack.length = 16 ∧ fullGrp.spilled = 512 ∧ trapsNow fullGrp ∧
    ({ sGrp with stack := [0x1100] } : Group).returns = [0x1100] ∧ sGrp.goodTarget 0x1100 = true ∧
    ({ sGrp with spill := [(0, 0x2000)], spilled := 1 } : Group).returns = [0x2000] ∧ sGrp.goodTarget 0x2000 = false ∧
    sGrp.returns = [] ∧ trapsNow sGrp := by unfold trapsNow; decide
theorem wit_LaneHandOff :
    4 ≤ ({ grp0 with queue := [blk, blk, blk, blk] } : Group).queue.length ∧ busy.queue.length < 4 ∧
    (60#17).toNat + ((3#9).toNat + 1) ≤ grp0.laneWords ∧ grp0.laneWords < (61#17).toNat + ((3#9).toNat + 1) ∧ trapsNow grp0 ∧
    busy.queue ≠ [] ∧ grp0.queue = [] := by unfold trapsNow; decide
/-- One operation in flight on mx, s1 = 7 and s3 = 0; the same with a held trap of it. -/
def inFlight : Group := { sGrp with flights := [⟨.mx, 1, 1, false, 0⟩], nextOp := 2, issued := [(pathCode .mx, 1)] }
def heldGrp : Group := { sGrp with nextOp := 2, issued := [(pathCode .mx, 1)], heldTraps := [⟨.mx, 1, 40, 0⟩] }
theorem wit_InFlightWaits :
    inFlight.queue = [] ∧ busy.queue ≠ [] ∧ (inFlight.rs (3#5).toNat).toNat < inFlight.count .mx ∧
    inFlight.count .mx ≤ (inFlight.rs (1#5).toNat).toNat ∧ (∀ h ∈ inFlight.heldTraps, h.path ≠ Path.mx) ∧
    trapsNow heldGrp ∧ heldGrp.count .mx ≤ (heldGrp.rs (3#5).toNat).toNat ∧ heldGrp.heldTraps = [⟨.mx, 1, 40, 0⟩] ∧
    1 ≤ heldGrp.issued.getD (pathCode .mx) 0 - (heldGrp.rs (3#5).toNat).toNat := by unfold trapsNow; decide
theorem wit_SpecialRegisterValues : fullGrp.stack.length ≤ 16 ∧ fullGrp.spilled ≤ 512 := by decide
theorem wit_SpecialReads :
    specialWaits false 0x03 = false ∧ specialWaits false 0x10 = false ∧ grp0.queue = [] ∧
    specialWaits false (0x08#6).toNat = true ∧ busy.queue ≠ [] := by decide
theorem wit_SpecialWrites :
    specialWaits true (0x16#6).toNat = true ∧ busy.queue ≠ [] ∧
    ({ grp0 with s := [(1, 7)] } : Group).illegalWrite 0x04 7 = true ∧ grp0.illegalWrite 0x14 0x10000 = true ∧ trapsNow grp0 ∧
    grp0.queue = [] ∧ (∀ n ∈ [0x04, 0x09, 0x0A, 0x0B, 0x0C, 0x0D, 0x0E, 0x0F, 0x17, 0x18, 0x31, 0x37, 0x38, 0x3B, 0x03, 0x10,
      0x13, 0x08, 0x15, 0x16, 0x20, 0x26], grp0.illegalWrite n 2 = false) ∧
    fullGrp.illegalWrite 0x14 0x100001 = false := by unfold trapsNow; decide
theorem wit_CheckWords :
    grp0.queue = [] ∧ (dev0.ctx 1).psn = false ∧ trapsNow grp0 ∧ busy.queue ≠ [] ∧
    (({ dev0 with ctxs := [(1, { live := true, psn := true })] } : Dev).ctx 1).psn = true := by unfold trapsNow; decide
theorem wit_TakingATrap : grp0.inHandler = false ∧ grp0.trapv ≠ 0 := by decide
theorem wit_TrapInHandlerRemovesContext :
    grp0.live = true ∧ (dev0.ctx grp0.ctx).live = true ∧ ({ grp0 with inHandler := true } : Group).inHandler = true ∧
    ({ grp0 with trapv := 0 } : Group).trapv = 0 ∧ grp0.dual = false ∧ ({ grp0 with dual := true } : Group).dual = true := by decide
theorem wit_TrapEntry : trapCodes.contains (1#8).toNat = true ∧ trapCodes.contains (58#8).toNat = true ∧ trapsNow grp0 ∧
    busy.queue ≠ [] := by unfold trapsNow; decide
/-- In the handler after a trap of a scalar word, and after one of lane word 2 of a block of four. -/
def afterTrap : Group := { grp0 with trapFrame := some ⟨0, []⟩, inHandler := true, tspc := 0x1004, skip := true, pc := 0x1800 }
def afterLaneTrap : Group := { afterTrap with trapFrame := some ⟨2, [blk]⟩, tlpc := 2 }
theorem wit_TrapReturn :
    grp0.queue = [] ∧ grp0.trapFrame = none ∧ trapsNow grp0 ∧ ({ grp0 with nores := true } : Group).nores = true ∧
    afterTrap.queue = [] ∧ afterTrap.trapFrame = some ⟨0, []⟩ ∧ afterTrap.nores = false ∧ afterTrap.tlpc = BitVec.allOnes 64 ∧
    afterTrap.goodTarget (afterTrap.tspc + if afterTrap.skip then 4 else 0) = true ∧
    afterLaneTrap.trapFrame = some ⟨2, [blk]⟩ ∧ afterLaneTrap.tlpc ≠ BitVec.allOnes 64 ∧
    blk.start ≤ afterLaneTrap.tlpc.toNat + 1 ∧ afterLaneTrap.tlpc.toNat + 1 < blk.start + blk.count ∧
    afterLaneTrap.goodTarget afterLaneTrap.tspc = true ∧
    (let last : Group := { afterLaneTrap with tlpc := 3 }
     last.nores = false ∧ last.tlpc ≠ BitVec.allOnes 64 ∧ last.skip = true ∧ last.tlpc.toNat + 1 = blk.start + blk.count) := by unfold trapsNow; decide
theorem wit_TrapAndReturnRestore :
    busy.inHandler = false ∧ busy.trapv ≠ 0 ∧ busy.emuFrame = none ∧ busy.queue = [blk] ∧ blk.start ≤ busy.lpos ∧
    busy.lpos < blk.start + blk.count ∧ busy.lpos < 2 ^ 64 - 1 ∧ busy.goodTarget busy.pc = true := by decide
def inEmulation : Group := { grp0 with emuFrame := some ⟨0, []⟩, tspc := 0x1000, pc := 0x1900 }
def inLaneEmulation : Group := { grp0 with emuFrame := some ⟨2, [blk]⟩, tlpc := 2, tspc := 0x1000, pc := 0x1900 }
theorem wit_EmulationCall :
    busy.queue ≠ [] ∧ grp0.queue = [] ∧ grp0.emuFrame = none ∧ grp0.emuv ≠ 0 ∧ grp0.goodTarget grp0.emuv = true ∧
    trapsNow ({ grp0 with emuv := 0 } : Group) ∧ trapsNow inEmulation ∧ inEmulation.emuFrame.isSome = true := by
  unfold trapsNow; decide
theorem wit_EmulationReturn :
    inEmulation.queue = [] ∧ inEmulation.emuFrame = some ⟨0, []⟩ ∧
    inLaneEmulation.queue = [] ∧ inLaneEmulation.emuFrame = some ⟨2, [blk]⟩ ∧
    (inLaneEmulation.tlpc + 1).toNat < blk.start + blk.count ∧
    (({ inLaneEmulation with tlpc := 3 } : Group).tlpc + 1).toNat = blk.start + blk.count ∧ grp0.emuFrame = none ∧ trapsNow grp0 := by unfold trapsNow; decide

/-! ### Witnesses: scalar memory words -/

theorem wit_FailedAccessTraps :
    accessForm (.sLdN64 4 5 0) = some (5, 0, needLoad, 8) ∧
    capCheck capSt.regs capSt.dev (capGrp.rc 5) (capSt.mach.party false) needLoad (smAddr (capGrp.rc 5) 0 8) 8 = .fail 16 ∧
    trapsNow capGrp ∧ ({ capGrp with queue := [blk] } : Group).queue ≠ [] := by unfold trapsNow; decide
/-- What each check of R153 is judged on: a party of colour 5 with a scratchpad of 4,096 bytes. -/
def party0 : Party := capSt.mach.party false
theorem wit_CheckOrder :
    needLoad.orMxo = false ∧ needLoad.aligned = true ∧ party0.lane = false ∧
    (capGrp.rc 5).tag = false ∧ ((capGrp.rc 8).tag = true ∧ (capGrp.rc 8).malformed = true) ∧
    ((capGrp.rc 9).malformed = false ∧ (capGrp.rc 9).kind = 5) ∧ (capGrp.rc 3).kind ∉ needLoad.kinds ∧
    ((capGrp.rc 6).kind = 2 ∧ 2 ^ 49 ≤ (capGrp.rc 6).cursor ∧ (capGrp.rc 6).malformed = false) ∧
    (capOf 0 0x7FF 6 0x4000 64).colour ≠ party0.colour ∧ (capOf 0 2 5 0x4000 64).perms &&& needLoad.perms ≠ needLoad.perms ∧
    (capOf 0 1 5 (2 ^ 48) 64).perms &&& 512 = 0 ∧ (capOf 0 1 5 (2 ^ 47) 64).perms &&& 2048 = 0 ∧
    ((capGrp.rc 1).perms &&& needLoad.perms = needLoad.perms ∧ (0x3FFF : Int) < (capGrp.rc 1).base ∧
      (capGrp.rc 1).top < 0x4FF9 + 8 ∧ (capGrp.rc 1).base ≤ 0x4000 ∧ (0x4FF8 : Int) + 8 ≤ (capGrp.rc 1).top ∧ 0x4FF9 % 8 ≠ 0) ∧
    firewall {} dev0 party0 false 0x4FF8 8 = .pass ∧ firewall {} dev0 party0 false 0x2000000 8 = .refuse ∧
    (capGrp.rc 2).kind = 2 ∧ party0.scratch < 4090 + 8 ∧ 4088 + 8 ≤ party0.scratch := by decide
theorem wit_ScalarLoads :
    loadForm (.sLdI16 4 1 3) = some (true, 2, 4, 1, 3) ∧
    capCheck capSt.regs capSt.dev (capGrp.rc 1) party0 needLoad (smAddr (capGrp.rc 1) 3 2) 2 = .ok ∧
    placeOf dev0 (capGrp.rc 1) (smAddr (capGrp.rc 1) 3 2) = .local_ 0x4006 ∧
    (groupLoad capSt.regs capSt.mach (.local_ 0x4006) 0 2).2.1.poison = false ∧
    (groupLoad capSt.regs capSt.mach (.local_ 0x4006) 0 2).2.2 = false ∧
    capCheck capSt.regs capSt.dev (capGrp.rc 2) party0 needLoad (smAddr (capGrp.rc 2) 3 2) 2 = .ok ∧
    placeOf dev0 (capGrp.rc 2) (smAddr (capGrp.rc 2) 3 2) = .scratch 6 ∧ fxRoom (fabricHere dev0 (capGrp.rc 1) 0x4006) capGrp := by
  unfold fxRoom; decide
/-- Sector 0x200 (0x4000) of memory is poisoned. -/
def badMem : Dev := { dev0 with mem := { psn := [(0x200, true)] } }
theorem wit_PoisonedScalarLoads :
    loadForm (.sLdN64 4 1 0) = some (false, 8, 4, 1, 0) ∧
    (groupLoad {} ⟨capGrp, badMem⟩ (.local_ 0x4000) 0 8).2.1.poison = true ∧
    (groupLoad {} ⟨capGrp, badMem⟩ (.local_ 0x4000) 0 8).2.2 = false ∧ capGrp.prc = false ∧
    capCheck {} badMem (capGrp.rc 1) party0 needLoad 0x4000 8 = .ok ∧ placeOf badMem (capGrp.rc 1) 0x4000 = .local_ 0x4000 ∧
    ({ capGrp with prc := true } : Group).prc = true ∧ trapsNow capGrp ∧ fxRoom (fabricHere badMem (capGrp.rc 1) 0x4000) capGrp := by
  unfold trapsNow fxRoom; decide
/-- A core that holds an exclusive, an expired and a live shared copy of lines 0, 1 and 2. -/
def copyCore : Core :=
  let l : LineData := ⟨List.replicate 128 1, 0, 0⟩
  { pts := 9, copies := [(0, { excl := true, wts := 0, rts := 0, data := l }), (1, { excl := false, wts := 0, rts := 8, data := l }),
    (2, { excl := false, wts := 0, rts := 9, data := l })] }
theorem wit_WhatALoadReads :
    grp0.dual = false ∧ dev0.errors.find? (0 / 128) = none ∧ homeDie 0 = some grp0.die ∧ copyCore.pushes.find? 0 = none ∧ copyCore.copies.find? 3 = none ∧
    (∃ e, copyCore.copies.find? 0 = some e ∧ e.excl = true) ∧ (∃ e, copyCore.copies.find? 1 = some e ∧ e.rts < copyCore.pts) ∧
    (∃ e, copyCore.copies.find? 2 = some e ∧ e.excl = false ∧ copyCore.pts ≤ e.rts) ∧
    homeDie Config.hbmPerDie = some 1 ∧ 1 ≠ grp0.die :=
  ⟨rfl, rfl, by decide, rfl, rfl, ⟨_, rfl, rfl⟩, ⟨_, rfl, by decide⟩, ⟨_, rfl, rfl, by decide⟩, by decide, by decide⟩
theorem wit_ScalarStoresToMemory :
    storeForm (.sStN32 4 1 0x3FF) = some (4, 4, 1, 0x3FF) ∧
    capCheck capSt.regs dev0 (capGrp.rc 1) party0 needStore (smAddr (capGrp.rc 1) 0x3FF 4) 4 = .ok ∧
    placeOf dev0 (capGrp.rc 1) (smAddr (capGrp.rc 1) 0x3FF 4) = .local_ 0x4FFC ∧ capGrp.dual = false ∧ hostHoldsNothing capSt ∧
    dev0.syncs.getD (0x4FFC / 64) false = false ∧ soundLine capSt 0x4FFC ∧ fxRoom (fabricHere dev0 (capGrp.rc 1) 0x4FFC) capGrp ∧
    fabricHere { dev0 with pkg := { dev0.pkg with domValid := true } } (capOf 0 0x7FF 5 (2 ^ 49) 64) (2 ^ 49) = true :=
  ⟨rfl, by decide, by decide, rfl, fun _ => rfl, rfl, rfl, by unfold fxRoom; decide, by decide⟩
theorem wit_ScalarStoresToScratch :
    storeForm (.sStN8 4 2 0xFFF) = some (1, 4, 2, 0xFFF) ∧
    capCheck capSt.regs dev0 (capGrp.rc 2) party0 needStore (smAddr (capGrp.rc 2) 0xFFF 1) 1 = .ok ∧
    placeOf dev0 (capGrp.rc 2) (smAddr (capGrp.rc 2) 0xFFF 1) = .scratch 0xFFF ∧ capGrp.dual = false ∧
    (dev0.team 1).metScratch 0xFFF 1 = false := by decide
theorem wit_CapabilityLoadsAndStores :
    capCheck capSt.regs dev0 (capGrp.rc 1) party0 needLoad (smAddr (capGrp.rc 1) 1 16) 16 = .ok ∧
    placeOf dev0 (capGrp.rc 1) (smAddr (capGrp.rc 1) 1 16) = .local_ 0x4010 ∧
    (groupLoad capSt.regs capSt.mach (.local_ 0x4010) 0 16).2.1.poison = false ∧
    (groupLoad capSt.regs capSt.mach (.local_ 0x4010) 0 16).2.2 = false ∧ (dev0.parts.getD 0 {}).filter = [] ∧
    capCheck capSt.regs dev0 (capGrp.rc 1) party0 needCapStore (smAddr (capGrp.rc 1) 1 16) 16 = .ok ∧ hostHoldsNothing capSt ∧
    dev0.syncs.getD (0x4010 / 64) false = false ∧ fxRoom (fabricHere dev0 (capGrp.rc 1) 0x4010) capGrp ∧ capGrp.dual = false :=
  ⟨by decide, by decide, by decide, by decide, rfl, by decide, fun _ => rfl, rfl, by unfold fxRoom; decide, rfl⟩
theorem wit_StoresToRegisters :
    capCheck capSt.regs dev0 (capGrp.rc 7) party0 needStore (smAddr (capGrp.rc 7) 2 8) 8 = .ok ∧
    placeOf dev0 (capGrp.rc 7) (smAddr (capGrp.rc 7) 2 8) = .device (smAddr (capGrp.rc 7) 2 8) ∧ hostHoldsNothing capSt ∧
    capGrp.dual = false ∧ ({ capGrp with dual := true } : Group).dual = true ∧ ∀ i, capGrp.roles.getD i .idle ≠ .replay :=
  ⟨by decide, by decide, fun _ => rfl, rfl, rfl, fun _ h => nomatch h⟩

/-! ### Witnesses: capability words -/

theorem wit_CapabilityMovesAndReads : smallest (outwardFits 0 (min (sGrp.rs 1).toNat (2 ^ 50))) 0 := by
  refine ⟨?_, fun k h => absurd h (Nat.not_lt_zero k)⟩
  unfold outwardFits; decide
theorem wit_CapabilityDerivationTraps :
    derivation (.cSetb 4 5 1) = some (4, 5) ∧ needsTag (.cSetb 4 5 1) = true ∧ (capGrp.rc 5).tag = false ∧
    (capGrp.rc 8).tag = true ∧ (capGrp.rc 8).malformed = true ∧ (capGrp.rc 9).tag = true ∧ (capGrp.rc 9).malformed = false ∧
    (capGrp.rc 9).kind = 5 ∧ trapsNow capGrp ∧ ({ capGrp with queue := [blk] } : Group).queue ≠ [] := by unfold trapsNow; decide
theorem wit_CapabilityCursorAndPermissions :
    (capGrp.rc 5).tag = false ∧ (capGrp.rc 1).malformed = false ∧ (capGrp.rc 1).kind ≠ 5 := by decide
/-- c1 as before; s1 = 7, s2 = 0x1000 (all of c1), s3 = 0, s4 = 0x1001; c2 is wide: [0, 2^40) in granules of 2^21, at 1. -/
def boundGrp : Group :=
  { grp0 with s := [(1, 7), (2, 0x1000), (4, 0x1001), (5, 2 ^ 30)]
              c := [(1, capOf 0 0x7FF 5 0x4000 0x1000), (2, ⟨BitVec.ofNat 128 (1 + 2 ^ 19 * 2 ^ 76 + 21 * 2 ^ 96 + 0x7FF * 2 ^ 102 + 5 * 2 ^ 118), true⟩)] }
theorem wit_CapabilityBounds :
    (boundGrp.rc 1).tag = true ∧ (boundGrp.rc 1).malformed = false ∧ (boundGrp.rc 1).kind ≠ 5 ∧ trapsNow boundGrp ∧
    (boundGrp.rs 3).toNat = 0 ∧ (boundGrp.rc 1).top < ((boundGrp.rc 1).cursor + (boundGrp.rs 4).toNat : Nat) ∧
    (boundGrp.rc 1).base ≤ (boundGrp.rc 1).cursor ∧ ((boundGrp.rc 1).cursor + (boundGrp.rs 2).toNat : Nat) ≤ (boundGrp.rc 1).top ∧
    smallest (exactFits 0x4000 0x5000) 0 ∧ smallest (outwardFits 0x4000 0x5000) 0 ∧
    (boundGrp.rc 2).malformed = false ∧ (boundGrp.rc 2).cursor = 1 ∧ (∀ e, ¬ exactFits 1 (1 + 2 ^ 30) e) ∧
    smallest (outwardFits 1 (1 + 2 ^ 30)) 11 := by
  refine ⟨by decide, by decide, by decide, ⟨rfl, rfl, by decide⟩, by decide, by decide, by decide, by decide, ?_, ?_, by decide,
    by decide, ?_, ?_⟩
  · exact ⟨by unfold exactFits; decide, fun k h => absurd h (Nat.not_lt_zero k)⟩
  · exact ⟨by unfold outwardFits; decide, fun k h => absurd h (Nat.not_lt_zero k)⟩
  · rintro e ⟨_, hb, _, _, hl, _⟩
    rcases Nat.eq_zero_or_pos e with rfl | he
    · exact absurd hl (by decide)
    · have h2 : 1 < 2 ^ e := Nat.one_lt_two_pow (by omega)
      rw [Nat.mod_eq_of_lt h2] at hb
      exact absurd hb (by decide)
  · refine ⟨by unfold outwardFits; decide, fun k h => ?_⟩
    have : k ∈ List.range 11 := List.mem_range.2 h
    revert this k; unfold outwardFits; decide
/-- c1 DATA of one line's half, c2 an envelope of the context's colour, c3 SYNC, c4 an opener without OPEN, c5 untagged, c8
malformed, c10 of another colour, c11 without SEAL, c12 without GIVE; s1 = 3, s2 = 4, s6 = 6, s7 = 5 (the colour), s8 = 9. -/
def sealGrp : Group :=
  { grp0 with s := [(1, 3), (2, 4), (6, 6), (7, 5), (8, 9)]
              c := [(1, capOf 0 0x7FF 5 0x4000 64), (2, capOf 5 0x7FF 5 0x4000 64), (3, capOf 3 0x7FF 5 0x4000 64),
                    (4, capOf 0 0x07F 5 0x4000 64), (5, {}), (8, capOf 7 0x7FF 5 0x4000 64), (10, capOf 0 0x7FF 6 0x4000 64),
                    (11, capOf 0 0x03F 5 0x4000 63), (12, capOf 0 0x0FF 5 0x4000 64)] }
theorem wit_SealingAndOpening :
    ((sealGrp.rc 1).tag = true ∧ (sealGrp.rc 1).malformed = false ∧ (sealGrp.rc 1).kind = 0 ∧ (sealGrp.rs 0).toNat % 16 = 0) ∧
    (∀ s ∈ [1, 2, 6], (sealGrp.rs s).toNat % 16 ∈ [3, 4, 6]) ∧ (sealGrp.rc 1).base % 64 = 0 ∧
    (sealGrp.rc 1).top - (sealGrp.rc 1).base = 64 ∧ (sealGrp.rc 11).top - (sealGrp.rc 11).base ≠ 64 ∧
    (sealGrp.rs 8).toNat % 16 ≠ (sealGrp.rc 3).kind ∧ (sealGrp.rc 3).kind ≠ 0 ∧ (sealGrp.rc 3).kind ≠ 5 ∧
    (sealGrp.rc 10).colour ≠ sealGrp.colour ∧ (sealGrp.rc 11).perms &&& 64 = 0 ∧ (sealGrp.rc 12).perms &&& 64 ≠ 0 ∧
    (sealGrp.rc 12).perms &&& 1024 = 0 ∧ (sealGrp.rs 8).toNat % 1024 ≠ 5 ∧ (sealGrp.rs 7).toNat % 1024 = 5 ∧
    (sealGrp.rc 5).tag = false ∧ (sealGrp.rc 8).malformed = true ∧ (sealGrp.rc 8).tag = true ∧
    ((sealGrp.rc 2).tag = true ∧ (sealGrp.rc 2).malformed = false ∧ (sealGrp.rc 2).kind = 5 ∧ (sealGrp.rc 2).colour = sealGrp.colour) ∧
    (sealGrp.rc 10).kind ≠ 5 ∧ (sealGrp.rc 4).perms &&& 128 = 0 ∧ (sealGrp.rc 1).perms &&& 128 ≠ 0 ∧ trapsNow sealGrp := by
  unfold trapsNow; decide
theorem wit_DerivationNeverWidens : ∃ t, exec (.cSetb 4 1 2) (st boundGrp) = .next t := ⟨_, rfl⟩

/-! ### Witnesses: sync words -/

/-- Memory with the object at 0x8000: VALUE 3, a closed sequence, every descriptor but the third valid. -/
def objMem : Mem := { bytes := [(0x8000, 3), (0x8027, 0x80), (0x802F, 0x80), (0x803F, 0x80)] }
def fullMem : Mem := { bytes := [(0x8027, 0x80), (0x802F, 0x80), (0x8037, 0x80), (0x803F, 0x80)] }
/-- The same object with its sector poisoned. -/
def poisonMem : Mem := { objMem with psn := [(0x400, true)] }
/-- The group with the capabilities above, s1 = 3, s2 = 9, c10 a region of 2^20 + 1 lines and c11 one of another colour. -/
def syGrp : Group :=
  { capGrp with s := [(1, 3), (2, 9)]
                c := caps ++ [(10, ⟨BitVec.ofNat 128 (2 ^ 20 * 2 ^ 76 / 2 ^ 1 + 9 * 2 ^ 96 + 0x7FF * 2 ^ 102 + 5 * 2 ^ 118), true⟩),
                  (11, capOf 0 0x7FF 6 0x4000 0x1000), (12, { capOf 0 0x7FF 5 0x4000 0x1000 with tag := false }),
                  (13, ⟨BitVec.ofNat 128 (2 ^ 10 * 2 ^ 76 + 18 * 2 ^ 96 + 0x7FF * 2 ^ 102 + 5 * 2 ^ 118), true⟩)] }
/-- An entry of the firewall that gives the context the first 1 GiB. -/
def wideDev (m : Mem) : Dev := { dev0 with pkg := { fw := [(0, (0x8001400000000200, 0))] }, mem := m }
def sySt (m : Mem) : State := { grp := syGrp, dev := wideDev m }


theorem objectHere (m : Mem) : hostHoldsNothing (sySt m) ∧ fwLocal.homeTurns (sySt m).dev 0x8000 = false ∧
    fxRoom (objectFabric (sySt m) 3) (sySt m).grp :=
  ⟨fun _ => rfl, rfl, fun h => by
    have : ¬ Config.hostBase ≤ (syGrp.rc 3).base.toNat := by decide
    simp [objectFabric, fabricHere, sySt, this] at h⟩
theorem objectToRead : objectAt (sySt objMem) 3 1 false 0x8000 := ⟨by decide, by decide, rfl, rfl, objectHere _⟩
theorem objectToWrite : objectAt (sySt objMem) 3 2 true 0x8000 := ⟨by decide, by decide, rfl, rfl, objectHere _⟩
theorem objectForAtomics : objectAt (sySt objMem) 3 32 true 0x8000 := ⟨by decide, by decide, rfl, rfl, objectHere _⟩
theorem quietDevice : quiet (sySt objMem) := by unfold quiet; decide
theorem syTraps : trapsNow syGrp := by unfold trapsNow; decide

theorem wit_SyncWordTraps :
    trapsNow syGrp ∧ syGrp.park = none ∧ quiet (sySt objMem) ∧
    (syncForm (.syLd 4 1) = some (1, 1, false) ∧
      capCheck {} (wideDev objMem) (syGrp.rc 1) party0 (syncNeed 1 false) (syGrp.rc 1).base.toNat 8 = .fail 19) ∧
    (syncForm (.syRel 5 1 .d) = some (5, 2, true) ∧
      capCheck {} (wideDev objMem) (syGrp.rc 5) party0 (syncNeed 2 true) (syGrp.rc 5).base.toNat 8 = .fail 16) ∧
    ((capOf 3 0x03 5 0x8000 64).kind = 3 ∧
      capCheck {} (wideDev objMem) (capOf 3 0x03 5 0x8000 64) party0 (syncNeed 32 true) 0x8000 8 = .fail 21) ∧
    ((syGrp.rc 2).kind ≠ 3 ∧ capCheck {} (wideDev objMem) (syGrp.rc 2) party0 needAtomic (syGrp.rc 2).cursor 8 = .fail 19) ∧
    objectAt (sySt objMem) 3 2 true 0x8000 ∧ (syGrp.rc 12).tag = false ∧ (syGrp.rc 8).malformed = true ∧
    (syGrp.rc 9).kind = 5 ∧ (syGrp.rc 3).kind = 3 ∧ (syGrp.rc 11).kind = 0 ∧ (syGrp.rc 11).colour ≠ syGrp.colour ∧
    bindCheck {} (sySt objMem).mach (syGrp.rc 13) = .ok ∧
    2 ^ 20 < ((syGrp.rc 13).top.toNat + 127) / 128 - (syGrp.rc 13).base.toNat / 128 ∧
    bindCheck {} (sySt fullMem).mach (syGrp.rc 1) = .ok ∧ (syGrp.rc 1).base < (syGrp.rc 1).top ∧
    ((syGrp.rc 1).top.toNat + 127) / 128 - (syGrp.rc 1).base.toNat / 128 ≤ 2 ^ 20 ∧
    ∀ k, k < 4 → bit ((wideDev fullMem).mem.word (0x8020 + 8 * k)) 63 = true :=
  ⟨syTraps, rfl, quietDevice, ⟨rfl, by decide⟩, ⟨rfl, by decide⟩, ⟨by decide, by decide⟩, ⟨by decide, by decide⟩, objectToWrite, by decide +kernel⟩
theorem wit_SyncReads :
    objectAt (sySt objMem) 3 1 false 0x8000 ∧ syGrp.park = none ∧ soundLine (sySt objMem) 0x8000 ∧ soundLine (sySt poisonMem) 0x8000 ∧
    (groupLoad {} { (sySt objMem).mach with d := noteSync (wideDev objMem) 0x8000 } (.local_ 0x8000) 0 8).2.1.poison = false ∧
    objMem.anyPoison 0x8000 8 = false ∧ objMem.word 0x8000 ≠ syGrp.rs 2 ∧ objMem.word 0x8000 = syGrp.rs 1 ∧
    objectAt (sySt poisonMem) 3 1 false 0x8000 ∧ poisonMem.anyPoison 0x8000 8 = true ∧ syGrp.prc = false ∧ syGrp.rs 1 ≠ 0 ∧
    ({ syGrp with prc := true } : Group).prc = true ∧ trapsNow syGrp :=
  ⟨objectToRead, rfl, rfl, rfl, by decide, by decide, by decide, by decide, ⟨by decide, by decide, rfl, rfl, objectHere _⟩, by decide, rfl,
    by decide, rfl, syTraps⟩
theorem wit_SyncStores : objectAt (sySt objMem) 3 2 true 0x8000 ∧ syGrp.queue = [] ∧ quiet (sySt objMem) ∧
    ({ syGrp with queue := [blk] } : Group).queue ≠ [] := ⟨objectToWrite, rfl, quietDevice, by decide⟩
theorem wit_Fences : busy.queue ≠ [] ∧ isWide .d = true ∧
    (∃ p ∈ [(⟨1, 1, 0, 0, { excl := false, wts := 0, rts := 0, data := ⟨[], 0, 0⟩ }⟩ : Push)], p.gid = grp0.gid) ∧
    (∃ r ∈ [({ id := 1, gid := 1, flight := 0, addr := 0, len := 8, write := none, envelope := false, lane := 0, port := none, wait := .none } : Remote)],
      r.gid = grp0.gid) ∧ grp0.queue = [] ∧ quiet st0 ∧ isWide .g = false ∧ isWide .y = true ∧
    (let g : Group := { grp0 with dual := true }
     g.dual = true ∧ g.dualSt.passed = false ∧ g.dualSt.waiting = false ∧ ({ g with dualSt := { passed := true } } : Group).dualSt.passed = true) := by unfold quiet; decide
theorem wit_Atomics :
    (objectAt (sySt objMem) 3 32 true 0x8000 ∧ (syGrp.rc 3).kind = 3) ∧
    ((syGrp.rc 1).kind ≠ 3 ∧ capCheck {} (wideDev objMem) (syGrp.rc 1) party0 needAtomic (syGrp.rc 1).cursor 8 = .ok ∧
      placeOf (wideDev objMem) (syGrp.rc 1) (syGrp.rc 1).cursor = .local_ 0x4000 ∧ hostHoldsNothing (sySt objMem) ∧
      (wideDev objMem).syncs.getD (0x4000 / 64) false = false ∧ soundLine (sySt objMem) 0x4000 ∧
      fxRoom (fabricHere (wideDev objMem) (syGrp.rc 1) (syGrp.rc 1).cursor) syGrp) ∧ soundLine (sySt objMem) 0x8000 ∧
    ordReleases .ar = true ∧ ({ syGrp with queue := [blk] } : Group).queue ≠ [] ∧ syGrp.queue = [] ∧ quiet (sySt objMem) ∧
    objMem.anyPoison 0x8000 8 = false ∧ poisonMem.anyPoison 0x8000 8 = true ∧ syGrp.prc = false ∧ trapsNow syGrp :=
  ⟨⟨objectForAtomics, by decide⟩, ⟨by decide, by decide, by decide, fun _ => rfl, rfl, rfl, by unfold fxRoom; decide⟩, rfl, rfl, by decide, rfl,
    quietDevice, by decide,
    by decide, rfl, syTraps⟩
theorem wit_Bindings :
    objectAt (sySt objMem) 3 2 true 0x8000 ∧ bindCheck {} (sySt objMem).mach (syGrp.rc 1) = .ok ∧ (syGrp.rc 1).base < (syGrp.rc 1).top ∧
    ((syGrp.rc 1).top.toNat + 127) / 128 - (syGrp.rc 1).base.toNat / 128 ≤ 2 ^ 20 ∧ bit (objMem.word (0x8020 + 8 * 2)) 63 = false ∧
    ∀ j, j < 2 → bit (objMem.word (0x8020 + 8 * j)) 63 = true :=
  ⟨objectToWrite, by decide +kernel, by decide, by decide, by decide, by decide⟩
/-- A second group of the team, which has arrived at the barrier with s4 or not. -/
def pairDev (k : Option Nat) : Dev := { dev0 with groups := [(2, { grp0 with gid := 2, index := 1, arrived := k })] }
theorem wit_BarrierAndWake :
    grp0.live = true ∧ (dev0.team 1).partner = none ∧ busy.queue ≠ [] ∧ grp0.queue = [] ∧ grp0.arrived = none ∧
    (∃ e ∈ (pairDev none).groups.filter fun e => e.2.team == 1, e.2.arrived = none) ∧
    (∀ e ∈ (pairDev (some 4)).groups.filter fun e => e.2.team == 1, e.2.arrived ≠ none) ∧
    ({ grp0 with arrived := some 0 } : Group).arrived = some 0 ∧
    ({ grp0 with park := some ⟨0x8000, 9⟩ } : Group).park = some ⟨0x8000, 9⟩ ∧ (homeDie 0x8000).isSome = true ∧
    objMem.anyPoison 0x8000 8 = false ∧ objMem.word 0x8000 ≠ 9 ∧ objMem.word 0x8000 = 3 ∧ poisonMem.anyPoison 0x8000 8 = true := by
  decide

/-! ### Witnesses: engines -/

/-- A copy of 64 bytes from 0x4000 to 0x6000, issued by the group of `st0` on an engine at its flight 1. -/
def copy0 : CopyOp :=
  { id := 9, gid := 1, flight := 1, die := 0, core := 0, src := capOf 0 0x7FF 5 0x4000 64, dst := capOf 0 0x7FF 5 0x6000 64, len := 64
    ctrl := 0, signal := capOf 3 0x23 5 0x8000 64, checked := false, moved := false, wts := 0, packet := none, colour := 5, part := 0
    prc := false, ctx := 1 }
def copyGrp : Group := { grp0 with flights := [⟨.cp, 1, 1, false, 0⟩] }
def copyDev (o : CopyOp) (own : Tab (Option Nat)) : Dev := { dev0 with clusters := [(0, { copies := [o], unitOwner := own })] }
def copySt (o : CopyOp) : State := { grp := copyGrp, dev := copyDev o [] }
def bufCtrl (off : Nat) : Word := BitVec.ofNat 64 (4 + off * 2 ^ 28)

theorem wit_CopyIssue :
    (let c := capGrp.rc 4
     capCheck {} dev0 (capGrp.rc 1) party0 needCmd (capGrp.rc 1).base.toNat 64 = .fail 19 ∧ trapsNow capGrp ∧
     capCheck {} dev0 c party0 needCmd c.base.toNat 64 = .ok ∧
     32 ≤ copiesHeld ⟨capGrp, { dev0 with clusters := [(0, { copies := List.replicate 32 copy0 })] }⟩ ∧
     placeOf dev0 c c.base.toNat = .local_ 0x9000 ∧ capGrp.dual = false ∧ capGrp.shadow = false ∧
     copiesHeld capSt.mach < 32 ∧ capGrp.count .cp < 1023 ∧ (readBlock {} capSt.mach 0x9000).2.2 = false ∧
     (readBlock {} ⟨capGrp, { dev0 with mem := { psn := [(0x481, true)] } }⟩ 0x9000).2.2 = true ∧ capGrp.prc = false) := by
  unfold trapsNow; decide
theorem wit_CopyChecks :
    (let d := copyDev copy0 []
     let m := (copySt copy0).mach
     let p := engineParty d 5 0 (opTeam m 1) false
     (d.cluster 0).copies = [] ++ copy0 :: [] ∧ copy0.packet = none ∧ copy0.checked = false ∧ (m.group? copy0.gid).isSome = true ∧
     2 ^ 30 < ({ copy0 with len := 2 ^ 30 + 1 } : CopyOp).len ∧ (8 : Word).extractLsb' 3 25 ≠ 0 ∧
     capCheck8 copy0.src p (rangeNeed 1 false) true 0x4000 64 = none ∧ capCheck8 copy0.src p (rangeNeed 1 false) true 0x4000 65 ≠ none ∧
     capCheck8 copy0.dst p (rangeNeed 2 true) true 0x6000 64 = none ∧ capCheck8 (capOf 0 1 5 0x6000 64) p (rangeNeed 2 true) true 0x6000 64 ≠ none ∧
     786432 < 786400 + copy0.len ∧ 786368 + copy0.len ≤ 786432 ∧
     capCheck8 copy0.signal p signalNeed true 0x8000 8 = none ∧ capCheck8 copy0.src p signalNeed true 0x4000 8 ≠ none ∧
     (0 ∈ blocksOf 1024 0 64 ∧ ((copyDev copy0 [(0, some 7)]).cluster 0).unitOwner.getD 0 none = some 7 ∧ 7 ≠ opTeam m 1) ∧
     ((bufCtrl 786368).extractLsb' 28 20).toNat = 786368) :=
  by decide +kernel
def copy1 : CopyOp := { copy0 with checked := true }
theorem wit_CopyMoves :
    (let d := copyDev copy1 []
     let p := engineParty d 5 0 1 false
     (d.cluster 0).copies = [] ++ copy1 :: [] ∧ copy1.checked = true ∧ copy1.moved = false ∧ bit copy1.ctrl 2 = false ∧
     copy1.src.kind = 0 ∧ copy1.dst.kind = 0 ∧ leaves d copy1.src.cursor = false ∧ leaves d copy1.dst.cursor = false ∧
     reach {} d p false copy1.src copy1.src.cursor 64 = .all ∧ reach {} d p true copy1.dst copy1.dst.cursor 64 = .all) ∧
    copy1.rest = none ∧ hostHoldsNothing (copySt copy1) ∧ noSyncIn (copySt copy1) 0x6000 64 ∧
    bit ({ copy1 with ctrl := 1 } : CopyOp).ctrl 0 = true ∧ (dev0.parts.getD 0 {}).filter = [] :=
  ⟨by decide, rfl, fun _ => rfl, fun _ _ _ => rfl, rfl, rfl⟩
/-- The same into the operand buffer from byte 64 on, not yet begun; one with its last 4 bytes left, and one whose source ended early. -/
def bufCopy : CopyOp := { copy1 with ctrl := bufCtrl 64 }
theorem wit_BufferCopies :
    (let d := copyDev bufCopy []
     let p := engineParty d 5 0 1 false
     (d.cluster 0).copies = [] ++ bufCopy :: [] ∧ bufCopy.checked = true ∧ bufCopy.moved = false ∧ bufCopy.packet = none ∧
     bit bufCopy.ctrl 2 = true ∧ ((copySt bufCopy).mach.group? bufCopy.gid).isSome = true ∧ bufCopy.rest = none ∧ bufCopy.written = 0 ∧
     bufCopy.src.kind = 0 ∧ leaves d bufCopy.src.cursor = false ∧ d.errors = [] ∧ bufCopy.prc = false ∧
     reach {} d p false bufCopy.src bufCopy.src.cursor 64 = .all ∧
     reach {} { d with pkg := { fw := [] } } p false bufCopy.src bufCopy.src.cursor 64 = .refused 0 ∧
     ({ psn := [(0x200, true)] } : Mem).poisoned ((0x4000 + 0) / 32) = true ∧
     (({ bufCopy with written := 60, rest := some ([1, 2, 3, 4], [false, true]) } : CopyOp).rest = some ([1, 2, 3, 4], [false, true]) ∧
       60 + [1, 2, 3, 4].length = 64 ∧ [1, 2, 3, 4].length ≤ 128 - (64 + 60) % 128) ∧
     128 - (64 + 0) % 128 < (List.replicate 65 (0 : Byte)).length ∧ 0 + [1, 2].length < 64) := by decide +kernel
def copy2 : CopyOp := { copy1 with moved := true }
theorem wit_CopyCompletes :
    (let d := copyDev copy2 []
     (d.cluster 0).copies = [] ++ copy2 :: [] ∧ copy2.packet = none ∧ copy2.moved = true ∧
     (∀ r ∈ d.remotes, r.gid = 0 → r.flight ≠ copy2.id) ∧ bit copy2.ctrl 1 = false ∧
     (∃ r ∈ [({ id := 1, gid := 0, flight := 9, addr := 0, len := 8, write := none, envelope := false, lane := 0, port := none, wait := .none } : Remote)],
       r.gid = 0 ∧ r.flight = copy2.id) ∧
     bit ({ copy2 with ctrl := 2 } : CopyOp).ctrl 1 = true ∧ copy2.signalled = false ∧ copy2.signal.kind ≠ 2 ∧
     leaves d 0x8000 = false ∧ signalWaits d 0x8000 = false ∧ copyGrp.entering = none ∧ d.remotes = [] ∧ d.mem.anyPoison 0x8000 8 = false ∧
     reach {} d (engineParty d 5 0 0 false) true copy2.signal 0x8000 8 = .all) ∧
    soundLine (copySt copy2) 0x8000 ∧ hostHoldsNothing (copySt copy2) ∧ (copySt copy2).mach.group? 1 = some copyGrp ∧ firstOn copyGrp .cp 1 :=
  ⟨by decide, rfl, fun _ => rfl, rfl, ⟨_, rfl, rfl⟩⟩

/-- A collective of peers 0 and 1 that reduces one 64-bit number (ALLRED, +), issued by the group of `st0` as peer 0. -/
def clCtrl : Word := BitVec.ofNat 64 (1 * 2 ^ 8 + 2 * 2 ^ 12 + 1 * 2 ^ 40 + 2 * 2 ^ 48)
def cl0 : ClOp :=
  { id := 9, gid := 1, flight := 1, ctx := 1, core := 0, src := capOf 0 0x7FF 5 0x4000 64, dst := capOf 0 0x7FF 5 0x6000 64, len := 1
    ctrl := clCtrl, signal := {}, seq := 0, colour := 5, part := 0, matched := false, wts := 0 }
def clDev (o : ClOp) : Dev :=
  { dev0 with dies := [(0, { coll := [o] })], pkg := { fw := [(0, (0x8001400000000010, 0))], domValid := true } }
def clGrp : Group := { grp0 with flights := [⟨.cl, 1, 1, false, 0⟩] }
def clSt (o : ClOp) : State := { grp := clGrp, dev := clDev o }
/-- Memory with that block at 0x9000. -/
def clMem : Mem :=
  (({} : Mem).writeBytes 0x9000 (cl0.src.bytes ++ cl0.dst.bytes ++ toLe 8 1 ++ toLe 8 clCtrl.toNat)).setTag 0x900 true |>.setTag 0x901 true
def clIssue : State := { capSt with dev := { clDev cl0 with dies := [], mem := clMem } }

theorem wit_CollectiveIssue :
    (let c := capGrp.rc 4
     capCheck {} dev0 (capGrp.rc 1) party0 needCmd (capGrp.rc 1).base.toNat 64 = .fail 19 ∧ trapsNow capGrp ∧
     capCheck {} clIssue.dev c party0 needCmd c.base.toNat 64 = .ok ∧ 64 ≤ (List.replicate 64 cl0).length ∧
     placeOf clIssue.dev c c.base.toNat = .local_ 0x9000 ∧ capGrp.dual = false ∧ capGrp.shadow = false ∧
     (clIssue.dev.die 0).coll.length < 64 ∧ capGrp.count .cl < 1023 ∧ capGrp.live = true ∧
     (readBlock {} clIssue.mach 0x9000).2.2 = false ∧
     clFault clIssue.dev { cl0 with src := (readBlock {} clIssue.mach 0x9000).2.1.cap 0, dst := (readBlock {} clIssue.mach 0x9000).2.1.cap 1 } = none ∧
     clFault dev0 cl0 = some 50 ∧ (∀ y ∈ (clIssue.dev.die 0).coll, y.id ≠ clIssue.dev.nextId)) := by
  unfold trapsNow; decide
theorem wit_CollectiveBlockCheck : clFault (clDev cl0) cl0 = none ∧ clFault (clDev cl0) { cl0 with len := 2 ^ 28 + 1 } = some 50 := by decide
def part0 : ClPart := ⟨0, toLe 8 5, List.replicate 8 false⟩
theorem wit_CollectiveStep :
    ((clCtrl.extractLsb' 12 4).toNat ∈ [2, 3, 6, 7] ∧ (clCtrl.extractLsb' 10 2).toNat = 0) ∧
    (∀ r < 3, ((BitVec.ofNat 64 (r * 2 ^ 10 + 8 * 2 ^ 12) : Word).extractLsb' 10 2).toNat = r) ∧
    ((BitVec.ofNat 64 (8 * 2 ^ 12) : Word).extractLsb' 12 4).toNat ∈ [8, 9, 10] ∧ 5 < 2 ^ tyWidth 2 ∧ 0x3F800000 < 2 ^ tyWidth 8 := by decide
theorem wit_CollectiveResults :
    (clCtrl.extractLsb' 8 2).toNat = 1 ∧ ((0x200 : Word).extractLsb' 8 2).toNat = 2 ∧ ((0x300 : Word).extractLsb' 8 2).toNat = 3 ∧
    ((0 : Word).extractLsb' 8 2).toNat = 0 ∧ part0 ∈ [part0] ∧ part0.rank = ((0 : Word).extractLsb' 32 8).toNat ∧
    (∀ y ∈ [part0], y.rank = part0.rank → y = part0) := by decide
def memb0 : ClMember := { rank := 1, agrees := true, data := toLe 8 6, psn := [] }
theorem wit_CollectiveSteps :
    (let d := clDev cl0
     let p := engineParty d 5 0 0 false
     (d.die 0).coll = [] ++ cl0 :: [] ∧ ((clSt cl0).mach.group? cl0.gid).isSome = true ∧ cl0.matched = false ∧
     bit cl0.ctrl 1 = false ∧ (∀ r ∈ d.remotes, r.gid = 0 → r.flight ≠ cl0.id) ∧ clRank d cl0.ctrl = some 0 ∧
     (∃ r ∈ (List.range (clCount cl0.ctrl)).filter (· ≠ 0), ∀ x ∈ ([] : List ClMember), x.rank ≠ r) ∧
     (∀ r ∈ (List.range (clCount cl0.ctrl)).filter (· ≠ 0), ∃ x ∈ [memb0], x.rank = r ∧ x.agrees = true) ∧
     (∃ x ∈ [{ memb0 with agrees := false }], x.rank ∈ (List.range (clCount cl0.ctrl)).filter (· ≠ 0) ∧ x.agrees = false) ∧
     ([memb0].map (·.rank)).Nodup ∧ cl0.src.kind = 0 ∧ cl0.dst.kind = 0 ∧ leaves d cl0.src.cursor = false ∧
     leaves d cl0.dst.cursor = false ∧ reach {} d p false cl0.src cl0.src.cursor (clSrcLen cl0.ctrl 1 0) = .all ∧
     reach {} d p true cl0.dst cl0.dst.cursor (clDstLen cl0.ctrl 1) = .all) ∧
    hostHoldsNothing (clSt cl0) ∧ noSyncIn (clSt cl0) 0x6000 8 ∧
    ({ cl0 with matched := true } : ClOp).matched = true ∧ (clSt cl0).mach.group? 1 = some clGrp ∧ firstOn clGrp .cl 1 :=
  ⟨by decide, fun _ => rfl, fun _ _ _ => rfl, rfl, rfl, ⟨_, rfl, rfl⟩⟩
/-- c1 DATA, c2 an envelope, c3 untagged, c4 DATA in the peer range (peer 1), c5 DATA in memory; port 0 is up. -/
def giveGrp : Group :=
  { grp0 with c := [(1, capOf 0 0x7FF 5 0x4000 64), (2, capOf 5 0x7FF 5 0x4000 64), (4, capOf 0 0x7FF 5 (2 ^ 49 + 2 ^ 40) 64)] }
def giveDev : Dev := { dev0 with pkg := { fw := [(0, (0x8001400000000010, 0))], ports := [(0, { up := true })] } }
theorem wit_EnvelopeWrites :
    (giveGrp.rc 3).tag = false ∧ trapsNow giveGrp ∧ (giveGrp.rc 1).tag = true ∧ (giveGrp.rc 1).malformed = false ∧ (giveGrp.rc 1).kind ≠ 5 ∧
    (giveGrp.rc 2).tag = true ∧ (giveGrp.rc 2).malformed = false ∧ (giveGrp.rc 2).kind = 5 ∧
    capCheck {} giveDev (giveGrp.rc 3) party0 needGive (giveGrp.rc 3).cursor 16 = .fail 16 ∧
    capCheck {} giveDev (giveGrp.rc 1) party0 needGive (giveGrp.rc 1).cursor 16 = .ok ∧ (giveGrp.rc 1).cursor < 2 ^ 49 ∧
    capCheck {} giveDev (giveGrp.rc 4) party0 needGive (giveGrp.rc 4).cursor 16 = .ok ∧ 2 ^ 49 ≤ (giveGrp.rc 4).cursor ∧
    (giveGrp.rc 4).cursor < 2 ^ 50 ∧ (giveGrp.rc 4).kind ≠ 2 ∧ giveGrp.count .fx < 1023 ∧
    1023 ≤ ({ giveGrp with flights := List.replicate 1023 ⟨.fx, 1, 1, false, 0⟩ } : Group).count .fx ∧
    placeOf giveDev (giveGrp.rc 4) (giveGrp.rc 4).cursor = .remote (2 ^ 49 + 2 ^ 40) := by unfold trapsNow; decide +kernel

/-! ### Witnesses: lane words -/

/-- A wide word of a type with its fields; MS, LE and the last-use bits are clear. -/
def wide (ty aux5 aux2 : Nat) (dst : BitVec 8) (sa sb sc : BitVec 9) (imm : BitVec 23) : Wide :=
  ⟨false, 0, dst, false, false, 0, sa, false, sb, false, sc, false, BitVec.ofNat 16 (4096 * ty + 4 * aux5 + aux2), imm⟩
/-- v1 = 7 and v2 = 2 in lane 0; every other register reads zero. -/
def file0 : LaneFile := { val := [(64, 7), (128, 2)], mapped := [(1, true), (2, true)] }
def laneGrp : Group := { capGrp with queue := [blk], lanes := file0 }
def laneSt : State := st laneGrp

/-- The conditions of `laneReady` that can be decided. -/
def readyB (s : State) (f : LaneForm) : Bool :=
  !lanesPending s.mach && !spilledUse f s.grp && f.regs.all fun r => decide (r < s.grp.vregs)
theorem ready_of {s : State} {f : LaneForm} (h : readyB s f = true) (n : noEventTrap s) : laneReady s f := by
  simp only [readyB, Bool.and_eq_true, Bool.not_eq_true', List.all_eq_true, decide_eq_true_eq] at h
  exact ⟨h.1.1, h.1.2, h.2, n⟩
theorem calm_of {s : State} (h : (s.dev.ctx s.grp.ctx).nev = []) : noEventTrap s := fun c => by simp [h, Tab.getD]
theorem alone_of {s : State} {op10 : Nat} {w : Wide} (h : readyB s (formOf s op10 w) = true) (n : noEventTrap s)
    (c : s.grp.chain = none) : aloneReady s op10 w := ⟨ready_of h n, c⟩

theorem wit_LaneResults :
    laneRule (.vSub .i32 (wide 2 0 0 3 1 2 0 0)) = some (pairableRule 0x08 .sub (wide 2 0 0 3 1 2 0 0)) ∧
    laneReady laneSt (formOf laneSt 0x08 (wide 2 0 0 3 1 2 0 0)) ∧ laneGrp.chain = none ∧ (wide 2 0 0 3 1 2 0 0).le = false :=
  ⟨rfl, ready_of (by decide) (calm_of rfl), rfl, rfl⟩
theorem wit_LaneOperands :
    (∃ c, (some (freshChain laneGrp)) = some c) ∧ laneGrp.chain = none ∧ (264 : BitVec 9).toNat = 264 ∧ (0 : Nat) < 64 ∧
    laneGrp.index < 2 ^ 32 ∧ laneGrp.teamNo < 2 ^ 32 ∧ laneGrp.width ≤ 64 ∧ blk.view.tile < 8 := ⟨⟨_, rfl⟩, by decide⟩
theorem wit_IntegerLaneOperations : (7 : Nat) ≤ 7 ∧ 63 < tyWidth 7 := by decide
theorem wit_IntegerLaneDivision :
    readInt 2 0 = 0 ∧ readInt 2 7 ≠ 0 ∧ readInt 0 0x80 = -(2 ^ (tyWidth 0 - 1) : Nat) ∧ readInt 0 0xFF = -1 := by decide
theorem wit_RoundingModes : (0 : Nat) < 2 ∧ 6 % 2 = 0 ∧ 7 % 2 ≠ 0 := by decide
/-- Patterns of f32: 1, the least subnormal, both infinities, the quiet and a signalling NaN, −0. -/
theorem wit_FloatingResults :
    (∀ x ∈ [0x3F800000, 1, 0x7F800000, 0xFF800000, 0x7FC00000, 0x7F800001, 0x80000000], x < 2 * fpSign 8) ∧
    fpFinite 8 (fpIn 8 false 0x3F800000) ∧ fpFinite 8 (fpIn 8 true 1) ∧ fpIn 8 true 1 = 0 ∧ fpIn 8 false 1 = 1 ∧
    fpInf 8 (fpIn 8 false 0x7F800000) ∧ fpInf 8 (fpIn 8 true 0xFF800000) ∧ fpNeg 8 0xFF800000 = true ∧ fpNeg 8 0x7F800000 = false ∧
    fpNan 8 0x7FC00000 ∧ ¬ fpSignal 8 0x7FC00000 ∧ fpSignal 8 0x7F800001 ∧ 0x80000000 % fpSign 8 = 0 ∧ 0x3F800000 % fpSign 8 ≠ 0 ∧
    ¬ fpNan 8 0x3F800000 ∧ fpSignal 9 0x7C01 ∧ fpInf 9 0x7C00 ∧ fpFinite 10 0x7F7F ∧ fpNan 10 0x7FC0 := by
  unfold fpFinite fpInf fpNan fpSignal; decide
theorem wit_FloatingReductions :
    ([0x3F800000, 0] : List Word) ≠ [] ∧ (∀ x ∈ [0x3F800000, 0], fpFinite 8 x) ∧ (∃ x ∈ [0, 0x7FC00000], fpNan 8 x) ∧
    ((∀ x ∈ [0x7F800000, 0xFF800000], ¬ fpNan 8 x) ∧ fpTop 8 ∈ [0x7F800000, 0xFF800000] ∧ fpSign 8 + fpTop 8 ∈ [0x7F800000, 0xFF800000]) ∧
    fpSign 8 + fpTop 8 ∉ [0x7F800000, 0] := by
  unfold fpFinite fpNan; decide
theorem wit_BlockValues :
    (∀ t ∈ [(Machine.Num.fin true 3 2, Machine.Num.fin false 1 4)], (∃ neg n d, t.1 = .fin neg n d ∧ 0 < d) ∧ ∃ neg n d, t.2 = .fin neg n d ∧ 0 < d) ∧
    0 < (⟨3, 2⟩ : SFrac).den ∧ (∃ t ∈ [(Machine.Num.nan true, Machine.Num.fin false 1 4)], ∃ b, t.1 = .nan b) :=
  ⟨fun t h => by rw [List.mem_singleton.1 h]; exact ⟨⟨_, _, _, rfl, by decide⟩, ⟨_, _, _, rfl, by decide⟩⟩, by decide, _, List.mem_singleton.2 rfl, _, rfl⟩
theorem wit_ConversionValues :
    fpFinite 9 (fpIn 9 true 0x3C01) ∧ fpInf 9 (fpIn 9 true 0xFC00) ∧ fpNan 9 (fpIn 9 false 0x7C01) ∧ (3 : Nat) ≤ 7 ∧
    (codeVal 0x80 = none ∧ scaleVal 0x3FF = none) ∧ (∃ u, codeVal 0x41 = some u) ∧ (∃ v, scaleVal 0x200 = some v) ∧
    bit (0x80 : Word) 7 = true ∧ bit (0x7F : Word) 7 = false ∧ bit (0x8000 : Word) 15 = true ∧ 0x100 % 256 = 0 ∧ 0x101 % 256 ≠ 0 := by
  refine ⟨by unfold fpFinite; decide, by unfold fpInf; decide, by unfold fpNan; decide, by decide, by simp [codeVal, scaleVal], ?_, ?_, by decide,
    by decide, by decide, rfl, by decide⟩
  · exact ⟨_, by simp only [codeVal]; rfl⟩
  · exact ⟨_, by simp [scaleVal]; rfl⟩
theorem wit_D8Codes :
    codeVal 0x80 = none ∧ codeVal 0 = some 0 ∧ scaleVal 0x3FF = none ∧ scaleVal 0x200 = some 1 ∧
    (10 : ℚ) ^ 10 < 10 ^ 11 / 1 / 1 ∧ (1 : ℚ) / 10 ^ 11 / 1 < 1 / 2 / 10 ^ 10 ∧ (1 : ℚ) / 2 / 10 ^ 10 ≤ 3 / 2 / 1 ∧ (3 : ℚ) / 2 / 1 ≤ 10 ^ 10 := by
  refine ⟨by simp [codeVal], by simp [codeVal], by simp [scaleVal], by norm_num [scaleVal], ?_, ?_, ?_, ?_⟩ <;> norm_num
theorem wit_PhasorValues :
    0x40 / 2 ^ 7 % 2 = 0 ∧ 0x80 / 2 ^ 7 % 2 = 1 ∧ phResolve 12 131072 0 1 = some (0, 0xFFFF) ∧ phResolve 13 0 0 4 = none ∧
    (phResolve 12 92682 92682 1).map (·.1) = some 16 ∧ (phResolve 12 (-92682) 92682 1).map (·.1) = some 48 := by decide +kernel
theorem wit_CordicSpecials :
    fpNan 8 0x7FC00000 ∧ fpInf 8 0xFF800000 ∧ 0x80000000 % fpSign 8 = 0 ∧ fpTop 8 = 0x7F800000 ∧ fpBias 8 * fpNormal 8 = 0x3F800000 ∧
    (fpNeg 8 0xBF800000 = true ∧ 0xBF800000 % fpSign 8 ≠ 0 ∧ ¬ fpNan 8 0xBF800000 ∧ fpFinite 8 0xBF800000) ∧ fpNeg 8 0 = false := by
  unfold fpNan fpInf fpFinite; decide
theorem wit_CordicBound :
    (4 : Nat) ≤ 14 ∧ 14 ≤ 28 ∧ fpFinite 8 0x42A20000 ∧ 0x42A20000 % fpSign 8 ≠ 0 ∧
    (∃ x, cordicCase (fmtOf 8) .rsq ((fmtOf 8).read false 0x42A20000) (.fin false 0 1) = .value x ∧ 0 < x.den) ∧
    (∃ x, cordicCase (fmtOf 8) .sin ((fmtOf 8).read false 0x42A20000) (.fin false 0 1) = .value x ∧ 0 < x.den) ∧ 0 < fpVal 8 0x42A20000 := by
  refine ⟨by decide, by decide, by unfold fpFinite; decide, by decide, ⟨_, rfl, by decide +kernel⟩, ⟨_, rfl, by decide +kernel⟩, ?_⟩
  norm_num [fpVal, fpMag, fpNeg, fpSign, fpShape, fpNormal, fpBias]
/-- A word that names register 16, which is past the allotment, and a table entry that will write lane registers. -/
def farWord : Wide := wide 2 0 0 16 1 2 0 0
def entryOf (kind : MxKind) : MxEntry :=
  { id := 9, gid := 1, flight := 1, team := 1, prio := 0, prc := false, ctx := 1, width := 32, rc := ⟨.f16, 0, 0, false, 0⟩
    kind := kind, running := false, passed := 0, loads := [] }
def pendSt : State := { laneSt with dev := { dev0 with clusters := [(0, { table := [entryOf (.read 0 0 1 1)] })] } }
theorem wit_LaneWordWaitsAndRange :
    (∃ op10 w, (Instr.vAddInt farWord).wide? = some (op10, w) ∧ op10 < 0x3C0 ∧ formOf laneSt 0x080 farWord = formOf laneSt op10 w) ∧
    (∃ ce x y, (Instr.vNop (.pair false 0 (.nop 0))).pair? = some (ce, x, y)) ∧
    lanesPending pendSt.mach = true ∧ lanesPending laneSt.mach = false ∧
    spilledUse (formOf laneSt 0x080 (wide 2 0 0 3 1 2 0 0)) { laneGrp with spilledRegs := [(1, 1)] } = true ∧
    spilledUse (formOf laneSt 0x080 farWord) laneGrp = false ∧ (∃ r ∈ (formOf laneSt 0x080 farWord).regs, laneGrp.vregs ≤ r) ∧
    laneGrp.chain = none ∧ laneGrp.inHandler = false ∧ laneGrp.trapv ≠ 0 :=
  ⟨⟨0x080, farWord, rfl, by decide, rfl⟩, ⟨_, _, _, rfl⟩, by decide, by decide, by decide, by decide, ⟨16, by decide, by decide⟩, rfl, rfl,
    by decide⟩
/-- `v.div` of i32 by zero in every lane but lane 0. -/
def divWord0 : Wide := wide 2 0 0 3 1 2 0 0
def numSt : State := { laneSt with dev := idivTraps }
theorem wit_NumericalTraps :
    (let r := arithRule 0x090 divWord0 fun a b _ => divLane divWord0.ty false a b
     let f := formOf numSt r.op10 divWord0
     let n (c : Nat) : Nat := lanesWith f.run fun l => bit (r.out laneGrp laneGrp.view l).ev c
     laneRule (.vDiv divWord0) = some r ∧ lanesPending numSt.mach = false ∧ spilledUse f laneGrp = false ∧
     (∀ k ∈ f.regs, k < laneGrp.vregs) ∧ laneGrp.chain = none ∧ divWord0.le = false ∧ laneGrp.inHandler = false ∧ laneGrp.trapv ≠ 0 ∧
     (n 4 ≠ 0 ∧ (countClass numSt.dev laneGrp.ctx 4 (n 4)).2 = true) ∧
     ∀ c, c < 4 → ¬ (n c ≠ 0 ∧ (countClass numSt.dev laneGrp.ctx c (n c)).2 = true)) :=
  ⟨rfl, by decide +kernel, by decide +kernel, by decide +kernel, rfl, rfl, rfl, by decide, by decide +kernel, by decide +kernel⟩
/-- The first and the last word of a chain of two. -/
def openWord : Wide := { wide 2 0 0 3 1 2 0 0 with le := true }
def closeWord : Wide := { wide 2 0 0 4 1 256 0 0 with ce := true }
def chainSt : State := st { laneGrp with lpos := 1, chain := some { freshChain laneGrp with words := 1 } }
/-- A word of a chain that goes on (LT = 1), the eighth of a chain, and one that is not chain-eligible. -/
def midWord : Wide := { closeWord with ce := false, le := true }
def longSt : State := st { laneGrp with lpos := 1, chain := some { freshChain laneGrp with words := 7 } }
def lastSt : State := st { laneGrp with lpos := 3, chain := some { freshChain laneGrp with words := 1 } }
theorem wit_ChainEnds :
    laneRule (.vAdd .i32 midWord) = some (pairableRule 0x00 .add midWord) ∧ midWord.ce = false ∧
    (∃ c, chainSt.grp.chain = some c ∧ c.words < 7 ∧ lastOfBlock chainSt.grp = false ∧ laneReady chainSt (formOf chainSt 0 midWord)) ∧
    (∃ c, longSt.grp.chain = some c ∧ 7 ≤ c.words ∧ laneReady longSt (formOf longSt 0 midWord)) ∧
    (∃ c, lastSt.grp.chain = some c ∧ lastOfBlock lastSt.grp = true ∧ laneReady lastSt (formOf lastSt 0 midWord)) ∧
    (∃ i r, laneRule i = some r ∧ 0x180 ≤ r.op10 ∧ laneReady chainSt (formOf chainSt r.op10 r.w)) := by
  refine ⟨rfl, rfl, ⟨_, rfl, by decide, by decide, ready_of (by decide) (calm_of rfl)⟩, ⟨_, rfl, by decide, ready_of (by decide) (calm_of rfl)⟩,
    ⟨_, rfl, by decide, ready_of (by decide) (calm_of rfl)⟩, ?_⟩
  exact ⟨.vSin (wide 8 0 0 3 1 267 267 0), _, rfl, by decide, ready_of (by decide) (calm_of rfl)⟩
theorem wit_LaneChains :
    laneRule (.vAdd .i32 openWord) = some (pairableRule 0x00 .add openWord) ∧ laneReady laneSt (formOf laneSt 0 openWord) ∧
    lastOfBlock laneGrp = false ∧ laneGrp.chain = none ∧ openWord.le = true ∧ openWord.ce = false ∧
    laneReady chainSt (formOf chainSt 0 closeWord) ∧ lastOfBlock chainSt.grp = false ∧
    (∃ c, chainSt.grp.chain = some c ∧ c.words < 7) ∧ closeWord.ce = true :=
  ⟨rfl, ready_of (by decide) (calm_of rfl), by decide, rfl, rfl, rfl, ready_of (by decide) (calm_of rfl), by decide,
    ⟨_, rfl, by decide⟩, rfl⟩
/-- v3 = v1 + v2 in slot X; slot Y reads v3. -/
def nar (dst sa sb sc : BitVec 8) : Narrow := ⟨dst, false, sa, false, sb, false, sc, false, 0⟩
def slotX : Slot := .op .add .i32 (nar 3 1 2 0)
def slotY : Slot := .op .mul .i32 (nar 4 3 3 0)
theorem wit_PairWords :
    (Instr.vNop (.pair false 0 slotY)).pair? = some (false, .nop 0, slotY) ∧ (∃ i : Instr, i.pair? = some (true, slotX, slotY)) ∧
    laneReady laneSt (pairForm true slotX slotY laneGrp) ∧ laneGrp.chain = none ∧
    laneReady laneSt (formOf laneSt 0x07F (wide 0 0 0 0 0 0 0 0)) ∧ (wide 0 0 0 0 0 0 0 0).le = false :=
  ⟨rfl, ⟨.vAddNarrow true .i32 (nar 3 1 2 0) slotY, rfl⟩, ready_of (by decide) (calm_of rfl), rfl, ready_of (by decide) (calm_of rfl), rfl⟩

/-! ### Witnesses: the matrix engine -/

/-- s1 = 128 (an offset), s2 = 64 (a length), s3 = 8 (unaligned), s4 = 0x21 (slot 1, one step), s5 = 786,432. -/
def mxGrp : Group := { capGrp with s := [(1, 128), (2, 64), (3, 8), (4, 1), (5, 786432)] }
def mxDev (recs : Tab MxRec) (cl : Cluster) : Dev :=
  { dev0 with teams := [(1, { launch := 1, ctx := 1, status := .resident, members := [1], scratchSize := 4096, recs := recs })]
              clusters := [(0, cl)] }
def mxSt (recs : Tab MxRec) (cl : Cluster) : State := { grp := mxGrp, dev := mxDev recs cl }
def rec0 : MxRec := ⟨.f16, 1, 0, false, 128⟩
/-- Unit 0 belongs to the team 7. -/
def taken : Cluster := { unitOwner := [(0, some 7)] }

theorem wit_OperandLoads :
    (let p := engineParty dev0 5 0 1 true
     busy.queue ≠ [] ∧ 1023 ≤ ({ mxGrp with flights := List.replicate 1023 ⟨.mx, 1, 1, false, 0⟩ } : Group).count .mx ∧
     mxGrp.count .mx < 1023 ∧ capCheck8 (mxGrp.rc 3) p needOperand false 0x8000 64 = some 19 ∧ trapsNow mxGrp ∧
     capCheck8 (mxGrp.rc 1) p needOperand true 0x4000 64 = none ∧ (mxGrp.rs 3).toNat % 16 ≠ 0 ∧
     786432 < (mxGrp.rs 5).toNat + (mxGrp.rs 2).toNat ∧ (mxGrp.rs 1).toNat % 16 = 0 ∧ (mxGrp.rs 2).toNat % 16 = 0 ∧
     (mxGrp.rs 1).toNat + (mxGrp.rs 2).toNat ≤ 786432 ∧ ¬ mayClaim taken.unitOwner 1 (blocksOf 1024 128 64) ∧
     mayClaim [] 1 (blocksOf 1024 128 64) ∧ mxGrp.queue = [] ∧ mxGrp.dual = false ∧ mxGrp.shadow = false ∧ (mxGrp.rs 2).toNat ≠ 0 ∧
     (mxGrp.rs 0).toNat = 0 ∧ mxGrp.live = true ∧ mxGrp.flights = []) := by
  refine ⟨by decide, by decide +kernel, by decide, by decide, ⟨rfl, rfl, by decide⟩, by decide, by decide, by decide, by decide,
    by decide, by decide, fun h => absurd (h 0 (by decide) 7 rfl) (by decide), fun _ _ o h => by simp [Tab.getD] at h, rfl, rfl, rfl,
    by decide, by decide, rfl, rfl⟩
theorem wit_Reservations :
    busy.queue ≠ [] ∧ ({ mxGrp with width := 16 } : Group).width = 16 ∧ trapsNow mxGrp ∧ mxGrp.width = 32 ∧
    (mxGrp.rs 3).toNat % 128 ≠ 0 ∧ 786432 < (mxGrp.rs 5).toNat + 3072 ∧ (mxGrp.rs 1).toNat % 128 = 0 ∧
    (mxGrp.rs 1).toNat + 3072 ≤ 786432 ∧ 1 % 4 ≠ 0 ∧ (mxGrp.rs 4).toNat % 32 % 1 = 0 ∧ (mxGrp.rs 4).toNat % 32 + 1 ≤ 32 ∧
    ¬ mayClaim taken.unitOwner 1 (blocksOf 1024 128 3072) ∧ mayClaim [] 1 (blocksOf 1024 128 3072) ∧ mayClaim [] 1 [1] ∧
    32 ≤ ((List.range 32).map fun k => (k, rec0)).length ∧ (mxSt [] {}).recs.length < 32 ∧ mxGrp.queue = [] ∧
    32 ≤ recordsUsed (mxDev ((List.range 32).map fun k => (k, rec0)) {}) (clusterKey 0 0) ∧
    recordsUsed (mxDev [(0, rec0)] {}) (clusterKey 0 0) < 32 ∧ (mxSt [(0, rec0)] {}).recs.find? 1 = none ∧
    ∀ j, j < 1 → ((mxSt [(0, rec0)] {}).recs.find? j).isSome = true := by
  refine ⟨by decide, rfl, ⟨rfl, rfl, by decide⟩, rfl, by decide, by decide, by decide, by decide, by decide, by decide, by decide,
    fun h => absurd (h 0 (by decide) 7 rfl) (by decide), fun _ _ o h => by simp [Tab.getD] at h, fun _ _ o h => by simp [Tab.getD] at h,
    by decide, by decide, rfl, by decide, by decide, by decide, by decide⟩
theorem wit_ReservationWords :
    busy.queue ≠ [] ∧ mxGrp.queue = [] ∧ (mxSt [] {}).recs.find? 0 = none ∧ (mxSt [(0, rec0)] {}).recs.find? 0 = some rec0 ∧
    rec0.slot < 32 ∧ rec0.pm1 < 256 ∧ rec0.off % 128 = 0 ∧ recEnd rec0 ≤ 786432 ∧ trapsNow mxGrp ∧
    32 ≤ (List.replicate 32 (entryOf .zero)).length ∧ (mxSt [(0, rec0)] {}).cluster.table.length < 32 ∧ mxGrp.count .mx < 1023 ∧
    mxGrp.dual = false ∧ mxGrp.shadow = false := by unfold trapsNow; decide
/-- A pass of f16 with A in v0-v15 and record 0 step 0 (B reads zero); a read of one column. -/
def mmaWord : Wide := wide 9 0 0 0 0 267 267 0
def mxrWord : Wide := wide 8 0 0 3 0 267 267 0
def mxLane (recs : Tab MxRec) (cl : Cluster) : State :=
  { grp := { laneGrp with vregs := 32 }, dev := mxDev recs cl }
theorem wit_MatrixLaneWords :
    laneTraps laneGrp ∧ aloneReady (mxLane [(0, rec0)] {}) 0x340 mmaWord ∧ aloneReady (mxLane [(0, rec0)] {}) 0x341 mxrWord ∧
    ({ laneGrp with width := 16 } : Group).width = 16 ∧ laneGrp.width ≠ 16 ∧
    ({ laneGrp with m := [(1, 1)] } : Group).present &&& ~~~(1 : Word) ≠ 0 ∧
    laneGrp.present &&& ~~~(runMask laneGrp laneGrp.view 0) = 0 ∧ (mxLane [] {}).recs.find? 0 = none ∧
    (mxLane [(0, rec0)] {}).recs.find? (mxSel laneGrp laneGrp.view mmaWord 0xFFFFFFFF % 32) = some rec0 ∧
    mxFmtOf mmaWord.ty = rec0.fmt ∧ rec0.two = decide (laneGrp.width = 64) ∧ dev0.pkg.stage ≠ 2 ∧ laneGrp.mxLatch = none ∧
    rec0.pm1 < 1 ∧ mxSel laneGrp laneGrp.view mmaWord 0xFFFFFFFF / 256 % 256 ≤ rec0.pm1 ∧ mxPhasor rec0.fmt = false ∧
    32 < 31 + 2 ∧ (mxLane [(0, rec0)] {}).cluster.table.length < 32 ∧ laneGrp.count .mx < 1023 ∧
    32 ≤ (List.replicate 32 (entryOf .zero)).length :=
  ⟨⟨rfl, rfl, by decide⟩, alone_of (by decide) (calm_of rfl) rfl, alone_of (by decide) (calm_of rfl) rfl, rfl, by decide, by decide,
    by decide, by decide, by decide, by decide, by decide, by decide, rfl, by decide, by decide, by decide, by decide, by decide, by decide,
    by decide⟩
def entry0 : MxEntry := entryOf .zero
def grantSt (e : MxEntry) : State := { grp := { mxGrp with flights := [⟨.mx, 1, 1, false, 0⟩] }, dev := mxDev [(0, rec0)] { table := [e] } }
theorem wit_ArbiterChoice :
    ((grantSt entry0).dev.cluster 0).table.map (·.id) = [9] ∧ (((grantSt entry0).dev.cluster 0).table.map (·.id)).Nodup ∧
    entry0 ∈ ((grantSt entry0).dev.cluster 0).table ∧ entry0.running = false ∧ entry0.loads = [] ∧
    (∀ o ∈ ((grantSt entry0).dev.cluster 0).table.takeWhile (fun o => o.id ≠ entry0.id), ∀ k ∈ recSlots o.rc, k ∉ recSlots entry0.rc) ∧
    ¬ (32 ≤ entry0.passed) ∧ 32 ≤ ({ entry0 with passed := 32 } : MxEntry).passed := by decide
theorem wit_MatrixGrants :
    ((grantSt entry0).dev.cluster 0).table = [entry0] ∧ entry0.loads = [] ∧ noEventTrap (grantSt entry0) ∧ entry0.ctx = mxGrp.ctx ∧
    entry0.gid = mxGrp.gid ∧ mxGrp.live = true ∧ mxGrp.dual = false ∧ entry0.running = false ∧ entry0.kind = .zero ∧
    entry0.rc.slot + recHeld entry0.rc ≤ 32 ∧ (entryOf (.pass .f16 0 [] [])).kind = .pass .f16 0 [] [] ∧ mxPhasor .f16 = false ∧
    (entryOf (.write 31 1 1 [])).kind = .write 31 1 1 [] ∧ 31 + 1 ≤ 32 ∧ (entryOf (.read 3 31 1 1)).kind = .read 3 31 1 1 ∧
    ({ entry0 with running := true } : MxEntry).running = true ∧ firstOn (grantSt entry0).grp .mx entry0.flight ∧
    (let e : MxEntry := { entryOf (.pass .p8 0 [] []) with rc := ⟨.p8, 4, 0, false, 128⟩ }
     e.kind = .pass .p8 0 [] [] ∧ mxPhasor .p8 = true ∧ mxPhasor e.rc.fmt = true ∧ (({} : Cluster).phRead 4096).n ≠ 2 ^ 32 - 1 ∧
     (({ accBad := [(4096, true)] } : Cluster).phRead 4096).n = 2 ^ 32 - 1 ∧ rowPoison {} { e with prc := true } 0 [] [(0, true)] 0 0 = true ∧
     (rowPoison {} e 0 [] [] 0 0 || colPoison {} e.rc 0 0) = false) ∧
    (entryOf (.resolve 12 8 31 1 1)).kind = .resolve 12 8 31 1 1 ∧ (entryOf (.zero)).prc = false :=
  ⟨by decide, rfl, calm_of rfl, rfl, rfl, rfl, rfl, rfl, rfl, by decide, rfl, rfl, rfl, by decide, rfl, rfl, ⟨_, rfl, rfl⟩, by decide +kernel, rfl, rfl⟩
def load0 : LoadOp :=
  { id := 9, gid := 1, flight := 1, die := 0, core := 0, src := capOf 0 0x7FF 5 0x4000 64, off := 128, len := 64, colour := 5, part := 0
    prc := false, ctx := 1, team := 1 }
def loadSt (o : LoadOp) : State := { grp := { mxGrp with flights := [⟨.mx, 1, 1, false, 0⟩] }, dev := mxDev [] { loads := [o] } }
theorem wit_OperandLoadCompletes :
    (let d := (loadSt load0).dev
     let p := engineParty d 5 0 1 true
     (d.cluster 0).loads = load0 :: [] ∧ (∀ e ∈ (d.cluster 0).table, e.gid ≠ load0.gid ∨ load0.id ≤ e.id) ∧ load0.src.kind = 0 ∧
     leaves d load0.src.cursor = false ∧ ((loadSt load0).mach.group? load0.gid).isSome = true ∧
     reach {} d p false load0.src 0x4000 64 = .all ∧ reach {} d p false load0.src 0x2000000 64 = .refused 0 ∧ d.errors = []) ∧
    (loadSt load0).mach.group? 1 = some (loadSt load0).grp ∧ firstOn (loadSt load0).grp .mx 1 :=
  ⟨by decide, rfl, ⟨_, rfl, rfl⟩⟩

/-! ### Witnesses: lane memory -/

/-- Quad v4-v7 holds in lane 0 DATA [0x4000, 0x5000), in lane 1 nothing; mask m1 names lane 0, m2 lane 1. -/
def quadFile : LaneFile :=
  let c := (capOf 0 0x7FF 5 0x4000 0x1000).bits
  { val := (List.range 4).map fun j => (64 * (4 + j), c.extractLsb' (32 * j) 32)
    mapped := (List.range 4).map fun j => (4 + j, true), qtag := [(64, true)] }
def memGrp : Group := { laneGrp with lanes := quadFile, queue := [{ blk with view := { c := caps, m := [(1, 1), (2, 2)] } }], m := [(1, 1), (2, 2)] }
def memSt : State := st memGrp
/-- The word of a type through quad 1 (or `c`1), at a = v0 = 0, under a mask; its data in v1, its destination v8. -/
def memWord (ty : Nat) (ms : BitVec 3) (k : Nat) : Wide := { wide ty 0 0 8 0 1 0 0 with ms := ms, mod := BitVec.ofNat 16 (4096 * ty + 2 * k) }

theorem wit_LaneAccessTraps :
    laneAccessForm (.vLd (memWord 2 2 1)) = some (0x280, memWord 2 2 1, false, needLoad, 4) ∧ aloneReady memSt 0x280 (memWord 2 2 1) ∧
    laneTraps memGrp ∧ bit (runMask memGrp memGrp.view 2) 1 = true ∧
    laneCheck memSt needLoad 4 (laneAt memSt (memWord 2 2 1) false 1) = .fail 16 ∧
    (∀ l < 64, bit (runMask memGrp memGrp.view 2) l = true → l = 1) :=
  ⟨rfl, alone_of (by decide) (calm_of rfl) rfl, ⟨rfl, rfl, by decide⟩, by decide, by decide, by decide⟩
theorem wit_LaneLoads :
    laneAccessForm (.vLd (memWord 2 1 1)) = some (0x280, memWord 2 1 1, false, needLoad, 4) ∧ aloneReady memSt 0x280 (memWord 2 1 1) ∧
    lanesPass memSt needLoad 4 (runMask memGrp memGrp.view 1) (fun l => laneAt memSt (memWord 2 1 1) false l) ∧
    (∀ l, l < 64 → bit (runMask memGrp memGrp.view 1) l = true →
      placeOf dev0 (laneAt memSt (memWord 2 1 1) false l).cap (laneAt memSt (memWord 2 1 1) false l).addr = .local_ 0x4000) ∧
    (noCopyHeld memSt 0x4000 ∧ soundLine memSt 0x4000) ∧ memGrp.dual = false ∧ memGrp.count .ld < 1023 ∧
    laneAccessForm (.vCld (memWord 0 1 1)) = some (0x284, memWord 0 1 1, false, needLoad, 16) ∧ aloneReady memSt 0x284 (memWord 0 1 1) ∧
    (standing { memSt with dev := badMem } 4 (laneAt memSt (memWord 2 1 1) false 0)).poison = true ∧ memGrp.prc = false ∧
    lanesRoom memGrp (runMask memGrp memGrp.view 1) (fun l => laneAt memSt (memWord 2 1 1) false l) := by
  refine ⟨rfl, alone_of (by decide) (calm_of rfl) rfl, ?_, ?_, ⟨⟨rfl, rfl⟩, rfl⟩, rfl, by decide, rfl, alone_of (by decide) (calm_of rfl) rfl,
    by decide, rfl, fun _ => by decide⟩
  · unfold lanesPass; decide
  · decide
theorem wit_LaneStores :
    laneAccessForm (.vSst (memWord 2 1 1)) = some (0x283, memWord 2 1 1, true, needStore, 4) ∧ aloneReady memSt 0x283 (memWord 2 1 1) ∧
    lanesPass memSt needStore 4 (runMask memGrp memGrp.view 1) (fun l => laneAt memSt (memWord 2 1 1) true l) ∧
    memGrp.dual = false ∧ memGrp.count .st < 1023 ∧ hostHoldsNothing memSt ∧
    placeOf dev0 (laneAt memSt (memWord 2 1 1) true 0).cap (laneAt memSt (memWord 2 1 1) true 0).addr = .local_ 0x4000 ∧
    (∀ l, memSt.dev.syncs.getD l false = false) ∧
    lanesPass memSt needStore 4 (runMask memGrp memGrp.view 1) (fun l => laneAt memSt (memWord 2 1 2) true l) ∧
    placeOf dev0 (laneAt memSt (memWord 2 1 2) true 0).cap (laneAt memSt (memWord 2 1 2) true 0).addr = .scratch 0 ∧
    (dev0.team 1).metScratch 0 4 = false ∧
    lanesRoom memGrp (runMask memGrp memGrp.view 1) (fun l => laneAt memSt (memWord 2 1 1) true l) := by
  refine ⟨rfl, alone_of (by decide) (calm_of rfl) rfl, ?_, rfl, by decide, fun _ => rfl, by decide, fun _ => rfl, ?_, by decide, rfl, fun _ => by decide⟩ <;>
    unfold lanesPass <;> decide
theorem wit_LaneAtomics :
    aloneReady memSt 0x300 (memWord 2 1 1) ∧ (memWord 2 1 1).ty ≤ 7 ∧ tyWidth (memWord 2 1 1).ty / 8 = 4 ∧
    lanesPass memSt needAtomic 4 (runMask memGrp memGrp.view 1) (fun l => laneAt memSt (memWord 2 1 1) false l) ∧ memGrp.dual = false ∧
    memGrp.shadow = false ∧ memGrp.prc = false ∧ hostHoldsNothing memSt ∧ memGrp.count .ld < 1023 ∧
    (∀ l, l < 64 → bit (runMask memGrp memGrp.view 1) l = true →
      placeOf dev0 (laneAt memSt (memWord 2 1 1) false l).cap (laneAt memSt (memWord 2 1 1) false l).addr = .local_ 0x4000) ∧
    dev0.syncs.getD (0x4000 / 64) false = false ∧ dev0.mem.anyPoison 0x4000 4 = false ∧ soundLine memSt 0x4000 ∧
    lanesRoom memGrp (runMask memGrp memGrp.view 1) (fun l => laneAt memSt (memWord 2 1 1) false l) := by
  refine ⟨alone_of (by decide) (calm_of rfl) rfl, by decide, by decide, ?_, rfl, rfl, rfl, fun _ => rfl, by decide, by decide, rfl, by decide, rfl,
    fun _ => by decide⟩
  unfold lanesPass; decide
/-- The same with the command block's capability in the quad of lane 0. -/
def cmdFile : LaneFile :=
  let c := (capOf 4 3 5 0x9000 64).bits
  { val := (List.range 4).map fun j => (64 * (4 + j), c.extractLsb' (32 * j) 32)
    mapped := (List.range 4).map fun j => (4 + j, true), qtag := [(64, true)] }
def cmdSt : State := st { memGrp with lanes := cmdFile }
/-- Both lanes 0 and 1 have it, and the engine of the core holds 31 operations. -/
def twoFile : LaneFile :=
  let c := (capOf 4 3 5 0x9000 64).bits
  { val := (List.range 8).map fun j => (64 * (4 + j / 2) + j % 2, c.extractLsb' (32 * (j / 2)) 32)
    mapped := (List.range 4).map fun j => (4 + j, true), qtag := [(64, true), (65, true)] }
def twoSt : State :=
  { grp := { memGrp with lanes := twoFile, queue := [{ blk with view := { c := caps, m := [(1, 3)] } }], m := [(1, 3)] }
    dev := { dev0 with clusters := [(0, { copies := List.replicate 31 copy0 })] } }
theorem wit_LaneCopies :
    aloneReady cmdSt 0x310 (memWord 0 1 1) ∧
    lanesPass cmdSt needCmd 64 (runMask cmdSt.grp cmdSt.grp.view 1)
      (fun l => ⟨l, quadCap cmdSt.grp (memWord 0 1 1).qk l, (quadCap cmdSt.grp (memWord 0 1 1).qk l).base.toNat⟩) ∧
    cmdSt.grp.dual = false ∧ cmdSt.grp.shadow = false ∧
    (∀ l, l < 64 → bit (runMask cmdSt.grp cmdSt.grp.view 1) l = true →
      placeOf dev0 (quadCap cmdSt.grp 1 l) (quadCap cmdSt.grp 1 l).base.toNat = .local_ 0x9000) ∧
    noCopyHeld cmdSt 0x9000 ∧ dev0.mem.anyPoison 0x9000 64 = false ∧ soundLine cmdSt 0x9000 ∧ 0x9000 % 64 = 0 ∧
    cmdSt.grp.entering = none ∧ 32 ≤ copiesHeld ⟨cmdSt.grp, { dev0 with clusters := [(0, { copies := List.replicate 32 copy0 })] }⟩ ∧
    (let m := runMask twoSt.grp twoSt.grp.view 1
     aloneReady twoSt 0x310 (memWord 0 1 1) ∧ copiesHeld twoSt.mach < 32 ∧ 32 - copiesHeld twoSt.mach < (lanesOf m).length ∧
     lanesPass twoSt needCmd 64 m (fun l => ⟨l, quadCap twoSt.grp (memWord 0 1 1).qk l, (quadCap twoSt.grp (memWord 0 1 1).qk l).base.toNat⟩)) ∧
    (lanesOf (runMask cmdSt.grp cmdSt.grp.view 1)).length ≤ 32 - copiesHeld cmdSt.mach ∧
    copiesHeld cmdSt.mach < 32 ∧ cmdSt.grp.count .cp < 1023 ∧ runMask cmdSt.grp cmdSt.grp.view 1 ≠ 0 ∧
    runMask cmdSt.grp cmdSt.grp.view 3 = 0 ∧ cmdSt.grp.live = true ∧ cmdSt.grp.flights = [] := by
  refine ⟨alone_of (by decide) (calm_of rfl) rfl, ?_, rfl, rfl, ?_, ⟨rfl, rfl⟩, ?_, rfl, rfl, rfl, ?_,
    ⟨alone_of (by decide) (calm_of rfl) rfl, ?_, ?_, ?_⟩, ?_⟩ <;> (try unfold lanesPass) <;> decide
theorem wit_LaneCapabilityWords :
    aloneReady memSt 0x286 (memWord 0 0 1) ∧ aloneReady memSt 0x289 (memWord 0 0 1) ∧ aloneReady memSt 0x287 (memWord 0 1 1) ∧
    aloneReady memSt 0x288 (memWord 0 1 1) ∧ aloneReady memSt 0x28A (memWord 0 1 1) ∧
    (∃ r, (derived (quadCap memGrp 1 0) ((quadCap memGrp 1 0).addc 0)) = .ok r) ∧ laneTraps memGrp ∧
    (quadCap memGrp 1 0).setb 0 false = .error 23 :=
  by
    refine ⟨?_, ?_, ?_, ?_, ?_, ⟨_, rfl⟩, ⟨rfl, rfl, by decide⟩, rfl⟩ <;> exact alone_of (by decide) (calm_of rfl) rfl

/-! ### Witnesses: lane control and exchange -/

theorem wit_StructuredWords :
    (∃ rule, nestRule (.vIf (wide 0 0 0 0 0 0 0 0)) = some (0x1C0, wide 0 0 0 0 0 0 0 0, rule) ∧ laneGrp.width ≤ 64 ∧
      ∀ l, ¬ (laneGrp.counter l < rule (laneGrp.counter l) true true ∧ laneGrp.nestLimit.toNat < rule (laneGrp.counter l) true true) ∧
        rule (laneGrp.counter l) true true < 256) ∧
    aloneReady laneSt 0x1C0 (wide 0 0 0 0 0 0 0 0) ∧ laneTraps laneGrp ∧
    (∃ rule, nestRule (.vLoop (wide 0 0 0 0 0 0 0 0)) = some (0x1C3, wide 0 0 0 0 0 0 0 0, rule) ∧
      (let g : Group := { laneGrp with nest := [(0, 254)] }
       bit g.present 0 = true ∧ g.counter 0 < rule (g.counter 0) true true ∧ g.nestLimit.toNat < rule (g.counter 0) true true)) :=
  ⟨⟨_, rfl, by decide, fun l => by simp [laneGrp, capGrp, grp0, Group.counter, Tab.getD]⟩, alone_of (by decide) (calm_of rfl) rfl,
    ⟨rfl, rfl, by decide⟩, ⟨_, rfl, by decide⟩⟩
theorem wit_MaskWords :
    (wide 2 0 0 1 1 2 0 0).dst.toNat % 8 ≠ 0 ∧ laneGrp.width ≤ 64 ∧ aloneReady laneSt 0x1D0 (wide 2 0 0 1 1 2 0 0) ∧
    aloneReady laneSt 0x1F0 (wide 12 0 0 1 1 2 0 0) ∧ aloneReady laneSt 0x3A0 (wide 2 0 0 1 1 2 0 0) :=
  ⟨by decide, by decide, alone_of (by decide) (calm_of rfl) rfl, alone_of (by decide) (calm_of rfl) rfl, alone_of (by decide) (calm_of rfl) rfl⟩
theorem wit_CompareConditions :
    (5 : Nat) < 6 ∧ fpNan 8 (fpIn 8 false (0x7FC00000 % (2 * fpSign 8))) ∧ fpSignal 8 (fpIn 8 false 0x7F800001) ∧
    ¬ fpNan 8 (fpIn 8 false (0xFF800000 % (2 * fpSign 8))) ∧ ¬ fpNan 9 (fpIn 9 true 0x7C00) ∧ ¬ fpNan 8 (fpIn 8 true 0x3F800000) := by
  unfold fpNan fpSignal; decide
theorem wit_BallotsAndVotes :
    aloneReady laneSt 0x1D8 (wide 0 0 0 1 0 0 0 0) ∧ aloneReady laneSt 0x1D9 (wide 0 0 0 1 0 0 0 0) ∧ tilesFit laneGrp laneGrp.view := by
  refine ⟨alone_of (by decide) (calm_of rfl) rfl, alone_of (by decide) (calm_of rfl) rfl, ?_⟩
  unfold tilesFit; decide
theorem wit_ExchangeWords :
    tilesFit laneGrp laneGrp.view ∧ aloneReady laneSt 0x210 (wide 2 0 0 3 1 0 0 0) ∧ aloneReady laneSt 0x210 (wide 2 0 1 3 1 0 0 0) ∧
    aloneReady laneSt 0x220 (wide 2 0 0 3 1 0 0 0) ∧ aloneReady laneSt 0x230 (wide 12 0 0 3 1 0 0 0) ∧ laneTraps laneGrp ∧
    ((tileRun laneGrp laneGrp.view 0xFFFFFFFF 0).any fun k => (exchSource laneGrp laneGrp.view (wide 2 0 1 3 1 0 0 0) k).2) = false ∧
    (let g : Group := { laneGrp with prc := true, lanes := { file0 with psn := [(64, true)] } }
     ((tileRun g g.view 0xFFFFFFFF 0).any fun k => (exchSource g g.view (wide 2 0 1 3 1 0 0 0) k).2) = true) := by
  refine ⟨?_, alone_of (by decide) (calm_of rfl) rfl, alone_of (by decide) (calm_of rfl) rfl, alone_of (by decide) (calm_of rfl) rfl,
    alone_of (by decide) (calm_of rfl) rfl, ⟨rfl, rfl, by decide⟩, by decide +kernel, by decide +kernel⟩
  unfold tilesFit; decide
theorem wit_Reductions : (7 : Nat) ≤ 7 ∧ tyIsFp 9 = true ∧ ((fmtOf 9).read false ((0x7E00 : Word).toNat % 2 ^ tyWidth 9)).isNan = true :=
  ⟨by decide, by decide, by decide⟩

/-! ### Witnesses: record words, groups and teams -/

/-- A route of recording 3 in the core's table. -/
def route0 : Route := { ctx := 1, fb := false, id := 3, prod := 0, cons := 1, slot := 0, word := 31, nwm1 := 31, pd := false, ord := 2 ^ 27 - 1, line := 7 }
def recGrp (r : Tab Role) : Group := { grp0 with s := [(1, 3), (2, 0x33), (3, 0x100)], roles := r }
def recDev (r : Recording) : Dev :=
  { dev0 with ctxs := [(1, { live := true, colour := 5, recs := [(3, r)] })], cores := [(0, { routes := [(0, route0)] })] }
theorem wit_RecordWords :
    busy.queue ≠ [] ∧ grp0.queue = [] ∧ grp0.live = true ∧ (recGrp []).roles.getD 3 .idle = .idle ∧ (recGrp []).shadow = false ∧
    (((recDev {}).ctx 1).recording 0 3).recorded = false ∧ (((recDev { recorded := true }).ctx 1).recording 0 3).recorded = true ∧
    (recGrp [(3, .recording)]).roles.getD 3 .idle = .recording ∧ (recGrp [(3, .replay)]).roles.getD 3 .idle = .replay ∧
    ({ recGrp [] with shadow := true } : Group).shadow = true := by decide
theorem wit_RecordReads :
    busy.queue ≠ [] ∧ grp0.queue = [] ∧ ((recGrp []).rs 1).toNat / 16 % 4 = 0 ∧ ((recGrp []).rs 2).toNat / 16 % 4 = 3 ∧
    ((routesOf (recDev {}) 0).filter fun e => e.2.2.ctx == 1 && e.2.2.id == 3).length < 2 ^ 32 ∧
    (((recDev {}).ctx 1).recording 0 3).joined < 2 ^ 12 ∧ ((recDev {}).core (coreKey 0 0)).routes.find? 1 = none ∧
    ((recDev {}).core (coreKey 0 0)).routes.find? 0 = some route0 ∧ route0.ctx ≠ 2 ∧ route0.ctx = grp0.ctx ∧
    ((recGrp []).rs 3).toNat / 256 % 2 = 1 ∧ route0.id < 16 ∧ route0.prod < 256 ∧ route0.cons < 256 ∧ route0.slot < 16 ∧
    route0.word < 32 ∧ route0.nwm1 < 32 ∧ route0.ord < 2 ^ 27 := by decide
def push0 : Push := ⟨9, 1, 1, 7, { excl := false, wts := 5, rts := 6, data := ⟨[], 0, 0⟩, pushed := true }⟩
theorem wit_PushArrivals :
    ({ dev0 with pushes := [push0] } : Dev).pushes.find? (fun p => p.id == 9) = some push0 ∧ dev0.pushes.find? (fun p => p.id == 9) = none ∧
    (∃ e, Tab.find? [(7, push0.copy)] push0.line = some e ∧ push0.copy.wts ≤ e.wts) ∧
    (dev0.core 1).copies.find? 7 = none ∧ (dev0.core 1).pushes.find? 7 = none ∧ (dev0.core 1).l1Used < l1Lines dev0 (1 / 192) (1 % 192) :=
  ⟨rfl, rfl, ⟨_, rfl, by decide⟩, rfl, rfl, by decide⟩
/-- A second group of the team. -/
def mate : Group := { grp0 with gid := 2, index := 1 }
def twoDev : Dev :=
  { dev0 with groups := [(2, mate)], nextId := 3
              teams := [(1, { launch := 1, ctx := 1, status := .resident, members := [1, 2], slots := [(0, 0), (0, 1)], kernel := { team := 2 } })] }
def tailGrp : Group := { grp0 with c := [(1, capOf 1 16 5 0x1000 128), (2, capOf 1 1 5 0x1000 128)] }
theorem wit_SystemWords :
    tailCause (tailGrp.rc 3) = some 16 ∧ tailCause (tailGrp.rc 2) = some 21 ∧ tailCause (tailGrp.rc 1) = none ∧ trapsNow tailGrp ∧
    busy.queue ≠ [] ∧ inFlight.flights ≠ [] ∧ heldGrp.flights = [] ∧ trapsNow heldGrp ∧ heldGrp.heldTraps = [⟨.mx, 1, 40, 0⟩] ∧
    grp0.queue = [] ∧ grp0.flights = [] ∧ grp0.heldTraps = [] ∧ (∃ x ∈ (twoDev.team 1).members, x ≠ grp0.gid) ∧
    (dev0.team 1).members = [grp0.gid] ∧ (dev0.team 1).tails = [] ∧ (dev0.team 1).partner = none ∧ (dev0.team 1).kernel.node = false ∧
    hostHoldsNothing st0 ∧ (dev0.ctx (dev0.launch (dev0.team 1).launch).ctx).endact ≠ 2 :=
  ⟨by decide, by decide, by decide, ⟨rfl, rfl, by decide⟩, by decide, by decide, rfl, ⟨rfl, rfl, by decide⟩, by decide, rfl, rfl, rfl,
    by decide, rfl, rfl, rfl, rfl, fun _ => rfl, by decide⟩
theorem wit_GroupEvents :
    (6 : Nat) < 7 ∧ (dev0.ctx 1).live = true ∧ (∃ e ∈ dev0.teams, e.2.ctx = 1 ∧ e.2.status = .resident) ∧
    (∀ e ∈ dev0.teams, e.2.ctx = 2 → e.2.status ≠ .resident) ∧ st0.mach.group? 1 = some grp0 ∧ st0.mach.group? 7 = none ∧
    turnApart { grp := grp0, dev := twoDev } ∧ ({ grp := grp0, dev := twoDev } : State).mach.group? 2 = some mate ∧ mate.gid = 2 ∧
    (∃ x ∈ (twoDev.team mate.team).members, x ≠ 2) ∧ mayIssue dev0 busy = true ∧ busy.queue ≠ [] ∧ grp0.gid = 1 ∧
    ((({ grp := { grp0 with spilledRegs := [(3, 1)] }, dev := twoDev } : State).mach.onGid 1 fun x =>
      { x with spilledRegs := x.spilledRegs.erase 3 }).onCore 0 0 |>.map physKept).sum ≤ 3072 := by
  refine ⟨by decide, rfl, by decide, by decide, rfl, rfl, rfl, rfl, rfl, by decide, by decide, by decide, rfl, by decide +kernel⟩
/-- The team of the group with fields changed. -/
def teamDev (f : Team → Team) : Dev := { dev0 with teams := dev0.teams.map fun e => (e.1, f e.2) }
theorem wit_Preemption :
    (dev0.team 1).partner = none ∧ ((teamDev fun t => { t with draining := true }).team 1).draining = true ∧
    (dev0.team 1).status = .resident ∧ (dev0.team 1).members ≠ [] ∧ (dev0.team 1).draining = false ∧ (dev0.team 1).preempt = false ∧
    (let d := { dev0 with launches := [(1, { ctx := 1, teams := 1, entered := 1, kernel := { coop := true } })] }
     (d.launch (d.team 1).launch).kernel.coop = true ∧ ∃ x ∈ d.teams, x.1 = 1 ∧ x.2 = d.team 1) ∧ (dev0.launch 1).kernel.coop = false ∧
    ([64] ≠ ([] : List Nat) ∧ [64].sum ≤ [64].length * ((dev0.team 1).elapsed + 64)) ∧ (dev0.launch 1).runs = [] ∧
    ((dev0.team 1).elig = true ∧ 64 * ((dev0.team 1).elapsed + (dev0.time - (dev0.team 1).since)) ≤
      ((st0.mach.groupsOf 1).map fun g => 4 * g.width * g.lanes.mapped.length).sum + (dev0.team 1).scratchSize) ∧
    ((teamDev fun t => { t with elig := false }).team 1).elig = false := by decide
theorem wit_SavesAndRestores :
    aloneTeam st0 1 ∧ (dev0.team 1).status = .resident ∧ ((teamDev fun t => { t with preempt := true }).team 1).preempt = true ∧
    (dev0.team 1).scratchMet = [] ∧ ((teamDev fun t => { t with scratchMet := [(0, true)] }).team 1).scratchMet ≠ [] ∧ hostHoldsNothing st0 ∧
    (∀ g ∈ st0.mach.groupsOf 1, g.flights = [] ∧ g.waitRemote = false) ∧ (∃ g ∈ (st inFlight).mach.groupsOf 1, g.flights ≠ []) ∧
    (let d := teamDev fun t => { t with status := .saved, slots := [] }
     (d.team 1).status = .saved ∧ fits d (d.parts.getD 0 {}) (d.team 1).kernel 1 0 5 = true ∧ fits d (d.parts.getD 0 {}) (d.team 1).kernel 1 4 5 = false ∧
     mayAdmit d 1 = true ∧ coopClaims d 1 0 5 = false ∧
     (d.team 1).savedUnits = [] ∧ (d.team 1).savedSlots = []) ∧
    (let d := teamDev fun t => { t with status := .relaunch, slots := [] }
     (d.team 1).status = .relaunch ∧ (d.team 1).shadow = false ∧ fits d (d.parts.getD 0 {}) (d.team 1).kernel 1 0 5 = true ∧
     mayAdmit d 1 = true ∧ coopClaims d 1 0 5 = false ∧ drainsAt d 1 0 5 1 = false) := by
  refine ⟨⟨rfl, rfl⟩, rfl, rfl, rfl, ?_, fun _ => rfl, ?_, ?_, ?_, ?_⟩ <;> decide +kernel
/-- Two copies of a group at a checkpoint, with a store held. -/
def dualState : DualState := { crc := 77, hold := [.store 0x4000 [1, 2] none false none false], waiting := true }
def primary : Group := { grp0 with dual := true, dualSt := dualState }
def shadow : Group := { grp0 with gid := 2, team := 2, dual := true, shadow := true, slot := 1, dualSt := dualState }
def dualDev (crc : Word) (elig : Bool) : Dev :=
  { dev0 with
    groups := [(2, { shadow with dualSt := { dualState with crc := crc } })], nextId := 3
    teams := [(1, { launch := 1, ctx := 1, status := .resident, members := [1], slots := [(0, 0)], kernel := { dual := true }, elig := elig, partner := some 2 }),
      (2, { launch := 1, ctx := 1, status := .resident, members := [2], slots := [(0, 1)], kernel := { dual := true }, shadow := true, partner := some 1 })] }
theorem wit_DualCheckpoints :
    (let s : State := { grp := primary, dev := dualDev 77 true }
     let t0 := s.dev.team 1
     t0.partner = some 2 ∧ t0.shadow = false ∧ t0.status = .resident ∧ s.mach.groupsOf 1 = [primary] ∧ s.mach.groupsOf 2 = [shadow] ∧
     (s.dev.team 2).partner = some 1 ∧ (s.dev.team 2).shadow = true ∧ s.mach.group? 1 = some primary ∧ s.mach.group? 2 = some shadow ∧
     primary.index = shadow.index ∧ primary.dualSt.waiting = true ∧ shadow.dualSt.waiting = true ∧ primary.arrived = none ∧
     shadow.arrived = none ∧ primary.dualSt.crc = shadow.dualSt.crc ∧ primary.causeWord = shadow.causeWord ∧ primary.tspc = shadow.tspc ∧
     primary.tlpc = shadow.tlpc ∧ leaves s.dev 0x4000 = false ∧ s.dev.syncs.getD (0x4000 / 64) false = false ∧
     primary.dualSt.hold = [.store 0x4000 [1, 2] none false none false] ∧ 1 ≠ 2 ∧ fwLocal.fwBusy s.regs s.dev (localAddr s.dev 0x4000) = false ∧
     fwLocal.homeTurns s.dev (localAddr s.dev 0x4000) = false ∧ ownsByte s.dev primary.ctx 0x4000 = true ∧ 0x4000 % 16 + 2 ≤ 16 ∧
     primary.gid ≠ shadow.gid ∧ primary.dualSt.fatal = false ∧ shadow.dualSt.fatal = false ∧
     ({ dualState with fatal := true } : DualState).fatal = true ∧ (s.dev.ctx primary.ctx).live = true ∧ t0.elig = true ∧ t0.mismatches = 0 ∧
     ((dualDev 78 true).groups.map fun e => e.2.dualSt.crc) = [78] ∧ ((dualDev 78 false).team 1).elig = false ∧
     ((dualDev 78 false).ctx t0.ctx).live = true) ∧ hostHoldsNothing { grp := primary, dev := dualDev 77 true } :=
  ⟨by decide, fun _ => rfl⟩

/-! ### Witnesses: dies, revocation, the postmaster core -/

def dieDev (x : Die) : Dev := { dev0 with dies := [(0, x)] }
/-- A line of HBM4 with a corrected bit and a MAC that does not fit; one of a carve-out with a double error. -/
def sickDev : Dev := { dev0 with errors := [(2, ⟨1, 0, true, 0⟩), (4, ⟨0, 0, false, 4⟩), (137438953472, ⟨0, 2, false, 0⟩)] }
/-- A pair of cores' team of 17 groups whose scratchpad has a corrected bit in each half. -/
def pairTeam : Team := { launch := 1, ctx := 1, scratchSize := 64, kernel := { team := 17 }, scratchSoft := [(3, true), (4, true)] }
theorem wit_StorageErrors :
    ({ st0 with agenda := [.upset (.line 2 ⟨1, 0, true, 0⟩)] } : State).agenda = .upset (.line 2 ⟨1, 0, true, 0⟩) :: [] ∧
    sickDev.errors.find? 2 = some ⟨1, 0, true, 0⟩ ∧ sickDev.errors.find? 4 = some ⟨0, 0, false, 4⟩ ∧ homeDie (128 * 2) = some 0 ∧ sickDev.errors.find? 137438953472 = some ⟨0, 2, false, 0⟩ ∧
    homeDie (128 * 137438953472) = some 0 ∧ Config.hbmTop ≤ 128 * 137438953472 ∧ sickDev.errors.find? 3 = none ∧ dev0.regWrites = [] ∧
    (∀ k, k < 4 → epochDue dev0 k = true → (dev0.die k).turning = true) ∧
    (blocksOf 8 24 16).filter (fun i => pairTeam.scratchSoft.getD i false) = [3, 4] ∧ 16 < pairTeam.kernel.team := by decide +kernel
theorem wit_CoherenceEvents :
    copyCore.copies.find? 0 ≠ none ∧ epochDue dev0 0 = false ∧ (dev0.die 0).turning = false ∧
    epochDue { dev0 with cores := [(0, { pts := timeLimit + 1 })] } 0 = true ∧ ((dieDev { turning := true }).die 0).turning = true ∧
    homed 0 7 ∧ ¬ homed 0 (Config.hbmPerDie / 128) ∧ (∀ p, copyCore.pushes.find? 0 = some p → p.used = true) ∧
    (∃ e, copyCore.copies.find? 0 = some e ∧ e.excl = true) ∧ (∀ e, copyCore.copies.find? 1 = some e → e.excl = false) := by
  unfold homed; decide
theorem wit_ControlRegisterEvents :
    ((dieDev { carveNew := some [1, 0, 12, 0] }).die 0).carveNew = some [1, 0, 12, 0] ∧ [1, 0, 12, 0].length = 4 ∧
    (∀ q, q < 4 → [1, 0, 12, 0].getD q 0 ≤ 12) ∧ (dev0.die 0).carveNew = none ∧ CtlRegs.legal {} = true ∧
    hostHoldsNothing { dev := dieDev { carveNew := some [1, 0, 12, 0] } } := by
  refine ⟨?_, ?_, ?_, ?_, ?_, fun _ => rfl⟩ <;> decide
def partDev (p : Part) : Dev := { dev0 with parts := [(0, { p with quarters := 0xFFFF })] }
theorem wit_SweepWords :
    capCheck8 (capGrp.rc 5) party0 needRevoke true 0x4000 0 = some 16 ∧ capCheck8 (capGrp.rc 1) party0 needRevoke true 0x4000 0 = none ∧
    capGrp.shadow = false ∧ capGrp.dual = false ∧ 64 ≤ (List.replicate 64 ((0, 16) : Nat × Nat)).length ∧
    regionOutside {} dev0 0 5 0x4000 0x5000 = false ∧ regionOutside {} dev0 0 5 0x1FFFFF0 0x2000010 = true ∧ trapsNow capGrp ∧
    ((partDev {}).parts.getD 0 {}).running = none ∧ ((partDev { running := some [(0, 16)] }).parts.getD 0 {}).running ≠ none ∧
    busy.queue ≠ [] ∧ grp0.queue = [] ∧ 2 ^ 31 ≤ ((0 : BitVec 32) - (1 : Word).extractLsb' 0 32).toNat ∧
    ((1 : BitVec 32) - (1 : Word).extractLsb' 0 32).toNat < 2 ^ 31 := by unfold trapsNow; decide
theorem wit_SweepPasses :
    ((partDev { nextSet := [(0, 16)] }).parts.getD 0 {}).nextSet ≠ [] ∧ ((partDev { nextSet := [(0, 16)] }).parts.getD 0 {}).running = none ∧
    passPaused dev0 0 = false ∧ passPaused (dieDev { turning := true }) 0 = true ∧
    (let s : State := { grp := grp0, dev := partDev { running := some [(0x4000, 0x4010)] } }
     (s.dev.parts.getD 0 {}).regsDone = false ∧ (∀ g ∈ s.mach.allGroups, g.part = 0 → g.heldWords = []) ∧ passOwed s.mach 0 = false ∧
     (∃ g ∈ [({ grp0 with heldWords := [⟨0, 0, [], [], 1⟩] } : Group)], g.part = 0 ∧ g.heldWords ≠ []) ∧ soundLine s 0x4000 ∧
     passOwed { s.mach with g := { primary with dualSt := { dualState with owed := true } } } 0 = true) ∧
    (({ running := some [(0, 16)], regsDone := true } : Part).regsDone = true) ∧
    ((partDev {}).parts.getD 0 {}).nextSet = [] ∧ ((partDev { running := some [(0x4000, 0x4010)] }).parts.getD 0 {}).running = some [(0x4000, 0x4010)] ∧
    Mem.wf { tags := [(0x400, true)] } = true ∧ Mem.tag { tags := [(0x400, true)] } 0x400 = true ∧
    (∀ r ∈ [((0x4000, 0x4010) : Nat × Nat)], Cap.meets ⟨0, true⟩ r = false) := by unfold soundLine; decide
/-- A command in progress, its block in the host's memory. -/
def cmdDev (op : BitVec 8) : Dev := { dev0 with pkg := { dev0.pkg with pmBusy := true, pmOp := op, pmArg := BitVec.ofNat 64 Config.hostBase } }
def cmdState (op : BitVec 8) : State := { dev := cmdDev op }
theorem wit_CommandStart :
    commandForm (.fwSet []) = some (4, true) ∧ dev0.pkg.pmBusy = false ∧ (cmdDev 4).pkg.pmBusy = true ∧ (cmdDev 4).pkg.pmOp.toNat = 4 ∧
    (cmdDev 4).pkg.importing = none ∧ (cmdDev 4).errors = [] ∧
    (let p : Pkg := { (cmdDev 4).pkg with importing := some (0, 0x4000, 128, true), fwAsked := true }
     ∃ z, p.importing = some z ∧ p.fwAsked = true) ∧
    logPending { log := List.replicate (Config.logRing + 1) ⟨[], [], none, false⟩ } = true := by
  refine ⟨rfl, rfl, rfl, rfl, rfl, rfl, ⟨(0, 0x4000, 128, true), rfl, rfl⟩, ?_⟩
  rw [logPending, List.length_replicate, show Config.logRing + 1 + 1 - Config.logRing = 2 by omega]
  rfl
/-- A context record: ID 2, colour 6, partition 0, AGE 1 and a FAULT capability of one block; a partition block; a firewall block. -/
def ctxBlk : List Byte :=
  toLe 8 (2 * 2 ^ 24 + 6) ++ toLe 8 (2 ^ 32 + 4) ++ List.replicate 64 0 ++ (capOf 0 2 6 0x4000 64).bytes
def partBlk (n mask prot : Nat) : List Byte := toLe 8 n ++ toLe 8 mask ++ toLe 8 prot
def fwBlk (n w0 w1 : Nat) : List Byte := toLe 8 n ++ toLe 8 w0 ++ toLe 8 w1
theorem wit_commandRuns (op : BitVec 8) : commandRuns (cmdState op) op.toNat true ∧ commandRuns (cmdState op) op.toNat false ∧
    hostHoldsNothing (cmdState op) ∧ (cmdState op).dev.errors = [] :=
  have h : logPending (cmdState op).dev.pkg = false := by simp [logPending, cmdState, cmdDev, dev0]
  ⟨⟨rfl, rfl, rfl, fun _ => h⟩, ⟨rfl, rfl, rfl, fun _ => h⟩, fun _ => rfl, rfl⟩
theorem wit_PartitionCommands :
    (let b := pmBlock (cmdDev 1) ctxBlk 512
     let fault := Cap.ofBytes ((b.drop 80).take 16) false
     recordOk b = true ∧ fault.malformed = false ∧ fault.kind = 0 ∧ fault.perms &&& 2 = 2 ∧ fault.top - fault.base = 64 ∧
     (∀ e ∈ rootRequests b, rootOk e.2 = true) ∧ natAt b 0 / 2 ^ 24 % 2 ^ 12 = 2 ∧ ((cmdDev 1).ctx 2).live = false) ∧
    ((dev0.parts.getD 0 {}).quarters ≠ 0 ∧ ((cmdDev 1).ctx 1).live = true) ∧
    recordOk (pmBlock (cmdDev 1) [] 512) = false ∧ natAt (pmBlock (cmdDev 2) (toLe 8 1) 512) 0 = 1 ∧
    (∀ x ∈ (pmBlock (cmdDev 2) (toLe 8 1) 512).drop 8, x = 0) ∧ ((cmdDev 2).ctx 3).live = false ∧ leavesVault dev0 7 0xFFFF true = false ∧
    (¬ (8 ≤ natAt (pmBlock (cmdDev 3) (partBlk 7 0xFFFF 1) 512) 0 ∨ 65536 ≤ natAt (pmBlock (cmdDev 3) (partBlk 7 0xFFFF 1) 512) 8 ∨
      2 ≤ natAt (pmBlock (cmdDev 3) (partBlk 7 0xFFFF 1) 512) 16 ∨ ∃ x ∈ (pmBlock (cmdDev 3) (partBlk 7 0xFFFF 1) 512).drop 24, x ≠ 0)) ∧
    quartersInUse dev0 0xF = true ∧ quartersInUse { dev0 with ctxs := [] } 0xF = false ∧
    (fwEntry (BitVec.ofNat 64 (2 ^ 63 + 1), 0)).len ≠ 0 ∧ (fwEntry (BitVec.ofNat 64 (2 ^ 63), 0)).len = 0 ∧
    (fwEntry (BitVec.ofNat 64 (2 ^ 63 + 2 ^ 62 + 1), 0)).vlt = true ∧ inMemory 0 (2 ^ 21) = true ∧ (dev0.parts.getD 0 {}).prot = false ∧
    quartersOf 0 (2 ^ 21) &&& ~~~(0xFFFF : BitVec 16) = 0 ∧ quartersOf 0 (2 ^ 21) &&& ~~~(0xFFF0 : BitVec 16) ≠ 0 ∧
    natAt (pmBlock (cmdDev 4) (fwBlk 2047 (2 ^ 63 + 1) 0) 512) 0 = 2047 ∧ fwWaits (fwBlk 2047 (2 ^ 63 + 1) 0) (cmdState 4).mach = false ∧
    fwWaits (fwBlk 0 0 0) ⟨{ grp0 with heldWords := [⟨0, 0, [], [], 1⟩] }, cmdDev 4⟩ = true ∧
    ({ dev0.pkg with stage := 2 } : Pkg).stage = 2 ∧ ¬ ((1 : Nat) = 0 ∧ natAt (partBlk 1 15 0) 8 = 15 ∧ natAt (partBlk 1 15 0) 16 = 0) := by
  refine ⟨by decide +kernel, by decide, by decide +kernel, by decide +kernel, by decide +kernel, by decide, ?_, ?_⟩ <;> decide +kernel
/-- A sealed blob of 128 bytes whose destination is the vault entry 1. -/
def blobHead : List Byte := List.replicate 432 0 ++ toLe 8 128
def vaultDev : Dev :=
  { cmdDev 5 with pkg := { (cmdDev 5).pkg with fw := [(1, (BitVec.ofNat 64 (2 ^ 63 + 2 ^ 62 + 1), 0))] } }
theorem wit_VaultAndLogCommands :
    natAt blobHead 432 = 128 ∧ 128 % 128 = 0 ∧ (∃ e, vaultDev.pkg.fwFind 0 = some e ∧ e.vlt = true ∧ 0 + 128 ≤ e.base + e.len) ∧
    inMemory 0 128 = true ∧ (∃ z, ({ dev0.pkg with importing := some (0, 0, 128, true) } : Pkg).importing = some z) ∧
    inRing ({ log := [⟨[], [], none, false⟩] } : Pkg) 0 = true ∧ vaultDev.errors = [] ∧ (cmdDev 6).pkg.log.length = 0 ∧ (homeDie 0x4000).isSome = true ∧ leaves dev0 0x4000 = false ∧
    (homeDie ({ dev0.pkg with pmArg := 0x4000 } : Pkg).pmArg.toNat).isSome = true ∧ (∀ l, dev0.syncs.getD l false = false) :=
  ⟨by decide +kernel, rfl, ⟨_, rfl, by decide, by decide⟩, by decide, ⟨_, rfl⟩, rfl, rfl, rfl, by decide, by decide, by decide, fun _ => rfl⟩

/-! ### Witnesses: registers, doorbells, queues, packets -/

theorem wit_RegisterEvents : (3 : Nat) < 4 ∧ (18 : Nat) < 19 ∧ hostHoldsNothing st0 ∧ Config.pkgBase + 0x18 = Config.pkgBase + 0x18 ∧
    st0.dev.pkg.posted = [] := ⟨by decide, by decide, fun _ => rfl, rfl, rfl⟩
/-- The record of a queue at 0x8000 of context 1: its ring of 16 packets at 0xA000, WRIDX 1, RDIDX 0. -/
def ringCap : Cap := capOf 0 0x7FF 5 0xA000 1024
def queueMem (state period : Nat) : Mem :=
  (({} : Mem).writeBytes 0x8000 (ringCap.bytes ++ toLe 8 1 ++ toLe 8 0 ++ toLe 8 state ++ toLe 4 100 ++ toLe 4 period)).setTag 0x800 true
def idleQueue : QueueSt := { ctx := 1 }
def qDev (x : QueueSt) (m : Mem) : Dev := { dev0 with queues := [(0x200, x)], mem := m }
def qSt (x : QueueSt) : State := { dev := qDev x (queueMem 0 0) }
/-- The front end's stores to HBM4 perform at once where it owes none. -/
theorem freeAt {s : State} {a : Nat} (f : s.dev.frontOwed = []) (r : s.dev.remotes = []) (c : spaceOf a = .hbm 0) : frontFree s a :=
  ⟨f, by simp [r], fun _ _ _ e => nomatch c.symm.trans e⟩
/-- The record stands in the context's memory, whatever the queue's state is. -/
theorem recordAt {s : State} {q : Nat} (h : (homeDie (64 * q)).isSome = true)
    (o : ownsByte s.dev (((s.dev.queue? q).map fun x => x.ctx).getD 0) (64 * q) = true) (f : s.dev.frontOwed = []) (r : s.dev.remotes = [])
    (c : spaceOf (64 * q) = .hbm 0) : recordHere s q :=
  ⟨h, o, freeAt f r c⟩
theorem wit_Doorbells :
    (0 : Nat) < 4 ∧ hostHoldsNothing (qSt idleQueue) ∧ (qSt idleQueue).dev.errors = [] ∧ (qSt idleQueue).dev.pkg.posted = [] ∧
    ({ dev0.pkg with posted := [⟨none, 0, 5, 0x4000, 2, some [1, 2], false, false⟩] } : Pkg).posted ≠ [] ∧ dev0.queue? 0x200 = none ∧ (qSt idleQueue).dev.pkg.fwState = 0 ∧
    (qSt idleQueue).dev.pkg.stage ≠ 2 ∧ (qSt idleQueue).dev.queue? ((0x200 : Word).toNat % 2 ^ 44) = some idleQueue ∧
    (dev0.ctx idleQueue.ctx).live = true ∧ partOnDie (dev0.parts.getD (dev0.ctx idleQueue.ctx).part {}) 0 = true ∧
    partOnDie ({ quarters := 0xFFF0 } : Part) 0 = false ∧ recordHere (qSt idleQueue) 0x200 ∧
    (idleQueue.mapped = none ∧ idleQueue.pending = false ∧ idleQueue.state = 0) ∧ (({ idleQueue with state := 4 } : QueueSt).state ≠ 0) ∧
    freeSlot (dev0.die 0) = some 0 ∧ (dev0.die 0).pending = [] ∧
    (({ idleQueue with state := 3 } : QueueSt).state = 3 ∧ (qSt idleQueue).qState 0x200 = 0) ∧
    (let x : Die := { slots := (List.range 64).map fun k => (k, { ctx := 1, qaddr := 0x300 + k, pkt := some ([], []) }) }
     freeSlot x = none ∧ evictable { dev0 with dies := [(0, x)] } 0 = none) ∧
    (({ dev0.pkg with vfs := [(1, 0)] } : Pkg).vfs.find? 1 = some 0) ∧ dev0.pkg.vfs.find? 1 = none ∧
    (({ dev0 with dies := [(0, { pending := [0x200] })] } : Dev).die 0).pending = 0x200 :: [] ∧
    (let h : Dev := { dev0 with queues := [(0x200, idleQueue), (0x300, { idleQueue with pending := true })], dies := [(0, { pending := [0x300] })] }
     (h.die 0).pending = 0x300 :: [] ∧ 0x300 ≠ 0x200 ∧ freeSlot (h.die 0) = some 0 ∧ (h.queue? 0x300).isSome = true ∧ recordHere { dev := h } 0x300) ∧
    (let y : QSlot := { ctx := 1, qaddr := 0x300 }
     let x : Die := { time := 10 ^ 6, slots := (List.range 64).map fun k => (k, if k = 5 then y else { ctx := 1, qaddr := 0x400 + k, pkt := some ([], []) }) }
     let e : Dev := { dev0 with queues := [(0x200, idleQueue), (0x300, { idleQueue with mapped := some 5, state := 1 })], dies := [(0, x)] }
     (e.die 0).pending = [] ∧ freeSlot (e.die 0) = none ∧ evictable e 0 = some y ∧ (e.die 0).slots.find? 5 = some y ∧
     (∀ z ∈ (e.die 0).slots, z.1 = 5 → z.2 = y) ∧ y.qaddr ≠ 0x200 ∧ recordHere { dev := e } y.qaddr) := by
  refine ⟨by decide, fun _ => rfl, rfl, rfl, by decide, rfl, rfl, by decide, by decide, rfl, by decide, by decide,
    recordAt (by decide) (by decide +kernel) rfl rfl (by decide), ⟨rfl, rfl, rfl⟩, by decide, by decide, rfl, ⟨rfl, by decide +kernel⟩,
    ⟨by decide +kernel, by decide +kernel⟩, rfl, rfl, rfl, ⟨rfl, by decide, rfl, rfl, recordAt (by decide) (by decide +kernel) rfl rfl (by decide)⟩,
    ⟨rfl, by decide +kernel, by decide +kernel, by decide +kernel, by decide +kernel, by decide,
      recordAt (by decide) (by decide +kernel) rfl rfl (by decide)⟩⟩
/-- The queue in slot 0 of die 0, with or without a packet. -/
def slotOf (pkt : Option (List Byte × List Bool)) (on : Bool) : QSlot := { ctx := 1, qaddr := 0x200, pkt := pkt, passMask := on }
def mappedQueue : QueueSt := { ctx := 1, state := 1, mapped := some 0 }
def mapDev (y : QSlot) (m : Mem) : Dev := { qDev mappedQueue m with dies := [(0, { slots := [(0, y)] })] }
def mapSt (y : QSlot) (m : Mem) : State := { dev := mapDev y m }
theorem wit_QueueEvents :
    slot? dev0 0 0 = none ∧ slot? (mapDev (slotOf none false) {}) 0 0 = some (slotOf none false) ∧ (slotOf none false).st ≠ 3 ∧
    ({ slotOf none false with st := 3 } : QSlot).st = 3 ∧ recordHere (mapSt (slotOf none false) {}) 0x200 ∧
    (slotOf none false).missing = none ∧ ({ slotOf none false with missing := some 0 } : QSlot).missing = some 0 ∧
    ¬ bit (dev0.pkg.hat.getD 0 (0, 0)).1 62 = true ∧ bit (({ hat := [(0, (BitVec.ofNat 64 (2 ^ 62), 0))] } : Pkg).hat.getD 0 (0, 0)).1 62 = true ∧
    (qDev { mappedQueue with state := 2 } {}).queue? 0x200 = some { mappedQueue with state := 2 } ∧ dev0.queue? 0x200 = none ∧
    mappedQueue.state ≠ 2 ∧ mappedQueue.die = 0 ∧ ({ mappedQueue with state := 2, die := 1 } : QueueSt).die ≠ 0 ∧ hostHoldsNothing (mapSt (slotOf none false) {}) ∧
    (mapSt (slotOf none false) {}).dev.errors = [] :=
  ⟨rfl, rfl, by decide, rfl, recordAt (by decide) (by decide +kernel) rfl rfl (by decide), rfl, rfl, by decide, by decide, rfl, rfl, by decide, rfl, by decide,
    fun _ => rfl, rfl⟩
/-- A packet of a type with its body from byte 8 on; memory with a packet of ORD = 1 in the ring. -/
def packet (ty : Nat) (body : List Byte) : List Byte := (toLe 8 ty ++ body ++ List.replicate 56 0).take 64
def ordMem : Mem := (queueMem 1 0).writeBytes 0xA000 (packet (7 + 2 ^ 8) [])
theorem wit_Rounds :
    (let s := mapSt (slotOf none false) ordMem
     (s.dev.die 0).slots = [(0, slotOf none false)] ∧ (slotOf none false).passMask = false ∧ s.dev.queue? 0x200 = some mappedQueue ∧
     mappedQueue.eligible = true ∧ rdidx s.dev 0x200 = 0 ∧ wridx s.dev 0x200 = 1 ∧
     Cap.ofBytes (s.dev.mem.read (64 * 0x200) 16) (s.dev.mem.tag (4 * 0x200)) = ringCap ∧ (ringCap.top - ringCap.base).toNat / 64 = 16 ∧
     frontReads s 1 ringCap { kinds := [0], perms := 1, write := false, aligned := false } 0xA000 64 ∧
     pktOrd (s.dev.mem.read 0xA000 64) = true ∧ pktOrd (packet 7 []) = false ∧
     (∃ e ∈ [(0, slotOf (some (packet 7 [], [])) true)], e.2.passMask = true) ∧ s.dev.errors = [] ∧
     s.dev.mem.anyPoison (64 * 0x200) 64 = false ∧ 0 ≠ 1 ∧ 16 < (17 + 2 ^ 64 - 0) % 2 ^ 64 ∧ mayRestart (packet 7 []) = true ∧
     mayRestart (packet 2 []) = false ∧ (slotOf none false).watchLine = none ∧ ({ mappedQueue with eligible := false } : QueueSt).eligible = false ∧
     (slotOf none false).ended = none ∧ ({ slotOf (some (packet 2 [], [])) false with ended := some (0, false, true) } : QSlot).ended.isSome = true ∧
     (slotOf none false).got = [] ∧ ({ slotOf none false with got := [(0x4000, [1], false)] } : QSlot).got ≠ []) ∧
    recordHere (mapSt (slotOf none false) ordMem) 0x200 ∧ hostHoldsNothing (mapSt (slotOf none false) ordMem) := by
  refine ⟨⟨by decide, rfl, by decide, rfl, by decide +kernel, by decide +kernel, by decide +kernel, by decide, ?_, by decide +kernel, by decide,
    by decide, ?_⟩, recordAt (by decide) (by decide +kernel) rfl rfl (by decide), fun _ => rfl⟩ <;> (try unfold frontReads frontCheck) <;> decide +kernel
/-- A packet on turn, with its capability at byte 8 from tagged granules. -/
def onSt (bs : List Byte) (tags : List Bool) (m : Mem) : State := mapSt (slotOf (some (bs, tags)) true) m
theorem on_of {ty : Nat} {bs : List Byte} {tags : List Bool} {m : Mem} (h : passTurn (onSt bs tags m).dev 0 0 ty = some (slotOf (some (bs, tags)) true))
    (n : bs.length = 64) : packetOn (onSt bs tags m) ty 0 0 (slotOf (some (bs, tags)) true) bs tags :=
  ⟨by decide, h, rfl, n, show recordHere _ 0x200 from recordAt (by decide) (show ownsByte dev0 1 (64 * 0x200) = true by decide) rfl rfl (by decide), fun _ => rfl, fun _ => rfl, rfl,
    by simp [onSt, mapSt, mapDev, qDev, Dev.queue?, slotOf, Tab.find?], rfl, fun e h n => absurd (congrArg Prod.fst (List.mem_singleton.1 h)) n⟩
def tags2 : List Bool := [true, true]
def pWrite : List Byte := packet 2 ((capOf 0 0x7FF 5 0x4000 8).bytes ++ toLe 8 77)
def pBad : List Byte := packet 2 ((capOf 0 0x7FF 6 0x4000 8).bytes ++ toLe 8 77)
def pSignal : List Byte := packet 3 ((capOf 3 0x23 5 0xC000 64).bytes ++ toLe 8 5)
def pWait (r : Nat) : List Byte := packet 4 ((capOf 3 0x23 5 0xC000 64).bytes ++ toLe 8 r ++ [0])
theorem wit_PacketErrors :
    packetForm (.pktWrite 0 0) = some (2, 0, 0) ∧ passTurn dev0 0 0 2 = none ∧ dev0.launches.find? dev0.nextId = none ∧
    packetOn (onSt pBad tags2 {}) 2 0 0 (slotOf (some (pBad, tags2)) true) pBad tags2 ∧ pktFault pBad = none ∧
    (∃ need, packetCap 2 pBad tags2 = some (fieldCap pBad tags2 8, need, 0x4000, 8) ∧
      frontCheck (onSt pBad tags2 {}) 1 (fieldCap pBad tags2 8) need 0x4000 8 = .fail 20) ∧
    packetOn (onSt (packet 7 [6]) [] {}) 7 0 0 (slotOf (some (packet 7 [6], [])) true) (packet 7 [6]) [] ∧
    pktFault (packet 7 [6]) = some 2 ∧ (onSt pBad tags2 {}).dev.launches.find? (onSt pBad tags2 {}).dev.nextId = none ∧
    (let w := Config.hostBase
     let s : State := { dev := { dev0 with pkg := { dev0.pkg with hat := [(0, (BitVec.ofNat 64 (2 ^ 63 + 5 * 2 ^ 49 + 1), 0))] } } }
     frontCheck s 1 (capOf 0 0x7FF 5 w 64) { kinds := [0], perms := 2, write := true } w 8 = .miss 0) := by
  refine ⟨rfl, rfl, rfl, on_of (by decide +kernel) (by decide), by decide +kernel, ⟨_, rfl, by decide +kernel⟩, on_of (by decide +kernel) (by decide),
    by decide +kernel, rfl, by decide +kernel⟩
theorem wit_WritesSignalsAndWaits :
    (pktFault pWrite = none ∧ packetOn (onSt pWrite tags2 {}) 2 0 0 (slotOf (some (pWrite, tags2)) true) pWrite tags2 ∧
      frontCheck (onSt pWrite tags2 {}) 1 (fieldCap pWrite tags2 8) { kinds := [0], perms := 2, write := true } 0x4000 8 = .ok ∧
      (fieldCap pWrite tags2 8).cursor = 0x4000 ∧ (homeDie 0x4000).isSome = true) ∧
    (pktFault pSignal = none ∧ packetOn (onSt pSignal tags2 {}) 3 0 0 (slotOf (some (pSignal, tags2)) true) pSignal tags2 ∧
      frontCheck (onSt pSignal tags2 {}) 1 (fieldCap pSignal tags2 8) { kinds := [3], perms := 32, write := true } 0xC000 8 = .ok ∧
      (fieldCap pSignal tags2 8).base.toNat = 0xC000 ∧ 0xC000 / 64 ≠ 0x200 ∧ ({ psn := [(0x600, true)] } : Mem).anyPoison 0xC000 8 = true) ∧
    (pktFault (pWait 0) = none ∧ packetOn (onSt (pWait 0) tags2 {}) 4 0 0 (slotOf (some (pWait 0, tags2)) true) (pWait 0) tags2 ∧
      frontReads (onSt (pWait 0) tags2 {}) 1 (fieldCap (pWait 0) tags2 8) { kinds := [0, 3], perms := 1, write := false } 0xC000 8 ∧
      natAt (pWait 0) 24 ≤ ({} : Mem).num 0xC000 8) ∧
    (packetOn (onSt (pWait 1) tags2 {}) 4 0 0 (slotOf (some (pWait 1, tags2)) true) (pWait 1) tags2 ∧ ¬ natAt (pWait 1) 24 ≤ ({} : Mem).num 0xC000 8) := by
  refine ⟨⟨by decide +kernel, on_of (by decide +kernel) (by decide), by decide +kernel, by decide +kernel, by decide⟩,
    ⟨by decide +kernel, on_of (by decide +kernel) (by decide), by decide +kernel, by decide +kernel, by decide, by decide⟩,
    ⟨by decide +kernel, on_of (by decide +kernel) (by decide), ?_, by decide +kernel⟩, on_of (by decide +kernel) (by decide), by decide +kernel⟩
  unfold frontReads frontCheck; decide +kernel
/-- A barrier on the queue itself up to index i; a copy whose block stands at 0x9000. -/
def pBarrier (i : Nat) : List Byte := packet 6 ((capOf 6 0 5 0x8000 64).bytes ++ toLe 8 i)
def pCopy : List Byte := packet 5 (capOf 4 3 5 0x9000 64).bytes
theorem wit_BarriersFencesAndCopies :
    (pktFault (pBarrier 0) = none ∧ packetOn (onSt (pBarrier 0) tags2 {}) 6 0 0 (slotOf (some (pBarrier 0, tags2)) true) (pBarrier 0) tags2 ∧
      frontCheck (onSt (pBarrier 0) tags2 {}) 1 (fieldCap (pBarrier 0) tags2 8) { kinds := [6], perms := 0, write := false, aligned := false } 0x8000 64 = .ok ∧
      (fieldCap (pBarrier 0) tags2 32).tag = false ∧ queueReached (onSt (pBarrier 0) tags2 {}).dev 0x200 0 = true ∧
      queueReached (onSt (pBarrier 1) tags2 {}).dev 0x200 1 = false) ∧
    (pktFault (packet 7 [0]) = none ∧ packetOn (onSt (packet 7 [0]) [] {}) 7 0 0 (slotOf (some (packet 7 [0], [])) true) (packet 7 [0]) [] ∧
      (∀ e ∈ mappedQueue.open_, rdidx (onSt (packet 7 [0]) [] {}).dev 0x200 ≤ e.1) ∧
      (let y := slotOf (some (packet 7 [0], [])) true
       let d : Dev := { qDev mappedQueue {} with dies := [(0, { slots := [(0, y), (1, { y with qaddr := 0x300 })] })] }
       passTurn d 0 0 7 = some y ∧ (1, { y with qaddr := 0x300 }) ∈ (d.die 0).slots ∧ pktType (packet 7 [0]) = 7 ∧
       queueReached d 0x200 (rdidx d 0x200) = true)) ∧
    (pktFault pCopy = none ∧ packetOn (onSt pCopy tags2 {}) 5 0 0 (slotOf (some (pCopy, tags2)) true) pCopy tags2 ∧ 47 / 48 = 0 ∧
      ((onSt pCopy tags2 {}).dev.cluster 47).copies.length < 32 ∧ frontReads (onSt pCopy tags2 {}) 1 (fieldCap pCopy tags2 8) needCmd 0x9000 64 ∧
      ctrlBuffer (({} : Mem).word (0x9000 + 40)) = false ∧ ctrlBuffer 4 = true ∧ 48 / 48 ≠ 0) := by
  refine ⟨⟨by decide +kernel, on_of (by decide +kernel) (by decide), by decide +kernel, by decide +kernel, by decide +kernel, by decide +kernel⟩,
    ⟨by decide +kernel, on_of (by decide +kernel) (by decide), by decide, by decide +kernel⟩,
    ⟨by decide +kernel, on_of (by decide +kernel) (by decide), rfl, by decide, ?_, by decide, by decide, by decide⟩⟩
  unfold frontReads frontCheck; decide +kernel
/-- A launch: a descriptor at 0x5000 (scalar section [0x1000, 0x1080), lane section [0x2000, 0x200C)), arguments at 0x6000. -/
def pLaunch (teams : Nat) : List Byte :=
  packet 1 ((capOf 1 16 5 0x5000 128).bytes ++ (capOf 0 1 5 0x6000 384).bytes ++ toLe 4 teams ++ toLe 4 0 ++ (capOf 0 2 5 0x7000 64).bytes)
def kernelMem (shape : Nat) : Mem :=
  (({} : Mem).writeBytes 0x5000 ((capOf 1 16 5 0x1000 128).bytes ++ (capOf 1 16 5 0x2000 12).bytes ++ toLe 8 shape)).setTag 0x500 true |>.setTag 0x501 true
def tags4 : List Bool := [true, true, true, true]
def launchKernel (shape : Nat) : Option Kernel :=
  kernelOf ((kernelMem shape).read 0x5000 128) ((List.range 8).map fun i => (kernelMem shape).tag (0x5000 / 16 + i))
theorem wit_Launches :
    (let s := onSt (pLaunch 3) tags4 (kernelMem 0x100)
     pktFault (pLaunch 3) = none ∧ packetOn s 1 0 0 (slotOf (some (pLaunch 3, tags4)) true) (pLaunch 3) tags4 ∧
     s.dev.launches.find? s.dev.nextId = none ∧ (fieldCap (pLaunch 3) tags4 8).cursor = 0x5000 ∧
     frontReads s 1 (fieldCap (pLaunch 3) tags4 8) { kinds := [1], perms := 16, write := false, aligned := false } 0x5000 128 ∧
     frontCheck s 1 (fieldCap (pLaunch 3) tags4 48) { kinds := [0], perms := 2, write := true, aligned := false } 0x7000 64 = .ok ∧
     frontReads s 1 (fieldCap (pLaunch 3) tags4 24) { kinds := [0], perms := 1, write := false, aligned := false } 0x6000 384 ∧
     natAt (pLaunch 3) 40 % 2 ^ 32 = 3 ∧ natAt (pLaunch 0) 40 % 2 ^ 32 = 0) ∧
    (∃ k, launchKernel 0x100 = some k ∧ k.coop = false ∧ k.node = false) ∧ launchKernel 0x300 = none ∧
    (∃ k, launchKernel (0x100 + 2 ^ 43) = some k ∧ k.coop = true ∧ coopPossible dev0 (dev0.parts.getD 0 {}) k 3 = true ∧
      coopPossible dev0 (dev0.parts.getD 0 {}) k 100000 = false) := by
  refine ⟨⟨by decide +kernel, on_of (by decide +kernel) (by decide), rfl, by decide +kernel, ?_, by decide +kernel, ?_, by decide +kernel,
    by decide +kernel⟩, ⟨_, rfl, by decide +kernel, by decide +kernel⟩, by decide +kernel, ⟨_, rfl, by decide +kernel, by decide +kernel, by decide +kernel⟩⟩ <;>
    (unfold frontReads frontCheck; decide +kernel)

/-! ### Witnesses: admission, time sharing, removal -/

/-- A launch of two teams of one group, none of which has entered. -/
def newLaunch (k : Kernel) : Launch := { ctx := 1, queue := 0x200, kernel := k, teams := 2 }
def launchDev (k : Kernel) : Dev := { dev0 with launches := [(1, { ctx := 1, teams := 1, entered := 1 }), (2, newLaunch k)], nextId := 9 }
/-- A node launch whose mailbag at 0xE000 has 40 records of 16 bytes committed. -/
def nodeKernel : Kernel := { node := true, bag := capOf 0 0x23 5 0xE000 0x1000, rsize := 16, timer := 5 }
def nodeDev (put : Byte) : Dev :=
  { dev0 with launches := [(2, { newLaunch nodeKernel with teams := 100 })], mem := { bytes := [(0xE040, put)] }, nextId := 9 }
theorem freeNumbers (k : Kernel) : numbersFree { dev := launchDev k } := by
  intro n h
  have h9 : 9 ≤ n := h
  exact ⟨by simp [launchDev, dev0, Tab.find?]; omega, rfl⟩
theorem wit_Admission :
    numbersFree { dev := launchDev {} } ∧ (launchDev {}).launch 2 = newLaunch {} ∧ mayAdmit (launchDev {}) 2 = true ∧
    (newLaunch {}).entered < (newLaunch {}).teams ∧ (fits (launchDev {}) ((launchDev {}).parts.getD 0 {}) {} 2 0 7 && !drainsAt (launchDev {}) 1 0 7 1) = true ∧
    (fits (launchDev {}) ((launchDev {}).parts.getD 0 {}) {} 2 4 7 && !drainsAt (launchDev {}) 1 4 7 1) = false ∧
    (mayAdmit (launchDev {}) 2 && !coopClaims (launchDev {}) 2 0 7) = true ∧ (launchDev {}).errors = [] ∧
    (let k : Kernel := { coop := true }
     (newLaunch k).done = false ∧ (newLaunch k).entered = 0 ∧ (newLaunch k).reserved = [] ∧ 1 < (newLaunch k).teams ∧
     fits (launchDev k) ((launchDev k).parts.getD 0 {}) k 2 0 7 = true ∧ coopClaims (launchDev k) 2 0 7 = false ∧
     (mayAdmit (launchDev k) 1 && !coopClaims (launchDev k) 1 0 7) = false) ∧ ((launchDev {}).launch 1).teams ≤ ((launchDev {}).launch 1).entered ∧
    mayAdmit (nodeDev 40) 2 = true ∧ nodeKernel.node = true ∧ nodeKernel.team = 1 ∧ nodeKernel.dual = false ∧
    (fits (nodeDev 40) ((nodeDev 40).parts.getD 0 {}) nodeKernel 2 0 7 && !drainsAt (nodeDev 40) 1 0 7 1) = true ∧
    (mayAdmit (nodeDev 40) 2 && !coopClaims (nodeDev 40) 2 0 7) = true ∧ nodeRecords (nodeDev 40) ((nodeDev 40).launch 2) false = 32 ∧
    nodeRecords (nodeDev 8) ((nodeDev 8).launch 2) false = 0 ∧ nodeRecords (nodeDev 8) ((nodeDev 8).launch 2) true = 8 := by
  exact ⟨freeNumbers {}, rfl, by decide +kernel⟩
theorem wit_NodeRecordCounts :
    (let l := (nodeDev 40).launch 2
     0 < l.nodeFrom + l.teams - l.nodeL ∧ 0 < l.kernel.width ∧
     l.kernel.width ≤ (nodeDev 40).mem.num (localAddr (nodeDev 40) (l.kernel.bag.base.toNat + 64)) 8 - l.nodeL ∧
     (nodeDev 8).mem.num (localAddr (nodeDev 8) (l.kernel.bag.base.toNat + 64)) 8 - l.nodeL < l.kernel.width) := by decide +kernel
/-- A partition of one die; the queue at 0x8000 has a period of 50 µs and a budget of 100, and a packet to process. -/
def edfDev (x : QueueSt) (budget : Nat) : Dev :=
  { qDev x ((queueMem 1 50).writeBytes 0x8028 (toLe 4 budget)) with parts := [(0, { quarters := 0xF })] }
theorem wit_PeriodsAndBudgets :
    (let d := edfDev mappedQueue 100
     edf d mappedQueue.ctx = true ∧ qPeriod d 0x200 ≠ 0 ∧ queueReady d 0x200 = true ∧ mappedQueue.ready = false ∧
     d.time + 1000 * qPeriod d 0x200 < 2 ^ 64 ∧ d.queue? 0x200 = some mappedQueue ∧ edf dev0 1 = false ∧
     ¬ (qBudget d 0x200 ≤ qUsed d 0x200 + 0 / 16)) ∧
    (let d := { edfDev mappedQueue 0 with mem := (queueMem 1 50).writeBytes 0x8028 (toLe 4 0 ++ toLe 4 50 ++ toLe 8 9) }
     qBudget d 0x200 ≤ qUsed d 0x200 + 0 / 16 ∧ mappedQueue.overrun = false ∧ d.time < qDline d 0x200) ∧
    hostHoldsNothing { dev := edfDev mappedQueue 100 } ∧ noSyncs { dev := edfDev mappedQueue 100 } ∧ recordHere { dev := edfDev mappedQueue 100 } 0x200 ∧
    (edfDev mappedQueue 100).errors = [] := by
  exact ⟨by decide +kernel, by decide +kernel, fun _ => rfl, fun _ => rfl, recordAt (by decide) (by decide +kernel) rfl rfl (by decide), rfl⟩
/-- Team 1 holds a core; launch 2 has the deadline queue of context 2 and asks for a scratchpad that no core has left. -/
def crowd (teams kib : Nat) : Dev :=
  { edfDev { mappedQueue with ctx := 2, mapped := none } 100 with
    ctxs := [(1, { live := true, colour := 5 }), (2, { live := true, colour := 6 })], nextId := 9
    launches := [(1, { ctx := 1, teams := 1, entered := 1 }), (2, { newLaunch { scratchKiB := kib } with ctx := 2, teams := teams })] }
theorem wit_Decisions :
    (∀ e ∈ [(1, ({ ctx := 1, done := true } : Launch))], e.2.done = true) ∧
    (let d := setEligible (crowd 1 300) 0
     ((crowd 1 300).parts.map fun e => e.1).filter (fun p => partOnDie ((crowd 1 300).parts.getD p {}) 0) = [0] ∧
     (waiting d 0).find? (fun k => mayAdmit d k) = some 2 ∧ victims 2 d.teams.length d = [1] ∧ Tab.risingFrom none (crowd 1 300).teams = true) ∧
    (let d := setEligible (crowd 1 4) 0
     (waiting d 0).find? (fun k => mayAdmit d k) = some 2 ∧ launchFits d 2 = true) ∧
    (crowd 1 300).errors = [] ∧ (crowd 1 4).queue? 0x200 ≠ none ∧ edf (crowd 1 4) 2 = true ∧
    (let d := launchDev {}
     edf d 1 = false ∧ ∃ e ∈ d.launches, e.2.queue = 0x200 ∧ waits d e.1 = true) := by
  refine ⟨by decide, by decide +kernel, by decide +kernel, rfl, by decide, by decide, by decide, ?_⟩
  exact ⟨(2, newLaunch {}), by decide, rfl, by decide +kernel⟩
theorem wit_ContextRemoval :
    (dev0.ctx 2).live = false ∧ (dev0.ctx 1).live = true ∧ hostHoldsNothing st0 ∧ ({} : Group).ctx ≠ 1 ∧
    (let x : Ctx := { live := true, fault := capOf 0 2 5 0x4000 64 }
     x.fault.tag = true ∧ (homeDie x.fault.base.toNat).isSome = true) ∧ noSyncs st0 ∧ ownsByte dev0 1 0x4000 = true ∧ frontFree st0 0x4000 ∧ (∀ e ∈ dev0.queues, e.2.ctx ≠ 1) ∧
    (∀ e ∈ ({ dev0 with launches := [(1, { ctx := 1, done := true })] } : Dev).launches, e.2.ctx = 1 → e.2.done = true) :=
  ⟨rfl, rfl, fun _ => rfl, by decide, by decide, fun _ => rfl, by decide,
    freeAt rfl rfl (by decide), by decide, by decide⟩

/-! ### Witnesses: the package, the ports, the steps -/

def evt0 : Event := ⟨1, 2, 3, 4⟩
def pkgSt (p : Pkg) : State := { dev := { dev0 with pkg := p } }
theorem wit_RingAndLimiterEvents :
    (let p : Pkg := { events := [evt0], evBase := BitVec.ofNat 64 Config.hostBase }
     let size := 2 ^ ((pkgSt p).regs.log2n.toNat + 6)
     p.events = evt0 :: [] ∧ ¬ size ≤ (p.evWr - p.evRd).toNat ∧ Config.hostBase ≤ p.evBase.toNat ∧ p.evBase.toNat % 4096 = 0 ∧
     p.evBase.toNat + 32 * (p.evWr.toNat % size) < Config.peerBase ∧ size ≤ (({ p with evWr := 4096 } : Pkg).evWr - 0).toNat ∧
     p.refused.getD 0 0 = 0 ∧ ({ p with refused := [(0, 9)] } : Pkg).refused.getD 0 0 ≠ 0) := by decide
theorem wit_StagesAndSleep :
    dev0.pkg.stage = 0 ∧ ({ stage := 1 } : Pkg).stage = 1 ∧ ({ stage := 2 } : Pkg).stage = 2 ∧ dieTeams dev0 1 = [] ∧ dieTeams dev0 0 ≠ [] ∧
    (∃ k ∈ dieTeams dev0 0, saveReady (st inFlight).mach k = false) ∧ ({ linkUp := true } : Pkg).linkUp = true ∧
    ({ snoop := [(7, { dirty := true })] } : Pkg).snoop.find? 7 = some { dirty := true } ∧ hostHoldsNothing st0 ∧
    (Config.bootVerifies = true ∨ Config.bootVerifies = false) ∧
    ((∀ k ∈ dieTeams dev0 0, saveReady st0.mach k = true ∧ (dev0.team k).status = .resident ∧ (dev0.team k).scratchMet = []) ∧
      dieTeams dev0 0 = [1] ∧ (dev0.team 1).die = 0 ∧ (dev0.team 1).kernel.team ≤ 16 ∧ (dev0.team 1).kernel.scratchKiB ≤ 256 ∧
      coreInPart (dev0.parts.getD (dev0.ctx 1).part {}) 0 (dev0.team 1).core = true ∧ ∀ e ∈ dev0.launches, e.2.reserved = []) ∧
    (let p : Pkg := { snoop := [(7, { dirty := true, die := 1 })] }
     (p.linkUp = false ∧ ∃ e ∈ p.snoop, e.2.dirty = true ∧ e.2.die = 1) ∧ ¬ (p.linkUp = false ∧ ∃ e ∈ p.snoop, e.2.dirty = true ∧ e.2.die = 2)) := by
  refine ⟨rfl, rfl, rfl, by decide, by decide, by decide, rfl, rfl, fun _ => rfl, ?_, by decide +kernel, by decide⟩
  cases Config.bootVerifies <;> simp
/-- A read of the host in flight. -/
def hostRemote : Remote :=
  { id := 1, gid := 1, flight := 1, addr := Config.hostBase, len := 8, write := none, envelope := false, lane := 0, port := none, wait := .none }
theorem wit_LinkEvents :
    (17 : Nat) < 18 ∧ (143 : Nat) < 144 ∧ ({ linkUp := true } : Pkg).linkUp = true ∧ (dev0.parts.getD 0 {}).quarters ≠ 0 ∧
    (({ ports := [(3, { up := true })] } : Pkg).ports.getD 3 {}).up = true ∧ dev0.pkg.linkUp = false ∧ (255 : Nat) < 256 ∧
    hatInFlight dev0 0 = false ∧
    hatInFlight { dev0 with remotes := [hostRemote] } 0 = true ∧
    dev0.pkg.hatMiss.getD 0 false = false ∧ ({ hatMiss := [(0, true)] } : Pkg).hatMiss.getD 0 false = true ∧
    dev0.pkg.snoop.find? 7 = none ∧ (({ snoop := [(7, { dirty := true })] } : Pkg).snoop.find? 7).isSome = true ∧ ({ lostLines := [(7, true)] } : Pkg).lostLines.getD 7 false = true ∧ dev0.pkg.lostLines.getD 7 false = false ∧
    (({ backInv := [(7, true)] } : Pkg).backInv.find? 7).isSome = true ∧
    ({ lostPeers := [(1, [0, 3])] } : Pkg).lostPeers.getD 1 [] = [0, 3] := by decide
/-- A peer's and the host's write of 2 bytes. -/
def peer0 : PeerRequest :=
  { port := 0, colour := 5, keyed := false, addr := 0x4000, len := 2, write := some [1, 2], envelope := false, poisoned := false, operand := false, atomic := none }
def host0 : HostRequest := { ide := none, part := 0, colour := 5, addr := 0x4000, len := 2, write := some [1, 2], poisoned := false }
def upSt : State := pkgSt { dev0.pkg with ports := [(0, { up := true })], linkUp := true, linkCxl := true }
theorem wit_ArrivingRequests :
    (¬ ∃ w ∈ upSt.dev.pkg.peersWait, sameLane peer0 w = true) ∧ (∃ w ∈ [{ peer0 with addr := 0x4040 }], sameLane peer0 w = true) ∧ 0 < peer0.len ∧
    ({ upSt.dev.pkg with hostHeld := [(128, true)] } : Pkg).hostHeld.getD (peer0.addr / 128) false = true ∧
    admitRange (hostAdmit upSt.regs { upSt.dev with pkg := { upSt.dev.pkg with importing := some (0, 0x4000, 128, true) } } host0) 0x4000 2 = .busy ∧
    noSyncs upSt ∧ hostHoldsNothing upSt ∧ upSt.dev.errors = [] ∧ peer0.sync = .no ∧ upSt.dev.pkg.posted = [] ∧ ((upSt.dev.pkg.ports.getD peer0.port {}).up = true ∧ peer0.port < 18 ∧ peer0.addr < 2 ^ 40) ∧
    admitRange (peerAdmit upSt.regs upSt.dev peer0) 0x4000 2 = .yes 0 ∧
    admitRange (peerAdmit upSt.regs upSt.dev { peer0 with colour := 6 }) 0x4000 2 = .no ∧
    admitRange (peerAdmit upSt.regs { upSt.dev with pkg := { upSt.dev.pkg with importing := some (0, 0x4000, 128, true) } } peer0) 0x4000 2 = .busy ∧
    admitRange (peerAdmit upSt.regs { upSt.dev with pkg := { upSt.dev.pkg with fw := [(0, (BitVec.ofNat 64 (2 ^ 63 + 2 ^ 62 + 2 ^ 59 + 5 * 2 ^ 46 + 1), 0))] } }
      { peer0 with write := none, operand := true }) 0x4000 2 = .egress 0 ∧
    peer0.atomic = none ∧ peer0.write = some [1, 2] ∧ peer0.envelope = false ∧ dev0.pkg.linkUp = false ∧ upSt.dev.pkg.linkUp = true ∧
    admitRange (hostAdmit upSt.regs upSt.dev host0) 0x4000 2 = .yes 0 ∧ admitRange (hostAdmit upSt.regs upSt.dev { host0 with colour := 6 }) 0x4000 2 = .no ∧
    host0.addr + host0.len ≤ Config.hbmTop ∧ upSt.dev.pkg.linkCxl = true ∧ host0.addr < Config.hostBase ∧ 0 < host0.len ∧
    admitRange (hostAdmit upSt.regs { upSt.dev with pkg := { upSt.dev.pkg with fw := [(0, (BitVec.ofNat 64 (2 ^ 63 + 2 ^ 62 + 2 ^ 59 + 5 * 2 ^ 46 + 1), 0))] } }
      { host0 with write := none, operand := true }) 0x4000 2 = .egress 0 := by
  refine ⟨by decide, by decide, by decide, by decide, by decide +kernel, fun _ => rfl, fun _ => rfl, rfl, rfl, rfl, by decide, by decide +kernel, by decide +kernel, by decide +kernel, by decide +kernel, rfl, rfl, rfl, rfl, rfl,
    by decide +kernel, by decide +kernel, by decide, rfl, by decide, by decide, by decide +kernel⟩
theorem wit_ResetsAndLosses :
    hostHoldsNothing st0 ∧ ({ fwState := 2 } : Pkg).fwState = 2 ∧ dev0.pkg.fwState ≠ 2 ∧ partOnDie (dev0.parts.getD 0 {}) 3 = true ∧
    Tab.risingFrom none dev0.ctxs = true ∧ (∀ e ∈ [(0, ({ quarters := 0xF } : Part))], e.1 = (dev0.ctx 1).part → partOnDie e.2 1 = false) ∧
    ownIndex upSt.dev 0 = false ∧ ownIndex (clDev cl0) 0 = true ∧ (143 : Nat) < 144 ∧ (∀ r ∈ dev0.remotes, toPeer 1 r = false) ∧
    (∀ e ∈ dev0.dies, e.2.coll = []) ∧ (∀ r ∈ dev0.remotes, r.port = some 3 → ∃ j o, spaceOf r.addr = .peer j o) ∧
    (∀ r ∈ [{ hostRemote with addr := 2 ^ 49 + 2 ^ 40, port := some 3 }], r.port = some 3 → ∃ j o, spaceOf r.addr = .peer j o) ∧
    (upSt.dev.pkg.ports.getD 0 {}).up = true :=
  ⟨fun _ => rfl, rfl, by decide, by decide, rfl, by decide, by decide, by decide, by decide, by decide, by decide,
    fun _ h => absurd h List.not_mem_nil, fun r h _ => ⟨1, 0, by rw [List.mem_singleton.1 h]; decide⟩, rfl⟩
theorem wit_FirmwareActivation :
    bit (1 : Word) 0 = true ∧ dev0.pkg.fwState = 0 ∧ ({ fwState := 1, fwPend := [1], vfs := [(1, 0)] } : Pkg).fwState = 1 ∧
    ({ fwState := 2 } : Pkg).fwState = 2 ∧ (Config.firmwareVerifies 0 = true ∨ ¬ Config.firmwareVerifies 0 = true) :=
  ⟨by decide, rfl, rfl, rfl, Classical.em _⟩
theorem wit_RemoteWords :
    accessForm (.sStN32 1 4 0) = some (4, 0, needStore, 4) ∧
    capCheck {} giveDev (giveGrp.rc 4) party0 needStore (smAddr (giveGrp.rc 4) 0 4) 4 = .ok ∧
    placeOf giveDev (giveGrp.rc 4) (smAddr (giveGrp.rc 4) 0 4) = .remote (2 ^ 49 + 2 ^ 40) ∧ giveGrp.dual = false ∧
    (∀ k, giveGrp.roles.getD k .idle = .idle) ∧ (∀ r ∈ giveDev.remotes, r.id ≠ giveDev.nextId) ∧ giveGrp.canRaise .fx = true ∧
    ({ giveGrp with flights := List.replicate 1023 ⟨.fx, 1, 1, false, 0⟩ } : Group).canRaise .fx = false := by
  refine ⟨rfl, by decide +kernel, by decide, rfl, fun _ => rfl, by decide, by decide, by decide +kernel⟩
/-- The group waits for the answer of a load of 4 bytes into s4, flight 1. -/
def remote0 : Remote :=
  { id := 5, gid := 1, flight := 1, addr := 2 ^ 49 + 2 ^ 40, len := 4, write := none, envelope := false, lane := 0, port := some 0, wait := .scalar 4 4 true }
def waitSt : State :=
  { grp := { giveGrp with waitRemote := true, flights := [⟨.fx, 1, 1, false, 0⟩], nextOp := 2 }, dev := { giveDev with remotes := [remote0] } }
theorem wit_RemoteAnswers :
    (st { grp0 with flights := [⟨.ld, 3, 1, false, 0⟩] }).mach.group? 1 = some { grp0 with flights := [⟨.ld, 3, 1, false, 0⟩] } ∧
    firstOn { grp0 with flights := [⟨.ld, 3, 1, false, 0⟩] } .ld 3 ∧ (∀ r ∈ dev0.remotes, r.gid ≠ 1 ∨ r.flight ≠ 4) ∧ st0.mach.group? 7 = none ∧
    (dev0.remotes.filter fun r => r.gid == 1 && r.flight == 1) = [] ∧ dev0.pkg.hatPending = [] ∧
    (waitSt.dev.remotes.filter fun r => r.gid == 1 && r.flight == 1) = [remote0] ∧ waitSt.grp.live = true ∧ waitSt.grp.dual = false ∧
    remote0.write = none ∧ remote0.atomic = none ∧ remote0.wait = .scalar 4 4 true ∧ 4 ≤ [1, 2, 3, 0x84].length ∧ remote0.len = 4 ∧
    remote0.envelope = false ∧ travels waitSt.dev [remote0] = true ∧ hostHit waitSt.dev.pkg remote0 = none ∧ remote0.addr % 32 + 4 ≤ 32 ∧ [true].headD false = true ∧
    ([] : List Bool).headD false = false ∧ ({ waitSt.grp with prc := true } : Group).prc = true :=
  ⟨rfl, ⟨_, rfl, rfl⟩, by decide, rfl, rfl, rfl, by decide, rfl, rfl, rfl, rfl, rfl, by decide, rfl, rfl, by decide +kernel, rfl, by decide, rfl, rfl, rfl⟩
theorem wit_EncodeThenDecode :
    (Instr.sAddi 2 0 4).wf = true ∧ encodeScalar (.sAddi 2 0 4) = some 0x10200004 ∧ (Instr.vAddInt (wide 0 0 0 3 1 2 267 0)).wf = true ∧
    (encodeLane (.vAddInt (wide 0 0 0 3 1 2 267 0))).isSome = true := by decide
/-- The group with a word at its program counter, or at its lane position. -/
def fetchSt (w : Nat) : State := { st0 with dev := { dev0 with mem := ({} : Mem).writeBytes 0x1000 (toLe 4 w) } }
def laneFetchSt (w : Nat) : State := { grp := laneGrp, dev := { dev0 with mem := ({} : Mem).writeBytes 0x2000 (toLe 12 w) } }
theorem wit_StepRunsTheDecodedWord :
    ((List.range 4).find? (fun k => epochDue dev0 k && !(dev0.die k).turning) = none ∧
      (let d : Dev := { dev0 with cores := [(0, { pts := timeLimit + 1 })] }
       (List.range 4).find? (fun k => epochDue d k && !(d.die k).turning) = some 0)) ∧
    (∃ t, exec (.registerWrite (Config.regBase + 0x208) 0) st0 = .next t ∧ t.stalled = false ∧ regBlock (Config.regBase + 0x208) = true ∧
      (Config.regBase + 0x208) % 8 = 0 ∧ egressAddr (Config.regBase + 0x208) = false) ∧
    st0.burst < 64 ∧ dev0.regWrites = [] ∧ grp0.heldWords = [] ∧ grp0.dueTrap = none ∧
    st0.agenda = [] ∧ st0.stalled = false ∧ canIssue dev0 grp0 = true ∧ grp0.queue = [] ∧
    (({ grp0 with pc := 0x2000 } : Group).goodTarget 0x2000 = false ∧ trapsNow grp0) ∧ grp0.goodTarget grp0.pc = true ∧
    decodeScalar (scalarWordAt (fetchSt 0x10200004).dev 0x1000) = .ok (.sAddi 2 0 4) ∧ soundStorage grp0 ∧
    (∃ r, decodeScalar (scalarWordAt (fetchSt 0x00000000 ).dev 0x1000) = .error r ∨ decodeScalar (scalarWordAt (fetchSt 0x00000001).dev 0x1000) = .error r ∨
      decodeScalar (scalarWordAt (fetchSt 0xF0000000).dev 0x1000) = .error r) ∧
    laneGrp.queue ≠ [] ∧
    fetchErrors (fetchSt 0x10200004).dev 0x1000 4 = none ∧ (fetchErrors { dev0 with errors := [(32, ⟨1, 0, false, 0⟩)] } 0x1000 4).isSome = true ∧
    (fetchErrors { dev0 with errors := [(64, ⟨0, 1, false, 0⟩)] } (laneGrp.laneBase + 12 * laneGrp.lpos) 12).isSome = true ∧
    (∃ i, decodeLane (laneWordAt (laneFetchSt 0x3400000104250B580000000F).dev laneGrp 0) = .ok i) ∧ soundStorage laneGrp ∧ fileFits laneSt := by
  refine ⟨by decide +kernel, ⟨_, rfl, rfl, rfl, rfl, rfl⟩, by decide, rfl, rfl, rfl, rfl, rfl, by decide, rfl, ⟨by decide, rfl, rfl, by decide⟩, by decide,
    by decide +kernel, ⟨rfl, rfl, rfl⟩, ?_, by decide, rfl, by decide +kernel, by decide +kernel, ?_, ⟨rfl, rfl, rfl⟩, ?_⟩
  · exact ⟨_, .inr (.inr rfl)⟩
  · exact ⟨_, rfl⟩
  · unfold fileFits; decide +kernel
theorem wit_AgendaTurns :
    ({ st0 with agenda := [.event (.ptsTick 0)] } : State).agenda = .event (.ptsTick 0) :: [] ∧ grp0.live = true ∧ canIssue dev0 grp0 = true ∧
    ({ st0 with agenda := [.scalar 1] } : State).agenda = .scalar grp0.gid :: [] ∧ mustStall dev0 laneGrp (.sMfs 1 8) = true ∧
    mustStall dev0 laneGrp (.sAddi 1 2 3) = false ∧ laneGrp.queue ≠ [] ∧ grp0.queue = [] ∧
    (∀ k, k < 4 → epochDue dev0 k = true → (dev0.die k).turning = true) ∧ dev0.regWrites = [] ∧ mayIssue dev0 laneGrp = true ∧
    soundStorage laneGrp ∧ laneGrp.heldWords = [] ∧ laneGrp.dueTrap = none ∧ laneGrp.goodTarget laneGrp.pc = true ∧
    scalarAccesses (.sLdN64 4 1 0) = true ∧ scalarForks (.cpRun 4) = true ∧ blocksAhead dev0 laneGrp = 0 ∧
    (scalarAccesses (.sAddi 1 2 3) = false ∧ scalarForks (.sAddi 1 2 3) = false) ∧
    (let d := (laneFetchSt 0x280218006C2D0B4002000000).dev
     blocksAhead d laneGrp ≠ 0 ∧ mustStall d laneGrp (.sLdN64 4 1 0) = false ∧ holdable laneGrp (.sLdN64 4 1 0) = true ∧
     holdable laneGrp (.syRel 3 4 .t) = false ∧
     ∃ t, exec (.sLdN64 4 1 0) { grp := { laneGrp with queue := [], lpos := 0 }, dev := d } = .next t ∧ t.stalled = false ∧ t.grp.live = true ∧
      t.grp.pc = laneGrp.pc + 4 ∧ t.grp.inHandler = laneGrp.inHandler) ∧
    forkWaits dev0 grp0 = false ∧ forkWaits (laneFetchSt 0x280218006C2D0B4002000000).dev laneGrp = true ∧ fetchErrors dev0 0x1000 4 = none ∧
    freePipes laneSt.mach 0 0 ≠ 0 ∧ chainSt.grp.chain ≠ none := by
  refine ⟨rfl, rfl, by decide, rfl, by decide +kernel, by decide +kernel, by decide, rfl, by decide +kernel, rfl, by decide, ⟨rfl, rfl, rfl⟩,
    rfl, rfl, by decide, rfl, rfl, by decide +kernel, ⟨rfl, rfl⟩, ⟨by decide +kernel, by decide +kernel, rfl, rfl, ?_⟩, by decide, by decide +kernel, rfl, by decide, by decide⟩
  exact ⟨_, rfl, by decide +kernel, by decide +kernel, by decide +kernel, by decide +kernel⟩
theorem wit_ControlRegistersStayLegal : st0.regs.legal = true ∧ ∃ t, step (fetchSt 0x10200004) = .next t :=
  ⟨by decide, ⟨_, rfl⟩⟩
theorem wit_WritesKeepTheForm : dev0.mem.wf = true ∧ (queueMem 1 0).wf = true := by decide +kernel

/-! ### Witnesses for the encoding and for emulation -/

theorem wit_DecodeThenEncode :
    decodeScalar 0x0030C200 = .ok (.sAdd 3 3 2) ∧
    decodeLane 0x0000040010070B7800000000 = .ok (.vAdd .i32 ⟨false, 0, 2, false, false, 0, 1, false, 1, true, 267, false, 0xF000, 0⟩) :=
  ⟨rfl, rfl⟩
theorem wit_EmulationEntries :
    grp0.emuFrame = none ∧ grp0.emuv ≠ 0 ∧ grp0.goodTarget grp0.emuv = true ∧ kindOf .cond ≤ 3 ∧ kindOf .sEmu = 8 ∧ grp0.queue = [] ∧
    laneGrp.emuFrame = none ∧ laneGrp.emuv ≠ 0 ∧ laneGrp.goodTarget laneGrp.emuv = true ∧ 4 ≤ kindOf .op10 ∧ kindOf .op10 ≠ 8 ∧
    (∃ (w : BitVec 96) (n : BitVec 6) (x : Wide), w = wideWord (15#4 ++ n) x) ∧ lanesPending laneSt.mach = false ∧ laneGrp.chain = none :=
  ⟨rfl, by decide, by decide, by decide, by decide, rfl, rfl, by decide, by decide, by decide, by decide,
    ⟨_, 5, farWord, rfl⟩, by decide, rfl⟩

/-! ### Decoding: words of the spec's listings and of its layouts, bit by bit -/

/-- R13, R94: major 0b001000, sd 4, sa 7, shift 2 (the low six bits of the immediate; the upper eight are zero). -/
theorem test_decode_shift : decodeScalar 0b001000_000100_000111_00000000_000010 = .ok (.sShli 4 7 2)  := rfl
theorem test_decode_unary : decodeScalar 0x0C924002 = .ok (.sPopc 9 9) := rfl
theorem test_decode_compare : decodeScalar 0x08818102 = .ok (.sSlt 8 6 1) := rfl
theorem test_decode_lane_hand_off :
    decodeScalar 0x50000001 = .ok (.lrun 0 1) ∧ decodeScalar 0x50000405 = .ok (.lrun 2 5) ∧ decodeScalar 0x5C000010 = .ok .lwait := ⟨rfl, rfl, rfl⟩
theorem test_decode_wait : decodeScalar 0x5C024003 = .ok (.sWait .mx 9) := rfl
theorem test_decode_special_write : decodeScalar 0x58418001 = .ok (.sMts 4 6) := rfl
theorem test_decode_stores :
    decodeScalar 0x78150001 = .ok (.sStN32 1 5 1) ∧ decodeScalar 0x7D420002 = .ok (.sStN64 20 2 2) ∧
    decodeScalar 0x90350000 = .ok (.cSt 3 5 0) := ⟨rfl, rfl, rfl⟩
theorem test_decode_capability_read : decodeScalar 0x99810006 = .ok (.cGett 24 4) := rfl
theorem test_decode_sync :
    decodeScalar 0xA470C003 = .ok (.syAcq 7 3 .d) ∧ decodeScalar 0xA4800024 = .ok (.syBar 8) ∧
    decodeScalar 0xA050C600 = .ok (.syRmw 5 3 6 .add .rlx .g) := ⟨rfl, rfl, rfl⟩
theorem test_decode_collectives : decodeScalar 0xAC01C301 = .ok (.clGive 7 3) := rfl
theorem test_decode_matrix_reservations :
    decodeScalar 0xB0F28E10 = .ok (.mxRes 15 10 14 .d8) ∧ decodeScalar 0xB143C01A = .ok (.mxRinfo 20 15) ∧
    decodeScalar 0xB003C018 = .ok (.mxFree 15) ∧ decodeScalar 0xB003C019 = .ok (.mxAzero 15) := ⟨rfl, rfl, rfl, rfl⟩
theorem test_decode_record :
    decodeScalar 0xB4010001 = .ok (.recEnd 4) ∧ decodeScalar 0xB4010002 = .ok (.recReplay 4) ∧ decodeScalar 0xB4010003 = .ok (.recRerecord 4) ∧
    decodeScalar 0xB4010004 = .ok (.recDrop 4) ∧ decodeScalar 0xB4510008 = .ok (.recStatus 5 4) ∧ decodeScalar 0xB4510009 = .ok (.recRte 5 4) :=
  ⟨rfl, rfl, rfl, rfl, rfl, rfl⟩
theorem test_decode_time : decodeScalar 0xFC0C5000 = .ok (.sysTime 5) := rfl
theorem test_decode_wide_integer :
    decodeLane 0x00000A10A4250B7800000006 = .ok (.vAdd .i32 ⟨false, 0, 5, false, false, 0, 266, false, 265, false, 267, false, 0xF000, 6⟩) := rfl
theorem test_decode_wide_move :
    decodeLane 0x05902010842D0B7800000000 = .ok (.vMov .n32 ⟨false, 0, 16, false, false, 0, 264, false, 267, false, 267, false, 0xF000, 0⟩) := rfl
theorem test_decode_wide_shift :
    decodeLane 0x04900C005C210B7800000002 = .ok (.vShl .n32 ⟨false, 0, 6, false, false, 0, 5, true, 264, false, 267, false, 0xF000, 2⟩) := rfl
theorem test_decode_wide_masked :
    decodeLane 0x0022200100330B7800000000 = .ok (.vAdd .f32 ⟨false, 1, 16, false, false, 0, 16, false, 12, true, 267, false, 0xF000, 0⟩) := rfl
/-- The pair of R24's example: slot X is `v.add.f32 v4, v5, v6`, slot Y is `v.mul.f32 v9, v10, v11`. -/
theorem test_decode_pair :
    decodeLane 0x81020140C00012090502C000 =
      .ok (.vAddNarrow false .f32 ⟨4, false, 5, false, 6, false, 0, false, 0⟩
        (.op .mul .f32 ⟨9, false, 10, false, 11, false, 0, false, 0⟩)) := rfl
theorem test_decode_lane_compare :
    decodeLane 0x1D00020054250B1004000001 = .ok (.vCmp ⟨false, 0, 1, false, false, 0, 5, false, 265, false, 267, false, 0x2008, 1⟩) := rfl
theorem test_decode_lane_load :
    decodeLane 0x280218006C2D0B4002000000 = .ok (.vLd ⟨false, 1, 12, false, false, 0, 6, true, 267, false, 267, false, 0x8004, 0⟩) := rfl
theorem test_decode_exchange :
    decodeLane 0x1D801210B42D0B7802000000 = .ok (.vBallot ⟨false, 0, 9, false, false, 0, 267, false, 267, false, 267, false, 0xF004, 0⟩) ∧
    decodeLane 0x210014010C2D0B4000800000 = .ok (.vRed ⟨false, 0, 10, false, false, 0, 16, true, 267, false, 267, false, 0x8001, 0⟩) := ⟨rfl, rfl⟩
theorem test_decode_lane_capability :
    decodeLane 0x28601010B42D0B7803000000 = .ok (.cBcast ⟨false, 0, 8, false, false, 0, 267, false, 267, false, 267, false, 0xF006, 0⟩) := rfl
/-- R28: a reserved major opcode, function and condition, and an unused field that is not zero. -/
theorem test_decode_refuses :
    decodeScalar 0xF0000000 = .error .major ∧ decodeScalar 0x000000FF = .error .fn ∧ decodeScalar 0x400E0000 = .error .cond ∧
    decodeScalar 0xFC000001 = .error .unused := ⟨rfl, rfl, rfl, rfl⟩

/-! ### Well-formedness refuses -/

/-- R104: special number 0x05 names no register, and `m0` is not written. -/
theorem test_wf_special : Instr.wf (.sMfs 1 0x05) = false ∧ Instr.wf (.sMts 0x30 1) = false ∧ Instr.wf (.sMfs 1 0x30) = true := by decide
/-- R224: `sy.rmw` without an order names no scope. -/
theorem test_wf_rmw : Instr.wf (.syRmw 5 3 6 .add .rlx .d) = false ∧ Instr.wf (.syRmw 5 3 6 .add .acq .d) = true := by decide
/-- R20, R115: a division has no type `.f32`; R18: selectors from 268 on are reserved. -/
theorem test_wf_wide :
    Instr.wf (.vDiv (wide 8 0 0 3 1 2 267 0)) = false ∧ Instr.wf (.vDiv (wide 2 0 0 3 1 2 267 0)) = true ∧
    Instr.wf (.vDiv (wide 2 0 0 3 300 2 267 0)) = false := by decide
/-- R23: `v.and` has no type `.f32` and `v.mov` no type `.i32`. -/
theorem test_wf_pair (x : Narrow) (y : Slot) :
    Instr.wf (.vAndNarrow false .f32 x y) = false ∧ Instr.wf (.vMovNarrow false .i32 x y) = false := ⟨rfl, rfl⟩

/-! ### One step -/

/-- What one instruction leaves, seen through `p`. -/
def leaves (i : Instr) (s : State) (p : State → Bool) : Bool :=
  match exec i s with
  | .next t => p t
  | _ => false
/-- The scalar register that an instruction leaves, with the address of the next word. -/
def leavesS (i : Instr) (k : Nat) (x : Word) : Bool := leaves i (st sGrp) fun t => t.grp.rs k == x && t.grp.pc == 0x1004
/-- The element that a lane word leaves in v3 of lane 0, from v1 = 7 and v2 = 2. -/
def leavesV (i : Instr) (x : Word) : Bool := leaves i laneSt fun t => (t.grp.lanes.get 3 0).val == x
def f32Grp : Group := { laneGrp with lanes :=
  { val := [(256, 0x41200000), (320, 0x3F800000), (384, 0x40000000), (448, 0x3F000000)], mapped := [(4, true), (5, true), (6, true), (7, true)] } }

/-- R93: 7 + 2; the high half of (2^64 - 1)^2; -1 shifted right arithmetically. -/
theorem test_scalar_arithmetic :
    leavesS (.sAdd 9 1 2) 9 9 = true ∧ leavesS (.sMulhN 9 4 4) 9 0xFFFFFFFFFFFFFFFE = true ∧ leavesS (.sSra 9 4 2) 9 0xFFFFFFFFFFFFFFFF = true ∧
    leavesS (.sSub 0 1 2) 0 0 = true := by decide
/-- R93: the counts, and the exchange of bytes. -/
theorem test_scalar_bits :
    leavesS (.sClz 9 1) 9 61 = true ∧ leavesS (.sCtz 9 3) 9 64 = true ∧ leavesS (.sPopc 9 1) 9 3 = true ∧
    leavesS (.sBswap 9 1) 9 0x0700000000000000 = true := by decide
/-- R94: a sign-extended immediate. -/
theorem test_scalar_immediate : leavesS (.sAddi 9 1 0x3FFF) 9 6 = true ∧ leavesS (.sSltni 9 1 0x3FFF) 9 1 = true := by decide
/-- R95: the most negative number divided by -1, and a division by zero. -/
theorem test_scalar_division :
    leavesS (.sDivI 9 5 4) 9 0x8000000000000000 = true ∧ leavesS (.sRemI 9 5 4) 9 0 = true ∧
    leavesS (.sDivN 9 1 3) 9 0xFFFFFFFFFFFFFFFF = true ∧ leavesS (.sRemN 9 1 3) 9 7 = true := by decide
/-- R15, R97, R98: a branch taken backwards, a call that pushes the next address, a return to it. -/
theorem test_transfers :
    leaves (.sBnz 2 (-2)) (st { sGrp with pc := 0x1010 }) (fun t => t.grp.pc == 0x1008) = true ∧
    leaves (.sCall 4) (st sGrp) (fun t => t.grp.pc == 0x1010 && t.grp.stack == [0x1004]) = true ∧
    leaves .sRet (st { sGrp with stack := [0x1100] }) (fun t => t.grp.pc == 0x1100 && t.grp.stack.isEmpty) = true := by decide
/-- R98: a return with nothing to return to traps. -/
theorem test_empty_return : leaves .sRet (st sGrp) (fun t => t.grp.pc == 0x1800 && t.grp.inHandler && t.grp.code != 0) = true := by decide
/-- R99: the block joins the lane queue. -/
theorem test_lrun : leaves (.lrun 2 5) (st sGrp) (fun t => t.grp.queue.length == 1 && t.grp.pc == 0x1004) = true := by decide
/-- R42, R113: 7 - 2, and 7 × 2 with the running lanes' results. -/
theorem test_lane_arithmetic :
    leavesV (.vSub .i32 (wide 2 0 0 3 1 2 267 0)) 5 = true ∧ leavesV (.vMul .i32 (wide 2 0 0 3 1 2 267 0)) 14 = true := by decide +kernel
/-- R116: the quotient of 7 and 2, and a division by zero, which marks the lane. -/
theorem test_lane_division :
    leavesV (.vDiv (wide 2 0 0 3 1 2 267 0)) 3 = true ∧
    leaves (.vDiv (wide 2 0 0 3 1 8 267 0)) { laneSt with grp := { laneGrp with lanes := { file0 with mapped := [(1, true), (2, true), (8, true)] } } }
      (fun t => (t.grp.lanes.get 3 0).val == 0x7FFFFFFF && bit t.grp.dzmask 0) = true := by decide +kernel
/-- R25's example: the pair breaks R24, so Y reads what X wrote, and the warning is set. -/
theorem test_pair_split :
    leaves (.vAddNarrow false .f32 ⟨4, false, 5, false, 6, false, 0, false, 0⟩ (.op .add .f32 ⟨8, false, 4, false, 7, false, 0, false, 0⟩)) (st f32Grp)
      (fun t => (t.grp.lanes.get 4 0).val == 0x40400000 && (t.grp.lanes.get 8 0).val == 0x40600000) = true := by decide +kernel
/-- R24's example keeps both results apart: v4 := 1.0 + 2.0 while Y reads v4 = 10.0 before it is written. -/
theorem test_pair_together :
    leaves (.vAddNarrow false .f32 ⟨4, false, 5, false, 6, false, 0, false, 0⟩ (.op .add .f32 ⟨9, false, 4, false, 7, false, 0, false, 0⟩)) (st f32Grp)
      (fun t => (t.grp.lanes.get 4 0).val == 0x40400000 && (t.grp.lanes.get 9 0).val == 0x41280000) = true := by decide +kernel

def tstGrp : Group := { capGrp with s := [(1, 0x1122334455667788), (2, 8), (3, 0x80)] }
def bytesDev : Dev := { dev0 with mem := { bytes := [(0x4004, 0x81), (0x4005, 0xF2), (0x4006, 0xE3)] } }

/-- R101, R262: a store of four bytes, least significant first; the load sees bytes in the same order; an integer load extends
the sign and a natural one does not. Offsets count elements. -/
theorem test_scalar_memory :
    leaves (.sStN32 1 1 1) (st tstGrp) (fun t => [0x4004, 0x4005, 0x4006, 0x4007].map t.memByte == [0x88, 0x77, 0x66, 0x55]) = true ∧
    leaves (.sLdN16 9 1 2) { grp := tstGrp, dev := bytesDev } (fun t => t.grp.rs 9 == 0xF281) = true ∧
    leaves (.sLdI8 9 1 5) { grp := tstGrp, dev := bytesDev } (fun t => t.grp.rs 9 == 0xFFFFFFFFFFFFFFF2) = true ∧
    leaves (.sStN8 1 5 0) (st tstGrp) (fun t => t.grp.code == 16 && t.grp.pc == 0x1800) = true := by decide +kernel
/-- R156, R157, R159: the cursor moves within the bounds, the bounds shrink to [cursor, cursor + 8), and the reads see it. -/
theorem test_capabilities :
    leaves (.cAddc 9 1 2) (st tstGrp) (fun t => (t.grp.rc 9).cursor == 0x4008 && (t.grp.rc 9).tag) = true ∧
    leaves (.cSetb 9 1 2) (st tstGrp) (fun t => (t.grp.rc 9).base == 0x4000 && (t.grp.rc 9).top == 0x4008) = true ∧
    leaves (.cGetlen 9 1) (st tstGrp) (fun t => t.grp.rs 9 == 0x1000) = true ∧
    leaves (.cGett 9 5) (st tstGrp) (fun t => t.grp.rs 9 == 0) = true ∧
    leaves (.cCleart 9 1) (st tstGrp) (fun t => !(t.grp.rc 9).tag) = true := by decide +kernel
/-- R131: 7 < 2 is false and 7 ≠ 2 true in lane 0; the mask's bits above the width stay 0. R132: the ballot of `m0`. R137: the sum of v1 over the
lanes. -/
theorem test_lane_masks :
    leaves (.vCmp (wide 2 2 0 1 1 2 267 0)) laneSt (fun t => bit (t.grp.mask 1) 0 == false) = true ∧
    leaves (.vBallot (wide 15 0 0 9 267 267 267 0)) laneSt (fun t => t.grp.rs 9 == 0xFFFFFFFF) = true ∧
    leaves (.vRed (wide 2 0 1 10 1 267 267 0)) laneSt (fun t => t.grp.rs 10 == 7) = true := by decide +kernel
/-- R264: one tick raises the pts of every core of the die by 1. -/
theorem test_pts_tick : leaves (.ptsTick 0) (st grp0) (fun t => (t.dev.core 0).pts == (st0.dev.core 0).pts + 1) = true := by decide +kernel
/-- R175: the trap entry of a code saves the scalar address and enters the handler. -/
theorem test_trap_entry :
    leaves (.trapEntry 16) (st tstGrp) (fun t => t.grp.pc == 0x1800 && t.grp.code == 16 && t.grp.tspc == 0x1000 && t.grp.inHandler) = true := by decide
/-- R224: the value read is the old one, and memory holds the sum. -/
theorem test_sync_atomic :
    leaves (.syRmw 9 3 2 .add .rlx .g) (st tstGrp) (fun t => t.grp.rs 9 == 0 && t.memByte 0x8000 == 8) = true := by
  decide +kernel
end Sys2Proof.Tests
end

section
/-! ## The encoder and the decoder are inverse to each other -/

namespace Sys2Proof

/-! ### Cutting a word into its fields and joining them again -/

/-- A bit and the 1-bit field at its place. -/
theorem bit1_bit {n : Nat} (w : BitVec n) (k : Nat) : bit1 (bit w k) = w.extractLsb' k 1 := by
  ext i hi
  obtain rfl : i = 0 := by omega
  simp [bit1]

theorem bit_eq_field {n : Nat} (w : BitVec n) (k : Nat) : bit w k = bit (w.extractLsb' k 1) 0 := by simp

@[simp] theorem getElem_bit1 (b : Bool) : (bit1 b)[0] = b := by simp [bit1]

@[simp] theorem sr_major (mj d a b : BitVec 6) (fn : BitVec 8) : (sr mj d a b fn).extractLsb' 26 6 = mj := by
  simp (disch := omega) [sr, BitVec.extractLsb'_append_eq_of_le, -Nat.reduceAdd]

@[simp] theorem srFields_sr (mj d a b : BitVec 6) (fn : BitVec 8) : srFields (sr mj d a b fn) = ⟨d, a, b, fn⟩ := by
  simp (disch := omega) [sr, srFields, BitVec.extractLsb'_append_eq_of_le, BitVec.extractLsb'_append_eq_of_add_le,
    -Nat.reduceAdd]

theorem sr_srFields (w : BitVec 32) :
    sr (w.extractLsb' 26 6) (srFields w).d (srFields w).a (srFields w).b (srFields w).fn = w := by
  simp [sr, srFields, BitVec.extractLsb'_append_extractLsb'_eq_extractLsb', -Nat.reduceAdd]

theorem wideWord_fields (op10 : BitVec 10) (w : Wide) :
    wideFields (wideWord op10 w) = w ∧ (wideWord op10 w).extractLsb' 84 10 = op10 ∧ bit (wideWord op10 w) 95 = false := by
  cases w
  simp (disch := omega) only [wideWord, wideFields, bit_eq_field (n := 96), BitVec.extractLsb'_append_eq_of_le,
    BitVec.extractLsb'_append_eq_of_add_le, -Nat.reduceAdd]
  simp

theorem wideWord_wideFields (w : BitVec 96) (h : bit w 95 = false) : wideWord (w.extractLsb' 84 10) (wideFields w) = w := by
  have h0 : 0#1 = w.extractLsb' 95 1 := by rw [← bit1_bit, h]; rfl
  simp [wideWord, wideFields, bit1_bit, h0, BitVec.extractLsb'_append_extractLsb'_eq_extractLsb', -Nat.reduceAdd,
    -BitVec.getLsbD_eq_getElem]

@[simp] theorem lo4_reg4 (c : CReg) : lo4 (reg4 c) = c := by
  simp (disch := omega) [lo4, reg4, BitVec.extractLsb'_append_eq_of_add_le, -Nat.reduceAdd]
@[simp] theorem hi2_reg4 (c : CReg) : hi2 (reg4 c) = true := by
  simp (disch := omega) [hi2, reg4, BitVec.extractLsb'_append_eq_of_le, -Nat.reduceAdd]
theorem reg4_lo4 {f : BitVec 6} (h : hi2 f = true) : reg4 (lo4 f) = f := by
  have h0 : f.extractLsb' 4 2 = 0#2 := by simpa [hi2] using h
  rw [reg4, lo4, ← h0, BitVec.extractLsb'_append_extractLsb'_eq_extractLsb' (by rfl)]
  exact BitVec.extractLsb'_eq_self

/-- An SR word is decoded by the table of its major opcode. -/
@[simp] theorem decodeScalar_sr (d a b : BitVec 6) (fn : BitVec 8) :
    decodeScalar (sr 0x00#6 d a b fn) = decodeInt ⟨d, a, b, fn⟩ ∧
    decodeScalar (sr 0x01#6 d a b fn) = decodeMul ⟨d, a, b, fn⟩ ∧
    decodeScalar (sr 0x02#6 d a b fn) = decodeCmp ⟨d, a, b, fn⟩ ∧
    decodeScalar (sr 0x03#6 d a b fn) = decodeBits ⟨d, a, b, fn⟩ ∧
    decodeScalar (sr 0x13#6 d a b fn) = decodeJump ⟨d, a, b, fn⟩ ∧
    decodeScalar (sr 0x16#6 d a b fn) = decodeSpecial ⟨d, a, b, fn⟩ ∧
    decodeScalar (sr 0x17#6 d a b fn) = decodeWait ⟨d, a, b, fn⟩ ∧
    decodeScalar (sr 0x25#6 d a b fn) = decodeDerive ⟨d, a, b, fn⟩ ∧
    decodeScalar (sr 0x26#6 d a b fn) = decodeInspect ⟨d, a, b, fn⟩ ∧
    decodeScalar (sr 0x29#6 d a b fn) = decodeSync ⟨d, a, b, fn⟩ ∧
    decodeScalar (sr 0x2A#6 d a b fn) = decodeCopy ⟨d, a, b, fn⟩ ∧
    decodeScalar (sr 0x2B#6 d a b fn) = decodeCollective ⟨d, a, b, fn⟩ ∧
    decodeScalar (sr 0x2C#6 d a b fn) = decodeMatrix ⟨d, a, b, fn⟩ ∧
    decodeScalar (sr 0x2D#6 d a b fn) = decodeRecord ⟨d, a, b, fn⟩ ∧
    decodeScalar (sr 0x2E#6 d a b fn) = decodeSweep ⟨d, a, b, fn⟩ ∧
    decodeScalar (sr 0x28#6 d a b fn) = decodeRmw ⟨d, a, b, fn⟩ := by
  simp [decodeScalar]

@[simp] theorem si_fields (mj d a : BitVec 6) (imm : BitVec 14) :
    (si mj d a imm).extractLsb' 26 6 = mj ∧ (si mj d a imm).extractLsb' 20 6 = d ∧ (si mj d a imm).extractLsb' 14 6 = a ∧
    (si mj d a imm).extractLsb' 0 14 = imm := by
  simp (disch := omega) [si, BitVec.extractLsb'_append_eq_of_le, BitVec.extractLsb'_append_eq_of_add_le, -Nat.reduceAdd]

@[simp] theorem sb_fields (cond : BitVec 3) (a : BitVec 6) (disp : BitVec 17) :
    (sb cond a disp).extractLsb' 26 6 = 0x10#6 ∧ (sb cond a disp).extractLsb' 20 6 = a ∧
    (sb cond a disp).extractLsb' 17 3 = cond ∧ (sb cond a disp).extractLsb' 0 17 = disp := by
  simp (disch := omega) [sb, BitVec.extractLsb'_append_eq_of_le, BitVec.extractLsb'_append_eq_of_add_le, -Nat.reduceAdd]

@[simp] theorem sj_fields (mj : BitVec 6) (disp : BitVec 26) :
    (sj mj disp).extractLsb' 26 6 = mj ∧ (sj mj disp).extractLsb' 0 26 = disp := by
  simp (disch := omega) [sj, BitVec.extractLsb'_append_eq_of_le, BitVec.extractLsb'_append_eq_of_add_le, -Nat.reduceAdd]

@[simp] theorem sl_fields (off : BitVec 17) (cnt : BitVec 9) :
    (sl off cnt).extractLsb' 26 6 = 0x14#6 ∧ (sl off cnt).extractLsb' 9 17 = off ∧ (sl off cnt).extractLsb' 0 9 = cnt := by
  simp (disch := omega) [sl, BitVec.extractLsb'_append_eq_of_le, BitVec.extractLsb'_append_eq_of_add_le, -Nat.reduceAdd]

@[simp] theorem sm_fields (mj d : BitVec 6) (c : BitVec 4) (off : BitVec 16) :
    (sm mj d c off).extractLsb' 26 6 = mj ∧ (sm mj d c off).extractLsb' 20 6 = d ∧
    (sm mj d c off).extractLsb' 16 4 = c ∧ (sm mj d c off).extractLsb' 0 16 = off := by
  simp (disch := omega) [sm, BitVec.extractLsb'_append_eq_of_le, BitVec.extractLsb'_append_eq_of_add_le, -Nat.reduceAdd]

@[simp] theorem sx_fields (sub : BitVec 8) (a : BitVec 6) :
    (sx sub a).extractLsb' 26 6 = 0x3F#6 ∧ (sx sub a).extractLsb' 18 8 = sub ∧ (sx sub a).extractLsb' 12 6 = a ∧
    (sx sub a).extractLsb' 0 12 = 0#12 := by
  simp (disch := omega) [sx, BitVec.extractLsb'_append_eq_of_le, BitVec.extractLsb'_append_eq_of_add_le, -Nat.reduceAdd]

theorem si_shift (mj d a sh : BitVec 6) :
    (si mj d a (0#8 ++ sh)).extractLsb' 6 8 = 0#8 ∧ (si mj d a (0#8 ++ sh)).extractLsb' 0 6 = sh := by
  simp (disch := omega) [si, BitVec.extractLsb'_append_eq_of_le, BitVec.extractLsb'_append_eq_of_add_le, -Nat.reduceAdd]

@[simp] theorem decodeWait_code (p : Path) (r : BitVec 6) :
    decodeWait ⟨0#6, r, 0#6, p.code⟩ = .ok (.sWait p r) ∧ decodeWait ⟨r, 0#6, 0#6, p.code + 8#8⟩ = .ok (.sCnt r p) := by
  cases p <;> exact ⟨rfl, rfl⟩

@[simp] theorem decodeSync_code (sc : Scope) :
    (∀ d a, decodeSync ⟨d, reg4 a, 0#6, sc.code⟩ = .ok (.syAcq d a sc)) ∧
    (∀ a b, decodeSync ⟨0#6, reg4 a, b, sc.code + 8#8⟩ = .ok (.syRel a b sc)) ∧
    decodeSync ⟨0#6, 0#6, 0#6, sc.code + 16#8⟩ = .ok (.syFence sc) ∧
    ∀ d a b, decodeSync ⟨d, reg4 a, b, sc.code + 24#8⟩ = .ok (.syMwait d a b sc) := by
  cases sc <;> simp [Scope.code, decodeSync, need]

@[simp] theorem decodeMatrix_code (f : MxFmt) (d a b : SReg) :
    decodeMatrix ⟨d, a, b, f.code + 16#8⟩ = .ok (.mxRes d a b f) := by
  cases f <;> rfl

@[simp] theorem Scope.ofCode_code (sc : Scope) : Scope.ofCode sc.code.toNat = some sc := by cases sc <;> rfl
@[simp] theorem Ord.ofCode_code (o : Ord) : Ord.ofCode o.code.toNat = o := by cases o <;> rfl
@[simp] theorem AmoOp.ofCode_code (o : AmoOp) : AmoOp.ofCode o.code.toNat = o := by cases o <;> rfl
theorem rmwFn_fields (op : AmoOp) (ord : Ord) (sc : Scope) :
    (rmwFn op ord sc).extractLsb' 5 3 = op.code ∧ (rmwFn op ord sc).extractLsb' 3 2 = ord.code ∧
    ((rmwFn op ord sc).extractLsb' 0 3).toNat = sc.code.toNat := by
  have hs : (sc.code.extractLsb' 0 3).toNat = sc.code.toNat := by cases sc <;> rfl
  simp (disch := omega) [rmwFn, BitVec.extractLsb'_append_eq_of_le, BitVec.extractLsb'_append_eq_of_add_le, hs,
    -Nat.reduceAdd, -BitVec.extractLsb'_toNat]

@[simp] theorem decodeRmw_code (op : AmoOp) (ord : Ord) (sc : Scope) (d b : SReg) (a : CReg) (h : rmwWf ord sc = true) :
    decodeRmw ⟨d, reg4 a, b, rmwFn op ord sc⟩ = .ok (.syRmw d a b op ord sc) := by
  obtain ⟨ho, hr, hs⟩ := rmwFn_fields op ord sc
  simp [decodeRmw, ho, hr, hs, h, need, -BitVec.extractLsb'_toNat]

theorem decodeScalar_encodeScalar {i : Instr} {w : BitVec 32} (hw : i.wf = true) (h : encodeScalar i = some w) :
    decodeScalar w = .ok i := by
  cases i
  all_goals cases h
  case sMfs => simp [decodeSpecial, need, show specialReadable _ = true from hw]
  case sMts => simp [decodeSpecial, need, show specialWritable _ = true from hw]
  case syRmw => simp [show rmwWf _ _ = true from hw]
  case sWait | sCnt | syAcq | syRel | syFence | syMwait | mxRes => simp
  case sShli | sShri | sSrai => simp [decodeScalar, need, si_shift]
  case sBz | sBnz | sBlt | sBge | sBle | sBgt => simp [decodeScalar, decodeBranch]
  case sysEnd | sysTret | sysYield | sysTime | sTail | sysEmuret => simp [decodeScalar, decodeSystem, need]
  case sAddi | sAndi | sOri | sXori | sSlti | sSltni | sAddhi | sMuli | sJ | sCall | sEmu | lrun | sLdN8 | sLdN16 | sLdN32
      | sLdN64 | sStN8 | sStN16 | sStN32 | sStN64 | sLdI8 | sLdI16 | sLdI32 | cLd | cSt => simp [decodeScalar, need]
  all_goals simp [decodeInt, decodeMul, decodeCmp, decodeBits, decodeJump, decodeWait, decodeDerive, decodeInspect,
    decodeSync, decodeCopy, decodeCollective, decodeMatrix, decodeRecord, decodeSweep, need]

/-- The instruction is well-formed and `w` is its scalar word. -/
def IsScalarWord (i : Instr) (w : BitVec 32) : Prop := i.wf = true ∧ encodeScalar i = some w

theorem need_eq_ok {c : Bool} {i j : Instr} : need c j = .ok i ↔ c = true ∧ j = i := by
  cases c <;> simp [need]

theorem ok_eq_ok {i j : Instr} : (Except.ok j : Except Reserved Instr) = .ok i ↔ True ∧ j = i := by simp

/-- The decoder of one SR major opcode reads only words that it would write again. -/
def SrInverse (mj : BitVec 6) (dec : SrFields → Except Reserved Instr) : Prop :=
  ∀ f i, dec f = .ok i → IsScalarWord i (sr mj f.d f.a f.b f.fn)

theorem isScalarWord_sr {i : Instr} {mj d a b : BitVec 6} {fn : BitVec 8} {f : SrFields} (hw : i.wf = true)
    (he : encodeScalar i = some (sr mj d a b fn)) (hd : d = f.d) (ha : a = f.a) (hb : b = f.b) (hf : f.fn.toNat = fn.toNat) :
    IsScalarWord i (sr mj f.d f.a f.b f.fn) := by
  refine ⟨hw, ?_⟩
  rw [he, hd, ha, hb, BitVec.eq_of_toNat_eq hf]


theorem srInverse_special : SrInverse 0x16 decodeSpecial := by
  intro f i h
  simp only [decodeSpecial] at h
  split at h <;> simp only [need_eq_ok, reduceCtorEq, Bool.and_eq_true, beq_iff_eq] at h <;> obtain ⟨⟨hz, hn⟩, rfl⟩ := h
  · exact isScalarWord_sr (b := f.b) hn rfl rfl hz.symm rfl (by assumption)
  · exact isScalarWord_sr (d := f.d) hn rfl rfl rfl hz.symm (by assumption)

theorem Scope.code_of_ofCode {n : Nat} {sc : Scope} (h : Scope.ofCode n = some sc) : sc.code.toNat = n := by
  unfold Scope.ofCode at h
  split at h <;> cases h <;> rfl

theorem code_ofCode :
    (∀ x : BitVec 2, (Ord.ofCode x.toNat).code = x) ∧ ∀ x : BitVec 3, (AmoOp.ofCode x.toNat).code = x := by
  decide

theorem rmwFn_ofCode {fn : BitVec 8} {sc : Scope} (h : Scope.ofCode (fn.extractLsb' 0 3).toNat = some sc) :
    rmwFn (AmoOp.ofCode (fn.extractLsb' 5 3).toNat) (Ord.ofCode (fn.extractLsb' 3 2).toNat) sc = fn := by
  have hs : sc.code.extractLsb' 0 3 = fn.extractLsb' 0 3 := by
    apply BitVec.eq_of_toNat_eq
    rw [← Scope.code_of_ofCode h]
    cases sc <;> rfl
  rw [rmwFn, code_ofCode.1, code_ofCode.2, hs]
  simp [BitVec.extractLsb'_append_extractLsb'_eq_extractLsb', -Nat.reduceAdd]

theorem srInverse_rmw : SrInverse 0x28 decodeRmw := by
  intro f i h
  simp only [decodeRmw] at h
  split at h
  · cases h
  next sc hs =>
    split at h
    next hw =>
      obtain ⟨hc, rfl⟩ := need_eq_ok.1 h
      exact isScalarWord_sr hw rfl rfl (reg4_lo4 hc) rfl (by rw [rmwFn_ofCode hs])
    · cases h

theorem srInverse_table :
    SrInverse 0x00 decodeInt ∧ SrInverse 0x01 decodeMul ∧ SrInverse 0x02 decodeCmp ∧ SrInverse 0x03 decodeBits ∧
    SrInverse 0x13 decodeJump ∧ SrInverse 0x17 decodeWait ∧ SrInverse 0x25 decodeDerive ∧ SrInverse 0x26 decodeInspect ∧
    SrInverse 0x29 decodeSync ∧ SrInverse 0x2A decodeCopy ∧ SrInverse 0x2B decodeCollective ∧
    SrInverse 0x2C decodeMatrix ∧ SrInverse 0x2D decodeRecord ∧ SrInverse 0x2E decodeSweep := by
  refine ⟨?_, ?_, ?_, ?_, ?_, ?_, ?_, ?_, ?_, ?_, ?_, ?_, ?_, ?_⟩ <;> intro f i h <;>
    simp only [decodeInt, decodeMul, decodeCmp, decodeBits, decodeJump, decodeWait, decodeDerive, decodeInspect, decodeSync,
      decodeCopy, decodeCollective, decodeMatrix, decodeRecord, decodeSweep] at h <;> split at h <;>
    simp only [need_eq_ok, ok_eq_ok, reduceCtorEq, Bool.and_eq_true, beq_iff_eq] at h <;> obtain ⟨hc, rfl⟩ := h
  all_goals
    exact isScalarWord_sr rfl rfl (by simp [hc, reg4_lo4]) (by simp [hc, reg4_lo4]) (by simp [hc, reg4_lo4]) (by assumption)

theorem si_of_fields (w : BitVec 32) :
    si (w.extractLsb' 26 6) (w.extractLsb' 20 6) (w.extractLsb' 14 6) (w.extractLsb' 0 14) = w := by
  simp [si, BitVec.extractLsb'_append_extractLsb'_eq_extractLsb', -Nat.reduceAdd]
theorem sj_of_fields (w : BitVec 32) :
    sj (w.extractLsb' 26 6) (w.extractLsb' 0 26) = w := by
  simp [sj, BitVec.extractLsb'_append_extractLsb'_eq_extractLsb', -Nat.reduceAdd]
theorem sm_of_fields (w : BitVec 32) :
    sm (w.extractLsb' 26 6) (w.extractLsb' 20 6) (w.extractLsb' 16 4) (w.extractLsb' 0 16) = w := by
  simp [sm, BitVec.extractLsb'_append_extractLsb'_eq_extractLsb', -Nat.reduceAdd]
theorem sb_of_fields {w : BitVec 32} (h : w.extractLsb' 26 6 = 0x10#6) :
    sb (w.extractLsb' 17 3) (w.extractLsb' 20 6) (w.extractLsb' 0 17) = w := by
  simp [sb, ← h, BitVec.extractLsb'_append_extractLsb'_eq_extractLsb', -Nat.reduceAdd]
theorem sl_of_fields {w : BitVec 32} (h : w.extractLsb' 26 6 = 0x14#6) :
    sl (w.extractLsb' 9 17) (w.extractLsb' 0 9) = w := by
  simp [sl, ← h, BitVec.extractLsb'_append_extractLsb'_eq_extractLsb', -Nat.reduceAdd]
theorem sx_of_fields {w : BitVec 32} (h : w.extractLsb' 26 6 = 0x3F#6) (hz : w.extractLsb' 0 12 = 0#12) :
    sx (w.extractLsb' 18 8) (w.extractLsb' 12 6) = w := by
  simp [sx, ← h, ← hz, BitVec.extractLsb'_append_extractLsb'_eq_extractLsb', -Nat.reduceAdd]

/-- A decoded SR word: its major opcode is the decoder's. -/
theorem SrInverse.word {mj : BitVec 6} {dec : SrFields → Except Reserved Instr} (hd : SrInverse mj dec) {w : BitVec 32}
    {i : Instr} (hm : (w.extractLsb' 26 6).toNat = mj.toNat) (h : dec (srFields w) = .ok i) : IsScalarWord i w := by
  have := hd _ _ h
  rwa [← BitVec.eq_of_toNat_eq hm, sr_srFields] at this

section
variable {w : BitVec 32} {i : Instr} (hw : i.wf = true)
include hw

theorem isScalarWord_si {mj : BitVec 6} {imm : BitVec 14}
    (he : encodeScalar i = some (si mj (w.extractLsb' 20 6) (w.extractLsb' 14 6) imm))
    (hm : (w.extractLsb' 26 6).toNat = mj.toNat) (hi : imm = w.extractLsb' 0 14) : IsScalarWord i w :=
  ⟨hw, by rw [he, hi, ← BitVec.eq_of_toNat_eq hm, si_of_fields]⟩

theorem isScalarWord_sj {mj : BitVec 6} (he : encodeScalar i = some (sj mj (w.extractLsb' 0 26)))
    (hm : (w.extractLsb' 26 6).toNat = mj.toNat) : IsScalarWord i w :=
  ⟨hw, by rw [he, ← BitVec.eq_of_toNat_eq hm, sj_of_fields]⟩

theorem isScalarWord_sm {mj d : BitVec 6}
    (he : encodeScalar i = some (sm mj d (w.extractLsb' 16 4) (w.extractLsb' 0 16)))
    (hm : (w.extractLsb' 26 6).toNat = mj.toNat) (hd : d = w.extractLsb' 20 6) : IsScalarWord i w :=
  ⟨hw, by rw [he, hd, ← BitVec.eq_of_toNat_eq hm, sm_of_fields]⟩

theorem isScalarWord_sb {cond : BitVec 3} (hm : (w.extractLsb' 26 6).toNat = 0x10)
    (he : encodeScalar i = some (sb cond (w.extractLsb' 20 6) (w.extractLsb' 0 17)))
    (hc : (w.extractLsb' 17 3).toNat = cond.toNat) : IsScalarWord i w :=
  ⟨hw, by rw [he, ← BitVec.eq_of_toNat_eq hc, sb_of_fields (BitVec.eq_of_toNat_eq hm)]⟩

theorem isScalarWord_sl (hm : (w.extractLsb' 26 6).toNat = 0x14)
    (he : encodeScalar i = some (sl (w.extractLsb' 9 17) (w.extractLsb' 0 9))) : IsScalarWord i w :=
  ⟨hw, by rw [he, sl_of_fields (BitVec.eq_of_toNat_eq hm)]⟩

theorem isScalarWord_sx {sub : BitVec 8} {a : BitVec 6} (hm : (w.extractLsb' 26 6).toNat = 0x3F)
    (he : encodeScalar i = some (sx sub a)) (hs : (w.extractLsb' 18 8).toNat = sub.toNat) (ha : a = w.extractLsb' 12 6)
    (hz : w.extractLsb' 0 12 = 0) : IsScalarWord i w :=
  ⟨hw, by rw [he, ← BitVec.eq_of_toNat_eq hs, ha, sx_of_fields (BitVec.eq_of_toNat_eq hm) hz]⟩

end

theorem decodeBranch_inverse {w : BitVec 32} {i : Instr} (hm : (w.extractLsb' 26 6).toNat = 0x10)
    (h : decodeBranch w = .ok i) : IsScalarWord i w := by
  simp only [decodeBranch] at h
  split at h <;> cases h
  all_goals exact isScalarWord_sb rfl hm rfl (by assumption)

theorem decodeSystem_inverse {w : BitVec 32} {i : Instr} (hm : (w.extractLsb' 26 6).toNat = 0x3F)
    (h : decodeSystem w = .ok i) : IsScalarWord i w := by
  simp only [decodeSystem] at h
  split at h <;> simp only [need_eq_ok, reduceCtorEq, Bool.and_eq_true, beq_iff_eq] at h <;> obtain ⟨hc, rfl⟩ := h
  all_goals exact isScalarWord_sx rfl hm rfl (by assumption) (by simp [hc, reg4_lo4]) (by simp [hc])

theorem shift_of_fields {w : BitVec 32} (h : w.extractLsb' 6 8 = 0#8) : 0#8 ++ w.extractLsb' 0 6 = w.extractLsb' 0 14 := by
  rw [← h, BitVec.extractLsb'_append_extractLsb'_eq_extractLsb' (by rfl)]

theorem decodeScalar_inverse {w : BitVec 32} {i : Instr} (h : decodeScalar w = .ok i) : IsScalarWord i w := by
  obtain ⟨hInt, hMul, hCmp, hBits, hJump, hWait, hDerive, hInspect, hSync, hCopy, hCollective, hMatrix, hRecord,
    hSweep⟩ := srInverse_table
  simp only [decodeScalar] at h
  split at h
  case h_1 hm => exact hInt.word hm h
  case h_2 hm => exact hMul.word hm h
  case h_3 hm => exact hCmp.word hm h
  case h_4 hm => exact hBits.word hm h
  case h_5 hm => exact hJump.word hm h
  case h_6 hm => exact srInverse_special.word hm h
  case h_7 hm => exact hWait.word hm h
  case h_8 hm => exact hDerive.word hm h
  case h_9 hm => exact hInspect.word hm h
  case h_10 hm => exact hSync.word hm h
  case h_11 hm => exact hCopy.word hm h
  case h_12 hm => exact hCollective.word hm h
  case h_13 hm => exact hMatrix.word hm h
  case h_14 hm => exact hRecord.word hm h
  case h_15 hm => exact hSweep.word hm h
  case h_16 hm => exact srInverse_rmw.word hm h
  case h_17 hm | h_18 hm | h_19 hm | h_20 hm | h_21 hm | h_22 hm | h_23 hm | h_24 hm =>
    cases h
    exact isScalarWord_si rfl rfl hm rfl
  case h_25 hm | h_26 hm | h_27 hm =>
    obtain ⟨hc, rfl⟩ := need_eq_ok.1 h
    exact isScalarWord_si rfl rfl hm (shift_of_fields (by simpa using hc))
  case h_28 hm => exact decodeBranch_inverse hm h
  case h_29 hm | h_30 hm | h_45 hm =>
    cases h
    exact isScalarWord_sj rfl rfl hm
  case h_31 hm =>
    cases h
    exact isScalarWord_sl rfl hm rfl
  case h_32 hm | h_33 hm | h_34 hm | h_35 hm | h_36 hm | h_37 hm | h_38 hm | h_39 hm | h_40 hm | h_41 hm | h_42 hm =>
    cases h
    exact isScalarWord_sm rfl rfl hm rfl
  case h_43 hm | h_44 hm =>
    obtain ⟨hc, rfl⟩ := need_eq_ok.1 h
    exact isScalarWord_sm rfl rfl hm (reg4_lo4 hc)
  case h_46 hm => exact decodeSystem_inverse hm h
  case h_47 => cases h

/-! ### Lane words -/

theorem pairInstr_of_pair {i : Instr} {ce : Bool} {x y : Slot} (h : i.pair? = some (ce, x, y)) : pairInstr ce x y = i := by
  cases i
  case vNop f => cases f <;> cases h; rfl
  all_goals cases h <;> rfl

theorem pair_pairInstr (ce : Bool) (x y : Slot) :
    (pairInstr ce x y).pair? = some (ce, x, y) ∧ (pairInstr ce x y).wide? = none ∧
    (pairInstr ce x y).wf = (x.wf && y.wf) := by
  cases x with
  | nop raw => exact ⟨rfl, rfl, rfl⟩
  | op o t f => cases o <;> exact ⟨rfl, rfl, rfl⟩

theorem wide_cases {i : Instr} {n : Nat} {w : Wide} (h : i.wide? = some (n, w)) :
    (∃ k, i = .vEmu k w ∧ n = 0x3C0 + k.toNat) ∨
    (i.wf = laneLegal n w ∧ n < 0x3C0 ∧ wideInstr n w = some i) := by
  cases i
  case vNop f =>
    cases f <;> cases h
    exact .inr ⟨rfl, by decide, rfl⟩
  case vEmu k w =>
    cases h
    exact .inl ⟨k, rfl, rfl⟩
  case vAdd t w | vSub t w | vMul t w | vFma t w | vMin t w | vMax t w | vAnd t w | vOr t w | vXor t w | vShl t w
      | vShr t w | vMov t w | vAbs t w | vNeg t w | vMulhi t w | vClamp t w =>
    cases h
    cases t <;> exact .inr ⟨rfl, by decide, rfl⟩
  all_goals cases h <;> exact .inr ⟨rfl, by decide, rfl⟩

@[simp] theorem NOp.ofCode_code (o : NOp) : NOp.ofCode o.code = some o := by cases o <;> rfl
@[simp] theorem NTy.ofCode_code (t : NTy) : NTy.ofCode t.code = some t := by cases t <;> rfl
theorem NOp.code_of_ofCode {n : Nat} {o : NOp} (h : NOp.ofCode n = some o) : o.code = n := by
  unfold NOp.ofCode at h
  split at h <;> cases h <;> rfl
theorem NTy.code_of_ofCode {n : Nat} {t : NTy} (h : NTy.ofCode n = some t) : t.code = n := by
  unfold NTy.ofCode at h
  split at h <;> cases h <;> rfl
theorem NOp.code_lt (o : NOp) : o.code < 16 := by cases o <;> decide
theorem NTy.code_lt (t : NTy) : t.code < 5 := by cases t <;> decide

theorem wideInstr_wide {n : Nat} {w : Wide} {i : Instr} (h : wideInstr n w = some i) :
    i.wide? = some (n, w) ∧ i.wf = laneLegal n w := by
  unfold wideInstr at h
  split at h
  · next hn => cases h; cases hn; exact ⟨rfl, rfl⟩
  · split at h
    · next hn =>
      split at h
      · next o t ho ht =>
        cases h
        obtain rfl : n = 8 * o.code + t.code := by
          rw [NOp.code_of_ofCode ho, NTy.code_of_ofCode ht]
          omega
        cases o <;> exact ⟨rfl, rfl⟩
      · cases h
    · unfold ofOp10 at h
      split at h <;> cases h <;> exact ⟨rfl, rfl⟩

theorem pairWord_fields (ce : Bool) (x y : Slot) :
    bit (pairWord ce x y) 95 = true ∧ bit (pairWord ce x y) 94 = ce ∧
    (pairWord ce x y).extractLsb' 87 7 = (slotBits x).extractLsb' 40 7 ∧
    (pairWord ce x y).extractLsb' 47 40 = (slotBits x).extractLsb' 0 40 ∧
    (pairWord ce x y).extractLsb' 40 7 = (slotBits y).extractLsb' 40 7 ∧
    (pairWord ce x y).extractLsb' 0 40 = (slotBits y).extractLsb' 0 40 := by
  simp (disch := omega) only [pairWord, bit_eq_field (n := 96), BitVec.extractLsb'_append_eq_of_le,
    BitVec.extractLsb'_append_eq_of_add_le, -Nat.reduceAdd]
  simp

theorem pairWord_of_fields {w : BitVec 96} {x y : Slot} (h : bit w 95 = true)
    (hx : slotBits x = w.extractLsb' 87 7 ++ w.extractLsb' 47 40) (hy : slotBits y = w.extractLsb' 40 7 ++ w.extractLsb' 0 40) :
    pairWord (bit w 94) x y = w := by
  have h1 : 1#1 = w.extractLsb' 95 1 := by rw [← bit1_bit, h]; rfl
  rw [BitVec.extractLsb'_append_extractLsb'_eq_extractLsb' (by rfl)] at hx hy
  simp [pairWord, bit1_bit, h1, hx, hy, BitVec.extractLsb'_append_extractLsb'_eq_extractLsb', -Nat.reduceAdd,
    -BitVec.getLsbD_eq_getElem]

theorem narrowFields_narrowBits (f : Narrow) : narrowFields (narrowBits f) = f := by
  cases f
  simp (disch := omega) only [narrowFields, narrowBits, bit_eq_field (n := 40), BitVec.extractLsb'_append_eq_of_le,
    BitVec.extractLsb'_append_eq_of_add_le, -Nat.reduceAdd]
  simp

theorem narrowBits_narrowFields (v : BitVec 40) : narrowBits (narrowFields v) = v := by
  simp [narrowFields, narrowBits, bit1_bit, BitVec.extractLsb'_append_extractLsb'_eq_extractLsb', -Nat.reduceAdd,
    -BitVec.getLsbD_eq_getElem]


theorem slotBits_op (o : NOp) (t : NTy) (f : Narrow) :
    (slotBits (.op o t f)).extractLsb' 40 7 = BitVec.ofNat 7 (8 * o.code + t.code) ∧
    (slotBits (.op o t f)).extractLsb' 0 40 = narrowBits f := by
  simp (disch := omega) [slotBits, BitVec.extractLsb'_append_eq_of_le, BitVec.extractLsb'_append_eq_of_add_le,
    -Nat.reduceAdd]

theorem decodeSlot_slotBits {x : Slot} (h : x.wf = true) :
    decodeSlot ((slotBits x).extractLsb' 40 7) ((slotBits x).extractLsb' 0 40) = some x := by
  cases x with
  | nop raw =>
    simp (disch := omega) [slotBits, decodeSlot, BitVec.extractLsb'_append_eq_of_le, BitVec.extractLsb'_append_eq_of_add_le,
      -Nat.reduceAdd]
  | op o t f =>
    obtain ⟨hop, hv⟩ := slotBits_op o t f
    have ho := o.code_lt
    have ht := t.code_lt
    have hval : o.valid t = true := h
    have hnum : (BitVec.ofNat 7 (8 * o.code + t.code)).toNat = 8 * o.code + t.code := Nat.mod_eq_of_lt (by omega)
    have hne : BitVec.ofNat 7 (8 * o.code + t.code) ≠ 0x7F := by
      intro he
      have := congrArg BitVec.toNat he
      rw [hnum, show (0x7F : BitVec 7).toNat = 127 from rfl] at this
      omega
    rw [hop, hv, decodeSlot, if_neg hne, hnum, show (8 * o.code + t.code) / 8 = o.code by omega,
      show (8 * o.code + t.code) % 8 = t.code by omega]
    simp [hval, narrowFields_narrowBits]

theorem decodeSlot_inverse {op7 : BitVec 7} {v : BitVec 40} {x : Slot} (h : decodeSlot op7 v = some x) :
    x.wf = true ∧ slotBits x = op7 ++ v := by
  unfold decodeSlot at h
  split at h
  · next hn => cases h; exact ⟨rfl, by rw [hn]; rfl⟩
  · split at h
    · next o t ho ht =>
      split at h
      · next hv =>
        cases h
        refine ⟨hv, ?_⟩
        have hn : 8 * o.code + t.code = op7.toNat := by
          rw [NOp.code_of_ofCode ho, NTy.code_of_ofCode ht]
          omega
        simp [slotBits, hn, narrowBits_narrowFields]
      · cases h
    · cases h

theorem decodeWide_of_wide {i : Instr} {n : Nat} {w : Wide} (hw : i.wf = true) (h : i.wide? = some (n, w)) :
    decodeWide (BitVec.ofNat 10 n) w = .ok i := by
  rcases wide_cases h with ⟨k, rfl, rfl⟩ | ⟨hwf, hn, hi⟩
  · have hk := k.isLt
    have hnum : (BitVec.ofNat 10 (0x3C0 + k.toNat)).toNat = 0x3C0 + k.toNat := Nat.mod_eq_of_lt (by omega)
    have hlow : (BitVec.ofNat 10 (0x3C0 + k.toNat)).extractLsb' 0 6 = k := by
      apply BitVec.eq_of_toNat_eq
      simp only [BitVec.extractLsb'_toNat, hnum]
      omega
    rw [decodeWide, if_pos (by omega), hlow]
  · have hnum : (BitVec.ofNat 10 n).toNat = n := Nat.mod_eq_of_lt (by omega)
    rw [hwf, laneLegal] at hw
    rw [decodeWide, if_neg (by omega), hnum]
    split at hw
    · next info hinfo =>
      simp only [Bool.and_eq_true, Bool.not_eq_true'] at hw
      simp [hinfo, hw, hi]
    · cases hw

theorem decodeWide_inverse {op10 : BitVec 10} {w : Wide} {i : Instr} (h : decodeWide op10 w = .ok i) :
    i.wf = true ∧ i.wide? = some (op10.toNat, w) := by
  unfold decodeWide at h
  split at h
  · next hn =>
    cases h
    refine ⟨rfl, ?_⟩
    have := op10.isLt
    simp only [Instr.wide?, BitVec.extractLsb'_toNat]
    congr 2
    omega
  · split at h
    · cases h
    · next info hinfo =>
      split at h
      · cases h
      · next hs =>
        split at h
        · cases h
        · next hm =>
          split at h
          · next x hx =>
            cases h
            obtain ⟨hwide, hwf⟩ := wideInstr_wide hx
            exact ⟨by simp [hwf, laneLegal, hinfo, hs, hm], hwide⟩
          · cases h

theorem decodeLane_encodeLane {i : Instr} {w : BitVec 96} (hw : i.wf = true) (h : encodeLane i = some w) :
    decodeLane w = .ok i := by
  unfold encodeLane at h
  split at h
  · next op10 f hwide =>
    cases h
    obtain ⟨hf, ho, h95⟩ := wideWord_fields (BitVec.ofNat 10 op10) f
    rw [decodeLane, h95, if_neg (by decide), ho, hf]
    exact decodeWide_of_wide hw hwide
  · next ce x y _ hpair =>
    cases h
    have hi := pairInstr_of_pair hpair
    rw [← hi, (pair_pairInstr ce x y).2.2, Bool.and_eq_true] at hw
    obtain ⟨h95, h94, h1, h2, h3, h4⟩ := pairWord_fields ce x y
    rw [decodeLane, h95, if_pos rfl, h1, h2, h3, h4, decodeSlot_slotBits hw.1, decodeSlot_slotBits hw.2, h94, ← hi]
  · cases h

theorem decodeLane_inverse {w : BitVec 96} {i : Instr} (h : decodeLane w = .ok i) :
    i.wf = true ∧ encodeLane i = some w := by
  unfold decodeLane at h
  split at h
  · next h95 =>
    split at h
    · cases h
    · cases h
    · next x y hx hy =>
      cases h
      obtain ⟨hxw, hxb⟩ := decodeSlot_inverse hx
      obtain ⟨hyw, hyb⟩ := decodeSlot_inverse hy
      obtain ⟨hp, hn, hwf⟩ := pair_pairInstr (bit w 94) x y
      exact ⟨by rw [hwf, hxw, hyw]; rfl, by simp only [encodeLane, hp, hn, pairWord_of_fields h95 hxb hyb]⟩
  · next h95 =>
    obtain ⟨hwf, hwide⟩ := decodeWide_inverse h
    refine ⟨hwf, ?_⟩
    simp only [encodeLane, hwide, BitVec.ofNat_toNat, BitVec.setWidth_eq, wideWord_wideFields w (by simpa using h95)]

/-- Settles O56: the two lemmas of each stream, one for each direction. -/
theorem encodingRoundTrip : Obligations.EncodingRoundTrip :=
  ⟨⟨fun _ _ hw h => decodeScalar_encodeScalar hw h, fun _ _ hw h => decodeLane_encodeLane hw h⟩,
    fun _ _ h => decodeScalar_inverse h, fun _ _ h => decodeLane_inverse h⟩

/-- Settles O55: each word is the encoding of its instruction, so it decodes to it. -/
theorem decodedWords : Obligations.DecodedWords := by
  refine ⟨?_, ?_, ?_, ?_, ?_, ?_, ?_, ?_, ?_, ?_, ?_, ?_, ?_, ?_, ?_⟩
  iterate 13 exact decodeScalar_encodeScalar rfl rfl
  iterate 2 exact decodeLane_encodeLane rfl rfl

end Sys2Proof
end

section
/-! ## No step and no run stops the machine -/

namespace Sys2Proof.Machine

theorem Steady.goesOn {s : State} {r : Host.Outcome State Fault Refusal} (h : Steady s r) : goesOn r :=
  let ⟨t, ht, _⟩ := h
  ⟨t, ht⟩

theorem adopt_goesOn (s t : State) : goesOn (s.adopt t) := by
  unfold State.adopt
  split
  · exact ⟨_, rfl⟩
  · exact (commit_steady s _).goesOn

theorem scalarStoreAny_goesOn (n : Nat) (d : SReg) (c : CReg) (off : BitVec 16) (s : State) :
    goesOn (scalarStoreAny n d c off s) := by
  unfold scalarStoreAny
  split
  · exact adopt_goesOn s _
  · exact (actOrWait_steady _ s).goesOn

theorem vNop_goesOn (f : NopForm) (s : State) : goesOn (execVNop f s) := by
  cases f with
  | pair ce raw y => exact (pairStep_steady ce (.nop raw) y s).goesOn
  | wide w => exact (laneCompute_steady _ w _ s).goesOn

theorem carveChangeDone_goesOn (die : Nat) (s : State) : goesOn (execCarveChangeDone die s) := by
  unfold execCarveChangeDone
  split
  · exact ⟨_, rfl⟩
  · exact adopt_goesOn s _

theorem fwSet_goesOn (blk : List Byte) (s : State) : goesOn (execFwSet blk s) := by
  unfold execFwSet
  split
  · exact (act_steady _ s).goesOn
  · split
    · exact ⟨_, rfl⟩
    · exact (command_steady _ _ _ s).goesOn

/-- Every arm of `exec` ends in one of the shared shapes, each of which answers a next state. -/
theorem exec_goesOn (i : Instr) (s : State) : goesOn (exec i s) := by
  cases i <;> unfold exec
  case sDivI | sDivN | sRemI | sRemN | sBz | sBnz | sBlt | sBge | sBle | sBgt | sJ | sCall | sJr | sCallr | sRet | lrun
      | lwait | sWait | sCnt | sMfs | sMts | sLdN8 | sLdN16 | sLdN32 | sLdN64 | sLdI8 | sLdI16 | sLdI32 | cLd | cSt |
      syAcq | syRel | syFence | syMwait | syLd | sySt | syBind | syUnbind | syBar | syRmw | cpRun | clRun | clGive |
      mxLdb | mxRes | mxFree | mxAzero | mxRinfo | recBegin | recEnd | recReplay | recRerecord | recDrop | recStatus |
      recRte | swRevoke | swStatus | swWait | chkErr | chkErrT | chkClr | sEmu | sysEnd | sysTret | sTail | sysEmuret
      | vEmu | emulationEntry | trapEntry | doorbell | vdoor | bootStage | hotReset | hostRequest =>
    exact (actOrWait_steady _ s).goesOn
  case vAdd | vSub | vMul | vFma | vMin | vMax | vAnd | vOr | vXor | vShl | vShr | vMov | vAbs | vNeg | vMulhi | vClamp
      | vAddInt | vSubInt | vMulInt | vFmaInt | vMinInt | vMaxInt | vAndInt | vOrInt | vXorInt | vShlInt | vShrInt |
      vMovInt | vAbsInt | vNegInt | vMulhiInt | vClampInt =>
    exact (pairableWord_steady _ _ _ s).goesOn
  case vAddNarrow | vSubNarrow | vMulNarrow | vFmaNarrow | vMinNarrow | vMaxNarrow | vAndNarrow | vOrNarrow |
      vXorNarrow | vShlNarrow | vShrNarrow | vMovNarrow | vAbsNarrow | vNegNarrow | vMulhiNarrow | vClampNarrow =>
    exact (pairStep_steady _ _ _ s).goesOn
  case sAdd | sSub | sAnd | sOr | sXor | sAndn | sShl | sShr | sSra | sMul | sMulhI | sMulhN | sSeq | sSne | sSlt |
      sSltn | sMinI | sMaxI | sMinN | sMaxN | sBextN | sBextI =>
    exact (alu2_steady _ _ _ _ s).goesOn
  case sAddi | sAndi | sOri | sXori | sSlti | sSltni | sAddhi | sMuli => exact (aluImm_steady _ _ _ _ s).goesOn
  case sClz | sCtz | sPopc | sBswap | sShli | sShri | sSrai => exact (alu1_steady _ _ _ s).goesOn
  case cMov | cCleart => exact (capMove_steady _ _ _ s).goesOn
  case cGetbase | cGetlen | cGetcur | cGetp | cGetk | cGetcol | cGett | cGetlim =>
    exact (capGet_steady _ _ _ s).goesOn
  case sSel | sBins | cRlen | cRalign | sysYield => exact (onGroup_steady _ s).goesOn
  case cSetb | cSetbOut | cAddc | cSetc | cAndp | cSetk | cSeal | cOpen => exact (capDerive_steady _ _ _ s).goesOn
  case vSin | vCos | vAtan2 | vExp | vLn | vTanh | vSigm | vSqrt | vRsq | vDivCordic | vDiv | vRem | vUpkd8 | vD8sc |
      vPmul | vPconj | vPvec | vPres | vCvt =>
    exact (arithWord_steady _ _ _ s).goesOn
  case vPkd8 | vShfl | vScan | vPred | cBcast | vCget | vCpsn => exact (laneCompute_steady _ _ _ s).goesOn
  case vRed | vCld | vCst | vAmo | cpLrun | mxMma | vTpsn => exact (laneWord_steady _ _ _ s).goesOn
  case vIf | vElse | vEndif | vLoop | vBreak | vCont | vEndloop => exact (structured_steady _ _ _ _ s).goesOn
  case vCaddc | vCsetb | vCandp => exact (quadDerive_steady _ _ _ _ s).goesOn
  case mxRd | mxWr | mxResolve => exact (slotWord_steady _ _ _ _ s).goesOn
  case vPcmp | vCmp => exact (compareWord_steady _ _ _ _ s).goesOn
  case vBallot | vVote => exact (scalarFromLanes_steady _ _ _ s).goesOn
  case vLd | vGld => exact (dataLoad_steady _ _ _ s).goesOn
  case vSt | vSst => exact (dataStore_steady _ _ _ s).goesOn
  case ctxCreate | ctxRemove | partSet | logRead | logSign | attest => exact (command_steady _ _ _ s).goesOn
  case sStN8 | sStN16 | sStN32 | sStN64 => exact scalarStoreAny_goesOn _ _ _ _ s
  case cohctlWrite | pwrcapWrite | idleFlit | sysTime => exact ⟨_, rfl⟩
  case vNop f => exact vNop_goesOn f s
  case carveChangeDone die => exact carveChangeDone_goesOn die s
  case fwSet blk => exact fwSet_goesOn blk s
  case registerWrite => exact adopt_goesOn _ _
  all_goals exact (act_steady _ s).goesOn

/-! ### Steps -/

theorem settleIssue_goesOn (lane keep : Bool) (reads named : List Nat) {r : Host.Outcome State Fault Refusal} (h : goesOn r) :
    goesOn (settleIssue lane keep reads named r) := by
  obtain ⟨t, rfl⟩ := h
  unfold settleIssue
  dsimp only
  split <;> exact ⟨_, rfl⟩

theorem runScalar_goesOn (i : Instr) (s : State) : goesOn (runScalar i s) := by
  unfold runScalar
  split
  · exact (actOrWait_steady _ s).goesOn
  · exact settleIssue_goesOn _ _ _ _ (exec_goesOn i s)

theorem performHeld_goesOn (h : HeldWord) (rest : List HeldWord) (s : State) : goesOn (performHeld h rest s) := by
  unfold performHeld
  dsimp only
  split
  · exact ⟨_, rfl⟩
  next i _ =>
    obtain ⟨t, ht⟩ := exec_goesOn i { s with grp := s.grp.asHeld h rest }
    rw [ht]
    dsimp only
    split
    · exact ⟨_, rfl⟩
    · split
      · exact ⟨_, rfl⟩
      · split <;> exact ⟨_, rfl⟩

theorem holdWord_goesOn (w : BitVec 32) (i : Instr) (n : Nat) (s : State) : goesOn (holdWord w i n s) := by
  unfold holdWord
  dsimp only
  split
  · exact ⟨_, rfl⟩
  · obtain ⟨t, ht⟩ := exec_goesOn i { s with grp := { s.grp with queue := [], lpos := 0, dual := false } }
    rw [ht]
    dsimp only
    split <;> exact ⟨_, rfl⟩

theorem aheadScalar_goesOn (w : BitVec 32) (i : Instr) (s : State) : goesOn (aheadScalar w i s) := by
  unfold aheadScalar
  dsimp only
  split
  · exact ⟨_, rfl⟩
  · split
    · exact runScalar_goesOn i s
    · split
      · exact holdWord_goesOn w i _ s
      · split
        · exact ⟨_, rfl⟩
        · exact runScalar_goesOn i s

theorem issueScalar_goesOn (s : State) : goesOn (issueScalar s) := by
  unfold issueScalar
  split
  · exact performHeld_goesOn _ _ s
  · exact (actOrWait_steady _ s).goesOn
  · split
    · exact (actOrWait_steady _ s).goesOn
    · split
      · exact ⟨_, rfl⟩
      · dsimp only
        split
        · exact aheadScalar_goesOn _ _ s
        · exact settleIssue_goesOn _ _ _ _ (exec_goesOn _ s)

theorem runLaneWord_goesOn (i : Instr) (s : State) : goesOn (runLaneWord i s) := by
  unfold runLaneWord
  dsimp only
  split
  · exact (act_steady _ s).goesOn
  · exact settleIssue_goesOn _ _ _ _ (exec_goesOn i _)

theorem issueLane_goesOn (s : State) : goesOn (issueLane s) := by
  unfold issueLane
  split
  · exact performHeld_goesOn _ _ s
  · split
    · exact ⟨_, rfl⟩
    · dsimp only
      split
      · exact runLaneWord_goesOn _ s
      · exact settleIssue_goesOn _ _ _ _ (exec_goesOn _ s)

theorem progress_goesOn (s : State) : goesOn (progress s) := by
  unfold progress
  dsimp only
  split
  · exact (commit_steady _ _).goesOn
  · exact ⟨_, rfl⟩

theorem requeue_goesOn (t : Turn) {r : Host.Outcome State Fault Refusal} (h : goesOn r) : goesOn (requeue t r) := by
  obtain ⟨u, rfl⟩ := h
  exact ⟨_, rfl⟩

theorem passed_goesOn {r : Host.Outcome State Fault Refusal} (h : goesOn r) : goesOn (passed r) := by
  obtain ⟨u, rfl⟩ := h
  exact ⟨_, rfl⟩

theorem takeTurn_goesOn (t : Turn) (s : State) : goesOn (takeTurn t s) := by
  cases t with
  | event e => exact requeue_goesOn _ (exec_goesOn e s)
  | upset u => exact ⟨_, rfl⟩
  | scalar gid =>
    unfold takeTurn
    dsimp only
    split
    · exact ⟨_, rfl⟩
    · exact passed_goesOn (issueScalar_goesOn _)
  | lane gid =>
    unfold takeTurn
    dsimp only
    split
    · exact ⟨_, rfl⟩
    · exact passed_goesOn (issueLane_goesOn _)

theorem step_goesOn (s : State) : goesOn (step s) := by
  unfold step
  split
  · exact ⟨_, rfl⟩
  · split
    · exact adopt_goesOn s _
    · exact takeTurn_goesOn _ _
    · split
      · exact progress_goesOn s
      · unfold issue
        split
        · exact issueScalar_goesOn s
        · exact issueLane_goesOn s

theorem run_goesOn (n : Nat) (s : State) : runsOn n s := by
  induction n generalizing s with
  | zero => exact ⟨s, rfl⟩
  | succ n ih =>
    obtain ⟨t, ht⟩ := step_goesOn s
    obtain ⟨u, hu⟩ := ih t
    exact ⟨u, by simpa only [Host.Core.run, show core.step s = .next t from ht] using hu⟩

/-- Settles O59: every arm of `exec` goes on, so every step does, and a run by induction on its length. -/
theorem nothingStops : Obligations.NothingStops := ⟨exec_goesOn, step_goesOn, run_goesOn⟩

end Sys2Proof.Machine
end

section
/-! ## Scalar words: how a step that acts or waits answers, traps of the scalar word on turn, and the special registers -/

namespace Sys2Proof.Machine

/-! ### Acting, waiting and trapping -/

/-- A step whose device is as before acts. -/
theorem actOrWait_group {f : CtlRegs → Mach → Option Mach} {s : State} {g : Group}
    (h : f s.regs s.mach = some ⟨g, s.dev⟩) : actOrWait f s = .next { s with grp := g } :=
  actOrWait_ok h rfl

/-- A step that leaves alone which lines the host has been asked for acts. -/
theorem actOrWait_dev {f : CtlRegs → Mach → Option Mach} {s : State} {g : Group} {d : Dev}
    (h : f s.regs s.mach = some ⟨g, d⟩) (hd : d.pkg = s.dev.pkg) : actOrWait f s = .next { s with grp := g, dev := d } :=
  actOrWait_ok h (congrArg Pkg.asking hd)

theorem Group.lanesIdle_iff (g : Group) : g.lanesIdle = true ↔ g.queue = [] := by simp [Group.lanesIdle]
theorem Group.lanesIdle_of_queue {g : Group} (h : g.queue = []) : g.lanesIdle = true := g.lanesIdle_iff.2 h
theorem Group.not_lanesIdle {g : Group} (h : g.queue ≠ []) : g.lanesIdle = false := by simpa [Group.lanesIdle] using h

/-- The entry of the handler, field by field (R172, R174, R175). -/
theorem Group.intoHandler_trapRegs (g : Group) (t : TrapInfo) :
    (g.trapRegs t (g.trapCode t.code) g.emuFrame.isSome).intoHandler t =
      g.trapped t.code t.nevc t.path t.tspc t.tlpc t.fmask t.skip t.frame := rfl

theorem fatal_of_handler {g : Group} (h1 : g.inHandler = false) (h2 : g.trapv ≠ 0) : g.fatal = false := by
  simpa [Group.fatal, h1] using h2

theorem takeTrap_trapped (m : Mach) (t : TrapInfo) (h1 : m.g.inHandler = false) (h2 : m.g.trapv ≠ 0) :
    takeTrap m t = { m with g := m.g.trapped t.code t.nevc t.path t.tspc t.tlpc t.fmask t.skip t.frame } := by
  rw [takeTrap_handler m t (fatal_of_handler h1 h2), Group.intoHandler_trapRegs]

/-- A trap of the scalar word on turn that takes place at once (R170, R173). -/
theorem scalarTrap_now (m : Mach) (code : Nat) (h : trapsNow m.g) :
    scalarTrap m code = some { m with g := m.g.scalarTrapped code } := by
  obtain ⟨hq, hi, hv⟩ := h
  rw [scalarTrap_idle m code (Group.lanesIdle_of_queue hq), takeTrap_trapped m _ hi hv]
  rfl

theorem actOrWait_trap {f : CtlRegs → Mach → Option Mach} {s : State} {code : Nat}
    (h : f s.regs s.mach = scalarTrap s.mach code) (ht : trapsNow s.grp) :
    actOrWait f s = .next { s with grp := s.grp.scalarTrapped code } :=
  actOrWait_group (h.trans (scalarTrap_now s.mach code ht))

/-! ### Special registers -/

theorem exec_sMfs (d : SReg) (n : BitVec 6) (s : State) :
    exec (.sMfs d n) s = actOrWait (fun _ m => moveFrom d n.toNat m) s := rfl
theorem exec_sMts (n : BitVec 6) (a : SReg) (s : State) :
    exec (.sMts n a) s = actOrWait (fun _ m => moveTo n.toNat a m) s := rfl

theorem moveFrom_now {m : Mach} {n : Nat} (d : SReg) (h : specialWaits false n = false ∨ m.g.queue = []) :
    moveFrom d n m = some ⟨m.g.result d (specialValue m.g (m.d.ctx m.g.ctx) n), m.d⟩ := by
  rcases h with h | h <;> simp [moveFrom, Group.lanesIdle, h]

theorem moveFrom_wait {m : Mach} {n : Nat} (d : SReg) (h : specialWaits false n = true) (hq : m.g.queue ≠ []) :
    moveFrom d n m = none := by
  simp [moveFrom, h, Group.not_lanesIdle hq]

theorem specialReads : Claims.SpecialReads := by
  intro s d n
  refine ⟨fun h => ?_, fun h hq => ?_⟩
  · rw [exec_sMfs]
    exact actOrWait_group (moveFrom_now d h)
  · rw [exec_sMfs]
    exact actOrWait_wait (moveFrom_wait d h hq)

/-! ### Masks of lanes -/

/-- The sum of powers of two that `maskOf` builds has exactly the bits below `w` that meet the condition. -/
theorem testBit_maskSum (p : Nat → Bool) (w l : Nat) :
    ((List.range w).foldl (fun acc l => if p l then acc + 2 ^ l else acc) 0).testBit l = (decide (l < w) && p l) ∧
    (List.range w).foldl (fun acc l => if p l then acc + 2 ^ l else acc) 0 < 2 ^ w := by
  induction w with
  | zero => simp
  | succ w ih =>
    obtain ⟨hbit, hlt⟩ := ih
    rw [List.range_succ, List.foldl_append, List.foldl_cons, List.foldl_nil, Nat.pow_succ]
    generalize (List.range w).foldl _ 0 = n at hbit hlt
    cases hp : p w
    · refine ⟨?_, by rw [if_neg (by simp)]; omega⟩
      rw [if_neg (by simp), hbit]
      by_cases hl : l = w
      · simp [hl, hp]
      · congr 2; simp; omega
    · refine ⟨?_, by rw [if_pos rfl]; omega⟩
      rw [if_pos rfl]
      rcases Nat.lt_trichotomy l w with hl | rfl | hl
      · rw [Nat.add_comm, Nat.testBit_two_pow_add_gt hl, hbit]
        congr 2; simp; omega
      · rw [Nat.add_comm, Nat.testBit_two_pow_add_eq, hbit]
        simp [hp]
      · rw [Nat.testBit_lt_two_pow (Nat.lt_of_lt_of_le (by omega) (Nat.pow_le_pow_right (by decide) hl) : _ < 2 ^ l)]
        simp; omega

theorem bit_maskOf (w : Nat) (p : Nat → Bool) {l : Nat} (h : l < 64) : bit (maskOf w p) l = (decide (l < w) && p l) := by
  rw [maskOf, bit, BitVec.getLsbD_ofNat, (testBit_maskSum p w l).1]
  simp [h]

/-- `m0` has the present lanes whose nesting counter is zero (R80). -/
theorem bit_m0 (g : Group) {l : Nat} (h : l < 64) :
    bit g.m0 l = (decide (l < g.width) && bit g.present l && decide (g.nest.getD l 0 = 0)) := by
  rw [Group.m0, bit_maskOf _ _ h, Bool.and_assoc]
  rfl

/-! ### The fields of the special registers -/

theorem extract_ofNat (n lo len : Nat) (x : BitVec len) (h : n % 2 ^ 64 / 2 ^ lo % 2 ^ len = x.toNat) :
    (BitVec.ofNat 64 n).extractLsb' lo len = x := by
  apply BitVec.eq_of_toNat_eq
  rw [BitVec.extractLsb'_toNat, BitVec.toNat_ofNat, Nat.shiftRight_eq_div_pow, h]

theorem bit_ofNat (n k : Nat) (b : Bool) (hk : k < 64) (h : n / 2 ^ k % 2 = if b then 1 else 0) :
    bit (BitVec.ofNat 64 n) k = b := by
  rw [bit, BitVec.getLsbD_ofNat, Nat.testBit_eq_decide_div_mod_eq, h]
  cases b <;> simp [hk]

theorem causeWord_fields (g : Group) :
    g.causeWord.extractLsb' 0 8 = g.code ∧ g.causeWord.extractLsb' 8 3 = g.nevc ∧ g.causeWord.extractLsb' 11 3 = g.path ∧
    bit g.causeWord 14 = g.nores ∧ bit g.causeWord 15 = g.skip ∧ g.causeWord.toNat < 2 ^ 16 := by
  have hc := g.code.isLt
  have hn := g.nevc.isLt
  have hp := g.path.isLt
  have hs : (if g.skip then 32768 else 0) = 32768 * (if g.skip then 1 else 0) := by cases g.skip <;> rfl
  have hr : (if g.nores then 16384 else 0) = 16384 * (if g.nores then 1 else 0) := by cases g.nores <;> rfl
  have hs' : (if g.skip then 1 else 0) < 2 := by cases g.skip <;> decide
  have hr' : (if g.nores then 1 else 0) < 2 := by cases g.nores <;> decide
  rw [Group.causeWord, hs, hr]
  generalize hsk : (if g.skip then 1 else 0) = sk at hs'
  generalize hno : (if g.nores then 1 else 0) = no at hr'
  refine ⟨extract_ofNat _ _ _ _ ?_, extract_ofNat _ _ _ _ ?_, extract_ofNat _ _ _ _ ?_, bit_ofNat _ _ _ (by decide) ?_,
    bit_ofNat _ _ _ (by decide) ?_, ?_⟩
  · omega
  · omega
  · omega
  · omega
  · omega
  · rw [BitVec.toNat_ofNat]
    omega

theorem nestmax_fields (g : Group) :
    g.nestmax.extractLsb' 0 8 = g.nestLimit ∧ g.nestmax.extractLsb' 8 8 = g.nestHigh ∧ g.nestmax.toNat < 2 ^ 16 := by
  have hl := g.nestLimit.isLt
  have hh := g.nestHigh.isLt
  refine ⟨extract_ofNat _ _ _ _ ?_, extract_ofNat _ _ _ _ ?_, ?_⟩
  · omega
  · omega
  · rw [Group.nestmax, BitVec.toNat_ofNat]
    omega

theorem rsp_fields (g : Group) (hs : g.stack.length ≤ 16) (hp : g.spilled ≤ 512) :
    (g.rsp.extractLsb' 16 5).toNat = g.stack.length ∧ (g.rsp.extractLsb' 0 10).toNat = g.spilled := by
  simp only [Group.rsp, BitVec.extractLsb'_toNat, BitVec.toNat_ofNat, Nat.shiftRight_eq_div_pow]
  omega

theorem recdep_fields (x : Ctx) : x.recdep.extractLsb' 0 16 = x.depIds ∧ x.recdep.extractLsb' 32 32 = x.depCount := by
  have hi := x.depIds.isLt
  have hc := x.depCount.isLt
  refine ⟨extract_ofNat _ _ _ _ ?_, extract_ofNat _ _ _ _ ?_⟩ <;> omega

theorem specialValue_nev (g : Group) (x : Ctx) {c : Nat} (h : c ≤ 6) : specialValue g x (0x20 + c) = x.nev.getD c 0 := by
  interval_cases c <;> rfl

theorem specialValue_mask (g : Group) (x : Ctx) {k : Nat} (h1 : 1 ≤ k) (h7 : k ≤ 7) :
    specialValue g x (0x30 + k) = g.m.getD k 0 := by
  interval_cases k <;> rfl

theorem specialValue_index (g : Group) (x : Ctx) {k : Nat} (h : k ≤ 3) :
    specialValue g x (0x38 + k) = (g.x.getD k 0).zeroExtend 64 := by
  interval_cases k <;> rfl

theorem specialRegisterValues : Claims.SpecialRegisterValues := fun g x =>
  ⟨⟨rfl, rfl, rfl, rfl, rfl⟩, ⟨rfl, rfl, rfl, rfl, rfl⟩, causeWord_fields g, nestmax_fields g, ⟨rfl, rfl, rfl, rfl⟩,
    rsp_fields g, recdep_fields x, ⟨rfl, rfl, rfl⟩, fun _ hc => specialValue_nev g x hc, fun _ hl => bit_m0 g hl,
    fun _ h1 h7 => specialValue_mask g x h1 h7, fun _ hk => specialValue_index g x hk⟩

/-! ### Writes of special registers -/

theorem moveTo_wait {m : Mach} {n : Nat} (a : SReg) (h : specialWaits true n = true) (hq : m.g.queue ≠ []) :
    moveTo n a m = none := by
  simp [moveTo, h, Group.not_lanesIdle hq]

theorem moveTo_illegal {m : Mach} {n : Nat} {a : SReg} (h : m.g.illegalWrite n (m.g.rs a.toNat) = true) (ht : trapsNow m.g) :
    moveTo n a m = scalarTrap m cILLEGAL := by
  simp [moveTo, Group.lanesIdle_of_queue ht.1, h]

theorem moveTo_context {m : Mach} {n : Nat} {a : SReg} (hw : specialWaits true n = false ∨ m.g.queue = [])
    (hi : m.g.illegalWrite n (m.g.rs a.toNat) = false) (hc : contextSpecial n = true) :
    moveTo n a m = some ⟨m.g.advance, m.d.setCtx m.g.ctx ((m.d.ctx m.g.ctx).writeSpecial n (m.g.rs a.toNat))⟩ := by
  rcases hw with h | h <;> simp [moveTo, Group.lanesIdle, h, hi, hc]

theorem moveTo_group {m : Mach} {n : Nat} {a : SReg} (hw : specialWaits true n = false ∨ m.g.queue = [])
    (hi : m.g.illegalWrite n (m.g.rs a.toNat) = false) (hc : contextSpecial n = false) :
    moveTo n a m = some ⟨(m.g.writeSpecial n (m.g.rs a.toNat)).advance, m.d⟩ := by
  rcases hw with h | h <;> simp [moveTo, Group.lanesIdle, h, hi, hc]

section
variable {s : State} {n : BitVec 6} {a : SReg} (hw : specialWaits true n.toNat = false ∨ s.grp.queue = [])
  (hi : s.grp.illegalWrite n.toNat (s.grp.rs a.toNat) = false)
include hw hi

theorem exec_sMts_context (hc : contextSpecial n.toNat = true) : exec (.sMts n a) s = .next { s with
    grp := s.grp.advance
    dev := s.dev.setCtx s.grp.ctx ((s.dev.ctx s.grp.ctx).writeSpecial n.toNat (s.grp.rs a.toNat)) } := by
  rw [exec_sMts]
  exact actOrWait_dev (moveTo_context hw hi hc) (Dev.setCtx_pkg ..)

theorem exec_sMts_group {g' : Group} (hc : contextSpecial n.toNat = false)
    (hg : (s.grp.writeSpecial n.toNat (s.grp.rs a.toNat)).advance = g') :
    exec (.sMts n a) s = .next { s with grp := g' } := by
  subst hg
  rw [exec_sMts]
  exact actOrWait_group (moveTo_group hw hi hc)

end

theorem writeSpecial_mask (g : Group) (v : Word) {k : Nat} (h1 : 1 ≤ k) (h7 : k ≤ 7) :
    g.writeSpecial (0x30 + k) v = g.setM k v := by
  interval_cases k <;> rfl

theorem writeSpecial_index (g : Group) (v : Word) {k : Nat} (h : k ≤ 3) :
    g.writeSpecial (0x38 + k) v = { g with x := g.x.set k (v.extractLsb' 0 8) 0 } := by
  interval_cases k <;> rfl

theorem writeSpecial_readOnly (g : Group) (v : Word) {n : Nat} (h : n ≤ 3 ∨ (0x10 ≤ n ∧ n ≤ 0x13)) :
    g.writeSpecial n v = g := by
  rcases h with h | ⟨h, h'⟩ <;> interval_cases n <;> rfl

theorem not_contextSpecial {n : Nat} (h : n < 8 ∨ (8 < n ∧ n < 0x15) ∨ (0x16 < n ∧ n < 0x20) ∨ 0x26 < n) :
    contextSpecial n = false := by
  simp only [contextSpecial, Bool.or_eq_false_iff, Bool.and_eq_false_iff, beq_eq_false_iff_ne, decide_eq_false_iff_not]
  omega

/-- A write of `%cki` (R180): field by field, each one kept where the word says so. -/
theorem writeCki_fields (x : Ctx) (v : Word) :
    (x.writeCki v).endact = (if v.extractLsb' 32 2 = 3 then x.endact else v.extractLsb' 32 2) ∧
    ((x.writeCki v).warn, (x.writeCki v).wcode) = (if bit v 11 then (x.warn, x.wcode) else (false, 0)) ∧
    ((x.writeCki v).psn, (x.writeCki v).psrc, (x.writeCki v).pcount) =
      (if bit v 0 then (x.psn, x.psrc, x.pcount) else (false, 7, 0)) := by
  unfold Ctx.writeCki
  generalize bit v 11 = w, bit v 0 = p
  by_cases he : v.extractLsb' 32 2 = 3#2 <;> cases w <;> cases p <;> simp [he]

theorem writeSpecial_nev (x : Ctx) (v : Word) {c : Nat} (h : c ≤ 6) :
    x.writeSpecial (0x20 + c) v = { x with nev := x.nev.set c (x.nev.getD c 0 &&& ~~~(0xFFFFFFFF : Word)) 0 } := by
  interval_cases c <;> rfl

theorem clearLow32_fields (w : Word) :
    (w &&& ~~~(0xFFFFFFFF : Word)).extractLsb' 0 32 = 0 ∧
    (w &&& ~~~(0xFFFFFFFF : Word)).extractLsb' 32 32 = w.extractLsb' 32 32 := by
  constructor
  · rw [BitVec.extractLsb'_and, show (~~~(0xFFFFFFFF : Word)).extractLsb' 0 32 = 0#32 by decide, BitVec.and_zero]
    rfl
  · rw [BitVec.extractLsb'_and, show (~~~(0xFFFFFFFF : Word)).extractLsb' 32 32 = BitVec.allOnes 32 by decide,
      BitVec.and_allOnes]

theorem specialWrites : Claims.SpecialWrites := by
  intro s n a v g next nextCtx x
  refine ⟨fun h hq => ?_, fun h ht => ?_, fun hw hi => ?_⟩
  · rw [exec_sMts]
    exact actOrWait_wait (moveTo_wait a h hq)
  · rw [exec_sMts]
    exact actOrWait_trap (moveTo_illegal h ht) ht
  have hgroup (hc : contextSpecial n.toNat = false) (g' : Group)
      (hg : (g.writeSpecial n.toNat v).advance = { g' with pc := g.pc + 4 }) : next g' :=
    exec_sMts_group hw hi hc hg
  have hctx (hc : contextSpecial n.toNat = true) : nextCtx (x.writeSpecial n.toNat v) := exec_sMts_context hw hi hc
  refine ⟨?_, ?_, ?_, ?_, ?_, ?_, ?_, ?_, ?_, ?_, ?_, fun k h1 h7 hn => ?_, fun k hk hn => ?_, fun hn => ?_, fun hn => ?_,
    fun hn => ?_, fun hn => ?_, fun c hc hn => ?_⟩
  iterate 11
    · rintro rfl
      exact hgroup rfl _ (by rfl)
  · refine hgroup (not_contextSpecial (by omega)) _ ?_
    rw [hn, writeSpecial_mask g v h1 h7]
    rfl
  · refine hgroup (not_contextSpecial (by omega)) _ ?_
    rw [hn, writeSpecial_index g v hk]
    rfl
  · refine hgroup (not_contextSpecial (by omega)) _ ?_
    rw [writeSpecial_readOnly g v hn]
    rfl
  · subst hn
    exact ⟨x.writeCki v, hctx rfl, writeCki_fields x v⟩
  · subst hn
    exact hctx rfl
  · subst hn
    exact hctx rfl
  · have hx := hctx (by rw [hn]; interval_cases c <;> rfl)
    rw [hn, writeSpecial_nev x v hc] at hx
    refine ⟨_, hx, ?_, ?_, fun b hb => ?_⟩
    · rw [Tab.getD_set_self]
      exact (clearLow32_fields _).1
    · rw [Tab.getD_set_self]
      exact (clearLow32_fields _).2
    · exact Tab.getD_set_ne _ _ _ _ (Ne.symm hb)

end Sys2Proof.Machine

namespace Sys2Proof

/-- Settles O4: each move goes through the value or the write function of its register, case by case of the number. -/
theorem specialRegisters : Obligations.SpecialRegisters :=
  ⟨Machine.specialRegisterValues, Machine.specialReads, Machine.specialWrites⟩

end Sys2Proof
end

section
/-! ## Traps: entry, the removal of a context, and the return from a handler -/

namespace Sys2Proof.Machine

/-! ### The group table under stores of the front ends

What a front end writes reaches memory, its homes, packets and launches, and never the table of groups. -/

theorem foldl_groups {α : Type} (f : Dev → α → Dev) (h : ∀ d a, (f d a).groups = d.groups) (l : List α) (d : Dev) :
    (l.foldl f d).groups = d.groups := by
  induction l generalizing d with
  | nil => rfl
  | cons a l ih => rw [List.foldl_cons, ih, h]

@[simp] theorem raiseRmax_groups (d : Dev) (die t : Nat) : (raiseRmax d die t).groups = d.groups := rfl
@[simp] theorem noteFeTime_groups (d : Dev) (die t : Nat) : (noteFeTime d die t).groups = d.groups := rfl
@[simp] theorem postmark_groups (d : Dev) (ty part ctx n : Nat) : (postmark d ty part ctx n).groups = d.groups := rfl
@[simp] theorem post_groups (d : Dev) (ty src ctx : Nat) (lo hi : Word) : (post d ty src ctx lo hi).groups = d.groups := rfl
@[simp] theorem touchWatches_groups (d : Dev) (l : Nat) : (touchWatches d l).groups = d.groups := rfl
@[simp] theorem dropClaims_groups (d : Dev) (p : Nat → Bool) : (dropClaims d p).groups = d.groups := rfl
@[simp] theorem askBack_groups (d : Dev) (l : Nat) : (askBack d l).groups = d.groups := by
  unfold askBack; split <;> rfl
@[simp] theorem wake_groups (d : Dev) (die : Nat) : (wake d die).groups = d.groups := by
  unfold wake; split <;> rfl
@[simp] theorem usePeer_groups (d : Dev) (ctx j : Nat) : (usePeer d ctx j).groups = d.groups := by
  unfold usePeer; dsimp only; split <;> rfl

@[simp] theorem recallCopy_groups (d : Dev) (die l : Nat) : (recallCopy d die l).groups = d.groups := by
  unfold recallCopy
  dsimp only
  split
  · rfl
  · split <;> rfl

@[simp] theorem meetErrors_groups (d : Dev) (l : Nat) : (meetErrors d l).groups = d.groups := by
  unfold meetErrors
  split
  · dsimp only
    split
    · split
      · rfl
      · split <;> rfl
    · rfl
  · rfl

@[simp] theorem homeStore_groups (d : Dev) (a n : Nat) (off : Bool) : (homeStore d a n off).groups = d.groups := by
  unfold homeStore
  split
  · rfl
  · dsimp only
    cases off <;> simp

@[simp] theorem homesTake_groups (d : Dev) (die a n : Nat) : (homesTake d die a n).groups = d.groups :=
  foldl_groups (fun (d : Dev) (r : Nat × Nat) => homeStore d r.1 r.2 _) (fun d r => homeStore_groups d r.1 r.2 _) _ d

@[simp] theorem breakSeq_groups (d : Dev) (a n : Nat) : (breakSeq d a n).groups = d.groups :=
  foldl_groups _ (fun d b => by
    split
    · dsimp only
      split <;> rfl
    · rfl) _ d

@[simp] theorem plainStore_groups (d : Dev) (a : Nat) (bs : List Byte) (p : Bool) : (plainStore d a bs p).groups = d.groups :=
  breakSeq_groups _ a _

@[simp] theorem sendRemote_groups (d : Dev) (ctx : Option Nat) (gid flight a n : Nat) (write : Option (List Byte)) (env : Bool)
    (wait : RemoteWait) (psn : List Bool) : (sendRemote d ctx gid flight a n write env wait psn).groups = d.groups := by
  unfold sendRemote
  dsimp only
  rw [foldl_groups]
  swap
  · exact fun _ _ => rfl
  split
  · exact usePeer_groups d _ _
  · rfl

@[simp] theorem packetDone_groups (d : Dev) (q i : Nat) : (packetDone d q i).groups = d.groups := by
  unfold packetDone
  split
  · rfl
  · dsimp only
    split <;> rfl

@[simp] theorem closeLaunch_groups (d : Dev) (k : Nat) : (closeLaunch d k).groups = d.groups := packetDone_groups _ _ _

@[simp] theorem frontPerform_groups (d : Dev) (w : FrontWrite) : (frontPerform d w).groups = d.groups := by
  unfold frontPerform
  dsimp only
  cases w.release <;> cases w.closes <;> cases leaves d w.a <;> simp

@[simp] theorem frontPut_groups (d : Dev) (w : FrontWrite) : (frontPut d w).groups = d.groups := by
  unfold frontPut
  split
  · dsimp only
    split <;> rfl
  · exact frontPerform_groups d w

@[simp] theorem frontRecord_groups (d : Dev) (die ctx : Nat) (c : Cap) (a : Nat) (bs : List Byte) :
    (frontRecord d die ctx c a bs).groups = d.groups := by
  unfold frontRecord frontStore
  split
  · exact frontPut_groups d _
  · rfl

/-! ### The removal of a context (R177, R316) -/

@[simp] theorem Dev.ctx_setCtx (d : Dev) (k : Nat) (x : Ctx) : (d.setCtx k x).ctx k = x := Tab.getD_set_self ..

theorem removeContext_group {m : Mach} {ctx : Nat} (f : FaultInfo) (hx : (m.d.ctx ctx).live = true) (hc : m.g.ctx = ctx)
    (hg : m.g.live = true) : (removeContext m ctx f).g = m.g.gone := by
  simp [removeContext, hx, hc, hg]

theorem removeContext_ctx {m : Mach} {ctx : Nat} (f : FaultInfo) (hx : (m.d.ctx ctx).live = true) :
    ((removeContext m ctx f).d.ctx ctx).live = false := by
  simp only [removeContext, hx, Bool.not_true, Bool.false_eq_true, ↓reduceIte, Dev.ctx_setCtx]

theorem removeContext_groups {m : Mach} {ctx : Nat} (f : FaultInfo) (hx : (m.d.ctx ctx).live = true) :
    ∀ e ∈ (removeContext m ctx f).d.groups, e.2.ctx ≠ ctx := by
  intro e he
  simp only [removeContext, hx, Bool.not_true, Bool.false_eq_true, ↓reduceIte, Dev.setCtx_groups, dropClaims_groups] at he
  rw [foldl_groups _ fun d e => frontRecord_groups d _ _ _ _ _, frontRecord_groups] at he
  exact of_decide_eq_true (List.mem_filter.1 he).2

/-! ### Traps that reach no handler (R175, R177, R321) -/

theorem Group.fatal_iff (g : Group) : g.fatal = true ↔ g.inHandler = true ∨ g.trapv = 0 := by simp [Group.fatal]

theorem takeTrap_fatal {m : Mach} {t : TrapInfo} (hf : m.g.fatal = true) (hd : m.g.dual = false) :
    takeTrap m t = fatalTrap { m with g := m.g.trapRegs t (m.g.trapCode t.code) m.g.emuFrame.isSome }
      (m.g.trapRegs t (m.g.trapCode t.code) m.g.emuFrame.isSome) := by
  simp [takeTrap, hf, hd]

theorem takeTrap_dual {m : Mach} {t : TrapInfo} (hf : m.g.fatal = true) (hd : m.g.dual = true) :
    takeTrap m t = { m with g := { m.g.trapRegs t (m.g.trapCode t.code) m.g.emuFrame.isSome with
      dualSt := { m.g.dualSt with waiting := true, fatal := true } } } := by
  simp [takeTrap, hf, hd, Group.trapRegs]

theorem trapInHandlerRemovesContext : Claims.TrapInHandlerRemovesContext := by
  intro m t hg hx hf
  have hfatal := m.g.fatal_iff.2 hf
  refine ⟨fun hd => ?_, fun hd => ?_⟩
  · rw [takeTrap_fatal hfatal hd]
    exact ⟨congrArg Group.live (removeContext_group (m := ⟨m.g.trapRegs t _ _, m.d⟩) _ hx rfl hg),
      removeContext_ctx _ hx, removeContext_groups _ hx⟩
  · rw [takeTrap_dual hfatal hd]
    exact ⟨rfl, hg, rfl, rfl, rfl, rfl, rfl, rfl⟩

/-! ### Traps of the scalar word on turn (R175, R170) -/

theorem exec_trapEntry (code : BitVec 8) (s : State) : exec (.trapEntry code) s =
    actOrWait (fun _ m => if trapCodes.contains code.toNat then scalarTrap m code.toNat else some m) s := rfl

theorem scalarTrap_wait {m : Mach} (code : Nat) (hq : m.g.queue ≠ []) : scalarTrap m code = none := by
  simp [scalarTrap, Group.not_lanesIdle hq]

theorem trapEntry : Claims.TrapEntry := by
  intro s code hc
  rw [exec_trapEntry]
  refine ⟨fun ht => actOrWait_trap (if_pos hc) ht, fun hq => actOrWait_wait ?_⟩
  exact (if_pos hc).trans (scalarTrap_wait _ hq)

/-! ### The return from a handler (R176) -/

theorem exec_sysTret (s : State) : exec .sysTret s = actOrWait (fun _ m => trapReturn m) s := rfl

/-- A block that is not over stays at the head of the queue. -/
theorem Group.settle_inside {g : Group} {b : Block} {bs : List Block} (hq : g.queue = b :: bs) (hp : g.lpos < b.start + b.count) :
    g.settle = g := by
  simp [Group.settle, hq, Nat.not_le.2 hp]

/-- A block that is over leaves the queue, and the accesses held behind it wait for one block less. -/
theorem Group.settle_over {g : Group} {b : Block} {bs : List Block} (hq : g.queue = b :: bs) (hp : b.start + b.count ≤ g.lpos) :
    g.settle = { g with
      queue := bs, lpos := (bs.head?.map fun b => b.start).getD 0
      heldWords := g.heldWords.map fun h => { h with blocks := h.blocks - 1 } } := by
  simp [Group.settle, hq, hp]

section
variable {m : Mach} {f : Frame} (hq : m.g.queue = []) (hf : m.g.trapFrame = some f) (hn : m.g.nores = false)
include hq hf hn

/-- The return to the scalar thread, when no lane word was held. -/
theorem trapReturn_scalar (hl : m.g.tlpc = BitVec.allOnes 64)
    (ht : m.g.goodTarget (m.g.tspc + if m.g.skip then 4 else 0) = true) : trapReturn m = some { m with g := { m.g with
      pc := m.g.tspc + (if m.g.skip then 4 else 0), trapFrame := none, inHandler := false, lpos := 0 } } := by
  have hi := Group.lanesIdle_of_queue hq
  cases hs : m.g.skip <;> simp [hs] at ht <;> simp [trapReturn, hi, hf, hn, hl, hs, ht, hq]

/-- The return to the lane words of the frame: the scalar thread is at `%tspc`, the lanes go on where `%tlpc` says. -/
theorem trapReturn_lanes {b : Block} {bs : List Block} (hb : f.blocks = b :: bs) (hl : m.g.tlpc ≠ BitVec.allOnes 64)
    (h1 : b.start ≤ m.g.tlpc.toNat + (if m.g.skip then 1 else 0))
    (h2 : m.g.tlpc.toNat + (if m.g.skip then 1 else 0) ≤ b.start + b.count) (ht : m.g.goodTarget m.g.tspc = true) :
    trapReturn m = some { m with
      g := Group.resumeLanes { m.g with pc := m.g.tspc, trapFrame := none, inHandler := false } f
        (m.g.tlpc.toNat + (if m.g.skip then 1 else 0)) } := by
  have hi := Group.lanesIdle_of_queue hq
  simp [trapReturn, hi, hf, hn, hb, beq_false_of_ne hl, h1, h2, ht, -BitVec.reduceAllOnes]

theorem trapReturn_inside {b : Block} {bs : List Block} (hb : f.blocks = b :: bs) (hl : m.g.tlpc ≠ BitVec.allOnes 64)
    (h1 : b.start ≤ m.g.tlpc.toNat + (if m.g.skip then 1 else 0))
    (h2 : m.g.tlpc.toNat + (if m.g.skip then 1 else 0) < b.start + b.count) (ht : m.g.goodTarget m.g.tspc = true) :
    trapReturn m = some { m with g := { m.g with
      pc := m.g.tspc, trapFrame := none, inHandler := false, queue := f.blocks
      lpos := m.g.tlpc.toNat + (if m.g.skip then 1 else 0) } } := by
  rw [trapReturn_lanes hq hf hn hb hl h1 (Nat.le_of_lt h2) ht, Group.resumeLanes, Group.settle_inside (b := b) (bs := bs) hb h2]

end

theorem trapReturn_illegal {m : Mach} (hq : m.g.queue = []) (h : m.g.trapFrame = none ∨ m.g.nores = true) :
    trapReturn m = scalarTrap m cILLEGAL := by
  have hi := Group.lanesIdle_of_queue hq
  rw [scalarTrap_idle m _ hi]
  rcases h with h | h
  · simp [trapReturn, hi, h]
  · cases hf : m.g.trapFrame <;> simp [trapReturn, hi, h, hf]

theorem trapReturnClaim : Claims.TrapReturn := by
  intro s hq
  refine ⟨fun f hf hn hl ht => ?_, fun f b bs hf hn hb hl h1 h2 ht => ?_, fun f b bs hf hn hb hl h1 ht => ?_, fun h ht => ?_⟩
  · rw [exec_sysTret]
    exact actOrWait_group (trapReturn_scalar hq hf hn hl ht)
  · rw [exec_sysTret]
    exact actOrWait_group (trapReturn_inside hq hf hn hb hl h1 h2 ht)
  · rw [exec_sysTret]
    refine actOrWait_group ((trapReturn_lanes hq hf hn hb hl ((Nat.le_add_right ..).trans h1.ge) h1.le ht).trans ?_)
    rw [Group.resumeLanes, Group.settle_over (b := b) (bs := bs) hb (Nat.le_of_eq h1.symm)]
    rfl
  · rw [exec_sysTret]
    exact actOrWait_trap (trapReturn_illegal hq h) ht

/-! ### A trap of a lane word and its return (R174, R176) -/

theorem laneTrap_trapped {m : Mach} (code : Nat) (mask : Word) (hi : m.g.inHandler = false) (hv : m.g.trapv ≠ 0) :
    laneTrap m code mask = ⟨m.g.trapped code 0 7 m.g.pc (BitVec.ofNat 64 m.g.laneTrapPos) mask false
      ⟨m.g.laneTrapPos, m.g.queue⟩, m.d⟩ :=
  takeTrap_trapped m _ hi hv

theorem trapAndReturnRestore : Claims.TrapAndReturnRestore := by
  intro s code b bs hi hv he hq h1 h2 hp ht
  have hlt : (BitVec.ofNat 64 s.grp.lpos).toNat = s.grp.lpos := by
    rw [BitVec.toNat_ofNat]
    omega
  have hne : BitVec.ofNat 64 s.grp.lpos ≠ BitVec.allOnes 64 := by
    intro h
    rw [h, BitVec.toNat_allOnes] at hlt
    omega
  rw [laneTrap_trapped code 0 hi hv, exec_sysTret]
  refine ⟨_, actOrWait_group (trapReturn_inside rfl rfl (congrArg Option.isSome he) hq hne ?_ ?_ ht), ?_⟩
  · exact h1.trans_eq hlt.symm
  · exact hlt.trans_lt h2
  · exact ⟨rfl, hlt, rfl, rfl, rfl, rfl, rfl, rfl, rfl⟩

end Sys2Proof.Machine

namespace Sys2Proof

/-- Settles O5: a trap is one change of the group, or the removal of its context; a return undoes the first. -/
theorem takingTraps : Obligations.TakingTraps :=
  ⟨Machine.takeTrap_trapped, Machine.trapInHandlerRemovesContext, Machine.trapEntry, Machine.trapReturnClaim,
    Machine.trapAndReturnRestore⟩

end Sys2Proof
end

section
/-! ## Emulation: calls, entries of reserved encodings, returns -/

namespace Sys2Proof.Machine

/-! ### The entry of the emulation handler (R32, R36) -/

/-- A group that has entered the emulation handler: `%e0` to `%e3` as given, the lane words held in the frame. -/
def Group.emulating (g : Group) (f : Frame) (tlpc e0 e1 e2 e3 : Word) : Group :=
  { g.freeHeld with
    emuFrame := some f, tspc := g.pc, tlpc := tlpc, chain := none, e0 := e0, e1 := e1, e2 := e2, e3 := e3
    queue := [], lpos := 0, pc := g.emuv, dueTrap := none, blocks := [] }

theorem keptByEmulation_emulating (g : Group) (f : Frame) (tlpc e0 e1 e2 e3 : Word) :
    keptByEmulation g (g.emulating f tlpc e0 e1 e2 e3) := ⟨rfl, rfl, rfl, rfl⟩

section
variable {m : Mach} (hf : m.g.emuFrame = none) (hv : m.g.emuv ≠ 0) (ht : m.g.goodTarget m.g.emuv = true) (e0 e1 e2 e3 : Word)
include hf hv ht

theorem enterEmulation_scalar (hq : m.g.queue = []) : enterEmulation m false e0 e1 e2 e3 =
    some ⟨m.g.emulating ⟨0, []⟩ (BitVec.allOnes 64) e0 e1 e2 e3, m.d⟩ := by
  have hne : m.g.emuv ≠ 0#64 := hv
  simp [enterEmulation, Group.lanesIdle_of_queue hq, hf, hne, ht, Group.emulating]

theorem enterEmulation_lane : enterEmulation m true e0 e1 e2 e3 =
    some ⟨m.g.emulating ⟨m.g.lpos, m.g.queue⟩ (BitVec.ofNat 64 m.g.lpos) e0 e1 e2 e3, m.d⟩ := by
  have hne : m.g.emuv ≠ 0#64 := hv
  simp [enterEmulation, hf, hne, ht, Group.emulating]

end

theorem enterEmulation_wait {m : Mach} (e0 e1 e2 e3 : Word) (hq : m.g.queue ≠ []) :
    enterEmulation m false e0 e1 e2 e3 = none := by
  simp [enterEmulation, Group.not_lanesIdle hq]

/-- Without a handler the word is illegal (R36). -/
theorem enterEmulation_noHandler {m : Mach} (e0 e1 e2 e3 : Word) (hq : m.g.queue = []) (hf : m.g.emuFrame = none)
    (hv : m.g.emuv = 0) : enterEmulation m false e0 e1 e2 e3 = scalarTrap m cILLEGAL := by
  have hi := Group.lanesIdle_of_queue hq
  simp [enterEmulation, scalarTrap, hi, hf, hv]

/-- The emulation handler does not nest (R36, R178). -/
theorem enterEmulation_nested {m : Mach} (e0 e1 e2 e3 : Word) (hq : m.g.queue = []) (hf : m.g.emuFrame.isSome = true) :
    enterEmulation m false e0 e1 e2 e3 = scalarTrap m cEMUNEST := by
  have hi := Group.lanesIdle_of_queue hq
  simp [enterEmulation, scalarTrap, hi, hf]

/-! ### The fields of `%e1` and `%e2` (R34) -/

theorem toNat_field {n : Nat} (w : BitVec n) (lo len : Nat) : (w.extractLsb' lo len).toNat = w.toNat / 2 ^ lo % 2 ^ len := by
  rw [BitVec.extractLsb'_toNat, Nat.shiftRight_eq_div_pow]

theorem toNat_append_add {m n : Nat} (x : BitVec m) (y : BitVec n) : (x ++ y).toNat = 2 ^ n * x.toNat + y.toNat := by
  rw [BitVec.toNat_append, ← Nat.shiftLeft_add_eq_or_of_lt y.isLt, Nat.shiftLeft_eq, Nat.mul_comm]

theorem e2Holds_scalar {a b c d e : Nat} (ha : a < 2 ^ 6) (hb : b < 2 ^ 6) (hc : c < 2 ^ 6) (hd : d < 2 ^ 6) (he : e < 2 ^ 8) :
    e2Holds (BitVec.ofNat 64 (a + 2 ^ 10 * b + 2 ^ 18 * c + 2 ^ 27 * d + 2 ^ 36 * e)) a b c d e 0 0 := by
  have hlt : a + 2 ^ 10 * b + 2 ^ 18 * c + 2 ^ 27 * d + 2 ^ 36 * e < 2 ^ 64 := by omega
  rw [e2Holds, BitVec.toNat_ofNat, Nat.mod_eq_of_lt hlt]
  refine ⟨?_, ?_, ?_, ?_, ?_, ?_, ?_⟩ <;> omega

theorem e2OfScalar_e2Scalar (w : BitVec 32) : e2OfScalar (e2Scalar w) w := by
  have hop : w.toNat / 2 ^ 26 % 2 ^ 6 = w.toNat / 2 ^ 26 := Nat.mod_eq_of_lt (by have := w.isLt; omega)
  have hlow : w.toNat / 2 ^ 0 = w.toNat := Nat.div_one _
  have h := e2Holds_scalar (w.extractLsb' 26 6).isLt (w.extractLsb' 20 6).isLt (w.extractLsb' 14 6).isLt
    (w.extractLsb' 8 6).isLt (w.extractLsb' 0 8).isLt
  rw [← e2Scalar] at h
  simp only [toNat_field, hop, hlow] at h
  exact h

theorem e2Holds_e2Wide (op : BitVec 10) (w : Wide) : e2Holds (e2Wide op w) op.toNat w.dst.toNat w.sa.toNat w.sb.toNat w.sc.toNat
    w.mod.toNat w.ms.toNat := by
  have h0 := op.isLt
  have h1 := w.dst.isLt
  have h2 := w.sa.isLt
  have h3 := w.sb.isLt
  have h4 := w.sc.isLt
  have h5 := w.mod.isLt
  simp only [e2Holds, e2Wide, toNat_append_add]
  refine ⟨?_, ?_, ?_, ?_, ?_, ?_, ?_⟩ <;> omega

theorem e2Holds_e2Slot (op : BitVec 7) (n : Narrow) : e2Holds (e2Slot op n) op.toNat n.dst.toNat n.sa.toNat n.sb.toNat n.sc.toNat
    n.mod.toNat 0 := by
  have h0 := op.isLt
  have h1 := n.dst.isLt
  have h2 := n.sa.isLt
  have h3 := n.sb.isLt
  have h4 := n.sc.isLt
  have h5 := n.mod.isLt
  simp only [e2Holds, e2Slot, toNat_append_add, BitVec.ofNat_eq_ofNat, BitVec.toNat_ofNat, Nat.zero_mod]
  refine ⟨?_, ?_, ?_, ?_, ?_, ?_, ?_⟩ <;> omega

/-- The fields of a slot that stands at bit `o` of a pair word (R22). -/
theorem narrowFields_at (w : BitVec 96) (o : Nat) :
    (narrowFields (w.extractLsb' o 40)).dst.toNat = w.toNat / 2 ^ (o + 32) % 2 ^ 8 ∧
    (narrowFields (w.extractLsb' o 40)).sa.toNat = w.toNat / 2 ^ (o + 23) % 2 ^ 8 ∧
    (narrowFields (w.extractLsb' o 40)).sb.toNat = w.toNat / 2 ^ (o + 14) % 2 ^ 8 ∧
    (narrowFields (w.extractLsb' o 40)).sc.toNat = w.toNat / 2 ^ (o + 5) % 2 ^ 8 ∧
    (narrowFields (w.extractLsb' o 40)).mod.toNat = w.toNat / 2 ^ o % 2 ^ 4 := by
  simp only [narrowFields, toNat_field, Nat.pow_add, ← Nat.div_div_eq_div_mul]
  omega

theorem e2OfLane_e2Lane (w : BitVec 96) (y : Bool) : e2OfLane (e2Lane w y) w y := by
  refine ⟨fun h => ?_, fun h => ?_⟩
  · rw [e2Lane, h, if_neg (by decide)]
    simpa only [toNat_field, wideFields] using e2Holds_e2Wide (w.extractLsb' 84 10) (wideFields w)
  · rw [e2Lane, if_pos h]
    cases y
    · obtain ⟨hd, ha, hb, hc, hm⟩ := narrowFields_at w 47
      have hs := e2Holds_e2Slot (w.extractLsb' 87 7) (narrowFields (w.extractLsb' 47 40))
      rwa [hd, ha, hb, hc, hm, toNat_field] at hs
    · obtain ⟨hd, ha, hb, hc, hm⟩ := narrowFields_at w 0
      have hs := e2Holds_e2Slot (w.extractLsb' 40 7) (narrowFields (w.extractLsb' 0 40))
      rwa [hd, ha, hb, hc, hm, toNat_field] at hs

theorem toNat_e1Word {k : Nat} (hk : k < 16) : (e1Word k false false 0).toNat = k * 2 ^ 32 := by
  simp only [e1Word, Bool.false_eq_true, ↓reduceIte, BitVec.toNat_ofNat]
  omega

theorem e1Word_lane_fields {k : Nat} (hk : k < 16) (y : Bool) (hi : BitVec 32) :
    (e1Word k true y hi.toNat).extractLsb' 0 32 = hi ∧ ((e1Word k true y hi.toNat).extractLsb' 32 4).toNat = k ∧
    bit (e1Word k true y hi.toNat) 36 = true ∧ bit (e1Word k true y hi.toNat) 37 = y ∧
    (e1Word k true y hi.toNat).toNat < 2 ^ 38 := by
  have hlt := hi.isLt
  have hy : (if y then 2 ^ 37 else 0) = 2 ^ 37 * (if y then 1 else 0) := by cases y <;> rfl
  have hy' : (if y then 1 else 0) < 2 := by cases y <;> decide
  rw [e1Word, hy, if_pos rfl]
  generalize hb : (if y then 1 else 0) = b at hy'
  refine ⟨extract_ofNat _ _ _ _ ?_, ?_, bit_ofNat _ _ _ (by decide) ?_, bit_ofNat _ _ _ (by decide) ?_, ?_⟩
  · omega
  · rw [toNat_field, BitVec.toNat_ofNat]
    omega
  · rw [if_pos rfl]
    omega
  · omega
  · rw [BitVec.toNat_ofNat]
    omega

/-! ### `s.emu` (R37) -/

theorem exec_sEmu (code : BitVec 26) (s : State) : exec (.sEmu code) s =
    actOrWait (fun _ m => emulateScalar 8 (BitVec.ofNat 32 (0x3E * 2 ^ 26 + code.toNat)) m) s := rfl

theorem emulationCall : Claims.EmulationCall := by
  intro s code
  have hw : 0x3E * 2 ^ 26 + code.toNat < 2 ^ 32 := by
    have := code.isLt
    omega
  rw [exec_sEmu]
  refine ⟨fun hq => ?_, fun hq hf hv ht => ?_, fun ht hf hv => ?_, fun ht hf => ?_⟩
  · exact actOrWait_wait (enterEmulation_wait _ _ _ _ hq)
  · refine ⟨_, actOrWait_group (enterEmulation_scalar hf hv ht _ _ _ _ hq), ?_, toNat_e1Word (by decide), e2OfScalar_e2Scalar _,
      rfl, rfl, rfl, rfl, rfl, keptByEmulation_emulating ..⟩
    show (BitVec.zeroExtend 64 (BitVec.ofNat 32 _)).toNat = _
    rw [BitVec.zeroExtend_eq_setWidth, BitVec.toNat_setWidth, BitVec.toNat_ofNat, Nat.mod_eq_of_lt hw,
      Nat.mod_eq_of_lt (by omega)]
  · exact actOrWait_trap (enterEmulation_noHandler _ _ _ _ ht.1 hf hv) ht
  · exact actOrWait_trap (enterEmulation_nested _ _ _ _ ht.1 hf) ht

/-! ### Reserved encodings and `v.emu` (R28, R29, R38) -/

theorem exec_emulationEntry (r : Reserved) (w : BitVec 96) (s : State) : exec (.emulationEntry r w) s = actOrWait (fun _ m =>
    if kindOf r ≤ 3 || kindOf r = 8 then emulateScalar (kindOf r) (w.extractLsb' 0 32) m
    else emulateLane (kindOf r) (slotYOf r) w m) s := rfl

theorem exec_emulationEntry_scalar {r : Reserved} (w : BitVec 96) (s : State) (hk : kindOf r ≤ 3 ∨ kindOf r = 8) :
    exec (.emulationEntry r w) s = actOrWait (fun _ m => emulateScalar (kindOf r) (w.extractLsb' 0 32) m) s := by
  rw [exec_emulationEntry]
  simp only [Bool.or_eq_true, decide_eq_true_eq, hk, ↓reduceIte]

theorem exec_emulationEntry_lane {r : Reserved} (w : BitVec 96) (s : State) (hk : 4 ≤ kindOf r) (h8 : kindOf r ≠ 8) :
    exec (.emulationEntry r w) s = actOrWait (fun _ m => emulateLane (kindOf r) (slotYOf r) w m) s := by
  have hk' : ¬ (kindOf r ≤ 3 ∨ kindOf r = 8) := by omega
  rw [exec_emulationEntry]
  simp only [Bool.or_eq_true, decide_eq_true_eq, hk', ↓reduceIte]

theorem exec_vEmu (n : BitVec 6) (x : Wide) (s : State) :
    exec (.vEmu n x) s = actOrWait (fun _ m => emulateLane 9 false (wideWord (15#4 ++ n) x) m) s := rfl

theorem kindOf_lt (r : Reserved) : kindOf r < 16 := by
  cases r <;> simp [kindOf]

/-- A lane word enters emulation at once when no lane memory word is pending and no chain is open. -/
theorem emulateLane_now {m : Mach} (k : Nat) (y : Bool) (w : BitVec 96) (hp : lanesPending m = false) (hc : m.g.chain = none) :
    emulateLane k y w m = enterEmulation m true (w.extractLsb' 0 64) (e1Word k true y (w.extractLsb' 64 32).toNat)
      (e2Lane w y) (laneEmask m.g w) := by
  simp [emulateLane, hp, hc]

theorem laneEmask_eq (g : Group) (w : BitVec 96) :
    laneEmask g w = if bit w 95 then g.m0 else runMask g g.view (w.toNat / 2 ^ 81 % 8) := by
  rw [laneEmask, wideFields, toNat_field]
  rfl

theorem emulationEntries : Claims.EmulationEntries := by
  intro s hf hv ht
  refine ⟨fun r w hk hq => ?_, fun i k y w hi hp hc => ?_⟩
  · rw [exec_emulationEntry_scalar w s hk]
    exact ⟨_, actOrWait_group (enterEmulation_scalar hf hv ht _ _ _ _ hq), rfl, toNat_e1Word (kindOf_lt r), e2OfScalar_e2Scalar _,
      rfl, rfl, rfl, rfl, rfl, keptByEmulation_emulating ..⟩
  have hexec : exec i s = actOrWait (fun _ m => emulateLane k y w m) s ∧ k < 16 := by
    rcases hi with ⟨r, rfl, rfl, rfl, h4, h8⟩ | ⟨n, x, rfl, rfl, rfl, rfl⟩
    · exact ⟨exec_emulationEntry_lane w s h4 h8, kindOf_lt r⟩
    · exact ⟨exec_vEmu n x s, by decide⟩
  obtain ⟨hexec, hk⟩ := hexec
  obtain ⟨h1, h2, h3, h4, h5⟩ := e1Word_lane_fields hk y (w.extractLsb' 64 32)
  rw [hexec]
  exact ⟨_, actOrWait_group ((emulateLane_now k y w hp hc).trans (enterEmulation_lane hf hv ht _ _ _ _)), rfl, h1, h2, h3, h4, h5,
    e2OfLane_e2Lane w y, laneEmask_eq s.grp w, rfl, rfl, rfl, rfl, keptByEmulation_emulating ..⟩

/-! ### `sys.emuret` (R35, R36, R39) -/

theorem exec_sysEmuret (s : State) : exec .sysEmuret s = actOrWait (fun _ m => emulationReturn m) s := rfl

section
variable {m : Mach} {f : Frame} (hq : m.g.queue = []) (hf : m.g.emuFrame = some f)
include hq hf

theorem emulationReturn_scalar (hb : f.blocks = []) :
    emulationReturn m = some { m with g := { m.g with emuFrame := none, pc := m.g.tspc + 4 } } := by
  simp [emulationReturn, Group.lanesIdle_of_queue hq, hf, hb]

theorem emulationReturn_lanes {b : Block} {bs : List Block} (hb : f.blocks = b :: bs) : emulationReturn m = some { m with
    g := { Group.resumeLanes { m.g with emuFrame := none } f (m.g.tlpc + 1).toNat with pc := m.g.tspc } } := by
  simp [emulationReturn, Group.lanesIdle_of_queue hq, hf, hb]

end

theorem emulationReturn_illegal {m : Mach} (hq : m.g.queue = []) (hf : m.g.emuFrame = none) :
    emulationReturn m = scalarTrap m cILLEGAL := by
  rw [scalarTrap_idle m _ (Group.lanesIdle_of_queue hq)]
  simp [emulationReturn, Group.lanesIdle_of_queue hq, hf]

theorem emulationReturnClaim : Claims.EmulationReturn := by
  intro s hq
  rw [exec_sysEmuret]
  refine ⟨fun f hf hb => ?_, fun f b bs hf hb hp => ?_, fun f b bs hf hb hp => ?_, fun hf ht => ?_⟩
  · exact actOrWait_group (emulationReturn_scalar hq hf hb)
  · refine actOrWait_group ((emulationReturn_lanes hq hf hb).trans ?_)
    rw [Group.resumeLanes, Group.settle_inside (b := b) (bs := bs) hb hp]
    rfl
  · refine actOrWait_group ((emulationReturn_lanes hq hf hb).trans ?_)
    rw [Group.resumeLanes, Group.settle_over (b := b) (bs := bs) hb hp.ge]
    rfl
  · exact actOrWait_trap (emulationReturn_illegal hq hf) ht

end Sys2Proof.Machine

namespace Sys2Proof

/-- Settles O7: every entry is one change of the group, and a return puts both streams where the registers say. -/
theorem emulation : Obligations.Emulation :=
  ⟨Machine.emulationCall, Machine.emulationReturnClaim, Machine.emulationEntries⟩

end Sys2Proof
end

section
/-! ## Lane words: selectors, the lane file, masks of lanes, events and fallbacks -/

namespace Sys2Proof.Machine

/-! ### Selectors (R18, R19) -/

theorem tyWidth_eq_64 (ty : Nat) : tyWidth ty = 64 ↔ ty = 3 ∨ ty = 7 := by
  unfold tyWidth
  split <;> simp_all

theorem toNat_signExtend {n : Nat} (x : BitVec n) (w : Nat) : (x.signExtend w).toNat = (x.toInt % (2 ^ w : Nat)).toNat :=
  BitVec.toNat_ofInt x.toInt

theorem toNat_zeroExtend_of_le {n w : Nat} (x : BitVec n) (h : n ≤ w) : (x.zeroExtend w).toNat = x.toNat := by
  rw [BitVec.zeroExtend_eq_setWidth, BitVec.toNat_setWidth, Nat.mod_eq_of_lt]
  exact x.isLt.trans_le (Nat.pow_le_pow_right (by decide) h)

theorem toNat_get (f : LaneFile) (r l : Nat) : (f.get r l).val.toNat = (f.val.getD (64 * r + l) 0).toNat :=
  toNat_zeroExtend_of_le _ (by decide)

/-- A pair reads its low half first (R41). -/
theorem toNat_getPair (f : LaneFile) (r l : Nat) : (f.getPair r l).val.toNat =
    (f.val.getD (64 * (r - r % 2) + l) 0).toNat + 2 ^ 32 * (f.val.getD (64 * (r - r % 2 + 1) + l) 0).toNat := by
  rw [← toNat_get, ← toNat_get]
  have hlo : (f.get (r - r % 2) l).val.toNat < 2 ^ 32 := (toNat_get ..).trans_lt (BitVec.isLt _)
  have hhi : (f.get (r - r % 2 + 1) l).val.toNat < 2 ^ 32 := (toNat_get ..).trans_lt (BitVec.isLt _)
  show ((f.get (r - r % 2) l).val ||| ((f.get (r - r % 2 + 1) l).val <<< 32)).toNat = _
  generalize (f.get (r - r % 2) l).val = lo, (f.get (r - r % 2 + 1) l).val = hi at hlo hhi ⊢
  have hsh : (hi <<< 32).toNat = hi.toNat <<< 32 := by
    rw [BitVec.toNat_shiftLeft, Nat.shiftLeft_eq, Nat.mod_eq_of_lt (by omega)]
  rw [BitVec.toNat_or, hsh, Nat.lor_comm, ← Nat.shiftLeft_add_eq_or_of_lt hlo, Nat.shiftLeft_eq]
  omega

/-- A register, or its pair, as a selector under a type reads it. -/
theorem toNat_read (f : LaneFile) (ty r l : Nat) : (f.read ty r l).val.toNat =
    if ty = 3 ∨ ty = 7 then
      (f.val.getD (64 * (r - r % 2) + l) 0).toNat + 2 ^ 32 * (f.val.getD (64 * (r - r % 2 + 1) + l) 0).toNat
    else (f.val.getD (64 * r + l) 0).toNat := by
  unfold LaneFile.read
  simp only [tyWidth_eq_64]
  split
  · exact toNat_getPair f r l
  · exact toNat_get f r l

/-- The width of a type cuts what a latch or a scalar register gives. -/
theorem toNat_cut (ty : Nat) (x : Word) :
    (if tyWidth ty = 64 then x else (x.extractLsb' 0 32).zeroExtend 64).toNat =
      if ty = 3 ∨ ty = 7 then x.toNat else x.toNat % 2 ^ 32 := by
  simp only [tyWidth_eq_64]
  split
  · rfl
  · rw [toNat_zeroExtend_of_le _ (by decide), toNat_field, Nat.pow_zero, Nat.div_one]

theorem immOf_natural {ty : Nat} (imm : BitVec 23) (h : 4 ≤ ty ∧ ty ≤ 7 ∨ 14 ≤ ty) : immOf ty imm = imm.zeroExtend 64 := by
  unfold immOf
  split
  case h_11 => rfl
  all_goals omega

theorem toNat_immOf (ty : Nat) (imm : BitVec 23) :
    ((ty = 0 ∨ ty = 1 ∨ ty = 2) → (immOf ty imm).toNat = (imm.toInt % (2 ^ 32 : Nat)).toNat) ∧
    (ty = 3 → (immOf ty imm).toNat = (imm.toInt % (2 ^ 64 : Nat)).toNat) ∧
    (ty = 8 → (immOf ty imm).toNat = imm.toNat * 2 ^ 9) ∧
    ((ty = 9 ∨ ty = 10 ∨ ty = 13) → (immOf ty imm).toNat = imm.toNat % 2 ^ 16) ∧
    ((ty = 11 ∨ ty = 12) → (immOf ty imm).toNat = imm.toNat % 2 ^ 8) ∧
    ((4 ≤ ty ∧ ty ≤ 7) ∨ 14 ≤ ty → (immOf ty imm).toNat = imm.toNat) := by
  have hlow (n : Nat) (hn : n ≤ 64) : ((imm.extractLsb' 0 n).zeroExtend 64).toNat = imm.toNat % 2 ^ n := by
    rw [toNat_zeroExtend_of_le _ hn, toNat_field, Nat.pow_zero, Nat.div_one]
  refine ⟨fun h => ?_, fun h => ?_, fun h => ?_, fun h => ?_, fun h => ?_, fun h => ?_⟩
  · rcases h with rfl | rfl | rfl <;> exact (toNat_zeroExtend_of_le _ (by decide)).trans (toNat_signExtend imm 32)
  · subst h
    exact toNat_signExtend imm 64
  · subst h
    have := imm.isLt
    show ((imm.zeroExtend 64) <<< 9).toNat = _
    rw [BitVec.toNat_shiftLeft, toNat_zeroExtend_of_le _ (by decide), Nat.shiftLeft_eq, Nat.mod_eq_of_lt (by omega)]
  · rcases h with rfl | rfl | rfl <;> exact hlow 16 (by decide)
  · rcases h with rfl | rfl <;> exact hlow 8 (by decide)
  · rw [immOf_natural imm h, toNat_zeroExtend_of_le _ (by decide)]

section
variable (g : Group) (v : View) (imm : BitVec 23) (ty l : Nat) {sel : BitVec 9}

theorem readSel_register (h : sel.toNat < 256) : readSel g v imm ty sel l = g.lanes.read ty sel.toNat l := if_pos h

theorem readSel_latch {j : Nat} {c : Chain} (hj : j < 4) (h : sel.toNat = 256 + j) (hc : g.chain = some c) :
    (readSel g v imm ty sel l).val =
      if tyWidth ty = 64 then c.lat.getD (64 * j + l) 0 else ((c.lat.getD (64 * j + l) 0).extractLsb' 0 32).zeroExtend 64 := by
  rw [readSel, if_neg (by omega), if_pos (by omega), hc, h, Nat.add_sub_cancel_left]

theorem readSel_noLatch (h1 : 256 ≤ sel.toNat) (h2 : sel.toNat < 260) (hc : g.chain = none) :
    readSel g v imm ty sel l = ⟨0, false⟩ := by
  rw [readSel, if_neg (by omega), if_pos h2, hc]

theorem readSel_indexed {j : Nat} (hj : j < 4) (h : sel.toNat = 260 + j) :
    readSel g v imm ty sel l = g.lanes.read ty (((v.x.getD j 0).toNat + imm.toNat % 256) % 512) l := by
  rw [readSel, if_neg (by omega), if_neg (by omega), if_pos (by omega), h, Nat.add_sub_cancel_left, indexOf, toNat_field,
    Nat.pow_zero, Nat.div_one]
  rfl

theorem readSel_immediate (h : sel.toNat = 264) : readSel g v imm ty sel l = ⟨immOf ty imm, false⟩ := by
  simp [readSel, h]
theorem readSel_scalar (h : sel.toNat = 265) : (readSel g v imm ty sel l).val =
    if tyWidth ty = 64 then if imm.toNat % 64 = 0 then 0 else v.s.getD (imm.toNat % 64) 0
    else ((if imm.toNat % 64 = 0 then 0 else v.s.getD (imm.toNat % 64) 0).extractLsb' 0 32).zeroExtend 64 := by
  simp [readSel, h]
theorem readSel_lane (h : sel.toNat = 266) : readSel g v imm ty sel l = ⟨BitVec.ofNat 64 l, false⟩ := by
  simp [readSel, h]
theorem readSel_zero (h : sel.toNat = 267) : readSel g v imm ty sel l = ⟨0, false⟩ := by
  simp [readSel, h]
theorem readSel_index (h : sel.toNat = 268) : readSel g v imm ty sel l = ⟨BitVec.ofNat 64 g.index, false⟩ := by
  simp [readSel, h]
theorem readSel_teamNo (h : sel.toNat = 269) : (readSel g v imm ty sel l).val =
    if tyWidth ty = 64 then BitVec.ofNat 64 g.teamNo else ((BitVec.ofNat 64 g.teamNo).extractLsb' 0 32).zeroExtend 64 := by
  simp [readSel, h]
theorem readSel_width (h : sel.toNat = 270) : readSel g v imm ty sel l = ⟨BitVec.ofNat 64 g.width, false⟩ := by
  simp [readSel, h]
theorem readSel_tile (h : sel.toNat = 271) : readSel g v imm ty sel l = ⟨BitVec.ofNat 64 v.tile, false⟩ := by
  simp [readSel, h]

end

theorem toNat_ofNat_of_lt {n : Nat} (h : n < 2 ^ 64) : (BitVec.ofNat 64 n).toNat = n := by
  rw [BitVec.toNat_ofNat, Nat.mod_eq_of_lt h]

theorem laneOperands : Claims.LaneOperands := by
  intro g v imm ty l sel x reg at_ cut
  refine ⟨fun h => ?_, fun c j hj h hc => ?_, fun h1 h2 hc => ?_, fun j hj h => ?_, fun h => ?_, fun h => ?_, fun hl h => ?_,
    fun h => ?_, fun hi h => ?_, fun ht h => ?_, fun hw h => ?_, fun ht h => ?_⟩
  · exact (congrArg (fun o => o.val.toNat) (readSel_register g v imm ty l h)).trans (toNat_read ..)
  · exact (congrArg BitVec.toNat (readSel_latch g v imm ty l hj h hc)).trans (toNat_cut ..)
  · exact congrArg Opnd.val (readSel_noLatch g v imm ty l h1 h2 hc)
  · exact (congrArg (fun o => o.val.toNat) (readSel_indexed g v imm ty l hj h)).trans (toNat_read ..)
  · rw [show x = immOf ty imm from congrArg Opnd.val (readSel_immediate g v imm ty l h)]
    exact toNat_immOf ty imm
  · rw [show x = _ from readSel_scalar g v imm ty l h, toNat_cut]
    by_cases hz : imm.toNat % 64 = 0 <;> simp [cut, hz]
  · rw [show x = _ from congrArg Opnd.val (readSel_lane g v imm ty l h)]
    exact toNat_ofNat_of_lt (by omega)
  · exact congrArg Opnd.val (readSel_zero g v imm ty l h)
  · rw [show x = _ from congrArg Opnd.val (readSel_index g v imm ty l h)]
    exact toNat_ofNat_of_lt (by omega)
  · rw [show x = _ from readSel_teamNo g v imm ty l h, toNat_cut, toNat_ofNat_of_lt (by omega), Nat.mod_eq_of_lt ht, ite_self]
  · rw [show x = _ from congrArg Opnd.val (readSel_width g v imm ty l h)]
    exact toNat_ofNat_of_lt (by omega)
  · rw [show x = _ from congrArg Opnd.val (readSel_tile g v imm ty l h)]
    exact toNat_ofNat_of_lt (by omega)

end Sys2Proof.Machine
end

section
/-! ## Lane words: the lane file, masks of lanes, events and fallbacks -/

namespace Sys2Proof.Machine

/-! ### Masks of lanes -/

theorem mem_lanesOf {m : Word} {l : Nat} : l ∈ lanesOf m ↔ bit m l = true := by
  simp only [lanesOf, List.mem_filter, List.mem_range, and_iff_right_iff_imp]
  exact fun h => BitVec.lt_of_getLsbD h

theorem bit_setBit {w : Nat} (x : BitVec w) (i : Nat) {k : Nat} (hk : k < w) :
    bit (setBit x i true) k = (bit x k || decide (i = k)) := by
  rw [setBit, if_pos rfl, bit, BitVec.getLsbD_or, BitVec.getLsbD_ofNat, Nat.testBit_two_pow]
  simp [hk]

/-- A mask built lane by lane has the lanes that meet the condition. -/
theorem bit_foldl_setBit {α : Type} (L : List α) (lane : α → Nat) (p : α → Bool) (m : Word) {k : Nat} (hk : k < 64) :
    bit (L.foldl (fun m e => if p e then setBit m (lane e) true else m) m) k =
      (bit m k || L.any fun e => p e && decide (lane e = k)) := by
  induction L generalizing m with
  | nil => simp
  | cons e L ih =>
    rw [List.foldl_cons, ih, List.any_cons]
    cases p e
    · simp
    · rw [if_pos rfl, bit_setBit _ _ hk, Bool.true_and, Bool.or_assoc]

/-- The mask of the running lanes whose result meets a condition. -/
theorem bit_laneMask {α : Type} (run : Word) (out : Nat → α) (p : α → Bool) {k : Nat} (hk : k < 64) :
    bit (((lanesOf run).map fun l => (l, out l)).foldl (fun (m : Word) e => if p e.2 then setBit m e.1 true else m) 0) k =
      (bit run k && p (out k)) := by
  refine (bit_foldl_setBit _ (fun e : Nat × α => e.1) (fun e => p e.2) 0 hk).trans ?_
  rw [List.any_map]
  have hany : ((lanesOf run).any fun l => p (out l) && decide (l = k)) = (bit run k && p (out k)) := by
    rw [Bool.eq_iff_iff, List.any_eq_true, Bool.and_eq_true, ← mem_lanesOf]
    constructor
    · rintro ⟨l, hl, h⟩
      rw [Bool.and_eq_true, decide_eq_true_eq] at h
      obtain ⟨hp, rfl⟩ := h
      exact ⟨hl, hp⟩
    · exact fun ⟨hl, hp⟩ => ⟨k, hl, by simp [hp]⟩
  refine Eq.trans ?_ hany
  simp [Function.comp_def]

theorem popCount_eq (m : Word) : popCount m = countBelow 64 (bit m) := rfl

/-! ### The lane file (R41, R76) -/

theorem get_put (f : LaneFile) (r k : Nat) {l l' : Nat} (x : Lane32) (p : Bool) (hl : l < 64) (hl' : l' < 64) :
    (f.put r l x p).get k l' = if l = l' ∧ k = r then ⟨x.zeroExtend 64, p⟩ else f.get k l' := by
  have hkey : 64 * r + l = 64 * k + l' ↔ l = l' ∧ k = r := by omega
  simp only [LaneFile.get, LaneFile.put, Tab.getD_set, hkey]
  split <;> rfl

theorem get_putPair (f : LaneFile) (r k : Nat) {l l' : Nat} (x : Word) (p : Bool) (hl : l < 64) (hl' : l' < 64) :
    (f.putPair r l x p).get k l' = if l = l' ∧ k ∈ [r - r % 2, r - r % 2 + 1] then
      ⟨(x.extractLsb' (if k % 2 = 1 then 32 else 0) 32).zeroExtend 64, p⟩ else f.get k l' := by
  rw [LaneFile.putPair, get_put _ _ _ _ _ hl hl', get_put _ _ _ _ _ hl hl']
  by_cases hl : l = l'
  · by_cases h1 : k = r - r % 2 + 1
    · rw [if_pos ⟨hl, h1⟩, if_pos ⟨hl, by simp [h1]⟩, if_pos (by omega)]
    · by_cases h0 : k = r - r % 2
      · rw [if_neg (fun h => h1 h.2), if_pos ⟨hl, h0⟩, if_pos ⟨hl, by simp [h0]⟩, if_neg (by omega)]
      · simp [h0, h1]
  · simp [hl]

theorem find?_filter_key {α : Type} (t : Tab α) (p : Nat → Bool) (a : Nat) :
    Tab.find? (t.filter fun e => p e.1) a = if p a then t.find? a else none := by
  induction t with
  | nil => simp
  | cons e t ih =>
    obtain ⟨k, x⟩ := e
    rw [List.filter_cons]
    by_cases hk : k = a
    · subst hk
      cases hp : p k <;> simp [Tab.find?, ih, hp]
    · cases hp : p k <;> simp [Tab.find?, ih, hk]

theorem getD_filter_key {α : Type} (t : Tab α) (p : Nat → Bool) (a : Nat) (d : α) :
    Tab.getD (t.filter fun e => p e.1) a d = if p a then t.getD a d else d := by
  rw [Tab.getD, find?_filter_key]
  split <;> rfl

theorem get_unmap (f : LaneFile) (r k : Nat) {l : Nat} (hl : l < 64) :
    (f.unmap r).get k l = if k = r then ⟨0, false⟩ else f.get k l := by
  have hk : (64 * k + l) / 64 = k := by omega
  rw [LaneFile.get, LaneFile.unmap, getD_filter_key _ (fun a => decide (a / 64 ≠ r)),
    getD_filter_key _ (fun a => decide (a / 64 ≠ r)), hk]
  by_cases h : k = r <;> simp [h, LaneFile.get]

theorem get_foldl_unmap (fs : List Nat) (f : LaneFile) (k : Nat) {l : Nat} (hl : l < 64) :
    (fs.foldl LaneFile.unmap f).get k l = if k ∈ fs then ⟨0, false⟩ else f.get k l := by
  induction fs generalizing f with
  | nil => simp
  | cons r fs ih =>
    rw [List.foldl_cons, ih, get_unmap _ _ _ hl]
    by_cases h : k ∈ fs <;> by_cases hr : k = r <;> simp [h, hr]

/-! ### The effects of a word on its registers (R108) -/

/-- A lane's write of a result of a type at DST8: a register, or the pair for a 64-bit result. -/
def LaneFile.putTyped (f : LaneFile) (ty r l : Nat) (x : Word) (p : Bool) : LaneFile :=
  if tyWidth ty = 64 then f.putPair r l x p else f.put r l (x.extractLsb' 0 32) p

/-- The registers that a result of a type takes at DST8. -/
def typedRegs (ty r : Nat) : List Nat := if tyWidth ty = 64 then [r - r % 2, r - r % 2 + 1] else [r]

/-- What a register shows of a result of a type: the low half, but for the odd register of a pair. -/
def typedHalf (ty k : Nat) (o : LaneOut) : Opnd :=
  ⟨if tyWidth ty = 64 ∧ k % 2 = 1 then o.val >>> 32 else o.val &&& 0xFFFFFFFF, o.psn⟩

theorem zeroExtend_low (x : Word) : (x.extractLsb' 0 32).zeroExtend 64 = x &&& 0xFFFFFFFF := by
  apply BitVec.eq_of_toNat_eq
  rw [toNat_zeroExtend_of_le _ (by decide), toNat_field, Nat.pow_zero, Nat.div_one, BitVec.toNat_and]
  exact (Nat.and_two_pow_sub_one_eq_mod x.toNat 32).symm

theorem zeroExtend_high (x : Word) : (x.extractLsb' 32 32).zeroExtend 64 = x >>> 32 := by
  apply BitVec.eq_of_toNat_eq
  have hx := x.isLt
  rw [toNat_zeroExtend_of_le _ (by decide), toNat_field, BitVec.toNat_ushiftRight, Nat.shiftRight_eq_div_pow,
    Nat.mod_eq_of_lt (by omega)]

theorem get_putTyped (f : LaneFile) (ty r k : Nat) {l l' : Nat} (o : LaneOut) (hl : l < 64) (hl' : l' < 64) :
    (f.putTyped ty r l o.val o.psn).get k l' = if l = l' ∧ k ∈ typedRegs ty r then typedHalf ty k o else f.get k l' := by
  by_cases hty : tyWidth ty = 64
  · by_cases hk : k % 2 = 1 <;>
    simp only [LaneFile.putTyped, typedRegs, typedHalf, hty, hk, get_putPair _ _ _ _ _ hl hl', zeroExtend_high, zeroExtend_low,
      and_self, and_false, ↓reduceIte]
  · simp only [LaneFile.putTyped, typedRegs, typedHalf, hty, get_put _ _ _ _ _ hl hl', zeroExtend_low, false_and, ↓reduceIte,
      List.mem_singleton]

/-- Each running lane writes its own result, and no other. -/
theorem get_foldl_putTyped (L : List Nat) (hL : ∀ l ∈ L, l < 64) (out : Nat → LaneOut) (f : LaneFile) (ty r k : Nat) {l' : Nat}
    (hl' : l' < 64) :
    ((L.map fun l => (l, out l)).foldl (fun f e => f.putTyped ty r e.1 e.2.val e.2.psn) f).get k l' =
      if l' ∈ L ∧ k ∈ typedRegs ty r then typedHalf ty k (out l') else f.get k l' := by
  induction L generalizing f with
  | nil => simp
  | cons l L ih =>
    rw [List.map_cons, List.foldl_cons, ih (fun l h => hL l (List.mem_cons_of_mem _ h)),
      get_putTyped _ _ _ _ _ (hL l List.mem_cons_self) hl']
    by_cases h : l = l'
    · subst h
      by_cases hk : k ∈ typedRegs ty r <;> simp [hk]
    · simp [h, Ne.symm h]

theorem get_laneEff (dst ty : Nat) (ws : Bool) (run : Word) (out : Nat → LaneOut) (f : LaneFile) (k : Nat) {l : Nat}
    (hl : l < 64) : ((laneEff dst ws ty ((lanesOf run).map fun l => (l, out l))).file f).get k l =
      if bit run l = true ∧ k ∈ (if ws then [] else typedRegs ty dst) then typedHalf ty k (out l) else f.get k l := by
  cases ws
  · refine (get_foldl_putTyped _ (fun l h => BitVec.lt_of_getLsbD (mem_lanesOf.1 h)) out f ty dst k hl).trans ?_
    simp only [mem_lanesOf, Bool.false_eq_true, ↓reduceIte]
  · simp [laneEff]

/-- The file after the word has written and freed its registers. -/
theorem lanesAfter_laneEff (old : LaneFile) (dst ty : Nat) (ws : Bool) (run : Word) (out : Nat → LaneOut) (frees : List Nat)
    (hd : ∀ k ∈ frees, k ∉ (if ws then [] else typedRegs ty dst)) :
    lanesAfter old (frees.foldl LaneFile.unmap ((laneEff dst ws ty ((lanesOf run).map fun l => (l, out l))).file old)) run
      (if ws then [] else typedRegs ty dst) frees (fun k l => typedHalf ty k (out l)) := by
  intro k l hl
  rw [get_foldl_unmap _ _ _ hl, get_laneEff _ _ _ _ _ _ _ hl]
  by_cases hk : k ∈ frees
  · rw [if_pos hk, if_neg (fun h => hd k hk h.2), if_pos hk]
  · rw [if_neg hk, if_neg hk]

/-! ### Counts of events (R62-R65) -/

/-- The events of a class in a list of counts. -/
def classSum (l : List (Nat × Nat)) (c : Nat) : Nat := ((l.filter fun e => e.1 == c).map fun e => e.2).sum

theorem classSum_cons (e : Nat × Nat) (l : List (Nat × Nat)) (c : Nat) :
    classSum (e :: l) c = (if e.1 = c then e.2 else 0) + classSum l c := by
  by_cases h : e.1 = c <;> simp [classSum, h]

/-- No action of a class of the context traps: bit 62 of every `%nev` is clear (R63, R65). -/
def Ctx.quiet (x : Ctx) : Prop := ∀ c, bit (x.nev.getD c 0) 62 = false

/-- The new `%nev` after n events: COUNT saturates, the other fields stay. -/
theorem nev_counted (r : Word) {n : Nat} (hn : n < 2 ^ 32) :
    (((r &&& ~~~(0xFFFFFFFF : Word)) ||| BitVec.ofNat 64 n).extractLsb' 0 32).toNat = n ∧
    bit ((r &&& ~~~(0xFFFFFFFF : Word)) ||| BitVec.ofNat 64 n) 62 = bit r 62 := by
  constructor
  · rw [BitVec.extractLsb'_or, (clearLow32_fields r).1, BitVec.toNat_or, toNat_field, toNat_ofNat_of_lt (by omega)]
    simp only [BitVec.ofNat_eq_ofNat, BitVec.toNat_ofNat, Nat.zero_mod, Nat.zero_or, Nat.pow_zero, Nat.div_one]
    exact Nat.mod_eq_of_lt hn
  · have h62 : n.testBit 62 = false := Nat.testBit_lt_two_pow (by omega)
    rw [bit, BitVec.getLsbD_or, BitVec.getLsbD_and, BitVec.getLsbD_ofNat, h62]
    simp

theorem actn_even {r : Word} (h : bit r 62 = false) : (r.extractLsb' 62 2).toNat % 2 ≠ 1 := by
  rw [bit, BitVec.getLsbD, Nat.testBit_eq_decide_div_mod_eq, decide_eq_false_iff_not] at h
  rw [toNat_field]
  omega

/-- What counting n events of a class writes to the context. -/
theorem countClass_ctx (d : Dev) (k c : Nat) {n : Nat} (hn : n ≠ 0) : ∃ f, (countClass d k c n).1.ctx k = { d.ctx k with
    nev := (d.ctx k).nev.set c (((d.ctx k).nev.getD c 0 &&& ~~~(0xFFFFFFFF : Word)) |||
      BitVec.ofNat 64 (satAdd (2 ^ 32 - 1) (((d.ctx k).nev.getD c 0).extractLsb' 0 32).toNat n)) 0
    nevflag := setBit (d.ctx k).nevflag c true
    fired := f } := by
  rw [countClass, if_neg hn]
  dsimp only
  split
  · exact ⟨_, Dev.ctx_setCtx d k _⟩
  · exact ⟨_, Dev.ctx_setCtx d k _⟩

/-- A device after n(c) events of each class of a context have been counted: COUNT and the flags are those of R63 and R64, and
what a lane word's effects do not concern stands. -/
structure CountsTo (d d' : Dev) (k : Nat) (n : Nat → Nat) : Prop where
  mem : d'.mem = d.mem
  teams : d'.teams = d.teams
  asking : d'.pkg.asking = d.pkg.asking
  warn : (d'.ctx k).warn = (d.ctx k).warn
  wcode : (d'.ctx k).wcode = (d.ctx k).wcode
  action : ∀ c, bit ((d'.ctx k).nev.getD c 0) 62 = bit ((d.ctx k).nev.getD c 0) 62
  count : ∀ c, (((d'.ctx k).nev.getD c 0).extractLsb' 0 32).toNat =
    min (2 ^ 32 - 1) ((((d.ctx k).nev.getD c 0).extractLsb' 0 32).toNat + n c)
  flag : ∀ c, c < 7 → bit (d'.ctx k).nevflag c = (bit (d.ctx k).nevflag c || decide (n c ≠ 0))

theorem CountsTo.refl (d : Dev) (k : Nat) : CountsTo d d k fun _ => 0 where
  mem := rfl
  teams := rfl
  asking := rfl
  warn := rfl
  wcode := rfl
  action := fun _ => rfl
  count := fun c => by
    have := (((d.ctx k).nev.getD c 0).extractLsb' 0 32).isLt
    omega
  flag := fun c _ => by simp

theorem CountsTo.trans {d d' d'' : Dev} {k : Nat} {n n' : Nat → Nat} (h : CountsTo d d' k n) (h' : CountsTo d' d'' k n') :
    CountsTo d d'' k fun c => n c + n' c where
  mem := h'.mem.trans h.mem
  teams := h'.teams.trans h.teams
  asking := h'.asking.trans h.asking
  warn := h'.warn.trans h.warn
  wcode := h'.wcode.trans h.wcode
  action := fun c => (h'.action c).trans (h.action c)
  count := fun c => by
    rw [h'.count, h.count]
    omega
  flag := fun c hc => by
    rw [h'.flag c hc, h.flag c hc, Bool.or_assoc, ← Bool.decide_or]
    congr 2
    simp only [eq_iff_iff]
    omega

theorem CountsTo.quiet {d d' : Dev} {k : Nat} {n : Nat → Nat} (h : CountsTo d d' k n) (hq : (d.ctx k).quiet) : (d'.ctx k).quiet :=
  fun c => (h.action c).trans (hq c)

theorem countClass_countsTo (d : Dev) (k c n : Nat) : CountsTo d (countClass d k c n).1 k fun b => if c = b then n else 0 := by
  by_cases hn : n = 0
  · subst hn
    simpa [countClass] using CountsTo.refl d k
  obtain ⟨f, hf⟩ := countClass_ctx d k c hn
  have hlt : satAdd (2 ^ 32 - 1) (((d.ctx k).nev.getD c 0).extractLsb' 0 32).toNat n < 2 ^ 32 :=
    (Nat.min_le_left ..).trans_lt (by decide)
  have hdev : (countClass d k c n).1.mem = d.mem ∧ (countClass d k c n).1.teams = d.teams ∧
      (countClass d k c n).1.pkg.asking = d.pkg.asking := by
    rw [countClass, if_neg hn]
    dsimp only
    split <;> exact ⟨rfl, rfl, rfl⟩
  obtain ⟨hcount, haction⟩ := nev_counted ((d.ctx k).nev.getD c 0) hlt
  refine ⟨hdev.1, hdev.2.1, hdev.2.2, by rw [hf], by rw [hf], fun b => ?_, fun b => ?_, fun b hb => ?_⟩
  · rw [hf]
    by_cases hb : c = b
    · subst hb
      rw [Tab.getD_set_self, haction]
    · rw [Tab.getD_set_ne _ _ _ _ hb]
  · rw [hf]
    by_cases hb : c = b
    · subst hb
      rw [Tab.getD_set_self, hcount, if_pos rfl, satAdd]
    · rw [Tab.getD_set_ne _ _ _ _ hb, if_neg hb]
      exact (CountsTo.refl d k).count b
  · rw [hf, bit_setBit _ _ hb]
    by_cases hc : c = b <;> simp [hc, hn]

theorem countClass_noTrap {d : Dev} {k : Nat} (c n : Nat) (hq : (d.ctx k).quiet) : (countClass d k c n).2 = false := by
  unfold countClass
  split
  · rfl
  · exact (congrArg (_ && ·) (decide_eq_false (actn_even (hq c)))).trans (Bool.and_false _)

/-- One class after the other (R66): the counts add up, and nothing traps where no action does. -/
theorem countEvents_quiet {d : Dev} {k : Nat} (l : List (Nat × Nat)) (hq : (d.ctx k).quiet) :
    (countEvents d k l).2 = none ∧ CountsTo d (countEvents d k l).1 k (classSum l) := by
  unfold countEvents
  induction l generalizing d with
  | nil => exact ⟨rfl, CountsTo.refl d k⟩
  | cons e l ih =>
    have hd := countClass_countsTo d k e.1 e.2
    obtain ⟨hnone, hl⟩ := ih (hd.quiet hq)
    rw [List.foldl_cons]
    simp only [countClass_noTrap e.1 e.2 hq, Bool.false_eq_true, ↓reduceIte]
    refine ⟨hnone, ?_⟩
    have hsum : classSum (e :: l) = fun c => (if e.1 = c then e.2 else 0) + classSum l c := funext (classSum_cons e l)
    rw [hsum]
    exact hd.trans hl

/-! ### Events of the lanes of a word (R62) -/

/-- Each class stands once. -/
theorem classSum_map {L : List Nat} (hL : L.Nodup) (f : Nat → Nat) (c : Nat) :
    classSum (L.map fun b => (b, f b)) c = if c ∈ L then f c else 0 := by
  induction L with
  | nil => rfl
  | cons b L ih =>
    obtain ⟨hb, hL⟩ := List.nodup_cons.1 hL
    rw [List.map_cons, classSum_cons, ih hL]
    by_cases hc : b = c
    · subst hc
      simp [hb]
    · simp [hc, Ne.symm hc]

/-- A class without lanes counts nothing, so its entry may be left out. -/
theorem classSum_filter (l : List (Nat × Word)) (c : Nat) :
    classSum (laneCounts (l.filter fun e => decide (e.2 ≠ 0))) c = classSum (laneCounts l) c := by
  induction l with
  | nil => rfl
  | cons e l ih =>
    rw [List.filter_cons]
    by_cases he : e.2 = 0
    · rw [if_neg (by simpa using he), ih]
      show _ = classSum ((e.1, popCount e.2) :: laneCounts l) c
      rw [classSum_cons, he, show popCount 0 = 0 from rfl, ite_self, Nat.zero_add]
    · rw [if_pos (by simpa using he)]
      show classSum ((e.1, popCount e.2) :: laneCounts _) c = classSum ((e.1, popCount e.2) :: laneCounts l) c
      rw [classSum_cons, classSum_cons, ih]

theorem popCount_congr {m : Word} {p : Nat → Bool} (h : ∀ l, l < 64 → bit m l = p l) : popCount m = countBelow 64 p := by
  rw [popCount, lanesOf, countBelow]
  congr 1
  exact List.filter_congr fun l hl => h l (List.mem_range.1 hl)

/-- Each event class counts the running lanes that raised it. -/
theorem classSum_evLanes (run : Word) (ev : Nat → Ev) {c : Nat} (hc : c < 7) :
    classSum (laneCounts (evLanes ((lanesOf run).map fun l => (l, ev l)))) c = lanesWith run fun l => bit (ev l) c := by
  rw [evLanes, classSum_filter, laneCounts, List.map_map]
  refine (classSum_map List.nodup_range _ c).trans ?_
  rw [if_pos (List.mem_range.2 hc)]
  exact popCount_congr fun l hl => bit_laneMask run ev (bit · c) hl

theorem laneEff_lanes (dst ty : Nat) (ws : Bool) (run : Word) (out : Nat → LaneOut) :
    (laneEff dst ws ty ((lanesOf run).map fun l => (l, out l))).lanes = evLanes ((lanesOf run).map fun l => (l, (out l).ev)) :=
  congrArg evLanes (List.map_map ..)

/-! ### Fallbacks (R31) -/

theorem warn_mem (d : Dev) (k : Nat) (codes : List Nat) : (warn d k codes).mem = d.mem := by
  unfold warn; split <;> rfl
theorem warn_teams (d : Dev) (k : Nat) (codes : List Nat) : (warn d k codes).teams = d.teams := by
  unfold warn; split <;> rfl
theorem warn_asking (d : Dev) (k : Nat) (codes : List Nat) : (warn d k codes).pkg.asking = d.pkg.asking := by
  unfold warn; split <;> rfl
theorem warn_nev (d : Dev) (k : Nat) (codes : List Nat) : ((warn d k codes).ctx k).nev = (d.ctx k).nev := by
  unfold warn
  split
  · rfl
  · rw [Dev.ctx_setCtx]
theorem warn_nevflag (d : Dev) (k : Nat) (codes : List Nat) : ((warn d k codes).ctx k).nevflag = (d.ctx k).nevflag := by
  unfold warn
  split
  · rfl
  · rw [Dev.ctx_setCtx]

theorem warned_of {s t : State} {codes : List Nat}
    (h1 : (t.dev.ctx s.grp.ctx).warn = ((warn s.dev s.grp.ctx codes).ctx s.grp.ctx).warn)
    (h2 : (t.dev.ctx s.grp.ctx).wcode = ((warn s.dev s.grp.ctx codes).ctx s.grp.ctx).wcode) : warned s t codes := by
  cases hm : codes.min? with
  | none =>
    have hnil : codes = [] := List.min?_eq_none_iff.1 hm
    simp only [warn, hm] at h1 h2
    exact ⟨fun _ => ⟨h1, h2⟩, fun h => absurd hnil h⟩
  | some c =>
    obtain ⟨hc, hle⟩ := List.min?_eq_some_iff.1 hm
    simp only [warn, hm, Dev.ctx_setCtx] at h1 h2
    refine ⟨fun h => absurd hc (by simp [h]), fun _ => ⟨h1, fun hw => ?_, fun hw => ⟨c, hc, hle, ?_⟩⟩⟩
    · rw [h2, if_pos hw]
    · rw [h2, if_neg (by simp [hw])]

end Sys2Proof.Machine
end

section
/-! ## Lane words: how one runs alone or in a chain, and the rules of the arithmetic words -/

namespace Sys2Proof.Machine

/-! ### The rules of the lane words (R108-R125) -/

/-- The effects of a rule's word: each running lane writes its result. -/
def LaneRule.eff (r : LaneRule) (g : Group) (v : View) (run : Word) : LaneEff :=
  laneEff r.w.dst.toNat r.w.ws r.dty ((lanesOf run).map fun l => (l, r.out g v l))

/-- A rule's word as a step. -/
def LaneRule.word (r : LaneRule) (s : State) : Host.Outcome State Fault Refusal :=
  laneCompute r.op10 r.w (fun _ v run m => r.eff m.g v run) s

theorem arithWord_eq (op10 : Nat) (w : Wide) (f : Word → Word → Word → LaneOut) (s : State) :
    arithWord op10 w f s = (arithRule op10 w f).word s := rfl

/-- A lane whose source is absent reads zero. -/
theorem execVShfl_eq (w : Wide) (s : State) {r : LaneRule} (h : laneRule (.vShfl w) = some r) : execVShfl w s = r.word s := by
  cases h
  rw [execVShfl, LaneRule.word]
  congr
  funext i v run m
  refine congrArg (laneEff _ _ _) (List.map_congr_left fun l _ => ?_)
  dsimp only
  split <;> rfl

theorem exec_laneRule {i : Instr} {r : LaneRule} (h : laneRule i = some r) (s : State) : exec i s = r.word s := by
  unfold laneRule at h
  split at h
  case h_33 | h_34 | h_35 | h_37 | h_38 | h_39 | h_40 | h_41 | h_42 =>
    cases h
    exact arithWord_eq _ _ _ s
  case h_43 | h_44 | h_45 | h_46 | h_47 | h_48 | h_49 | h_50 | h_51 | h_52 =>
    cases h
    exact arithWord_eq _ _ _ s
  case h_53 => exact execVShfl_eq _ s h
  case h_55 => cases h
  all_goals
    cases h
    rfl

/-- What the opcode map says of an OP10. -/
def infoOf (op10 : Nat) (w : Wide) : LaneInfo := (laneInfo op10 w).getD {}

/-- A narrow operation of a type that R23 does not list reads and writes nothing. -/
theorem infoOf_narrow {op10 : Nat} (w : Wide) (h : op10 < 0x080) : (infoOf op10 w).dest = .vreg ∨ infoOf op10 w = {} := by
  unfold infoOf laneInfo
  rw [if_pos h]
  split
  · exact .inr rfl
  · split
    · split
      · exact .inl rfl
      · exact .inr rfl
    · exact .inr rfl

theorem srcTys_narrow {op10 : Nat} (w : Wide) (h : op10 < 0x080) : (srcTys op10 w).1 = dstTy op10 w := by
  unfold srcTys dstTy
  rw [if_pos h, if_pos h]

theorem NTy.code_lt (t : NTy) : t.code < 8 := by cases t <;> decide

/-- A rule's word writes a lane register of the type of its result. -/
theorem laneRule_info {i : Instr} {r : LaneRule} (h : laneRule i = some r) :
    ((infoOf r.op10 r.w).dest = .vreg ∨ infoOf r.op10 r.w = {}) ∧ r.dty = dstTy r.op10 r.w ∧ r.op10 ≠ 0x341 ∧ r.op10 ≠ 0x343 := by
  unfold laneRule at h
  split at h
  case h_55 => cases h
  case h_1 | h_2 | h_3 | h_4 | h_5 | h_6 | h_7 | h_8 | h_9 | h_10 | h_11 | h_13 | h_14 | h_15 | h_16 =>
    rename_i t w
    have ht := t.code_lt
    cases h
    refine ⟨infoOf_narrow w ?_, rfl, ?_, ?_⟩
    all_goals
      dsimp only [pairableRule, arithRule]
      omega
  case h_12 =>
    rename_i t w
    have ht := t.code_lt
    have hop : 0x58 + t.code < 0x080 := by omega
    cases h
    refine ⟨infoOf_narrow w hop, srcTys_narrow w hop, ?_, ?_⟩
    all_goals
      dsimp only [moveRule]
      omega
  all_goals
    cases h
    dsimp only [pairableRule, arithRule, moveRule, cordicRule]
    exact ⟨.inl rfl, rfl, by decide, by decide⟩

theorem wideWrites_vreg {op10 : Nat} (w : Wide) {i : LaneInfo} (h1 : op10 ≠ 0x341) (h2 : op10 ≠ 0x343) (hd : i.dest = .vreg) :
    wideWrites op10 w i = if w.ws then [] else typedRegs (dstTy op10 w) w.dst.toNat := by
  simp [wideWrites, h1, h2, hd, typedRegs]

/-- A rule's word frees no register that it writes (R76). -/
theorem laneRule_frees {i : Instr} {r : LaneRule} (h : laneRule i = some r) (s : State) :
    ∀ k ∈ (formOf s r.op10 r.w).frees, k ∉ r.writes := by
  obtain ⟨hi, hty, h1, h2⟩ := laneRule_info h
  intro k hk
  have hk : k ∈ (wideLast r.op10 r.w (infoOf r.op10 r.w) s.grp.view).filter
    fun x => !(wideWrites r.op10 r.w (infoOf r.op10 r.w)).contains x := hk
  rcases hi with hi | hi
  · rw [wideWrites_vreg r.w h1 h2 hi, ← hty] at hk
    have := (List.mem_filter.1 hk).2
    simp only [Bool.not_eq_true', List.contains_eq_mem, decide_eq_false_iff_not] at this
    exact this
  · rw [hi] at hk
    simp [wideLast] at hk

/-- A rule's result does not depend on the division masks or the error marks of the latches. -/
theorem laneRule_out_marks {i : Instr} {r : LaneRule} (h : laneRule i = some r) (g : Group) (v : View) (l : Nat) (dz dov : Word)
    (b : Tab Bool) : r.out { g with dzmask := dz, domask := dov, badLatch := b } v l = r.out g v l := by
  unfold laneRule at h
  split at h
  case h_55 => cases h
  all_goals
    cases h
    rfl

/-! ### On to the next lane word -/

theorem lastOfBlock_false {g : Group} (h : lastOfBlock g = false) :
    ∃ b bs, g.queue = b :: bs ∧ g.lpos + 1 < b.start + b.count := by
  unfold lastOfBlock at h
  split at h
  · next b bs hq => exact ⟨b, bs, hq, by simpa using h⟩
  · cases h

theorem nextLane_inside {g : Group} (h : lastOfBlock g = false) : g.nextLane = { g with lpos := g.lpos + 1 } := by
  obtain ⟨b, bs, hq, hp⟩ := lastOfBlock_false h
  exact Group.settle_inside (b := b) (bs := bs) hq hp

theorem nextLane_over {g : Group} {b : Block} {bs : List Block} (hq : g.queue = b :: bs) (h : lastOfBlock g = true) :
    g.nextLane = { g with
      queue := bs, lpos := (bs.head?.map fun b => b.start).getD 0
      heldWords := g.heldWords.map fun h => { h with blocks := h.blocks - 1 } } := by
  simp only [lastOfBlock, hq, decide_eq_true_eq] at h
  exact Group.settle_over (b := b) (bs := bs) hq h

theorem nextLane_idle {g : Group} (hq : g.queue = []) : g.nextLane = { g with lpos := g.lpos + 1 } := by
  simp [Group.nextLane, Group.settle, hq]

/-- Nothing but the place of the lane stream and what waits behind it changes. -/
theorem nextLane_place (g : Group) : ∃ q p h, g.nextLane = { g with queue := q, lpos := p, heldWords := h } := by
  cases hq : g.queue with
  | nil => exact ⟨[], _, g.heldWords, (nextLane_idle hq).trans (by rw [← hq])⟩
  | cons b bs =>
    cases hl : lastOfBlock g
    · exact ⟨b :: bs, _, g.heldWords, (nextLane_inside hl).trans (by rw [← hq])⟩
    · exact ⟨_, _, _, nextLane_over hq hl⟩

theorem laneNext_nextLane (g : Group) : laneNext g g.nextLane := by
  cases hq : g.queue with
  | nil =>
    have hl : lastOfBlock g = true := by simp [lastOfBlock, hq]
    rw [nextLane_idle hq]
    refine ⟨by simp [hq], fun h => by simp [hl] at h, fun b c bs h => by simp [hq] at h, by simp [hq]⟩
  | cons b bs =>
    cases hl : lastOfBlock g
    · rw [nextLane_inside hl]
      exact ⟨by simp [hl], fun _ => rfl, fun _ _ _ _ h => by simp [hl] at h, by simp [hl]⟩
    · rw [nextLane_over hq hl]
      refine ⟨by simp [hl, hq], fun h => by simp [hl] at h, fun b' c' bs' h _ => ?_, by simp [hl, hq]⟩
      obtain ⟨rfl, rfl⟩ := List.cons.inj (hq.symm.trans h)
      rfl

/-! ### The end of a word's turn -/

/-- The chain after a word in it: its latch, and its effects added to those held (R87). -/
def LaneForm.held (f : LaneForm) (e : LaneEff) (c : Chain) : Chain :=
  let c := if f.le then c.latch f.lt e.lat else c
  { c with
    words := c.words + 1, held := f.frees.foldl LaneFile.unmap (e.file c.held), dz := c.dz ||| e.dz, dov := c.dov ||| e.dov
    counts := addCounts c.counts e.counts, lanes := addLanes c.lanes e.lanes }

theorem latch_place (c : Chain) (lt : Nat) (l : List (Nat × Word × Bool)) :
    ∃ a b, c.latch lt l = { c with lat := a, latPsn := b } := by
  unfold Chain.latch
  induction l generalizing c with
  | nil => exact ⟨_, _, rfl⟩
  | cons x l ih =>
    obtain ⟨a, b, h⟩ := ih { c with
      lat := c.lat.set (64 * lt + x.1) x.2.1 0, latPsn := c.latPsn.set (64 * lt + x.1) x.2.2 false }
    exact ⟨a, b, by rw [List.foldl_cons, h]⟩

/-- What a word adds to a chain, field by field. -/
theorem LaneForm.held_fields (f : LaneForm) (e : LaneEff) (c : Chain) :
    (f.held e c).first = c.first ∧ (f.held e c).words = c.words + 1 ∧
    (f.held e c).held = f.frees.foldl LaneFile.unmap (e.file c.held) ∧ (f.held e c).dz = c.dz ||| e.dz ∧
    (f.held e c).dov = c.dov ||| e.dov := by
  obtain ⟨a, b, h⟩ := latch_place c f.lt e.lat
  cases hf : f.le <;> simp [LaneForm.held, hf, h]

/-- The group and the device with the word's effects in its chain. -/
def LaneForm.inChain (f : LaneForm) (e : LaneEff) (m : Mach) (c : Chain) : Mach :=
  { m with g := { m.g with
    chain := some (f.held e c), badLatch := if f.le then f.freshLatch e m.g.badLatch else m.g.badLatch } }

/-- The end of the turn of a word that closes its chain. -/
def closeTurn (m : Mach) : Mach :=
  match closeChain m with
  | (m, some (cls, mask)) => numTrap m m.g.lpos cls mask
  | (m, none) => { m with g := m.g.nextLane }

/-- Every held effect of a chain takes place (R87); nothing traps where no action does. -/
theorem closeChain_quiet {m : Mach} {c : Chain} (hc : m.g.chain = some c) (hq : (m.d.ctx m.g.ctx).quiet) : closeChain m =
    (⟨{ m.g with lanes := c.held, dzmask := m.g.dzmask ||| c.dz, domask := m.g.domask ||| c.dov, chain := none },
      (countEvents m.d m.g.ctx c.counts).1⟩, none) := by
  have ht := (countEvents_quiet c.counts hq).1
  simp only [closeChain, hc, ht, Option.map_none]

theorem closeTurn_quiet {m : Mach} {c : Chain} (hc : m.g.chain = some c) (hq : (m.d.ctx m.g.ctx).quiet) : closeTurn m =
    ⟨Group.nextLane { m.g with
      lanes := c.held, dzmask := m.g.dzmask ||| c.dz, domask := m.g.domask ||| c.dov, chain := none },
      (countEvents m.d m.g.ctx c.counts).1⟩ := by
  simp only [closeTurn, closeChain_quiet hc hq]

section
variable {m : Mach} (f : LaneForm) (e : LaneEff)

/-- Outside a chain the effects take place at once. -/
theorem finishLane_alone (hc : m.g.chain = none) (hq : (m.d.ctx m.g.ctx).quiet) :
    finishLane f m e = ⟨Group.nextLane { m.g with
      lanes := f.frees.foldl LaneFile.unmap (e.file m.g.lanes), dzmask := m.g.dzmask ||| e.dz, domask := m.g.domask ||| e.dov },
      (countEvents m.d m.g.ctx e.counts).1⟩ := by
  have ht := (countEvents_quiet e.counts hq).1
  simp only [finishLane, hc, ht]

/-- In a chain, the word either closes it or leaves it open (R87, R30). -/
theorem finishLane_chain {c : Chain} (hc : m.g.chain = some c) : finishLane f m e =
    if f.ce || !(closeCodes m.g f.ce (c.words + 1)).isEmpty then closeTurn (f.inChain e m c)
    else { m with g := (f.inChain e m c).g.nextLane } := by
  rw [← (f.held_fields e c).2.1]
  simp only [finishLane, hc]
  rfl

/-- A middle word of a chain leaves it open. -/
theorem finishLane_middle {c : Chain} (hc : m.g.chain = some c) (hce : f.ce = false)
    (hn : closeCodes m.g f.ce (c.words + 1) = []) : finishLane f m e = { m with g := (f.inChain e m c).g.nextLane } := by
  rw [finishLane_chain f e hc, hn, hce]
  rfl

/-- The word that closes a chain: every held effect takes place, with its own (R87). -/
theorem finishLane_close {c : Chain} (hc : m.g.chain = some c) (hq : (m.d.ctx m.g.ctx).quiet)
    (hn : f.ce = true ∨ closeCodes m.g f.ce (c.words + 1) ≠ []) : finishLane f m e =
      ⟨Group.nextLane { (f.inChain e m c).g with
        lanes := (f.held e c).held, dzmask := m.g.dzmask ||| (f.held e c).dz, domask := m.g.domask ||| (f.held e c).dov
        chain := none }, (countEvents m.d m.g.ctx (f.held e c).counts).1⟩ := by
  have hcond : (f.ce || !(closeCodes m.g f.ce (c.words + 1)).isEmpty) = true := by
    rw [Bool.or_eq_true, Bool.not_eq_true', List.isEmpty_eq_false_iff]
    exact hn
  rw [finishLane_chain f e hc, if_pos hcond]
  exact closeTurn_quiet (m := f.inChain e m c) rfl hq

end

@[simp] theorem nextLane_lanes (g : Group) : g.nextLane.lanes = g.lanes := by
  obtain ⟨q, p, h, e⟩ := nextLane_place g
  rw [e]
@[simp] theorem nextLane_dzmask (g : Group) : g.nextLane.dzmask = g.dzmask := by
  obtain ⟨q, p, h, e⟩ := nextLane_place g
  rw [e]
@[simp] theorem nextLane_domask (g : Group) : g.nextLane.domask = g.domask := by
  obtain ⟨q, p, h, e⟩ := nextLane_place g
  rw [e]
@[simp] theorem nextLane_chain (g : Group) : g.nextLane.chain = g.chain := by
  obtain ⟨q, p, h, e⟩ := nextLane_place g
  rw [e]
@[simp] theorem nextLane_s (g : Group) : g.nextLane.s = g.s := by
  obtain ⟨q, p, h, e⟩ := nextLane_place g
  rw [e]
@[simp] theorem nextLane_m (g : Group) : g.nextLane.m = g.m := by
  obtain ⟨q, p, h, e⟩ := nextLane_place g
  rw [e]

/-- After a change of its lane registers and division masks alone, a group has moved on and is otherwise as before. -/
theorem lanesOnly_nextLane (g : Group) (f : LaneFile) (dz dov : Word) :
    lanesOnly g (Group.nextLane { g with lanes := f, dzmask := dz, domask := dov }) := by
  obtain ⟨q, p, h, e⟩ := nextLane_place { g with lanes := f, dzmask := dz, domask := dov }
  rw [e]
  rfl

/-! ### The word itself -/

section
variable {f : LaneForm} {m : Mach} (eff : Word → Mach → LaneEff) (pre : List Nat) (hr : ∀ r ∈ f.regs, r < m.g.vregs)
include hr

theorem regs_inRange : (f.regs.any fun r => decide (m.g.vregs ≤ r)) = false := by
  simpa using hr

theorem runLane_alone (hc : m.g.chain = none) (hl : (f.eligible && f.le) = false) :
    runLane f (fun run m => .done m (eff run m)) pre m =
      some (finishLane f { m with d := warn m.d m.g.ctx (pre ++ f.warns false) } (eff f.run m)) := by
  simp [runLane, hl, hc, regs_inRange hr]

/-- A word with LE opens a chain (R87). -/
theorem runLane_opens (hc : m.g.chain = none) (hl : (f.eligible && f.le) = true) :
    runLane f (fun run m => .done m (eff run m)) pre m =
      some (finishLane f ⟨{ m.g with chain := some (freshChain m.g), badLatch := [] },
          warn m.d m.g.ctx (pre ++ f.warns true ++ closeCodes m.g f.ce 1)⟩
        (eff f.run { m with g := { m.g with chain := some (freshChain m.g), badLatch := [] } })) := by
  simp [runLane, hl, hc, regs_inRange hr, freshChain]
  rfl

theorem runLane_inside {c : Chain} (hc : m.g.chain = some c) :
    runLane f (fun run m => .done m (eff run m)) pre m =
      some (finishLane f { m with d := warn m.d m.g.ctx (pre ++ f.warns true ++ closeCodes m.g f.ce (c.words + 1)) }
        (eff f.run m)) := by
  simp [runLane, hc, regs_inRange hr]

end

/-- A lane word that may issue and whose step changes no line that the host has been asked for is that step. -/
theorem laneCompute_next {op10 : Nat} {w : Wide} {body : LaneInfo → View → Word → Mach → LaneEff} {s : State} {m : Mach}
    (hr : laneReady s (formOf s op10 w)) (h : laneStep (formOf s op10 w)
      (fun run m => .done m (body (infoOf op10 w) s.grp.view run m)) s.mach = some m) (ha : m.d.pkg.asking = s.dev.pkg.asking) :
    laneCompute op10 w body s = .next (s.put m) := by
  rw [laneCompute, laneWord]
  refine actOrWait_ok ?_ ha
  refine (if_neg ?_).trans h
  rw [Bool.or_eq_true, not_or, Bool.not_eq_true, Bool.not_eq_true]
  exact ⟨hr.1, hr.2.1⟩

/-! ### A word alone (O21) -/

/-- Events counted after the fallbacks have been recorded are those of the state before. -/
theorem counted_of_countsTo {s t : State} {codes : List Nat} {N n : Nat → Nat}
    (h : CountsTo (warn s.dev s.grp.ctx codes) t.dev s.grp.ctx N) (hn : ∀ c, c < 7 → N c = n c) : counted s t n := by
  intro c hc
  rw [← hn c hc, h.count c, h.flag c hc, warn_nev, warn_nevflag]
  exact ⟨rfl, rfl⟩

theorem warned_of_countsTo {s t : State} {codes : List Nat} {N : Nat → Nat}
    (h : CountsTo (warn s.dev s.grp.ctx codes) t.dev s.grp.ctx N) : warned s t codes := warned_of h.warn h.wcode

theorem quiet_warn {d : Dev} {k : Nat} (codes : List Nat) (hq : (d.ctx k).quiet) : ((warn d k codes).ctx k).quiet := by
  rw [Ctx.quiet, warn_nev]
  exact hq

/-- The division masks and the counts of a rule's word, lane by lane. -/
theorem LaneRule.eff_masks (r : LaneRule) (g : Group) (v : View) (run : Word) {l : Nat} (hl : l < 64) :
    bit (r.eff g v run).dz l = (bit run l && (r.out g v l).dz) ∧ bit (r.eff g v run).dov l = (bit run l && (r.out g v l).dov) :=
  ⟨bit_laneMask run (r.out g v) (·.dz) hl, bit_laneMask run (r.out g v) (·.dov) hl⟩

theorem LaneRule.eff_counts (r : LaneRule) (g : Group) (v : View) (run : Word) {c : Nat} (hc : c < 7) :
    classSum (r.eff g v run).counts c = lanesWith run fun l => bit (r.out g v l).ev c := by
  show classSum (laneCounts (r.eff g v run).lanes) c = _
  rw [LaneRule.eff, laneEff_lanes]
  exact classSum_evLanes run (fun l => (r.out g v l).ev) hc

theorem LaneRule.lanesAfter_eff {i : Instr} {r : LaneRule} (h : laneRule i = some r) (s : State) (g : Group) (v : View)
    (run : Word) (old : LaneFile) :
    lanesAfter old ((formOf s r.op10 r.w).frees.foldl LaneFile.unmap ((r.eff g v run).file old)) run r.writes
      (formOf s r.op10 r.w).frees (fun k l => r.half k (r.out g v l)) :=
  lanesAfter_laneEff old r.w.dst.toNat r.dty r.w.ws run (r.out g v) _ (laneRule_frees h s)

/-- A word of the chains goes on without a cut, and so does every word outside one. -/
theorem laneStep_noCut {f : LaneForm} {m : Mach} (body : Word → Mach → LaneRes) (h : m.g.chain = none ∨ f.eligible = true) :
    laneStep f body m = runLane f body [] m := by
  rcases h with h | h <;> simp [laneStep, h]

/-- The state after a word that ran alone. -/
def LaneRule.alone (r : LaneRule) (s : State) : State :=
  let f := formOf s r.op10 r.w
  let e := r.eff s.grp s.grp.view f.run
  s.put ⟨Group.nextLane { s.grp with
      lanes := f.frees.foldl LaneFile.unmap (e.file s.grp.lanes)
      dzmask := s.grp.dzmask ||| e.dz, domask := s.grp.domask ||| e.dov },
    (countEvents (warn s.dev s.grp.ctx (f.warns false)) s.grp.ctx e.counts).1⟩

theorem LaneRule.alone_countsTo (r : LaneRule) {s : State} (hq : noEventTrap s) :
    CountsTo (warn s.dev s.grp.ctx ((formOf s r.op10 r.w).warns false)) (r.alone s).dev s.grp.ctx
      (classSum (r.eff s.grp s.grp.view (formOf s r.op10 r.w).run).counts) :=
  (countEvents_quiet _ (quiet_warn _ hq)).2

section
variable {i : Instr} {s : State} {r : LaneRule} (h : laneRule i = some r) (hr : laneReady s (formOf s r.op10 r.w))
include h hr

theorem exec_alone (hc : s.grp.chain = none) (hle : r.w.le = false ∨ 0x180 ≤ r.op10) : exec i s = .next (r.alone s) := by
  have hlone : ((formOf s r.op10 r.w).eligible && (formOf s r.op10 r.w).le) = false := by
    show (chainEligible r.op10 && (r.w.le && chainEligible r.op10)) = false
    rcases hle with hle | hle
    · simp [hle]
    · simp [chainEligible, Nat.not_lt.2 hle]
  refine (exec_laneRule h s).trans (laneCompute_next hr ?_ ?_)
  · rw [laneStep_noCut _ (.inl hc), runLane_alone (fun run m => r.eff m.g s.grp.view run) [] hr.2.2.1 hc hlone]
    exact congrArg some (finishLane_alone (m := ⟨s.grp, warn s.dev s.grp.ctx _⟩) _ _ hc (quiet_warn _ hr.2.2.2))
  · exact (r.alone_countsTo hr.2.2.2).asking.trans (warn_asking ..)

end

theorem laneResults : Claims.LaneResults := by
  intro i s r h f g out hr hc hle
  have hcount := r.alone_countsTo hr.2.2.2
  refine ⟨_, exec_alone h hr hc hle, laneNext_nextLane _, lanesOnly_nextLane g _ _ _, ?_, fun l hl => ?_,
    counted_of_countsTo hcount fun c hc => r.eff_counts g g.view f.run hc, warned_of_countsTo hcount,
    hcount.mem.trans (warn_mem ..), hcount.teams.trans (warn_teams ..), rfl⟩
  · rw [LaneRule.alone, State.put_grp, nextLane_lanes]
    exact LaneRule.lanesAfter_eff h s g g.view f.run g.lanes
  · obtain ⟨hdz, hdov⟩ := r.eff_masks g g.view f.run hl
    rw [LaneRule.alone, State.put_grp, nextLane_dzmask, nextLane_domask]
    exact ⟨BitVec.getLsbD_or.trans (congrArg _ hdz), BitVec.getLsbD_or.trans (congrArg _ hdov)⟩

end Sys2Proof.Machine

namespace Sys2Proof

/-- Settles O21: a word outside a chain is one change of the lane file, the division masks, the counts and the fallbacks. -/
theorem laneResults : Obligations.LaneResults := ⟨Machine.laneResults, Machine.laneOperands⟩

end Sys2Proof
end

section
/-! ## Chains: how a word opens one, goes on in it, closes it and cuts it -/

namespace Sys2Proof.Machine

/-! ### Rules in a chain -/

theorem LaneRule.eff_marks {i : Instr} {r : LaneRule} (h : laneRule i = some r) (g : Group) (v : View) (run dz dov : Word)
    (b : Tab Bool) : r.eff { g with dzmask := dz, domask := dov, badLatch := b } v run = r.eff g v run :=
  congrArg (laneEff _ _ _) (List.map_congr_left fun l _ => congrArg (l, ·) (laneRule_out_marks h g v l dz dov b))

theorem closeCodes_nil {g : Group} (ce : Bool) {n : Nat} (hn : n < 8) (hl : lastOfBlock g = false) : closeCodes g ce n = [] := by
  simp [closeCodes, codeIf, hl, Nat.not_le.2 hn]

/-- Without CE the eighth word and the last of a block close the chain (R30). -/
theorem closeCodes_open (g : Group) (n : Nat) :
    closeCodes g false (n + 1) = (if 7 ≤ n then [8] else []) ++ (if lastOfBlock g then [9] else []) := by
  simp [closeCodes, codeIf, wCHAINLONG, wCHAINBLOCK]

/-- Each running lane writes its own value to the latch. -/
theorem lat_latch (L : List Nat) (v : Nat → Word) (p : Nat → Bool) (c : Chain) (lt l : Nat) :
    (c.latch lt (L.map fun l => (l, v l, p l))).lat.getD (64 * lt + l) 0 = if l ∈ L then v l else c.lat.getD (64 * lt + l) 0 := by
  unfold Chain.latch
  induction L generalizing c with
  | nil => simp
  | cons k L ih =>
    rw [List.map_cons, List.foldl_cons, ih, Tab.getD_set]
    by_cases h : k = l
    · subst h
      by_cases hk : k ∈ L <;> simp [hk]
    · simp [h, Ne.symm h]

/-- The value that a latch takes from a result: the bits of its type (R86). -/
theorem lat_held (f : LaneForm) (c : Chain) (dst ty : Nat) (ws : Bool) (run : Word) (out : Nat → LaneOut) (hf : f.le = true)
    {l : Nat} (hl : bit run l = true) :
    (f.held (laneEff dst ws ty ((lanesOf run).map fun l => (l, out l))) c).lat.getD (64 * f.lt + l) 0 =
      if tyWidth ty = 64 then (out l).val else (out l).val &&& 0xFFFFFFFF := by
  have hlat : (f.held (laneEff dst ws ty ((lanesOf run).map fun l => (l, out l))) c).lat =
      (c.latch f.lt ((lanesOf run).map fun l =>
        (l, (if tyWidth ty = 64 then (out l).val else ((out l).val.extractLsb' 0 32).zeroExtend 64), (out l).psn))).lat := by
    simp [LaneForm.held, hf, laneEff, Function.comp_def]
  rw [hlat, lat_latch, if_pos (mem_lanesOf.2 hl), zeroExtend_low]

theorem formOf_eligible {s : State} {op10 : Nat} (w : Wide) (h : op10 < 0x180) : (formOf s op10 w).eligible = true :=
  decide_eq_true h

theorem formOf_le {s : State} {op10 : Nat} (w : Wide) (h : op10 < 0x180) : (formOf s op10 w).le = w.le := by
  show (w.le && chainEligible op10) = w.le
  rw [chainEligible, decide_eq_true h, Bool.and_true]

/-- A group whose chain a word opens, as the word meets it. -/
def Group.opened (g : Group) : Group := { g with chain := some (freshChain g), badLatch := [] }

theorem LaneRule.eff_opened {i : Instr} {r : LaneRule} (h : laneRule i = some r) (g : Group) (v : View) (run : Word) :
    r.eff g.opened v run = r.eff { g with chain := some (freshChain g) } v run :=
  LaneRule.eff_marks h { g with chain := some (freshChain g) } v run g.dzmask g.domask []

/-- The group that a word of a chain meets, and the device with its fallbacks recorded. -/
def LaneRule.met (r : LaneRule) (s : State) (g : Group) (c : Chain) : Mach :=
  ⟨g, warn s.dev s.grp.ctx ((formOf s r.op10 r.w).warns true ++ closeCodes s.grp r.w.ce (c.words + 1))⟩

/-- What a chain holds after a word of a rule. -/
def LaneRule.holds (r : LaneRule) (s : State) (g : Group) (c : Chain) : Chain :=
  (formOf s r.op10 r.w).held (r.eff g s.grp.view (formOf s r.op10 r.w).run) c

/-- The same with the word's effects in its chain. -/
def LaneRule.chained (r : LaneRule) (s : State) (g : Group) (c : Chain) : Mach :=
  (formOf s r.op10 r.w).inChain (r.eff g s.grp.view (formOf s r.op10 r.w).run) (r.met s g c) c

/-- A word of a chain-eligible rule issues and meets a group in which a chain is open. -/
structure InChain (i : Instr) (s : State) (r : LaneRule) (g : Group) (c : Chain) : Prop where
  rule : laneRule i = some r
  ready : laneReady s (formOf s r.op10 r.w)
  chain : g.chain = some c
  place : g.queue = s.grp.queue ∧ g.lpos = s.grp.lpos ∧ g.ctx = s.grp.ctx
  step : laneStep (formOf s r.op10 r.w) (fun run m => .done m (r.eff m.g s.grp.view run)) s.mach =
    some (finishLane (formOf s r.op10 r.w) (r.met s g c) (r.eff g s.grp.view (formOf s r.op10 r.w).run))

section
variable {i : Instr} {s : State} {r : LaneRule} (h : laneRule i = some r) (hop : r.op10 < 0x180)
  (hr : laneReady s (formOf s r.op10 r.w))
include h hop hr

theorem inChain_open {c : Chain} (hc : s.grp.chain = some c) : InChain i s r s.grp c where
  rule := h
  ready := hr
  chain := hc
  place := ⟨rfl, rfl, rfl⟩
  step := by
    rw [laneStep_noCut _ (.inr (formOf_eligible r.w hop)), runLane_inside (fun run m => r.eff m.g s.grp.view run) [] hr.2.2.1 hc]
    rfl

theorem inChain_opened (hc : s.grp.chain = none) (hle : r.w.le = true) : InChain i s r s.grp.opened (freshChain s.grp) where
  rule := h
  ready := hr
  chain := rfl
  place := ⟨rfl, rfl, rfl⟩
  step := by
    have hl : ((formOf s r.op10 r.w).eligible && (formOf s r.op10 r.w).le) = true := by
      rw [formOf_eligible r.w hop, formOf_le r.w hop, hle, Bool.and_self]
    rw [laneStep_noCut _ (.inl hc), runLane_opens (fun run m => r.eff m.g s.grp.view run) [] hr.2.2.1 hc hl]
    rfl

end

section
variable {i : Instr} {s : State} {r : LaneRule} {g : Group} {c : Chain} (h : InChain i s r g c)
include h

theorem InChain.lastOfBlock_eq : lastOfBlock g = lastOfBlock s.grp := by
  obtain ⟨hq, hp, -⟩ := h.place
  rw [lastOfBlock, lastOfBlock, hq, hp]

theorem InChain.closeCodes_eq (ce : Bool) (n : Nat) : closeCodes g ce n = closeCodes s.grp ce n := by
  rw [closeCodes, closeCodes, h.lastOfBlock_eq]

end

/-- The group and the device after the word that closes its chain. -/
def LaneRule.closed (r : LaneRule) (s : State) (g : Group) (c : Chain) : Mach :=
  ⟨Group.nextLane { (r.chained s g c).g with
      lanes := (r.holds s g c).held, dzmask := g.dzmask ||| (r.holds s g c).dz, domask := g.domask ||| (r.holds s g c).dov
      chain := none },
    (countEvents (r.met s g c).d g.ctx (r.holds s g c).counts).1⟩

section
variable {i : Instr} {s : State} {r : LaneRule} {g : Group} {c : Chain} (h : InChain i s r g c)
include h

theorem InChain.quiet : ((r.met s g c).d.ctx g.ctx).quiet := by
  rw [h.place.2.2]
  exact quiet_warn _ h.ready.2.2.2

theorem InChain.closed_countsTo : CountsTo (r.met s g c).d (r.closed s g c).d s.grp.ctx (classSum (r.holds s g c).counts) := by
  simpa only [LaneRule.closed, h.place.2.2] using (countEvents_quiet (r.holds s g c).counts h.quiet).2

/-- A word without CE that is neither the eighth nor the last of its block leaves its chain open. -/
theorem InChain.exec_middle (hce : r.w.ce = false) (hw : c.words < 7) (hl : lastOfBlock s.grp = false) :
    ∃ b, exec i s = .next (s.put
      ⟨{ g with chain := some (r.holds s g c), badLatch := b, lpos := s.grp.lpos + 1 }, (r.met s g c).d⟩) := by
  refine ⟨(r.chained s g c).g.badLatch, (exec_laneRule h.rule s).trans (laneCompute_next h.ready ?_ (warn_asking ..))⟩
  rw [h.step]
  refine congrArg some ((finishLane_middle _ _ h.chain hce ?_).trans ?_)
  · exact (h.closeCodes_eq _ _).trans (closeCodes_nil _ (by omega) hl)
  · have hn : (r.chained s g c).g.nextLane = { (r.chained s g c).g with lpos := g.lpos + 1 } :=
      nextLane_inside (h.lastOfBlock_eq.trans hl)
    rw [h.place.2.1] at hn
    exact congrArg (Mach.mk · _) hn

/-- CE, the eighth word and the last word of a block close the chain (R87, R30). -/
theorem InChain.exec_close (hn : r.w.ce = true ∨ 7 ≤ c.words ∨ lastOfBlock s.grp = true) :
    exec i s = .next (s.put (r.closed s g c)) := by
  have hcond : r.w.ce = true ∨ closeCodes g r.w.ce (c.words + 1) ≠ [] := by
    cases hce : r.w.ce
    · right
      rw [h.closeCodes_eq, closeCodes_open]
      rcases hn with hn | hn | hn
      · simp [hce] at hn
      · simp [hn]
      · simp [hn]
    · exact .inl rfl
  refine (exec_laneRule h.rule s).trans (laneCompute_next h.ready ?_ (h.closed_countsTo.asking.trans (warn_asking ..)))
  rw [h.step]
  exact congrArg some (finishLane_close _ _ h.chain h.quiet hcond)

end

/-! ### The claims -/

theorem LaneRule.holds_lanes {i : Instr} {r : LaneRule} (h : laneRule i = some r) (s : State) (g : Group) (c : Chain) :
    lanesAfter c.held (r.holds s g c).held (formOf s r.op10 r.w).run r.writes (formOf s r.op10 r.w).frees
      (fun k l => r.half k (r.out g s.grp.view l)) := by
  rw [LaneRule.holds, ((formOf s r.op10 r.w).held_fields _ c).2.2.1]
  exact LaneRule.lanesAfter_eff h s g s.grp.view _ c.held

theorem LaneRule.holds_dz (r : LaneRule) (s : State) (g : Group) (c : Chain) {l : Nat} (hl : l < 64) :
    bit (r.holds s g c).dz l = (bit c.dz l || (bit (formOf s r.op10 r.w).run l && (r.out g s.grp.view l).dz)) := by
  rw [LaneRule.holds, ((formOf s r.op10 r.w).held_fields _ c).2.2.2.1]
  exact BitVec.getLsbD_or.trans (congrArg _ (r.eff_masks g s.grp.view _ hl).1)

theorem laneRule_out_opened {i : Instr} {r : LaneRule} (h : laneRule i = some r) (g : Group) (v : View) (l : Nat) :
    r.out g.opened v l = r.out { g with chain := some (freshChain g) } v l :=
  laneRule_out_marks h { g with chain := some (freshChain g) } v l g.dzmask g.domask []

theorem holds_opened {i : Instr} {s : State} {r : LaneRule} (h : laneRule i = some r) (hop : r.op10 < 0x180)
    (hle : r.w.le = true) :
    lanesAfter s.grp.lanes (r.holds s s.grp.opened (freshChain s.grp)).held (formOf s r.op10 r.w).run r.writes
      (formOf s r.op10 r.w).frees (fun k l => r.half k (r.out { s.grp with chain := some (freshChain s.grp) } s.grp.view l)) ∧
    ∀ l, bit (formOf s r.op10 r.w).run l = true →
      (r.holds s s.grp.opened (freshChain s.grp)).lat.getD (64 * r.w.lt.toNat + l) 0 =
        if tyWidth r.dty = 64 then (r.out { s.grp with chain := some (freshChain s.grp) } s.grp.view l).val
        else (r.out { s.grp with chain := some (freshChain s.grp) } s.grp.view l).val &&& 0xFFFFFFFF := by
  simp only [← laneRule_out_opened h]
  exact ⟨LaneRule.holds_lanes h s s.grp.opened (freshChain s.grp), fun l hrun =>
    lat_held (formOf s r.op10 r.w) (freshChain s.grp) r.w.dst.toNat r.dty r.w.ws _ (r.out s.grp.opened s.grp.view)
      ((formOf_le r.w hop).trans hle) hrun⟩

theorem laneChains : Claims.LaneChains := by
  intro i s r h hop f g hr hl
  refine ⟨fun hc hle hce => ?_, fun c hc hw hce => ?_⟩
  · intro g1
    obtain ⟨b, hexec⟩ := (inChain_opened h hop hr hc hle).exec_middle hce (Nat.zero_lt_succ 6) hl
    obtain ⟨hlanes, hlat⟩ := holds_opened h hop hle
    obtain ⟨hfirst, hwords, -⟩ := f.held_fields (r.eff g.opened g.view f.run) (freshChain g)
    refine ⟨_, r.holds s g.opened (freshChain g), hexec, ?_, rfl, rfl, hfirst, hwords, warn_nev .., warn_mem .., hlanes,
      fun l _ hrun => hlat l hrun⟩
    show { g with chain := none } = g
    rw [← hc]
  · have hin := inChain_open h hop hr hc
    refine ⟨_, hin.exec_close (.inl hce), nextLane_chain _, laneNext_nextLane _, ?_, nextLane_s _, nextLane_m _,
      hin.closed_countsTo.mem.trans (warn_mem ..), fun l hl => ?_⟩
    · rw [State.put_grp, LaneRule.closed, nextLane_lanes]
      exact LaneRule.holds_lanes h s g c
    · rw [State.put_grp, LaneRule.closed, nextLane_dzmask, Bool.or_assoc]
      exact BitVec.getLsbD_or.trans (congrArg _ (r.holds_dz s g c hl))

/-! ### A word that cuts a chain (R30 CHAINCUT) -/

theorem warn_congr {d d' : Dev} {k : Nat} (codes : List Nat) (h1 : (d'.ctx k).warn = (d.ctx k).warn)
    (h2 : (d'.ctx k).wcode = (d.ctx k).wcode) :
    ((warn d' k codes).ctx k).warn = ((warn d k codes).ctx k).warn ∧
    ((warn d' k codes).ctx k).wcode = ((warn d k codes).ctx k).wcode := by
  unfold warn
  split
  · exact ⟨h1, h2⟩
  · rw [Dev.ctx_setCtx, Dev.ctx_setCtx, h1, h2]
    exact ⟨rfl, rfl⟩

/-- The group and the device after a cut: the chain's effects have taken place. -/
def cutMach (s : State) (c : Chain) : Mach :=
  ⟨{ s.grp with lanes := c.held, dzmask := s.grp.dzmask ||| c.dz, domask := s.grp.domask ||| c.dov, chain := none },
    (countEvents s.dev s.grp.ctx c.counts).1⟩

theorem cutMach_countsTo {s : State} (c : Chain) (hq : noEventTrap s) :
    CountsTo s.dev (cutMach s c).d s.grp.ctx (classSum c.counts) := (countEvents_quiet c.counts hq).2

/-- The group and the device after a word that has cut a chain and run alone. -/
def LaneRule.cut (r : LaneRule) (s : State) (c : Chain) : Mach :=
  let f := formOf s r.op10 r.w
  let e := r.eff { s.grp with lanes := c.held, chain := none } s.grp.view f.run
  let m := cutMach s c
  ⟨Group.nextLane { m.g with
      lanes := f.frees.foldl LaneFile.unmap (e.file c.held), dzmask := m.g.dzmask ||| e.dz, domask := m.g.domask ||| e.dov },
    (countEvents (warn m.d s.grp.ctx (6 :: f.warns false)) s.grp.ctx e.counts).1⟩

theorem LaneRule.cut_countsTo (r : LaneRule) {s : State} (c : Chain) (hq : noEventTrap s) :
    CountsTo (warn (cutMach s c).d s.grp.ctx (6 :: (formOf s r.op10 r.w).warns false)) (r.cut s c).d s.grp.ctx
      (classSum (r.eff { s.grp with lanes := c.held, chain := none } s.grp.view (formOf s r.op10 r.w).run).counts) :=
  (countEvents_quiet _ (quiet_warn _ ((cutMach_countsTo c hq).quiet hq))).2

theorem laneStep_cut {f : LaneForm} {m : Mach} {c : Chain} (body : Word → Mach → LaneRes) (hc : m.g.chain = some c)
    (he : f.eligible = false) (hq : (m.d.ctx m.g.ctx).quiet) : laneStep f body m = runLane f body [wCHAINCUT]
      ⟨{ m.g with lanes := c.held, dzmask := m.g.dzmask ||| c.dz, domask := m.g.domask ||| c.dov, chain := none },
        (countEvents m.d m.g.ctx c.counts).1⟩ := by
  rw [laneStep, closeChain_quiet hc hq, if_pos (by rw [hc, he]; rfl)]

theorem exec_cut {i : Instr} {s : State} {r : LaneRule} {c : Chain} (h : laneRule i = some r) (hop : 0x180 ≤ r.op10)
    (hr : laneReady s (formOf s r.op10 r.w)) (hc : s.grp.chain = some c) : exec i s = .next (s.put (r.cut s c)) := by
  have hcount := cutMach_countsTo c hr.2.2.2
  have heligible : (formOf s r.op10 r.w).eligible = false := decide_eq_false (Nat.not_lt.2 hop)
  have hstep : laneStep (formOf s r.op10 r.w) (fun run m => .done m (r.eff m.g s.grp.view run)) s.mach =
      runLane (formOf s r.op10 r.w) (fun run m => .done m (r.eff m.g s.grp.view run)) [wCHAINCUT] (cutMach s c) := by
    exact laneStep_cut _ hc heligible hr.2.2.2
  have heff : r.eff (cutMach s c).g s.grp.view (formOf s r.op10 r.w).run =
      r.eff { s.grp with lanes := c.held, chain := none } s.grp.view (formOf s r.op10 r.w).run :=
    LaneRule.eff_marks h { s.grp with lanes := c.held, chain := none } s.grp.view _ _ _ s.grp.badLatch
  refine (exec_laneRule h s).trans (laneCompute_next hr ?_ ?_)
  · rw [hstep, runLane_alone (fun run m => r.eff m.g s.grp.view run) [wCHAINCUT] hr.2.2.1 rfl
      (by rw [heligible, Bool.false_and]), heff]
    exact congrArg some (finishLane_alone (m := ⟨(cutMach s c).g, warn (cutMach s c).d s.grp.ctx _⟩) _ _ rfl
      (quiet_warn _ (hcount.quiet hr.2.2.2)))
  · exact (r.cut_countsTo c hr.2.2.2).asking.trans ((warn_asking ..).trans hcount.asking)

theorem LaneRule.cut_warned (r : LaneRule) {s : State} (c : Chain) (hq : noEventTrap s) :
    warned s (s.put (r.cut s c)) (6 :: (formOf s r.op10 r.w).warns false) := by
  have hcut := cutMach_countsTo c hq
  have hcount := r.cut_countsTo c hq
  obtain ⟨h1, h2⟩ := warn_congr (6 :: (formOf s r.op10 r.w).warns false) hcut.warn hcut.wcode
  exact warned_of (hcount.warn.trans h1) (hcount.wcode.trans h2)

theorem chainEnds : Claims.ChainEnds := by
  intro i s r c h f g met hr hc
  have hcount := r.cut_countsTo c hr.2.2.2
  refine ⟨fun hop hce hw hl => ?_, fun hop hce hend => ?_, fun hop => ?_⟩
  · have hin := inChain_open h hop hr hc
    obtain ⟨b, hexec⟩ := hin.exec_middle hce hw hl
    obtain ⟨hfirst, hwords, -⟩ := f.held_fields (r.eff g g.view f.run) c
    have hcodes : met true = f.warns true ++ closeCodes g r.w.ce (c.words + 1) := by
      rw [closeCodes_nil r.w.ce (by omega) hl, List.append_nil]
      rfl
    refine ⟨_, r.holds s g c, hexec, rfl, rfl, rfl, hwords, hfirst, warn_nev .., warn_mem .., ?_, LaneRule.holds_lanes h s g c⟩
    rw [hcodes]
    exact warned_of rfl rfl
  · have hin := inChain_open h hop hr hc
    refine ⟨_, hin.exec_close (.inr hend), nextLane_chain _, laneNext_nextLane _, nextLane_s _, nextLane_m _,
      hin.closed_countsTo.mem.trans (warn_mem ..), ?_, ?_⟩
    · rw [State.put_grp, LaneRule.closed, nextLane_lanes]
      exact LaneRule.holds_lanes h s g c
    · have hcodes : met true ++ (if 7 ≤ c.words then [8] else []) ++ (if lastOfBlock g then [9] else []) =
          f.warns true ++ closeCodes g r.w.ce (c.words + 1) := by
        rw [hce, closeCodes_open, List.append_assoc]
        rfl
      rw [hcodes]
      exact warned_of_countsTo hin.closed_countsTo
  · intro mid
    refine ⟨_, exec_cut h hop hr hc, nextLane_chain _, laneNext_nextLane _, nextLane_s _, nextLane_m _,
      hcount.mem.trans ((warn_mem ..).trans (cutMach_countsTo c hr.2.2.2).mem), ?_, fun l hl => ?_, r.cut_warned c hr.2.2.2⟩
    · rw [State.put_grp, LaneRule.cut, nextLane_lanes]
      exact LaneRule.lanesAfter_eff h s mid g.view f.run c.held
    · rw [State.put_grp, LaneRule.cut, nextLane_dzmask]
      exact BitVec.getLsbD_or.trans (congr (congrArg _ BitVec.getLsbD_or) (r.eff_masks mid g.view f.run hl).1)

end Sys2Proof.Machine
end

section
/-! ## Pair words (R22-R25) -/

namespace Sys2Proof.Machine

/-! ### Classes that arose in either slot (R62) -/

theorem lt_of_risingFrom {α : Type} {t : Tab α} {k : Nat} (h : Tab.risingFrom (some k) t = true) : ∀ e ∈ t, k < e.1 := by
  induction t generalizing k with
  | nil => intro e he; cases he
  | cons e t ih =>
    obtain ⟨j, x⟩ := e
    simp only [Tab.risingFrom, Bool.and_eq_true, decide_eq_true_eq] at h
    intro e he
    rcases List.mem_cons.1 he with rfl | he
    · exact h.1
    · exact h.1.trans (ih h.2 e he)

theorem classSum_eq_zero {l : List (Nat × Nat)} {c : Nat} (h : ∀ e ∈ l, e.1 ≠ c) : classSum l c = 0 := by
  have hnil : l.filter (fun e => e.1 == c) = [] := List.filter_eq_nil_iff.2 fun e he => by simpa using h e he
  rw [classSum, hnil]
  rfl

/-- In a table of lanes each class stands once. -/
theorem classSum_tab {t : Tab Word} (h : t.canonical 0 = true) (c : Nat) : classSum (laneCounts t) c = popCount (t.getD c 0) := by
  have hr := ((Tab.canonical_iff t 0).1 h).1
  clear h
  induction t with
  | nil => exact (show popCount 0 = 0 from rfl).symm
  | cons e t ih =>
    obtain ⟨k, x⟩ := e
    have ht : Tab.risingFrom (some k) t = true := by simpa [Tab.risingFrom] using hr
    show classSum ((k, popCount x) :: laneCounts t) c = _
    rw [classSum_cons]
    by_cases hk : k = c
    · subst hk
      have hnone : classSum (laneCounts t) k = 0 := classSum_eq_zero fun e he => by
        obtain ⟨e', he', rfl⟩ := List.mem_map.1 he
        exact (lt_of_risingFrom ht e' he').ne'
      rw [if_pos rfl, hnone, Nat.add_zero]
      simp [Tab.getD, Tab.find?]
    · rw [if_neg hk, Nat.zero_add, ih (Tab.risingFrom_weaken ht)]
      simp [Tab.getD, Tab.find?, hk]

theorem canonical_addLanes {t : Tab Word} (h : t.canonical 0 = true) (l : List (Nat × Word)) :
    (addLanes t l).canonical 0 = true := by
  unfold addLanes
  induction l generalizing t with
  | nil => exact h
  | cons e l ih => exact ih (Tab.canonical_set h e.1 _)

theorem bit_addLanes (t : Tab Word) (l : List (Nat × Word)) (c k : Nat) :
    bit ((addLanes t l).getD c 0) k = (bit (t.getD c 0) k || l.any fun e => decide (e.1 = c) && bit e.2 k) := by
  unfold addLanes
  induction l generalizing t with
  | nil => simp
  | cons e l ih =>
    rw [List.foldl_cons, ih, List.any_cons, Tab.getD_set]
    by_cases h : e.1 = c
    · subst h
      rw [if_pos rfl, bit, BitVec.getLsbD_or, decide_eq_true rfl, Bool.true_and, Bool.or_assoc]
    · rw [if_neg h, decide_eq_false h, Bool.false_and, Bool.false_or]

/-- The lanes that the events of a word name for a class. -/
theorem any_evLanes (run : Word) (ev : Nat → Ev) {c k : Nat} (hc : c < 7) (hk : k < 64) :
    ((evLanes ((lanesOf run).map fun l => (l, ev l))).any fun e => decide (e.1 = c) && bit e.2 k) =
      (bit run k && bit (ev k) c) := by
  rw [← bit_laneMask run ev (bit · c) hk, evLanes, List.any_filter, List.any_map]
  rw [Bool.eq_iff_iff, List.any_eq_true]
  constructor
  · rintro ⟨b, -, hb⟩
    simp only [Function.comp_apply, Bool.and_eq_true, decide_eq_true_eq] at hb
    obtain ⟨-, rfl, hbit⟩ := hb
    exact hbit
  · intro hbit
    refine ⟨c, List.mem_range.2 hc, ?_⟩
    simp only [Function.comp_apply, Bool.and_eq_true, decide_eq_true_eq]
    refine ⟨fun h0 => ?_, trivial, hbit⟩
    rw [h0] at hbit
    simp at hbit

/-! ### The effect of a slot (R25) -/

theorem tyWidth_narrow (t : NTy) : tyWidth (nTyCode t) ≠ 64 := by cases t <;> decide

/-- Each running lane of a slot has the result of the slot's rule. -/
theorem slotOuts_op (g : Group) (run : Word) (o : NOp) (t : NTy) (f : Narrow) :
    slotOuts g run (.op o t f) = (lanesOf run).map fun l => (l, slotOut g (.op o t f) l) := by
  refine List.map_congr_left fun l _ => ?_
  dsimp only [slotOut]
  split
  · rfl
  · split <;> rfl

theorem slotEff_op (g : Group) (run : Word) (o : NOp) (t : NTy) (f : Narrow) : slotEff g run (.op o t f) =
    laneEff f.dst.toNat f.ws (nTyCode t) ((lanesOf run).map fun l => (l, slotOut g (.op o t f) l)) := by
  rw [slotEff, slotOuts_op]

theorem lanesAfter_slotEff (g : Group) (run : Word) (x : Slot) (old : LaneFile) {frees : List Nat}
    (hd : ∀ k ∈ frees, k ∉ slotWrites x) :
    lanesAfter old (frees.foldl LaneFile.unmap ((slotEff g run x).file old)) run (slotWrites x) frees
      (fun _ l => ⟨(slotOut g x l).val &&& 0xFFFFFFFF, (slotOut g x l).psn⟩) := by
  cases x with
  | nop raw =>
    intro k l hl
    rw [get_foldl_unmap _ _ _ hl]
    simp [slotEff, slotWrites]
  | op o t f =>
    have hregs : slotWrites (.op o t f) = if f.ws then [] else typedRegs (nTyCode t) f.dst.toNat := by
      rw [typedRegs, if_neg (tyWidth_narrow t)]
      rfl
    rw [hregs] at hd ⊢
    rw [slotEff_op]
    have hafter := lanesAfter_laneEff old f.dst.toNat (nTyCode t) f.ws run (slotOut g (.op o t f)) frees hd
    simp only [typedHalf, tyWidth_narrow t, false_and, ↓reduceIte] at hafter
    exact hafter

theorem any_slotEff (g : Group) (run : Word) (x : Slot) {c k : Nat} (hc : c < 7) (hk : k < 64) :
    ((slotEff g run x).lanes.any fun e => decide (e.1 = c) && bit e.2 k) = (bit run k && bit (slotOut g x k).ev c) := by
  cases x with
  | nop raw => simp [slotEff, slotOut, evNone]
  | op o t f =>
    rw [slotEff_op, laneEff_lanes]
    exact any_evLanes run (fun l => (slotOut g (.op o t f) l).ev) hc hk

/-! ### A pair word as a step -/

/-- The group that slot Y reads: as slot X has left it, where the pair breaks R24 outside a chain. -/
def pairSecond (g : Group) (run : Word) (x y : Slot) : Group :=
  if pairKeeps x y || g.chain.isSome then g else { g with lanes := (slotEff g run x).file g.lanes }

/-- The lanes of both slots for each class. -/
def pairLanes (g : Group) (run : Word) (x y : Slot) : Tab Word :=
  addLanes [] ((slotEff g run x).lanes ++ (slotEff (pairSecond g run x y) run y).lanes)

/-- The effects of a pair word. -/
def pairEff (g : Group) (run : Word) (x y : Slot) : LaneEff :=
  { file := fun l => (slotEff (pairSecond g run x y) run y).file ((slotEff g run x).file l)
    counts := laneCounts (pairLanes g run x y), lanes := pairLanes g run x y }

theorem classSum_pairEff (g : Group) (run : Word) (x y : Slot) {c : Nat} (hc : c < 7) : classSum (pairEff g run x y).counts c =
    lanesWith run fun l => bit (slotOut g x l).ev c || bit (slotOut (pairSecond g run x y) y l).ev c := by
  refine (classSum_tab (canonical_addLanes (Tab.canonical_nil 0) _) c).trans (popCount_congr fun l hl => ?_)
  rw [bit_addLanes, List.any_append, any_slotEff _ _ _ hc hl, any_slotEff _ _ _ hc hl, Bool.and_or_distrib_left]
  simp

theorem exec_pair {i : Instr} {ce : Bool} {x y : Slot} (h : i.pair? = some (ce, x, y)) (s : State) :
    exec i s = pairStep ce x y s := by
  unfold Instr.pair? at h
  split at h
  case h_18 => cases h
  all_goals
    cases h
    rfl

/-- The state after a pair word outside a chain. -/
def pairAlone (ce : Bool) (x y : Slot) (s : State) : State :=
  s.put ⟨Group.nextLane { s.grp with
      lanes := (pairForm ce x y s.grp).frees.foldl LaneFile.unmap ((pairEff s.grp s.grp.m0 x y).file s.grp.lanes)
      dzmask := s.grp.dzmask ||| 0, domask := s.grp.domask ||| 0 },
    (countEvents (warn s.dev s.grp.ctx (pairWarns ce x y false)) s.grp.ctx (pairEff s.grp s.grp.m0 x y).counts).1⟩

theorem pairAlone_countsTo (ce : Bool) (x y : Slot) {s : State} (hq : noEventTrap s) :
    CountsTo (warn s.dev s.grp.ctx (pairWarns ce x y false)) (pairAlone ce x y s).dev s.grp.ctx
      (classSum (pairEff s.grp s.grp.m0 x y).counts) :=
  (countEvents_quiet _ (quiet_warn _ hq)).2

theorem pairStep_alone {ce : Bool} {x y : Slot} {s : State} (hr : laneReady s (pairForm ce x y s.grp)) (hc : s.grp.chain = none) :
    pairStep ce x y s = .next (pairAlone ce x y s) := by
  rw [pairStep]
  refine actOrWait_ok ?_ ((pairAlone_countsTo ce x y hr.2.2.2).asking.trans (warn_asking ..))
  refine (if_neg ?_).trans ?_
  · rw [Bool.or_eq_true, not_or, Bool.not_eq_true, Bool.not_eq_true]
    exact ⟨hr.1, hr.2.1⟩
  · refine (laneStep_noCut _ (.inl hc)).trans ?_
    refine (runLane_alone (fun run m => pairEff m.g run x y) [] hr.2.2.1 hc rfl).trans ?_
    exact congrArg some (finishLane_alone (m := ⟨s.grp, warn s.dev s.grp.ctx _⟩) _ _ hc (quiet_warn _ hr.2.2.2))

theorem pairForm_frees (ce : Bool) (x y : Slot) (g : Group) :
    ∀ k ∈ (pairForm ce x y g).frees, k ∉ slotWrites x ∧ k ∉ slotWrites y := by
  intro k hk
  have hk := (List.mem_filter.1 hk).2
  simp only [Bool.not_eq_true', List.contains_eq_mem, decide_eq_false_iff_not, List.mem_append, not_or] at hk
  exact hk

/-! ### `v.nop` as a wide word -/

theorem exec_vNop_wide (w : Wide) (s : State) : exec (.vNop (.wide w)) s = laneCompute 0x07F w (fun _ _ _ _ => {}) s := rfl

/-- It frees and writes nothing. -/
theorem formOf_vNop (s : State) (w : Wide) : (formOf s 0x07F w).frees = [] := by
  have hi : (laneInfo 0x07F w).getD {} = {} := rfl
  simp [formOf, wideForm, hi, wideLast]

theorem vNop_alone {s : State} (w : Wide) (hr : laneReady s (formOf s 0x07F w)) (hle : w.le = false) (hc : s.grp.chain = none) :
    exec (.vNop (.wide w)) s = .next (s.put ⟨Group.nextLane { s.grp with
      lanes := s.grp.lanes, dzmask := s.grp.dzmask ||| 0, domask := s.grp.domask ||| 0 },
      warn s.dev s.grp.ctx ((formOf s 0x07F w).warns false)⟩) := by
  rw [exec_vNop_wide]
  refine laneCompute_next hr ?_ (warn_asking ..)
  have hlone : ((formOf s 0x07F w).eligible && (formOf s 0x07F w).le) = false := by
    rw [formOf_le w (by decide), hle, Bool.and_false]
  have hfin := finishLane_alone (m := ⟨s.grp, warn s.dev s.grp.ctx ((formOf s 0x07F w).warns false)⟩) (formOf s 0x07F w) {} hc
    (quiet_warn _ hr.2.2.2)
  rw [formOf_vNop] at hfin
  rw [laneStep_noCut _ (.inl hc), runLane_alone (fun _ _ => {}) [] hr.2.2.1 hc hlone]
  exact congrArg some hfin

theorem pairWords : Claims.PairWords := by
  intro i s ce x y h f g hr hc mid
  have hcount := pairAlone_countsTo ce x y hr.2.2.2
  have hfrees := pairForm_frees ce x y g
  have hsecond : pairSecond g g.m0 x y = if pairKeeps x y then g else mid ((slotEff g g.m0 x).file g.lanes) := by
    have hkeeps : (pairKeeps x y || g.chain.isSome) = pairKeeps x y := by
      rw [hc]
      exact Bool.or_false _
    rw [pairSecond, hkeeps]
  refine ⟨_, (slotEff g g.m0 x).file g.lanes, (exec_pair h s).trans (pairStep_alone hr hc), laneNext_nextLane _,
    lanesOnly_nextLane g _ _ _, lanesAfter_slotEff g g.m0 x g.lanes (frees := []) (by simp), ?_, warned_of_countsTo hcount,
    ?_, ?_, hcount.mem.trans (warn_mem ..), fun w hw hle => ⟨_, vNop_alone w hw hle hc, laneNext_nextLane _,
      lanesOnly_nextLane g _ _ _, ?_, warn_mem ..⟩⟩
  · intro gy
    rw [← show pairSecond g g.m0 x y = gy from hsecond]
    refine ⟨?_, counted_of_countsTo hcount fun c hc => classSum_pairEff g g.m0 x y hc⟩
    rw [pairAlone, State.put_grp, nextLane_lanes]
    exact lanesAfter_slotEff (pairSecond g g.m0 x y) g.m0 y _ fun k hk => (hfrees k hk).2
  · rw [pairAlone, State.put_grp, nextLane_dzmask]
    exact BitVec.or_zero
  · rw [pairAlone, State.put_grp, nextLane_domask]
    exact BitVec.or_zero
  · rw [State.put_grp, nextLane_lanes]

end Sys2Proof.Machine

namespace Sys2Proof

/-- Settles O24: a chain holds effects and gives them up at its end; a pair word is one word of two slots. -/
theorem chainsAndPairs : Obligations.ChainsAndPairs := ⟨Machine.laneChains, Machine.chainEnds, Machine.pairWords⟩

end Sys2Proof
end

section
/-! ## Steps: the decoded word and the agenda (R70-R72, R102) -/

namespace Sys2Proof.Machine

/-! ### A stream with nothing held and nothing queued -/

theorem heldReady_of_none {g : Group} (h : g.heldWords = []) : heldReady g = none := by rw [heldReady, h]

theorem usesBusy_of_none {g : Group} (h : g.heldWords = []) (i : Instr) : usesBusy g i = false := by
  have hb : busyRegs g = [] := by rw [busyRegs, h]; rfl
  unfold usesBusy
  split
  · rw [hb]; rfl
  · rw [hb, List.any_eq_false]
    intro k _
    simp

theorem blockWords_of_idle {g : Group} (hq : g.queue = []) : blockWords g = [] := by rw [blockWords, hq]

theorem pendingLanes_of_idle {g : Group} (hq : g.queue = []) : pendingLanes g = [] := by
  rw [pendingLanes, blockWords_of_idle hq]; rfl

theorem blocksAhead_of_idle (d : Dev) {g : Group} (hq : g.queue = []) : blocksAhead d g = 0 := by
  rw [blocksAhead, blockWords_of_idle hq]; rfl

theorem forkWaits_of_idle (d : Dev) {g : Group} (hq : g.queue = []) (hh : g.heldWords = []) : forkWaits d g = false := by
  rw [forkWaits, pendingLanes_of_idle hq, hh]; rfl

/-- The rows of R72 ask only for lane words that are pending. -/
theorem mustStall_of_idle (d : Dev) {g : Group} (hq : g.queue = []) (i : Instr) : mustStall d g i = false := by
  unfold mustStall
  rw [pendingLanes_of_idle hq]
  split <;> rfl

/-! ### Sound storage (R186) -/

theorem readsBad_of_sound {g : Group} (h : soundStorage g) (i : Instr) : readsBad g i = false := by
  rw [readsBad, h.1, List.any_eq_false]
  intro k _
  exact Bool.false_ne_true

theorem soundLanes_of_sound {g : Group} (h : soundStorage g) : g.soundLanes = true := by
  obtain ⟨hs, hr, hl⟩ := h
  rw [Group.soundLanes, hs, hr, hl]; rfl

/-! ### The kinds of words that issue treats apart -/

theorem isYield_eq (i : Instr) : isYield i = decide (i = .sysYield) := by
  unfold isYield
  split
  · rfl
  · rename_i h
    exact (decide_eq_false h).symm

theorem scalarAccesses_of_forks {i : Instr} (h : scalarForks i = true) : scalarAccesses i = false := by
  unfold scalarForks at h
  split at h
  · rfl
  · rfl
  · rfl
  · rfl
  · cases h

/-! ### A word that has issued (R197-R200) -/

theorem settleIssue_scalar (t : State) (keep : Bool) : settleIssue false keep [] [] (.next t) = .next (t.issued false keep) := by
  unfold settleIssue State.issued
  dsimp only
  split <;> rfl

/-- Where the core's groups fit its file, nothing is spilled (R199). -/
theorem spillFull_of_fits {m : Mach} (h : ((m.onCore m.g.die m.g.core).map physKept).sum ≤ 3072) (named : List Nat) :
    spillFull m named = m := by
  unfold spillFull
  split
  · unfold spillCore
    exact if_pos h
  · rfl

/-- What the file keeps for the groups of a core does not depend on when they issued and read last. -/
theorem kept_laneIssued (m : Mach) (reads : List Nat) (die core : Nat) :
    ((m.laneIssued reads).onCore die core).map physKept = (m.onCore die core).map physKept := by
  unfold Mach.laneIssued
  split
  · rfl
  · rename_i hl
    have hl : m.g.live = true := by simpa using hl
    simp only [Mach.onCore, Mach.allGroups, hl, if_true, List.singleton_append, List.filter_cons, Dev.setCore_groups]
    split <;> split
    · rfl
    · rename_i h h'; exact absurd h h'
    · rename_i h h'; exact absurd h' h
    · rfl

theorem spillFull_laneIssued {t : State} (h : fileFits t) (reads named : List Nat) :
    spillFull (t.mach.laneIssued reads) named = t.mach.laneIssued reads := by
  have hd : (t.mach.laneIssued reads).g.die = t.grp.die := by unfold Mach.laneIssued; split <;> rfl
  have hc : (t.mach.laneIssued reads).g.core = t.grp.core := by unfold Mach.laneIssued; split <;> rfl
  refine spillFull_of_fits ?_ named
  rw [hd, hc, kept_laneIssued]
  exact h

theorem settleIssue_lane {t : State} (h : fileFits (t.issued true false)) (reads named : List Nat) :
    settleIssue true false reads named (.next t) = .next ((t.issued true false).laneNoted reads) := by
  unfold State.issued at h ⊢
  unfold settleIssue State.laneNoted
  dsimp only
  cases hs : t.stalled
  · rw [if_neg (by rw [hs]; decide)] at h
    simp only [Bool.false_eq_true, if_false, if_true]
    exact congrArg (fun m => Host.Outcome.next (State.put _ m)) (spillFull_laneIssued h reads named)
  · simp only [hs, if_true]

/-! ### The scalar word on turn (R27, R72, R96, R102) -/

section
variable {s : State} {i : Instr}

theorem issueScalar_badTarget (hh : s.grp.heldWords = []) (hd : s.grp.dueTrap = none)
    (ht : s.grp.goodTarget s.grp.pc = false) :
    issueScalar s = actOrWait (fun _ m => scalarTrap m cBADPC) s := by
  unfold issueScalar
  rw [heldReady_of_none hh, hd]
  simp only [ht, Bool.not_false, if_true]

theorem issueScalar_met {d : Dev} (hh : s.grp.heldWords = []) (hd : s.grp.dueTrap = none)
    (ht : s.grp.goodTarget s.grp.pc = true) (hm : fetchErrors s.dev s.grp.pc.toNat 4 = some d) :
    issueScalar s = .next { s with dev := d } := by
  unfold issueScalar
  rw [heldReady_of_none hh, hd]
  simp only [ht, Bool.not_true, Bool.false_eq_true, if_false, hm]

theorem issueScalar_decoded (hh : s.grp.heldWords = []) (hd : s.grp.dueTrap = none)
    (ht : s.grp.goodTarget s.grp.pc = true) (hm : fetchErrors s.dev s.grp.pc.toNat 4 = none)
    (hi : decodeScalar (scalarWordAt s.dev s.grp.pc.toNat) = .ok i) :
    issueScalar s = aheadScalar (scalarWordAt s.dev s.grp.pc.toNat) i s := by
  unfold issueScalar
  rw [heldReady_of_none hh, hd]
  simp only [ht, Bool.not_true, Bool.false_eq_true, if_false, hm, hi]

theorem issueScalar_reserved {r : Reserved} (hh : s.grp.heldWords = []) (hd : s.grp.dueTrap = none)
    (ht : s.grp.goodTarget s.grp.pc = true) (hm : fetchErrors s.dev s.grp.pc.toNat 4 = none)
    (hr : decodeScalar (scalarWordAt s.dev s.grp.pc.toNat) = .error r) :
    issueScalar s = settleIssue false false [] []
      (exec (.emulationEntry r ((scalarWordAt s.dev s.grp.pc.toNat).zeroExtend 96)) s) := by
  unfold issueScalar
  rw [heldReady_of_none hh, hd]
  simp only [ht, Bool.not_true, Bool.false_eq_true, if_false, hm, hr]

theorem runScalar_issued {t : State} (hs : soundStorage s.grp) (hx : exec i s = .next t) :
    runScalar i s = .next (t.issued false (decide (i = .sysYield))) := by
  unfold runScalar
  rw [readsBad_of_sound hs, hx, isYield_eq]
  exact settleIssue_scalar t _

/-- A word that meets no row of R72, R90 or R102 runs. -/
theorem aheadScalar_runs (w : BitVec 32) (hs : soundStorage s.grp) (hh : s.grp.heldWords = [])
    (hst : mustStall s.dev s.grp i = false) (hw : ¬ (scalarForks i = true ∧ forkWaits s.dev s.grp = true))
    (ha : scalarAccesses i = false ∨ blocksAhead s.dev s.grp = 0) : aheadScalar w i s = runScalar i s := by
  have hhold : (scalarAccesses i && (decide (blocksAhead s.dev s.grp ≠ 0) || !s.grp.heldWords.isEmpty)) = false := by
    rw [hh]
    rcases ha with ha | ha <;> simp [ha]
  have hfork : (scalarForks i && forkWaits s.dev s.grp) = false := by
    rw [Bool.and_eq_false_iff, ← Bool.not_eq_true, ← Bool.not_eq_true]
    exact not_and_or.1 hw
  unfold aheadScalar
  simp only [hst, usesBusy_of_none hh, readsBad_of_sound hs, hhold, hfork, Bool.or_false, Bool.false_eq_true, if_false]

/-- A word that accesses memory behind pending lane memory words is held, or waits (R102). -/
theorem aheadScalar_holds (w : BitVec 32) (hs : soundStorage s.grp) (hh : s.grp.heldWords = [])
    (hst : mustStall s.dev s.grp i = false) (ha : scalarAccesses i = true) (hn : blocksAhead s.dev s.grp ≠ 0) :
    aheadScalar w i s = holdWord w i (blocksAhead s.dev s.grp) s := by
  unfold aheadScalar
  simp only [hst, usesBusy_of_none hh, readsBad_of_sound hs, ha, decide_eq_true hn, Bool.or_false, Bool.true_or, Bool.and_self,
    Bool.false_eq_true, if_false, if_true]

theorem aheadScalar_mustStall (w : BitVec 32) (hst : mustStall s.dev s.grp i = true) : aheadScalar w i s = stall s := by
  unfold aheadScalar
  simp only [hst, Bool.true_or, if_true]

theorem aheadScalar_fork (w : BitVec 32) (hs : soundStorage s.grp) (hh : s.grp.heldWords = [])
    (hf : scalarForks i = true) (hw : forkWaits s.dev s.grp = true) : aheadScalar w i s = stall s := by
  unfold aheadScalar
  simp only [usesBusy_of_none hh, readsBad_of_sound hs, scalarAccesses_of_forks hf, hf, hw, Bool.or_false, Bool.false_and,
    Bool.and_self, Bool.false_eq_true, if_false, if_true, ite_self]

theorem holdWord_waits (w : BitVec 32) (n : Nat) (hb : holdable s.grp i = false) : holdWord w i n s = stall s := by
  unfold holdWord
  simp only [hb, Bool.not_false, if_true]
  rfl

theorem aheadScalar_waits (w : BitVec 32) (hs : soundStorage s.grp) (hh : s.grp.heldWords = [])
    (h : mustStall s.dev s.grp i = true ∨ (scalarForks i = true ∧ forkWaits s.dev s.grp = true) ∨
      (scalarAccesses i = true ∧ blocksAhead s.dev s.grp ≠ 0 ∧ holdable s.grp i = false)) :
    aheadScalar w i s = stall s := by
  rcases h with hst | ⟨hf, hw⟩ | ⟨ha, hn, hb⟩
  · exact aheadScalar_mustStall w hst
  · exact aheadScalar_fork w hs hh hf hw
  · cases hst : mustStall s.dev s.grp i
    · rw [aheadScalar_holds w hs hh hst ha hn, holdWord_waits w _ hb]
    · exact aheadScalar_mustStall w hst

/-- A held access: its word, its address and its operands wait behind the blocks that hold lane memory words (R102). -/
theorem holdWord_held (w : BitVec 32) (n : Nat) {t : State} (hh : s.grp.heldWords = []) (hb : holdable s.grp i = true)
    (hx : exec i { s with grp := { s.grp with queue := [], lpos := 0, dual := false } } = .next t)
    (hst : t.stalled = false) (hl : t.grp.live = true) (hpc : t.grp.pc = s.grp.pc + 4)
    (hin : t.grp.inHandler = s.grp.inHandler) :
    holdWord w i n s = .next { s with grp := { s.grp.advance with
      heldWords := [⟨w, s.grp.pc, s.grp.s, s.grp.c, n⟩], starveScalar := 0, yielded := false } } := by
  have hgo : (t.stalled || !t.grp.live || t.grp.pc != s.grp.pc + 4 || t.grp.inHandler != s.grp.inHandler) = false := by
    simp only [hst, hl, hpc, hin, Bool.not_true, bne_self_eq_false, Bool.or_self]
  unfold holdWord
  dsimp only at hx ⊢
  rw [hb, hx]
  dsimp only
  rw [hgo, hh]
  rfl

end

/-! ### The lane word on turn (R27, R102) -/

section
variable {s : State} {i : Instr}

theorem issueLane_met {d : Dev} (hh : s.grp.heldWords = [])
    (hm : fetchErrors s.dev (s.grp.laneBase + 12 * s.grp.lpos) 12 = some d) : issueLane s = .next { s with dev := d } := by
  unfold issueLane
  rw [heldReady_of_none hh]
  simp only [hm]

theorem issueLane_decoded (hh : s.grp.heldWords = [])
    (hm : fetchErrors s.dev (s.grp.laneBase + 12 * s.grp.lpos) 12 = none)
    (hi : decodeLane (laneWordAt s.dev s.grp s.grp.lpos) = .ok i) : issueLane s = runLaneWord i s := by
  unfold issueLane
  rw [heldReady_of_none hh]
  simp only [hm, hi]

theorem issueLane_reserved {r : Reserved} (hh : s.grp.heldWords = [])
    (hm : fetchErrors s.dev (s.grp.laneBase + 12 * s.grp.lpos) 12 = none)
    (hr : decodeLane (laneWordAt s.dev s.grp s.grp.lpos) = .error r) :
    issueLane s = settleIssue true false [] [] (exec (.emulationEntry r (laneWordAt s.dev s.grp s.grp.lpos)) s) := by
  unfold issueLane
  rw [heldReady_of_none hh]
  simp only [hm, hr]

theorem runLaneWord_issued {t : State} (hs : soundStorage s.grp) (hf : fileFits s) (hx : exec i s = .next t)
    (ht : fileFits (t.issued true false)) :
    runLaneWord i s = .next ((t.issued true false).laneNoted (laneReads s.grp i)) := by
  have hspill : s.put (spillFull s.mach (laneNames s.grp i)) = s := congrArg s.put (spillFull_of_fits hf _)
  unfold runLaneWord
  simp only [soundLanes_of_sound hs, Bool.true_or, if_true, hspill, hx]
  exact settleIssue_lane ht _ _

end

/-! ### What a step takes first -/

section
variable {s : State} {rest : List Turn}

theorem step_issues (he : (List.range 4).find? (fun k => epochDue s.dev k && !(s.dev.die k).turning) = none)
    (hr : s.dev.regWrites = []) (ha : s.agenda = []) (hs : s.stalled = false) (hb : s.burst < 64)
    (hc : canIssue s.dev s.grp = true) : step s = issue s := by
  have hw : s.regWrite? = none := by rw [State.regWrite?, hr]
  unfold step
  rw [he, hw, ha]
  simp only [hs, hc, decide_eq_false (Nat.not_le.2 hb), Bool.not_true, Bool.or_self, Bool.false_eq_true, if_false]

theorem step_takesTurn {t : Turn} (he : ∀ k, k < 4 → epochDue s.dev k = true → (s.dev.die k).turning = true)
    (hr : s.dev.regWrites = []) (ha : s.agenda = t :: rest) :
    step s = takeTurn t { s with agenda := rest, stalled := false } := by
  have hn : (List.range 4).find? (fun k => epochDue s.dev k && !(s.dev.die k).turning) = none := by
    rw [List.find?_eq_none]
    intro k hk h
    obtain ⟨hdue, hnot⟩ := Bool.and_eq_true_iff.1 h
    rw [he k (List.mem_range.1 hk) hdue] at hnot
    exact Bool.false_ne_true hnot
  have hw : s.regWrite? = none := by rw [State.regWrite?, hr]
  unfold step
  rw [hn, hw, ha]

theorem issue_scalar (hq : s.grp.queue = []) : issue s = issueScalar s := by rw [issue, hq]; rfl

theorem issue_lane (hq : s.grp.queue ≠ []) : issue s = issueLane s := by
  rw [issue, if_neg (by rwa [List.isEmpty_iff])]

/-- A step that writes control registers and does not wait has acted: it asks the host for nothing (spec/22 R353). -/
theorem adopt_acts {s t u : State} (h : s.adopt u = .next t) (ht : t.stalled = false) :
    u.dev.pkg.asking = s.dev.pkg.asking ∧ u = t := by
  unfold State.adopt at h
  split at h
  · rename_i hask
    cases h
    exact ⟨hask, rfl⟩
  · rename_i hask
    have hask : ¬ u.mach.d.pkg.asking = s.dev.pkg.asking := hask
    unfold State.commit at h
    rw [if_neg hask] at h
    cases h
    cases ht

/-- A register write that is due is REGISTER_WRITE of its address and value (R330). -/
theorem step_registerWrite {a : Nat} {v : Word} {ws : List (Nat × Word)} {t : State}
    (he : (List.range 4).find? (fun k => epochDue s.dev k && !(s.dev.die k).turning) = none)
    (hr : s.dev.regWrites = (a, v) :: ws) (hs : s.stalled = false)
    (hx : exec (.registerWrite a v) { s with dev := { s.dev with regWrites := ws } } = .next t) (ht : t.stalled = false)
    (hb : regBlock a = true) (h8 : a % 8 = 0) (hg : egressAddr a = false) : step s = .next t := by
  have hw : s.regWrite? = some ((a, v), ws) := by rw [State.regWrite?, hr]; simp only [hs, Bool.false_eq_true, if_false]
  have hreg : registerWrite a v { s with dev := { s.dev with regWrites := ws } }
      = State.writeReg { s with dev := { s.dev with regWrites := ws } } a v := by
    simp only [registerWrite, hb, h8, hg, ne_eq, not_true_eq_false, decide_false, Bool.not_true, Bool.or_self,
      Bool.false_eq_true, if_false]
  have hexec : exec (.registerWrite a v) { s with dev := { s.dev with regWrites := ws } }
      = State.adopt { s with dev := { s.dev with regWrites := ws } }
          (State.writeReg { s with dev := { s.dev with regWrites := ws } } a v) := by rw [← hreg]; rfl
  rw [hexec] at hx
  have hstep : step s = s.adopt (State.writeReg { s with dev := { s.dev with regWrites := ws } } a v) := by
    unfold step
    rw [he, hw]
  obtain ⟨hask, rfl⟩ := adopt_acts hx ht
  rw [hstep]
  exact if_pos hask

end

/-! ### Turns of the agenda -/

section
variable {s : State}

theorem put_focus_self (hl : s.grp.live = true) : s.put (s.mach.focus s.grp.gid) = s := by
  have hf : s.mach.focus s.grp.gid = s.mach := by
    unfold Mach.focus
    exact if_pos (by simp only [State.mach, hl, decide_true, Bool.and_self])
  rw [hf]
  rfl

theorem takeTurn_scalar (hl : s.grp.live = true) (hm : mayIssue s.dev s.grp = true) :
    takeTurn (.scalar s.grp.gid) s = passed (issueScalar s) := by
  unfold takeTurn
  simp only [put_focus_self hl, hm, ne_eq, not_true_eq_false, decide_false, Bool.not_true, Bool.or_self,
    Bool.false_eq_true, if_false]

theorem takeTurn_lane (hl : s.grp.live = true) (hm : mayIssue s.dev s.grp = true) (hq : s.grp.queue ≠ [])
    (hp : s.grp.chain ≠ none ∨ freePipes s.mach s.grp.die s.grp.core ≠ 0) :
    takeTurn (.lane s.grp.gid) s = passed (issueLane s) := by
  have hpipe : (s.grp.chain.isNone && freePipes s.mach s.grp.die s.grp.core == 0) = false := by
    rw [Bool.and_eq_false_iff, beq_eq_false_iff_ne, ← Bool.not_eq_true, Option.isNone_iff_eq_none]
    exact hp
  unfold takeTurn
  simp only [put_focus_self hl, hm, List.isEmpty_eq_false_iff.2 hq, hpipe, ne_eq, not_true_eq_false, decide_false, Bool.not_true,
    Bool.or_self, Bool.false_eq_true, if_false]

theorem takeTurn_lane_idle (hl : s.grp.live = true) (hq : s.grp.queue = []) : takeTurn (.lane s.grp.gid) s = .next s := by
  unfold takeTurn
  simp only [put_focus_self hl, hq, List.isEmpty_nil, Bool.or_true, Bool.true_or, if_true]

theorem passed_stall (h : s.stalled = false) : passed (stall s) = .next s := by
  obtain ⟨⟩ := s
  cases h
  rfl

end

end Sys2Proof.Machine

namespace Sys2Proof

open Machine

theorem stepRunsTheDecodedWord_words : Claims.StepRunsTheDecodedWord := by
  intro s due
  refine ⟨fun k hk => ?_, fun a v rest he hr hs t hx ht hb h8 hg => step_registerWrite he hr hs hx ht hb h8 hg, ?_⟩
  · unfold step
    rw [show (List.range 4).find? (fun k => epochDue s.dev k && !(s.dev.die k).turning) = some k from hk]
  intro ha hs hc hb he hr hh hd g w x met
  have hstep : step s = issue s := step_issues he hr ha hs hb hc
  rw [hstep]
  refine ⟨fun hq ht htrap => ?_, fun d hgo hm => ?_, fun hq ht hm => ?_, fun hq hm => ?_⟩
  · rw [issue_scalar hq, issueScalar_badTarget hh hd ht]
    exact actOrWait_trap rfl htrap
  · by_cases hq : g.queue = []
    · rw [issue_scalar hq]
      exact issueScalar_met hh hd (hgo.resolve_left (absurd hq)) ((if_pos hq).symm.trans hm)
    · rw [issue_lane hq]
      exact issueLane_met hh ((if_neg hq).symm.trans hm)
  · replace hm : fetchErrors s.dev g.pc.toNat 4 = none := (if_pos hq).symm.trans hm
    rw [issue_scalar hq]
    refine ⟨fun i t hi hsound hx => ?_, fun r t hr hx => ?_⟩
    · rw [issueScalar_decoded hh hd ht hm hi, aheadScalar_runs _ hsound hh (mustStall_of_idle s.dev hq i)
        (fun h => Bool.false_ne_true ((forkWaits_of_idle s.dev hq hh).symm.trans h.2)) (.inr (blocksAhead_of_idle s.dev hq))]
      exact runScalar_issued hsound hx
    · rw [issueScalar_reserved hh hd ht hm hr, hx]
      exact settleIssue_scalar t false
  · replace hm : fetchErrors s.dev (g.laneBase + 12 * g.lpos) 12 = none := (if_neg hq).symm.trans hm
    rw [issue_lane hq]
    refine ⟨fun i t hi hsound hx hf hft => ?_, fun r t hr hx hft => ?_⟩
    · rw [issueLane_decoded hh hm hi]
      exact runLaneWord_issued hsound hf hx hft
    · rw [issueLane_reserved hh hm hr, hx]
      exact settleIssue_lane hft [] []

theorem agendaTurns : Claims.AgendaTurns := by
  intro s rest i t u g w ahead waits he hr
  refine ⟨fun ha hx => ?_, fun hl hmay hs hh hd =>
    ⟨fun ha hi ht hm => ?_, fun ha hi hq hm hp hx hf hft => ?_, fun ha hq => ?_⟩⟩
  · rw [step_takesTurn he hr ha]
    exact congrArg (requeue (.event i)) hx
  · have hturn : step s = passed (aheadScalar w i u) := by
      rw [step_takesTurn he hr ha]
      exact (takeTurn_scalar (s := u) hl hmay).trans (congrArg passed (issueScalar_decoded (s := u) hh hd ht hm hi))
    rw [hturn]
    refine ⟨fun hst hw hacc hx => ?_, fun h => ?_, fun hst hacc hn hb hx hts htl htpc htin => ?_⟩
    · rw [aheadScalar_runs (s := u) w hs hh hst hw hacc, runScalar_issued (s := u) hs hx]
      rfl
    · rw [aheadScalar_waits (s := u) w hs hh h]
      rfl
    · rw [aheadScalar_holds (s := u) w hs hh hst hacc hn, holdWord_held (s := u) w _ hh hb hx hts htl htpc htin]
      rfl
  · rw [step_takesTurn he hr ha]
    refine (takeTurn_lane (s := u) hl hmay hq hp).trans ?_
    rw [issueLane_decoded (s := u) hh hm hi, runLaneWord_issued (s := u) hs hf hx hft]
    rfl
  · rw [step_takesTurn he hr ha]
    exact takeTurn_lane_idle (s := u) hl hq

/-- Settles O54: what a step takes first, and what issue does with the word that it fetches. -/
theorem stepRunsTheDecodedWord : Obligations.StepRunsTheDecodedWord :=
  ⟨stepRunsTheDecodedWord_words, agendaTurns⟩

end Sys2Proof
end

section
/-! ## Waiting for operations in flight, and the check words -/

namespace Sys2Proof.Machine

/-! ### `s.cnt` and `s.wait` (R103, R66) -/

theorem exec_sCnt (d : SReg) (p : Path) (s : State) : exec (.sCnt d p) s =
    actOrWait (fun _ m => if m.g.lanesIdle then some { m with g := m.g.result d (BitVec.ofNat 64 (m.g.count p)) } else none) s := rfl
theorem exec_sWait (p : Path) (a : SReg) (s : State) :
    exec (.sWait p a) s = actOrWait (fun _ m => waitPath p (m.g.rs a.toNat).toNat m) s := rfl

section
variable {p : Path} {thr : Nat} {m : Mach}

theorem waitPath_lanes (hq : m.g.queue ≠ []) : waitPath p thr m = none := by
  simp [waitPath, Group.not_lanesIdle hq]

theorem waitPath_above (h : thr < m.g.count p) : waitPath p thr m = none := by
  simp [waitPath, h]

/-- The group and the device once a wait has joined the operations that its threshold covers (R386). -/
def joined (p : Path) (m : Mach) : Mach :=
  ⟨{ m.g with unjoined := m.g.unjoined.set (pathCode p) 0 0 },
    raisePts m.d (coreKey m.g.die m.g.core) (m.g.unjoined.getD (pathCode p) 0)⟩

theorem waitPath_joins (hq : m.g.queue = []) (hc : m.g.count p ≤ thr) (hh : ∀ h ∈ m.g.heldTraps, h.path ≠ p) :
    waitPath p thr m = some { joined p m with g := (joined p m).g.advance } := by
  have hnone : m.g.heldTraps.find? (fun h => h.path == p && decide (h.pos ≤ m.g.issued.getD (pathCode p) 0 - thr)) = none :=
    List.find?_eq_none.2 fun h hm => by simp [hh h hm]
  simp [waitPath, Group.lanesIdle_of_queue hq, Nat.not_lt.2 hc, Group.coveredTrap, hnone, joined]

/-- The held traps that stay when one is taken: the others, but numerical traps of the same operation go with it. -/
def leftHeld (h : Held) (l : List Held) (p : Path) : List Held :=
  l.filter fun x => x != h && !(h.code = cNUMEVT && x.code = cNUMEVT && x.path == p && x.pos = h.pos)

theorem not_mem_leftHeld (h : Held) (l : List Held) (p : Path) : h ∉ leftHeld h l p := by simp [leftHeld]

theorem waitPath_traps {h : Held} {rest : List Held} (hq : m.g.queue = []) (hi : m.g.inHandler = false)
    (hc : m.g.count p ≤ thr) (hh : m.g.heldTraps = h :: rest) (hp : h.path = p)
    (hpos : h.pos ≤ m.g.issued.getD (pathCode p) 0 - thr) :
    waitPath p thr m = some (takeTrap
      { joined p m with g := { (joined p m).g.advance with heldTraps := leftHeld h (h :: rest) p } }
      { code := h.code, nevc := h.nevc, path := pathCode p, tspc := m.g.pc, skip := true }) := by
  simp [waitPath, Group.lanesIdle_of_queue hq, Nat.not_lt.2 hc, Group.coveredTrap, hh, hp, hpos, hi, joined, leftHeld]

end

theorem inFlightWaits : Claims.InFlightWaits := by
  intro s p a d
  refine ⟨fun hq => ?_, fun hq => ⟨?_, ?_⟩, fun h => ?_, fun hq hc hh => ?_, fun h rest ht hc hh hp hpos => ?_⟩
  · rw [exec_sCnt]
    exact actOrWait_group (if_pos (Group.lanesIdle_of_queue hq))
  · rw [exec_sCnt]
    exact actOrWait_wait (if_neg (by simp [State.mach, Group.not_lanesIdle hq]))
  · rw [exec_sWait]
    exact actOrWait_wait (waitPath_lanes hq)
  · rw [exec_sWait]
    exact actOrWait_wait (waitPath_above h)
  · rw [exec_sWait]
    exact actOrWait_dev (waitPath_joins hq hc hh) rfl
  · obtain ⟨hq, hi, hv⟩ := ht
    have htrap := waitPath_traps (m := s.mach) hq hi hc hh hp hpos
    rw [takeTrap_trapped _ _ hi hv] at htrap
    rw [exec_sWait]
    exact ⟨_, actOrWait_dev htrap rfl, rfl, rfl, rfl, rfl, rfl, rfl, rfl, not_mem_leftHeld h _ p⟩

end Sys2Proof.Machine

namespace Sys2Proof

/-- Settles O3: a wait that may go on joins first, and then takes the first held trap that its threshold covers. -/
theorem inFlightWaits : Obligations.InFlightWaits := Machine.inFlightWaits

end Sys2Proof
end

section
/-! ## Integers in lanes: reading, placing, wrapping and saturating, division, and the rounding of a magnitude -/

namespace Sys2Proof.Machine

/-! ### Reading and placing an integer (R40, R42) -/

theorem tyWidth_bounds (ty : Nat) : 8 ≤ tyWidth ty ∧ tyWidth ty ≤ 64 := by
  unfold tyWidth
  split <;> omega

theorem tyIsFp_of_le {ty : Nat} (h : ty ≤ 7) : tyIsFp ty = false := by
  have : ∀ t, t ≤ 7 → tyIsFp t = false := by decide
  exact this ty h

/-- An exact integer brought to a type by wrapping. -/
def wrapTo (ty : Nat) (e : Int) : Int := if ty ≤ 3 then e.bmod (2 ^ tyWidth ty) else e % (2 ^ tyWidth ty : Nat)

theorem readInt_eq_wrapTo (ty : Nat) (x : Word) : readInt ty x = wrapTo ty x.toNat := by
  unfold readInt wrapTo tySigned
  by_cases h : ty ≤ 3
  · simp only [h, decide_true, if_true, BitVec.toInt_eq_toNat_bmod, BitVec.extractLsb'_toNat, Nat.shiftRight_zero, Int.natCast_emod]
    exact Int.emod_bmod _ _
  · simp [h, BitVec.extractLsb'_toNat]

/-- The two bounds of a type, as the statements write them. -/
def tyLo (ty : Nat) : Int := if ty ≤ 3 then -(2 ^ (tyWidth ty - 1) : Nat) else 0
def tyHi (ty : Nat) : Int := if ty ≤ 3 then (2 ^ (tyWidth ty - 1) : Nat) - 1 else (2 ^ tyWidth ty : Nat) - 1

theorem two_pow_width (ty : Nat) : 2 ^ tyWidth ty = 2 * 2 ^ (tyWidth ty - 1) ∧ 0 < 2 ^ (tyWidth ty - 1) := by
  have h := (tyWidth_bounds ty).1
  rw [← Nat.pow_succ', Nat.succ_eq_add_one, Nat.sub_add_cancel (by omega)]
  exact ⟨rfl, Nat.pow_pos (by decide)⟩

theorem intLo_eq (ty : Nat) : intLo (tySigned ty) (tyWidth ty) = tyLo ty := by
  by_cases h : ty ≤ 3 <;> simp [intLo, tyLo, tySigned, h]

theorem intHi_eq (ty : Nat) : intHi (tySigned ty) (tyWidth ty) = tyHi ty := by
  obtain ⟨h2, hpos⟩ := two_pow_width ty
  by_cases h : ty ≤ 3
  · simp only [intHi, tyHi, tySigned, h, decide_true, if_true]
    omega
  · simp only [intHi, tyHi, tySigned, h, decide_false, if_false, Bool.false_eq_true]
    omega

theorem wrapTo_range (ty : Nat) (e : Int) : tyLo ty ≤ wrapTo ty e ∧ wrapTo ty e ≤ tyHi ty := by
  obtain ⟨h2, hpos⟩ := two_pow_width ty
  unfold wrapTo tyLo tyHi
  split
  · have h1 := Int.le_bmod (x := e) (m := 2 ^ tyWidth ty) (by omega)
    have h3 := Int.bmod_lt (x := e) (m := 2 ^ tyWidth ty) (by omega)
    omega
  · have h1 := Int.emod_nonneg e (b := (2 ^ tyWidth ty : Nat)) (by omega)
    have h3 := Int.emod_lt_of_pos e (b := (2 ^ tyWidth ty : Nat)) (by omega)
    omega

theorem wrapTo_emod (ty : Nat) (e : Int) : wrapTo ty e % (2 ^ tyWidth ty : Nat) = e % (2 ^ tyWidth ty : Nat) := by
  unfold wrapTo
  split
  · exact Int.bmod_emod
  · exact Int.emod_emod_of_dvd e (dvd_refl _)

/-- Wrapping depends on the residue alone. -/
theorem wrapTo_congr {ty : Nat} {e e' : Int} (h : e % (2 ^ tyWidth ty : Nat) = e' % (2 ^ tyWidth ty : Nat)) :
    wrapTo ty e = wrapTo ty e' := by
  unfold wrapTo
  split
  · rw [← Int.emod_bmod (x := e), h, Int.emod_bmod]
  · exact h

theorem wrapTo_of_range {ty : Nat} {e : Int} (h1 : tyLo ty ≤ e) (h2 : e ≤ tyHi ty) : wrapTo ty e = e := by
  obtain ⟨hw, hpos⟩ := two_pow_width ty
  unfold wrapTo
  unfold tyLo at h1
  unfold tyHi at h2
  split
  · next h =>
    rw [if_pos h] at h1 h2
    exact Int.bmod_eq_of_le (by omega) (by omega)
  · next h =>
    rw [if_neg h] at h1 h2
    exact Int.emod_eq_of_lt h1 (by omega)

theorem readInt_range (ty : Nat) (x : Word) : tyLo ty ≤ readInt ty x ∧ readInt ty x ≤ tyHi ty := by
  rw [readInt_eq_wrapTo]
  exact wrapTo_range ty _

/-- A bit pattern of a type extended to 64 bits as R40 writes it. -/
def extendTo (ty : Nat) (x : BitVec (tyWidth ty)) : Word := if ty ≤ 3 then x.signExtend 64 else x.zeroExtend 64

theorem extract_extendTo (ty : Nat) (x : BitVec (tyWidth ty)) : (extendTo ty x).extractLsb' 0 (tyWidth ty) = x := by
  have hw := (tyWidth_bounds ty).2
  apply BitVec.eq_of_getLsbD_eq
  intro i hi
  unfold extendTo
  split <;> simp [BitVec.getElem_signExtend, hi, show i < 64 by omega]

theorem readInt_extendTo (ty : Nat) (x : BitVec (tyWidth ty)) : readInt ty (extendTo ty x) = wrapTo ty x.toNat := by
  rw [readInt_eq_wrapTo]
  apply wrapTo_congr
  have h := congrArg BitVec.toNat (extract_extendTo ty x)
  rw [BitVec.extractLsb'_toNat, Nat.shiftRight_zero] at h
  rw [← Int.natCast_emod, h, ← Int.natCast_emod, Nat.mod_eq_of_lt x.isLt]

theorem readInt_placeTy (ty n : Nat) : readInt ty (placeTy ty n) = wrapTo ty n := by
  refine (readInt_extendTo ty (BitVec.ofNat (tyWidth ty) n)).trans (wrapTo_congr ?_)
  rw [BitVec.toNat_ofNat]
  exact_mod_cast Nat.mod_mod n _

/-- An exact result in a type: a bound where it is out of range under SAT, else its low bits. -/
theorem intResult_eq (ty : Nat) (sat : Bool) (e : Int) : intResult (tySigned ty) (tyWidth ty) sat e =
    if sat = true ∧ e < tyLo ty then (extendTo ty (BitVec.ofInt (tyWidth ty) (tyLo ty)), 2)
    else if sat = true ∧ tyHi ty < e then (extendTo ty (BitVec.ofInt (tyWidth ty) (tyHi ty)), 2)
    else (extendTo ty (BitVec.ofInt (tyWidth ty) e), 0) := by
  simp only [intResult, intLo_eq, intHi_eq]
  simp [extendTo, tySigned, evOvf, evNone]

theorem readInt_ofInt (ty : Nat) (e : Int) : readInt ty (extendTo ty (BitVec.ofInt (tyWidth ty) e)) = wrapTo ty e := by
  rw [readInt_extendTo]
  apply wrapTo_congr
  rw [BitVec.toNat_ofInt, Int.toNat_of_nonneg (Int.emod_nonneg _ (by have := two_pow_width ty; omega))]
  exact Int.emod_emod_of_dvd e (dvd_refl _)

/-- Without saturation a result wraps and raises nothing. -/
theorem intResult_wraps (ty : Nat) (e : Int) :
    readInt ty (intResult (tySigned ty) (tyWidth ty) false e).1 = wrapTo ty e ∧
    (intResult (tySigned ty) (tyWidth ty) false e).2 = 0 := by
  simp [intResult_eq, readInt_ofInt]

/-- With saturation a result stops at the bounds, and OVF tells that it did. -/
theorem intResult_clips (ty : Nat) (e : Int) :
    readInt ty (intResult (tySigned ty) (tyWidth ty) true e).1 = max (tyLo ty) (min e (tyHi ty)) ∧
    (intResult (tySigned ty) (tyWidth ty) true e).2 = if e < tyLo ty ∨ tyHi ty < e then 2 else 0 := by
  have hle : tyLo ty ≤ tyHi ty := (wrapTo_range ty 0).1.trans (wrapTo_range ty 0).2
  rw [intResult_eq]
  by_cases h1 : e < tyLo ty
  · simp only [h1, and_self, true_or, if_true, and_true, readInt_ofInt]
    rw [wrapTo_of_range (le_refl _) hle]
    omega
  · by_cases h2 : tyHi ty < e
    · simp only [h1, h2, and_self, and_false, or_true, if_true, if_false, and_true, readInt_ofInt]
      rw [wrapTo_of_range hle (le_refl _)]
      omega
    · simp only [h1, h2, and_false, or_self, if_false, and_true, readInt_ofInt]
      rw [wrapTo_of_range (by omega) (by omega)]
      omega

/-- The results of integer operations are extended patterns of their type. -/
theorem intResult_extended (ty : Nat) (sat : Bool) (e : Int) :
    ∃ p, (intResult (tySigned ty) (tyWidth ty) sat e).1 = extendTo ty p := by
  rw [intResult_eq]
  split
  · exact ⟨_, rfl⟩
  · split <;> exact ⟨_, rfl⟩

theorem extendTo_eq_ofInt (ty : Nat) (p : BitVec (tyWidth ty)) : extendTo ty p =
    if ty ≤ 3 then BitVec.ofInt 64 (readInt ty (extendTo ty p)) else BitVec.ofNat 64 (readInt ty (extendTo ty p)).toNat := by
  rw [readInt, extract_extendTo, extendTo]
  by_cases h : ty ≤ 3
  · simp [h, tySigned, BitVec.signExtend]
  · simp [h, tySigned, BitVec.zeroExtend]

theorem bit_placeTy (ty n : Nat) {k : Nat} (hk : k < tyWidth ty) : bit (placeTy ty n) k = n.testBit k := by
  have h : (extendTo ty (BitVec.ofNat (tyWidth ty) n)).extractLsb' 0 (tyWidth ty) = _ := extract_extendTo ty _
  have hb := congrArg (fun x => x.getLsbD k) h
  simp only [BitVec.getLsbD_extractLsb', hk, decide_true, Bool.true_and, Nat.zero_add, BitVec.getLsbD_ofNat] at hb
  exact hb

theorem bit_lowPart (x : Word) {w k : Nat} (hk : k < w) : (x.toNat % 2 ^ w).testBit k = bit x k := by
  simp [Nat.testBit_mod_two_pow, hk, bit, BitVec.getLsbD]

/-! ### The pairable operations on integers (R113, R115) -/

theorem readInt_emod (ty : Nat) (x : Word) : readInt ty x % (2 ^ tyWidth ty : Nat) = (x.toNat % 2 ^ tyWidth ty : Nat) := by
  rw [readInt_eq_wrapTo, wrapTo_emod, Int.natCast_emod]

/-- An arithmetic shift right stays in the range of its type. -/
theorem shr_range {ty : Nat} {x : Int} (h1 : tyLo ty ≤ x) (h2 : x ≤ tyHi ty) (sh : Nat) :
    tyLo ty ≤ x / (2 ^ sh : Nat) ∧ x / (2 ^ sh : Nat) ≤ tyHi ty := by
  have hd : (1 : Int) ≤ (2 ^ sh : Nat) := by exact_mod_cast Nat.one_le_two_pow
  have hlo : tyLo ty ≤ 0 := (wrapTo_range ty 0).1.trans (by simp [wrapTo])
  have hhi : 0 ≤ tyHi ty := le_trans (by simp [wrapTo]) (wrapTo_range ty 0).2
  constructor
  · rw [Int.le_ediv_iff_mul_le (by omega)]
    nlinarith
  · have : x / (2 ^ sh : Nat) < tyHi ty + 1 := Int.ediv_lt_of_lt_mul (by omega) (by nlinarith)
    omega

section
variable {ty : Nat} (hty : ty ≤ 7) (o : NOp) (sat : Bool) (a b c : Word)
include hty

theorem pairable_int : pairable o ty 0 false sat a b c = { val := (intOp o ty sat a b c).1, ev := (intOp o ty sat a b c).2 } := by
  simp [pairable, tyIsFp_of_le hty]

/-- The value of every integer operation is an extended pattern. -/
theorem pairable_extended : ∃ p, (pairable o ty 0 false sat a b c).val = extendTo ty p := by
  rw [pairable_int hty]
  cases o
  case and | or | xor | shl | mov => exact ⟨_, rfl⟩
  all_goals exact intResult_extended ty _ _

end

theorem integerLaneOperations : Claims.IntegerLaneOperations := by
  intro ty sat a b c hty w x y z lo hi sh wraps clips
  have hx : lo ≤ x ∧ x ≤ hi := readInt_range ty a
  have hy : lo ≤ y ∧ y ≤ hi := readInt_range ty b
  have hz : lo ≤ z ∧ z ≤ hi := readInt_range ty c
  have hwrap {o : NOp} {e : Int} (h : intOp o ty false a b c = intResult (tySigned ty) (tyWidth ty) false e) : wraps o e := by
    obtain ⟨hv, he⟩ := intResult_wraps ty e
    simp only [wraps, pairable_int hty, h, hv, he, wrapTo_emod, w, and_self]
  have hclip {o : NOp} {e : Int} (h : intOp o ty true a b c = intResult (tySigned ty) (tyWidth ty) true e) : clips o e := by
    simp only [clips, pairable_int hty, h]
    exact intResult_clips ty e
  have hexact {o : NOp} {e : Int} (h : intOp o ty sat a b c = intResult (tySigned ty) (tyWidth ty) false e) (h1 : lo ≤ e)
      (h2 : e ≤ hi) : readInt ty (pairable o ty 0 false sat a b c).val = e := by
    rw [pairable_int hty, h, (intResult_wraps ty e).1, wrapTo_of_range h1 h2]
  have habs : ((readInt ty a).natAbs : Int) = |x| := Int.natCast_natAbs _
  have hmod : readInt ty a % (2 ^ tyWidth ty : Nat) = (a.toNat % 2 ^ tyWidth ty : Nat) := readInt_emod ty a
  refine ⟨hx, ⟨hwrap rfl, hwrap rfl, hwrap rfl, hwrap rfl, hwrap (habs ▸ rfl), hwrap rfl⟩,
    ⟨hclip rfl, hclip rfl, hclip rfl, hclip rfl, hclip (habs ▸ rfl), hclip rfl⟩,
    ⟨hexact rfl (by omega) (by omega), hexact rfl (by omega) (by omega), hexact rfl (by omega) (by omega), ?_, ?_, ?_, ?_⟩,
    fun k hk => ⟨?_, ?_, ?_⟩, fun o => ?_⟩
  · rw [pairable_int hty]
    refine (readInt_placeTy ty _).trans ?_
    rw [← wrapTo_of_range hx.1 hx.2]
    exact wrapTo_congr (by rw [hmod, Int.natCast_emod, Int.emod_emod])
  · rw [pairable_int hty]
    exact (congrArg (· % _) (intResult_wraps ty _).1).trans (wrapTo_emod ty _)
  · exact hexact rfl (shr_range hx.1 hx.2 sh).1 (shr_range hx.1 hx.2 sh).2
  · rw [pairable_int hty]
    refine (congrArg (· % _) (readInt_placeTy ty _)).trans ((wrapTo_emod ty _).trans ?_)
    rw [Nat.cast_mul, ← hmod]
    rw [Int.mul_emod, Int.emod_emod, ← Int.mul_emod]
  · rw [pairable_int hty]
    refine (bit_placeTy ty _ hk).trans ?_
    rw [Nat.testBit_and, bit_lowPart a hk, bit_lowPart b hk]
  · rw [pairable_int hty]
    refine (bit_placeTy ty _ hk).trans ?_
    rw [Nat.testBit_or, bit_lowPart a hk, bit_lowPart b hk]
  · rw [pairable_int hty]
    refine (bit_placeTy ty _ hk).trans ?_
    rw [Nat.testBit_xor, bit_lowPart a hk, bit_lowPart b hk]
  · obtain ⟨p, hp⟩ := pairable_extended hty o sat a b c
    rw [hp]
    exact extendTo_eq_ofInt ty p

/-! ### Division (R116) -/

theorem tyLo_le_zero (ty : Nat) : tyLo ty ≤ 0 := by
  unfold tyLo
  split <;> simp
theorem tyHi_nonneg (ty : Nat) : 0 ≤ tyHi ty := by
  obtain ⟨h2, hpos⟩ := two_pow_width ty
  unfold tyHi
  split <;> omega

/-- A remainder lies between 0 and the dividend. -/
theorem tmod_range {ty : Nat} {x : Int} (h1 : tyLo ty ≤ x) (h2 : x ≤ tyHi ty) (y : Int) :
    tyLo ty ≤ x.tmod y ∧ x.tmod y ≤ tyHi ty := by
  have hlo := tyLo_le_zero ty
  have hhi := tyHi_nonneg ty
  have habs : (x.tmod y).natAbs ≤ x.natAbs := by
    rw [Int.natAbs_tmod]
    exact Nat.mod_le ..
  rcases le_total 0 x with hx | hx
  · have := Int.tmod_nonneg y hx
    omega
  · have := Int.tmod_nonneg y (a := -x) (by omega)
    rw [Int.neg_tmod] at this
    omega

/-- A quotient stays in the range of its type, but for the least number by −1. -/
theorem tdiv_range {ty : Nat} {x y : Int} (hx1 : tyLo ty ≤ x) (hx2 : x ≤ tyHi ty) (hy1 : tyLo ty ≤ y)
    (h : ¬ (ty ≤ 3 ∧ x = tyLo ty ∧ y = -1)) : tyLo ty ≤ x.tdiv y ∧ x.tdiv y ≤ tyHi ty := by
  have habs : (x.tdiv y).natAbs = x.natAbs / y.natAbs := Int.natAbs_tdiv ..
  by_cases hs : ty ≤ 3
  · simp only [tyLo, tyHi, hs, if_true, true_and] at *
    by_cases hy : y = -1
    · subst hy
      rw [Int.tdiv_neg, Int.tdiv_one]
      omega
    · by_cases hy' : y = 1
      · subst hy'
        rw [Int.tdiv_one]
        omega
      · by_cases h0 : y = 0
        · subst h0
          rw [Int.tdiv_zero]
          omega
        · have : x.natAbs / y.natAbs ≤ x.natAbs / 2 := Nat.div_le_div_left (by omega) (by decide)
          omega
  · have hxn : 0 ≤ x := by simpa [tyLo, hs] using hx1
    have hyn : 0 ≤ y := by simpa [tyLo, hs] using hy1
    have := Int.tdiv_nonneg hxn hyn
    have : x.natAbs / y.natAbs ≤ x.natAbs := Nat.div_le_self ..
    have hlo := tyLo_le_zero ty
    omega

theorem divLane_zero {ty : Nat} (rem : Bool) (a : Word) {b : Word} (h : readInt ty b = 0) : divLane ty rem a b =
    { val := (intResult (tySigned ty) (tyWidth ty) false (if rem then readInt ty a else tyHi ty)).1, ev := evIdiv, dz := true } := by
  simp [divLane, h, intHi_eq]

theorem divLane_overflow {ty : Nat} (rem : Bool) {a b : Word} (hs : ty ≤ 3) (ha : readInt ty a = tyLo ty) (hb : readInt ty b = -1) :
    divLane ty rem a b =
      { val := (intResult (tySigned ty) (tyWidth ty) false (if rem then 0 else readInt ty a)).1, ev := evIdiv, dov := true } := by
  have hl := intLo_eq ty
  simp only [show tySigned ty = true by simpa [tySigned] using hs] at hl ⊢
  simp [divLane, ha, hb, hl, show tySigned ty = true by simpa [tySigned] using hs]

theorem divLane_exact {ty : Nat} (rem : Bool) {a b : Word} (h : readInt ty b ≠ 0)
    (ho : ¬ (ty ≤ 3 ∧ readInt ty a = tyLo ty ∧ readInt ty b = -1)) : divLane ty rem a b =
      { val := (intResult (tySigned ty) (tyWidth ty) false
          (if rem then (readInt ty a).tmod (readInt ty b) else (readInt ty a).tdiv (readInt ty b))).1 } := by
  have hc : (tySigned ty && decide (readInt ty a = intLo (tySigned ty) (tyWidth ty)) && decide (readInt ty b = -1)) = false := by
    rw [intLo_eq]
    simpa [tySigned, and_assoc] using ho
  simp [divLane, h, hc]

theorem integerLaneDivision : Claims.IntegerLaneDivision := by
  intro ty a b hty w x y q r ovf
  have hx : tyLo ty ≤ x ∧ x ≤ tyHi ty := readInt_range ty a
  have hy : tyLo ty ≤ y ∧ y ≤ tyHi ty := readInt_range ty b
  have hlo := tyLo_le_zero ty
  have hhi := tyHi_nonneg ty
  have hovf : ovf ↔ ty ≤ 3 ∧ x = tyLo ty ∧ y = -1 := and_congr_right fun h => by rw [tyLo, if_pos h]
  have hin {e : Int} (h : tyLo ty ≤ e ∧ e ≤ tyHi ty) : readInt ty (intResult (tySigned ty) (tyWidth ty) false e).1 = e := by
    rw [(intResult_wraps ty e).1, wrapTo_of_range h.1 h.2]
  by_cases h0 : y = 0
  · have hq : q = _ := divLane_zero false a h0
    have hr : r = _ := divLane_zero true a h0
    have hno : ¬ ovf := fun h => by have := hovf.1 h; omega
    refine ⟨fun _ => ⟨?_, ?_⟩, fun h => absurd h hno, fun h => absurd h0 h, ?_⟩
    · rw [hq]
      refine (hin ⟨hlo.trans hhi, le_refl _⟩).trans ?_
      obtain ⟨h2, hpos⟩ := two_pow_width ty
      simp only [tyHi, w]
      split <;> omega
    · rw [hr]
      exact hin hx
    · rintro o (rfl | rfl) <;> simp [hq, hr, h0, hno, evIdiv]
  · by_cases ho : ovf
    · obtain ⟨hs, hxl, hyl⟩ := hovf.1 ho
      have hq : q = _ := divLane_overflow false hs hxl hyl
      have hr : r = _ := divLane_overflow true hs hxl hyl
      refine ⟨fun h => absurd h h0, fun _ => ⟨?_, ?_⟩, fun _ h => absurd ho h, ?_⟩
      · rw [hq]
        exact hin hx
      · rw [hr]
        exact hin ⟨hlo, hhi⟩
      · rintro o (rfl | rfl) <;> simp [hq, hr, h0, ho, evIdiv]
    · have hno := fun h => ho (hovf.2 h)
      have hq : q = _ := divLane_exact false h0 hno
      have hr : r = _ := divLane_exact true h0 hno
      refine ⟨fun h => absurd h h0, fun h => absurd h ho, fun _ _ => ⟨?_, ?_⟩, ?_⟩
      · rw [hq]
        exact hin (tdiv_range hx.1 hx.2 hy.1 hno)
      · rw [hr]
        refine (hin (tmod_range hx.1 hx.2 y)).trans ?_
        rw [Int.tmod_def, Int.mul_comm]
      · rintro o (rfl | rfl) <;> simp [hq, hr, h0, ho, evNone]

/-! ### Rounding a magnitude to an integer (R46) -/

/-- The error of a rounding, from the quotient and the remainder. -/
theorem roundNat_error (rm : Nat) (neg : Bool) (n d : Nat) : (((roundNat rm neg n d).1 : Nat) : Int) * d - n =
    (if roundsUp rm neg (n / d) (n % d) d then (d : Int) else 0) - (n % d : Nat) := by
  have hdm : (d : Int) * (n / d : Nat) + (n % d : Nat) = n := by exact_mod_cast Nat.div_add_mod n d
  unfold roundNat
  dsimp only
  split
  · push_cast at hdm ⊢
    linarith
  · push_cast at hdm ⊢
    linarith

theorem roundingModes : Claims.RoundingModes := by
  intro neg n d hd m err
  have hr : n % d < d := Nat.mod_lt n hd
  have herr (rm : Nat) : err rm = _ := roundNat_error rm neg n d
  have hm0 : m 0 = (if roundsUp 0 neg (n / d) (n % d) d then n / d + 1 else n / d : Nat) := rfl
  refine ⟨?_, ?_, ?_, ?_, ?_, fun rm => by simp [roundNat], fun h rm => ?_⟩
  · rw [herr, hm0]
    simp only [roundsUp, Bool.or_eq_true, Bool.and_eq_true, decide_eq_true_eq]
    split
    · rw [abs_of_nonneg (by omega)]
      omega
    · rw [abs_of_nonpos (by omega)]
      omega
  · rw [herr]
    simp only [roundsUp, decide_eq_true_eq]
    split
    · rw [abs_of_nonneg (by omega)]
      omega
    · rw [abs_of_nonpos (by omega)]
      omega
  · rw [herr]
    simp only [roundsUp, Bool.false_eq_true, if_false]
    omega
  · rw [herr]
    cases neg <;> simp only [roundsUp, Bool.not_true, Bool.not_false, Bool.false_and, Bool.true_and, Bool.false_eq_true, if_false,
      if_true, decide_eq_true_eq]
    · split <;> omega
    · omega
  · rw [herr]
    cases neg <;> simp only [roundsUp, Bool.false_and, Bool.true_and, Bool.false_eq_true, if_false, if_true, decide_eq_true_eq]
    · omega
    · split <;> omega
  · have hup : roundsUp rm neg (n / d) 0 d = false := by
      unfold roundsUp
      split <;> simp <;> omega
    have := herr rm
    rw [h, hup] at this
    simp only [err] at this
    simpa using Int.eq_of_sub_eq_zero (by simpa using this)

end Sys2Proof.Machine

namespace Sys2Proof

/-- Settles O22: an integer result wraps or saturates to its type, and a rounding's error is that of the remainder. -/
theorem laneIntegerArithmetic : Obligations.LaneIntegerArithmetic :=
  ⟨Machine.integerLaneOperations, Machine.integerLaneDivision, Machine.roundingModes⟩

end Sys2Proof
end

section
/-! ## What accesses at the homes of memory leave unchanged (R263, R386) -/

namespace Sys2Proof

/-- A table whose entries are changed in place reads the changed value, where the default stays. -/
theorem Tab.find?_map {α β : Type} (t : Tab α) (f : α → β) (k : Nat) :
    Tab.find? (t.map fun e => (e.1, f e.2)) k = (t.find? k).map f := by
  induction t with
  | nil => rfl
  | cons e t ih =>
    rw [List.map_cons, Tab.find?, Tab.find?]
    split
    · rfl
    · exact ih

theorem Tab.getD_map {α : Type} (t : Tab α) (f : α → α) (k : Nat) {d : α} (h : f d = d) :
    Tab.getD (t.map fun e => (e.1, f e.2)) k d = f (t.getD k d) := by
  rw [Tab.getD, Tab.find?_map, Tab.getD]
  cases t.find? k with
  | none => exact h.symm
  | some x => rfl

end Sys2Proof

namespace Sys2Proof.Machine

@[simp] theorem Dev.core_setCore (d : Dev) (k : Nat) (x : Core) : (d.setCore k x).core k = x := Tab.getD_set_self ..
@[simp] theorem Dev.die_setDie (d : Dev) (k : Nat) (x : Die) : (d.setDie k x).die k = x := Tab.getD_set_self ..
theorem Dev.die_setDie_ne (d : Dev) {k j : Nat} (x : Die) (h : k ≠ j) : (d.setDie k x).die j = d.die j := Tab.getD_set_ne _ _ _ _ h
@[simp] theorem Dev.team_setTeam (d : Dev) (k : Nat) (x : Team) : (d.setTeam k x).team k = x := Tab.getD_set_self ..
theorem Dev.team_setTeam_ne (d : Dev) {k j : Nat} (x : Team) (h : k ≠ j) : (d.setTeam k x).team j = d.team j :=
  Tab.getD_set_ne _ _ _ _ h
@[simp] theorem Dev.launch_setLaunch (d : Dev) (k : Nat) (x : Launch) : (d.setLaunch k x).launch k = x := Tab.getD_set_self ..
theorem Dev.launch_setLaunch_ne (d : Dev) {k j : Nat} (x : Launch) (h : k ≠ j) : (d.setLaunch k x).launch j = d.launch j :=
  Tab.getD_set_ne _ _ _ _ h
@[simp] theorem Dev.cluster_setCluster (d : Dev) (k : Nat) (x : Cluster) : (d.setCluster k x).cluster k = x := Tab.getD_set_self ..

/-- The host holds no line of a device. -/
def hostClear (d : Dev) : Prop := ∀ l, d.pkg.hostHeld.getD l false = false

/-- What coherence and storage errors do to a device leaves the groups, teams, launches, contexts, clusters, queues and requests alone, and every byte of
memory; it asks the host for a line only where the host may hold one. -/
structure HomeWork (d d' : Dev) : Prop where
  rest : { d' with cores := d.cores, lines := d.lines, dies := d.dies, mem := d.mem, errors := d.errors, pkg := d.pkg } = d
  pkg : { d'.pkg with log := d.pkg.log, logSeq := d.pkg.logSeq, asking := d.pkg.asking } = d.pkg
  asking : hostClear d → d'.pkg.asking = d.pkg.asking
  byte : ∀ a, d'.mem.byte a = d.mem.byte a
  tag : ∀ g, d'.mem.tag g = d.mem.tag g
  coll : ∀ k, (d'.die k).coll = (d.die k).coll
  sound : d.errors = [] → d'.errors = [] ∧ d'.mem = d.mem

namespace HomeWork

theorem refl (d : Dev) : HomeWork d d := ⟨rfl, rfl, fun _ => rfl, fun _ => rfl, fun _ => rfl, fun _ => rfl, fun h => ⟨h, rfl⟩⟩

variable {d d' d'' : Dev} (h : HomeWork d d')
include h

theorem groups : d'.groups = d.groups := (congrArg Dev.groups h.rest :)
theorem teams : d'.teams = d.teams := (congrArg Dev.teams h.rest :)
theorem launches : d'.launches = d.launches := (congrArg Dev.launches h.rest :)
theorem ctxs : d'.ctxs = d.ctxs := (congrArg Dev.ctxs h.rest :)
theorem clusters : d'.clusters = d.clusters := (congrArg Dev.clusters h.rest :)
theorem parts : d'.parts = d.parts := (congrArg Dev.parts h.rest :)
theorem remotes : d'.remotes = d.remotes := (congrArg Dev.remotes h.rest :)
theorem syncs : d'.syncs = d.syncs := (congrArg Dev.syncs h.rest :)
theorem hostHeld : d'.pkg.hostHeld = d.pkg.hostHeld := (congrArg Pkg.hostHeld h.pkg :)
theorem events : d'.pkg.events = d.pkg.events := (congrArg Pkg.events h.pkg :)

theorem clear (hc : hostClear d) : hostClear d' := fun l => by rw [h.hostHeld, hc l]

theorem trans (h' : HomeWork d' d'') : HomeWork d d'' where
  rest := (congrArg (fun x : Dev =>
    { x with cores := d.cores, lines := d.lines, dies := d.dies, mem := d.mem, errors := d.errors, pkg := d.pkg }) h'.rest :).trans h.rest
  pkg := (congrArg (fun x : Pkg => { x with log := d.pkg.log, logSeq := d.pkg.logSeq, asking := d.pkg.asking }) h'.pkg :).trans h.pkg
  asking hc := (h'.asking (h.clear hc)).trans (h.asking hc)
  byte a := (h'.byte a).trans (h.byte a)
  tag g := (h'.tag g).trans (h.tag g)
  coll k := (h'.coll k).trans (h.coll k)
  sound he := ⟨(h'.sound (h.sound he).1).1, (h'.sound (h.sound he).1).2.trans (h.sound he).2⟩

end HomeWork

theorem HomeWork.foldl {α : Type} {f : Dev → α → Dev} (hf : ∀ d x, HomeWork d (f d x)) (l : List α) (d : Dev) :
    HomeWork d (l.foldl f d) := by
  induction l generalizing d with
  | nil => exact HomeWork.refl d
  | cons x l ih => exact (hf d x).trans (ih (f d x))

theorem setLine_homeWork (d : Dev) (l : Nat) (x : Line) : HomeWork d (d.setLine l x) :=
  ⟨rfl, rfl, fun _ => rfl, fun _ => rfl, fun _ => rfl, fun _ => rfl, fun h => ⟨h, rfl⟩⟩
theorem setCore_homeWork (d : Dev) (k : Nat) (x : Core) : HomeWork d (d.setCore k x) :=
  ⟨rfl, rfl, fun _ => rfl, fun _ => rfl, fun _ => rfl, fun _ => rfl, fun h => ⟨h, rfl⟩⟩
theorem setDie_homeWork (d : Dev) (k : Nat) {x : Die} (hx : x.coll = (d.die k).coll) : HomeWork d (d.setDie k x) where
  rest := rfl
  pkg := rfl
  asking _ := rfl
  byte _ := rfl
  tag _ := rfl
  sound h := ⟨h, rfl⟩
  coll j := by
    by_cases hj : k = j
    · subst hj
      rw [Dev.die_setDie, hx]
    · rw [Dev.die_setDie_ne d x hj]

theorem byte_poisonLine (m : Mem) (l : Nat) (mask : BitVec 4) (a : Nat) : (m.poisonLine l mask).byte a = m.byte a :=
  Mem.foldl_byte _ (fun _ _ _ => by split <;> rfl) _ m a
theorem tag_poisonLine (m : Mem) (l : Nat) (mask : BitVec 4) (g : Nat) : (m.poisonLine l mask).tag g = m.tag g := by
  unfold Mem.poisonLine
  generalize List.range 4 = is
  induction is generalizing m with
  | nil => rfl
  | cons i is ih =>
    rw [List.foldl_cons, ih]
    split <;> rfl

theorem wake_homeWork (d : Dev) (die : Nat) : HomeWork d (wake d die) := by
  unfold wake
  split
  · exact setDie_homeWork d die rfl
  · exact HomeWork.refl d

theorem recallCopy_homeWork (d : Dev) (die l : Nat) : HomeWork d (recallCopy d die l) := by
  unfold recallCopy
  dsimp only
  split
  · exact HomeWork.refl d
  · split
    · exact setLine_homeWork d l _
    · exact (setCore_homeWork d _ _).trans (setLine_homeWork _ l _)

theorem raiseRmax_homeWork (d : Dev) (die t : Nat) : HomeWork d (raiseRmax d die t) := setDie_homeWork d die rfl
theorem noteFeTime_homeWork (d : Dev) (die t : Nat) : HomeWork d (noteFeTime d die t) := setDie_homeWork d die rfl

theorem postmark_homeWork (d : Dev) (ty part ctx detail : Nat) : HomeWork d (postmark d ty part ctx detail) :=
  ⟨rfl, rfl, fun _ => rfl, fun _ => rfl, fun _ => rfl, fun _ => rfl, fun h => ⟨h, rfl⟩⟩

/-- An error of a line is met: sectors of the line may be poisoned. -/
theorem errorMet_homeWork {d : Dev} (h : d.errors ≠ []) (l : Nat) (mask : BitVec 4) :
    HomeWork d { d with errors := d.errors.erase l, mem := d.mem.poisonLine l mask } :=
  ⟨rfl, rfl, fun _ => rfl, byte_poisonLine _ _ _, tag_poisonLine _ _ _, fun _ => rfl, fun he => absurd he h⟩

theorem meetErrors_homeWork (d : Dev) (l : Nat) : HomeWork d (meetErrors d l) := by
  unfold meetErrors
  split
  · next e home he _ =>
    have hne : d.errors ≠ [] := fun h => by simp [h] at he
    have hmet (x : Die) (hx : x.coll = (d.die home).coll) (mask : BitVec 4) :
        HomeWork d { d.setDie home x with errors := d.errors.erase l, mem := d.mem.poisonLine l mask } :=
      (setDie_homeWork d home hx).trans (errorMet_homeWork (d := d.setDie home x) hne l mask)
    dsimp only
    split
    · split
      · exact hmet _ (by rfl) 15
      · split
        · exact (hmet _ (by rfl) 15).trans (postmark_homeWork _ _ _ _ _)
        · exact hmet _ (by rfl) _
    · exact hmet _ (by rfl) _
  · exact HomeWork.refl d

theorem touchWatches_homeWork (d : Dev) (l : Nat) : HomeWork d (touchWatches d l) where
  rest := rfl
  pkg := rfl
  asking _ := rfl
  byte _ := rfl
  tag _ := rfl
  sound h := ⟨h, rfl⟩
  coll k := (congrArg Die.coll (Tab.getD_map d.dies (fun x : Die => { x with slots := x.slots.map fun q =>
    (q.1, if q.2.watchLine = some l then { q.2 with watch := true } else q.2) }) k (d := {}) rfl) :)

theorem askBack_homeWork (d : Dev) (l : Nat) : HomeWork d (askBack d l) := by
  unfold askBack
  split
  · next h => exact ⟨rfl, rfl, fun hc => by simp [hc l] at h, fun _ => rfl, fun _ => rfl, fun _ => rfl, fun h => ⟨h, rfl⟩⟩
  · exact HomeWork.refl d

theorem homeStore_homeWork (d : Dev) (a n : Nat) (offDie : Bool) : HomeWork d (homeStore d a n offDie) := by
  unfold homeStore
  split
  · exact HomeWork.refl d
  · next home _ =>
    have hline (x : Line) := ((((wake_homeWork d home).trans (recallCopy_homeWork _ home (a / 128))).trans
      (meetErrors_homeWork _ (a / 128))).trans (setLine_homeWork _ (a / 128) x))
    refine .trans ?_ ((touchWatches_homeWork _ _).trans (askBack_homeWork _ _))
    split
    · exact (hline _).trans (raiseRmax_homeWork _ _ _)
    · exact hline _

theorem homeRead_homeWork (d : Dev) (a : Nat) : HomeWork d (homeRead d a) := by
  unfold homeRead
  split
  · exact HomeWork.refl d
  · exact ((wake_homeWork d _).trans (recallCopy_homeWork _ _ _)).trans (meetErrors_homeWork _ _)

theorem homesTake_homeWork (d : Dev) (die la n : Nat) : HomeWork d (homesTake d die la n) := by
  unfold homesTake
  exact HomeWork.foldl (fun d (r : Nat × Nat) => homeStore_homeWork d r.1 r.2 _) _ d

end Sys2Proof.Machine
end

section
/-! ## System words, the check words, and the end of a group and of its team -/

namespace Sys2Proof.Machine

/-! ### The check words (R184) -/

theorem exec_chkErr (d : SReg) (s : State) : exec (.chkErr d) s =
    actOrWait (fun _ => afterLanes fun m => some { m with g := m.g.result d (m.d.ctx m.g.ctx).cki }) s := rfl
theorem exec_chkErrT (d : SReg) (s : State) : exec (.chkErrT d) s =
    actOrWait (fun _ => afterLanes fun m => if (m.d.ctx m.g.ctx).psn then scalarTrap m cPOISON
      else some { m with g := m.g.result d (m.d.ctx m.g.ctx).cki }) s := rfl
theorem exec_chkClr (s : State) : exec .chkClr s = actOrWait (fun _ => afterLanes fun m =>
    some { g := m.g.advance, d := m.d.setCtx m.g.ctx (m.d.ctx m.g.ctx).chkClr }) s := rfl

theorem afterLanes_idle (f : Mach → Option Mach) {m : Mach} (hq : m.g.queue = []) : afterLanes f m = f m :=
  if_pos (Group.lanesIdle_of_queue hq)
theorem afterLanes_busy (f : Mach → Option Mach) {m : Mach} (hq : m.g.queue ≠ []) : afterLanes f m = none :=
  if_neg (by simp [Group.not_lanesIdle hq])

theorem checkWords : Claims.CheckWords := by
  intro s d x
  refine ⟨fun hq => ⟨?_, fun hp => ?_, ?_⟩, fun ht hp => ?_, fun hq => ⟨?_, ?_, ?_⟩⟩
  · rw [exec_chkErr]
    exact actOrWait_group (afterLanes_idle _ hq)
  · rw [exec_chkErrT]
    exact actOrWait_group ((afterLanes_idle _ hq).trans (if_neg (by simpa using hp)))
  · rw [exec_chkClr]
    exact actOrWait_dev (afterLanes_idle _ hq) rfl
  · rw [exec_chkErrT]
    exact actOrWait_trap ((afterLanes_idle _ ht.1).trans (if_pos hp)) ht
  · rw [exec_chkErr]
    exact actOrWait_wait (afterLanes_busy _ hq)
  · rw [exec_chkErrT]
    exact actOrWait_wait (afterLanes_busy _ hq)
  · rw [exec_chkClr]
    exact actOrWait_wait (afterLanes_busy _ hq)

/-! ### `sys.time` (R106) -/

/-- The clocks of the four dies have gone on by n. -/
theorem foldl_time (n j : Nat) (L : List Nat) (hL : L.Nodup) (t : Tab Die) :
    ((L.foldl (fun t' k => t'.set k { t'.getD k {} with time := (t'.getD k {}).time + n } {}) t).getD j {}).time =
      (t.getD j {}).time + if j ∈ L then n else 0 := by
  induction L generalizing t with
  | nil => simp
  | cons k L ih =>
    obtain ⟨hk, hL⟩ := List.nodup_cons.1 hL
    rw [List.foldl_cons, ih hL]
    by_cases hj : k = j
    · subst hj
      simp [hk]
    · rw [Tab.getD_set_ne _ _ _ _ hj]
      simp [Ne.symm hj]

/-- A scalar register after a write; `s0` keeps reading zero. -/
theorem rs_setS (g : Group) (k j : Nat) (x : Word) : (g.setS k x).rs j = if j = k ∧ j ≠ 0 then x else g.rs j := by
  unfold Group.rs Group.setS
  by_cases hj : j = 0
  · simp [hj]
  · by_cases hk : k = 0
    · simp [hj, hk]
    · simp only [hj, hk, if_false, Tab.getD_set, ne_eq, not_false_eq_true, and_true, eq_comm]

theorem onlyReg_result (g : Group) (d : SReg) (x : Word) : onlyReg g (g.result d x) d x :=
  ⟨fun k => rs_setS g d.toNat k x, congrArg (· + 4) (Group.setS_pc g d.toNat x)⟩

theorem exec_sysTime (d : SReg) (s : State) : exec (.sysTime d) s = execSysTime d s := rfl

theorem sysTime_runs (s : State) (d : SReg) : ∃ t n, exec (.sysTime d) s = .next t ∧
    onlyReg s.grp t.grp d (BitVec.ofNat 64 ((s.dev.die 0).time + n)) ∧ t.dev.mem = s.dev.mem ∧
    ∀ j, j < 4 → (t.dev.die j).time = (s.dev.die j).time + n := by
  refine ⟨_, (Config.freeValue s.fresh).toNat, exec_sysTime d s, onlyReg_result .., rfl, fun j hj => ?_⟩
  exact (foldl_time _ j _ List.nodup_range s.dev.dies).trans (by rw [if_pos (List.mem_range.2 hj)]; rfl)

/-! ### The capability of `s.tail` (R106) -/

theorem has_pX (c : Cap) : c.has pX = !decide (c.perms &&& 16 = 0) := by
  have h : c.perms &&& 16#12 = if bit c.perms 4 then 16#12 else 0#12 := BitVec.and_twoPow c.perms 4
  simp only [Cap.has, pX]
  change (c.perms &&& 16#12 == 16#12) = !decide (c.perms &&& 16#12 = 0#12)
  rw [h]
  cases bit c.perms 4 <;> decide

theorem tailFault_eq (c : Cap) : tailFault c = tailCause c := by
  simp only [tailFault, tailCause, has_pX, Bool.not_not, Bool.not_eq_true', decide_eq_true_eq]
  rfl

/-! ### The end of a group (R106, R66, R211) -/

theorem exec_sysEnd (s : State) : exec .sysEnd s = actOrWait (fun _ m => groupEnd none m) s := rfl
theorem exec_sTail (a : CReg) (s : State) : exec (.sTail a) s = actOrWait (fun _ m => sTail a m) s := rfl

theorem sTail_traps {a : CReg} {m : Mach} {cause : Nat} (h : tailCause (m.g.rc a.toNat) = some cause) :
    sTail a m = scalarTrap m cause := by
  simp only [sTail, tailFault_eq, h]
theorem sTail_ends {a : CReg} {m : Mach} (h : tailCause (m.g.rc a.toNat) = none) :
    sTail a m = groupEnd (some (m.g.rc a.toNat)) (dropElig m) := by
  simp only [sTail, tailFault_eq, h]

section
variable {tail : Option Cap} {m : Mach}

theorem groupEnd_wait (h : m.g.queue ≠ [] ∨ m.g.flights ≠ []) : groupEnd tail m = none := by
  refine if_pos ?_
  simpa [Group.lanesIdle] using h

/-- The held traps that stay at an end. -/
theorem groupEnd_traps {h : Held} {rest : List Held} (hq : m.g.queue = []) (hf : m.g.flights = []) (hh : m.g.heldTraps = h :: rest) :
    groupEnd tail m = some (takeTrap { m with g := { m.g with heldTraps := leftHeld h (h :: rest) h.path } }
      { code := h.code, nevc := h.nevc, path := pathCode h.path, tspc := m.g.pc }) := by
  simp [groupEnd, Group.lanesIdle_of_queue hq, hf, hh, leftHeld]

theorem groupEnd_leaves (hq : m.g.queue = []) (hf : m.g.flights = []) (hh : m.g.heldTraps = []) :
    groupEnd tail m = some (groupLeaves m tail) := by
  simp [groupEnd, Group.lanesIdle_of_queue hq, hf, hh]

end

/-! ### A group leaves its ids and its team (R211, R283) -/

/-- Leaving ids changes the group's roles and ordinals, and the recordings of contexts and the routes of cores. -/
structure LeavesIds (m m' : Mach) : Prop where
  group : ∃ r o, m'.g = { m.g with roles := r, ords := o }
  dev : ∃ x c, m'.d = { m.d with ctxs := x, cores := c }
  endact : ∀ k, (m'.d.ctx k).endact = (m.d.ctx k).endact

theorem LeavesIds.refl (m : Mach) : LeavesIds m m := ⟨⟨_, _, rfl⟩, ⟨_, _, rfl⟩, fun _ => rfl⟩

theorem LeavesIds.trans {m m' m'' : Mach} (h : LeavesIds m m') (h' : LeavesIds m' m'') : LeavesIds m m'' := by
  obtain ⟨⟨r, o, hg⟩, ⟨x, c, hd⟩, he⟩ := h
  obtain ⟨⟨r', o', hg'⟩, ⟨x', c', hd'⟩, he'⟩ := h'
  exact ⟨⟨r', o', by rw [hg', hg]⟩, ⟨x', c', by rw [hd', hd]⟩, fun k => (he' k).trans (he k)⟩

/-- A context written back with its ENDACT. -/
theorem setCtx_endact (d : Dev) (k : Nat) {x : Ctx} (hx : x.endact = (d.ctx k).endact) (j : Nat) :
    ((d.setCtx k x).ctx j).endact = (d.ctx j).endact := by
  by_cases hj : k = j
  · subst hj
    rw [Dev.ctx_setCtx, hx]
  · exact congrArg Ctx.endact (Tab.getD_set_ne _ _ _ _ hj)

theorem departRoute_leavesIds (g : Group) (d : Dev) (die k i : Nat) (r : Route) : LeavesIds ⟨g, d⟩ ⟨g, departRoute d die k i r⟩ := by
  unfold departRoute
  split
  · exact LeavesIds.refl _
  · refine ⟨⟨_, _, rfl⟩, ⟨_, _, rfl⟩, setCtx_endact _ r.ctx ?_⟩
    rfl

theorem foldl_leavesIds {α : Type} (g : Group) {f : Dev → α → Dev} (hf : ∀ d x, LeavesIds ⟨g, d⟩ ⟨g, f d x⟩) (l : List α) (d : Dev) :
    LeavesIds ⟨g, d⟩ ⟨g, l.foldl f d⟩ := by
  induction l generalizing d with
  | nil => exact LeavesIds.refl _
  | cons x l ih => exact (hf d x).trans (ih (f d x))

theorem LeavesIds.setRoles {m : Mach} {d : Dev} (h : LeavesIds m ⟨m.g, d⟩) (r : Tab Role) (o : Tab Nat) :
    LeavesIds m ⟨{ m.g with roles := r, ords := o }, d⟩ := ⟨⟨r, o, rfl⟩, h.dev, h.endact⟩

theorem leaveId_leavesIds (m : Mach) (i : Nat) : LeavesIds m (leaveId m i) := by
  unfold leaveId
  dsimp only
  split
  · exact LeavesIds.refl m
  · refine LeavesIds.setRoles ?_ _ _
    have hctx (x : Ctx) (hx : x.endact = (m.d.ctx m.g.ctx).endact) : LeavesIds m ⟨m.g, m.d.setCtx m.g.ctx x⟩ :=
      ⟨⟨_, _, rfl⟩, ⟨_, _, rfl⟩, setCtx_endact _ _ hx⟩
    split
    · refine (hctx _ (by rfl)).trans (foldl_leavesIds m.g (fun d e => ?_) _ _)
      split
      · exact departRoute_leavesIds ..
      · exact LeavesIds.refl _
    · exact hctx _ (by rfl)

theorem leaveAll_leavesIds (m : Mach) : LeavesIds m (leaveAll m) := by
  unfold leaveAll
  generalize List.range 16 = ids
  induction ids generalizing m with
  | nil => exact LeavesIds.refl m
  | cons i ids ih => exact (leaveId_leavesIds m i).trans (ih _)

/-- A barrier that completes writes registers of groups and times of cores; a group that has left takes no part. -/
theorem barrierComplete_gone {m : Mach} (team : Nat) (h : m.g.live = false) :
    (barrierComplete m team).g = m.g ∧ ∃ c gs, (barrierComplete m team).d = { m.d with cores := c, groups := gs } := by
  unfold barrierComplete
  split
  · exact ⟨rfl, _, _, rfl⟩
  · have hd : ∀ (l : List Nat) (t : Nat) (d : Dev), ∃ c, l.foldl (fun d k => raisePts d k t) d = { d with cores := c } := by
      intro l t
      induction l with
      | nil => exact fun d => ⟨_, rfl⟩
      | cons k l ih =>
        intro d
        obtain ⟨c, hc⟩ := ih (raisePts d k t)
        exact ⟨c, hc⟩
    obtain ⟨c, hc⟩ := hd (((m.groupsOf team).map fun g => coreKey g.die g.core).dedup)
      ((((m.groupsOf team).map fun g => coreKey g.die g.core).dedup).foldl (fun acc k => max acc (m.d.core k).pts) 0) m.d
    refine ⟨?_, c, ?_⟩
    · simp [completeBarrier, Mach.onGroups, h]
    · simp only [completeBarrier, Mach.onGroups, hc]
      exact ⟨_, rfl⟩

/-- The team that a group leaves behind. -/
def teamLeft (g : Group) (t : Team) (tail : Option Cap) : Team := { t with
  members := t.members.filter (· ≠ g.gid), freed := if t.tails.isEmpty && tail.isNone then (g.core, g.slot) :: t.freed else t.freed
  tails := t.tails ++ (tail.map fun c => (g.index, c)).toList
  endRegs := t.endRegs ++ [(g.index, g.s, g.c)], endCrc := t.endCrc + g.dualSt.crc, endHold := t.endHold ++ g.dualSt.hold
  owed := t.owed || g.dualSt.owed }

/-- The machine after a group has left its team: the group is gone, and the team's record is `teamLeft`. -/
structure GroupLeft (m : Mach) (tail : Option Cap) (m' : Mach) : Prop where
  gone : m'.g.live = false
  team : m'.d.team m.g.team = teamLeft m.g (m.d.team m.g.team) tail
  dev : ∃ x c ts gs, m'.d = { m.d with ctxs := x, cores := c, teams := ts, groups := gs }
  endact : ∀ k, (m'.d.ctx k).endact = (m.d.ctx k).endact

/-- A group that has left its ids leaves its team; a barrier that waited for it alone completes. -/
def leaveTeam (m m1 : Mach) (tail : Option Cap) : Mach :=
  barrierComplete ⟨m1.g.gone, m1.d.setTeam m.g.team (teamLeft m.g (m.d.team m.g.team) tail)⟩ m.g.team

theorem leaveTeam_left {m m1 : Mach} (h : LeavesIds m m1) (tail : Option Cap) : GroupLeft m tail (leaveTeam m m1 tail) := by
  obtain ⟨-, ⟨x, c, hd⟩, he⟩ := h
  obtain ⟨hbg, c', gs, hbd⟩ := barrierComplete_gone
    (m := ⟨m1.g.gone, m1.d.setTeam m.g.team (teamLeft m.g (m.d.team m.g.team) tail)⟩) m.g.team rfl
  have hdev : (leaveTeam m m1 tail).d = { m.d with
      ctxs := x, cores := c', teams := (m.d.setTeam m.g.team (teamLeft m.g (m.d.team m.g.team) tail)).teams, groups := gs } := by
    rw [leaveTeam, hbd, hd]
    rfl
  refine ⟨congrArg Group.live hbg, ?_, ⟨x, c', _, gs, hdev⟩, fun k => ?_⟩
  · rw [hdev]
    exact Tab.getD_set_self ..
  · rw [← he k, hd, hdev]
    rfl

/-- The machine once the group on turn has left. -/
def afterLeaving (m : Mach) (tail : Option Cap) : Mach := leaveTeam m (leaveAll m) tail

theorem afterLeaving_left (m : Mach) (tail : Option Cap) : GroupLeft m tail (afterLeaving m tail) :=
  leaveTeam_left (leaveAll_leavesIds m) tail

theorem groupLeaves_eq (m : Mach) (tail : Option Cap) : groupLeaves m tail =
    if (teamLeft m.g (m.d.team m.g.team) tail).members.isEmpty && (m.d.team m.g.team).partner.isNone
    then teamEnds (afterLeaving m tail) m.g.team else afterLeaving m tail := by
  obtain ⟨⟨r, o, hg⟩, ⟨x, c, hd⟩, -⟩ := leaveAll_leavesIds m
  have hteam : (leaveAll m).d.team m.g.team = m.d.team m.g.team := by rw [hd]; rfl
  rw [groupLeaves, afterLeaving, leaveTeam]
  dsimp only
  rw [hteam]
  rfl

/-! ### The end of a team and of its launch (R211, R310) -/

/-- What the front end does where a launch ends leaves the teams alone, asks the host for nothing that the host does not hold, and keeps how many
teams of each launch have finished. -/
structure FrontWork (d d' : Dev) : Prop where
  teams : d'.teams = d.teams
  clear : hostClear d → hostClear d'
  asking : hostClear d → d'.pkg.asking = d.pkg.asking
  finished : ∀ k, (d'.launch k).finished = (d.launch k).finished

theorem FrontWork.trans {d d' d'' : Dev} (h : FrontWork d d') (h' : FrontWork d' d'') : FrontWork d d'' :=
  ⟨h'.teams.trans h.teams, fun hc => h'.clear (h.clear hc), fun hc => (h'.asking (h.clear hc)).trans (h.asking hc),
    fun k => (h'.finished k).trans (h.finished k)⟩

/-- A device that differs in nothing of this. -/
theorem FrontWork.of_eq {d d' : Dev} (ht : d'.teams = d.teams) (hp : d'.pkg.hostHeld = d.pkg.hostHeld) (ha : d'.pkg.asking = d.pkg.asking)
    (hl : d'.launches = d.launches) : FrontWork d d' :=
  ⟨ht, fun hc l => by rw [hp, hc l], fun _ => ha, fun k => by rw [Dev.launch, hl, Dev.launch]⟩

theorem FrontWork.refl (d : Dev) : FrontWork d d := .of_eq rfl rfl rfl rfl

theorem HomeWork.frontWork {d d' : Dev} (h : HomeWork d d') : FrontWork d d' :=
  ⟨h.teams, h.clear, h.asking, fun k => by rw [Dev.launch, h.launches, Dev.launch]⟩

theorem setLaunch_frontWork (d : Dev) (k : Nat) {x : Launch} (hx : x.finished = (d.launch k).finished) : FrontWork d (d.setLaunch k x) :=
  ⟨rfl, id, fun _ => rfl, fun j => by
    by_cases hj : k = j
    · subst hj
      rw [Dev.launch_setLaunch, hx]
    · rw [Dev.launch_setLaunch_ne d x hj]⟩

theorem post_frontWork (d : Dev) (ty src ctx : Nat) (lo hi : Word) : FrontWork d (post d ty src ctx lo hi) := .of_eq rfl rfl rfl rfl

theorem packetDone_frontWork (d : Dev) (q idx : Nat) : FrontWork d (packetDone d q idx) := by
  unfold packetDone
  split
  · exact FrontWork.refl d
  · dsimp only
    split <;> exact .of_eq rfl rfl rfl rfl

theorem closeLaunch_frontWork (d : Dev) (k : Nat) : FrontWork d (closeLaunch d k) := by
  unfold closeLaunch
  exact (setLaunch_frontWork d k (by rfl)).trans (packetDone_frontWork _ _ _)

theorem FrontWork.foldl {α : Type} {f : Dev → α → Dev} (hf : ∀ d x, FrontWork d (f d x)) (l : List α) (d : Dev) :
    FrontWork d (l.foldl f d) := by
  induction l generalizing d with
  | nil => exact FrontWork.refl d
  | cons x l ih => exact (hf d x).trans (ih (f d x))

theorem usePeer_frontWork (d : Dev) (c j : Nat) : FrontWork d (usePeer d c j) := by
  unfold usePeer
  dsimp only
  split <;> exact .of_eq rfl rfl rfl rfl

theorem sendRemote_frontWork (d : Dev) (ctx : Option Nat) (gid flight a n : Nat) (write : Option (List Byte)) (env : Bool) (wait : RemoteWait)
    (psn : List Bool) : FrontWork d (sendRemote d ctx gid flight a n write env wait psn) := by
  unfold sendRemote
  dsimp only
  refine FrontWork.trans ?_ (FrontWork.foldl (fun _ _ => ?_) _ _)
  · split
    · exact usePeer_frontWork _ _ _
    · exact FrontWork.refl d
  · exact .of_eq rfl rfl rfl rfl

theorem breakSeq_frontWork (d : Dev) (a n : Nat) : FrontWork d (breakSeq d a n) := by
  unfold breakSeq
  refine FrontWork.foldl (fun d b => ?_) _ d
  dsimp only
  split
  · split <;> exact .of_eq rfl rfl rfl rfl
  · exact FrontWork.refl d

theorem plainStore_frontWork (d : Dev) (a : Nat) (bs : List Byte) (p : Bool) : FrontWork d (plainStore d a bs p) := by
  unfold plainStore
  refine FrontWork.trans ?_ (breakSeq_frontWork _ _ _)
  exact .of_eq rfl rfl rfl rfl

theorem frontPerform_frontWork (d : Dev) (w : FrontWrite) : FrontWork d (frontPerform d w) := by
  have hrmax (d : Dev) : FrontWork d (if w.release then raiseRmax d w.die (d.die w.die).feTime else d) := by
    split
    · exact (raiseRmax_homeWork d _ _).frontWork
    · exact FrontWork.refl d
  unfold frontPerform
  dsimp only
  split
  · have h1 := hrmax d
    generalize (if w.release then raiseRmax d w.die (d.die w.die).feTime else d) = d1 at h1 ⊢
    refine h1.trans ?_
    cases w.closes with
    | none => exact sendRemote_frontWork ..
    | some k =>
      refine (sendRemote_frontWork d1 (some (d1.launch k).ctx) 0 0 w.a w.bytes.length (some w.bytes) false (.record k) []).trans
        (setLaunch_frontWork _ _ ?_)
      exact ((sendRemote_frontWork d1 _ _ _ _ _ _ _ _ _).finished k).symm
  · have h1 (t : Nat) : FrontWork d (noteFeTime (plainStore (homesTake d w.die (localAddr d w.a) w.bytes.length)
        (localAddr d w.a) w.bytes false) w.die t) :=
      ((homesTake_homeWork d _ _ _).frontWork.trans (plainStore_frontWork _ _ _ _)).trans (noteFeTime_homeWork _ _ t).frontWork
    cases w.closes with
    | none => exact (h1 _).trans (hrmax _)
    | some k => exact ((h1 _).trans (hrmax _)).trans (closeLaunch_frontWork _ k)

theorem frontPut_frontWork (d : Dev) (w : FrontWrite) : FrontWork d (frontPut d w) := by
  unfold frontPut
  split
  · have h1 : FrontWork d { d with frontOwed := d.frontOwed ++ [w] } := .of_eq rfl rfl rfl rfl
    refine h1.trans ?_
    cases w.closes with
    | none => exact FrontWork.refl _
    | some k => exact setLaunch_frontWork _ k (by rfl)
  · exact frontPerform_frontWork d w

/-- A launch that ends without the removal of its context (ENDACT not 2). -/
theorem endLaunch_frontWork (m : Mach) (k : Nat) (h : (m.d.ctx (m.d.launch k).ctx).endact ≠ 2) :
    (endLaunch m k).g = m.g ∧ FrontWork m.d (endLaunch m k).d := by
  unfold endLaunch
  dsimp only
  split
  · exact ⟨rfl, FrontWork.refl _⟩
  · rw [if_neg (by simpa using fun h' => absurd h' h)]
    refine ⟨rfl, ?_⟩
    have hw (x : Ctx) (bs : List Byte) : FrontWork m.d (writeCompletion (m.d.setCtx (m.d.launch k).ctx x) k bs) := by
      have h0 : FrontWork m.d (m.d.setCtx (m.d.launch k).ctx x) := .of_eq rfl rfl rfl rfl
      refine h0.trans ?_
      unfold writeCompletion
      dsimp only
      split
      · exact frontPut_frontWork _ _
      · exact closeLaunch_frontWork _ _
    dsimp only
    split
    · exact (hw _ _).trans (post_frontWork _ _ _ _ _ _)
    · exact hw _ _

/-- What the release of a node launch's teams leaves unchanged (R313): the launches, and what a context says of its end. -/
structure Released (d d' : Dev) : Prop where
  work : FrontWork d d'
  launches : d'.launches = d.launches
  endact : ∀ c, (d'.ctx c).endact = (d.ctx c).endact

theorem HomeWork.released {d d' : Dev} (h : HomeWork d d') : Released d d' :=
  ⟨h.frontWork, h.launches, fun c => by rw [Dev.ctx, h.ctxs, Dev.ctx]⟩

theorem Released.refl (d : Dev) : Released d d := (HomeWork.refl d).released

theorem Released.trans {d d' d'' : Dev} (h : Released d d') (h' : Released d' d'') : Released d d'' :=
  ⟨h.work.trans h'.work, h'.launches.trans h.launches, fun c => (h'.endact c).trans (h.endact c)⟩

theorem setCtx_released (d : Dev) (k : Nat) {x : Ctx} (hx : x.endact = (d.ctx k).endact) : Released d (d.setCtx k x) :=
  ⟨.of_eq rfl rfl rfl rfl, rfl, fun c => by
    by_cases hc : k = c
    · subst hc
      rw [Dev.ctx_setCtx, hx]
    · exact congrArg Ctx.endact (Tab.getD_set_ne _ _ _ _ hc)⟩

theorem frontAdd_released (d : Dev) (die ctx a add : Nat) : Released d (frontAdd d die ctx a add) := by
  unfold frontAdd
  dsimp only
  refine (homeRead_homeWork d a).released.trans ?_
  generalize homeRead d a = d
  split
  · exact setCtx_released d ctx (by rfl)
  · have htime (t : Nat) : Released d (noteFeTime (noteSync (homesTake d die a 16) a) die t) := by
      have hsync : Released (homesTake d die a 16) (noteSync (homesTake d die a 16) a) :=
        ⟨.of_eq rfl rfl rfl rfl, rfl, fun _ => rfl⟩
      exact ((homesTake_homeWork d die a 16).released.trans hsync).trans (noteFeTime_homeWork _ die t).released
    have hmem (d : Dev) (m : Mem) : Released d { d with mem := m } := ⟨.of_eq rfl rfl rfl rfl, rfl, fun _ => rfl⟩
    exact ((htime _).trans (hmem _ _)).trans (raiseRmax_homeWork _ _ _).released

theorem nodeRelease_released (d : Dev) (k : Nat) : Released d (nodeRelease d k) := by
  unfold nodeRelease
  dsimp only
  split
  · exact Released.refl d
  · exact frontAdd_released _ _ _ _ _

/-- A team of one copy ends. -/
theorem teamOver_ended {m : Mach} {k : Nat} {count : Launch → Launch} (hp : (m.d.team k).partner = none)
    (he : (m.d.ctx (count (m.d.launch (m.d.team k).launch)).ctx).endact ≠ 2) (hh : hostClear m.d) :
    (teamOver m k .ended count).g = m.g ∧ (teamOver m k .ended count).d.team k = (m.d.team k).emptied .ended ∧
    (teamOver m k .ended count).d.pkg.asking = m.d.pkg.asking ∧
    ((teamOver m k .ended count).d.launch (m.d.team k).launch).finished = (count (m.d.launch (m.d.team k).launch)).finished := by
  let l := (m.d.team k).launch
  let d := (dropClaims (m.d.setTeam k ((m.d.team k).emptied .ended)) (· = k)).setLaunch l (count (m.d.launch l))
  have hl : d.launch l = count (m.d.launch l) := Tab.getD_set_self ..
  have hnode : Released d (if (d.launch l).kernel.node then nodeRelease d l else d) := by
    split
    · exact nodeRelease_released d l
    · exact Released.refl d
  have hover : teamOver m k .ended count = endLaunch { m with d := if (d.launch l).kernel.node then nodeRelease d l else d } l := by
    unfold teamOver
    dsimp only
    rw [hp]
    rfl
  generalize (if (d.launch l).kernel.node then nodeRelease d l else d) = d' at hnode hover
  have hl' : d'.launch l = count (m.d.launch l) := by rw [Dev.launch, hnode.launches, ← Dev.launch, hl]
  obtain ⟨hg, hw⟩ := endLaunch_frontWork { m with d := d' } l (by
    show (d'.ctx (d'.launch l).ctx).endact ≠ 2
    rw [hl', hnode.endact]
    exact he)
  have hwork := hnode.work.trans hw
  rw [hover]
  refine ⟨hg, ?_, hwork.asking hh, ?_⟩
  · rw [Dev.team, hwork.teams]
    exact Tab.getD_set_self ..
  · rw [hwork.finished, hl]

/-- The last group of a team of one copy without a tail request ends the team (R211). -/
theorem teamEnds_ended {m : Mach} {k : Nat} (ht : (m.d.team k).tails = []) (hp : (m.d.team k).partner = none)
    (he : (m.d.ctx (m.d.launch (m.d.team k).launch).ctx).endact ≠ 2) (hh : hostClear m.d) :
    (teamEnds m k).g = m.g ∧ (teamEnds m k).d.team k = (m.d.team k).emptied .ended ∧
    (teamEnds m k).d.pkg.asking = m.d.pkg.asking ∧
    ((teamEnds m k).d.launch (m.d.team k).launch).finished = (m.d.launch (m.d.team k).launch).finished + 1 := by
  have htail : tailOf (m.d.team k) = none := by simp [tailOf, ht]
  have hrun (l : Launch) : (l.noteRun (m.d.team k) m.d.time).ctx = l.ctx ∧
      (l.noteRun (m.d.team k) m.d.time).finished = l.finished := by
    unfold Launch.noteRun
    split <;> exact ⟨rfl, rfl⟩
  obtain ⟨hctx, hfin⟩ := hrun (m.d.launch (m.d.team k).launch)
  have hover := teamOver_ended (m := m) (k := k)
    (count := fun l => { l.noteRun (m.d.team k) m.d.time with finished := l.finished + 1 }) hp
    (by
      rw [← hctx] at he
      exact he) hh
  have heq : teamEnds m k = teamOver m k .ended fun l => { l.noteRun (m.d.team k) m.d.time with finished := l.finished + 1 } := by
    simp only [teamEnds, htail, Bool.false_eq_true, if_false]
  rw [heq]
  exact hover

/-! ### `sys.yield`, `sys.time`, `sys.end` and `s.tail` (R106, R66, R211) -/

/-- The machine in which a word that ends its group looks at the waits: `s.tail` has made its team ineligible. -/
structure EndsIn (s : State) (m : Mach) : Prop where
  grp : m.g = s.grp
  dev : ∃ ts, m.d = { s.dev with teams := ts }
  team : ∃ e, m.d.team s.grp.team = { s.dev.team s.grp.team with elig := e }

theorem dropElig_endsIn (s : State) : EndsIn s (dropElig s.mach) := by
  unfold dropElig
  dsimp only
  split
  · exact ⟨rfl, ⟨_, rfl⟩, false, Dev.team_setTeam ..⟩
  · exact ⟨rfl, ⟨_, rfl⟩, _, rfl⟩

theorem exec_ends {i : Instr} {s : State} {a : CReg}
    (h : i = .sysEnd ∨ (i = .sTail a ∧ tailCause (s.grp.rc a.toNat) = none)) : ∃ m, EndsIn s m ∧
    exec i s = actOrWait (fun _ _ => groupEnd (if i = .sysEnd then none else some (s.grp.rc a.toNat)) m) s := by
  rcases h with rfl | ⟨rfl, hc⟩
  · exact ⟨s.mach, ⟨rfl, ⟨_, rfl⟩, _, rfl⟩, rfl⟩
  · refine ⟨dropElig s.mach, dropElig_endsIn s, ?_⟩
    rw [exec_sTail, actOrWait, sTail_ends hc]
    rfl

theorem leftHeld_eq (h : Held) (l : List Held) : leftHeld h l h.path =
    l.filter fun x => decide (x ≠ h ∧ ¬ (h.code = 9 ∧ x.code = 9 ∧ x.path = h.path ∧ x.pos = h.pos)) := by
  refine List.filter_congr fun x _ => ?_
  simp only [cNUMEVT, bne, Bool.decide_and, decide_not, Bool.and_assoc, beq_eq_decide, ne_eq]
  rfl

/-- A group that is not the last of its team ends: the team goes on without it. -/
theorem groupEnd_stays {s : State} {m : Mach} (tail : Option Cap) (hm : EndsIn s m) (hq : s.grp.queue = []) (hf : s.grp.flights = [])
    (hh : s.grp.heldTraps = []) (hx : ∃ x ∈ (s.dev.team s.grp.team).members, x ≠ s.grp.gid) : ∃ m', groupEnd tail m = some m' ∧
      m'.d.pkg.asking = s.dev.pkg.asking ∧ m'.g.live = false ∧
      (m'.d.team s.grp.team).members = (s.dev.team s.grp.team).members.filter (· ≠ s.grp.gid) ∧ m'.d.mem = s.dev.mem ∧
      (m'.d.team s.grp.team).tails = (s.dev.team s.grp.team).tails ++ (tail.map fun c => (s.grp.index, c)).toList := by
  obtain ⟨hg, ⟨ts, hd⟩, e, ht⟩ := hm
  obtain ⟨hgone, hteam, ⟨x, cs, ts', gs, hdev⟩, -⟩ := afterLeaving_left m tail
  rw [hg, ht] at hteam
  have hleft : groupLeaves m tail = afterLeaving m tail := by
    rw [groupLeaves_eq, if_neg]
    obtain ⟨y, hy, hne⟩ := hx
    have hmem : y ∈ (teamLeft m.g (m.d.team m.g.team) tail).members := by
      rw [hg, ht]
      exact List.mem_filter.2 ⟨hy, by simpa using hne⟩
    simp [List.ne_nil_of_mem hmem]
  refine ⟨_, (groupEnd_leaves (by rw [hg]; exact hq) (by rw [hg]; exact hf) (by rw [hg]; exact hh)).trans (congrArg some hleft),
    ?_, hgone, ?_, ?_, ?_⟩
  · rw [hdev, hd]
  · rw [hteam]
    rfl
  · rw [hdev, hd]
  · rw [hteam]
    rfl

/-- The last group of its team ends, and the team with it. -/
theorem groupEnd_last {m : Mach} (hq : m.g.queue = []) (hf : m.g.flights = []) (hh : m.g.heldTraps = [])
    (hm : (m.d.team m.g.team).members = [m.g.gid]) (ht : (m.d.team m.g.team).tails = []) (hp : (m.d.team m.g.team).partner = none)
    (hclear : hostClear m.d)
    (hact : (m.d.ctx (m.d.launch (m.d.team m.g.team).launch).ctx).endact ≠ 2) : ∃ m', groupEnd none m = some m' ∧
      m'.d.pkg.asking = m.d.pkg.asking ∧ m'.g.live = false ∧ (m'.d.team m.g.team).status = .ended ∧ (m'.d.team m.g.team).slots = [] ∧
      (m'.d.launch (m.d.team m.g.team).launch).finished = (m.d.launch (m.d.team m.g.team).launch).finished + 1 := by
  obtain ⟨hgone, hteam, ⟨x, cs, ts', gs, hdev⟩, hact'⟩ := afterLeaving_left m none
  have hlaunch : (afterLeaving m none).d.launch = m.d.launch := by
    funext l
    rw [hdev]
    rfl
  have hpkg : (afterLeaving m none).d.pkg = m.d.pkg := by rw [hdev]
  have hlast : ((teamLeft m.g (m.d.team m.g.team) none).members.isEmpty && (m.d.team m.g.team).partner.isNone) = true := by
    simp [teamLeft, hm, hp]
  have hl : (teamLeft m.g (m.d.team m.g.team) none).launch = (m.d.team m.g.team).launch := rfl
  obtain ⟨h1, h2, h3, h4⟩ := teamEnds_ended (m := afterLeaving m none) (k := m.g.team) (by rw [hteam]; simp [teamLeft, ht])
    (by rw [hteam]; exact hp) (by rw [hteam, hlaunch, hl, hact']; exact hact)
    (by rw [hostClear, hpkg]; exact hclear)
  rw [hteam, hlaunch, hl] at h4
  refine ⟨_, (groupEnd_leaves hq hf hh).trans (congrArg some ((groupLeaves_eq m none).trans (if_pos hlast))), ?_, ?_, ?_, ?_, h4⟩
  · rw [h3, hpkg]
  · rw [h1, hgone]
  · rw [h2]
    rfl
  · rw [h2]
    rfl

theorem systemWords : Claims.SystemWords := by
  intro s d a g k tm c ends
  refine ⟨rfl, sysTime_runs s d, fun cause hc ht => ?_, fun i hi hw => ?_, fun i h rest hi hf ht hh => ?_,
    fun i hi hq hf hh hx => ?_, fun hq hf hh hm htl hp _ hclear hact => ?_⟩
  · rw [exec_sTail]
    exact actOrWait_trap (sTail_traps hc) ht
  · obtain ⟨m, hm, he⟩ := exec_ends hi
    rw [he]
    exact actOrWait_wait (groupEnd_wait (by rw [hm.grp]; exact hw))
  · obtain ⟨⟨mg, md⟩, ⟨hg, ⟨ts, hd⟩, -⟩, he⟩ := exec_ends hi
    subst hg hd
    obtain ⟨hq, hin, hv⟩ := ht
    have hend := groupEnd_traps (tail := if i = .sysEnd then none else some c) (m := ⟨s.grp, { s.dev with teams := ts }⟩) hq hf hh
    rw [takeTrap_trapped _ _ hin hv, leftHeld_eq] at hend
    exact ⟨_, he.trans (actOrWait_ok hend rfl), rfl⟩
  · obtain ⟨m, hm, he⟩ := exec_ends hi
    obtain ⟨m', hend, hask, hlive, hmem, hbytes, htails⟩ := groupEnd_stays _ hm hq hf hh hx
    refine ⟨_, he.trans (actOrWait_ok hend hask), hlive, hmem, hbytes, htails.trans ?_⟩
    by_cases hsys : i = .sysEnd
    · simp only [hsys, if_true, Option.map_none, Option.toList_none, List.append_nil]
      rfl
    · simp only [hsys, if_false, Option.map_some, Option.toList_some]
      rfl
  · obtain ⟨m', hend, hask, hlive, hst, hsl, hfin⟩ := groupEnd_last (m := s.mach) hq hf hh hm htl hp hclear hact
    exact ⟨_, (exec_sysEnd s).trans (actOrWait_ok hend hask), hlive, hst, hsl, hfin⟩

end Sys2Proof.Machine

namespace Sys2Proof

/-- Settles O35: a group that ends leaves its ids and its team, and the last one of a team ends it with its launch. -/
theorem systemAndCheckWords : Obligations.SystemAndCheckWords := ⟨Machine.systemWords, Machine.checkWords⟩

end Sys2Proof
end

section
/-! ## When a lane word waits or is out of range, and numerical events that trap (R66, R75, R89, R176) -/

namespace Sys2Proof.Machine

/-! ### Every lane word meets the same conditions first (R75, R200, R249) -/

/-- A step is the shared step of the lane words, with some body. -/
def RunsAsLaneWord (op10 : Nat) (w : Wide) (s : State) (r : Host.Outcome State Fault Refusal) : Prop := ∃ body, r = laneWord op10 w body s

theorem laneWord_runs (op10 : Nat) (w : Wide) (body : LaneInfo → View → Word → CtlRegs → Mach → LaneRes) (s : State) :
    RunsAsLaneWord op10 w s (laneWord op10 w body s) := ⟨body, rfl⟩

theorem laneCompute_runs (op10 : Nat) (w : Wide) (body : LaneInfo → View → Word → Mach → LaneEff) (s : State) :
    RunsAsLaneWord op10 w s (laneCompute op10 w body s) := ⟨_, rfl⟩

theorem arithWord_runs (op10 : Nat) (w : Wide) (f : Word → Word → Word → LaneOut) (s : State) :
    RunsAsLaneWord op10 w s (arithWord op10 w f s) := laneCompute_runs _ _ _ s

theorem pairableWord_runs (op10 : Nat) (o : NOp) (w : Wide) (s : State) : RunsAsLaneWord op10 w s (pairableWord op10 o w s) := by
  unfold pairableWord
  split
  · exact laneCompute_runs _ _ _ s
  · exact arithWord_runs _ _ _ s

theorem structured_runs (op10 : Nat) (w : Wide) (new : Group → View → Nat → Nat) (post : Group → Group → Group) (s : State) :
    RunsAsLaneWord op10 w s (structured op10 w new post s) := laneWord_runs _ _ _ s

theorem compareWord_runs (op10 : Nat) (w : Wide) (mode : Nat) (f : Word → Word → Bool × Ev) (s : State) :
    RunsAsLaneWord op10 w s (compareWord op10 w mode f s) := laneWord_runs _ _ _ s

theorem scalarFromLanes_runs (op10 : Nat) (w : Wide) (f : Group → View → Word → Word) (s : State) :
    RunsAsLaneWord op10 w s (scalarFromLanes op10 w f s) := laneWord_runs _ _ _ s

theorem dataLoad_runs (op10 : Nat) (scalar : Bool) (w : Wide) (s : State) :
    RunsAsLaneWord op10 w s (dataLoad op10 scalar w s) := laneWord_runs _ _ _ s

theorem dataStore_runs (op10 : Nat) (scalar : Bool) (w : Wide) (s : State) :
    RunsAsLaneWord op10 w s (dataStore op10 scalar w s) := laneWord_runs _ _ _ s

theorem quadDerive_runs (op10 ty : Nat) (w : Wide) (f : Cap → Word → Except Nat Cap) (s : State) :
    RunsAsLaneWord op10 w s (quadDerive op10 ty w f s) := laneWord_runs _ _ _ s

theorem slotWord_runs (op10 : Nat) (phasor : Bool) (w : Wide) (kind : Group → View → Word → MxKind) (s : State) :
    RunsAsLaneWord op10 w s (slotWord op10 phasor w kind s) := laneWord_runs _ _ _ s

/-- A lane word of the map up to 0x3BF runs as the shared step of lane words. -/
theorem exec_wide {i : Instr} {op10 : Nat} {w : Wide} (h : i.wide? = some (op10, w)) (ho : op10 < 0x3C0) (s : State) :
    RunsAsLaneWord op10 w s (exec i s) := by
  unfold Instr.wide? at h
  split at h
  all_goals cases h
  all_goals unfold exec
  case h_1 | h_2 | h_3 | h_4 | h_5 | h_6 | h_7 | h_8 | h_9 | h_10 | h_11
      | h_12 | h_13 | h_14 | h_15 | h_16 => exact pairableWord_runs _ _ _ s
  case h_18 | h_19 | h_20 | h_21 | h_22 | h_23 | h_24 | h_25 | h_26 | h_27
      | h_28 | h_29 | h_30 | h_31 | h_32 | h_33 => exact pairableWord_runs _ _ _ s
  case h_34 | h_35 | h_36 | h_38 | h_39 | h_40 | h_41 | h_42 | h_43
      | h_44 | h_45 | h_46 | h_47 | h_48 | h_49 | h_50 | h_51 | h_52 | h_53 => exact arithWord_runs _ _ _ s
  case h_17 | h_37 | h_65 | h_67 | h_68 | h_75 | h_78 | h_87 => exact laneCompute_runs _ _ _ s
  case h_54 | h_55 | h_56 | h_57 | h_58 | h_59 | h_60 => exact structured_runs _ _ _ _ s
  case h_61 | h_64 => exact compareWord_runs _ _ _ _ s
  case h_62 | h_63 => exact scalarFromLanes_runs _ _ _ s
  case h_69 | h_71 => exact dataLoad_runs _ _ _ s
  case h_70 | h_72 => exact dataStore_runs _ _ _ s
  case h_76 | h_77 | h_79 => exact quadDerive_runs _ _ _ _ s
  case h_83 | h_84 | h_85 => exact slotWord_runs _ _ _ _ s
  case h_88 => omega
  all_goals exact laneWord_runs _ _ _ s

/-- What the shared step asks of a word before its body: a change of the machine for each body. -/
def laneIssues (form : Group → LaneForm) (body : CtlRegs → Group → Word → Mach → LaneRes) (R : CtlRegs) (m : Mach) : Option Mach :=
  let f := form m.g
  if lanesPending m || spilledUse f m.g then none else laneStep f (body R m.g) m

/-- A lane word or a pair word, with its form. -/
def isLaneWord (i : Instr) (s : State) (f : LaneForm) : Prop :=
  (∃ op10 w, i.wide? = some (op10, w) ∧ op10 < 0x3C0 ∧ f = formOf s op10 w) ∨ (∃ ce x y, i.pair? = some (ce, x, y) ∧ f = pairForm ce x y s.grp)

theorem exec_laneWord {i : Instr} {s : State} {f : LaneForm} (h : isLaneWord i s f) :
    ∃ form body, form s.grp = f ∧ exec i s = actOrWait (fun R m => laneIssues form body R m) s := by
  rcases h with ⟨op10, w, h, ho, rfl⟩ | ⟨ce, x, y, h, rfl⟩
  · obtain ⟨body, he⟩ := exec_wide h ho s
    exact ⟨wideForm op10 w ((laneInfo op10 w).getD {}), fun R g run m => body ((laneInfo op10 w).getD {}) g.view run R m, rfl, he⟩
  · exact ⟨pairForm ce x y, fun _ _ run m => .done m (pairEff m.g run x y), rfl, exec_pair h s⟩

theorem laneIssues_blocked {form : Group → LaneForm} {m : Mach} (body : CtlRegs → Group → Word → Mach → LaneRes) (R : CtlRegs)
    (h : lanesPending m = true ∨ spilledUse (form m.g) m.g = true) : laneIssues form body R m = none :=
  if_pos (by rwa [Bool.or_eq_true])

theorem laneIssues_ready {form : Group → LaneForm} {m : Mach} (body : CtlRegs → Group → Word → Mach → LaneRes) (R : CtlRegs)
    (hp : lanesPending m = false) (hs : spilledUse (form m.g) m.g = false) :
    laneIssues form body R m = laneStep (form m.g) (body R m.g) m :=
  if_neg (by rw [hp, hs]; decide)

/-- The group that a word outside a chain meets: with LE, in the chain that it opens (R87). -/
def LaneForm.meets (f : LaneForm) (g : Group) : Group := if f.eligible && f.le then g.opened else g

theorem runLane_outOfRange {f : LaneForm} {m : Mach} (body : Word → Mach → LaneRes) (hc : m.g.chain = none)
    (hr : ∃ r ∈ f.regs, m.g.vregs ≤ r) : ∃ codes, runLane f body [] m =
      some (laneTrap ⟨f.meets m.g, warn m.d m.g.ctx codes⟩ cVREGRANGE f.run) := by
  have hany : (f.regs.any fun r => decide (m.g.vregs ≤ r)) = true := by simpa using hr
  unfold LaneForm.meets
  cases hl : f.eligible && f.le
  · exact ⟨f.warns false, by simp [runLane, hl, hc, hany]⟩
  · exact ⟨f.warns true, by simp [runLane, hl, hc, hany, Group.opened]⟩

/-- A trap drops the chain that its word has opened; the error marks of the latches alone tell of it. -/
theorem trapped_meets (f : LaneForm) {g : Group} (hc : g.chain = none) (code : Nat) (mask : Word) :
    { (f.meets g).trapped code 0 7 (f.meets g).pc (BitVec.ofNat 64 (f.meets g).laneTrapPos) mask false
      ⟨(f.meets g).laneTrapPos, (f.meets g).queue⟩ with badLatch := g.badLatch } =
    g.trapped code 0 7 g.pc (BitVec.ofNat 64 g.lpos) mask false ⟨g.lpos, g.queue⟩ := by
  unfold LaneForm.meets
  split
  · rfl
  · have hp : g.laneTrapPos = g.lpos := by simp [Group.laneTrapPos, hc]
    rw [hp]
    rfl

theorem laneWordWaitsAndRange : Claims.LaneWordWaitsAndRange := by
  intro i s f hf
  obtain ⟨form, body, rfl, he⟩ := exec_laneWord (i := i) (s := s) (f := f) hf
  rw [he]
  refine ⟨fun hp => ?_, fun hp hs => ?_, fun hp hs hr hc hi hv => ?_⟩
  · exact actOrWait_wait (laneIssues_blocked body _ (.inl hp))
  · exact actOrWait_wait (laneIssues_blocked body _ (.inr hs))
  · obtain ⟨codes, hrun⟩ := runLane_outOfRange (m := s.mach) (body s.regs s.grp) hc hr
    have hmeets : ((form s.grp).meets s.grp).inHandler = s.grp.inHandler ∧ ((form s.grp).meets s.grp).trapv = s.grp.trapv := by
      unfold LaneForm.meets
      split <;> exact ⟨rfl, rfl⟩
    have htrap := laneTrap_trapped (m := ⟨(form s.grp).meets s.grp, warn s.dev s.grp.ctx codes⟩) cVREGRANGE (form s.grp).run
      (hmeets.1.trans hi) (by rw [hmeets.2]; exact hv)
    have hstep : laneIssues form body s.regs s.mach = _ :=
      ((laneIssues_ready body s.regs hp hs).trans ((laneStep_noCut _ (.inl hc)).trans hrun)).trans (congrArg some htrap)
    exact ⟨_, actOrWait_ok hstep (warn_asking ..), trapped_meets _ hc 5 (form s.grp).run, warn_mem .., warn_teams ..⟩

/-! ### The first class whose action traps (R66) -/

/-- One class counted: the first whose action traps is kept. -/
def countStep (k : Nat) (r : Dev × Option Nat) (e : Nat × Nat) : Dev × Option Nat :=
  ((countClass r.1 k e.1 e.2).1, r.2.or (if (countClass r.1 k e.1 e.2).2 then some e.1 else none))

theorem countEvents_eq (d : Dev) (k : Nat) (l : List (Nat × Nat)) : countEvents d k l = l.foldl (countStep k) (d, none) := by
  unfold countEvents
  congr
  funext r e
  obtain ⟨d, a⟩ := r
  cases a <;> rfl

theorem foldl_countStep (k : Nat) (l : List (Nat × Nat)) (d : Dev) (a : Option Nat) :
    l.foldl (countStep k) (d, a) = ((countEvents d k l).1, a.or (countEvents d k l).2) := by
  rw [countEvents_eq]
  induction l generalizing d a with
  | nil => cases a <;> rfl
  | cons e l ih =>
    rw [List.foldl_cons, List.foldl_cons, countStep, countStep, ih, ih _ (none.or _), Option.or_assoc, Option.none_or]

theorem countEvents_cons (d : Dev) (k : Nat) (e : Nat × Nat) (l : List (Nat × Nat)) : countEvents d k (e :: l) =
    ((countEvents (countClass d k e.1 e.2).1 k l).1,
      if (countClass d k e.1 e.2).2 then some e.1 else (countEvents (countClass d k e.1 e.2).1 k l).2) := by
  rw [countEvents_eq, List.foldl_cons, countStep, foldl_countStep]
  cases (countClass d k e.1 e.2).2 <;> rfl

/-- One class after the other: the counts add up, whatever traps. -/
theorem countEvents_countsTo (d : Dev) (k : Nat) (l : List (Nat × Nat)) : CountsTo d (countEvents d k l).1 k (classSum l) := by
  induction l generalizing d with
  | nil => exact CountsTo.refl d k
  | cons e l ih =>
    have hsum : classSum (e :: l) = fun c => (if e.1 = c then e.2 else 0) + classSum l c := funext (classSum_cons e l)
    rw [countEvents_cons, hsum]
    exact (countClass_countsTo d k e.1 e.2).trans (ih _)

/-- Whether the count of a class traps: what its register and its action say. -/
def firesAt (x : Ctx) (c n : Nat) : Bool :=
  let r := x.nev.getD c 0
  n != 0 && (decide ((r.extractLsb' 0 32).toNat ≤ (r.extractLsb' 32 16).toNat) &&
    decide ((r.extractLsb' 32 16).toNat < satAdd (2 ^ 32 - 1) (r.extractLsb' 0 32).toNat n) && !x.fired.getD c false &&
    decide ((r.extractLsb' 62 2).toNat % 2 = 1))

theorem countClass_fires (d : Dev) (k c n : Nat) : (countClass d k c n).2 = firesAt (d.ctx k) c n := by
  unfold countClass firesAt
  by_cases hn : n = 0
  · subst hn
    rfl
  · rw [if_neg hn, show (n != 0) = true from bne_iff_ne.2 hn]
    exact (Bool.true_and _).symm

/-- The register and the action of the other classes stay. -/
theorem firesAt_other (d : Dev) (k : Nat) {b c : Nat} (n m : Nat) (h : b ≠ c) :
    firesAt ((countClass d k b n).1.ctx k) c m = firesAt (d.ctx k) c m := by
  unfold countClass
  split
  · rfl
  · have hset (d : Dev) (x : Ctx) (hn : x.nev.getD c 0 = (d.ctx k).nev.getD c 0) (hf : x.fired.getD c false = (d.ctx k).fired.getD c false) :
        firesAt ((d.setCtx k x).ctx k) c m = firesAt (d.ctx k) c m := by
      simp only [firesAt, Dev.ctx_setCtx, hn, hf]
    have hpost (d : Dev) (ty src ctx : Nat) (lo hi : Word) : (post d ty src ctx lo hi).ctx k = d.ctx k := rfl
    dsimp only
    split
    · rw [hpost]
      refine hset d _ (Tab.getD_set_ne _ _ _ _ h) ?_
      dsimp only
      split
      · exact Tab.getD_set_ne _ _ _ _ h
      · rfl
    · refine hset d _ (Tab.getD_set_ne _ _ _ _ h) ?_
      dsimp only
      split
      · exact Tab.getD_set_ne _ _ _ _ h
      · rfl

/-- Of classes in ascending order, the first whose action traps is named. -/
theorem countEvents_fires {l : List (Nat × Nat)} (hl : l.Pairwise (·.1 < ·.1)) (d : Dev) (k : Nat) :
    (countEvents d k l).2 = (l.find? fun e => firesAt (d.ctx k) e.1 e.2).map (·.1) := by
  induction l generalizing d with
  | nil => rfl
  | cons e l ih =>
    obtain ⟨he, hl⟩ := List.pairwise_cons.1 hl
    have hrest : (l.find? fun x => firesAt ((countClass d k e.1 e.2).1.ctx k) x.1 x.2) = l.find? fun x => firesAt (d.ctx k) x.1 x.2 :=
      List.find?_congr fun x hx => firesAt_other d k e.2 x.2 (he x hx).ne
    rw [countEvents_cons, List.find?_cons, countClass_fires, ih hl, hrest]
    cases firesAt (d.ctx k) e.1 e.2 <;> rfl

theorem find?_least {l : List (Nat × Nat)} (hl : l.Pairwise (·.1 < ·.1)) {p : Nat × Nat → Bool} {e : Nat × Nat} (he : e ∈ l)
    (hp : p e = true) (hn : ∀ x ∈ l, x.1 < e.1 → p x = false) : l.find? p = some e := by
  induction l with
  | nil => cases he
  | cons x l ih =>
    obtain ⟨hx, hl⟩ := List.pairwise_cons.1 hl
    rw [List.find?_cons]
    rcases List.mem_cons.1 he with rfl | he
    · rw [hp]
    · rw [hn x List.mem_cons_self (hx e he)]
      exact ih hl he fun y hy => hn y (List.mem_cons_of_mem x hy)

/-! ### The events of a word, class by class -/

/-- The lanes whose events name a class. -/
def evMask (l : List (Nat × Ev)) (c : Nat) : Word := l.foldl (fun (m : Word) e => if bit e.2 c then setBit m e.1 true else m) 0

theorem mem_evLanes {l : List (Nat × Ev)} {e : Nat × Word} : e ∈ evLanes l ↔ e.1 < 7 ∧ e.2 = evMask l e.1 ∧ e.2 ≠ 0 := by
  simp only [evLanes, List.mem_filter, List.mem_map, List.mem_range, decide_eq_true_eq]
  constructor
  · rintro ⟨⟨c, hc, rfl⟩, h0⟩
    exact ⟨hc, rfl, h0⟩
  · rintro ⟨hc, he, h0⟩
    exact ⟨⟨e.1, hc, by rw [← evMask, ← he]⟩, h0⟩

theorem pairwise_evLanes (l : List (Nat × Ev)) : (evLanes l).Pairwise (·.1 < ·.1) :=
  List.Pairwise.filter _ (List.pairwise_map.2 List.pairwise_lt_range)

theorem pairwise_laneCounts {l : List (Nat × Word)} (h : l.Pairwise (·.1 < ·.1)) : (laneCounts l).Pairwise (·.1 < ·.1) :=
  List.pairwise_map.2 h

theorem bit_evMask (run : Word) (ev : Nat → Ev) (c : Nat) {l : Nat} (hl : l < 64) :
    bit (evMask ((lanesOf run).map fun l => (l, ev l)) c) l = (bit run l && bit (ev l) c) := bit_laneMask run ev (bit · c) hl

theorem popCount_evMask (run : Word) (ev : Nat → Ev) (c : Nat) :
    popCount (evMask ((lanesOf run).map fun l => (l, ev l)) c) = lanesWith run fun l => bit (ev l) c :=
  popCount_congr fun _ hl => bit_evMask run ev c hl

theorem lanesFor_evLanes {l : List (Nat × Ev)} {c : Nat} (hc : c < 7) (h0 : evMask l c ≠ 0) : lanesFor (evLanes l) c = evMask l c := by
  cases hf : (evLanes l).find? fun e => e.1 == c with
  | none =>
    have := List.find?_eq_none.1 hf (c, evMask l c) (mem_evLanes.2 ⟨hc, rfl, h0⟩)
    simp at this
  | some e =>
    have hkey : e.1 = c := by simpa using List.find?_some hf
    obtain ⟨-, hmask, -⟩ := mem_evLanes.1 (List.mem_of_find?_eq_some hf)
    simp [lanesFor, hf, hmask, hkey]

/-- The class whose action traps first is the one that the counts of a word's lanes name. -/
theorem countEvents_evLanes {d : Dev} {k cls : Nat} (run : Word) (ev : Nat → Ev) (hc : cls < 7)
    (hfires : firesAt (d.ctx k) cls (lanesWith run fun l => bit (ev l) cls) = true)
    (hfirst : ∀ c, c < cls → firesAt (d.ctx k) c (lanesWith run fun l => bit (ev l) c) = false) :
    (countEvents d k (laneCounts (evLanes ((lanesOf run).map fun l => (l, ev l))))).2 = some cls ∧
    evMask ((lanesOf run).map fun l => (l, ev l)) cls ≠ 0 := by
  have h0 : evMask ((lanesOf run).map fun l => (l, ev l)) cls ≠ 0 := by
    intro h0
    rw [← popCount_evMask, h0, show popCount 0 = 0 from rfl] at hfires
    simp [firesAt] at hfires
  refine ⟨?_, h0⟩
  have hsorted := pairwise_laneCounts (pairwise_evLanes ((lanesOf run).map fun l => (l, ev l)))
  rw [countEvents_fires hsorted,
    find?_least hsorted (e := (cls, lanesWith run fun l => bit (ev l) cls))]
  · rfl
  · exact List.mem_map.2 ⟨(cls, _), mem_evLanes.2 ⟨hc, rfl, h0⟩, congrArg (cls, ·) (popCount_evMask run ev cls)⟩
  · exact hfires
  · intro x hx hlt
    obtain ⟨y, hy, rfl⟩ := List.mem_map.1 hx
    obtain ⟨-, hmask, -⟩ := mem_evLanes.1 hy
    show firesAt (d.ctx k) y.1 (popCount y.2) = false
    rw [hmask, popCount_evMask]
    exact hfirst _ hlt

/-! ### A lane word whose events trap (R66, R176) -/

/-- Outside a chain the effects take place, and a class whose action traps is taken after them. -/
theorem finishLane_trap {m : Mach} (f : LaneForm) (e : LaneEff) {cls : Nat} (hc : m.g.chain = none)
    (ht : (countEvents m.d m.g.ctx e.counts).2 = some cls) : finishLane f m e =
      numTrap ⟨{ m.g with lanes := f.frees.foldl LaneFile.unmap (e.file m.g.lanes), dzmask := m.g.dzmask ||| e.dz
                          domask := m.g.domask ||| e.dov }, (countEvents m.d m.g.ctx e.counts).1⟩ m.g.lpos cls (lanesFor e.lanes cls) := by
  simp only [finishLane, hc, ht]

theorem firesAt_warn (d : Dev) (k : Nat) (codes : List Nat) (c n : Nat) :
    firesAt ((warn d k codes).ctx k) c n = firesAt (d.ctx k) c n := by
  unfold warn
  split
  · rfl
  · rw [Dev.ctx_setCtx]
    rfl

/-- The group after a rule's word outside a chain, before it goes on or traps. -/
def LaneRule.after (r : LaneRule) (s : State) : Group :=
  let f := formOf s r.op10 r.w
  let e := r.eff s.grp s.grp.view f.run
  { s.grp with
    lanes := f.frees.foldl LaneFile.unmap (e.file s.grp.lanes), dzmask := s.grp.dzmask ||| e.dz, domask := s.grp.domask ||| e.dov }

/-- The device after it: its fallbacks recorded, its events counted. -/
def LaneRule.counts (r : LaneRule) (s : State) : Dev :=
  let f := formOf s r.op10 r.w
  (countEvents (warn s.dev s.grp.ctx (f.warns false)) s.grp.ctx (r.eff s.grp s.grp.view f.run).counts).1

theorem LaneRule.counts_countsTo (r : LaneRule) (s : State) :
    CountsTo (warn s.dev s.grp.ctx ((formOf s r.op10 r.w).warns false)) (r.counts s) s.grp.ctx
      (classSum (r.eff s.grp s.grp.view (formOf s r.op10 r.w).run).counts) := countEvents_countsTo _ _ _

theorem exec_traps {i : Instr} {s : State} {r : LaneRule} {cls : Nat} (h : laneRule i = some r)
    (hp : lanesPending s.mach = false) (hs : spilledUse (formOf s r.op10 r.w) s.grp = false)
    (hr : ∀ k ∈ (formOf s r.op10 r.w).regs, k < s.grp.vregs) (hc : s.grp.chain = none) (hle : r.w.le = false ∨ 0x180 ≤ r.op10)
    (hi : s.grp.inHandler = false) (hv : s.grp.trapv ≠ 0)
    (ht : (countEvents (warn s.dev s.grp.ctx ((formOf s r.op10 r.w).warns false)) s.grp.ctx
      (r.eff s.grp s.grp.view (formOf s r.op10 r.w).run).counts).2 = some cls) :
    exec i s = .next (s.put ⟨(r.after s).trapped 9 cls 7 s.grp.pc (BitVec.ofNat 64 s.grp.lpos)
      (lanesFor (r.eff s.grp s.grp.view (formOf s r.op10 r.w).run).lanes cls) true ⟨s.grp.lpos, s.grp.queue⟩, r.counts s⟩) := by
  have hlone : ((formOf s r.op10 r.w).eligible && (formOf s r.op10 r.w).le) = false := by
    show (chainEligible r.op10 && (r.w.le && chainEligible r.op10)) = false
    rcases hle with hle | hle
    · simp [hle]
    · simp [chainEligible, Nat.not_lt.2 hle]
  rw [exec_laneRule h, LaneRule.word, laneCompute, laneWord]
  refine actOrWait_ok ?_ ((r.counts_countsTo s).asking.trans (warn_asking ..))
  refine (if_neg ?_).trans ?_
  · rw [Bool.or_eq_true, not_or, Bool.not_eq_true, Bool.not_eq_true]
    exact ⟨hp, hs⟩
  · refine (laneStep_noCut _ (.inl hc)).trans ((runLane_alone (fun run m => r.eff m.g s.grp.view run) [] hr hc hlone).trans ?_)
    refine congrArg some ((finishLane_trap (m := ⟨s.grp, warn s.dev s.grp.ctx _⟩) _ _ hc ht).trans ?_)
    exact takeTrap_trapped ⟨r.after s, r.counts s⟩ _ hi hv

theorem bit_maskBelow {n l : Nat} (hl : l < n) : bit (maskBelow n) l = decide (l < 64) := by
  simp [bit, maskBelow, BitVec.getLsbD_ofNat, Nat.testBit_two_pow_sub_one, hl]

theorem numericalTraps : Claims.NumericalTraps := by
  intro i s r cls h f g out n fires hp hs hr hc hle hi hv hcls hfire hfirst
  have hfires (c : Nat) : fires c ↔ firesAt (s.dev.ctx g.ctx) c (n c) = true := by
    have hfold : (countClass s.dev g.ctx c (n c)).2 = firesAt (s.dev.ctx g.ctx) c (n c) := countClass_fires ..
    show n c ≠ 0 ∧ (countClass s.dev g.ctx c (n c)).2 = true ↔ _
    rw [hfold]
    exact ⟨And.right, fun h => ⟨fun h0 => by simp [firesAt, h0] at h, h⟩⟩
  obtain ⟨ht, h0⟩ := countEvents_evLanes (d := warn s.dev g.ctx (f.warns false)) (k := g.ctx) f.run (fun l => (out l).ev) hcls
    (by rw [firesAt_warn]; exact (hfires cls).1 hfire)
    (fun c hc => by rw [firesAt_warn]; exact Bool.eq_false_iff.2 fun h => hfirst c hc ((hfires c).2 h))
  have hlanes : (r.eff g g.view f.run).lanes = evLanes ((lanesOf f.run).map fun l => (l, (out l).ev)) := laneEff_lanes ..
  have hcounts : (r.eff g g.view f.run).counts = laneCounts (evLanes ((lanesOf f.run).map fun l => (l, (out l).ev))) :=
    congrArg laneCounts hlanes
  rw [← hcounts] at ht
  refine ⟨_, exec_traps h hp hs hr hc hle hi hv ht, LaneRule.lanesAfter_eff h s g g.view f.run g.lanes, ?_, rfl, rfl, rfl, rfl, rfl, rfl,
    rfl, counted_of_countsTo (r.counts_countsTo s) fun c hc => r.eff_counts g g.view f.run hc, fun l hl => ?_⟩
  · show BitVec.ofNat 8 (if g.emuFrame.isSome then 2 else 9) = _
    split <;> rfl
  · show bit (lanesFor (r.eff g g.view f.run).lanes cls &&& maskBelow g.width) l = _
    rw [hlanes, lanesFor_evLanes hcls h0, bit, BitVec.getLsbD_and, ← bit, ← bit, bit_maskBelow hl]
    by_cases h64 : l < 64
    · rw [bit_evMask f.run _ cls h64, decide_eq_true h64, Bool.and_true]
    · have hrun : bit f.run l = false := BitVec.getLsbD_of_ge _ _ (Nat.not_lt.1 h64)
      rw [decide_eq_false h64, hrun, Bool.and_false, Bool.false_and]

end Sys2Proof.Machine
namespace Sys2Proof

/-- Settles O23: a lane word waits or traps before its body runs, and a class whose action traps is taken after its effects. -/
theorem laneWaitsAndEvents : Obligations.LaneWaitsAndEvents := ⟨Machine.laneWordWaitsAndRange, Machine.numericalTraps⟩

end Sys2Proof
end

section
/-! ## Group events, and how a team gives its slots back (R65, R187, R198, R200, R206) -/

namespace Sys2Proof

theorem Tab.find?_modify {α : Type} (t : Tab α) (a : Nat) (f : α → α) (b : Nat) :
    (t.modify a f).find? b = if a = b then (t.find? b).map f else t.find? b := by
  induction t with
  | nil => simp [Tab.modify, Tab.find?]
  | cons e t ih =>
    have ih : Tab.find? (t.map fun e => if e.1 = a then (e.1, f e.2) else e) b = _ := ih
    obtain ⟨k, x⟩ := e
    rw [Tab.modify, List.map_cons]
    by_cases hk : k = a
    · subst hk
      by_cases hb : k = b <;> simp [Tab.find?, hb, ih]
    · by_cases hb : k = b
      · subst hb
        simp [Tab.find?, hk, Ne.symm hk]
      · simp [Tab.find?, hk, hb, ih]

theorem Tab.getD_erase_self {α : Type} (t : Tab α) (a : Nat) (d : α) : (t.erase a).getD a d = d := by
  rw [Tab.getD, Tab.find?_erase_self]
  rfl

theorem Tab.getD_erase_ne {α : Type} (t : Tab α) {a b : Nat} (d : α) (h : a ≠ b) : (t.erase a).getD b d = t.getD b d := by
  rw [Tab.getD, Tab.find?_erase_ne t h, Tab.getD]

end Sys2Proof

namespace Sys2Proof.Machine

/-! ### A change of one group -/

/-- A change that keeps a group's number and its life. -/
def keepsGroup (f : Group → Group) : Prop := ∀ g, (f g).gid = g.gid ∧ (f g).live = g.live

theorem onGid_group? (m : Mach) (gid : Nat) {f : Group → Group} (hf : keepsGroup f) (k : Nat) :
    (m.onGid gid f).group? k = if gid = k then (m.group? k).map f else m.group? k := by
  obtain ⟨hg, hl⟩ := hf m.g
  unfold Mach.onGid
  by_cases ht : (decide (m.g.gid = gid) && m.g.live) = true
  · obtain ⟨h1, h2⟩ := Bool.and_eq_true_iff.1 ht
    have h1 : m.g.gid = gid := of_decide_eq_true h1
    rw [if_pos ht]
    unfold Mach.group?
    by_cases hk : gid = k
    · subst hk
      simp [hg, hl, h1, h2]
    · simp [hg, h1, hk]
  · rw [if_neg ht]
    unfold Mach.group?
    by_cases hk : gid = k
    · subst hk
      simp only [if_neg ht, if_pos, Tab.find?_modify]
    · simp only [Tab.find?_modify, if_neg hk]

theorem onGid_dev (m : Mach) (gid : Nat) (f : Group → Group) : ∃ gs, (m.onGid gid f).d = { m.d with groups := gs } := by
  unfold Mach.onGid
  split <;> exact ⟨_, rfl⟩

/-! ### The window of a class, and starvation (R65, R198) -/

theorem exec_nevWindowEnd (ctx cls : Nat) (s : State) :
    exec (.nevWindowEnd ctx cls) s = act (fun _ m => { m with d := nevWindowEnd ctx cls m.d }) s := rfl

theorem nevWindowEnd_runs {ctx cls : Nat} {s : State} (hc : cls < 7) (hl : (s.dev.ctx ctx).live = true)
    (ht : ∃ e ∈ s.dev.teams, e.2.ctx = ctx ∧ e.2.status = .resident) :
    exec (.nevWindowEnd ctx cls) s = .next (s.put ⟨s.grp, s.dev.setCtx ctx { s.dev.ctx ctx with
      nev := (s.dev.ctx ctx).nev.set cls ((s.dev.ctx ctx).nev.getD cls 0 &&& ~~~(0xFFFFFFFF : Word)) 0
      fired := (s.dev.ctx ctx).fired.set cls false false }⟩) := by
  have hany : (s.dev.teams.any fun e => e.2.ctx = ctx && e.2.status == .resident) = true := by
    simpa using ht
  have hrun : nevWindowEnd ctx cls s.dev = s.dev.setCtx ctx { s.dev.ctx ctx with
      nev := (s.dev.ctx ctx).nev.set cls ((s.dev.ctx ctx).nev.getD cls 0 &&& ~~~(0xFFFFFFFF : Word)) 0
      fired := (s.dev.ctx ctx).fired.set cls false false } :=
    if_pos (by rw [decide_eq_true hc, hl, hany]; rfl)
  rw [exec_nevWindowEnd, act_ok]
  · exact congrArg (fun d => Host.Outcome.next (s.put ⟨s.grp, d⟩)) hrun
  · show (nevWindowEnd ctx cls s.dev).pkg.asking = _
    rw [hrun]
    rfl

theorem nevWindowEnd_stops {ctx cls : Nat} {s : State} (ht : ∀ e ∈ s.dev.teams, e.2.ctx = ctx → e.2.status ≠ .resident) :
    idles (.nevWindowEnd ctx cls) s := by
  have hany : (s.dev.teams.any fun e => e.2.ctx = ctx && e.2.status == .resident) = false := by
    simpa using ht
  have hrun : nevWindowEnd ctx cls s.dev = s.dev := if_neg (by rw [hany, Bool.and_false]; decide)
  rw [idles, exec_nevWindowEnd, act_ok]
  · exact congrArg (fun d => Host.Outcome.next (s.put ⟨s.grp, d⟩)) hrun
  · exact congrArg (fun d => d.pkg.asking) hrun

/-- What 64 cycles without an issue do to a group. -/
def starved (d : Dev) (lane : Bool) (g : Group) : Group :=
  if !mayIssue d g || lane && g.queue.isEmpty then g
  else if lane then { g with starveLane := max 64 g.starveLane } else { g with starveScalar := max 64 g.starveScalar }

theorem keepsGroup_starved (d : Dev) (lane : Bool) : keepsGroup (starved d lane) := by
  intro g
  unfold starved
  split
  · exact ⟨rfl, rfl⟩
  · split <;> exact ⟨rfl, rfl⟩

theorem exec_starvationRaise (gid : Nat) (lane : Bool) (s : State) :
    exec (.starvationRaise gid lane) s = act (fun _ m => m.onGid gid (starved m.d lane)) s := rfl

theorem starvationRaise_groupBecomes (gid : Nat) (lane : Bool) (s : State) :
    leads (.starvationRaise gid lane) s fun t => groupBecomes s t gid (starved s.dev lane) := by
  obtain ⟨gs, hd⟩ := onGid_dev s.mach gid (starved s.dev lane)
  refine ⟨s.put (s.mach.onGid gid (starved s.dev lane)), ?_, ?_, fun g hg => ?_⟩
  · exact (exec_starvationRaise gid lane s).trans (act_ok _ _ (congrArg (fun d : Dev => d.pkg.asking) hd :))
  · exact (congrArg Dev.mem hd :)
  · rw [State.put_mach, onGid_group? _ _ (keepsGroup_starved _ _), if_pos rfl, hg]
    rfl

/-! ### A spilled register comes back (R200) -/

/-- What evictions of a core's L1 change: copies, lines, and the recordings whose routes depart. -/
def Evicted (d d' : Dev) : Prop := ∃ c l x, d' = { d with cores := c, lines := l, ctxs := x }

theorem Evicted.refl (d : Dev) : Evicted d d := ⟨_, _, _, rfl⟩

theorem Evicted.trans {d d' d'' : Dev} (h : Evicted d d') (h' : Evicted d' d'') : Evicted d d'' := by
  obtain ⟨c, l, x, rfl⟩ := h
  obtain ⟨c', l', x', rfl⟩ := h'
  exact ⟨c', l', x', rfl⟩

theorem setCore_evicted (d : Dev) (k : Nat) (x : Core) : Evicted d (d.setCore k x) := ⟨_, _, _, rfl⟩

theorem recallCopy_evicted (d : Dev) (die l : Nat) : Evicted d (recallCopy d die l) := by
  unfold recallCopy
  dsimp only
  split
  · exact Evicted.refl d
  · split <;> exact ⟨_, _, _, rfl⟩

theorem fallBack_evicted (d : Dev) (die k : Nat) (p : Copy) (l cons : Nat) : Evicted d (evictLine.fallBack d die k p l cons) := by
  unfold evictLine.fallBack
  split
  · unfold departRoute
    split
    · exact Evicted.refl d
    · exact ⟨_, _, _, rfl⟩
  · exact Evicted.refl d

/-- The core drops its copy of a line; a pushed one that nothing has read lets its route depart. -/
def dropCopy (d : Dev) (die core l : Nat) (replaced : Bool) : Dev :=
  let k := coreKey die core
  let c := d.core k
  let d := d.setCore k { c with copies := c.copies.erase l, pushes := c.pushes.erase l }
  match c.pushes.find? l with
  | some p => if p.used || !replaced then d else evictLine.fallBack d die (coreKey die p.prod) p l core
  | none => d

theorem dropCopy_evicted (d : Dev) (die core l : Nat) (replaced : Bool) : Evicted d (dropCopy d die core l replaced) := by
  unfold dropCopy
  dsimp only
  split
  · split
    · exact setCore_evicted ..
    · exact (setCore_evicted ..).trans (fallBack_evicted ..)
  · exact setCore_evicted ..

theorem evictLine_evicted (d : Dev) (die core l : Nat) (replaced : Bool) : Evicted d (evictLine d die core l replaced) := by
  have heq : ∃ d1, Evicted d d1 ∧ evictLine d die core l replaced = dropCopy d1 die core l replaced := by
    cases hc : (d.core (coreKey die core)).copies.find? l with
    | none => exact ⟨d, Evicted.refl d, by simp only [evictLine, hc]; rfl⟩
    | some e =>
      cases he : e.excl
      · exact ⟨d, Evicted.refl d, by simp only [evictLine, hc, he]; rfl⟩
      · exact ⟨recallCopy d die l, recallCopy_evicted d die l, by simp only [evictLine, hc, he]; rfl⟩
  obtain ⟨d1, h1, heq⟩ := heq
  rw [heq]
  exact h1.trans (dropCopy_evicted ..)

theorem evictOne_evicted (d : Dev) (die core : Nat) : Evicted d (evictOne d die core) := by
  unfold evictOne
  dsimp only
  split
  · exact setCore_evicted ..
  · exact evictLine_evicted ..
  · exact Evicted.refl d

theorem shrinkL1_evicted (die core n fuel : Nat) (d : Dev) : Evicted d (shrinkL1 die core n fuel d) := by
  induction fuel generalizing d with
  | zero => exact Evicted.refl d
  | succ fuel ih =>
    rw [shrinkL1]
    split
    · exact Evicted.refl d
    · exact (evictOne_evicted d die core).trans (ih _)

/-- A group differs from another in its spilled registers alone, and r is not among them. -/
def holdsRegister (r : Nat) (g g' : Group) : Prop := g'.spilledRegs.getD r 0 = 0 ∧ { g' with spilledRegs := g.spilledRegs } = g

/-- Registers are spilled, r of the group `gid` not among them. -/
structure Spills (gid r : Nat) (m m' : Mach) : Prop where
  dev : ∃ gs c l x, m'.d = { m.d with groups := gs, cores := c, lines := l, ctxs := x }
  group : ∀ g g', holdsRegister r g g' → m.group? gid = some g' → ∃ g'', m'.group? gid = some g'' ∧ holdsRegister r g g''

theorem Spills.refl (gid r : Nat) (m : Mach) : Spills gid r m m := ⟨⟨_, _, _, _, rfl⟩, fun _ g' hg hm => ⟨g', hm, hg⟩⟩

theorem Spills.trans {gid r : Nat} {m m' m'' : Mach} (h : Spills gid r m m') (h' : Spills gid r m' m'') : Spills gid r m m'' := by
  obtain ⟨⟨gs, c, l, x, hd⟩, hg⟩ := h
  obtain ⟨⟨gs', c', l', x', hd'⟩, hg'⟩ := h'
  refine ⟨⟨gs', c', l', x', by rw [hd', hd]⟩, fun g g1 h1 hm => ?_⟩
  obtain ⟨g2, hm2, h2⟩ := hg g g1 h1 hm
  exact hg' g g2 h2 hm2

theorem Evicted.spills {m : Mach} {d : Dev} (h : Evicted m.d d) (gid r : Nat) : Spills gid r m { m with d := d } := by
  obtain ⟨c, l, x, rfl⟩ := h
  exact ⟨⟨_, c, l, x, rfl⟩, fun _ g' hg hm => ⟨g', hm, hg⟩⟩

theorem spillMark_spills {gid r : Nat} (m : Mach) {e : Nat × Nat} (he : e.1 = gid → e.2 ≠ r) :
    Spills gid r m (m.onGid e.1 fun g => { g with spilledRegs := g.spilledRegs.set e.2 1 0 }) := by
  obtain ⟨gs, hd⟩ := onGid_dev m e.1 fun g => { g with spilledRegs := g.spilledRegs.set e.2 1 0 }
  have hkeep : keepsGroup fun g => { g with spilledRegs := g.spilledRegs.set e.2 1 0 } := fun _ => ⟨rfl, rfl⟩
  refine ⟨⟨gs, _, _, _, hd⟩, fun g g' ⟨hr, hg⟩ hm => ?_⟩
  rw [onGid_group? m e.1 hkeep gid]
  by_cases hk : e.1 = gid
  · rw [if_pos hk, hm]
    refine ⟨_, rfl, ?_, hg⟩
    exact (Tab.getD_set_ne g'.spilledRegs 1 0 0 (he hk)).trans hr
  · rw [if_neg hk]
    exact ⟨g', hm, hr, hg⟩

theorem spillOne_spills {gid r : Nat} (m : Mach) (die core : Nat) {e : Nat × Nat} (he : e.1 = gid → e.2 ≠ r) :
    Spills gid r m (spillOne m die core e) := by
  unfold spillOne
  dsimp only
  have hmark := spillMark_spills m he
  generalize (m.onGid e.1 fun g => { g with spilledRegs := g.spilledRegs.set e.2 1 0 }) = m1 at hmark ⊢
  refine hmark.trans ?_
  have hput (l : List (Nat × Nat)) : Evicted m1.d (m1.d.setCore (coreKey die core) { (m1.d.core (coreKey die core)) with backing := l }) :=
    setCore_evicted ..
  generalize (if (m1.backed die core).contains e then m1.backed die core else m1.backed die core ++ [e]) = all
  cases all with
  | nil => exact Spills.refl ..
  | cons o rest =>
    dsimp only
    split
    · exact (hput _).spills gid r
    · unfold writeToL1
      exact ((hput _).trans ((shrinkL1_evicted _ _ _ _ _).trans (setCore_evicted ..))).spills gid r

theorem leastBy_mem {f : Nat → Nat} {l : List Nat} {x : Nat} (h : leastBy f l = some x) : x ∈ l := by
  cases l with
  | nil => cases h
  | cons y l =>
    cases h
    induction l generalizing y with
    | nil => exact List.mem_cons_self
    | cons z l ih =>
      rw [List.foldl_cons]
      rcases List.mem_cons.1 (ih (if f z < f y then z else y)) with h | h
      · rw [h]
        split <;> simp
      · exact List.mem_cons_of_mem _ (List.mem_cons_of_mem _ h)

/-- A register that a word in the pipe names is not spilled. -/
theorem spillVictim_named {gs : List Group} {gid : Nat} {named : List Nat} {e : Nat × Nat} (h : spillVictim gs gid named = some e)
    (he : e.1 = gid) : e.2 ∉ named := by
  unfold spillVictim at h
  dsimp only at h
  split at h
  · cases h
  · obtain ⟨x, hx, rfl⟩ := Option.map_eq_some_iff.1 h
    have hopen := (List.mem_filter.1 (leastBy_mem hx)).2
    have hout := (Bool.and_eq_true_iff.1 hopen).2
    dsimp only at he
    intro hmem
    simp [he, hmem] at hout

theorem spillCore_spills (die core gid : Nat) (named : List Nat) {r : Nat} (hr : r ∈ named) (fuel : Nat) (m : Mach) :
    Spills gid r m (spillCore die core gid named fuel m) := by
  induction fuel generalizing m with
  | zero => exact Spills.refl ..
  | succ fuel ih =>
    rw [spillCore]
    split
    · exact Spills.refl ..
    · split
      · exact Spills.refl ..
      · next e hv =>
        refine (spillOne_spills m die core fun he hne => ?_).trans (ih _)
        exact spillVictim_named hv he (hne ▸ hr)

theorem spillCore_room {die core gid : Nat} {named : List Nat} {fuel : Nat} {m : Mach} (h : ((m.onCore die core).map physKept).sum ≤ 3072) :
    spillCore die core gid named fuel m = m := by
  cases fuel with
  | zero => rfl
  | succ fuel => exact if_pos h

theorem exec_registerRefill (gid : Nat) (r : BitVec 8) (s : State) :
    exec (.registerRefill gid r) s = act (fun _ m => m.refill gid [r.toNat]) s := rfl

/-- The machine with a register of a group back, before others give up their room. -/
def broughtBack (m : Mach) (gid r : Nat) (g : Group) : Mach :=
  let m := m.onGid gid fun g => { g with spilledRegs := g.spilledRegs.erase r }
  let k := coreKey g.die g.core
  let c := m.d.core k
  { m with d := m.d.setCore k { c with
    backing := c.backing.filter fun e => !(e.1 == gid && [r].contains e.2)
    l1Regs := c.l1Regs.filter fun e => !(e.1 == gid && [r].contains e.2.1) } }

theorem refill_eq {m : Mach} {gid : Nat} {g : Group} (h : m.group? gid = some g) (r : Nat) :
    m.refill gid [r] = spillCore g.die g.core gid [r] 4096 (broughtBack m gid r g) := by
  rw [Mach.refill, h]
  rfl

theorem broughtBack_group? {m : Mach} {gid : Nat} {g : Group} (h : m.group? gid = some g) (r : Nat) :
    (broughtBack m gid r g).group? gid = some { g with spilledRegs := g.spilledRegs.erase r } := by
  have hk : keepsGroup fun g => { g with spilledRegs := g.spilledRegs.erase r } := fun _ => ⟨rfl, rfl⟩
  exact (onGid_group? m gid hk gid).trans (by rw [if_pos rfl, h]; rfl)

theorem broughtBack_dev (m : Mach) (gid r : Nat) (g : Group) : ∃ gs c, (broughtBack m gid r g).d = { m.d with groups := gs, cores := c } := by
  obtain ⟨gs, hd⟩ := onGid_dev m gid fun g => { g with spilledRegs := g.spilledRegs.erase r }
  have hcore : ∃ c, (broughtBack m gid r g).d =
      { (m.onGid gid fun g => { g with spilledRegs := g.spilledRegs.erase r }).d with cores := c } := ⟨_, rfl⟩
  obtain ⟨c, hc⟩ := hcore
  exact ⟨gs, c, by rw [hc, hd]⟩

/-- A spilled register comes back. -/
theorem refill_brings {m : Mach} {gid : Nat} {g : Group} (h : m.group? gid = some g) (r : Nat) :
    (m.refill gid [r]).d.mem = m.d.mem ∧ (m.refill gid [r]).d.pkg.asking = m.d.pkg.asking ∧
    ∃ g', (m.refill gid [r]).group? gid = some g' ∧ holdsRegister r g g' := by
  obtain ⟨gs, c, hd⟩ := broughtBack_dev m gid r g
  obtain ⟨⟨gs', c', l', x', hd'⟩, hgroup⟩ := spillCore_spills g.die g.core gid [r] List.mem_cons_self 4096 (broughtBack m gid r g)
  rw [refill_eq h]
  have hback : holdsRegister r g { g with spilledRegs := g.spilledRegs.erase r } := ⟨Tab.getD_erase_self .., rfl⟩
  exact ⟨by rw [hd', hd], by rw [hd', hd], hgroup g _ hback (broughtBack_group? h r)⟩

theorem refill_room {m : Mach} {gid : Nat} {g : Group} (h : m.group? gid = some g) (r : Nat)
    (hr : (((m.onGid gid fun x => { x with spilledRegs := x.spilledRegs.erase r }).onCore g.die g.core).map physKept).sum ≤ 3072) :
    (m.refill gid [r]).group? gid = some { g with spilledRegs := g.spilledRegs.erase r } := by
  rw [refill_eq h, spillCore_room (m := broughtBack m gid r g) hr]
  exact broughtBack_group? h r

/-! ### An injected exit (R187) -/

theorem exec_exitInject (gid : Nat) (s : State) : exec (.exitInject gid) s = act (fun _ m => exitInject gid m) s := rfl

/-- The device once a group's exit is recorded and it has left its team. -/
def exited (d : Dev) (g : Group) (gid : Nat) : Dev :=
  let d := dropEngines (exitRecord (unwatch d g) g) (· = gid)
  let t := d.team g.team
  d.setTeam g.team { t with
    members := t.members.filter (· ≠ gid), freed := if t.tails.isEmpty then (g.core, g.slot) :: t.freed else t.freed }

theorem unwatch_lines (d : Dev) (g : Group) : ∃ l, unwatch d g = { d with lines := l } := by
  unfold unwatch
  split <;> exact ⟨_, rfl⟩

/-- The requests that stay when a group exits: others', and what it has sent through a port (R187). -/
def staysOnWay (gid : Nat) (r : Remote) : Bool :=
  !(r.gid != 0 && decide (r.gid = gid)) || ((r.write.isSome || r.atomic.isSome) && !r.envelope)

/-- What its exit changes in the device. -/
theorem exited_eq (d : Dev) (g : Group) (gid : Nat) : ∃ l cl ds e ts, exited d g gid = { d with
    lines := l, clusters := cl, dies := ds, pkg := { d.pkg with events := d.pkg.events ++ [e] }
    remotes := d.remotes.filter (staysOnWay gid), teams := ts } := by
  obtain ⟨l, hl⟩ := unwatch_lines d g
  unfold exited
  rw [hl]
  exact ⟨l, _, _, _, _, rfl⟩

theorem exited_members (d : Dev) (g : Group) (gid : Nat) :
    ((exited d g gid).team g.team).members = (d.team g.team).members.filter (· ≠ gid) := by
  obtain ⟨l, hl⟩ := unwatch_lines d g
  unfold exited
  dsimp only
  rw [Dev.team_setTeam, hl]
  rfl

/-- The group on turn is not among the others; another group is. -/
theorem focus_group? {m : Mach} {gid : Nat} {g : Group} (h : m.group? gid = some g) (ha : m.d.groups.find? m.g.gid = none) :
    (m.focus gid).g = g ∧ (m.focus gid).d.groups.find? gid = none ∧ ∃ gs, (m.focus gid).d = { m.d with groups := gs } := by
  unfold Mach.group? at h
  unfold Mach.focus
  by_cases ht : (decide (m.g.gid = gid) && m.g.live) = true
  · rw [if_pos ht] at h ⊢
    cases h
    rw [of_decide_eq_true (Bool.and_eq_true_iff.1 ht).1] at ha
    exact ⟨rfl, ha, _, rfl⟩
  · rw [if_neg ht] at h ⊢
    rw [h]
    refine ⟨rfl, ?_, _, rfl⟩
    dsimp only
    split
    · next hl =>
      have hne : m.g.gid ≠ gid := by simpa [hl] using ht
      rw [Tab.find?_insert_ne _ _ hne, Tab.find?_erase_self]
    · exact Tab.find?_erase_self ..

/-- A group that leaves its ids and its slot is gone. -/
theorem dropMember_gone {m : Mach} {gid : Nat} {g : Group} (h : m.group? gid = some g) (ha : m.d.groups.find? m.g.gid = none) :
    (exitInject.dropMember m gid).group? gid = none ∧
    ∃ gs x c, (exitInject.dropMember m gid).d = { m.d with groups := gs, ctxs := x, cores := c } := by
  obtain ⟨-, hnone, gs, hfd⟩ := focus_group? h ha
  obtain ⟨-, ⟨x, c, hld⟩, -⟩ := leaveAll_leavesIds (m.focus gid)
  unfold exitInject.dropMember
  generalize leaveAll (m.focus gid) = m1 at hld
  refine ⟨?_, gs, x, c, hld.trans (by rw [hfd])⟩
  dsimp only
  rw [Mach.group?, if_neg (by simp [Group.gone]), hld]
  exact hnone

theorem exitInject_eq {m : Mach} {gid : Nat} {g : Group} (h : m.group? gid = some g) {m' : Mach}
    (hm : exitInject.dropMember ⟨m.g, exited m.d g gid⟩ gid = m') (hx : (m'.d.team g.team).members ≠ []) : exitInject gid m = m' := by
  unfold exitInject
  rw [h, ← hm]
  refine if_neg fun hand => hx ?_
  rw [← hm]
  exact List.isEmpty_iff.1 (Bool.and_eq_true_iff.1 hand).1

/-- A group of several that its exit takes from its team. -/
theorem exitInject_leaves {m : Mach} {gid : Nat} {g : Group} (h : m.group? gid = some g) (ha : m.d.groups.find? m.g.gid = none)
    (hx : ∃ x ∈ (m.d.team g.team).members, x ≠ gid) : ∃ m', exitInject gid m = m' ∧ m'.group? gid = none ∧
      (m'.d.team g.team).members = (m.d.team g.team).members.filter (· ≠ gid) ∧ m'.d.mem = m.d.mem ∧
      m'.d.remotes = m.d.remotes.filter (staysOnWay gid) ∧
      m'.d.pkg.asking = m.d.pkg.asking ∧ ∃ e, m'.d.pkg.events = m.d.pkg.events ++ [e] := by
  obtain ⟨l, cl, ds, e, ts, hd⟩ := exited_eq m.d g gid
  have hmembers := exited_members m.d g gid
  have hgroups : (exited m.d g gid).groups = m.d.groups := by rw [hd]
  have hmem : (exited m.d g gid).mem = m.d.mem := by rw [hd]
  have hremotes : (exited m.d g gid).remotes = m.d.remotes.filter (staysOnWay gid) := by rw [hd]
  have hpkg : (exited m.d g gid).pkg = { m.d.pkg with events := m.d.pkg.events ++ [e] } := by rw [hd]
  have heq := exitInject_eq h (m' := exitInject.dropMember ⟨m.g, exited m.d g gid⟩ gid) rfl
  clear hd
  generalize exited m.d g gid = d1 at hmembers hgroups hmem hremotes hpkg heq
  have hgroup : Mach.group? ⟨m.g, d1⟩ gid = some g := by
    rw [← h, Mach.group?, Mach.group?, hgroups]
  obtain ⟨hgone, gs, x, c, hdrop⟩ := dropMember_gone hgroup (by rw [hgroups]; exact ha)
  generalize exitInject.dropMember ⟨m.g, d1⟩ gid = m' at hgone hdrop heq
  have hteam : (m'.d.team g.team).members = (m.d.team g.team).members.filter (· ≠ gid) := by
    rw [← hmembers, hdrop]
    rfl
  refine ⟨m', heq ?_, hgone, hteam, ?_, ?_, ?_, e, ?_⟩
  · obtain ⟨y, hy, hne⟩ := hx
    rw [hteam]
    exact List.ne_nil_of_mem (List.mem_filter.2 ⟨hy, by simpa using hne⟩)
  · rw [hdrop, ← hmem]
  · rw [hdrop, ← hremotes]
  · rw [hdrop]
    exact (congrArg Pkg.asking hpkg :)
  · rw [hdrop]
    exact (congrArg Pkg.events hpkg :)

/-! ### How a team gives its slots back (R205, R206, R210) -/

theorem exec_preemptRequest (k : Nat) (s : State) : exec (.preemptRequest k) s = act (fun _ m => preemptTeam k m) s := rfl

/-- What the end of a drain does. -/
def drainEnds (k : Nat) (m : Mach) : Mach :=
  if (m.d.team k).status == .resident && (m.d.team k).draining then giveBack m k (chooseMethod m k true) else m

theorem exec_drainExpiry (k : Nat) (s : State) : exec (.drainExpiry k) s = act (fun _ m => drainEnds k m) s := rfl

section
variable {m : Mach} {k : Nat}

theorem preemptTeam_idles (h : (m.d.team k).status ≠ .resident ∨ (m.d.team k).members = [] ∨ (m.d.team k).draining = true ∨
    (m.d.team k).preempt = true) : preemptTeam k m = m := by
  refine if_pos ?_
  simp only [Bool.or_eq_true, bne_iff_ne, List.isEmpty_iff, or_assoc]
  exact h

theorem preemptTeam_gives (hs : (m.d.team k).status = .resident) (hm : (m.d.team k).members ≠ []) (hd : (m.d.team k).draining = false)
    (hp : (m.d.team k).preempt = false) : preemptTeam k m = giveBack m k (chooseMethod m k false) := by
  refine if_neg ?_
  simp [hs, hm, hd, hp]

theorem drainEnds_gives (hs : (m.d.team k).status = .resident) (hd : (m.d.team k).draining = true) :
    drainEnds k m = giveBack m k (chooseMethod m k true) := if_pos (by rw [hs, hd]; rfl)

theorem drainEnds_idles (h : (m.d.team k).status ≠ .resident ∨ (m.d.team k).draining = false) : drainEnds k m = m := by
  refine if_neg ?_
  rcases h with h | h <;> simp [h]

/-! The choice of R206. -/

/-- The drain line: the runs of the launch say that the team ends soon. -/
def endsSoon (m : Mach) (k : Nat) : Prop :=
  let l := m.d.launch (m.d.team k).launch
  l.runs ≠ [] ∧ l.runs.sum ≤ l.runs.length * ((m.d.team k).runTime m.d.time + (m.d.ctx (m.d.team k).ctx).drain)

/-- The flush line: the team may start anew, and has run less than its save would take. -/
def cheapToFlush (m : Mach) (k : Nat) : Prop :=
  (m.d.team k).elig = true ∧ 64 * (m.d.team k).runTime m.d.time ≤ saveBytes m k

theorem chooseMethod_coop (drained : Bool) (h : coopTeam m.d (m.d.team k) = true) : chooseMethod m k drained = .save := if_pos h

section
variable (hc : coopTeam m.d (m.d.team k) = false)
include hc

theorem chooseMethod_drains (hs : endsSoon m k) : chooseMethod m k false = .drain := by
  obtain ⟨hr, hsum⟩ := hs
  unfold chooseMethod
  rw [if_neg (by rw [hc]; decide)]
  exact if_pos (by simpa [List.length_pos_iff.2 hr] using hsum)

theorem chooseMethod_rest {drained : Bool} (hs : drained = true ∨ ¬ endsSoon m k) :
    chooseMethod m k drained = if (m.d.team k).elig && 64 * (m.d.team k).runTime m.d.time ≤ saveBytes m k then .flush else .save := by
  unfold chooseMethod
  rw [if_neg (by rw [hc]; decide)]
  refine if_neg fun h => ?_
  simp only [Bool.and_eq_true, Bool.not_eq_true', decide_eq_true_eq] at h
  obtain ⟨⟨hd, hn⟩, hsum⟩ := h
  rcases hs with hs | hs
  · rw [hs] at hd
    cases hd
  · exact hs ⟨List.length_pos_iff.1 hn, hsum⟩

theorem chooseMethod_flushes {drained : Bool} (hs : drained = true ∨ ¬ endsSoon m k) (hf : cheapToFlush m k) :
    chooseMethod m k drained = .flush := by
  rw [chooseMethod_rest hc hs]
  exact if_pos (by rw [hf.1, decide_eq_true hf.2]; rfl)

theorem chooseMethod_saves {drained : Bool} (hs : drained = true ∨ ¬ endsSoon m k) (hf : ¬ cheapToFlush m k) :
    chooseMethod m k drained = .save := by
  rw [chooseMethod_rest hc hs]
  refine if_neg fun h => hf ?_
  obtain ⟨he, hle⟩ := Bool.and_eq_true_iff.1 h
  exact ⟨he, of_decide_eq_true hle⟩

end

end

/-! What a method does. -/

/-- The teams of a list, marked. -/
def markTeams (f : Team → Team) (l : List Nat) (d : Dev) : Dev := l.foldl (fun d k => d.setTeam k (f (d.team k))) d

theorem markTeams_teams (f : Team → Team) (l : List Nat) (d : Dev) : ∃ ts, markTeams f l d = { d with teams := ts } := by
  unfold markTeams
  induction l generalizing d with
  | nil => exact ⟨_, rfl⟩
  | cons j l ih =>
    obtain ⟨ts, h⟩ := ih (d.setTeam j (f (d.team j)))
    exact ⟨ts, h⟩

/-- A mark that stands when it is made twice stands on each team of the list. -/
theorem markTeams_team {f : Team → Team} (hf : ∀ t, f (f t) = f t) {l : List Nat} {k : Nat} (hk : k ∈ l) (d : Dev) :
    (markTeams f l d).team k = f (d.team k) := by
  have hmark (l : List Nat) (d : Dev) : (markTeams f l d).team k = if k ∈ l then f (d.team k) else d.team k := by
    unfold markTeams
    induction l generalizing d with
    | nil => simp
    | cons j l ih =>
      rw [List.foldl_cons, ih]
      by_cases hj : j = k
      · subst hj
        simp [hf]
      · simp [Dev.team_setTeam_ne _ _ hj, Ne.symm hj]
  rw [hmark, if_pos hk]

/-- A request that marks the team and leaves the rest. -/
theorem giveBack_save {m : Mach} {k : Nat} (hk : k ∈ together m.d k) : ∃ ts, giveBack m k .save = ⟨m.g, { m.d with teams := ts }⟩ ∧
    (giveBack m k .save).d.team k = { m.d.team k with preempt := true, draining := false } := by
  obtain ⟨ts, h⟩ := markTeams_teams (fun t => { t with preempt := true, draining := false }) (together m.d k) m.d
  refine ⟨ts, congrArg (Mach.mk m.g) h, ?_⟩
  exact markTeams_team (f := fun t => { t with preempt := true, draining := false }) (fun _ => rfl) hk m.d

theorem giveBack_drain {m : Mach} {k : Nat} (hk : k ∈ together m.d k) : ∃ ts, giveBack m k .drain = ⟨m.g, { m.d with teams := ts }⟩ ∧
    (giveBack m k .drain).d.team k = { m.d.team k with draining := true } := by
  obtain ⟨ts, h⟩ := markTeams_teams (fun t => { t with draining := true }) (together m.d k) m.d
  refine ⟨ts, congrArg (Mach.mk m.g) h, ?_⟩
  exact markTeams_team (f := fun t => { t with draining := true }) (fun _ => rfl) hk m.d

theorem mem_together_alone {d : Dev} {k : Nat} (h : coopTeam d (d.team k) = false) : k ∈ together d k := by
  rw [together, if_neg (by rw [h]; decide)]
  exact List.mem_cons_self

theorem mem_together_coop {d : Dev} {k : Nat} (h : coopTeam d (d.team k) = true) (hx : ∃ x ∈ d.teams, x.1 = k ∧ x.2 = d.team k)
    (ho : (d.team k).over = false) : k ∈ together d k := by
  rw [together, if_pos h]
  obtain ⟨x, hx, rfl, hteam⟩ := hx
  refine List.mem_map.2 ⟨x, List.mem_filter.2 ⟨hx, ?_⟩, rfl⟩
  rw [hteam, ho]
  simp

/-! The flush of a team. -/

/-- The roles that a team drops are written in its contexts and cores. -/
theorem fallRoutes_eq (m : Mach) (team : Nat) : ∃ c x, fallRoutes m team = ⟨m.g, { m.d with cores := c, ctxs := x }⟩ := by
  unfold fallRoutes
  dsimp only
  split
  · exact ⟨_, _, rfl⟩
  · split <;> exact ⟨_, _, rfl⟩

theorem foldl_ctxs {α : Type} {f : Dev → α → Dev} (hf : ∀ d a, ∃ x, f d a = { d with ctxs := x }) (l : List α) (d : Dev) :
    ∃ x, l.foldl f d = { d with ctxs := x } := by
  induction l generalizing d with
  | nil => exact ⟨_, rfl⟩
  | cons a l ih =>
    obtain ⟨x, h⟩ := hf d a
    obtain ⟨x', h'⟩ := ih { d with ctxs := x }
    exact ⟨x', by rw [List.foldl_cons, h, h']⟩

/-- A group that is dropped leaves its recording of an id. -/
def leftRole (g : Group) (d : Dev) (i : Nat) : Dev :=
  if g.roles.getD i .idle = .idle then d
  else
    let x := d.ctx g.ctx
    let r := x.recording g.die i
    d.setCtx g.ctx (x.setRecording g.die i
      { r with joined := r.joined - 1, recorded := r.recorded || g.roles.getD i .idle = .recording })

theorem leftRole_ctxs (g : Group) (d : Dev) (i : Nat) : ∃ x, leftRole g d i = { d with ctxs := x } := by
  unfold leftRole
  split <;> exact ⟨_, rfl⟩

theorem dropRoles_eq (m : Mach) (team : Nat) : ∃ x, dropRoles m team = ⟨m.g, { m.d with ctxs := x }⟩ := by
  obtain ⟨x, h⟩ := foldl_ctxs (f := fun d g => (List.range 16).foldl (leftRole g) d)
    (fun d g => foldl_ctxs (leftRole_ctxs g) (List.range 16) d) (m.allGroups.filter fun g => g.team = team) m.d
  exact ⟨x, congrArg (Mach.mk m.g) h⟩

theorem foldl_unwatch_lines (gs : List Group) (d : Dev) : ∃ l, gs.foldl unwatch d = { d with lines := l } := by
  induction gs generalizing d with
  | nil => exact ⟨_, rfl⟩
  | cons g gs ih =>
    obtain ⟨l, h⟩ := unwatch_lines d g
    obtain ⟨l', h'⟩ := ih { d with lines := l }
    exact ⟨l', by rw [List.foldl_cons, h, h']⟩

/-- The groups of a team are gone, and what they had under way. -/
theorem dropGroups_eq (m : Mach) (team : Nat) : ∃ c x l cl ds rs, dropGroups m team =
    ⟨if m.g.live && m.g.team = team then m.g.gone else m.g,
      { m.d with cores := c, ctxs := x, lines := l, clusters := cl, dies := ds, remotes := rs
                 groups := m.d.groups.filter fun e => e.2.team ≠ team }⟩ := by
  obtain ⟨c, x, h1⟩ := fallRoutes_eq m team
  obtain ⟨x', h2⟩ := dropRoles_eq (fallRoutes m team) team
  obtain ⟨l, h3⟩ := foldl_unwatch_lines ((dropRoles (fallRoutes m team) team).allGroups.filter fun g => g.team = team)
    (dropRoles (fallRoutes m team) team).d
  unfold dropGroups
  dsimp only
  rw [h3, h2, h1]
  exact ⟨_, _, _, _, _, _, rfl⟩

/-- No group of a team that was dropped is left. -/
theorem dropGroups_none (m : Mach) (team : Nat) : ∀ g ∈ (dropGroups m team).allGroups, g.team ≠ team := by
  obtain ⟨c, x, l, cl, ds, rs, h⟩ := dropGroups_eq m team
  intro g hg
  rw [h, Mach.allGroups] at hg
  rcases List.mem_append.1 hg with hg | hg
  · by_cases hl : (m.g.live && decide (m.g.team = team)) = true
    · simp [hl, Group.gone] at hg
    · simp only [if_neg hl] at hg
      split at hg
      · next hlive =>
        rw [List.mem_singleton.1 hg]
        simpa [hlive] using hl
      · cases hg
  · obtain ⟨e, he, rfl⟩ := List.mem_map.1 hg
    simpa using (List.mem_filter.1 he).2

/-- A flush empties the team, which may start anew. -/
theorem flushTeam_relaunch {m : Mach} {k : Nat} (hp : (m.d.team k).partner = none) : flushTeam m k =
    ⟨(dropGroups m k).g, (dropGroups m k).d.setTeam k (((dropGroups m k).d.team k).emptied .relaunch)⟩ := by
  unfold flushTeam
  dsimp only
  rw [hp]

theorem giveBack_flush {m : Mach} {k : Nat} (hp : (m.d.team k).partner = none) :
    ((giveBack m k .flush).d.team k).status = .relaunch ∧ ((giveBack m k .flush).d.team k).slots = [] ∧
    (giveBack m k .flush).d.mem = m.d.mem ∧ (giveBack m k .flush).d.pkg.asking = m.d.pkg.asking ∧
    ∀ g ∈ (giveBack m k .flush).allGroups, g.team ≠ k := by
  obtain ⟨c, x, l, cl, ds, rs, h⟩ := dropGroups_eq m k
  have hnone := dropGroups_none m k
  have hflush : giveBack m k .flush = _ := flushTeam_relaunch hp
  rw [hflush]
  refine ⟨?_, ?_, ?_, ?_, hnone⟩
  · rw [Dev.team_setTeam]
    rfl
  · rw [Dev.team_setTeam]
    rfl
  · rw [h]
    rfl
  · rw [h]
    rfl

/-! ### The claims -/

theorem act_leads {i : Instr} {f : Mach → Mach} {s : State} {p : State → Prop} (hi : exec i s = act (fun _ m => f m) s)
    (ha : (f s.mach).d.pkg.asking = s.dev.pkg.asking) (hp : p (s.put (f s.mach))) : leads i s p :=
  ⟨_, hi.trans (act_ok _ s ha), hp⟩

theorem act_idles {i : Instr} {f : Mach → Mach} {s : State} (hi : exec i s = act (fun _ m => f m) s) (hf : f s.mach = s.mach) :
    idles i s := by
  refine (hi.trans (act_ok _ s (by rw [hf]; rfl))).trans ?_
  rw [hf, State.put_self]

theorem groupEvents : Claims.GroupEvents := by
  intro s gid
  refine ⟨fun ctx cls hc hl ht => ?_, fun ctx cls ht => nevWindowEnd_stops ht, ?_, ?_, fun r g hg _ => ?_, fun hg => ?_,
    fun g hg ha _ hx => ?_⟩
  · obtain ⟨h0, h32⟩ := clearLow32_fields ((s.dev.ctx ctx).nev.getD cls 0)
    refine ⟨_, nevWindowEnd_runs hc hl ht, rfl, rfl, ?_⟩
    rw [State.put_dev, Dev.ctx_setCtx]
    dsimp only
    rw [Tab.getD_set_self]
    exact ⟨h0, Tab.getD_set_self .., h32, fun j hj => Tab.getD_set_ne _ _ _ _ hj.symm, rfl⟩
  · obtain ⟨t, ht, hmem, hgroup⟩ := starvationRaise_groupBecomes gid true s
    refine ⟨t, ht, hmem, fun g hg => (hgroup g hg).trans (congrArg some ?_)⟩
    cases hm : mayIssue s.dev g <;> cases hq : g.queue <;> simp [starved, hm, hq]
  · obtain ⟨t, ht, hmem, hgroup⟩ := starvationRaise_groupBecomes gid false s
    refine ⟨t, ht, hmem, fun g hg => (hgroup g hg).trans (congrArg some ?_)⟩
    cases hm : mayIssue s.dev g <;> simp [starved, hm]
  · obtain ⟨hmem, hask, g', hg', hback, hrest⟩ := refill_brings hg r.toNat
    refine act_leads (exec_registerRefill gid r s) hask ⟨g', hg', hback, hrest, hmem, fun hroom j hj => ?_⟩
    have hsome := hg'.symm.trans (refill_room hg r.toNat hroom)
    rw [Option.some.inj hsome]
    exact Tab.getD_erase_ne _ _ hj.symm
  · refine act_idles (exec_exitInject gid s) ?_
    simp only [exitInject, hg]
  · obtain ⟨m', hm', hgone, hmembers, hmem, hremotes, hask, hevents⟩ := exitInject_leaves hg ha hx
    subst hm'
    refine act_leads (exec_exitInject gid s) hask ⟨hgone, hmembers, hmem, fun p hp => ?_, hevents⟩
    have hstays := (List.mem_filter.1 (hremotes ▸ hp)).2
    by_cases h1 : p.gid = gid
    · by_cases h0 : gid = 0
      · exact .inr (.inl h0)
      · refine .inr (.inr ?_)
        simpa [staysOnWay, h1, h0] using hstays
    · exact .inl h1

theorem over_of_resident {t : Team} (h : t.status = .resident) : t.over = false := by
  rw [Team.over, h]
  rfl

theorem preemption : Claims.Preemption := by
  intro s k hp t0 l e coop soon cheap saves flushes
  have hsoon : soon ↔ endsSoon s.mach k := Iff.rfl
  have hcheap : cheap ↔ cheapToFlush s.mach k := Iff.rfl
  have hcoop (h : ¬ coop) : coopTeam s.mach.d (s.mach.d.team k) = false := Bool.eq_false_iff.2 h
  have hsaves {i : Instr} {f : Mach → Mach} (hi : exec i s = act (fun _ m => f m) s) (hs : t0.status = .resident)
      (hk : k ∈ together s.mach.d k) (hf : f s.mach = giveBack s.mach k .save) : saves i := by
    obtain ⟨ts, hsave, hteam⟩ := giveBack_save hk
    have hrest : (f s.mach).g = s.grp ∧ (f s.mach).d.mem = s.dev.mem ∧ (f s.mach).d.pkg.asking = s.dev.pkg.asking := by
      rw [hf, hsave]
      exact ⟨rfl, rfl, rfl⟩
    refine act_leads hi hrest.2.2 ?_
    rw [← hf] at hteam
    rw [State.put_dev, State.put_grp, hteam]
    exact ⟨rfl, rfl, hs, hrest.1, hrest.2.1⟩
  have hflushes {i : Instr} {f : Mach → Mach} (hi : exec i s = act (fun _ m => f m) s)
      (hf : f s.mach = giveBack s.mach k .flush) : flushes i := by
    obtain ⟨hst, hsl, hmem, hask, hgone⟩ := giveBack_flush (m := s.mach) hp
    rw [← hf] at hst hsl hmem hask hgone
    exact act_leads hi hask ⟨hst, hsl, hmem, hgone⟩
  refine ⟨fun h => act_idles (exec_preemptRequest k s) (preemptTeam_idles h), fun hs hm hd hpre => ?_, fun hs hd hc => ?_,
    fun h => act_idles (exec_drainExpiry k s) (drainEnds_idles h)⟩
  · have hgives : preemptTeam k s.mach = giveBack s.mach k (chooseMethod s.mach k false) := preemptTeam_gives hs hm hd hpre
    refine ⟨fun hc hx => ?_, fun hc hsn => ?_, fun hc hns hch => ?_, fun hc hns hch => ?_⟩
    · refine hsaves (exec_preemptRequest k s) hs (mem_together_coop hc hx (over_of_resident hs)) ?_
      rw [hgives, chooseMethod_coop (m := s.mach) (k := k) false hc]
    · obtain ⟨ts, hdrain, hteam⟩ := giveBack_drain (mem_together_alone (hcoop hc))
      rw [chooseMethod_drains (hcoop hc) (hsoon.1 hsn)] at hgives
      rw [← hgives] at hdrain hteam
      refine act_leads (exec_preemptRequest k s) (by rw [hdrain]; rfl) ?_
      rw [State.put_dev, State.put_grp, hteam, hdrain]
      exact ⟨rfl, hpre, hs, rfl⟩
    · refine hflushes (exec_preemptRequest k s) ?_
      rw [hgives, chooseMethod_flushes (hcoop hc) (.inr hns) hch]
    · refine hsaves (exec_preemptRequest k s) hs (mem_together_alone (hcoop hc)) ?_
      rw [hgives, chooseMethod_saves (hcoop hc) (.inr hns) hch]
  · have hgives : drainEnds k s.mach = giveBack s.mach k (chooseMethod s.mach k true) := drainEnds_gives hs hd
    refine ⟨fun hch => hflushes (exec_drainExpiry k s) ?_,
      fun hch => hsaves (exec_drainExpiry k s) hs (mem_together_alone (hcoop hc)) ?_⟩
    · rw [hgives, chooseMethod_flushes (hcoop hc) (.inl rfl) hch]
    · rw [hgives, chooseMethod_saves (hcoop hc) (.inl rfl) hch]

end Sys2Proof.Machine

namespace Sys2Proof

/-- Settles O36: an event of a group changes that group and its record; a request for a team's slots is the method that R206 chooses. -/
theorem groupAndTeamEvents : Obligations.GroupAndTeamEvents := ⟨Machine.groupEvents, Machine.preemption⟩

end Sys2Proof
end

section
/-! ## Operations in flight that complete (R103, R319) -/

namespace Sys2Proof.Machine

/-! ### A change of a group and of its twin -/

/-- A group changed once, or twice where its twin bears its number. -/
def onceOrTwice (f : Group → Group) (g g' : Group) : Prop := g' = f g ∨ g' = f (f g)

theorem onPair_group? {m : Mach} {gid : Nat} {g : Group} {f : Group → Group} (hf : keepsGroup f) (h : m.group? gid = some g) :
    ∃ g', (m.onPair gid f).group? gid = some g' ∧ onceOrTwice f g g' := by
  have hone : (m.onGid gid f).group? gid = some (f g) := by rw [onGid_group? m gid hf, if_pos rfl, h]; rfl
  unfold Mach.onPair
  simp only [h]
  split
  · exact ⟨_, hone, .inl rfl⟩
  · next x _ =>
    by_cases hx : x.gid = gid
    · exact ⟨f (f g), by rw [onGid_group? _ _ hf, if_pos hx, hone]; rfl, .inr rfl⟩
    · exact ⟨f g, by rw [onGid_group? _ _ hf, if_neg hx, hone], .inl rfl⟩

theorem onPair_dev (m : Mach) (gid : Nat) (f : Group → Group) : ∃ gs, (m.onPair gid f).d = { m.d with groups := gs } := by
  unfold Mach.onPair
  split
  · exact ⟨_, rfl⟩
  · obtain ⟨gs, h⟩ := onGid_dev m gid f
    dsimp only
    split
    · exact ⟨gs, h⟩
    · next x _ =>
      obtain ⟨gs', h'⟩ := onGid_dev (m.onGid gid f) x.gid f
      exact ⟨gs', by rw [h', h]⟩

theorem group?_turn {m : Mach} (hl : m.g.live = true) : m.group? m.g.gid = some m.g := if_pos (by simp [hl])

theorem onGid_turn (m : Mach) (gid : Nat) {f : Group → Group} (hf : keepsGroup f) :
    (m.onGid gid f).g.gid = m.g.gid ∧ (m.onGid gid f).g.live = m.g.live := by
  unfold Mach.onGid
  split
  · exact hf m.g
  · exact ⟨rfl, rfl⟩

/-- The group on turn stays on turn. -/
theorem onPair_turn (m : Mach) (gid : Nat) {f : Group → Group} (hf : keepsGroup f) :
    (m.onPair gid f).g.gid = m.g.gid ∧ (m.onPair gid f).g.live = m.g.live := by
  unfold Mach.onPair
  split
  · exact ⟨rfl, rfl⟩
  · obtain ⟨h1, h2⟩ := onGid_turn m gid hf
    dsimp only
    split
    · exact ⟨h1, h2⟩
    · next x _ =>
      obtain ⟨h3, h4⟩ := onGid_turn (m.onGid gid f) x.gid hf
      exact ⟨h3.trans h1, h4.trans h2⟩

/-! ### Completion (R103) -/

theorem count_retire_le (g : Group) (p q : Path) : (g.retire q).count p ≤ g.count p := by
  show (List.filter _ (List.filter _ g.flights)).length ≤ (g.flights.filter _).length
  rw [List.filter_filter, ← List.countP_eq_length_filter, ← List.countP_eq_length_filter]
  exact List.countP_mono_left fun f _ hf => by simpa using And.left (by simpa using hf)

/-- The first operation of a path that is done leaves the counter. -/
theorem count_retire_lt {g : Group} {p : Path} {f : Flight} (h : (g.flights.filter fun x => x.path == p).head? = some f)
    (hd : f.done = true) : (g.retire p).count p < g.count p := by
  obtain ⟨rest, hmine⟩ : ∃ rest, (g.flights.filter fun x => x.path == p) = f :: rest := by
    cases hm : g.flights.filter fun x => x.path == p with
    | nil => rw [hm] at h; cases h
    | cons x rest =>
      rw [hm] at h
      exact ⟨rest, by rw [Option.some.inj h]⟩
  have hcount : (g.retire p).count p = (List.filter (fun x => !(((f :: rest).takeWhile fun f => f.done).map fun f => f.id).contains x.id)
      (f :: rest)).length := by
    rw [← hmine, List.filter_filter]
    show (List.filter _ (List.filter _ g.flights)).length = _
    rw [List.filter_filter]
    congr 2
    funext x
    cases x.path == p <;> simp
  rw [hcount, Group.count, hmine]
  refine List.length_filter_lt_length_iff_exists.2 ⟨f, List.mem_cons_self, ?_⟩
  simp [hd]

/-- An operation marked as done keeps its path, its number and its place. -/
def markDone (id wts : Nat) (f : Flight) : Flight := if f.id = id then { f with done := true, wts := max f.wts wts } else f

theorem complete_found {g : Group} {id : Nat} {f : Flight} (h : g.flights.find? (fun f => f.id == id) = some f) (wts : Nat) :
    g.complete id wts = Group.retire { g with flights := g.flights.map (markDone id wts) } f.path := by
  unfold Group.complete
  rw [h]
  rfl

theorem complete_none {g : Group} {id : Nat} (h : g.flights.find? (fun f => f.id == id) = none) (wts : Nat) : g.complete id wts = g := by
  unfold Group.complete
  rw [h]

theorem filter_markDone (id wts : Nat) (p : Path) (l : List Flight) :
    (l.map (markDone id wts)).filter (fun x => x.path == p) = (l.filter fun x => x.path == p).map (markDone id wts) := by
  rw [List.filter_map]
  congr 2
  funext x
  show ((markDone id wts x).path == p) = _
  unfold markDone
  split <;> rfl

theorem count_markDone (g : Group) (id wts : Nat) (p : Path) :
    Group.count { g with flights := g.flights.map (markDone id wts) } p = g.count p := by
  show (List.filter _ (g.flights.map (markDone id wts))).length = _
  rw [filter_markDone, List.length_map]
  rfl

theorem count_complete_le (g : Group) (id wts : Nat) (p : Path) : (g.complete id wts).count p ≤ g.count p := by
  cases h : g.flights.find? (fun f => f.id == id) with
  | none => rw [complete_none h]
  | some f =>
    rw [complete_found h]
    exact (count_retire_le _ p f.path).trans (count_markDone g id wts p).le

theorem count_completeAt_le (g : Group) (q : Path) (pos wts : Nat) (p : Path) : (g.completeAt q pos wts).count p ≤ g.count p := by
  unfold Group.completeAt
  split
  · exact Nat.le_refl _
  · exact count_complete_le ..

/-- The first operation of its path completes: its counter falls. -/
theorem count_completeAt_lt {g : Group} {p : Path} {flight : Nat} (h : firstOn g p flight) (wts : Nat) :
    (g.completeAt p (g.posOf flight) wts).count p < g.count p := by
  obtain ⟨f, hf, hhead⟩ := h
  have hpos : g.posOf flight = f.pos := by simp [Group.posOf, hf]
  have hmem : f ∈ g.flights.filter fun x => x.path == p := List.mem_of_head? hhead
  have hpath : (f.path == p) = true := (List.mem_filter.1 hmem).2
  have hfind : g.flights.find? (fun x => x.path == p && x.pos == f.pos) = some f := by
    have hfirst : g.flights.find? (fun x => x.path == p) = some f := by rw [← List.head?_filter]; exact hhead
    obtain ⟨-, as, bs, hl, has⟩ := List.find?_eq_some_iff_append.1 hfirst
    refine List.find?_eq_some_iff_append.2 ⟨by rw [hpath]; simp, as, bs, hl, fun a ha => ?_⟩
    have := has a ha
    simp only [Bool.not_eq_true'] at this ⊢
    rw [this, Bool.false_and]
  have hid : f.id = flight := by simpa using List.find?_some hf
  rw [hpos, Group.completeAt, hfind]
  dsimp only
  rw [complete_found (hid ▸ hf), eq_of_beq hpath]
  refine (count_retire_lt (f := markDone f.id wts f) ?_ ?_).trans_eq (count_markDone g f.id wts p)
  · show (List.filter _ (g.flights.map (markDone f.id wts))).head? = _
    rw [filter_markDone, List.head?_map, hhead]
    rfl
  · simp [markDone]

/-! What a completion keeps. -/

theorem completeAt_kept (g : Group) (p : Path) (pos wts : Nat) : ∃ fl u, g.completeAt p pos wts = { g with flights := fl, unjoined := u } := by
  unfold Group.completeAt
  split
  · exact ⟨_, _, rfl⟩
  · next f _ =>
    cases h : g.flights.find? (fun x => x.id == f.id) with
    | none => exact ⟨_, _, by rw [complete_none h]⟩
    | some f' =>
      rw [complete_found h]
      exact ⟨_, _, rfl⟩

theorem keepsGroup_completeAt (p : Path) (pos wts : Nat) : keepsGroup fun g => g.completeAt p pos wts := by
  intro g
  obtain ⟨fl, u, h⟩ := completeAt_kept g p pos wts
  dsimp only
  rw [h]
  exact ⟨rfl, rfl⟩

theorem finishOp_eq {m : Mach} {gid : Nat} {g : Group} (h : m.group? gid = some g) (p : Path) (id wts : Nat) :
    m.finishOp gid p id wts = m.onPair gid fun x => x.completeAt p (g.posOf id) wts := by
  unfold Mach.finishOp
  rw [h]

theorem finishOp_dev (m : Mach) (gid : Nat) (p : Path) (id wts : Nat) : ∃ gs, (m.finishOp gid p id wts).d = { m.d with groups := gs } := by
  unfold Mach.finishOp
  split
  · exact ⟨_, rfl⟩
  · exact onPair_dev ..

/-- An operation completes in its group: what it changes there is what is in flight. -/
theorem finishOp_group? {m : Mach} {gid : Nat} {g : Group} (h : m.group? gid = some g) (p : Path) (id wts : Nat) :
    ∃ g' fl u, (m.finishOp gid p id wts).group? gid = some g' ∧ g' = { g with flights := fl, unjoined := u } ∧
      g'.count p ≤ (g.completeAt p (g.posOf id) wts).count p := by
  obtain ⟨g', hg', hor⟩ := onPair_group? (keepsGroup_completeAt p (g.posOf id) wts) h
  obtain ⟨fl, u, h1⟩ := completeAt_kept g p (g.posOf id) wts
  obtain ⟨fl', u', h2⟩ := completeAt_kept (g.completeAt p (g.posOf id) wts) p (g.posOf id) wts
  rw [finishOp_eq h]
  rcases hor with rfl | rfl
  · exact ⟨_, fl, u, hg', h1, Nat.le_refl _⟩
  · exact ⟨_, fl', u', hg', h2.trans (by rw [h1]), count_completeAt_le ..⟩

theorem finishOp_falls {m : Mach} {gid : Nat} {g : Group} {p : Path} {id : Nat} (h : m.group? gid = some g) (hf : firstOn g p id)
    (wts : Nat) : ∃ g', (m.finishOp gid p id wts).group? gid = some g' ∧ g'.count p < g.count p := by
  obtain ⟨g', fl, u, hg', -, hle⟩ := finishOp_group? h p id wts
  exact ⟨g', hg', hle.trans_lt (count_completeAt_lt hf wts)⟩

theorem finishOp_turn (m : Mach) (gid : Nat) (p : Path) (id wts : Nat) :
    (m.finishOp gid p id wts).g.gid = m.g.gid ∧ (m.finishOp gid p id wts).g.live = m.g.live := by
  unfold Mach.finishOp
  split
  · exact ⟨rfl, rfl⟩
  · exact onPair_turn m gid (keepsGroup_completeAt _ _ _)

/-- The only operation of the group on turn completes: nothing is in flight on its path. -/
theorem finishOp_only {m : Mach} {p : Path} {id : Nat} (hl : m.g.live = true) (hf : firstOn m.g p id) (hc : m.g.count p = 1) (wts : Nat) :
    (m.finishOp m.g.gid p id wts).g.count p = 0 ∧ (m.finishOp m.g.gid p id wts).g.pc = m.g.pc := by
  obtain ⟨hgid, hlive⟩ := finishOp_turn m m.g.gid p id wts
  obtain ⟨g', fl, u, hg', heq, hle⟩ := finishOp_group? (group?_turn hl) p id wts
  have hlt := hle.trans_lt (count_completeAt_lt hf wts)
  generalize m.finishOp m.g.gid p id wts = m' at hgid hlive hg'
  rw [← hgid, group?_turn (hlive.trans hl)] at hg'
  rw [Option.some.inj hg']
  exact ⟨by omega, by rw [heq]⟩

/-! Traps that are held (R66). -/

theorem hold_eq {m : Mach} {gid : Nat} {g : Group} (h : m.group? gid = some g) (p : Path) (id code : Nat) :
    m.hold gid p id code = m.onPair gid fun x => { x with heldTraps := x.heldTraps ++ [⟨p, g.posOf id, code, 0⟩] } := by
  unfold Mach.hold
  rw [h]

theorem hold_dev (m : Mach) (gid : Nat) (p : Path) (id code : Nat) : ∃ gs, (m.hold gid p id code).d = { m.d with groups := gs } := by
  unfold Mach.hold
  split
  · exact ⟨_, rfl⟩
  · exact onPair_dev ..

/-- The group holds the trap; what is in flight stays. -/
theorem hold_group? {m : Mach} {gid : Nat} {g : Group} (h : m.group? gid = some g) (p : Path) (id code : Nat) :
    ∃ g' ht, (m.hold gid p id code).group? gid = some g' ∧ g' = { g with heldTraps := ht } ∧ (⟨p, g.posOf id, code, 0⟩ : Held) ∈ ht := by
  have hk : keepsGroup fun x => { x with heldTraps := x.heldTraps ++ [⟨p, g.posOf id, code, 0⟩] } := fun _ => ⟨rfl, rfl⟩
  obtain ⟨g', hg', hor⟩ := onPair_group? hk h
  rw [hold_eq h]
  rcases hor with rfl | rfl
  · exact ⟨_, _, hg', rfl, by simp⟩
  · exact ⟨_, _, hg', rfl, by simp⟩

end Sys2Proof.Machine
end

section
/-! ## Loads of the operand buffer (R237, R238, R253, R254) -/

namespace Sys2Proof.Machine

/-! ### Claims of units (R237) -/

theorem claimable_iff (t : Tab (Option Nat)) (team : Nat) (ks : List Nat) : claimable t team ks = true ↔ mayClaim t team ks := by
  rw [claimable, List.all_eq_true]
  refine forall₂_congr fun k _ => ?_
  cases t.getD k none <;> simp

theorem claimUnit_kept (x : Cluster) (team k : Nat) : ∃ u o, x.claimUnit team k = { x with unitOwner := u, obuf := o } := by
  unfold Cluster.claimUnit
  split <;> exact ⟨_, _, rfl⟩

theorem foldl_claimUnit_kept (team : Nat) (ks : List Nat) (x : Cluster) :
    ∃ u o, ks.foldl (fun x k => x.claimUnit team k) x = { x with unitOwner := u, obuf := o } := by
  induction ks generalizing x with
  | nil => exact ⟨_, _, rfl⟩
  | cons k ks ih =>
    obtain ⟨u, o, h⟩ := claimUnit_kept x team k
    obtain ⟨u', o', h'⟩ := ih { x with unitOwner := u, obuf := o }
    exact ⟨u', o', by rw [List.foldl_cons, h, h']⟩

/-- A unit that has an owner keeps it; a free one that is claimed belongs to the team. -/
theorem owner_claimUnit (x : Cluster) (team k j : Nat) : (x.claimUnit team k).unitOwner.getD j none =
    if k = j ∧ x.unitOwner.getD j none = none then some team else x.unitOwner.getD j none := by
  unfold Cluster.claimUnit
  by_cases hk : k = j
  · subst hk
    cases h : x.unitOwner.getD k none with
    | none => simp
    | some o => simp [h]
  · rw [if_neg (c := k = j ∧ _) (fun h => hk h.1)]
    split
    · rfl
    · exact Tab.getD_set_ne x.unitOwner (some team) none none hk

theorem owner_foldl_claimUnit (team : Nat) (ks : List Nat) (x : Cluster) (j : Nat) :
    (ks.foldl (fun x k => x.claimUnit team k) x).unitOwner.getD j none =
      if j ∈ ks ∧ x.unitOwner.getD j none = none then some team else x.unitOwner.getD j none := by
  induction ks generalizing x with
  | nil => simp
  | cons k ks ih =>
    rw [List.foldl_cons, ih, owner_claimUnit]
    by_cases hk : k = j
    · subst hk
      cases h : x.unitOwner.getD k none <;> simp
    · simp [hk, Ne.symm hk]

/-- Units that a team may claim are its own afterwards. -/
theorem claim_units {x : Cluster} {team : Nat} {ks : List Nat} (h : mayClaim x.unitOwner team ks) :
    claimedBy (x.claim team ks []).unitOwner team ks := by
  intro k hk
  refine (owner_foldl_claimUnit team ks x k).trans ?_
  cases ho : x.unitOwner.getD k none with
  | none => simp [hk]
  | some o => simp [h k hk o ho]

/-! ### The issue of a load (R238) -/

theorem exec_mxLdb (o : SReg) (a : CReg) (l : SReg) (s : State) : exec (.mxLdb o a l) s = actOrWait (fun _ m => mxLoad o a l m) s := rfl

theorem Group.raised_issuedOn (g : Group) (p : Path) : issuedOn p g (g.raise p).advance := by
  refine ⟨?_, rfl, rfl⟩
  show (List.filter _ (g.flights ++ [_])).length = _
  rw [List.filter_append, List.length_append]
  simp [Group.count]

section
variable {o l : SReg} {a : CReg} {m : Mach}

theorem misplaced_iff (off n : Nat) : (decide (off % 16 ≠ 0) || decide (n % 16 ≠ 0) || decide (Config.operandBytes < off + n)) = true ↔
    off % 16 ≠ 0 ∨ n % 16 ≠ 0 ∨ 786432 < off + n := by
  simp only [Bool.or_eq_true, decide_eq_true_eq, or_assoc]
  exact Iff.rfl

/-- The check of the source capability (R238). -/
def loadCheck (m : Mach) (a : CReg) (l : SReg) : Option Nat :=
  capCheck8 (m.g.rc a.toNat) (engineParty m.d m.g.colour m.g.part m.g.team true) needOperand
    ((m.g.rc a.toNat).colour = m.g.colour) (m.g.rc a.toNat).cursor (m.g.rs l.toNat).toNat

/-- The load as the loader holds it: the values of its operands. -/
def loadOf (m : Mach) (o : SReg) (a : CReg) (l : SReg) : LoadOp :=
  { id := m.d.nextId, gid := m.g.gid, flight := m.g.nextOp, die := m.g.die, core := m.g.core, src := m.g.rc a.toNat
    off := (m.g.rs o.toNat).toNat, len := (m.g.rs l.toNat).toNat, colour := m.g.colour, part := m.g.part, prc := m.g.prc
    ctx := m.g.ctx, team := m.g.team }

/-- The cluster with the units of the load claimed. -/
def loadClaim (m : Mach) (o l : SReg) : Cluster :=
  (m.d.cluster m.clKey).claim m.g.team (unitsOf (m.g.rs o.toNat).toNat (m.g.rs l.toNat).toNat) []

/-- The device with the load in the loader. -/
def loading (m : Mach) (o : SReg) (a : CReg) (l : SReg) : Dev :=
  { m.d.setCluster m.clKey { loadClaim m o l with loads := (loadClaim m o l).loads ++ [loadOf m o a l] } with nextId := m.d.nextId + 1 }

theorem mxLoad_wait (h : m.g.queue ≠ [] ∨ 1023 ≤ m.g.count .mx) : mxLoad o a l m = none := by
  refine if_pos ?_
  rcases h with h | h
  · rw [Group.not_lanesIdle h]
    rfl
  · rw [show m.g.canRaise .mx = false from decide_eq_false (Nat.not_lt.2 h), Bool.not_false, Bool.or_true]

section
variable (hq : m.g.queue = []) (hn : m.g.count .mx < 1023)
include hq hn

theorem mxLoad_ready : ¬ (!m.g.lanesIdle || !m.g.canRaise .mx) = true := by
  rw [Group.lanesIdle_of_queue hq, show m.g.canRaise .mx = true from decide_eq_true hn]
  decide

theorem mxLoad_refused {cause : Nat} (hc : loadCheck m a l = some cause) : mxLoad o a l m = scalarTrap m cause := by
  refine (if_neg (mxLoad_ready hq hn)).trans ?_
  dsimp only
  rw [show capCheck8 _ _ _ _ _ _ = some cause from hc]

theorem mxLoad_misplaced (hc : loadCheck m a l = none) (h : (m.g.rs o.toNat).toNat % 16 ≠ 0 ∨ (m.g.rs l.toNat).toNat % 16 ≠ 0 ∨
    786432 < (m.g.rs o.toNat).toNat + (m.g.rs l.toNat).toNat) : mxLoad o a l m = scalarTrap m cMXRANGE := by
  refine (if_neg (mxLoad_ready hq hn)).trans ?_
  dsimp only
  rw [show capCheck8 _ _ _ _ _ _ = none from hc]
  exact if_pos ((misplaced_iff _ _).2 h)

variable (hc : loadCheck m a l = none) (h16 : (m.g.rs o.toNat).toNat % 16 = 0) (hl16 : (m.g.rs l.toNat).toNat % 16 = 0)
  (hend : (m.g.rs o.toNat).toNat + (m.g.rs l.toNat).toNat ≤ 786432)
include hc h16 hl16 hend

theorem mxLoad_overlaps (h : ¬ mayClaim (m.d.cluster m.clKey).unitOwner m.g.team (unitsOf (m.g.rs o.toNat).toNat (m.g.rs l.toNat).toNat)) :
    mxLoad o a l m = scalarTrap m cMXOVLP := by
  refine (if_neg (mxLoad_ready hq hn)).trans ?_
  dsimp only
  rw [show capCheck8 _ _ _ _ _ _ = none from hc]
  refine (if_neg ?_).trans (if_pos ?_)
  · rw [misplaced_iff]
    omega
  · rw [Bool.not_eq_true', ← Bool.not_eq_true, claimable_iff]
    exact h

variable (hd : m.g.dual = false) (hs : m.g.shadow = false)
  (h : mayClaim (m.d.cluster m.clKey).unitOwner m.g.team (unitsOf (m.g.rs o.toNat).toNat (m.g.rs l.toNat).toNat))
include hd h

theorem mxLoad_empty (h0 : (m.g.rs l.toNat).toNat = 0) : mxLoad o a l m =
    some (Mach.finishOp ⟨(m.g.raise .mx).advance, m.d⟩ m.g.gid .mx m.g.nextOp 0) := by
  refine (if_neg (mxLoad_ready hq hn)).trans ?_
  dsimp only
  rw [show capCheck8 _ _ _ _ _ _ = none from hc]
  refine (if_neg ?_).trans ((if_neg ?_).trans ?_)
  · rw [misplaced_iff]
    omega
  · rw [Bool.not_eq_true', Bool.not_eq_false, claimable_iff]
    exact h
  · rw [dualGate, if_pos (by rw [hd]; rfl)]
    exact if_pos h0

include hs

theorem mxLoad_accepted (h0 : (m.g.rs l.toNat).toNat ≠ 0) : mxLoad o a l m = some ⟨(m.g.raise .mx).advance, loading m o a l⟩ := by
  refine (if_neg (mxLoad_ready hq hn)).trans ?_
  dsimp only
  rw [show capCheck8 _ _ _ _ _ _ = none from hc]
  refine (if_neg ?_).trans ((if_neg ?_).trans ?_)
  · rw [misplaced_iff]
    omega
  · rw [Bool.not_eq_true', Bool.not_eq_false, claimable_iff]
    exact h
  · rw [dualGate, if_pos (by rw [hd]; rfl)]
    refine (if_neg h0).trans ((if_neg ?_).trans rfl)
    rw [hs]
    decide

end

end

theorem operandLoads : Claims.OperandLoads := by
  intro s o l a c off n i check units traps
  refine ⟨fun h => ?_, fun hn => ⟨fun cause hc ht => ?_, fun hc h ht => ?_, fun hc h16 hl16 hend => ⟨fun h ht => ?_, fun h hq hd hs =>
    ⟨fun h0 => ?_, fun h0 hl hf => ?_⟩⟩⟩⟩
  · exact (exec_mxLdb o a l s).trans (actOrWait_wait (mxLoad_wait (m := s.mach) h))
  · exact (exec_mxLdb o a l s).trans (actOrWait_trap (mxLoad_refused (m := s.mach) ht.1 hn hc) ht)
  · exact (exec_mxLdb o a l s).trans (actOrWait_trap (mxLoad_misplaced (m := s.mach) ht.1 hn hc h) ht)
  · exact (exec_mxLdb o a l s).trans (actOrWait_trap (mxLoad_overlaps (m := s.mach) ht.1 hn hc h16 hl16 hend h) ht)
  · have hrun : mxLoad o a l s.mach = some ⟨(s.grp.raise .mx).advance, loading s.mach o a l⟩ :=
      mxLoad_accepted (m := s.mach) hq hn hc h16 hl16 hend hd hs h h0
    have hcl : (s.put ⟨(s.grp.raise .mx).advance, loading s.mach o a l⟩).cluster =
        { loadClaim s.mach o l with loads := (loadClaim s.mach o l).loads ++ [loadOf s.mach o a l] } := Dev.cluster_setCluster ..
    obtain ⟨u, ob, hkept⟩ := foldl_claimUnit_kept s.grp.team units s.cluster
    refine ⟨_, loadOf s.mach o a l, (exec_mxLdb o a l s).trans (actOrWait_ok hrun rfl), ?_, rfl, rfl, rfl, rfl,
      Group.raised_issuedOn s.grp .mx, ?_, rfl⟩
    · rw [hcl]
      exact congrArg (·.loads ++ [loadOf s.mach o a l]) hkept
    · rw [hcl]
      exact claim_units h
  · have hrun := mxLoad_empty (m := s.mach) hq hn hc h16 hl16 hend hd h h0
    obtain ⟨gs, hdev⟩ := finishOp_dev ⟨(s.grp.raise .mx).advance, s.dev⟩ s.grp.gid .mx s.grp.nextOp 0
    have hflights : (s.grp.raise .mx).advance.flights = [⟨.mx, s.grp.nextOp, s.grp.issued.getD (pathCode .mx) 0 + 1, false, 0⟩] := by
      show s.grp.flights ++ _ = _
      rw [hf]
      rfl
    obtain ⟨hcount, hpc⟩ := finishOp_only (m := ⟨(s.grp.raise .mx).advance, s.dev⟩) (p := .mx) (id := s.grp.nextOp) hl
      ⟨_, by rw [hflights, List.find?_cons_of_pos (by simp)], by rw [hflights]; rfl⟩ (by rw [Group.count, hflights]; rfl) 0
    refine ⟨_, (exec_mxLdb o a l s).trans (actOrWait_ok hrun ?_), hcount, hpc, ?_⟩
    · exact (congrArg (fun d : Dev => d.pkg.asking) hdev :)
    · exact (congrArg Dev.clusters hdev :)

/-! ### A range written to a store (R180) -/

theorem mem_blocksOf {k a n j : Nat} : j ∈ blocksOf k a n ↔ n ≠ 0 ∧ a / k ≤ j ∧ j ≤ (a + n - 1) / k := by
  unfold blocksOf
  by_cases hn : n = 0
  · simp [hn]
  · have hle : a / k ≤ (a + n - 1) / k := Nat.div_le_div_right (by omega)
    rw [if_neg hn, List.mem_map]
    constructor
    · rintro ⟨i, hi, rfl⟩
      rw [List.mem_range] at hi
      omega
    · rintro ⟨-, h1, h2⟩
      exact ⟨j - a / k, List.mem_range.2 (by omega), by omega⟩

theorem poisoned_mark (m : Mem) (a n j : Nat) (p : Bool) (k : Nat) :
    (if p then m.setPsn j true else if a ≤ 32 * j && 32 * j + 32 ≤ a + n then m.setPsn j false else m).poisoned k =
      if j = k ∧ (p = true ∨ a ≤ 32 * j ∧ 32 * j + 32 ≤ a + n) then p else m.poisoned k := by
  cases p
  · by_cases hc : a ≤ 32 * j ∧ 32 * j + 32 ≤ a + n
    · simp [hc, Mem.poisoned_setPsn]
    · have hc' : (decide (a ≤ 32 * j) && decide (32 * j + 32 ≤ a + n)) = false := by simpa using hc
      simp [hc, hc']
  · simp [Mem.poisoned_setPsn]

theorem poisoned_markSectors (m : Mem) (a n : Nat) (p : Bool) (k : Nat) : (m.markSectors a n p).poisoned k =
    if k ∈ blocksOf 32 a n ∧ (p = true ∨ a ≤ 32 * k ∧ 32 * k + 32 ≤ a + n) then p else m.poisoned k := by
  unfold Mem.markSectors
  generalize blocksOf 32 a n = L
  induction L generalizing m with
  | nil => simp
  | cons j L ih =>
    rw [List.foldl_cons, ih, poisoned_mark]
    by_cases hj : j = k
    · subst hj
      by_cases hc : p = true ∨ a ≤ 32 * j ∧ 32 * j + 32 ≤ a + n <;> simp [hc]
    · simp [hj, Ne.symm hj]

theorem poisoned_store (m : Mem) (a : Nat) (bs : List Byte) (p : Bool) (k : Nat) : (m.store a bs p).poisoned k =
    if k ∈ blocksOf 32 a bs.length ∧ (p = true ∨ a ≤ 32 * k ∧ 32 * k + 32 ≤ a + bs.length) then p else m.poisoned k := by
  have htags (m : Mem) (a n k : Nat) : (m.clearTags a n).poisoned k = m.poisoned k := by
    unfold Mem.clearTags
    generalize blocksOf 16 a n = L
    induction L generalizing m with
    | nil => rfl
    | cons g L ih => rw [List.foldl_cons, ih, Mem.poisoned_setTag]
  rw [Mem.store, poisoned_markSectors, htags, Mem.poisoned_writeBytes]

/-- The part of a range in sector k of a store at a. -/
def sectorLo (a k : Nat) : Nat := max a (32 * k)
def sectorHi (a n k : Nat) : Nat := min (a + n) (32 * k + 32)

/-- The sectors of a range, written one by one. -/
def storeSectors (a : Nat) (x : RangeData) (L : List Nat) (m : Mem) : Mem :=
  L.foldl (fun m k => m.store (sectorLo a k) ((x.bytes.drop (sectorLo a k - a)).take (sectorHi a x.bytes.length k - sectorLo a k))
    (((x.psn.drop (sectorLo a k - a)).take (sectorHi a x.bytes.length k - sectorLo a k)).any id)) m

theorem storeRange_eq (m : Mem) (a : Nat) (x : RangeData) : m.storeRange a x = storeSectors a x (blocksOf 32 a x.bytes.length) m := rfl

theorem byte_storeSectors (a : Nat) (x : RangeData) (L : List Nat) (m : Mem) (b : Nat) : (storeSectors a x L m).byte b =
    if b / 32 ∈ L ∧ a ≤ b ∧ b < a + x.bytes.length then x.bytes.getD (b - a) 0 else m.byte b := by
  unfold storeSectors
  induction L generalizing m with
  | nil => simp
  | cons k L ih =>
    rw [List.foldl_cons, ih, Mem.byte_store]
    have hlen : ((x.bytes.drop (sectorLo a k - a)).take (sectorHi a x.bytes.length k - sectorLo a k)).length =
        sectorHi a x.bytes.length k - sectorLo a k := by
      rw [List.length_take, List.length_drop, sectorLo, sectorHi]
      omega
    rw [hlen]
    have hin : (sectorLo a k ≤ b ∧ b < sectorLo a k + (sectorHi a x.bytes.length k - sectorLo a k)) ↔
        b / 32 = k ∧ a ≤ b ∧ b < a + x.bytes.length := by
      rw [sectorLo, sectorHi]
      omega
    simp only [hin, List.mem_cons]
    by_cases hr : a ≤ b ∧ b < a + x.bytes.length
    · by_cases hL : b / 32 ∈ L
      · simp [hL, hr]
      · by_cases hk : b / 32 = k
        · have hget : ((x.bytes.drop (sectorLo a k - a)).take (sectorHi a x.bytes.length k - sectorLo a k)).getD (b - sectorLo a k) 0 =
              x.bytes.getD (b - a) 0 := by
            obtain ⟨h1, h2⟩ := hin.2 ⟨hk, hr⟩
            have hlo : a ≤ sectorLo a k := Nat.le_max_left ..
            simp only [List.getD_eq_getElem?_getD]
            rw [List.getElem?_take_of_lt (by omega), List.getElem?_drop, show sectorLo a k - a + (b - sectorLo a k) = b - a by omega]
          rw [if_neg (fun h => hL h.1), if_pos ⟨hk, hr⟩, if_pos ⟨.inl hk, hr⟩]
          exact hget
        · simp [hL, hk]
    · simp [hr]

/-- Each byte of the range is written, and no other. -/
theorem byte_storeRange (m : Mem) (a : Nat) (x : RangeData) (b : Nat) : (m.storeRange a x).byte b =
    if a ≤ b ∧ b < a + x.bytes.length then x.bytes.getD (b - a) 0 else m.byte b := by
  rw [storeRange_eq, byte_storeSectors]
  have hmem : a ≤ b ∧ b < a + x.bytes.length → b / 32 ∈ blocksOf 32 a x.bytes.length := by
    intro h
    rw [mem_blocksOf]
    omega
  by_cases h : a ≤ b ∧ b < a + x.bytes.length
  · rw [if_pos ⟨hmem h, h⟩, if_pos h]
  · rw [if_neg (fun h' => h h'.2), if_neg h]

theorem poisoned_storeSectors_other {a : Nat} {x : RangeData} {L : List Nat} {k : Nat} (h : k ∉ L) (m : Mem) :
    (storeSectors a x L m).poisoned k = m.poisoned k := by
  unfold storeSectors
  induction L generalizing m with
  | nil => rfl
  | cons j L ih =>
    rw [List.mem_cons, not_or] at h
    rw [List.foldl_cons, ih h.2, poisoned_store, if_neg]
    rintro ⟨hk, -⟩
    rw [mem_blocksOf, List.length_take, List.length_drop, sectorLo, sectorHi] at hk
    omega

/-- A sector that takes a poisoned byte is marked. -/
theorem poisoned_storeRange {a : Nat} {x : RangeData} {i : Nat} (hi : i < x.bytes.length) (hp : x.psn.getD i false = true) (m : Mem) :
    (m.storeRange a x).poisoned ((a + i) / 32) = true := by
  rw [storeRange_eq]
  have hk : (a + i) / 32 ∈ blocksOf 32 a x.bytes.length := by
    rw [mem_blocksOf]
    omega
  generalize hkey : (a + i) / 32 = k at hk ⊢
  generalize blocksOf 32 a x.bytes.length = L at hk
  induction L generalizing m with
  | nil => cases hk
  | cons j L ih =>
    by_cases hL : k ∈ L
    · exact ih _ hL
    · obtain rfl : k = j := (List.mem_cons.1 hk).resolve_right hL
      refine (poisoned_storeSectors_other hL _).trans ?_
      have hany : (((x.psn.drop (sectorLo a k - a)).take (sectorHi a x.bytes.length k - sectorLo a k)).any id) = true := by
        have hlt : i < x.psn.length := by
          by_contra hge
          rw [List.getD_eq_default _ _ (Nat.not_lt.1 hge)] at hp
          cases hp
        rw [List.any_eq_true]
        refine ⟨true, List.mem_iff_getElem?.2 ⟨a + i - sectorLo a k, ?_⟩, rfl⟩
        have hlo : sectorLo a k ≤ a + i ∧ a + i < sectorHi a x.bytes.length k ∧ a ≤ sectorLo a k := by
          rw [sectorLo, sectorHi]
          omega
        rw [List.getElem?_take_of_lt (by omega), List.getElem?_drop, show sectorLo a k - a + (a + i - sectorLo a k) = i by omega,
          List.getElem?_eq_getElem hlt]
        rw [List.getD_eq_getElem _ _ hlt] at hp
        rw [hp]
      rw [poisoned_store, hany, if_pos]
      refine ⟨?_, .inl rfl⟩
      rw [mem_blocksOf, List.length_take, List.length_drop, sectorLo, sectorHi]
      omega

/-! ### Reads of homes without storage errors (R335) -/

theorem wake_pkg (d : Dev) (die : Nat) : (wake d die).pkg = d.pkg ∧ (wake d die).errors = d.errors := by
  unfold wake
  split <;> exact ⟨rfl, rfl⟩

theorem recallCopy_pkg (d : Dev) (die l : Nat) : (recallCopy d die l).pkg = d.pkg ∧ (recallCopy d die l).errors = d.errors := by
  obtain ⟨c, ls, x, h⟩ := recallCopy_evicted d die l
  rw [h]
  exact ⟨rfl, rfl⟩

theorem homeRead_pkg {d : Dev} (h : d.errors = []) (a : Nat) : (homeRead d a).pkg = d.pkg := by
  unfold homeRead
  split
  · rfl
  · next home _ =>
    obtain ⟨h1, e1⟩ := wake_pkg d home
    obtain ⟨h2, e2⟩ := recallCopy_pkg (wake d home) home (a / 128)
    have herr : (recallCopy (wake d home) home (a / 128)).errors = [] := e2.trans (e1.trans h)
    have hmet : meetErrors (recallCopy (wake d home) home (a / 128)) (a / 128) = recallCopy (wake d home) home (a / 128) := by
      unfold meetErrors
      rw [herr]
      rfl
    rw [hmet, h2, h1]

/-- The runs of a range, read at their homes. -/
def homesOf (d : Dev) (rs : List (Nat × Nat)) : Dev := rs.foldl (fun d r => homeRead d r.1) d

theorem homesOf_homeWork (d : Dev) (rs : List (Nat × Nat)) : HomeWork d (homesOf d rs) :=
  HomeWork.foldl (fun d (r : Nat × Nat) => homeRead_homeWork d r.1) rs d

theorem homesOf_pkg {d : Dev} (h : d.errors = []) (rs : List (Nat × Nat)) : (homesOf d rs).pkg = d.pkg := by
  unfold homesOf
  induction rs generalizing d with
  | nil => rfl
  | cons r rs ih =>
    rw [List.foldl_cons, ih ((homeRead_homeWork d r.1).sound h).1, homeRead_pkg h]

theorem engineRead_memory (d : Dev) (team : Nat) {c : Cap} (h : c.kind ≠ kSCRATCH) (a n : Nat) : engineRead d team c a n =
    (homesOf d (runsOf (localAddr d a) n), (homesOf d (runsOf (localAddr d a) n)).mem.range (localAddr d a) n, false) := if_neg h

/-! ### A load that leaves the loader (R253) -/

/-- The cluster without the load. -/
def Cluster.loadGone (x : Cluster) (o : LoadOp) : Cluster := { x with
  loads := x.loads.filter fun y => y.id ≠ o.id, table := x.table.map fun (e : MxEntry) => { e with loads := e.loads.filter (· ≠ o.id) } }

theorem endLoad_dev (m : Mach) (cl : Nat) (o : LoadOp) :
    ∃ gs, (endLoad m cl o).d = { m.d.setCluster cl ((m.d.cluster cl).loadGone o) with groups := gs } := finishOp_dev _ _ _ _ _

/-- The bytes of a load that has reached its source. -/
def loadMoved (d : Dev) (cl : Nat) (o : LoadOp) (src : RangeData) : Dev :=
  let d := d.setCluster cl ((d.cluster cl).bufferWrite o.off src)
  if src.psn.any id && !o.prc then consume d o.ctx 3 else d

theorem loadMoved_cluster (d : Dev) (cl : Nat) (o : LoadOp) (src : RangeData) :
    (loadMoved d cl o src).cluster cl = (d.cluster cl).bufferWrite o.off src := by
  unfold loadMoved
  dsimp only
  split <;> exact Dev.cluster_setCluster ..

theorem loadMoved_dev (d : Dev) (cl : Nat) (o : LoadOp) (src : RangeData) :
    ∃ cs x, loadMoved d cl o src = { d with clusters := cs, ctxs := x } := by
  unfold loadMoved
  dsimp only
  split <;> exact ⟨_, _, rfl⟩

section
variable {m : Mach} {cl : Nat} {o : LoadOp} {rest : List LoadOp} (hx : (m.d.cluster cl).loads = o :: rest)
  (ht : ∀ e ∈ (m.d.cluster cl).table, e.gid ≠ o.gid ∨ o.id ≤ e.id)
include hx ht

/-- The first load of a loader, whose earlier passes have read, moves what it has reached. -/
theorem mxLdbComplete_moves {R : CtlRegs} {k : Nat} {refused : Bool} {d' : Dev} {src : RangeData}
    (hs : settleReach m.d o.len (reach R m.d (engineParty m.d o.colour o.part o.team true) false o.src o.src.cursor o.len) =
      (m.d, some (k, refused)))
    (hl : loadSource m.d o k = (d', some (src, false))) : mxLdbComplete cl o.id R m =
      endLoad (if refused then Mach.hold ⟨m.g, loadMoved d' cl o src⟩ o.gid .mx o.flight cMXSRC else ⟨m.g, loadMoved d' cl o src⟩) cl o := by
  have hfirst : (m.d.cluster cl).loads.find? (fun o' => o'.id == o.id) = some o := by rw [hx]; simp
  have hbefore : (m.d.cluster cl).loads.takeWhile (fun y => y.id ≠ o.id) = [] := by rw [hx]; simp
  have hahead : ((m.d.cluster cl).table.any fun e => e.gid == o.gid && decide (e.id < o.id) &&
      e.reads.any fun q => rangesMeet q (o.off, o.len)) = false := by
    rw [List.any_eq_false]
    intro e he
    rcases ht e he with h | h
    · simp [h]
    · simp [Nat.not_lt.2 h]
  unfold mxLdbComplete
  simp only [hfirst, hbefore, hahead, List.any_nil, Bool.or_self, Bool.false_eq_true, if_false, hs, hl]
  rfl

end

theorem exec_mxLdbComplete (cl op : Nat) (s : State) : exec (.mxLdbComplete cl op) s = act (fun R m => mxLdbComplete cl op R m) s := rfl

theorem loadSource_memory {d : Dev} {o : LoadOp} (hk : o.src.kind = 0) (hl : leaves d o.src.cursor = false) (n : Nat) :
    loadSource d o n = (homesOf d (runsOf (localAddr d o.src.cursor) n),
      some ((homesOf d (runsOf (localAddr d o.src.cursor) n)).mem.range (localAddr d o.src.cursor) n, false)) := by
  have hkind : o.src.kind ≠ kSCRATCH := by rw [hk]; decide
  unfold loadSource
  rw [if_neg (by rw [hl, Bool.and_false, Bool.false_and]; decide), engineRead_memory d o.team hkind]

/-- A machine whose groups stand as in a state finds them where the state does. -/
theorem group?_eq {m m' : Mach} (hg : m'.g = m.g) (hgs : m'.d.groups = m.d.groups) (gid : Nat) : m'.group? gid = m.group? gid := by
  rw [Mach.group?, Mach.group?, hg, hgs]

theorem range_bytes (m : Mem) (a n : Nat) {i : Nat} (hi : i < n) : (m.range a n).bytes.getD i 0 = m.byte (a + i) ∧
    (m.range a n).psn.getD i false = m.poisoned ((a + i) / 32) := by
  simp [Mem.range, Mem.read, hi]

theorem range_length (m : Mem) (a n : Nat) : (m.range a n).bytes.length = n := by simp [Mem.range, Mem.read]

/-- What a load writes: its source's bytes, zero where the source is poisoned, with the marks of the source (R238, R254). -/
theorem bufferWrite_range (x : Cluster) (off : Nat) (m : Mem) (a n : Nat) :
    (∀ b, (x.bufferWrite off (m.range a n)).obuf.byte b = if off ≤ b ∧ b < off + n
      then (if m.poisoned ((a + (b - off)) / 32) then 0 else m.byte (a + (b - off))) else x.obuf.byte b) ∧
    ∀ k, k < n → m.poisoned ((a + k) / 32) = true → (x.bufferWrite off (m.range a n)).obuf.poisoned ((off + k) / 32) = true := by
  have hlen := range_length m a n
  constructor
  · intro b
    refine (byte_storeRange x.obuf off _ b).trans ?_
    simp only [List.length_map, List.length_range, hlen]
    by_cases h : off ≤ b ∧ b < off + n
    · have hi : b - off < n := by omega
      obtain ⟨hb, hp⟩ := range_bytes m a n hi
      rw [if_pos h, if_pos h, ← hb, ← hp]
      simp [hi]
    · rw [if_neg h, if_neg h]
  · intro k hk hp
    let zeroed := (List.range (m.range a n).bytes.length).map fun i => if (m.range a n).psn.getD i false then 0 else (m.range a n).bytes.getD i 0
    refine poisoned_storeRange (x := { m.range a n with bytes := zeroed }) ?_ ?_ x.obuf
    · simpa [zeroed, hlen] using hk
    · exact (range_bytes m a n hk).2.trans hp

theorem Cluster.loadGone_loads {x : Cluster} {o : LoadOp} {rest : List LoadOp} (hx : x.loads = o :: rest) (hr : ∀ y ∈ rest, y.id ≠ o.id) :
    (x.loadGone o).loads = rest := by
  show x.loads.filter _ = rest
  rw [hx, List.filter_cons_of_neg (by simp), List.filter_eq_self.2 fun y hy => by simpa using hr y hy]

theorem operandLoadCompletes : Claims.OperandLoadCompletes := by
  intro s cl o rest hx hr ht hk hl hg p sa x
  obtain ⟨g, hg⟩ := Option.isSome_iff_exists.1 hg
  refine ⟨fun hall herr => ?_, fun href => ?_⟩
  · let d1 := homesOf s.dev (runsOf sa o.len)
    have hw : HomeWork s.dev d1 := homesOf_homeWork _ _
    have hrun : mxLdbComplete cl o.id s.regs s.mach = endLoad ⟨s.grp, loadMoved d1 cl o (d1.mem.range sa o.len)⟩ cl o :=
      mxLdbComplete_moves (m := s.mach) hx ht (R := s.regs) (k := o.len) (refused := false) (congrArg (settleReach s.dev o.len) hall)
        (loadSource_memory hk hl o.len)
    have hmem : d1.mem = s.dev.mem := (hw.sound herr).2
    have hpkg : d1.pkg = s.dev.pkg := homesOf_pkg herr _
    have hcl : d1.cluster cl = s.dev.cluster cl := by rw [Dev.cluster, hw.clusters, Dev.cluster]
    have hgroups : d1.groups = s.dev.groups := hw.groups
    rw [hmem] at hrun
    clear_value d1
    have hmoved := loadMoved_cluster d1 cl o (s.dev.mem.range sa o.len)
    obtain ⟨cs, xs, hd⟩ := loadMoved_dev d1 cl o (s.dev.mem.range sa o.len)
    generalize loadMoved d1 cl o (s.dev.mem.range sa o.len) = d2 at hrun hmoved hd
    obtain ⟨gs, hend⟩ := endLoad_dev ⟨s.grp, d2⟩ cl o
    have hcluster : (endLoad ⟨s.grp, d2⟩ cl o).d.cluster cl = ((s.dev.cluster cl).bufferWrite o.off (s.dev.mem.range sa o.len)).loadGone o := by
      rw [hend, ← hcl, ← hmoved]
      exact Dev.cluster_setCluster ..
    obtain ⟨hbytes, hpoison⟩ := bufferWrite_range x o.off s.dev.mem sa o.len
    refine ⟨s.put (endLoad ⟨s.grp, d2⟩ cl o), (exec_mxLdbComplete cl o.id s).trans ?_, ⟨?_, ?_, ?_, ?_, ?_⟩, fun g' hg' hfirst => ?_⟩
    · rw [act_ok, hrun]
      rw [hrun, hend, hd, ← hpkg]
      rfl
    · rw [State.put_dev, hcluster]
      exact Cluster.loadGone_loads (o := o) hx hr
    · rw [State.put_dev, hcluster]
      rfl
    · rw [State.put_dev, hend, hd, ← hmem]
      rfl
    · rw [State.put_dev, hcluster]
      exact hbytes
    · rw [State.put_dev, hcluster]
      exact hpoison
    · have hfound : Mach.group? ⟨s.grp, d2.setCluster cl ((d2.cluster cl).loadGone o)⟩ o.gid = some g' :=
        (group?_eq (m := s.mach) (m' := ⟨s.grp, d2.setCluster cl ((d2.cluster cl).loadGone o)⟩) rfl
          ((congrArg Dev.groups hd).trans hgroups) o.gid).trans hg'
      obtain ⟨g2, hg2, hlt⟩ := finishOp_falls hfound hfirst 0
      exact ⟨g', g2, hg', hg2, hlt⟩
  · let d2 := s.dev.setCluster cl (s.dev.cluster cl)
    have hrun : mxLdbComplete cl o.id s.regs s.mach = endLoad (Mach.hold ⟨s.grp, d2⟩ o.gid .mx o.flight cMXSRC) cl o :=
      mxLdbComplete_moves (m := s.mach) hx ht (R := s.regs) (k := 0) (refused := true) (congrArg (settleReach s.dev o.len) href)
        (loadSource_memory hk hl 0)
    have hfound : Mach.group? ⟨s.grp, d2⟩ o.gid = some g := (group?_eq (m := s.mach) rfl rfl o.gid).trans hg
    obtain ⟨gs1, hhold⟩ := hold_dev ⟨s.grp, d2⟩ o.gid .mx o.flight cMXSRC
    obtain ⟨g1, ht1, hg1, rfl, hheld⟩ := hold_group? hfound .mx o.flight cMXSRC
    have hcl : d2.cluster cl = s.dev.cluster cl := Dev.cluster_setCluster ..
    have hpkg : d2.pkg = s.dev.pkg := rfl
    clear_value d2
    generalize Mach.hold ⟨s.grp, d2⟩ o.gid .mx o.flight cMXSRC = m1 at hrun hhold hg1
    obtain ⟨gs, hend⟩ := endLoad_dev m1 cl o
    have hcl1 : m1.d.cluster cl = s.dev.cluster cl := by rw [hhold, ← hcl]; rfl
    have hcluster : (endLoad m1 cl o).d.cluster cl = (s.dev.cluster cl).loadGone o := by
      rw [hend, hcl1]
      exact Dev.cluster_setCluster ..
    refine ⟨s.put (endLoad m1 cl o), (exec_mxLdbComplete cl o.id s).trans ?_, ?_, ?_, ?_⟩
    · rw [act_ok, hrun]
      rw [hrun, hend, hhold, ← hpkg]
      rfl
    · rw [State.put_dev, hcluster]
      exact Cluster.loadGone_loads (o := o) hx hr
    · rw [State.put_dev, hcluster]
      rfl
    · have hfound1 : Mach.group? ⟨m1.g, m1.d.setCluster cl ((m1.d.cluster cl).loadGone o)⟩ o.gid = some { g with heldTraps := ht1 } :=
        (group?_eq (m := m1) rfl rfl o.gid).trans hg1
      obtain ⟨g2, fl, u, hg2, rfl, -⟩ := finishOp_group? hfound1 .mx o.flight 0
      exact ⟨g, _, hg, hg2, hheld⟩

end Sys2Proof.Machine
namespace Sys2Proof

/-- Settles O25: a load is its checks and an entry of the loader; its completion is one write of a range to the buffer. -/
theorem operandLoads : Obligations.OperandLoads := ⟨Machine.operandLoads, Machine.operandLoadCompletes⟩

end Sys2Proof
end

section
/-! ## Collectives (R45, R365, R366) -/

namespace Sys2Proof.Machine

/-! ### One step (R365) -/

/-- The operation that RED names. -/
def clOp (c : Word) : NOp :=
  match clRed c with
  | 0 => .add
  | 1 => .min
  | _ => .max

theorem clStep_eq (c : Word) (x y : Nat) : clStep c x y =
    ((pairable (clOp c) (clTy c) 0 false false (placeTy (clTy c) x) (placeTy (clTy c) y) 0).val.toNat % 2 ^ tyWidth (clTy c),
      (pairable (clOp c) (clTy c) 0 false false (placeTy (clTy c) x) (placeTy (clTy c) y) 0).ev) := rfl

theorem clOp_of {c : Word} : (clRed c = 0 → clOp c = .add) ∧ (clRed c = 1 → clOp c = .min) ∧ (clRed c = 2 → clOp c = .max) := by
  refine ⟨fun h => ?_, fun h => ?_, fun h => ?_⟩ <;> simp only [clOp, h]

/-- The pattern of an integer result is its value in the type's width. -/
theorem pattern_intResult (ty : Nat) (e : Int) :
    ((intResult (tySigned ty) (tyWidth ty) false e).1.toNat % 2 ^ tyWidth ty : Nat) = e % (2 ^ tyWidth ty : Nat) := by
  rw [← readInt_emod, (intResult_wraps ty e).1, wrapTo_emod]

/-- A pattern read as a number of its type, in an operand or alone. -/
theorem readInt_ofNat (ty : Nat) {x : Nat} (h : x < 2 ^ tyWidth ty) : readInt ty (BitVec.ofNat 64 x) = wrapTo ty x := by
  have h64 : 2 ^ tyWidth ty ≤ 2 ^ 64 := Nat.pow_le_pow_right (by decide) (tyWidth_bounds ty).2
  rw [readInt_eq_wrapTo, toNat_ofNat_of_lt (by omega)]

/-- The pattern of a value that an operand's pattern stands for is that pattern. -/
theorem pattern_wrapTo (ty : Nat) {x : Nat} (h : x < 2 ^ tyWidth ty) :
    ((intResult (tySigned ty) (tyWidth ty) false (wrapTo ty x)).1.toNat % 2 ^ tyWidth ty : Nat) = x := by
  have hx := pattern_intResult ty (wrapTo ty x)
  rw [wrapTo_emod, Int.emod_eq_of_lt (by omega) (by exact_mod_cast h)] at hx
  exact_mod_cast hx

theorem intOp_low (o : NOp) (ty x y : Nat) (h : o = .add ∨ o = .min ∨ o = .max) : ∃ e : Int,
    intOp o ty false (placeTy ty x) (placeTy ty y) 0 = intResult (tySigned ty) (tyWidth ty) false e ∧
    (o = .add → e = wrapTo ty x + wrapTo ty y) ∧ (o = .min → e = min (wrapTo ty x) (wrapTo ty y)) ∧
    (o = .max → e = max (wrapTo ty x) (wrapTo ty y)) := by
  rw [← readInt_placeTy, ← readInt_placeTy]
  rcases h with rfl | rfl | rfl <;> exact ⟨_, rfl, by simp, by simp, by simp⟩

theorem clStep_integers {c : Word} {x y : Nat} (hx : x < 2 ^ tyWidth (clTy c)) (hy : y < 2 ^ tyWidth (clTy c)) (hty : clTy c ≤ 7) :
    (clStep c x y).2 = 0 ∧ (clRed c = 0 → (clStep c x y).1 = (x + y) % 2 ^ tyWidth (clTy c)) ∧
    (clRed c = 1 → (clStep c x y).1 = if wrapTo (clTy c) y < wrapTo (clTy c) x then y else x) ∧
    (clRed c = 2 → (clStep c x y).1 = if wrapTo (clTy c) x < wrapTo (clTy c) y then y else x) := by
  have hop : clOp c = .add ∨ clOp c = .min ∨ clOp c = .max := by
    unfold clOp
    split <;> simp
  obtain ⟨e, he, hadd, hmin, hmax⟩ := intOp_low (clOp c) (clTy c) x y hop
  rw [clStep_eq, pairable_int hty, he]
  refine ⟨(intResult_wraps (clTy c) e).2, fun h => ?_, fun h => ?_, fun h => ?_⟩
  · rw [hadd (clOp_of.1 h)]
    have hp := pattern_intResult (clTy c) (wrapTo (clTy c) x + wrapTo (clTy c) y)
    rw [Int.add_emod, wrapTo_emod, wrapTo_emod, ← Int.add_emod] at hp
    exact_mod_cast hp
  · rw [hmin (clOp_of.2.1 h)]
    split
    · next hlt => rw [min_eq_right hlt.le, pattern_wrapTo _ hy]
    · next hlt => rw [min_eq_left (not_lt.1 hlt), pattern_wrapTo _ hx]
  · rw [hmax (clOp_of.2.2 h)]
    split
    · next hlt => rw [max_eq_right hlt.le, pattern_wrapTo _ hy]
    · next hlt => rw [max_eq_left (not_lt.1 hlt), pattern_wrapTo _ hx]

/-- An operation on numbers reads the patterns of its operands alone. -/
theorem pairable_fp_congr {ty : Nat} (h : tyIsFp ty = true) {a a' b b' : Word} (o : NOp) (c : Word)
    (ha : a.toNat % 2 ^ tyWidth ty = a'.toNat % 2 ^ tyWidth ty) (hb : b.toNat % 2 ^ tyWidth ty = b'.toNat % 2 ^ tyWidth ty) :
    pairable o ty 0 false false a b c = pairable o ty 0 false false a' b' c := by
  simp only [pairable, h, if_true, ha, hb]

theorem low_placeTy (ty x : Nat) : (placeTy ty x).toNat % 2 ^ tyWidth ty = x % 2 ^ tyWidth ty := by
  have h := congrArg BitVec.toNat (extract_extendTo ty (BitVec.ofNat (tyWidth ty) x))
  rw [BitVec.extractLsb'_toNat, BitVec.toNat_ofNat, Nat.shiftRight_zero] at h
  exact h

theorem clStep_numbers {c : Word} {x y : Nat} (hx : x < 2 ^ tyWidth (clTy c)) (hy : y < 2 ^ tyWidth (clTy c)) (hty : tyIsFp (clTy c) = true) :
    clStep c x y = ((pairable (clOp c) (clTy c) 0 false false (BitVec.ofNat 64 x) (BitVec.ofNat 64 y) 0).val.toNat % 2 ^ tyWidth (clTy c),
      (pairable (clOp c) (clTy c) 0 false false (BitVec.ofNat 64 x) (BitVec.ofNat 64 y) 0).ev) := by
  have h64 : 2 ^ tyWidth (clTy c) ≤ 2 ^ 64 := Nat.pow_le_pow_right (by decide) (tyWidth_bounds _).2
  have hlow {n : Nat} (hn : n < 2 ^ tyWidth (clTy c)) :
      (placeTy (clTy c) n).toNat % 2 ^ tyWidth (clTy c) = (BitVec.ofNat 64 n).toNat % 2 ^ tyWidth (clTy c) := by
    rw [low_placeTy, toNat_ofNat_of_lt (by omega)]
  rw [clStep_eq, pairable_fp_congr hty _ _ (hlow hx) (hlow hy)]

theorem collectiveStep : Claims.CollectiveStep := by
  intro c x y ty red w r z
  refine ⟨fun hx hy hty => ?_, fun hty => ?_⟩
  · have hle : clTy c ≤ 7 := by
      have hty : clTy c ∈ [2, 3, 6, 7] := hty
      simp only [List.mem_cons, List.not_mem_nil, or_false] at hty
      omega
    have hz : z x = wrapTo (clTy c) x ∧ z y = wrapTo (clTy c) y := ⟨readInt_ofNat _ hx, readInt_ofNat _ hy⟩
    rw [hz.1, hz.2]
    exact clStep_integers hx hy hle
  · intro p hx hy
    have hfp : tyIsFp (clTy c) = true := by
      have hty : clTy c ∈ [8, 9, 10] := hty
      simp only [List.mem_cons, List.not_mem_nil, or_false] at hty
      rcases hty with h | h | h <;> rw [h] <;> rfl
    have hr : r = ((p (clOp c)).val.toNat % 2 ^ w, (p (clOp c)).ev) := clStep_numbers hx hy hfp
    refine ⟨fun h => ?_, fun h => ?_, fun h => ?_⟩
    · rw [hr, clOp_of.1 h]
    · rw [hr, clOp_of.2.1 h]
    · rw [hr, clOp_of.2.2 h]

/-! ### What a rank receives (R365) -/

/-- The pattern of the reduction of an element, member by member. -/
theorem clReduce_fst (c : Word) (p : ClPart) (ps : List ClPart) (j : Nat) : (clReduce c (p :: ps) j).1 =
    ps.foldl (fun acc x => (clStep c acc (clElem (clBytes c) x.bytes j)).1) (clElem (clBytes c) p.bytes j) := by
  have hfold (ps : List ClPart) (a : Nat) (ev : Ev) : (ps.foldl (fun (acc : Nat × Ev) q =>
      let r := clStep c acc.1 (clElem (clBytes c) q.bytes j)
      (r.1, acc.2 ||| r.2)) (a, ev)).1 = ps.foldl (fun acc x => (clStep c acc (clElem (clBytes c) x.bytes j)).1) a := by
    induction ps generalizing a ev with
    | nil => rfl
    | cons q ps ih => exact ih _ _
  exact hfold ps _ _

/-- The bytes and marks of a reduction of the elements from `base` on. -/
theorem clResult_reduced {c : Word} {len q base : Nat} {ps : List ClPart} (h : clOpc c = 1 ∧ base = 0 ∨ clOpc c = 2 ∧ base = q * len) :
    (clResult c len q ps).1.bytes = ((List.range len).flatMap fun j => toLe (clBytes c) (clReduce c ps (base + j)).1) ∧
    (clResult c len q ps).1.psn = (List.range len).flatMap fun j => List.replicate (clBytes c) (clElemPsn c ps (base + j)) := by
  have hcase : (clResult c len q ps).1 = ⟨(((List.range len).map (base + ·)).map fun j => clReduce c ps j).flatMap fun r => toLe (clBytes c) r.1,
      ((List.range len).map (base + ·)).flatMap fun j => List.replicate (clBytes c) (clElemPsn c ps j), []⟩ := by
    unfold clResult
    rcases h with ⟨h, rfl⟩ | ⟨h, rfl⟩ <;> simp only [h]
  rw [hcase]
  simp only [List.map_map, List.flatMap_map, Function.comp_def, and_self]

/-- An item of a list of blocks of one length. -/
theorem getElem?_flatMap_replicate {α : Type} (f : Nat → α) (e len : Nat) {j i : Nat} (hj : j < len) (hi : i < e) :
    ((List.range len).flatMap fun j => List.replicate e (f j))[e * j + i]? = some (f j) := by
  induction len generalizing j with
  | zero => omega
  | succ n ih =>
    have hlen : ((List.range n).flatMap fun j => List.replicate e (f j)).length = e * n := by
      simp [List.length_flatMap, Nat.mul_comm]
    rw [List.range_succ, List.flatMap_append]
    by_cases hjn : j < n
    · rw [List.getElem?_append_left]
      · exact ih hjn
      · rw [hlen]
        calc e * j + i < e * (j + 1) := by rw [Nat.mul_succ]; omega
          _ ≤ e * n := Nat.mul_le_mul_left e hjn
    · obtain rfl : j = n := by omega
      rw [List.getElem?_append_right (by rw [hlen]; omega), hlen]
      simp [hi]

theorem clElemPsn_iff (c : Word) (ps : List ClPart) (j : Nat) : clElemPsn c ps j = true ↔
    ∃ x ∈ ps, ∃ k, k < clBytes c ∧ x.psn.getD (clBytes c * j + k) false = true := by
  rw [clElemPsn, List.any_eq_true]
  refine exists_congr fun x => and_congr_right fun _ => ?_
  rw [List.any_eq_true]
  constructor
  · rintro ⟨b, hb, hid⟩
    obtain ⟨k, hk⟩ := List.mem_iff_getElem?.1 hb
    obtain rfl : b = true := hid
    have hlt : k < clBytes c := by
      by_contra hge
      rw [List.getElem?_eq_none (by simp; omega)] at hk
      cases hk
    rw [List.getElem?_take_of_lt hlt, List.getElem?_drop] at hk
    exact ⟨k, hlt, by rw [List.getD_eq_getElem?_getD, hk]; rfl⟩
  · rintro ⟨k, hlt, hk⟩
    refine ⟨true, List.mem_iff_getElem?.2 ⟨k, ?_⟩, rfl⟩
    rw [List.getElem?_take_of_lt hlt, List.getElem?_drop]
    rw [List.getD_eq_getElem?_getD] at hk
    cases hx : x.psn[clBytes c * j + k]? with
    | none => simp [hx] at hk
    | some b => simpa [hx] using hk

theorem collectiveResults : Claims.CollectiveResults := by
  intro c len q p ps e parts out op fold
  refine ⟨fun h x hx hroot hunique => ?_, fun h => ?_, fun h => ?_, fun h => ?_, fun h j i hj hi => ?_⟩
  · have hop : clOpc c = 0 := h
    have hfind : parts.find? (fun y => y.rank == clRoot c) = some x := by
      cases hf : parts.find? fun y => y.rank == clRoot c with
      | none => exact absurd (beq_iff_eq.2 hroot) (List.find?_eq_none.1 hf x hx)
      | some y =>
        have hy : y.rank = clRoot c := by simpa using List.find?_some hf
        rw [hunique y (List.mem_of_find?_eq_some hf) (hy.trans hroot.symm)]
    have hout : out = ⟨x.bytes.take (len * e), x.psn.take (len * e), []⟩ := by
      show (clResult c len q parts).1 = _
      simp only [clResult, hop, hfind]
      rfl
    rw [hout]
    exact ⟨rfl, rfl⟩
  · refine (clResult_reduced (.inl ⟨h, rfl⟩)).1.trans (List.flatMap_congr fun j _ => ?_)
    rw [Nat.zero_add, clReduce_fst]
  · refine (clResult_reduced (.inr ⟨h, rfl⟩)).1.trans (List.flatMap_congr fun j _ => ?_)
    rw [clReduce_fst]
  · have hop : clOpc c = 3 := h
    show (clResult c len q parts).1.bytes = _
    simp only [clResult, hop]
    rfl
  · rw [List.getD_eq_getElem?_getD, (clResult_reduced (q := q) (.inl ⟨h, rfl⟩)).2, getElem?_flatMap_replicate _ _ _ hj hi, Nat.zero_add]
    exact clElemPsn_iff c parts j

/-! ### Events of an engine operation (R62, R66) -/

theorem countClass_dev (d : Dev) (k c n : Nat) : ∃ x ev, (countClass d k c n).1 = { d with ctxs := x, pkg := { d.pkg with events := ev } } := by
  unfold countClass
  split
  · exact ⟨_, _, rfl⟩
  · dsimp only
    split <;> exact ⟨_, _, rfl⟩

theorem countEvents_dev (d : Dev) (k : Nat) (l : List (Nat × Nat)) :
    ∃ x ev, (countEvents d k l).1 = { d with ctxs := x, pkg := { d.pkg with events := ev } } := by
  induction l generalizing d with
  | nil => exact ⟨_, _, rfl⟩
  | cons e l ih =>
    obtain ⟨x, ev, h⟩ := countClass_dev d k e.1 e.2
    obtain ⟨x', ev', h'⟩ := ih (countClass d k e.1 e.2).1
    exact ⟨x', ev', by rw [countEvents_cons, h', h]⟩

/-- Events of an operation change counts, the event records and what its group holds. -/
theorem engineEvents_dev (m : Mach) (gid ctx : Nat) (p : Path) (id : Nat) (e : Ev) :
    ∃ x ev gs, (m.engineEvents gid ctx p id e).d = { m.d with ctxs := x, pkg := { m.d.pkg with events := ev }, groups := gs } := by
  obtain ⟨x, ev, h⟩ := countEvents_dev m.d ctx (onceEach e)
  unfold Mach.engineEvents
  dsimp only
  split
  · next g c _ _ =>
    obtain ⟨gs, hp⟩ := onPair_dev ⟨m.g, (countEvents m.d ctx (onceEach e)).1⟩ gid
      fun x => { x with heldTraps := x.heldTraps ++ [⟨p, g.posOf id, cNUMEVT, c⟩] }
    exact ⟨x, ev, gs, by rw [hp, h]⟩
  · exact ⟨x, ev, m.d.groups, by rw [h]⟩

/-! ### The steps of a collective (R365, R366) -/

theorem exec_clMatch (die op : Nat) (ms : List ClMember) (s : State) :
    exec (.clMatch die op ms) s = act (fun R m => clMatch die op ms R m) s := rfl
theorem exec_clComplete (die op : Nat) (s : State) : exec (.clComplete die op) s = act (fun R m => clComplete die op R m) s := rfl
theorem exec_cltimeout (die op : Nat) (s : State) : exec (.cltimeout die op) s = act (fun _ m => clTimeout die op m) s := rfl

/-- The operation stands once in the engine of its die. -/
structure InEngine (d : Dev) (die : Nat) (o : ClOp) (before rest : List ClOp) : Prop where
  coll : (d.die die).coll = before ++ o :: rest
  once : ∀ y ∈ before ++ rest, y.id ≠ o.id

section
variable {d : Dev} {die : Nat} {o : ClOp} {before rest : List ClOp} (h : InEngine d die o before rest)
include h

theorem InEngine.find {p : ClOp → Bool} (hp : ∀ y, p y = true → y.id = o.id) (ho : p o = true) : (d.die die).coll.find? p = some o := by
  rw [h.coll]
  refine List.find?_eq_some_iff_append.2 ⟨ho, before, rest, rfl, fun y hy => ?_⟩
  rw [Bool.not_eq_true', ← Bool.not_eq_true]
  exact fun hpy => h.once y (List.mem_append_left rest hy) (hp y hpy)

theorem InEngine.filter : (d.die die).coll.filter (fun y => y.id ≠ o.id) = before ++ rest := by
  rw [h.coll, List.filter_append, List.filter_cons_of_neg (by simp), ← List.filter_append]
  exact List.filter_eq_self.2 fun y hy => by simpa using h.once y hy

theorem InEngine.map (f : ClOp → ClOp) :
    (d.die die).coll.map (fun y => if y.id = o.id then f y else y) = before ++ f o :: rest := by
  have hid (l : List ClOp) (hl : ∀ y ∈ l, y.id ≠ o.id) : l.map (fun y => if y.id = o.id then f y else y) = l := by
    exact (List.map_congr_left (g := id) fun y hy => if_neg (hl y hy)).trans (List.map_id l)
  rw [h.coll, List.map_append, List.map_cons, if_pos rfl, hid before fun y hy => h.once y (List.mem_append_left rest hy),
    hid rest fun y hy => h.once y (List.mem_append_right before hy)]

end

theorem leaveCl_dev (m : Mach) (die : Nat) (o : ClOp) : ∃ gs, (leaveCl m die o).d =
    { m.d.setDie die { m.d.die die with coll := (m.d.die die).coll.filter fun y => y.id ≠ o.id } with groups := gs } :=
  finishOp_dev _ _ _ _ _

section
variable {m : Mach} {die : Nat} {o : ClOp} {before rest : List ClOp} (h : InEngine m.d die o before rest)
include h

theorem leaveCl_leaves : ((leaveCl m die o).d.die die).coll = before ++ rest ∧ (leaveCl m die o).d.mem = m.d.mem ∧
    (leaveCl m die o).d.pkg.asking = m.d.pkg.asking := by
  obtain ⟨gs, hd⟩ := leaveCl_dev m die o
  rw [hd]
  exact ⟨(congrArg Die.coll (Dev.die_setDie ..) :).trans h.filter, rfl, rfl⟩

/-- A failed operation leaves the engine, its trap held by its group (R364). -/
theorem failCl_fails {g : Group} (hg : m.group? o.gid = some g) (code : Nat) :
    ((failCl m die o code).d.die die).coll = before ++ rest ∧ (failCl m die o code).d.mem = m.d.mem ∧
    (failCl m die o code).d.pkg.asking = m.d.pkg.asking ∧
    ∃ g', (failCl m die o code).group? o.gid = some g' ∧ (⟨.cl, g.posOf o.flight, code, 0⟩ : Held) ∈ g'.heldTraps := by
  obtain ⟨gs, hd⟩ := hold_dev m o.gid .cl o.flight code
  obtain ⟨g1, ht, hg1, rfl, hmem⟩ := hold_group? hg .cl o.flight code
  unfold failCl
  generalize m.hold o.gid .cl o.flight code = m1 at hd hg1
  have hin : InEngine m1.d die o before rest := ⟨by rw [hd]; exact h.coll, h.once⟩
  obtain ⟨hcoll, hbytes, hask⟩ := leaveCl_leaves hin
  obtain ⟨g2, fl, u, hg2, rfl, -⟩ := finishOp_group? (m := ⟨m1.g, m1.d.setDie die _⟩) ((group?_eq (m := m1) rfl rfl o.gid).trans hg1)
    .cl o.flight o.wts
  exact ⟨hcoll, by rw [hbytes, hd], by rw [hask, hd], _, hg2, hmem⟩

theorem clTimeout_fails (hm : o.matched = false) : clTimeout die o.id m = failCl m die o cCLTIMEOUT := by
  unfold clTimeout
  rw [h.find (p := fun y => y.id == o.id && !y.matched) (fun y hy => by simpa using And.left (by simpa using hy)) (by simp [hm])]

theorem clComplete_leaves {R : CtlRegs} (hm : o.matched = true) (hs : bit o.ctrl 1 = false)
    (hr : ∀ r ∈ m.d.remotes, r.gid = 0 → r.flight ≠ o.id) : clComplete die o.id R m = leaveCl m die o := by
  have hnone : (m.d.remotes.any fun r => r.gid == 0 && r.flight == o.id) = false := by
    rw [List.any_eq_false]
    intro r hr'
    simpa using hr r hr'
  unfold clComplete
  rw [h.find (p := fun y => y.id == o.id) (fun y hy => by simpa using hy) (by simp)]
  dsimp only
  rw [if_neg (by rw [hm, hnone]; decide), if_pos (by rw [show clSig o.ctrl = false from hs]; rfl)]

end

/-! ### The match (R365) -/

theorem ownIndex_homeWork {d d' : Dev} (h : HomeWork d d') (j : Nat) : ownIndex d' j = ownIndex d j :=
  (congrArg (fun p : Pkg => p.domValid && decide (p.domIndex.toNat = j)) h.pkg :)

theorem localAddr_homeWork {d d' : Dev} (h : HomeWork d d') (a : Nat) : localAddr d' a = localAddr d a := by
  unfold localAddr
  split
  · rw [ownIndex_homeWork h]
  · rfl

theorem leaves_homeWork {d d' : Dev} (h : HomeWork d d') (a : Nat) : leaves d' a = leaves d a := by
  unfold leaves
  split
  · rfl
  · rw [ownIndex_homeWork h]
  · rfl

/-- A contribution without its marks. -/
def ClPart.unmarked (p : ClPart) : ClPart := { p with psn := [] }

theorem clReduce_unmarked (c : Word) (ps : List ClPart) (j : Nat) : clReduce c (ps.map ClPart.unmarked) j = clReduce c ps j := by
  cases ps with
  | nil => rfl
  | cons p ps => exact List.foldl_map

/-- The bytes of a result do not depend on the marks of the sources. -/
theorem clResult_unmarked (c : Word) (len q : Nat) (ps : List ClPart) :
    (clResult c len q (ps.map ClPart.unmarked)).1.bytes = (clResult c len q ps).1.bytes := by
  unfold clResult
  simp only [clReduce_unmarked]
  split
  · have hfind : (ps.map ClPart.unmarked).find? (fun p => p.rank == clRoot c) =
        (ps.find? fun p => p.rank == clRoot c).map ClPart.unmarked := List.find?_map
    rw [hfind]
    cases ps.find? fun p => p.rank == clRoot c <;> rfl
  · rfl
  · rfl
  · exact List.flatMap_map ..

/-- The contributions in rank order, as the operation that matches sees them. -/
def clParts (o : ClOp) (members : List ClMember) (q : Nat) (own : ClPart) : List ClPart :=
  (List.range (clCount o.ctrl)).map fun r => if r = q then own else
    (((members.find? fun x => x.rank == r).map (clOther o.ctrl o.len)).getD ⟨r, [], []⟩)

theorem clParts_unmarked {o : ClOp} {members : List ClMember} {q : Nat} {a b : ClPart} (h : a.unmarked = b.unmarked) :
    (clParts o members q a).map ClPart.unmarked = (clParts o members q b).map ClPart.unmarked := by
  unfold clParts
  rw [List.map_map, List.map_map]
  refine List.map_congr_left fun r _ => ?_
  show ClPart.unmarked (if r = q then a else _) = ClPart.unmarked (if r = q then b else _)
  split
  · exact h
  · rfl

theorem clResult_own {o : ClOp} {members : List ClMember} {q : Nat} {a b : ClPart} (h : a.unmarked = b.unmarked) :
    (clResult o.ctrl o.len q (clParts o members q a)).1.bytes = (clResult o.ctrl o.len q (clParts o members q b)).1.bytes := by
  rw [← clResult_unmarked, clParts_unmarked h, clResult_unmarked]

/-- DST with the bytes of a result. -/
def clWritten (d : Dev) (die : Nat) (o : ClOp) (out : RangeData) : Dev := engineWrite d die 0 o.dst o.dst.cursor out none

/-- A matched operation. -/
def clMatched (d : Dev) (die : Nat) (o : ClOp) (out : RangeData) : Dev :=
  setCl (clWritten d die o out) die o.id fun x =>
    { x with matched := true, wts := rangeWts (clWritten d die o out) die o.dst o.dst.cursor out.bytes.length }

theorem others_issued {o : ClOp} {others : List Nat} {members : List ClMember} (hm : o.matched = false)
    (hall : ∀ r ∈ others, ∃ x ∈ members, x.rank = r) : ¬ (o.matched || !others.all fun r => members.any fun x => x.rank == r) = true := by
  rw [hm, Bool.false_or, Bool.not_eq_true', Bool.not_eq_false, List.all_eq_true]
  intro r hr
  obtain ⟨x, hx, hxr⟩ := hall r hr
  exact List.any_eq_true.2 ⟨x, hx, by simpa using hxr⟩

section
variable {m : Mach} {die : Nat} {o : ClOp} {before rest : List ClOp} (h : InEngine m.d die o before rest) {R : CtlRegs} {q : Nat}
  (hq : clRank m.d o.ctrl = some q) {members : List ClMember}
include h hq

theorem clMatch_waits {r : Nat} (hr : r ∈ (List.range (clCount o.ctrl)).filter (· ≠ q)) (hno : ∀ x ∈ members, x.rank ≠ r) :
    clMatch die o.id members R m = m := by
  unfold clMatch
  rw [h.find (p := fun y => y.id == o.id) (fun y hy => by simpa using hy) (by simp)]
  dsimp only
  rw [hq]
  refine if_pos ?_
  rw [Bool.or_eq_true, Bool.not_eq_true', ← Bool.not_eq_true, List.all_eq_true]
  refine .inr fun hall => ?_
  obtain ⟨x, hx, hid⟩ := List.any_eq_true.1 (hall r hr)
  exact hno x hx (by simpa using hid)

variable (hm : o.matched = false) (hall : ∀ r ∈ (List.range (clCount o.ctrl)).filter (· ≠ q), ∃ x ∈ members, x.rank = r)
include hm hall

theorem clMatch_disagrees (hbad : ∃ x ∈ members, x.rank ∈ (List.range (clCount o.ctrl)).filter (· ≠ q) ∧ x.agrees = false) :
    clMatch die o.id members R m = failCl m die o cCLBLOCK := by
  unfold clMatch
  rw [h.find (p := fun y => y.id == o.id) (fun y hy => by simpa using hy) (by simp)]
  dsimp only
  rw [hq]
  refine (if_neg (others_issued hm hall)).trans (if_pos ?_)
  obtain ⟨x, hx, hr, ha⟩ := hbad
  refine List.any_eq_true.2 ⟨x, hx, ?_⟩
  rw [Bool.and_eq_true, ha]
  exact ⟨List.contains_iff_mem.2 hr, rfl⟩

variable (hgood : ∀ x ∈ members, x.rank ∈ (List.range (clCount o.ctrl)).filter (· ≠ q) → x.agrees = true)
  (hsk : o.src.kind = 0) (hsl : leaves m.d o.src.cursor = false) (hdl : leaves m.d o.dst.cursor = false)
  (hsr : reach R m.d (engineParty m.d o.colour o.part 0 false) false o.src o.src.cursor (clSrcLen o.ctrl o.len q) = .all)
  (hdr : reach R m.d (engineParty m.d o.colour o.part 0 false) true o.dst o.dst.cursor (clDstLen o.ctrl o.len) = .all)
include hgood hsk hsl hdl hsr hdr

theorem clMatch_matches :
    let n := clSrcLen o.ctrl o.len q
    let a := localAddr m.d o.src.cursor
    let d1 := homesOf m.d (runsOf a n)
    let res := clResult o.ctrl o.len q (clParts o members q ⟨q, (d1.mem.range a n).bytes, (d1.mem.range a n).psn⟩)
    clMatch die o.id members R m = Mach.engineEvents ⟨m.g, clMatched d1 die o (res.1.cut (clDstLen o.ctrl o.len))⟩ o.gid o.ctx .cl o.flight res.2 := by
  intro n a d1 res
  have hown : clOwn m.d o q n = (d1, some ⟨q, (d1.mem.range a n).bytes, (d1.mem.range a n).psn⟩) := by
    unfold clOwn
    rw [hsl, Bool.and_false, engineRead_memory _ _ (by rw [hsk]; decide)]
    rfl
  have hfar : leaves d1 o.dst.cursor = false := (leaves_homeWork (homesOf_homeWork _ _) _).trans hdl
  unfold clMatch
  rw [h.find (p := fun y => y.id == o.id) (fun y hy => by simpa using hy) (by simp)]
  dsimp only
  rw [hq]
  dsimp only
  rw [if_neg (others_issued hm hall), if_neg, hsr]
  · dsimp only [settleReach]
    rw [hdr]
    dsimp only
    rw [hown]
    dsimp only
    generalize hparts : List.map _ (List.range (clCount o.ctrl)) = parts
    obtain rfl : clParts o members q ⟨q, (d1.mem.range a n).bytes, (d1.mem.range a n).psn⟩ = parts := by
      rw [← hparts]
      refine List.map_congr_left fun r _ => ?_
      split
      · rfl
      · cases members.find? fun x => x.rank == r <;> rfl
    rw [hfar]
    simp only [Bool.false_and, Bool.false_eq_true, if_false, Nat.min_self]
    rfl
  · rw [Bool.not_eq_true, List.any_eq_false]
    intro x hx
    rw [Bool.and_eq_true, not_and, Bool.not_eq_true', Bool.not_eq_false]
    exact fun hr => hgood x hx (List.contains_iff_mem.1 hr)

end

theorem rangeHomes_homeWork (d : Dev) (die la n : Nat) : HomeWork d (rangeHomes d die la n) :=
  HomeWork.foldl (fun d (r : Nat × Nat) => homeStore_homeWork d r.1 r.2 _) _ d

/-- A range without sync words keeps its bytes as they are written. -/
theorem breakSeq_nothing {d : Dev} {a n : Nat} (h : ∀ k, k ∈ blocksOf 64 a n → d.syncs.getD k false = false) : breakSeq d a n = d := by
  unfold breakSeq
  generalize blocksOf 64 a n = L at h
  induction L with
  | nil => rfl
  | cons k L ih =>
    rw [List.foldl_cons, if_neg (by rw [h k (List.mem_cons_self ..)]; decide)]
    exact ih fun j hj => h j (List.mem_cons_of_mem k hj)

/-- A write of a result to memory without sync words. -/
theorem clWritten_memory {d : Dev} {die : Nat} {o : ClOp} {out : RangeData} (hk : o.dst.kind = 0)
    (hs : ∀ k ∈ blocksOf 64 (localAddr d o.dst.cursor) out.bytes.length, d.syncs.getD k false = false) :
    ∃ d', HomeWork d d' ∧ clWritten d die o out = { d' with mem := d'.mem.storeRange (localAddr d o.dst.cursor) out } := by
  refine ⟨_, rangeHomes_homeWork d die (localAddr d o.dst.cursor) out.bytes.length, ?_⟩
  have hns : ¬ o.dst.kind = kSCRATCH := by rw [hk]; decide
  refine (if_neg hns).trans (breakSeq_nothing fun k hk => ?_)
  exact (congrArg (fun t => Tab.getD t k false) (rangeHomes_homeWork d die (localAddr d o.dst.cursor) out.bytes.length).syncs :).trans (hs k hk)

theorem blocks_within {a n k j : Nat} (hn : n ≤ k) (hj : j ∈ blocksOf 64 a n) : a / 64 ≤ j ∧ j ≤ (a + k) / 64 := by
  rw [mem_blocksOf] at hj
  omega

/-- What a match leaves: the operation matched in its place, the bytes of the result in DST, and nothing asked of the host. -/
theorem clMatched_leaves {d d1 : Dev} {die : Nat} {o : ClOp} {before rest : List ClOp} (h : InEngine d die o before rest)
    (hw : HomeWork d d1) (hc : hostClear d) {out : RangeData} (hk : o.dst.kind = 0)
    (hs : ∀ k ∈ blocksOf 64 (localAddr d o.dst.cursor) out.bytes.length, d.syncs.getD k false = false) :
    (∃ w, ((clMatched d1 die o out).die die).coll = before ++ { o with matched := true, wts := w } :: rest) ∧
    (clMatched d1 die o out).pkg.asking = d.pkg.asking ∧
    ∀ b, (clMatched d1 die o out).mem.byte b = if localAddr d o.dst.cursor ≤ b ∧ b < localAddr d o.dst.cursor + out.bytes.length
      then out.bytes.getD (b - localAddr d o.dst.cursor) 0 else d.mem.byte b := by
  rw [← localAddr_homeWork hw] at hs ⊢
  obtain ⟨d2, hw2, hd2⟩ := clWritten_memory (d := d1) (die := die) hk fun k hkm => (congrArg (fun t => Tab.getD t k false) hw.syncs :).trans (hs k hkm)
  have hwork := hw.trans hw2
  have hin : InEngine (clWritten d1 die o out) die o before rest := ⟨by
    rw [hd2]
    exact (hwork.coll die).trans h.coll, h.once⟩
  refine ⟨⟨rangeWts (clWritten d1 die o out) die o.dst o.dst.cursor out.bytes.length, ?_⟩, ?_, fun b => ?_⟩
  · refine (congrArg Die.coll (Dev.die_setDie ..) :).trans ?_
    exact hin.map _
  · show (clWritten d1 die o out).pkg.asking = _
    rw [hd2]
    exact hwork.asking hc
  · show (clWritten d1 die o out).mem.byte b = _
    rw [hd2, ← hwork.byte]
    exact byte_storeRange ..

theorem getD_take {α : Type} (l : List α) (d : α) {i k : Nat} (h : i < k) : (l.take k).getD i d = l.getD i d := by
  rw [List.getD_eq_getElem?_getD, List.getElem?_take_of_lt h, ← List.getD_eq_getElem?_getD]

theorem collectiveSteps : Claims.CollectiveSteps := by
  intro s die o before rest members hcoll honce hgroup c p fails
  obtain ⟨g, hg⟩ := Option.isSome_iff_exists.1 hgroup
  have hin : InEngine s.mach.d die o before rest := ⟨hcoll, honce⟩
  have hfail {i : Instr} {f : CtlRegs → Mach → Mach} (hi : exec i s = act f s) (code : Nat)
      (hf : f s.regs s.mach = failCl s.mach die o code) : fails i code := by
    obtain ⟨hleft, hmem, hask, g', hg', hheld⟩ := failCl_fails hin hg code
    exact ⟨s.put (failCl s.mach die o code), by rw [hi, act_ok f s (by rw [hf]; exact hask), hf], hleft, hmem, g, g', hg, hg', hheld⟩
  refine ⟨fun hm => ?_, fun hm hsig hrem => ?_, fun q hm hq => ?_⟩
  · exact hfail (exec_cltimeout die o.id s) 54 (clTimeout_fails hin hm)
  · have hrun := clComplete_leaves hin (R := s.regs) hm hsig hrem
    obtain ⟨hleft, hmem, hask⟩ := leaveCl_leaves hin
    refine ⟨s.put (leaveCl s.mach die o), ?_, hleft, hmem, fun g' hg' hfirst => ?_⟩
    · rw [exec_clComplete, act_ok _ s (by rw [hrun]; exact hask), hrun]
    · obtain ⟨g2, hg2, hlt⟩ := finishOp_falls (m := ⟨s.grp, s.dev.setDie die _⟩) ((group?_eq (m := s.mach) rfl rfl o.gid).trans hg') hfirst o.wts
      exact ⟨g', g2, hg', hg2, hlt⟩
  intro n k da others
  refine ⟨fun ⟨r, hr, hno⟩ => ?_, fun hall hbad => ?_, fun hall hnd hsk hdk hsl hdl hsr hdr hhost hsync => ?_⟩
  · have hrun := clMatch_waits hin (R := s.regs) hq hr hno
    rw [exec_clMatch, act_ok _ s (by rw [hrun]; rfl), hrun, State.put_self]
  · exact hfail (exec_clMatch die o.id members s) 50 (clMatch_disagrees hin hq hm hall hbad)
  · have hgood : ∀ x ∈ members, x.rank ∈ others → x.agrees = true := fun x hx hr => by
      obtain ⟨y, hy, hyr, hya⟩ := hall x.rank hr
      rw [List.inj_on_of_nodup_map hnd hx hy hyr.symm, hya]
    have hissued : ∀ r ∈ others, ∃ x ∈ members, x.rank = r := fun r hr => by
      obtain ⟨x, hx, hxr, -⟩ := hall r hr
      exact ⟨x, hx, hxr⟩
    intro own parts out
    obtain ⟨d1, res, hw, hout, hrun⟩ : ∃ (d1 : Dev) (res : RangeData × Ev), HomeWork s.dev d1 ∧ res.1.bytes = out ∧
        clMatch die o.id members s.regs s.mach = Mach.engineEvents ⟨s.grp, clMatched d1 die o (res.1.cut k)⟩ o.gid o.ctx .cl o.flight res.2 := by
      have hw : HomeWork s.dev (homesOf s.dev (runsOf (localAddr s.dev o.src.cursor) n)) := homesOf_homeWork _ _
      refine ⟨_, _, hw, ?_, clMatch_matches hin hq hm hissued hgood hsk hsl hdl hsr hdr⟩
      have hown : ClPart.unmarked ⟨q, ((homesOf s.dev (runsOf (localAddr s.dev o.src.cursor) n)).mem.range (localAddr s.dev o.src.cursor) n).bytes,
          ((homesOf s.dev (runsOf (localAddr s.dev o.src.cursor) n)).mem.range (localAddr s.dev o.src.cursor) n).psn⟩ = own.unmarked :=
        congrArg (ClPart.mk q · []) (List.map_congr_left fun i _ => hw.byte _)
      exact clResult_own hown
    have hlen : (res.1.cut k).bytes.length = min k out.length := by rw [← hout]; exact List.length_take ..
    obtain ⟨hcoll', hask, hmem⟩ := clMatched_leaves hin hw hhost (out := res.1.cut k) hdk fun j hj => by
      obtain ⟨h1, h2⟩ := blocks_within (hlen.trans_le (Nat.min_le_left ..)) hj
      exact hsync j h1 h2
    obtain ⟨xs, ev, gs, hd⟩ := engineEvents_dev ⟨s.grp, clMatched d1 die o (res.1.cut k)⟩ o.gid o.ctx .cl o.flight res.2
    generalize clMatched d1 die o (res.1.cut k) = d2 at hcoll' hask hmem hd hrun
    refine ⟨s.put (clMatch die o.id members s.regs s.mach), ?_, ?_, fun b => ?_⟩
    · exact (exec_clMatch die o.id members s).trans (act_ok _ s (by rw [hrun, hd]; exact hask))
    · rw [State.put_dev, hrun, hd]
      exact hcoll'
    · rw [State.memByte, State.put_dev, hrun, hd]
      refine (hmem b).trans ?_
      rw [hlen]
      show (if da ≤ b ∧ b < da + min k out.length then (res.1.bytes.take k).getD (b - da) 0 else s.memByte b) = _
      by_cases hb : da ≤ b ∧ b < da + min k out.length
      · rw [if_pos hb, if_pos hb, getD_take _ _ (by omega), hout]
      · rw [if_neg hb, if_neg hb]

end Sys2Proof.Machine
namespace Sys2Proof

/-- Settles O20: a collective's result folds the contributions in rank order; its match is one write of a range to DST. -/
theorem collectiveEngine : Obligations.CollectiveEngine :=
  ⟨Machine.collectiveStep, Machine.collectiveResults, Machine.collectiveSteps⟩

end Sys2Proof
end

section
/-! ## A lane word outside a chain (R75, R110, R176, R249) -/

namespace Sys2Proof.Machine

theorem warn_dev (d : Dev) (k : Nat) (codes : List Nat) : ∃ x, warn d k codes = { d with ctxs := x } := by
  unfold warn
  split <;> exact ⟨_, rfl⟩

/-- Nothing traps of what a context counts, where its action registers are as in a quiet one. -/
theorem Ctx.quiet_of {x y : Ctx} (h : x.nev = y.nev) (hq : y.quiet) : x.quiet := by
  rw [Ctx.quiet, h]
  exact hq

/-- How a word outside a chain ends, from what its work gives. -/
def LaneForm.ends (f : LaneForm) (m0 : Mach) : LaneRes → Option Mach
  | .wait m => m
  | .trap m code mask => some (laneTrap { m with d := warn m.d m.g.ctx (f.warns false) } code mask)
  | .gone k => some (k { m0 with d := warn m0.d m0.g.ctx (f.warns false) })
  | .done m e => some (finishLane f { m with d := warn m.d m.g.ctx (f.warns false) } e)

/-- The machine of a word that completes outside a chain. -/
def LaneForm.completes (f : LaneForm) (m : Mach) (e : LaneEff) : Mach :=
  ⟨Group.nextLane { m.g with
      lanes := f.frees.foldl LaneFile.unmap (e.file m.g.lanes), dzmask := m.g.dzmask ||| e.dz, domask := m.g.domask ||| e.dov },
    (countEvents (warn m.d m.g.ctx (f.warns false)) m.g.ctx e.counts).1⟩

/-- Nothing else of the group changes than its lane registers, its division masks, and the place of the lane stream. -/
theorem LaneForm.completes_grp (f : LaneForm) (m : Mach) (e : LaneEff) : ∃ q p h, (f.completes m e).g = { m.g with
    lanes := f.frees.foldl LaneFile.unmap (e.file m.g.lanes), dzmask := m.g.dzmask ||| e.dz, domask := m.g.domask ||| e.dov
    queue := q, lpos := p, heldWords := h } := nextLane_place _

/-- Nothing else of the device changes than what the contexts count, and the event records. -/
theorem LaneForm.completes_dev (f : LaneForm) (m : Mach) (e : LaneEff) :
    ∃ x ev, (f.completes m e).d = { m.d with ctxs := x, pkg := { m.d.pkg with events := ev } } := by
  obtain ⟨x, hx⟩ := warn_dev m.d m.g.ctx (f.warns false)
  obtain ⟨y, ev, hy⟩ := countEvents_dev (warn m.d m.g.ctx (f.warns false)) m.g.ctx e.counts
  exact ⟨y, ev, hy.trans (by rw [hx])⟩

theorem LaneForm.completes_next (f : LaneForm) (m : Mach) (e : LaneEff) : laneNext m.g (f.completes m e).g := laneNext_nextLane _

/-- What a word that completes has counted. -/
theorem LaneForm.completes_counts (f : LaneForm) (m : Mach) (e : LaneEff) :
    CountsTo (warn m.d m.g.ctx (f.warns false)) (f.completes m e).d m.g.ctx (classSum e.counts) := countEvents_countsTo _ _ _

section
variable {op10 : Nat} {w : Wide} {body : LaneInfo → View → Word → CtlRegs → Mach → LaneRes} {s : State}

theorem laneStep_ready (hr : aloneReady s op10 w) (hle : w.le = false ∨ 0x180 ≤ op10) :
    laneStep (formOf s op10 w) (fun run m => body (infoOf op10 w) s.grp.view run s.regs m) s.mach =
      (formOf s op10 w).ends s.mach (body (infoOf op10 w) s.grp.view (formOf s op10 w).run s.regs s.mach) := by
  have hc : s.mach.g.chain = none := hr.2
  have hlone : ((formOf s op10 w).eligible && (formOf s op10 w).le) = false := by
    show (chainEligible op10 && (w.le && chainEligible op10)) = false
    rcases hle with hle | hle
    · simp [hle]
    · simp [chainEligible, Nat.not_lt.2 hle]
  rw [laneStep_noCut _ (.inl hc)]
  simp only [runLane, hlone, hc, Bool.false_and, Option.isSome_none, Bool.false_eq_true, if_false, List.nil_append, List.isEmpty_nil, if_true,
    List.append_nil, regs_inRange (m := s.mach) hr.1.2.2.1]
  generalize body (infoOf op10 w) s.grp.view (formOf s op10 w).run s.regs s.mach = r
  rcases r with (_ | m) | _ | _ | _ <;> rfl

variable (hr : aloneReady s op10 w)
include hr

theorem laneWord_ready {m : Mach} (h : laneStep (formOf s op10 w) (fun run m => body (infoOf op10 w) s.grp.view run s.regs m) s.mach = some m)
    (ha : m.d.pkg.asking = s.dev.pkg.asking) : laneWord op10 w body s = .next (s.put m) := by
  refine actOrWait_ok ?_ ha
  refine (if_neg ?_).trans h
  rw [hr.1.1, show spilledUse (wideForm op10 w ((laneInfo op10 w).getD {}) s.mach.g) s.mach.g = false from hr.1.2.1]
  decide

variable (hle : w.le = false ∨ 0x180 ≤ op10)
include hle

/-- A word whose work must wait leaves everything as it is. -/
theorem laneWord_waits (h : body (infoOf op10 w) s.grp.view (formOf s op10 w).run s.regs s.mach = .wait none) :
    laneWord op10 w body s = .next s.waits := by
  refine actOrWait_wait ?_
  refine (if_neg ?_).trans ?_
  · rw [hr.1.1, show spilledUse (wideForm op10 w ((laneInfo op10 w).getD {}) s.mach.g) s.mach.g = false from hr.1.2.1]
    decide
  · exact (laneStep_ready hr hle).trans (by rw [h]; rfl)

/-- A word that traps names its lanes; its warnings alone are recorded. -/
theorem laneWord_traps {m : Mach} {code : Nat} {mask : Word}
    (h : body (infoOf op10 w) s.grp.view (formOf s op10 w).run s.regs s.mach = .trap m code mask) (hg : m.g = s.grp)
    (ha : m.d.pkg.asking = s.dev.pkg.asking) (ht : laneTraps s.grp) :
    ∃ x, laneWord op10 w body s = .next (s.put ⟨s.grp.laneTrapped code mask, { m.d with ctxs := x }⟩) ∧
      warn m.d s.grp.ctx ((formOf s op10 w).warns false) = { m.d with ctxs := x } := by
  obtain ⟨hc, hi, hv⟩ := ht
  obtain ⟨x, hx⟩ := warn_dev m.d m.g.ctx ((formOf s op10 w).warns false)
  refine ⟨x, laneWord_ready hr ((laneStep_ready hr hle).trans ?_) ha, hg ▸ hx⟩
  rw [h, LaneForm.ends, hx, laneTrap_trapped code mask (by rw [hg]; exact hi) (by rw [hg]; exact hv), hg]
  have hp : s.grp.laneTrapPos = s.grp.lpos := by simp [Group.laneTrapPos, hc]
  rw [hp]
  rfl

/-- A word that completes: its registers and division masks, its counts, and the next word. -/
theorem laneWord_done {m : Mach} {e : LaneEff} (h : body (infoOf op10 w) s.grp.view (formOf s op10 w).run s.regs s.mach = .done m e)
    (hc : m.g.chain = none) (hctx : m.g.ctx = s.grp.ctx) (hnev : (m.d.ctx s.grp.ctx).nev = (s.dev.ctx s.grp.ctx).nev)
    (ha : m.d.pkg.asking = s.dev.pkg.asking) :
    laneWord op10 w body s = .next (s.put ((formOf s op10 w).completes m e)) := by
  have hquiet : ((warn m.d m.g.ctx ((formOf s op10 w).warns false)).ctx m.g.ctx).quiet :=
    quiet_warn _ (Ctx.quiet_of (by rw [hctx, hnev]) hr.1.2.2.2)
  refine laneWord_ready hr ((laneStep_ready hr hle).trans ?_) ?_
  · rw [h]
    exact congrArg some (finishLane_alone (m := ⟨m.g, warn m.d m.g.ctx _⟩) _ _ hc hquiet)
  · exact ((countEvents_quiet e.counts hquiet).2.asking.trans (warn_asking ..)).trans ha

end

end Sys2Proof.Machine
end

section
/-! ## Matrix lane words (R243-R245, R249) -/

namespace Sys2Proof.Machine

/-! ### What the checks ask (R244, R249) -/

/-- What a pass of a format asks of a record, beside its step (R244). -/
def passOk (m : Mach) (w : Wide) (r : MxRec) : Prop :=
  r.fmt = mxFmtOf w.ty ∧ r.two = decide (m.g.width = 64) ∧ (m.d.pkg.stage = 2 → mxFmtOf w.ty = .f16) ∧
    ∀ x, m.g.mxLatch = some x → x.1 = mxFmtOf w.ty

/-- What a slot word asks of a record, beside its columns (R249). -/
def slotOk (m : Mach) (phasor : Bool) (r : MxRec) : Prop := mxPhasor r.fmt = phasor ∧ r.two = decide (m.g.width = 64)

/-- The model's test of what a pass asks. -/
def passBad (m : Mach) (w : Wide) (r : MxRec) : Bool :=
  r.fmt ≠ mxFmtOf w.ty || r.two != (m.g.width == 64) || (m.d.pkg.stage == 2 && mxFmtOf w.ty ≠ .f16) ||
    (match m.g.latchFmt with
      | some f => f != mxFmtOf w.ty
      | none => false)

theorem passBad_iff (m : Mach) (w : Wide) (r : MxRec) : passBad m w r = true ↔ ¬ passOk m w r := by
  have hw : (r.two != (m.g.width == 64)) = true ↔ r.two ≠ decide (m.g.width = 64) := bne_iff_ne
  unfold passBad passOk Group.latchFmt
  cases m.g.mxLatch <;>
    simp only [Option.map_none, Option.map_some, Bool.or_eq_true, hw, Bool.and_eq_true, beq_iff_eq, bne_iff_ne, decide_eq_true_eq, not_and_or,
      Classical.not_imp, or_assoc, ne_eq, reduceCtorEq, false_implies, implies_true, not_true, Bool.false_eq_true, Option.some.injEq,
      forall_eq']

section
variable {m : Mach} {w : Wide} {run : Word} {n : Nat}

theorem passFault_width (h : m.g.width = 16) : passFault m w run n = some (cMXWIDTH, run) := if_pos h

variable (hw : m.g.width ≠ 16)
include hw

theorem passFault_idle (h : m.g.present &&& ~~~run ≠ 0) : passFault m w run n = some (cMXCONV, m.g.present &&& ~~~run) :=
  (if_neg hw).trans (if_pos h)

variable (hidle : m.g.present &&& ~~~run = 0)
include hidle

theorem passFault_noRecord (h : m.rec? n = none) : passFault m w run n = some (cMXRES, run) := by
  refine (if_neg hw).trans ((if_neg (not_not.2 hidle)).trans ?_)
  rw [h]

variable {r : MxRec} (h : m.rec? n = some r)
include h

theorem passFault_format (hok : ¬ passOk m w r) : passFault m w run n = some (cMXFMT, run) := by
  refine (if_neg hw).trans ((if_neg (not_not.2 hidle)).trans ?_)
  rw [h]
  exact if_pos ((passBad_iff m w r).2 hok)

theorem passFault_step (hok : passOk m w r) (hstep : r.pm1 < n / 256 % 256) : passFault m w run n = some (cMXRANGE, run) := by
  refine (if_neg hw).trans ((if_neg (not_not.2 hidle)).trans ?_)
  rw [h]
  exact (if_neg fun hb => (passBad_iff m w r).1 hb hok).trans (if_pos hstep)

theorem passFault_none (hok : passOk m w r) (hstep : n / 256 % 256 ≤ r.pm1) : passFault m w run n = none := by
  refine (if_neg hw).trans ((if_neg (not_not.2 hidle)).trans ?_)
  rw [h]
  exact (if_neg fun hb => (passBad_iff m w r).1 hb hok).trans (if_neg (Nat.not_lt.2 hstep))

end

theorem slotFault_width {m : Mach} (h : m.g.width = 16) (phasor : Bool) (n c k : Nat) : slotFault m phasor n c k = some cMXWIDTH := if_pos h

theorem slotFault_noRecord {m : Mach} {n : Nat} (hw : m.g.width ≠ 16) (h : m.rec? n = none) (phasor : Bool) (c k : Nat) :
    slotFault m phasor n c k = some cMXRES := by
  refine (if_neg hw).trans ?_
  rw [h]

theorem slotBad_iff (m : Mach) (phasor : Bool) (r : MxRec) :
    (mxPhasor r.fmt != phasor || r.two != (m.g.width == 64)) = true ↔ ¬ slotOk m phasor r := by
  rw [slotOk, Bool.or_eq_true, not_and_or]
  exact or_congr bne_iff_ne bne_iff_ne

section
variable {m : Mach} {n : Nat} {r : MxRec} (hw : m.g.width ≠ 16) (h : m.rec? n = some r) {phasor : Bool} {c k : Nat}
include hw h

theorem slotFault_format (hok : ¬ slotOk m phasor r) : slotFault m phasor n c k = some cMXFMT := by
  refine (if_neg hw).trans ?_
  rw [h]
  exact if_pos ((slotBad_iff m phasor r).2 hok)

theorem slotFault_columns (hok : slotOk m phasor r) (hc : 32 < c + k) : slotFault m phasor n c k = some cMXRANGE := by
  refine (if_neg hw).trans ?_
  rw [h]
  exact (if_neg fun hb => (slotBad_iff m phasor r).1 hb hok).trans (if_pos hc)

theorem slotFault_none (hok : slotOk m phasor r) (hc : c + k ≤ 32) : slotFault m phasor n c k = none := by
  refine (if_neg hw).trans ?_
  rw [h]
  exact (if_neg fun hb => (slotBad_iff m phasor r).1 hb hok).trans (if_neg (Nat.not_lt.2 hc))

end

/-! ### An entry of the table (R244, R251) -/

/-- The entry of an operation that enters the table now. -/
def entryOf (m : Mach) (r : MxRec) (k : MxKind) (reads : List (Nat × Nat)) : MxEntry :=
  { id := m.d.nextId, gid := m.g.gid, flight := m.g.nextOp, team := m.g.team, prio := m.g.prio, prc := m.g.prc, ctx := m.g.ctx
    width := m.g.width, rc := r, kind := k, running := false, passed := 0
    loads := ((m.d.cluster m.clKey).loads.filter fun l => l.gid == m.g.gid && reads.any fun q => rangesMeet q (l.off, l.len)).map fun l => l.id }

/-- The device with the operation in the table. -/
def entering (m : Mach) (r : MxRec) (k : MxKind) (reads : List (Nat × Nat)) : Dev :=
  let x := m.d.cluster m.clKey
  { m.d.setCluster m.clKey { x with table := x.table ++ [entryOf m r k reads] } with nextId := m.d.nextId + 1 }

theorem enterTable_eq {m : Mach} (hs : m.g.shadow = false) (r : MxRec) (k : MxKind) (reads : List (Nat × Nat)) :
    enterTable m r k reads = ⟨m.g.raise .mx, entering m r k reads⟩ := if_neg (by rw [show m.g.shadow = false from hs]; decide)

/-- What a matrix word does that meets its checks. -/
def entersAs (m : Mach) (latch : Option (MxFmt × Tab Lane32 × Tab Bool)) (r : MxRec) (k : MxKind) (reads : List (Nat × Nat)) : Mach :=
  ⟨{ m.g with mxLatch := latch }.raise .mx, entering m r k reads⟩

theorem entersAs_entered {s : State} {op10 : Nat} {w : Wide} {body : LaneInfo → View → Word → CtlRegs → Mach → LaneRes}
    (hr : aloneReady s op10 w) (hle : 0x180 ≤ op10) {latch : Option (MxFmt × Tab Lane32 × Tab Bool)} {r : MxRec} {k : MxKind} {reads : List (Nat × Nat)}
    (h : body (infoOf op10 w) s.grp.view (formOf s op10 w).run s.regs s.mach = .done (entersAs s.mach latch r k reads) {}) :
    ∃ t, laneWord op10 w body s = .next t ∧ entered s t r k ∧ laneNext s.grp t.grp ∧ t.grp.mxLatch = latch ∧ t.grp.s = s.grp.s ∧
      t.dev.mem = s.dev.mem ∧ lanesAfter s.grp.lanes t.grp.lanes (formOf s op10 w).run [] (formOf s op10 w).frees (fun _ _ => ⟨0, false⟩) := by
  have hdone := laneWord_done hr (.inr hle) h hr.2 rfl rfl rfl
  have hnext := (formOf s op10 w).completes_next (entersAs s.mach latch r k reads) {}
  obtain ⟨q, p, hw, hg⟩ := (formOf s op10 w).completes_grp (entersAs s.mach latch r k reads) {}
  obtain ⟨x, ev, hd⟩ := (formOf s op10 w).completes_dev (entersAs s.mach latch r k reads) {}
  generalize (formOf s op10 w).completes (entersAs s.mach latch r k reads) {} = m at hdone hnext hg hd
  refine ⟨_, hdone, ⟨entryOf s.mach r k reads, ?_, rfl, rfl, rfl, rfl, rfl, rfl, rfl, ?_⟩, hnext, ?_, ?_, ?_, fun j l hl => ?_⟩
  · show (m.d.cluster (clusterKey m.g.die m.g.core)).table = _
    rw [hg, hd]
    exact (congrArg Cluster.table (Dev.cluster_setCluster ..) :)
  · rw [State.put_grp, hg]
    exact (Group.raised_issuedOn s.grp .mx).1
  · rw [State.put_grp, hg]
    rfl
  · rw [State.put_grp, hg]
    rfl
  · rw [State.put_dev, hd]
    rfl
  · rw [State.put_grp, hg]
    refine (get_foldl_unmap _ _ _ hl).trans ?_
    simp
    rfl

section
variable {s : State} {op10 : Nat} {w : Wide} {body : LaneInfo → View → Word → CtlRegs → Mach → LaneRes}
  (hr : aloneReady s op10 w) (hle : 0x180 ≤ op10)
include hr hle

theorem matrixWord_traps {code : Nat} {mask : Word}
    (h : body (infoOf op10 w) s.grp.view (formOf s op10 w).run s.regs s.mach = .trap s.mach code mask) (ht : laneTraps s.grp) :
    ∃ t, laneWord op10 w body s = .next t ∧ t.grp = s.grp.laneTrapped code mask ∧ t.dev.mem = s.dev.mem ∧ t.dev.clusters = s.dev.clusters := by
  obtain ⟨x, hx, -⟩ := laneWord_traps hr (.inr hle) h rfl rfl ht
  exact ⟨_, hx, rfl, rfl, rfl⟩

end

/-! ### The words (R243, R249) -/

theorem tableFull_iff {m : Mach} : (tableFull m || !m.g.canRaise .mx) = true ↔ 32 ≤ (m.d.cluster m.clKey).table.length ∨ 1023 ≤ m.g.count .mx := by
  rw [Bool.or_eq_true, Bool.not_eq_true', ← Bool.not_eq_true]
  unfold tableFull Group.canRaise
  rw [decide_eq_true_eq, decide_eq_true_eq, Nat.not_lt]

theorem exec_mxMma (w : Wide) (s : State) : exec (.mxMma w) s = execMxMma w s := rfl
theorem exec_mxRd (w : Wide) (s : State) : exec (.mxRd w) s =
    slotWord 0x341 false w (fun _ _ run => .read w.dst.toNat (mxCol w) (mxN w) run) s := rfl
theorem exec_mxWr (w : Wide) (s : State) : exec (.mxWr w) s =
    slotWord 0x342 false w (fun g v run => .write (mxCol w) (mxN w) run (readRun g v w (mxN w)).1) s := rfl
theorem exec_mxResolve (w : Wide) (s : State) : exec (.mxResolve w) s =
    slotWord 0x343 true w (fun _ _ run => .resolve w.ty w.dst.toNat (mxCol w) (mxN w) run) s := rfl

/-- A as the pass takes it: the latch if it is full, and the registers otherwise. -/
def passOperand (s : State) (w : Wide) : Tab Lane32 × Tab Bool :=
  (s.grp.mxLatch.map Prod.snd).getD (readRun s.grp s.grp.view w (mxRun w.ty))

/-- What a matrix word that meets its checks does: it waits for a free entry, and enters. -/
def entersOrWaits (s : State) (op10 : Nat) (w : Wide) (r : MxRec) (k : MxKind) (latch : Option (MxFmt × Tab Lane32 × Tab Bool))
    (o : Host.Outcome State Fault Refusal) : Prop :=
  (32 ≤ s.cluster.table.length ∨ 1023 ≤ s.grp.count .mx → o = .next s.waits) ∧
  (s.cluster.table.length < 32 → s.grp.count .mx < 1023 → s.grp.dual = false → s.grp.shadow = false → ∃ t, o = .next t ∧
    entered s t r k ∧ laneNext s.grp t.grp ∧ t.grp.mxLatch = latch ∧ t.grp.s = s.grp.s ∧ t.dev.mem = s.dev.mem ∧
    lanesAfter s.grp.lanes t.grp.lanes (formOf s op10 w).run [] (formOf s op10 w).frees (fun _ _ => ⟨0, false⟩))

theorem dualGateLane_single {m : Mach} (h : m.g.dual = false) (e : List Byte) (k : Mach → LaneRes) : dualGateLane m e k = k m :=
  if_pos (by rw [h]; rfl)

section
variable {s : State} {op10 : Nat} {w : Wide} {body : LaneInfo → View → Word → CtlRegs → Mach → LaneRes}
  (hr : aloneReady s op10 w) (hle : 0x180 ≤ op10)
include hr hle

theorem matrixWord_enters {r : MxRec} {k : MxKind} {latch : Option (MxFmt × Tab Lane32 × Tab Bool)} {reads : List (Nat × Nat)}
    (hwait : (tableFull s.mach || !s.mach.g.canRaise .mx) = true →
      body (infoOf op10 w) s.grp.view (formOf s op10 w).run s.regs s.mach = .wait none)
    (hgo : ¬ (tableFull s.mach || !s.mach.g.canRaise .mx) = true → s.mach.g.dual = false → s.mach.g.shadow = false →
      body (infoOf op10 w) s.grp.view (formOf s op10 w).run s.regs s.mach = .done (entersAs s.mach latch r k reads) {}) :
    entersOrWaits s op10 w r k latch (laneWord op10 w body s) := by
  refine ⟨fun hfull => ?_, fun ht hn hd hs => ?_⟩
  · exact laneWord_waits hr (.inr hle) (hwait ((tableFull_iff (m := s.mach)).2 hfull))
  · refine entersAs_entered hr hle (reads := reads) (hgo (fun hf => ?_) hd hs)
    rcases (tableFull_iff (m := s.mach)).1 hf with hf | hf
    · exact absurd ht (Nat.not_lt.2 hf)
    · exact absurd hn (Nat.not_lt.2 hf)

end

section
variable {s : State} {w : Wide}

theorem mxMma_faults {code : Nat} {mask : Word} (hr : aloneReady s 0x340 w)
    (h : passFault s.mach w (formOf s 0x340 w).run (mxSel s.mach.g s.grp.view w (formOf s 0x340 w).run) = some (code, mask)) (ht : laneTraps s.grp) :
    ∃ t, exec (.mxMma w) s = .next t ∧ t.grp = s.grp.laneTrapped code mask ∧ t.dev.mem = s.dev.mem ∧ t.dev.clusters = s.dev.clusters := by
  rw [exec_mxMma, execMxMma]
  refine matrixWord_traps hr (by decide) ?_ ht
  dsimp only
  rw [h]

theorem mxMma_enters {r : MxRec} (hr : aloneReady s 0x340 w)
    (h : passFault s.mach w (formOf s 0x340 w).run (mxSel s.mach.g s.grp.view w (formOf s 0x340 w).run) = none)
    (hrec : s.mach.rec? (mxSel s.mach.g s.grp.view w (formOf s 0x340 w).run) = some r) :
    entersOrWaits s 0x340 w r (.pass (mxFmtOf w.ty) (mxSel s.mach.g s.grp.view w (formOf s 0x340 w).run / 256 % 256) (passOperand s w).1 (passOperand s w).2)
      (if w.aux2 % 2 = 1 then some (mxFmtOf w.ty, (passOperand s w).1, (passOperand s w).2) else none) (exec (.mxMma w) s) := by
  rw [exec_mxMma, execMxMma]
  refine matrixWord_enters hr (by decide) (reads := passReads r (mxSel s.mach.g s.grp.view w (formOf s 0x340 w).run / 256 % 256))
    (fun hf => ?_) fun hf hd hs => ?_
  · dsimp only
    rw [h, hrec]
    exact if_pos hf
  · dsimp only
    rw [h, hrec]
    refine (if_neg hf).trans ((dualGateLane_single hd _ _).trans ?_)
    rw [enterTable_eq (by exact hs)]
    have hlatch : s.mach.g.mxLatch = s.grp.mxLatch := rfl
    unfold passOperand
    cases hl : s.grp.mxLatch <;> rw [hl] at hlatch <;> rw [hlatch] <;> rfl

/-- A slot word whose check fails. -/
theorem slotWord_faults {op10 : Nat} (hle : 0x180 ≤ op10) {phasor : Bool} {kind : Group → View → Word → MxKind} {code : Nat} (hr : aloneReady s op10 w)
    (h : slotFault s.mach phasor (mxSel s.mach.g s.grp.view w (formOf s op10 w).run) (mxCol w) (mxN w) = some code) (ht : laneTraps s.grp) :
    ∃ t, slotWord op10 phasor w kind s = .next t ∧ t.grp = s.grp.laneTrapped code (formOf s op10 w).run ∧ t.dev.mem = s.dev.mem ∧
      t.dev.clusters = s.dev.clusters := by
  refine matrixWord_traps hr hle ?_ ht
  dsimp only
  rw [h]

theorem slotWord_enters {op10 : Nat} (hle : 0x180 ≤ op10) {phasor : Bool} {kind : Group → View → Word → MxKind} {r : MxRec} (hr : aloneReady s op10 w)
    (h : slotFault s.mach phasor (mxSel s.mach.g s.grp.view w (formOf s op10 w).run) (mxCol w) (mxN w) = none)
    (hrec : s.mach.rec? (mxSel s.mach.g s.grp.view w (formOf s op10 w).run) = some r) :
    entersOrWaits s op10 w r (kind s.grp s.grp.view (formOf s op10 w).run) s.grp.mxLatch (slotWord op10 phasor w kind s) := by
  refine matrixWord_enters hr hle (reads := []) (fun hf => ?_) fun hf hd hs => ?_
  · dsimp only
    rw [h, hrec]
    exact if_pos hf
  · dsimp only
    rw [h, hrec]
    refine (if_neg hf).trans ((dualGateLane_single hd _ _).trans ?_)
    rw [enterTable_eq hs]
    rfl

/-- What the claim says of a slot word. -/
theorem slotWord_settled {i : Instr} {op10 : Nat} (hle : 0x180 ≤ op10) {phasor : Bool} {kind : Group → View → Word → MxKind}
    (hi : exec i s = slotWord op10 phasor w kind s) (hr : aloneReady s op10 w) :
    let run := (formOf s op10 w).run
    let rec_ := s.mach.rec? (mxSel s.grp s.grp.view w run)
    let traps (cause : Nat) : Prop := laneTraps s.grp → ∃ t, exec i s = .next t ∧ t.grp = s.grp.laneTrapped cause run ∧
      t.dev.mem = s.dev.mem ∧ t.dev.clusters = s.dev.clusters
    (s.grp.width = 16 → traps 40) ∧ (s.grp.width ≠ 16 → rec_ = none → traps 41) ∧
    (∀ r, s.grp.width ≠ 16 → rec_ = some r → (¬ slotOk s.mach phasor r → traps 42) ∧ (slotOk s.mach phasor r → 32 < mxCol w + mxN w → traps 43) ∧
      (slotOk s.mach phasor r → mxCol w + mxN w ≤ 32 →
        entersOrWaits s op10 w r (kind s.grp s.grp.view run) s.grp.mxLatch (exec i s))) := by
  rw [hi]
  refine ⟨fun h ht => ?_, fun hw h ht => ?_, fun r hw h => ⟨fun hok ht => ?_, fun hok hc ht => ?_, fun hok hc => ?_⟩⟩
  · exact slotWord_faults hle hr (slotFault_width (m := s.mach) h ..) ht
  · exact slotWord_faults hle hr (slotFault_noRecord (m := s.mach) hw h ..) ht
  · exact slotWord_faults hle hr (slotFault_format (m := s.mach) hw h hok) ht
  · exact slotWord_faults hle hr (slotFault_columns (m := s.mach) hw h hok hc) ht
  · exact slotWord_enters hle hr (slotFault_none (m := s.mach) hw h hok hc) h

end

/-- What the claim says of a pass. -/
theorem mxMma_settled {s : State} {w : Wide} (hr : aloneReady s 0x340 w) :
    let run := (formOf s 0x340 w).run
    let n := mxSel s.grp s.grp.view w run
    let traps (cause : Nat) (lanes : Word) : Prop := laneTraps s.grp → ∃ t, exec (.mxMma w) s = .next t ∧ t.grp = s.grp.laneTrapped cause lanes ∧
      t.dev.mem = s.dev.mem ∧ t.dev.clusters = s.dev.clusters
    let idle := s.grp.present &&& ~~~run
    (s.grp.width = 16 → traps 40 run) ∧ (s.grp.width ≠ 16 → idle ≠ 0 → traps 32 idle) ∧
    (s.grp.width ≠ 16 → idle = 0 → s.mach.rec? n = none → traps 41 run) ∧
    (∀ r, s.grp.width ≠ 16 → idle = 0 → s.mach.rec? n = some r →
      (¬ passOk s.mach w r → traps 42 run) ∧ (passOk s.mach w r → r.pm1 < n / 256 % 256 → traps 43 run) ∧
      (passOk s.mach w r → n / 256 % 256 ≤ r.pm1 →
        entersOrWaits s 0x340 w r (.pass (mxFmtOf w.ty) (n / 256 % 256) (passOperand s w).1 (passOperand s w).2)
          (if w.aux2 % 2 = 1 then some (mxFmtOf w.ty, (passOperand s w).1, (passOperand s w).2) else none) (exec (.mxMma w) s))) := by
  refine ⟨fun hw ht => ?_, fun hw hi ht => ?_, fun hw hi h ht => ?_, fun r hw hi h => ⟨fun hok ht => ?_, fun hok hs ht => ?_, fun hok hs => ?_⟩⟩
  · exact mxMma_faults hr (passFault_width (m := s.mach) hw) ht
  · exact mxMma_faults hr (passFault_idle (m := s.mach) hw hi) ht
  · exact mxMma_faults hr (passFault_noRecord (m := s.mach) hw hi h) ht
  · exact mxMma_faults hr (passFault_format (m := s.mach) hw hi h hok) ht
  · exact mxMma_faults hr (passFault_step (m := s.mach) hw hi h hok hs) ht
  · exact mxMma_enters hr (passFault_none (m := s.mach) hw hi h hok hs) h

theorem passOperand_eq (s : State) (w : Wide) : passOperand s w = (match s.grp.mxLatch with
    | some x => x.2
    | none => readRun s.grp s.grp.view w (mxRun w.ty)) := by
  unfold passOperand
  cases s.grp.mxLatch <;> rfl

theorem matrixLaneWords : Claims.MatrixLaneWords := by
  intro s w
  have ha := passOperand_eq s w
  refine ⟨fun hr => ?_, fun hr => slotWord_settled (by decide) (exec_mxRd w s) hr,
    fun hr => slotWord_settled (by decide) (exec_mxWr w s) hr, fun hr => slotWord_settled (by decide) (exec_mxResolve w s) hr⟩
  have hset := mxMma_settled hr
  rw [ha] at hset
  exact hset

end Sys2Proof.Machine
namespace Sys2Proof

/-- Settles O27: the checks of a matrix word one by one, and the entry that it makes when all are met. -/
theorem matrixLaneWords : Obligations.MatrixLaneWords := Machine.matrixLaneWords

end Sys2Proof
end

section
/-! ## Floating-point patterns as rationals (R43, R47) -/

namespace Sys2Proof.Machine

/-! ### The shape of a type's patterns -/

/-- The floating-point types of lane words (R20). -/
def isFloat (ty : Nat) : Prop := ty = 8 ∨ ty = 9 ∨ ty = 10

/-- The exponent and fraction bits of a type. -/
abbrev expBits (ty : Nat) : Nat := (fpShape ty).1
abbrev fracBits (ty : Nat) : Nat := (fpShape ty).2

theorem fpShape_cases (ty : Nat) : fpShape ty = (5, 10) ∨ fpShape ty = (8, 7) ∨ fpShape ty = (8, 23) := by
  unfold fpShape
  split
  · exact .inl rfl
  · split
    · exact .inr (.inl rfl)
    · exact .inr (.inr rfl)

theorem shape_bounds (ty : Nat) : 5 ≤ expBits ty ∧ expBits ty ≤ 8 ∧ 7 ≤ fracBits ty ∧ fracBits ty ≤ 23 := by
  rcases fpShape_cases ty with h | h | h <;> simp [expBits, fracBits, h]

@[simp] theorem fmtOf_eb (ty : Nat) : (fmtOf ty).eb = expBits ty := by
  unfold fmtOf expBits fpShape
  split
  · rfl
  · split <;> rfl
@[simp] theorem fmtOf_fb (ty : Nat) : (fmtOf ty).fb = fracBits ty := by
  unfold fmtOf fracBits fpShape
  split
  · rfl
  · split <;> rfl

@[simp] theorem fmtOf_bias (ty : Nat) : (fmtOf ty).bias = fpBias ty := by simp [Fmt.bias, fpBias]
@[simp] theorem fmtOf_expTop (ty : Nat) : (fmtOf ty).expTop = 2 ^ expBits ty - 1 := by simp [Fmt.expTop]
@[simp] theorem fmtOf_infBits (ty : Nat) : (fmtOf ty).infBits = fpTop ty := by simp [Fmt.infBits, fpTop]
@[simp] theorem fmtOf_nanBits (ty : Nat) : (fmtOf ty).nanBits = fpQuiet ty := by simp [Fmt.nanBits, fpQuiet]
@[simp] theorem fmtOf_signBit (ty : Nat) : (fmtOf ty).signBit = fpSign ty := by simp [Fmt.signBit, fpSign]
@[simp] theorem fmtOf_maxBits (ty : Nat) : (fmtOf ty).maxBits = fpTop ty - 1 := by simp [Fmt.maxBits]
@[simp] theorem fmtOf_width (ty : Nat) : 2 ^ (fmtOf ty).width = 2 * fpSign ty := by
  rw [Fmt.width, fmtOf_eb, fmtOf_fb, fpSign, Nat.add_assoc, Nat.pow_add, Nat.pow_one]

theorem fmtOf_signed (ty : Nat) (neg : Bool) (m : Nat) : (fmtOf ty).signed neg m = (if neg then fpSign ty else 0) + m := by
  rw [Fmt.signed, fmtOf_signBit]
  cases neg <;> simp

theorem isFloat.width {ty : Nat} (h : isFloat ty) : 2 ^ tyWidth ty = 2 * fpSign ty := by
  rcases h with rfl | rfl | rfl <;> rfl
theorem isFloat.isFp {ty : Nat} (h : isFloat ty) : tyIsFp ty = true := by
  rcases h with rfl | rfl | rfl <;> rfl

theorem fpNormal_pos (ty : Nat) : 0 < fpNormal ty := Nat.two_pow_pos _

/-- The sign bit is past the magnitudes: all exponents times the fractions. -/
theorem fpSign_eq (ty : Nat) : fpSign ty = 2 ^ expBits ty * fpNormal ty := Nat.pow_add ..

theorem fpTop_add (ty : Nat) : fpTop ty + fpNormal ty = fpSign ty := by
  have h : 1 ≤ 2 ^ expBits ty := Nat.one_le_two_pow
  rw [fpSign_eq, fpTop, ← fpNormal, ← Nat.succ_mul, Nat.succ_eq_add_one, Nat.sub_add_cancel h]

theorem fpTop_lt (ty : Nat) : fpTop ty < fpSign ty := by
  have := fpTop_add ty
  have := fpNormal_pos ty
  omega

theorem fpNormal_lt_top (ty : Nat) : fpNormal ty < fpTop ty := by
  rcases fpShape_cases ty with h | h | h <;> simp [fpNormal, fpTop, h]

theorem fpBias_pos (ty : Nat) : 15 ≤ fpBias ty := by
  rcases fpShape_cases ty with h | h | h <;> simp [fpBias, h]

theorem half_normal (ty : Nat) : 2 * 2 ^ (fracBits ty - 1) = fpNormal ty := by
  have := (shape_bounds ty).2.2.1
  rw [fpNormal, ← Nat.pow_succ', Nat.succ_eq_add_one, Nat.sub_add_cancel (by omega)]

/-! ### Magnitudes as whole numbers of the least one -/

/-- A magnitude in units of the least positive one. -/
def fpUnits (ty m : Nat) : Nat := if m < fpNormal ty then m else (fpNormal ty + m % fpNormal ty) * 2 ^ (m / fpNormal ty - 1)

/-- The value of a unit is 1 over this. -/
def fpScale (ty : Nat) : Nat := 2 ^ (fpBias ty + fracBits ty - 1)

theorem fpScale_pos (ty : Nat) : 0 < fpScale ty := Nat.two_pow_pos _

theorem fpMag_eq (ty m : Nat) : fpMag ty m = (fpUnits ty m : ℚ) / fpScale ty := by
  unfold fpMag fpUnits fpScale
  split
  · push_cast
    rfl
  · next h =>
    have he : 1 ≤ m / fpNormal ty := (Nat.one_le_div_iff (fpNormal_pos ty)).2 (Nat.not_lt.1 h)
    have hb := fpBias_pos ty
    obtain ⟨e, he⟩ : ∃ e, m / fpNormal ty = e + 1 := ⟨m / fpNormal ty - 1, by omega⟩
    obtain ⟨b, hb⟩ : ∃ b, fpBias ty + fracBits ty = b + 1 := ⟨fpBias ty + fracBits ty - 1, by omega⟩
    show _ * 2 ^ (m / fpNormal ty) / 2 ^ (fpBias ty + fracBits ty) = _
    rw [he, hb, Nat.add_sub_cancel, Nat.add_sub_cancel, pow_succ, pow_succ]
    push_cast
    field_simp

/-- From one magnitude to the next. -/
theorem fpUnits_succ (ty m : Nat) : fpUnits ty (m + 1) = fpUnits ty m + 2 ^ (m / fpNormal ty - 1) := by
  have hN := fpNormal_pos ty
  unfold fpUnits
  generalize fpNormal ty = N at hN
  by_cases h : m + 1 < N
  · rw [if_pos h, if_pos (by omega), Nat.div_eq_of_lt (by omega)]
    simp
  · rw [if_neg h]
    by_cases hm : m < N
    · obtain rfl : N = m + 1 := by omega
      rw [if_pos hm, Nat.mod_self, Nat.div_self hN, Nat.div_eq_of_lt hm]
      simp
    · rw [if_neg hm]
      obtain ⟨e, he⟩ : ∃ e, m / N = e + 1 := ⟨m / N - 1, by have := (Nat.one_le_div_iff hN).2 (Nat.not_lt.1 hm); omega⟩
      have hr := Nat.mod_lt m hN
      have hdiv := Nat.div_add_mod m N
      rw [he] at hdiv ⊢
      by_cases hlast : m % N + 1 < N
      · have hq : (m + 1) / N = e + 1 := (Nat.div_eq_iff hN).2 (by rw [Nat.mul_comm] at hdiv; omega)
        have hmod : (m + 1) % N = m % N + 1 := by rw [Nat.mod_def, hq]; omega
        rw [hq, hmod, Nat.add_sub_cancel]
        ring
      · have hsucc : m + 1 = N * (e + 2) := by
          rw [show N * (e + 2) = N * (e + 1) + N by ring]
          omega
        rw [hsucc, Nat.mul_mod_right, Nat.mul_div_cancel_left _ hN, show e + 2 - 1 = e + 1 from rfl, Nat.add_sub_cancel, pow_succ,
          show m % N = N - 1 by omega]
        obtain ⟨n, rfl⟩ : ∃ n, N = n + 1 := ⟨N - 1, by omega⟩
        rw [Nat.add_sub_cancel]
        ring

theorem fpUnits_strictMono (ty : Nat) : StrictMono (fpUnits ty) :=
  strictMono_nat_of_lt_succ fun m => by
    rw [fpUnits_succ]
    exact Nat.lt_add_of_pos_right (Nat.two_pow_pos _)

theorem fpMag_strictMono (ty : Nat) : StrictMono (fpMag ty) := fun a b h => by
  rw [fpMag_eq, fpMag_eq]
  have hs : (0 : ℚ) < fpScale ty := by exact_mod_cast fpScale_pos ty
  exact div_lt_div_of_pos_right (by exact_mod_cast fpUnits_strictMono ty h) hs

@[simp] theorem fpMag_zero (ty : Nat) : fpMag ty 0 = 0 := by
  rw [fpMag_eq, fpUnits, if_pos (fpNormal_pos ty)]
  simp

theorem fpMag_nonneg (ty m : Nat) : 0 ≤ fpMag ty m := by
  rw [← fpMag_zero ty]
  exact (fpMag_strictMono ty).monotone (Nat.zero_le m)

theorem fpMag_eq_zero {ty m : Nat} : fpMag ty m = 0 ↔ m = 0 := by
  rw [← fpMag_zero ty]
  exact (fpMag_strictMono ty).injective.eq_iff

/-! ### Reading a pattern (R43, R44, R47) -/

theorem pow2_pos (e : Int) : 0 < (pow2 e).1 ∧ 0 < (pow2 e).2 := by
  unfold pow2
  split <;> exact ⟨by positivity, by positivity⟩

theorem pow2_val (e : Int) : ((pow2 e).1 : ℚ) / (pow2 e).2 = 2 ^ e := by
  unfold pow2
  split
  · next h =>
    obtain ⟨k, rfl⟩ := Int.eq_ofNat_of_zero_le h
    simp
  · next h =>
    obtain ⟨k, rfl⟩ : ∃ k : Nat, e = -k := ⟨(-e).toNat, by omega⟩
    simp [zpow_neg]

/-- A number stands for a pattern: the classes of R43, the sign, and the exact value. -/
def Reads (ty p : Nat) : Num → Prop
  | .nan sig => fpNan ty p ∧ (sig = true ↔ fpSignal ty p)
  | .inf neg => fpInf ty p ∧ neg = fpNeg ty p
  | .fin neg n d => fpFinite ty p ∧ neg = fpNeg ty p ∧ 0 < d ∧ (n : ℚ) / d = fpMag ty (p % fpSign ty)

/-- The fields of a pattern and its magnitude. -/
theorem pattern_fields (ty x : Nat) : x / 2 ^ fracBits ty % 2 ^ expBits ty = x % fpSign ty / fpNormal ty ∧
    x % 2 ^ fracBits ty = x % fpSign ty % fpNormal ty := by
  rw [fpSign_eq, Nat.mul_comm, Nat.mod_mul_right_div_self, Nat.mod_mul_right_mod]
  exact ⟨rfl, rfl⟩

section
variable {ty x : Nat} (hx : x < 2 * fpSign ty)

theorem fpIn_of_normal {fz : Bool} (h : fpNormal ty ≤ x % fpSign ty) : fpIn ty fz x = x := if_neg fun hc => Nat.not_lt.2 h hc.2

include hx

theorem fpIn_magnitude (fz : Bool) : fpIn ty fz x % fpSign ty = (if fz = true ∧ x % fpSign ty < fpNormal ty then 0 else x % fpSign ty) ∧
    fpNeg ty (fpIn ty fz x) = fpNeg ty x ∧ fpIn ty fz x < 2 * fpSign ty := by
  unfold fpIn
  split
  · refine ⟨?_, ?_, by omega⟩
    · rw [← Nat.div_add_mod x (fpSign ty)]
      simp
    · have h := Nat.div_add_mod x (fpSign ty)
      have hlt := Nat.mod_lt x (show 0 < fpSign ty by omega)
      unfold fpNeg
      by_cases hs : fpSign ty ≤ x
      · have : x / fpSign ty = 1 := by rw [Nat.div_eq_iff (by omega)]; omega
        rw [this] at h
        simp only [decide_eq_decide]
        omega
      · simp only [decide_eq_decide]
        omega
  · exact ⟨rfl, rfl, hx⟩

/-- A pattern reads as the number that it stands for. -/
theorem reads (fz : Bool) : Reads ty (fpIn ty fz x) ((fmtOf ty).read fz x) := by
  have hN := fpNormal_pos ty
  have htop := fpTop_add ty
  have hnormal := fpNormal_lt_top ty
  have hM := Nat.mod_lt x (show 0 < fpSign ty by omega)
  obtain ⟨hmag, hneg, hlt⟩ := fpIn_magnitude hx fz
  obtain ⟨he, hm⟩ := pattern_fields ty x
  have hdiv := Nat.div_add_mod (x % fpSign ty) (fpNormal ty)
  have hsign : decide (fpSign ty ≤ x % (2 * fpSign ty)) = fpNeg ty x := by rw [Nat.mod_eq_of_lt hx]; rfl
  have hfields : (2 ^ expBits ty - 1) * fpNormal ty = fpTop ty := rfl
  unfold Fmt.read
  simp only [fmtOf_fb, fmtOf_eb, fmtOf_expTop, fmtOf_signBit, fmtOf_width, fmtOf_bias, hsign, he, hm]
  by_cases htopE : x % fpSign ty / fpNormal ty = 2 ^ expBits ty - 1
  · rw [if_pos htopE]
    rw [htopE, Nat.mul_comm, hfields] at hdiv
    have hin : fpIn ty fz x = x := fpIn_of_normal (by omega)
    split
    · next h0 => exact ⟨by rw [fpInf, hin]; omega, by rw [hin]⟩
    · next h0 =>
      have hnan : fpNan ty (fpIn ty fz x) := by rw [fpNan, hin]; omega
      refine ⟨hnan, ?_⟩
      rw [fpSignal, and_iff_right (show fpTop ty < _ from hnan), hin, decide_eq_true_iff, ← hm]
      rfl
  · rw [if_neg htopE]
    have hfinite : x % fpSign ty < fpTop ty := by
      rw [← hfields, ← Nat.div_lt_iff_lt_mul hN]
      have hE : x % fpSign ty / fpNormal ty < 2 ^ expBits ty := by
        rw [Nat.div_lt_iff_lt_mul hN, ← fpSign_eq]
        exact hM
      omega
    split
    · next h0 =>
      have hsub : x % fpSign ty < fpNormal ty := Nat.lt_of_div_eq_zero hN h0
      rw [Nat.mod_eq_of_lt hsub]
      split
      · next hz =>
        have hzero : fpIn ty fz x % fpSign ty = 0 := by
          rw [hmag]
          split
          · rfl
          · next hc => simp at hz; grind
        refine ⟨by rw [fpFinite, hzero]; omega, hneg.symm, Nat.one_pos, ?_⟩
        rw [hzero, fpMag_zero]
        simp
      · next hz =>
        have hfz : ¬ (fz = true ∧ x % fpSign ty < fpNormal ty) := by simp at hz; simp [hz]
        rw [if_neg hfz] at hmag
        refine ⟨by rw [fpFinite, hmag]; omega, hneg.symm, Nat.two_pow_pos _, ?_⟩
        rw [hmag, fpMag, if_pos hsub]
        push_cast
        rfl
    · next h0 =>
      have hge : fpNormal ty ≤ x % fpSign ty := by
        by_contra hc
        exact h0 (Nat.div_eq_of_lt (by omega))
      rw [if_neg (fun hc => Nat.not_lt.2 hge hc.2)] at hmag
      refine ⟨by rw [fpFinite, hmag]; omega, hneg.symm, (pow2_pos _).2, ?_⟩
      rw [hmag, fpMag, if_neg (Nat.not_lt.2 hge), Nat.cast_mul, mul_div_assoc, pow2_val, mul_div_assoc, zpow_sub₀ (by norm_num),
        zpow_natCast, zpow_natCast]
      rfl

end

/-! ### Numbers that stand for patterns: NaNs, signs, values -/

theorem Reads.isNan_iff {ty p : Nat} {a : Num} (h : Reads ty p a) : a.isNan = true ↔ fpNan ty p := by
  cases a with
  | nan sig => exact iff_of_true rfl h.1
  | inf neg => exact iff_of_false (by simp [Num.isNan]) (by have h := h.1; unfold fpInf at h; unfold fpNan; omega)
  | fin neg n d => exact iff_of_false (by simp [Num.isNan]) (by have h := h.1; unfold fpFinite at h; unfold fpNan; omega)

theorem Reads.signal {ty p : Nat} {a : Num} (h : Reads ty p a) : fpInv ty [p] a.sigEv := by
  have hnot (hn : ¬ fpNan ty p) (he : a.sigEv = 0) : fpInv ty [p] a.sigEv := .inr ⟨he, fun x hx hs => by
    rw [List.mem_singleton] at hx
    subst hx
    exact hn hs.1⟩
  cases a with
  | nan sig =>
    cases sig with
    | true => exact .inl ⟨rfl, p, List.mem_singleton_self p, h.2.1 rfl⟩
    | false => exact .inr ⟨rfl, fun x hx hs => by
        rw [List.mem_singleton] at hx
        subst hx
        exact Bool.false_ne_true (h.2.2 hs)⟩
  | inf neg => exact hnot (fun hn => Bool.false_ne_true (h.isNan_iff.2 hn)) rfl
  | fin neg n d => exact hnot (fun hn => Bool.false_ne_true (h.isNan_iff.2 hn)) rfl

/-- INV is counted where one of the operands is signalling. -/
theorem fpInv_append {ty : Nat} {l l' : List Nat} {e e' : Ev} (h : fpInv ty l e) (h' : fpInv ty l' e') : fpInv ty (l ++ l') (e ||| e') := by
  rcases h with ⟨rfl, x, hx, hs⟩ | ⟨rfl, hno⟩
  · refine .inl ⟨?_, x, List.mem_append_left l' hx, hs⟩
    rcases h' with ⟨rfl, -⟩ | ⟨rfl, -⟩ <;> decide
  · rcases h' with ⟨rfl, x, hx, hs⟩ | ⟨rfl, hno'⟩
    · exact .inl ⟨by decide, x, List.mem_append_right l hx, hs⟩
    · exact .inr ⟨by decide, fun x hx => (List.mem_append.1 hx).elim (hno x) (hno' x)⟩

/-- The value of a sign and a magnitude. -/
def signedVal (neg : Bool) (v : ℚ) : ℚ := (if neg then -1 else 1) * v

theorem fpVal_eq (ty p : Nat) : fpVal ty p = signedVal (fpNeg ty p) (fpMag ty (p % fpSign ty)) := rfl

theorem Reads.fin_val {ty p n d : Nat} {neg : Bool} (h : Reads ty p (.fin neg n d)) : fpVal ty p = signedVal neg ((n : ℚ) / d) := by
  obtain ⟨-, rfl, -, hv⟩ := h
  rw [fpVal_eq, hv]

theorem Reads.inf_val {ty p : Nat} {neg : Bool} (h : Reads ty p (.inf neg)) : fpVal ty p = signedVal neg (fpMag ty (fpTop ty)) := by
  obtain ⟨hinf, rfl⟩ := h
  rw [fpVal_eq, show p % fpSign ty = fpTop ty from hinf]

theorem Reads.fin_lt_top {ty p n d : Nat} {neg : Bool} (h : Reads ty p (.fin neg n d)) : |fpVal ty p| < fpMag ty (fpTop ty) := by
  obtain ⟨hfin, -, -, -⟩ := h
  have hlt : fpMag ty (p % fpSign ty) < fpMag ty (fpTop ty) := fpMag_strictMono ty hfin
  have h0 := fpMag_nonneg ty (p % fpSign ty)
  rw [fpVal_eq, signedVal]
  split
  · rw [neg_one_mul, abs_neg, abs_of_nonneg h0]
    exact hlt
  · rw [one_mul, abs_of_nonneg h0]
    exact hlt

theorem SFrac.of_val (neg : Bool) (n d : Nat) : ((SFrac.of neg n d).num : ℚ) / (SFrac.of neg n d).den = signedVal neg ((n : ℚ) / d) := by
  unfold SFrac.of signedVal
  cases neg
  · simp
  · simp [neg_div]

theorem SFrac.eq_iff {a b : SFrac} (ha : 0 < a.den) (hb : 0 < b.den) : a.eq b = true ↔ (a.num : ℚ) / a.den = (b.num : ℚ) / b.den := by
  rw [SFrac.eq, decide_eq_true_iff, div_eq_div_iff (by positivity) (by positivity)]
  norm_cast

theorem SFrac.lt_iff {a b : SFrac} (ha : 0 < a.den) (hb : 0 < b.den) : a.lt b = true ↔ (a.num : ℚ) / a.den < (b.num : ℚ) / b.den := by
  rw [SFrac.lt, decide_eq_true_iff, div_lt_div_iff₀ (by positivity) (by positivity)]
  norm_cast

theorem fpTop_mag_pos (ty : Nat) : 0 < fpMag ty (fpTop ty) := by
  rw [← fpMag_zero ty]
  exact fpMag_strictMono ty (by have := fpNormal_lt_top ty; omega)

/-! ### Order and equality by value (R131) -/

section
variable {ty p q : Nat} {a b : Num} (ha : Reads ty p a) (hb : Reads ty q b) (hna : ¬ fpNan ty p) (hnb : ¬ fpNan ty q)
include ha hb hna hnb

theorem Reads.eqv_iff : a.eqv b = true ↔ fpVal ty p = fpVal ty q := by
  have hT := fpTop_mag_pos ty
  cases a with
  | nan s => exact absurd ha.1 hna
  | inf x =>
    cases b with
    | nan s => exact absurd hb.1 hnb
    | inf y =>
      rw [ha.inf_val, hb.inf_val]
      cases x <;> cases y <;> simp [Num.eqv, signedVal] <;> linarith
    | fin y n' d' =>
      have hlt := hb.fin_lt_top
      rw [abs_lt] at hlt
      refine iff_of_false (by simp [Num.eqv]) ?_
      rw [ha.inf_val]
      cases x <;> simp [signedVal] <;> intro h <;> linarith
  | fin x n d =>
    cases b with
    | nan s => exact absurd hb.1 hnb
    | inf y =>
      have hlt := ha.fin_lt_top
      rw [abs_lt] at hlt
      refine iff_of_false (by simp [Num.eqv]) ?_
      rw [hb.inf_val]
      cases y <;> simp [signedVal] <;> intro h <;> linarith
    | fin y n' d' =>
      rw [ha.fin_val, hb.fin_val, ← SFrac.of_val, ← SFrac.of_val]
      exact SFrac.eq_iff ha.2.2.1 hb.2.2.1

theorem Reads.ltv_iff : a.ltv b = true ↔ fpVal ty p < fpVal ty q := by
  have hT := fpTop_mag_pos ty
  have heq := ha.eqv_iff hb hna hnb
  rw [Num.ltv, Bool.and_eq_true, Bool.not_eq_true', ← Bool.not_eq_true, heq]
  cases a with
  | nan s => exact absurd ha.1 hna
  | inf x =>
    cases b with
    | nan s => exact absurd hb.1 hnb
    | inf y =>
      rw [ha.inf_val, hb.inf_val]
      have hopp : ¬ -fpMag ty (fpTop ty) = fpMag ty (fpTop ty) := by linarith
      cases x <;> cases y <;> simp [Num.below, signedVal, hopp]
      · linarith
      · linarith
    | fin y n' d' =>
      have hlt := hb.fin_lt_top
      rw [abs_lt] at hlt
      rw [ha.inf_val]
      cases x <;> simp [Num.below, signedVal]
      · linarith
      · linarith
  | fin x n d =>
    cases b with
    | nan s => exact absurd hb.1 hnb
    | inf y =>
      have hlt := ha.fin_lt_top
      rw [abs_lt] at hlt
      rw [hb.inf_val]
      cases y <;> simp [Num.below, signedVal]
      · linarith
      · linarith
    | fin y n' d' =>
      rw [ha.fin_val, hb.fin_val]
      by_cases hz : n = 0 ∧ n' = 0
      · obtain ⟨rfl, rfl⟩ := hz
        simp [signedVal]
      · have hz' : (decide (n = 0) && decide (n' = 0)) = false := by simpa using hz
        rw [Num.below, if_neg (by rw [hz']; decide), SFrac.lt_iff ha.2.2.1 hb.2.2.1, SFrac.of_val, SFrac.of_val, and_iff_left_of_imp ne_of_lt]

end

/-- A floating-point source of a lane reads as the number that its pattern stands for. -/
theorem reads_numOf {ty : Nat} (h : isFloat ty) (fz : Bool) (scale : Nat) (x : Word) :
    Reads ty (fpIn ty fz (x.toNat % (2 * fpSign ty))) (numOf ty fz scale x) := by
  have hlt : x.toNat % (2 * fpSign ty) < 2 * fpSign ty := Nat.mod_lt _ (by have := fpTop_lt ty; omega)
  have hnum : numOf ty fz scale x = (fmtOf ty).read fz (x.toNat % (2 * fpSign ty)) := by
    rw [← h.width]
    rcases h with rfl | rfl | rfl <;> rfl
  rw [hnum]
  exact reads hlt fz

end Sys2Proof.Machine
end

section
/-! ## Compare and mask words, ballots and votes (R131-R133, R183) -/

namespace Sys2Proof.Machine

/-! ### A lane write of a mask or a scalar register (R71) -/

/-- The same blocks, whose operands may have been kept up with a lane write. -/
def sameBlocks (l l' : List Block) : Prop := ∃ f : View → View, l' = l.map fun b => { b with view := f b.view }

/-- A lane word moves on as it does without the kept-up operands. -/
theorem laneNext_sameBlocks {g g1 g' : Group} (hq : sameBlocks g.queue g1.queue) (hl : g1.lpos = g.lpos) (hh : g1.heldWords = g.heldWords)
    (h : laneNext g1 g') : laneNext g g' := by
  obtain ⟨f, hq⟩ := hq
  have hlast : lastOfBlock g1 = lastOfBlock g := by
    unfold lastOfBlock
    rw [hq, hl]
    cases g.queue <;> rfl
  obtain ⟨hlen, hin, hover, hheld⟩ := h
  rw [hlast] at hlen hin hover hheld
  refine ⟨by rw [hlen, hq, List.length_map], fun hb => by rw [hin hb, hl], fun b c bs hb hlb => ?_, ?_⟩
  · exact hover { b with view := f b.view } { c with view := f c.view } (bs.map fun b => { b with view := f b.view }) (by rw [hq, hb]; rfl) hlb
  · rw [hheld, hh, hq]
    cases g.queue <;> rfl

theorem framesKept_mapViews (o : Option Frame) (f : View → View) :
    framesKept o (o.map fun x => { x with blocks := x.blocks.map fun b => { b with view := f b.view } }) := by
  unfold framesKept
  cases o with
  | none => rfl
  | some x => simp [Function.comp_def]

/-- A group that a lane write to a mask or a scalar register leaves: nothing but these, the storage marks, and the views. -/
structure LaneWrites (g g' : Group) : Prop where
  rest : { g' with
    s := g.s, m := g.m, badScalar := g.badScalar, queue := g.queue, trapFrame := g.trapFrame, emuFrame := g.emuFrame } = g
  blocks : sameBlocks g.queue g'.queue
  trap : framesKept g.trapFrame g'.trapFrame
  emu : framesKept g.emuFrame g'.emuFrame

theorem LaneWrites.refl (g : Group) : LaneWrites g g := ⟨rfl, ⟨id, (List.map_id _).symm⟩, rfl, rfl⟩

theorem mapViews_writes {g g1 : Group} (h : { g1 with s := g.s, m := g.m, badScalar := g.badScalar } = g) (f : View → View) :
    LaneWrites g (g1.mapViews f) := by
  have hq : g1.queue = g.queue := by rw [← h]
  have ht : g1.trapFrame = g.trapFrame := by rw [← h]
  have he : g1.emuFrame = g.emuFrame := by rw [← h]
  refine ⟨?_, ⟨f, congrArg _ hq⟩, ht ▸ framesKept_mapViews g1.trapFrame f, he ▸ framesKept_mapViews g1.emuFrame f⟩
  rw [← hq, ← ht, ← he]
  exact h

theorem laneSetM_writes (g : Group) (k : Nat) (run x : Word) : LaneWrites g (g.laneSetM k run x) := by
  unfold Group.laneSetM
  exact mapViews_writes (by rfl) _

theorem laneSetS_writes (g : Group) (k : Nat) (x : Word) : LaneWrites g (g.laneSetS k x) := by
  unfold Group.laneSetS
  split
  · exact LaneWrites.refl g
  · next hk =>
    refine mapViews_writes ?_ _
    rw [Group.setS, if_neg hk]

/-- What such a word leaves of the group, once it has completed. -/
structure LaneWrote (f : LaneForm) (g g1 t : Group) : Prop where
  next : laneNext g t
  kept : keptByControl g t
  s : t.s = g1.s
  m : t.m = g1.m
  nest : t.nest = g.nest
  lanes : t.lanes = f.frees.foldl LaneFile.unmap g.lanes

theorem completes_wrote {g g1 : Group} (h : LaneWrites g g1) (f : LaneForm) (d : Dev) {e : LaneEff} (hfile : e.file = id)
    (hdz : e.dz = 0) (hdov : e.dov = 0) : LaneWrote f g g1 (f.completes ⟨g1, d⟩ e).g := by
  have hl : g1.lanes = g.lanes := by rw [← h.rest]
  have hp : g1.lpos = g.lpos := by rw [← h.rest]
  have hh : g1.heldWords = g.heldWords := by rw [← h.rest]
  have hn : g1.nest = g.nest := by rw [← h.rest]
  have hnext := f.completes_next ⟨g1, d⟩ e
  obtain ⟨q, p, hw, hg⟩ := f.completes_grp ⟨g1, d⟩ e
  generalize (f.completes ⟨g1, d⟩ e).g = t at hnext hg
  have hor (x : Word) : x ||| 0 = x := BitVec.or_zero
  rw [hfile, hdz, hdov, hor, hor] at hg
  refine ⟨laneNext_sameBlocks h.blocks hp hh hnext, ⟨?_, ?_, ?_⟩, ?_, ?_, ?_, ?_⟩
  · rw [hg]
    exact Eq.trans (congrArg (fun x : Group => { x with
      lanes := g.lanes, queue := g.queue, lpos := g.lpos, nest := g.nest, nestHigh := g.nestHigh, s := g.s, m := g.m
      badScalar := g.badScalar, heldWords := g.heldWords, trapFrame := g.trapFrame, emuFrame := g.emuFrame }) h.rest) rfl
  · rw [hg]
    exact h.trap
  · rw [hg]
    exact h.emu
  · rw [hg]
  · rw [hg]
  · rw [hg]
    exact hn
  · rw [hg, ← hl]
    rfl

theorem LaneWrote.after {f : LaneForm} {g g1 t : Group} (h : LaneWrote f g g1 t) (run : Word) :
    lanesAfter g.lanes t.lanes run [] f.frees (fun _ _ => ⟨0, false⟩) := by
  intro k l hl
  rw [h.lanes, get_foldl_unmap _ _ _ hl]
  simp

/-! ### What a lane write of a mask puts there -/

theorem m_laneSetM (g : Group) (k : Nat) (run x : Word) : (g.laneSetM k run x).m =
    g.m.set k ((g.m.getD k 0 &&& ~~~run ||| x &&& run) &&& maskBelow g.width) 0 := rfl

/-- The running lanes' bits are the new ones, within the group's width; no other mask changes. -/
theorem laneSetM_bits (g : Group) (k : Nat) (run x : Word) {l : Nat} (hl : l < g.width) (hw : g.width ≤ 64) :
    bit ((g.laneSetM k run x).m.getD k 0) l = if bit run l then bit x l else bit (g.m.getD k 0) l := by
  have h64 : l < 64 := by omega
  rw [m_laneSetM, Tab.getD_set_self, bit, BitVec.getLsbD_and, BitVec.getLsbD_or, BitVec.getLsbD_and, BitVec.getLsbD_and, BitVec.getLsbD_not]
  show ((_ && (decide (l < 64) && !bit run l) || _ && bit run l) && bit (maskBelow g.width) l) = _
  rw [bit_maskBelow hl, decide_eq_true h64]
  cases hr : bit run l <;> simp [bit]

theorem laneSetM_other (g : Group) {k j : Nat} (hj : j ≠ k) (run x : Word) : (g.laneSetM k run x).m.getD j 0 = g.m.getD j 0 := by
  rw [m_laneSetM]
  exact Tab.getD_set_ne _ _ _ _ hj.symm

theorem bit_setBit_any (x : Word) (i : Nat) (b : Bool) {k : Nat} (hk : k < 64) : bit (setBit x i b) k = if k = i then b else bit x k := by
  cases b with
  | true =>
    rw [bit_setBit x i hk]
    by_cases h : k = i
    · simp [h]
    · simp [h, Ne.symm h]
  | false =>
    rw [setBit, if_neg (by decide), bit, BitVec.getLsbD_and, BitVec.getLsbD_not, BitVec.getLsbD_ofNat, Nat.testBit_two_pow, decide_eq_true hk]
    by_cases h : k = i
    · simp [h]
    · simp [h, Ne.symm h, bit]

/-- Bits set one by one, from what each lane gives. -/
theorem bit_foldl_put (L : List Nat) (v : Nat → Bool) (m : Word) {k : Nat} (hk : k < 64) :
    bit (L.foldl (fun x l => setBit x l (v l)) m) k = if k ∈ L then v k else bit m k := by
  induction L generalizing m with
  | nil => rfl
  | cons l L ih =>
    rw [List.foldl_cons, ih, bit_setBit_any _ _ _ hk]
    by_cases hkl : k = l
    · subst hkl
      simp
    · simp [hkl]

theorem bit_lanePut (run : Word) (v : Nat → Bool) (m : Word) {k : Nat} (hk : k < 64) :
    bit ((lanesOf run).foldl (fun x l => setBit x l (v l)) m) k = if bit run k then v k else bit m k := by
  rw [bit_foldl_put _ _ _ hk]
  simp only [mem_lanesOf]

/-! ### Consumption of poison in a group's context (R182) -/

theorem countEvents_psn (d : Dev) (k : Nat) (l : List (Nat × Nat)) :
    ((countEvents d k l).1.ctx k).psn = (d.ctx k).psn ∧ ((countEvents d k l).1.ctx k).psrc = (d.ctx k).psrc := by
  induction l generalizing d with
  | nil => exact ⟨rfl, rfl⟩
  | cons e l ih =>
    rw [countEvents_cons]
    refine ⟨(ih _).1.trans ?_, (ih _).2.trans ?_⟩
    all_goals
      by_cases hn : e.2 = 0
      · rw [countClass, if_pos hn]
      · obtain ⟨f, hf⟩ := countClass_ctx d k e.1 hn
        rw [hf]

theorem warn_psn (d : Dev) (k : Nat) (codes : List Nat) : ((warn d k codes).ctx k).psn = (d.ctx k).psn ∧
    ((warn d k codes).ctx k).psrc = (d.ctx k).psrc := by
  unfold warn
  split
  · exact ⟨rfl, rfl⟩
  · simp only [Dev.ctx_setCtx, and_self]

theorem completes_psn (f : LaneForm) (m : Mach) (e : LaneEff) : ((f.completes m e).d.ctx m.g.ctx).psn = (m.d.ctx m.g.ctx).psn ∧
    ((f.completes m e).d.ctx m.g.ctx).psrc = (m.d.ctx m.g.ctx).psrc :=
  ⟨(countEvents_psn _ _ _).1.trans (warn_psn _ _ _).1, (countEvents_psn _ _ _).2.trans (warn_psn _ _ _).2⟩

/-- What a word that completes has counted, where its work has counted nothing. -/
theorem counted_completes {s : State} {m : Mach} {f : LaneForm} {e : LaneEff} {n : Nat → Nat} (hctx : m.g.ctx = s.grp.ctx)
    (hnev : (m.d.ctx s.grp.ctx).nev = (s.dev.ctx s.grp.ctx).nev) (hflag : (m.d.ctx s.grp.ctx).nevflag = (s.dev.ctx s.grp.ctx).nevflag)
    (hn : ∀ c, c < 7 → classSum e.counts c = n c) : counted s (s.put (f.completes m e)) n := by
  intro c hc
  have h := f.completes_counts m e
  rw [hctx] at h
  rw [← hn c hc, State.put_dev, h.count c, h.flag c hc, warn_nev, warn_nevflag, hnev, hflag]
  exact ⟨rfl, rfl⟩

/-! ### Compare words (R131, R122) -/

/-- A poisoned source of a lane (R110). -/
def lanePoisoned (op10 : Nat) (w : Wide) (g : Group) (l : Nat) : Bool :=
  (laneSources op10 w g g.view l).1.2 || (laneSources op10 w g g.view l).2.1.2

/-- The condition of a lane, with its events. -/
def laneCond (op10 : Nat) (w : Wide) (g : Group) (f : Word → Word → Bool × Ev) (l : Nat) : Bool × Ev :=
  if lanePoisoned op10 w g l then (false, evNone) else f (laneSources op10 w g g.view l).1.1 (laneSources op10 w g g.view l).2.1.1

/-- The new bit of a lane: the condition, or its AND or OR with the old one. -/
def condBit (mode : Nat) (old c : Bool) : Bool := if mode = 1 then old && c else if mode = 2 then old || c else c

/-- The lanes' new bits in a mask. -/
def condMask (mode : Nat) (old : Word) (run : Word) (c : Nat → Bool) : Word :=
  (lanesOf run).foldl (fun x l => setBit x l (condBit mode (bit old l) (c l))) old

/-- The effect of a compare word beside its mask. -/
def condEff (run : Word) (c : Nat → Bool × Ev) : LaneEff :=
  { counts := laneCounts (evLanes ((lanesOf run).map fun l => (l, (c l).2))), lanes := evLanes ((lanesOf run).map fun l => (l, (c l).2)) }

/-- The device, where a lane has consumed poison. -/
def condDev (d : Dev) (ctx : Nat) (run : Word) (bad : Nat → Bool) : Dev := if (lanesOf run).any bad then consume d ctx 6 else d

theorem condDev_ctx (d : Dev) (ctx : Nat) (run : Word) (bad : Nat → Bool) : ((condDev d ctx run bad).ctx ctx).nev = (d.ctx ctx).nev ∧
    ((condDev d ctx run bad).ctx ctx).nevflag = (d.ctx ctx).nevflag := by
  unfold condDev consume
  split
  · rw [Dev.ctx_setCtx]
    exact ⟨rfl, rfl⟩
  · exact ⟨rfl, rfl⟩

theorem condDev_kept (d : Dev) (ctx : Nat) (run : Word) (bad : Nat → Bool) : (condDev d ctx run bad).mem = d.mem ∧
    (condDev d ctx run bad).pkg = d.pkg := by
  unfold condDev consume
  split <;> exact ⟨rfl, rfl⟩

/-- What the claim says of poison: one consumption where a running lane is poisoned, and none otherwise. -/
def poisonTaken (d d' : Dev) (ctx : Nat) (run : Word) (bad : Nat → Bool) : Prop :=
  ((∃ l, l < 64 ∧ bit run l = true ∧ bad l = true) → (d'.ctx ctx).psn = true ∧ ((d.ctx ctx).psn = false → (d'.ctx ctx).psrc = 6)) ∧
  ((∀ l, l < 64 → bit run l = true → bad l = false) → (d'.ctx ctx).psn = (d.ctx ctx).psn)

theorem poisonTaken.completes {d : Dev} {m : Mach} {run : Word} {bad : Nat → Bool} (h : poisonTaken d m.d m.g.ctx run bad) (f : LaneForm)
    (e : LaneEff) : poisonTaken d (f.completes m e).d m.g.ctx run bad := by
  obtain ⟨hpsn, hpsrc⟩ := completes_psn f m e
  unfold poisonTaken
  rw [hpsn, hpsrc]
  exact h

theorem condDev_psn (d : Dev) (ctx : Nat) (run : Word) (bad : Nat → Bool) : poisonTaken d (condDev d ctx run bad) ctx run bad := by
  constructor
  · rintro ⟨l, -, hl, hb⟩
    rw [condDev, if_pos (List.any_eq_true.2 ⟨l, mem_lanesOf.2 hl, hb⟩), consume, Dev.ctx_setCtx]
    exact ⟨rfl, fun h => if_neg (by rw [h]; decide)⟩
  · intro h
    have hno : ¬ (lanesOf run).any bad = true := by
      rw [List.any_eq_true]
      rintro ⟨l, hl, hb⟩
      rw [h l (BitVec.lt_of_getLsbD (mem_lanesOf.1 hl)) (mem_lanesOf.1 hl)] at hb
      cases hb
    rw [condDev, if_neg hno]

/-- What the claim says of a word that writes a mask. -/
def maskWritten (s : State) (f : LaneForm) (k : Nat) (new : Nat → Bool) (t : State) : Prop :=
  laneNext s.grp t.grp ∧ keptByControl s.grp t.grp ∧ t.grp.s = s.grp.s ∧ t.grp.nest = s.grp.nest ∧ t.dev.mem = s.dev.mem ∧
  (∀ l, l < s.grp.width → bit (t.grp.m.getD k 0) l = if bit f.run l then new l else bit (s.grp.m.getD k 0) l) ∧
  (∀ j, j ≠ k → t.grp.m.getD j 0 = s.grp.m.getD j 0) ∧
  lanesAfter s.grp.lanes t.grp.lanes f.run [] f.frees (fun _ _ => ⟨0, false⟩)

theorem completes_maskWritten {s : State} {f : LaneForm} {k : Nat} {x : Word} {d : Dev} {e : LaneEff} {new : Nat → Bool}
    (hw : s.grp.width ≤ 64) (hfile : e.file = id) (hdz : e.dz = 0) (hdov : e.dov = 0) (hmem : d.mem = s.dev.mem)
    (hx : ∀ l, l < 64 → bit f.run l = true → bit x l = new l) :
    maskWritten s f k new (s.put (f.completes ⟨s.grp.laneSetM k f.run x, d⟩ e)) := by
  have h := completes_wrote (laneSetM_writes s.grp k f.run x) f d hfile hdz hdov
  obtain ⟨y, ev, hd⟩ := f.completes_dev ⟨s.grp.laneSetM k f.run x, d⟩ e
  refine ⟨h.next, h.kept, h.s, h.nest, ?_, fun l hl => ?_, fun j hj => ?_, h.after f.run⟩
  · rw [State.put_dev, hd]
    exact hmem
  · rw [State.put_grp, h.m, laneSetM_bits _ _ _ _ hl hw]
    cases hr : bit f.run l with
    | true => exact hx l (by omega) hr
    | false => rfl
  · rw [State.put_grp, h.m, laneSetM_other _ hj]

section
variable {op10 : Nat} {w : Wide} {s : State} (hle : 0x180 ≤ op10) (hr : aloneReady s op10 w)
include hle hr

theorem compareWord_completes (mode : Nat) (f : Word → Word → Bool × Ev) (hk : w.dst.toNat % 8 ≠ 0) :
    compareWord op10 w mode f s = .next (s.put ((formOf s op10 w).completes
      ⟨s.grp.laneSetM (w.dst.toNat % 8) (formOf s op10 w).run
          (condMask mode (s.grp.view.m.getD (w.dst.toNat % 8) 0) (formOf s op10 w).run fun l => (laneCond op10 w s.grp f l).1),
        condDev s.dev s.grp.ctx (formOf s op10 w).run (lanePoisoned op10 w s.grp)⟩
      (condEff (formOf s op10 w).run (laneCond op10 w s.grp f)))) := by
  refine laneWord_done hr (.inr hle) ?_ hr.2 rfl (condDev_ctx ..).1 (congrArg Pkg.asking (condDev_kept ..).2)
  dsimp only
  rw [List.map_map, List.any_map, List.foldl_map, viewMask, if_neg hk]
  rfl

theorem compareWord_writes {i : Instr} {mode : Nat} {f : Word → Word → Bool × Ev} (hi : exec i s = compareWord op10 w mode f s) (hk : w.dst.toNat % 8 ≠ 0) (hw : s.grp.width ≤ 64) :
    ∃ t, (exec i s = .next t ∧ maskWritten s (formOf s op10 w) (w.dst.toNat % 8)
        (fun l => condBit mode (bit (s.grp.view.m.getD (w.dst.toNat % 8) 0) l) (laneCond op10 w s.grp f l).1) t) ∧
      poisonTaken s.dev t.dev s.grp.ctx (formOf s op10 w).run (lanePoisoned op10 w s.grp) ∧
      counted s t (fun e => lanesWith (formOf s op10 w).run fun l => bit (laneCond op10 w s.grp f l).2 e) := by
  refine ⟨_, ⟨hi.trans (compareWord_completes hle hr mode f hk), completes_maskWritten hw rfl rfl rfl (condDev_kept ..).1 fun l hl hrun => ?_⟩, ?_, ?_⟩
  · rw [condMask, bit_lanePut _ _ _ hl, if_pos hrun]
  · exact poisonTaken.completes (m := ⟨_, _⟩) (condDev_psn ..) _ _
  · exact counted_completes rfl (condDev_ctx ..).1 (condDev_ctx ..).2 fun c hc => classSum_evLanes _ _ hc

end

theorem exec_vCmp (w : Wide) (s : State) : exec (.vCmp w) s = compareWord 0x1D0 w w.aux2 (cmpLane w.ty w.aux5 w.fz) s := rfl

/-- The condition of `v.pcmp` in a lane, with its event. -/
def pcmpLane (w : Wide) (a b : Word) : Bool × Ev :=
  (phCond w.aux5 (phCompare w.ty (phCode w.ty a) (phCode w.ty b)),
    if (phAngle w.ty (phCode w.ty a)).isNone || (phAngle w.ty (phCode w.ty b)).isNone then evPund else evNone)

theorem exec_vPcmp (w : Wide) (s : State) : exec (.vPcmp w) s = compareWord 0x1F0 w 0 (pcmpLane w) s := rfl
theorem exec_vTpsn (w : Wide) (s : State) : exec (.vTpsn w) s = execVTpsn w s := rfl

theorem pcmp_bit (w : Wide) (g : Group) (l : Nat) {old : Bool} : condBit 0 old (laneCond 0x1F0 w g (pcmpLane w) l).1 =
    (!lanePoisoned 0x1F0 w g l && phCond w.aux5 (phCompare w.ty (phCode w.ty (laneSources 0x1F0 w g g.view l).1.1)
      (phCode w.ty (laneSources 0x1F0 w g g.view l).2.1.1))) := by
  unfold laneCond condBit
  cases lanePoisoned 0x1F0 w g l <;> rfl

theorem pcmp_event (w : Wide) (g : Group) (l : Nat) {e : Nat} (he : e < 7) : bit (laneCond 0x1F0 w g (pcmpLane w) l).2 e =
    (!lanePoisoned 0x1F0 w g l && (e == 6) && ((phAngle w.ty (phCode w.ty (laneSources 0x1F0 w g g.view l).1.1)).isNone ||
      (phAngle w.ty (phCode w.ty (laneSources 0x1F0 w g g.view l).2.1.1)).isNone)) := by
  have hnone : bit evNone e = false := by simp [bit, evNone]
  have hpund : bit evPund e = (e == 6) := by interval_cases e <;> rfl
  unfold laneCond
  cases lanePoisoned 0x1F0 w g l
  · show bit (if _ then evPund else evNone) e = _
    split
    · next h => simp only [h, hpund, Bool.not_false, Bool.true_and, Bool.and_true]
    · next h => simp only [h, hnone, Bool.and_false]
  · simp [hnone]

theorem counted_congr {s t : State} {n n' : Nat → Nat} (h : ∀ c, c < 7 → n c = n' c) (hc : counted s t n) : counted s t n' := by
  intro c hlt
  rw [← h c hlt]
  exact hc c hlt

theorem vTpsn_writes {w : Wide} {s : State} (hr : aloneReady s 0x3A0 w) (hw : s.grp.width ≤ 64) :
    ∃ t, exec (.vTpsn w) s = .next t ∧ maskWritten s (formOf s 0x3A0 w) (w.dst.toNat % 8)
      (fun l => (readSel s.grp s.grp.view w.imm w.ty w.sa l).poisoned w.ty) t := by
  refine ⟨_, ?_, completes_maskWritten (x := (lanesOf (formOf s 0x3A0 w).run).foldl
    (fun (x : Word) l => setBit x l ((readSel s.grp s.grp.view w.imm w.ty w.sa l).poisoned w.ty)) 0) (d := s.dev) (e := {})
    hw rfl rfl rfl rfl fun l hl hrun => ?_⟩
  · rw [exec_vTpsn, execVTpsn]
    exact laneWord_done hr (.inr (by decide)) rfl hr.2 rfl rfl rfl
  · rw [bit_lanePut _ _ _ hl, if_pos hrun]

theorem maskWords : Claims.MaskWords := by
  intro s w g run k old src bad writes poisons hk hw
  refine ⟨fun hr => ?_, fun hr => ?_, fun hr => ?_⟩
  · exact compareWord_writes (by decide) hr (exec_vCmp w s) hk hw
  · obtain ⟨t, ⟨he, hm⟩, hp, hc⟩ := compareWord_writes (by decide) hr (exec_vPcmp w s) hk hw
    have hnew : (fun l => condBit 0 (bit (s.grp.view.m.getD k 0) l) (laneCond 0x1F0 w s.grp (pcmpLane w) l).1) = fun l =>
        !bad 0x1F0 l && phCond w.aux5 (phCompare w.ty (phCode w.ty (src 0x1F0 l).1.1) (phCode w.ty (src 0x1F0 l).2.1.1)) :=
      funext fun l => pcmp_bit w s.grp l
    rw [hnew] at hm
    refine ⟨t, ⟨he, hm⟩, hp, counted_congr (fun e he => congrArg _ (funext fun l => ?_)) hc⟩
    exact pcmp_event w s.grp l he
  · exact vTpsn_writes hr hw

/-! ### Ballots and votes (R132, R133) -/

theorem rs_laneSetS (g : Group) (k : Nat) (x : Word) : scalarSet g (g.laneSetS k x) k x := by
  intro j
  unfold Group.laneSetS
  split
  · next hk => rw [if_neg (by omega)]
  · next hk =>
    show (g.setS k x).rs j = _
    rw [Group.setS, if_neg hk]
    unfold Group.rs
    by_cases hj : j = k
    · subst hj
      simp [hk]
    · rw [if_neg (c := j = k ∧ _) (fun h => hj h.1)]
      by_cases h0 : j = 0
      · simp [h0]
      · rw [if_neg h0, if_neg h0]
        exact Tab.getD_set_ne _ _ _ _ (Ne.symm hj)

theorem m_laneSetS (g : Group) (k : Nat) (x : Word) : (g.laneSetS k x).m = g.m := by
  unfold Group.laneSetS Group.setS
  split <;> rfl

/-- The group with a scalar register that a lane word delivers, or drops. -/
def laneDelivers (g : Group) (w : Wide) (x : Word) : Group := if w.ws then g else g.laneSetS (w.dst.toNat % 64) x

theorem laneDelivers_writes (g : Group) (w : Wide) (x : Word) : LaneWrites g (laneDelivers g w x) := by
  unfold laneDelivers
  split
  · exact LaneWrites.refl g
  · exact laneSetS_writes ..

theorem laneDelivers_m (g : Group) (w : Wide) (x : Word) : (laneDelivers g w x).m = g.m := by
  unfold laneDelivers
  split
  · rfl
  · exact m_laneSetS ..

/-- What the claims say of the scalar register of a lane word. -/
theorem laneDelivers_s {g t : Group} {w : Wide} {x : Word} (h : t.s = (laneDelivers g w x).s) :
    if w.ws then t.s = g.s else scalarSet g t (w.dst.toNat % 64) x := by
  unfold laneDelivers at h
  split
  · next hws => rw [h, if_pos hws]
  · next hws =>
    rw [if_neg hws] at h
    intro j
    rw [← rs_laneSetS g (w.dst.toNat % 64) x j, Group.rs, Group.rs, h]

/-- What the claim says of a word that writes a scalar register from masks. -/
theorem scalarFromLanes_writes {i : Instr} {s : State} {w : Wide} {op10 : Nat} {f : Group → View → Word → Word}
    (hi : exec i s = scalarFromLanes op10 w f s) (hle : 0x180 ≤ op10) (hr : aloneReady s op10 w) (hfrees : (formOf s op10 w).frees = []) :
    ∃ t, exec i s = .next t ∧ laneNext s.grp t.grp ∧ keptByControl s.grp t.grp ∧ t.grp.nest = s.grp.nest ∧ t.grp.m = s.grp.m ∧
      t.grp.lanes = s.grp.lanes ∧ t.dev.mem = s.dev.mem ∧
      if w.ws then t.grp.s = s.grp.s else scalarSet s.grp t.grp (w.dst.toNat % 64) (f s.grp s.grp.view (formOf s op10 w).run) := by
  let g1 := laneDelivers s.grp w (f s.grp s.grp.view (formOf s op10 w).run)
  have hwrites : LaneWrites s.grp g1 := laneDelivers_writes ..
  have hrun : scalarFromLanes op10 w f s = .next (s.put ((formOf s op10 w).completes ⟨g1, s.dev⟩ {})) := by
    refine laneWord_done hr (.inr hle) ?_ ?_ ?_ rfl rfl
    · show LaneRes.done (if w.ws then s.mach else _) {} = _
      show _ = LaneRes.done ⟨laneDelivers s.grp w _, s.dev⟩ {}
      unfold laneDelivers
      cases w.ws <;> rfl
    · exact (by rw [← hwrites.rest] : g1.chain = s.grp.chain).trans hr.2
    · exact (by rw [← hwrites.rest] : g1.ctx = s.grp.ctx)
  have hwrote := completes_wrote hwrites (formOf s op10 w) s.dev (e := {}) rfl rfl rfl
  obtain ⟨y, ev, hd⟩ := (formOf s op10 w).completes_dev ⟨g1, s.dev⟩ {}
  refine ⟨_, hi.trans hrun, hwrote.next, hwrote.kept, hwrote.nest, hwrote.m.trans (laneDelivers_m ..), ?_, ?_, laneDelivers_s hwrote.s⟩
  · rw [State.put_grp, hwrote.lanes, hfrees]
    rfl
  · rw [State.put_dev, hd]

theorem mem_tileLanes {size t k : Nat} : k ∈ tileLanes size t ↔ t * size ≤ k ∧ k < (t + 1) * size := by
  simp only [tileLanes, List.mem_map, List.mem_range, Nat.add_mul, Nat.one_mul]
  constructor
  · rintro ⟨a, ha, rfl⟩
    omega
  · exact fun h => ⟨k - t * size, by omega, by omega⟩

/-- A vote over the running lanes of a tile. -/
theorem voteBit_iff (kind : Nat) (run m : Word) (size t : Nat) : voteBit kind run m (tileLanes size t) = true ↔
    let own (k : Nat) : Prop := t * size ≤ k ∧ k < (t + 1) * size ∧ bit run k = true
    let all (b : Bool) : Prop := ∀ k, own k → bit m k = b
    if kind = 0 then ∃ k, own k ∧ bit m k = true else if kind = 1 then all true else all true ∨ all false := by
  have hmem {k : Nat} : k ∈ (tileLanes size t).filter (fun l => bit run l) ↔ t * size ≤ k ∧ k < (t + 1) * size ∧ bit run k = true := by
    rw [List.mem_filter, mem_tileLanes, and_assoc]
  unfold voteBit
  split
  · simp only [List.any_eq_true, hmem, if_true]
  · simp only [List.all_eq_true, hmem, if_true, if_neg Nat.one_ne_zero]
  · next h0 h1 =>
    rw [Bool.or_eq_true, List.all_eq_true, List.all_eq_true, if_neg h0, if_neg h1]
    simp only [hmem, Bool.not_eq_true']

theorem ballotsAndVotes : Claims.BallotsAndVotes := by
  intro s w g v run src m writes
  refine ⟨fun hr => ?_, fun hfit x hx hr => ?_⟩
  · exact scalarFromLanes_writes (f := fun g v run => run &&& viewMask g v (w.aux5 % 8)) rfl (by decide) hr rfl
  · have hvote : maskOf (g.width / tileSize g v) (fun t => voteBit w.aux2 run (viewMask g v (w.aux5 % 8)) (tileLanes (tileSize g v) t)) = x := by
      refine BitVec.eq_of_getLsbD_eq fun l hl => Bool.eq_iff_iff.2 ?_
      show bit (maskOf _ _) l = true ↔ bit x l = true
      rw [bit_maskOf _ _ hl, hx l hl, Bool.and_eq_true, decide_eq_true_eq, voteBit_iff]
      rfl
    have h := scalarFromLanes_writes (i := .vVote w) (f := fun g v run =>
      let size := tileSize g v
      maskOf (g.width / size) fun t => voteBit w.aux2 run (viewMask g v (w.aux5 % 8)) (tileLanes size t)) rfl (by decide) hr rfl
    rw [← hvote]
    exact h

/-! ### The conditions of `v.cmp` (R131) -/

theorem cmpLane_integers {ty : Nat} (h : ty ≤ 7) (c : Nat) (fz : Bool) (a b : Word) :
    cmpLane ty c fz a b = (intCond c (readInt ty a) (readInt ty b), 0) := if_neg (by rw [tyIsFp_of_le h]; decide)

theorem cmpLane_numbers {ty : Nat} (h : isFloat ty) (c : Nat) (fz : Bool) (a b : Word) : cmpLane ty c fz a b =
    (fpCond c (numOf ty fz 0 a) (numOf ty fz 0 b), (numOf ty fz 0 a).sigEv ||| (numOf ty fz 0 b).sigEv) := if_pos h.isFp

/-- On a NaN every relation but `ne` and `un` is false. -/
theorem fpCond_nan {c : Nat} (hc : c < 8) {x y : Num} (h : x.isNan = true ∨ y.isNan = true) : fpCond c x y = true ↔ c = 1 ∨ c = 6 := by
  have heq : x.eqv y = false ∧ x.ltv y = false ∧ y.ltv x = false ∧ (x.isNan || y.isNan) = true := by
    rcases h with h | h
    · cases x <;> cases h
      cases y <;> exact ⟨rfl, rfl, rfl, rfl⟩
    · cases y <;> cases h
      cases x <;> exact ⟨rfl, rfl, rfl, rfl⟩
  obtain ⟨heq, hlt, hgt, hnan⟩ := heq
  interval_cases c <;> simp [fpCond, heq, hlt, hgt, hnan]

theorem compareConditions : Claims.CompareConditions := by
  intro ty c fz a b hc r
  refine ⟨fun hty hc6 => ?_, fun hty => ?_⟩
  · have hr : r = _ := cmpLane_integers hty c fz a b
    rw [hr]
    refine ⟨rfl, ?_⟩
    interval_cases c <;> simp [intCond]
  · have hf : isFloat ty := hty
    intro x y
    have hr : r = _ := cmpLane_numbers hf c fz a b
    rw [hr]
    have hx : Reads ty x (numOf ty fz 0 a) := reads_numOf hf fz 0 a
    have hy : Reads ty y (numOf ty fz 0 b) := reads_numOf hf fz 0 b
    refine ⟨fpInv_append hx.signal hy.signal, fun hnan => ?_, fun hnx hny => ?_⟩
    · exact fpCond_nan hc (hnan.imp hx.isNan_iff.2 hy.isNan_iff.2)
    · have heq := hx.eqv_iff hy hnx hny
      have hlt := hx.ltv_iff hy hnx hny
      have hgt := hy.ltv_iff hx hny hnx
      have hnan : ((numOf ty fz 0 a).isNan || (numOf ty fz 0 b).isNan) = false := by
        rw [Bool.or_eq_false_iff, ← Bool.not_eq_true, ← Bool.not_eq_true, hx.isNan_iff, hy.isNan_iff]
        exact ⟨hnx, hny⟩
      interval_cases c
      · exact heq
      · show (!_) = true ↔ ¬ fpVal ty x = fpVal ty y
        rw [Bool.not_eq_true', ← Bool.not_eq_true, heq]
      · exact hlt
      · show (_ || _) = true ↔ fpVal ty x ≤ fpVal ty y
        rw [Bool.or_eq_true, hlt, heq, le_iff_lt_or_eq]
      · exact hgt
      · show (_ || _) = true ↔ fpVal ty y ≤ fpVal ty x
        rw [Bool.or_eq_true, hgt, heq, le_iff_lt_or_eq, eq_comm]
      · exact iff_of_false (Bool.not_eq_true _ ▸ hnan) id
      · exact iff_of_true (congrArg (!·) hnan) trivial

end Sys2Proof.Machine
namespace Sys2Proof

/-- Settles O32: a mask word writes its lanes' conditions, a vote counts its tile's lanes, and the conditions order values. -/
theorem masksAndVotes : Obligations.MasksAndVotes := ⟨Machine.maskWords, Machine.compareConditions, Machine.ballotsAndVotes⟩

end Sys2Proof
end

section
/-! ## Exchange within tiles, reductions and scans (R137-R139) -/

namespace Sys2Proof.Machine

/-! ### The running lanes, tile by tile (R84) -/

theorem run_lt_width (g : Group) (v : View) (ms : Nat) {l : Nat} (h : bit (runMask g v ms) l = true) : l < g.width := by
  have hl : l < 64 := BitVec.lt_of_getLsbD h
  have h0 : bit g.m0 l = true := by
    unfold runMask at h
    split at h
    · exact h
    · rw [bit, BitVec.getLsbD_and, Bool.and_eq_true] at h
      exact h.1
  rw [bit_m0 _ hl] at h0
  simp only [Bool.and_eq_true, decide_eq_true_eq] at h0
  exact h0.1.1

theorem lanesOf_sorted (run : Word) : (lanesOf run).Pairwise (· < ·) := List.Pairwise.filter _ List.pairwise_lt_range

theorem mem_tileRun {g : Group} {v : View} {run : Word} {l k : Nat} :
    k ∈ tileRun g v run l ↔ bit run k = true ∧ k / tileSize g v = l / tileSize g v := by
  simp only [tileRun, List.mem_filter, List.mem_range, Bool.and_eq_true, decide_eq_true_eq, and_iff_right_iff_imp]
  exact fun h => BitVec.lt_of_getLsbD h.1

theorem tileRun_sorted (g : Group) (v : View) (run : Word) (l : Nat) : (tileRun g v run l).Pairwise (· < ·) :=
  List.Pairwise.filter _ List.pairwise_lt_range

theorem tileRun_congr {g : Group} {v : View} {l k : Nat} (run : Word) (h : l / tileSize g v = k / tileSize g v) :
    tileRun g v run l = tileRun g v run k := by
  unfold tileRun
  rw [h]

section
variable {g : Group} {v : View} (hfit : tilesFit g v)
include hfit

theorem tile_of_start (t : Nat) : t * tileSize g v / tileSize g v = t := Nat.mul_div_cancel _ hfit.1

/-- A tile's running lanes, as the model lists them. -/
theorem runTiles_eq (run : Word) :
    runTiles g v run = (List.range (g.width / tileSize g v)).map fun t => tileRun g v run (t * tileSize g v) := by
  refine List.map_congr_left fun t _ => ?_
  refine List.Pairwise.eq_of_mem_iff (r := (· < ·)) (List.Pairwise.filter _ ?_) (tileRun_sorted ..) fun k => ?_
  · rw [tileLanes, List.pairwise_map]
    exact List.pairwise_lt_range.imp fun h => by omega
  · rw [List.mem_filter, mem_tileLanes, mem_tileRun, tile_of_start hfit, Nat.div_eq_iff hfit.1, and_comm]
    refine and_congr_right fun _ => ?_
    rw [Nat.add_mul, Nat.one_mul]
    have := hfit.1
    omega

/-- The tiles one after the other are the running lanes. -/
theorem runTiles_flatten {run : Word} (hrun : ∀ l, bit run l = true → l < g.width) : (runTiles g v run).flatten = lanesOf run := by
  rw [runTiles_eq hfit]
  refine List.Pairwise.eq_of_mem_iff (r := (· < ·)) ?_ (lanesOf_sorted run) fun k => ?_
  · rw [List.pairwise_flatten, List.pairwise_map]
    refine ⟨fun t ht => ?_, List.pairwise_lt_range.imp fun {a b} hab x hx y hy => ?_⟩
    · obtain ⟨i, -, rfl⟩ := List.mem_map.1 ht
      exact tileRun_sorted ..
    · rw [mem_tileRun, tile_of_start hfit] at hx hy
      by_contra hle
      have := Nat.div_le_div_right (c := tileSize g v) (Nat.not_lt.1 hle)
      omega
  · simp only [List.mem_flatten, List.mem_map, List.mem_range, mem_lanesOf]
    constructor
    · rintro ⟨t, ⟨i, -, rfl⟩, hk⟩
      exact (mem_tileRun.1 hk).1
    · intro hk
      refine ⟨_, ⟨k / tileSize g v, ?_, rfl⟩, mem_tileRun.2 ⟨hk, (tile_of_start hfit _).symm⟩⟩
      exact Nat.div_lt_div_of_lt_of_dvd hfit.2.1 (hrun k hk)

/-- A lane's tile, whichever of its lanes names it. -/
theorem tile_of_mem {run : Word} {t : List Nat} (ht : t ∈ runTiles g v run) {l : Nat} (hl : l ∈ t) : t = tileRun g v run l := by
  rw [runTiles_eq hfit] at ht
  obtain ⟨i, -, rfl⟩ := List.mem_map.1 ht
  exact tileRun_congr run (mem_tileRun.1 hl).2.symm

end

/-! ### Sets of lanes (R62, R137) -/

/-- The result of a set of lanes (R110). -/
def setOut (dty : Nat) (psn : Nat → Bool) (f : List Nat → Word × Ev) (ls : List Nat) : LaneOut :=
  if ls.any psn then poisonOut dty else { val := (f ls).1, ev := (f ls).2 }

/-- The events of the sets that somebody receives. -/
def setCounts (dty : Nat) (sets : List (List Nat × List Nat)) (psn : Nat → Bool) (f : List Nat → Word × Ev) : List (List Nat × Ev) :=
  (sets.filter fun e => !e.2.isEmpty).map fun e => (e.2, (setOut dty psn f e.1).ev)

theorem overSets_eq (w : Wide) (dty : Nat) (sets : List (List Nat × List Nat)) (psn : Nat → Bool) (f : List Nat → Word × Ev) :
    overSets w dty sets psn f =
      { laneEff w.dst.toNat w.ws dty (sets.flatMap fun e => e.2.map fun l => (l, setOut dty psn f e.1)) with
        counts := (setEvents (setCounts dty sets psn f)).1, lanes := (setEvents (setCounts dty sets psn f)).2 } := by
  have hrs : (sets.map fun e => if e.1.any psn then (e.2, poisonOut dty)
      else
        let r := f e.1
        (e.2, { val := r.1, ev := r.2 })) = sets.map fun e => (e.2, setOut dty psn f e.1) :=
    List.map_congr_left fun e _ => by
      unfold setOut
      split <;> rfl
  have hcounts : ((sets.map fun e => (e.2, setOut dty psn f e.1)).filterMap fun e => if e.1.isEmpty then none else some (e.1, e.2.ev)) =
      setCounts dty sets psn f := by
    rw [List.filterMap_map, setCounts, ← List.filterMap_eq_filter, List.map_filterMap]
    refine List.filterMap_congr fun e _ => ?_
    cases h : e.2 <;> simp [h, Option.guard]
  unfold overSets
  dsimp only
  rw [hrs, hcounts, List.flatMap_map]

theorem classSum_setEvents (l : List (List Nat × Ev)) {c : Nat} (hc : c < 7) :
    classSum (setEvents l).1 c = (l.filter fun e => bit e.2 c).length := by
  refine (classSum_map (List.Pairwise.filter _ List.nodup_range) _ c).trans ?_
  split
  · rfl
  · next h =>
    rw [List.mem_filter, List.mem_range, not_and] at h
    have hnone := h hc
    rw [List.any_eq_true, not_exists] at hnone
    rw [List.filter_eq_nil_iff.2 fun e he hb => hnone e ⟨he, hb⟩]
    rfl

/-! ### What the sets of a word give each running lane -/

/-- The sets of `v.red` and `v.pred`: every tile, for itself. -/
def tileSets (g : Group) (v : View) (run : Word) : List (List Nat × List Nat) :=
  ((runTiles g v run).filter fun t => !t.isEmpty).map fun t => (t, t)

section
variable {g : Group} {v : View} (hfit : tilesFit g v) {run : Word} (hrun : ∀ l, bit run l = true → l < g.width) (dty : Nat)
  (psn : Nat → Bool) (f : List Nat → Word × Ev)
include hfit hrun

theorem tileSets_outs : (tileSets g v run).flatMap (fun e => e.2.map fun l => (l, setOut dty psn f e.1)) =
    (lanesOf run).map fun l => (l, setOut dty psn f (tileRun g v run l)) := by
  have hempty (L : List (List Nat)) (h : List Nat → List (Nat × LaneOut)) (h0 : h [] = []) :
      (L.filter fun t => !t.isEmpty).flatMap h = L.flatMap h := by
    induction L with
    | nil => rfl
    | cons t L ih => cases t <;> simp [ih, h0]
  rw [tileSets, List.flatMap_map, hempty _ _ rfl, ← runTiles_flatten hfit hrun, List.map_flatten, List.flatMap]
  congr 1
  refine List.map_congr_left fun t ht => List.map_congr_left fun l hl => ?_
  rw [← tile_of_mem hfit ht hl]

/-- The sets of a scan, running lane by running lane. -/
theorem scanSets_eq (excl : Bool) : (runTiles g v run).flatMap (scanSets excl) = (lanesOf run).map fun l =>
    ((tileRun g v run l).filter fun k => if excl then decide (k < l) else decide (k ≤ l), [l]) := by
  rw [← runTiles_flatten hfit hrun, List.map_flatten, List.flatMap]
  congr 1
  refine List.map_congr_left fun t ht => List.map_congr_left fun l hl => ?_
  rw [← tile_of_mem hfit ht hl]

theorem scanSets_outs (excl : Bool) : ((runTiles g v run).flatMap (scanSets excl)).flatMap (fun e => e.2.map fun l => (l, setOut dty psn f e.1)) =
    (lanesOf run).map fun l => (l, setOut dty psn f ((tileRun g v run l).filter fun k => if excl then decide (k < l) else decide (k ≤ l))) := by
  rw [scanSets_eq hfit hrun, List.flatMap_map]
  simp only [List.map_cons, List.map_nil]
  exact List.map_eq_flatMap.symm

omit hrun in
theorem tileSets_counts {c : Nat} (hc : c < 7) : classSum (setEvents (setCounts dty (tileSets g v run) psn f)).1 c =
    countBelow (g.width / tileSize g v) fun t => (tileRun g v run (t * tileSize g v)).length != 0 &&
      bit (setOut dty psn f (tileRun g v run (t * tileSize g v))).ev c := by
  rw [classSum_setEvents _ hc, setCounts, tileSets, runTiles_eq hfit]
  simp only [List.filter_map, List.length_map, List.filter_filter, Function.comp_def, countBelow]
  congr 2
  funext t
  cases tileRun g v run (t * tileSize g v) <;> simp [Bool.and_comm]

theorem scanSets_counts (excl : Bool) {c : Nat} (hc : c < 7) :
    classSum (setEvents (setCounts dty ((runTiles g v run).flatMap (scanSets excl)) psn f)).1 c = lanesWith run fun l =>
      bit (setOut dty psn f ((tileRun g v run l).filter fun k => if excl then decide (k < l) else decide (k ≤ l))).ev c := by
  rw [classSum_setEvents _ hc, setCounts, scanSets_eq hfit hrun]
  simp only [List.filter_map, List.length_map, List.filter_filter, Function.comp_def, lanesOf, lanesWith, countBelow]
  congr 2
  funext l
  simp [Bool.and_comm]

end

/-! ### The words (R137-R139) -/

/-- A word that writes a lane register frees none of the registers that it writes (R76). -/
theorem frees_notWritten {s : State} {op10 : Nat} {w : Wide} (h1 : op10 ≠ 0x341) (h2 : op10 ≠ 0x343) (hd : (infoOf op10 w).dest = .vreg) :
    ∀ k ∈ (formOf s op10 w).frees, k ∉ (if w.ws then [] else typedRegs (dstTy op10 w) w.dst.toNat) := by
  intro k hk
  have hk : k ∈ (wideLast op10 w (infoOf op10 w) s.grp.view).filter fun x => !(wideWrites op10 w (infoOf op10 w)).contains x := hk
  rw [wideWrites_vreg w h1 h2 hd] at hk
  have := (List.mem_filter.1 hk).2
  simp only [Bool.not_eq_true', List.contains_eq_mem, decide_eq_false_iff_not] at this
  exact this

/-- A word over sets of lanes that give each running lane a result. -/
theorem setsWord_gives {i : Instr} {s : State} {op10 : Nat} {w : Wide} {body : LaneInfo → View → Word → CtlRegs → Mach → LaneRes}
    {sets : List (List Nat × List Nat)} {psn : Nat → Bool} {f : List Nat → Word × Ev} {out : Nat → LaneOut} {n : Nat → Nat}
    (hi : exec i s = laneWord op10 w body s) (hle : 0x180 ≤ op10) (h1 : op10 ≠ 0x341) (h2 : op10 ≠ 0x343) (hr : aloneReady s op10 w)
    (hd : (infoOf op10 w).dest = .vreg)
    (hbody : body (infoOf op10 w) s.grp.view (formOf s op10 w).run s.regs s.mach = .done s.mach (overSets w (dstTy op10 w) sets psn f))
    (houts : sets.flatMap (fun e => e.2.map fun l => (l, setOut (dstTy op10 w) psn f e.1)) =
      (lanesOf (formOf s op10 w).run).map fun l => (l, out l))
    (hcounts : ∀ c, c < 7 → classSum (setEvents (setCounts (dstTy op10 w) sets psn f)).1 c = n c) :
    let rule : LaneRule := ⟨op10, w, dstTy op10 w, fun _ _ l => out l⟩
    ∃ t, exec i s = .next t ∧ laneNext s.grp t.grp ∧ lanesOnly s.grp t.grp ∧ t.dev.mem = s.dev.mem ∧ counted s t n ∧
      lanesAfter s.grp.lanes t.grp.lanes (formOf s op10 w).run rule.writes (formOf s op10 w).frees (fun k l => rule.half k (out l)) := by
  intro rule
  have hrun := laneWord_done hr (.inr hle) hbody hr.2 rfl rfl rfl
  rw [overSets_eq, houts] at hrun
  have hcount : counted s (s.put ((formOf s op10 w).completes s.mach { laneEff w.dst.toNat w.ws (dstTy op10 w)
      ((lanesOf (formOf s op10 w).run).map fun l => (l, out l)) with
      counts := (setEvents (setCounts (dstTy op10 w) sets psn f)).1, lanes := (setEvents (setCounts (dstTy op10 w) sets psn f)).2 })) n :=
    counted_completes rfl rfl rfl hcounts
  obtain ⟨q, p, hw, hg⟩ := (formOf s op10 w).completes_grp s.mach { laneEff w.dst.toNat w.ws (dstTy op10 w)
      ((lanesOf (formOf s op10 w).run).map fun l => (l, out l)) with
      counts := (setEvents (setCounts (dstTy op10 w) sets psn f)).1, lanes := (setEvents (setCounts (dstTy op10 w) sets psn f)).2 }
  obtain ⟨x, ev, hdev⟩ := (formOf s op10 w).completes_dev s.mach { laneEff w.dst.toNat w.ws (dstTy op10 w)
      ((lanesOf (formOf s op10 w).run).map fun l => (l, out l)) with
      counts := (setEvents (setCounts (dstTy op10 w) sets psn f)).1, lanes := (setEvents (setCounts (dstTy op10 w) sets psn f)).2 }
  refine ⟨_, hi.trans hrun, LaneForm.completes_next _ s.mach _, ?_, ?_, hcount, ?_⟩
  · rw [State.put_grp, hg]
    rfl
  · rw [State.put_dev, hdev]
    rfl
  · rw [State.put_grp, hg]
    exact lanesAfter_laneEff s.grp.lanes w.dst.toNat (dstTy op10 w) w.ws (formOf s op10 w).run out _ (frees_notWritten h1 h2 hd)

/-- Which lanes' sources are poisoned, and what a set of sources gives: OP, or the resolved sum of phasors. -/
def exchPsn (g : Group) (w : Wide) (l : Nat) : Bool := (exchSource g g.view w l).2
def redSet (g : Group) (w : Wide) (ls : List Nat) : Word × Ev :=
  redOver w.aux5 w.ty w.rm w.fz w.sat (ls.map fun l => (exchSource g g.view w l).1)
def phasorSum (w : Wide) (xs : List Word) : LaneOut :=
  let as := xs.filterMap fun x => phAngle w.ty (phCode w.ty x)
  resolveOut w.ty (as.map fun a => cosEntry (phIndex w.ty a)).sum (as.map fun a => sinEntry (phIndex w.ty a)).sum as.length
def predSet (g : Group) (w : Wide) (ls : List Nat) : Word × Ev :=
  let o := phasorSum w (ls.map fun l => (exchSource g g.view w l).1)
  (o.val, o.ev)

theorem foldl_add_sum {α : Type} (f : α → Int) (l : List α) (a : Int) : l.foldl (fun acc x => acc + f x) a = a + (l.map f).sum := by
  induction l generalizing a with
  | nil => simp
  | cons x l ih => rw [List.foldl_cons, ih, List.map_cons, List.sum_cons, Int.add_assoc]

section
variable {s : State} {w : Wide}

theorem exec_vRed (w : Wide) (s : State) : exec (.vRed w) s = execVRed w s := rfl
theorem exec_vScan (w : Wide) (s : State) : exec (.vScan w) s = laneWord 0x220 w (fun _ v run _ m => .done m
    (overSets w w.ty ((runTiles m.g v run).flatMap (scanSets (w.aux2 % 2 == 1))) (fun l => (exchA m v w l).2)
      fun ls => redOver w.aux5 w.ty w.rm w.fz w.sat (ls.map fun l => (exchA m v w l).1))) s := rfl

/-- The sum of a set's phasors as the model adds it, lane by lane. -/
def predFold (m : Mach) (v : View) (w : Wide) (ls : List Nat) : Word × Ev :=
  let as := ls.filterMap fun l => phAngle w.ty (phCode w.ty (exchA m v w l).1)
  let o := resolveOut w.ty (as.foldl (fun acc a => acc + cosEntry (phIndex w.ty a)) 0)
    (as.foldl (fun acc a => acc + sinEntry (phIndex w.ty a)) 0) as.length
  (o.val, o.ev)

theorem predFold_eq (s : State) (w : Wide) (ls : List Nat) : predFold s.mach s.grp.view w ls = predSet s.grp w ls := by
  simp only [predFold, predSet, phasorSum, foldl_add_sum, Int.zero_add, List.filterMap_map, Function.comp_def]
  rfl

theorem exec_vPred (w : Wide) (s : State) : exec (.vPred w) s = laneWord 0x230 w (fun _ v run _ m => .done m
    (overSets w 6 (tileSets m.g v run) (fun l => (exchA m v w l).2) (predFold m v w))) s := rfl

theorem run_of_form {op10 : Nat} {l : Nat} (h : bit (formOf s op10 w).run l = true) : l < s.grp.width := run_lt_width _ _ _ h

variable (hfit : tilesFit s.grp s.grp.view)
include hfit

theorem vRed_tiles (hr : aloneReady s 0x210 w) (h0 : w.aux2 % 2 = 0) :
    let rule : LaneRule := ⟨0x210, w, w.ty, fun _ _ l => setOut w.ty (exchPsn s.grp w) (redSet s.grp w) (tileRun s.grp s.grp.view (formOf s 0x210 w).run l)⟩
    ∃ t, exec (.vRed w) s = .next t ∧ laneNext s.grp t.grp ∧ lanesOnly s.grp t.grp ∧ t.dev.mem = s.dev.mem ∧
      counted s t (fun c => countBelow (s.grp.width / tileSize s.grp s.grp.view) fun t =>
        (tileRun s.grp s.grp.view (formOf s 0x210 w).run (t * tileSize s.grp s.grp.view)).length != 0 &&
        bit (setOut w.ty (exchPsn s.grp w) (redSet s.grp w) (tileRun s.grp s.grp.view (formOf s 0x210 w).run (t * tileSize s.grp s.grp.view))).ev c) ∧
      lanesAfter s.grp.lanes t.grp.lanes (formOf s 0x210 w).run rule.writes (formOf s 0x210 w).frees
        (fun k l => rule.half k (setOut w.ty (exchPsn s.grp w) (redSet s.grp w) (tileRun s.grp s.grp.view (formOf s 0x210 w).run l))) := by
  refine setsWord_gives (sets := tileSets s.grp s.grp.view (formOf s 0x210 w).run) (psn := exchPsn s.grp w) (f := redSet s.grp w)
    (exec_vRed w s) (by decide) (by decide) (by decide) hr ?_ ?_ ?_ fun c hc => ?_
  · show (if (0x210 : Nat) = 0x210 && decide (w.aux2 % 2 = 1) then Dest.scalar else Dest.vreg) = .vreg
    rw [decide_eq_false (p := w.aux2 % 2 = 1) (by omega), Bool.and_false]
    rfl
  · exact if_neg (by omega)
  · exact tileSets_outs hfit (fun l h => run_of_form h) _ _ _
  · exact tileSets_counts hfit _ _ _ hc

theorem vScan_lanes (hr : aloneReady s 0x220 w) :
    let own (l : Nat) : List Nat := (tileRun s.grp s.grp.view (formOf s 0x220 w).run l).filter fun k =>
      if w.aux2 % 2 = 1 then decide (k < l) else decide (k ≤ l)
    let rule : LaneRule := ⟨0x220, w, w.ty, fun _ _ l => setOut w.ty (exchPsn s.grp w) (redSet s.grp w) (own l)⟩
    ∃ t, exec (.vScan w) s = .next t ∧ laneNext s.grp t.grp ∧ lanesOnly s.grp t.grp ∧ t.dev.mem = s.dev.mem ∧
      counted s t (fun c => lanesWith (formOf s 0x220 w).run fun l => bit (setOut w.ty (exchPsn s.grp w) (redSet s.grp w) (own l)).ev c) ∧
      lanesAfter s.grp.lanes t.grp.lanes (formOf s 0x220 w).run rule.writes (formOf s 0x220 w).frees
        (fun k l => rule.half k (setOut w.ty (exchPsn s.grp w) (redSet s.grp w) (own l))) := by
  have hexcl (l : Nat) : (fun k => if (w.aux2 % 2 == 1) = true then decide (k < l) else decide (k ≤ l)) =
      fun k => if w.aux2 % 2 = 1 then decide (k < l) else decide (k ≤ l) := by
    simp only [beq_iff_eq]
  have houts := scanSets_outs hfit (fun l h => run_of_form (op10 := 0x220) (w := w) h) w.ty (exchPsn s.grp w) (redSet s.grp w) (w.aux2 % 2 == 1)
  have hcounts {c : Nat} (hc : c < 7) := scanSets_counts hfit (fun l h => run_of_form (op10 := 0x220) (w := w) h) w.ty (exchPsn s.grp w)
    (redSet s.grp w) (w.aux2 % 2 == 1) hc
  simp only [hexcl] at houts hcounts
  refine setsWord_gives (exec_vScan w s) (by decide) (by decide) (by decide) hr ?_ rfl houts fun c hc => hcounts hc
  show (if (0x220 : Nat) = 0x210 && decide (w.aux2 % 2 = 1) then Dest.scalar else Dest.vreg) = .vreg
  rfl

theorem vPred_tiles (hr : aloneReady s 0x230 w) :
    let rule : LaneRule := ⟨0x230, w, 6, fun _ _ l => setOut 6 (exchPsn s.grp w) (predSet s.grp w) (tileRun s.grp s.grp.view (formOf s 0x230 w).run l)⟩
    ∃ t, exec (.vPred w) s = .next t ∧ laneNext s.grp t.grp ∧ lanesOnly s.grp t.grp ∧ t.dev.mem = s.dev.mem ∧
      counted s t (fun c => countBelow (s.grp.width / tileSize s.grp s.grp.view) fun t =>
        (tileRun s.grp s.grp.view (formOf s 0x230 w).run (t * tileSize s.grp s.grp.view)).length != 0 &&
        bit (setOut 6 (exchPsn s.grp w) (predSet s.grp w) (tileRun s.grp s.grp.view (formOf s 0x230 w).run (t * tileSize s.grp s.grp.view))).ev c) ∧
      lanesAfter s.grp.lanes t.grp.lanes (formOf s 0x230 w).run rule.writes (formOf s 0x230 w).frees
        (fun k l => rule.half k (setOut 6 (exchPsn s.grp w) (predSet s.grp w) (tileRun s.grp s.grp.view (formOf s 0x230 w).run l))) := by
  refine setsWord_gives (sets := tileSets s.grp s.grp.view (formOf s 0x230 w).run) (psn := exchPsn s.grp w) (f := predSet s.grp w)
    (exec_vPred w s) (by decide) (by decide) (by decide) hr rfl ?_ ?_ fun c hc => ?_
  · exact congrArg (fun f => LaneRes.done s.mach (overSets w 6 _ _ f)) (funext (predFold_eq s w))
  · exact tileSets_outs hfit (fun l h => run_of_form h) _ _ _
  · exact tileSets_counts hfit _ _ _ hc

/-! ### The scalar form of `v.red` -/

/-- Tile 0's running lanes. -/
def tileZero (s : State) (w : Wide) : List Nat := tileRun s.grp s.grp.view (formOf s 0x210 w).run 0

theorem runTiles_head : (runTiles s.grp s.grp.view (formOf s 0x210 w).run).headD [] = tileZero s w := by
  rw [runTiles_eq hfit, tileZero]
  cases hn : s.grp.width / tileSize s.grp s.grp.view with
  | zero =>
    have hw : s.grp.width = 0 := by
      have := Nat.div_mul_cancel hfit.2.1
      rw [hn, Nat.zero_mul] at this
      exact this.symm
    refine Eq.symm (List.eq_nil_iff_forall_not_mem.2 fun k hk => ?_)
    have := run_of_form (mem_tileRun.1 hk).1
    omega
  | succ n =>
    rw [List.range_succ_eq_map, List.map_cons, Nat.zero_mul]
    rfl

/-- The poisoned lanes of tile 0. -/
def tilePoison (s : State) (w : Wide) : Word := maskOf s.grp.width fun l => (tileZero s w).contains l && exchPsn s.grp w l

omit hfit in
theorem bit_tilePoison (hw : s.grp.width ≤ 64) {l : Nat} (hl : l < s.grp.width) :
    bit (tilePoison s w) l = true ↔ l ∈ tileZero s w ∧ exchPsn s.grp w l = true := by
  rw [tilePoison, bit_maskOf _ _ (by omega), decide_eq_true hl, Bool.true_and, Bool.and_eq_true, List.contains_iff_mem]

omit hfit in
theorem tilePoison_zero (hw : s.grp.width ≤ 64) : tilePoison s w = 0 ↔ (tileZero s w).any (exchPsn s.grp w) = false := by
  rw [List.any_eq_false]
  constructor
  · intro h0 l hl hp
    have hlt := run_of_form (mem_tileRun.1 hl).1
    have hb := (bit_tilePoison hw hlt).2 ⟨hl, hp⟩
    rw [h0] at hb
    simp [bit] at hb
  · intro h
    refine BitVec.eq_of_getLsbD_eq fun l hl => ?_
    show bit (tilePoison s w) l = _
    rw [show (0 : Word).getLsbD l = false from BitVec.getLsbD_zero, ← Bool.not_eq_true]
    intro hb
    have hlt : l < s.grp.width := by
      rw [tilePoison, bit_maskOf _ _ hl, Bool.and_eq_true, decide_eq_true_eq] at hb
      exact hb.1
    obtain ⟨hm, hp⟩ := (bit_tilePoison hw hlt).1 hb
    exact h l hm hp

theorem vRed_scalar (hr : aloneReady s 0x210 w) (h1 : w.aux2 % 2 = 1) (hno : (tileZero s w).any (exchPsn s.grp w) = false) :
    ∃ t, exec (.vRed w) s = .next t ∧ laneNext s.grp t.grp ∧ keptByControl s.grp t.grp ∧ t.grp.m = s.grp.m ∧ t.grp.nest = s.grp.nest ∧
      t.dev.mem = s.dev.mem ∧ counted s t (fun c => if bit (redSet s.grp w (tileZero s w)).2 c then 1 else 0) ∧
      if w.ws then t.grp.s = s.grp.s else scalarSet s.grp t.grp (w.dst.toNat % 64) (redSet s.grp w (tileZero s w)).1 := by
  let r := redSet s.grp w (tileZero s w)
  let ev := setEvents [(tileZero s w, r.2)]
  let g1 := laneDelivers s.grp w r.1
  have hwrites : LaneWrites s.grp g1 := laneDelivers_writes ..
  have hbody : exec (.vRed w) s = .next (s.put ((formOf s 0x210 w).completes ⟨g1, s.dev⟩ { counts := ev.1, lanes := ev.2 })) := by
    rw [exec_vRed, execVRed]
    refine laneWord_done hr (.inr (by decide)) ?_ ?_ ?_ rfl rfl
    · refine (if_pos h1).trans ?_
      have hhead : (runTiles s.mach.g s.grp.view (formOf s 0x210 w).run).headD [] = tileZero s w := runTiles_head hfit
      dsimp only
      rw [hhead]
      refine (if_neg (not_not.2 ((tilePoison_zero hfit.2.2).2 hno))).trans ?_
      show LaneRes.done (if w.ws then s.mach else _) _ = LaneRes.done ⟨laneDelivers s.grp w _, s.dev⟩ _
      unfold laneDelivers
      cases w.ws <;> rfl
    · exact (by rw [← hwrites.rest] : g1.chain = s.grp.chain).trans hr.2
    · exact (by rw [← hwrites.rest] : g1.ctx = s.grp.ctx)
  have hwrote := completes_wrote hwrites (formOf s 0x210 w) s.dev (e := { counts := ev.1, lanes := ev.2 }) rfl rfl rfl
  obtain ⟨y, evs, hd⟩ := (formOf s 0x210 w).completes_dev ⟨g1, s.dev⟩ { counts := ev.1, lanes := ev.2 }
  refine ⟨_, hbody, hwrote.next, hwrote.kept, hwrote.m.trans (laneDelivers_m ..), hwrote.nest, ?_, ?_, laneDelivers_s hwrote.s⟩
  · rw [State.put_dev, hd]
  · refine counted_completes (m := ⟨g1, s.dev⟩) (by rw [← hwrites.rest]) rfl rfl fun c hc => ?_
    refine (classSum_setEvents _ hc).trans ?_
    show (List.filter (fun e : List Nat × Ev => bit e.2 c) [(tileZero s w, r.2)]).length = _
    cases hb : bit r.2 c <;> simp [hb, r]

theorem vRed_poison (hr : aloneReady s 0x210 w) (h1 : w.aux2 % 2 = 1) (hbad : (tileZero s w).any (exchPsn s.grp w) = true)
    (ht : laneTraps s.grp) : ∃ t mask, exec (.vRed w) s = .next t ∧ t.grp = s.grp.laneTrapped 10 mask ∧
      ∀ l, l < s.grp.width → (bit mask l = true ↔ l ∈ tileZero s w ∧ exchPsn s.grp w l = true) := by
  have hne : tilePoison s w ≠ 0 := fun h0 => by
    rw [(tilePoison_zero hfit.2.2).1 h0] at hbad
    cases hbad
  rw [exec_vRed, execVRed]
  refine (laneWord_traps (m := s.mach) hr (.inr (by decide)) ?_ rfl rfl ht).elim fun x hx => ⟨_, tilePoison s w, hx.1, rfl, fun l hl => bit_tilePoison hfit.2.2 hl⟩
  refine (if_pos h1).trans ?_
  have hhead : (runTiles s.mach.g s.grp.view (formOf s 0x210 w).run).headD [] = tileZero s w := runTiles_head hfit
  dsimp only
  rw [hhead]
  exact if_pos hne

end

theorem exchangeWords : Claims.ExchangeWords := by
  intro s w g v run tile own size red scan sum pred once gives hfit
  refine ⟨fun hr => ⟨fun h0 => vRed_tiles hfit hr h0, fun h1 hno => ?_, fun h1 hbad ht => vRed_poison hfit hr h1 hbad ht⟩,
    fun hr => vScan_lanes hfit hr, fun hr => vPred_tiles hfit hr⟩
  have hred : red 0 = { val := (redSet s.grp w (tileZero s w)).1, ev := (redSet s.grp w (tileZero s w)).2 } := if_neg (by
    rw [hno]
    decide)
  rw [hred]
  exact vRed_scalar hfit hr h1 hno

/-! ### Reductions of a list (R137) -/

theorem extendTo_zero (ty : Nat) : extendTo ty 0 = 0 := by
  unfold extendTo
  split
  · simp [BitVec.signExtend]
  · simp

theorem placeTy_zero (ty : Nat) : placeTy ty 0 = 0 := extendTo_zero ty

theorem intResult_zero (ty : Nat) (sat : Bool) : intResult (tySigned ty) (tyWidth ty) sat 0 = (0, 0) := by
  have h0 : BitVec.ofInt (tyWidth ty) 0 = 0 := by simp
  rw [intResult_eq, if_neg (fun h => absurd h.2 (not_lt.2 (tyLo_le_zero ty))), if_neg (fun h => absurd h.2 (not_lt.2 (tyHi_nonneg ty))), h0,
    extendTo_zero]

/-- On integers an empty list needs no rule of its own: each identity is what the fold starts with. -/
theorem redOver_integers {ty : Nat} (h : ty ≤ 7) (op rm : Nat) (fz sat : Bool) (l : List Word) :
    redOver op ty rm fz sat l = redFold op ty rm fz sat l := by
  cases l with
  | cons x l => rfl
  | nil =>
    have hfp := tyIsFp_of_le h
    unfold redOver redFold redIdent
    simp only [List.isEmpty_nil, if_true, hfp, Bool.false_eq_true, if_false, List.map_nil, List.foldl_nil]
    match op with
    | 0 => exact (intResult_zero ty sat).symm
    | 1 => exact Prod.ext rfl (intResult_wraps ty _).2.symm
    | 2 => exact Prod.ext rfl (intResult_wraps ty _).2.symm
    | 3 => rfl
    | 4 => exact congrArg (Prod.mk · evNone) (placeTy_zero ty).symm
    | n + 5 => exact congrArg (Prod.mk · evNone) (placeTy_zero ty).symm

theorem foldl_min_range {lo hi : Int} (l : List Int) (hlo : lo ≤ hi) (h : ∀ x ∈ l, lo ≤ x) : lo ≤ l.foldl min hi ∧ l.foldl min hi ≤ hi := by
  induction l generalizing hi with
  | nil => exact ⟨hlo, le_rfl⟩
  | cons x l ih =>
    have := ih (hi := min hi x) (le_min hlo (h x (List.mem_cons_self ..))) fun y hy => h y (List.mem_cons_of_mem x hy)
    exact ⟨this.1, this.2.trans (min_le_left ..)⟩

theorem foldl_max_range {lo hi : Int} (l : List Int) (hlo : lo ≤ hi) (h : ∀ x ∈ l, x ≤ hi) : lo ≤ l.foldl max lo ∧ l.foldl max lo ≤ hi := by
  induction l generalizing lo with
  | nil => exact ⟨le_rfl, hlo⟩
  | cons x l ih =>
    have := ih (lo := max lo x) (max_le hlo (h x (List.mem_cons_self ..))) fun y hy => h y (List.mem_cons_of_mem x hy)
    exact ⟨(le_max_left ..).trans this.1, this.2⟩

theorem testBit_foldl_and (us : List Nat) (a k : Nat) : (us.foldl (· &&& ·) a).testBit k = (a.testBit k && us.all fun u => u.testBit k) := by
  induction us generalizing a with
  | nil => simp
  | cons u us ih => rw [List.foldl_cons, ih, Nat.testBit_and, List.all_cons, Bool.and_assoc]

theorem testBit_foldl_or (us : List Nat) (a k : Nat) : (us.foldl (· ||| ·) a).testBit k = (a.testBit k || us.any fun u => u.testBit k) := by
  induction us generalizing a with
  | nil => simp
  | cons u us ih => rw [List.foldl_cons, ih, Nat.testBit_or, List.any_cons, Bool.or_assoc]

theorem testBit_foldl_xor (us : List Nat) (a k : Nat) :
    (us.foldl (· ^^^ ·) a).testBit k = (a.testBit k ^^ decide ((us.filter fun u => u.testBit k).length % 2 = 1)) := by
  induction us generalizing a with
  | nil => simp
  | cons u us ih =>
    rw [List.foldl_cons, ih, Nat.testBit_xor, List.filter_cons]
    cases u.testBit k with
    | false => simp
    | true =>
      have hparity : decide ((us.filter fun u => u.testBit k).length.succ % 2 = 1) = !decide ((us.filter fun u => u.testBit k).length % 2 = 1) := by
        rw [← decide_not, decide_eq_decide]
        omega
      rw [if_pos rfl, List.length_cons, ← Nat.succ_eq_add_one, hparity]
      simp

section
variable {ty : Nat} (hty : ty ≤ 7) (rm : Nat) (fz sat : Bool) (l : List Word)
include hty

theorem redOver_sum : redOver 0 ty rm fz sat l = intResult (tySigned ty) (tyWidth ty) sat (l.map (readInt ty)).sum := by
  rw [redOver_integers hty, redFold, tyIsFp_of_le hty]
  show intResult (tySigned ty) (tyWidth ty) sat (List.foldl (· + ·) 0 (l.map (readInt ty))) = _
  rw [← List.sum_eq_foldl]

theorem redOver_least : readInt ty (redOver 1 ty rm fz sat l).1 = (l.map (readInt ty)).foldl min (tyHi ty) := by
  have hr : redOver 1 ty rm fz sat l = intResult (tySigned ty) (tyWidth ty) false ((l.map (readInt ty)).foldl min (tyHi ty)) := by
    rw [redOver_integers hty, redFold, tyIsFp_of_le hty, ← intHi_eq]
    rfl
  have hrange := foldl_min_range (l.map (readInt ty)) ((tyLo_le_zero ty).trans (tyHi_nonneg ty)) fun x hx => by
    obtain ⟨y, -, rfl⟩ := List.mem_map.1 hx
    exact (readInt_range ty y).1
  rw [hr, (intResult_wraps ty _).1, wrapTo_of_range hrange.1 hrange.2]

theorem redOver_greatest : readInt ty (redOver 2 ty rm fz sat l).1 = (l.map (readInt ty)).foldl max (tyLo ty) := by
  have hr : redOver 2 ty rm fz sat l = intResult (tySigned ty) (tyWidth ty) false ((l.map (readInt ty)).foldl max (tyLo ty)) := by
    rw [redOver_integers hty, redFold, tyIsFp_of_le hty, ← intLo_eq]
    rfl
  have hrange := foldl_max_range (l.map (readInt ty)) ((tyLo_le_zero ty).trans (tyHi_nonneg ty)) fun x hx => by
    obtain ⟨y, -, rfl⟩ := List.mem_map.1 hx
    exact (readInt_range ty y).2
  rw [hr, (intResult_wraps ty _).1, wrapTo_of_range hrange.1 hrange.2]

theorem redOver_bits {k : Nat} (hk : k < tyWidth ty) : bit (redOver 3 ty rm fz sat l).1 k = l.all (fun x => bit x k) ∧
    bit (redOver 4 ty rm fz sat l).1 k = l.any (fun x => bit x k) ∧
    (bit (redOver 5 ty rm fz sat l).1 k = true ↔ (l.filter fun x => bit x k).length % 2 = 1) := by
  have hlow (x : Word) : (x.toNat % 2 ^ tyWidth ty).testBit k = bit x k := bit_lowPart x hk
  simp only [redOver_integers hty, redFold, tyIsFp_of_le hty, Bool.false_eq_true, if_false, bit_placeTy ty _ hk, testBit_foldl_and,
    testBit_foldl_or, testBit_foldl_xor, List.all_map, List.any_map, List.filter_map, List.length_map, Function.comp_def, hlow,
    Nat.testBit_two_pow_sub_one, hk, decide_true, Bool.true_and, Nat.zero_testBit, Bool.false_or, Bool.false_bne, decide_eq_true_eq, and_self]

end

theorem reductions : Claims.Reductions := by
  intro ty rm fz sat l r w z lo hi
  refine ⟨fun hty => ⟨?_, ?_, ⟨redOver_least hty rm fz sat l, redOver_greatest hty rm fz sat l⟩, fun k hk => redOver_bits hty rm fz sat l hk⟩,
    fun hfp hl => ?_, fun hfp hnan => ?_⟩
  · have hr : r 0 false = _ := redOver_sum hty rm fz false l
    rw [hr]
    exact ⟨by rw [(intResult_wraps ty _).1, wrapTo_emod], (intResult_wraps ty _).2⟩
  · have hr : r 0 true = _ := redOver_sum hty rm fz true l
    rw [hr]
    exact intResult_clips ty _
  · subst hl
    have hr (op : Nat) : (r op sat).1 = redIdent op ty := rfl
    rw [hr, hr, hr]
    unfold redIdent
    rw [if_pos hfp, if_pos hfp, if_pos hfp]
    exact ⟨rfl, rfl, rfl⟩
  · obtain ⟨x, hx, hn⟩ := hnan
    cases l with
    | nil => cases hx
    | cons y l =>
      have hany : ((y :: l).map fun x => (fmtOf ty).read fz (x.toNat % 2 ^ tyWidth ty)).any Num.isNan = true :=
        List.any_eq_true.2 ⟨_, List.mem_map_of_mem hx, hn⟩
      have hr : r 0 sat = redFold 0 ty rm fz sat (y :: l) := rfl
      rw [hr, redFold, if_pos hfp]
      show BitVec.ofNat 64 (fpSum _ _ _ _).1 = _
      rw [fpSum, if_pos hany]

end Sys2Proof.Machine
namespace Sys2Proof

/-- Settles O33: tiles are runs of lanes, so a word over their sets is one result a running lane; a reduction is a fold of exact integers. -/
theorem exchangesAndReductions : Obligations.ExchangesAndReductions := ⟨Machine.exchangeWords, Machine.reductions⟩

end Sys2Proof
end


section
/-!
## The accumulator store (R246, R247)

What a word and a phasor element of the store read after a write, and what the loops of a pass leave.
-/

namespace Sys2Proof.Machine

/-! ### Loops that write one place after another -/

/-- What a loop leaves of a reading that no step of it changes. -/
theorem foldl_keeps {σ ι β : Type} {f : σ → ι → σ} {get : σ → β} {l : List ι} (h : ∀ q ∈ l, ∀ s, get (f s q) = get s) (s : σ) :
    get (l.foldl f s) = get s := by
  induction l generalizing s with
  | nil => rfl
  | cons q l ih =>
    rw [List.foldl_cons, ih fun q hq => h q (List.mem_cons_of_mem _ hq)]
    exact h q (List.mem_cons_self ..) s

/-- What a loop leaves of a reading that one of its steps sets to a value and every other keeps or sets to the same. -/
theorem foldl_sets {σ ι β : Type} {f : σ → ι → σ} {get : σ → β} {l : List ι} {q : ι} {v : β} (hq : q ∈ l) (hv : ∀ s, get (f s q) = v)
    (h : ∀ q' ∈ l, q' ≠ q → ∀ s, get (f s q') = get s) (s : σ) : get (l.foldl f s) = v := by
  have stays : ∀ (k : List ι) (s : σ), (∀ q' ∈ k, q' ∈ l) → get s = v → get (k.foldl f s) = v := by
    intro k
    induction k with
    | nil => exact fun s _ hs => hs
    | cons a k ih =>
      intro s hk hs
      refine ih _ (fun q' hq' => hk q' (List.mem_cons_of_mem _ hq')) ?_
      by_cases ha : a = q
      · exact ha ▸ hv s
      · exact (h a (hk a (List.mem_cons_self ..)) ha s).trans hs
  obtain ⟨as, bs, rfl⟩ := List.append_of_mem hq
  rw [List.foldl_append, List.foldl_cons]
  exact stays bs _ (fun q' hq' => List.mem_append_right _ (List.mem_cons_of_mem _ hq')) (hv _)

/-! ### Words of the store -/

theorem accWord_lt (x : Cluster) (k : Nat) : x.accWord k < 2 ^ 32 := by
  have h (b : Byte) : b.toNat < 256 := b.isLt
  have h0 := h (x.acc.byte (4 * k + 0))
  have h1 := h (x.acc.byte (4 * k + 1))
  have h2 := h (x.acc.byte (4 * k + 2))
  have h3 := h (x.acc.byte (4 * k + 3))
  simp only [Cluster.accWord, Mem.num, Mem.read, List.range, List.range.loop, List.map_cons, List.map_nil, leNat]
  omega

/-- A word is made of the four bytes at its place. -/
theorem accWord_congr {x y : Cluster} {k : Nat} (h : ∀ b, b / 4 = k → y.acc.byte b = x.acc.byte b) : y.accWord k = x.accWord k := by
  rw [Cluster.accWord, Cluster.accWord, Mem.num, Mem.num, Mem.read, Mem.read]
  refine congrArg leNat (List.map_congr_left fun i hi => h _ ?_)
  have := List.mem_range.mp hi
  omega

theorem accWord_setAcc (x : Cluster) (w v k : Nat) : (x.setAcc w v).accWord k = if k = w then v % 2 ^ 32 else x.accWord k := by
  by_cases hk : k = w
  · subst hk
    rw [if_pos rfl]
    have hr := Mem.read_store_self x.acc (4 * k) (toLe 4 v) false
    rw [toLe_length] at hr
    refine (congrArg leNat hr).trans ((leNat_toLe 4 v).trans ?_)
    norm_num
  · rw [if_neg hk]
    refine accWord_congr fun b hb => ?_
    refine (Mem.byte_store ..).trans (if_neg ?_)
    rw [toLe_length]
    omega

theorem accBad_setAcc (x : Cluster) (w v k : Nat) :
    (x.setAcc w v).accBad.getD k false = if k = w then false else x.accBad.getD k false := by
  by_cases hk : k = w
  · rw [if_pos hk, hk]
    exact Tab.getD_erase_self ..
  · rw [if_neg hk]
    exact Tab.getD_erase_ne _ _ (Ne.symm hk)

theorem Mem.byte_zero (m : Mem) (lo hi b : Nat) : (m.zero lo hi).byte b = if lo ≤ b ∧ b < hi then 0 else m.byte b := by
  refine (getD_filter_key m.bytes (fun a => decide (a < lo) || decide (hi ≤ a)) b 0).trans ?_
  by_cases h : lo ≤ b ∧ b < hi
  · rw [if_pos h, if_neg (by simp; omega)]
  · rw [if_neg h, if_pos (by simp; omega)]
    rfl

/-! ### Phasor elements of the store (R247) -/

/-- Values that the storage of an element can hold. -/
def PhAcc.stored (v : PhAcc) : Prop := -(2 ^ 47) ≤ v.x ∧ v.x < 2 ^ 47 ∧ -(2 ^ 47) ≤ v.y ∧ v.y < 2 ^ 47 ∧ v.n < 2 ^ 32

/-- The signed value of 48 bits. -/
def sx48 (v : Nat) : Int := (BitVec.ofNat 48 v).toInt

theorem sx48_range (v : Nat) : -(2 ^ 47) ≤ sx48 v ∧ sx48 v < 2 ^ 47 := by
  have h1 := BitVec.le_toInt (BitVec.ofNat 48 v)
  have h2 := BitVec.toInt_lt (x := BitVec.ofNat 48 v)
  constructor <;> simpa [sx48] using by assumption

theorem sx48_emod {v : Int} (h1 : -(2 ^ 47) ≤ v) (h2 : v < 2 ^ 47) : sx48 (v % (2 ^ 48 : Nat)).toNat = v := by
  have hlt : (v % (2 ^ 48 : Nat)).toNat < 2 ^ 48 := by omega
  rw [sx48, BitVec.toInt_eq_toNat_cond, BitVec.toNat_ofNat, Nat.mod_eq_of_lt hlt]
  split <;> omega

theorem phRead_eq (x : Cluster) (w : Nat) : x.phRead w =
    ⟨sx48 (x.accWord w + 2 ^ 32 * (x.accWord (w + 2) % 65536)), sx48 (x.accWord (w + 1) + 2 ^ 32 * (x.accWord (w + 2) / 65536)),
      if (List.range 4).any (fun i => x.accBad.getD (w + i) false) then 0xFFFFFFFF else x.accWord (w + 3)⟩ := rfl

theorem phRead_stored (x : Cluster) (w : Nat) : (x.phRead w).stored := by
  have hn : (x.phRead w).n < 2 ^ 32 := by
    rw [phRead_eq]
    dsimp only
    split
    · norm_num
    · exact accWord_lt ..
  exact ⟨(sx48_range _).1, (sx48_range _).2, (sx48_range _).1, (sx48_range _).2, hn⟩

theorem accWord_phWrite (x : Cluster) (w : Nat) (v : PhAcc) (k : Nat) : (x.phWrite w v).accWord k =
    if k = w + 3 then v.n % 2 ^ 32
    else if k = w + 2 then ((v.y % (2 ^ 48 : Nat)).toNat / 2 ^ 32 * 65536 + (v.x % (2 ^ 48 : Nat)).toNat / 2 ^ 32) % 2 ^ 32
    else if k = w + 1 then (v.y % (2 ^ 48 : Nat)).toNat % 2 ^ 32 % 2 ^ 32
    else if k = w then (v.x % (2 ^ 48 : Nat)).toNat % 2 ^ 32 % 2 ^ 32 else x.accWord k := by
  simp only [Cluster.phWrite, accWord_setAcc]

theorem accBad_phWrite (x : Cluster) (w : Nat) (v : PhAcc) (k : Nat) : (x.phWrite w v).accBad.getD k false =
    if w ≤ k ∧ k < w + 4 then false else x.accBad.getD k false := by
  simp only [Cluster.phWrite, accBad_setAcc]
  by_cases h : w ≤ k ∧ k < w + 4
  · rw [if_pos h]
    have hk : k = w ∨ k = w + 1 ∨ k = w + 2 ∨ k = w + 3 := by omega
    rcases hk with rfl | rfl | rfl | rfl <;> simp
  · rw [if_neg h, if_neg (by omega), if_neg (by omega), if_neg (by omega), if_neg (by omega)]

theorem accWord_phWrite_other (x : Cluster) (w : Nat) (v : PhAcc) {k : Nat} (hk : k < w ∨ w + 4 ≤ k) :
    (x.phWrite w v).accWord k = x.accWord k := by
  rw [accWord_phWrite, if_neg (by omega), if_neg (by omega), if_neg (by omega), if_neg (by omega)]

theorem phRead_phWrite {v : PhAcc} (hv : v.stored) (x : Cluster) (w : Nat) : (x.phWrite w v).phRead w = v := by
  obtain ⟨hx1, hx2, hy1, hy2, hn⟩ := hv
  obtain ⟨vx, vy, n⟩ := v
  have hbad : (List.range 4).any (fun i => (x.phWrite w ⟨vx, vy, n⟩).accBad.getD (w + i) false) = false := by
    rw [List.any_eq_false]
    intro i hi
    have := List.mem_range.mp hi
    rw [accBad_phWrite, if_pos (by omega)]
    exact Bool.false_ne_true
  dsimp only at hx1 hx2 hy1 hy2 hn
  have hX := sx48_emod hx1 hx2
  have hY := sx48_emod hy1 hy2
  have hXlt : (vx % (2 ^ 48 : Nat)).toNat < 2 ^ 48 := by omega
  have hYlt : (vy % (2 ^ 48 : Nat)).toNat < 2 ^ 48 := by omega
  rw [phRead_eq, hbad]
  simp only [accWord_phWrite, Nat.add_left_cancel_iff, Nat.reduceEqDiff, if_true, if_false, Bool.false_eq_true]
  rw [if_neg (show ¬ w = w + 3 by omega), if_neg (show ¬ w = w + 2 by omega), if_neg (show ¬ w = w + 1 by omega)]
  generalize (vx % (2 ^ 48 : Nat)).toNat = ux at *
  generalize (vy % (2 ^ 48 : Nat)).toNat = uy at *
  have eX : ux % 2 ^ 32 % 2 ^ 32 + 2 ^ 32 * ((uy / 2 ^ 32 * 65536 + ux / 2 ^ 32) % 2 ^ 32 % 65536) = ux := by omega
  have eY : uy % 2 ^ 32 % 2 ^ 32 + 2 ^ 32 * ((uy / 2 ^ 32 * 65536 + ux / 2 ^ 32) % 2 ^ 32 / 65536) = uy := by omega
  rw [eX, eY, hX, hY, Nat.mod_eq_of_lt hn]

theorem phRead_phWrite_other (x : Cluster) {w w' : Nat} (v : PhAcc) (h : w' + 4 ≤ w ∨ w + 4 ≤ w') :
    (x.phWrite w v).phRead w' = x.phRead w' := by
  have hany : (List.range 4).any (fun i => (x.phWrite w v).accBad.getD (w' + i) false) = (List.range 4).any fun i => x.accBad.getD (w' + i) false := by
    have h4 : ∀ i ∈ List.range 4, (x.phWrite w v).accBad.getD (w' + i) false = x.accBad.getD (w' + i) false := by
      intro i hi
      have := List.mem_range.mp hi
      rw [accBad_phWrite, if_neg (by omega)]
    rw [Bool.eq_iff_iff, List.any_eq_true, List.any_eq_true]
    exact exists_congr fun i => and_congr_right fun hi => by rw [h4 i hi]
  rw [phRead_eq, phRead_eq, hany, accWord_phWrite_other _ _ _ (by omega), accWord_phWrite_other _ _ _ (by omega),
    accWord_phWrite_other _ _ _ (by omega), accWord_phWrite_other _ _ _ (by omega)]

end Sys2Proof.Machine
end


section
/-!
## What a granted entry computes (R246 to R250)
-/

namespace Sys2Proof.Machine

theorem mem_tileElements {T t m n : Nat} : (t, m, n) ∈ tileElements T ↔ t < T ∧ m < 32 ∧ n < 32 := by
  simp [tileElements]

/-! ### A floating-point pass -/

/-- The word of an FP32 element. -/
def fpWord (r : MxRec) (q : Nat × Nat × Nat) : Nat := 1024 * (r.slot + q.1) + 32 * q.2.1 + q.2.2

/-- What a floating-point pass writes to an element. -/
def fpNew (x0 : Cluster) (e : MxEntry) (p : Nat) (a : Tab Lane32) (apsn : Tab Bool) (q : Nat × Nat × Nat) : Nat :=
  if e.prc && (rowPoison x0 e p a apsn q.1 q.2.1 || colPoison x0 e.rc p q.2.2 || (readAcc x0 e.prc (fpWord e.rc q)).1 == fp32.poisonBits)
  then fp32.poisonBits else (passElement x0 e.rc p a q.1 q.2.1 q.2.2 (readAcc x0 e.prc (fpWord e.rc q)).1).1

/-- The step of a floating-point pass. -/
def fpStep (x0 : Cluster) (e : MxEntry) (p : Nat) (a : Tab Lane32) (apsn : Tab Bool) (o : MxOut) (q : Nat × Nat × Nat) : MxOut :=
  let (t, mm, n) := q
  let w := 1024 * (e.rc.slot + t) + 32 * mm + n
  let old := readAcc x0 e.prc w
  if e.prc && (rowPoison x0 e p a apsn t mm || colPoison x0 e.rc p n || old.1 == fp32.poisonBits) then
    { o with x := o.x.setAcc w fp32.poisonBits }
  else
    let y := passElement x0 e.rc p a t mm n old.1
    { x := o.x.setAcc w y.1, ev := o.ev ||| y.2, used := o.used || old.2 }

theorem fpPass_eq (x0 : Cluster) (e : MxEntry) (p : Nat) (a : Tab Lane32) (apsn : Tab Bool) :
    fpPass x0 e p a apsn = (tileElements (recTiles e.rc)).foldl (fpStep x0 e p a apsn) { x := x0 } := rfl

theorem fpStep_x (x0 : Cluster) (e : MxEntry) (p : Nat) (a : Tab Lane32) (apsn : Tab Bool) (o : MxOut) (q : Nat × Nat × Nat) :
    (fpStep x0 e p a apsn o q).x = o.x.setAcc (fpWord e.rc q) (fpNew x0 e p a apsn q) := by
  obtain ⟨t, m, n⟩ := q
  simp only [fpStep]
  split
  · next h => exact congrArg (o.x.setAcc _) (if_pos h).symm
  · next h => exact congrArg (o.x.setAcc _) (if_neg h).symm

theorem fpWord_inj {r : MxRec} {t m n : Nat} {q : Nat × Nat × Nat} {T : Nat} (hm : m < 32) (hn : n < 32) (hq : q ∈ tileElements T)
    (h : fpWord r (t, m, n) = fpWord r q) : q = (t, m, n) := by
  obtain ⟨t', m', n'⟩ := q
  obtain ⟨-, hm', hn'⟩ := mem_tileElements.mp hq
  simp only [fpWord] at h
  simp only [Prod.mk.injEq]
  omega

theorem fpPass_word (x0 : Cluster) (e : MxEntry) (p : Nat) (a : Tab Lane32) (apsn : Tab Bool) {t m n : Nat} (ht : t < recTiles e.rc)
    (hm : m < 32) (hn : n < 32) : (fpPass x0 e p a apsn).x.accWord (fpWord e.rc (t, m, n)) = fpNew x0 e p a apsn (t, m, n) % 2 ^ 32 := by
  rw [fpPass_eq]
  refine foldl_sets (get := fun o : MxOut => o.x.accWord (fpWord e.rc (t, m, n))) (mem_tileElements.mpr ⟨ht, hm, hn⟩) (fun o => ?_)
    (fun q hq hne o => ?_) _
  · rw [fpStep_x, accWord_setAcc, if_pos rfl]
  · rw [fpStep_x, accWord_setAcc, if_neg fun h => hne (fpWord_inj hm hn hq h)]

theorem fpPass_frame (x0 : Cluster) (e : MxEntry) (p : Nat) (a : Tab Lane32) (apsn : Tab Bool) {k : Nat}
    (hk : k / 1024 < e.rc.slot ∨ e.rc.slot + recTiles e.rc ≤ k / 1024) : (fpPass x0 e p a apsn).x.accWord k = x0.accWord k := by
  rw [fpPass_eq]
  refine (foldl_keeps (get := fun o : MxOut => o.x.accWord k) (fun q hq o => ?_) _).trans rfl
  obtain ⟨t, m, n⟩ := q
  obtain ⟨ht, hm, hn⟩ := mem_tileElements.mp hq
  rw [fpStep_x, accWord_setAcc, if_neg]
  dsimp only [fpWord]
  omega

/-! ### A phasor pass -/

/-- The addition of one unit vector. -/
def phAdd (ty : Nat) (v : PhAcc) (c : Nat) : PhAcc :=
  ⟨sat47 (v.x + cosEntry (phIndex ty c)), sat47 (v.y + sinEntry (phIndex ty c)), min (v.n + 1) 0xFFFFFFFE⟩

/-- The codes of the products that an element adds. -/
def phCodes (x : Cluster) (r : MxRec) (p : Nat) (a : Tab Lane32) (t mm n : Nat) : List Nat :=
  (List.range 48).filterMap fun k => phMul (mxTy r.fmt) (elemA r.fmt a (32 * t + mm) k) (elemB x r p k n)

theorem phElement_eq (x : Cluster) (r : MxRec) (p : Nat) (a : Tab Lane32) (t mm n : Nat) (v : PhAcc) :
    (phElement x r p a t mm n v).1 = (phCodes x r p a t mm n).foldl (phAdd (mxTy r.fmt)) v := by
  have fold (l : List Nat) (mul : Nat → Option Nat) (step : PhAcc × Ev → Nat → PhAcc × Ev)
      (hs : ∀ s k, (step s k).1 = (mul k).elim s.1 (phAdd (mxTy r.fmt) s.1)) (s : PhAcc × Ev) :
      (l.foldl step s).1 = (l.filterMap mul).foldl (phAdd (mxTy r.fmt)) s.1 := by
    induction l generalizing s with
    | nil => rfl
    | cons k l ih =>
      rw [List.foldl_cons, ih, hs, List.filterMap_cons]
      cases mul k <;> rfl
  refine fold _ _ _ (fun s k => ?_) (v, evNone)
  cases phMul (mxTy r.fmt) (elemA r.fmt a (32 * t + mm) k) (elemB x r p k n) <;> rfl

theorem foldl_phAdd (ty : Nat) (l : List Nat) (v : PhAcc) (hn : v.n ≤ 2 ^ 32 - 2) :
    l.foldl (phAdd ty) v = ⟨l.foldl (fun v c => sat47 (v + cosEntry (phIndex ty c))) v.x,
      l.foldl (fun v c => sat47 (v + sinEntry (phIndex ty c))) v.y, min (v.n + l.length) (2 ^ 32 - 2)⟩ := by
  induction l generalizing v with
  | nil =>
    obtain ⟨x, y, n⟩ := v
    exact congrArg (PhAcc.mk x y) (by simp only [List.length_nil]; dsimp only at hn; omega)
  | cons c l ih =>
    rw [List.foldl_cons, ih _ (by simp only [phAdd]; omega)]
    simp only [phAdd, List.foldl_cons, List.length_cons, PhAcc.mk.injEq, true_and]
    omega

theorem sat47_range (v : Int) : -(2 ^ 47) ≤ sat47 v ∧ sat47 v < 2 ^ 47 := by
  unfold sat47
  constructor <;> omega

theorem phAdd_stored (ty : Nat) (v : PhAcc) (c : Nat) : (phAdd ty v c).stored := by
  refine ⟨(sat47_range _).1, (sat47_range _).2, (sat47_range _).1, (sat47_range _).2, ?_⟩
  simp only [phAdd]
  omega

theorem foldl_phAdd_stored (ty : Nat) (l : List Nat) {v : PhAcc} (hv : v.stored) : (l.foldl (phAdd ty) v).stored := by
  induction l generalizing v with
  | nil => exact hv
  | cons c l ih => exact ih (phAdd_stored ty v c)

/-- What a phasor pass writes to an element. -/
def phNew (x0 : Cluster) (e : MxEntry) (p : Nat) (a : Tab Lane32) (apsn : Tab Bool) (q : Nat × Nat × Nat) : PhAcc :=
  let v := x0.phRead (phWord e.rc q.1 q.2.1 q.2.2)
  if v.n = 0xFFFFFFFF then v
  else if rowPoison x0 e p a apsn q.1 q.2.1 || colPoison x0 e.rc p q.2.2 then { v with n := 0xFFFFFFFF }
  else (phElement x0 e.rc p a q.1 q.2.1 q.2.2 v).1

/-- The step of a phasor pass. -/
def phStep (x0 : Cluster) (e : MxEntry) (p : Nat) (a : Tab Lane32) (apsn : Tab Bool) (o : MxOut) (q : Nat × Nat × Nat) : MxOut :=
  let (t, mm, n) := q
  let w := phWord e.rc t mm n
  let v := x0.phRead w
  if v.n = 0xFFFFFFFF then { o with x := o.x.phWrite w v }
  else if rowPoison x0 e p a apsn t mm || colPoison x0 e.rc p n then
    { o with x := o.x.phWrite w { v with n := 0xFFFFFFFF } }
  else
    let y := phElement x0 e.rc p a t mm n v
    { o with x := o.x.phWrite w y.1, ev := o.ev ||| y.2 }

theorem phPass_eq (x0 : Cluster) (e : MxEntry) (p : Nat) (a : Tab Lane32) (apsn : Tab Bool) :
    phPass x0 e p a apsn = (tileElements (recTiles e.rc)).foldl (phStep x0 e p a apsn) { x := x0 } := rfl

theorem phStep_x (x0 : Cluster) (e : MxEntry) (p : Nat) (a : Tab Lane32) (apsn : Tab Bool) (o : MxOut) (q : Nat × Nat × Nat) :
    (phStep x0 e p a apsn o q).x = o.x.phWrite (phWord e.rc q.1 q.2.1 q.2.2) (phNew x0 e p a apsn q) := by
  obtain ⟨t, m, n⟩ := q
  simp only [phStep, phNew]
  split_ifs <;> rfl

theorem phNew_stored (x0 : Cluster) (e : MxEntry) (p : Nat) (a : Tab Lane32) (apsn : Tab Bool) (q : Nat × Nat × Nat) :
    (phNew x0 e p a apsn q).stored := by
  have hv := phRead_stored x0 (phWord e.rc q.1 q.2.1 q.2.2)
  simp only [phNew]
  split
  · exact hv
  · split
    · obtain ⟨hx1, hx2, hy1, hy2, -⟩ := hv
      exact ⟨hx1, hx2, hy1, hy2, by norm_num⟩
    · rw [phElement_eq]
      exact foldl_phAdd_stored _ _ hv

theorem phPass_read (x0 : Cluster) (e : MxEntry) (p : Nat) (a : Tab Lane32) (apsn : Tab Bool) {t m n : Nat} (ht : t < recTiles e.rc)
    (hm : m < 32) (hn : n < 32) : (phPass x0 e p a apsn).x.phRead (phWord e.rc t m n) = phNew x0 e p a apsn (t, m, n) := by
  rw [phPass_eq]
  refine foldl_sets (get := fun o : MxOut => o.x.phRead (phWord e.rc t m n)) (mem_tileElements.mpr ⟨ht, hm, hn⟩) (fun o => ?_)
    (fun q hq hne o => ?_) _
  · rw [phStep_x]
    exact phRead_phWrite (phNew_stored ..) _ _
  · obtain ⟨t', m', n'⟩ := q
    obtain ⟨-, hm', hn'⟩ := mem_tileElements.mp hq
    rw [phStep_x, phRead_phWrite_other]
    simp only [ne_eq, Prod.mk.injEq] at hne
    dsimp only [phWord]
    omega

theorem phPass_frame (x0 : Cluster) (e : MxEntry) (p : Nat) (a : Tab Lane32) (apsn : Tab Bool) {k : Nat}
    (hk : k / 1024 < e.rc.slot ∨ e.rc.slot + 4 * recTiles e.rc ≤ k / 1024) : (phPass x0 e p a apsn).x.accWord k = x0.accWord k := by
  rw [phPass_eq]
  refine (foldl_keeps (get := fun o : MxOut => o.x.accWord k) (fun q hq o => ?_) _).trans rfl
  obtain ⟨t, m, n⟩ := q
  obtain ⟨ht, hm, hn⟩ := mem_tileElements.mp hq
  rw [phStep_x, accWord_phWrite_other]
  dsimp only [phWord]
  omega

/-- An element of a phasor pass, as R247 and R248 give it. -/
theorem phNew_eq (x0 : Cluster) (e : MxEntry) (p : Nat) (a : Tab Lane32) (apsn : Tab Bool) (t m n : Nat) :
    let v := x0.phRead (phWord e.rc t m n)
    let l := phCodes x0 e.rc p a t m n
    phNew x0 e p a apsn (t, m, n) = if v.n = 2 ^ 32 - 1 then v
      else if (rowPoison x0 e p a apsn t m || colPoison x0 e.rc p n) = true then { v with n := 2 ^ 32 - 1 }
      else ⟨l.foldl (fun v c => sat47 (v + cosEntry (phIndex (mxTy e.rc.fmt) c))) v.x,
        l.foldl (fun v c => sat47 (v + sinEntry (phIndex (mxTy e.rc.fmt) c))) v.y, min (v.n + l.length) (2 ^ 32 - 2)⟩ := by
  intro v l
  have hn : v.n < 2 ^ 32 := (phRead_stored x0 (phWord e.rc t m n)).2.2.2.2
  by_cases h : v.n = 2 ^ 32 - 1
  · rw [if_pos h]
    exact if_pos h
  · rw [if_neg h, ← foldl_phAdd _ _ _ (by omega), ← phElement_eq]
    exact if_neg h

/-! ### Accumulator words that lanes write and read -/

/-- The word of a lane's element of column c. -/
def laneElemAt (r : MxRec) (c l j : Nat) : Nat := 1024 * (r.slot + l / 32) + 32 * (l % 32) + c + j

/-- The lanes and columns that a slot word names. -/
def slotCells (run : Word) (n : Nat) : List (Nat × Nat) := (lanesOf run).flatMap fun l => (List.range n).map fun j => (l, j)

theorem mem_slotCells {run : Word} {n l j : Nat} : (l, j) ∈ slotCells run n ↔ (l < 64 ∧ bit run l = true) ∧ j < n := by
  simp only [slotCells, List.mem_flatMap, List.mem_map, List.mem_range, mem_lanesOf, Prod.mk.injEq]
  constructor
  · rintro ⟨l, hb, j, hj, rfl, rfl⟩
    exact ⟨⟨BitVec.lt_of_getLsbD hb, hb⟩, hj⟩
  · rintro ⟨⟨-, hb⟩, hj⟩
    exact ⟨l, hb, j, hj, rfl, rfl⟩

/-- What `mx.wr` leaves. -/
def slotWritten (x : Cluster) (r : MxRec) (c n : Nat) (run : Word) (vals : Tab Lane32) : Cluster :=
  (slotCells run n).foldl (fun x q => x.setAcc (laneElemAt r c q.1 q.2) (vals.getD (4096 * q.1 + q.2) 0).toNat) x

theorem slotWritten_word (x : Cluster) (r : MxRec) {c n : Nat} (hcn : c + n ≤ 32) (run : Word) (vals : Tab Lane32) {l j : Nat} (hl : l < 64)
    (hj : j < n) (hb : bit run l = true) :
    (slotWritten x r c n run vals).accWord (laneElemAt r c l j) = (vals.getD (4096 * l + j) 0).toNat := by
  refine foldl_sets (get := fun y : Cluster => y.accWord (laneElemAt r c l j)) (mem_slotCells.mpr ⟨⟨hl, hb⟩, hj⟩) (fun y => ?_)
    (fun q hq hne y => ?_) _
  · rw [accWord_setAcc, if_pos rfl]
    exact Nat.mod_eq_of_lt (BitVec.isLt _)
  · obtain ⟨l', j'⟩ := q
    obtain ⟨⟨hl', -⟩, hj'⟩ := mem_slotCells.mp hq
    simp only [ne_eq, Prod.mk.injEq] at hne
    dsimp only
    rw [accWord_setAcc, if_neg]
    dsimp only [laneElemAt]
    omega

theorem slotWritten_frame (x : Cluster) (r : MxRec) (c n : Nat) (run : Word) (vals : Tab Lane32) {k : Nat}
    (hk : ∀ l j, l < 64 → j < n → bit run l = true → k ≠ laneElemAt r c l j) : (slotWritten x r c n run vals).accWord k = x.accWord k := by
  refine foldl_keeps (get := fun y : Cluster => y.accWord k) (fun q hq y => ?_) _
  obtain ⟨l, j⟩ := q
  obtain ⟨⟨hl, hb⟩, hj⟩ := mem_slotCells.mp hq
  dsimp only
  rw [accWord_setAcc, if_neg (hk l j hl hj hb)]

/-- The registers after a slot word's values, one for each lane and column. -/
theorem get_slotPuts (f : LaneFile) (run : Word) (n dst : Nat) (v : Nat → Nat → Lane32) (b : Nat → Nat → Bool) (k : Nat) {l : Nat}
    (hl : l < 64) :
    (((slotCells run n).map fun q => (dst + q.2, q.1, v q.1 q.2, b q.1 q.2)).foldl
      (fun (f : LaneFile) (q : Nat × Nat × Lane32 × Bool) => f.put q.1 q.2.1 q.2.2.1 q.2.2.2) f).get k l =
      if bit run l = true ∧ dst ≤ k ∧ k < dst + n then ⟨(v l (k - dst)).zeroExtend 64, b l (k - dst)⟩ else f.get k l := by
  rw [List.foldl_map]
  by_cases h : bit run l = true ∧ dst ≤ k ∧ k < dst + n
  · obtain ⟨hb, h1, h2⟩ := h
    rw [if_pos ⟨hb, h1, h2⟩]
    refine foldl_sets (get := fun f : LaneFile => f.get k l) (q := (l, k - dst)) (mem_slotCells.mpr ⟨⟨hl, hb⟩, by omega⟩) (fun f => ?_)
      (fun q hq hne f => ?_) _
    · dsimp only
      rw [get_put _ _ _ _ _ hl hl, if_pos ⟨rfl, by omega⟩]
    · obtain ⟨l', j'⟩ := q
      obtain ⟨⟨hl', -⟩, -⟩ := mem_slotCells.mp hq
      simp only [ne_eq, Prod.mk.injEq] at hne
      dsimp only
      rw [get_put _ _ _ _ _ hl' hl, if_neg (by omega)]
  · rw [if_neg h]
    refine foldl_keeps (get := fun f : LaneFile => f.get k l) (fun q hq f => ?_) _
    obtain ⟨l', j'⟩ := q
    obtain ⟨⟨hl', hb'⟩, hj'⟩ := mem_slotCells.mp hq
    dsimp only
    rw [get_put _ _ _ _ _ hl' hl, if_neg]
    rintro ⟨rfl, rfl⟩
    exact h ⟨hb', by omega, by omega⟩

/-! ### The kinds of entries -/

theorem grantOut_pass {x : Cluster} {e : MxEntry} {f : MxFmt} {p : Nat} {a : Tab Lane32} {apsn : Tab Bool} (h : e.kind = .pass f p a apsn) :
    grantOut x e = if mxPhasor f then phPass x e p a apsn else fpPass x e p a apsn := by
  rw [grantOut, h]

theorem grantOut_write {x : Cluster} {e : MxEntry} {c n : Nat} {run : Word} {vals : Tab Lane32} (h : e.kind = .write c n run vals) :
    (grantOut x e).x = slotWritten x e.rc c n run vals := by
  rw [grantOut, h, slotWritten, slotCells, List.foldl_flatMap]
  simp only [List.foldl_map]
  rfl

/-- One step of `mx.azero`. -/
def zeroSlot (x : Cluster) (k : Nat) : Cluster :=
  { x with acc := x.acc.zero (4096 * k) (4096 * k + 4096), accBad := x.accBad.filter fun b => b.1 / 1024 ≠ k }

theorem accWord_zeroSlot (x : Cluster) (q k : Nat) : (zeroSlot x q).accWord k = if k / 1024 = q then 0 else x.accWord k := by
  by_cases hk : k / 1024 = q
  · rw [if_pos hk]
    have hz : ∀ i < 4, (zeroSlot x q).acc.byte (4 * k + i) = 0 := fun i hi => by
      refine (Mem.byte_zero ..).trans (if_pos ?_)
      omega
    have h0 := hz 0 (by norm_num)
    have h1 := hz 1 (by norm_num)
    have h2 := hz 2 (by norm_num)
    have h3 := hz 3 (by norm_num)
    simp only [Cluster.accWord, Mem.num, Mem.read, List.range, List.range.loop, List.map_cons, List.map_nil, leNat, h0, h1, h2, h3]
    rfl
  · rw [if_neg hk]
    refine accWord_congr fun b hb => (Mem.byte_zero ..).trans (if_neg ?_)
    omega

theorem grantOut_zero {x : Cluster} {e : MxEntry} (h : e.kind = .zero) : (grantOut x e).x = (recSlots e.rc).foldl zeroSlot x := by
  rw [grantOut, h]
  rfl

theorem mem_recSlots {r : MxRec} {k : Nat} : k ∈ recSlots r ↔ r.slot ≤ k ∧ k < r.slot + recHeld r := by
  simp only [recSlots, runFrom, List.mem_map, List.mem_range]
  constructor
  · rintro ⟨i, hi, rfl⟩
    omega
  · intro h
    exact ⟨k - r.slot, by omega, by omega⟩

theorem accWord_zeroSlots (x : Cluster) (r : MxRec) (k : Nat) : ((recSlots r).foldl zeroSlot x).accWord k =
    if r.slot ≤ k / 1024 ∧ k / 1024 < r.slot + recHeld r then 0 else x.accWord k := by
  by_cases h : r.slot ≤ k / 1024 ∧ k / 1024 < r.slot + recHeld r
  · rw [if_pos h]
    refine foldl_sets (get := fun y : Cluster => y.accWord k) (mem_recSlots.mpr h) (fun y => ?_) (fun q _ hne y => ?_) x
    · rw [accWord_zeroSlot, if_pos rfl]
    · rw [accWord_zeroSlot, if_neg (Ne.symm hne)]
  · rw [if_neg h]
    refine foldl_keeps (get := fun y : Cluster => y.accWord k) (fun q hq y => ?_) x
    rw [accWord_zeroSlot, if_neg fun hk : k / 1024 = q => h (hk ▸ mem_recSlots.mp hq)]

/-- What `mx.rd` reads at a lane and column. -/
def readGot (x : Cluster) (e : MxEntry) (c l j : Nat) : Nat × Bool := readAcc x e.prc (laneElemAt e.rc c l j)

theorem slotValues_read {x : Cluster} {e : MxEntry} {dst c n : Nat} {run : Word} (h : e.kind = .read dst c n run) :
    slotValues x e = ((slotCells run n).map fun q => (dst + q.2, q.1, BitVec.ofNat 32 (readGot x e c q.1 q.2).1, false), evNone,
      (slotCells run n).any fun q => (readGot x e c q.1 q.2).2) := by
  rw [slotValues, h]
  simp only [slotCells, List.map_flatMap, List.map_map, List.any_flatMap, List.any_map, Function.comp_def]
  rfl

/-- What `mx.resolve` reads at a lane and column. -/
def resolveGot (x : Cluster) (e : MxEntry) (c l j : Nat) : PhAcc :=
  x.phRead (1024 * e.rc.slot + 4096 * (l / 32) + 4 * (32 * (l % 32) + c + j))

theorem resolveGot_eq (x : Cluster) (e : MxEntry) (c l j : Nat) :
    x.phRead (phWord e.rc (l / 32) (l % 32) (c + j)) = resolveGot x e c l j := by
  rw [resolveGot, phWord, Nat.add_assoc (32 * (l % 32)) c j]

/-- The value and the side bit that `mx.resolve` writes for an element. -/
def resolvedLane (e : MxEntry) (ty : Nat) (v : PhAcc) : Lane32 × Bool :=
  if v.n == 0xFFFFFFFF then (if e.prc then 0 else BitVec.ofNat 32 (phUndef ty), e.prc)
  else (BitVec.ofNat 32 (phPack ty (phResolve ty v.x v.y v.n)), false)

theorem slotValues_resolve {x : Cluster} {e : MxEntry} {ty dst c n : Nat} {run : Word} (h : e.kind = .resolve ty dst c n run) :
    (slotValues x e).1 = ((slotCells run n).map fun q => (dst + q.2, q.1, (resolvedLane e ty (resolveGot x e c q.1 q.2)).1,
        (resolvedLane e ty (resolveGot x e c q.1 q.2)).2)) ∧
      (slotValues x e).2.2 = (!e.prc && (slotCells run n).any fun q => (resolveGot x e c q.1 q.2).n == 0xFFFFFFFF) := by
  have hout (v : PhAcc) (r l : Nat) : (if v.n == 0xFFFFFFFF then (r, l, if e.prc then 0 else BitVec.ofNat 32 (phUndef ty), e.prc)
      else (r, l, BitVec.ofNat 32 (phPack ty (phResolve ty v.x v.y v.n)), false)) = (r, l, (resolvedLane e ty v).1, (resolvedLane e ty v).2) := by
    unfold resolvedLane
    split <;> rfl
  rw [slotValues, h]
  refine ⟨?_, ?_⟩
  · simp only [slotCells, List.map_flatMap, List.map_map, Function.comp_def, hout, resolveGot_eq]
  · simp only [slotCells, List.any_flatMap, List.any_map, Function.comp_def, resolveGot_eq]

end Sys2Proof.Machine
end


section
/-!
## The matrix arbiter (R246 to R254)
-/

namespace Sys2Proof.Machine

/-! ### The choice (R251, R252) -/

/-- An entry that the arbiter may grant, and one that stands before another. -/
def MxEligible (table : List MxEntry) (e : MxEntry) : Prop := e ∈ table ∧ e.running = false ∧ e.loads = [] ∧
  ∀ o ∈ table.takeWhile fun o => o.id ≠ e.id, ∀ k ∈ recSlots o.rc, k ∉ recSlots e.rc

def MxBefore (table : List MxEntry) (a b : MxEntry) : Prop := a ∈ table.takeWhile fun o => o.id ≠ b.id

theorem mem_eligibleEntries {table : List MxEntry} {e : MxEntry} : e ∈ eligibleEntries table ↔ MxEligible table e := by
  simp only [eligibleEntries, entryEligible, MxEligible, List.mem_filter, Bool.and_eq_true, Bool.not_eq_true', List.isEmpty_iff,
    List.all_eq_true, List.any_eq_false, List.contains_iff_mem, MxEntry.slots, and_assoc]

theorem MxBefore.asymm {table : List MxEntry} {a b : MxEntry} (h : MxBefore table a b) : ¬ MxBefore table b a := by
  unfold MxBefore at *
  induction table with
  | nil => simp at h
  | cons y table ih =>
    rw [List.takeWhile_cons] at h ⊢
    by_cases hb : y.id = b.id
    · simp [hb] at h
    · by_cases ha : y.id = a.id
      · simp [ha]
      · simp only [ne_eq, hb, ha, not_false_eq_true, decide_true, ↓reduceIte, List.mem_cons] at h ⊢
        rintro (rfl | hb')
        · exact hb rfl
        · rcases h with rfl | h
          · exact ha rfl
          · exact ih h hb'

/-- A table around one of its entries. -/
theorem table_split {table : List MxEntry} {e : MxEntry} (he : e ∈ table) (hd : (table.map (·.id)).Nodup) :
    ∃ post, table = table.takeWhile (fun o => o.id ≠ e.id) ++ e :: post := by
  induction table with
  | nil => simp at he
  | cons y table ih =>
    rw [List.map_cons, List.nodup_cons] at hd
    rw [List.takeWhile_cons]
    by_cases hy : y.id = e.id
    · have : e = y := by
        rcases List.mem_cons.mp he with h | h
        · exact h
        · exact absurd (List.mem_map.mpr ⟨e, h, hy.symm⟩) hd.1
      subst this
      exact ⟨table, by simp⟩
    · have hmem : e ∈ table := by
        rcases List.mem_cons.mp he with rfl | h
        · exact absurd rfl hy
        · exact h
      obtain ⟨post, hp⟩ := ih hmem hd.2
      refine ⟨post, ?_⟩
      simp only [ne_eq, hy, not_false_eq_true, decide_true, ↓reduceIte, List.cons_append, List.cons.injEq, true_and]
      exact hp

/-- The pick by priority keeps the first of the highest. -/
def betterPrio (best : Option MxEntry) (e : MxEntry) : Option MxEntry :=
  match best with
  | none => some e
  | some b => if b.prio < e.prio then some e else some b

theorem foldl_betterPrio_below {l : List MxEntry} {e : MxEntry} (h : ∀ o ∈ l, o.prio < e.prio) :
    betterPrio (l.foldl betterPrio none) e = some e := by
  have bound : ∀ (l : List MxEntry) (b : Option MxEntry), (∀ o ∈ l, o.prio < e.prio) → (∀ x, b = some x → x.prio < e.prio) →
      ∀ x, l.foldl betterPrio b = some x → x.prio < e.prio := by
    intro l
    induction l with
    | nil => exact fun b _ hb => hb
    | cons o l ih =>
      intro b hl hb
      refine ih _ (fun o ho => hl o (List.mem_cons_of_mem _ ho)) fun x hx => ?_
      have ho := hl o (List.mem_cons_self ..)
      cases b with
      | none =>
        obtain rfl : o = x := Option.some.inj hx
        exact ho
      | some y =>
        have hy := hb y rfl
        simp only [betterPrio] at hx
        split at hx <;> cases hx <;> assumption
  cases hc : l.foldl betterPrio none with
  | none => rfl
  | some b =>
    have := bound l none h (fun x hx => nomatch hx) b hc
    exact if_pos this

theorem foldl_betterPrio_kept {l : List MxEntry} {e : MxEntry} (h : ∀ o ∈ l, o.prio ≤ e.prio) : l.foldl betterPrio (some e) = some e := by
  induction l with
  | nil => rfl
  | cons o l ih =>
    have ho := h o (List.mem_cons_self ..)
    have hstep : betterPrio (some e) o = some e := if_neg (by omega)
    rw [List.foldl_cons, hstep]
    exact ih fun o ho => h o (List.mem_cons_of_mem _ ho)

theorem grantPick_eq (l : List MxEntry) : grantPick l = ((l.find? fun e => decide (32 ≤ e.passed)).or (l.foldl betterPrio none)) := by
  rw [grantPick]
  cases l.find? fun e => decide (32 ≤ e.passed) <;> rfl

/-- A grant's choice among a list: the first raised, or the first of the highest priority. -/
theorem grantPick_around {pre post : List MxEntry} {e : MxEntry}
    (h : (32 ≤ e.passed ∧ ∀ o ∈ pre, o.passed < 32) ∨
      ((∀ o ∈ pre ++ e :: post, o.passed < 32) ∧ (∀ o ∈ pre, o.prio < e.prio) ∧ ∀ o ∈ post, o.prio ≤ e.prio)) :
    grantPick (pre ++ e :: post) = some e := by
  rw [grantPick_eq]
  rcases h with ⟨he, hpre⟩ | ⟨hall, hpre, hpost⟩
  · have hnone : pre.find? (fun e => decide (32 ≤ e.passed)) = none := by
      rw [List.find?_eq_none]
      intro o ho
      have := hpre o ho
      simp only [decide_eq_true_eq]
      omega
    rw [List.find?_append, hnone, List.find?_cons_of_pos (by simpa using he)]
    rfl
  · have hnone : (pre ++ e :: post).find? (fun e => decide (32 ≤ e.passed)) = none := by
      rw [List.find?_eq_none]
      intro o ho
      have := hall o ho
      simp only [decide_eq_true_eq]
      omega
    rw [hnone, List.foldl_append, List.foldl_cons, foldl_betterPrio_below hpre, foldl_betterPrio_kept hpost]
    rfl

theorem grantPick_eligible {table : List MxEntry} {e : MxEntry} (hd : (table.map (·.id)).Nodup) (he : MxEligible table e)
    (h : (32 ≤ e.passed ∧ ∀ o, MxEligible table o → 32 ≤ o.passed → o = e ∨ MxBefore table e o) ∨
      ((∀ o, MxEligible table o → o.passed < 32) ∧
        ∀ o, MxEligible table o → o.prio < e.prio ∨ (o.prio = e.prio ∧ (o = e ∨ MxBefore table e o)))) :
    grantPick (eligibleEntries table) = some e := by
  obtain ⟨post, hsplit⟩ := table_split he.1 hd
  set p : MxEntry → Bool := fun e => entryEligible (table.takeWhile fun o => o.id ≠ e.id) e with hp
  set pre := table.takeWhile (fun o => o.id ≠ e.id) with hpre
  have hel : eligibleEntries table = pre.filter p ++ e :: post.filter p := by
    have h1 : eligibleEntries table = table.filter p := rfl
    have h2 : p e = true := (List.mem_filter.mp (h1 ▸ mem_eligibleEntries.mpr he)).2
    rw [h1, hsplit, List.filter_append, List.filter_cons_of_pos h2]
  have before : ∀ o ∈ pre.filter p, MxEligible table o ∧ ¬ (o = e ∨ MxBefore table e o) := by
    intro o ho
    have hb : MxBefore table o e := (List.mem_filter.mp ho).1
    refine ⟨mem_eligibleEntries.mp (by rw [hel]; exact List.mem_append_left _ ho), ?_⟩
    rintro (rfl | h')
    · exact hb.asymm hb
    · exact hb.asymm h'
  have after : ∀ o ∈ pre.filter p ++ e :: post.filter p, MxEligible table o := fun o ho => mem_eligibleEntries.mp (hel ▸ ho)
  rw [hel]
  refine grantPick_around (h.imp ?_ ?_)
  · rintro ⟨h32, hfirst⟩
    refine ⟨h32, fun o ho => ?_⟩
    obtain ⟨hoe, hno⟩ := before o ho
    exact Nat.lt_of_not_le fun hle => hno (hfirst o hoe hle)
  · rintro ⟨hlow, hprio⟩
    refine ⟨fun o ho => hlow o (after o ho), fun o ho => ?_, fun o ho => ?_⟩
    · obtain ⟨hoe, hno⟩ := before o ho
      exact (hprio o hoe).resolve_right fun h => hno h.2
    · have := hprio o (after o (List.mem_append_right _ (List.mem_cons_of_mem _ ho)))
      omega

/-! ### A grant -/

/-- The table after a grant. -/
def grantTable (table : List MxEntry) (e : MxEntry) : List MxEntry := table.map fun (y : MxEntry) =>
  if y.id = e.id then { y with running := true }
  else if (eligibleEntries table).any fun z => z.id == y.id then { y with passed := y.passed + 1 } else y

/-- The machine after a grant, its events not yet counted. -/
def granted (cl : Nat) (e : MxEntry) (m : Mach) : Mach :=
  let x := m.d.cluster cl
  let o := grantOut x e
  let vals := (slotValues x e).1
  let d := m.d.setCluster cl { o.x with table := grantTable x.table e }
  let m : Mach := { m with d := if o.used then consume d e.ctx 3 else d }
  if vals.isEmpty then m else m.onPair e.gid fun g =>
    { g with lanes := vals.foldl (fun f q => f.put q.1 q.2.1 q.2.2.1 q.2.2.2) g.lanes }

theorem arbiterGrant_some {cl : Nat} {m : Mach} {e : MxEntry} (h : grantPick (eligibleEntries (m.d.cluster cl).table) = some e) :
    arbiterGrant cl m = (granted cl e m).engineEvents e.gid e.ctx .mx e.flight (grantOut (m.d.cluster cl) e).ev := by
  rw [arbiterGrant]
  dsimp only
  rw [h]
  rfl

theorem granted_dev (cl : Nat) (e : MxEntry) (m : Mach) : ∃ x gs, (granted cl e m).d =
    { m.d.setCluster cl { (grantOut (m.d.cluster cl) e).x with table := grantTable (m.d.cluster cl).table e } with
      ctxs := x, groups := gs } := by
  have hc (d : Dev) (b : Bool) : ∃ x, (if b then consume d e.ctx 3 else d) = { d with ctxs := x } := by
    cases b
    · exact ⟨d.ctxs, rfl⟩
    · exact ⟨_, rfl⟩
  unfold granted
  dsimp only
  obtain ⟨x, hx⟩ := hc (m.d.setCluster cl { (grantOut (m.d.cluster cl) e).x with table := grantTable (m.d.cluster cl).table e })
    (grantOut (m.d.cluster cl) e).used
  rw [hx]
  split
  · exact ⟨x, m.d.groups, rfl⟩
  · obtain ⟨gs, hgs⟩ := onPair_dev _ e.gid fun g =>
      { g with lanes := (slotValues (m.d.cluster cl) e).1.foldl (fun f q => f.put q.1 q.2.1 q.2.2.1 q.2.2.2) g.lanes }
    exact ⟨x, gs, hgs⟩

theorem arbiterGrant_dev {cl : Nat} {m : Mach} {e : MxEntry} (h : grantPick (eligibleEntries (m.d.cluster cl).table) = some e) :
    (arbiterGrant cl m).d.cluster cl = { (grantOut (m.d.cluster cl) e).x with table := grantTable (m.d.cluster cl).table e } ∧
      (arbiterGrant cl m).d.mem = m.d.mem ∧ (arbiterGrant cl m).d.pkg.asking = m.d.pkg.asking := by
  rw [arbiterGrant_some h]
  obtain ⟨x, ev, gs, he⟩ := engineEvents_dev (granted cl e m) e.gid e.ctx .mx e.flight (grantOut (m.d.cluster cl) e).ev
  obtain ⟨x', gs', hg⟩ := granted_dev cl e m
  rw [he, hg]
  exact ⟨Dev.cluster_setCluster m.d cl _, rfl, rfl⟩

theorem exec_arbiterGrant (cl : Nat) (s : State) : exec (.arbiterGrant cl) s = act (fun _ m => arbiterGrant cl m) s := rfl

theorem exec_mxEntryComplete (cl op : Nat) (s : State) : exec (.mxEntryComplete cl op) s = act (fun _ m => mxEntryComplete cl op m) s := rfl

theorem arbiterGrant_idles {cl : Nat} {s : State} (h : ∀ e, ¬ MxEligible (s.dev.cluster cl).table e) : idles (.arbiterGrant cl) s := by
  refine act_idles (exec_arbiterGrant cl s) ?_
  have hnil : eligibleEntries (s.mach.d.cluster cl).table = [] :=
    List.eq_nil_iff_forall_not_mem.mpr fun e he => h e (mem_eligibleEntries.mp he)
  rw [arbiterGrant]
  dsimp only
  rw [hnil]
  rfl

theorem grantTable_ids (table : List MxEntry) (e : MxEntry) : (grantTable table e).map (·.id) = table.map (·.id) := by
  rw [grantTable, List.map_map]
  refine List.map_congr_left fun y _ => ?_
  dsimp only [Function.comp]
  split_ifs <;> rfl

theorem entry_eq_of_id {table : List MxEntry} (hd : (table.map (·.id)).Nodup) {a b : MxEntry} (ha : a ∈ table) (hb : b ∈ table)
    (h : a.id = b.id) : a = b := List.inj_on_of_nodup_map hd ha hb h

theorem grantTable_entry {table : List MxEntry} {e : MxEntry} (hd : (table.map (·.id)).Nodup) {o : MxEntry} (ho : o ∈ grantTable table e) :
    (o.running = true ↔ o.id = e.id ∨ ∃ x ∈ table, x.id = o.id ∧ x.running = true) ∧
      (o.id ≠ e.id → ∀ x, MxEligible table x → x.id = o.id → o.passed = x.passed + 1) := by
  obtain ⟨y, hy, rfl⟩ := List.mem_map.mp ho
  by_cases hid : y.id = e.id
  · rw [if_pos hid]
    exact ⟨⟨fun _ => .inl hid, fun _ => rfl⟩, fun hne => absurd hid hne⟩
  · have hrun (z : MxEntry) (hz : z.id = y.id) (hr : z.running = y.running) :
        z.running = true ↔ z.id = e.id ∨ ∃ x ∈ table, x.id = z.id ∧ x.running = true := by
      constructor
      · exact fun h => .inr ⟨y, hy, hz.symm, hr ▸ h⟩
      · rintro (h | ⟨x, hx, hxid, hxr⟩)
        · exact absurd (hz.symm.trans h) hid
        · rw [hr, ← entry_eq_of_id hd hx hy (hxid.trans hz)]
          exact hxr
    rw [if_neg hid]
    by_cases hany : ((eligibleEntries table).any fun z => z.id == y.id) = true
    · rw [if_pos hany]
      refine ⟨hrun _ rfl rfl, fun _ x hx hxid => ?_⟩
      rw [entry_eq_of_id hd hx.1 hy hxid]
    · rw [if_neg hany]
      refine ⟨hrun _ rfl rfl, fun _ x hx hxid => absurd ?_ hany⟩
      exact List.any_eq_true.mpr ⟨x, mem_eligibleEntries.mpr hx, beq_iff_eq.mpr hxid⟩

/-- R251, R252, R254. -/
theorem arbiterChoice : Claims.ArbiterChoice := by
  intro s cl table hd eligible before
  refine ⟨fun h => arbiterGrant_idles h, fun e he h => ?_⟩
  have hpick := grantPick_eligible hd he h
  obtain ⟨hcl, -, hask⟩ := arbiterGrant_dev (m := s.mach) hpick
  refine act_leads (exec_arbiterGrant cl s) hask ?_
  rw [State.put_dev, hcl]
  exact ⟨grantTable_ids _ e, fun o ho => grantTable_entry hd ho⟩

/-! ### The grant of the only entry of a table -/

/-- The hypotheses of a grant: one entry, of the group whose turn it is. -/
structure OnlyEntry (s : State) (cl : Nat) (e : MxEntry) : Prop where
  table : (s.dev.cluster cl).table = [e]
  loads : e.loads = []
  quiet : (s.dev.ctx e.ctx).quiet
  gid : e.gid = s.grp.gid
  live : s.grp.live = true
  single : s.grp.dual = false

theorem onPair_single {m : Mach} {gid : Nat} (hg : gid = m.g.gid) (hl : m.g.live = true) (hd : m.g.dual = false) (f : Group → Group) :
    m.onPair gid f = { m with g := f m.g } := by
  subst hg
  have ht : (if m.g.shadow then none else (m.onGid m.g.gid f).twin m.g) = none := by
    rw [Mach.twin, hd]
    split <;> rfl
  have ho : m.onGid m.g.gid f = { m with g := f m.g } := if_pos (by simp [hl])
  unfold Mach.onPair
  rw [group?_turn hl]
  dsimp only
  rw [ht, ho]

theorem engineEvents_quiet {m : Mach} {ctx : Nat} (hq : (m.d.ctx ctx).quiet) (gid : Nat) (p : Path) (id : Nat) (ev : Ev) :
    m.engineEvents gid ctx p id ev = { m with d := (countEvents m.d ctx (onceEach ev)).1 } := by
  have h := (countEvents_quiet (onceEach ev) hq).1
  unfold Mach.engineEvents
  dsimp only
  rw [h]
  split
  · next hc => exact absurd hc (by simp)
  · rfl

/-- The registers after the values of a slot word. -/
def slotPuts (f : LaneFile) (vals : List (Nat × Nat × Lane32 × Bool)) : LaneFile :=
  vals.foldl (fun f q => f.put q.1 q.2.1 q.2.2.1 q.2.2.2) f

theorem granted_only {s : State} {cl : Nat} {e : MxEntry} (h : OnlyEntry s cl e) :
    (granted cl e s.mach).g = { s.grp with lanes := slotPuts s.grp.lanes (slotValues (s.dev.cluster cl) e).1 } ∧
      ((granted cl e s.mach).d.ctx e.ctx).quiet ∧
      ((grantOut (s.dev.cluster cl) e).used = true → ((granted cl e s.mach).d.ctx e.ctx).psn = true) := by
  have hdev (d : Dev) (hd : (d.ctx e.ctx).quiet) (b : Bool) : ((if b then consume d e.ctx 3 else d).ctx e.ctx).quiet ∧
      (b = true → ((if b then consume d e.ctx 3 else d).ctx e.ctx).psn = true) := by
    cases b
    · exact ⟨hd, fun h => nomatch h⟩
    · rw [if_pos rfl, consume, Dev.ctx_setCtx]
      exact ⟨Ctx.quiet_of rfl hd, fun _ => rfl⟩
  obtain ⟨hq, hp⟩ := hdev (s.dev.setCluster cl { (grantOut (s.dev.cluster cl) e).x with table := grantTable (s.dev.cluster cl).table e })
    h.quiet (grantOut (s.dev.cluster cl) e).used
  unfold granted
  dsimp only
  split
  · next hv =>
    refine ⟨?_, hq, hp⟩
    rw [show (slotValues (s.dev.cluster cl) e).1 = [] from List.isEmpty_iff.mp hv]
    rfl
  · rw [onPair_single (m := ⟨s.mach.g, _⟩) h.gid h.live h.single]
    exact ⟨rfl, hq, hp⟩

theorem grantPick_only {s : State} {cl : Nat} {e : MxEntry} (h : OnlyEntry s cl e) (hr : e.running = false) :
    grantPick (eligibleEntries (s.dev.cluster cl).table) = some e := by
  rw [h.table]
  have hel : MxEligible [e] e := by
    refine ⟨List.mem_singleton.mpr rfl, hr, h.loads, fun o ho => ?_⟩
    simp at ho
  have honly (o : MxEntry) (ho : MxEligible [e] o) : o = e := List.mem_singleton.mp ho.1
  refine grantPick_eligible (by simp) hel ?_
  by_cases h32 : 32 ≤ e.passed
  · exact .inl ⟨h32, fun o ho _ => .inl (honly o ho)⟩
  · refine .inr ⟨fun o ho => ?_, fun o ho => .inr ?_⟩
    · rw [honly o ho]
      omega
    · rw [honly o ho]
      exact ⟨rfl, .inl rfl⟩

/-- What a grant of the only entry leaves. -/
structure Granted (s t : State) (cl : Nat) (e : MxEntry) : Prop where
  mem : t.dev.mem = s.dev.mem
  scalars : t.grp.s = s.grp.s
  lanes : t.grp.lanes = slotPuts s.grp.lanes (slotValues (s.dev.cluster cl) e).1
  acc : (t.dev.cluster cl).acc = (grantOut (s.dev.cluster cl) e).x.acc
  accBad : (t.dev.cluster cl).accBad = (grantOut (s.dev.cluster cl) e).x.accBad
  psn : (grantOut (s.dev.cluster cl) e).used = true → (t.dev.ctx e.ctx).psn = true

theorem arbiterGrant_only {s : State} {cl : Nat} {e : MxEntry} (h : OnlyEntry s cl e) (hr : e.running = false) :
    leads (.arbiterGrant cl) s fun t => Granted s t cl e := by
  have hpick : grantPick (eligibleEntries (s.mach.d.cluster cl).table) = some e := grantPick_only h hr
  obtain ⟨hcl, hmem, hask⟩ := arbiterGrant_dev hpick
  obtain ⟨hg, hq, hp⟩ := granted_only h
  have hev := engineEvents_quiet hq e.gid .mx e.flight (grantOut (s.dev.cluster cl) e).ev
  have hgrp : (arbiterGrant cl s.mach).g = { s.grp with lanes := slotPuts s.grp.lanes (slotValues (s.dev.cluster cl) e).1 } :=
    (congrArg Mach.g ((arbiterGrant_some hpick).trans hev)).trans hg
  have hdev := congrArg Mach.d ((arbiterGrant_some hpick).trans hev)
  refine act_leads (exec_arbiterGrant cl s) hask ⟨hmem, ?_, ?_, ?_, ?_, fun hu => ?_⟩
  · rw [State.put_grp, hgrp]
  · rw [State.put_grp, hgrp]
  · rw [State.put_dev, hcl]
    rfl
  · rw [State.put_dev, hcl]
    rfl
  · rw [State.put_dev, hdev]
    exact (countEvents_psn _ _ _).1.trans (hp hu)

theorem Granted.word {s t : State} {cl : Nat} {e : MxEntry} (h : Granted s t cl e) (k : Nat) :
    (t.dev.cluster cl).accWord k = (grantOut (s.dev.cluster cl) e).x.accWord k :=
  accWord_congr fun b _ => by rw [h.acc]

theorem Granted.phRead {s t : State} {cl : Nat} {e : MxEntry} (h : Granted s t cl e) (k : Nat) :
    (t.dev.cluster cl).phRead k = (grantOut (s.dev.cluster cl) e).x.phRead k := by
  simp only [phRead_eq, h.word, h.accBad]

/-- The registers that a slot word's values write. -/
theorem Granted.lane {s t : State} {cl : Nat} {e : MxEntry} (h : Granted s t cl e) {run : Word} {n dst : Nat} {v : Nat → Nat → Lane32}
    {b : Nat → Nat → Bool} (hv : (slotValues (s.dev.cluster cl) e).1 = (slotCells run n).map fun q => (dst + q.2, q.1, v q.1 q.2, b q.1 q.2))
    {l k : Nat} (hl : l < 64) : t.grp.lanes.get k l =
      if bit run l = true ∧ dst ≤ k ∧ k < dst + n then ⟨(v l (k - dst)).zeroExtend 64, b l (k - dst)⟩ else s.grp.lanes.get k l := by
  rw [h.lanes, hv]
  exact get_slotPuts _ run n dst v b k hl

theorem zeroExtend_ofNat32 (v : Nat) : (BitVec.ofNat 32 v).zeroExtend 64 = BitVec.ofNat 64 (v % 2 ^ 32) := by
  refine BitVec.eq_of_toNat_eq ?_
  simp only [BitVec.truncate_eq_setWidth, BitVec.toNat_setWidth, BitVec.toNat_ofNat]

theorem any_slotCells {run : Word} {n : Nat} {p : Nat → Nat → Bool} (h : ∃ l j, l < 64 ∧ bit run l = true ∧ j < n ∧ p l j = true) :
    ((slotCells run n).any fun q => p q.1 q.2) = true := by
  obtain ⟨l, j, hl, hb, hj, hp⟩ := h
  exact List.any_eq_true.mpr ⟨(l, j), mem_slotCells.mpr ⟨⟨hl, hb⟩, hj⟩, hp⟩

theorem phBits_le (ty : Nat) : phBits ty ≤ 15 := by
  unfold phBits
  split <;> omega

theorem phUndef_lt (ty : Nat) : phUndef ty < 2 ^ 32 :=
  (Nat.pow_le_pow_right (by norm_num) (phBits_le ty)).trans_lt (by norm_num)

theorem phResolve_lt {ty : Nat} {x y : Int} {n a c : Nat} (h : phResolve ty x y n = some (a, c)) : a < 2 ^ phBits ty ∧ c ≤ 0xFFFF := by
  unfold phResolve at h
  split at h
  · cases h
  · simp only [Option.some.injEq, Prod.mk.injEq] at h
    obtain ⟨rfl, rfl⟩ := h
    exact ⟨Nat.mod_lt _ (by positivity), Nat.min_le_left ..⟩

theorem phPack_lt (ty : Nat) (x y : Int) (n : Nat) : phPack ty (phResolve ty x y n) < 2 ^ 32 := by
  cases h : phResolve ty x y n with
  | none => exact phUndef_lt ty
  | some r =>
    obtain ⟨a, c⟩ := r
    obtain ⟨ha, hc⟩ := phResolve_lt h
    have hb : 2 ^ phBits ty ≤ 2 ^ 15 := Nat.pow_le_pow_right (by norm_num) (phBits_le ty)
    simp only [phPack]
    omega

/-- The value of `mx.resolve` in a register. -/
theorem resolvedLane_opnd (e : MxEntry) (ty : Nat) (v : PhAcc) :
    (⟨(resolvedLane e ty v).1.zeroExtend 64, (resolvedLane e ty v).2⟩ : Opnd) =
      if v.n = 2 ^ 32 - 1 then ⟨if e.prc then 0 else BitVec.ofNat 64 (phUndef ty), e.prc⟩
      else ⟨BitVec.ofNat 64 (phPack ty (phResolve ty v.x v.y v.n)), false⟩ := by
  unfold resolvedLane
  by_cases hn : v.n = 2 ^ 32 - 1
  · have hb : (v.n == 0xFFFFFFFF) = true := beq_iff_eq.mpr hn
    rw [if_pos hn, if_pos hb]
    cases e.prc
    · refine congrArg (Opnd.mk · false) ?_
      exact (zeroExtend_ofNat32 _).trans (by rw [Nat.mod_eq_of_lt (phUndef_lt ty)]; rfl)
    · rfl
  · have hb : ¬ (v.n == 0xFFFFFFFF) = true := fun h => hn (beq_iff_eq.mp h)
    rw [if_neg hn, if_neg hb, zeroExtend_ofNat32, Nat.mod_eq_of_lt (phPack_lt ..)]

theorem grantOut_read {x : Cluster} {e : MxEntry} {dst c n : Nat} {run : Word} (h : e.kind = .read dst c n run) :
    (grantOut x e).x = x ∧ (grantOut x e).used = (slotValues x e).2.2 := by
  rw [grantOut, h]
  exact ⟨rfl, rfl⟩

theorem grantOut_resolve {x : Cluster} {e : MxEntry} {ty dst c n : Nat} {run : Word} (h : e.kind = .resolve ty dst c n run) :
    (grantOut x e).x = x ∧ (grantOut x e).used = (slotValues x e).2.2 := by
  rw [grantOut, h]
  exact ⟨rfl, rfl⟩

theorem fp32_poisonBits : fp32.poisonBits = 0x7FD00000 := by decide

/-! ### The end of an entry -/

theorem mxEntryComplete_running {cl : Nat} {m : Mach} {e : MxEntry} (ht : (m.d.cluster cl).table = [e]) (hr : e.running = true) :
    mxEntryComplete cl e.id m =
      ({ m with d := m.d.setCluster cl { m.d.cluster cl with table := [] } } : Mach).finishOp e.gid .mx e.flight 0 := by
  unfold mxEntryComplete
  simp [ht, hr]

theorem mxEntryComplete_idle {cl : Nat} {m : Mach} {e : MxEntry} (ht : (m.d.cluster cl).table = [e]) (hr : e.running = false) :
    mxEntryComplete cl e.id m = m := by
  unfold mxEntryComplete
  simp [ht, hr]

theorem entryComplete_leads {s : State} {cl : Nat} {e : MxEntry} (h : OnlyEntry s cl e) (hr : e.running = true)
    (hf : firstOn s.grp .mx e.flight) : leads (.mxEntryComplete cl e.id) s fun t =>
      (t.dev.cluster cl).table = [] ∧ counterFalls s t e.gid .mx ∧ t.dev.mem = s.dev.mem := by
  have heq := mxEntryComplete_running (m := s.mach) h.table hr
  set m : Mach := { s.mach with d := s.dev.setCluster cl { s.dev.cluster cl with table := [] } } with hm
  have hg : m.group? e.gid = some s.grp := by
    rw [h.gid]
    exact group?_turn (m := m) h.live
  obtain ⟨gs, hdev⟩ := finishOp_dev m e.gid .mx e.flight 0
  obtain ⟨g', hg', hlt⟩ := finishOp_falls hg hf 0
  have hs : s.mach.group? e.gid = some s.grp := by
    rw [h.gid]
    exact group?_turn (m := s.mach) h.live
  have hd : (mxEntryComplete cl e.id s.mach).d = { m.d with groups := gs } := (congrArg Mach.d heq).trans hdev
  refine act_leads (exec_mxEntryComplete cl e.id s) (by rw [hd]; rfl) ⟨?_, ⟨s.grp, g', hs, ?_, hlt⟩, ?_⟩
  · rw [State.put_dev, hd]
    exact congrArg Cluster.table (Dev.cluster_setCluster s.dev cl _)
  · rw [State.put_mach]
    exact (congrArg (fun m : Mach => m.group? e.gid) heq).trans hg'
  · rw [State.put_dev, hd]
    rfl

theorem entryComplete_idles {s : State} {cl : Nat} {e : MxEntry} (ht : (s.dev.cluster cl).table = [e]) (hr : e.running = false) :
    idles (.mxEntryComplete cl e.id) s :=
  act_idles (exec_mxEntryComplete cl e.id s) (mxEntryComplete_idle (m := s.mach) ht hr)

/-! ### What each kind of entry leaves -/

theorem sat47_eq (v : Int) : sat47 v = max (-(2 ^ 47 - 1)) (min v (2 ^ 47 - 1)) := by
  norm_num [sat47]

section
variable {s t : State} {cl : Nat} {e : MxEntry} (h : Granted s t cl e)
include h

theorem Granted.zeroed (hk : e.kind = .zero) (k : Nat) : (t.dev.cluster cl).accWord k =
    if e.rc.slot ≤ k / 1024 ∧ k / 1024 < e.rc.slot + recHeld e.rc then 0 else (s.dev.cluster cl).accWord k :=
  (h.word k).trans ((congrArg (fun y : Cluster => y.accWord k) (grantOut_zero hk)).trans (accWord_zeroSlots _ e.rc k))

theorem Granted.fpElement {fmt : MxFmt} {p : Nat} {a : Tab Lane32} {psn : Tab Bool} (hk : e.kind = .pass fmt p a psn)
    (hf : mxPhasor fmt = false) {tt m n : Nat} (htt : tt < recTiles e.rc) (hm : m < 32) (hn : n < 32) :
    (t.dev.cluster cl).accWord (fpWord e.rc (tt, m, n)) = fpNew (s.dev.cluster cl) e p a psn (tt, m, n) % 2 ^ 32 := by
  have hout : grantOut (s.dev.cluster cl) e = fpPass (s.dev.cluster cl) e p a psn := (grantOut_pass hk).trans (if_neg (by simp [hf]))
  rw [h.word, hout]
  exact fpPass_word _ e p a psn htt hm hn

theorem Granted.fpFrame {fmt : MxFmt} {p : Nat} {a : Tab Lane32} {psn : Tab Bool} (hk : e.kind = .pass fmt p a psn)
    (hf : mxPhasor fmt = false) {k : Nat} (hne : k / 1024 < e.rc.slot ∨ e.rc.slot + recTiles e.rc ≤ k / 1024) :
    (t.dev.cluster cl).accWord k = (s.dev.cluster cl).accWord k := by
  have hout : grantOut (s.dev.cluster cl) e = fpPass (s.dev.cluster cl) e p a psn := (grantOut_pass hk).trans (if_neg (by simp [hf]))
  rw [h.word, hout]
  exact fpPass_frame _ e p a psn hne

theorem Granted.phElement {fmt : MxFmt} {p : Nat} {a : Tab Lane32} {psn : Tab Bool} (hk : e.kind = .pass fmt p a psn)
    (hf : mxPhasor fmt = true) {tt m n : Nat} (htt : tt < recTiles e.rc) (hm : m < 32) (hn : n < 32) :
    let old := (s.dev.cluster cl).phRead (phWord e.rc tt m n)
    let new := (t.dev.cluster cl).phRead (phWord e.rc tt m n)
    let codes := phCodes (s.dev.cluster cl) e.rc p a tt m n
    let sum (entry : Nat → Int) (v : Int) : Int :=
      codes.foldl (fun v c => max (-(2 ^ 47 - 1)) (min (v + entry (phIndex (mxTy e.rc.fmt) c)) (2 ^ 47 - 1))) v
    if old.n = 2 ^ 32 - 1 then new = old
    else if (rowPoison (s.dev.cluster cl) e p a psn tt m || colPoison (s.dev.cluster cl) e.rc p n) = true then
      new = { old with n := 2 ^ 32 - 1 }
    else new = ⟨sum cosEntry old.x, sum sinEntry old.y, min (old.n + codes.length) (2 ^ 32 - 2)⟩ := by
  have hout : grantOut (s.dev.cluster cl) e = phPass (s.dev.cluster cl) e p a psn := (grantOut_pass hk).trans (if_pos hf)
  intro old new codes sum
  have hnew : new = phNew (s.dev.cluster cl) e p a psn (tt, m, n) := by
    refine (h.phRead _).trans ?_
    rw [hout]
    exact phPass_read _ e p a psn htt hm hn
  have helem := phNew_eq (s.dev.cluster cl) e p a psn tt m n
  simp only [sat47_eq] at helem
  rw [hnew, helem]
  by_cases h1 : old.n = 2 ^ 32 - 1
  · rw [if_pos h1]
    exact if_pos h1
  · rw [if_neg h1, if_neg h1]
    by_cases h2 : (rowPoison (s.dev.cluster cl) e p a psn tt m || colPoison (s.dev.cluster cl) e.rc p n) = true
    · rw [if_pos h2, if_pos h2]
    · rw [if_neg h2, if_neg h2]

theorem Granted.phFrame {fmt : MxFmt} {p : Nat} {a : Tab Lane32} {psn : Tab Bool} (hk : e.kind = .pass fmt p a psn)
    (hf : mxPhasor fmt = true) {k : Nat} (hne : k / 1024 < e.rc.slot ∨ e.rc.slot + 4 * recTiles e.rc ≤ k / 1024) :
    (t.dev.cluster cl).accWord k = (s.dev.cluster cl).accWord k := by
  have hout : grantOut (s.dev.cluster cl) e = phPass (s.dev.cluster cl) e p a psn := (grantOut_pass hk).trans (if_pos hf)
  rw [h.word, hout]
  exact phPass_frame _ e p a psn hne

theorem Granted.written {c m : Nat} {run : Word} {vals : Tab Lane32} (hk : e.kind = .write c m run vals) (hcm : c + m ≤ 32) :
    (∀ l j, l < 64 → j < m → bit run l = true →
      (t.dev.cluster cl).accWord (laneElemAt e.rc c l j) = (vals.getD (4096 * l + j) 0).toNat) ∧
    ∀ k, (∀ l j, l < 64 → j < m → bit run l = true → k ≠ laneElemAt e.rc c l j) →
      (t.dev.cluster cl).accWord k = (s.dev.cluster cl).accWord k := by
  simp only [h.word, grantOut_write hk]
  exact ⟨fun l j hl hj hb => slotWritten_word _ e.rc hcm run vals hl hj hb, fun k hne => slotWritten_frame _ e.rc c m run vals hne⟩

theorem Granted.read {dst c m : Nat} {run : Word} (hk : e.kind = .read dst c m run) :
    (t.dev.cluster cl).acc = (s.dev.cluster cl).acc ∧
    (∀ l k, l < 64 → t.grp.lanes.get k l = if bit run l = true ∧ dst ≤ k ∧ k < dst + m
      then ⟨BitVec.ofNat 64 ((readGot (s.dev.cluster cl) e c l (k - dst)).1 % 2 ^ 32), false⟩ else s.grp.lanes.get k l) ∧
    ((∃ l j, l < 64 ∧ bit run l = true ∧ j < m ∧ (readGot (s.dev.cluster cl) e c l j).2 = true) → (t.dev.ctx e.ctx).psn = true) := by
  obtain ⟨hx, hu⟩ := grantOut_read (x := s.dev.cluster cl) hk
  have hv := slotValues_read (x := s.dev.cluster cl) hk
  refine ⟨h.acc.trans (congrArg Cluster.acc hx), fun l k hl => ?_, fun hex => h.psn ?_⟩
  · rw [h.lane (v := fun l j => BitVec.ofNat 32 (readGot (s.dev.cluster cl) e c l j).1) (b := fun _ _ => false) (congrArg Prod.fst hv) hl,
      zeroExtend_ofNat32]
  · rw [hu, hv]
    exact any_slotCells (p := fun l j => (readGot (s.dev.cluster cl) e c l j).2) hex

theorem Granted.resolved {ty dst c m : Nat} {run : Word} (hk : e.kind = .resolve ty dst c m run) :
    let got := resolveGot (s.dev.cluster cl) e c
    let value (v : PhAcc) : Opnd := if v.n = 2 ^ 32 - 1 then ⟨if e.prc then 0 else BitVec.ofNat 64 (phUndef ty), e.prc⟩
      else ⟨BitVec.ofNat 64 (phPack ty (phResolve ty v.x v.y v.n)), false⟩
    (t.dev.cluster cl).acc = (s.dev.cluster cl).acc ∧
    (∀ l k, l < 64 → t.grp.lanes.get k l = if bit run l = true ∧ dst ≤ k ∧ k < dst + m then value (got l (k - dst))
      else s.grp.lanes.get k l) ∧
    (e.prc = false → (∃ l j, l < 64 ∧ bit run l = true ∧ j < m ∧ (got l j).n = 2 ^ 32 - 1) → (t.dev.ctx e.ctx).psn = true) := by
  intro got value
  obtain ⟨hx, hu⟩ := grantOut_resolve (x := s.dev.cluster cl) hk
  obtain ⟨hv, hused⟩ := slotValues_resolve (x := s.dev.cluster cl) hk
  refine ⟨h.acc.trans (congrArg Cluster.acc hx), fun l k hl => ?_, fun hprc hex => h.psn ?_⟩
  · rw [h.lane (v := fun l j => (resolvedLane e ty (got l j)).1) (b := fun l j => (resolvedLane e ty (got l j)).2) hv hl, resolvedLane_opnd]
  · rw [hu, hused, hprc]
    obtain ⟨l, j, hl, hb, hj, hn⟩ := hex
    exact any_slotCells (p := fun l j => (got l j).n == 0xFFFFFFFF) ⟨l, j, hl, hb, hj, beq_iff_eq.mpr hn⟩

end

/-- R246 to R251. -/
theorem matrixGrants : Claims.MatrixGrants := by
  intro s cl e ht hl hq hctx hgid hlive hdual x word T
  have only : OnlyEntry s cl e := ⟨ht, hl, by rw [hctx]; exact hq, hgid, hlive, hdual⟩
  refine ⟨fun hr => ?_, entryComplete_leads only, entryComplete_idles ht⟩
  obtain ⟨t, hex, ht⟩ := arbiterGrant_only only hr
  refine ⟨t, hex, ht.mem, ht.scalars, fun hk _ k _ => (ht.zeroed hk k :), fun fmt p a psn hk hf _ => ?_, fun fmt p a psn hk hf _ => ?_,
    fun c m run vals hk hcm => (ht.written hk hcm :), fun dst c m run hk _ => (ht.read hk :), fun ty dst c m run hk _ => (ht.resolved hk :)⟩
  · refine ⟨fun tt m n htt hm hn => ?_, fun k hne => (ht.fpFrame hk hf hne :)⟩
    have hw := congrArg (· % 2 ^ 32) (ht.fpElement hk hf htt hm hn)
    rw [Nat.mod_mod, fpNew, fp32_poisonBits] at hw
    exact hw
  · exact ⟨fun tt m n htt hm hn => (ht.phElement hk hf htt hm hn :), fun k hne => (ht.phFrame hk hf hne :)⟩

end Sys2Proof.Machine

namespace Sys2Proof

/-- Settles O28: the pick is the first raised or best entry of the eligible ones, and each kind of entry leaves what R246 to R250 say. -/
theorem matrixArbiter : Obligations.MatrixArbiter := ⟨Machine.arbiterChoice, Machine.matrixGrants⟩

end Sys2Proof
end


section
/-!
## Rounding to a format (R46, R47)

`Fmt.round` finds the magnitude below the exact one and the part of a step that is left over; the rounding mode then chooses between it
and the next.
-/

namespace Sys2Proof.Machine

/-! ### The logarithm -/

theorem natLog2_bounds {n : Nat} (hn : 0 < n) : (2 : ℚ) ^ (Nat.log2 n : Int) ≤ n ∧ (n : ℚ) < 2 ^ ((Nat.log2 n : Int) + 1) := by
  have h1 : 2 ^ Nat.log2 n ≤ n := Nat.log2_self_le (by omega)
  have h2 : n < 2 ^ (Nat.log2 n + 1) := Nat.lt_log2_self
  constructor
  · exact_mod_cast h1
  · exact_mod_cast h2

theorem floorLog2_bounds {n d : Nat} (hn : 0 < n) (hd : 0 < d) :
    (2 : ℚ) ^ floorLog2 n d ≤ (n : ℚ) / d ∧ (n : ℚ) / d < 2 ^ (floorLog2 n d + 1) := by
  obtain ⟨hn1, hn2⟩ := natLog2_bounds hn
  obtain ⟨hd1, hd2⟩ := natLog2_bounds hd
  have hd0 : (0 : ℚ) < d := by exact_mod_cast hd
  set k : Int := (Nat.log2 n : Int) - (Nat.log2 d : Int) with hk
  have hpos := pow2_pos k
  have hcmp : (pow2 k).1 * d ≤ n * (pow2 k).2 ↔ (2 : ℚ) ^ k ≤ (n : ℚ) / d := by
    have h2 : (0 : ℚ) < (pow2 k).2 := by exact_mod_cast hpos.2
    rw [← pow2_val, div_le_div_iff₀ h2 hd0]
    norm_cast
  have hupper : (n : ℚ) / d < 2 ^ (k + 1) := by
    rw [div_lt_iff₀ hd0]
    calc (n : ℚ) < 2 ^ ((Nat.log2 n : Int) + 1) := hn2
      _ = 2 ^ (k + 1) * 2 ^ (Nat.log2 d : Int) := by rw [← zpow_add₀ (by norm_num)]; congr 1; omega
      _ ≤ 2 ^ (k + 1) * d := mul_le_mul_of_nonneg_left hd1 (by positivity)
  have hlower : (2 : ℚ) ^ (k - 1) ≤ (n : ℚ) / d := by
    rw [le_div_iff₀ hd0]
    calc (2 : ℚ) ^ (k - 1) * d ≤ 2 ^ (k - 1) * 2 ^ ((Nat.log2 d : Int) + 1) := mul_le_mul_of_nonneg_left hd2.le (by positivity)
      _ = 2 ^ (Nat.log2 n : Int) := by rw [← zpow_add₀ (by norm_num)]; congr 1; omega
      _ ≤ n := hn1
  unfold floorLog2
  dsimp only
  rw [← hk]
  split
  · next h => exact ⟨hcmp.mp h, hupper⟩
  · next h =>
    refine ⟨hlower, ?_⟩
    rw [sub_add_cancel]
    exact lt_of_not_ge fun hge => h (hcmp.mpr hge)

/-! ### The magnitude below a fraction -/

/-- The exponent of the step between magnitudes near n / d. -/
def stepExp (ty n d : Nat) : Int := max (floorLog2 n d) (1 - (fpBias ty : Int)) - fracBits ty
/-- n / d in steps. -/
def stepNum (ty n d : Nat) : Nat := n * (pow2 (-stepExp ty n d)).1
def stepDen (ty n d : Nat) : Nat := d * (pow2 (-stepExp ty n d)).2
/-- The step in units of the least magnitude is 2 to this. -/
def stepBase (ty n d : Nat) : Nat := (stepExp ty n d + fracBits ty + fpBias ty - 1).toNat
/-- The pattern of the greatest magnitude not above n / d. -/
def floorBits (ty n d : Nat) : Nat := stepBase ty n d * fpNormal ty + stepNum ty n d / stepDen ty n d

theorem stepDen_pos (ty n : Nat) {d : Nat} (hd : 0 < d) : 0 < stepDen ty n d := Nat.mul_pos hd (pow2_pos _).2

/-- The least normal magnitude. -/
theorem fpMag_normal (ty : Nat) : fpMag ty (fpNormal ty) = 2 ^ (1 - (fpBias ty : Int)) := by
  have hN := fpNormal_pos ty
  have hbias := fpBias_pos ty
  have hs : ((fpBias ty + fracBits ty - 1 : Nat) : Int) = (fpBias ty : Int) + fracBits ty - 1 := by omega
  rw [fpMag_eq, fpUnits, if_neg (by omega), Nat.mod_self, Nat.div_self hN, fpScale, fpNormal]
  push_cast
  rw [mul_one, add_zero, ← zpow_natCast, ← zpow_natCast, ← zpow_sub₀ (by norm_num), hs, show (fpShape ty).2 = fracBits ty from rfl]
  congr 1
  omega

theorem steps_val (ty n d : Nat) : (stepNum ty n d : ℚ) / stepDen ty n d = (n : ℚ) / d * 2 ^ (-stepExp ty n d) := by
  rw [stepNum, stepDen, Nat.cast_mul, Nat.cast_mul, mul_div_mul_comm, pow2_val]

/-- n / d in units of the least magnitude. -/
theorem units_val (ty n d : Nat) : (n : ℚ) / d * fpScale ty = (stepNum ty n d : ℚ) / stepDen ty n d * 2 ^ stepBase ty n d := by
  have hbias := fpBias_pos ty
  have hb : ((stepBase ty n d : Nat) : Int) = stepExp ty n d + fracBits ty + fpBias ty - 1 := by
    unfold stepBase stepExp
    omega
  have hs : (((fpBias ty + fracBits ty - 1 : Nat)) : Int) = -stepExp ty n d + stepBase ty n d := by omega
  rw [steps_val, mul_assoc, ← zpow_natCast, ← zpow_add₀ (by norm_num), ← hs, zpow_natCast, fpScale]
  push_cast
  rfl

theorem floorBits_mod_two (ty n d : Nat) : floorBits ty n d % 2 = stepNum ty n d / stepDen ty n d % 2 := by
  have := half_normal ty
  unfold floorBits
  generalize stepNum ty n d / stepDen ty n d = M
  have he : stepBase ty n d * fpNormal ty + M = M + 2 * (stepBase ty n d * 2 ^ (fracBits ty - 1)) := by
    rw [← this]
    ring
  rw [he, Nat.add_mul_mod_self_left]

section
variable (ty : Nat) {n d : Nat} (hn : 0 < n) (hd : 0 < d)
include hn hd

theorem steps_lt : stepNum ty n d / stepDen ty n d < 2 * fpNormal ty := by
  rw [Nat.div_lt_iff_lt_mul (stepDen_pos ty n hd)]
  have hD : (0 : ℚ) < stepDen ty n d := by exact_mod_cast stepDen_pos ty n hd
  have hlt : (stepNum ty n d : ℚ) / stepDen ty n d < 2 * fpNormal ty := by
    rw [steps_val]
    calc (n : ℚ) / d * 2 ^ (-stepExp ty n d) < 2 ^ (floorLog2 n d + 1) * 2 ^ (-stepExp ty n d) :=
          mul_lt_mul_of_pos_right (floorLog2_bounds hn hd).2 (by positivity)
      _ = 2 ^ (floorLog2 n d + 1 + -stepExp ty n d) := (zpow_add₀ (by norm_num) _ _).symm
      _ ≤ 2 ^ ((fracBits ty : Int) + 1) := zpow_le_zpow_right₀ (by norm_num) (by unfold stepExp; omega)
      _ = 2 * fpNormal ty := by
          rw [zpow_add₀ (by norm_num), zpow_natCast, zpow_one, mul_comm, fpNormal]
          push_cast
          rfl
  rw [div_lt_iff₀ hD] at hlt
  exact_mod_cast hlt

/-- The magnitudes that have a full fraction. -/
theorem steps_normal (h : 1 - (fpBias ty : Int) ≤ floorLog2 n d) : fpNormal ty ≤ stepNum ty n d / stepDen ty n d := by
  rw [Nat.le_div_iff_mul_le (stepDen_pos ty n hd)]
  have hD : (0 : ℚ) < stepDen ty n d := by exact_mod_cast stepDen_pos ty n hd
  have hge : (fpNormal ty : ℚ) ≤ (stepNum ty n d : ℚ) / stepDen ty n d := by
    rw [steps_val]
    calc (fpNormal ty : ℚ) = 2 ^ (floorLog2 n d + -stepExp ty n d) := by
          rw [show floorLog2 n d + -stepExp ty n d = fracBits ty by unfold stepExp; omega, zpow_natCast, fpNormal]
          push_cast
          rfl
      _ = 2 ^ floorLog2 n d * 2 ^ (-stepExp ty n d) := zpow_add₀ (by norm_num) _ _
      _ ≤ (n : ℚ) / d * 2 ^ (-stepExp ty n d) := mul_le_mul_of_nonneg_right (floorLog2_bounds hn hd).1 (by positivity)
  rw [le_div_iff₀ hD] at hge
  exact_mod_cast hge

/-- The magnitudes below the least normal one. -/
theorem steps_subnormal (h : floorLog2 n d < 1 - (fpBias ty : Int)) :
    stepNum ty n d / stepDen ty n d < fpNormal ty ∧ stepBase ty n d = 0 := by
  have hbase : stepBase ty n d = 0 := by
    unfold stepBase stepExp
    omega
  refine ⟨?_, hbase⟩
  rw [Nat.div_lt_iff_lt_mul (stepDen_pos ty n hd)]
  have hD : (0 : ℚ) < stepDen ty n d := by exact_mod_cast stepDen_pos ty n hd
  have hlt : (stepNum ty n d : ℚ) / stepDen ty n d < fpNormal ty := by
    rw [steps_val]
    calc (n : ℚ) / d * 2 ^ (-stepExp ty n d) < 2 ^ (floorLog2 n d + 1) * 2 ^ (-stepExp ty n d) :=
          mul_lt_mul_of_pos_right (floorLog2_bounds hn hd).2 (by positivity)
      _ = 2 ^ (floorLog2 n d + 1 + -stepExp ty n d) := (zpow_add₀ (by norm_num) _ _).symm
      _ ≤ 2 ^ (fracBits ty : Int) := zpow_le_zpow_right₀ (by norm_num) (by unfold stepExp; omega)
      _ = fpNormal ty := by
          rw [zpow_natCast, fpNormal]
          push_cast
          rfl
  rw [div_lt_iff₀ hD] at hlt
  exact_mod_cast hlt

theorem floorBits_units : fpUnits ty (floorBits ty n d) = stepNum ty n d / stepDen ty n d * 2 ^ stepBase ty n d ∧
    floorBits ty n d / fpNormal ty - 1 = stepBase ty n d := by
  have hN := fpNormal_pos ty
  have hlt := steps_lt ty hn hd
  unfold floorBits
  by_cases h : floorLog2 n d < 1 - (fpBias ty : Int)
  · obtain ⟨hM, hB⟩ := steps_subnormal ty hn hd h
    rw [hB, Nat.zero_mul, Nat.zero_add, pow_zero, Nat.mul_one, fpUnits, if_pos hM, Nat.div_eq_of_lt hM]
    exact ⟨rfl, rfl⟩
  · have hM := steps_normal ty hn hd (by omega)
    generalize stepNum ty n d / stepDen ty n d = M at hlt hM
    generalize stepBase ty n d = B
    obtain ⟨r, rfl⟩ := Nat.exists_eq_add_of_le hM
    have hr : r < fpNormal ty := by omega
    have he : B * fpNormal ty + (fpNormal ty + r) = r + fpNormal ty * (B + 1) := by ring
    rw [fpUnits, he, if_neg (by nlinarith), Nat.add_mul_mod_self_left, Nat.add_mul_div_left _ _ hN, Nat.mod_eq_of_lt hr,
      Nat.div_eq_of_lt hr, Nat.zero_add, Nat.add_sub_cancel]
    exact ⟨rfl, rfl⟩

/-- n / d lies between a magnitude and the next, this part of a step above the first. -/
theorem floorBits_between : (n : ℚ) / d = fpMag ty (floorBits ty n d) +
    ((stepNum ty n d % stepDen ty n d : Nat) : ℚ) / stepDen ty n d * (fpMag ty (floorBits ty n d + 1) - fpMag ty (floorBits ty n d)) := by
  have hD : (0 : ℚ) < stepDen ty n d := by exact_mod_cast stepDen_pos ty n hd
  have hS : (0 : ℚ) < fpScale ty := by exact_mod_cast fpScale_pos ty
  obtain ⟨hu, hb⟩ := floorBits_units ty hn hd
  have hsucc := fpUnits_succ ty (floorBits ty n d)
  rw [hb] at hsucc
  rw [fpMag_eq, fpMag_eq, hsucc, hu]
  have hval := units_val ty n d
  have hdm : (stepNum ty n d : ℚ) = stepDen ty n d * (stepNum ty n d / stepDen ty n d : Nat) + (stepNum ty n d % stepDen ty n d : Nat) := by
    exact_mod_cast (Nat.div_add_mod _ _).symm
  rw [hdm] at hval
  generalize ((stepNum ty n d / stepDen ty n d : Nat)) = M at *
  generalize ((stepNum ty n d % stepDen ty n d : Nat)) = R at *
  have hq : (n : ℚ) / d = ((stepDen ty n d : ℚ) * M + R) / stepDen ty n d * 2 ^ stepBase ty n d / fpScale ty := by
    rw [← hval]
    field_simp
  rw [hq]
  push_cast
  field_simp
  ring

theorem tiny_iff : floorLog2 n d < 1 - (fpBias ty : Int) ↔ (n : ℚ) / d < fpMag ty (fpNormal ty) := by
  obtain ⟨h1, h2⟩ := floorLog2_bounds hn hd
  rw [fpMag_normal]
  constructor
  · intro h
    exact h2.trans_le (zpow_le_zpow_right₀ (by norm_num) (by omega))
  · intro h
    exact (zpow_lt_zpow_iff_right₀ (by norm_num : (1 : ℚ) < 2)).mp (h1.trans_lt h)

end

/-! ### The choice between two magnitudes -/

/-- Does a mode round up a magnitude with quotient m and remainder r over d? -/
def modeUp (mode m r d : Nat) : Bool :=
  match mode with
  | 0 => decide (d < 2 * r) || (decide (d = 2 * r) && decide (m % 2 = 1))
  | 1 => false
  | 2 => decide (0 < r)
  | _ => decide (d ≤ 2 * r)

theorem roundsUp_eq (rm : Nat) (neg : Bool) (m r d : Nat) : roundsUp rm neg m r d = modeUp (magMode rm neg) m r d := by
  match rm with
  | 0 | 1 => rfl
  | 2 | 3 => cases neg <;> simp [roundsUp, modeUp, magMode]
  | k + 4 => rfl

theorem toMax_iff (rm : Nat) (neg : Bool) : (decide (rm = 1) || (decide (rm = 2) && neg) || (decide (rm = 3) && !neg)) = true ↔
    magMode rm neg = 1 := by
  match rm with
  | 0 | 1 => simp [magMode]
  | 2 | 3 => cases neg <;> simp [magMode]
  | k + 4 => simp [magMode]

/-- A magnitude with its neighbours on the grid: m at most a, a below the next, r / d of the step left over. -/
structure Between (ty : Nat) (a : ℚ) (m r d : Nat) : Prop where
  pos : 0 < d
  rem : r < d
  val : a = fpMag ty m + (r : ℚ) / d * (fpMag ty (m + 1) - fpMag ty m)

theorem fpMag_step_pos (ty m : Nat) : 0 < fpMag ty (m + 1) - fpMag ty m := sub_pos.mpr (fpMag_strictMono ty (Nat.lt_succ_self m))

namespace Between
variable {ty : Nat} {a : ℚ} {m r d : Nat} (h : Between ty a m r d)
include h

theorem part_lt : (r : ℚ) / d < 1 := by
  have hd : (0 : ℚ) < d := by exact_mod_cast h.pos
  rw [div_lt_one hd]
  exact_mod_cast h.rem

theorem le : fpMag ty m ≤ a := by
  rw [h.val]
  exact le_add_of_nonneg_right (mul_nonneg (by positivity) (fpMag_step_pos ty m).le)

theorem lt_succ : a < fpMag ty (m + 1) := by
  have := mul_lt_mul_of_pos_right h.part_lt (fpMag_step_pos ty m)
  rw [h.val]
  linarith

theorem eq_iff : fpMag ty m = a ↔ r = 0 := by
  have hd : (d : ℚ) ≠ 0 := by exact_mod_cast h.pos.ne'
  have hs := (fpMag_step_pos ty m).ne'
  rw [h.val, left_eq_add, mul_eq_zero, or_iff_left hs, div_eq_zero_iff, or_iff_left hd]
  norm_cast

/-- Half of a step, compared. -/
theorem half_lt : d < 2 * r ↔ fpMag ty (m + 1) - a < a - fpMag ty m := by
  have hd : (0 : ℚ) < d := by exact_mod_cast h.pos
  have hs := (fpMag_step_pos ty m)
  have h2 : a - fpMag ty m - (fpMag ty (m + 1) - a) = (2 * ((r : ℚ) / d) - 1) * (fpMag ty (m + 1) - fpMag ty m) := by
    rw [h.val]
    ring
  rw [← sub_pos (b := fpMag ty (m + 1) - a), h2, mul_pos_iff_of_pos_right hs, sub_pos, ← mul_div_assoc, lt_div_iff₀ hd, one_mul]
  norm_cast

theorem half_eq : d = 2 * r ↔ fpMag ty (m + 1) - a = a - fpMag ty m := by
  have hd : (d : ℚ) ≠ 0 := by exact_mod_cast h.pos.ne'
  have hs := (fpMag_step_pos ty m).ne'
  have h2 : a - fpMag ty m - (fpMag ty (m + 1) - a) = (2 * ((r : ℚ) / d) - 1) * (fpMag ty (m + 1) - fpMag ty m) := by
    rw [h.val]
    ring
  rw [eq_comm (b := a - fpMag ty m), ← sub_eq_zero (b := fpMag ty (m + 1) - a), h2, mul_eq_zero, or_iff_left hs, sub_eq_zero, ← mul_div_assoc,
    div_eq_one_iff_eq hd, eq_comm]
  norm_cast

/-- Rounded down to the nearest: no magnitude is nearer, and an equal one is above and meets an even m. -/
theorem nearest_down {mode : Nat} (h1 : mode ≠ 1) (h2 : mode ≠ 2) (hu : modeUp mode m r d = false) (y : Nat) :
    |fpMag ty m - a| ≤ |fpMag ty y - a| ∧ (y ≠ m → |fpMag ty m - a| = |fpMag ty y - a| → mode = 0 ∧ m % 2 = 0) := by
  have hle := h.le
  have hlt := h.lt_succ
  have hmono := (fpMag_strictMono ty).monotone
  have hfar : a - fpMag ty m ≤ fpMag ty (m + 1) - a ∧ (a - fpMag ty m = fpMag ty (m + 1) - a → mode = 0 ∧ m % 2 = 0) := by
    rw [← not_lt, ← h.half_lt, eq_comm, ← h.half_eq]
    unfold modeUp at hu
    split at hu
    · simp only [Bool.or_eq_false_iff, decide_eq_false_iff_not, Bool.and_eq_false_iff] at hu
      exact ⟨hu.1, fun he => ⟨rfl, by rcases hu.2 with h | h <;> omega⟩⟩
    · exact absurd rfl h1
    · exact absurd rfl h2
    · simp only [decide_eq_false_iff_not] at hu
      exact ⟨by omega, fun he => by omega⟩
  rw [abs_of_nonpos (by linarith : fpMag ty m - a ≤ 0)]
  rcases Nat.lt_trichotomy y m with hy | rfl | hy
  · have hv := fpMag_strictMono ty hy
    rw [abs_of_nonpos (by linarith)]
    exact ⟨by linarith, fun _ he => by linarith⟩
  · rw [abs_of_nonpos (by linarith)]
    exact ⟨le_rfl, fun hne => absurd rfl hne⟩
  · have hv := hmono (show m + 1 ≤ y from hy)
    rw [abs_of_nonneg (by linarith)]
    exact ⟨by linarith, fun _ he => hfar.2 (by linarith)⟩

/-- Rounded up to the nearest: no magnitude is nearer, and an equal one is below, and meets an odd one in mode 0. -/
theorem nearest_up {mode : Nat} (h1 : mode ≠ 1) (h2 : mode ≠ 2) (hu : modeUp mode m r d = true) (y : Nat) :
    |fpMag ty (m + 1) - a| ≤ |fpMag ty y - a| ∧
      (y ≠ m + 1 → |fpMag ty (m + 1) - a| = |fpMag ty y - a| → y < m + 1 ∧ (mode = 0 → (m + 1) % 2 = 0)) := by
  have hle := h.le
  have hlt := h.lt_succ
  have hmono := (fpMag_strictMono ty).monotone
  have hfar : fpMag ty (m + 1) - a ≤ a - fpMag ty m ∧ (fpMag ty (m + 1) - a = a - fpMag ty m → mode = 0 → (m + 1) % 2 = 0) := by
    rw [le_iff_lt_or_eq, ← h.half_lt, ← h.half_eq]
    unfold modeUp at hu
    split at hu
    · simp only [Bool.or_eq_true, decide_eq_true_iff, Bool.and_eq_true] at hu
      refine ⟨hu.imp id And.left, fun he _ => ?_⟩
      rcases hu with h | h <;> omega
    · exact absurd rfl h1
    · exact absurd rfl h2
    · next h0 _ _ =>
      simp only [decide_eq_true_iff] at hu
      exact ⟨by omega, fun _ hz => absurd hz h0⟩
  rw [abs_of_nonneg (by linarith : 0 ≤ fpMag ty (m + 1) - a)]
  rcases Nat.lt_trichotomy y (m + 1) with hy | rfl | hy
  · have hv := hmono (show y ≤ m by omega)
    rw [abs_of_nonpos (by linarith)]
    exact ⟨by linarith, fun _ he => ⟨hy, hfar.2 (by linarith)⟩⟩
  · rw [abs_of_nonneg (by linarith)]
    exact ⟨le_rfl, fun hne => absurd rfl hne⟩
  · have hv := fpMag_strictMono ty hy
    rw [abs_of_nonneg (by linarith)]
    exact ⟨by linarith, fun _ he => by linarith⟩

/-- The choice of a mode is what the mode asks for among the patterns up to infinity's. -/
theorem rounds (mode : Nat) {b : Nat} (hb : b = if modeUp mode m r d then m + 1 else m) :
    magRounds ty mode a (if fpTop ty ≤ b then (if mode = 1 then fpTop ty - 1 else fpTop ty) else b) := by
  have hle := h.le
  have hlt := h.lt_succ
  have htop : 0 < fpTop ty := Nat.zero_lt_of_lt (fpNormal_lt_top ty)
  have hmono := (fpMag_strictMono ty).monotone
  have hstrict := fpMag_strictMono ty
  refine ⟨?_, ?_, ?_, ?_⟩
  · split_ifs <;> omega
  · rintro rfl
    obtain rfl : b = m := hb
    rw [if_pos rfl]
    split
    · next hm =>
      exact ⟨by omega, (hmono (by omega)).trans hle, fun y hy _ => by omega⟩
    · next hm =>
      refine ⟨by omega, hle, fun y _ hya => ?_⟩
      by_contra hc
      exact absurd (hmono (not_le.mp hc)) (not_le.mpr (hya.trans_lt hlt))
  · rintro rfl
    rw [if_neg (show ¬ (2 : Nat) = 1 by norm_num)]
    have hlow : ∀ y, y < b → fpMag ty y < a := by
      intro y hy
      simp only [modeUp, decide_eq_true_eq] at hb
      by_cases hr : 0 < r
      · rw [if_pos hr] at hb
        refine (hmono (by omega)).trans_lt (lt_of_le_of_ne hle fun he => ?_)
        have := h.eq_iff.mp he
        omega
      · rw [if_neg hr] at hb
        exact (hstrict (hb ▸ hy)).trans_le hle
    split
    · next hm => exact ⟨.inr rfl, fun y hy => hlow y (by omega)⟩
    · next hm =>
      refine ⟨.inl ?_, hlow⟩
      simp only [modeUp, decide_eq_true_eq] at hb
      by_cases hr : 0 < r
      · rw [if_pos hr] at hb
        rw [hb]
        exact hlt.le
      · rw [if_neg hr] at hb
        rw [hb, h.eq_iff.mpr (by omega)]
  · intro h1 h2
    rw [if_neg h1]
    have hnear : ∀ y, |fpMag ty b - a| ≤ |fpMag ty y - a| ∧
        (y ≠ b → |fpMag ty b - a| = |fpMag ty y - a| → if mode = 0 then b % 2 = 0 else y < b) := by
      intro y
      cases hu : modeUp mode m r d with
      | false =>
        obtain rfl : b = m := by rw [hb, hu]; rfl
        obtain ⟨hn, he⟩ := h.nearest_down h1 h2 hu y
        refine ⟨hn, fun hne heq => ?_⟩
        obtain ⟨h0, hm⟩ := he hne heq
        rwa [if_pos h0]
      | true =>
        obtain rfl : b = m + 1 := by rw [hb, hu]; rfl
        obtain ⟨hn, he⟩ := h.nearest_up h1 h2 hu y
        refine ⟨hn, fun hne heq => ?_⟩
        obtain ⟨hy, hm⟩ := he hne heq
        split
        · next h0 => exact hm h0
        · exact hy
    split
    · next hm =>
      rcases Nat.eq_or_lt_of_le hm with heq | hm
      · exact fun y _ => heq ▸ hnear y
      · intro y hy
        have hbm : b ≤ m + 1 := by rw [hb]; split <;> omega
        have hta : fpMag ty (fpTop ty) ≤ a := (hmono (show fpTop ty ≤ m by omega)).trans hle
        have hyt := hmono hy
        rw [abs_of_nonpos (by linarith), abs_of_nonpos (by linarith)]
        refine ⟨by linarith, fun hne heq => absurd ?_ hne⟩
        exact hstrict.injective (by linarith)
    · exact fun y _ => hnear y

end Between

/-! ### Rounding once -/

theorem abs_signedVal {v : ℚ} (hv : 0 ≤ v) (neg : Bool) : |signedVal neg v| = v := by
  unfold signedVal
  cases neg
  · simpa using hv
  · simpa using hv

theorem signedVal_eq_zero {v : ℚ} {neg : Bool} : signedVal neg v = 0 ↔ v = 0 := by
  unfold signedVal
  cases neg <;> simp

theorem signedVal_neg_iff {v : ℚ} (hv : 0 < v) (neg : Bool) : signedVal neg v < 0 ↔ neg = true := by
  unfold signedVal
  cases neg
  · simpa using hv.le
  · simpa using hv

/-- The pattern that a rounding chooses, infinity and past it not yet brought to a result. -/
def chosenBits (ty rm : Nat) (neg : Bool) (n d : Nat) : Nat :=
  if modeUp (magMode rm neg) (stepNum ty n d / stepDen ty n d) (stepNum ty n d % stepDen ty n d) (stepDen ty n d) then
    floorBits ty n d + 1 else floorBits ty n d

/-- `Fmt.round` in terms of the chosen pattern. -/
theorem round_eq (ty rm : Nat) (fz neg : Bool) {n : Nat} (d : Nat) (hn : n ≠ 0) :
    (fmtOf ty).round rm fz neg n d =
      if fpTop ty ≤ chosenBits ty rm neg n d then
        ((if neg then fpSign ty else 0) + (if magMode rm neg = 1 then fpTop ty - 1 else fpTop ty), 10)
      else if fz && decide (0 < chosenBits ty rm neg n d) && decide (chosenBits ty rm neg n d < fpNormal ty) then
        ((if neg then fpSign ty else 0) + 0, 12)
      else ((if neg then fpSign ty else 0) + chosenBits ty rm neg n d,
        if stepNum ty n d % stepDen ty n d ≠ 0 then (if floorLog2 n d < 1 - (fpBias ty : Int) then 12 else 8) else 0) := by
  have hbits : stepBase ty n d * 2 ^ fracBits ty + (if roundsUp rm neg (stepNum ty n d / stepDen ty n d)
      (stepNum ty n d % stepDen ty n d) (stepDen ty n d) then stepNum ty n d / stepDen ty n d + 1 else stepNum ty n d / stepDen ty n d) =
      chosenBits ty rm neg n d := by
    rw [roundsUp_eq, chosenBits]
    split <;> rfl
  have hmax : (if (decide (rm = 1) || (decide (rm = 2) && neg) || (decide (rm = 3) && !neg)) = true then fpTop ty - 1 else fpTop ty) =
      if magMode rm neg = 1 then fpTop ty - 1 else fpTop ty := by
    simp only [toMax_iff]
  unfold Fmt.round
  rw [if_neg hn]
  simp only [fmtOf_fb, fmtOf_bias, fmtOf_infBits, fmtOf_maxBits, fmtOf_signed, roundNat]
  rw [← hmax, ← hbits, fpNormal]
  simp only [decide_eq_true_eq]
  rfl

theorem floorBits_grid (ty : Nat) {n d : Nat} (hn : 0 < n) (hd : 0 < d) :
    Between ty ((n : ℚ) / d) (floorBits ty n d) (stepNum ty n d % stepDen ty n d) (stepDen ty n d) :=
  ⟨stepDen_pos ty n hd, Nat.mod_lt _ (stepDen_pos ty n hd), floorBits_between ty hn hd⟩

theorem modeUp_mod (mode : Nat) {m m' : Nat} (h : m % 2 = m' % 2) (r d : Nat) : modeUp mode m r d = modeUp mode m' r d := by
  match mode with
  | 0 => simp only [modeUp, h]
  | 1 | 2 | k + 3 => rfl

theorem chosenBits_eq (ty rm : Nat) (neg : Bool) (n d : Nat) : chosenBits ty rm neg n d =
    if modeUp (magMode rm neg) (floorBits ty n d) (stepNum ty n d % stepDen ty n d) (stepDen ty n d) then
      floorBits ty n d + 1 else floorBits ty n d := by
  rw [chosenBits, modeUp_mod _ (floorBits_mod_two ty n d).symm]

/-- The chosen pattern is exact where nothing was left over, and only there. -/
theorem chosenBits_exact (ty rm : Nat) (neg : Bool) {n d : Nat} (hn : 0 < n) (hd : 0 < d) :
    fpMag ty (chosenBits ty rm neg n d) = (n : ℚ) / d ↔ stepNum ty n d % stepDen ty n d = 0 := by
  have h := floorBits_grid ty hn hd
  rw [chosenBits_eq]
  split
  · next hu =>
    refine iff_of_false h.lt_succ.ne' fun h0 => ?_
    have hpos := h.pos
    rw [h0] at hu
    unfold modeUp at hu
    split at hu <;> simp at hu <;> omega
  · exact h.eq_iff

/-- The magnitude that a rounding gives, before FZ. -/
theorem chosenBits_rounds (ty rm : Nat) (neg : Bool) {n d : Nat} (hn : 0 < n) (hd : 0 < d) :
    magRounds ty (magMode rm neg) ((n : ℚ) / d)
      (if fpTop ty ≤ chosenBits ty rm neg n d then (if magMode rm neg = 1 then fpTop ty - 1 else fpTop ty)
        else chosenBits ty rm neg n d) :=
  (floorBits_grid ty hn hd).rounds _ (chosenBits_eq ty rm neg n d)

theorem chosenBits_le (ty rm : Nat) (neg : Bool) {n d : Nat} : chosenBits ty rm neg n d ≤ floorBits ty n d + 1 ∧
    floorBits ty n d ≤ chosenBits ty rm neg n d := by
  rw [chosenBits_eq]
  split <;> omega

theorem magRounds_zero (ty mode : Nat) : magRounds ty mode 0 0 := by
  have htop : 0 < fpTop ty := Nat.zero_lt_of_lt (fpNormal_lt_top ty)
  have h0 (y : Nat) (hy : y ≠ 0) : 0 < fpMag ty y := by
    rw [← fpMag_zero ty]
    exact fpMag_strictMono ty (by omega)
  refine ⟨by omega, fun _ => ⟨htop, by simp, fun y _ hy => ?_⟩, fun _ => ⟨.inl (by simp), fun y hy => absurd hy (by omega)⟩,
    fun _ _ y _ => ⟨by simp, fun hne he => ?_⟩⟩
  · by_contra hc
    exact absurd (h0 y (by omega)) (not_lt.mpr hy)
  · have := h0 y hne
    rw [fpMag_zero, sub_zero, sub_zero, abs_zero, abs_of_pos this] at he
    exact absurd he this.ne

theorem fpGives_zero (ty rm : Nat) (fz neg : Bool) : fpGives ty rm fz 0 neg ((if neg then fpSign ty else 0) + 0) 0 := by
  have htop := fpTop_mag_pos ty
  have htop' : 0 < fpTop ty := Nat.zero_lt_of_lt (fpNormal_lt_top ty)
  refine ⟨0, by rw [abs_zero]; exact magRounds_zero .., ?_⟩
  simp [htop'.ne, htop]

/-- Rounding once (R46, R47, R61). -/
theorem round_gives (ty rm : Nat) (fz neg : Bool) (n : Nat) {d : Nat} (hd : 0 < d) :
    fpGives ty rm fz (signedVal neg ((n : ℚ) / d)) neg ((fmtOf ty).round rm fz neg n d).1 ((fmtOf ty).round rm fz neg n d).2 := by
  by_cases hn : n = 0
  · subst hn
    have hr : (fmtOf ty).round rm fz neg 0 d = ((if neg then fpSign ty else 0) + 0, 0) := by
      rw [← fmtOf_signed]
      rfl
    rw [hr, Nat.cast_zero, zero_div, signedVal, mul_zero]
    exact fpGives_zero ty rm fz neg
  have hn0 : 0 < n := by omega
  have hq : 0 < (n : ℚ) / d := by positivity
  have hq0 : ¬ signedVal neg ((n : ℚ) / d) = 0 := fun h => hq.ne' (signedVal_eq_zero.mp h)
  have hneg : decide (signedVal neg ((n : ℚ) / d) < 0) = neg := by
    rw [Bool.eq_iff_iff, decide_eq_true_iff]
    exact signedVal_neg_iff hq neg
  have grid := floorBits_grid ty hn0 hd
  have hrounds := chosenBits_rounds ty rm neg hn0 hd
  have hexact := chosenBits_exact ty rm neg hn0 hd
  obtain ⟨hcle, hcge⟩ := chosenBits_le ty rm neg (n := n) (d := d)
  have hnt := fpNormal_lt_top ty
  have hmono := (fpMag_strictMono ty).monotone
  rw [round_eq ty rm fz neg d hn]
  unfold fpGives
  rw [if_neg hq0, hneg, abs_signedVal hq.le]
  refine ⟨_, hrounds, ?_⟩
  by_cases htop : fpTop ty ≤ chosenBits ty rm neg n d
  · rw [if_pos htop, if_pos htop]
    have hkept : ¬ (fz = true ∧ (if magMode rm neg = 1 then fpTop ty - 1 else fpTop ty) < fpNormal ty) := by
      split <;> omega
    dsimp only
    rw [if_neg hkept]
    refine ⟨rfl, (if_pos ?_).symm⟩
    by_cases hmode : magMode rm neg = 1
    · refine .inr ((hmono ?_).trans grid.le)
      have hdown : chosenBits ty rm neg n d = floorBits ty n d := by
        rw [chosenBits, hmode]
        rfl
      exact hdown ▸ htop
    · exact .inl (if_neg hmode)
  · rw [if_neg htop, if_neg htop]
    have hlt : (n : ℚ) / d < fpMag ty (fpTop ty) := grid.lt_succ.trans_le (hmono (by omega))
    have hsmall (m : Nat) (hm : m < fpTop ty) : ¬ (m = fpTop ty ∨ fpMag ty (fpTop ty) ≤ (n : ℚ) / d) := by
      rintro (h | h)
      · exact hm.ne h
      · exact absurd h (not_le.mpr hlt)
    by_cases hfz : fz = true ∧ chosenBits ty rm neg n d < fpNormal ty
    · have htiny : (n : ℚ) / d < fpMag ty (fpNormal ty) := grid.lt_succ.trans_le (hmono (by omega))
      dsimp only
      rw [if_pos hfz, if_neg (hsmall 0 (by omega)), fpMag_zero, if_neg hq.ne, if_pos htiny]
      by_cases hc : 0 < chosenBits ty rm neg n d
      · rw [if_pos (by simp [hfz, hc])]
        exact ⟨rfl, rfl⟩
      · have hzero : chosenBits ty rm neg n d = 0 := by omega
        have hrem : stepNum ty n d % stepDen ty n d ≠ 0 := fun h => by
          have := hexact.mpr h
          rw [hzero, fpMag_zero] at this
          exact hq.ne this
        rw [if_neg (by simp [hzero]), if_pos hrem, if_pos ((tiny_iff ty hn0 hd).mpr htiny), hzero]
        exact ⟨rfl, rfl⟩
    · have hfz' : ¬ (fz && decide (0 < chosenBits ty rm neg n d) && decide (chosenBits ty rm neg n d < fpNormal ty)) = true := by
        simp only [Bool.and_eq_true, decide_eq_true_iff]
        rintro ⟨⟨h1, -⟩, h2⟩
        exact hfz ⟨h1, h2⟩
      dsimp only
      rw [if_neg hfz, if_neg hfz', if_neg (hsmall _ (by omega))]
      refine ⟨rfl, ?_⟩
      by_cases hrem : stepNum ty n d % stepDen ty n d = 0
      · rw [if_neg (not_not.mpr hrem), if_pos (hexact.mpr hrem)]
      · rw [if_pos hrem, if_neg fun h => hrem (hexact.mp h)]
        simp only [tiny_iff ty hn0 hd]

/-- A signed fraction rounds once. -/
theorem roundS_gives (ty rm : Nat) (fz zneg : Bool) {x : SFrac} (hx : 0 < x.den) :
    fpGives ty rm fz ((x.num : ℚ) / x.den) zneg ((fmtOf ty).roundS rm fz zneg x).1 ((fmtOf ty).roundS rm fz zneg x).2 := by
  unfold Fmt.roundS
  by_cases h : x.num = 0
  · rw [if_pos h, h, fmtOf_signed, Int.cast_zero, zero_div]
    exact fpGives_zero ty rm fz zneg
  · rw [if_neg h]
    have hg := round_gives ty rm fz (decide (x.num < 0)) x.num.natAbs hx
    have hv : signedVal (decide (x.num < 0)) ((x.num.natAbs : ℚ) / x.den) = (x.num : ℚ) / x.den := by
      unfold signedVal
      by_cases hn : x.num < 0
      · rw [if_pos (decide_eq_true hn), Nat.cast_natAbs, abs_of_neg hn]
        push_cast
        ring
      · rw [if_neg (by simpa using hn), Nat.cast_natAbs, abs_of_nonneg (by omega), one_mul]
    have hq : ¬ (x.num : ℚ) / x.den = 0 := by
      have : (x.den : ℚ) ≠ 0 := by exact_mod_cast hx.ne'
      rw [div_eq_zero_iff, or_iff_left this]
      exact_mod_cast h
    rw [hv] at hg
    unfold fpGives at hg ⊢
    rw [if_neg hq] at hg ⊢
    exact hg

/-- A result is a pattern of the type. -/
theorem fpGives_lt {ty rm : Nat} {fz neg0 : Bool} {q : ℚ} {val : Nat} {ev : Ev} (h : fpGives ty rm fz q neg0 val ev) : val < 2 * fpSign ty := by
  obtain ⟨r, hr, hval, -⟩ := h
  have hle := hr.1
  have := fpTop_lt ty
  have hsign (b : Bool) : (if b then fpSign ty else 0) ≤ fpSign ty := by split <;> omega
  have hmag : (if fz = true ∧ r < fpNormal ty then 0 else r) ≤ r := by split <;> omega
  have := hsign (if q = 0 then neg0 else decide (q < 0))
  omega

end Sys2Proof.Machine
end


section
/-!
## Floating-point operations (R44 to R47, R113, R114)
-/

namespace Sys2Proof.Machine

/-! ### Numbers by class -/

theorem Reads.fin_of {ty p : Nat} {a : Num} (h : Reads ty p a) (hp : fpFinite ty p) : ∃ neg n d, a = .fin neg n d := by
  unfold fpFinite at hp
  cases a with
  | nan s =>
    have := h.1
    unfold fpNan at this
    omega
  | inf s =>
    have := h.1
    unfold fpInf at this
    omega
  | fin neg n d => exact ⟨neg, n, d, rfl⟩

theorem Reads.inf_of {ty p : Nat} {a : Num} (h : Reads ty p a) (hp : fpInf ty p) : a = .inf (fpNeg ty p) := by
  unfold fpInf at hp
  cases a with
  | nan s =>
    have := h.1
    unfold fpNan at this
    omega
  | inf s => rw [h.2]
  | fin neg n d =>
    have := h.1
    unfold fpFinite at this
    omega

theorem Reads.nan_of {ty p : Nat} {a : Num} (h : Reads ty p a) (hp : fpNan ty p) : ∃ s, a = .nan s := by
  have hn := h.isNan_iff.mpr hp
  cases a with
  | nan s => exact ⟨s, rfl⟩
  | inf s => cases hn
  | fin neg n d => cases hn

theorem Reads.fin_zero_iff {ty p n d : Nat} {neg : Bool} (h : Reads ty p (.fin neg n d)) : n = 0 ↔ p % fpSign ty = 0 := by
  obtain ⟨-, -, hd, hv⟩ := h
  have hd' : (d : ℚ) ≠ 0 := by exact_mod_cast hd.ne'
  rw [← fpMag_eq_zero (ty := ty) (m := p % fpSign ty), ← hv, div_eq_zero_iff, or_iff_left hd']
  norm_cast

/-- A pattern is its sign and its magnitude. -/
theorem pattern_split {ty p : Nat} (hp : p < 2 * fpSign ty) : p = (if fpNeg ty p then fpSign ty else 0) + p % fpSign ty := by
  unfold fpNeg
  have h := Nat.div_add_mod p (fpSign ty)
  have hlt := Nat.mod_lt p (show 0 < fpSign ty by omega)
  by_cases hs : fpSign ty ≤ p
  · have h1 : p / fpSign ty = 1 := by rw [Nat.div_eq_iff (by omega)]; omega
    rw [h1] at h
    rw [if_pos (decide_eq_true hs)]
    omega
  · rw [if_neg (by simpa using hs), Nat.mod_eq_of_lt (by omega)]
    omega

/-- A pattern from a sign and a magnitude. -/
theorem pattern_join {ty m : Nat} (hm : m < fpSign ty) (neg : Bool) :
    ((if neg then fpSign ty else 0) + m) % fpSign ty = m ∧ fpNeg ty ((if neg then fpSign ty else 0) + m) = neg := by
  unfold fpNeg
  cases neg
  · rw [if_neg Bool.false_ne_true, Nat.zero_add, Nat.mod_eq_of_lt hm]
    exact ⟨rfl, decide_eq_false (by omega)⟩
  · rw [if_pos rfl, Nat.add_mod_left, Nat.mod_eq_of_lt hm]
    exact ⟨rfl, decide_eq_true (by omega)⟩

/-- Writing a number that is no NaN gives the pattern that it stands for. -/
theorem Reads.write {ty p : Nat} {a : Num} (h : Reads ty p a) (hp : p < 2 * fpSign ty) (hn : ¬ fpNan ty p) : (fmtOf ty).write a = p := by
  cases a with
  | nan s => exact absurd h.1 hn
  | inf s =>
    obtain ⟨hinf, rfl⟩ := h
    rw [Fmt.write, fmtOf_signed, fmtOf_infBits, ← show p % fpSign ty = fpTop ty from hinf]
    exact (pattern_split hp).symm
  | fin neg n d =>
    obtain ⟨hfin, hneg, hd, hv⟩ := h
    rw [Fmt.write]
    obtain ⟨r, hr, hval, -⟩ := round_gives ty 0 false neg n hd
    have hv0 := fpMag_nonneg ty (p % fpSign ty)
    have hsign : (if signedVal neg ((n : ℚ) / d) = 0 then neg else decide (signedVal neg ((n : ℚ) / d) < 0)) = neg := by
      split
      · rfl
      · next hne =>
        rw [Bool.eq_iff_iff, decide_eq_true_iff]
        refine signedVal_neg_iff (lt_of_le_of_ne (hv ▸ hv0) fun h0 => hne (signedVal_eq_zero.mpr h0.symm)) neg
    rw [hsign, abs_signedVal (hv ▸ hv0), hv] at hr
    have hmag : r = p % fpSign ty := by
      obtain ⟨-, -, -, hnear⟩ := hr
      have hmode : magMode 0 neg = 0 := rfl
      have := (hnear (by rw [hmode]; norm_num) (by rw [hmode]; norm_num) (p % fpSign ty) (le_of_lt hfin)).1
      rw [sub_self, abs_zero, abs_nonpos_iff, sub_eq_zero] at this
      exact (fpMag_strictMono ty).injective this
    rw [hval, hsign, hmag, hneg, if_neg (fun h : false = true ∧ p % fpSign ty < fpNormal ty => Bool.false_ne_true h.1)]
    exact (pattern_split hp).symm

/-! ### Sums and products of finite numbers -/

theorem SFrac.add_val {a b : SFrac} (ha : 0 < a.den) (hb : 0 < b.den) :
    ((a.add b).num : ℚ) / (a.add b).den = (a.num : ℚ) / a.den + (b.num : ℚ) / b.den := by
  have ha' : (a.den : ℚ) ≠ 0 := by exact_mod_cast ha.ne'
  have hb' : (b.den : ℚ) ≠ 0 := by exact_mod_cast hb.ne'
  simp only [SFrac.add]
  push_cast
  field_simp

theorem SFrac.mul_val (a b : SFrac) : ((a.mul b).num : ℚ) / (a.mul b).den = (a.num : ℚ) / a.den * ((b.num : ℚ) / b.den) := by
  simp only [SFrac.mul]
  push_cast
  rw [mul_div_mul_comm]

theorem signedVal_mul (x y : Bool) (u v : ℚ) : signedVal (x != y) (u * v) = signedVal x u * signedVal y v := by
  unfold signedVal
  cases x <;> cases y <;> simp

theorem signedVal_not (x : Bool) (u : ℚ) : signedVal (!x) u = -signedVal x u := by
  unfold signedVal
  cases x <;> simp

/-- The exact sum of two finite numbers, rounded once. -/
theorem add_fin_gives (ty rm : Nat) (fz : Bool) (x y : Bool) (n n' : Nat) {d d' : Nat} (hd : 0 < d) (hd' : 0 < d') :
    let r := (fmtOf ty).add rm fz (.fin x n d) (.fin y n' d')
    fpGives ty rm fz (signedVal x ((n : ℚ) / d) + signedVal y ((n' : ℚ) / d'))
      (if decide (n = 0) && decide (n' = 0) && x == y then x else rm == 3) r.1 r.2 := by
  have hg := roundS_gives ty rm fz (if decide (n = 0) && decide (n' = 0) && x == y then x else zeroSumNeg rm)
    (x := (SFrac.of x n d).add (SFrac.of y n' d')) (Nat.mul_pos hd hd')
  rw [SFrac.add_val hd hd', SFrac.of_val, SFrac.of_val] at hg
  exact hg

theorem mul_fin_gives (ty rm : Nat) (fz : Bool) (x y : Bool) (n n' : Nat) {d d' : Nat} (hd : 0 < d) (hd' : 0 < d') :
    let r := (fmtOf ty).mul rm fz (.fin x n d) (.fin y n' d')
    fpGives ty rm fz (signedVal x ((n : ℚ) / d) * signedVal y ((n' : ℚ) / d')) (x != y) r.1 r.2 := by
  have hg := round_gives ty rm fz (x != y) (n * n') (Nat.mul_pos hd hd')
  rw [Nat.cast_mul, Nat.cast_mul, mul_div_mul_comm, signedVal_mul] at hg
  exact hg

theorem fma_fin_gives (ty rm : Nat) (fz : Bool) (x y z : Bool) (n n' m : Nat) {d d' e : Nat} (hd : 0 < d) (hd' : 0 < d') (he : 0 < e) :
    let r := (fmtOf ty).fma rm fz (.fin x n d) (.fin y n' d') (.fin z m e)
    fpGives ty rm fz (signedVal x ((n : ℚ) / d) * signedVal y ((n' : ℚ) / d') + signedVal z ((m : ℚ) / e))
      (if decide (n * n' = 0) && decide (m = 0) && (x != y) == z then z else rm == 3) r.1 r.2 := by
  have hdd : 0 < d * d' := Nat.mul_pos hd hd'
  have hg := roundS_gives ty rm fz (if decide (n * n' = 0) && decide (m = 0) && (x != y) == z then z else zeroSumNeg rm)
    (x := (SFrac.of (x != y) (n * n') (d * d')).add (SFrac.of z m e)) (Nat.mul_pos hdd he)
  rw [SFrac.add_val hdd he, SFrac.of_val, SFrac.of_val, Nat.cast_mul, Nat.cast_mul, mul_div_mul_comm, signedVal_mul] at hg
  exact hg

/-! ### NaNs and infinities -/

theorem add_nan (f : Fmt) (rm : Nat) (fz : Bool) {a b : Num} (h : a.isNan = true ∨ b.isNan = true) :
    f.add rm fz a b = (f.nanBits, a.sigEv ||| b.sigEv) := by
  cases a <;> cases b <;> simp [Num.isNan] at h <;> rfl

theorem mul_nan (f : Fmt) (rm : Nat) (fz : Bool) {a b : Num} (h : a.isNan = true ∨ b.isNan = true) :
    f.mul rm fz a b = (f.nanBits, a.sigEv ||| b.sigEv) := by
  cases a <;> cases b <;> simp [Num.isNan] at h <;> rfl

theorem add_inf_fin (f : Fmt) (rm : Nat) (fz x y : Bool) (n d : Nat) : f.add rm fz (.inf x) (.fin y n d) = (f.signed x f.infBits, 0) := by
  simp [Fmt.add, Num.sigEv, evNone]

theorem add_inf_inf (f : Fmt) (rm : Nat) (fz x y : Bool) :
    f.add rm fz (.inf x) (.inf y) = if x = y then (f.signed x f.infBits, 0) else (f.nanBits, 1) := by
  simp [Fmt.add, Num.sigEv, evNone, evInv]

theorem mul_inf_fin (f : Fmt) (rm : Nat) (fz x y : Bool) (n d : Nat) :
    f.mul rm fz (.inf x) (.fin y n d) = if n = 0 then (f.nanBits, 1) else (f.signed (x != y) f.infBits, 0) := by
  simp [Fmt.mul, Num.sigEv, evNone, evInv]

theorem negate_isNan (a : Num) : a.negate.isNan = a.isNan := by cases a <;> rfl
theorem negate_sigEv (a : Num) : a.negate.sigEv = a.sigEv := by cases a <;> rfl

/-! ### The least and the greatest (R114, R137) -/

/-- Does b replace a as the least, or as the greatest? -/
def replaces (greatest : Bool) (a b : Num) : Bool := if greatest then a.below b else b.below a
/-- The lesser or the greater of two. -/
def pick2 (greatest : Bool) (a b : Num) : Num := if greatest then a.max2 b else a.min2 b

theorem pick2_eq (greatest : Bool) (a b : Num) : pick2 greatest a b =
    if a.isNan then (if b.isNan then .nan false else b) else if b.isNan then a else if replaces greatest a b then b else a := by
  cases greatest <;> rfl

theorem fpKey_eq (ty p : Nat) : fpKey ty p = if fpNeg ty p then -1 - ((p % fpSign ty : Nat) : Int) else ((p % fpSign ty : Nat) : Int) := rfl

theorem Reads.below_iff {ty p q : Nat} {a b : Num} (ha : Reads ty p a) (hb : Reads ty q b) (hna : ¬ fpNan ty p) (hnb : ¬ fpNan ty q) :
    a.below b = true ↔ fpKey ty p < fpKey ty q := by
  rw [fpKey_eq, fpKey_eq]
  cases a with
  | nan s => exact absurd ha.1 hna
  | inf x =>
    obtain ⟨hp, rfl⟩ := ha
    rw [show p % fpSign ty = fpTop ty from hp]
    cases b with
    | nan s => exact absurd hb.1 hnb
    | inf y =>
      obtain ⟨hq, rfl⟩ := hb
      rw [show q % fpSign ty = fpTop ty from hq]
      cases fpNeg ty p <;> cases fpNeg ty q <;> simp [Num.below] <;> omega
    | fin y n' d' =>
      obtain ⟨hq, rfl, -, -⟩ := hb
      unfold fpFinite at hq
      cases fpNeg ty p <;> cases fpNeg ty q <;> simp [Num.below] <;> omega
  | fin x n d =>
    have hav := ha.fin_val
    have haz := ha.fin_zero_iff
    obtain ⟨hp, rfl, hd, hpv⟩ := ha
    unfold fpFinite at hp
    cases b with
    | nan s => exact absurd hb.1 hnb
    | inf y =>
      obtain ⟨hq, rfl⟩ := hb
      rw [show q % fpSign ty = fpTop ty from hq]
      cases fpNeg ty p <;> cases fpNeg ty q <;> simp [Num.below] <;> omega
    | fin y n' d' =>
      have hbz := hb.fin_zero_iff
      obtain ⟨hq, rfl, hd', hqv⟩ := hb
      have hlt := (fpMag_strictMono ty).lt_iff_lt (a := p % fpSign ty) (b := q % fpSign ty)
      have hgt := (fpMag_strictMono ty).lt_iff_lt (a := q % fpSign ty) (b := p % fpSign ty)
      have h0 := fpMag_nonneg ty (p % fpSign ty)
      have h0' := fpMag_nonneg ty (q % fpSign ty)
      by_cases hz : n = 0 ∧ n' = 0
      · rw [haz.mp hz.1, hbz.mp hz.2, Num.below, hz.1, hz.2]
        cases fpNeg ty p <;> cases fpNeg ty q <;> simp
      · have hz' : (decide (n = 0) && decide (n' = 0)) = false := by simpa using hz
        have hm : p % fpSign ty ≠ 0 ∨ q % fpSign ty ≠ 0 := by
          rw [← not_and_or, ← haz, ← hbz]
          exact hz
        rw [Num.below, if_neg (by rw [hz']; decide), SFrac.lt_iff hd hd', SFrac.of_val, SFrac.of_val, hpv, hqv]
        cases fpNeg ty p <;> cases fpNeg ty q <;> simp only [signedVal, if_true, if_false, Bool.false_eq_true, one_mul, neg_one_mul]
        · rw [hlt]
          omega
        · refine iff_of_false (by linarith) (by omega)
        · refine iff_of_true ?_ (by omega)
          rcases hm with h | h
          · have := lt_of_le_of_ne h0 (fun he => h (fpMag_eq_zero.mp he.symm))
            linarith
          · have := lt_of_le_of_ne h0' (fun he => h (fpMag_eq_zero.mp he.symm))
            linarith
        · rw [neg_lt_neg_iff, hgt]
          omega

/-- a is the least, or the greatest, of the patterns l; a NaN where all of them are. -/
def Picked (ty : Nat) (greatest : Bool) (l : List Nat) (a : Num) : Prop :=
  ((∀ x ∈ l, fpNan ty x) ∧ a.isNan = true) ∨
  ∃ p ∈ l, ¬ fpNan ty p ∧ Reads ty p a ∧
    ∀ x ∈ l, ¬ fpNan ty x → if greatest then fpKey ty x ≤ fpKey ty p else fpKey ty p ≤ fpKey ty x

theorem Picked.one {ty p : Nat} {a : Num} (greatest : Bool) (h : Reads ty p a) : Picked ty greatest [p] a := by
  by_cases hn : fpNan ty p
  · exact .inl ⟨fun x hx => List.mem_singleton.mp hx ▸ hn, h.isNan_iff.mpr hn⟩
  · refine .inr ⟨p, List.mem_singleton_self p, hn, h, fun x hx _ => ?_⟩
    rw [List.mem_singleton.mp hx]
    split <;> exact le_rfl

theorem Picked.step {ty : Nat} {greatest : Bool} {l : List Nat} {a b : Num} {q : Nat} (h : Picked ty greatest l a) (hb : Reads ty q b) :
    Picked ty greatest (l ++ [q]) (pick2 greatest a b) := by
  have hmem (x : Nat) : x ∈ l ++ [q] ↔ x ∈ l ∨ x = q := by rw [List.mem_append, List.mem_singleton]
  rw [pick2_eq]
  rcases h with ⟨hl, ha⟩ | ⟨p, hp, hpn, ha, hbest⟩
  · rw [if_pos ha]
    by_cases hq : fpNan ty q
    · rw [if_pos (hb.isNan_iff.mpr hq)]
      refine .inl ⟨fun x hx => ?_, rfl⟩
      rcases (hmem x).mp hx with h | rfl
      · exact hl x h
      · exact hq
    · rw [if_neg (fun h => hq (hb.isNan_iff.mp h))]
      refine .inr ⟨q, (hmem q).mpr (.inr rfl), hq, hb, fun x hx hxn => ?_⟩
      rcases (hmem x).mp hx with h | rfl
      · exact absurd (hl x h) hxn
      · split <;> exact le_rfl
  · rw [if_neg (fun h => hpn (ha.isNan_iff.mp h))]
    by_cases hq : fpNan ty q
    · rw [if_pos (hb.isNan_iff.mpr hq)]
      refine .inr ⟨p, (hmem p).mpr (.inl hp), hpn, ha, fun x hx hxn => ?_⟩
      rcases (hmem x).mp hx with h | rfl
      · exact hbest x h hxn
      · exact absurd hq hxn
    · rw [if_neg (fun h => hq (hb.isNan_iff.mp h))]
      have hrep : replaces greatest a b = true ↔ if greatest then fpKey ty p < fpKey ty q else fpKey ty q < fpKey ty p := by
        cases greatest
        · exact hb.below_iff ha hq hpn
        · exact ha.below_iff hb hpn hq
      by_cases hr : replaces greatest a b = true
      · rw [if_pos hr]
        have hkey := hrep.mp hr
        refine .inr ⟨q, (hmem q).mpr (.inr rfl), hq, hb, fun x hx hxn => ?_⟩
        rcases (hmem x).mp hx with h | rfl
        · have hx := hbest x h hxn
          cases greatest
          · exact (le_of_lt hkey).trans hx
          · exact le_trans hx (le_of_lt hkey)
        · split <;> exact le_rfl
      · rw [if_neg hr]
        have hkey := fun h => hr (hrep.mpr h)
        refine .inr ⟨p, (hmem p).mpr (.inl hp), hpn, ha, fun x hx hxn => ?_⟩
        rcases (hmem x).mp hx with h | rfl
        · exact hbest x h hxn
        · cases greatest
          · exact not_lt.mp hkey
          · exact not_lt.mp hkey

/-- The pattern that is written. -/
theorem Picked.write {ty : Nat} {greatest : Bool} {l : List Nat} {a : Num} (h : Picked ty greatest l a) (hl : ∀ x ∈ l, x < 2 * fpSign ty) :
    fpPicks ty greatest l ((fmtOf ty).write a) := by
  rcases h with ⟨hall, ha⟩ | ⟨p, hp, hpn, ha, hbest⟩
  · refine ⟨fun _ => ?_, fun ⟨x, hx, hxn⟩ => absurd (hall x hx) hxn⟩
    cases a with
    | nan s => exact fmtOf_nanBits ty
    | inf s => cases ha
    | fin neg n d => cases ha
  · rw [ha.write (hl p hp) hpn]
    exact ⟨fun hall => absurd (hall p hp) hpn, fun _ => ⟨hp, hpn, hbest⟩⟩

/-! ### A pairable word on patterns -/

theorem two_sign_le (ty : Nat) : 2 * fpSign ty ≤ 2 ^ 32 := by
  rcases fpShape_cases ty with h | h | h <;> simp [fpSign, h]

theorem toNat_pattern {ty v : Nat} (h : v < 2 * fpSign ty) : (BitVec.ofNat 64 v).toNat = v := by
  have := two_sign_le ty
  rw [BitVec.toNat_ofNat]
  exact Nat.mod_eq_of_lt (by omega)

theorem fpQuiet_lt (ty : Nat) : fpQuiet ty < fpSign ty := by
  have h1 := fpTop_add ty
  have h2 := half_normal ty
  have h3 : 0 < 2 ^ (fracBits ty - 1) := Nat.two_pow_pos _
  rw [fpQuiet, show (fpShape ty).2 = fracBits ty from rfl]
  omega

theorem pairable_float {ty : Nat} (h : isFloat ty) (o : NOp) (rm : Nat) (fz sat : Bool) {a b c : Nat} (ha : a < 2 * fpSign ty)
    (hb : b < 2 * fpSign ty) (hc : c < 2 * fpSign ty) :
    pairable o ty rm fz sat (BitVec.ofNat 64 a) (BitVec.ofNat 64 b) (BitVec.ofNat 64 c) =
      { val := BitVec.ofNat 64 (fpOp o (fmtOf ty) rm fz a b c).1, ev := (fpOp o (fmtOf ty) rm fz a b c).2 } := by
  unfold pairable
  rw [if_pos h.isFp]
  dsimp only
  rw [h.width, toNat_pattern ha, toNat_pattern hb, toNat_pattern hc, Nat.mod_eq_of_lt ha, Nat.mod_eq_of_lt hb,
    Nat.mod_eq_of_lt hc]

/-- A pattern of an infinity is its sign and the infinity. -/
theorem signed_inf {ty x : Nat} (hx : x < 2 * fpSign ty) (hi : fpInf ty x) : (fmtOf ty).signed (fpNeg ty x) (fmtOf ty).infBits = x := by
  rw [fmtOf_signed, fmtOf_infBits, ← show x % fpSign ty = fpTop ty from hi]
  exact (pattern_split hx).symm

/-- Patterns of a type with the numbers that they are read as. -/
structure Operands (ty rm : Nat) (fz sat : Bool) (a0 b0 c0 : Nat) : Prop where
  float : isFloat ty
  a : a0 < 2 * fpSign ty
  b : b0 < 2 * fpSign ty
  c : c0 < 2 * fpSign ty

namespace Operands
variable {ty rm : Nat} {fz sat : Bool} {a0 b0 c0 : Nat} (h : Operands ty rm fz sat a0 b0 c0)
include h

theorem out (o : NOp) : pairable o ty rm fz sat (BitVec.ofNat 64 a0) (BitVec.ofNat 64 b0) (BitVec.ofNat 64 c0) =
    { val := BitVec.ofNat 64 (fpOp o (fmtOf ty) rm fz a0 b0 c0).1, ev := (fpOp o (fmtOf ty) rm fz a0 b0 c0).2 } :=
  pairable_float h.float o rm fz sat h.a h.b h.c

theorem readsA : Reads ty (fpIn ty fz a0) ((fmtOf ty).read fz a0) := reads h.a fz
theorem readsB : Reads ty (fpIn ty fz b0) ((fmtOf ty).read fz b0) := reads h.b fz
theorem readsC : Reads ty (fpIn ty fz c0) ((fmtOf ty).read fz c0) := reads h.c fz

/-- A result that rounds once is the word's. -/
theorem gives {o : NOp} {q : ℚ} {neg0 : Bool} {r : Nat × Ev} (hr : fpOp o (fmtOf ty) rm fz a0 b0 c0 = r)
    (hg : fpGives ty rm fz q neg0 r.1 r.2) :
    let out := pairable o ty rm fz sat (BitVec.ofNat 64 a0) (BitVec.ofNat 64 b0) (BitVec.ofNat 64 c0)
    fpGives ty rm fz q neg0 out.val.toNat out.ev := by
  intro out
  rw [show out = _ from h.out o, hr]
  dsimp only
  rw [toNat_pattern (fpGives_lt hg)]
  exact hg

/-- The pattern and the events of a word. -/
theorem val_ev {o : NOp} {v : Nat} {e : Ev} (hr : fpOp o (fmtOf ty) rm fz a0 b0 c0 = (v, e)) (hv : v < 2 * fpSign ty) :
    let out := pairable o ty rm fz sat (BitVec.ofNat 64 a0) (BitVec.ofNat 64 b0) (BitVec.ofNat 64 c0)
    out.val.toNat = v ∧ out.ev = e := by
  intro out
  rw [show out = _ from h.out o, hr]
  exact ⟨toNat_pattern hv, rfl⟩

theorem finite (hfa : fpFinite ty (fpIn ty fz a0)) (hfb : fpFinite ty (fpIn ty fz b0)) :
    let out (o : NOp) := pairable o ty rm fz sat (BitVec.ofNat 64 a0) (BitVec.ofNat 64 b0) (BitVec.ofNat 64 c0)
    let a := fpIn ty fz a0
    let b := fpIn ty fz b0
    let c := fpIn ty fz c0
    let v := fpVal ty
    let neg := fpNeg ty
    let zero (x : Nat) : Bool := decide (x % fpSign ty = 0)
    let gives (o : NOp) (q : ℚ) (neg0 : Bool) : Prop := fpGives ty rm fz q neg0 (out o).val.toNat (out o).ev
    gives .add (v a + v b) (if zero a && zero b && neg a == neg b then neg a else rm == 3) ∧
      gives .sub (v a - v b) (if zero a && zero b && neg a != neg b then neg a else rm == 3) ∧
      gives .mul (v a * v b) (neg a != neg b) ∧
      (fpFinite ty c → gives .fma (v a * v b + v c)
        (if (zero a || zero b) && zero c && (neg a != neg b) == neg c then neg c else rm == 3)) := by
  have ha := h.readsA
  have hb := h.readsB
  have hc := h.readsC
  obtain ⟨x, n, d, hae⟩ := ha.fin_of hfa
  obtain ⟨y, n', d', hbe⟩ := hb.fin_of hfb
  rw [hae] at ha
  rw [hbe] at hb
  intro out a b c v neg zero gives
  have hza : zero a = decide (n = 0) := decide_eq_decide.mpr ha.fin_zero_iff.symm
  have hzb : zero b = decide (n' = 0) := decide_eq_decide.mpr hb.fin_zero_iff.symm
  have hna : neg a = x := ha.2.1.symm
  have hnb : neg b = y := hb.2.1.symm
  have hva : v a = signedVal x ((n : ℚ) / d) := ha.fin_val
  have hvb : v b = signedVal y ((n' : ℚ) / d') := hb.fin_val
  have hd := ha.2.2.1
  have hd' := hb.2.2.1
  refine ⟨?_, ?_, ?_, fun hfc => ?_⟩
  · rw [hza, hzb, hna, hnb, hva, hvb]
    refine h.gives rfl ?_
    rw [fpOp, hae, hbe]
    exact add_fin_gives ty rm fz x y n n' hd hd'
  · have hneq : (x != y) = (x == !y) := by cases x <;> cases y <;> rfl
    rw [hza, hzb, hna, hnb, hva, hvb, sub_eq_add_neg, ← signedVal_not, hneq]
    refine h.gives rfl ?_
    rw [fpOp, hae, hbe]
    exact add_fin_gives ty rm fz x (!y) n n' hd hd'
  · rw [hna, hnb, hva, hvb]
    refine h.gives rfl ?_
    rw [fpOp, hae, hbe]
    exact mul_fin_gives ty rm fz x y n n' hd hd'
  · obtain ⟨z, m, e, hce⟩ := hc.fin_of hfc
    rw [hce] at hc
    have hzc : zero c = decide (m = 0) := decide_eq_decide.mpr hc.fin_zero_iff.symm
    have hnc : neg c = z := hc.2.1.symm
    have hvc : v c = signedVal z ((m : ℚ) / e) := hc.fin_val
    have hprod : (decide (n = 0) || decide (n' = 0)) = decide (n * n' = 0) := by simp
    rw [hza, hzb, hzc, hna, hnb, hnc, hva, hvb, hvc, hprod]
    refine h.gives rfl ?_
    rw [fpOp, hae, hbe, hce]
    exact fma_fin_gives ty rm fz x y z n n' m hd hd' hc.2.2.1

theorem nans (hn : fpNan ty (fpIn ty fz a0) ∨ fpNan ty (fpIn ty fz b0)) (o : NOp) (ho : o = .add ∨ o = .sub ∨ o = .mul) :
    let out := pairable o ty rm fz sat (BitVec.ofNat 64 a0) (BitVec.ofNat 64 b0) (BitVec.ofNat 64 c0)
    out.val.toNat = fpQuiet ty ∧ fpInv ty [fpIn ty fz a0, fpIn ty fz b0] out.ev := by
  have hnum : ((fmtOf ty).read fz a0).isNan = true ∨ ((fmtOf ty).read fz b0).isNan = true :=
    hn.imp h.readsA.isNan_iff.mpr h.readsB.isNan_iff.mpr
  have hnegate : ((fmtOf ty).read fz a0).isNan = true ∨ ((fmtOf ty).read fz b0).negate.isNan = true := by
    rwa [negate_isNan]
  have hop : fpOp o (fmtOf ty) rm fz a0 b0 c0 = (fpQuiet ty, ((fmtOf ty).read fz a0).sigEv ||| ((fmtOf ty).read fz b0).sigEv) := by
    rw [← fmtOf_nanBits]
    rcases ho with rfl | rfl | rfl
    · exact add_nan _ rm fz hnum
    · exact (add_nan _ rm fz hnegate).trans (by rw [negate_sigEv])
    · exact mul_nan _ rm fz hnum
  obtain ⟨hv, he⟩ := h.val_ev (sat := sat) hop (by have := fpQuiet_lt ty; omega)
  refine ⟨hv, ?_⟩
  rw [he]
  exact fpInv_append h.readsA.signal h.readsB.signal

theorem infinities (hia : fpInf ty (fpIn ty fz a0)) (hib : fpInf ty (fpIn ty fz b0)) :
    let out (o : NOp) := pairable o ty rm fz sat (BitVec.ofNat 64 a0) (BitVec.ofNat 64 b0) (BitVec.ofNat 64 c0)
    let neg := fpNeg ty
    let a := fpIn ty fz a0
    let b := fpIn ty fz b0
    (neg a ≠ neg b → (out .add).val.toNat = fpQuiet ty ∧ (out .add).ev = 1) ∧
      (neg a = neg b → (out .add).val.toNat = a ∧ (out .add).ev = 0 ∧ (out .sub).val.toNat = fpQuiet ty ∧ (out .sub).ev = 1) := by
  have hq := fpQuiet_lt ty
  have hlt := (fpIn_magnitude h.a fz).2.2
  have hae := h.readsA.inf_of hia
  have hbe := h.readsB.inf_of hib
  intro out neg a b
  have hadd : fpOp .add (fmtOf ty) rm fz a0 b0 c0 = if neg a = neg b then (a, 0) else (fpQuiet ty, 1) := by
    rw [fpOp, hae, hbe]
    exact (add_inf_inf ..).trans (by rw [signed_inf hlt hia, fmtOf_nanBits])
  have hsub : fpOp .sub (fmtOf ty) rm fz a0 b0 c0 = if neg a = !neg b then (a, 0) else (fpQuiet ty, 1) := by
    rw [fpOp, hae, hbe]
    exact (add_inf_inf ..).trans (by rw [signed_inf hlt hia, fmtOf_nanBits])
  refine ⟨fun hne => ?_, fun he => ?_⟩
  · rw [if_neg hne] at hadd
    exact h.val_ev hadd (by omega)
  · rw [if_pos he] at hadd
    rw [if_neg (by rw [he]; simp)] at hsub
    obtain ⟨h1, h2⟩ := h.val_ev (sat := sat) hadd hlt
    obtain ⟨h3, h4⟩ := h.val_ev (sat := sat) hsub (by omega)
    exact ⟨h1, h2, h3, h4⟩

theorem infinity (hia : fpInf ty (fpIn ty fz a0)) (hfb : fpFinite ty (fpIn ty fz b0)) :
    let out (o : NOp) := pairable o ty rm fz sat (BitVec.ofNat 64 a0) (BitVec.ofNat 64 b0) (BitVec.ofNat 64 c0)
    let neg := fpNeg ty
    let zero (x : Nat) : Bool := decide (x % fpSign ty = 0)
    let a := fpIn ty fz a0
    let b := fpIn ty fz b0
    (out .add).val.toNat = a ∧ (out .add).ev = 0 ∧
      (zero b = true → (out .mul).val.toNat = fpQuiet ty ∧ (out .mul).ev = 1) ∧
      (zero b = false → (out .mul).val.toNat % fpSign ty = fpTop ty ∧ neg (out .mul).val.toNat = (neg a != neg b) ∧ (out .mul).ev = 0) := by
  have hq := fpQuiet_lt ty
  have ht := fpTop_lt ty
  have hlt := (fpIn_magnitude h.a fz).2.2
  have hae := h.readsA.inf_of hia
  have hb := h.readsB
  obtain ⟨y, n, d, hbe⟩ := hb.fin_of hfb
  rw [hbe] at hb
  intro out neg zero a b
  have hzb : zero b = decide (n = 0) := decide_eq_decide.mpr hb.fin_zero_iff.symm
  have hnb : neg b = y := hb.2.1.symm
  have hadd : fpOp .add (fmtOf ty) rm fz a0 b0 c0 = (a, 0) := by
    rw [fpOp, hae, hbe]
    exact (add_inf_fin ..).trans (by rw [signed_inf hlt hia])
  have hmul : fpOp .mul (fmtOf ty) rm fz a0 b0 c0 =
      if n = 0 then (fpQuiet ty, 1) else ((if (neg a != neg b) then fpSign ty else 0) + fpTop ty, 0) := by
    rw [fpOp, hae, hbe]
    exact (mul_inf_fin ..).trans (by rw [fmtOf_nanBits, fmtOf_signed, fmtOf_infBits, hnb])
  obtain ⟨h1, h2⟩ := h.val_ev (sat := sat) hadd hlt
  refine ⟨h1, h2, fun hz => ?_, fun hz => ?_⟩
  · rw [if_pos (of_decide_eq_true (hzb.symm.trans hz))] at hmul
    exact h.val_ev hmul (by omega)
  · rw [if_neg (of_decide_eq_false (hzb.symm.trans hz))] at hmul
    obtain ⟨h3, h4⟩ := h.val_ev (sat := sat) hmul (by split <;> omega)
    obtain ⟨h5, h6⟩ := pattern_join ht (neg a != neg b)
    exact ⟨(congrArg (· % fpSign ty) h3).trans h5, (congrArg neg h3).trans h6, h4⟩

/-- `v.min` and `v.max`. -/
theorem picks (greatest : Bool) {o : NOp} (ho : o = if greatest then .max else .min) :
    let out := pairable o ty rm fz sat (BitVec.ofNat 64 a0) (BitVec.ofNat 64 b0) (BitVec.ofNat 64 c0)
    fpPicks ty greatest [fpIn ty fz a0, fpIn ty fz b0] out.val.toNat ∧ fpInv ty [fpIn ty fz a0, fpIn ty fz b0] out.ev := by
  have hlt : ∀ x ∈ [fpIn ty fz a0, fpIn ty fz b0], x < 2 * fpSign ty := by
    intro x hx
    rcases List.mem_cons.mp hx with rfl | hx
    · exact (fpIn_magnitude h.a fz).2.2
    · rw [List.mem_singleton.mp hx]
      exact (fpIn_magnitude h.b fz).2.2
  have hpick := ((Picked.one greatest h.readsA).step h.readsB).write hlt
  have hop : fpOp o (fmtOf ty) rm fz a0 b0 c0 = ((fmtOf ty).write (pick2 greatest ((fmtOf ty).read fz a0) ((fmtOf ty).read fz b0)),
      ((fmtOf ty).read fz a0).sigEv ||| ((fmtOf ty).read fz b0).sigEv) := by
    cases greatest <;> rw [ho] <;> rfl
  have hw : (fmtOf ty).write (pick2 greatest ((fmtOf ty).read fz a0) ((fmtOf ty).read fz b0)) < 2 * fpSign ty := by
    by_cases hex : ∃ x ∈ [fpIn ty fz a0, fpIn ty fz b0], ¬ fpNan ty x
    · exact hlt _ (hpick.2 hex).1
    · have := hpick.1 fun x hx => by
        by_contra hc
        exact hex ⟨x, hx, hc⟩
      rw [this]
      have := fpQuiet_lt ty
      omega
  obtain ⟨hv, he⟩ := h.val_ev (sat := sat) hop hw
  refine ⟨?_, ?_⟩
  · rw [hv]
    exact hpick
  · rw [he]
    exact fpInv_append h.readsA.signal h.readsB.signal

theorem signs (hn : ¬ fpNan ty (fpIn ty fz a0)) :
    let out (o : NOp) := pairable o ty rm fz sat (BitVec.ofNat 64 a0) (BitVec.ofNat 64 b0) (BitVec.ofNat 64 c0)
    let a := fpIn ty fz a0
    (out .abs).val.toNat = a % fpSign ty ∧ (out .abs).ev = 0 ∧
      (out .neg).val.toNat = (if fpNeg ty a then a % fpSign ty else fpSign ty + a) ∧ (out .neg).ev = 0 := by
  intro out a
  have ha := h.readsA
  have hlt : a < 2 * fpSign ty := (fpIn_magnitude h.a fz).2.2
  have hmag : a % fpSign ty < fpSign ty := Nat.mod_lt _ (by omega)
  have hsplit := pattern_split hlt
  -- the pattern with a sign of our own
  have hwrite (s : Bool) (x : Num) (hx : Reads ty ((if s then fpSign ty else 0) + a % fpSign ty) x)
      (hxn : ¬ fpNan ty ((if s then fpSign ty else 0) + a % fpSign ty)) :
      (fmtOf ty).write x = (if s then fpSign ty else 0) + a % fpSign ty := hx.write (by split <;> omega) hxn
  have hjoin (s : Bool) := pattern_join hmag s
  have hnan (s : Bool) : ¬ fpNan ty ((if s then fpSign ty else 0) + a % fpSign ty) := by
    rw [fpNan, (hjoin s).1]
    exact hn
  have hmagn (s : Bool) : (if s then fpSign ty else 0) + a % fpSign ty < 2 * fpSign ty := by split <;> omega
  have habs : fpOp .abs (fmtOf ty) rm fz a0 b0 c0 = (a % fpSign ty, 0) := by
    cases hr : (fmtOf ty).read fz a0 with
    | nan s =>
      rw [hr] at ha
      exact absurd ha.1 hn
    | inf s =>
      rw [hr] at ha
      rw [fpOp, hr, show a % fpSign ty = fpTop ty from ha.1, ← fmtOf_infBits]
      rfl
    | fin s n d =>
      rw [hr] at ha
      obtain ⟨hfin, -, hd, hv⟩ := ha
      have hw := hwrite false (.fin false n d) ⟨by rw [fpFinite, (hjoin false).1]; exact hfin, (hjoin false).2.symm, hd,
        by rw [(hjoin false).1]; exact hv⟩ (hnan false)
      rw [if_neg Bool.false_ne_true, Nat.zero_add] at hw
      rw [fpOp, hr, ← hw]
      rfl
  have hneg : fpOp .neg (fmtOf ty) rm fz a0 b0 c0 = ((if !fpNeg ty a then fpSign ty else 0) + a % fpSign ty, 0) := by
    cases hr : (fmtOf ty).read fz a0 with
    | nan s =>
      rw [hr] at ha
      exact absurd ha.1 hn
    | inf s =>
      rw [hr] at ha
      rw [fpOp, hr, ← hwrite (!fpNeg ty a) (.inf (!s)) ⟨by rw [fpInf, (hjoin _).1]; exact ha.1, by rw [(hjoin _).2, ha.2]⟩ (hnan _)]
      rfl
    | fin s n d =>
      rw [hr] at ha
      obtain ⟨hfin, hs, hd, hv⟩ := ha
      rw [fpOp, hr, ← hwrite (!fpNeg ty a) (.fin (!s) n d) ⟨by rw [fpFinite, (hjoin _).1]; exact hfin, by rw [(hjoin _).2, hs], hd,
        by rw [(hjoin _).1]; exact hv⟩ (hnan _)]
      rfl
  obtain ⟨h1, h2⟩ := h.val_ev (sat := sat) habs (by omega)
  obtain ⟨h3, h4⟩ := h.val_ev (sat := sat) hneg (hmagn _)
  refine ⟨h1, h2, h3.trans ?_, h4⟩
  cases hs : fpNeg ty a
  · rw [hs, if_neg Bool.false_ne_true, Nat.zero_add] at hsplit
    rw [Bool.not_false, if_pos rfl, if_neg Bool.false_ne_true, ← hsplit]
  · rw [Bool.not_true, if_neg Bool.false_ne_true, if_pos rfl, Nat.zero_add]

end Operands

/-- R43 to R47, R113, R114. -/
theorem floatingResults : Claims.FloatingResults := by
  intro ty rm fz sat a0 b0 c0 hty ha hb hc out a b c v neg zero gives
  have h : Operands ty rm fz sat a0 b0 c0 := ⟨hty, ha, hb, hc⟩
  exact ⟨fun hfa hfb => (h.finite hfa hfb :), fun hn o ho => (h.nans hn o ho :), fun hia hib => (h.infinities hia hib :),
    fun hia hfb => (h.infinity hia hfb :), (h.picks false rfl :), (h.picks true rfl :), fun hn => (h.signs hn :)⟩

end Sys2Proof.Machine
end


section
/-!
## Floating-point reductions and the blocks of a pass (R59, R60, R137)
-/

namespace Sys2Proof.Machine

/-! ### Lists of numbers -/

/-- The events of signalling NaNs in a list. -/
theorem fpInv_foldl {ty : Nat} {α : Type} {num : α → Num} {pat : α → Nat} {l : List α} (h : ∀ x ∈ l, Reads ty (pat x) (num x)) {ps : List Nat}
    {e : Ev} (he : fpInv ty ps e) : fpInv ty (ps ++ l.map pat) ((l.map num).foldl (fun e x => e ||| x.sigEv) e) := by
  induction l generalizing ps e with
  | nil => simpa using he
  | cons x l ih =>
    have hx := fpInv_append he (h x (List.mem_cons_self ..)).signal
    have := ih (fun y hy => h y (List.mem_cons_of_mem _ hy)) hx
    rwa [List.append_assoc] at this

theorem fpInv_nil (ty : Nat) : fpInv ty [] evNone := .inr ⟨rfl, fun x hx => by simp at hx⟩

theorem Picked.foldl {ty : Nat} {greatest : Bool} {α : Type} {num : α → Num} {pat : α → Nat} {l : List α}
    (h : ∀ x ∈ l, Reads ty (pat x) (num x)) {ps : List Nat} {a : Num} (ha : Picked ty greatest ps a) :
    Picked ty greatest (ps ++ l.map pat) ((l.map num).foldl (pick2 greatest) a) := by
  induction l generalizing ps a with
  | nil => simpa using ha
  | cons x l ih =>
    have := ih (fun y hy => h y (List.mem_cons_of_mem _ hy)) (ha.step (h x (List.mem_cons_self ..)))
    rwa [List.append_assoc] at this

theorem Picked.nil (ty : Nat) (greatest : Bool) : Picked ty greatest [] (.nan false) := .inl ⟨fun x hx => by simp at hx, rfl⟩

/-- A sum of fractions is exact. -/
theorem foldl_SFrac_add {α : Type} (g : α → SFrac) (l : List α) (hl : ∀ x ∈ l, 0 < (g x).den) {z : SFrac} (hz : 0 < z.den) :
    0 < (l.foldl (fun (acc : SFrac) x => acc.add (g x)) z).den ∧ ((l.foldl (fun (acc : SFrac) x => acc.add (g x)) z).num : ℚ) /
      (l.foldl (fun (acc : SFrac) x => acc.add (g x)) z).den = (z.num : ℚ) / z.den + (l.map fun x => ((g x).num : ℚ) / (g x).den).sum := by
  induction l generalizing z with
  | nil => exact ⟨hz, by simp⟩
  | cons x l ih =>
    have hx := hl x (List.mem_cons_self ..)
    obtain ⟨h1, h2⟩ := ih (fun y hy => hl y (List.mem_cons_of_mem _ hy)) (z := z.add (g x)) (Nat.mul_pos hz hx)
    refine ⟨h1, h2.trans ?_⟩
    rw [SFrac.add_val hz hx, List.map_cons, List.sum_cons]
    ring

theorem foldl_add_congr {α : Type} {f g : α → SFrac} (l : List α) (h : ∀ x, f x = g x) {z : SFrac} :
    (l.map f).foldl SFrac.add z = l.foldl (fun (acc : SFrac) x => acc.add (g x)) z := by
  rw [List.foldl_map, funext h]

/-- A zero of a sign. -/
def Num.isZeroOf (neg : Bool) : Num → Bool
  | .fin s n _ => s == neg && n == 0
  | _ => false

theorem zero_sign_congr {p p' q q' : Num → Bool} (l : List Num) (z : Bool) (hp : ∀ x, p x = p' x) (hq : ∀ x, q x = q' x) :
    (if l.all p then true else if l.all q then false else z) = if l.all p' then true else if l.all q' then false else z := by
  rw [funext hp, funext hq]

/-! ### The exact sum (R137) -/

section
variable {ty : Nat} {α : Type} {num : α → Num} {pat : α → Nat} {l : List α} (hr : ∀ x ∈ l, Reads ty (pat x) (num x))
  (hlt : ∀ x ∈ l, pat x < 2 * fpSign ty)
include hr

theorem any_isNan_iff : (l.map num).any Num.isNan = true ↔ ∃ x ∈ l.map pat, fpNan ty x := by
  rw [List.any_map, List.any_eq_true]
  constructor
  · rintro ⟨x, hx, hn⟩
    exact ⟨pat x, List.mem_map_of_mem hx, (hr x hx).isNan_iff.mp hn⟩
  · rintro ⟨p, hp, hn⟩
    obtain ⟨x, hx, rfl⟩ := List.mem_map.mp hp
    exact ⟨x, hx, (hr x hx).isNan_iff.mpr hn⟩

theorem fpSum_nan (rm : Nat) (fz : Bool) (hn : ∃ x ∈ l.map pat, fpNan ty x) :
    (fpSum (fmtOf ty) rm fz (l.map num)).1 = fpQuiet ty ∧ fpInv ty (l.map pat) (fpSum (fmtOf ty) rm fz (l.map num)).2 := by
  have hinv := fpInv_foldl hr (fpInv_nil ty)
  unfold fpSum
  dsimp only
  rw [if_pos ((any_isNan_iff hr).mpr hn)]
  exact ⟨fmtOf_nanBits ty, hinv⟩

include hlt

theorem any_inf_iff (neg : Bool) : ((l.map num).any fun x => x == .inf neg) = true ↔ (if neg then fpSign ty else 0) + fpTop ty ∈ l.map pat := by
  rw [List.any_map, List.any_eq_true, List.mem_map]
  refine exists_congr fun x => and_congr_right fun hx => ?_
  rw [Function.comp_apply, beq_iff_eq]
  have hread := hr x hx
  constructor
  · intro he
    rw [he] at hread
    obtain ⟨hi, hs⟩ := hread
    rw [pattern_split (hlt x hx), ← hs, show pat x % fpSign ty = fpTop ty from hi]
  · intro he
    obtain ⟨h1, h2⟩ := pattern_join (fpTop_lt ty) neg
    have hi : fpInf ty (pat x) := by rw [fpInf, he, h1]
    rw [hread.inf_of hi, he, h2]

theorem fpSum_inf (rm : Nat) (fz : Bool) (hn : ∀ x ∈ l.map pat, ¬ fpNan ty x) (ht : fpTop ty ∈ l.map pat) :
    (fpSign ty + fpTop ty ∈ l.map pat → fpSum (fmtOf ty) rm fz (l.map num) = (fpQuiet ty, 1)) ∧
      (fpSign ty + fpTop ty ∉ l.map pat → fpSum (fmtOf ty) rm fz (l.map num) = (fpTop ty, 0)) := by
  have hnan : ¬ (l.map num).any Num.isNan = true := fun h => by
    obtain ⟨x, hx, hxn⟩ := (any_isNan_iff hr).mp h
    exact hn x hx hxn
  have hpos : ((l.map num).any fun x => x == .inf false) = true := (any_inf_iff hr hlt false).mpr (by simpa using ht)
  have hneg := any_inf_iff hr hlt true
  rw [if_pos rfl] at hneg
  unfold fpSum
  dsimp only
  rw [if_neg hnan, hpos, Bool.true_and, if_pos rfl]
  refine ⟨fun h => ?_, fun h => ?_⟩
  · rw [if_pos (hneg.mpr h), fmtOf_nanBits]
    rfl
  · rw [if_neg (fun hc => h (hneg.mp hc)), fmtOf_infBits]
    rfl

/-- The zeros of one sign. -/
theorem all_zeros (neg : Bool) (hf : ∀ x ∈ l.map pat, fpFinite ty x) : (l.map num).all (Num.isZeroOf neg) = (l.map pat).all (· == if neg then fpSign ty else 0) := by
  rw [Bool.eq_iff_iff, List.all_map, List.all_map, List.all_eq_true, List.all_eq_true]
  refine forall_congr' fun x => forall_congr' fun hx => ?_
  have hread := hr x hx
  obtain ⟨s, n, d, he⟩ := hread.fin_of (hf _ (List.mem_map_of_mem hx))
  rw [he] at hread
  have hz := hread.fin_zero_iff
  have hsplit := pattern_split (hlt x hx)
  have hsign : 0 < fpSign ty := Nat.two_pow_pos _
  obtain ⟨h1, h2⟩ := pattern_join hsign neg
  rw [Nat.add_zero] at h1 h2
  rw [Function.comp_apply, Function.comp_apply, he, Num.isZeroOf, Bool.and_eq_true, beq_iff_eq, beq_iff_eq, beq_iff_eq, hz]
  constructor
  · rintro ⟨rfl, h0⟩
    rw [hsplit, h0, Nat.add_zero, ← hread.2.1]
  · intro hpat
    exact ⟨by rw [hread.2.1, hpat, h2], by rw [hpat, h1]⟩

theorem fpSum_finite (rm : Nat) (fz : Bool) (hf : ∀ x ∈ l.map pat, fpFinite ty x) :
    fpGives ty rm fz ((l.map pat).map (fpVal ty)).sum
      (if (l.map pat).all (· == fpSign ty) then true else if (l.map pat).all (· == 0) then false else rm == 3)
      (fpSum (fmtOf ty) rm fz (l.map num)).1 (fpSum (fmtOf ty) rm fz (l.map num)).2 := by
  have hnan : ¬ (l.map num).any Num.isNan = true := fun h => by
    obtain ⟨x, hx, hxn⟩ := (any_isNan_iff hr).mp h
    have := hf x hx
    unfold fpFinite at this
    unfold fpNan at hxn
    omega
  have hinf (neg : Bool) : ((l.map num).any fun x => x == .inf neg) = false := by
    rw [← Bool.not_eq_true, any_inf_iff hr hlt neg]
    intro h
    have := hf _ h
    rw [fpFinite, (pattern_join (fpTop_lt ty) neg).1] at this
    exact lt_irrefl _ this
  have hfrac : ∀ x ∈ l, 0 < (num x).frac.den ∧ ((num x).frac.num : ℚ) / (num x).frac.den = fpVal ty (pat x) := by
    intro x hx
    have hread := hr x hx
    obtain ⟨s, n, d, he⟩ := hread.fin_of (hf _ (List.mem_map_of_mem hx))
    rw [he] at hread ⊢
    exact ⟨hread.2.2.1, (SFrac.of_val s n d).trans hread.fin_val.symm⟩
  obtain ⟨hden, hval⟩ := foldl_SFrac_add (fun x => (num x).frac) l (fun x hx => (hfrac x hx).1) (z := ⟨0, 1⟩) Nat.one_pos
  have hsum : ((l.map pat).map (fpVal ty)).sum = ((l.foldl (fun (acc : SFrac) x => acc.add (num x).frac) ⟨0, 1⟩).num : ℚ) /
      (l.foldl (fun (acc : SFrac) x => acc.add (num x).frac) ⟨0, 1⟩).den := by
    rw [hval, List.map_map, List.map_congr_left fun x hx => (hfrac x hx).2]
    simp [Function.comp_def]
  have hg := roundS_gives ty rm fz (if (l.map pat).all (· == fpSign ty) then true else if (l.map pat).all (· == 0) then false else rm == 3) hden
  rw [← hsum] at hg
  have hfp : fpSum (fmtOf ty) rm fz (l.map num) = (fmtOf ty).roundS rm fz
      (if (l.map pat).all (· == fpSign ty) then true else if (l.map pat).all (· == 0) then false else rm == 3)
      (l.foldl (fun (acc : SFrac) x => acc.add (num x).frac) ⟨0, 1⟩) := by
    unfold fpSum
    dsimp only
    rw [if_neg hnan, hinf false, hinf true, Bool.false_and, if_neg Bool.false_ne_true, if_neg Bool.false_ne_true]
    refine congrArg₂ ((fmtOf ty).roundS rm fz) ?_ ?_
    · have h1 := all_zeros hr hlt true hf
      have h2 := all_zeros hr hlt false hf
      rw [if_pos rfl] at h1
      rw [if_neg Bool.false_ne_true] at h2
      rw [← h1, ← h2]
      exact zero_sign_congr _ _ (fun x => by cases x <;> simp [Num.isZeroOf]) (fun x => by cases x <;> simp [Num.isZeroOf])
    · rw [List.map_map]
      exact foldl_add_congr l fun x => by
        dsimp only [Function.comp_apply]
        cases num x <;> rfl
  rw [hfp]
  exact hg

end

/-! ### A reduction of a list of words (R137) -/

/-- The pattern and the number of a word. -/
def wordPat (ty : Nat) (fz : Bool) (x : Word) : Nat := fpIn ty fz (x.toNat % (2 * fpSign ty))
def wordNum (ty : Nat) (fz : Bool) (x : Word) : Num := (fmtOf ty).read fz (x.toNat % (2 * fpSign ty))

theorem word_lt (ty : Nat) (x : Word) : x.toNat % (2 * fpSign ty) < 2 * fpSign ty := Nat.mod_lt _ (by have := fpTop_lt ty; omega)

theorem word_reads (ty : Nat) (fz : Bool) (x : Word) : Reads ty (wordPat ty fz x) (wordNum ty fz x) := reads (word_lt ty x) fz

theorem wordPat_lt (ty : Nat) (fz : Bool) (x : Word) : wordPat ty fz x < 2 * fpSign ty := (fpIn_magnitude (word_lt ty x) fz).2.2

section
variable {ty : Nat} (h : isFloat ty) (rm : Nat) (fz sat : Bool) {l : List Word} (hl : l ≠ [])
include h hl

theorem redOver_fpSum : redOver 0 ty rm fz sat l = (BitVec.ofNat 64 (fpSum (fmtOf ty) rm fz (l.map (wordNum ty fz))).1,
    (fpSum (fmtOf ty) rm fz (l.map (wordNum ty fz))).2) := by
  unfold redOver redFold
  rw [if_neg (by simpa using hl), if_pos h.isFp, h.width]
  rfl

theorem redOver_pick (greatest : Bool) : redOver (if greatest then 2 else 1) ty rm fz sat l =
    (BitVec.ofNat 64 ((fmtOf ty).write ((l.map (wordNum ty fz)).foldl (pick2 greatest) (.nan false))),
      (l.map (wordNum ty fz)).foldl (fun e x => e ||| x.sigEv) evNone) := by
  unfold redOver redFold
  rw [if_neg (by simpa using hl), if_pos h.isFp, h.width]
  cases greatest <;> rfl

theorem redOver_picks (greatest : Bool) :
    fpPicks ty greatest (l.map (wordPat ty fz)) (redOver (if greatest then 2 else 1) ty rm fz sat l).1.toNat ∧
      fpInv ty (l.map (wordPat ty fz)) (redOver (if greatest then 2 else 1) ty rm fz sat l).2 := by
  have hr : ∀ x ∈ l, Reads ty (wordPat ty fz x) (wordNum ty fz x) := fun x _ => word_reads ty fz x
  have hlt : ∀ p ∈ l.map (wordPat ty fz), p < 2 * fpSign ty := fun p hp => by
    obtain ⟨x, -, rfl⟩ := List.mem_map.mp hp
    exact wordPat_lt ty fz x
  have hp := ((Picked.nil ty greatest).foldl hr).write hlt
  rw [List.nil_append] at hp
  have hw : (fmtOf ty).write ((l.map (wordNum ty fz)).foldl (pick2 greatest) (.nan false)) < 2 * fpSign ty := by
    by_cases hex : ∃ x ∈ l.map (wordPat ty fz), ¬ fpNan ty x
    · exact hlt _ (hp.2 hex).1
    · have hq := fpQuiet_lt ty
      rw [hp.1 fun x hx => by_contra fun hc => hex ⟨x, hx, hc⟩]
      omega
  rw [redOver_pick h rm fz sat hl greatest]
  dsimp only
  rw [toNat_pattern hw]
  exact ⟨hp, fpInv_foldl hr (fpInv_nil ty)⟩

end

/-- R44, R46, R47, R137. -/
theorem floatingReductions : Claims.FloatingReductions := by
  intro ty rm fz sat l hty hl ins r
  have hr : ∀ x ∈ l, Reads ty (wordPat ty fz x) (wordNum ty fz x) := fun x _ => word_reads ty fz x
  have hlt : ∀ x ∈ l, wordPat ty fz x < 2 * fpSign ty := fun x _ => wordPat_lt ty fz x
  have hsum : r 0 = _ := redOver_fpSum hty rm fz sat hl
  have hq := fpQuiet_lt ty
  have ht := fpTop_lt ty
  refine ⟨fun hf => ?_, fun hn => ?_, fun hn htop => ?_, redOver_picks hty rm fz sat hl false, redOver_picks hty rm fz sat hl true⟩
  · have hg := fpSum_finite hr hlt rm fz hf
    rw [hsum]
    dsimp only
    rw [toNat_pattern (fpGives_lt hg)]
    exact hg
  · obtain ⟨h1, h2⟩ := fpSum_nan hr rm fz hn
    rw [hsum]
    dsimp only
    rw [h1, toNat_pattern (ty := ty) (by omega)]
    exact ⟨rfl, h2⟩
  · obtain ⟨h1, h2⟩ := fpSum_inf hr hlt rm fz hn htop
    rw [hsum]
    dsimp only
    refine ⟨fun hm => ?_, fun hm => ?_⟩
    · rw [h1 hm]
      exact ⟨toNat_pattern (ty := ty) (by omega), rfl⟩
    · rw [h2 hm]
      exact ⟨toNat_pattern (ty := ty) (by omega), rfl⟩

/-! ### Blocks of a pass (R59, R60) -/

/-- A finite number with a denominator. -/
def FiniteNum (x : Num) : Prop := ∃ neg n d, x = .fin neg n d ∧ 0 < d

theorem FiniteNum.frac {x : Num} (h : FiniteNum x) : 0 < x.frac.den ∧ (x.frac.num : ℚ) / x.frac.den = numVal x := by
  obtain ⟨neg, n, d, rfl, hd⟩ := h
  exact ⟨hd, SFrac.of_val neg n d⟩

theorem FiniteNum.classes {x : Num} (h : FiniteNum x) : x.isNan = false ∧ x.isInf = false ∧ x.sigEv = evNone := by
  obtain ⟨neg, n, d, rfl, hd⟩ := h
  exact ⟨rfl, rfl, rfl⟩

theorem FiniteNum.isZero {x : Num} (h : FiniteNum x) : x.isZero = decide (numVal x = 0) := by
  obtain ⟨neg, n, d, rfl, hd⟩ := h
  have hd' : (d : ℚ) ≠ 0 := by exact_mod_cast hd.ne'
  rw [Bool.eq_iff_iff, decide_eq_true_iff]
  have hv : numVal (.fin neg n d) = 0 ↔ (n : ℚ) / d = 0 := signedVal_eq_zero (neg := neg)
  rw [hv, div_eq_zero_iff, or_iff_left hd']
  simp [Num.isZero]

section
variable {ts : List (Num × Num)} (hf : ∀ t ∈ ts, FiniteNum t.1 ∧ FiniteNum t.2)
include hf

theorem block_sig : ts.foldl (fun e t => e ||| t.1.sigEv ||| t.2.sigEv) evNone = evNone := by
  induction ts with
  | nil => rfl
  | cons t ts ih =>
    obtain ⟨h1, h2⟩ := hf t (List.mem_cons_self ..)
    rw [List.foldl_cons, h1.classes.2.2, h2.classes.2.2]
    exact ih fun u hu => hf u (List.mem_cons_of_mem _ hu)

/-- The exact sum of the products. -/
theorem block_sum : 0 < (ts.foldl (fun (acc : SFrac) t => acc.add (t.1.frac.mul t.2.frac)) ⟨0, 1⟩).den ∧
    ((ts.foldl (fun (acc : SFrac) t => acc.add (t.1.frac.mul t.2.frac)) ⟨0, 1⟩).num : ℚ) /
      (ts.foldl (fun (acc : SFrac) t => acc.add (t.1.frac.mul t.2.frac)) ⟨0, 1⟩).den =
      (ts.map fun t => numVal t.1 * numVal t.2).sum := by
  obtain ⟨hd, hv⟩ := foldl_SFrac_add (fun t : Num × Num => t.1.frac.mul t.2.frac) ts
    (fun t ht => Nat.mul_pos (hf t ht).1.frac.1 (hf t ht).2.frac.1) (z := ⟨0, 1⟩) Nat.one_pos
  refine ⟨hd, hv.trans ?_⟩
  rw [Int.cast_zero, zero_div, zero_add]
  refine congrArg List.sum (List.map_congr_left fun t ht => ?_)
  rw [SFrac.mul_val, (hf t ht).1.frac.2, (hf t ht).2.frac.2]

theorem block_zneg : (ts.all fun t => (t.1.isZero || t.2.isZero) && t.1.isNeg != t.2.isNeg) =
    ts.all fun t => decide (numVal t.1 * numVal t.2 = 0) && (t.1.isNeg != t.2.isNeg) := by
  rw [Bool.eq_iff_iff, List.all_eq_true, List.all_eq_true]
  refine forall_congr' fun t => forall_congr' fun ht => ?_
  have hz : (decide (numVal t.1 = 0) || decide (numVal t.2 = 0)) = decide (numVal t.1 * numVal t.2 = 0) := by
    rw [← Bool.decide_or]
    exact decide_eq_decide.mpr mul_eq_zero.symm
  rw [(hf t ht).1.isZero, (hf t ht).2.isZero, hz]

theorem blockValue_finite (sc : SFrac) : blockValue ts (some sc) =
    (fp32.read false (fp32.roundS 0 false (ts.all fun t => decide (numVal t.1 * numVal t.2 = 0) && (t.1.isNeg != t.2.isNeg))
        ((ts.foldl (fun (acc : SFrac) t => acc.add (t.1.frac.mul t.2.frac)) ⟨0, 1⟩).mul sc)).1,
      (fp32.roundS 0 false (ts.all fun t => decide (numVal t.1 * numVal t.2 = 0) && (t.1.isNeg != t.2.isNeg))
        ((ts.foldl (fun (acc : SFrac) t => acc.add (t.1.frac.mul t.2.frac)) ⟨0, 1⟩).mul sc)).2) := by
  have hnan : (ts.any fun t => t.1.isNan || t.2.isNan) = false := by
    rw [List.any_eq_false]
    exact fun t ht => by simp [(hf t ht).1.classes.1, (hf t ht).2.classes.1]
  have hbad : (ts.any fun t => (t.1.isInf && t.2.isZero) || (t.1.isZero && t.2.isInf)) = false := by
    rw [List.any_eq_false]
    exact fun t ht => by simp [(hf t ht).1.classes.2.1, (hf t ht).2.classes.2.1]
  have hinfs : (ts.filter fun t => (t.1.isInf || t.2.isInf) && !t.1.isNan && !t.2.isNan && !t.1.isZero && !t.2.isZero) = [] := by
    rw [List.filter_eq_nil_iff]
    exact fun t ht => by simp [(hf t ht).1.classes.2.1, (hf t ht).2.classes.2.1]
  have hor (e : Ev) : evNone ||| e = e := BitVec.zero_or
  unfold blockValue
  rw [hnan, hbad, hinfs, block_sig hf, ← block_zneg hf]
  simp only [List.map_nil, List.contains_nil, Bool.and_false, Bool.or_false, Bool.false_eq_true, if_false, hor]

end

theorem blockValue_nan {ts : List (Num × Num)} (sc : SFrac) (h : ∃ t ∈ ts, (∃ b, t.1 = .nan b) ∨ ∃ b, t.2 = .nan b) :
    (blockValue ts (some sc)).1 = .nan false := by
  have hnan : (ts.any fun t => t.1.isNan || t.2.isNan) = true := by
    rw [List.any_eq_true]
    obtain ⟨t, ht, h⟩ := h
    refine ⟨t, ht, ?_⟩
    rcases h with ⟨b, h⟩ | ⟨b, h⟩
    · rw [h]
      rfl
    · rw [h]
      exact Bool.or_true _
  unfold blockValue
  rw [hnan]
  rfl

/-- R59, R60. -/
theorem blockValues : Claims.BlockValues := by
  intro ts sc hts hsc finite
  refine ⟨fun hf => ?_, blockValue_nan sc, rfl⟩
  obtain ⟨hd, hv⟩ := block_sum hf
  have hg := roundS_gives 8 0 false (ts.all fun t => decide (numVal t.1 * numVal t.2 = 0) && (t.1.isNeg != t.2.isNeg))
    (x := (ts.foldl (fun (acc : SFrac) t => acc.add (t.1.frac.mul t.2.frac)) ⟨0, 1⟩).mul sc) (Nat.mul_pos hd hsc)
  rw [SFrac.mul_val, hv] at hg
  exact ⟨_, _, blockValue_finite hf sc, hg⟩

end Sys2Proof.Machine
end


section
/-!
## Conversions (R42, R46, R52, R53, R58)
-/

namespace Sys2Proof.Machine

/-! ### Rounding to an integer -/

section
variable (n : Nat) {d : Nat} (hd : 0 < d)
include hd

/-- A fraction is its whole part and less than one. -/
theorem div_parts : (n : ℚ) / d = (n / d : Nat) + ((n % d : Nat) : ℚ) / d ∧ 0 ≤ ((n % d : Nat) : ℚ) / d ∧ ((n % d : Nat) : ℚ) / d < 1 := by
  have hd' : (0 : ℚ) < d := by exact_mod_cast hd
  refine ⟨?_, by positivity, ?_⟩
  · have h : (n : ℚ) = d * (n / d : Nat) + (n % d : Nat) := by exact_mod_cast (Nat.div_add_mod n d).symm
    field_simp
    linarith
  · rw [div_lt_one hd']
    exact_mod_cast Nat.mod_lt n hd

theorem floor_div_nat : ⌊(n : ℚ) / d⌋ = ((n / d : Nat) : Int) := by
  obtain ⟨hv, h0, h1⟩ := div_parts n hd
  rw [Int.floor_eq_iff, hv, Int.cast_natCast]
  constructor <;> linarith

theorem ceil_div_nat : ⌈(n : ℚ) / d⌉ = if n % d = 0 then ((n / d : Nat) : Int) else ((n / d : Nat) : Int) + 1 := by
  obtain ⟨hv, h0, h1⟩ := div_parts n hd
  split
  · next h =>
    rw [h, Nat.cast_zero, zero_div, add_zero] at hv
    rw [hv]
    exact_mod_cast Int.ceil_natCast (R := ℚ) (n / d)
  · next h =>
    have hpos : 0 < ((n % d : Nat) : ℚ) / d := by
      have : 0 < n % d := Nat.pos_of_ne_zero h
      positivity
    rw [Int.ceil_eq_iff, hv, Int.cast_add, Int.cast_natCast, Int.cast_one]
    constructor <;> linarith

end

/-- An integer of a sign. -/
theorem roundInt_val (rm : Nat) (neg : Bool) (n d : Nat) :
    ((roundInt rm neg n d).1 : ℚ) = signedVal neg (roundNat rm neg n d).1 := by
  unfold roundInt signedVal
  cases neg <;> simp

theorem signedVal_sub (neg : Bool) (u v : ℚ) : signedVal neg u - signedVal neg v = signedVal neg (u - v) := by
  unfold signedVal
  ring

theorem abs_signedVal' (neg : Bool) (v : ℚ) : |signedVal neg v| = |v| := by
  unfold signedVal
  cases neg <;> simp

theorem roundNat_val (rm : Nat) (neg : Bool) (n d : Nat) : ((roundNat rm neg n d).1 : ℚ) =
    (n / d : Nat) + if roundsUp rm neg (n / d) (n % d) d then 1 else 0 := by
  unfold roundNat
  dsimp only
  split
  · push_cast
    rfl
  · rw [add_zero]

/-- The part left over, compared with a half. -/
theorem half_parts (n : Nat) {d : Nat} (hd : 0 < d) : (d < 2 * (n % d) ↔ 1 < 2 * (((n % d : Nat) : ℚ) / d)) ∧
    (d = 2 * (n % d) ↔ 1 = 2 * (((n % d : Nat) : ℚ) / d)) := by
  have hd' : (0 : ℚ) < d := by exact_mod_cast hd
  rw [← mul_div_assoc, lt_div_iff₀ hd', eq_div_iff hd'.ne', one_mul]
  constructor <;> norm_cast

theorem roundInt_mod_two (rm : Nat) (neg : Bool) (n d : Nat) :
    (roundInt rm neg n d).1 % 2 = 0 ↔ (roundNat rm neg n d).1 % 2 = 0 := by
  unfold roundInt
  dsimp only
  cases neg
  · rw [if_neg Bool.false_ne_true]
    omega
  · rw [if_pos rfl]
    omega

section
variable (neg : Bool) (n : Nat) {d : Nat} (hd : 0 < d)
include hd

/-- To the nearest: the distance is at most a half. -/
theorem roundInt_near {rm : Nat} (hrm : rm = 0 ∨ 4 ≤ rm) :
    |2 * ((roundInt rm neg n d).1 : ℚ) - 2 * signedVal neg ((n : ℚ) / d)| ≤ 1 ∧
      (|2 * ((roundInt rm neg n d).1 : ℚ) - 2 * signedVal neg ((n : ℚ) / d)| = 1 →
        if rm = 0 then (roundInt rm neg n d).1 % 2 = 0 else |signedVal neg ((n : ℚ) / d)| < |((roundInt rm neg n d).1 : ℚ)|) := by
  obtain ⟨hv, h0, h1⟩ := div_parts n hd
  obtain ⟨hlt, heq⟩ := half_parts n hd
  have hdist : |2 * ((roundInt rm neg n d).1 : ℚ) - 2 * signedVal neg ((n : ℚ) / d)| =
      2 * |(if roundsUp rm neg (n / d) (n % d) d then 1 else 0) - ((n % d : Nat) : ℚ) / d| := by
    rw [roundInt_val, ← mul_sub, abs_mul, abs_two, signedVal_sub, abs_signedVal', roundNat_val, hv]
    congr 2
    ring
  have hmod : (roundNat rm neg n d).1 = if roundsUp rm neg (n / d) (n % d) d then n / d + 1 else n / d := rfl
  rw [hdist, roundInt_mod_two, hmod, roundInt_val, abs_signedVal', abs_signedVal', roundNat_val, hv]
  have hM : (0 : ℚ) ≤ (n / d : Nat) := Nat.cast_nonneg _
  generalize ((n % d : Nat) : ℚ) / d = t at *
  rcases hrm with rfl | hrm
  · have hup : roundsUp 0 neg (n / d) (n % d) d = true ↔ 1 < 2 * t ∨ (1 = 2 * t ∧ n / d % 2 = 1) := by
      simp only [roundsUp, Bool.or_eq_true, Bool.and_eq_true, decide_eq_true_eq, hlt, heq]
    rw [if_pos rfl]
    by_cases hu : roundsUp 0 neg (n / d) (n % d) d = true
    · rw [if_pos hu, if_pos hu, abs_of_nonneg (by linarith)]
      refine ⟨by rcases hup.mp hu with h | h <;> linarith, fun he => ?_⟩
      rcases hup.mp hu with h | ⟨h, hodd⟩
      · linarith
      · omega
    · have hnot := fun h => hu (hup.mpr h)
      rw [if_neg hu, if_neg hu, zero_sub, abs_neg, abs_of_nonneg h0]
      refine ⟨not_lt.mp fun h => hnot (.inl h), fun he => ?_⟩
      by_contra hodd
      exact hnot (.inr ⟨he.symm, by omega⟩)
  · have hup : roundsUp rm neg (n / d) (n % d) d = true ↔ 1 ≤ 2 * t := by
      obtain ⟨k, rfl⟩ : ∃ k, rm = k + 4 := ⟨rm - 4, by omega⟩
      rw [le_iff_lt_or_eq, ← hlt, ← heq, ← le_iff_lt_or_eq]
      exact decide_eq_true_iff
    rw [if_neg (show ¬ rm = 0 by omega)]
    by_cases hu : roundsUp rm neg (n / d) (n % d) d = true
    · have := hup.mp hu
      rw [if_pos hu, abs_of_nonneg (by linarith), abs_of_nonneg (by linarith), abs_of_nonneg (by linarith)]
      exact ⟨by linarith, fun _ => by linarith⟩
    · have := not_le.mp fun h => hu (hup.mpr h)
      rw [if_neg hu, zero_sub, abs_neg, abs_of_nonneg h0]
      exact ⟨this.le, fun he => absurd he this.ne⟩

/-- Rounding up the magnitude gives the next integer, and leaving it the one below. -/
theorem roundInt_directed {rm : Nat} (hrm : rm = 1 ∨ rm = 2 ∨ rm = 3) : (roundInt rm neg n d).1 =
    if rm = 1 then (if signedVal neg ((n : ℚ) / d) < 0 then ⌈signedVal neg ((n : ℚ) / d)⌉ else ⌊signedVal neg ((n : ℚ) / d)⌋)
    else if rm = 2 then ⌈signedVal neg ((n : ℚ) / d)⌉ else ⌊signedVal neg ((n : ℚ) / d)⌋ := by
  have hfloor := floor_div_nat n hd
  have hceil := ceil_div_nat n hd
  have hv : 0 ≤ (n : ℚ) / d := by positivity
  have hup (rm : Nat) : ((roundNat rm neg n d).1 : Int) = if roundsUp rm neg (n / d) (n % d) d then ((n / d : Nat) : Int) + 1 else (n / d : Nat) := by
    unfold roundNat
    dsimp only
    split
    · push_cast
      rfl
    · rfl
  unfold roundInt signedVal
  dsimp only
  rw [hup]
  cases neg
  · rw [if_neg Bool.false_ne_true, if_neg Bool.false_ne_true, one_mul, hfloor, hceil, if_neg (not_lt.mpr hv)]
    rcases hrm with rfl | rfl | rfl
    · rfl
    · by_cases hr : n % d = 0 <;> simp [roundsUp, hr, Nat.pos_of_ne_zero]
    · rfl
  · rw [if_pos rfl, if_pos rfl, neg_one_mul, Int.ceil_neg, Int.floor_neg, hfloor, hceil]
    rcases hrm with rfl | rfl | rfl
    · rw [if_pos rfl, if_neg (by simp [roundsUp])]
      split
      · rfl
      · next hneg =>
        have hzero : (n : ℚ) / d = 0 := le_antisymm (by linarith) hv
        have hn : n = 0 := by
          have hd' : (d : ℚ) ≠ 0 := by exact_mod_cast hd.ne'
          rw [div_eq_zero_iff, or_iff_left hd'] at hzero
          exact_mod_cast hzero
        rw [hn]
        simp
    · rw [if_neg (by simp [roundsUp])]
      rfl
    · by_cases hr : n % d = 0
      · simp [roundsUp, hr]
      · have hpos := Nat.pos_of_ne_zero hr
        simp [roundsUp, hr, hpos]

/-- A value rounds to the integer that its mode asks for (R46). -/
theorem roundInt_rounds (rm : Nat) : intRounds rm (signedVal neg ((n : ℚ) / d)) (roundInt rm neg n d).1 := by
  match rm with
  | 0 => exact roundInt_near neg n hd (.inl rfl)
  | 1 => exact roundInt_directed neg n hd (.inl rfl)
  | 2 => exact roundInt_directed neg n hd (.inr (.inl rfl))
  | 3 => exact roundInt_directed neg n hd (.inr (.inr rfl))
  | k + 4 =>
    have h := roundInt_near neg n hd (rm := k + 4) (.inr (by omega))
    rw [if_neg (by omega)] at h
    exact h

/-- The result differs from the value where something was left over. -/
theorem roundInt_exact (rm : Nat) : ((roundInt rm neg n d).1 : ℚ) = signedVal neg ((n : ℚ) / d) ↔ (roundInt rm neg n d).2 = false := by
  obtain ⟨hv, h0, h1⟩ := div_parts n hd
  have hd' : (d : ℚ) ≠ 0 := by exact_mod_cast hd.ne'
  have hflag : (roundInt rm neg n d).2 = decide (n % d ≠ 0) := rfl
  have hzero : ((n % d : Nat) : ℚ) / d = 0 ↔ n % d = 0 := by
    rw [div_eq_zero_iff, or_iff_left hd']
    norm_cast
  rw [hflag, decide_eq_false_iff_not, not_not, ← hzero, roundInt_val, ← sub_eq_zero, signedVal_sub, signedVal_eq_zero, roundNat_val, hv]
  split
  · next hu =>
    refine iff_of_false (by linarith) fun h => ?_
    have hr := hzero.mp h
    rw [roundsUp_eq, hr] at hu
    unfold modeUp at hu
    split at hu <;> simp at hu <;> omega
  · constructor <;> intro h <;> linarith

end

/-! ### A result in an integer type (R58) -/

theorem tyLo_le_tyHi (ty : Nat) : tyLo ty ≤ tyHi ty := (tyLo_le_zero ty).trans (tyHi_nonneg ty)

theorem intResult_inside {ty : Nat} {z : Int} (h1 : tyLo ty ≤ z) (h2 : z ≤ tyHi ty) :
    readInt ty (intResult (tySigned ty) (tyWidth ty) false z).1 = z := by
  rw [(intResult_wraps ty z).1, wrapTo_of_range h1 h2]

theorem clampInt_eq (ty : Nat) (z : Int) (inexact : Bool) :
    readInt ty (clampInt (tySigned ty) (tyWidth ty) z inexact).1 = max (tyLo ty) (min z (tyHi ty)) ∧
      (clampInt (tySigned ty) (tyWidth ty) z inexact).2 = if z < tyLo ty ∨ tyHi ty < z then 1 else if inexact then 8 else 0 := by
  have hle := tyLo_le_tyHi ty
  unfold clampInt
  rw [intLo_eq, intHi_eq]
  by_cases h1 : z < tyLo ty
  · rw [if_pos h1, if_pos (.inl h1), intResult_inside le_rfl hle]
    exact ⟨by omega, rfl⟩
  · by_cases h2 : tyHi ty < z
    · rw [if_neg h1, if_pos h2, if_pos (.inr h2), intResult_inside hle le_rfl]
      exact ⟨by omega, rfl⟩
    · rw [if_neg h1, if_neg h2, if_neg (show ¬ (z < tyLo ty ∨ tyHi ty < z) by omega), intResult_inside (by omega) (by omega)]
      exact ⟨by omega, rfl⟩

/-- A number converts to an integer type: rounded, and clipped where it is out of range. -/
theorem numToInt_fin (ty rm : Nat) (neg : Bool) (n : Nat) {d : Nat} (hd : 0 < d) :
    let r := numToInt rm (tySigned ty) (tyWidth ty) (.fin neg n d)
    let q := signedVal neg ((n : ℚ) / d)
    ∃ z, intRounds rm q z ∧ readInt ty r.1 = max (tyLo ty) (min z (tyHi ty)) ∧
      r.2 = if z < tyLo ty ∨ tyHi ty < z then 1 else if (z : ℚ) = q then 0 else 8 := by
  intro r q
  obtain ⟨h1, h2⟩ := clampInt_eq ty (roundInt rm neg n d).1 (roundInt rm neg n d).2
  refine ⟨_, roundInt_rounds neg n hd rm, h1, h2.trans ?_⟩
  have hex := roundInt_exact neg n hd rm
  by_cases hq : ((roundInt rm neg n d).1 : ℚ) = q
  · rw [if_pos hq, hex.mp hq]
    rfl
  · rw [if_neg hq, Bool.eq_true_of_not_eq_false (fun h => hq (hex.mpr h))]
    rfl

theorem numToInt_inf (ty rm : Nat) (neg : Bool) :
    readInt ty (numToInt rm (tySigned ty) (tyWidth ty) (.inf neg)).1 = (if neg then tyLo ty else tyHi ty) ∧
      (numToInt rm (tySigned ty) (tyWidth ty) (.inf neg)).2 = 1 := by
  have hle := tyLo_le_tyHi ty
  cases neg
  · refine ⟨?_, rfl⟩
    rw [numToInt, intHi_eq, intResult_inside hle le_rfl]
    rfl
  · refine ⟨?_, rfl⟩
    rw [numToInt, intLo_eq, intResult_inside le_rfl hle]
    rfl

/-! ### The rows of the conversions -/

section
variable (d s rm scale : Nat) (fz sat : Bool) (x : Word)

theorem convertOne_float (hd : isFloat d) (hs : s ≤ 11) (hs' : ¬ s ≤ 7) : convertOne d s rm fz sat scale x =
    (BitVec.ofNat 64 ((fmtOf d).convert rm fz (numOf s fz scale x)).1, ((fmtOf d).convert rm fz (numOf s fz scale x)).2) := by
  have h1 : d ≠ 11 := by rcases hd with rfl | rfl | rfl <;> norm_num
  have h2 : tyIsPhasor s = false := by simp [tyIsPhasor]; omega
  have h3 : tyIsPhasor d = false := by rcases hd with rfl | rfl | rfl <;> rfl
  have h4 : tyIsInt d = false := by rcases hd with rfl | rfl | rfl <;> rfl
  have h5 : tyIsInt s = false := by simpa [tyIsInt] using hs'
  simp only [convertOne, h1, h2, h3, h4, h5, if_false, Bool.false_eq_true]

theorem convertOne_ofInt (hd : isFloat d) (hs : s ≤ 7) : convertOne d s rm fz sat scale x =
    (BitVec.ofNat 64 ((fmtOf d).ofInt rm fz (readInt s x)).1, ((fmtOf d).ofInt rm fz (readInt s x)).2) := by
  have h1 : d ≠ 11 := by rcases hd with rfl | rfl | rfl <;> norm_num
  have h2 : tyIsPhasor s = false := by simp [tyIsPhasor]; omega
  have h3 : tyIsPhasor d = false := by rcases hd with rfl | rfl | rfl <;> rfl
  have h4 : tyIsInt d = false := by rcases hd with rfl | rfl | rfl <;> rfl
  have h5 : tyIsInt s = true := by simpa [tyIsInt] using hs
  simp only [convertOne, h1, h2, h3, h4, h5, if_false, if_true, Bool.false_eq_true]

theorem convertOne_toInt (hd : d ≤ 7) (hs : s ≤ 11) (hs' : ¬ s ≤ 7) : convertOne d s rm fz sat scale x =
    numToInt rm (tySigned d) (tyWidth d) (numOf s fz scale x) := by
  have h1 : d ≠ 11 := by omega
  have h2 : tyIsPhasor s = false := by simp [tyIsPhasor]; omega
  have h3 : tyIsPhasor d = false := by simp [tyIsPhasor]; omega
  have h4 : tyIsInt d = true := by simpa [tyIsInt] using hd
  have h5 : tyIsInt s = false := by simpa [tyIsInt] using hs'
  simp only [convertOne, h1, h2, h3, h4, h5, if_false, if_true, Bool.false_eq_true]

theorem convertOne_ints (hd : d ≤ 7) (hs : s ≤ 7) : convertOne d s rm fz sat scale x =
    intResult (tySigned d) (tyWidth d) sat (readInt s x) := by
  have h1 : d ≠ 11 := by omega
  have h2 : tyIsPhasor s = false := by simp [tyIsPhasor]; omega
  have h3 : tyIsPhasor d = false := by simp [tyIsPhasor]; omega
  have h4 : tyIsInt d = true := by simpa [tyIsInt] using hd
  have h5 : tyIsInt s = true := by simpa [tyIsInt] using hs
  simp only [convertOne, h1, h2, h3, h4, h5, if_false, if_true, Bool.false_eq_true]

end

end Sys2Proof.Machine
end


section
/-!
## D8 codes and their scales (R48 to R52, R120)
-/

namespace Sys2Proof.Machine

/-! ### The value of a code and of a scale -/

theorem pow10_pos (e : Int) : 0 < (pow10 e).1 ∧ 0 < (pow10 e).2 := by
  unfold pow10
  split <;> exact ⟨by positivity, by positivity⟩

theorem pow10_val (e : Int) : ((pow10 e).1 : ℚ) / (pow10 e).2 = 10 ^ e := by
  unfold pow10
  split
  · next h =>
    obtain ⟨k, rfl⟩ := Int.eq_ofNat_of_zero_le h
    simp
  · next h =>
    obtain ⟨k, rfl⟩ : ∃ k : Nat, e = -k := ⟨(-e).toNat, by omega⟩
    simp [zpow_neg]

/-- The marker of a body finds its row of the table. -/
theorem d8Fields_eq : ∀ b, b < 128 → 0 < b → d8Fields b = (d8F b, (d8Row b).1, (d8Row b).2) := by decide

theorem d8Mag_eq {b : Nat} (hb : b < 128) (h0 : 0 < b) : d8Mag b =
    ((2 ^ (d8Row b).1 + 9 * d8F b) * (pow10 (d8Row b).2).1, 2 ^ (d8Row b).1 * (pow10 (d8Row b).2).2) := by
  rw [d8Mag, d8Fields_eq b hb h0]

theorem d8Mag_val {b : Nat} (hb : b < 128) (h0 : 0 < b) : 0 < (d8Mag b).1 ∧ 0 < (d8Mag b).2 ∧ ((d8Mag b).1 : ℚ) / (d8Mag b).2 = d8Size b := by
  have hp := pow10_pos (d8Row b).2
  have hf : 0 < 2 ^ (d8Row b).1 := Nat.two_pow_pos _
  rw [d8Mag_eq hb h0]
  refine ⟨Nat.mul_pos (by omega) hp.1, Nat.mul_pos hf hp.2, ?_⟩
  rw [Nat.cast_mul, Nat.cast_mul, mul_div_mul_comm, pow10_val, d8Size]
  congr 1
  push_cast
  field_simp

theorem d8Value_none {c : Nat} (h : codeVal c = none) : d8Value c = none := by
  unfold codeVal at h
  split at h
  · next hc => exact if_pos hc
  · split at h <;> cases h

theorem d8Value_some {c : Nat} {u : ℚ} (h : codeVal c = some u) :
    ∃ neg n d, d8Value c = some (neg, n, d) ∧ 0 < d ∧ signedVal neg ((n : ℚ) / d) = u ∧ (n = 0 → neg = false) := by
  unfold codeVal at h
  split at h
  · cases h
  · next h1 =>
    split at h
    · next h2 =>
      obtain rfl := Option.some.inj h
      refine ⟨false, 0, 1, ?_, Nat.one_pos, by simp [signedVal], fun _ => rfl⟩
      rw [d8Value, if_neg h1, if_pos h2]
    · next h2 =>
      obtain rfl := Option.some.inj h
      obtain ⟨hn, hd, hv⟩ := d8Mag_val (b := c % 128) (by omega) (by omega)
      refine ⟨decide (128 ≤ c % 256), (d8Mag (c % 128)).1, (d8Mag (c % 128)).2, ?_, hd, ?_, fun h0 => absurd h0 hn.ne'⟩
      · rw [d8Value, if_neg h1, if_neg h2]
      · rw [hv, signedVal]
        simp only [decide_eq_true_eq]

/-- The value of a scale that is none of NaS. -/
def scaleAt (s : Nat) : ℚ := (16 + (s % 16 : Nat) : ℚ) / 16 * 10 ^ (((s / 16 : Nat) : Int) - 32)

theorem scaleVal_eq {s : Nat} (h : s < 0x3FF) : scaleVal s = some (scaleAt s) := by
  have h1 : s % 1024 = s := Nat.mod_eq_of_lt (by omega)
  rw [scaleVal, h1, if_neg (by omega), scaleAt]

theorem scaleValue_none {s : Nat} (h : scaleVal s = none) : scaleValue s = none := by
  unfold scaleVal at h
  split at h
  · next hc => exact if_pos hc
  · cases h

theorem scaleValue_some {s : Nat} {v : ℚ} (h : scaleVal s = some v) :
    ∃ n d, scaleValue s = some (n, d) ∧ 0 < n ∧ 0 < d ∧ (n : ℚ) / d = v := by
  unfold scaleVal at h
  split at h
  · cases h
  · next hc =>
    obtain rfl := Option.some.inj h
    have hp := pow10_pos (((s % 1024 / 16 : Nat) : Int) - 32)
    refine ⟨(16 + s % 1024 % 16) * (pow10 (((s % 1024 / 16 : Nat) : Int) - 32)).1, 16 * (pow10 (((s % 1024 / 16 : Nat) : Int) - 32)).2,
      if_neg hc, Nat.mul_pos (by omega) hp.1, Nat.mul_pos (by omega) hp.2, ?_⟩
    rw [Nat.cast_mul, Nat.cast_mul, mul_div_mul_comm, pow10_val, Nat.mod_mod_of_dvd s (by norm_num : 16 ∣ 1024)]
    push_cast
    rfl

/-! ### The number of a code under a scale (R52) -/

theorem codeVal_mod (c : Nat) : codeVal (c % 256) = codeVal c := by
  rw [codeVal, codeVal, Nat.mod_mod, Nat.mod_mod_of_dvd c (by norm_num : 128 ∣ 256)]

theorem d8Num_none {c s : Nat} (h : codeVal c = none ∨ scaleVal s = none) : d8Num (c % 256) s = .nan false := by
  unfold d8Num
  rcases h with h | h
  · rw [d8Value_none ((codeVal_mod c).trans h)]
  · rw [scaleValue_none h]
    cases d8Value (c % 256) <;> rfl

theorem d8Num_some {c s : Nat} {u v : ℚ} (hu : codeVal c = some u) (hv : scaleVal s = some v) :
    ∃ neg n d, d8Num (c % 256) s = .fin neg n d ∧ 0 < d ∧ signedVal neg ((n : ℚ) / d) = u * v ∧ (n = 0 → neg = false) := by
  obtain ⟨neg, n, d, hc, hd, hval, hz⟩ := d8Value_some ((codeVal_mod c).trans hu)
  obtain ⟨sn, sd, hs, hsn, hsd, hsv⟩ := scaleValue_some hv
  refine ⟨neg, n * sn, d * sd, ?_, Nat.mul_pos hd hsd, ?_, fun h0 => hz ((Nat.mul_eq_zero.mp h0).resolve_right hsn.ne')⟩
  · rw [d8Num, hc, hs]
  · rw [Nat.cast_mul, Nat.cast_mul, mul_div_mul_comm, hsv, ← hval, signedVal, signedVal, mul_assoc]

/-! ### Conversion to D8 (R51) -/

/-- The distance of a body from a fraction. -/
theorem fracDist_val {x y : Nat × Nat} (hx : 0 < x.2) (hy : 0 < y.2) : 0 < (fracDist x y).2 ∧
    ((fracDist x y).1 : ℚ) / (fracDist x y).2 = |(y.1 : ℚ) / y.2 - (x.1 : ℚ) / x.2| := by
  have hx' : (0 : ℚ) < x.2 := by exact_mod_cast hx
  have hy' : (0 : ℚ) < y.2 := by exact_mod_cast hy
  refine ⟨Nat.mul_pos hx hy, ?_⟩
  rw [div_sub_div _ _ hy'.ne' hx'.ne', abs_div, abs_of_pos (mul_pos hy' hx')]
  unfold fracDist
  dsimp only
  push_cast
  rw [mul_comm (y.2 : ℚ) x.2]
  congr 1
  split
  · next h =>
    have hq : (x.1 : ℚ) * y.2 ≤ y.1 * x.2 := by exact_mod_cast h
    rw [Nat.cast_sub h, abs_of_nonneg (by linarith)]
    push_cast
    ring
  · next h =>
    have h' : y.1 * x.2 ≤ x.1 * y.2 := by omega
    have hq : (y.1 : ℚ) * x.2 ≤ x.1 * y.2 := by exact_mod_cast h'
    rw [Nat.cast_sub h', abs_of_nonpos (by linarith)]
    push_cast
    ring

/-- What a body is judged by: its distance, the parity of F, its size. -/
def d8Key (q : ℚ) (b : Nat) : Lex (ℚ × Lex (Nat × ℚ)) := toLex (|d8Size b - q|, toLex (d8F b % 2, d8Size b))

theorem d8Key_le {q : ℚ} {b y : Nat} : d8Key q b ≤ d8Key q y ↔ |d8Size b - q| < |d8Size y - q| ∨ (|d8Size b - q| = |d8Size y - q| ∧
    (d8F b % 2 < d8F y % 2 ∨ (d8F b % 2 = d8F y % 2 ∧ d8Size b ≤ d8Size y))) := by
  rw [d8Key, d8Key, Prod.Lex.toLex_le_toLex, Prod.Lex.toLex_le_toLex]

theorem d8Key_lt {q : ℚ} {b y : Nat} : d8Key q b < d8Key q y ↔ |d8Size b - q| < |d8Size y - q| ∨ (|d8Size b - q| = |d8Size y - q| ∧
    (d8F b % 2 < d8F y % 2 ∨ (d8F b % 2 = d8F y % 2 ∧ d8Size b < d8Size y))) := by
  rw [d8Key, d8Key, Prod.Lex.toLex_lt_toLex, Prod.Lex.toLex_lt_toLex]

theorem frac_lt_iff {a b c d : Nat} (hb : 0 < b) (hd : 0 < d) : a * d < c * b ↔ (a : ℚ) / b < (c : ℚ) / d := by
  have hb' : (0 : ℚ) < b := by exact_mod_cast hb
  have hd' : (0 : ℚ) < d := by exact_mod_cast hd
  rw [div_lt_div_iff₀ hb' hd']
  norm_cast

theorem frac_eq_iff {a b c d : Nat} (hb : 0 < b) (hd : 0 < d) : a * d = c * b ↔ (a : ℚ) / b = (c : ℚ) / d := by
  have hb' : (b : ℚ) ≠ 0 := by exact_mod_cast hb.ne'
  have hd' : (d : ℚ) ≠ 0 := by exact_mod_cast hd.ne'
  rw [div_eq_div_iff hb' hd']
  norm_cast

theorem d8Better_iff {q : Nat × Nat} (hq : 0 < q.2) {c b : Nat} (hc : c < 128) (hc0 : 0 < c) (hb : b < 128) (hb0 : 0 < b) :
    d8Better q c b = true ↔ d8Key ((q.1 : ℚ) / q.2) c < d8Key ((q.1 : ℚ) / q.2) b := by
  obtain ⟨-, hcd, hcv⟩ := d8Mag_val hc hc0
  obtain ⟨-, hbd, hbv⟩ := d8Mag_val hb hb0
  obtain ⟨hdc, hvc⟩ := fracDist_val hq hcd
  obtain ⟨hdb, hvb⟩ := fracDist_val hq hbd
  rw [d8Key_lt, ← hcv, ← hbv, ← hvc, ← hvb, ← frac_lt_iff hdc hdb, ← frac_eq_iff hdc hdb, ← frac_lt_iff hcd hbd]
  simp only [d8Better, d8Fields_eq c hc hc0, d8Fields_eq b hb hb0, Bool.or_eq_true, Bool.and_eq_true, decide_eq_true_eq]

/-- The body that a conversion chooses is the best of all. -/
theorem d8Nearest_best {q : Nat × Nat} (hq : 0 < q.2) : (1 ≤ d8Nearest q ∧ d8Nearest q < 128) ∧
    ∀ y, 1 ≤ y → y < 128 → d8Key ((q.1 : ℚ) / q.2) (d8Nearest q) ≤ d8Key ((q.1 : ℚ) / q.2) y := by
  have fold : ∀ k, k ≤ 127 → ∃ b, (List.range k).foldl (fun best i => if d8Better q (i + 1) best then i + 1 else best) 1 = b ∧ 1 ≤ b ∧ b < 128 ∧
      ∀ y, 1 ≤ y → y ≤ k → d8Key ((q.1 : ℚ) / q.2) b ≤ d8Key ((q.1 : ℚ) / q.2) y := by
    intro k
    induction k with
    | zero => exact fun _ => ⟨1, rfl, le_rfl, by norm_num, fun y h1 h2 => by omega⟩
    | succ k ih =>
      intro hk
      obtain ⟨b, hb, h1, h2, hbest⟩ := ih (by omega)
      have hiff := d8Better_iff hq (c := k + 1) (b := b) (by omega) (by omega) h2 (by omega)
      rw [List.range_succ, List.foldl_append, hb, List.foldl_cons, List.foldl_nil]
      by_cases hbetter : d8Better q (k + 1) b = true
      · refine ⟨k + 1, if_pos hbetter, by omega, by omega, fun y hy1 hy2 => ?_⟩
        rcases Nat.eq_or_lt_of_le hy2 with rfl | hlt
        · exact le_rfl
        · exact (hiff.mp hbetter).le.trans (hbest y hy1 (by omega))
      · refine ⟨b, if_neg hbetter, h1, h2, fun y hy1 hy2 => ?_⟩
        rcases Nat.eq_or_lt_of_le hy2 with rfl | hlt
        · exact not_lt.mp fun h => hbetter (hiff.mpr h)
        · exact hbest y hy1 (by omega)
  obtain ⟨b, hb, h1, h2, hbest⟩ := fold 127 le_rfl
  have hn : d8Nearest q = b := hb
  rw [hn]
  exact ⟨⟨h1, h2⟩, fun y hy1 hy2 => hbest y hy1 (by omega)⟩

theorem toD8_none (x : Num) {sc : Nat} (h : scaleVal sc = none) : (toD8 x sc).1 = 0x80 := by
  unfold toD8
  rw [scaleValue_none h]

section
variable {sc : Nat} {v : ℚ} (hv : scaleVal sc = some v)
include hv

theorem toD8_nan (b : Bool) : toD8 (.nan b) sc = (0x80, if b then 1 else 0) := by
  obtain ⟨sn, sd, hs, -, -, -⟩ := scaleValue_some hv
  unfold toD8
  rw [hs]
  rfl

theorem toD8_inf (neg : Bool) : toD8 (.inf neg) sc = (if neg then 0x81 else 0x01, 40) := by
  obtain ⟨sn, sd, hs, -, -, -⟩ := scaleValue_some hv
  unfold toD8
  rw [hs]
  rfl

theorem toD8_fin (neg : Bool) (n : Nat) {d : Nat} (hd : 0 < d) :
    let q : ℚ := (n : ℚ) / d / v
    let r := toD8 (.fin neg n d) sc
    let far (b : Nat) : ℚ := |d8Size b - q|
    (10 ^ 10 < q → r = (if neg then 0x81 else 0x01, 40)) ∧
    (q < 1 / 2 / 10 ^ 10 → r = (0, if n = 0 then 0 else 12)) ∧
    (1 / 2 / 10 ^ 10 ≤ q → q ≤ 10 ^ 10 → ∃ b, 1 ≤ b ∧ b < 128 ∧ r.1 = (if neg then 128 else 0) + b ∧
      (r.2 = if d8Size b = q then 0 else 8) ∧
      ∀ y, 1 ≤ y → y < 128 → far b < far y ∨ (far b = far y ∧
        (d8F b % 2 < d8F y % 2 ∨ (d8F b % 2 = d8F y % 2 ∧ d8Size b ≤ d8Size y)))) := by
  obtain ⟨sn, sd, hs, hsn, hsd, hsv⟩ := scaleValue_some hv
  intro q r far
  have hq2 : 0 < d * sn := Nat.mul_pos hd hsn
  have hq2' : (0 : ℚ) < ((d * sn : Nat) : ℚ) := by exact_mod_cast hq2
  have hq : q = ((n * sd : Nat) : ℚ) / ((d * sn : Nat) : ℚ) := by
    rw [show q = (n : ℚ) / d / v from rfl, ← hsv, div_div_eq_mul_div, div_mul_eq_mul_div, div_div, Nat.cast_mul, Nat.cast_mul]
  have hr : r = if 10 ^ 10 * (d * sn) < n * sd then (if neg then 0x81 else 0x01, evDsat ||| evInx)
      else if 2 * (n * sd) * 10 ^ 10 < d * sn then (0, if n * sd = 0 then evNone else evUnf ||| evInx)
      else (if neg then 0x80 + d8Nearest (n * sd, d * sn) else d8Nearest (n * sd, d * sn),
        if (fracDist (n * sd, d * sn) (d8Mag (d8Nearest (n * sd, d * sn)))).1 = 0 then evNone else evInx) := by
    rw [show r = toD8 (.fin neg n d) sc from rfl]
    unfold toD8
    rw [hs]
  have hbig : 10 ^ 10 * (d * sn) < n * sd ↔ 10 ^ 10 < q := by
    rw [hq, lt_div_iff₀ hq2']
    norm_cast
  have hsmall : 2 * (n * sd) * 10 ^ 10 < d * sn ↔ q < 1 / 2 / 10 ^ 10 := by
    rw [hq, div_lt_iff₀ hq2', div_div, div_mul_eq_mul_div, lt_div_iff₀ (by norm_num), one_mul,
      show ((n * sd : Nat) : ℚ) * (2 * 10 ^ 10) = ((2 * (n * sd) * 10 ^ 10 : Nat) : ℚ) by push_cast; ring]
    norm_cast
  have hsd0 : n * sd = 0 ↔ n = 0 := by
    rw [Nat.mul_eq_zero, or_iff_left hsd.ne']
  refine ⟨fun h => ?_, fun h => ?_, fun h1 h2 => ?_⟩
  · rw [hr, if_pos (hbig.mpr h)]
    rfl
  · have hnot : ¬ 10 ^ 10 * (d * sn) < n * sd := fun hb => by
      have := hbig.mp hb
      norm_num at h this
      linarith
    rw [hr, if_neg hnot, if_pos (hsmall.mpr h)]
    by_cases h0 : n = 0
    · rw [if_pos h0, if_pos (hsd0.mpr h0)]
      rfl
    · rw [if_neg h0, if_neg (fun h => h0 (hsd0.mp h))]
      rfl
  · rw [if_neg (fun h => absurd (hbig.mp h) (not_lt.mpr h2)), if_neg (fun h => absurd (hsmall.mp h) (not_lt.mpr h1))] at hr
    obtain ⟨⟨hb1, hb2⟩, hbest⟩ := d8Nearest_best (q := (n * sd, d * sn)) hq2
    dsimp only at hbest
    rw [← hq] at hbest
    obtain ⟨-, hmd, hmv⟩ := d8Mag_val hb2 hb1
    obtain ⟨hdd, hdv⟩ := fracDist_val (x := (n * sd, d * sn)) (y := d8Mag (d8Nearest (n * sd, d * sn))) hq2 hmd
    refine ⟨d8Nearest (n * sd, d * sn), hb1, hb2, ?_, ?_, fun y hy1 hy2 => d8Key_le.mp (hbest y hy1 hy2)⟩
    · rw [hr]
      cases neg
      · exact (Nat.zero_add _).symm
      · rfl
    · have hzero : (fracDist (n * sd, d * sn) (d8Mag (d8Nearest (n * sd, d * sn)))).1 = 0 ↔ d8Size (d8Nearest (n * sd, d * sn)) = q := by
        have hdd' : ((fracDist (n * sd, d * sn) (d8Mag (d8Nearest (n * sd, d * sn)))).2 : ℚ) ≠ 0 := by exact_mod_cast hdd.ne'
        dsimp only at hdv
        rw [hmv, ← hq] at hdv
        rw [← sub_eq_zero (b := q), ← abs_eq_zero, ← hdv, div_eq_zero_iff, or_iff_left hdd']
        norm_cast
      rw [hr]
      dsimp only
      simp only [hzero]
      rfl

end

/-! ### The least scale (R120) -/

theorem scaleAt_monotone : Monotone scaleAt := by
  refine monotone_nat_of_le_succ fun s => ?_
  unfold scaleAt
  by_cases h : s % 16 = 15
  · have h1 : (s + 1) % 16 = 0 := by omega
    have h2 : (((s + 1) / 16 : Nat) : Int) - 32 = ((s / 16 : Nat) : Int) - 32 + 1 := by omega
    rw [h, h1, h2, zpow_add₀ (by norm_num)]
    have hp : (0 : ℚ) < 10 ^ (((s / 16 : Nat) : Int) - 32) := by positivity
    generalize (10 : ℚ) ^ (((s / 16 : Nat) : Int) - 32) = p at hp ⊢
    rw [zpow_one]
    push_cast
    linarith
  · have h1 : (s + 1) % 16 = s % 16 + 1 := by omega
    have h2 : (s + 1) / 16 = s / 16 := by omega
    rw [h1, h2]
    refine mul_le_mul_of_nonneg_right ?_ (by positivity)
    push_cast
    linarith

/-- Does a scale bring n / d to 9.71875 at most? -/
def scaleHolds (n d c : Nat) : Prop := (n : ℚ) / d ≤ 311 / 32 * scaleAt c

theorem scaleHolds_iff {n d c : Nat} (hd : 0 < d) (hc : c < 0x3FF) :
    ∃ sn sd, scaleValue c = some (sn, sd) ∧ (n * sd * 32 ≤ 311 * d * sn ↔ scaleHolds n d c) := by
  obtain ⟨sn, sd, hs, hsn, hsd, hsv⟩ := scaleValue_some (scaleVal_eq hc)
  refine ⟨sn, sd, hs, ?_⟩
  have hd' : (0 : ℚ) < d := by exact_mod_cast hd
  have hsd' : (0 : ℚ) < sd := by exact_mod_cast hsd
  rw [scaleHolds, ← hsv, div_mul_div_comm, div_le_div_iff₀ hd' (by positivity)]
  have : (n : ℚ) * (32 * sd) ≤ 311 * sn * d ↔ n * sd * 32 ≤ 311 * d * sn := by
    rw [show (n : ℚ) * (32 * sd) = ((n * sd * 32 : Nat) : ℚ) by push_cast; ring,
      show (311 : ℚ) * sn * d = ((311 * d * sn : Nat) : ℚ) by push_cast; ring]
    norm_cast
  rw [this]

theorem d8scSearch_least {n d : Nat} (hd : 0 < d) : ∀ c, c < 0x3FF → scaleHolds n d c →
    d8scSearch n d c ≤ c ∧ scaleHolds n d (d8scSearch n d c) ∧ ∀ y, y < d8scSearch n d c → ¬ scaleHolds n d y := by
  intro c
  induction c with
  | zero => exact fun _ h => ⟨le_rfl, h, fun y hy => absurd hy (Nat.not_lt_zero y)⟩
  | succ c ih =>
    intro hc h
    obtain ⟨sn, sd, hs, hiff⟩ := scaleHolds_iff (n := n) hd (c := c) (by omega)
    rw [d8scSearch, hs]
    dsimp only
    by_cases hh : scaleHolds n d c
    · rw [if_pos (hiff.mpr hh)]
      obtain ⟨h1, h2, h3⟩ := ih (by omega) hh
      exact ⟨by omega, h2, h3⟩
    · rw [if_neg (fun h => hh (hiff.mp h))]
      refine ⟨le_rfl, h, fun y hy hy' => hh (hy'.trans ?_)⟩
      exact mul_le_mul_of_nonneg_left (scaleAt_monotone (by omega)) (by norm_num)

theorem d8sc_fin (neg : Bool) {n d : Nat} (hd : 0 < d) :
    let r := d8sc (.fin neg n d)
    let holds (c : Nat) : Prop := ∃ u, scaleVal c = some u ∧ (n : ℚ) / d ≤ 311 / 32 * u
    (n = 0 → r = (0, 0)) ∧
    (n ≠ 0 → holds 0x3FE → r.1 ≤ 0x3FE ∧ holds r.1 ∧ (∀ c, c < r.1 → ¬ holds c) ∧ r.2 = 0) ∧
    (n ≠ 0 → ¬ holds 0x3FE → r = (0x3FE, 32)) := by
  intro r holds
  obtain ⟨sn, sd, hs, hiff⟩ := scaleHolds_iff (n := n) hd (c := 0x3FE) (by norm_num)
  have hholds (c : Nat) (hc : c < 0x3FF) : holds c ↔ scaleHolds n d c := by
    constructor
    · rintro ⟨u, hu, hle⟩
      rw [scaleVal_eq hc] at hu
      obtain rfl := Option.some.inj hu
      exact hle
    · exact fun h => ⟨_, scaleVal_eq hc, h⟩
  have hr (hn : n ≠ 0) : r = if n * sd * 32 ≤ 311 * d * sn then (d8scSearch n d 0x3FE, evNone) else (0x3FE, evDsat) := by
    rw [show r = d8sc (.fin neg n d) from rfl, d8sc, if_neg hn, hs]
  refine ⟨fun h => ?_, fun hn h => ?_, fun hn h => ?_⟩
  · exact if_pos h
  · rw [hholds _ (by norm_num)] at h
    rw [hr hn, if_pos (hiff.mpr h)]
    obtain ⟨h1, h2, h3⟩ := d8scSearch_least hd 0x3FE (by norm_num) h
    exact ⟨h1, (hholds _ (by omega)).mpr h2, fun c hc hcc => h3 c hc ((hholds c (by omega)).mp hcc), rfl⟩
  · rw [hholds _ (by norm_num)] at h
    rw [hr hn, if_neg (fun hc => h (hiff.mp hc))]
    rfl

/-- R48, R49, R51, R120. -/
theorem d8Codes : Claims.D8Codes := by
  refine ⟨fun code _ => ?_, fun sc _ => ?_, fun x sc h => toD8_none x h,
    fun sc v hv => ⟨toD8_nan hv, toD8_inf hv, fun neg n d hd => toD8_fin hv neg n hd⟩, fun neg n d hd => d8sc_fin neg hd⟩
  · cases h : codeVal code with
    | none => exact d8Value_none h
    | some u =>
      obtain ⟨neg, n, d, hc, hd, hval, -⟩ := d8Value_some h
      exact ⟨neg, n, d, hc, hd, hval⟩
  · cases h : scaleVal sc with
    | none => exact scaleValue_none h
    | some v =>
      obtain ⟨n, d, hs, -, hd, hval⟩ := scaleValue_some h
      exact ⟨n, d, hs, hd, hval⟩

end Sys2Proof.Machine
end


section
/-! ## The values of conversions (R42, R46, R47, R52, R53, R58) -/

namespace Sys2Proof.Machine

theorem fpGives_sign {ty rm : Nat} {fz n n' : Bool} {q : ℚ} {val : Nat} {ev : Ev} (h : fpGives ty rm fz q n val ev) (hn : q = 0 → n = n') :
    fpGives ty rm fz q n' val ev := by
  by_cases hq : q = 0
  · rw [← hn hq]
    exact h
  · unfold fpGives at h ⊢
    rwa [if_neg hq] at h ⊢

/-- The result of a row to numbers. -/
theorem cvt_gives {d rm : Nat} {fz neg0 : Bool} {q : ℚ} {r : Nat × Ev} {w : Word × Ev} (hw : w = (BitVec.ofNat 64 r.1, r.2))
    (hg : fpGives d rm fz q neg0 r.1 r.2) : fpGives d rm fz q neg0 w.1.toNat w.2 := by
  rw [hw]
  dsimp only
  rw [toNat_pattern (fpGives_lt hg)]
  exact hg

section
variable {d s rm scale : Nat} {fz sat : Bool} {x : Word}

theorem cvt_float_float (hs : isFloat s) (hd : isFloat d) :
    let r := convertOne d s rm fz sat scale x
    let p := fpIn s fz (x.toNat % (2 * fpSign s))
    (fpFinite s p → fpGives d rm fz (fpVal s p) (fpNeg s p) r.1.toNat r.2) ∧
      (fpInf s p → r.1.toNat = (if fpNeg s p then fpSign d else 0) + fpTop d ∧ r.2 = 0) ∧
      (fpNan s p → r.1.toNat = fpQuiet d ∧ fpInv s [p] r.2) := by
  intro r p
  have hread : Reads s p (numOf s fz scale x) := reads_numOf hs fz scale x
  have hr : r = (BitVec.ofNat 64 ((fmtOf d).convert rm fz (numOf s fz scale x)).1, ((fmtOf d).convert rm fz (numOf s fz scale x)).2) :=
    convertOne_float d s rm scale fz sat x hd (by rcases hs with rfl | rfl | rfl <;> norm_num) (by rcases hs with rfl | rfl | rfl <;> norm_num)
  have ht := fpTop_lt d
  have hq := fpQuiet_lt d
  refine ⟨fun hf => ?_, fun hi => ?_, fun hn => ?_⟩
  · obtain ⟨neg, n, e, he⟩ := hread.fin_of hf
    rw [he] at hread hr
    rw [hread.fin_val, ← hread.2.1]
    exact cvt_gives hr (round_gives d rm fz neg n hread.2.2.1)
  · rw [hread.inf_of hi] at hr
    rw [hr, Fmt.convert, fmtOf_signed, fmtOf_infBits]
    exact ⟨toNat_pattern (ty := d) (by split <;> omega), rfl⟩
  · obtain ⟨b, hb⟩ := hread.nan_of hn
    have hsig := hread.signal
    rw [hb] at hr hsig
    rw [hr, Fmt.convert, fmtOf_nanBits]
    refine ⟨toNat_pattern (ty := d) (by omega), ?_⟩
    cases b <;> exact hsig

theorem cvt_int_float (hs : s ≤ 7) (hd : isFloat d) :
    let r := convertOne d s rm fz sat scale x
    fpGives d rm fz (readInt s x) false r.1.toNat r.2 := by
  intro r
  have hg := round_gives d rm fz (decide (readInt s x < 0)) (readInt s x).natAbs Nat.one_pos
  have hv : signedVal (decide (readInt s x < 0)) (((readInt s x).natAbs : ℚ) / (1 : Nat)) = readInt s x := by
    unfold signedVal
    rw [Nat.cast_one, div_one, Nat.cast_natAbs]
    by_cases h : readInt s x < 0
    · rw [if_pos (decide_eq_true h), abs_of_neg h]
      push_cast
      ring
    · rw [if_neg (by simpa using h), abs_of_nonneg (by omega), one_mul]
  rw [hv] at hg
  refine fpGives_sign (cvt_gives (convertOne_ofInt d s rm scale fz sat x hd hs) hg) fun h0 => ?_
  have : readInt s x = 0 := by exact_mod_cast h0
  simp [this]

/-- A number that converts to an integer type. -/
theorem cvt_to_int {neg : Bool} {n e : Nat} (hd : d ≤ 7) (hs : s ≤ 11) (hs' : ¬ s ≤ 7) (hn : numOf s fz scale x = .fin neg n e) (he : 0 < e) :
    let r := convertOne d s rm fz sat scale x
    ∃ z, intRounds rm (signedVal neg ((n : ℚ) / e)) z ∧ readInt d r.1 = max (tyLo d) (min z (tyHi d)) ∧
      r.2 = if z < tyLo d ∨ tyHi d < z then 1 else if (z : ℚ) = signedVal neg ((n : ℚ) / e) then 0 else 8 := by
  intro r
  have hr : r = _ := convertOne_toInt d s rm scale fz sat x hd hs hs'
  rw [hr, hn]
  exact numToInt_fin d rm neg n he

theorem cvt_float_int (hs : isFloat s) (hd : d ≤ 7) :
    let r := convertOne d s rm fz sat scale x
    let p := fpIn s fz (x.toNat % (2 * fpSign s))
    (fpFinite s p → ∃ z, intRounds rm (fpVal s p) z ∧ readInt d r.1 = max (tyLo d) (min z (tyHi d)) ∧
        r.2 = if z < tyLo d ∨ tyHi d < z then 1 else if (z : ℚ) = fpVal s p then 0 else 8) ∧
      (fpInf s p → readInt d r.1 = (if fpNeg s p then tyLo d else tyHi d) ∧ r.2 = 1) ∧ (fpNan s p → r.1 = 0 ∧ r.2 = 1) := by
  intro r p
  have hs1 : s ≤ 11 := by rcases hs with rfl | rfl | rfl <;> norm_num
  have hs2 : ¬ s ≤ 7 := by rcases hs with rfl | rfl | rfl <;> norm_num
  have hread : Reads s p (numOf s fz scale x) := reads_numOf hs fz scale x
  have hr : r = _ := convertOne_toInt d s rm scale fz sat x hd hs1 hs2
  refine ⟨fun hf => ?_, fun hi => ?_, fun hn => ?_⟩
  · obtain ⟨neg, n, e, he⟩ := hread.fin_of hf
    rw [he] at hread
    rw [hread.fin_val]
    exact cvt_to_int hd hs1 hs2 he hread.2.2.1
  · rw [hr, hread.inf_of hi]
    exact numToInt_inf d rm (fpNeg s p)
  · obtain ⟨b, hb⟩ := hread.nan_of hn
    rw [hr, hb]
    exact ⟨rfl, rfl⟩

theorem cvt_int_int (hs : s ≤ 7) (hd : d ≤ 7) :
    let r := convertOne d s rm fz sat scale x
    (sat = false → readInt d r.1 % (2 ^ tyWidth d : Nat) = readInt s x % (2 ^ tyWidth d : Nat) ∧ r.2 = 0) ∧
      (sat = true → readInt d r.1 = max (tyLo d) (min (readInt s x) (tyHi d)) ∧
        r.2 = if readInt s x < tyLo d ∨ tyHi d < readInt s x then 2 else 0) := by
  intro r
  have hr : r = _ := convertOne_ints d s rm scale fz sat x hd hs
  rw [hr]
  refine ⟨fun hsat => ?_, fun hsat => ?_⟩
  · subst hsat
    obtain ⟨h1, h2⟩ := intResult_wraps d (readInt s x)
    rw [h1]
    exact ⟨wrapTo_emod d _, h2⟩
  · subst hsat
    exact intResult_clips d (readInt s x)

theorem numOf_d8 : numOf 11 fz scale x = d8Num (x.toNat % 256) scale := rfl

theorem cvt_d8 :
    let r := convertOne d 11 rm fz sat scale x
    (∀ u v, codeVal x.toNat = some u → scaleVal scale = some v →
        (isFloat d → fpGives d rm fz (u * v) false r.1.toNat r.2) ∧
        (d ≤ 7 → ∃ z, intRounds rm (u * v) z ∧ readInt d r.1 = max (tyLo d) (min z (tyHi d)) ∧
          r.2 = if z < tyLo d ∨ tyHi d < z then 1 else if (z : ℚ) = u * v then 0 else 8)) ∧
      (codeVal x.toNat = none ∨ scaleVal scale = none →
        (isFloat d → r.1.toNat = fpQuiet d ∧ r.2 = 0) ∧ (d ≤ 7 → r.1 = 0 ∧ r.2 = 1)) := by
  intro r
  refine ⟨fun u v hu hv => ?_, fun hnone => ?_⟩
  · obtain ⟨neg, n, e, hnum, he, hval, hz⟩ := d8Num_some hu hv
    refine ⟨fun hd => ?_, fun hd => ?_⟩
    · have hr : r = _ := convertOne_float d 11 rm scale fz sat x hd (by norm_num) (by norm_num)
      rw [numOf_d8, hnum] at hr
      have hg := cvt_gives hr (round_gives d rm fz neg n he)
      rw [hval] at hg
      refine fpGives_sign hg fun h0 => hz ?_
      rw [← hval, signedVal_eq_zero, div_eq_zero_iff, or_iff_left (by exact_mod_cast he.ne')] at h0
      exact_mod_cast h0
    · have h := cvt_to_int (rm := rm) (fz := fz) (sat := sat) hd (by norm_num) (by norm_num) (numOf_d8.trans hnum) he
      rw [hval] at h
      exact h
  · have hnum := d8Num_none hnone
    refine ⟨fun hd => ?_, fun hd => ?_⟩
    · have hr : r = _ := convertOne_float d 11 rm scale fz sat x hd (by norm_num) (by norm_num)
      have hq := fpQuiet_lt d
      rw [numOf_d8, hnum, Fmt.convert, fmtOf_nanBits] at hr
      rw [hr]
      exact ⟨toNat_pattern (ty := d) (by omega), rfl⟩
    · have hr : r = _ := convertOne_toInt d 11 rm scale fz sat x hd (by norm_num) (by norm_num)
      rw [numOf_d8, hnum] at hr
      rw [hr]
      exact ⟨rfl, rfl⟩

/-- The flag of an undefined phasor. -/
theorem bit_flag (x : Word) {k m : Nat} (hk : k < m) : (x.toNat % 2 ^ m / 2 ^ k % 2 = 1) ↔ bit x k = true := by
  rw [show bit x k = x.toNat.testBit k from rfl, Nat.testBit_eq_decide_div_mod_eq, decide_eq_true_iff]
  have hm : 2 ^ m = 2 ^ k * 2 ^ (m - k) := by rw [← Nat.pow_add]; congr 1; omega
  have h2 : 2 ∣ 2 ^ (m - k) := dvd_pow_self 2 (by omega)
  rw [hm, Nat.mod_mul_right_div_self, Nat.mod_mod_of_dvd _ h2]

theorem cvt_p8_p16 :
    let r := convertOne 13 12 rm fz sat scale x
    if bit x 7 then r = (0x8000, 64) else r.1.toNat = x.toNat % 128 * 256 ∧ r.2 = 0 := by
  intro r
  have hr : r = (BitVec.ofNat 64 (p8ToP16 (x.toNat % 256)).1, (p8ToP16 (x.toNat % 256)).2) := rfl
  have hflag := bit_flag x (k := 7) (m := 8) (by norm_num)
  have hangle : phAngle 12 (x.toNat % 256) = if x.toNat % 2 ^ 8 / 2 ^ 7 % 2 = 1 then none else some (x.toNat % 256 % 2 ^ 7) := rfl
  by_cases hb : bit x 7 = true
  · rw [if_pos (hflag.mpr hb)] at hangle
    rw [if_pos hb, hr, p8ToP16, hangle]
    rfl
  · rw [if_neg (fun h => hb (hflag.mp h))] at hangle
    rw [if_neg hb, hr, p8ToP16, hangle]
    refine ⟨?_, rfl⟩
    simp only [BitVec.toNat_ofNat]
    omega

theorem cvt_p16_p8 :
    let r := convertOne 12 13 rm fz sat scale x
    if bit x 15 then r = (0x80, 64) else
      let a : Nat := x.toNat % 2 ^ 15
      ∃ z, intRounds rm ((a : ℚ) / 256) z ∧ (r.1.toNat : Int) = z % 128 ∧ r.2 = if a % 256 = 0 then 0 else 8 := by
  intro r
  have hr : r = (BitVec.ofNat 64 (p16ToP8 rm (x.toNat % 65536)).1, (p16ToP8 rm (x.toNat % 65536)).2) := rfl
  have hflag := bit_flag x (k := 15) (m := 16) (by norm_num)
  have hangle : phAngle 13 (x.toNat % 65536) = if x.toNat % 2 ^ 16 / 2 ^ 15 % 2 = 1 then none else some (x.toNat % 65536 % 2 ^ 15) := rfl
  by_cases hb : bit x 15 = true
  · rw [if_pos (hflag.mpr hb)] at hangle
    rw [if_pos hb, hr, p16ToP8, hangle]
    rfl
  · rw [if_neg (fun h => hb (hflag.mp h)), Nat.mod_mod_of_dvd x.toNat (by norm_num : 2 ^ 15 ∣ 65536)] at hangle
    rw [if_neg hb, hr, p16ToP8, hangle]
    intro a
    have hz := roundInt_rounds false a (d := 256) (by norm_num) rm
    rw [signedVal, if_neg Bool.false_ne_true, one_mul] at hz
    have hzero : (roundInt rm false a 256).1 = ((roundNat rm false a 256).1 : Int) := rfl
    refine ⟨_, hz, ?_, ?_⟩
    · rw [hzero]
      simp only [BitVec.toNat_ofNat]
      have : (roundNat rm false a 256).1 % 128 % 2 ^ 64 = (roundNat rm false a 256).1 % 128 := by omega
      rw [show x.toNat % 2 ^ 15 = a from rfl, this]
      push_cast
      rfl
    · have hflag' : (roundNat rm false a 256).2 = decide (a % 256 ≠ 0) := rfl
      dsimp only
      rw [show x.toNat % 2 ^ 15 = a from rfl, hflag']
      by_cases h0 : a % 256 = 0
      · rw [if_pos h0, if_neg (by simp [h0])]
        rfl
      · rw [if_neg h0, if_pos (by simp [h0])]
        rfl

end

/-- R42, R46, R47, R52, R53, R58. -/
theorem conversionValues : Claims.ConversionValues := by
  intro d s rm scale fz sat x r lo hi num p toInt
  refine ⟨fun hs hd => (cvt_float_float hs hd :), fun hs hd => (cvt_int_float hs hd :), fun hs hd => (cvt_float_int hs hd :),
    fun hs hd => (cvt_int_int hs hd :), fun hs => ?_, fun hs hd => ?_, fun hs hd => ?_⟩
  · subst hs
    exact (cvt_d8 :)
  · subst hs hd
    exact (cvt_p8_p16 :)
  · subst hs hd
    exact (cvt_p16_p8 :)

end Sys2Proof.Machine
end


section
/-!
## Phasors (R53 to R56)
-/

namespace Sys2Proof.Machine

/-! ### The integer square root -/

theorem isqrtBits_bounds (x : Nat) : ∀ i r, r * r ≤ x → x < (r + 2 ^ i) * (r + 2 ^ i) →
    isqrtBits x i r * isqrtBits x i r ≤ x ∧ x < (isqrtBits x i r + 1) * (isqrtBits x i r + 1) := by
  intro i
  induction i with
  | zero => exact fun r h1 h2 => ⟨h1, h2⟩
  | succ i ih =>
    intro r h1 h2
    rw [isqrtBits]
    split
    · next h =>
      refine ih _ h ?_
      rw [pow_succ] at h2
      rw [show r + 2 ^ i + 2 ^ i = r + 2 ^ i * 2 by ring]
      exact h2
    · next h => exact ih r h1 (not_le.mp h)

theorem isqrt_bounds (x : Nat) : isqrt x * isqrt x ≤ x ∧ x < (isqrt x + 1) * (isqrt x + 1) := by
  refine isqrtBits_bounds x _ 0 (Nat.zero_le x) ?_
  rw [Nat.zero_add, ← Nat.pow_add]
  exact Nat.lt_log2_self.trans_le (Nat.pow_le_pow_right (by norm_num) (by omega))

/-! ### Codes and the tables -/

theorem phMul_eq (ty x y : Nat) : phMul ty x y = if x / 2 ^ phBits ty % 2 = 1 ∨ y / 2 ^ phBits ty % 2 = 1 then none
    else some ((x % 2 ^ phBits ty + y % 2 ^ phBits ty) % 2 ^ phBits ty) := by
  unfold phMul phAngle
  by_cases hx : x / 2 ^ phBits ty % 2 = 1
  · simp [hx]
  · by_cases hy : y / 2 ^ phBits ty % 2 = 1 <;> simp [hx, hy]

theorem table_entries : cosEntry 0 = 131072 ∧ cosEntry 1 = 131072 ∧ sinEntry 1 = 25 ∧ cosEntry 4096 = 92682 ∧ sinEntry 4096 = 92682 ∧
    cosEntry 8192 = 0 := by
  decide +kernel

/-- A quarter of a wave, unfolded over the turn. -/
def unfoldQuarter (quarter : Nat → Int) (i : Nat) : Int :=
  if i ≤ 8192 then quarter i else if i ≤ 16384 then -quarter (16384 - i) else if i ≤ 24576 then -quarter (i - 16384) else quarter (32768 - i)

theorem cosEntry_eq (i : Nat) : cosEntry i = unfoldQuarter cosQuarter (i % 32768) := rfl

section
variable {quarter : Nat → Int}

theorem unfoldQuarter_half {i : Nat} (h : i < 16384) : unfoldQuarter quarter (i + 16384) = -unfoldQuarter quarter i := by
  unfold unfoldQuarter
  rw [if_neg (show ¬ i + 16384 ≤ 8192 by omega)]
  by_cases h1 : i ≤ 8192
  · rw [if_pos h1]
    by_cases h0 : i = 0
    · rw [h0]
      rfl
    · rw [if_neg (by omega), if_pos (by omega), Nat.add_sub_cancel]
  · rw [if_neg h1, if_neg (by omega), if_neg (by omega), if_pos (by omega), neg_neg]
    exact congrArg quarter (by omega)

theorem unfoldQuarter_even (hq : quarter 8192 = 0) {i : Nat} (h0 : 0 < i) (h : i < 32768) :
    unfoldQuarter quarter (32768 - i) = unfoldQuarter quarter i := by
  unfold unfoldQuarter
  by_cases h1 : i ≤ 8192
  · rw [if_pos h1, if_neg (by omega), if_neg (by omega)]
    by_cases h2 : i = 8192
    · subst h2
      rw [if_pos (by norm_num), hq]
      simp
    · rw [if_neg (by omega)]
      exact congrArg quarter (by omega)
  · rw [if_neg h1]
    by_cases h3 : i ≤ 16384
    · rw [if_pos h3, if_neg (by omega)]
      by_cases h4 : i = 16384
      · subst h4
        rfl
      · rw [if_neg (by omega), if_pos (by omega)]
        exact congrArg (fun k => -quarter k) (by omega)
    · rw [if_neg h3]
      by_cases h5 : i ≤ 24576
      · rw [if_pos h5]
        by_cases h6 : i = 24576
        · subst h6
          simp [hq]
        · rw [if_neg (by omega), if_pos (by omega)]
          exact congrArg (fun k => -quarter k) (by omega)
      · rw [if_neg h5, if_pos (by omega)]

end

/-- A half turn changes the sign. -/
theorem cosEntry_half (i : Nat) : cosEntry (i + 16384) = -cosEntry i := by
  rw [cosEntry_eq, cosEntry_eq]
  by_cases h : i % 32768 < 16384
  · rw [show (i + 16384) % 32768 = i % 32768 + 16384 by omega]
    exact unfoldQuarter_half h
  · obtain ⟨j, hj, hlt⟩ : ∃ j, i % 32768 = j + 16384 ∧ j < 16384 := ⟨i % 32768 - 16384, by omega, by omega⟩
    rw [show (i + 16384) % 32768 = j by omega, hj, unfoldQuarter_half hlt, neg_neg]

/-- The table is even. -/
theorem cosEntry_even {i : Nat} (h : i ≤ 32768) : cosEntry (32768 - i) = cosEntry i := by
  rw [cosEntry_eq, cosEntry_eq]
  by_cases h0 : i % 32768 = 0
  · rw [h0, show (32768 - i) % 32768 = 0 by omega]
  · rw [show (32768 - i) % 32768 = 32768 - i by omega, show i % 32768 = i by omega]
    exact unfoldQuarter_even rfl (by omega) (by omega)

theorem cosEntry_turn (i : Nat) : cosEntry (i + 32768) = cosEntry i := by
  rw [cosEntry_eq, cosEntry_eq, Nat.add_mod_right]

theorem sinEntry_quarter (i : Nat) : sinEntry (i + 8192) = cosEntry i := by
  rw [sinEntry, show i + 8192 + 24576 = i + 32768 by omega, cosEntry_turn]

/-! ### Reductions (R56) -/

/-- The root of s over N, cut to an integer. -/
theorem coherence_root {s N q : Nat} (hN : 0 < N) (hq : q = isqrt (s * 2 ^ 34 / (2 ^ 34 * N * N))) :
    (q * N) * (q * N) ≤ s ∧ s < ((q + 1) * N) * ((q + 1) * N) ∧
      (q * q * (2 ^ 34 * N * N) = s * 2 ^ 34 ↔ (q * N) * (q * N) = s) := by
  obtain ⟨h1, h2⟩ := isqrt_bounds (s * 2 ^ 34 / (2 ^ 34 * N * N))
  rw [← hq] at h1 h2
  have hpos : 0 < 2 ^ 34 * N * N := by positivity
  have hdiv : s * 2 ^ 34 / (2 ^ 34 * N * N) = s / (N * N) := by
    rw [mul_comm s, Nat.mul_assoc, Nat.mul_div_mul_left _ _ (by norm_num)]
  rw [hdiv] at h1 h2
  have hNN : 0 < N * N := by positivity
  rw [Nat.le_div_iff_mul_le hNN] at h1
  rw [Nat.div_lt_iff_lt_mul hNN] at h2
  refine ⟨?_, ?_, ?_⟩
  · calc q * N * (q * N) = q * q * (N * N) := by ring
      _ ≤ s := h1
  · calc s < (q + 1) * (q + 1) * (N * N) := h2
      _ = (q + 1) * N * ((q + 1) * N) := by ring
  · rw [show q * q * (2 ^ 34 * N * N) = q * N * (q * N) * 2 ^ 34 by ring]
    exact Nat.mul_left_inj (by norm_num)

/-- The coherence is the nearest fraction, a tie to even. -/
theorem coherence_nearest (s : Nat) {N : Nat} (hN : 0 < N) : ∃ m : Nat, coherence s N = min 0xFFFF m ∧
    ((2 * m - 1) * N) ^ 2 ≤ s ∧ s ≤ ((2 * m + 1) * N) ^ 2 ∧ (s = ((2 * m - 1) * N) ^ 2 ∨ s = ((2 * m + 1) * N) ^ 2 → m % 2 = 0) := by
  obtain ⟨h1, h2, h3⟩ := coherence_root (s := s) hN rfl
  have hc : coherence s N = min 0xFFFF (if isqrt (s * 2 ^ 34 / (2 ^ 34 * N * N)) % 2 = 1 &&
      (!decide (isqrt (s * 2 ^ 34 / (2 ^ 34 * N * N)) * isqrt (s * 2 ^ 34 / (2 ^ 34 * N * N)) * (2 ^ 34 * N * N) = s * 2 ^ 34) ||
        isqrt (s * 2 ^ 34 / (2 ^ 34 * N * N)) / 2 % 2 = 1)
      then isqrt (s * 2 ^ 34 / (2 ^ 34 * N * N)) / 2 + 1 else isqrt (s * 2 ^ 34 / (2 ^ 34 * N * N)) / 2) := rfl
  generalize isqrt (s * 2 ^ 34 / (2 ^ 34 * N * N)) = q at *
  -- q is twice the result, or one more
  obtain ⟨k, hk⟩ : ∃ k, q = 2 * k ∨ q = 2 * k + 1 := ⟨q / 2, by omega⟩
  rcases hk with rfl | rfl
  · refine ⟨k, ?_, ?_, ?_, ?_⟩
    · rw [hc, if_neg (by simp), Nat.mul_div_cancel_left _ (by norm_num)]
    · calc ((2 * k - 1) * N) ^ 2 ≤ (2 * k * N) ^ 2 := Nat.pow_le_pow_left (Nat.mul_le_mul_right N (by omega)) 2
        _ = 2 * k * N * (2 * k * N) := by ring
        _ ≤ s := h1
    · rw [pow_two]
      exact h2.le
    · rintro (h | h)
      · rcases Nat.eq_zero_or_pos k with rfl | hk
        · rfl
        · have hlt : ((2 * k - 1) * N) ^ 2 < (2 * k * N) ^ 2 :=
            Nat.pow_lt_pow_left (Nat.mul_lt_mul_of_pos_right (by omega) hN) (by norm_num)
          rw [h, ← pow_two] at h1
          omega
      · rw [h, pow_two] at h2
        exact absurd h2 (lt_irrefl _)
  · have hdiv : (2 * k + 1) / 2 = k := by omega
    have hodd : (2 * k + 1) % 2 = 1 := by omega
    rw [hdiv] at hc
    by_cases hup : ((2 * k + 1) * N) * ((2 * k + 1) * N) = s ∧ k % 2 = 0
    · obtain ⟨he, hk⟩ := hup
      refine ⟨k, ?_, ?_, ?_, fun _ => hk⟩
      · rw [hc, decide_eq_true (h3.mpr he)]
        simp [hk]
      · rw [← he, ← pow_two]
        exact Nat.pow_le_pow_left (Nat.mul_le_mul_right N (by omega)) 2
      · rw [← he, ← pow_two]
    · refine ⟨k + 1, ?_, ?_, ?_, ?_⟩
      · have hcond : (!decide ((2 * k + 1) * (2 * k + 1) * (2 ^ 34 * N * N) = s * 2 ^ 34) || decide (k % 2 = 1)) = true := by
          rw [Bool.or_eq_true, Bool.not_eq_true', decide_eq_false_iff_not, h3, decide_eq_true_iff]
          by_contra hno
          rw [not_or, not_not] at hno
          exact hup ⟨hno.1, by omega⟩
        rw [hc, if_pos (by rw [hodd]; simpa using hcond)]
      · rw [show 2 * (k + 1) - 1 = 2 * k + 1 by omega, pow_two]
        exact h1
      · refine h2.le.trans ?_
        rw [← pow_two]
        exact Nat.pow_le_pow_left (Nat.mul_le_mul_right N (by omega)) 2
      · rintro (h | h)
        · rw [show 2 * (k + 1) - 1 = 2 * k + 1 by omega, pow_two] at h
          have hkodd : k % 2 ≠ 0 := fun h0 => hup ⟨h.symm, h0⟩
          omega
        · have hlt : ((2 * k + 1 + 1) * N) ^ 2 < ((2 * (k + 1) + 1) * N) ^ 2 :=
            Nat.pow_lt_pow_left (Nat.mul_lt_mul_of_pos_right (by omega) hN) (by norm_num)
          rw [h, ← pow_two] at h2
          omega

/-! ### Angles on the axes and the diagonals -/

theorem phResolve_none_iff (ty : Nat) (x y : Int) (N : Nat) : phResolve ty x y N = none ↔ N = 0 ∨ (x = 0 ∧ y = 0) := by
  unfold phResolve
  split
  · next h => simpa using h
  · next h =>
    refine iff_of_false (by simp) ?_
    simpa using h

/-- The angle and the coherence of a defined reduction. -/
theorem phResolve_some {ty : Nat} {x y : Int} {N a c : Nat} (h : phResolve ty x y N = some (a, c)) :
    ¬ (N = 0 ∨ (x = 0 ∧ y = 0)) ∧
      a = (roundNat 0 false ((angleFrac y x).1 * 2 ^ phBits ty) (2 * (angleFrac y x).2)).1 % 2 ^ phBits ty ∧
      c = coherence (x * x + y * y).toNat N := by
  have hne : ¬ (N = 0 ∨ (x = 0 ∧ y = 0)) := fun hn => by
    rw [(phResolve_none_iff ty x y N).mpr hn] at h
    cases h
  refine ⟨hne, ?_⟩
  unfold phResolve at h
  rw [if_neg (by simpa using hne)] at h
  simp only [Option.some.injEq, Prod.mk.injEq] at h
  exact ⟨h.1.symm, h.2.symm⟩

/-- The angle from the x axis in the first quadrant, as a fraction of π. -/
def quadrantAngle (ay ax : Nat) : Nat × Nat :=
  if ay = 0 then (0, 1)
  else if ax = 0 then (1, 2)
  else if ax = ay then (1, 4)
  else if ay < ax then (atanFix 320 ay ax, (piAt 320).toNat)
  else ((piAt 320).toNat - 2 * atanFix 320 ax ay, 2 * (piAt 320).toNat)

/-- The angle in its quadrant. -/
def inQuadrant (y x : Int) (q : Nat × Nat) : Nat × Nat :=
  if 0 ≤ x && 0 ≤ y then q
  else if x < 0 && 0 ≤ y then (q.2 - q.1, q.2)
  else if x < 0 then (q.2 + q.1, q.2)
  else (2 * q.2 - q.1, q.2)

theorem angleFrac_eq (y x : Int) : angleFrac y x = inQuadrant y x (quadrantAngle y.natAbs x.natAbs) := rfl

theorem quadrantAngle_x (ax : Nat) : quadrantAngle 0 ax = (0, 1) := if_pos rfl
theorem quadrantAngle_y {ay : Nat} (h : ay ≠ 0) : quadrantAngle ay 0 = (1, 2) := by
  rw [quadrantAngle, if_neg h, if_pos rfl]
theorem quadrantAngle_diagonal {a : Nat} (h : a ≠ 0) : quadrantAngle a a = (1, 4) := by
  rw [quadrantAngle, if_neg h, if_neg h, if_pos rfl]

/-- The code of an angle of k eighths of a turn. -/
theorem angle_code (ty : Nat) {an ad k : Nat} (had : 0 < ad) (hk : 4 * an = k * ad) (hk8 : k < 8) :
    (roundNat 0 false (an * 2 ^ phBits ty) (2 * ad)).1 % 2 ^ phBits ty = k * 2 ^ phBits ty / 8 := by
  obtain ⟨p, hp⟩ : ∃ p, phBits ty = p + 3 := by
    unfold phBits
    split
    · exact ⟨4, rfl⟩
    · exact ⟨12, rfl⟩
  have hd : 0 < 2 * ad := by omega
  have hpow : 2 ^ phBits ty = 8 * 2 ^ p := by rw [hp]; ring
  have hmul : an * 2 ^ phBits ty = 2 * ad * (k * 2 ^ p) := by
    rw [hpow]
    calc an * (8 * 2 ^ p) = 2 * (4 * an) * 2 ^ p := by ring
      _ = 2 * ad * (k * 2 ^ p) := by rw [hk]; ring
  have hround : (roundNat 0 false (2 * ad * (k * 2 ^ p)) (2 * ad)).1 = k * 2 ^ p := by
    unfold roundNat
    dsimp only
    rw [Nat.mul_div_cancel_left _ hd, Nat.mul_mod_right, if_neg (by simp [roundsUp, had.ne'])]
  have hlt : k * 2 ^ p < 8 * 2 ^ p := Nat.mul_lt_mul_of_pos_right hk8 (by positivity)
  rw [hmul, hround, hpow, Nat.mod_eq_of_lt hlt, show k * (8 * 2 ^ p) = k * 2 ^ p * 8 by ring, Nat.mul_div_cancel _ (by norm_num)]

/-- The angle of a sum on an axis or a diagonal. -/
theorem resolve_angle {ty : Nat} {x y : Int} {N a c : Nat} (h : phResolve ty x y N = some (a, c)) {an ad k : Nat}
    (hf : angleFrac y x = (an, ad)) (had : 0 < ad) (hk : 4 * an = k * ad) (hk8 : k < 8) : a = k * 2 ^ phBits ty / 8 := by
  rw [(phResolve_some h).2.1, hf]
  exact angle_code ty had hk hk8

theorem resolve_axes {ty : Nat} {x y : Int} {N a c : Nat} (h : phResolve ty x y N = some (a, c)) :
    (y = 0 → a = if 0 < x then 0 else 4 * 2 ^ phBits ty / 8) ∧
      (x = 0 → a = if 0 < y then 2 * 2 ^ phBits ty / 8 else 6 * 2 ^ phBits ty / 8) ∧
      (x = y → a = if 0 < x then 1 * 2 ^ phBits ty / 8 else 5 * 2 ^ phBits ty / 8) ∧
      (x = -y → a = if 0 < x then 7 * 2 ^ phBits ty / 8 else 3 * 2 ^ phBits ty / 8) := by
  have hne : ¬ (x = 0 ∧ y = 0) := fun hn => (phResolve_some h).1 (.inr hn)
  refine ⟨?_, ?_, ?_, ?_⟩
  · rintro rfl
    have hx : x ≠ 0 := fun h0 => hne ⟨h0, rfl⟩
    have hq : angleFrac 0 x = inQuadrant 0 x (0, 1) := by rw [angleFrac_eq, Int.natAbs_zero, quadrantAngle_x]
    split
    · next hp =>
      rw [inQuadrant, if_pos (by simp; omega)] at hq
      have := resolve_angle h (k := 0) hq (by norm_num) (by norm_num) (by norm_num)
      simpa using this
    · next hp =>
      rw [inQuadrant, if_neg (by simp; omega), if_pos (by simp; omega)] at hq
      exact resolve_angle h hq (by norm_num) (by norm_num) (by norm_num)
  · rintro rfl
    have hy : y ≠ 0 := fun h0 => hne ⟨rfl, h0⟩
    have hq : angleFrac y 0 = inQuadrant y 0 (1, 2) := by rw [angleFrac_eq, Int.natAbs_zero, quadrantAngle_y (by omega)]
    split
    · next hp =>
      rw [inQuadrant, if_pos (by simp; omega)] at hq
      exact resolve_angle h hq (by norm_num) (by norm_num) (by norm_num)
    · next hp =>
      rw [inQuadrant, if_neg (by simp; omega), if_neg (by simp), if_neg (by simp)] at hq
      exact resolve_angle h hq (by norm_num) (by norm_num) (by norm_num)
  · rintro rfl
    have hx : x ≠ 0 := fun h0 => hne ⟨h0, h0⟩
    have hq : angleFrac x x = inQuadrant x x (1, 4) := by rw [angleFrac_eq, quadrantAngle_diagonal (by omega)]
    split
    · next hp =>
      rw [inQuadrant, if_pos (by simp; omega)] at hq
      exact resolve_angle h hq (by norm_num) (by norm_num) (by norm_num)
    · next hp =>
      rw [inQuadrant, if_neg (by simp; omega), if_neg (by simp), if_pos (by omega)] at hq
      exact resolve_angle h hq (by norm_num) (by norm_num) (by norm_num)
  · rintro rfl
    have hy : y ≠ 0 := fun h0 => hne ⟨by omega, h0⟩
    have hq : angleFrac y (-y) = inQuadrant y (-y) (1, 4) := by rw [angleFrac_eq, Int.natAbs_neg, quadrantAngle_diagonal (by omega)]
    split
    · next hp =>
      rw [inQuadrant, if_neg (by simp; omega), if_neg (by simp; omega), if_neg (by omega)] at hq
      exact resolve_angle h hq (by norm_num) (by norm_num) (by norm_num)
    · next hp =>
      rw [inQuadrant, if_neg (by simp; omega), if_pos (by simp; omega)] at hq
      exact resolve_angle h hq (by norm_num) (by norm_num) (by norm_num)

/-- The coherence of a sum. -/
theorem resolve_coherence {ty : Nat} {x y : Int} {N a c : Nat} (h : phResolve ty x y N = some (a, c)) :
    ∃ m : Nat, c = min 0xFFFF m ∧ ((2 * m - 1 : Nat) * N : Int) ^ 2 ≤ x * x + y * y ∧ x * x + y * y ≤ ((2 * m + 1) * N : Int) ^ 2 ∧
      (x * x + y * y = ((2 * m - 1 : Nat) * N : Int) ^ 2 ∨ x * x + y * y = ((2 * m + 1) * N : Int) ^ 2 → m % 2 = 0) := by
  obtain ⟨hne, -, hc⟩ := phResolve_some h
  obtain ⟨m, hm, h1, h2, h3⟩ := coherence_nearest (x * x + y * y).toNat (N := N) (by omega)
  have hs : (((x * x + y * y).toNat : Nat) : Int) = x * x + y * y :=
    Int.toNat_of_nonneg (add_nonneg (mul_self_nonneg x) (mul_self_nonneg y))
  refine ⟨m, hc.trans hm, ?_, ?_, ?_⟩
  · rw [← hs]
    exact_mod_cast h1
  · rw [← hs]
    exact_mod_cast h2
  · rw [← hs]
    rintro (he | he)
    · exact h3 (.inl (by exact_mod_cast he))
    · exact h3 (.inr (by exact_mod_cast he))

/-- R53 to R56. -/
theorem phasorValues : Claims.PhasorValues := by
  refine ⟨fun ty x y _ => ⟨rfl, phMul_eq ty x y⟩, table_entries,
    fun i => ⟨cosEntry_half i, cosEntry_turn i, cosEntry_even, sinEntry_quarter i⟩, fun ty x y N hty => ?_, fun ty x => ?_⟩
  · intro n
    refine ⟨phResolve_none_iff ty x y N, fun a c h => ?_⟩
    obtain ⟨h1, h2, h3, h4⟩ := resolve_axes h
    have hn : 2 ^ phBits ty = 2 ^ n := rfl
    have hbits : ∃ p, 2 ^ n = 8 * p := by
      rcases hty with rfl | rfl
      · exact ⟨16, rfl⟩
      · exact ⟨4096, rfl⟩
    obtain ⟨p, hp⟩ := hbits
    rw [hn] at h1 h2 h3 h4
    refine ⟨?_, resolve_coherence h, fun hy => (h1 hy).trans ?_, fun hx => (h2 hx).trans ?_, fun hxy => (h3 hxy).trans ?_, h4⟩
    · rw [(phResolve_some h).2.1, hn]
      exact Nat.mod_lt _ (by positivity)
    · rw [hp, show 4 * (8 * p) / 8 = 8 * p / 2 by omega]
    · rw [hp, show 2 * (8 * p) / 8 = 8 * p / 4 by omega, show 6 * (8 * p) / 8 = 3 * (8 * p) / 4 by omega]
    · rw [one_mul]
  · cases x with
    | none =>
      show 2 ^ phBits ty = _
      unfold phBits
      split <;> rfl
    | some r => rfl

end Sys2Proof.Machine
end


section
/-!
## The CORDIC words (R123, R124)
-/

namespace Sys2Proof.Machine

/-! ### The sources of a word -/

/-- The pattern and the number of a lane value. -/
def lanePat (ty : Nat) (fz : Bool) (x : Lane32) : Nat := fpIn ty fz (x.toNat % (2 * fpSign ty))
def laneNum (ty : Nat) (fz : Bool) (x : Lane32) : Num := (fmtOf ty).read fz (x.toNat % 2 ^ (fmtOf ty).width)

theorem lane_lt (ty : Nat) (x : Lane32) : x.toNat % (2 * fpSign ty) < 2 * fpSign ty := Nat.mod_lt _ (by have := fpTop_lt ty; omega)

theorem lane_reads (ty : Nat) (fz : Bool) (x : Lane32) : Reads ty (lanePat ty fz x) (laneNum ty fz x) := by
  rw [laneNum, fmtOf_width]
  exact reads (lane_lt ty x) fz

theorem lanePat_lt (ty : Nat) (fz : Bool) (x : Lane32) : lanePat ty fz x < 2 * fpSign ty := (fpIn_magnitude (lane_lt ty x) fz).2.2

theorem cordic_bits {fn : CordicFn} {ty n : Nat} {fz : Bool} {a b : Lane32} {r : Nat} {e : Ev}
    (h : cordicCase (fmtOf ty) fn (laneNum ty fz a) (laneNum ty fz b) = .bits r e) : cordic fn ty n fz a b = (r, e) := by
  unfold laneNum at h
  unfold cordic
  dsimp only
  rw [h]

theorem Reads.zero_of {ty p : Nat} {a : Num} (h : Reads ty p a) (hp : p < 2 * fpSign ty) (hz : p % fpSign ty = 0) :
    ∃ d, a = .fin (fpNeg ty p) 0 d ∧ (if fpNeg ty p then fpSign ty else 0) + 0 = p := by
  have hfin : fpFinite ty p := by
    rw [fpFinite, hz]
    exact Nat.zero_lt_of_lt (fpNormal_lt_top ty)
  obtain ⟨neg, n, d, rfl⟩ := h.fin_of hfin
  refine ⟨d, ?_, ?_⟩
  · rw [h.fin_zero_iff.mpr hz, h.2.1]
  · have := pattern_split hp
    rw [hz] at this
    exact this.symm

theorem Reads.nonzero_of {ty p : Nat} {a : Num} (h : Reads ty p a) (hf : fpFinite ty p) (hz : ¬ p % fpSign ty = 0) :
    ∃ n d, a = .fin (fpNeg ty p) n d ∧ n ≠ 0 ∧ 0 < d ∧ signedVal (fpNeg ty p) ((n : ℚ) / d) = fpVal ty p := by
  obtain ⟨neg, n, d, rfl⟩ := h.fin_of hf
  refine ⟨n, d, by rw [h.2.1], fun hn => hz (h.fin_zero_iff.mp hn), h.2.2.1, ?_⟩
  rw [h.fin_val, h.2.1]

theorem fpTop_pattern (ty : Nat) (neg : Bool) : fpInf ty ((if neg then fpSign ty else 0) + fpTop ty) ∧
    fpNeg ty ((if neg then fpSign ty else 0) + fpTop ty) = neg := pattern_join (fpTop_lt ty) neg

theorem fpOne_val (ty : Nat) : fpMag ty (fpBias ty * fpNormal ty) = 1 ∧ fpBias ty * fpNormal ty < fpTop ty := by
  have hN := fpNormal_pos ty
  have hb := fpBias_pos ty
  have hle : fpNormal ty ≤ fpBias ty * fpNormal ty := Nat.le_mul_of_pos_left _ (by omega)
  refine ⟨?_, ?_⟩
  · rw [fpMag, if_neg (by omega), Nat.mul_mod_left, Nat.add_zero, Nat.mul_div_cancel _ hN, pow_add, fpNormal]
    push_cast
    field_simp
  · have hbias : fpBias ty < 2 ^ expBits ty - 1 := by
      rcases fpShape_cases ty with h | h | h <;> simp [fpBias, expBits, h]
    exact Nat.mul_lt_mul_of_pos_right hbias hN

/-! ### The special inputs (R124) -/

section
variable {ty n : Nat} {fz : Bool} {a b : Lane32}

/-- NaNs of one source. -/
theorem cordic_nan_one {fn : CordicFn} (hfn : ¬ (fn = .atan2 ∨ fn = .div)) (h : fpNan ty (lanePat ty fz a)) :
    (cordic fn ty n fz a b).1 = fpQuiet ty ∧ fpInv ty [lanePat ty fz a] (cordic fn ty n fz a b).2 := by
  have ha := lane_reads ty fz a
  have hsig := ha.signal
  obtain ⟨s, hs⟩ := ha.nan_of h
  have hc : cordicCase (fmtOf ty) fn (laneNum ty fz a) (laneNum ty fz b) = .bits (fmtOf ty).nanBits (laneNum ty fz a).sigEv := by
    rw [hs]
    cases fn
    case atan2 => exact absurd (.inl rfl) hfn
    case div => exact absurd (.inr rfl) hfn
    all_goals rfl
  rw [cordic_bits hc]
  exact ⟨fmtOf_nanBits ty, hsig⟩

/-- NaNs of two sources. -/
theorem cordic_nan_two {fn : CordicFn} (hfn : fn = .atan2 ∨ fn = .div) (h : fpNan ty (lanePat ty fz a) ∨ fpNan ty (lanePat ty fz b)) :
    (cordic fn ty n fz a b).1 = fpQuiet ty ∧ fpInv ty [lanePat ty fz a, lanePat ty fz b] (cordic fn ty n fz a b).2 := by
  have ha := lane_reads ty fz a
  have hb := lane_reads ty fz b
  have hsig := fpInv_append ha.signal hb.signal
  have hnum := h.imp ha.isNan_iff.mpr hb.isNan_iff.mpr
  have hc : cordicCase (fmtOf ty) fn (laneNum ty fz a) (laneNum ty fz b) =
      .bits (fmtOf ty).nanBits ((laneNum ty fz a).sigEv ||| (laneNum ty fz b).sigEv) := by
    generalize laneNum ty fz a = x at *
    generalize laneNum ty fz b = y at *
    rcases hfn with rfl | rfl <;> cases x <;> cases y <;> simp [Num.isNan] at hnum <;> rfl
  rw [cordic_bits hc]
  exact ⟨fmtOf_nanBits ty, hsig⟩

/-- A row of the table: its case and the pattern that it writes. -/
theorem cordic_row {fn : CordicFn} {x y : Num} (hx : laneNum ty fz a = x) (hy : laneNum ty fz b = y) {r v : Nat} {e : Ev}
    (hc : cordicCase (fmtOf ty) fn x y = .bits r e) (hr : r = v) : cordic fn ty n fz a b = (v, e) := by
  subst hx hy hr
  exact cordic_bits hc

/-- The canonical NaN with INV. -/
theorem cordic_bad {fn : CordicFn} {x y : Num} (hx : laneNum ty fz a = x) (hy : laneNum ty fz b = y)
    (hc : cordicCase (fmtOf ty) fn x y = .bits (fmtOf ty).nanBits evInv) : cordic fn ty n fz a b = (fpQuiet ty, 1) :=
  cordic_row hx hy hc (fmtOf_nanBits ty)

/-- A magnitude with a sign. -/
theorem cordic_signed {fn : CordicFn} {x y : Num} (hx : laneNum ty fz a = x) (hy : laneNum ty fz b = y) {neg : Bool} {m : Nat}
    (hc : cordicCase (fmtOf ty) fn x y = .bits ((fmtOf ty).signed neg m) evNone) :
    cordic fn ty n fz a b = ((if neg then fpSign ty else 0) + m, 0) :=
  cordic_row hx hy hc (fmtOf_signed ty neg m)

/-- ±1. -/
theorem cordic_one {fn : CordicFn} {x y : Num} (hx : laneNum ty fz a = x) (hy : laneNum ty fz b = y) {neg : Bool}
    (hc : cordicCase (fmtOf ty) fn x y = .bits ((fmtOf ty).signed neg ((fmtOf ty).bias * 2 ^ (fmtOf ty).fb)) evNone) :
    cordic fn ty n fz a b = ((if neg then fpSign ty else 0) + fpBias ty * fpNormal ty, 0) := by
  rw [fmtOf_bias, fmtOf_fb] at hc
  exact cordic_signed hx hy hc

/-- ±∞. -/
theorem cordic_inf {fn : CordicFn} {x y : Num} (hx : laneNum ty fz a = x) (hy : laneNum ty fz b = y) {neg : Bool}
    (hc : cordicCase (fmtOf ty) fn x y = .bits ((fmtOf ty).signed neg (fmtOf ty).infBits) evNone) :
    cordic fn ty n fz a b = ((if neg then fpSign ty else 0) + fpTop ty, 0) := by
  rw [fmtOf_infBits] at hc
  exact cordic_signed hx hy hc

theorem laneNum_inf {x : Lane32} (h : fpInf ty (lanePat ty fz x)) : laneNum ty fz x = .inf (fpNeg ty (lanePat ty fz x)) :=
  (lane_reads ty fz x).inf_of h

theorem laneNum_inf_eq {x : Lane32} {neg : Bool} (h : lanePat ty fz x = (if neg then fpSign ty else 0) + fpTop ty) :
    laneNum ty fz x = .inf neg := by
  obtain ⟨h1, h2⟩ := fpTop_pattern ty neg
  rw [laneNum_inf (h ▸ h1), h, h2]

theorem laneNum_zero {x : Lane32} (h : lanePat ty fz x % fpSign ty = 0) : ∃ d, laneNum ty fz x = .fin (fpNeg ty (lanePat ty fz x)) 0 d ∧
    (if fpNeg ty (lanePat ty fz x) then fpSign ty else 0) + 0 = lanePat ty fz x := (lane_reads ty fz x).zero_of (lanePat_lt ty fz x) h

theorem laneNum_nonzero {x : Lane32} (hf : fpFinite ty (lanePat ty fz x)) (h : ¬ lanePat ty fz x % fpSign ty = 0) :
    ∃ n d, laneNum ty fz x = .fin (fpNeg ty (lanePat ty fz x)) n d ∧ n ≠ 0 ∧ 0 < d ∧
      signedVal (fpNeg ty (lanePat ty fz x)) ((n : ℚ) / d) = fpVal ty (lanePat ty fz x) := (lane_reads ty fz x).nonzero_of hf h

/-- The rows of an infinite source of either sign. -/
theorem cordic_of_inf (h : fpInf ty (lanePat ty fz a)) :
    (cordic .sin ty n fz a b = (fpQuiet ty, 1) ∧ cordic .cos ty n fz a b = (fpQuiet ty, 1)) ∧
      cordic .tanh ty n fz a b = ((if fpNeg ty (lanePat ty fz a) then fpSign ty else 0) + fpBias ty * fpNormal ty, 0) := by
  have ha := laneNum_inf h
  exact ⟨⟨cordic_bad ha rfl rfl, cordic_bad ha rfl rfl⟩, cordic_one ha rfl rfl⟩

/-- The rows of a zero source. -/
theorem cordic_of_zero (h : lanePat ty fz a % fpSign ty = 0) :
    (cordic .sin ty n fz a b = (lanePat ty fz a, 0) ∧ cordic .cos ty n fz a b = (fpBias ty * fpNormal ty, 0)) ∧
      cordic .exp ty n fz a b = (fpBias ty * fpNormal ty, 0) ∧ cordic .ln ty n fz a b = (fpSign ty + fpTop ty, 0) ∧
      cordic .tanh ty n fz a b = (lanePat ty fz a, 0) ∧ cordic .sigm ty n fz a b = ((fpBias ty - 1) * fpNormal ty, 0) ∧
      cordic .sqrt ty n fz a b = (lanePat ty fz a, 0) ∧
      cordic .rsq ty n fz a b = ((if fpNeg ty (lanePat ty fz a) then fpSign ty else 0) + fpTop ty, 0) := by
  obtain ⟨d, ha, hz⟩ := laneNum_zero h
  have hone (v : Nat × Ev) (hv : v = ((if false then fpSign ty else 0) + fpBias ty * fpNormal ty, 0)) : v = (fpBias ty * fpNormal ty, 0) := by
    rw [hv, if_neg Bool.false_ne_true, Nat.zero_add]
  have hsame (v : Nat × Ev) (hv : v = ((if fpNeg ty (lanePat ty fz a) then fpSign ty else 0) + 0, 0)) : v = (lanePat ty fz a, 0) := by
    rw [hv, hz]
  refine ⟨⟨hsame _ (cordic_signed ha rfl rfl), hone _ (cordic_one ha rfl rfl)⟩, hone _ (cordic_one ha rfl rfl), cordic_inf (neg := true) ha rfl rfl,
    hsame _ (cordic_signed ha rfl rfl), cordic_row ha rfl rfl ?_, hsame _ (cordic_signed ha rfl rfl), cordic_inf ha rfl rfl⟩
  rw [fmtOf_bias, fmtOf_fb, fpNormal]

/-- The rows of +∞, of −∞ and of 1. -/
theorem cordic_of_pos_inf (h : lanePat ty fz a = fpTop ty) :
    cordic .exp ty n fz a b = (fpTop ty, 0) ∧ cordic .ln ty n fz a b = (fpTop ty, 0) ∧ cordic .sigm ty n fz a b = (fpBias ty * fpNormal ty, 0) ∧
      cordic .sqrt ty n fz a b = (fpTop ty, 0) ∧ cordic .rsq ty n fz a b = (0, 0) := by
  have ha : laneNum ty fz a = .inf false := laneNum_inf_eq (by rw [if_neg Bool.false_ne_true, Nat.zero_add]; exact h)
  have hpos {m : Nat} (v : Nat × Ev) (hv : v = ((if false then fpSign ty else 0) + m, 0)) : v = (m, 0) := by
    rw [hv, if_neg Bool.false_ne_true, Nat.zero_add]
  exact ⟨hpos _ (cordic_inf ha rfl rfl), hpos _ (cordic_inf ha rfl rfl), hpos _ (cordic_one ha rfl rfl), hpos _ (cordic_inf ha rfl rfl),
    hpos _ (cordic_signed ha rfl rfl)⟩

theorem cordic_of_neg_inf (h : lanePat ty fz a = fpSign ty + fpTop ty) :
    cordic .exp ty n fz a b = (0, 0) ∧ cordic .sigm ty n fz a b = (0, 0) := by
  have ha : laneNum ty fz a = .inf true := laneNum_inf_eq (by rw [if_pos rfl]; exact h)
  exact ⟨cordic_signed (neg := false) (m := 0) ha rfl rfl, cordic_signed (neg := false) (m := 0) ha rfl rfl⟩

theorem cordic_ln_one (h : lanePat ty fz a = fpBias ty * fpNormal ty) : cordic .ln ty n fz a b = (0, 0) := by
  obtain ⟨hv, hlt⟩ := fpOne_val ty
  have hsign := fpTop_lt ty
  obtain ⟨hmag, hneg⟩ := pattern_join (ty := ty) (m := fpBias ty * fpNormal ty) (by omega) false
  rw [if_neg Bool.false_ne_true, Nat.zero_add, ← h] at hmag hneg
  have hpos : 0 < fpBias ty * fpNormal ty := Nat.mul_pos (by have := fpBias_pos ty; omega) (fpNormal_pos ty)
  obtain ⟨m, d, ha, -, hd, hval⟩ := laneNum_nonzero (ty := ty) (fz := fz) (x := a) (by rw [fpFinite, hmag, h]; exact hlt) (by rw [hmag, h]; omega)
  rw [hneg] at ha hval
  rw [fpVal_eq, hmag, hneg, h, hv, signedVal, signedVal, if_neg Bool.false_ne_true, one_mul, one_mul] at hval
  have hd' : (d : ℚ) ≠ 0 := by exact_mod_cast hd.ne'
  have hmd : m = d := by exact_mod_cast (div_eq_one_iff_eq hd').mp hval
  refine cordic_signed (neg := false) (m := 0) ha rfl ?_
  simp [cordicCase, hmd, hd.ne']

/-- A negative source of the roots and the logarithm. -/
theorem cordic_of_negative (hs : fpNeg ty (lanePat ty fz a) = true) (hz : ¬ lanePat ty fz a % fpSign ty = 0) (hn : ¬ fpNan ty (lanePat ty fz a)) :
    cordic .ln ty n fz a b = (fpQuiet ty, 1) ∧ cordic .sqrt ty n fz a b = (fpQuiet ty, 1) ∧ cordic .rsq ty n fz a b = (fpQuiet ty, 1) := by
  by_cases hi : fpInf ty (lanePat ty fz a)
  · have ha := laneNum_inf hi
    rw [hs] at ha
    exact ⟨cordic_bad ha rfl rfl, cordic_bad ha rfl rfl, cordic_bad ha rfl rfl⟩
  · have hf : fpFinite ty (lanePat ty fz a) := by
      unfold fpNan at hn
      unfold fpInf at hi
      unfold fpFinite
      omega
    obtain ⟨m, d, ha, hm, -, -⟩ := laneNum_nonzero hf hz
    rw [hs] at ha
    have hc (fn : CordicFn) (hfn : fn = .ln ∨ fn = .sqrt ∨ fn = .rsq) :
        cordicCase (fmtOf ty) fn (.fin true m d) (laneNum ty fz b) = .bits (fmtOf ty).nanBits evInv := by
      rcases hfn with rfl | rfl | rfl <;> simp [cordicCase, hm]
    exact ⟨cordic_bad ha rfl (hc _ (.inl rfl)), cordic_bad ha rfl (hc _ (.inr (.inl rfl))), cordic_bad ha rfl (hc _ (.inr (.inr rfl)))⟩

/-- The rows of a quotient. -/
theorem cordic_div_rows :
    (fpFinite ty (lanePat ty fz a) → ¬ lanePat ty fz a % fpSign ty = 0 → lanePat ty fz b % fpSign ty = 0 →
        cordic .div ty n fz a b = ((if fpNeg ty (lanePat ty fz a) != fpNeg ty (lanePat ty fz b) then fpSign ty else 0) + fpTop ty, 0)) ∧
      (lanePat ty fz a % fpSign ty = 0 → lanePat ty fz b % fpSign ty = 0 → cordic .div ty n fz a b = (fpQuiet ty, 1)) ∧
      (fpInf ty (lanePat ty fz a) → fpInf ty (lanePat ty fz b) → cordic .div ty n fz a b = (fpQuiet ty, 1)) ∧
      (fpFinite ty (lanePat ty fz a) → fpInf ty (lanePat ty fz b) →
        cordic .div ty n fz a b = ((if fpNeg ty (lanePat ty fz a) != fpNeg ty (lanePat ty fz b) then fpSign ty else 0) + 0, 0)) := by
  refine ⟨fun hf hz hzb => ?_, fun hz hzb => ?_, fun hi hib => ?_, fun hf hib => ?_⟩
  · obtain ⟨m, d, ha, hm, -, -⟩ := laneNum_nonzero hf hz
    obtain ⟨d', hb, -⟩ := laneNum_zero hzb
    exact cordic_inf ha hb (by simp [cordicCase, hm])
  · obtain ⟨d, ha, -⟩ := laneNum_zero hz
    obtain ⟨d', hb, -⟩ := laneNum_zero hzb
    exact cordic_bad ha hb rfl
  · exact cordic_bad (laneNum_inf hi) (laneNum_inf hib) rfl
  · obtain ⟨s, m, d, ha⟩ := (lane_reads ty fz a).fin_of hf
    have hs : s = fpNeg ty (lanePat ty fz a) := by
      have h := lane_reads ty fz a
      rw [ha] at h
      exact h.2.1
    rw [hs] at ha
    exact cordic_signed ha (laneNum_inf hib) rfl

/-- The rows of an angle that is zero. -/
theorem cordic_atan2_rows :
    (lanePat ty fz a % fpSign ty = 0 → fpFinite ty (lanePat ty fz b) → fpNeg ty (lanePat ty fz b) = false →
        cordic .atan2 ty n fz a b = (lanePat ty fz a, 0)) ∧
      (fpFinite ty (lanePat ty fz a) → lanePat ty fz b = fpTop ty →
        cordic .atan2 ty n fz a b = ((if fpNeg ty (lanePat ty fz a) then fpSign ty else 0) + 0, 0)) := by
  have hfin {x : Lane32} (hf : fpFinite ty (lanePat ty fz x)) : ∃ m d, laneNum ty fz x = .fin (fpNeg ty (lanePat ty fz x)) m d := by
    obtain ⟨s, m, d, hx⟩ := (lane_reads ty fz x).fin_of hf
    have h := lane_reads ty fz x
    rw [hx] at h
    exact ⟨m, d, by rw [hx, h.2.1]⟩
  refine ⟨fun hz hf hs => ?_, fun hf hb => ?_⟩
  · obtain ⟨d, ha, hz⟩ := laneNum_zero hz
    obtain ⟨m, e, hb⟩ := hfin hf
    rw [hs] at hb
    have := cordic_signed (n := n) (fn := .atan2) ha hb rfl
    rwa [hz] at this
  · obtain ⟨m, d, ha⟩ := hfin hf
    have hb : laneNum ty fz b = .inf false := laneNum_inf_eq (by rw [if_neg Bool.false_ne_true, Nat.zero_add]; exact hb)
    exact cordic_signed ha hb rfl

end

/-- R44, R61, R124. -/
theorem cordicSpecials : Claims.CordicSpecials := by
  intro ty n fz a0 b0 _ r a b zero one inf bad signed
  have hsign : 0 < fpTop ty := Nat.zero_lt_of_lt (fpNormal_lt_top ty)
  obtain ⟨hd1, hd2, hd3, hd4⟩ := cordic_div_rows (ty := ty) (n := n) (fz := fz) (a := a0) (b := b0)
  obtain ⟨ha1, ha2⟩ := cordic_atan2_rows (ty := ty) (n := n) (fz := fz) (a := a0) (b := b0)
  refine ⟨fun fn h => ?_, fun h => (cordic_of_inf h).1, fun h => (cordic_of_zero h).1, fun h => (cordic_of_zero h).2, cordic_of_pos_inf,
    cordic_of_neg_inf, fun h => (cordic_of_inf h).2, cordic_ln_one, cordic_of_negative, hd1, hd2, hd3, hd4, fun hz hf _ hs => ha1 hz hf hs,
    fun hz hzb hs => ha1 hz ?_ hs, ha2⟩
  · by_cases hfn : fn = .atan2 ∨ fn = .div
    · rw [if_pos hfn]
      exact cordic_nan_two hfn (h.imp id And.left)
    · rw [if_neg hfn]
      exact cordic_nan_one hfn (h.resolve_right fun hc => hfn hc.2)
  · show b % fpSign ty < fpTop ty
    rw [show b % fpSign ty = 0 from hzb]
    exact hsign

end Sys2Proof.Machine
end


section
/-! ## The bound of the CORDIC words (R123, R124) -/

namespace Sys2Proof.Machine

/-! ### Where the internal result stands -/

/-- The bound of a word is a fraction that is not negative. -/
theorem cordicBound_val (ty : Nat) (fn : CordicFn) (n : Nat) {x : SFrac} (hx : 0 < x.den) :
    let v : ℚ := (x.num : ℚ) / x.den
    let b := cordicBound (fmtOf ty) fn n x
    let normal : Prop := fpMag ty (fpNormal ty) ≤ |v| ∧ |v| ≤ fpMag ty (fpTop ty - 1)
    0 < b.den ∧ 0 ≤ b.num ∧ (fn.relative = false → (b.num : ℚ) / b.den = 2 / 2 ^ n) ∧
      (fn.relative = true → normal → (b.num : ℚ) / b.den = 4 / 2 ^ n * |v|) ∧
      (fn.relative = true → ¬ normal → (b.num : ℚ) / b.den = 4 / 2 ^ n * fpMag ty (fpNormal ty)) := by
  intro v b normal
  have hden : (0 : ℚ) < x.den := by exact_mod_cast hx
  have hv : |v| = (x.num.natAbs : ℚ) / x.den := by
    rw [show v = (x.num : ℚ) / x.den from rfl, abs_div, abs_of_pos hden, Nat.cast_natAbs]
    push_cast
    rfl
  cases hrel : fn.relative with
  | false =>
    have hb : b = ⟨2, 2 ^ n⟩ := if_neg (by simp [hrel])
    rw [hb]
    refine ⟨Nat.two_pow_pos n, by norm_num, fun _ => by push_cast; rfl, fun h => absurd h Bool.false_ne_true, fun h => absurd h Bool.false_ne_true⟩
  | true =>
    obtain ⟨hp1, hp2⟩ := pow2_pos (1 - (fpBias ty : Int))
    have hmin : ((pow2 (1 - (fpBias ty : Int))).1 : ℚ) / (pow2 (1 - (fpBias ty : Int))).2 = fpMag ty (fpNormal ty) := by
      rw [pow2_val, fpMag_normal]
    -- the greatest finite magnitude, read as a number
    have htop := fpTop_lt ty
    have hnt := fpNormal_lt_top ty
    have hread := reads (ty := ty) (x := fpTop ty - 1) (by omega) false
    have hin : fpIn ty false (fpTop ty - 1) = fpTop ty - 1 := if_neg (fun h => Bool.false_ne_true h.1)
    have hmod : (fpTop ty - 1) % fpSign ty = fpTop ty - 1 := Nat.mod_eq_of_lt (by omega)
    rw [hin] at hread
    obtain ⟨s, p, q, hpq⟩ := hread.fin_of (by rw [fpFinite, hmod]; omega)
    rw [hpq] at hread
    obtain ⟨-, -, hq, hmax⟩ := hread
    rw [hmod] at hmax
    have hq' : (0 : ℚ) < q := by exact_mod_cast hq
    have hp2' : (0 : ℚ) < (pow2 (1 - (fpBias ty : Int))).2 := by exact_mod_cast hp2
    have hnormal : normal ↔ (decide ((pow2 (1 - (fpBias ty : Int))).1 * x.den ≤ x.num.natAbs * (pow2 (1 - (fpBias ty : Int))).2) &&
        decide (x.num.natAbs * q ≤ p * x.den)) = true := by
      rw [Bool.and_eq_true, decide_eq_true_iff, decide_eq_true_iff, show normal = (_ ∧ _) from rfl, hv, ← hmin, ← hmax,
        div_le_div_iff₀ hp2' hden, div_le_div_iff₀ hden hq']
      norm_cast
    have hb : b = if (decide ((pow2 (1 - (fpBias ty : Int))).1 * x.den ≤ x.num.natAbs * (pow2 (1 - (fpBias ty : Int))).2) &&
        decide (x.num.natAbs * q ≤ p * x.den)) = true then ⟨4 * (x.num.natAbs : Int), x.den * 2 ^ n⟩
        else ⟨4 * ((pow2 (1 - (fpBias ty : Int))).1 : Int), (pow2 (1 - (fpBias ty : Int))).2 * 2 ^ n⟩ := by
      rw [show b = cordicBound (fmtOf ty) fn n x from rfl, cordicBound, if_pos hrel]
      dsimp only
      rw [fmtOf_maxBits, fmtOf_bias, hpq]
    by_cases hn : normal
    · rw [if_pos (hnormal.mp hn)] at hb
      rw [hb]
      refine ⟨Nat.mul_pos hx (Nat.two_pow_pos n), by positivity, fun h => absurd h.symm Bool.false_ne_true, fun _ _ => ?_, fun _ h => absurd hn h⟩
      rw [hv, Int.cast_mul, Int.cast_natCast]
      generalize (x.num.natAbs : ℚ) = m
      push_cast
      field_simp
    · rw [if_neg (fun h => hn (hnormal.mpr h))] at hb
      rw [hb]
      refine ⟨Nat.mul_pos hp2 (Nat.two_pow_pos n), by positivity, fun h => absurd h.symm Bool.false_ne_true, fun _ h => absurd h hn, fun _ _ => ?_⟩
      rw [← hmin]
      push_cast
      field_simp

/-- The internal result stands inside the bound. -/
theorem cordicY_near (ty : Nat) (fn : CordicFn) (n : Nat) (free : Int) {x : SFrac} (hx : 0 < x.den) :
    let y := cordicY (fmtOf ty) fn n free x
    let b := cordicBound (fmtOf ty) fn n x
    0 < y.den ∧ |(y.num : ℚ) / y.den - (x.num : ℚ) / x.den| ≤ (b.num : ℚ) / b.den := by
  obtain ⟨hbd, hbn, -⟩ := cordicBound_val ty fn n hx
  intro y b
  have hc1 : -(2 ^ 256) ≤ max (-(2 ^ 256 : Int)) (min (2 ^ 256 : Int) free) := le_max_left _ _
  have hc2 : max (-(2 ^ 256 : Int)) (min (2 ^ 256 : Int) free) ≤ 2 ^ 256 := max_le (by norm_num) (min_le_left _ _)
  have hy : y = x.add ⟨b.num * max (-(2 ^ 256 : Int)) (min (2 ^ 256 : Int) free), b.den * 2 ^ 256⟩ := rfl
  generalize max (-(2 ^ 256 : Int)) (min (2 ^ 256 : Int) free) = c at *
  have hd : 0 < b.den * 2 ^ 256 := Nat.mul_pos hbd (Nat.two_pow_pos 256)
  have hb0 : 0 ≤ (b.num : ℚ) / b.den := by
    have : (0 : ℚ) ≤ b.num := by exact_mod_cast hbn
    positivity
  have hcabs : |(c : ℚ) / 2 ^ 256| ≤ 1 := by
    rw [abs_div, abs_of_pos (by positivity : (0 : ℚ) < 2 ^ 256), div_le_one (by positivity), abs_le]
    exact ⟨by exact_mod_cast hc1, by exact_mod_cast hc2⟩
  refine ⟨hy ▸ Nat.mul_pos hx hd, ?_⟩
  rw [hy, SFrac.add_val hx hd, add_sub_cancel_left]
  dsimp only
  rw [Int.cast_mul, Nat.cast_mul, mul_div_mul_comm, abs_mul, abs_of_nonneg hb0, Nat.cast_pow, Nat.cast_ofNat]
  exact mul_le_of_le_one_right hb0 hcabs

section
variable {fn : CordicFn} {ty n : Nat} {fz : Bool} {a b : Lane32}

/-- A word of an exact value. -/
theorem cordic_value {x : SFrac} (h : cordicCase (fmtOf ty) fn (laneNum ty fz a) (laneNum ty fz b) = .value x) :
    ∃ free, (cordic fn ty n fz a b).1 = ((fmtOf ty).roundS 0 fz false (cordicY (fmtOf ty) fn n free x)).1 ∧
      (fn ≠ .sqrt → fn ≠ .rsq → fn ≠ .div → bit (cordic fn ty n fz a b).2 3 = true) := by
  have hexact (u v w : Num) (h1 : fn ≠ .sqrt) (h2 : fn ≠ .rsq) (h3 : fn ≠ .div) : cordicExact fn u v w = false := by
    cases fn
    case sqrt => exact absurd rfl h1
    case rsq => exact absurd rfl h2
    case div => exact absurd rfl h3
    all_goals rfl
  have hbit (e f : Ev) : bit (e ||| evInx ||| f) 3 = true := by
    unfold bit evInx
    simp
  unfold laneNum at h
  unfold cordic
  dsimp only
  rw [h]
  refine ⟨Config.cordic fn.op10 ty n fz (BitVec.ofNat 32 (a.toNat % 2 ^ (fmtOf ty).width)) (BitVec.ofNat 32 (b.toNat % 2 ^ (fmtOf ty).width)),
    ?_, fun h1 h2 h3 => ?_⟩
  · dsimp only
    split <;> rfl
  · dsimp only
    rw [hexact _ _ _ h1 h2 h3]
    exact hbit _ _

theorem cordic_bounded {x : SFrac} (h : cordicCase (fmtOf ty) fn (laneNum ty fz a) (laneNum ty fz b) = .value x) (hx : 0 < x.den) :
    let v : ℚ := (x.num : ℚ) / x.den
    let normal : Prop := fpMag ty (fpNormal ty) ≤ |v| ∧ |v| ≤ fpMag ty (fpTop ty - 1)
    ∃ y : ℚ, (fn = .sin ∨ fn = .cos ∨ fn = .atan2 → |y - v| ≤ 2 / 2 ^ n) ∧
      (fn ≠ .sin → fn ≠ .cos → fn ≠ .atan2 → (normal → |y - v| ≤ 4 / 2 ^ n * |v|) ∧ (¬ normal → |y - v| ≤ 4 / 2 ^ n * fpMag ty (fpNormal ty))) ∧
      (∃ ev, fpGives ty 0 fz y false (cordic fn ty n fz a b).1 ev) ∧
      (fn ≠ .sqrt → fn ≠ .rsq → fn ≠ .div → bit (cordic fn ty n fz a b).2 3 = true) := by
  intro v normal
  obtain ⟨free, hval, hinx⟩ := cordic_value (n := n) h
  obtain ⟨hyd, hnear⟩ := cordicY_near ty fn n free hx
  obtain ⟨-, -, habs, hnorm, hsub⟩ := cordicBound_val ty fn n hx
  refine ⟨_, fun hfn => ?_, fun h1 h2 h3 => ?_, ⟨_, hval ▸ roundS_gives ty 0 fz false hyd⟩, hinx⟩
  · have hrel : fn.relative = false := by rcases hfn with rfl | rfl | rfl <;> rfl
    exact hnear.trans (habs hrel).le
  · have hrel : fn.relative = true := by
      cases fn
      case sin => exact absurd rfl h1
      case cos => exact absurd rfl h2
      case atan2 => exact absurd rfl h3
      all_goals rfl
    exact ⟨fun hn => hnear.trans (hnorm hrel hn).le, fun hn => hnear.trans (hsub hrel hn).le⟩

end

/-! ### Quotients and roots -/

/-- The root of a fraction, cut. -/
theorem sqrtFrac_bounds {n d : Nat} (hd : 0 < d) : 0 < (sqrtFrac n d).2 ∧
    (((sqrtFrac n d).1 : ℚ) / (sqrtFrac n d).2) ^ 2 ≤ (n : ℚ) / d ∧
      (n : ℚ) / d < (((sqrtFrac n d).1 : ℚ) / (sqrtFrac n d).2 + 1 / 2 ^ 640) ^ 2 := by
  have hd' : (0 : ℚ) < d := by exact_mod_cast hd
  have hP : (0 : ℚ) < 2 ^ 640 := by positivity
  unfold sqrtFrac
  dsimp only
  split
  · next h =>
    have hv : ((isqrt (n * d) : ℚ) / d) ^ 2 = (n : ℚ) / d := by
      have hq : (isqrt (n * d) : ℚ) * isqrt (n * d) = n * d := by exact_mod_cast h
      rw [div_pow, pow_two, hq]
      field_simp
    generalize (2 : ℚ) ^ 640 = P at hP ⊢
    refine ⟨hd, hv.le, ?_⟩
    rw [← hv]
    exact pow_lt_pow_left₀ (lt_add_of_pos_right _ (by positivity)) (by positivity) (by norm_num)
  · obtain ⟨h1, h2⟩ := isqrt_bounds (n * 2 ^ (2 * cfx) / d)
    generalize isqrt (n * 2 ^ (2 * cfx) / d) = s at *
    rw [Nat.le_div_iff_mul_le hd] at h1
    rw [Nat.div_lt_iff_lt_mul hd] at h2
    have hcast : ((2 ^ cfx : Nat) : ℚ) = 2 ^ 640 := by
      rw [Nat.cast_pow, Nat.cast_ofNat]
      rfl
    have hcast2 : ((2 ^ (2 * cfx) : Nat) : ℚ) = 2 ^ 640 * 2 ^ 640 := by
      rw [two_mul, pow_add, Nat.cast_mul, hcast]
    have hq1 : (s : ℚ) * s * d ≤ n * (2 ^ 640 * 2 ^ 640) := by
      rw [← hcast2]
      exact_mod_cast h1
    have hq2 : (n : ℚ) * (2 ^ 640 * 2 ^ 640) < (s + 1) * (s + 1) * d := by
      rw [← hcast2]
      exact_mod_cast h2
    rw [hcast]
    generalize (2 : ℚ) ^ 640 = P at *
    refine ⟨Nat.two_pow_pos _, ?_, ?_⟩
    · rw [div_pow, div_le_div_iff₀ (by positivity) hd', pow_two, pow_two]
      exact hq1
    · rw [← add_div, div_pow, div_lt_div_iff₀ hd' (by positivity), pow_two, pow_two]
      exact hq2

section
variable {ty : Nat} {fz : Bool} {a b : Lane32}

theorem cordic_quotient (ha : fpFinite ty (lanePat ty fz a)) (haz : lanePat ty fz a % fpSign ty ≠ 0) (hb : fpFinite ty (lanePat ty fz b))
    (hbz : lanePat ty fz b % fpSign ty ≠ 0) : ∃ x, cordicCase (fmtOf ty) .div (laneNum ty fz a) (laneNum ty fz b) = .value x ∧ 0 < x.den ∧
      (x.num : ℚ) / x.den = fpVal ty (lanePat ty fz a) / fpVal ty (lanePat ty fz b) := by
  obtain ⟨n, d, han, hn, hd, hav⟩ := laneNum_nonzero ha haz
  obtain ⟨m, e, hbn, hm, he, hbv⟩ := laneNum_nonzero hb hbz
  refine ⟨SFrac.of (fpNeg ty (lanePat ty fz a) != fpNeg ty (lanePat ty fz b)) (n * e) (d * m), ?_, Nat.mul_pos hd (Nat.pos_of_ne_zero hm), ?_⟩
  · rw [han, hbn]
    simp [cordicCase, hn, hm]
  · have hfrac : ((n * e : Nat) : ℚ) / ((d * m : Nat) : ℚ) = (n : ℚ) / d * ((e : ℚ) / m) := by
      rw [Nat.cast_mul, Nat.cast_mul, mul_div_mul_comm]
    rw [SFrac.of_val, hfrac, signedVal_mul, ← hav, ← hbv, div_eq_mul_inv (signedVal _ _)]
    congr 1
    unfold signedVal
    cases fpNeg ty (lanePat ty fz b) <;> simp [inv_div]

theorem cordic_root (ha : fpFinite ty (lanePat ty fz a)) (haz : lanePat ty fz a % fpSign ty ≠ 0) {fn : CordicFn} {v : ℚ}
    (hfn : (fn = .sqrt ∧ v = fpVal ty (lanePat ty fz a)) ∨ (fn = .rsq ∧ v = 1 / fpVal ty (lanePat ty fz a))) (hv : 0 < v) :
    ∃ x, cordicCase (fmtOf ty) fn (laneNum ty fz a) (laneNum ty fz b) = .value x ∧ 0 < x.den ∧ 0 ≤ x.num ∧
      ((x.num : ℚ) / x.den) ^ 2 ≤ v ∧ v < ((x.num : ℚ) / x.den + 1 / 2 ^ 640) ^ 2 := by
  obtain ⟨n, d, han, hn, hd, hav⟩ := laneNum_nonzero ha haz
  have hpos : 0 < fpVal ty (lanePat ty fz a) := by
    rcases hfn with ⟨-, rfl⟩ | ⟨-, rfl⟩
    · exact hv
    · exact one_div_pos.mp hv
  have hn0 : 0 < n := Nat.pos_of_ne_zero hn
  have hneg : fpNeg ty (lanePat ty fz a) = false := by
    rw [← Bool.not_eq_true, ← signedVal_neg_iff (v := (n : ℚ) / d) (by positivity), hav]
    exact not_lt.mpr hpos.le
  rw [hneg, signedVal, if_neg Bool.false_ne_true, one_mul] at hav
  rw [hneg] at han
  rw [han]
  rcases hfn with ⟨rfl, rfl⟩ | ⟨rfl, rfl⟩
  · obtain ⟨h1, h2, h3⟩ := sqrtFrac_bounds (n := n) hd
    rw [hav] at h2 h3
    exact ⟨⟨(sqrtFrac n d).1, (sqrtFrac n d).2⟩, by simp [cordicCase, hn], h1, Int.natCast_nonneg _, h2, h3⟩
  · obtain ⟨h1, h2, h3⟩ := sqrtFrac_bounds (n := d) hn0
    have hinv : (d : ℚ) / n = 1 / fpVal ty (lanePat ty fz a) := by rw [← hav, one_div_div]
    rw [hinv] at h2 h3
    exact ⟨⟨(sqrtFrac d n).1, (sqrtFrac d n).2⟩, by simp [cordicCase, hn], h1, Int.natCast_nonneg _, h2, h3⟩

end

/-- R123, R124. -/
theorem cordicBound_holds : Claims.CordicBound := by
  intro fn ty n fz a0 b0 _ _ _ f a b r exact_
  refine ⟨fun x hx hd => cordic_bounded hx hd, fun ha haz => ⟨?_, fun v hv hpos => cordic_root ha haz hv hpos⟩⟩
  rintro rfl hb hbz
  exact cordic_quotient ha haz hb hbz

end Sys2Proof.Machine

namespace Sys2Proof

/-- Settles O6: each operation's exact result is rounded once, by the rounding rule of `Fmt.round`; the codes, tables, special rows and the bounds
of the CORDIC words follow from their definitions. -/
theorem floatingArithmetic : Obligations.FloatingArithmetic :=
  ⟨Machine.floatingResults, Machine.floatingReductions, Machine.blockValues, Machine.conversionValues, Machine.d8Codes, Machine.phasorValues,
    Machine.cordicSpecials, Machine.cordicBound_holds⟩

end Sys2Proof
end
